-- ==== Sys2Proof/Word.lean ====
section
/-! DEFINITION. The word and byte types, and the map type of sparse memories and register files. -/

namespace Sys2Proof

/-- One byte. -/
abbrev Byte := BitVec 8

/-- A control-window register or a core scalar register: 64 bits (R9, R165). -/
abbrev Word := BitVec 64

/-- Sparse data: pairs of key and value, keys strictly rising, no pair equal to what an unlisted key reads as. -/
abbrev NMap (α : Type) := List (Nat × α)

/-- A sparse byte memory in the form of NMap; an unlisted address reads as zero. -/
abbrev Mem := List (Nat × BitVec 8)

end Sys2Proof
end

