-- ==== Sys2Proof/Syntax.lean ====
section
/-! DEFINITION. The commands of the block: everything that acts on the device from outside it or at a time of its own, as rows
of the opcode table. -/

namespace Sys2Proof

/-- One instruction issued from a bundle of a P-core or G-core (R159, R161): compute tile, core and register bank, the slot it
stands in, whether it is the last of its bundle, and the physical upsets met while it executes: core-store addresses whose
parity fails now (R223) as 2·address, and 1 + 2·(2·nib + buf), 1 + 2·(16 + 8·nib + tile) or 1 + 2·48 for a parity error in a weight
buffer, an accumulator tile or the vector buffer (R102); for a matrix instruction still running at its Stroke's issue-stop cycle, the
units it has done then (R110). -/
structure Issue where
  tile : Nat
  core : Nat
  bank : Nat
  slot : Nat
  last : Bool
  upsets : List Nat
  cut : Option Nat := none
  deriving DecidableEq, Repr

/-- A Flonil packet (R399) as fields, with its payload bytes. -/
structure Packet where
  type : Nat
  poison : Bool
  cp : Bool
  retry : Bool
  lines : Nat
  dst : Nat
  src : Nat
  domain : Nat
  addr : Nat
  age : Nat
  tag : Nat
  seq : Nat
  rop : Nat
  fmt : Nat
  w64 : Bool
  status : Nat
  var : Nat
  count : Nat
  /-- COLL packets (R443): bits [191:188] and [255:224]. -/
  kind : Nat
  check : Nat
  payload : List Nat
  deriving DecidableEq, Repr

/-- What the active Wioliz core meets in one management loop (R507): temperatures in 1/8 °C as 16-bit patterns (MGT_TEMP, MGT_HBM_TEMP),
rails as (mA, mV), the package power in mW, whether the previous loop overran; from the PTP agent a rate, the time-receiver port, the
phase error in ns and messages to send as (MAC, whether to 01-80-C2-00-00-0E, bytes after the EtherType); whether a loading image has reported ready (R530), and
whether the standby core has loaded its image. -/
structure Loop where
  temps : List Nat
  hbm : List Nat
  rails : List (Nat × Nat)
  power : Nat
  overrun : Bool
  rate : Option Nat
  rx : Option Nat
  phase : Nat
  send : List (Nat × Bool × List Nat)
  ready : Bool
  shadow : Bool
  deriving DecidableEq, Repr

/-- What the origin keeps of a request and its members need beside their message (R262): the tokens of the prompt, the tick at which it
accepted the request (R238), the adapter version it pinned (R260). -/
structure Kept where
  toks : List Nat
  accept : Nat
  version : Nat
  deriving DecidableEq, Repr

/-- Where a packet for a multicast group arrives: its port (36: from this package) and its link channel (R397). -/
structure Arrival where
  port : Nat
  lvc : Nat
  deriving DecidableEq, Repr

/-- What a cold start meets (R520, R526, R533, R540): whether the identity could be reconstructed, configuration records in flash that
read back bad (0 pending, 1 live, 2 previous), image slots that do (0 primary, 1 previous, 2 staging), and what fails self-test: units as
(kind, index) of R523, cores (16·tile + core) by a Nib or an SRAM bank, compute tiles by their top die or tile store, stacks by their HBM PHY
(R39), a mesh router or link (R41), the PCIe endpoint, tick unit or time unit of radio tile 0 (R42). -/
structure Boot where
  puf : Bool
  badRecords : List Nat
  badImages : List Nat
  failed : List (Nat × Nat)
  cores : List Nat := []
  tiles : List Nat := []
  stackIds : List Nat := []
  mesh : Bool := false
  central : Bool := false
  deriving DecidableEq, Repr

/-- The commands the block takes: one constructor per row of spec/opcode_table.json. The docstring of each is its row's rule and summary. -/
inductive Instr where
  /-- REGISTER_WRITE (R12). A host write to a control-window register that has no row of its own takes effect according to the field's access code. -/
  | registerWrite (req : Nat) (off : Nat) (be : BitVec 8) (v : Word)
  /-- LOW_WORD_READ (R9). A read of the low word of a 64-bit register reads the whole register at one cycle, applies the read effects and latches the high word for the same requester. -/
  | lowWordRead (req : Nat) (off : Nat)
  /-- RC_READ (R12). A read of an RC field returns the current value and then clears the field. -/
  | rcRead (req : Nat) (off : Nat)
  /-- TICK_EDGE (R73). Corrected time reaches the edge instant, TICK_NUM advances, and the edge sequence runs on every tile. -/
  | tickEdge (late : List Nat)
  /-- STROKE_WINDOW_OPEN (R62). At a Stroke's offset its window opens; it waits on wait_sem if enabled, then starts or resumes. -/
  | strokeWindowOpen (n : Nat) (i : Nat)
  /-- ISSUE_STOP (R63). A Stroke that has not exited by its issue-stop cycle reaches its budget. -/
  | issueStop (n : Nat) (i : Nat)
  /-- COMMIT (R79). A BLK_COMMIT write with op COMMIT makes a COMMIT pending for its block's next apply cycle. -/
  | commit (b : Nat) (gen : Nat)
  /-- REVERT (R80). A BLK_COMMIT write with op REVERT makes pending a return to the previous generation. -/
  | revert (b : Nat) (gen : Nat)
  /-- STOPPED_APPLY (R83). While the tick unit is stopped, pending COMMIT, REVERT, PART_CTRL and fence operations take effect within 64 cycles of arrival. -/
  | stoppedApply
  /-- TICK_SWITCH (R75). A write of TICK_SWITCH arms an image switch to a slot at a target tick, or refuses it. -/
  | tickSwitch (v : Nat)
  /-- TICK_RUN (R77). Writing TICK_CTRL.run = 1 while stopped starts tick generation at the armed switch target. -/
  | tickRun
  /-- TICK_STOP (R77). Writing TICK_CTRL.run = 0 lets the current windows close and stops further edges. -/
  | tickStop
  /-- TICK_UNIT_STOPPED (R77). At the instant the next edge would have fallen, TICK_STAT.running clears. -/
  | tickUnitStopped
  /-- SWITCH_TARGET_PASSED (R77). An armed switch whose target TICK_NUM reaches while stopped is withdrawn with reason 0x6. -/
  | switchTargetPassed
  /-- MESH_REPLAY (R30). A mesh flit with a parity error is discarded and replayed from the sender's replay buffer, writing GLB.MESH_REPLAY. -/
  | meshReplay (link : Nat) (times : Nat)
  /-- ZEROING_COMPLETE (R108). Zeroing of a reassigned accumulator tile, granule, Reservoir granule or Scribe memory completes and waiting accesses proceed. -/
  | zeroingComplete (kind : Nat) (index : Nat)
  /-- CHANNEL_SCRUB_COMPLETE (R210). The scrub of a channel whose owner or interleave changed writes its last line and the scrubbing bit clears. -/
  | channelScrubComplete (ch : Nat)
  /-- WAY_WRITE_BACK_COMPLETE (R215). Write-back of the lines in a way removed from a mask completes and the flushing bit clears. -/
  | wayWriteBackComplete (n : Nat)
  /-- NLW (R94). Loads one weight tile from the core store into a weight buffer of one Nib. -/
  | nlw (x : Issue) (w : Word)
  /-- NMM (R87). Runs one Nib matrix multiply of 128 rows into the named accumulator of each masked Nib. -/
  | nmm (x : Issue) (w : Word)
  /-- NDRN (R100). Drains accumulator tiles to the core store with conversion and optional clear. -/
  | ndrn (x : Issue) (w : Word)
  /-- NCLR (R101). Clears accumulator tiles, a pair or a quad, on every Nib in the mask. -/
  | nclr (x : Issue) (w : Word)
  /-- HLV (R112). Loads vectors from the core store into the Hairline vector buffer. -/
  | hlv (x : Issue) (w : Word)
  /-- HMV (R114). Runs one Hairline matrix-vector product over weight lines streamed from HBM. -/
  | hmv (x : Issue) (w : Word)
  /-- NOP (R160). Core no-operation in any slot. -/
  | nop (x : Issue) (w : Word)
  /-- ADD (R174). Scalar add. -/
  | add (x : Issue) (w : Word)
  /-- SUB (R174). Scalar subtract. -/
  | sub (x : Issue) (w : Word)
  /-- AND (R174). Scalar bitwise and. -/
  | andOp (x : Issue) (w : Word)
  /-- OR (R174). Scalar bitwise or. -/
  | orOp (x : Issue) (w : Word)
  /-- XOR (R174). Scalar bitwise xor. -/
  | xorOp (x : Issue) (w : Word)
  /-- SHL (R174). Scalar shift left. -/
  | shl (x : Issue) (w : Word)
  /-- SHR (R174). Scalar logical shift right. -/
  | shr (x : Issue) (w : Word)
  /-- SRA (R174). Scalar arithmetic shift right. -/
  | sra (x : Issue) (w : Word)
  /-- MUL (R174). Scalar multiply, low 64 bits. -/
  | mul (x : Issue) (w : Word)
  /-- MIN (R174). Scalar signed minimum. -/
  | minOp (x : Issue) (w : Word)
  /-- MAX (R174). Scalar signed maximum. -/
  | maxOp (x : Issue) (w : Word)
  /-- CMP (R174). Compares two scalars and sets every bit of a predicate. -/
  | cmp (x : Issue) (w : Word)
  /-- LI (R174). Loads an immediate into a scalar register. -/
  | li (x : Issue) (w : Word)
  /-- LUI (R174). Loads an immediate into the upper 32 bits of a scalar register. -/
  | lui (x : Issue) (w : Word)
  /-- MOVA (R174). Copies a scalar register into an address register. -/
  | mova (x : Issue) (w : Word)
  /-- MOVS (R174). Copies an address register into a scalar register. -/
  | movs (x : Issue) (w : Word)
  /-- ADDA (R174). Adds to an address register. -/
  | adda (x : Issue) (w : Word)
  /-- JMP (R174). Relative jump, conditional when guarded. -/
  | jmp (x : Issue) (w : Word)
  /-- JMPR (R174). Jumps to a register offset in the program region, or faults on a bad target. -/
  | jmpr (x : Issue) (w : Word)
  /-- EXIT (R170). Ends the Stroke once its work and DMAs complete and its remote operations are acknowledged, then posts post_sem. -/
  | exit (x : Issue) (w : Word)
  /-- CSRR (R175). Reads a control and status register. -/
  | csrr (x : Issue) (w : Word)
  /-- CSRW (R175). Clears bits of the FLAGS CSR. -/
  | csrw (x : Issue) (w : Word)
  /-- VADD (R183). Lanewise vector add. -/
  | vadd (x : Issue) (w : Word)
  /-- VSUB (R183). Lanewise vector subtract. -/
  | vsub (x : Issue) (w : Word)
  /-- VMUL (R183). Lanewise vector multiply. -/
  | vmul (x : Issue) (w : Word)
  /-- VFMA (R183). Vector fused multiply-add with one rounding. -/
  | vfma (x : Issue) (w : Word)
  /-- VMIN (R183). Vector IEEE minimum. -/
  | vmin (x : Issue) (w : Word)
  /-- VMAX (R183). Vector IEEE maximum. -/
  | vmax (x : Issue) (w : Word)
  /-- VDIV (R183). Correctly rounded vector division. -/
  | vdiv (x : Issue) (w : Word)
  /-- VSQRT (R183). Correctly rounded vector square root. -/
  | vsqrt (x : Issue) (w : Word)
  /-- VFN (R183). Vector transcendental function selected by sub. -/
  | vfn (x : Issue) (w : Word)
  /-- VCVT (R185). Vector format conversion, with stochastic rounding when selected. -/
  | vcvt (x : Issue) (w : Word)
  /-- VCMP (R183). Vector compare into a predicate. -/
  | vcmp (x : Issue) (w : Word)
  /-- VSEL (R183). Vector select by predicate. -/
  | vsel (x : Issue) (w : Word)
  /-- VRED (R184). Vector reduction over lanes by the canonical tree. -/
  | vred (x : Issue) (w : Word)
  /-- VBC (R183). Broadcasts a scalar into every lane. -/
  | vbc (x : Issue) (w : Word)
  /-- VLOGIC (R183). Vector bitwise operations and shifts. -/
  | vlogic (x : Issue) (w : Word)
  /-- VRNG (R186). Produces random generator output for a range of elements of a stream. -/
  | vrng (x : Issue) (w : Word)
  /-- VACR (R187). Copies two accumulator rows into a vector register. -/
  | vacr (x : Issue) (w : Word)
  /-- VACW (R187). Copies a vector register into two accumulator rows. -/
  | vacw (x : Issue) (w : Word)
  /-- VLD (R188). Loads 1,024 bytes from the core store into a vector register. -/
  | vld (x : Issue) (w : Word)
  /-- VST (R188). Stores a vector register into the core store. -/
  | vst (x : Issue) (w : Word)
  /-- LDS (R188). Loads 8 bytes from the core store into a scalar register. -/
  | lds (x : Issue) (w : Word)
  /-- STS (R188). Stores 8 bytes from a scalar register into the core store. -/
  | sts (x : Issue) (w : Word)
  /-- DMA (R189). Starts a strided copy between the core store and device local memory. -/
  | dma (x : Issue) (w : Word)
  /-- DMA_COMPLETE (R190). A DMA whose last byte is written and whose predecessors are complete completes in program order and posts its semaphore. -/
  | dmaComplete (tile : Nat) (core : Nat) (bank : Nat)
  /-- DMAW (R190). Waits until at most max_out DMAs of the context are outstanding. -/
  | dmaw (x : Issue) (w : Word)
  /-- FENCE (R190). Waits for earlier DMAs to complete and remote writes to be acknowledged or bounded. -/
  | fence (x : Issue) (w : Word)
  /-- RLD (R191). Loads remote lines into a vector register. -/
  | rld (x : Issue) (w : Word)
  /-- RST (R191). Stores lines to remote memory, each line atomic. -/
  | rst (x : Issue) (w : Word)
  /-- RMST (R191). Stores lines to a multicast group. -/
  | rmst (x : Issue) (w : Word)
  /-- RRED (R191). Reduces vector elements into remote target lines. -/
  | rred (x : Issue) (w : Word)
  /-- RATOM (R191). Performs one remote atomic on a word and returns its old value. -/
  | ratom (x : Issue) (w : Word)
  /-- RSEMP (R191). Posts a count to a semaphore of a target package, as a release. -/
  | rsemp (x : Issue) (w : Word)
  /-- SEMW (R194). Waits until a semaphore is non-zero and decrements it. -/
  | semw (x : Issue) (w : Word)
  /-- SEMP (R194). Adds a count to a semaphore, as a release. -/
  | semp (x : Issue) (w : Word)
  /-- SEMT (R194). Decrements a semaphore if non-zero and reports the result in a predicate. -/
  | semt (x : Issue) (w : Word)
  /-- SEMR (R194). Reads a semaphore's value. -/
  | semr (x : Issue) (w : Word)
  /-- SEMAPHORE_GRANT (R195). A grant for a registered waiter arrives and satisfies its wait, or is held in the bank if the registration was withdrawn. -/
  | semaphoreGrant (i : Nat)
  /-- COLL (R196). Hands a 64-byte collective command to a collective engine. -/
  | coll (x : Issue) (w : Word)
  /-- IKC (R196). Hands a 64-byte command to an Inkwell controller. -/
  | ikc (x : Issue) (w : Word)
  /-- QLC (R196). Hands a 64-byte command to a Quill. -/
  | qlc (x : Issue) (w : Word)
  /-- HBM_CHAN_FAIL (R223). A channel failing its checks on 16 consecutive transfers is declared failed. -/
  | hbmChanFail (ch : Nat)
  /-- PATROL_SCRUB (R222). Patrol scrub reads every line of each present channel once per period and rewrites corrected lines. -/
  | patrolScrub (ch : Nat) (corrected : Nat) (odecc : Nat) (ue : List Nat) (clean : Nat) (dirty : List Nat)
  /-- SUBMIT (R234). A SUBMIT command is checked and admitted as a request, or refused with a final record. -/
  | submit (q : Nat) (i : Nat)
  /-- CANCEL (R232). A CANCEL command ends a request at the next edge or step boundary. -/
  | cancel (q : Nat) (i : Nat)
  /-- ADAPTER_LOAD (R261). Loads an adapter version into a free slot, or waits for one. -/
  | adapterLoad (q : Nat) (i : Nat)
  /-- ADAPTER_LIVE (R261). At the first edge after a load's last byte lands, the new version goes live and the old slot starts retiring. -/
  | adapterLive (k : Nat)
  /-- ADAPTER_DROP (R261). Stops new pins of an adapter so that its slots free as their refs reach zero. -/
  | adapterDrop (q : Nat) (i : Nat)
  /-- BATCH_BOUNDARY (R242). At a batch's step boundary the scheduler prepares the next step and posts step_sem. -/
  | batchBoundary (b : Nat)
  /-- PROMPT_PHASE_START (R254). A prompt phase whose frames can be allocated starts at an edge. -/
  | promptPhaseStart (p : Nat)
  /-- DEADLINE_MISSED (R240). A QUEUED or JOINWAIT request with drop_late whose goal passes ends with DEADLINE_MISSED. -/
  | deadlineMissed (p : Nat) (h : Nat)
  /-- KV_READY (R267). An IKC KV_READY reports completed blocks of a sequence to Inkwell. -/
  | kvReady (n : Nat)
  /-- STEP_DONE (R267). An IKC STEP_DONE marks a batch's step complete. -/
  | stepDone (n : Nat)
  /-- PROMPT_REQ (R262). The origin asks a prompt member to run a request's prompt phase. -/
  | promptReq (p : Packet) (prompt : Kept)
  /-- HANDOFF_OPEN (R262). A prompt member asks a generation or cache member to reserve frames. -/
  | handoffOpen (p : Packet) (body : Nat) (prompt : Kept)
  /-- HANDOFF_REPLY (R417). A member answers a handoff with frame addresses or a refusal status. -/
  | handoffReply (p : Packet)
  /-- KV_DONE (R262). A prompt member reports that all blocks are stored. -/
  | kvDone (p : Packet)
  /-- KV_ACK (R262). A generation member reports blocks received and placed, binding the request to it. -/
  | kvAck (p : Packet)
  /-- TOKEN (R262). A generation member sends a step's tokens to the origin, which writes them to the output buffer. -/
  | token (p : Packet)
  /-- CANCEL_MSG (R262). The origin tells a member to end a request. -/
  | cancelMsg (p : Packet)
  /-- MEMBER_LOST (R265). A lost or down member triggers the re-route, re-prefill or ending action of the failure table. -/
  | memberLost (dev : Nat)
  /-- SAMPLE (R285). Quill processes logit rows, verifies drafts and emits tokens. -/
  | sample (j : Nat) (i : Nat) (upset : Bool)
  /-- INIT (R273). Initialises a Quill context from the command. -/
  | initCtx (j : Nat) (i : Nat)
  /-- SCRIBE_NOP (R308). Scribe ALU no-operation; moves only. -/
  | scribeNop (k : Nat) (upset : Bool)
  /-- CLR (R308). Clears an accumulator. -/
  | clr (k : Nat) (upset : Bool)
  /-- MOV (R308). Moves a register into an accumulator scaled by 2^15. -/
  | mov (k : Nat) (upset : Bool)
  /-- MPY (R308). Complex multiply into an accumulator. -/
  | mpy (k : Nat) (upset : Bool)
  /-- MAC (R308). Complex multiply-accumulate. -/
  | mac (k : Nat) (upset : Bool)
  /-- MSU (R308). Complex multiply-subtract. -/
  | msu (k : Nat) (upset : Bool)
  /-- MACL (R308). Multiply-accumulate by one broadcast lane. -/
  | macl (k : Nat) (upset : Bool)
  /-- MAG (R308). Squared magnitude into an accumulator. -/
  | mag (k : Nat) (upset : Bool)
  /-- MAGA (R308). Accumulates squared magnitude. -/
  | maga (k : Nat) (upset : Bool)
  /-- ADDR (R308). Adds a register into an accumulator. -/
  | addr (k : Nat) (upset : Bool)
  /-- SUBR (R308). Subtracts a register from an accumulator. -/
  | subr (k : Nat) (upset : Bool)
  /-- ACCA (R308). Adds one accumulator into another. -/
  | acca (k : Nat) (upset : Bool)
  /-- ASH (R308). Arithmetic shift of an accumulator. -/
  | ash (k : Nat) (upset : Bool)
  /-- NEG (R308). Negates an accumulator. -/
  | neg (k : Nat) (upset : Bool)
  /-- RMPY (R308). Real elementwise multiply. -/
  | rmpy (k : Nat) (upset : Bool)
  /-- RMAC (R308). Real elementwise multiply-accumulate. -/
  | rmac (k : Nat) (upset : Bool)
  /-- BEXP (R309). Block-exponent detection into a stride register. -/
  | bexp (k : Nat) (upset : Bool)
  /-- NORM (R309). Normalises an accumulator by a register shift. -/
  | norm (k : Nat) (upset : Bool)
  /-- EXPX (R309). Extracts per-part exponents. -/
  | expx (k : Nat) (upset : Bool)
  /-- NORMP (R309). Normalises each part by its own headroom. -/
  | normp (k : Nat) (upset : Bool)
  /-- BF2 (R310). Radix-2 butterfly. -/
  | bf2 (k : Nat) (upset : Bool)
  /-- BF3 (R310). Radix-3 butterfly. -/
  | bf3 (k : Nat) (upset : Bool)
  /-- BF4 (R310). Radix-4 butterfly. -/
  | bf4 (k : Nat) (upset : Bool)
  /-- SHUF (R310). Lane permutation of two sources. -/
  | shuf (k : Nat) (upset : Bool)
  /-- GOLD (R311). Generates the next Gold-sequence QPSK lanes. -/
  | gold (k : Nat) (upset : Bool)
  /-- MODM (R311). Maps bits to constellation points. -/
  | modm (k : Nat) (upset : Bool)
  /-- DEMAP (R311). Computes LLRs and writes them to Y memory. -/
  | demap (k : Nat) (upset : Bool)
  /-- BFPX (R313). Expands two block-floating-point PRBs. -/
  | bfpx (k : Nat) (upset : Bool)
  /-- BFPC (R313). Compresses lanes into two block-floating-point PRBs. -/
  | bfpc (k : Nat) (upset : Bool)
  /-- MAXA (R308). Per-part maximum into an accumulator. -/
  | maxa (k : Nat) (upset : Bool)
  /-- MINA (R308). Per-part minimum into an accumulator. -/
  | mina (k : Nat) (upset : Bool)
  /-- LOOP (R314). Starts a zero-overhead loop. -/
  | loop (k : Nat) (upset : Bool)
  /-- SCRIBE_JMP (R314). Scribe conditional jump that pops the loops it leaves. -/
  | scribeJmp (k : Nat) (upset : Bool)
  /-- AGA (R314). Updates a pointer or stride under its pattern. -/
  | aga (k : Nat) (upset : Bool)
  /-- MOVI (R314). Loads an immediate into a Scribe register. -/
  | movi (k : Nat) (upset : Bool)
  /-- MOVR (R314). Copies one Scribe register into another. -/
  | movr (k : Nat) (upset : Bool)
  /-- MOVL (R314). Loads a Scribe register from X memory. -/
  | movl (k : Nat) (upset : Bool)
  /-- SEQI (R314). Initialises the scrambling sequence from X memory. -/
  | seqi (k : Nat) (upset : Bool)
  /-- SEQS (R314). Advances the scrambling sequence. -/
  | seqs (k : Nat) (upset : Bool)
  /-- XFER (R315). Starts a Scribe transfer described in X memory. -/
  | xfer (k : Nat) (upset : Bool)
  /-- XWAIT (R314). Waits until at most max_out transfers are outstanding. -/
  | xwait (k : Nat) (upset : Bool)
  /-- SCRIBE_SEMP (R314). Scribe semaphore post. -/
  | scribeSemp (k : Nat) (upset : Bool)
  /-- SCRIBE_SEMW (R314). Scribe semaphore wait. -/
  | scribeSemw (k : Nat) (upset : Bool)
  /-- SCRIBE_EXIT (R304). Ends the Scribe Stroke once its transfers have completed. -/
  | scribeExit (k : Nat) (upset : Bool)
  /-- LDPC_DEC (R320). FEC command: LDPC decode with rate recovery, HARQ combining and CRC check. -/
  | ldpcDec (t : Nat) (upset : Bool)
  /-- TURBO_DEC (R320). FEC command: LTE turbo decode. -/
  | turboDec (t : Nat) (upset : Bool)
  /-- LDPC_ENC (R320). FEC command: LDPC encode with rate matching and scrambling. -/
  | ldpcEnc (t : Nat) (upset : Bool)
  /-- POLAR_DEC (R320). FEC command: polar list decode. -/
  | polarDec (t : Nat) (upset : Bool)
  /-- CONV_DEC (R320). FEC command: tail-biting convolutional decode. -/
  | convDec (t : Nat) (upset : Bool)
  /-- FRAME_RECEIVED (R337). A received Ethernet frame is filtered and classified to a receive queue, the time unit, the host or none. -/
  | frameReceived (m : Nat) (done : Bool) (fcsOk : Bool) (parity : Bool) (lag : Nat) (bytes : List Nat)
  /-- PACKET_STALL (R342). A packet with no word for the stall limit is rewound. -/
  | packetStall (egress : Bool) (x : Nat)
  /-- XOFF_HOLD_END (R348). A threshold crossing held back by the 1 µs minimum pin interval takes effect when the interval ends. -/
  | xoffHoldEnd (p : Nat)
  /-- PFC_FRAME (R350). A received PFC frame pauses egress queues of honoured priorities. -/
  | pfcFrame (m : Nat) (vec : Nat) (quanta : List Nat)
  /-- PFC_PAUSE_EXPIRY (R350). A queue's pause quanta run out and it becomes eligible again. -/
  | pfcPauseExpiry (m : Nat) (k : Nat)
  /-- PFC_REFRESH (R348). While XOFF is set, the PFC XOFF frame is repeated every refresh period. -/
  | pfcRefresh (m : Nat)
  /-- ETH_LINK_DOWN (R365). A MAC loses lock, rewinds partial packets and writes ETH.LINK_DOWN. -/
  | ethLinkDown (m : Nat)
  /-- ETH_LINK_UP (R362). A MAC's link returns and its queues send again. -/
  | ethLinkUp (m : Nat)
  /-- EGRESS_SELECTION (R354). When a MAC is ready, the scheduler picks the next frame across traffic classes, gates and windows. -/
  | egressSelection (m : Nat) (upset : Bool)
  /-- TX_LATE (R353). A cell message not started by its late limit is removed and counted. -/
  | txLate (q : Nat) (i : Nat)
  /-- GATE_CHANGE (R356). A gate-control-list entry starts and changes which traffic classes are open. -/
  | gateChange (m : Nat)
  /-- SVC_SUBMIT (R360). A reassembled service SUBMIT message admits a request from Ethernet. -/
  | svcSubmit (q : Nat)
  /-- SVC_CANCEL (R360). A reassembled service CANCEL message ends a request. -/
  | svcCancel (q : Nat)
  /-- TIME_STEP (R369). A write of TIME_STEP steps corrected time while the tick unit is stopped, or is refused. -/
  | timeStep (v : Nat)
  /-- TIME_RATE (R367). A write of TIME_RATE rebases time and applies the clamped rate from the next cycle. -/
  | timeRate (v : Nat)
  /-- TIME_SOURCE (R371). A change of TIME_CTRL.source changes who drives rate, with no step. -/
  | timeSource (source : Nat) (servoMgr : Nat) (fabPort : Nat)
  /-- HOLD_REQ (R373). A write of TIME_CTRL.hold_req enters holdover or prepares its exit. -/
  | holdReq (v : Bool)
  /-- SERVO_WATCHDOG (R373). No TIME_RATE write for wd_ms in servo mode enters holdover. -/
  | servoWatchdog
  /-- PPS_EDGE (R377). A PPS_IN rising edge is captured into TIME_PPS_CAP. -/
  | ppsEdge
  /-- REF10_COUNT (R377). Each second the arithmetic cycles over 10,000,000 reference periods are recorded. -/
  | ref10Count (cycles : Nat)
  /-- PPS_LOST (R377). No PPS edge for 1.1 s clears pps_ok and writes TIME.PPS_LOST. -/
  | ppsLost
  /-- REF10_LOST (R377). A missing or off-frequency 10 MHz count clears ref10_ok and writes TIME.REF10_LOST. -/
  | ref10Lost
  /-- TIME_EXCHANGE (R378). A fabric time exchange arrives and the follower updates delay, offset and rate. -/
  | timeExchange (port : Nat) (t1 : Int) (t2 : Int) (t3 : Int) (hops : Nat) (hold : Bool)
  /-- FABRIC_HOLDOVER (R379). An upstream link that fails or carries no exchange for 16 µs puts the follower in holdover. -/
  | fabricHoldover (failed : Bool)
  /-- UNIT_TAKEOVER (R381). The standby time unit takes over when the active one misses 16 cycles of heartbeat or flags parity. -/
  | unitTakeover (parity : Bool)
  /-- UNIT_MISMATCH (R381). Disagreement of the two time units clears standby_ok and writes TIME.UNIT_MISMATCH. -/
  | unitMismatch
  /-- TIME_PULSE (R382). An output drives its active edge when T reaches a pulse target. -/
  | timePulse (k : Nat)
  /-- PULSE_END (R382). A pulse ends its width after its start. -/
  | pulseEnd (k : Nat)
  /-- BARRIER_ARRIVE (R383). A write of TIME_BAR_CTRL.arrive makes this member arrive and send ARRIVE to the root. -/
  | barrierArrive (b : Nat)
  /-- ARR_SEM_ARRIVE (R383). With arr_en set, a non-zero arr_sem is decremented and the member arrives. -/
  | arrSemArrive (b : Nat)
  /-- ARRIVE (R384). The root counts an ARRIVE and sends RELEASE when the count completes. -/
  | arrive (p : Packet)
  /-- RELEASE (R385). A member receives the release time, firing at once and setting late if it is already past. -/
  | release (p : Packet) (x : Arrival)
  /-- BARRIER_FIRE (R385). At the first cycle with T at or past T_rel the member posts rel_sem, pulses and advances gen. -/
  | barrierFire (b : Nat)
  /-- BARRIER_TIMEOUT (R386). No RELEASE, or an incomplete count at the root, within the bound aborts the generation. -/
  | barrierTimeout (b : Nat)
  /-- LINK_TRAIN (R394). A DOWN Flonil port retries training and moves through PARAM and TIME to UP, or refuses its peer. -/
  | linkTrain (k : Nat) (peer : Nat) (rev : Nat) (ok : Bool)
  /-- FLIT_REPLAY (R392). A flit failing CRC or parity is discarded and replayed. -/
  | flitReplay (k : Nat) (times : Nat)
  /-- FAB_LINK_DOWN (R394). An UP link loses lock, fails three replays, goes silent or is disabled, and goes DOWN. -/
  | fabLinkDown (k : Nat)
  /-- FORWARD (R396). A packet for another package is routed onward through the route tables. -/
  | forward (p : Packet) (lvc : Nat) (stay : Nat)
  /-- LOAD (R401). A remote load request is served at its point of order. -/
  | load (p : Packet) (combined : Bool)
  /-- STORE (R401). A remote store request writes lines at the target. -/
  | store (p : Packet)
  /-- MSTORE (R412). A multicast store is copied to ports, applied locally and acknowledged with a count. -/
  | mstore (p : Packet) (x : Arrival)
  /-- REDUCE (R403). A remote reduction applies rop elementwise to the target line. -/
  | reduce (p : Packet)
  /-- ATOMIC (R403). A remote atomic is applied once and returns its old value. -/
  | atomic (p : Packet) (combined : Bool)
  /-- SEMPOST (R400). A remote semaphore post is applied at the semaphore's home. -/
  | sempost (p : Packet)
  /-- RSV_REQ (R414). A Reservoir reservation request is granted, renewed or refused at once. -/
  | rsvReq (p : Packet)
  /-- RSV_REL (R414). Returns a reservation key's granules to the pool. -/
  | rsvRel (p : Packet)
  /-- LOAD_RSP (R404). A load reply arrives at the source and completes the load, or fails it on REFUSED or POISON. -/
  | loadRsp (p : Packet)
  /-- ACK (R404). An acknowledgement arrives at the source and completes a store, reduction, post or multicast. -/
  | ack (p : Packet) (port : Nat)
  /-- ATOMIC_RSP (R404). An atomic reply arrives and writes the old value to s_d. -/
  | atomicRsp (p : Packet)
  /-- RSV_RSP (R414). A reservation reply arrives at the requesting collective engine. -/
  | rsvRsp (p : Packet)
  /-- REMOTE_TIMEOUT (R404). A remote operation without its reply by the bound completes failed with the error value. -/
  | remoteTimeout (dev : Nat) (seq : Nat)
  /-- RETRY (R405). A load or atomic with no reply is retransmitted with retry = 1 at each retry interval. -/
  | retry (dev : Nat) (seq : Nat)
  /-- MCAST_ACK_TIMEOUT (R412). A package that has waited 3B/4 for downstream acknowledgements sends its aggregated acknowledgement. -/
  | mcastAckTimeout (src : Nat) (seq : Nat)
  /-- LEASE_EXPIRY (R414). A lapsed reservation lease returns its granules to the pool, zeroed. -/
  | leaseExpiry (i : Nat)
  /-- LEASE_RENEWAL (R430). A running collective renews its Reservoir lease every half lease. -/
  | leaseRenewal (q : Nat) (key : Nat)
  /-- ORDER_GATE_START (R438). A held Copperplate launch starts when its order equals next_order and is then checked. -/
  | orderGateStart (p : Nat)
  /-- ORDER_MISMATCH (R438). A held launch not started within C completes with ORDER_MISMATCH and breaks its communicator. -/
  | orderMismatch (p : Nat)
  /-- READY (R428). A rank's READY for a collective arrives with its signature and receive addresses. -/
  | ready (p : Packet)
  /-- DATA (R429). A contribution chunk lands in a shard slot and is combined. -/
  | data (p : Packet) (upset : Nat)
  /-- PUT (R428). A gather, broadcast or exchange block lands in dst. -/
  | putPkt (p : Packet)
  /-- EXP1 (R432). A contributor's phase-1 exponent records arrive at the shard owner. -/
  | exp1 (p : Packet)
  /-- EXPR (R432). Combined phase-1 records return to a contributor, which then sends its quantised data. -/
  | expr (p : Packet)
  /-- FINAL (R429). A reduced chunk lands in dst; the last one leads to the completion record. -/
  | finalPkt (p : Packet)
  /-- RESEND (R435). A RESEND makes the sender send the packet once more. -/
  | resend (p : Packet)
  /-- ABORT (R439). An ABORT ends the collective with the carried status. -/
  | abort (p : Packet)
  /-- PEER_TIMEOUT (R439). No traffic from a rank for C ends the collective with PEER_LOST. -/
  | peerTimeout (q : Nat) (key : Nat) (r : Nat)
  /-- CREATE (R455). PART_CTRL CREATE checks and sets up a partition, leaving it QUIESCED. -/
  | create (p : Nat)
  /-- QUIESCE (R456). PART_CTRL QUIESCE stops new Strokes, fetch and admission of a partition. -/
  | quiesce (p : Nat)
  /-- QUIESCE_COMPLETE (R456). At the first edge where all outstanding work has completed, the partition becomes QUIESCED. -/
  | quiesceComplete (p : Nat)
  /-- QUIESCE_SLOW (R456). A partition still QUIESCING after its limit sets quiesce_slow. -/
  | quiesceSlow (p : Nat)
  /-- RESUME (R458). PART_CTRL RESUME makes a QUIESCED partition ACTIVE. -/
  | resume (p : Nat)
  /-- RESET (R459). PART_CTRL RESET frees banks, ends requests and zeroes the partition's resources. -/
  | resetPart (p : Nat) (force : Bool)
  /-- REMOVE (R460). PART_CTRL REMOVE takes a partition that owns nothing to ABSENT. -/
  | remove (p : Nat)
  /-- COMP_SWITCH (R464). A write of PART_COMP_SWITCH arms an epoch switch, or refuses it. -/
  | compSwitch (p : Nat) (v : Nat)
  /-- DRAIN_WINDOW_CLOSE (R465). The drain window of the previous epoch closes and its messages become stale. -/
  | drainWindowClose (p : Nat)
  /-- METER_RECORD (R468). Every period_ms a meter record is written for each non-ABSENT partition. -/
  | meterRecord
  /-- FLT_FENCE (R480). A write of FLT_FENCE fences the named unit. -/
  | fltFence (v : Nat)
  /-- UNIT_FENCE (R481). A unit that raises three counted faults within 1,000 ms is fenced until cold start. -/
  | unitFence (kind : Nat) (index : Nat)
  /-- DOORBELL (R493). A write of HQ_DOORBELL starts a read of the named queue's tail. -/
  | doorbell (q : Nat) (stores : List (Nat × Nat))
  /-- TAIL_POLL (R493). The poll interval expires and the queue's tail is read. -/
  | tailPoll (q : Nat) (stores : List (Nat × Nat))
  /-- COMMAND_FETCH (R493). A tail read returns and the device fetches the new entries, reserving completion slots. -/
  | commandFetch (q : Nat) (ok : Bool) (stores : List (Nat × Nat))
  /-- HQ_NOP (R498). Host NOP command, completing at once. -/
  | hqNop (q : Nat) (i : Nat)
  /-- COPY_IN (R498). Copies host memory into device local memory. -/
  | copyIn (q : Nat) (i : Nat) (ok : Bool)
  /-- COPY_OUT (R498). Copies device local memory into host memory. -/
  | copyOut (q : Nat) (i : Nat) (ok : Bool)
  /-- SEM_POST (R498). Posts a semaphore from a host command. -/
  | semPost (q : Nat) (i : Nat)
  /-- NET_TX (R499). Writes one frame into a host-kind egress queue. -/
  | netTx (q : Nat) (i : Nat) (ok : Bool)
  /-- RX_BUF (R500). Posts a host buffer for a received frame or transport block. -/
  | rxBuf (q : Nat) (i : Nat)
  /-- HOST_ACCESS_TIMEOUT (R490). A host memory access without completion within 10 ms fails and writes HQ.HOST_ACCESS. -/
  | hostAccessTimeout (q : Nat) (i : Option Nat)
  /-- ATS_INVALIDATION (R490). An ATS invalidation completes once the accesses using the translation have completed. -/
  | atsInvalidation
  /-- PCIE_LINK_DOWN (R491). A hot reset or link loss clears HQ_LINK.up and stops host fetches and writes. -/
  | pcieLinkDown
  /-- MANAGEMENT_LOOP (R507). Every 1 ms the active Wioliz core samples sensors, controls power, runs PTP, takes a mailbox command and sends a state block. -/
  | managementLoop (x : Loop)
  /-- WIOLIZ_TAKEOVER (R508). The standby Wioliz core becomes active after 3 missing state blocks or a flagged parity failure. -/
  | wiolizTakeover
  /-- MBOX_NOP (R510). Mailbox no-operation. -/
  | mboxNop
  /-- STAGE (R529). Writes a block of a new image into the staging slot. -/
  | stage (flashOk : Bool)
  /-- VERIFY (R529). Checks the staged image and marks it VERIFIED. -/
  | verify
  /-- ACTIVATE (R530). Starts a live handover to the verified image, or arms it for the next cold start. -/
  | activate
  /-- REJECT (R532). Rejects an image in TRIAL and falls back to the old one. -/
  | reject
  /-- CONFIRM (R531). The new image confirms its health and the state becomes CONFIRMED. -/
  | confirm (healthy : Bool)
  /-- TRIAL_TIMEOUT (R532). The 30 s trial timer expires without confirmation and the device falls back. -/
  | trialTimeout
  /-- CFG_INSTALL (R525). Makes pending a Lemwick configuration section with a device-signed section. -/
  | cfgInstall (flashOk : Bool)
  /-- CFG_RETIRE (R525). Makes pending the live record with one more retirement entry. -/
  | cfgRetire (flashOk : Bool)
  /-- CFG_REVERT (R525). Makes pending a revert to the previous record, keeping every live retirement. -/
  | cfgRevert (flashOk : Bool)
  /-- CFG_CANCEL (R525). Withdraws the pending configuration record. -/
  | cfgCancel (flashOk : Bool)
  /-- ATTEST (R522). Writes a signed attestation body for a nonce. -/
  | attest
  /-- CERT_READ (R510). Copies the device certificate into memory. -/
  | certRead
  /-- LOG_READ (R535). Copies log entries into memory. -/
  | logRead
  /-- POWER (R515). Requests the Active, Idle or Dormant power state. -/
  | power
  /-- SETTING_SET (R534). Changes and stores a setting. -/
  | settingSet (flashOk : Bool)
  /-- SETTING_GET (R534). Returns a setting's value and format. -/
  | settingGet
  /-- SMBUS_WRITE (R519). A board-management write, such as the board power limit, takes effect at the next loop. -/
  | smbusWrite (code : Nat) (v : Nat) (pecOk : Bool)
  /-- FAULT_COUNT_READ (R519). A board read of code 0x06 returns and clears the class 0x8 and 0x9 fault counts. -/
  | faultCountRead
  /-- PWR_GOOD_RISE (R540). PWR_GOOD rises after the rails are in band. -/
  | pwrGoodRise
  /-- PWR_GOOD_FALL (R541). PWR_GOOD falls and the device stops all activity within 10 µs. -/
  | pwrGoodFall
  /-- RESET_N_ASSERT (R544). A RESET_N low pulse longer than 1 µs stops all activity. -/
  | resetNAssert (ns : Nat)
  /-- COLD_START (R546). The release of RESET_N runs the cold start through to CORE_READY. -/
  | coldStart (x : Boot)
  /-- WAKE_N (R545). A low level on WAKE_N while dormant latches wake cause 2. -/
  | wakeN (ns : Nat)
  /-- THERMTRIP (R548). A sensor at trip temperature drives THERMTRIP_N low, stops clocks and latches cause 5. -/
  | thermtrip
  /-- PCIE_PERST_N (R546). The rise of PCIE_PERST_N after CORE_READY starts PCIe link training. -/
  | pciePerstN (high : Bool)
  /-- BYPASS (R551). Test-access instruction BYPASS. -/
  | bypass
  /-- IDCODE (R551). Test-access instruction that reads the identification code. -/
  | idcode
  /-- SAMPLE_PRELOAD (R551). Test-access instruction SAMPLE/PRELOAD. -/
  | samplePreload (sample : Nat) (preload : Nat)
  /-- EXTEST (R551). Test-access instruction that takes the boundary pins from the core. -/
  | extest (sample : Nat) (drive : Nat)
  /-- CLAMP (R551). Test-access instruction CLAMP. -/
  | clamp
  /-- HIGHZ (R551). Test-access instruction HIGHZ. -/
  | highz
  /-- HIGH_WORD_READ (R9). A read of the high word of a 64-bit register returns and consumes the latch pending for its requester, or reads the high word afresh with its own read effects. -/
  | highWordRead (req : Nat) (off : Nat)
  /-- NARROW_READ (R10). A read whose byte enables do not cover whole aligned 32-bit words returns zeros, has no read effect and records GLB.BAD_ACCESS. -/
  | narrowRead (off : Nat)
  /-- XFER_COMPLETE (R315). A Scribe transfer finishes in issue order, freeing a received packet's Blotter space, committing an egress message or finishing its export, and releasing XWAIT and EXIT. -/
  | xferComplete (k : Nat)
  /-- MALFORMED_PACKET (R400). A Flonil packet of an unassigned type is dropped at the receiver and counted in FAB_STAT.malformed. -/
  | malformedPacket (p : Packet)
  /-- HBM_SELF_REFRESH (R515). In Idle, a channel not accessed for 1 ms enters self-refresh, and a later access wakes it within 4 µs. -/
  | hbmSelfRefresh (ch : Nat) (enter : Bool)
  /-- STANDBY_RAIL_LOSS (R545). Loss of rail 15 loses the wake latch, so the next cold start reports cause 1. -/
  | standbyRailLoss
  /-- PCIE_LINK_UP (R491). The PCIe link returns after a hot reset or link loss, HQ_LINK.up sets, and host writes stop being dropped. -/
  | pcieLinkUp (speed : Nat) (width : Nat)
  /-- PCIE_POWER_STATE (R518). A configuration-space change between D0 and D3hot starts or stops the dropping and counting of device writes to host memory. -/
  | pciePowerState (d3 : Bool)
  deriving DecidableEq, Repr

end Sys2Proof
end

