-- ==== Sys2Proof/Decode.lean ====
section
/-! DEFINITION. The decoder of the opcode table's words. The table gives no row any bits: the commands of this block come over its
buses, packets and pins with operands of their own, and a host command's 64 bytes are read by the meaning of its row. -/

namespace Sys2Proof

/-- The command that the word w of nbits bits spells by the table's bits: none, since no row of the table has bits. -/
def decodeTableWord (_nbits _w : Nat) : Option Instr := none

end Sys2Proof
end

