-- ==== Sys2Proof/Config.lean ====
section
/-! DEFINITION. What the spec leaves open: values with no body, so that no proof can see what they are. -/

namespace Sys2Proof.Config

/-- The n-th free value a command takes (State.free counts them): undefined results, and choices of the device that the spec
does not fix (assumption log 3). -/
opaque freeNat : Nat → Nat

/-- The hash of R212: the set of a line of a tile store, by its address / 64. -/
opaque tsHash : Nat → Nat

/-- The transcendental functions of VFN (R132) on FP32 patterns, by their sub-operation: a fixed function of the input; which of the results
within 1 ulp it is, the spec does not give. -/
opaque vfn : Nat → Nat → Nat

/-- The local receive queue that is the host queue of a MAC (R337): R337 sends frames there and no rule says which queue it
is. -/
opaque hostRxQueue : Nat → Nat

/-- Results of a FEC command (R320): functions of its 512 bits, its source bytes and its soft buffer, which the cited coding
chains leave to the engine's decoder or give in tables this spec does not carry: whether the CRC passes, iterations or list
index, how many bits less than the block's size are information, the output bits, the combined buffer. -/
opaque fecPass : Nat → Nat → Nat → Bool
opaque fecIter : Nat → Nat → Nat → Nat
opaque fecCut : Nat → Nat
opaque fecData : Nat → Nat → Nat → Nat
opaque fecSoft : Nat → Nat → Nat → Nat

/-- Cryptography of Wioliz (R520 to R522): the SHA3-256 digest of bytes, whether a Lemwick signature of bytes verifies, byte i of the
device's hedged signature of bytes under the randomness r, the identity digest, the bytes of the device certificate. -/
opaque sha3 : List Nat → Nat
opaque lemwickOk : List Nat → List Nat → Bool
opaque sigByte : List Nat → Nat → Nat → Nat
opaque identity : Nat
opaque cert : List Nat

/-- The format in which an image of a version defines a setting (R534). -/
opaque imgFormat : Nat → Nat → Nat

end Sys2Proof.Config
end

