-- ==== Sys2Proof/Machine/Map.lean ====
section
/-! DEFINITION. Bit fields of a natural number, and the operations of the sparse map (one canonical form: keys strictly
rising, no pair equal to the default of its key). -/

namespace Sys2Proof.Machine

/-- Bits [lo+w-1 : lo] of x (R8). -/
def bits (x lo w : Nat) : Nat := x / 2 ^ lo % 2 ^ w

/-- Bit n of x. -/
def bit (x n : Nat) : Bool := x / 2 ^ n % 2 == 1

/-- x with bits [lo+w-1 : lo] replaced by the low w bits of v. -/
def setBits (x lo w v : Nat) : Nat :=
  x % 2 ^ lo + v % 2 ^ w * 2 ^ lo + x / 2 ^ (lo + w) * 2 ^ (lo + w)

/-- The bits [lo+n−1:lo] as a mask. -/
def msk (lo n : Nat) : Nat := (2 ^ n - 1) * 2 ^ lo

/-- The two's-complement value of the low w bits of x. -/
def sInt (x w : Nat) : Int := if x % 2 ^ w < 2 ^ (w - 1) then (x % 2 ^ w : Nat) else ((x % 2 ^ w : Nat) : Int) - ((2 ^ w : Nat) : Int)

/-- The w-bit two's-complement pattern of i (wrapping). -/
def ofInt (i : Int) (w : Nat) : Nat := (i % ((2 ^ w : Nat) : Int)).toNat

/-- 1 for true, 0 for false. -/
def b2n (b : Bool) : Nat := if b then 1 else 0

/-- x divided by y, rounded up. -/
def cdiv (x y : Nat) : Nat := (x + (y - 1)) / y

/-- Saturating addition below 2^w (R14). -/
def satAdd (x n w : Nat) : Nat := min (x + n) (2 ^ w - 1)

namespace NMap

/-- The value at key k; `d` where k is not listed. -/
def get {α : Type} (d : α) : List (Nat × α) → Nat → α
  | [], _ => d
  | (j, v) :: r, k => if j = k then v else get d r k

/-- The value at key k, if listed. -/
def find {α : Type} : List (Nat × α) → Nat → Option α
  | [], _ => none
  | (j, v) :: r, k => if j = k then some v else find r k

/-- The map without key k. -/
def del {α : Type} (m : List (Nat × α)) (k : Nat) : List (Nat × α) := m.filter (fun e => decide (e.1 ≠ k))

/-- The map with (k, v) listed, keys kept rising. -/
def ins {α : Type} : List (Nat × α) → Nat → α → List (Nat × α)
  | [], k, v => [(k, v)]
  | (j, u) :: r, k, v => if j = k then (k, v) :: r else if k < j then (k, v) :: (j, u) :: r else (j, u) :: ins r k v

/-- Write v at k; a value equal to the default `d` of k removes the entry, so that equal maps are equal lists. -/
def put {α : Type} [DecidableEq α] (d : α) (m : List (Nat × α)) (k : Nat) (v : α) : List (Nat × α) :=
  if v = d then del m k else ins m k v

/-- Remove every key in [lo, hi). -/
def clearRange {α : Type} (m : List (Nat × α)) (lo hi : Nat) : List (Nat × α) :=
  m.filter (fun e => !(decide (lo ≤ e.1) && decide (e.1 < hi)))

/-- Apply f to every listed value. -/
def mapVals {α : Type} (f : Nat → α → α) (m : List (Nat × α)) : List (Nat × α) :=
  m.map (fun e => (e.1, f e.1 e.2))

/-- Keys strictly above `lo`, strictly rising, and no value equal to the default of its key. -/
def okFrom {α : Type} [DecidableEq α] (d : Nat → α) : Option Nat → List (Nat × α) → Bool
  | _, [] => true
  | b, (k, v) :: r =>
    (match b with | none => true | some j => decide (j < k)) && decide (v ≠ d k) && okFrom d (some k) r

/-- The canonical form of a map with default d. -/
def wf {α : Type} [DecidableEq α] (d : Nat → α) (m : List (Nat × α)) : Bool := okFrom d none m

end NMap

/-- The canonical form of a byte memory. -/
def Mem.wf (m : Mem) : Bool := NMap.wf (fun _ => (0 : Byte)) m

/-- One byte of a memory. -/
def Mem.rd (m : Mem) (a : Nat) : Nat := (NMap.get (0 : Byte) m a).toNat

/-- Write one byte of a memory. -/
def Mem.wr (m : Mem) (a v : Nat) : Mem := NMap.put (0 : Byte) m a (BitVec.ofNat 8 v)

/-- The little-endian value of the n bytes at a (R8). -/
def Mem.rdN (m : Mem) (a : Nat) : Nat → Nat
  | 0 => 0
  | n + 1 => Mem.rd m a + 256 * Mem.rdN m (a + 1) n

/-- Write v into the n bytes at a, little-endian. -/
def Mem.wrN (m : Mem) (a : Nat) : Nat → Nat → Mem
  | 0, _ => m
  | n + 1, v => Mem.wrN (Mem.wr m a (v % 256)) (a + 1) n (v / 256)

/-- The n bytes at a, as a list. -/
def Mem.bytes (m : Mem) (a n : Nat) : List Nat := (List.range n).map (fun i => Mem.rd m (a + i))

/-- Write a list of bytes at a. -/
def Mem.wrBytes (m : Mem) (a : Nat) : List Nat → Mem
  | [] => m
  | b :: r => Mem.wrBytes (Mem.wr m a b) (a + 1) r

/-- Zero the bytes [lo, hi). -/
def Mem.zero (m : Mem) (lo hi : Nat) : Mem := NMap.clearRange m lo hi

/-- The little-endian number of a byte list. -/
def leNat : List Nat → Nat
  | [] => 0
  | b :: r => b % 256 + 256 * leNat r

/-- The n little-endian bytes of x. -/
def leBytes (x : Nat) : Nat → List Nat
  | 0 => []
  | n + 1 => x % 256 :: leBytes (x / 256) n

/-- Update position i of a list. -/
def listSet {α : Type} (l : List α) (i : Nat) (v : α) : List α := l.set i v

/-- Position i removed from a list. -/
def listDel {α : Type} (l : List α) (i : Nat) : List α := l.eraseIdx i

/-- Fold a state change over 0 … n−1. -/
def upto {σ : Type} (n : Nat) (s : σ) (f : Nat → σ → σ) : σ := (List.range n).foldl (fun t i => f i t) s

/-- Fold a state change over a list. -/
def each {σ α : Type} (l : List α) (s : σ) (f : α → σ → σ) : σ := l.foldl (fun t x => f x t) s

end Sys2Proof.Machine
end

