-- ==== Sys2Proof/Machine/State.lean ====
section
/-! DEFINITION. The state of the KW8-L3600 as plain data, the reasons a step can stop, and State.reset. -/

namespace Sys2Proof.Machine

/-- Why a step stops with a fault. No meaning of this model does: every fault the spec describes is a fault record, which is
the command's effect on the state (R471, R479). The type has one constructor because the interface asks for one. Safe. -/
inductive Fault where
  /-- Raised by nothing. Safe. -/
  | none
  deriving DecidableEq, Repr

/-- Why a command is refused. -/
inductive Refusal where
  /-- Raised by an arm of exec whose command has no meaning yet. Safe: the machine stops. -/
  | notModelled (mnemonic : String)
  deriving DecidableEq, Repr

/-- A field of a control-window register: the register's byte offset, the field's lowest bit and its width. -/
structure Fld where
  off : Nat
  lo : Nat
  w : Nat
  deriving DecidableEq, Repr

/-- A high word (or TIME_NOW_FRAC) latched for one requester (R9). -/
structure Latch where
  req : Nat
  off : Nat
  val : Word
  deriving DecidableEq, Repr

/-- The register interface of the control window (R9 to R13): pending latches, low words held for their high word, SH writes
held apart while a COMMIT of their block is pending, and the value of the last read. -/
structure Bus where
  latch : List Latch
  lowHeld : List Latch
  shHeld : List (Nat × Word)
  rdata : Word
  deriving DecidableEq, Repr

/-- A fault record before it is laid out (R471, R472). -/
structure FRec where
  code : Nat
  part : Nat := 0x7F
  die : Nat := 8
  unit : Nat := 0
  sub : Nat := 0
  count : Nat := 1
  tag : Nat := 0
  arg0 : Nat := 0
  arg1 : Nat := 0
  deriving DecidableEq, Repr

/-- The device's side of one fault ring (R474, R475). -/
structure Ring where
  written : Nat := 0
  read : Nat := 0
  lost : Nat := 0
  /-- TICK_NUM + 1 of the last fetch of the read count; 0 where none (at most one fetch per tick). -/
  fetched : Nat := 0
  deriving DecidableEq, Repr

/-- Corrected-error events gathered for one record per period (R224, R343, R353): the key is code and unit, `period` the
period of the last record, `n` the events since it. -/
structure Gather where
  rec_ : FRec
  period : Nat
  n : Nat
  deriving DecidableEq, Repr

/-- The FLT block beside its registers. Ring 64 is the manager's. -/
structure FltSt where
  rings : NMap Ring
  /-- Records held until the manager ring is first enabled (R477), as 256-bit numbers. -/
  held : List Nat
  everEnabled : Bool
  gather : List Gather
  /-- Times (CNT) of counted faults per unit, for R480: key kind·256+index. -/
  counted : NMap (List Nat)
  /-- Fences that await their apply cycle (R481): kind and index. -/
  pendFence : List (Nat × Nat)
  deriving DecidableEq, Repr

/-- A Stroke descriptor (R60): its 256 bits and its device local address. -/
structure Desc where
  raw : Nat
  addr : Nat
  deriving DecidableEq, Repr

/-- Where a Stroke of the running program stands (R62 to R67). -/
inductive Phase where
  /-- Its window has not opened. -/
  | closed
  /-- A compute or Scribe Stroke waiting for the RADIO window over its core to close, or for a free bank (R67, R68). -/
  | waitCore
  /-- Registered at wait_sem (R62, R195). -/
  | waitSem
  /-- Running on its target. -/
  | running
  /-- Exited, paused, halted, skipped, deferred or never run. -/
  | spent
  deriving DecidableEq, Repr

/-- One Stroke of a tile's program in the current tick: its descriptor, its target (the assigned core of a dynamic Stroke),
the CNT at which its window opens and closes (as clipped under R68), its phase and its start. -/
structure Slot where
  d : Desc
  target : Nat
  opens : Nat
  closes : Nat
  phase : Phase
  start : Nat
  /-- The window was open with every bank of the core held by contexts that issued nothing (R452). -/
  starved : Bool
  deriving DecidableEq, Repr

/-- A Ductus image as its header was read when it was armed (R55, R75): its slot and target tick, and what the header gives. -/
structure Image where
  slot : Nat
  target : Nat
  base : Nat
  code : Nat
  progs : Nat
  bytes : Nat
  dir : Nat
  deriving DecidableEq, Repr

/-- Counts of the tick in progress for its tick record (R85). -/
structure TickRec where
  started : Nat
  halted : Nat
  paused : Nat
  deferred : Nat
  skipped : Nat
  invalid : Nat
  commits : Nat
  switched : Bool
  late : Bool
  slack : Nat
  /-- Partitions whose starved ticks have been counted for this tick (R452). -/
  starved : List Nat
  deriving DecidableEq, Repr

/-- The tick unit and the tiles' schedules beside the TICK registers. -/
structure TickSt where
  /-- CNT at the edge cycle E of the current tick (R51). -/
  edge : Nat
  /-- The active image, as its header read when it was armed. -/
  image : Option Image
  /-- The armed image. -/
  armed : Option Image
  /-- TICK_CTRL.run = 0 was written; the unit stops at the next edge instant (R77). -/
  stopping : Bool
  /-- TICK_CTRL.run = 1 was written; the first edge is the switch target (R77). -/
  starting : Bool
  /-- Strokes of the current program by tile: 0–7 compute, 8 and 9 radio. -/
  prog : NMap (List Slot)
  /-- Cores (16·tile + core) on which the live image places a RADIO Stroke in any of its programs (R67). -/
  radioCores : NMap Bool
  /-- Carry queues of the compute tiles (R71). -/
  carry : NMap (List Desc)
  record : TickRec
  /-- Pending COMMIT and REVERT operations in arrival order: block base, and whether it is a REVERT. -/
  ops : List (Nat × Bool)
  /-- Compute tiles whose top die is clock-gated in the current tick (R514). -/
  gated : List Nat
  deriving DecidableEq, Repr

/-- A time exchange as its flit carries it (R393), times in units of 2^−6 ns: the sender's T, the time of the last exchange it received
from the peer, the hop count, and the valid and holdover flags. -/
structure Exchange where
  t : Int
  heard : Int
  hops : Nat
  valid : Bool
  hold : Bool
  deriving DecidableEq, Repr

/-- The time unit beside the TIME registers (R366): the cycle counter, base_t in units of 2^−32 ns, base_cnt and the rate. -/
structure TimeSt where
  cnt : Nat
  baseT : Int
  baseCnt : Nat
  rate : Int
  /-- CNT of the last TIME_RATE write, of the last change of source to 1 (R373). -/
  lastRate : Nat
  lastSource : Nat
  /-- hold_req has been written 0 since holdover was entered (R373). -/
  exitReady : Bool
  /-- CNT of the last PPS edge and of the last completed 10 MHz count (R377). -/
  lastPps : Nat
  lastRef : Nat
  /-- Fabric time (R378): exchanges of the running group of 64, their sums, whether d is known, whether the single step is
  done, consecutive exchanges with |o| < 1 ns, and CNT of the last exchange. -/
  fabN : Nat
  fabSum : Int
  fabD : Option Int
  fabStepped : Bool
  fabGood : Nat
  fabLast : Nat
  /-- By Flonil port, the exchange that answers the last one received there (R378, R393). -/
  exch : NMap Exchange
  deriving DecidableEq, Repr

/-- One TIME_PULSE output (R382): drive level, end of the pulse in progress in units of 2^−32 ns, next target. -/
structure Pulse where
  active : Bool
  endT : Int
  /-- Next target in ns for modes 1 and 2; none when nothing is to come. -/
  next : Option Nat
  /-- The pulse in progress is a once pulse: done sets after it. -/
  once : Bool
  deriving DecidableEq, Repr

/-- One start barrier beside its registers (R383 to R388). -/
structure Bar where
  arrived : Bool
  arriveAt : Nat
  /-- T_rel received and not yet reached. -/
  release : Option Nat
  firstArrive : Nat
  /-- Registered at arr_sem, or a grant of it is in flight. -/
  watching : Bool
  deriving DecidableEq, Repr

/-- Who waits at a semaphore (R195): a Stroke at its wait_sem (its tile 0–9, its target there, its descriptor and the CNT at which its
window opened), a core
context in SEMW, a Scribe in its SEMW, or a barrier's arr_sem. `key` of a core bank is (16·tile + core)·4 + bank, of a Scribe
its package-wide index. -/
inductive Waiter where
  | stroke (tile target : Nat) (d : Desc) (opens : Nat)
  | bank (key : Nat)
  | scribe (index : Nat)
  | barrier (b : Nat)
  deriving DecidableEq, Repr

/-- A grant on its way from a semaphore's home to a waiter (R195). -/
structure Grant where
  sem : Nat
  dest : Waiter
  deriving DecidableEq, Repr

/-- The semaphores (R195): values, registrations in order, grants in flight. -/
structure SemSt where
  val : NMap Nat
  waiters : NMap (List Waiter)
  grants : List Grant
  deriving DecidableEq, Repr

/-- Why a core context or a Scribe issues no later bundle (R558, R170). -/
inductive Hold where
  | free
  /-- SEMW on the semaphore, registered at its home. -/
  | semw (sem : Nat)
  /-- SEMP waiting for its release condition: semaphore and count. -/
  | semp (sem count : Nat)
  /-- EXIT waiting for DMAs and remote operations. -/
  | exit
  /-- XWAIT of a Scribe: at most max outstanding transfers. -/
  | xwait (max : Nat)
  deriving DecidableEq, Repr

/-- A register of a core register bank (R165). -/
inductive CReg where
  | s (n : Nat)
  | a (n : Nat)
  | v (n : Nat)
  | p (n : Nat)
  deriving DecidableEq, Repr

/-- The parameters of the last NLW into one weight buffer (R96, R168). -/
structure NlwRec where
  wtFmt : Nat
  transposed : Bool
  conj : Bool
  src : Nat
  stride : Nat
  scale : Nat
  deriving DecidableEq, Repr

/-- A DMA of a context that has started and not completed (R189, R190), with the bytes a kind 1 DMA read at its place in
program order (R225). -/
structure Dma where
  kind : Nat
  dst : Nat
  src : Nat
  rows : Nat
  rowBytes : Nat
  dstStride : Nat
  srcStride : Nat
  sem : Option Nat
  nt : Bool
  data : List Nat
  deriving DecidableEq, Repr

/-- An instruction in the matrix queue (slot 1) or the memory queue (slot 3) of a context (R162, R168): its word, the PC of its bundle,
the register files as they stood when it issued, the registers it will write, the core-store ranges it touches (R225), and, for one
suspended at a unit boundary (R110), the units it has done and the running sums of an HMV's column. -/
structure QOp where
  slot : Nat
  word : Word
  pc : Nat
  s : NMap Nat
  a : NMap Nat
  v : NMap Nat
  p : NMap Nat
  dests : List CReg
  lines : List (Nat × Nat)
  units : Nat
  sums : List Nat
  deriving DecidableEq, Repr

/-- One register bank of a P-core or G-core with the context it holds (R67, R165, R168). Scalar, address, vector (1,024
bytes) and predicate (512 bits) registers are numbers by register index, zero where not listed. -/
structure Bank where
  part : Nat
  ctx : Nat
  /-- Tile-program slot of the Stroke now on the bank; none while paused. -/
  slot : Option Nat
  /-- The Stroke has started (false while it waits on wait_sem with the bank set aside for it). -/
  live : Bool
  d : Desc
  pc : Nat
  s : NMap Nat
  a : NMap Nat
  v : NMap Nat
  p : NMap Nat
  flags : Nat
  /-- By 2·nib + buf. -/
  nlw : NMap NlwRec
  /-- Last HLV: source, buffer offset, length. -/
  hlv : Option (Nat × Nat × Nat)
  /-- Semaphores of held grants (R555). -/
  grants : List Nat
  dmas : List Dma
  hold : Hold
  /-- The matrix queue and the memory queue, in program order (R162). -/
  queue : List QOp
  resumed : Bool
  /-- Slots of the current bundle that have issued, as a mask, its register writes in order, the registers that its queued and
  remote instructions will write, its branch target, and whether a JMPR of it named a bad target. -/
  issued : Nat
  writes : List (CReg × Nat)
  dests : List CReg
  branch : Option Nat
  badJump : Bool
  /-- CNT + 1 of the end of the last bundle issued; 0 where none was (R452). -/
  lastIssue : Nat
  deriving DecidableEq, Repr

/-- Core-side memories of the compute tiles. Keys: core = 16·tile + core; a core-store byte at core·2^24 + address; a byte of
weight buffer buf of Nib nib at (core·8 + 2·nib + buf)·2^20 + offset; an accumulator byte at ((core·4 + nib)·8 + tile)·2^16 +
offset; a vector-buffer byte at core·2^20 + offset. -/
structure CoreSt where
  banks : NMap Bank
  store : Mem
  wbuf : Mem
  acc : Mem
  vbuf : Mem
  /-- Core-store bytes in parity error (R223), weight buffers in parity error (R102) at core·8 + 2·nib + buf, vector buffers in parity
  error (R199). -/
  storeBad : NMap Bool
  wbufBad : NMap Bool
  vbufBad : NMap Bool
  /-- Poisoned accumulator rows at ((core·4 + nib)·8 + tile)·128 + row (R102, R187). -/
  accRows : NMap Bool
  /-- Context that last loaded each weight buffer (at core·8 + 2·nib + buf) and each vector buffer: 1 + part·4096 + ctx. -/
  wtag : NMap Nat
  vtag : NMap Nat
  /-- Anchor of each quad (R134) at (core·4 + nib)·8 + first tile. -/
  anchor : NMap Int
  /-- What the last NMM left in each tile (R100): 0 nothing since a clear, 1 FP32, 2 integers, 3 part of a quad, 4 part of an I8
  quad, 5 part of a pair. -/
  accKind : NMap Nat
  /-- Hairline lines not yet counted in hl_klines. -/
  hlRest : NMap Nat
  /-- Units whose zeroing has not completed (R108): 0 accumulator tile, 1 core-store granule, 2 Reservoir granule, 3 Scribe. -/
  zeroing : List (Nat × Nat)
  /-- Instruction caches (R164): the lines of each register bank's quarter as (partition, line address), most recently used first. -/
  icache : NMap (List (Nat × Nat))
  deriving DecidableEq, Repr

/-- A line of a tile store (R212, R214): the 64-byte HBM line it holds, as a storage key / 64, and whether it must be written back. -/
structure TsLine where
  key : Nat
  dirty : Bool
  deriving DecidableEq, Repr

/-- Device local memory: HBM bytes keyed by channel·0xC000_0000 + offset in the channel (R207), Reservoir bytes by device
local address (R202), and the poisoned 64-byte lines of either by key / 64 (R221). -/
structure MemSt where
  bytes : Mem
  bad : NMap Bool
  /-- CNT at which the last scrub of a channel began (R210), and 1 + the period in which its last patrol pass
  ended (R222). -/
  scrubAt : NMap Nat
  patrolAt : NMap Nat
  /-- Tile stores: the line in way w of set i of compute tile n, at (n·98,304 + i)·16 + w. -/
  ts : NMap TsLine
  /-- Ways being written back (R215): tile, owner whose mask lost the way, way; CNT at which a tile's write-back began. -/
  flush : List (Nat × Nat × Nat)
  flushAt : NMap Nat
  deriving DecidableEq, Repr

/-- A mesh link's fault state (R30). -/
structure MeshSt where
  failed : List Nat
  deriving DecidableEq, Repr

/-- An armed epoch switch (R464): its slot, force, target tick, epoch and map entries (128-bit numbers). -/
structure CompArm where
  slot : Nat
  force : Bool
  target : Nat
  epoch : Nat
  members : List Nat
  deriving DecidableEq, Repr

/-- Partition state beside the PART registers. -/
structure PartSt where
  /-- Latched execution mode (R455): Copperplate partitions. -/
  copper : NMap Bool
  /-- PART_CTRL operations that await their apply cycle: partition, operation, force (R454). -/
  ops : List (Nat × Nat × Bool)
  /-- CNT at the QUIESCE edge (R456). -/
  quiescedAt : NMap Nat
  /-- CNT at which the drain window closes (R465). -/
  drainEnd : NMap Nat
  /-- Epoch switches that are armed (R464), and the entries of the live map (R461). -/
  armed : NMap CompArm
  liveMap : NMap (List Nat)
  /-- The map of the previous epoch, for its drain window (R264). -/
  oldMap : NMap (List Nat)
  /-- Weighted round robin pointers (R463): key 4·p + pool (0 prompt, 1 generation), entry·512 + selections used. -/
  wrr : NMap Nat
  /-- CNT of the last periodic meter record (R468), and the base-tick count up to which meter 7 has counted (R466). -/
  meterAt : Nat
  ticks : Nat
  /-- Cells whose lost mark a QUIESCE made and no slot_first Stroke has cleared (R457). -/
  quietCells : NMap Bool
  /-- What a RESETTING or REMOVING partition waits for: units as in CoreSt.zeroing, and 4 with an HBM channel (R459, R460). -/
  zeroWait : NMap (List (Nat × Nat))
  deriving DecidableEq, Repr

/-- A fetched host command that has not completed: its ring position and its 64 bytes as a number (R496). `started` when it
passed its fence and its execution has begun; `body` what is left of it. -/
structure HCmd where
  index : Nat
  raw : Nat
  started : Bool
  /-- Bytes of an NET_TX frame waiting in egress, or of an RX_BUF that is posted. -/
  posted : Bool
  deriving DecidableEq, Repr

/-- The device's side of one host queue (R492 to R495). -/
structure HQueue where
  head : Nat := 0
  written : Nat := 0
  /-- Last value of `read` the device fetched from the completion ring. -/
  read : Nat := 0
  readAt : Nat := 0
  cmds : List HCmd := []
  /-- A tail read is in progress; a doorbell arrived meanwhile; CNT of the last tail read. -/
  reading : Bool := false
  again : Bool := false
  lastRead : Nat := 0
  deriving DecidableEq, Repr

/-- The host interface beside the HQ registers. -/
structure HqSt where
  q : NMap HQueue
  /-- The function is in D3hot (R518). -/
  d3hot : Bool
  /-- ATS invalidations completed (R490); the translation cache itself is transparent. -/
  ats : Nat
  deriving DecidableEq, Repr

/-- A remote operation this package has outstanding (R404): its sequence number, packet type, target device, partition, global
address, the register bank it belongs to (none: an engine's, or its reply is discarded, R554), the register and the line of it
that the reply fills, the predicate set on failure, the number of the instruction it is a line of, and its times (CNT). -/
structure RemOp where
  seq : Nat
  type : Nat
  dev : Nat
  part : Nat
  ga : Nat
  bank : Option Nat
  reg : Option CReg
  /-- The bank that it belonged to was freed: no fault record is written for it (R554). -/
  orphan : Bool
  line : Nat
  bytes : Nat
  pd : Nat
  group : Nat
  /-- Tag of the Stroke, for the record. -/
  tag : Nat
  deadline : Nat
  retryAt : Nat
  sentAt : Nat
  /-- The packet as sent, for a retransmission (R405). -/
  packet : Packet
  deriving DecidableEq, Repr

/-- A packet on its way out: the port (36: this package itself), the link channel (R397). -/
structure Sent where
  port : Nat
  lvc : Nat
  packet : Packet
  deriving DecidableEq, Repr

/-- A reservation in the pool of base die `die` (R414): its key, the domain it is reserved for, its granules and the CNT at
which the lease lapses. -/
structure Lease where
  die : Nat
  key : Nat
  domain : Nat
  granules : List Nat
  expiry : Nat
  deriving DecidableEq, Repr

/-- A multicast store that waits for downstream acknowledgements (R412), with its packet. -/
structure McastWait where
  packet : Packet
  src : Nat
  seq : Nat
  group : Nat
  arrival : Nat
  waiting : List Nat
  count : Nat
  since : Nat
  status : Nat
  deriving DecidableEq, Repr

/-- Requests to one line in aligned windows of 1,024 cycles (R410): window, requests in it and in the one before, CNT at which
the next may be applied while the line is hot. -/
structure LineLoad where
  window : Nat
  now : Nat
  before : Nat
  next : Nat
  deriving DecidableEq, Repr

/-- The Flonil fabric beside the FAB registers. -/
structure FabSt where
  out : List RemOp
  /-- Next sequence number by destination device (R399). -/
  seqs : NMap Nat
  group : Nat
  /-- Instructions of which a line has failed. -/
  failed : NMap Bool
  /-- Atomics in the deduplication horizon by target device (R408): sequence number, CNT of first transmission, reply or bound
  seen. -/
  horizon : NMap (List (Nat × Nat × Bool))
  /-- Packets sent, oldest first. -/
  tx : List Sent
  /-- Deduplication windows by source device (R407): sequence number and result, newest last; CNT of the last atomic. -/
  dedup : NMap (List (Nat × Nat))
  dedupAt : NMap Nat
  leases : List Lease
  mcast : List McastWait
  load : NMap LineLoad
  /-- Bytes changed in the present tick by remote operations and DMAs: storage key, length, source device·65536 + tag (R155). -/
  touched : List (Nat × Nat × Nat)
  /-- Lines of floating-point results under formation (R155), by storage key / 64: the source of the first contribution, and whether the
  line has been counted. -/
  formed : NMap (Nat × Bool)
  /-- The device ID that the other side of a port sent in PARAM (R394). -/
  peers : NMap Nat
  /-- Accepted requests to a Reservoir granule that is being zeroed, oldest first, and whether each was combined (R413, R409). -/
  held : List (Packet × Bool)
  deriving DecidableEq, Repr

/-- A logit row of a SAMPLE (R292, R293): it waits for a row unit; it is on row unit `unit` with the candidates of its first pass, token
and value in candidate order, and whether that pass excluded a logit as non-finite; or it is over, with its choice (none: no candidate),
the non-finite flag and the tail flag. -/
inductive QRow where
  | waits
  | runs (unit : Nat) (cands : List (Nat × Nat)) (nonfinite : Bool)
  | over (tok : Option Nat) (nonfinite tail : Bool)
  deriving DecidableEq, Repr

/-- A 64-byte command a core handed to an engine (R196): its bits, the Stroke's partition, context and tag, the core (16·tile +
core) and address of its result record, its semaphore. For a Quill: whether it has started, and what it read then: the profile, the
context header, the penalty list and the drafts; whether a read was poisoned or a row unit failed; its rows; the serving request whose
context it samples. -/
structure EngCmd where
  raw : Nat
  part : Nat
  ctx : Nat
  tag : Nat
  core : Nat
  res : Nat
  sem : Option Nat
  started : Bool := false
  profile : Nat := 0
  head : Nat := 0
  pens : List (Nat × Nat) := []
  drafts : List Nat := []
  spoilt : Bool := false
  rows : List QRow := []
  who : Option Nat := none
  deriving DecidableEq, Repr

/-- Where the records and tokens of a request go (R235, R237): a host command of a queue, an Ethernet service queue (its
receive queue, source address and VLAN), or the origin package. -/
inductive ReqSrc where
  | host (q index : Nat)
  | eth (rxq egress : Nat) (addr : Nat)
  | remote
  deriving DecidableEq, Repr

/-- States of a request (R240); DONE requests are no longer held. -/
inductive ReqSt where
  | queued
  | prefill
  | handoff
  | joinWait
  | decode
  | paused
  | recompute
  deriving DecidableEq, Repr

/-- A request as this package holds it: as its origin, as its prompt member or as its generation or cache member. -/
structure Req where
  part : Nat
  handle : Nat
  /-- SUBMIT command bits [511:64] in place. -/
  raw : Nat
  src : ReqSrc
  origin : Nat
  originHandle : Nat
  accept : Nat
  st : ReqSt
  epoch : Nat
  /-- Prompt tokens, and tokens emitted so far. -/
  prompt : List Nat
  outs : List Nat
  /-- Address and bytes of the retained prompt in the prompt store. -/
  store : Option (Nat × Nat)
  /-- Pinned adapter slot and version (R260). -/
  slot : Option Nat
  version : Nat
  /-- Blocks reused, blocks the table holds, leading blocks complete. -/
  hit : Nat
  held : Nat
  ready : Nat
  promptDev : Nat
  genDev : Nat
  second : Option Nat
  /-- This package holds the request as generation (1), prompt (2) or second cache (4) member, as a mask. -/
  roles : Nat
  /-- KV_ACK has been seen: the request is bound to its generation member. -/
  bound : Bool
  /-- Frame addresses received for a handoff, by block index, from the generation member and from the second cache member. -/
  frames : NMap Nat
  frames2 : NMap Nat
  /-- Blocks whose stores have been sent, at 2·block + (0 generation member, 1 second cache member), and the outstanding ones
  with the group of their stores. -/
  sent : NMap Bool
  pushes : List (Nat × Nat)
  doneSent : Bool
  /-- Handle at the generation member, once KV_ACK has come. -/
  genHandle : Nat
  batch : Option Nat
  joined : Bool
  resumed : Bool
  qctx : Option Nat
  /-- The status with which it leaves at its batch's next boundary. -/
  leaving : Option Nat
  /-- Record flags, bits [95:81] of R237 in place from bit 0. -/
  flags : Nat
  delivered : Nat
  first : Bool
  /-- The P-tile of its prompt phase here (R38); 8 where it has none. -/
  ptile : Nat
  /-- Members of a pool tried in this pass (R265), and second cache members tried. -/
  tried : List Nat
  tried2 : List Nat
  /-- The origin has been told of the end, or asked for it. -/
  told : Bool
  deriving DecidableEq, Repr

/-- A batch (R241 to R243): seated sequences (65536·p + handle) in seat order, whether its previous step is complete, and
TICK_NUM + 1 of the boundary last taken. -/
structure Batch where
  seats : List Nat := []
  stepDone : Bool := true
  taken : Nat := 0
  deriving DecidableEq, Repr

/-- An adapter load in progress (R261): its command, its slot once it has one, whether its bytes have landed. -/
structure AdLoad where
  part : Nat
  q : Nat
  index : Nat
  slot : Option Nat
  landed : Bool
  told : Bool
  deriving DecidableEq, Repr

/-- The serving engines beside their registers: requests by 65536·p + handle, batches, adapter loads, adapters whose pins are
stopped while a version of them loads (65536·p + adapter), Inkwell commands by tile, Quill commands by Quill. -/
structure SrvSt where
  reqs : NMap Req
  batches : NMap Batch
  loads : List AdLoad
  dropped : List Nat
  /-- Frames in pending-free (R248): partition, block ID, and the batch whose boundary frees them, or none: the next edge. -/
  pendFree : List (Nat × Nat × Option Nat)
  /-- Pools that are unused because their geometry is inconsistent (R268, R270), at 8·p + tile. -/
  badPools : NMap Bool
  ink : NMap (List EngCmd)
  quill : NMap (List EngCmd)
  /-- Devices to which a serving message or a KV store failed (none), or that answered a message about a request of this package as
  stale (its key), and for which the action of R265 is still to be taken. -/
  lost : List (Nat × Option Nat)
  /-- Messages accepted and held while their partition is quiesced (R457). -/
  held : List Packet
  deriving DecidableEq, Repr

/-- A committed received packet (R340, R344): its port and local MAC, its time stamp in units of 2^−16 ns, VID and
classification id, the frame bytes up to and including the EtherType, those after it up to the FCS, the Blotter space it
holds in bytes, and the cycle CNT in which it committed (R345). -/
structure RxPkt where
  port : Nat
  mac : Nat
  time : Nat
  vid : Nat
  id : Nat
  head : List Nat
  body : List Nat
  space : Nat
  cnt : Nat
  deriving DecidableEq, Repr

/-- A committed egress message (R351): its bytes after the EtherType, a destination address and EtherType in place of the
queue's, the host command that waits for it (queue and ring position), and its Fh of R355 while it is a head. -/
structure TxMsg where
  body : List Nat
  dst : Option Nat
  etype : Option Nat
  host : Option (Nat × Nat)
  fh : Nat
  deriving DecidableEq, Repr

/-- A frame on its way out of a MAC: its bytes without FCS, the FCS inverted (R219), the time its start-of-frame delimiter
leaves in units of 2^−16 ns. -/
structure TxFrame where
  mac : Nat
  bytes : List Nat
  badFcs : Bool
  time : Nat
  deriving DecidableEq, Repr

/-- A service message under reassembly or whole (R359): kind, svc_id, msg_id, its bytes, the source address of its first
segment, and how many packets brought it. -/
structure SvcMsg where
  kind : Nat
  svcId : Nat
  msgId : Nat
  bytes : List Nat
  src : Nat
  pkts : Nat
  deriving DecidableEq, Repr

/-- Ethernet beside the ETH, BLT and EQS registers. -/
structure EthSt where
  /-- Committed packets by receive queue, oldest first; messages by egress queue; PTP messages of the device by MAC. -/
  rxq : NMap (List RxPkt)
  egq : NMap (List TxMsg)
  ptp : NMap (List TxMsg)
  /-- PTP messages received for the agent (R337). -/
  ptpRx : List RxPkt
  /-- Bytes held in each receive Blotter. -/
  fill : NMap Nat
  /-- Packets arriving, by MAC: bytes so far and CNT of the last word; MACs whose next words
  belong to a rewound packet: 4·CNT of the rewinding + 1 after a stall, + 2 after another cause (R342). -/
  partials : NMap (Nat × Nat)
  cut : NMap Nat
  /-- XOFF of each port as its fill drives it (R347), which FH_XOFF follows no sooner than 1 µs after its last change (R348). -/
  xoffIn : NMap Bool
  /-- CNT of the last change of FH_XOFF by port; CNT of the last PFC frame sent by MAC. -/
  xoffAt : NMap Nat
  pfcAt : NMap Nat
  /-- Received PFC pauses: CNT until which priority k of MAC m is paused, at 8·m + k. -/
  pause : NMap Nat
  /-- Time at which a MAC is ready for its next frame, in units of 2^−32 ns. -/
  busy : NMap Nat
  sent : List TxFrame
  /-- R355: V at 8·m + TC, F by egress queue. -/
  v : NMap Nat
  f : NMap Nat
  /-- ecpriSeqid counters by egress queue (R352). -/
  seq : NMap Nat
  /-- R358: what is missing from each subscriber's bucket and each MAC's shaper, in 10⁻⁶ bit, and the CNT to which it is kept;
  last subscriber served at 8·m + TC, last queue served at 4·(1024·(8·m + TC) + subscriber) + priority. -/
  subDef : NMap Nat
  subAt : NMap Nat
  macDef : NMap Nat
  macAt : NMap Nat
  rrSub : NMap Nat
  rrQ : NMap Nat
  /-- Reassembly of service messages by receive queue, and whole messages not yet taken. -/
  svc : NMap SvcMsg
  svcDone : NMap (List SvcMsg)
  /-- Segments of service messages that wait for space in their egress queue, oldest first (R351). -/
  svcWait : NMap (List TxMsg)
  deriving DecidableEq, Repr

/-- A Scribe transfer (R315): its descriptor and the X address of it, its Stroke's partition and tick, the packet it took
(kind 0), whether the Blotter rewound it (R342), and the cycle CNT in which it started (R345). -/
structure Xfer where
  raw : Nat
  at_ : Nat
  part : Nat
  tick : Nat
  pkt : Option RxPkt
  rewound : Bool
  cnt : Nat
  deriving DecidableEq, Repr

/-- A Scribe's registers (R301) while a Stroke runs on it. Vector registers x0–x3, y0–y3 are numbers 0 to 7 of 1,024 bits,
accumulators of 2,560 bits. -/
structure Scribe where
  slot : Nat
  d : Desc
  pc : Nat
  r : NMap Nat
  acc : NMap Nat
  a : NMap Nat
  m : NMap Nat
  n : NMap Nat
  sr : Nat
  /-- Count left, start and end of each loop, innermost first. -/
  loops : List (Nat × Nat × Nat)
  org : NMap Nat
  cnt : NMap Nat
  /-- Scrambling sequence: the next 31 bits of x1 and of x2 (R311). -/
  seq1 : Nat
  seq2 : Nat
  xfers : List Xfer
  hold : Hold
  deriving DecidableEq, Repr

/-- A FEC time slice on an engine (R317, R318): its Stroke, the next command of its list, whether it is the first. -/
structure Fec where
  slot : Nat
  d : Desc
  next : Nat
  deriving DecidableEq, Repr

/-- The radio tiles' engines. Scribes are numbered package-wide; an X or Y byte of Scribe k is at k·2^20 + y·2^18 + address, a
program byte at k·2^17 + address; FEC engine e of tile t is 4·t + e. -/
structure RadSt where
  scribes : NMap Scribe
  xy : Mem
  prog : Mem
  bad : NMap Bool
  fec : NMap Fec
  /-- Busy cycles of an engine not yet in busy_k. -/
  fecRest : NMap Nat
  /-- Cells whose valid bit is 1 and that are treated as invalid (R296). -/
  badCells : NMap Bool
  /-- Records that the export unit has written for a cell (R326); the tick of its newest record of kind 2 (R329). -/
  expCount : NMap Nat
  nfTick : NMap Nat
  deriving DecidableEq, Repr
/-- A collective on this package (R420 to R443): the engine's base die, the partition, the descriptor index, the launch, what its
descriptor gave, and how far it is. Ranks key the maps by rank. -/
structure Coll where
  die : Nat
  part : Nat
  comm : Nat
  cmd : EngCmd
  copper : Bool
  /-- False while a Copperplate launch is held at the order gate (R438). -/
  started : Bool
  /-- CNT and T (ns) at which it was held or accepted. -/
  since : Nat
  sinceNs : Nat
  commId : Nat
  size : Nat
  rank : Nat
  seq : Nat
  /-- Member entries, and the address of the state area. -/
  members : List Nat
  area : Nat
  /-- How this rank's own shard runs: 0 waits for the reservation, 1 in Reservoir, 2 in endpoint mode, 3 no shard of its own. -/
  mode : Nat
  granules : List Nat
  renewAt : Nat
  denied : Bool
  retried : Bool
  fallback : Bool
  /-- READY lines held, CNT of the last traffic from each rank, lag of each READY in ns (R482). -/
  ready : NMap Nat
  heard : NMap Nat
  lag : NMap Nat
  /-- Chunks of the own contribution sent to each owner; owners that hold the EXP1 records; peers that hold the blocks. -/
  sentTo : NMap Nat
  expSent : NMap Bool
  putSent : NMap Bool
  /-- Phase-1 records at the owner, by rank·2^26 + block, and those returned, by owner·2^26 + block; groups returned. -/
  expIn : NMap Nat
  expAll : NMap Nat
  expOut : NMap Bool
  /-- Contributions in, by chunk·8192 + 2·rank + half; chunks of the own shard that are done. -/
  got : NMap Bool
  done : NMap Bool
  /-- Pieces received into dst, by owner·2^26 + chunk. -/
  recv : NMap Bool
  /-- DATA packets whose acknowledgement waits for their slot. -/
  owed : List Packet
  /-- Packets asked for once more: source, kind and address. -/
  asked : List (Nat × Nat × Nat)
  varEvents : Nat
  chunks : Nat
  deriving DecidableEq, Repr

/-- The collective engines beside the COL registers: collectives in launch order, READYs that came before their launch. -/
structure ColSt where
  colls : List Coll
  early : List Packet
  deriving DecidableEq, Repr

/-- A firmware image as Wioliz knows it (R528): its version and its body digest. -/
structure Img where
  version : Nat
  digest : Nat
  deriving DecidableEq, Repr

/-- A device configuration record (R523, R525): the bytes of its Lemwick section, its generation, its device entries (64-bit
numbers). Its signatures are a function of these. -/
structure Cfg where
  lem : List Nat
  gen : Nat
  dev : List Nat
  deriving DecidableEq, Repr

/-- Wioliz beside the MGT registers, and the flash it keeps (R507 to R535). -/
structure MgtSt where
  /-- CNT of the last loop boundary taken; the seq submitted and not taken; the command that is held: seq and 64 bytes. -/
  loopAt : Nat
  submit : Option Nat
  cmd : Option (Nat × Nat)
  /-- R513: consecutive loops in which a tile could raise its duty; µJ not yet in MGT_ENERGY. -/
  cool : NMap Nat
  energyRest : Nat
  /-- R519: board limit, the one to take effect at the next loop, class 8 and 9 faults since the last board read, the snapshot of
  the codes, the value of the last board read, the SMBus address, the boot status of code 0x08. -/
  boardLimit : Nat
  boardNext : Option Nat
  cnt8 : Nat
  cnt9 : Nat
  snap : NMap Nat
  smb : Nat
  smbAddr : Nat
  boot : Nat
  /-- Power state to enter at the next tick edge (R516). -/
  pendPower : Option Nat
  /-- Settings (R534): stored ones as (format, value), changes that take effect at the next loop, IDs reset by the image in trial. -/
  stored : NMap (Nat × Nat)
  pendSet : List (Nat × Nat)
  trialResets : List Nat
  /-- Images: running, the one to fall back to, primary and previous slot, verified staged one; the staging slot's bytes and its KiB
  written. -/
  running : Img
  old : Img
  primary : Img
  previous : Img
  staged : Option Img
  staging : Mem
  stagedKib : NMap Bool
  /-- Trial (R530, R531): CNT of its end, consecutive loops without overrun, consecutive loops in which the PTP agent wrote
  TIME_RATE. -/
  trialEnd : Nat
  clean : Nat
  ptpLoops : Nat
  /-- The image in trial was started by a cold start (R533). -/
  coldTrial : Bool
  /-- 1 + the sixteenth or eighth of a second in which a MAC last sent Sync (at 2·MAC) or Announce (at 2·MAC + 1) (R374). -/
  ptpSent : NMap Nat
  /-- How often FLASH_WP_N has been driven high and low again: once for each program or erase of the flash (R549). -/
  wpHigh : Nat
  /-- The standby core is loading its image and will shadow. -/
  reload : Bool
  /-- The log, oldest first (R535), and the next entry number. -/
  log : List Nat
  logNext : Nat
  /-- Configuration records (R525); whether the pending one is a revert. -/
  live : Cfg
  prev : Option Cfg
  pendCfg : Option Cfg
  pendRev : Bool
  /-- HBM channels in self-refresh (R515). -/
  selfRefresh : NMap Bool
  deriving DecidableEq, Repr

/-- The instruction in the test access port (R551). -/
inductive Tap where
  | bypass
  | idcode
  | samplePreload
  | extest
  | clamp
  | highz
  deriving DecidableEq, Repr

/-- Pins and reset (R538 to R551). -/
structure PinSt where
  pwrGood : Bool
  /-- All activity is stopped until a cold start (R541, R544, R548). -/
  stopped : Bool
  coreReady : Bool
  /-- THERMTRIP_N is driven low. -/
  thermtrip : Bool
  /-- PCIE_PERST_N is high and link training has begun. -/
  perst : Bool
  /-- The wake latch of the standby domain (R545); 0 where nothing is latched. -/
  latch : Nat
  tap : Tap
  /-- The test data register between TDI and TDO, the boundary register's update latches. -/
  dr : Nat
  boundary : Nat
  /-- The boundary pins have been taken from the core (R551). -/
  taken : Bool
  /-- Kept in flash: units that failed self-test in cold starts without an identity, to be entered in the record once there is one (R520). -/
  unlisted : List (Nat × Nat)
  deriving DecidableEq, Repr


/-- The whole block. -/
structure State where
  /-- Commands waiting, first in, first out. -/
  pending : List Instr
  /-- Live values of the control-window registers by byte offset; an unlisted register holds its reset value. SH fields are
  live here; `shadow` holds the shadow copies and `prev` the previous generation (R13, R79). -/
  regs : NMap Word
  shadow : NMap Word
  prev : NMap Word
  bus : Bus
  /-- Host memory by PASID·2^64 + address. -/
  host : Mem
  /-- PCIe writes sent with the poisoned (EP) bit set (R219): key of hostKey and length, oldest first. -/
  hostEp : List (Nat × Nat)
  /-- How many free values have been taken (Config.freeNat). -/
  free : Nat
  flt : FltSt
  tick : TickSt
  time : TimeSt
  pulses : NMap Pulse
  bars : NMap Bar
  core : CoreSt
  mem : MemSt
  sem : SemSt
  mesh : MeshSt
  part : PartSt
  hq : HqSt
  fab : FabSt
  srv : SrvSt
  eth : EthSt
  rad : RadSt
  col : ColSt
  mgt : MgtSt
  pins : PinSt
  deriving DecidableEq, Repr

/-- The device at CORE_READY of a cold start with nothing retired (R546): every register at its reset value, every memory
zeroed, no time set, nothing pending. -/
def State.reset : State where
  pending := []
  regs := []
  shadow := []
  prev := []
  bus := ⟨[], [], [], 0⟩
  host := []
  hostEp := []
  free := 0
  flt := ⟨[], [], false, [], [], []⟩
  tick := ⟨0, none, none, false, false, [], [], [], ⟨0, 0, 0, 0, 0, 0, 0, false, false, 0xFFFFFFFF, []⟩, [], []⟩
  time := ⟨0, 0, 0, 0, 0, 0, false, 0, 0, 0, 0, none, false, 0, 0, []⟩
  pulses := []
  bars := []
  core := { banks := [], store := [], wbuf := [], acc := [], vbuf := [], storeBad := [], wbufBad := [], vbufBad := [], accRows := [],
            wtag := [], vtag := [], anchor := [], accKind := [], hlRest := [], zeroing := [], icache := [] }
  mem := { bytes := [], bad := [], scrubAt := [], patrolAt := [], ts := [], flush := [], flushAt := [] }
  sem := ⟨[], [], []⟩
  mesh := ⟨[]⟩
  part := ⟨[], [], [], [], [], [], [], [], 0, 0, [], []⟩
  hq := ⟨[], false, 0⟩
  fab := ⟨[], [], 0, [], [], [], [], [], [], [], [], [], [], [], []⟩
  srv := ⟨[], [], [], [], [], [], [], [], [], []⟩
  eth := { rxq := [], egq := [], ptp := [], ptpRx := [], fill := [], partials := [], cut := [], xoffIn := [], xoffAt := [], pfcAt := [], pause := [],
           busy := [], sent := [], v := [], f := [], seq := [], subDef := [], subAt := [], macDef := [], macAt := [], rrSub := [], rrQ := [],
           svc := [], svcDone := [], svcWait := [] }
  rad := ⟨[], [], [], [], [], [], [], [], []⟩
  col := ⟨[], []⟩
  mgt := { loopAt := 0, submit := none, cmd := none, cool := [], energyRest := 0, boardLimit := 3600, boardNext := none, cnt8 := 0, cnt9 := 0,
           snap := [], smb := 0, smbAddr := 0x4A, boot := 0x7, pendPower := none, stored := [], pendSet := [], trialResets := [],
           running := ⟨0, 0⟩, old := ⟨0, 0⟩, primary := ⟨0, 0⟩, previous := ⟨0, 0⟩, staged := none, staging := [], stagedKib := [],
           trialEnd := 0, clean := 0, ptpLoops := 0, coldTrial := false, ptpSent := [], wpHigh := 0, reload := true, log := [], logNext := 0, live := ⟨[], 0, []⟩, prev := none,
           pendCfg := none, pendRev := false, selfRefresh := [] }
  pins := ⟨true, false, true, false, false, 0, .bypass, 0, 0, false, []⟩

end Sys2Proof.Machine
end

