-- ==== Sys2Proof/Machine/Regs.lean ====
section
/-! DEFINITION. The registers of the control window, written out from the register tables of spec/ (R45, R78, R84, R109, R156,
R204, R217, R268, R269, R294, R330, R362 to R364, R389, R418, R445, R469, R488, R506, R537): one row per register
(array) with its offset, width, reset value and the bits of each access code of R12, and one named field per table row. -/

namespace Sys2Proof.Machine

/-- A row of a register table: an array of registers at base + s1*i + s2*j, i < c1, j < c2 (one register: counts 1). The
masks hold the bits of each access code of R12; bits in none of them are RO or reserved (R11). `zero`: the bits that must
be zero (R552). -/
structure RegRow where
  base : Nat
  s1 : Nat
  c1 : Nat
  s2 : Nat
  c2 : Nat
  width : Nat
  reset : Nat
  rw : Nat
  sh : Nat
  w1c : Nat
  rc : Nat
  wo : Nat
  zero : Nat
  deriving DecidableEq, Repr

/-- Register rows of the GLB block. -/
def rowsGLB : List RegRow := [
  ⟨0x0, 0x8, 1, 0x8, 1, 32, 0x4B080100, 0x0, 0x0, 0x0, 0x0, 0x0, 0x0⟩,
  ⟨0x100, 0x8, 1, 0x8, 1, 32, 0x1FFFF, 0x0, 0x0, 0x0, 0x0, 0x0, 0x0⟩,
  ⟨0x110, 0x4, 8, 0x4, 1, 32, 0xFFFF, 0x0, 0x0, 0x0, 0x0, 0x0, 0x0⟩,
  ⟨0x140, 0x8, 2, 0x8, 1, 64, 0xFFFFFFFFFFFFFFFF, 0x0, 0x0, 0x0, 0x0, 0x0, 0x0⟩,
  ⟨0x160, 0x8, 8, 0x8, 1, 64, 0xFFFFFFFFFFFFFFFF, 0x0, 0x0, 0x0, 0x0, 0x0, 0x0⟩,
  ⟨0x1A0, 0x8, 1, 0x8, 1, 64, 0x82008040400180, 0x0, 0x0, 0x0, 0x0, 0x0, 0x0⟩,
  ⟨0x200, 0x8, 1, 0x8, 1, 32, 0xFFFF, 0xFFFF, 0x0, 0x0, 0x0, 0x0, 0x0⟩]

/-- Register rows of the TICK block. -/
def rowsTICK : List RegRow := [
  ⟨0x100000, 0x8, 1, 0x8, 1, 32, 0x0, 0x1, 0x0, 0x0, 0x0, 0x0, 0x0⟩,
  ⟨0x100008, 0x8, 1, 0x8, 1, 32, 0x0, 0x0, 0x0, 0x0, 0x0, 0x0, 0x0⟩,
  ⟨0x100010, 0x8, 1, 0x8, 1, 64, 0x0, 0x0, 0x0, 0x0, 0x0, 0x0, 0x0⟩,
  ⟨0x100018, 0x8, 1, 0x8, 1, 64, 0x0, 0x3FFFFFFFF, 0x0, 0x0, 0x0, 0x0, 0x0⟩,
  ⟨0x100020, 0x8, 2, 0x8, 1, 64, 0x0, 0xFFFFFFFFFFFF, 0x0, 0x0, 0x0, 0x0, 0x3F⟩,
  ⟨0x100030, 0x8, 1, 0x8, 1, 64, 0x0, 0xFFFFFFFFFFFFFFFF, 0x0, 0x0, 0x0, 0x0, 0x0⟩,
  ⟨0x100038, 0x8, 1, 0x8, 1, 32, 0x0, 0x0, 0x0, 0x6, 0x0, 0x0, 0x0⟩,
  ⟨0x100040, 0x8, 1, 0x8, 1, 64, 0x0, 0x0, 0x0, 0x0, 0xFFFFFFFFFFFFFFFF, 0x0, 0x0⟩,
  ⟨0x100048, 0x8, 1, 0x8, 1, 64, 0x0, 0x0, 0xFFFFFFFFFFFFFFFF, 0x0, 0x0, 0x0, 0x1F⟩,
  ⟨0x100050, 0x8, 1, 0x8, 1, 32, 0x0, 0x0, 0x1F1, 0x0, 0x0, 0x0, 0x0⟩,
  ⟨0x100058, 0x8, 1, 0x8, 1, 32, 0x0, 0x0, 0x0, 0x0, 0x0, 0x0, 0x0⟩,
  ⟨0x1FFF00, 0x8, 1, 0x8, 1, 32, 0x0, 0x0, 0x0, 0x0, 0x0, 0xFFFFFFFF, 0x0⟩,
  ⟨0x1FFF08, 0x8, 1, 0x8, 1, 64, 0x0, 0x0, 0x0, 0x0, 0xFFFF000000000000, 0x0, 0x0⟩]

/-- Register rows of the TIME block. -/
def rowsTIME : List RegRow := [
  ⟨0x200000, 0x8, 1, 0x8, 1, 32, 0x0, 0x3FF, 0x0, 0x0, 0x0, 0x0, 0x0⟩,
  ⟨0x200008, 0x8, 1, 0x8, 1, 32, 0x0, 0x0, 0x0, 0xC00, 0x0, 0x0, 0x0⟩,
  ⟨0x200010, 0x8, 1, 0x8, 1, 64, 0x0, 0x0, 0x0, 0x0, 0x0, 0x0, 0x0⟩,
  ⟨0x200018, 0x8, 1, 0x8, 1, 32, 0x0, 0x0, 0x0, 0x0, 0x0, 0x0, 0x0⟩,
  ⟨0x200020, 0x8, 1, 0x8, 1, 64, 0x0, 0x0, 0x0, 0x0, 0x0, 0x0, 0x0⟩,
  ⟨0x200028, 0x8, 1, 0x8, 1, 64, 0x0, 0x0, 0x0, 0x0, 0x0, 0xFFFFFFFFFFFFFFFF, 0x0⟩,
  ⟨0x200030, 0x8, 1, 0x8, 1, 64, 0x0, 0xFFFFFFFFF, 0x0, 0x0, 0x0, 0x0, 0x0⟩,
  ⟨0x200038, 0x8, 1, 0x8, 1, 64, 0x3E80008, 0xFFFFFFFFFFFF, 0x0, 0x0, 0xFFFF000000000000, 0x0, 0x0⟩,
  ⟨0x200040, 0x8, 1, 0x8, 1, 64, 0x0, 0x0, 0x0, 0x0, 0x0, 0x0, 0x0⟩,
  ⟨0x200048, 0x8, 1, 0x8, 1, 64, 0x0, 0x0, 0x0, 0x0, 0x0, 0x0, 0x0⟩,
  ⟨0x200050, 0x8, 1, 0x8, 1, 64, 0xFF00000000000000, 0x0, 0x0, 0x0, 0x0, 0x0, 0x0⟩,
  ⟨0x200100, 0x8, 32, 0x8, 1, 64, 0x1800, 0x0, 0xFFFFFFFFFF07, 0x0, 0x0, 0x0, 0x0⟩,
  ⟨0x200200, 0x20, 4, 0x20, 1, 64, 0x0, 0x0, 0xFFFFFFFFFF07, 0x0, 0x0, 0x0, 0x0⟩,
  ⟨0x200208, 0x20, 4, 0x20, 1, 64, 0x0, 0x0, 0xFFFFFFFFFFFFFFFF, 0x0, 0x0, 0x0, 0x0⟩,
  ⟨0x200210, 0x20, 4, 0x20, 1, 64, 0x0, 0x0, 0xFFFFFFFFFF, 0x0, 0x0, 0x0, 0x0⟩,
  ⟨0x200218, 0x20, 4, 0x20, 1, 32, 0x0, 0x0, 0x0, 0x3, 0xFFFF0000, 0x0, 0x0⟩,
  ⟨0x200400, 0x20, 8, 0x20, 1, 64, 0x0, 0x0, 0x8FFFFFFFFFFFFFFF, 0x0, 0x0, 0x0, 0x0⟩,
  ⟨0x200408, 0x20, 8, 0x20, 1, 64, 0x0, 0x0, 0x3FF7FFF7FFF, 0x0, 0x0, 0x0, 0x0⟩,
  ⟨0x200410, 0x20, 8, 0x20, 1, 32, 0x0, 0x0, 0x0, 0x0, 0x0, 0x1, 0x0⟩,
  ⟨0x200418, 0x20, 8, 0x20, 1, 64, 0x0, 0x0, 0x0, 0x30000, 0xFFFF000000000000, 0x0, 0x0⟩,
  ⟨0x200600, 0x8, 8, 0x8, 1, 64, 0x0, 0x0, 0x0, 0x0, 0x0, 0x0, 0x0⟩,
  ⟨0x2FFF00, 0x8, 1, 0x8, 1, 32, 0x0, 0x0, 0x0, 0x0, 0x0, 0xFFFFFFFF, 0x0⟩,
  ⟨0x2FFF08, 0x8, 1, 0x8, 1, 64, 0x0, 0x0, 0x0, 0x0, 0xFFFF000000000000, 0x0, 0x0⟩]

/-- Register rows of the HQ block. -/
def rowsHQ : List RegRow := [
  ⟨0x300000, 0x8, 1, 0x8, 1, 32, 0x0, 0x0, 0x0, 0x0, 0x0, 0xFFF, 0x0⟩,
  ⟨0x301000, 0x8, 1, 0x8, 1, 64, 0x0, 0x0, 0x0, 0x0, 0xFFFFFFFF00000000, 0x0, 0x0⟩,
  ⟨0x310000, 0x8, 4096, 0x8, 1, 64, 0x0, 0x0, 0xFFFFFFFFFFFFFFFF, 0x0, 0x0, 0x0, 0x3F⟩,
  ⟨0x320000, 0x8, 4096, 0x8, 1, 64, 0x0, 0x0, 0xFFFFFFFFFFFFFFFF, 0x0, 0x0, 0x0, 0x3F⟩,
  ⟨0x330000, 0x8, 4096, 0x8, 1, 64, 0x7F00000000000000, 0x0, 0xFFFFFFC000000000, 0x0, 0x0, 0x0, 0x0⟩,
  ⟨0x340000, 0x8, 4096, 0x8, 1, 64, 0x0, 0x0, 0x0, 0x0, 0xFFFFFFFFFFFF0000, 0x0, 0x0⟩,
  ⟨0x350000, 0x8, 4096, 0x8, 1, 32, 0x0, 0x0, 0x0, 0x0, 0x0, 0x0, 0x0⟩,
  ⟨0x3FFF00, 0x8, 1, 0x8, 1, 32, 0x0, 0x0, 0x0, 0x0, 0x0, 0xFFFFFFFF, 0x0⟩,
  ⟨0x3FFF08, 0x8, 1, 0x8, 1, 64, 0x0, 0x0, 0x0, 0x0, 0xFFFF000000000000, 0x0, 0x0⟩]

/-- Register rows of the PART block. -/
def rowsPART : List RegRow := [
  ⟨0x402000, 0x8, 64, 0x8, 1, 64, 0x0, 0x0, 0x0, 0x0, 0xFFFFFFFFFFFFFFFF, 0x0, 0x0⟩,
  ⟨0x400000, 0x8, 1, 0x8, 1, 32, 0x0, 0x0, 0x0, 0x0, 0x0, 0x273F, 0x0⟩,
  ⟨0x400010, 0x8, 1, 0x8, 1, 32, 0x0, 0x800FFFFF, 0x0, 0x0, 0x0, 0x0, 0x0⟩,
  ⟨0x400020, 0x8, 1, 0x8, 1, 64, 0x0, 0x0, 0xFFFFFFFFFFFFFFFF, 0x0, 0x0, 0x0, 0x7F⟩,
  ⟨0x400028, 0x8, 1, 0x8, 1, 32, 0x0, 0x0, 0xFFFF01F1, 0x0, 0x0, 0x0, 0x0⟩,
  ⟨0x400030, 0x8, 1, 0x8, 1, 32, 0x0, 0x0, 0x0, 0x0, 0x0, 0x0, 0x0⟩,
  ⟨0x400100, 0x8, 64, 0x8, 1, 64, 0x1F303E70030, 0x0, 0xFFFFFFFFFF35, 0x0, 0x0, 0x0, 0x0⟩,
  ⟨0x400300, 0x8, 64, 0x8, 1, 64, 0x0, 0x0, 0x0, 0xE000, 0xFFFFFF0000000000, 0x0, 0x0⟩,
  ⟨0x400600, 0x10, 64, 0x8, 2, 64, 0x0, 0x0, 0xFFFFFFFFFFFFFFFF, 0x0, 0x0, 0x0, 0x0⟩,
  ⟨0x400A00, 0x8, 64, 0x8, 1, 64, 0x0, 0x0, 0xFFFFFFFFFFFF0000, 0x0, 0x0, 0x0, 0x0⟩,
  ⟨0x400C00, 0x8, 32, 0x8, 1, 64, 0x0, 0x0, 0xBFBFBFBFBFBFBFBF, 0x0, 0x0, 0x0, 0x0⟩,
  ⟨0x401000, 0x40, 64, 0x4, 16, 32, 0x0, 0x0, 0x800FFFFF, 0x0, 0x0, 0x0, 0x0⟩,
  ⟨0x403000, 0x10, 64, 0x8, 2, 64, 0x0, 0xFFFFFFFFFFFF, 0x0, 0x0, 0x0, 0x0, 0x3F⟩,
  ⟨0x403400, 0x8, 64, 0x8, 1, 64, 0x0, 0x0, 0x0, 0x0, 0x0, 0x0, 0x0⟩,
  ⟨0x403600, 0x8, 64, 0x8, 1, 64, 0x0, 0xC000FFFFFFFFFFFF, 0x0, 0x0, 0x0, 0x0, 0x0⟩,
  ⟨0x403800, 0x4, 64, 0x4, 1, 32, 0x0, 0x0, 0x0, 0x18, 0x0, 0x0, 0x0⟩,
  ⟨0x404000, 0x40, 64, 0x8, 8, 64, 0x0, 0x0, 0x0, 0x0, 0x0, 0x0, 0x0⟩,
  ⟨0x4FFF00, 0x8, 1, 0x8, 1, 32, 0x0, 0x0, 0x0, 0x0, 0x0, 0xFFFFFFFF, 0x0⟩,
  ⟨0x4FFF08, 0x8, 1, 0x8, 1, 64, 0x0, 0x0, 0x0, 0x0, 0xFFFF000000000000, 0x0, 0x0⟩]

/-- Register rows of the FLT block. -/
def rowsFLT : List RegRow := [
  ⟨0x500000, 0x8, 1, 0x8, 1, 64, 0x0, 0x0, 0xFFFFFFFFFFFFFFFF, 0x0, 0x0, 0x0, 0x3F⟩,
  ⟨0x500008, 0x8, 1, 0x8, 1, 32, 0x0, 0x0, 0x1F1, 0x0, 0x0, 0x0, 0x0⟩,
  ⟨0x500010, 0x8, 1, 0x8, 1, 64, 0x0, 0x0, 0x0, 0x0, 0xFFFFFFFFFF000000, 0x0, 0x0⟩,
  ⟨0x500100, 0x8, 16, 0x8, 1, 64, 0x0, 0x0, 0x0, 0x0, 0xFFFFFFFFFFFFFFFF, 0x0, 0x0⟩,
  ⟨0x500200, 0x8, 1, 0x8, 1, 32, 0x0, 0x0, 0x0, 0x0, 0x0, 0x77F, 0x0⟩,
  ⟨0x500210, 0x4, 8, 0x4, 1, 32, 0x0, 0x0, 0x0, 0x0, 0x0, 0x0, 0x0⟩,
  ⟨0x500240, 0x8, 2, 0x8, 1, 64, 0x0, 0x0, 0x0, 0x0, 0x0, 0x0, 0x0⟩,
  ⟨0x500250, 0x8, 1, 0x8, 1, 32, 0x0, 0x0, 0x0, 0x0, 0x0, 0x0, 0x0⟩,
  ⟨0x501000, 0x10, 64, 0x10, 1, 64, 0x0, 0x0, 0xFFFFFFFFFFFFFFFF, 0x0, 0x0, 0x0, 0x3F⟩,
  ⟨0x501008, 0x10, 64, 0x10, 1, 32, 0x0, 0x0, 0xF0001F1, 0x0, 0x0, 0x0, 0x0⟩,
  ⟨0x502000, 0x10, 64, 0x10, 1, 64, 0x0, 0x0, 0xFFFFFFFFFFF1, 0x0, 0x0, 0x0, 0x0⟩,
  ⟨0x502008, 0x10, 64, 0x10, 1, 64, 0x0, 0x0, 0x0, 0x0, 0x0, 0x0, 0x0⟩,
  ⟨0x5FFF00, 0x8, 1, 0x8, 1, 32, 0x0, 0x0, 0x0, 0x0, 0x0, 0xFFFFFFFF, 0x0⟩,
  ⟨0x5FFF08, 0x8, 1, 0x8, 1, 64, 0x0, 0x0, 0x0, 0x0, 0xFFFF000000000000, 0x0, 0x0⟩]

/-- Register rows of the ETH block. -/
def rowsETH : List RegRow := [
  ⟨0x600000, 0x4, 8, 0x4, 1, 32, 0x0, 0x0, 0x7, 0x0, 0x0, 0x0, 0x0⟩,
  ⟨0x600100, 0x4, 8, 0x4, 1, 32, 0x0, 0x0, 0x0, 0x0, 0xFFFF0000, 0x0, 0x0⟩,
  ⟨0x601000, 0x8, 32, 0x8, 1, 64, 0x0, 0x0, 0xFFFFFFFFFFFF, 0x0, 0x0, 0x0, 0x0⟩,
  ⟨0x601100, 0x8, 32, 0x8, 1, 64, 0x27000005F2, 0x0, 0xFFFFFF3FFF, 0x0, 0x0, 0x0, 0x0⟩,
  ⟨0x601200, 0x8, 32, 0x8, 1, 64, 0x0, 0x0, 0x0, 0x0, 0xFFFFFFFFFFFFFFFF, 0x0, 0x0⟩,
  ⟨0x601400, 0x8, 1, 0x8, 1, 32, 0x0, 0x0, 0xFFFF, 0x0, 0x0, 0x0, 0x0⟩,
  ⟨0x610000, 0x10, 8192, 0x10, 1, 64, 0x0, 0x0, 0xC00F0FFF0000FFFF, 0x0, 0x0, 0x0, 0x0⟩,
  ⟨0x610008, 0x10, 8192, 0x10, 1, 64, 0x0, 0x0, 0xFFF, 0x0, 0x0, 0x0, 0x0⟩,
  ⟨0x6FFF00, 0x8, 1, 0x8, 1, 32, 0x0, 0x0, 0x0, 0x0, 0x0, 0xFFFFFFFF, 0x0⟩,
  ⟨0x6FFF08, 0x8, 1, 0x8, 1, 64, 0x0, 0x0, 0x0, 0x0, 0xFFFF000000000000, 0x0, 0x0⟩]

/-- Register rows of the BLT block. -/
def rowsBLT : List RegRow := [
  ⟨0x800000, 0x8, 8, 0x8, 1, 64, 0x8008C000013, 0x0, 0xFFF8FFF03FF, 0x0, 0x0, 0x0, 0x0⟩,
  ⟨0x800100, 0x8, 8, 0x8, 1, 64, 0x0, 0x0, 0x0, 0x0, 0xFFFFFFFFFFFFFFFF, 0x0, 0x0⟩,
  ⟨0x800200, 0x4, 8, 0x4, 1, 32, 0x0, 0x0, 0x0, 0x0, 0x0, 0x0, 0x0⟩,
  ⟨0x810000, 0x8, 8192, 0x8, 1, 64, 0x0, 0x0, 0xFFFFFFFF00FFFFF3, 0x0, 0x0, 0x0, 0x0⟩,
  ⟨0x820000, 0x8, 8192, 0x8, 1, 64, 0x0, 0x0, 0x0, 0x0, 0xFFFFFFFFFFFFFFFF, 0x0, 0x0⟩,
  ⟨0x8FFF00, 0x8, 1, 0x8, 1, 32, 0x0, 0x0, 0x0, 0x0, 0x0, 0xFFFFFFFF, 0x0⟩,
  ⟨0x8FFF08, 0x8, 1, 0x8, 1, 64, 0x0, 0x0, 0x0, 0x0, 0xFFFF000000000000, 0x0, 0x0⟩]

/-- Register rows of the EQS block. -/
def rowsEQS : List RegRow := [
  ⟨0x900000, 0x8, 32, 0x8, 1, 64, 0x0, 0x0, 0xFFFFFFFF000003FF, 0x0, 0x0, 0x0, 0x0⟩,
  ⟨0x900100, 0x8, 32, 0x8, 1, 64, 0x0, 0x0, 0xFFFFFFFFFFFFFFFF, 0x0, 0x0, 0x0, 0x0⟩,
  ⟨0x910000, 0x800, 32, 0x8, 256, 64, 0xFF, 0x0, 0xFFFFFF000000FF, 0x0, 0x0, 0x0, 0x0⟩,
  ⟨0x920000, 0x8, 8192, 0x8, 1, 64, 0x0, 0x0, 0xFFFFFFFFFFFFFFFF, 0x0, 0x0, 0x0, 0x0⟩,
  ⟨0x930000, 0x8, 8192, 0x8, 1, 64, 0x0, 0x0, 0xFFFFFFFFFFFFFFFF, 0x0, 0x0, 0x0, 0x0⟩,
  ⟨0x940000, 0x8, 8192, 0x8, 1, 64, 0x0, 0x0, 0xFFFFFFFF, 0x0, 0x0, 0x0, 0x0⟩,
  ⟨0x950000, 0x8, 8192, 0x8, 1, 64, 0x0, 0x0, 0x0, 0x0, 0xFFFFFFFFFFFF0000, 0x0, 0x0⟩,
  ⟨0x960000, 0x8, 1024, 0x8, 1, 64, 0x0, 0x0, 0xFFFFFFFFFFFFFF, 0x0, 0x0, 0x0, 0x0⟩,
  ⟨0x9FFF00, 0x8, 1, 0x8, 1, 32, 0x0, 0x0, 0x0, 0x0, 0x0, 0xFFFFFFFF, 0x0⟩,
  ⟨0x9FFF08, 0x8, 1, 0x8, 1, 64, 0x0, 0x0, 0x0, 0x0, 0xFFFF000000000000, 0x0, 0x0⟩]

/-- Register rows of the FAB block. -/
def rowsFAB : List RegRow := [
  ⟨0xA00000, 0x8, 1, 0x8, 1, 64, 0xC831400000, 0x0, 0xFFFFFFFF0000, 0x0, 0x0, 0x0, 0x0⟩,
  ⟨0xA00008, 0x8, 1, 0x8, 1, 64, 0x0, 0x0, 0xFFFFFF800000, 0x0, 0x0, 0x0, 0x0⟩,
  ⟨0xA00010, 0x8, 1, 0x8, 1, 64, 0x0, 0x0, 0x0, 0x0, 0xFFFFFFFFFFFFFFFF, 0x0, 0x0⟩,
  ⟨0xA00018, 0x8, 1, 0x8, 1, 32, 0x0, 0x0, 0x0, 0x0, 0xFFFF0000, 0x0, 0x0⟩,
  ⟨0xA00020, 0x8, 1, 0x8, 1, 64, 0x0, 0x0, 0x0, 0x0, 0xFFFFFFFFFFFF0000, 0x0, 0x0⟩,
  ⟨0xA00100, 0x4, 36, 0x4, 1, 32, 0x0, 0x0, 0x3, 0x0, 0x0, 0x0, 0x0⟩,
  ⟨0xA00200, 0x8, 36, 0x8, 1, 64, 0xFFFF0000, 0x0, 0x0, 0x0, 0xFFFFFFFF00000000, 0x0, 0x0⟩,
  ⟨0xA00400, 0x4, 64, 0x4, 1, 32, 0x0, 0x0, 0x8000FFFF, 0x0, 0x0, 0x0, 0x0⟩,
  ⟨0xA01000, 0x4, 256, 0x4, 1, 32, 0x0, 0x0, 0x83FFFFFF, 0x0, 0x0, 0x0, 0x0⟩,
  ⟨0xA01400, 0x4, 240, 0x4, 1, 32, 0x0, 0x0, 0x83FFFFFF, 0x0, 0x0, 0x0, 0x0⟩,
  ⟨0xA02000, 0x80, 10, 0x8, 16, 64, 0x0, 0x0, 0xFFFFFFFFFFFFFFFF, 0x0, 0x0, 0x0, 0x0⟩,
  ⟨0xA02800, 0x8, 10, 0x8, 1, 64, 0x0, 0x0, 0x0, 0x0, 0xFFFFFFFF00000000, 0x0, 0x0⟩,
  ⟨0xA10000, 0x8, 4095, 0x8, 1, 64, 0x0, 0x0, 0xFFFF000FFFFFFFFF, 0x0, 0x0, 0x0, 0x0⟩,
  ⟨0xAFFF00, 0x8, 1, 0x8, 1, 32, 0x0, 0x0, 0x0, 0x0, 0x0, 0xFFFFFFFF, 0x0⟩,
  ⟨0xAFFF08, 0x8, 1, 0x8, 1, 64, 0x0, 0x0, 0x0, 0x0, 0xFFFF000000000000, 0x0, 0x0⟩]

/-- Register rows of the COL block. -/
def rowsCOL : List RegRow := [
  ⟨0xC00000, 0x8, 1, 0x8, 1, 64, 0x63000F0010, 0x0, 0xFFFF00FF007F, 0x0, 0x0, 0x0, 0x0⟩,
  ⟨0xC00100, 0x8, 64, 0x8, 1, 64, 0x0, 0x0, 0xFFF0FFFFFFFFFFC1, 0x0, 0x0, 0x0, 0x0⟩,
  ⟨0xC00300, 0x8, 64, 0x8, 1, 64, 0x1, 0xFFFFFFFF, 0x0, 0x0, 0x0, 0x0, 0x0⟩,
  ⟨0xC00500, 0x8, 10, 0x8, 1, 64, 0x0, 0x0, 0x0, 0x0, 0xFFFFFFFFFFFFFFFF, 0x0, 0x0⟩,
  ⟨0xC00600, 0x8, 64, 0x8, 1, 64, 0x0, 0x0, 0x0, 0x0, 0xFFFFFFFFFFFFFFFF, 0x0, 0x0⟩,
  ⟨0xCFFF00, 0x8, 1, 0x8, 1, 32, 0x0, 0x0, 0x0, 0x0, 0x0, 0xFFFFFFFF, 0x0⟩,
  ⟨0xCFFF08, 0x8, 1, 0x8, 1, 64, 0x0, 0x0, 0x0, 0x0, 0xFFFF000000000000, 0x0, 0x0⟩]

/-- Register rows of the INK block. -/
def rowsINK : List RegRow := [
  ⟨0xD00000, 0x40, 64, 0x8, 8, 64, 0x0, 0x0, 0xFFFFFFFFF000, 0x0, 0x0, 0x0, 0x0⟩,
  ⟨0xD01000, 0x40, 64, 0x8, 8, 64, 0x0, 0x0, 0xFFFFF01FFFFFF, 0x0, 0x0, 0x0, 0x0⟩,
  ⟨0xD02000, 0x40, 64, 0x4, 16, 32, 0x0, 0x0, 0x8FFFFFFF, 0x0, 0x0, 0x0, 0x0⟩,
  ⟨0xD03000, 0x8, 64, 0x8, 1, 64, 0x0, 0x0, 0x1F7FFFFFFFFFFFF, 0x0, 0x0, 0x0, 0xFFF⟩,
  ⟨0xD03200, 0x8, 64, 0x8, 1, 64, 0x0, 0x0, 0xFFFF001FFFFF, 0x0, 0x0, 0x0, 0x0⟩,
  ⟨0xD03400, 0x8, 64, 0x8, 1, 64, 0x0, 0x0, 0xFFFFFFFF0000, 0x0, 0x0, 0x0, 0x0⟩,
  ⟨0xD04000, 0x8, 64, 0x8, 1, 64, 0x0, 0x0, 0x0, 0x0, 0x0, 0x0, 0x0⟩,
  ⟨0xD04200, 0x8, 64, 0x8, 1, 64, 0x0, 0x0, 0x0, 0x0, 0xFFFFFFFFFFFFFFFF, 0x0, 0x0⟩,
  ⟨0xD08000, 0x8, 1024, 0x8, 1, 64, 0x0, 0x0, 0x0, 0x0, 0x0, 0x0, 0x0⟩,
  ⟨0xDFFF00, 0x8, 1, 0x8, 1, 32, 0x0, 0x0, 0x0, 0x0, 0x0, 0xFFFFFFFF, 0x0⟩,
  ⟨0xDFFF08, 0x8, 1, 0x8, 1, 64, 0x0, 0x0, 0x0, 0x0, 0xFFFF000000000000, 0x0, 0x0⟩]

/-- Register rows of the SRV block. -/
def rowsSRV : List RegRow := [
  ⟨0xE00000, 0x8, 64, 0x8, 1, 64, 0x0, 0x0, 0xFFFFFFFF00FF0003, 0x0, 0x0, 0x0, 0x0⟩,
  ⟨0xE00200, 0x8, 64, 0x8, 1, 64, 0x0, 0x0, 0xFFFFFFFFFFFFFF00, 0x0, 0x0, 0x0, 0x0⟩,
  ⟨0xE00400, 0x8, 64, 0x8, 1, 64, 0x0, 0x0, 0xFFFFFFFFFFFFFC0, 0x0, 0x0, 0x0, 0x0⟩,
  ⟨0xE00600, 0x8, 64, 0x8, 1, 64, 0x0, 0x0, 0xFFFFFFFFFFFFF000, 0x0, 0x0, 0x0, 0x0⟩,
  ⟨0xE01000, 0x10, 64, 0x10, 1, 64, 0x0, 0x0, 0xF3FFF0F7FFFFF, 0x0, 0x0, 0x0, 0x0⟩,
  ⟨0xE01008, 0x10, 64, 0x10, 1, 64, 0x0, 0x0, 0xFFFFFFFFFFFF, 0x0, 0x0, 0x0, 0x3F⟩,
  ⟨0xE01400, 0x8, 64, 0x8, 1, 64, 0x0, 0x0, 0x0, 0x0, 0xFFFF0000000000, 0x0, 0x0⟩,
  ⟨0xE02000, 0x10, 64, 0x10, 1, 64, 0x0, 0x0, 0x0, 0x0, 0xFFFFFFFFFFFFFFFF, 0x0, 0x0⟩,
  ⟨0xE02008, 0x10, 64, 0x10, 1, 64, 0x0, 0x0, 0x0, 0x0, 0xFFFFFFFFFFFFFFFF, 0x0, 0x0⟩,
  ⟨0xF00000, 0x8, 64, 0x8, 1, 64, 0x0, 0x0, 0xFFFFFFFFE000, 0x0, 0x0, 0x0, 0x0⟩,
  ⟨0xF00200, 0x4, 64, 0x4, 1, 32, 0x0, 0x0, 0xFFFFFFFF, 0x0, 0x0, 0x0, 0x0⟩,
  ⟨0xF00300, 0x8, 64, 0x8, 1, 64, 0x0, 0x0, 0xFFFFFFFFFFFFFFC0, 0x0, 0x0, 0x0, 0x0⟩,
  ⟨0xF00500, 0x8, 4, 0x8, 1, 64, 0x0, 0x0, 0x0, 0x0, 0xFFFFFFFFFFFFFFFF, 0x0, 0x0⟩,
  ⟨0xF00600, 0x8, 64, 0x8, 1, 64, 0x0, 0x0, 0x0, 0x0, 0xFFFFFFFFFFFFFFFF, 0x0, 0x0⟩,
  ⟨0xEFFF00, 0x8, 1, 0x8, 1, 32, 0x0, 0x0, 0x0, 0x0, 0x0, 0xFFFFFFFF, 0x0⟩,
  ⟨0xEFFF08, 0x8, 1, 0x8, 1, 64, 0x0, 0x0, 0x0, 0x0, 0xFFFF000000000000, 0x0, 0x0⟩]

/-- Register rows of the RAD block. -/
def rowsRAD : List RegRow := [
  ⟨0x1000000, 0x8, 1024, 0x8, 1, 64, 0x0, 0x0, 0xFFF1FFFFF0000000, 0x0, 0x0, 0x0, 0x0⟩,
  ⟨0x1002000, 0x8, 1024, 0x8, 1, 64, 0x0, 0x0, 0x0, 0x0, 0x7FFFFFFFFFFFFFFF, 0x0, 0x0⟩,
  ⟨0x1004000, 0x4, 1024, 0x4, 1, 32, 0x7FC0, 0x0, 0x0, 0x0, 0x0, 0x0, 0x0⟩,
  ⟨0x1006000, 0x8, 1024, 0x8, 1, 64, 0x0, 0x0, 0xFFFFFFFFF000, 0x0, 0x0, 0x0, 0x0⟩,
  ⟨0x1008000, 0x4, 1024, 0x4, 1, 32, 0x0, 0x0, 0x1F1, 0x0, 0x0, 0x0, 0x0⟩,
  ⟨0x1010000, 0x4, 128, 0x4, 1, 32, 0x0, 0x0, 0x8000003F, 0x0, 0x0, 0x0, 0x0⟩,
  ⟨0x1010200, 0x8, 128, 0x8, 1, 64, 0x0, 0x0, 0x7F00FFFFFFFFFC00, 0x0, 0x0, 0x0, 0x0⟩,
  ⟨0x1011000, 0x20, 2, 0x8, 4, 64, 0x0, 0x0, 0x0, 0x0, 0xFFFFFFFFFFFFFFFF, 0x0, 0x0⟩,
  ⟨0x10FFF00, 0x8, 1, 0x8, 1, 32, 0x0, 0x0, 0x0, 0x0, 0x0, 0xFFFFFFFF, 0x0⟩,
  ⟨0x10FFF08, 0x8, 1, 0x8, 1, 64, 0x0, 0x0, 0x0, 0x0, 0xFFFF000000000000, 0x0, 0x0⟩]

/-- Register rows of the TILE block. -/
def rowsTILE : List RegRow := [
  ⟨0x2001000, 0x8, 16, 0x8, 1, 64, 0x0, 0x0, 0xBFBFBFBFBFBFBFBF, 0x0, 0x0, 0x0, 0x0⟩,
  ⟨0x2001100, 0x40, 16, 0x8, 8, 64, 0x0, 0x0, 0xBFBFBFBFBFBFBFBF, 0x0, 0x0, 0x0, 0x0⟩,
  ⟨0x2001800, 0x8, 16, 0x8, 1, 64, 0x0, 0x0, 0x0, 0x0, 0xFFFFFFFFFFFFFFFF, 0x0, 0x0⟩,
  ⟨0x2004000, 0x4, 96, 0x4, 1, 32, 0x7F, 0x0, 0x77F, 0x0, 0x0, 0x0, 0x0⟩,
  ⟨0x2004200, 0x4, 96, 0x4, 1, 32, 0x0, 0x0, 0x0, 0x0, 0x0, 0x0, 0x0⟩,
  ⟨0x2004400, 0x4, 65, 0x4, 1, 32, 0x0, 0x0, 0xFFFF, 0x0, 0x0, 0x0, 0x0⟩,
  ⟨0x2004600, 0x8, 1, 0x8, 1, 32, 0x0, 0x0, 0x0, 0x0, 0x0, 0x0, 0x0⟩,
  ⟨0x2004608, 0x8, 1, 0x8, 1, 64, 0x0, 0x0, 0x0, 0x0, 0xFFFFFFFFFFFFFFFF, 0x0, 0x0⟩,
  ⟨0x2004610, 0x8, 1, 0x8, 1, 32, 0x2, 0x7, 0x0, 0x0, 0x0, 0x0, 0x0⟩,
  ⟨0x2004800, 0x8, 96, 0x8, 1, 64, 0x0, 0x0, 0x0, 0x0, 0xFFFFFFFFFFFFFFFF, 0x0, 0x0⟩,
  ⟨0x20FFF00, 0x8, 1, 0x8, 1, 32, 0x0, 0x0, 0x0, 0x0, 0x0, 0xFFFFFFFF, 0x0⟩,
  ⟨0x20FFF08, 0x8, 1, 0x8, 1, 64, 0x0, 0x0, 0x0, 0x0, 0xFFFF000000000000, 0x0, 0x0⟩]

/-- Register rows of the MGT block. -/
def rowsMGT : List RegRow := [
  ⟨0xF000000, 0x8, 1, 0x8, 1, 32, 0x2000, 0x0, 0x0, 0x0, 0x0, 0x0, 0x0⟩,
  ⟨0xF000008, 0x8, 1, 0x8, 1, 64, 0x0, 0x0, 0x0, 0x0, 0xFFFF00000000, 0x0, 0x0⟩,
  ⟨0xF000100, 0x8, 8, 0x8, 1, 64, 0x0, 0xFFFFFFFFFFFFFFFF, 0x0, 0x0, 0x0, 0x0, 0x0⟩,
  ⟨0xF000140, 0x8, 1, 0x8, 1, 32, 0x0, 0x0, 0x0, 0x0, 0x0, 0xFFFF, 0x0⟩,
  ⟨0xF000148, 0x8, 1, 0x8, 1, 32, 0x0, 0x0, 0x0, 0x0, 0x0, 0x0, 0x0⟩,
  ⟨0xF000180, 0x8, 4, 0x8, 1, 64, 0x0, 0x0, 0x0, 0x0, 0x0, 0x0, 0x0⟩,
  ⟨0xF000200, 0x8, 1, 0x8, 1, 64, 0x0, 0x0, 0x0, 0x0, 0x0, 0x0, 0x0⟩,
  ⟨0xF000208, 0x8, 1, 0x8, 1, 32, 0x0, 0x0, 0x0, 0x0, 0x0, 0x0, 0x0⟩,
  ⟨0xF000210, 0x8, 1, 0x8, 1, 64, 0x0, 0x0, 0x0, 0x0, 0x0, 0x0, 0x0⟩,
  ⟨0xF000300, 0x8, 1, 0x8, 1, 64, 0xE100E1000000000, 0x0, 0x0, 0x0, 0x0, 0x0, 0x0⟩,
  ⟨0xF000308, 0x8, 1, 0x8, 1, 64, 0x0, 0x0, 0x0, 0x0, 0x0, 0x0, 0x0⟩,
  ⟨0xF000310, 0x8, 1, 0x8, 1, 32, 0xE10, 0xFFF, 0x0, 0x0, 0x0, 0x0, 0x0⟩,
  ⟨0xF000318, 0x8, 1, 0x8, 1, 32, 0x555F, 0xFFFF, 0x0, 0x0, 0x0, 0x0, 0x0⟩,
  ⟨0xF000320, 0x8, 1, 0x8, 1, 64, 0xFFFFFFFFFF, 0x0, 0x0, 0x0, 0x0, 0x0, 0x0⟩,
  ⟨0xF000400, 0x4, 10, 0x4, 1, 32, 0x0, 0x0, 0x0, 0x0, 0x0, 0x0, 0x0⟩,
  ⟨0xF000480, 0x4, 32, 0x4, 1, 32, 0x0, 0x0, 0x0, 0x0, 0x0, 0x0, 0x0⟩,
  ⟨0xF000600, 0x8, 16, 0x8, 1, 64, 0x0, 0x0, 0x0, 0x0, 0x0, 0x0, 0x0⟩]

/-- A tile's registers all have the offsets of tile 0 (the block map of 06: tile n at 0x0200_0000 + 0x0100_0000 n). -/
def tileLocal (off : Nat) : Nat :=
  if 0x2000000 ≤ off ∧ off < 0xA000000 then 0x2000000 + (off - 0x2000000) % 0x1000000 else off

/-- The block whose offsets hold `off`, as its list of rows. -/
def blockRows (off : Nat) : List RegRow :=
  if off < 0x100000 then rowsGLB else
  if off < 0x200000 then rowsTICK else
  if off < 0x300000 then rowsTIME else
  if off < 0x400000 then rowsHQ else
  if off < 0x500000 then rowsPART else
  if off < 0x600000 then rowsFLT else
  if off < 0x800000 then rowsETH else
  if off < 0x900000 then rowsBLT else
  if off < 0xA00000 then rowsEQS else
  if off < 0xC00000 then rowsFAB else
  if off < 0xD00000 then rowsCOL else
  if off < 0xE00000 then rowsINK else
  if off < 0x1000000 then rowsSRV else
  if off < 0x2000000 then rowsRAD else
  if off < 0xA000000 then rowsTILE else
  if 0xF000000 ≤ off then rowsMGT else []

/-- Offsets in a tile's block of the channel registers k = 32 to 95, which no P-tile has (R217). -/
def pTileChanGap (o : Nat) : Bool :=
  (decide (0x4080 ≤ o) && decide (o < 0x4180)) || (decide (0x4280 ≤ o) && decide (o < 0x4380)) ||
    (decide (0x4900 ≤ o) && decide (o < 0x4B00))

/-- Does the row's array have a register that starts at the (tile-local) offset `off`? -/
def RegRow.has (r : RegRow) (off : Nat) : Bool :=
  decide (r.base ≤ off) &&
    (let d := off - r.base
     decide (d / r.s1 < r.c1) && decide (d % r.s1 / r.s2 < r.c2) && decide (d % r.s1 % r.s2 = 0))

/-- The row of the register that starts at `off`; none where no register starts there. -/
def regRow (off : Nat) : Option RegRow :=
  if 0x2000000 ≤ off ∧ off < 0x6000000 ∧ pTileChanGap (tileLocal off - 0x2000000) = true then none
  else (blockRows off).find? (fun r => r.has (tileLocal off))

/-- The reset value of the register at `off` (zero where there is none). -/
def regReset (off : Nat) : Word :=
  match regRow off with
  | some r => BitVec.ofNat 64 r.reset
  | none => 0

end Sys2Proof.Machine

namespace Sys2Proof.Machine.Reg

/-- GLB_ID (R20, 00), the whole register. -/
def GLB_ID.all : Fld := ⟨0x0, 0, 32⟩
def GLB_ID.device_code : Fld := ⟨0x0, 16, 16⟩
def GLB_ID.stepping_letter : Fld := ⟨0x0, 8, 4⟩
def GLB_ID.stepping_digit : Fld := ⟨0x0, 4, 4⟩
def GLB_ID.config_rev : Fld := ⟨0x0, 0, 4⟩
/-- GLB_CAP_TILES (R45, 01), the whole register. -/
def GLB_CAP_TILES.all : Fld := ⟨0x100, 0, 32⟩
def GLB_CAP_TILES.standby_ok : Fld := ⟨0x100, 16, 1⟩
def GLB_CAP_TILES.fec_present : Fld := ⟨0x100, 14, 2⟩
def GLB_CAP_TILES.quill_present : Fld := ⟨0x100, 10, 4⟩
def GLB_CAP_TILES.radio_present : Fld := ⟨0x100, 8, 2⟩
def GLB_CAP_TILES.compute_present : Fld := ⟨0x100, 0, 8⟩
/-- GLB_CAP_CORES (R45, 01), the whole register. -/
def GLB_CAP_CORES.all (n : Nat) : Fld := ⟨0x110 + 0x4 * n, 0, 32⟩
def GLB_CAP_CORES.core_present (n : Nat) : Fld := ⟨0x110 + 0x4 * n, 0, 16⟩
/-- GLB_CAP_SCRIBES (R45, 01), the whole register. -/
def GLB_CAP_SCRIBES.all (t : Nat) : Fld := ⟨0x140 + 0x8 * t, 0, 64⟩
def GLB_CAP_SCRIBES.scribe_present (t : Nat) : Fld := ⟨0x140 + 0x8 * t, 0, 64⟩
/-- GLB_CAP_CHAN (R45, 01), the whole register. -/
def GLB_CAP_CHAN.all (k : Nat) : Fld := ⟨0x160 + 0x8 * k, 0, 64⟩
def GLB_CAP_CHAN.chan_present (k : Nat) : Fld := ⟨0x160 + 0x8 * k, 0, 64⟩
/-- GLB_CAP_SUM (R45, 01), the whole register. -/
def GLB_CAP_SUM.all : Fld := ⟨0x1A0, 0, 64⟩
def GLB_CAP_SUM.stacks : Fld := ⟨0x1A0, 50, 6⟩
def GLB_CAP_SUM.channels : Fld := ⟨0x1A0, 40, 10⟩
def GLB_CAP_SUM.scribes : Fld := ⟨0x1A0, 32, 8⟩
def GLB_CAP_SUM.g_cores : Fld := ⟨0x1A0, 24, 7⟩
def GLB_CAP_SUM.p_cores : Fld := ⟨0x1A0, 16, 7⟩
def GLB_CAP_SUM.nibs : Fld := ⟨0x1A0, 0, 9⟩
/-- TICK_CTRL (R84, 02), the whole register. -/
def TICK_CTRL.all : Fld := ⟨0x100000, 0, 32⟩
def TICK_CTRL.run : Fld := ⟨0x100000, 0, 1⟩
/-- TICK_STAT (R84, 02), the whole register. -/
def TICK_STAT.all : Fld := ⟨0x100008, 0, 32⟩
def TICK_STAT.prog_index : Fld := ⟨0x100008, 8, 11⟩
def TICK_STAT.holdover : Fld := ⟨0x100008, 6, 1⟩
def TICK_STAT.period_code : Fld := ⟨0x100008, 3, 3⟩
def TICK_STAT.active_slot : Fld := ⟨0x100008, 2, 1⟩
def TICK_STAT.active_unit : Fld := ⟨0x100008, 1, 1⟩
def TICK_STAT.running : Fld := ⟨0x100008, 0, 1⟩
/-- TICK_NUM (R84, 02), the whole register. -/
def TICK_NUM.all : Fld := ⟨0x100010, 0, 64⟩
def TICK_NUM.tick_num : Fld := ⟨0x100010, 0, 64⟩
/-- TICK_PHASE (R84, 02), the whole register. -/
def TICK_PHASE.all : Fld := ⟨0x100018, 0, 64⟩
def TICK_PHASE.phase_ns : Fld := ⟨0x100018, 0, 34⟩
/-- TICK_DUCTUS_BASE (R84, 02), the whole register. -/
def TICK_DUCTUS_BASE.all (s : Nat) : Fld := ⟨0x100020 + 0x8 * s, 0, 64⟩
def TICK_DUCTUS_BASE.base (s : Nat) : Fld := ⟨0x100020 + 0x8 * s, 0, 48⟩
/-- TICK_SWITCH (R84, 02), the whole register. -/
def TICK_SWITCH.all : Fld := ⟨0x100030, 0, 64⟩
def TICK_SWITCH.slot : Fld := ⟨0x100030, 63, 1⟩
def TICK_SWITCH.target_tick : Fld := ⟨0x100030, 0, 63⟩
/-- TICK_SWITCH_STAT (R84, 02), the whole register. -/
def TICK_SWITCH_STAT.all : Fld := ⟨0x100038, 0, 32⟩
def TICK_SWITCH_STAT.reason : Fld := ⟨0x100038, 4, 4⟩
def TICK_SWITCH_STAT.refused : Fld := ⟨0x100038, 2, 1⟩
def TICK_SWITCH_STAT.done : Fld := ⟨0x100038, 1, 1⟩
def TICK_SWITCH_STAT.armed : Fld := ⟨0x100038, 0, 1⟩
/-- TICK_CNT (R84, 02), the whole register. -/
def TICK_CNT.all : Fld := ⟨0x100040, 0, 64⟩
def TICK_CNT.skipped : Fld := ⟨0x100040, 48, 16⟩
def TICK_CNT.deferred : Fld := ⟨0x100040, 32, 16⟩
def TICK_CNT.paused : Fld := ⟨0x100040, 16, 16⟩
def TICK_CNT.halted : Fld := ⟨0x100040, 0, 16⟩
/-- TICK_REC_BASE (R84, 02), the whole register. -/
def TICK_REC_BASE.all : Fld := ⟨0x100048, 0, 64⟩
def TICK_REC_BASE.iova : Fld := ⟨0x100048, 0, 64⟩
/-- TICK_REC_CFG (R84, 02), the whole register. -/
def TICK_REC_CFG.all : Fld := ⟨0x100050, 0, 32⟩
def TICK_REC_CFG.log2_entries : Fld := ⟨0x100050, 4, 5⟩
def TICK_REC_CFG.enable : Fld := ⟨0x100050, 0, 1⟩
/-- TICK_REC_HEAD (R84, 02), the whole register. -/
def TICK_REC_HEAD.all : Fld := ⟨0x100058, 0, 32⟩
def TICK_REC_HEAD.written : Fld := ⟨0x100058, 0, 32⟩
/-- TILE_ACC_OWN (R109, 03), the whole register. -/
def TILE_ACC_OWN.all (n : Nat) (c : Nat) : Fld := ⟨0x2001000 + 0x1000000 * n + 0x8 * c, 0, 64⟩
def TILE_ACC_OWN.valid (n : Nat) (c : Nat) (i : Nat) : Fld := ⟨0x2001000 + 0x1000000 * n + 0x8 * c, 7 + 8 * i, 1⟩
def TILE_ACC_OWN.partition (n : Nat) (c : Nat) (i : Nat) : Fld := ⟨0x2001000 + 0x1000000 * n + 0x8 * c, 0 + 8 * i, 6⟩
/-- TILE_STORE_OWN (R109, 03), the whole register. -/
def TILE_STORE_OWN.all (n : Nat) (c : Nat) (w : Nat) : Fld := ⟨0x2001100 + 0x1000000 * n + 0x40 * c + 0x8 * w, 0, 64⟩
def TILE_STORE_OWN.valid (n : Nat) (c : Nat) (w : Nat) (i : Nat) : Fld := ⟨0x2001100 + 0x1000000 * n + 0x40 * c + 0x8 * w, 7 + 8 * i, 1⟩
def TILE_STORE_OWN.partition (n : Nat) (c : Nat) (w : Nat) (i : Nat) : Fld := ⟨0x2001100 + 0x1000000 * n + 0x40 * c + 0x8 * w, 0 + 8 * i, 6⟩
/-- TILE_CORE_CNT (R109, 03), the whole register. -/
def TILE_CORE_CNT.all (n : Nat) (c : Nat) : Fld := ⟨0x2001800 + 0x1000000 * n + 0x8 * c, 0, 64⟩
def TILE_CORE_CNT.conflict_cycles (n : Nat) (c : Nat) : Fld := ⟨0x2001800 + 0x1000000 * n + 0x8 * c, 40, 24⟩
def TILE_CORE_CNT.nmm (n : Nat) (c : Nat) : Fld := ⟨0x2001800 + 0x1000000 * n + 0x8 * c, 20, 20⟩
def TILE_CORE_CNT.hl_klines (n : Nat) (c : Nat) : Fld := ⟨0x2001800 + 0x1000000 * n + 0x8 * c, 0, 20⟩
/-- PART_VAR_EVENTS (R156, 04), the whole register. -/
def PART_VAR_EVENTS.all (p : Nat) : Fld := ⟨0x402000 + 0x8 * p, 0, 64⟩
def PART_VAR_EVENTS.events (p : Nat) : Fld := ⟨0x402000 + 0x8 * p, 0, 64⟩
/-- TILE_CHAN_CFG (R217, 06), the whole register. -/
def TILE_CHAN_CFG.all (n : Nat) (k : Nat) : Fld := ⟨0x2004000 + 0x1000000 * n + 0x4 * k, 0, 32⟩
def TILE_CHAN_CFG.ilv_code (n : Nat) (k : Nat) : Fld := ⟨0x2004000 + 0x1000000 * n + 0x4 * k, 8, 3⟩
def TILE_CHAN_CFG.owner (n : Nat) (k : Nat) : Fld := ⟨0x2004000 + 0x1000000 * n + 0x4 * k, 0, 7⟩
/-- TILE_CHAN_STAT (R217, 06), the whole register. -/
def TILE_CHAN_STAT.all (n : Nat) (k : Nat) : Fld := ⟨0x2004200 + 0x1000000 * n + 0x4 * k, 0, 32⟩
def TILE_CHAN_STAT.retired (n : Nat) (k : Nat) : Fld := ⟨0x2004200 + 0x1000000 * n + 0x4 * k, 3, 1⟩
def TILE_CHAN_STAT.failed (n : Nat) (k : Nat) : Fld := ⟨0x2004200 + 0x1000000 * n + 0x4 * k, 2, 1⟩
def TILE_CHAN_STAT.scrubbing (n : Nat) (k : Nat) : Fld := ⟨0x2004200 + 0x1000000 * n + 0x4 * k, 1, 1⟩
def TILE_CHAN_STAT.inconsistent (n : Nat) (k : Nat) : Fld := ⟨0x2004200 + 0x1000000 * n + 0x4 * k, 0, 1⟩
/-- TILE_WAY_MASK (R217, 06), the whole register. -/
def TILE_WAY_MASK.all (n : Nat) (p : Nat) : Fld := ⟨0x2004400 + 0x1000000 * n + 0x4 * p, 0, 32⟩
def TILE_WAY_MASK.ways (n : Nat) (p : Nat) : Fld := ⟨0x2004400 + 0x1000000 * n + 0x4 * p, 0, 16⟩
/-- TILE_TS_STAT (R217, 06), the whole register. -/
def TILE_TS_STAT.all (n : Nat) : Fld := ⟨0x2004600 + 0x1000000 * n, 0, 32⟩
def TILE_TS_STAT.flushing (n : Nat) : Fld := ⟨0x2004600 + 0x1000000 * n, 16, 1⟩
def TILE_TS_STAT.way_conflict (n : Nat) : Fld := ⟨0x2004600 + 0x1000000 * n, 0, 16⟩
/-- TILE_TS_ERR (R217, 06), the whole register. -/
def TILE_TS_ERR.all (n : Nat) : Fld := ⟨0x2004608 + 0x1000000 * n, 0, 64⟩
def TILE_TS_ERR.ue (n : Nat) : Fld := ⟨0x2004608 + 0x1000000 * n, 32, 32⟩
def TILE_TS_ERR.ce (n : Nat) : Fld := ⟨0x2004608 + 0x1000000 * n, 0, 32⟩
/-- TILE_SCRUB_CFG (R217, 06), the whole register. -/
def TILE_SCRUB_CFG.all (n : Nat) : Fld := ⟨0x2004610 + 0x1000000 * n, 0, 32⟩
def TILE_SCRUB_CFG.period (n : Nat) : Fld := ⟨0x2004610 + 0x1000000 * n, 0, 3⟩
/-- TILE_CHAN_ERR (R217, 06), the whole register. -/
def TILE_CHAN_ERR.all (n : Nat) (k : Nat) : Fld := ⟨0x2004800 + 0x1000000 * n + 0x8 * k, 0, 64⟩
def TILE_CHAN_ERR.ue (n : Nat) (k : Nat) : Fld := ⟨0x2004800 + 0x1000000 * n + 0x8 * k, 48, 16⟩
def TILE_CHAN_ERR.ce (n : Nat) (k : Nat) : Fld := ⟨0x2004800 + 0x1000000 * n + 0x8 * k, 32, 16⟩
def TILE_CHAN_ERR.odecc (n : Nat) (k : Nat) : Fld := ⟨0x2004800 + 0x1000000 * n + 0x8 * k, 16, 16⟩
def TILE_CHAN_ERR.poison_reads (n : Nat) (k : Nat) : Fld := ⟨0x2004800 + 0x1000000 * n + 0x8 * k, 0, 16⟩
/-- SRV_PART_CFG (R268, 07), the whole register. -/
def SRV_PART_CFG.all (p : Nat) : Fld := ⟨0xE00000 + 0x8 * p, 0, 64⟩
def SRV_PART_CFG.queue_m1 (p : Nat) : Fld := ⟨0xE00000 + 0x8 * p, 48, 16⟩
def SRV_PART_CFG.risk_interactive (p : Nat) : Fld := ⟨0xE00000 + 0x8 * p, 32, 16⟩
def SRV_PART_CFG.risk_reflex (p : Nat) : Fld := ⟨0xE00000 + 0x8 * p, 16, 8⟩
def SRV_PART_CFG.index_en (p : Nat) : Fld := ⟨0xE00000 + 0x8 * p, 1, 1⟩
def SRV_PART_CFG.enable (p : Nat) : Fld := ⟨0xE00000 + 0x8 * p, 0, 1⟩
/-- SRV_PART_SEQ (R268, 07), the whole register. -/
def SRV_PART_SEQ.all (p : Nat) : Fld := ⟨0xE00200 + 0x8 * p, 0, 64⟩
def SRV_PART_SEQ.seq_max_m1 (p : Nat) : Fld := ⟨0xE00200 + 0x8 * p, 48, 16⟩
def SRV_PART_SEQ.base (p : Nat) : Fld := ⟨0xE00200 + 0x8 * p, 8, 40⟩
/-- SRV_PART_BT (R268, 07), the whole register. -/
def SRV_PART_BT.all (p : Nat) : Fld := ⟨0xE00400 + 0x8 * p, 0, 64⟩
def SRV_PART_BT.bt_lines_m1 (p : Nat) : Fld := ⟨0xE00400 + 0x8 * p, 48, 12⟩
def SRV_PART_BT.base (p : Nat) : Fld := ⟨0xE00400 + 0x8 * p, 6, 42⟩
/-- SRV_PART_PSTORE (R268, 07), the whole register. -/
def SRV_PART_PSTORE.all (p : Nat) : Fld := ⟨0xE00600 + 0x8 * p, 0, 64⟩
def SRV_PART_PSTORE.size_mib_m1 (p : Nat) : Fld := ⟨0xE00600 + 0x8 * p, 48, 16⟩
def SRV_PART_PSTORE.base (p : Nat) : Fld := ⟨0xE00600 + 0x8 * p, 12, 36⟩
/-- SRV_BATCH_CFG (R268, 07), the whole register. -/
def SRV_BATCH_CFG.all (b : Nat) : Fld := ⟨0xE01000 + 0x10 * b, 0, 64⟩
def SRV_BATCH_CFG.model (b : Nat) : Fld := ⟨0xE01000 + 0x10 * b, 48, 4⟩
def SRV_BATCH_CFG.step_sem (b : Nat) : Fld := ⟨0xE01000 + 0x10 * b, 32, 14⟩
def SRV_BATCH_CFG.step_ticks_m1 (b : Nat) : Fld := ⟨0xE01000 + 0x10 * b, 24, 4⟩
def SRV_BATCH_CFG.max_seqs_m1 (b : Nat) : Fld := ⟨0xE01000 + 0x10 * b, 16, 7⟩
def SRV_BATCH_CFG.tiles (b : Nat) : Fld := ⟨0xE01000 + 0x10 * b, 8, 8⟩
def SRV_BATCH_CFG.fallback (b : Nat) : Fld := ⟨0xE01000 + 0x10 * b, 7, 1⟩
def SRV_BATCH_CFG.enable (b : Nat) : Fld := ⟨0xE01000 + 0x10 * b, 6, 1⟩
def SRV_BATCH_CFG.partition (b : Nat) : Fld := ⟨0xE01000 + 0x10 * b, 0, 6⟩
/-- SRV_BATCH_TAB (R268, 07), the whole register. -/
def SRV_BATCH_TAB.all (b : Nat) : Fld := ⟨0xE01008 + 0x10 * b, 0, 64⟩
def SRV_BATCH_TAB.base (b : Nat) : Fld := ⟨0xE01008 + 0x10 * b, 0, 48⟩
/-- SRV_BATCH_STAT (R268, 07), the whole register. -/
def SRV_BATCH_STAT.all (b : Nat) : Fld := ⟨0xE01400 + 0x8 * b, 0, 64⟩
def SRV_BATCH_STAT.skipped (b : Nat) : Fld := ⟨0xE01400 + 0x8 * b, 40, 16⟩
def SRV_BATCH_STAT.occupancy (b : Nat) : Fld := ⟨0xE01400 + 0x8 * b, 32, 8⟩
def SRV_BATCH_STAT.step (b : Nat) : Fld := ⟨0xE01400 + 0x8 * b, 0, 32⟩
/-- SRV_CNT_A (R268, 07), the whole register. -/
def SRV_CNT_A.all (p : Nat) : Fld := ⟨0xE02000 + 0x10 * p, 0, 64⟩
def SRV_CNT_A.paused_risk (p : Nat) : Fld := ⟨0xE02000 + 0x10 * p, 48, 16⟩
def SRV_CNT_A.paused_oom (p : Nat) : Fld := ⟨0xE02000 + 0x10 * p, 32, 16⟩
def SRV_CNT_A.not_admitted (p : Nat) : Fld := ⟨0xE02000 + 0x10 * p, 16, 16⟩
def SRV_CNT_A.resumed (p : Nat) : Fld := ⟨0xE02000 + 0x10 * p, 0, 16⟩
/-- SRV_CNT_B (R268, 07), the whole register. -/
def SRV_CNT_B.all (p : Nat) : Fld := ⟨0xE02008 + 0x10 * p, 0, 64⟩
def SRV_CNT_B.rerouted (p : Nat) : Fld := ⟨0xE02008 + 0x10 * p, 48, 16⟩
def SRV_CNT_B.epoch_stale (p : Nat) : Fld := ⟨0xE02008 + 0x10 * p, 32, 16⟩
def SRV_CNT_B.reprefilled (p : Nat) : Fld := ⟨0xE02008 + 0x10 * p, 16, 16⟩
def SRV_CNT_B.fallbacks (p : Nat) : Fld := ⟨0xE02008 + 0x10 * p, 0, 16⟩
/-- INK_POOL_BASE (R269, 07), the whole register. -/
def INK_POOL_BASE.all (p : Nat) (n : Nat) : Fld := ⟨0xD00000 + 0x40 * p + 0x8 * n, 0, 64⟩
def INK_POOL_BASE.base (p : Nat) (n : Nat) : Fld := ⟨0xD00000 + 0x40 * p + 0x8 * n, 12, 36⟩
/-- INK_POOL_GEOM (R269, 07), the whole register. -/
def INK_POOL_GEOM.all (p : Nat) (n : Nat) : Fld := ⟨0xD01000 + 0x40 * p + 0x8 * n, 0, 64⟩
def INK_POOL_GEOM.frame_4k_m1 (p : Nat) (n : Nat) : Fld := ⟨0xD01000 + 0x40 * p + 0x8 * n, 32, 20⟩
def INK_POOL_GEOM.frames (p : Nat) (n : Nat) : Fld := ⟨0xD01000 + 0x40 * p + 0x8 * n, 0, 25⟩
/-- INK_KV_LAYOUT (R269, 07), the whole register. -/
def INK_KV_LAYOUT.all (p : Nat) (m : Nat) : Fld := ⟨0xD02000 + 0x40 * p + 0x4 * m, 0, 32⟩
def INK_KV_LAYOUT.valid (p : Nat) (m : Nat) : Fld := ⟨0xD02000 + 0x40 * p + 0x4 * m, 31, 1⟩
def INK_KV_LAYOUT.kv_fmt (p : Nat) (m : Nat) : Fld := ⟨0xD02000 + 0x40 * p + 0x4 * m, 24, 4⟩
def INK_KV_LAYOUT.hd8_m1 (p : Nat) (m : Nat) : Fld := ⟨0xD02000 + 0x40 * p + 0x4 * m, 16, 8⟩
def INK_KV_LAYOUT.kv_heads_m1 (p : Nat) (m : Nat) : Fld := ⟨0xD02000 + 0x40 * p + 0x4 * m, 8, 8⟩
def INK_KV_LAYOUT.layers_m1 (p : Nat) (m : Nat) : Fld := ⟨0xD02000 + 0x40 * p + 0x4 * m, 0, 8⟩
/-- INK_INDEX_CFG (R269, 07), the whole register. -/
def INK_INDEX_CFG.all (p : Nat) : Fld := ⟨0xD03000 + 0x8 * p, 0, 64⟩
def INK_INDEX_CFG.log2_buckets (p : Nat) : Fld := ⟨0xD03000 + 0x8 * p, 52, 5⟩
def INK_INDEX_CFG.home (p : Nat) : Fld := ⟨0xD03000 + 0x8 * p, 48, 3⟩
def INK_INDEX_CFG.base (p : Nat) : Fld := ⟨0xD03000 + 0x8 * p, 0, 48⟩
/-- INK_ADAPTER_CFG (R269, 07), the whole register. -/
def INK_ADAPTER_CFG.all (p : Nat) : Fld := ⟨0xD03200 + 0x8 * p, 0, 64⟩
def INK_ADAPTER_CFG.slot_64k (p : Nat) : Fld := ⟨0xD03200 + 0x8 * p, 32, 16⟩
def INK_ADAPTER_CFG.slot_count (p : Nat) : Fld := ⟨0xD03200 + 0x8 * p, 10, 11⟩
def INK_ADAPTER_CFG.slot_first (p : Nat) : Fld := ⟨0xD03200 + 0x8 * p, 0, 10⟩
/-- INK_ADAPTER_BASE (R269, 07), the whole register. -/
def INK_ADAPTER_BASE.all (p : Nat) : Fld := ⟨0xD03400 + 0x8 * p, 0, 64⟩
def INK_ADAPTER_BASE.base (p : Nat) : Fld := ⟨0xD03400 + 0x8 * p, 16, 32⟩
/-- INK_STAT (R269, 07), the whole register. -/
def INK_STAT.all (p : Nat) : Fld := ⟨0xD04000 + 0x8 * p, 0, 64⟩
def INK_STAT.cached (p : Nat) : Fld := ⟨0xD04000 + 0x8 * p, 32, 32⟩
def INK_STAT.free (p : Nat) : Fld := ⟨0xD04000 + 0x8 * p, 0, 32⟩
/-- INK_CNT (R269, 07), the whole register. -/
def INK_CNT.all (p : Nat) : Fld := ⟨0xD04200 + 0x8 * p, 0, 64⟩
def INK_CNT.hits (p : Nat) : Fld := ⟨0xD04200 + 0x8 * p, 32, 32⟩
def INK_CNT.reclaimed (p : Nat) : Fld := ⟨0xD04200 + 0x8 * p, 16, 16⟩
def INK_CNT.duplicates (p : Nat) : Fld := ⟨0xD04200 + 0x8 * p, 0, 16⟩
/-- INK_ADAPTER_STAT (R269, 07), the whole register. -/
def INK_ADAPTER_STAT.all (s : Nat) : Fld := ⟨0xD08000 + 0x8 * s, 0, 64⟩
def INK_ADAPTER_STAT.refs (s : Nat) : Fld := ⟨0xD08000 + 0x8 * s, 40, 24⟩
def INK_ADAPTER_STAT.state (s : Nat) : Fld := ⟨0xD08000 + 0x8 * s, 32, 3⟩
def INK_ADAPTER_STAT.version (s : Nat) : Fld := ⟨0xD08000 + 0x8 * s, 16, 16⟩
def INK_ADAPTER_STAT.adapter_id (s : Nat) : Fld := ⟨0xD08000 + 0x8 * s, 0, 16⟩
/-- QUILL_CTX_BASE (R294, 08), the whole register. -/
def QUILL_CTX_BASE.all (p : Nat) : Fld := ⟨0xF00000 + 0x8 * p, 0, 64⟩
def QUILL_CTX_BASE.base (p : Nat) : Fld := ⟨0xF00000 + 0x8 * p, 13, 35⟩
/-- QUILL_CTX_CFG (R294, 08), the whole register. -/
def QUILL_CTX_CFG.all (p : Nat) : Fld := ⟨0xF00200 + 0x4 * p, 0, 32⟩
def QUILL_CTX_CFG.ctx_count (p : Nat) : Fld := ⟨0xF00200 + 0x4 * p, 16, 16⟩
def QUILL_CTX_CFG.srv_count (p : Nat) : Fld := ⟨0xF00200 + 0x4 * p, 0, 16⟩
/-- QUILL_PROF_BASE (R294, 08), the whole register. -/
def QUILL_PROF_BASE.all (p : Nat) : Fld := ⟨0xF00300 + 0x8 * p, 0, 64⟩
def QUILL_PROF_BASE.prof_count (p : Nat) : Fld := ⟨0xF00300 + 0x8 * p, 48, 16⟩
def QUILL_PROF_BASE.base (p : Nat) : Fld := ⟨0xF00300 + 0x8 * p, 6, 42⟩
/-- QUILL_CNT (R294, 08), the whole register. -/
def QUILL_CNT.all (j : Nat) : Fld := ⟨0xF00500 + 0x8 * j, 0, 64⟩
def QUILL_CNT.rows (j : Nat) : Fld := ⟨0xF00500 + 0x8 * j, 32, 32⟩
def QUILL_CNT.commands (j : Nat) : Fld := ⟨0xF00500 + 0x8 * j, 16, 16⟩
def QUILL_CNT.ctx_busy (j : Nat) : Fld := ⟨0xF00500 + 0x8 * j, 0, 16⟩
/-- QUILL_PART_CNT (R294, 08), the whole register. -/
def QUILL_PART_CNT.all (p : Nat) : Fld := ⟨0xF00600 + 0x8 * p, 0, 64⟩
def QUILL_PART_CNT.drafted (p : Nat) : Fld := ⟨0xF00600 + 0x8 * p, 32, 32⟩
def QUILL_PART_CNT.accepted (p : Nat) : Fld := ⟨0xF00600 + 0x8 * p, 0, 32⟩
/-- RAD_CELL_CFG (R330, 09), the whole register. -/
def RAD_CELL_CFG.all (c : Nat) : Fld := ⟨0x1000000 + 0x8 * c, 0, 64⟩
def RAD_CELL_CFG.valid (c : Nat) : Fld := ⟨0x1000000 + 0x8 * c, 63, 1⟩
def RAD_CELL_CFG.tile (c : Nat) : Fld := ⟨0x1000000 + 0x8 * c, 62, 1⟩
def RAD_CELL_CFG.partition (c : Nat) : Fld := ⟨0x1000000 + 0x8 * c, 56, 6⟩
def RAD_CELL_CFG.rat (c : Nat) : Fld := ⟨0x1000000 + 0x8 * c, 54, 2⟩
def RAD_CELL_CFG.scs (c : Nat) : Fld := ⟨0x1000000 + 0x8 * c, 52, 2⟩
def RAD_CELL_CFG.prbs_m1 (c : Nat) : Fld := ⟨0x1000000 + 0x8 * c, 40, 9⟩
def RAD_CELL_CFG.rx_m1 (c : Nat) : Fld := ⟨0x1000000 + 0x8 * c, 34, 6⟩
def RAD_CELL_CFG.tx_m1 (c : Nat) : Fld := ⟨0x1000000 + 0x8 * c, 28, 6⟩
/-- RAD_CELL_STAT (R330, 09), the whole register. -/
def RAD_CELL_STAT.all (c : Nat) : Fld := ⟨0x1002000 + 0x8 * c, 0, 64⟩
def RAD_CELL_STAT.lost (c : Nat) : Fld := ⟨0x1002000 + 0x8 * c, 63, 1⟩
def RAD_CELL_STAT.export_drops (c : Nat) : Fld := ⟨0x1002000 + 0x8 * c, 48, 15⟩
def RAD_CELL_STAT.late_msgs (c : Nat) : Fld := ⟨0x1002000 + 0x8 * c, 32, 16⟩
def RAD_CELL_STAT.lost_slots (c : Nat) : Fld := ⟨0x1002000 + 0x8 * c, 0, 32⟩
/-- RAD_CELL_NF (R330, 09), the whole register. -/
def RAD_CELL_NF.all (c : Nat) : Fld := ⟨0x1004000 + 0x4 * c, 0, 32⟩
def RAD_CELL_NF.tick_lo (c : Nat) : Fld := ⟨0x1004000 + 0x4 * c, 16, 16⟩
def RAD_CELL_NF.nf_min (c : Nat) : Fld := ⟨0x1004000 + 0x4 * c, 0, 16⟩
/-- RAD_EXP_BASE (R330, 09), the whole register. -/
def RAD_EXP_BASE.all (c : Nat) : Fld := ⟨0x1006000 + 0x8 * c, 0, 64⟩
def RAD_EXP_BASE.base (c : Nat) : Fld := ⟨0x1006000 + 0x8 * c, 12, 36⟩
/-- RAD_EXP_CFG (R330, 09), the whole register. -/
def RAD_EXP_CFG.all (c : Nat) : Fld := ⟨0x1008000 + 0x4 * c, 0, 32⟩
def RAD_EXP_CFG.log2_entries (c : Nat) : Fld := ⟨0x1008000 + 0x4 * c, 4, 5⟩
def RAD_EXP_CFG.enable (c : Nat) : Fld := ⟨0x1008000 + 0x4 * c, 0, 1⟩
/-- RAD_SCRIBE_OWN (R330, 09), the whole register. -/
def RAD_SCRIBE_OWN.all (k : Nat) : Fld := ⟨0x1010000 + 0x4 * k, 0, 32⟩
def RAD_SCRIBE_OWN.valid (k : Nat) : Fld := ⟨0x1010000 + 0x4 * k, 31, 1⟩
def RAD_SCRIBE_OWN.partition (k : Nat) : Fld := ⟨0x1010000 + 0x4 * k, 0, 6⟩
/-- RAD_SCRIBE_PROG (R330, 09), the whole register. -/
def RAD_SCRIBE_PROG.all (k : Nat) : Fld := ⟨0x1010200 + 0x8 * k, 0, 64⟩
def RAD_SCRIBE_PROG.size_1k_m1 (k : Nat) : Fld := ⟨0x1010200 + 0x8 * k, 56, 7⟩
def RAD_SCRIBE_PROG.base (k : Nat) : Fld := ⟨0x1010200 + 0x8 * k, 10, 38⟩
/-- RAD_FEC_CNT (R330, 09), the whole register. -/
def RAD_FEC_CNT.all (t : Nat) (e : Nat) : Fld := ⟨0x1011000 + 0x20 * t + 0x8 * e, 0, 64⟩
def RAD_FEC_CNT.busy_k (t : Nat) (e : Nat) : Fld := ⟨0x1011000 + 0x20 * t + 0x8 * e, 40, 24⟩
def RAD_FEC_CNT.commands (t : Nat) (e : Nat) : Fld := ⟨0x1011000 + 0x20 * t + 0x8 * e, 20, 20⟩
def RAD_FEC_CNT.crc_fail (t : Nat) (e : Nat) : Fld := ⟨0x1011000 + 0x20 * t + 0x8 * e, 0, 20⟩
/-- ETH_PORT_CFG (R362, 10), the whole register. -/
def ETH_PORT_CFG.all (p : Nat) : Fld := ⟨0x600000 + 0x4 * p, 0, 32⟩
def ETH_PORT_CFG.mode (p : Nat) : Fld := ⟨0x600000 + 0x4 * p, 0, 3⟩
/-- ETH_PORT_STAT (R362, 10), the whole register. -/
def ETH_PORT_STAT.all (p : Nat) : Fld := ⟨0x600100 + 0x4 * p, 0, 32⟩
def ETH_PORT_STAT.link_downs (p : Nat) : Fld := ⟨0x600100 + 0x4 * p, 16, 16⟩
def ETH_PORT_STAT.link_up (p : Nat) : Fld := ⟨0x600100 + 0x4 * p, 0, 4⟩
/-- ETH_MAC_ADDR (R362, 10), the whole register. -/
def ETH_MAC_ADDR.all (m : Nat) : Fld := ⟨0x601000 + 0x8 * m, 0, 64⟩
def ETH_MAC_ADDR.addr (m : Nat) : Fld := ⟨0x601000 + 0x8 * m, 0, 48⟩
/-- ETH_MAC_CFG (R362, 10), the whole register. -/
def ETH_MAC_CFG.all (m : Nat) : Fld := ⟨0x601100 + 0x8 * m, 0, 64⟩
def ETH_MAC_CFG.pfc_refresh_us_m1 (m : Nat) : Fld := ⟨0x601100 + 0x8 * m, 32, 8⟩
def ETH_MAC_CFG.pfc_tx_mask (m : Nat) : Fld := ⟨0x601100 + 0x8 * m, 24, 8⟩
def ETH_MAC_CFG.pfc_rx_honour (m : Nat) : Fld := ⟨0x601100 + 0x8 * m, 16, 8⟩
def ETH_MAC_CFG.mtu (m : Nat) : Fld := ⟨0x601100 + 0x8 * m, 0, 14⟩
/-- ETH_MAC_CNT (R362, 10), the whole register. -/
def ETH_MAC_CNT.all (m : Nat) : Fld := ⟨0x601200 + 0x8 * m, 0, 64⟩
def ETH_MAC_CNT.fcs_errors (m : Nat) : Fld := ⟨0x601200 + 0x8 * m, 48, 16⟩
def ETH_MAC_CNT.pause_ignored (m : Nat) : Fld := ⟨0x601200 + 0x8 * m, 32, 16⟩
def ETH_MAC_CNT.dropped_unmatched (m : Nat) : Fld := ⟨0x601200 + 0x8 * m, 16, 16⟩
def ETH_MAC_CNT.tx_errors (m : Nat) : Fld := ⟨0x601200 + 0x8 * m, 0, 16⟩
/-- ETH_SVC_CFG (R362, 10), the whole register. -/
def ETH_SVC_CFG.all : Fld := ⟨0x601400, 0, 32⟩
def ETH_SVC_CFG.ethertype : Fld := ⟨0x601400, 0, 16⟩
/-- ETH_CLS_KEY (R362, 10), the whole register. -/
def ETH_CLS_KEY.all (r : Nat) : Fld := ⟨0x610000 + 0x10 * r, 0, 64⟩
def ETH_CLS_KEY.valid (r : Nat) : Fld := ⟨0x610000 + 0x10 * r, 63, 1⟩
def ETH_CLS_KEY.plane (r : Nat) : Fld := ⟨0x610000 + 0x10 * r, 62, 1⟩
def ETH_CLS_KEY.mac (r : Nat) : Fld := ⟨0x610000 + 0x10 * r, 48, 4⟩
def ETH_CLS_KEY.vid (r : Nat) : Fld := ⟨0x610000 + 0x10 * r, 32, 12⟩
def ETH_CLS_KEY.id (r : Nat) : Fld := ⟨0x610000 + 0x10 * r, 0, 16⟩
/-- ETH_CLS_ACT (R362, 10), the whole register. -/
def ETH_CLS_ACT.all (r : Nat) : Fld := ⟨0x610008 + 0x10 * r, 0, 64⟩
def ETH_CLS_ACT.queue (r : Nat) : Fld := ⟨0x610008 + 0x10 * r, 0, 12⟩
/-- BLT_PORT_CFG (R363, 10), the whole register. -/
def BLT_PORT_CFG.all (p : Nat) : Fld := ⟨0x800000 + 0x8 * p, 0, 64⟩
def BLT_PORT_CFG.lo_kib (p : Nat) : Fld := ⟨0x800000 + 0x8 * p, 32, 12⟩
def BLT_PORT_CFG.xoff_en (p : Nat) : Fld := ⟨0x800000 + 0x8 * p, 31, 1⟩
def BLT_PORT_CFG.hi_kib (p : Nat) : Fld := ⟨0x800000 + 0x8 * p, 16, 12⟩
def BLT_PORT_CFG.stall_us_m1 (p : Nat) : Fld := ⟨0x800000 + 0x8 * p, 0, 10⟩
/-- BLT_STAT (R363, 10), the whole register. -/
def BLT_STAT.all (p : Nat) : Fld := ⟨0x800100 + 0x8 * p, 0, 64⟩
def BLT_STAT.stall_rewinds (p : Nat) : Fld := ⟨0x800100 + 0x8 * p, 48, 16⟩
def BLT_STAT.overflow_drops (p : Nat) : Fld := ⟨0x800100 + 0x8 * p, 32, 16⟩
def BLT_STAT.error_rewinds (p : Nat) : Fld := ⟨0x800100 + 0x8 * p, 16, 16⟩
def BLT_STAT.framing_drops (p : Nat) : Fld := ⟨0x800100 + 0x8 * p, 0, 16⟩
/-- BLT_FILL (R363, 10), the whole register. -/
def BLT_FILL.all (p : Nat) : Fld := ⟨0x800200 + 0x4 * p, 0, 32⟩
def BLT_FILL.xoff (p : Nat) : Fld := ⟨0x800200 + 0x4 * p, 31, 1⟩
def BLT_FILL.fill_kib (p : Nat) : Fld := ⟨0x800200 + 0x4 * p, 0, 13⟩
/-- BLT_RXQ_CFG (R363, 10), the whole register. -/
def BLT_RXQ_CFG.all (q : Nat) : Fld := ⟨0x810000 + 0x8 * q, 0, 64⟩
def BLT_RXQ_CFG.ta4_max (q : Nat) : Fld := ⟨0x810000 + 0x8 * q, 48, 16⟩
def BLT_RXQ_CFG.ta4_min (q : Nat) : Fld := ⟨0x810000 + 0x8 * q, 32, 16⟩
def BLT_RXQ_CFG.limit_64k_m1 (q : Nat) : Fld := ⟨0x810000 + 0x8 * q, 16, 8⟩
def BLT_RXQ_CFG.owner (q : Nat) : Fld := ⟨0x810000 + 0x8 * q, 4, 12⟩
def BLT_RXQ_CFG.kind (q : Nat) : Fld := ⟨0x810000 + 0x8 * q, 0, 2⟩
/-- BLT_RXQ_STAT (R363, 10), the whole register. -/
def BLT_RXQ_STAT.all (q : Nat) : Fld := ⟨0x820000 + 0x8 * q, 0, 64⟩
def BLT_RXQ_STAT.early (q : Nat) : Fld := ⟨0x820000 + 0x8 * q, 48, 16⟩
def BLT_RXQ_STAT.rejected (q : Nat) : Fld := ⟨0x820000 + 0x8 * q, 32, 16⟩
def BLT_RXQ_STAT.packets (q : Nat) : Fld := ⟨0x820000 + 0x8 * q, 0, 32⟩
/-- EQS_MAC_CFG (R364, 10), the whole register. -/
def EQS_MAC_CFG.all (m : Nat) : Fld := ⟨0x900000 + 0x8 * m, 0, 64⟩
def EQS_MAC_CFG.kw5_rate_mbps (m : Nat) : Fld := ⟨0x900000 + 0x8 * m, 32, 32⟩
def EQS_MAC_CFG.gcl_len_m1 (m : Nat) : Fld := ⟨0x900000 + 0x8 * m, 2, 8⟩
def EQS_MAC_CFG.gate_en (m : Nat) : Fld := ⟨0x900000 + 0x8 * m, 1, 1⟩
def EQS_MAC_CFG.kw5 (m : Nat) : Fld := ⟨0x900000 + 0x8 * m, 0, 1⟩
/-- EQS_GATE_BASE (R364, 10), the whole register. -/
def EQS_GATE_BASE.all (m : Nat) : Fld := ⟨0x900100 + 0x8 * m, 0, 64⟩
def EQS_GATE_BASE.base_ns (m : Nat) : Fld := ⟨0x900100 + 0x8 * m, 0, 64⟩
/-- EQS_GCL (R364, 10), the whole register. -/
def EQS_GCL.all (m : Nat) (e : Nat) : Fld := ⟨0x910000 + 0x800 * m + 0x8 * e, 0, 64⟩
def EQS_GCL.dur_ns_m1 (m : Nat) (e : Nat) : Fld := ⟨0x910000 + 0x800 * m + 0x8 * e, 32, 24⟩
def EQS_GCL.gates (m : Nat) (e : Nat) : Fld := ⟨0x910000 + 0x800 * m + 0x8 * e, 0, 8⟩
/-- EQS_Q_CFG (R364, 10), the whole register. -/
def EQS_Q_CFG.all (q : Nat) : Fld := ⟨0x920000 + 0x8 * q, 0, 64⟩
def EQS_Q_CFG.svc_prio (q : Nat) : Fld := ⟨0x920000 + 0x8 * q, 62, 2⟩
def EQS_Q_CFG.subscriber (q : Nat) : Fld := ⟨0x920000 + 0x8 * q, 53, 9⟩
def EQS_Q_CFG.burst_kib (q : Nat) : Fld := ⟨0x920000 + 0x8 * q, 45, 8⟩
def EQS_Q_CFG.weight_m1 (q : Nat) : Fld := ⟨0x920000 + 0x8 * q, 29, 16⟩
def EQS_Q_CFG.limit_64k_m1 (q : Nat) : Fld := ⟨0x920000 + 0x8 * q, 21, 8⟩
def EQS_Q_CFG.tc (q : Nat) : Fld := ⟨0x920000 + 0x8 * q, 18, 3⟩
def EQS_Q_CFG.mac (q : Nat) : Fld := ⟨0x920000 + 0x8 * q, 14, 4⟩
def EQS_Q_CFG.owner (q : Nat) : Fld := ⟨0x920000 + 0x8 * q, 2, 12⟩
def EQS_Q_CFG.kind (q : Nat) : Fld := ⟨0x920000 + 0x8 * q, 0, 2⟩
/-- EQS_Q_HDR (R364, 10), the whole register. -/
def EQS_Q_HDR.all (q : Nat) : Fld := ⟨0x930000 + 0x8 * q, 0, 64⟩
def EQS_Q_HDR.tagged (q : Nat) : Fld := ⟨0x930000 + 0x8 * q, 63, 1⟩
def EQS_Q_HDR.pcp (q : Nat) : Fld := ⟨0x930000 + 0x8 * q, 60, 3⟩
def EQS_Q_HDR.vid (q : Nat) : Fld := ⟨0x930000 + 0x8 * q, 48, 12⟩
def EQS_Q_HDR.dst (q : Nat) : Fld := ⟨0x930000 + 0x8 * q, 0, 48⟩
/-- EQS_Q_WIN (R364, 10), the whole register. -/
def EQS_Q_WIN.all (q : Nat) : Fld := ⟨0x940000 + 0x8 * q, 0, 64⟩
def EQS_Q_WIN.late (q : Nat) : Fld := ⟨0x940000 + 0x8 * q, 16, 16⟩
def EQS_Q_WIN.early (q : Nat) : Fld := ⟨0x940000 + 0x8 * q, 0, 16⟩
/-- EQS_Q_STAT (R364, 10), the whole register. -/
def EQS_Q_STAT.all (q : Nat) : Fld := ⟨0x950000 + 0x8 * q, 0, 64⟩
def EQS_Q_STAT.late (q : Nat) : Fld := ⟨0x950000 + 0x8 * q, 48, 16⟩
def EQS_Q_STAT.rewinds (q : Nat) : Fld := ⟨0x950000 + 0x8 * q, 32, 16⟩
def EQS_Q_STAT.drops (q : Nat) : Fld := ⟨0x950000 + 0x8 * q, 16, 16⟩
/-- EQS_SUB_CFG (R364, 10), the whole register. -/
def EQS_SUB_CFG.all (s : Nat) : Fld := ⟨0x960000 + 0x8 * s, 0, 64⟩
def EQS_SUB_CFG.burst_bytes (s : Nat) : Fld := ⟨0x960000 + 0x8 * s, 32, 24⟩
def EQS_SUB_CFG.cir_mbps (s : Nat) : Fld := ⟨0x960000 + 0x8 * s, 0, 32⟩
/-- TIME_CTRL (R389, 11), the whole register. -/
def TIME_CTRL.all : Fld := ⟨0x200000, 0, 32⟩
def TIME_CTRL.fab_port : Fld := ⟨0x200000, 4, 6⟩
def TIME_CTRL.hold_req : Fld := ⟨0x200000, 3, 1⟩
def TIME_CTRL.servo_mgr : Fld := ⟨0x200000, 2, 1⟩
def TIME_CTRL.source : Fld := ⟨0x200000, 0, 2⟩
/-- TIME_STAT (R389, 11), the whole register. -/
def TIME_STAT.all : Fld := ⟨0x200008, 0, 32⟩
def TIME_STAT.up_holdover : Fld := ⟨0x200008, 18, 1⟩
def TIME_STAT.rx_valid : Fld := ⟨0x200008, 17, 1⟩
def TIME_STAT.rx_mac : Fld := ⟨0x200008, 12, 5⟩
def TIME_STAT.phase_alarm : Fld := ⟨0x200008, 11, 1⟩
def TIME_STAT.rate_clamped : Fld := ⟨0x200008, 10, 1⟩
def TIME_STAT.standby_ok : Fld := ⟨0x200008, 9, 1⟩
def TIME_STAT.active_unit : Fld := ⟨0x200008, 8, 1⟩
def TIME_STAT.ref10_ok : Fld := ⟨0x200008, 7, 1⟩
def TIME_STAT.pps_ok : Fld := ⟨0x200008, 6, 1⟩
def TIME_STAT.fab_locked : Fld := ⟨0x200008, 5, 1⟩
def TIME_STAT.hold_cause : Fld := ⟨0x200008, 3, 2⟩
def TIME_STAT.holdover : Fld := ⟨0x200008, 2, 1⟩
def TIME_STAT.valid : Fld := ⟨0x200008, 0, 1⟩
/-- TIME_NOW (R389, 11), the whole register. -/
def TIME_NOW.all : Fld := ⟨0x200010, 0, 64⟩
def TIME_NOW.ns : Fld := ⟨0x200010, 0, 64⟩
/-- TIME_NOW_FRAC (R389, 11), the whole register. -/
def TIME_NOW_FRAC.all : Fld := ⟨0x200018, 0, 32⟩
def TIME_NOW_FRAC.frac : Fld := ⟨0x200018, 0, 32⟩
/-- TIME_CNT (R389, 11), the whole register. -/
def TIME_CNT.all : Fld := ⟨0x200020, 0, 64⟩
def TIME_CNT.cnt : Fld := ⟨0x200020, 0, 64⟩
/-- TIME_STEP (R389, 11), the whole register. -/
def TIME_STEP.all : Fld := ⟨0x200028, 0, 64⟩
def TIME_STEP.delta_ns : Fld := ⟨0x200028, 0, 64⟩
/-- TIME_RATE (R389, 11), the whole register. -/
def TIME_RATE.all : Fld := ⟨0x200030, 0, 64⟩
def TIME_RATE.rate : Fld := ⟨0x200030, 0, 36⟩
/-- TIME_HOLD (R389, 11), the whole register. -/
def TIME_HOLD.all : Fld := ⟨0x200038, 0, 64⟩
def TIME_HOLD.discarded : Fld := ⟨0x200038, 48, 16⟩
def TIME_HOLD.phase_alarm_ns : Fld := ⟨0x200038, 16, 32⟩
def TIME_HOLD.wd_ms : Fld := ⟨0x200038, 0, 16⟩
/-- TIME_PPS_CAP (R389, 11), the whole register. -/
def TIME_PPS_CAP.all : Fld := ⟨0x200040, 0, 64⟩
def TIME_PPS_CAP.t_ns : Fld := ⟨0x200040, 0, 64⟩
/-- TIME_REF_STAT (R389, 11), the whole register. -/
def TIME_REF_STAT.all : Fld := ⟨0x200048, 0, 64⟩
def TIME_REF_STAT.pps_edges : Fld := ⟨0x200048, 32, 16⟩
def TIME_REF_STAT.ref10_cycles : Fld := ⟨0x200048, 0, 32⟩
/-- TIME_FAB (R389, 11), the whole register. -/
def TIME_FAB.all : Fld := ⟨0x200050, 0, 64⟩
def TIME_FAB.hops : Fld := ⟨0x200050, 56, 8⟩
def TIME_FAB.link_delay : Fld := ⟨0x200050, 32, 24⟩
def TIME_FAB.offset : Fld := ⟨0x200050, 0, 32⟩
/-- TIME_PTP_PORT (R389, 11), the whole register. -/
def TIME_PTP_PORT.all (m : Nat) : Fld := ⟨0x200100 + 0x8 * m, 0, 64⟩
def TIME_PTP_PORT.asym (m : Nat) : Fld := ⟨0x200100 + 0x8 * m, 16, 32⟩
def TIME_PTP_PORT.domain (m : Nat) : Fld := ⟨0x200100 + 0x8 * m, 8, 8⟩
def TIME_PTP_PORT.role (m : Nat) : Fld := ⟨0x200100 + 0x8 * m, 1, 2⟩
def TIME_PTP_PORT.en (m : Nat) : Fld := ⟨0x200100 + 0x8 * m, 0, 1⟩
/-- TIME_PULSE_CFG (R389, 11), the whole register. -/
def TIME_PULSE_CFG.all (k : Nat) : Fld := ⟨0x200200 + 0x20 * k, 0, 64⟩
def TIME_PULSE_CFG.lead_cycles (k : Nat) : Fld := ⟨0x200200 + 0x20 * k, 40, 8⟩
def TIME_PULSE_CFG.width_ns_m1 (k : Nat) : Fld := ⟨0x200200 + 0x20 * k, 8, 32⟩
def TIME_PULSE_CFG.polarity (k : Nat) : Fld := ⟨0x200200 + 0x20 * k, 2, 1⟩
def TIME_PULSE_CFG.mode (k : Nat) : Fld := ⟨0x200200 + 0x20 * k, 0, 2⟩
/-- TIME_PULSE_START (R389, 11), the whole register. -/
def TIME_PULSE_START.all (k : Nat) : Fld := ⟨0x200208 + 0x20 * k, 0, 64⟩
def TIME_PULSE_START.start_ns (k : Nat) : Fld := ⟨0x200208 + 0x20 * k, 0, 64⟩
/-- TIME_PULSE_PERIOD (R389, 11), the whole register. -/
def TIME_PULSE_PERIOD.all (k : Nat) : Fld := ⟨0x200210 + 0x20 * k, 0, 64⟩
def TIME_PULSE_PERIOD.period_ns_m1 (k : Nat) : Fld := ⟨0x200210 + 0x20 * k, 0, 40⟩
/-- TIME_PULSE_STAT (R389, 11), the whole register. -/
def TIME_PULSE_STAT.all (k : Nat) : Fld := ⟨0x200218 + 0x20 * k, 0, 32⟩
def TIME_PULSE_STAT.edges (k : Nat) : Fld := ⟨0x200218 + 0x20 * k, 16, 16⟩
def TIME_PULSE_STAT.missed (k : Nat) : Fld := ⟨0x200218 + 0x20 * k, 1, 1⟩
def TIME_PULSE_STAT.done (k : Nat) : Fld := ⟨0x200218 + 0x20 * k, 0, 1⟩
/-- TIME_BAR_CFG (R389, 11), the whole register. -/
def TIME_BAR_CFG.all (b : Nat) : Fld := ⟨0x200400 + 0x20 * b, 0, 64⟩
def TIME_BAR_CFG.enable (b : Nat) : Fld := ⟨0x200400 + 0x20 * b, 63, 1⟩
def TIME_BAR_CFG.members_m1 (b : Nat) : Fld := ⟨0x200400 + 0x20 * b, 48, 12⟩
def TIME_BAR_CFG.lead_ns (b : Nat) : Fld := ⟨0x200400 + 0x20 * b, 32, 16⟩
def TIME_BAR_CFG.group (b : Nat) : Fld := ⟨0x200400 + 0x20 * b, 16, 16⟩
def TIME_BAR_CFG.root (b : Nat) : Fld := ⟨0x200400 + 0x20 * b, 0, 16⟩
/-- TIME_BAR_SEM (R389, 11), the whole register. -/
def TIME_BAR_SEM.all (b : Nat) : Fld := ⟨0x200408 + 0x20 * b, 0, 64⟩
def TIME_BAR_SEM.partition (b : Nat) : Fld := ⟨0x200408 + 0x20 * b, 36, 6⟩
def TIME_BAR_SEM.pulse_mask (b : Nat) : Fld := ⟨0x200408 + 0x20 * b, 32, 4⟩
def TIME_BAR_SEM.rel_en (b : Nat) : Fld := ⟨0x200408 + 0x20 * b, 30, 1⟩
def TIME_BAR_SEM.rel_sem (b : Nat) : Fld := ⟨0x200408 + 0x20 * b, 16, 14⟩
def TIME_BAR_SEM.arr_en (b : Nat) : Fld := ⟨0x200408 + 0x20 * b, 14, 1⟩
def TIME_BAR_SEM.arr_sem (b : Nat) : Fld := ⟨0x200408 + 0x20 * b, 0, 14⟩
/-- TIME_BAR_CTRL (R389, 11), the whole register. -/
def TIME_BAR_CTRL.all (b : Nat) : Fld := ⟨0x200410 + 0x20 * b, 0, 32⟩
def TIME_BAR_CTRL.arrive (b : Nat) : Fld := ⟨0x200410 + 0x20 * b, 0, 1⟩
/-- TIME_BAR_STAT (R389, 11), the whole register. -/
def TIME_BAR_STAT.all (b : Nat) : Fld := ⟨0x200418 + 0x20 * b, 0, 64⟩
def TIME_BAR_STAT.stale (b : Nat) : Fld := ⟨0x200418 + 0x20 * b, 48, 16⟩
def TIME_BAR_STAT.arrived (b : Nat) : Fld := ⟨0x200418 + 0x20 * b, 32, 16⟩
def TIME_BAR_STAT.timeout (b : Nat) : Fld := ⟨0x200418 + 0x20 * b, 17, 1⟩
def TIME_BAR_STAT.late (b : Nat) : Fld := ⟨0x200418 + 0x20 * b, 16, 1⟩
def TIME_BAR_STAT.gen (b : Nat) : Fld := ⟨0x200418 + 0x20 * b, 0, 16⟩
/-- TIME_BAR_REL (R389, 11), the whole register. -/
def TIME_BAR_REL.all (b : Nat) : Fld := ⟨0x200600 + 0x8 * b, 0, 64⟩
def TIME_BAR_REL.t_rel (b : Nat) : Fld := ⟨0x200600 + 0x8 * b, 0, 64⟩
/-- FAB_CFG (R418, 12), the whole register. -/
def FAB_CFG.all : Fld := ⟨0xA00000, 0, 64⟩
def FAB_CFG.bound_us : Fld := ⟨0xA00000, 32, 16⟩
def FAB_CFG.retry_us_m1 : Fld := ⟨0xA00000, 24, 8⟩
def FAB_CFG.hot_limit : Fld := ⟨0xA00000, 16, 8⟩
/-- FAB_DEDUP_BASE (R418, 12), the whole register. -/
def FAB_DEDUP_BASE.all : Fld := ⟨0xA00008, 0, 64⟩
def FAB_DEDUP_BASE.base : Fld := ⟨0xA00008, 23, 25⟩
/-- FAB_STAT (R418, 12), the whole register. -/
def FAB_STAT.all : Fld := ⟨0xA00010, 0, 64⟩
def FAB_STAT.lifetime_drops : Fld := ⟨0xA00010, 48, 16⟩
def FAB_STAT.hot_throttled : Fld := ⟨0xA00010, 32, 16⟩
def FAB_STAT.combined : Fld := ⟨0xA00010, 16, 16⟩
def FAB_STAT.dedup_hits : Fld := ⟨0xA00010, 0, 16⟩
/-- FAB_DEDUP_STAT (R418, 12), the whole register. -/
def FAB_DEDUP_STAT.all : Fld := ⟨0xA00018, 0, 32⟩
def FAB_DEDUP_STAT.busy : Fld := ⟨0xA00018, 16, 16⟩
def FAB_DEDUP_STAT.slots_used : Fld := ⟨0xA00018, 0, 11⟩
/-- FAB_STAT2 (R418, 12), the whole register. -/
def FAB_STAT2.all : Fld := ⟨0xA00020, 0, 64⟩
def FAB_STAT2.no_route : Fld := ⟨0xA00020, 48, 16⟩
def FAB_STAT2.refused : Fld := ⟨0xA00020, 32, 16⟩
def FAB_STAT2.malformed : Fld := ⟨0xA00020, 16, 16⟩
/-- FAB_PORT_CFG (R418, 12), the whole register. -/
def FAB_PORT_CFG.all (k : Nat) : Fld := ⟨0xA00100 + 0x4 * k, 0, 32⟩
def FAB_PORT_CFG.dateline (k : Nat) : Fld := ⟨0xA00100 + 0x4 * k, 1, 1⟩
def FAB_PORT_CFG.en (k : Nat) : Fld := ⟨0xA00100 + 0x4 * k, 0, 1⟩
/-- FAB_PORT_STAT (R418, 12), the whole register. -/
def FAB_PORT_STAT.all (k : Nat) : Fld := ⟨0xA00200 + 0x8 * k, 0, 64⟩
def FAB_PORT_STAT.replays (k : Nat) : Fld := ⟨0xA00200 + 0x8 * k, 48, 16⟩
def FAB_PORT_STAT.link_downs (k : Nat) : Fld := ⟨0xA00200 + 0x8 * k, 32, 16⟩
def FAB_PORT_STAT.peer_id (k : Nat) : Fld := ⟨0xA00200 + 0x8 * k, 16, 16⟩
def FAB_PORT_STAT.state (k : Nat) : Fld := ⟨0xA00200 + 0x8 * k, 0, 3⟩
/-- FAB_DOMAIN (R418, 12), the whole register. -/
def FAB_DOMAIN.all (p : Nat) : Fld := ⟨0xA00400 + 0x4 * p, 0, 32⟩
def FAB_DOMAIN.valid (p : Nat) : Fld := ⟨0xA00400 + 0x4 * p, 31, 1⟩
def FAB_DOMAIN.domain (p : Nat) : Fld := ⟨0xA00400 + 0x4 * p, 0, 16⟩
/-- FAB_ROUTE_POD (R418, 12), the whole register. -/
def FAB_ROUTE_POD.all (i : Nat) : Fld := ⟨0xA01000 + 0x4 * i, 0, 32⟩
def FAB_ROUTE_POD.valid (i : Nat) : Fld := ⟨0xA01000 + 0x4 * i, 31, 1⟩
def FAB_ROUTE_POD.count_m1 (i : Nat) : Fld := ⟨0xA01000 + 0x4 * i, 24, 2⟩
def FAB_ROUTE_POD.port3 (i : Nat) : Fld := ⟨0xA01000 + 0x4 * i, 18, 6⟩
def FAB_ROUTE_POD.port2 (i : Nat) : Fld := ⟨0xA01000 + 0x4 * i, 12, 6⟩
def FAB_ROUTE_POD.port1 (i : Nat) : Fld := ⟨0xA01000 + 0x4 * i, 6, 6⟩
def FAB_ROUTE_POD.port0 (i : Nat) : Fld := ⟨0xA01000 + 0x4 * i, 0, 6⟩
/-- FAB_ROUTE_EXT (R418, 12), the whole register. -/
def FAB_ROUTE_EXT.all (j : Nat) : Fld := ⟨0xA01400 + 0x4 * j, 0, 32⟩
def FAB_ROUTE_EXT.valid (j : Nat) : Fld := ⟨0xA01400 + 0x4 * j, 31, 1⟩
def FAB_ROUTE_EXT.count_m1 (j : Nat) : Fld := ⟨0xA01400 + 0x4 * j, 24, 2⟩
def FAB_ROUTE_EXT.port3 (j : Nat) : Fld := ⟨0xA01400 + 0x4 * j, 18, 6⟩
def FAB_ROUTE_EXT.port2 (j : Nat) : Fld := ⟨0xA01400 + 0x4 * j, 12, 6⟩
def FAB_ROUTE_EXT.port1 (j : Nat) : Fld := ⟨0xA01400 + 0x4 * j, 6, 6⟩
def FAB_ROUTE_EXT.port0 (j : Nat) : Fld := ⟨0xA01400 + 0x4 * j, 0, 6⟩
/-- FAB_RSV_OWN (R418, 12), the whole register. -/
def FAB_RSV_OWN.all (d : Nat) (w : Nat) : Fld := ⟨0xA02000 + 0x80 * d + 0x8 * w, 0, 64⟩
def FAB_RSV_OWN.valid (d : Nat) (w : Nat) (i : Nat) : Fld := ⟨0xA02000 + 0x80 * d + 0x8 * w, 7 + 8 * i, 1⟩
def FAB_RSV_OWN.pool (d : Nat) (w : Nat) (i : Nat) : Fld := ⟨0xA02000 + 0x80 * d + 0x8 * w, 6 + 8 * i, 1⟩
def FAB_RSV_OWN.partition (d : Nat) (w : Nat) (i : Nat) : Fld := ⟨0xA02000 + 0x80 * d + 0x8 * w, 0 + 8 * i, 6⟩
/-- FAB_RSV_STAT (R418, 12), the whole register. -/
def FAB_RSV_STAT.all (d : Nat) : Fld := ⟨0xA02800 + 0x8 * d, 0, 64⟩
def FAB_RSV_STAT.denials (d : Nat) : Fld := ⟨0xA02800 + 0x8 * d, 48, 16⟩
def FAB_RSV_STAT.expiries (d : Nat) : Fld := ⟨0xA02800 + 0x8 * d, 32, 16⟩
def FAB_RSV_STAT.reserved_now (d : Nat) : Fld := ⟨0xA02800 + 0x8 * d, 8, 8⟩
def FAB_RSV_STAT.pool_free (d : Nat) : Fld := ⟨0xA02800 + 0x8 * d, 0, 8⟩
/-- FAB_MCAST (R418, 12), the whole register. -/
def FAB_MCAST.all (g : Nat) : Fld := ⟨0xA10000 + 0x8 * g, 0, 64⟩
def FAB_MCAST.valid (g : Nat) : Fld := ⟨0xA10000 + 0x8 * g, 63, 1⟩
def FAB_MCAST.local (g : Nat) : Fld := ⟨0xA10000 + 0x8 * g, 62, 1⟩
def FAB_MCAST.members_m1 (g : Nat) : Fld := ⟨0xA10000 + 0x8 * g, 48, 14⟩
def FAB_MCAST.port_mask (g : Nat) : Fld := ⟨0xA10000 + 0x8 * g, 0, 36⟩
/-- COL_CFG (R445, 13), the whole register. -/
def COL_CFG.all : Fld := ⟨0xC00000, 0, 64⟩
def COL_CFG.bound_ms_m1 : Fld := ⟨0xC00000, 32, 16⟩
def COL_CFG.lease_ms_m1 : Fld := ⟨0xC00000, 16, 8⟩
def COL_CFG.rsv_granules : Fld := ⟨0xC00000, 0, 7⟩
/-- COL_PART_CFG (R445, 13), the whole register. -/
def COL_PART_CFG.all (p : Nat) : Fld := ⟨0xC00100 + 0x8 * p, 0, 64⟩
def COL_PART_CFG.comm_count (p : Nat) : Fld := ⟨0xC00100 + 0x8 * p, 52, 12⟩
def COL_PART_CFG.base (p : Nat) : Fld := ⟨0xC00100 + 0x8 * p, 6, 42⟩
def COL_PART_CFG.enable (p : Nat) : Fld := ⟨0xC00100 + 0x8 * p, 0, 1⟩
/-- COL_ORDER (R445, 13), the whole register. -/
def COL_ORDER.all (p : Nat) : Fld := ⟨0xC00300 + 0x8 * p, 0, 64⟩
def COL_ORDER.next_order (p : Nat) : Fld := ⟨0xC00300 + 0x8 * p, 0, 32⟩
/-- COL_STAT (R445, 13), the whole register. -/
def COL_STAT.all (d : Nat) : Fld := ⟨0xC00500 + 0x8 * d, 0, 64⟩
def COL_STAT.reservoir_denials (d : Nat) : Fld := ⟨0xC00500 + 0x8 * d, 48, 16⟩
def COL_STAT.fallbacks (d : Nat) : Fld := ⟨0xC00500 + 0x8 * d, 32, 16⟩
def COL_STAT.retries (d : Nat) : Fld := ⟨0xC00500 + 0x8 * d, 16, 16⟩
def COL_STAT.aborts (d : Nat) : Fld := ⟨0xC00500 + 0x8 * d, 0, 16⟩
/-- COL_PART_STAT (R445, 13), the whole register. -/
def COL_PART_STAT.all (p : Nat) : Fld := ⟨0xC00600 + 0x8 * p, 0, 64⟩
def COL_PART_STAT.completed (p : Nat) : Fld := ⟨0xC00600 + 0x8 * p, 32, 32⟩
def COL_PART_STAT.failed (p : Nat) : Fld := ⟨0xC00600 + 0x8 * p, 0, 32⟩
/-- PART_CTRL (R469, 14), the whole register. -/
def PART_CTRL.all : Fld := ⟨0x400000, 0, 32⟩
def PART_CTRL.force : Fld := ⟨0x400000, 13, 1⟩
def PART_CTRL.op : Fld := ⟨0x400000, 8, 3⟩
def PART_CTRL.partition : Fld := ⟨0x400000, 0, 6⟩
/-- PART_MGR_PASID (R469, 14), the whole register. -/
def PART_MGR_PASID.all : Fld := ⟨0x400010, 0, 32⟩
def PART_MGR_PASID.valid : Fld := ⟨0x400010, 31, 1⟩
def PART_MGR_PASID.pasid : Fld := ⟨0x400010, 0, 20⟩
/-- PART_METER_RING (R469, 14), the whole register. -/
def PART_METER_RING.all : Fld := ⟨0x400020, 0, 64⟩
def PART_METER_RING.iova : Fld := ⟨0x400020, 0, 64⟩
/-- PART_METER_CFG (R469, 14), the whole register. -/
def PART_METER_CFG.all : Fld := ⟨0x400028, 0, 32⟩
def PART_METER_CFG.period_ms : Fld := ⟨0x400028, 16, 16⟩
def PART_METER_CFG.log2_entries : Fld := ⟨0x400028, 4, 5⟩
def PART_METER_CFG.enable : Fld := ⟨0x400028, 0, 1⟩
/-- PART_METER_HEAD (R469, 14), the whole register. -/
def PART_METER_HEAD.all : Fld := ⟨0x400030, 0, 32⟩
def PART_METER_HEAD.written : Fld := ⟨0x400030, 0, 32⟩
/-- PART_CFG (R469, 14), the whole register. -/
def PART_CFG.all (p : Nat) : Fld := ⟨0x400100 + 0x8 * p, 0, 64⟩
def PART_CFG.drain_ms_m1 (p : Nat) : Fld := ⟨0x400100 + 0x8 * p, 32, 16⟩
def PART_CFG.quiesce_ms_m1 (p : Nat) : Fld := ⟨0x400100 + 0x8 * p, 16, 16⟩
def PART_CFG.fab_weight_m1 (p : Nat) : Fld := ⟨0x400100 + 0x8 * p, 8, 8⟩
def PART_CFG.bank_max_m1 (p : Nat) : Fld := ⟨0x400100 + 0x8 * p, 4, 2⟩
def PART_CFG.meter_time (p : Nat) : Fld := ⟨0x400100 + 0x8 * p, 2, 1⟩
def PART_CFG.copperplate (p : Nat) : Fld := ⟨0x400100 + 0x8 * p, 0, 1⟩
/-- PART_STAT (R469, 14), the whole register. -/
def PART_STAT.all (p : Nat) : Fld := ⟨0x400300 + 0x8 * p, 0, 64⟩
def PART_STAT.wn_ticks (p : Nat) : Fld := ⟨0x400300 + 0x8 * p, 40, 24⟩
def PART_STAT.wn_where (p : Nat) : Fld := ⟨0x400300 + 0x8 * p, 32, 8⟩
def PART_STAT.held (p : Nat) : Fld := ⟨0x400300 + 0x8 * p, 22, 10⟩
def PART_STAT.busy (p : Nat) : Fld := ⟨0x400300 + 0x8 * p, 16, 6⟩
def PART_STAT.waiting_nonresident (p : Nat) : Fld := ⟨0x400300 + 0x8 * p, 15, 1⟩
def PART_STAT.quiesce_slow (p : Nat) : Fld := ⟨0x400300 + 0x8 * p, 14, 1⟩
def PART_STAT.refused (p : Nat) : Fld := ⟨0x400300 + 0x8 * p, 13, 1⟩
def PART_STAT.reason (p : Nat) : Fld := ⟨0x400300 + 0x8 * p, 9, 4⟩
def PART_STAT.pending_op (p : Nat) : Fld := ⟨0x400300 + 0x8 * p, 6, 3⟩
def PART_STAT.state (p : Nat) : Fld := ⟨0x400300 + 0x8 * p, 0, 3⟩
/-- PART_CORE_MASK (R469, 14), the whole register. -/
def PART_CORE_MASK.all (p : Nat) (h : Nat) : Fld := ⟨0x400600 + 0x10 * p + 0x8 * h, 0, 64⟩
def PART_CORE_MASK.cores (p : Nat) (h : Nat) (i : Nat) : Fld := ⟨0x400600 + 0x10 * p + 0x8 * h, 0 + 16 * i, 16⟩
/-- PART_PROG (R469, 14), the whole register. -/
def PART_PROG.all (p : Nat) : Fld := ⟨0x400A00 + 0x8 * p, 0, 64⟩
def PART_PROG.size_64k_m1 (p : Nat) : Fld := ⟨0x400A00 + 0x8 * p, 48, 16⟩
def PART_PROG.base (p : Nat) : Fld := ⟨0x400A00 + 0x8 * p, 16, 32⟩
/-- PART_SEM_OWN (R469, 14), the whole register. -/
def PART_SEM_OWN.all (w : Nat) : Fld := ⟨0x400C00 + 0x8 * w, 0, 64⟩
def PART_SEM_OWN.valid (w : Nat) (i : Nat) : Fld := ⟨0x400C00 + 0x8 * w, 7 + 8 * i, 1⟩
def PART_SEM_OWN.partition (w : Nat) (i : Nat) : Fld := ⟨0x400C00 + 0x8 * w, 0 + 8 * i, 6⟩
/-- PART_PASID (R469, 14), the whole register. -/
def PART_PASID.all (p : Nat) (i : Nat) : Fld := ⟨0x401000 + 0x40 * p + 0x4 * i, 0, 32⟩
def PART_PASID.valid (p : Nat) (i : Nat) : Fld := ⟨0x401000 + 0x40 * p + 0x4 * i, 31, 1⟩
def PART_PASID.pasid (p : Nat) (i : Nat) : Fld := ⟨0x401000 + 0x40 * p + 0x4 * i, 0, 20⟩
/-- PART_COMP_BASE (R469, 14), the whole register. -/
def PART_COMP_BASE.all (p : Nat) (s : Nat) : Fld := ⟨0x403000 + 0x10 * p + 0x8 * s, 0, 64⟩
def PART_COMP_BASE.base (p : Nat) (s : Nat) : Fld := ⟨0x403000 + 0x10 * p + 0x8 * s, 0, 48⟩
/-- PART_COMP (R469, 14), the whole register. -/
def PART_COMP.all (p : Nat) : Fld := ⟨0x403400 + 0x8 * p, 0, 64⟩
def PART_COMP.prev_epoch (p : Nat) : Fld := ⟨0x403400 + 0x8 * p, 32, 32⟩
def PART_COMP.live_epoch (p : Nat) : Fld := ⟨0x403400 + 0x8 * p, 0, 32⟩
/-- PART_COMP_SWITCH (R469, 14), the whole register. -/
def PART_COMP_SWITCH.all (p : Nat) : Fld := ⟨0x403600 + 0x8 * p, 0, 64⟩
def PART_COMP_SWITCH.slot (p : Nat) : Fld := ⟨0x403600 + 0x8 * p, 63, 1⟩
def PART_COMP_SWITCH.force (p : Nat) : Fld := ⟨0x403600 + 0x8 * p, 62, 1⟩
def PART_COMP_SWITCH.target_tick (p : Nat) : Fld := ⟨0x403600 + 0x8 * p, 0, 48⟩
/-- PART_COMP_STAT (R469, 14), the whole register. -/
def PART_COMP_STAT.all (p : Nat) : Fld := ⟨0x403800 + 0x4 * p, 0, 32⟩
def PART_COMP_STAT.reason (p : Nat) : Fld := ⟨0x403800 + 0x4 * p, 5, 3⟩
def PART_COMP_STAT.refused (p : Nat) : Fld := ⟨0x403800 + 0x4 * p, 4, 1⟩
def PART_COMP_STAT.done (p : Nat) : Fld := ⟨0x403800 + 0x4 * p, 3, 1⟩
def PART_COMP_STAT.draining (p : Nat) : Fld := ⟨0x403800 + 0x4 * p, 2, 1⟩
def PART_COMP_STAT.live_slot (p : Nat) : Fld := ⟨0x403800 + 0x4 * p, 1, 1⟩
def PART_COMP_STAT.armed (p : Nat) : Fld := ⟨0x403800 + 0x4 * p, 0, 1⟩
/-- PART_METER (R469, 14), the whole register. -/
def PART_METER.all (p : Nat) (k : Nat) : Fld := ⟨0x404000 + 0x40 * p + 0x8 * k, 0, 64⟩
def PART_METER.count (p : Nat) (k : Nat) : Fld := ⟨0x404000 + 0x40 * p + 0x8 * k, 0, 64⟩
/-- FLT_RING_BASE (R488, 15), the whole register. -/
def FLT_RING_BASE.all : Fld := ⟨0x500000, 0, 64⟩
def FLT_RING_BASE.iova : Fld := ⟨0x500000, 0, 64⟩
/-- FLT_RING_CFG (R488, 15), the whole register. -/
def FLT_RING_CFG.all : Fld := ⟨0x500008, 0, 32⟩
def FLT_RING_CFG.log2_entries : Fld := ⟨0x500008, 4, 5⟩
def FLT_RING_CFG.enable : Fld := ⟨0x500008, 0, 1⟩
/-- FLT_STAT (R488, 15), the whole register. -/
def FLT_STAT.all : Fld := ⟨0x500010, 0, 64⟩
def FLT_STAT.dropped : Fld := ⟨0x500010, 48, 16⟩
def FLT_STAT.part_dropped : Fld := ⟨0x500010, 32, 16⟩
def FLT_STAT.held_lost : Fld := ⟨0x500010, 24, 8⟩
def FLT_STAT.held : Fld := ⟨0x500010, 16, 8⟩
/-- FLT_CLASS_CNT (R488, 15), the whole register. -/
def FLT_CLASS_CNT.all (c : Nat) : Fld := ⟨0x500100 + 0x8 * c, 0, 64⟩
def FLT_CLASS_CNT.count (c : Nat) : Fld := ⟨0x500100 + 0x8 * c, 0, 64⟩
/-- FLT_FENCE (R488, 15), the whole register. -/
def FLT_FENCE.all : Fld := ⟨0x500200, 0, 32⟩
def FLT_FENCE.kind : Fld := ⟨0x500200, 8, 3⟩
def FLT_FENCE.index : Fld := ⟨0x500200, 0, 7⟩
/-- FLT_FENCED_CORE (R488, 15), the whole register. -/
def FLT_FENCED_CORE.all (n : Nat) : Fld := ⟨0x500210 + 0x4 * n, 0, 32⟩
def FLT_FENCED_CORE.cores (n : Nat) : Fld := ⟨0x500210 + 0x4 * n, 0, 16⟩
/-- FLT_FENCED_SCRIBE (R488, 15), the whole register. -/
def FLT_FENCED_SCRIBE.all (t : Nat) : Fld := ⟨0x500240 + 0x8 * t, 0, 64⟩
def FLT_FENCED_SCRIBE.scribes (t : Nat) : Fld := ⟨0x500240 + 0x8 * t, 0, 64⟩
/-- FLT_FENCED_MISC (R488, 15), the whole register. -/
def FLT_FENCED_MISC.all : Fld := ⟨0x500250, 0, 32⟩
def FLT_FENCED_MISC.col : Fld := ⟨0x500250, 12, 10⟩
def FLT_FENCED_MISC.quill : Fld := ⟨0x500250, 8, 4⟩
def FLT_FENCED_MISC.fec : Fld := ⟨0x500250, 0, 8⟩
/-- FLT_PART_RING (R488, 15), the whole register. -/
def FLT_PART_RING.all (p : Nat) : Fld := ⟨0x501000 + 0x10 * p, 0, 64⟩
def FLT_PART_RING.iova (p : Nat) : Fld := ⟨0x501000 + 0x10 * p, 0, 64⟩
/-- FLT_PART_CFG (R488, 15), the whole register. -/
def FLT_PART_CFG.all (p : Nat) : Fld := ⟨0x501008 + 0x10 * p, 0, 32⟩
def FLT_PART_CFG.pasid_idx (p : Nat) : Fld := ⟨0x501008 + 0x10 * p, 24, 4⟩
def FLT_PART_CFG.log2_entries (p : Nat) : Fld := ⟨0x501008 + 0x10 * p, 4, 5⟩
def FLT_PART_CFG.enable (p : Nat) : Fld := ⟨0x501008 + 0x10 * p, 0, 1⟩
/-- FLT_STRAG_CFG (R488, 15), the whole register. -/
def FLT_STRAG_CFG.all (p : Nat) : Fld := ⟨0x502000 + 0x10 * p, 0, 64⟩
def FLT_STRAG_CFG.comm (p : Nat) : Fld := ⟨0x502000 + 0x10 * p, 32, 16⟩
def FLT_STRAG_CFG.threshold_us (p : Nat) : Fld := ⟨0x502000 + 0x10 * p, 8, 24⟩
def FLT_STRAG_CFG.steps_m1 (p : Nat) : Fld := ⟨0x502000 + 0x10 * p, 4, 4⟩
def FLT_STRAG_CFG.enable (p : Nat) : Fld := ⟨0x502000 + 0x10 * p, 0, 1⟩
/-- FLT_STRAG_STAT (R488, 15), the whole register. -/
def FLT_STRAG_STAT.all (p : Nat) : Fld := ⟨0x502008 + 0x10 * p, 0, 64⟩
def FLT_STRAG_STAT.lag_us (p : Nat) : Fld := ⟨0x502008 + 0x10 * p, 41, 23⟩
def FLT_STRAG_STAT.consec (p : Nat) : Fld := ⟨0x502008 + 0x10 * p, 36, 5⟩
def FLT_STRAG_STAT.rank (p : Nat) : Fld := ⟨0x502008 + 0x10 * p, 24, 12⟩
def FLT_STRAG_STAT.measured (p : Nat) : Fld := ⟨0x502008 + 0x10 * p, 0, 24⟩
/-- HQ_DOORBELL (R506, 16), the whole register. -/
def HQ_DOORBELL.all : Fld := ⟨0x300000, 0, 32⟩
def HQ_DOORBELL.queue : Fld := ⟨0x300000, 0, 12⟩
/-- HQ_LINK (R506, 16), the whole register. -/
def HQ_LINK.all : Fld := ⟨0x301000, 0, 64⟩
def HQ_LINK.dropped_writes : Fld := ⟨0x301000, 32, 32⟩
def HQ_LINK.up : Fld := ⟨0x301000, 8, 1⟩
def HQ_LINK.speed : Fld := ⟨0x301000, 5, 3⟩
def HQ_LINK.width : Fld := ⟨0x301000, 0, 5⟩
/-- HQ_Q_SQ (R506, 16), the whole register. -/
def HQ_Q_SQ.all (q : Nat) : Fld := ⟨0x310000 + 0x8 * q, 0, 64⟩
def HQ_Q_SQ.iova (q : Nat) : Fld := ⟨0x310000 + 0x8 * q, 0, 64⟩
/-- HQ_Q_CQ (R506, 16), the whole register. -/
def HQ_Q_CQ.all (q : Nat) : Fld := ⟨0x320000 + 0x8 * q, 0, 64⟩
def HQ_Q_CQ.iova (q : Nat) : Fld := ⟨0x320000 + 0x8 * q, 0, 64⟩
/-- HQ_Q_CFG (R506, 16), the whole register. -/
def HQ_Q_CFG.all (q : Nat) : Fld := ⟨0x330000 + 0x8 * q, 0, 64⟩
def HQ_Q_CFG.enable (q : Nat) : Fld := ⟨0x330000 + 0x8 * q, 63, 1⟩
def HQ_Q_CFG.owner (q : Nat) : Fld := ⟨0x330000 + 0x8 * q, 56, 7⟩
def HQ_Q_CFG.pasid_idx (q : Nat) : Fld := ⟨0x330000 + 0x8 * q, 52, 4⟩
def HQ_Q_CFG.sq_log2 (q : Nat) : Fld := ⟨0x330000 + 0x8 * q, 47, 5⟩
def HQ_Q_CFG.cq_log2 (q : Nat) : Fld := ⟨0x330000 + 0x8 * q, 42, 5⟩
def HQ_Q_CFG.poll_code (q : Nat) : Fld := ⟨0x330000 + 0x8 * q, 38, 4⟩
/-- HQ_Q_STAT (R506, 16), the whole register. -/
def HQ_Q_STAT.all (q : Nat) : Fld := ⟨0x340000 + 0x8 * q, 0, 64⟩
def HQ_Q_STAT.interim_dropped (q : Nat) : Fld := ⟨0x340000 + 0x8 * q, 48, 16⟩
def HQ_Q_STAT.rx_dropped (q : Nat) : Fld := ⟨0x340000 + 0x8 * q, 32, 16⟩
def HQ_Q_STAT.rx_too_big (q : Nat) : Fld := ⟨0x340000 + 0x8 * q, 16, 16⟩
def HQ_Q_STAT.inflight (q : Nat) : Fld := ⟨0x340000 + 0x8 * q, 0, 9⟩
/-- HQ_Q_FLAGS (R506, 16), the whole register. -/
def HQ_Q_FLAGS.all (q : Nat) : Fld := ⟨0x350000 + 0x8 * q, 0, 32⟩
def HQ_Q_FLAGS.error (q : Nat) : Fld := ⟨0x350000 + 0x8 * q, 2, 1⟩
def HQ_Q_FLAGS.stall_cq (q : Nat) : Fld := ⟨0x350000 + 0x8 * q, 1, 1⟩
def HQ_Q_FLAGS.active (q : Nat) : Fld := ⟨0x350000 + 0x8 * q, 0, 1⟩
/-- MGT_STAT (R537, 17), the whole register. -/
def MGT_STAT.all : Fld := ⟨0xF000000, 0, 32⟩
def MGT_STAT.wake_reason : Fld := ⟨0xF000000, 13, 3⟩
def MGT_STAT.puf_ok : Fld := ⟨0xF000000, 12, 1⟩
def MGT_STAT.standby_ok : Fld := ⟨0xF000000, 4, 1⟩
def MGT_STAT.active_core : Fld := ⟨0xF000000, 3, 1⟩
def MGT_STAT.state : Fld := ⟨0xF000000, 0, 2⟩
/-- MGT_LOOP (R537, 17), the whole register. -/
def MGT_LOOP.all : Fld := ⟨0xF000008, 0, 64⟩
def MGT_LOOP.overruns : Fld := ⟨0xF000008, 32, 16⟩
def MGT_LOOP.loops : Fld := ⟨0xF000008, 0, 32⟩
/-- MGT_MBOX_CMD (R537, 17), the whole register. -/
def MGT_MBOX_CMD.all (i : Nat) : Fld := ⟨0xF000100 + 0x8 * i, 0, 64⟩
def MGT_MBOX_CMD.data (i : Nat) : Fld := ⟨0xF000100 + 0x8 * i, 0, 64⟩
/-- MGT_MBOX_SUBMIT (R537, 17), the whole register. -/
def MGT_MBOX_SUBMIT.all : Fld := ⟨0xF000140, 0, 32⟩
def MGT_MBOX_SUBMIT.seq : Fld := ⟨0xF000140, 0, 16⟩
/-- MGT_MBOX_STAT (R537, 17), the whole register. -/
def MGT_MBOX_STAT.all : Fld := ⟨0xF000148, 0, 32⟩
def MGT_MBOX_STAT.busy : Fld := ⟨0xF000148, 16, 1⟩
def MGT_MBOX_STAT.done_seq : Fld := ⟨0xF000148, 0, 16⟩
/-- MGT_MBOX_RESP (R537, 17), the whole register. -/
def MGT_MBOX_RESP.all (i : Nat) : Fld := ⟨0xF000180 + 0x8 * i, 0, 64⟩
def MGT_MBOX_RESP.data (i : Nat) : Fld := ⟨0xF000180 + 0x8 * i, 0, 64⟩
/-- MGT_FW_STAT (R537, 17), the whole register. -/
def MGT_FW_STAT.all : Fld := ⟨0xF000200, 0, 64⟩
def MGT_FW_STAT.active_version : Fld := ⟨0xF000200, 32, 32⟩
def MGT_FW_STAT.staged_kib : Fld := ⟨0xF000200, 8, 16⟩
def MGT_FW_STAT.fallback_cause : Fld := ⟨0xF000200, 4, 4⟩
def MGT_FW_STAT.state : Fld := ⟨0xF000200, 0, 4⟩
/-- MGT_HEALTH (R537, 17), the whole register. -/
def MGT_HEALTH.all : Fld := ⟨0xF000208, 0, 32⟩
def MGT_HEALTH.trial_s : Fld := ⟨0xF000208, 16, 16⟩
def MGT_HEALTH.confirm : Fld := ⟨0xF000208, 0, 1⟩
/-- MGT_CFG_STAT (R537, 17), the whole register. -/
def MGT_CFG_STAT.all : Fld := ⟨0xF000210, 0, 64⟩
def MGT_CFG_STAT.prev_valid : Fld := ⟨0xF000210, 34, 1⟩
def MGT_CFG_STAT.pending_revert : Fld := ⟨0xF000210, 33, 1⟩
def MGT_CFG_STAT.pending : Fld := ⟨0xF000210, 32, 1⟩
def MGT_CFG_STAT.live_gen : Fld := ⟨0xF000210, 0, 32⟩
/-- MGT_PWR (R537, 17), the whole register. -/
def MGT_PWR.all : Fld := ⟨0xF000300, 0, 64⟩
def MGT_PWR.limit_eff_w : Fld := ⟨0xF000300, 48, 16⟩
def MGT_PWR.board_limit_w : Fld := ⟨0xF000300, 32, 16⟩
def MGT_PWR.power_mw : Fld := ⟨0xF000300, 0, 32⟩
/-- MGT_ENERGY (R537, 17), the whole register. -/
def MGT_ENERGY.all : Fld := ⟨0xF000308, 0, 64⟩
def MGT_ENERGY.mj : Fld := ⟨0xF000308, 0, 64⟩
/-- MGT_PWR_CFG (R537, 17), the whole register. -/
def MGT_PWR_CFG.all : Fld := ⟨0xF000310, 0, 32⟩
def MGT_PWR_CFG.limit_w : Fld := ⟨0xF000310, 0, 12⟩
/-- MGT_THERM_CFG (R537, 17), the whole register. -/
def MGT_THERM_CFG.all : Fld := ⟨0xF000318, 0, 32⟩
def MGT_THERM_CFG.hbm_setpoint : Fld := ⟨0xF000318, 8, 8⟩
def MGT_THERM_CFG.die_setpoint : Fld := ⟨0xF000318, 0, 8⟩
/-- MGT_DUTY (R537, 17), the whole register. -/
def MGT_DUTY.all : Fld := ⟨0xF000320, 0, 64⟩
def MGT_DUTY.limited : Fld := ⟨0xF000320, 32, 8⟩
def MGT_DUTY.duty_m (i : Nat) : Fld := ⟨0xF000320, 0 + 4 * i, 4⟩
/-- MGT_TEMP (R537, 17), the whole register. -/
def MGT_TEMP.all (t : Nat) : Fld := ⟨0xF000400 + 0x4 * t, 0, 32⟩
def MGT_TEMP.temp (t : Nat) : Fld := ⟨0xF000400 + 0x4 * t, 0, 16⟩
/-- MGT_HBM_TEMP (R537, 17), the whole register. -/
def MGT_HBM_TEMP.all (s : Nat) : Fld := ⟨0xF000480 + 0x4 * s, 0, 32⟩
def MGT_HBM_TEMP.temp (s : Nat) : Fld := ⟨0xF000480 + 0x4 * s, 0, 16⟩
/-- MGT_RAIL (R537, 17), the whole register. -/
def MGT_RAIL.all (r : Nat) : Fld := ⟨0xF000600 + 0x8 * r, 0, 64⟩
def MGT_RAIL.current_ma (r : Nat) : Fld := ⟨0xF000600 + 0x8 * r, 16, 32⟩
def MGT_RAIL.voltage_mv (r : Nat) : Fld := ⟨0xF000600 + 0x8 * r, 0, 16⟩
/-- GLB_DEVICE_ID (R204, 06), the whole register. -/
def GLB_DEVICE_ID.all : Fld := ⟨0x200, 0, 32⟩
def GLB_DEVICE_ID.locked : Fld := ⟨0x200, 16, 1⟩
def GLB_DEVICE_ID.device_id : Fld := ⟨0x200, 0, 16⟩

end Sys2Proof.Machine.Reg
end

