-- ==== Sys2Proof/Machine/Ops.lean ====
section
/-! DEFINITION. Named operations over the state that every family uses: register fields, time, host memory, PASIDs, fault
records, free values. -/

namespace Sys2Proof.Machine

/-! ### Registers -/

/-- The live value of the register at byte offset `off`. -/
def State.reg (s : State) (off : Nat) : Word := NMap.get (regReset off) s.regs off

/-- Set the live value of a register. -/
def State.setReg (s : State) (off : Nat) (v : Word) : State :=
  { s with regs := NMap.put (regReset off) s.regs off v }

/-- The shadow copy of a register (R13). -/
def State.shadowReg (s : State) (off : Nat) : Word := NMap.get (regReset off) s.shadow off

/-- Set the shadow copy of a register. -/
def State.setShadow (s : State) (off : Nat) (v : Word) : State :=
  { s with shadow := NMap.put (regReset off) s.shadow off v }

/-- The live value of a field. -/
def State.rd (s : State) (f : Fld) : Nat := bits (s.reg f.off).toNat f.lo f.w

/-- Set the live value of a field. -/
def State.wr (s : State) (f : Fld) (x : Nat) : State :=
  s.setReg f.off (BitVec.ofNat 64 (setBits (s.reg f.off).toNat f.lo f.w x))

/-- Advance a counter that saturates (R14). -/
def State.inc (s : State) (f : Fld) (n : Nat) : State := s.wr f (satAdd (s.rd f) n f.w)

/-- Advance a counter that wraps. -/
def State.incw (s : State) (f : Fld) (n : Nat) : State := s.wr f (s.rd f + n)

/-- A one-bit field as a truth value. -/
def State.on (s : State) (f : Fld) : Bool := s.rd f == 1

/-! ### Free values -/

/-- A value nothing constrains, below 2^w. -/
def State.freeVal (s : State) (w : Nat) : Nat := Config.freeNat s.free % 2 ^ w

/-- The state after n free values were taken. -/
def State.took (s : State) (n : Nat) : State := { s with free := s.free + n }

/-- Change Wioliz's state. -/
def State.modMgt (s : State) (f : MgtSt → MgtSt) : State := { s with mgt := f s.mgt }

/-! ### Time (R366) -/

/-- Corrected time in units of 2^−32 ns at cycle count c: one cycle is 0.625 ns = 2,684,354,560 units. -/
def TimeSt.at (t : TimeSt) (c : Nat) : Int :=
  t.baseT + (((c : Int) - (t.baseCnt : Int)) * 2684354560 * (281474976710656 + t.rate)) / 281474976710656

/-- Corrected time now, in units of 2^−32 ns. -/
def State.t32 (s : State) : Int := s.time.at s.time.cnt

/-- Corrected time now, in whole ns. -/
def State.nowNs (s : State) : Nat := (s.t32 / 4294967296).toNat

/-- The first cycle at which corrected time is at or past `t` (units of 2^−32 ns), not before the present one. -/
def State.cycleOf (s : State) (t : Int) : Nat :=
  max s.time.cnt
    (s.time.baseCnt +
      ((t - s.time.baseT) * 281474976710656 + (2684354560 * (281474976710656 + s.time.rate) - 1)).toNat /
        (2684354560 * (281474976710656 + s.time.rate)).toNat)

/-- Let cycles pass until the cycle counter stands at c (no step back). -/
def State.advance (s : State) (c : Nat) : State := { s with time := { s.time with cnt := max s.time.cnt c } }

/-- Let corrected time reach `ns`. -/
def State.advanceNs (s : State) (ns : Nat) : State := s.advance (s.cycleOf ((ns : Int) * 4294967296))

/-- The base-tick count N of R50. -/
def State.baseTicks (s : State) : Nat :=
  ((s.t32 / 4294967296 - (s.rd Reg.TICK_PHASE.phase_ns : Int)) / 62500).toNat

/-- TICK_NUM (R50): the value at the most recent edge while the tick unit runs, N while it is stopped. -/
def State.tickNum (s : State) : Nat :=
  if s.on Reg.TICK_STAT.running then s.rd Reg.TICK_NUM.tick_num else s.baseTicks

/-- Cycles of n ms at the nominal clock (R5). -/
def msCycles (n : Nat) : Nat := 1600000 * n

/-- Cycles of n µs. -/
def usCycles (n : Nat) : Nat := 1600 * n

/-! ### PASIDs (R449) and host memory (R490, R491) -/

/-- Every PASID entry that is marked valid: those of the partitions, and the manager's. -/
def State.boundPasids (s : State) : List Nat :=
  ((s.regs.filter (fun e => decide (0x401000 ≤ e.1) && decide (e.1 < 0x402000) && bit e.2.toNat 31)).map
      (fun e => bits e.2.toNat 0 20)) ++
    (if s.on Reg.PART_MGR_PASID.valid then [s.rd Reg.PART_MGR_PASID.pasid] else [])

/-- A PASID that is valid in exactly one entry (no conflict under R449). -/
def State.pasidClear (s : State) (v : Nat) : Bool := (s.boundPasids.filter (fun x => x == v)).length == 1

/-- Entry i of partition p, where it is valid and free of conflict. -/
def State.partPasid (s : State) (p i : Nat) : Option Nat :=
  if s.on (Reg.PART_PASID.valid p i) && s.pasidClear (s.rd (Reg.PART_PASID.pasid p i)) then
    some (s.rd (Reg.PART_PASID.pasid p i)) else none

/-- The manager's PASID, where it is valid and free of conflict. -/
def State.mgrPasid (s : State) : Option Nat :=
  if s.on Reg.PART_MGR_PASID.valid && s.pasidClear (s.rd Reg.PART_MGR_PASID.pasid) then
    some (s.rd Reg.PART_MGR_PASID.pasid) else none

/-- The key of a byte of host memory. -/
def hostKey (pasid iova : Nat) : Nat := pasid * 18446744073709551616 + iova % 18446744073709551616

/-- Do device accesses reach host memory? Not while the link is down (R491) or the function is in D3hot (R518). -/
def State.hostUp (s : State) : Bool := s.on Reg.HQ_LINK.up && !s.hq.d3hot

/-- A device write of n bytes to host memory; dropped and counted while the host is out of reach. -/
def State.hostWr (s : State) (pasid iova n v : Nat) : State :=
  if s.hostUp then { s with host := Mem.wrN s.host (hostKey pasid iova) n v }
  else s.inc Reg.HQ_LINK.dropped_writes 1

/-- The write of n bytes went out with its EP bit set (R219). -/
def State.hostMark (s : State) (pasid iova n : Nat) : State :=
  if s.hostUp then { s with hostEp := s.hostEp ++ [(hostKey pasid iova, n)] } else s

/-- A device read of n bytes of host memory; none where it fails. -/
def State.hostRd (s : State) (pasid iova n : Nat) : Option Nat :=
  if s.hostUp then some (Mem.rdN s.host (hostKey pasid iova) n) else none

/-- Stores of the host itself into its memory: pairs of key (hostKey) and byte. -/
def State.hostStores (s : State) (l : List (Nat × Nat)) : State :=
  { s with host := each l s.host (fun e m => Mem.wr m e.1 e.2) }

/-! ### Fault records (R471 to R477) -/

/-- The base address, enable, log2 size and PASID of fault ring k (64: the manager's). -/
def State.ringInfo (s : State) (k : Nat) : Nat × Bool × Nat × Option Nat :=
  if k = 64 then
    (s.rd Reg.FLT_RING_BASE.iova, s.on Reg.FLT_RING_CFG.enable, s.rd Reg.FLT_RING_CFG.log2_entries, s.mgrPasid)
  else
    (s.rd (Reg.FLT_PART_RING.iova k), s.on (Reg.FLT_PART_CFG.enable k), s.rd (Reg.FLT_PART_CFG.log2_entries k),
      s.partPasid k (s.rd (Reg.FLT_PART_CFG.pasid_idx k)))

/-- The PASID through which ring k is written, where the ring counts as enabled (R474, R557). -/
def State.ringOn (s : State) (k : Nat) : Option Nat :=
  let i := s.ringInfo k
  if i.2.1 && decide (6 ≤ i.2.2.1) && decide (i.2.2.1 ≤ 16) then i.2.2.2 else none

/-- The device's side of ring k. -/
def State.ring (s : State) (k : Nat) : Ring := NMap.get {} s.flt.rings k

/-- Set it. -/
def State.setRing (s : State) (k : Nat) (r : Ring) : State :=
  { s with flt := { s.flt with rings := NMap.put {} s.flt.rings k r } }

/-- Store a 256-bit record into ring k at its next position, then the written count (R474). -/
def State.ringStore (s : State) (k pasid rec_ : Nat) : State :=
  let r := s.ring k
  let i := s.ringInfo k
  let s := s.hostWr pasid (i.1 + 64 + 32 * (r.written % 2 ^ i.2.2.1)) 32 (setBits rec_ 40 8 r.lost)
  let s := s.hostWr pasid i.1 8 ((r.written + 1) % 18446744073709551616)
  s.setRing k { r with written := (r.written + 1) % 18446744073709551616, lost := 0 }

/-- Is there room in ring k by the last read count fetched? -/
def State.ringRoom (s : State) (k : Nat) : Bool :=
  let r := s.ring k
  decide ((r.written + 18446744073709551616 - r.read) % 18446744073709551616 < 2 ^ (s.ringInfo k).2.2.1)

/-- Fetch the read count of ring k again, at most once per tick (R475); true where the read failed. -/
def State.ringFetch (s : State) (k pasid : Nat) : State × Bool :=
  let r := s.ring k
  if r.fetched = s.tickNum + 1 then (s, false)
  else
    let s1 := s.setRing k { r with fetched := s.tickNum + 1 }
    match s.hostRd pasid ((s.ringInfo k).1 + 8) 8 with
    | some v => (s1.setRing k { r with fetched := s.tickNum + 1, read := v }, false)
    | none => (s1, true)

/-- A record reaches ring k: written, or dropped and counted (R475). -/
def State.ringPut (s : State) (k rec_ : Nat) : State × Bool :=
  match s.ringOn k with
  | none => (s, false)
  | some pasid =>
    if s.ringRoom k then (s.ringStore k pasid rec_, false)
    else
      let f := s.ringFetch k pasid
      if f.1.ringRoom k then (f.1.ringStore k pasid rec_, f.2)
      else
        let r := f.1.ring k
        ((f.1.setRing k { r with lost := satAdd r.lost 1 8 }).inc
          (if k = 64 then Reg.FLT_STAT.dropped else Reg.FLT_STAT.part_dropped) 1, f.2)

/-- The 256 bits of a fault record (R471) at TICK_NUM `tick`. -/
def FRec.word (r : FRec) (tick : Nat) : Nat :=
  setBits (setBits (setBits (setBits (setBits (setBits (setBits (setBits (setBits (setBits 0 0 16 r.code) 16 7 r.part)
    24 4 r.die) 28 8 r.unit) 36 4 r.sub) 48 16 (min r.count 65535)) 64 32 r.tag) 96 32 r.arg0) 128 64 tick) 192 64 r.arg1

/-- The state of partition p (R453). -/
def State.partState (s : State) (p : Nat) : Nat := s.rd (Reg.PART_STAT.state p)

/-- A record naming a partition that is ABSENT carries 0x40 (R471). -/
def State.faultPart (s : State) (p : Nat) : Nat := if p < 64 ∧ s.partState p = 0 then 0x40 else p

/-- A record into the manager ring (held while that ring has never been enabled, R477). -/
def State.putManager (s : State) (w : Nat) : State × Bool :=
  if s.flt.everEnabled then s.ringPut 64 w
  else if s.flt.held.length < 64 then
    (({ s with flt := { s.flt with held := s.flt.held ++ [w] } }).wr Reg.FLT_STAT.held (s.flt.held.length + 1), false)
  else (s.inc Reg.FLT_STAT.held_lost 1, false)

/-- The class counter advances by the events a record stands for (R476), and the board's counts of classes 8 and 9 (R519). -/
def State.countClass (s : State) (r : FRec) : State :=
  let s := s.inc (Reg.FLT_CLASS_CNT.count (r.code / 4096)) r.count
  if r.code / 4096 = 8 then { s with mgt := { s.mgt with cnt8 := satAdd s.mgt.cnt8 r.count 16 } }
  else if r.code / 4096 = 9 then { s with mgt := { s.mgt with cnt9 := satAdd s.mgt.cnt9 r.count 16 } }
  else s

/-- Write a fault record: manager ring, partition ring. A failed read of a ring's read count is a fault of its own (R490);
`fuel` bounds that recursion (each ring is read at most once per tick). -/
def State.faultGo : Nat → State → FRec → State
  | 0, s, _ => s
  | n + 1, s, r =>
    let p := s.faultPart r.part
    let w := ({ r with part := p } : FRec).word s.tickNum
    let m := s.putManager w
    let e : FRec := { code := 0x5012, part := 0x40, arg1 := (m.1.ringInfo 64).1 + 8 }
    let s := if m.2 then State.faultGo n (m.1.countClass e) e else m.1
    if p < 64 then
      let q := s.ringPut p w
      let e : FRec := { code := 0x5012, part := p, arg1 := (q.1.ringInfo p).1 + 8 }
      if q.2 then State.faultGo n (q.1.countClass e) e else q.1
    else s

/-- An event raises a fault: it is counted, its record is formed and written. -/
def State.fault (s : State) (r : FRec) : State := (s.countClass r).faultGo 4 r

/-- The manager ring counts as enabled for the first time: the held records are written (R477, R557). -/
def State.flushHeld (s : State) : State :=
  if s.flt.everEnabled || (s.ringOn 64).isNone then s
  else
    let h := s.flt.held
    let s := ({ s with flt := { s.flt with everEnabled := true, held := [] } }).wr Reg.FLT_STAT.held 0
    each h s (fun w t => (t.ringPut 64 w).1)

/-- The number of the present 1 ms period. -/
def State.msPeriod (s : State) : Nat := s.time.cnt / 1600000

/-- The period to which a record of a code is limited: a tick for EQS.TX_LATE (R353), 1 ms for the others (R224, R343). -/
def State.gatherPeriod (s : State) (code : Nat) : Nat := if code = 0x5010 then s.tickNum else s.msPeriod

/-- Do two records stand for the same code and unit (a cell, for EQS.TX_LATE)? -/
def FRec.same (a b : FRec) : Bool :=
  decide (a.code = b.code) && decide (a.die = b.die) &&
    (if a.code = 0x5010 then decide (a.arg0 = b.arg0) else decide (a.unit = b.unit))

/-- One event of a code that is limited to one record per unit in each period (R224, R343, R353): it is counted at once; the
record carries the events since the previous one. -/
def State.faultGather (s : State) (r : FRec) : State :=
  let s := s.countClass r
  let period := s.gatherPeriod r.code
  match s.flt.gather.find? (fun g => g.rec_.same r) with
  | none => ({ s with flt := { s.flt with gather := ⟨r, period, 0⟩ :: s.flt.gather } }).faultGo 4 r
  | some g =>
    let rest := s.flt.gather.filter (fun x => !x.rec_.same r)
    if g.period = period then
      { s with flt := { s.flt with gather := ⟨g.rec_, period, g.n + r.count⟩ :: rest } }
    else
      ({ s with flt := { s.flt with gather := ⟨r, period, 0⟩ :: rest } }).faultGo 4 { r with count := r.count + g.n }

/-- Write the records of gathered events whose period has ended. -/
def State.flushGather (s : State) : State :=
  each s.flt.gather s (fun g t =>
    let period := t.gatherPeriod g.rec_.code
    if g.n = 0 ∨ g.period = period then t
    else
      ({ t with flt := { t.flt with gather := t.flt.gather.map (fun x => if x = g then ⟨g.rec_, period, 0⟩ else x) } }).faultGo 4
        { g.rec_ with count := g.n })

/-- A control-window access that is discarded and recorded (R10). -/
def State.badAccess (s : State) (off : Nat) : State :=
  s.fault { code := 0x2001, part := 0x40, arg1 := off,
            die := if 0x2000000 ≤ off ∧ off < 0xA000000 then (off - 0x2000000) / 0x1000000 else 8,
            unit := if 0x2000000 ≤ off ∧ off < 0xA000000 then (off - 0x2000000) / 0x1000000 else 8 }

/-! ### Presence (R45, R46) and fences (R481) -/

def State.tilePresent (s : State) (n : Nat) : Bool :=
  if n < 8 then bit (s.rd Reg.GLB_CAP_TILES.compute_present) n else bit (s.rd Reg.GLB_CAP_TILES.radio_present) (n - 8)
def State.coreInService (s : State) (n c : Nat) : Bool := bit (s.rd (Reg.GLB_CAP_CORES.core_present n)) c
def State.coreFenced (s : State) (n c : Nat) : Bool := bit (s.rd (Reg.FLT_FENCED_CORE.cores n)) c
/-- Present, and not treated as absent because it is fenced. -/
def State.coreUsable (s : State) (n c : Nat) : Bool := s.coreInService n c && !s.coreFenced n c
def State.scribeUsable (s : State) (k : Nat) : Bool :=
  bit (s.rd (Reg.GLB_CAP_SCRIBES.scribe_present (k / 64))) (k % 64) && !bit (s.rd (Reg.FLT_FENCED_SCRIBE.scribes (k / 64))) (k % 64)
def State.fecPresent (s : State) (t : Nat) : Bool := bit (s.rd Reg.GLB_CAP_TILES.fec_present) t && s.tilePresent (8 + t)
def State.fecFenced (s : State) (t e : Nat) : Bool := bit (s.rd Reg.FLT_FENCED_MISC.fec) (4 * t + e)
def State.quillPresent (s : State) (j : Nat) : Bool := bit (s.rd Reg.GLB_CAP_TILES.quill_present) j && s.tilePresent (4 + j)
def State.quillFenced (s : State) (j : Nat) : Bool := bit (s.rd Reg.FLT_FENCED_MISC.quill) j
def State.colFenced (s : State) (d : Nat) : Bool := bit (s.rd Reg.FLT_FENCED_MISC.col) d
def State.chanPresent (s : State) (ch : Nat) : Bool := bit (s.rd (Reg.GLB_CAP_CHAN.chan_present (ch / 64))) (ch % 64)

/-- A counted fault of a unit (R480): kind 1 P-core, 2 G-core, 3 Scribe, 4 FEC engine, 5 Quill, 6 collective engine. Those of the
last 1,000 ms are kept. -/
def State.countedFault (s : State) (kind index : Nat) : State :=
  let k := kind * 256 + index
  let l := (s.time.cnt :: NMap.get [] s.flt.counted k).filter (fun t => decide (s.time.cnt < t + msCycles 1000))
  { s with flt := { s.flt with counted := NMap.put [] s.flt.counted k l } }

/-- Meter 7 of every partition metered by time counts the base ticks up to now (R466, R467). -/
def State.meterTicks (s : State) : State :=
  let now := s.baseTicks
  let s1 := upto 64 s (fun p t =>
    if t.partState p ≠ 0 ∧ t.on (Reg.PART_CFG.meter_time p) = true then t.incw (Reg.PART_METER.count p 7) (now - s.part.ticks) else t)
  { s1 with part := { s1.part with ticks := now } }

/-- The base-tick count has jumped without base ticks having elapsed (a step of time, a new phase): meter 7 counts on from here. -/
def State.tickMark (s : State) : State := { s with part := { s.part with ticks := s.baseTicks } }

end Sys2Proof.Machine
end

