-- ==== Sys2Proof/Machine/Memory.lean ====
section
/-! DEFINITION. Device local memory (R200 to R215, R219 to R227): the address decode, interleave sets, permission, reads and
writes at the point of order, poison, tile stores; the package mesh (R25, R26, R30). -/

namespace Sys2Proof.Machine

/-- The meter k of partition p counts n (R466, R467): while metering is not by time, and the partition is not ABSENT. -/
def State.meter (s : State) (p k n : Nat) : State :=
  if p < 64 ∧ s.partState p ≠ 0 ∧ s.on (Reg.PART_CFG.meter_time p) = false then s.incw (Reg.PART_METER.count p k) n else s

/-! ### Channels (R31, R205) -/

def chanBytes : Nat := 0xC0000000

/-- The compute tile of a channel, a tile's first channel and how many it has. -/
def chanTile (c : Nat) : Nat := if c < 128 then c / 32 else 4 + (c - 128) / 96
def firstChan (n : Nat) : Nat := if n < 4 then 32 * n else 128 + 96 * (n - 4)
def chanCount (n : Nat) : Nat := if n < 4 then 32 else 96

/-- First local channel and size of the set that ilv_code j names for local channel k of tile n (R206). -/
def ilvSet (n k j : Nat) : Nat × Nat :=
  if j = 6 then (0, chanCount n) else (k / 2 ^ j * 2 ^ j, 2 ^ j)

/-- Is the interleave set of local channel k of tile n consistent (R208)? -/
def State.setConsistent (s : State) (n k : Nat) : Bool :=
  let j := s.rd (Reg.TILE_CHAN_CFG.ilv_code n k)
  let o := s.rd (Reg.TILE_CHAN_CFG.owner n k)
  let g := ilvSet n k j
  decide (j < 6 ∨ (j = 6 ∧ 4 ≤ n)) && (decide (o ≤ 0x40) || decide (o = 0x7F)) &&
    (List.range g.2).all (fun i =>
      decide (s.rd (Reg.TILE_CHAN_CFG.ilv_code n (g.1 + i)) = j) && decide (s.rd (Reg.TILE_CHAN_CFG.owner n (g.1 + i)) = o) &&
        s.chanPresent (firstChan n + g.1 + i) && !s.on (Reg.TILE_CHAN_STAT.failed n (g.1 + i)))

/-- Is any channel of the set of local channel k being scrubbed (R210)? -/
def State.setScrubbing (s : State) (n k : Nat) : Bool :=
  let g := ilvSet n k (s.rd (Reg.TILE_CHAN_CFG.ilv_code n k))
  (List.range g.2).any (fun i => s.on (Reg.TILE_CHAN_STAT.scrubbing n (g.1 + i)))

/-- The channel and the byte within it of a device local HBM address (R207). -/
def State.decodeHbm (s : State) (a : Nat) : Nat × Nat :=
  let c := a / chanBytes
  let n := chanTile c
  let f := firstChan n
  let g := ilvSet n (c - f) (s.rd (Reg.TILE_CHAN_CFG.ilv_code n (c - f)))
  let o := a - (f + g.1) * chanBytes
  (f + g.1 + o / 1024 % g.2, o / 1024 / g.2 * 1024 + o % 1024)

/-! ### Address space (R200, R202) -/

def isHbm (a : Nat) : Bool := decide (a < 0x18000000000)

/-- The base die of a Reservoir address and the offset in its share; none outside the mapped windows. -/
def State.rsvDecode (s : State) (a : Nat) : Option (Nat × Nat) :=
  if a < 0x20000000000 then none
  else
    let d := (a - 0x20000000000) / 0x1000000
    let o := (a - 0x20000000000) % 0x1000000
    if d < 10 ∧ o < (if d < 8 then 0x800000 else 0x400000) ∧ s.tilePresent d = true then some (d, o) else none

/-- The storage key of the byte at device local address a. -/
def State.memKey (s : State) (a : Nat) : Nat :=
  if isHbm a then (let d := s.decodeHbm a; d.1 * chanBytes + d.2) else a

/-- May partition p (0x40: the manager) reach the Reservoir granule g of base die d? Owned by p, or reserved by a key of p
from the pool (R413, R414). -/
def State.rsvGranted (s : State) (p d g : Nat) : Bool :=
  (s.on (Reg.FAB_RSV_OWN.valid d (g / 8) (g % 8)) && !s.on (Reg.FAB_RSV_OWN.pool d (g / 8) (g % 8)) &&
      decide (s.rd (Reg.FAB_RSV_OWN.partition d (g / 8) (g % 8)) = p)) ||
    (decide (p < 64) && s.on (Reg.FAB_DOMAIN.valid p) &&
      s.fab.leases.any (fun l => decide (l.die = d) && l.granules.contains g && decide (l.domain = s.rd (Reg.FAB_DOMAIN.domain p))))

/-- Is the device local byte a permitted to partition p (R209)? -/
def State.permitAt (s : State) (p a : Nat) : Bool :=
  if isHbm a then
    let c := a / chanBytes
    let n := chanTile c
    let k := c - firstChan n
    s.setConsistent n k && decide (s.rd (Reg.TILE_CHAN_CFG.owner n k) = p) && !s.setScrubbing n k
  else
    match s.rsvDecode a with
    | none => false
    | some (d, o) => s.rsvGranted p d (o / 65536)

/-- Is the range [a, a + n) permitted to p (R201, R209)? Permission is constant over a 64 KiB granule. -/
def State.permit (s : State) (p a n : Nat) : Bool :=
  n == 0 || (decide (a + n ≤ 0x1000000000000) &&
    (List.range ((a + n - 1) / 65536 - a / 65536 + 1)).all (fun i => s.permitAt p (a / 65536 * 65536 + 65536 * i)))

/-! ### Bytes and lines at the point of order (R226, R227) -/

/-- The n bytes at device local address a, little-endian. -/
def State.ldN (s : State) (a : Nat) : Nat → Nat
  | 0 => 0
  | n + 1 => Mem.rd s.mem.bytes (s.memKey a) + 256 * State.ldN s (a + 1) n

/-- The n bytes at a, as a list. -/
def State.ldBytes (s : State) (a n : Nat) : List Nat := leBytes (s.ldN a n) n

/-- Does the byte at a lie in a channel that has failed (R223)? -/
def State.chanFailed (s : State) (a : Nat) : Bool :=
  isHbm a && (let c := (s.decodeHbm a).1; s.on (Reg.TILE_CHAN_STAT.failed (chanTile c) (c - firstChan (chanTile c))))

/-- Is the 64-byte line holding a poisoned (R221)? Every line of a failed channel reads as poison (R223). -/
def State.lineBad (s : State) (a : Nat) : Bool := NMap.get false s.mem.bad (s.memKey a / 64) || s.chanFailed a

/-- Is any line of [a, a + n) poisoned? -/
def State.rangeBad (s : State) (a n : Nat) : Bool :=
  n != 0 && (List.range ((a + n - 1) / 64 - a / 64 + 1)).any (fun i => s.lineBad (a / 64 * 64 + 64 * i))

/-- Reads of poisoned HBM lines in [a, a + n) count at their channels (R221). -/
def State.countPoison (s : State) (a n : Nat) : State :=
  if n = 0 then s
  else
    upto ((a + n - 1) / 64 - a / 64 + 1) s (fun i t =>
      let b := a / 64 * 64 + 64 * i
      if isHbm b && t.lineBad b then
        let c := (t.decodeHbm b).1
        t.inc (Reg.TILE_CHAN_ERR.poison_reads (chanTile c) (c - firstChan (chanTile c))) 1
      else t)

def State.setLineBad (s : State) (a : Nat) (b : Bool) : State :=
  { s with mem := { s.mem with bad := NMap.put false s.mem.bad (s.memKey a / 64) b } }

/-- Every line that [a, a + n) touches becomes poison, where `b` says so. -/
def State.poisonRange (s : State) (a n : Nat) (b : Bool) : State :=
  if b && decide (0 < n) then upto ((a + n - 1) / 64 - a / 64 + 1) s (fun i t => t.setLineBad (a / 64 * 64 + 64 * i) true) else s

/-- Write bytes at a. A whole line written clears its poison; a part of a line does not (R221). -/
def State.stLive (s : State) (a : Nat) (l : List Nat) : State :=
  let m1 := each ((List.range l.length).zip l) s.mem.bytes (fun e m => Mem.wr m (s.memKey (a + e.1)) e.2)
  let s1 : State := { s with mem := { s.mem with bytes := m1 } }
  upto ((a % 64 + l.length) / 64 + 1) s1 (fun i t =>
    let line := a / 64 * 64 + 64 * i
    if a ≤ line ∧ line + 64 ≤ a + l.length then t.setLineBad line false else t)

/-- How many lines [a, a + n) touches, and the bytes of l that fall into line i, with their address. -/
def lineCount (a n : Nat) : Nat := if n = 0 then 0 else (a + n - 1) / 64 - a / 64 + 1
def linePiece (a : Nat) (l : List Nat) (i : Nat) : Nat × List Nat :=
  let lo := max a (a / 64 * 64 + 64 * i)
  (lo, (l.drop (lo - a)).take (a / 64 * 64 + 64 * i + 64 - lo))

/-- Write bytes at a; what falls into a failed channel is dropped and counted in its ue (R223). -/
def State.stBytes (s : State) (a : Nat) (l : List Nat) : State :=
  if (List.range (lineCount a l.length)).any (fun i => s.chanFailed (a / 64 * 64 + 64 * i)) then
    upto (lineCount a l.length) s (fun i t =>
      let e := linePiece a l i
      if t.chanFailed e.1 then
        let c := (t.decodeHbm e.1).1
        t.inc (Reg.TILE_CHAN_ERR.ue (chanTile c) (c - firstChan (chanTile c))) 1
      else t.stLive e.1 e.2)
  else s.stLive a l

/-- Write the low n bytes of v at a. -/
def State.stN (s : State) (a n v : Nat) : State := s.stBytes a (leBytes v n)

/-- The owner whose channels hold an HBM address (0x7F none). -/
def State.hbmOwner (s : State) (a : Nat) : Nat :=
  let c := a / chanBytes
  s.rd (Reg.TILE_CHAN_CFG.owner (chanTile c) (c - firstChan (chanTile c)))

/-! ### Tile stores (R212 to R215) -/

/-- Ways of tile n set in more than one mask (R213). -/
def State.wayConflict (s : State) (n : Nat) : Nat :=
  (List.range 16).foldl (fun a w =>
    if 2 ≤ ((List.range 65).filter (fun p => bit (s.rd (Reg.TILE_WAY_MASK.ways n p)) w)).length then a + 2 ^ w else a) 0

/-- The ways that lines of owner p may be allocated in: those of its mask that no other mask holds (R213). -/
def State.tsWays (s : State) (n p : Nat) : List Nat :=
  let c := s.wayConflict n
  (List.range 16).filter (fun w => bit (s.rd (Reg.TILE_WAY_MASK.ways n p)) w && !bit c w)

/-- What one line of an access does to the tile stores (R214): its key and set slots, the ways it may allocate in, the way that
replacement picks, whether it writes, whole or in part, and whether it allocates. The lines after it, and the keys of the lines that
were transferred from or to HBM: a line written back, and this one, filled or accessed past the store. -/
def tsLine (slot0 key : Nat) (ways : List Nat) (pick : Nat) (write whole alloc : Bool) (m : NMap TsLine) : NMap TsLine × List Nat :=
  match (List.range 16).find? (fun w => match NMap.find m (slot0 + w) with | some l => decide (l.key = key) | none => false) with
  | some w => (if write then NMap.ins m (slot0 + w) ⟨key, true⟩ else m, [])
  | none =>
    if !alloc || ways.isEmpty then (m, [key])
    else
      let k := slot0 + ways.getD (pick % ways.length) 0
      let back := match NMap.find m k with | some l => if l.dirty then [l.key] else [] | none => []
      (NMap.ins m k ⟨key, write⟩, back ++ (if write && whole then [] else [key]))

/-- The owner of the channel that holds a storage key / 64. -/
def State.keyOwner (s : State) (key : Nat) : Nat :=
  let c := key * 64 / chanBytes
  s.rd (Reg.TILE_CHAN_CFG.owner (chanTile c) (c - firstChan (chanTile c)))

/-- Lines with these storage keys were transferred between controller and HBM: meter 4 of the owners of their channels (R466). -/
def State.meterLines (s : State) (keys : List Nat) : State :=
  upto 64 s (fun p t => t.meter p 4 ((keys.filter (fun k => decide (s.keyOwner k = p))).length))

/-- An access to [a, a + n) of HBM meets the tile store of its tile. `alloc` is false for one marked nt and for a Hairline weight read
(R116). Which way of the owner's a line replaces is free (R212). -/
def State.tsAccess (s : State) (a n : Nat) (write alloc : Bool) : State :=
  if isHbm a && decide (0 < n) then
    let tile := chanTile (a / chanBytes)
    let ways := s.tsWays tile (s.hbmOwner a)
    let r := upto (lineCount a n) (s.mem.ts, ([] : List Nat)) (fun i st =>
      let line := a / 64 * 64 + 64 * i
      let y := tsLine ((tile * 98304 + Config.tsHash (line / 64) % 98304) * 16) (s.memKey line / 64) ways (Config.freeNat (s.free + i)) write
        (decide (a ≤ line) && decide (line + 64 ≤ a + n)) alloc st.1
      (y.1, st.2 ++ y.2))
    (({ s with mem := { s.mem with ts := r.1 } }).took (lineCount a n)).meterLines r.2
  else s

/-- Drop the lines of a tile store that `out` names, writing back the dirty ones (R215). -/
def State.tsDrop (s : State) (out : Nat → TsLine → Bool) : State :=
  let gone := s.mem.ts.filter (fun e => out e.1 e.2)
  ({ s with mem := { s.mem with ts := s.mem.ts.filter (fun e => !out e.1 e.2) } }).meterLines
    (gone.filterMap (fun (e : Nat × TsLine) => if e.2.dirty then some e.2.key else none))

/-- The lines of the ways that a COMMIT took from masks of compute tile n have been written back and are dropped (R215). -/
def State.wayFlushed (s : State) (n : Nat) : State :=
  let out := s.mem.flush.filter (fun e => decide (e.1 = n))
  let s := s.tsDrop (fun k l => decide (k / 16 / 98304 = n) && out.any (fun e => decide (e.2.2 = k % 16) && decide (s.keyOwner l.key = e.2.1)))
  ({ s with mem := { s.mem with flush := s.mem.flush.filter (fun e => decide (e.1 ≠ n)), flushAt := NMap.del s.mem.flushAt n } }).wr
    (Reg.TILE_TS_STAT.flushing n) 0

/-- The write-backs of compute tiles that are due at this cycle: each takes at most 1.2 ms. -/
def State.flushDue (s : State) : State :=
  each s.mem.flushAt s (fun e t => if e.2 + 1920000 ≤ t.time.cnt then t.wayFlushed e.1 else t)

/-! ### The package mesh (R25, R26, R30) -/

/-- The ends of the mesh links, numbered in the order of R25. Nodes 0 to 3 are P-tiles, 4 to 7 G-tiles, 8 and 9 radio tiles. -/
def meshLinks : List (Nat × Nat) :=
  [(0, 4), (4, 5), (5, 1), (2, 6), (6, 7), (7, 3), (0, 2), (4, 6), (5, 7), (1, 3), (8, 0), (8, 2), (9, 1), (9, 3)]

/-- The compute tiles of row y from west to east, the row of a compute tile, and its place in it. -/
def meshRow (y : Nat) : List Nat := if y = 0 then [0, 4, 5, 1] else [2, 6, 7, 3]
def meshY (n : Nat) : Nat := n / 2 % 2
def meshX (n : Nat) : Nat := if n < 4 then (if n % 2 = 0 then 0 else 3) else 1 + n % 2
/-- The place in every row of the P-tile that a radio tile is adjacent to. -/
def meshEdge (n : Nat) : Nat := if n = 8 then 0 else 3

/-- The tiles of row y from place i to place j. -/
def meshWalk (y i j : Nat) : List Nat :=
  if i ≤ j then ((meshRow y).drop i).take (j - i + 1) else (((meshRow y).drop j).take (i - j + 1)).reverse

/-- The nodes a packet from a to b visits (R26). -/
def meshNodes (a b : Nat) : List Nat :=
  if a = b then [a]
  else if 8 ≤ a ∧ 8 ≤ b then a :: meshWalk 0 (meshEdge a) (meshEdge b) ++ [b]
  else if 8 ≤ a then a :: meshWalk (meshY b) (meshEdge a) (meshX b)
  else if 8 ≤ b then meshWalk (meshY a) (meshX a) (meshEdge b) ++ [b]
  else meshWalk (meshY a) (meshX a) (meshX b) ++ (if meshY a = meshY b then [] else [b])

/-- The links of the path from a to b, by number. -/
def meshPath (a b : Nat) : List Nat :=
  let l := meshNodes a b
  (l.zip l.tail).filterMap (fun e => meshLinks.findIdx? (fun x => x == e || x == (e.2, e.1)))

/-- The first failed link on the path from a to b. -/
def State.meshCut (s : State) (a b : Nat) : Option Nat := (meshPath a b).find? (fun k => s.mesh.failed.contains k)

/-- The tile that device local address a lies on. -/
def addrNode (a : Nat) : Nat := if isHbm a then chanTile (a / chanBytes) else (a - 0x20000000000) / 0x1000000

/-- Is a, from an agent of tile `node`, behind a failed link? -/
def State.meshLost (s : State) (node a : Nat) : Bool := !s.mesh.failed.isEmpty && (s.meshCut node (addrNode a)).isSome

/-- The record of n loads, stores or packets from node a to node b that met a failed link (R30). -/
def State.meshRecord (s : State) (a b n : Nat) : State :=
  match s.meshCut a b with
  | some k => s.fault { code := 0x8001, part := 0x40, unit := k, count := n }
  | none => s

/-- The records of the accesses at addresses `l` from an agent of tile `node`: one for each tile behind a failed link. -/
def State.meshRecords (s : State) (node : Nat) (l : List Nat) : State :=
  if s.mesh.failed.isEmpty then s
  else
    each (List.range 10) s (fun b t =>
      let n := (l.filter (fun a => decide (addrNode a = b) && s.meshLost node a)).length
      if n = 0 then t else t.meshRecord node b n)

/-- The error value 0xDEAD_DEAD over n bytes from address a (R30). -/
def deadBytes (a n : Nat) : List Nat := (List.range n).map (fun i => if (a + i) % 2 = 0 then 0xAD else 0xDE)

/-- The n bytes at a as an agent of tile `node` reads them, and as it writes them. -/
def State.ldVia (s : State) (node a n : Nat) : List Nat := if s.meshLost node a then deadBytes a n else s.ldBytes a n
def State.stVia (s : State) (node a : Nat) (l : List Nat) : State := if s.meshLost node a then s else s.stBytes a l

/-- The pieces of [a, a + n) by line: address and length. -/
def linePieces (a n : Nat) : List (Nat × Nat) :=
  (List.range (lineCount a n)).map (fun i => let lo := max a (a / 64 * 64 + 64 * i); (lo, min (a + n) (a / 64 * 64 + 64 * i + 64) - lo))

/-- A range that may lie on several tiles, as an agent of tile `node` reads and writes it: line by line where a link has failed, with the
records. -/
def State.ldRange (s : State) (node a n : Nat) : List Nat :=
  if s.mesh.failed.isEmpty then s.ldBytes a n else (linePieces a n).flatMap (fun e => s.ldVia node e.1 e.2)
def State.stRange (s : State) (node a : Nat) (l : List Nat) : State :=
  if s.mesh.failed.isEmpty then s.stBytes a l
  else each (linePieces a l.length) s (fun e t => t.stVia node e.1 ((l.drop (e.1 - a)).take e.2))
def State.rangeRecords (s : State) (node a n : Nat) : State := s.meshRecords node ((linePieces a n).map (fun e => e.1))

/-! ### Zeroing, scrubbing and failing channels -/

/-- Zero a whole channel (R210, R211): its bytes and its poison. -/
def State.zeroChannel (s : State) (ch : Nat) : State :=
  { s with mem := { s.mem with
                    bytes := Mem.zero s.mem.bytes (ch * chanBytes) ((ch + 1) * chanBytes),
                    bad := NMap.clearRange s.mem.bad (ch * chanBytes / 64) ((ch + 1) * chanBytes / 64) } }

/-- Zero Reservoir granule g of base die d (R413). -/
def State.zeroRsv (s : State) (d g : Nat) : State :=
  let a := 0x20000000000 + d * 0x1000000 + g * 65536
  { s with mem := { s.mem with bytes := Mem.zero s.mem.bytes a (a + 65536), bad := NMap.clearRange s.mem.bad (a / 64) (a / 64 + 1024) } }

/-- A unit's zeroing has ended (kind and index as in PartSt.zeroWait): a partition that waited for it last becomes QUIESCED, or ABSENT
where it is being removed (R459, R460). -/
def State.zeroSettle (s : State) (kind i : Nat) : State :=
  each s.part.zeroWait s (fun e t =>
    let l := e.2.filter (fun x => decide (x ≠ (kind, i)))
    let t := { t with part := { t.part with zeroWait := if l.isEmpty then NMap.del t.part.zeroWait e.1 else NMap.ins t.part.zeroWait e.1 l } }
    if l.isEmpty then t.wr (Reg.PART_STAT.state e.1) (if t.partState e.1 = 4 then 3 else 0) else t)

/-- The owner or ilv_code of local channel k of tile n changed, or its partition was reset (R210, R459): its tile-store lines are
invalidated without write-back, the scrub starts and its scrubbing bit sets. The bytes are zero from here on: no access is served
before the scrub completes. -/
def State.startScrub (s : State) (n k : Nat) : State :=
  let ch := firstChan n + k
  let s := s.zeroChannel ch
  let s : State := { s with mem := { s.mem with ts := s.mem.ts.filter (fun (e : Nat × TsLine) => decide (e.2.key * 64 / chanBytes ≠ ch)) } }
  ({ s with mem := { s.mem with scrubAt := NMap.put 0 s.mem.scrubAt ch s.time.cnt } }).wr (Reg.TILE_CHAN_STAT.scrubbing n k) 1

/-- A channel is declared failed (R223): its set becomes inconsistent. -/
def State.failChannel (s : State) (ch : Nat) : State :=
  let n := chanTile ch
  let k := ch - firstChan n
  if !s.chanPresent ch || s.on (Reg.TILE_CHAN_STAT.failed n k) then s
  else
    (s.wr (Reg.TILE_CHAN_STAT.failed n k) 1).fault { code := 0x8002, die := n, unit := k, arg1 := ch * chanBytes }

end Sys2Proof.Machine
end

