-- ==== Sys2Proof/Machine/Sem.lean ====
section
/-! DEFINITION. Semaphores at their homes (R195): values, registration, grants, ownership. -/

namespace Sys2Proof.Machine

/-- Is semaphore k owned by partition p (R194, R448)? -/
def State.semOwned (s : State) (k p : Nat) : Bool :=
  decide (k < 16384) && s.on (Reg.PART_SEM_OWN.valid (k / 512) (k / 64 % 8)) &&
    decide (s.rd (Reg.PART_SEM_OWN.partition (k / 512) (k / 64 % 8)) = p)

/-- The home base die of semaphore k: 0–7 compute tiles, 8 and 9 radio tiles (R195). -/
def semHome (k : Nat) : Nat := if k < 1024 then 8 else if k < 2048 then 9 else (k - 2048) / 1792

/-- The semaphore that a_g[11:0] = k names over Flonil (R195). -/
def fabSem (k : Nat) : Nat := 2048 + 1792 * (k / 512) + 1280 + k % 512

def State.semVal (s : State) (k : Nat) : Nat := NMap.get 0 s.sem.val k
def State.semWaiters (s : State) (k : Nat) : List Waiter := NMap.get [] s.sem.waiters k

def State.setSem (s : State) (k v : Nat) : State := { s with sem := { s.sem with val := NMap.put 0 s.sem.val k v } }
def State.setWaiters (s : State) (k : Nat) (l : List Waiter) : State :=
  { s with sem := { s.sem with waiters := NMap.put [] s.sem.waiters k l } }

/-- Registered waiters are granted in order, one per unit (R195): each grant starts on its way. -/
def State.semServe (s : State) (k : Nat) : Nat → State
  | 0 => s
  | n + 1 =>
    match s.semWaiters k with
    | [] => s
    | w :: r =>
      if s.semVal k = 0 then s
      else
        let s := (s.setSem k (s.semVal k - 1)).setWaiters k r
        State.semServe { s with sem := { s.sem with grants := s.sem.grants ++ [⟨k, w⟩] } } k n

/-- Add a count, saturating at 0xFFFF_FFFF, and serve the waiters (R194, R195). -/
def State.semPost (s : State) (k n : Nat) : State :=
  if n = 0 then s
  else (s.setSem k (satAdd (s.semVal k) n 32)).semServe k ((s.semWaiters k).length)

/-- Decrement a non-zero semaphore. -/
def State.semDec (s : State) (k : Nat) : State := s.setSem k (s.semVal k - 1)

/-- Register a waiter at a semaphore that read zero. -/
def State.semRegister (s : State) (k : Nat) (w : Waiter) : State := s.setWaiters k (s.semWaiters k ++ [w])

/-- Withdraw a registration. -/
def State.semWithdraw (s : State) (k : Nat) (w : Waiter) : State :=
  s.setWaiters k ((s.semWaiters k).filter (fun x => decide (x ≠ w)))

/-- Is the waiter registered there? -/
def State.semRegistered (s : State) (k : Nat) (w : Waiter) : Bool := (s.semWaiters k).contains w

/-- Zero the semaphores of group g and drop their registrations without a grant (R195, R448); a barrier's arr_sem registers
again at this cycle (R195), so its registration stays. -/
def State.semZeroGroup (s : State) (g : Nat) : State :=
  let keep := fun (w : Waiter) => match w with | .barrier _ => true | _ => false
  let w := (s.sem.waiters.map (fun e => if 64 * g ≤ e.1 ∧ e.1 < 64 * g + 64 then (e.1, e.2.filter keep) else e)).filter
    (fun e => !e.2.isEmpty)
  { s with sem := { s.sem with val := NMap.clearRange s.sem.val (64 * g) (64 * g + 64), waiters := w } }

end Sys2Proof.Machine
end

