-- ==== Sys2Proof/Machine/Fab.lean ====
section
/-! DEFINITION. Sending on Flonil (R395 to R399, R404, R405): routes, packets, outstanding remote operations, reservations. -/

namespace Sys2Proof.Machine

/-- This package's device ID (R204). -/
def State.devId (s : State) : Nat := s.rd Reg.GLB_DEVICE_ID.device_id

/-- Is a packet type a reply (R400)? -/
def isReply (t : Nat) : Bool := decide (0x80 ≤ t)

/-- Is port k UP (R394)? -/
def State.portUp (s : State) (k : Nat) : Bool := s.rd (Reg.FAB_PORT_STAT.state k) == 4

/-- The ports of a route entry; none where the entry is invalid (R395, R418). -/
def State.routePorts (s : State) (dst : Nat) : List Nat :=
  let v := if dst / 256 = s.devId / 256 then
      (s.on (Reg.FAB_ROUTE_POD.valid (dst % 256)), s.rd (Reg.FAB_ROUTE_POD.count_m1 (dst % 256)),
        [s.rd (Reg.FAB_ROUTE_POD.port0 (dst % 256)), s.rd (Reg.FAB_ROUTE_POD.port1 (dst % 256)), s.rd (Reg.FAB_ROUTE_POD.port2 (dst % 256)),
          s.rd (Reg.FAB_ROUTE_POD.port3 (dst % 256))])
    else
      (decide (dst / 256 < 240) && s.on (Reg.FAB_ROUTE_EXT.valid (dst / 256)), s.rd (Reg.FAB_ROUTE_EXT.count_m1 (dst / 256)),
        [s.rd (Reg.FAB_ROUTE_EXT.port0 (dst / 256)), s.rd (Reg.FAB_ROUTE_EXT.port1 (dst / 256)), s.rd (Reg.FAB_ROUTE_EXT.port2 (dst / 256)),
          s.rd (Reg.FAB_ROUTE_EXT.port3 (dst / 256))])
  let ports := v.2.2.take (v.2.1 + 1)
  if v.1 && decide (v.2.2.headD 63 < 36) then (ports.filter (fun k => decide (k < 36))).filter s.portUp else []

/-- The port a packet from src to dst leaves by: index h mod u among the listed ports that are UP (R395). -/
def State.routeOf (s : State) (src dst : Nat) : Option Nat :=
  let l := s.routePorts dst
  if l.isEmpty then none else l[(src * 40503 + dst) % 65536 % l.length]?

/-- Bytes of a packet on a link: its header and its payload (R399). -/
def packetSize (p : Packet) : Nat := 32 + p.payload.length

/-- The partition whose valid FAB_DOMAIN entry holds a domain, and only one does (R402). -/
def State.domainPart (s : State) (d : Nat) : Option Nat :=
  match (List.range 64).filter (fun p => s.on (Reg.FAB_DOMAIN.valid p) && decide (s.rd (Reg.FAB_DOMAIN.domain p) = d)) with
  | [p] => some p
  | _ => none

/-- A packet leaves by a port: a dateline moves it to the other link channel of its kind (R397); its bytes count in its
domain's partition (R466). -/
def State.emit (s : State) (port lvc : Nat) (p : Packet) : State :=
  let lvc := if s.on (Reg.FAB_PORT_CFG.dateline port) && lvc % 2 == 0 then lvc + 1 else lvc
  let s := { s with fab := { s.fab with tx := s.fab.tx ++ [Sent.mk port lvc p] } }
  match s.domainPart p.domain with
  | some q => s.meter q 5 (packetSize p)
  | none => s

/-- The tile of a Flonil port (R391). -/
def portTile (k : Nat) : Nat := if k < 32 then k / 4 else 8 + (k - 32) / 2

/-- A packet crosses the mesh from tile a to tile b: behind a failed link it is dropped and recorded (R30). -/
def State.meshPass (s : State) (a b : Nat) (go : State → State) : State :=
  if (s.meshCut a b).isSome then s.meshRecord a b 1 else go s

/-- Route a packet onward; with no port UP it is dropped and counted (R395). Multicast packets and packets for this package stay
on it, at port 36. `node`: the tile whose agent sends it; where that is not said, and a mesh link has failed, a free value. -/
def State.routeFrom (s : State) (lvc : Nat) (p : Packet) (node : Option Nat := none) : State :=
  if p.dst = s.devId ∨ 0xF000 ≤ p.dst then { s with fab := { s.fab with tx := s.fab.tx ++ [Sent.mk 36 lvc p] } }
  else
    match s.routeOf p.src p.dst with
    | some k =>
      if s.mesh.failed.isEmpty then s.emit k lvc p
      else (s.took 1).meshPass (match node with | some n => n | none => Config.freeNat s.free % 10) (portTile k) (fun t => t.emit k lvc p)
    | none => s.inc Reg.FAB_STAT2.no_route 1

/-- Send a packet of this package: replies on LVC0, requests on LVC2. -/
def State.send (s : State) (p : Packet) (node : Option Nat := none) : State := s.routeFrom (if isReply p.type then 0 else 2) p node

/-- The remote-access bound B and the retry interval in cycles (R404, R405). -/
def State.bound (s : State) : Nat := usCycles (s.rd Reg.FAB_CFG.bound_us)
def State.retryGap (s : State) : Nat := usCycles (s.rd Reg.FAB_CFG.retry_us_m1 + 1)

/-- The next sequence number towards a device. -/
def State.nextSeq (s : State) (dev : Nat) : Nat := NMap.get 0 s.fab.seqs dev

/-- A blank request of partition p to a global address. -/
def State.request (s : State) (type part ga : Nat) : Packet where
  type := type
  poison := false
  cp := NMap.get false s.part.copper part
  retry := false
  lines := 0
  dst := ga / 281474976710656 % 65536
  src := s.devId
  domain := s.rd (Reg.FAB_DOMAIN.domain part)
  addr := ga % 281474976710656
  age := 0
  tag := 0
  seq := 0
  rop := 0
  fmt := 0
  w64 := false
  status := 0
  var := 0
  count := 0
  kind := 0
  check := 0
  payload := []

/-- The reply to a request (R399, R400): it goes back to the source with the request's address, tag, sequence number and kind. -/
def State.replyTo (s : State) (p : Packet) (type status : Nat) (payload : List Nat) : Packet :=
  { p with type := type, poison := false, retry := false, lines := cdiv payload.length 64 - 1, dst := p.src, src := s.devId, age := 0,
           status := status, var := 0, count := 0, check := 0, payload := payload }

/-- Acknowledge a request with a status: 0 OK, 1 REFUSED, 2 POISON, 3 BUSY, 4 INCOMPLETE. -/
def State.ack (s : State) (p : Packet) (status : Nat) : State := s.send (s.replyTo p 0x82 status [])

/-- A request is refused at the target (R402): counted, and answered with REFUSED. -/
def State.refuse (s : State) (p : Packet) (type : Nat) : State :=
  (s.inc Reg.FAB_STAT2.refused 1).send (s.replyTo p type 1 [])

/-- Send a request and hold it outstanding until its reply or B (R404). It comes from tile `node`, or from its bank's tile. -/
def State.launchOp (s : State) (p : Packet) (part ga : Nat) (bank : Option Nat) (reg : Option CReg) (line bytes pd group tag : Nat)
    (node : Option Nat := none) : State :=
  let q := s.nextSeq p.dst
  let p := { p with seq := q, lines := cdiv p.payload.length 64 - 1 }
  let o : RemOp := ⟨q, p.type, p.dst, part, ga, bank, reg, false, line, bytes, pd, group, tag, s.time.cnt + s.bound, s.time.cnt + s.retryGap, s.time.cnt, p⟩
  let hz := if p.type = 5 then NMap.put [] s.fab.horizon p.dst (NMap.get [] s.fab.horizon p.dst ++ [(q, s.time.cnt, false)]) else s.fab.horizon
  ({ s with fab := { s.fab with out := s.fab.out ++ [o], seqs := NMap.put 0 s.fab.seqs p.dst ((q + 1) % 4294967296), horizon := hz } }).send p (match node with | some n => some n | none => bank.map (fun k => k / 64))

/-- The ports to which this package copies a packet of group g that arrived on `port` (R412). -/
def State.mcastPorts (s : State) (g port : Nat) : List Nat :=
  (List.range 36).filter (fun k => bit (s.rd (Reg.FAB_MCAST.port_mask g)) k && decide (k ≠ port))

/-- Copies leave by the ports that are UP, on the link channel of their arrival or the one that a dateline gives (R397). -/
def State.mcastCopies (s : State) (ports : List Nat) (lvc : Nat) (p : Packet) : State :=
  each (ports.filter s.portUp) s (fun k t => t.emit k lvc p)

/-- Note that the source `who` changed n bytes at a in this tick (R155). -/
def State.touch (s : State) (a n who : Nat) : State :=
  { s with fab := { s.fab with touched := s.fab.touched ++ [(s.memKey a, n, who)] } }

/-- The n bytes at a are overwritten: results formed there begin anew (R155). -/
def State.overwrite (s : State) (a n who : Nat) : State :=
  let t := s.touch a n who
  upto ((a % 64 + n + 63) / 64) t (fun i t => { t with fab := { t.fab with formed := NMap.del t.fab.formed (t.memKey (a / 64 * 64 + 64 * i) / 64) } })

/-- A floating-point contribution of source `who` to the line at a: 1 where the line now has contributions of two, counted once (R155). -/
def State.contribute (s : State) (a who : Nat) : State × Nat :=
  let k := s.memKey a / 64
  let put := fun (v : Nat × Bool) => ({ s with fab := { s.fab with formed := NMap.ins s.fab.formed k v } } : State)
  match NMap.find s.fab.formed k with
  | none => (put (who, false), 0)
  | some (w, c) => if c || w == who then (s, 0) else (put (w, true), 1)

/-- Has another source changed any of n bytes at a earlier in this tick? -/
def State.contended (s : State) (a n who : Nat) : Bool :=
  let k := s.memKey a
  s.fab.touched.any (fun e => decide (e.1 < k + n) && decide (k < e.1 + e.2.1) && decide (e.2.2 ≠ who))

/-- The lifetime of a request is over (R406): its age exceeds 250 µs. -/
def tooOld (p : Packet) : Bool := decide (250000 < 64 * p.age)

/-- A fresh number for one instruction's lines. -/
def State.newGroup (s : State) : State := { s with fab := { s.fab with group := s.fab.group + 1 } }

/-- Atomics still in the horizon of a device (R408): from the oldest on, those whose reply came or bound expired and that are
2 ms old have left. -/
def State.pruneHorizon (s : State) (dev : Nat) : State :=
  let keep := (NMap.get [] s.fab.horizon dev).dropWhile (fun e => e.2.2 && decide (e.2.1 + msCycles 2 ≤ s.time.cnt))
  { s with fab := { s.fab with horizon := NMap.put [] s.fab.horizon dev keep } }

/-- A semaphore post to another package, or to this one by its global address (R191, R194). -/
def State.sendPost (s : State) (part ga n : Nat) (bank : Option Nat) (pd tag ctx : Nat) : State :=
  let s := s.newGroup
  s.launchOp { s.request 6 part ga with payload := leBytes n 4, tag := ctx } part ga bank none 0 0 pd s.fab.group tag

/-! ### Reservations (R414) -/

/-- Granules of base die d that are in the pool by FAB_RSV_OWN. -/
def State.poolGranules (s : State) (d : Nat) : List Nat :=
  (List.range (if d < 8 then 128 else 64)).filter (fun g =>
    s.on (Reg.FAB_RSV_OWN.pool d (g / 8) (g % 8)) && !s.on (Reg.FAB_RSV_OWN.valid d (g / 8) (g % 8)))

/-- Granules of base die d that leases hold. -/
def State.leased (s : State) (d : Nat) : List Nat := (s.fab.leases.filter (fun l => decide (l.die = d))).flatMap (fun l => l.granules)

/-- Show the pool of base die d in FAB_RSV_STAT (R418). -/
def State.showPool (s : State) (d : Nat) : State :=
  let held := s.leased d
  (s.wr (Reg.FAB_RSV_STAT.reserved_now d) held.length).wr (Reg.FAB_RSV_STAT.pool_free d)
    ((s.poolGranules d).filter (fun g => !held.contains g)).length

/-- Return a lease's granules to the pool. -/
def State.dropLease (s : State) (l : Lease) : State :=
  ({ s with fab := { s.fab with leases := s.fab.leases.filter (fun x => decide (x ≠ l)) } }).showPool l.die

/-- RSV_REQ at base die d: the granules granted (R414). The same key renews its lease; a refusal counts in denials. Which free
granules are taken is not given: the lowest. -/
def State.reserve (s : State) (d key domain n ms : Nat) : State × List Nat :=
  let expiry := s.time.cnt + msCycles ms
  match s.fab.leases.find? (fun l => decide (l.die = d) && decide (l.key = key) && decide (l.domain = domain)) with
  | some l =>
    ({ s with fab := { s.fab with leases := s.fab.leases.map (fun x => if x = l then { l with expiry := expiry } else x) } }, l.granules)
  | none =>
    let held := s.leased d
    let free := (s.poolGranules d).filter (fun g => !held.contains g)
    if n = 0 ∨ 64 < n ∨ free.length < n then (s.inc (Reg.FAB_RSV_STAT.denials d) 1, [])
    else
      (({ s with fab := { s.fab with leases := s.fab.leases ++ [Lease.mk d key domain (free.take n) expiry] } }).showPool d, free.take n)

end Sys2Proof.Machine
end

