-- ==== Sys2Proof/Machine/Context.lean ====
section
/-! DEFINITION. Contexts on the cores: descriptors, register banks, starting, pausing, halting, faulting and exiting a Stroke
(R60 to R69, R165 to R171, R554, R555). -/

namespace Sys2Proof.Machine

/-! ### Descriptor fields (R60) -/

def Desc.cls (d : Desc) : Nat := bits d.raw 0 3
def Desc.radio (d : Desc) : Bool := d.cls == 0
def Desc.dynamic (d : Desc) : Bool := bit d.raw 3
def Desc.slotFirst (d : Desc) : Bool := bit d.raw 4
def Desc.target (d : Desc) : Nat := bits d.raw 6 7
def Desc.part (d : Desc) : Nat := bits d.raw 16 6
def Desc.ctx (d : Desc) : Nat := bits d.raw 22 12
def Desc.offset (d : Desc) : Nat := bits d.raw 34 21
def Desc.budget (d : Desc) : Nat := bits d.raw 55 21 + 1
def Desc.cell (d : Desc) : Nat := bits d.raw 76 10
def Desc.waitSem (d : Desc) : Nat := bits d.raw 86 14
def Desc.waitEn (d : Desc) : Bool := bit d.raw 100
def Desc.postSem (d : Desc) : Nat := bits d.raw 101 14
def Desc.postEn (d : Desc) : Bool := bit d.raw 115
def Desc.entry (d : Desc) : Nat := bits d.raw 128 32
def Desc.arg (d : Desc) : Nat := bits d.raw 160 48
def Desc.tag (d : Desc) : Nat := bits d.raw 208 32
/-- A reserved bit of the descriptor is set. -/
def Desc.rsvdSet (d : Desc) : Bool :=
  bit d.raw 5 || decide (bits d.raw 13 3 ≠ 0) || decide (bits d.raw 116 12 ≠ 0) || decide (bits d.raw 240 16 ≠ 0)

/-! ### Program slots and banks -/

def State.tileProg (s : State) (n : Nat) : List Slot := NMap.get [] s.tick.prog n
def State.setTileProg (s : State) (n : Nat) (l : List Slot) : State :=
  { s with tick := { s.tick with prog := NMap.put [] s.tick.prog n l } }
def State.slotAt (s : State) (n i : Nat) : Option Slot := (s.tileProg n)[i]?
def State.modSlot (s : State) (n i : Nat) (f : Slot → Slot) : State :=
  match s.slotAt n i with
  | some x => s.setTileProg n (listSet (s.tileProg n) i (f x))
  | none => s
def State.setPhase (s : State) (n i : Nat) (p : Phase) : State := s.modSlot n i (fun x => { x with phase := p })

/-- The key of register bank b of core c of compute tile n. -/
def bankKey (n c b : Nat) : Nat := (16 * n + c) * 4 + b
def keyCore (k : Nat) : Nat := k / 4
def keyTile (k : Nat) : Nat := k / 64

def State.bank (s : State) (k : Nat) : Option Bank := NMap.find s.core.banks k
def State.setBank (s : State) (k : Nat) (b : Bank) : State := { s with core := { s.core with banks := NMap.ins s.core.banks k b } }
def State.delBank (s : State) (k : Nat) : State := { s with core := { s.core with banks := NMap.del s.core.banks k } }
def State.modBank (s : State) (k : Nat) (f : Bank → Bank) : State :=
  match s.bank k with
  | some b => s.setBank k (f b)
  | none => s

/-- A fresh register bank for a Stroke (R169): a0 holds arg_addr, s1 TICK_NUM, everything else zero. -/
def freshBank (d : Desc) (slot : Option Nat) (live : Bool) (tick : Nat) : Bank where
  part := d.part
  ctx := d.ctx
  slot := slot
  live := live
  d := d
  pc := d.entry
  s := NMap.put 0 [] 1 tick
  a := NMap.put 0 [] 0 d.arg
  v := []
  p := []
  flags := 0
  nlw := []
  hlv := none
  grants := []
  dmas := []
  hold := .free
  queue := []
  resumed := false
  issued := 0
  writes := []
  dests := []
  branch := none
  badJump := false
  lastIssue := 0

/-- The bank of context (p, x) on core c of tile n, if it holds one there. -/
def State.ctxBank (s : State) (n c p x : Nat) : Option Nat :=
  ((List.range 4).map (bankKey n c)).find? (fun k =>
    match s.bank k with | some b => decide (b.part = p) && decide (b.ctx = x) | none => false)

/-- The home core of context (p, x) on tile n: where it holds a paused state (R67). -/
def State.homeCore (s : State) (n p x : Nat) : Option Nat :=
  (List.range 16).find? (fun c =>
    match s.ctxBank n c p x with
    | some k => (match s.bank k with | some b => b.slot.isNone | none => false)
    | none => false)

/-- Banks partition p holds on core c of tile n. -/
def State.banksHeld (s : State) (n c p : Nat) : Nat :=
  ((List.range 4).filter (fun b => match s.bank (bankKey n c b) with | some x => decide (x.part = p) | none => false)).length

/-! ### Cells (R65) -/

/-- Mark a cell's current slot lost; the lost-slot counter advances when the mark is made. -/
def State.markLost (s : State) (cell : Nat) : State :=
  if s.on (Reg.RAD_CELL_STAT.lost cell) then s
  else (s.wr (Reg.RAD_CELL_STAT.lost cell) 1).inc (Reg.RAD_CELL_STAT.lost_slots cell) 1

/-- Is a cell's slot marked lost? -/
def State.cellLost (s : State) (cell : Nat) : Bool := s.on (Reg.RAD_CELL_STAT.lost cell)

/-! ### Freeing a bank (R554) -/

/-- Line j of a DMA: the row and the byte of it, as destination and source addresses. -/
def Dma.line (m : Dma) (j : Nat) : Nat × Nat :=
  let perRow := m.rowBytes / 64
  let r := j / perRow
  let o := j % perRow * 64
  (m.dst + r * m.dstStride + o, m.src + r * m.srcStride + o)

/-- Number of 64-byte lines of a DMA. -/
def Dma.lines (m : Dma) : Nat := m.rows * (m.rowBytes / 64)

/-- Core-store byte i of a core. -/
def storeKey (core a : Nat) : Nat := core * 0x1000000 + a

/-- The bytes of one line of core store. -/
def State.csBytes (s : State) (core a n : Nat) : List Nat := Mem.bytes s.core.store (storeKey core a) n

/-- Write bytes into a core store; bytes written are no longer in parity error (R223). -/
def State.csWrite (s : State) (core a : Nat) (l : List Nat) : State :=
  let m1 := Mem.wrBytes s.core.store (storeKey core a) l
  let m2 := NMap.clearRange s.core.storeBad (storeKey core a) (storeKey core a + l.length)
  { s with core := { s.core with store := m1, storeBad := m2 } }

/-- Put core-store bytes into parity error: poison that a DMA or an engine delivered (R221). -/
def State.csPoison (s : State) (core a n : Nat) : State :=
  let m1 := upto n s.core.storeBad (fun i m => NMap.put false m (storeKey core a + i) true)
  { s with core := { s.core with storeBad := m1 } }

/-- Is any of n core-store bytes at a in parity error? -/
def State.csBad (s : State) (core a n : Nat) : Bool :=
  (s.core.storeBad.any (fun e => decide (storeKey core a ≤ e.1) && decide (e.1 < storeKey core a + n) && e.2))

/-- May line j of a DMA of partition p move? Its device local addresses are checked when it does, too (R209, R210). -/
def State.dmaMay (s : State) (p : Nat) (m : Dma) (j : Nat) : Bool :=
  (m.kind == 1 || s.permit p (m.line j).2 64) && (m.kind == 0 || s.permit p (m.line j).1 64)

/-- Perform line j of a DMA of partition p on core `core`: the bytes of the source reach the destination, poison with them (R221). A line
that may not move does not; behind a failed mesh link one read is the error value and one written is dropped (R30). -/
def State.dmaLine (s : State) (core p : Nat) (m : Dma) (j : Nat) : State :=
  let l := m.line j
  let node := core / 16
  let lost := s.meshLost node l.2
  let data := if m.kind = 1 then (m.data.drop (64 * j)).take 64 else s.ldVia node l.2 64
  let bad := if m.kind = 1 ∨ lost = true then false else s.lineBad l.2
  if !s.dmaMay p m j then s
  else
    let s := s.countPoison l.2 (if m.kind = 1 ∨ lost = true then 0 else 64)
    if m.kind = 0 then
      let s1 := s.csWrite core l.1 data
      if bad then s1.csPoison core l.1 64 else s1
    else if s.meshLost node l.1 then s
    else (s.stBytes l.1 data).setLineBad l.1 bad

/-- A DMA abandoned at its next line: which lines it had written is not defined (R554), so each is free. -/
def State.dmaAbandon (s : State) (core p : Nat) (m : Dma) : State :=
  upto m.lines (s.took m.lines) (fun j t => if bit (Config.freeNat (s.free + j)) 0 then t.dmaLine core p m j else t)

/-- Replies of a bank's remote operations are discarded on arrival, and no record is written for one that fails (R554). -/
def State.orphanRemote (s : State) (k : Nat) : State :=
  { s with fab := { s.fab with out := s.fab.out.map (fun o => if o.bank = some k then { o with bank := none, reg := none, pd := 0, orphan := true } else o) } }

/-- Is a grant in flight on its way to the context on bank k, for its SEMW or for a Stroke of it (R555)? -/
def Bank.awaits (b : Bank) (k : Nat) (g : Grant) : Bool :=
  match g.dest with
  | .bank j => decide (j = k)
  | .stroke n t d _ => decide (16 * n + t = keyCore k) && decide (d.part = b.part) && decide (d.ctx = b.ctx)
  | _ => false

/-- The grants in flight to the context on bank k find none of it when they arrive. -/
def State.dropGrants (s : State) (k : Nat) (b : Bank) : State :=
  { s with sem := { s.sem with grants := s.sem.grants.filter (fun g => !b.awaits k g) } }

/-- Free a bank by a halt, a fault, a RESET, a REMOVE or a fence (R554): what is queued is discarded, DMAs are abandoned, replies
discarded, a registration of its SEMW withdrawn, grants held or in flight dropped (R555). -/
def State.freeBank (s : State) (k : Nat) : State :=
  match s.bank k with
  | none => s
  | some b =>
    let s := each b.dmas s (fun m t => t.dmaAbandon (keyCore k) b.part m)
    let s := match b.hold with
      | .semw q => s.semWithdraw q (.bank k)
      | _ => s
    ((s.orphanRemote k).dropGrants k b).delBank k

/-- Write one register of a bank: s0 and p0 are hard-wired (R165). -/
def Bank.setReg (b : Bank) (r : CReg) (v : Nat) : Bank :=
  match r with
  | .s n => if n = 0 then b else { b with s := NMap.put 0 b.s n (v % 18446744073709551616) }
  | .a n => { b with a := NMap.put 0 b.a n (v % 18446744073709551616) }
  | .v n => { b with v := NMap.put 0 b.v n (v % 2 ^ 8192) }
  | .p n => if n = 0 then b else { b with p := NMap.put 0 b.p n (v % 2 ^ 512) }

/-- The end of a bundle at CNT `now` (R161): the results it formed are written and the PC goes to the next bundle or the branch target. -/
def Bank.commit (now : Nat) (b : Bank) : Bank :=
  if b.issued = 0 then b
  else
    let b1 := each b.writes b (fun w t => t.setReg w.1 w.2)
    { b1 with writes := [], dests := [], issued := 0, branch := none, badJump := false, lastIssue := now + 1,
              pc := match b.branch with | some t => t | none => b.pc + 32 }

/-! ### Accounting -/

def State.rec_ (s : State) (f : TickRec → TickRec) : State := { s with tick := { s.tick with record := f s.tick.record } }

/-- Cycles of a Stroke from its start to now count in its partition's core_cycles, or in radio_cycles on a Scribe or FEC
engine (R466). -/
def State.meterRun (s : State) (n : Nat) (sl : Slot) : State :=
  if n < 8 then s.meter sl.d.part 0 (s.time.cnt - sl.start)
  else s.meter sl.d.part 3 (s.time.cnt - sl.start)

/-- post_sem of a descriptor is incremented. -/
def State.postOf (s : State) (d : Desc) : State := if d.postEn then s.semPost d.postSem 1 else s

/-- post_sem of a halted Stroke is incremented, at the close of its window (R64). -/
def State.postClose (s : State) (sl : Slot) : State := if sl.d.postEn then (s.advance sl.closes).postOf sl.d else s

/-- The wait of a Stroke at its wait_sem. -/
def Slot.waiter (sl : Slot) (n : Nat) : Waiter := .stroke n sl.target sl.d sl.opens

/-- The issue-stop cycle of a Stroke on tile n (R63): by the window as R68 clips it. -/
def Slot.stop (sl : Slot) (n : Nat) : Nat := sl.closes - (if n < 8 then 256 else if sl.target < 64 then 16 else 64)

/-- Is it before the issue-stop cycle of the Stroke in slot `i` of tile n? -/
def State.issueOpen (s : State) (n : Nat) (i : Option Nat) : Bool :=
  match i.bind (s.slotAt n) with
  | some x => decide (s.time.cnt < x.stop n)
  | none => true

/-! ### Ending a Stroke by a fault (R118, R171) -/

/-- A core instruction of the context on bank k faults, of the bundle at `pc`: the record carries tag, core, Nib, PC and address; the
bank is freed; post_sem is not incremented; a RADIO Stroke loses its cell's slot. -/
def State.coreFaultAt (s : State) (k pc code nib arg1 : Nat) : State :=
  match s.bank k with
  | none => s
  | some b =>
    let n := keyTile k
    let s1 := s.fault { code := code, part := b.part, die := n, unit := keyCore k % 16, sub := nib, tag := b.d.tag,
                        arg0 := pc, arg1 := arg1 }
    let s2 := match b.slot with
      | some i => (match s1.slotAt n i with
        | some sl => (s1.meterRun n sl).setPhase n i .spent
        | none => s1)
      | none => s1
    let s3 := s2.freeBank k
    let s4 := if code = 0x301D ∨ code = 0x301E then s3.countedFault (if n < 4 then 1 else 2) (if n < 4 then keyCore k else keyCore k - 64) else s3
    if b.d.radio then s4.markLost b.d.cell else s4

/-- An instruction of the current bundle of bank k faults. -/
def State.coreFault (s : State) (k code nib arg1 : Nat) : State :=
  match s.bank k with
  | none => s
  | some b => s.coreFaultAt k b.pc code nib arg1

/-! ### Starting and resuming -/

/-- Size in bytes of partition p's program region, and its base (PART_PROG, R469). -/
def State.progBase (s : State) (p : Nat) : Nat := s.rd (Reg.PART_PROG.base p) * 65536
def State.progSize (s : State) (p : Nat) : Nat := (s.rd (Reg.PART_PROG.size_64k_m1 p) + 1) * 65536

/-- The release condition of a SEMP or RSEMP (R558): no DMA and no remote operation of the context outstanding. -/
def State.releaseOk (s : State) (k : Nat) : Bool :=
  (match s.bank k with | some b => b.dmas.isEmpty | none => true) && s.fab.out.all (fun o => decide (o.bank ≠ some k))

/-- A Stroke on bank k exits (R170, R555): grants held or in flight go back to their semaphores, then post_sem, and the bank is
free. -/
def State.exitBank (s : State) (k : Nat) : State :=
  match s.bank k with
  | none => s
  | some b =>
    let n := keyTile k
    let back := b.grants ++ (s.sem.grants.filter (b.awaits k)).map (fun g => g.sem)
    let s := each back (s.dropGrants k b) (fun q t => t.semPost q 1)
    let s := s.postOf b.d
    let s := match b.slot with
      | some i => (match s.slotAt n i with
        | some sl =>
          let s := (s.meterRun n sl).setPhase n i .spent
          if b.d.radio then s.rec_ (fun r => { r with slack := min r.slack (sl.closes - s.time.cnt) }) else s
        | none => s)
      | none => s
    s.delBank k

/-- Holds of bank k that have come to their end are released: a SEMP posts once every earlier instruction of the memory queue has
completed, an EXIT exits once every earlier instruction has (R170, R558). Only a Stroke that runs goes on. -/
def State.settle (s : State) (k : Nat) : State :=
  match s.bank k with
  | none => s
  | some b =>
    if !b.live || b.slot.isNone || !s.issueOpen (keyTile k) b.slot then s
    else
      match b.hold with
      | .semp q n =>
        if b.queue.all (fun e => decide (e.slot ≠ 3)) && s.releaseOk k then (s.setBank k { b with hold := .free }).semPost q n else s
      | .exit => if b.issued = 0 ∧ (b.queue.isEmpty && s.releaseOk k) = true then s.exitBank k else s
      | _ => s

/-- A SEMW on bank k meets its semaphore: a held grant passes it at once (R555), a unit is taken, or it registers. -/
def State.semwTry (s : State) (k q : Nat) : State :=
  match s.bank k with
  | none => s
  | some b =>
    if b.grants.contains q then s.setBank k { b with hold := .free, grants := b.grants.erase q }
    else if s.semVal q ≠ 0 then (s.semDec q).setBank k { b with hold := .free }
    else (s.semRegister q (.bank k)).setBank k { b with hold := .semw q }

/-- The context's Stroke in slot i of tile n starts, or resumes the paused state, on bank k at this cycle (R62, R66, R169). -/
def State.launch (s : State) (n i : Nat) (k : Nat) : State :=
  match s.slotAt n i with
  | none => s
  | some sl =>
    let s := (s.modSlot n i (fun x => { x with phase := .running, start := s.time.cnt })).rec_ (fun r => { r with started := r.started + 1 })
    match s.bank k with
    | some b =>
      if b.live then
        -- resume
        let s := s.setBank k { b with slot := some i, d := sl.d, resumed := true }
        match b.hold with
        | .semw q => if b.grants.contains q || s.semOwned q b.part then s.semwTry k q else s.coreFault k 0x3016 0 0
        | _ => s.settle k
      else
        let s := s.setBank k { freshBank sl.d (some i) true s.tickNum with grants := b.grants }
        if sl.d.entry % 32 ≠ 0 ∨ s.progSize sl.d.part ≤ sl.d.entry then s.coreFault k 0x3011 0 (s.progBase sl.d.part + sl.d.entry) else s
    | none =>
      let s := s.setBank k (freshBank sl.d (some i) true s.tickNum)
      if sl.d.entry % 32 ≠ 0 ∨ s.progSize sl.d.part ≤ sl.d.entry then s.coreFault k 0x3011 0 (s.progBase sl.d.part + sl.d.entry) else s

/-- The RADIO descriptors of the running program of tile n that hold a window on target t at cycle c (R68). -/
def State.radioHolds (s : State) (n t c : Nat) : Bool :=
  (s.tileProg n).any (fun x => x.d.radio && decide (x.target = t) && decide (x.opens ≤ c) && decide (c < x.closes))

/-- A free bank for a Stroke of partition p on core c of tile n (R67, R451): bank 0 is for RADIO Strokes on a core that carries
any; a partition stays within its bank limit. `carries`: the live image has a RADIO Stroke on the core. -/
def State.freeBankOf (s : State) (n c : Nat) (d : Desc) (carries : Bool) : Option Nat :=
  if s.rd (Reg.PART_CFG.bank_max_m1 d.part) + 1 ≤ s.banksHeld n c d.part then none
  else
    ((List.range 4).filter (fun b => d.radio || !carries || decide (b ≠ 0))).find? (fun b => (s.bank (bankKey n c b)).isNone)
      |>.map (bankKey n c)

/-- A Stroke on a compute core tries to start: it needs its context's bank (or a free one), then its semaphore (R62, R67). A
bank is set aside while it waits on wait_sem (assumption 12). -/
def State.tryStartCore (s : State) (n i : Nat) (carries : Bool) : State :=
  match s.slotAt n i with
  | none => s
  | some sl =>
    let c := sl.target
    let own := s.ctxBank n c sl.d.part sl.d.ctx
    let busy := match own with
      | some k => (match s.bank k with | some b => b.slot.isSome | none => false)
      | none => false
    match (if busy then none else match own with | some k => some k | none => s.freeBankOf n c sl.d carries) with
    | none => s.modSlot n i (fun x => { x with phase := .waitCore, starved := true })
    | some k =>
      let held := match s.bank k with | some b => b.grants.contains sl.d.waitSem | none => false
      if !sl.d.waitEn then s.launch n i k
      else if held then (s.modBank k (fun b => { b with grants := b.grants.erase sl.d.waitSem })).launch n i k
      else if s.semVal sl.d.waitSem ≠ 0 then (s.semDec sl.d.waitSem).launch n i k
      else
        let s := (s.semRegister sl.d.waitSem (sl.waiter n)).setPhase n i .waitSem
        match s.bank k with
        | some _ => s
        | none => s.setBank k (freshBank sl.d (some i) false s.tickNum)

/-! ### Reaching the budget -/

/-- A RADIO Stroke is halted (R64): bank freed, slot lost, record, post at the close of the window. -/
def State.haltCore (s : State) (n i : Nat) : State :=
  match s.slotAt n i with
  | none => s
  | some sl =>
    let k := s.ctxBank n sl.target sl.d.part sl.d.ctx
    let s := if sl.phase = .running then s.meterRun n sl else s
    let s := s.semWithdraw sl.d.waitSem (sl.waiter n)
    let s := match k with | some k => s.freeBank k | none => s
    let s := (s.setPhase n i .spent).markLost sl.d.cell
    let s := (s.inc Reg.TICK_CNT.halted 1).rec_ (fun r => { r with halted := r.halted + 1 })
    let s := s.fault { code := 0x3001, part := sl.d.part, die := n, unit := sl.target, tag := sl.d.tag, arg0 := sl.d.cell, arg1 := sl.d.addr }
    s.postClose sl

/-- Is every bank of core c of tile n held by a context that has issued no bundle since CNT `since` (R452)? -/
def State.coreStuck (s : State) (n c since : Nat) : Bool :=
  (List.range 4).all (fun b => match s.bank (bankKey n c b) with | some x => decide (x.lastIssue ≤ since) | none => false)

/-- Is a grant for this wait on its way? -/
def State.granted (s : State) (w : Waiter) : Bool := s.sem.grants.any (fun g => decide (g.dest = w))

/-- A non-radio Stroke is paused (R66): the bank keeps its state, with the bundle it is in. One still waiting holds nothing and its bank
is free; where a grant crosses the withdrawal of its wait, it holds a paused state at its first bundle. -/
def State.pauseCore (s : State) (n i : Nat) : State :=
  match s.slotAt n i with
  | none => s
  | some sl =>
    let cnt := fun (t : State) => (t.inc Reg.TICK_CNT.paused 1).rec_ (fun r => { r with paused := r.paused + 1 })
    match sl.phase with
    | .running =>
      let s := cnt ((s.meterRun n sl).setPhase n i .spent)
      (match s.ctxBank n sl.target sl.d.part sl.d.ctx with
       | none => s
       | some k =>
         match s.bank k with
         | none => s
         | some b =>
           let s := match b.hold with | .semw q => s.semWithdraw q (.bank k) | _ => s
           s.setBank k { b with slot := none })
    | .waitSem =>
      let s := cnt ((s.semWithdraw sl.d.waitSem (sl.waiter n)).setPhase n i .spent)
      (match s.ctxBank n sl.target sl.d.part sl.d.ctx with
       | none => s
       | some k =>
         match s.bank k with
         | none => s
         | some b => if b.live then s else if s.granted (sl.waiter n) then s.setBank k { b with live := true, slot := none } else s.delBank k)
    | .waitCore => cnt (s.modSlot n i (fun x => { x with phase := .spent, starved := x.starved && s.coreStuck n x.target x.opens }))
    | _ => s

/-- A Stroke on a compute core reaches its budget (R63). -/
def State.budgetCore (s : State) (n i : Nat) : State :=
  match s.slotAt n i with
  | none => s
  | some sl => if sl.d.radio then s.haltCore n i else s.pauseCore n i

/-! ### Grants (R195, R555) -/

/-- The slot of tile n in which a Stroke of the context on bank k waits at its wait_sem, semaphore q. -/
def State.waitingSlot (s : State) (k q : Nat) (b : Bank) : Option Nat :=
  let n := keyTile k
  (List.range (s.tileProg n).length).find? (fun i =>
    match s.slotAt n i with
    | some x => decide (x.phase = .waitSem) && decide (16 * n + x.target = keyCore k) && decide (x.d.part = b.part) && decide (x.d.ctx = b.ctx) &&
        decide (x.d.waitSem = q)
    | none => false)

/-- A grant of semaphore q reaches the context on bank k: it ends a SEMW of it there, or the wait of its next Stroke at wait_sem, whose
own registration is withdrawn; else the bank holds it (R555). -/
def State.grantBank (s : State) (q k : Nat) : State :=
  match s.bank k with
  | none => s
  | some b =>
    if b.hold = .semw q ∧ b.slot.isSome then (s.semWithdraw q (.bank k)).setBank k { b with hold := .free }
    else
      match s.waitingSlot k q b with
      | some i =>
        (match s.slotAt (keyTile k) i with
         | none => s
         | some x => (s.semWithdraw q (x.waiter (keyTile k))).launch (keyTile k) i k)
      | none => s.setBank k { b with grants := b.grants ++ [q] }

/-- A grant for a Stroke's wait_sem arrives on a compute tile, for the wait of the window that opened at CNT `at_`: that Stroke starts. Where
its wait was withdrawn, a halted RADIO Stroke's grant is dropped (R64); another goes to its context (R66, R555), and with no bank of
the context left it is dropped. -/
def State.grantCore (s : State) (q n target : Nat) (d : Desc) (at_ : Nat) : State :=
  match (List.range (s.tileProg n).length).find? (fun i =>
      match s.slotAt n i with
      | some x => decide (x.phase = .waitSem) && decide (x.waiter n = .stroke n target d at_)
      | none => false) with
  | some i => (match s.ctxBank n target d.part d.ctx with | some k => s.launch n i k | none => s)
  | none => if d.radio then s else (match s.ctxBank n target d.part d.ctx with | some k => s.grantBank q k | none => s)

end Sys2Proof.Machine
end

