-- ==== Sys2Proof/Machine/HostBase.lean ====
section
/-! DEFINITION. Host queues: owners, rings, completion records, the order in which commands start (R492 to R497, R502 to R505). -/

namespace Sys2Proof.Machine

/-! ### Status values (R236, R276, R497) -/

def stSuccess : Nat := 0x0
def stCancelled : Nat := 0x1
def stInvalid : Nat := 0x2
def stTooLong : Nat := 0x3
def stQueueFull : Nat := 0x4
def stDeadline : Nat := 0x5
def stAdapterUnknown : Nat := 0x6
def stSlotBusy : Nat := 0x7
def stVersionAbsent : Nat := 0x8
def stEpochStale : Nat := 0x9
def stNoSpace : Nat := 0xA
def stNoPool : Nat := 0xB
def stGenLost : Nat := 0xC
def stReconfigured : Nat := 0xD
def stUnreadable : Nat := 0xE
def stCtxBusy : Nat := 0x20
def stNoCandidate : Nat := 0x21
def stUnitFenced : Nat := 0x22
def stMemRefused : Nat := 0x40
def stHostFailed : Nat := 0x41
def stFlushed : Nat := 0x42

/-! ### Queues -/

def State.hq_ (s : State) (q : Nat) : HQueue := NMap.get {} s.hq.q q
/-- Set a queue; the register shows how many commands are in flight (R506). -/
def State.setHq (s : State) (q : Nat) (h : HQueue) : State :=
  ({ s with hq := { s.hq with q := NMap.put {} s.hq.q q h } }).wr (Reg.HQ_Q_STAT.inflight q) h.cmds.length

/-- The queue's owner: a partition, 0x40 the manager, else none. -/
def State.hqOwner (s : State) (q : Nat) : Nat := s.rd (Reg.HQ_Q_CFG.owner q)

/-- The PASID of a queue's host accesses (R449, R490); none while it carries no traffic. -/
def State.hqPasid (s : State) (q : Nat) : Option Nat :=
  let o := s.hqOwner q
  if o = 0x40 then s.mgrPasid else if o < 64 then s.partPasid o (s.rd (Reg.HQ_Q_CFG.pasid_idx q)) else none

/-- Is the queue enabled, checked and not stopped? -/
def State.hqLive (s : State) (q : Nat) : Bool :=
  decide (q < 4096) && s.on (Reg.HQ_Q_FLAGS.active q) && !s.on (Reg.HQ_Q_FLAGS.error q)

/-- May the queue fetch: its owner is not QUIESCING, QUIESCED, or going away (R456, R505), and the link is up (R491)? -/
def State.hqMayFetch (s : State) (q : Nat) : Bool :=
  s.hqLive q && s.hostUp && (decide (s.hqOwner q = 0x40) || decide (s.partState (s.hqOwner q) = 1))

def State.sqBase (s : State) (q : Nat) : Nat := s.rd (Reg.HQ_Q_SQ.iova q)
def State.cqBase (s : State) (q : Nat) : Nat := s.rd (Reg.HQ_Q_CQ.iova q)
def State.sqSize (s : State) (q : Nat) : Nat := 2 ^ s.rd (Reg.HQ_Q_CFG.sq_log2 q)
def State.cqSize (s : State) (q : Nat) : Nat := 2 ^ s.rd (Reg.HQ_Q_CFG.cq_log2 q)

/-- HQ.HOST_ACCESS for a queue (R490). -/
def State.hqAccessFault (s : State) (q addr : Nat) : State :=
  s.fault { code := 0x5012, part := s.hqOwner q, unit := q % 256, sub := q / 256 % 16, arg1 := addr }

/-- The queue stops: a failed ring access or a bad tail (R493, R506). -/
def State.hqStop (s : State) (q : Nat) : State := s.wr (Reg.HQ_Q_FLAGS.error q) 1

/-- A failed access to the queue's rings stops it and is recorded. -/
def State.hqRingFail (s : State) (q addr : Nat) : State := (s.hqStop q).hqAccessFault q addr

/-! ### Records -/

/-- Unread records in the completion ring, by the last read count fetched. -/
def State.cqUnread (s : State) (q : Nat) : Nat :=
  ((s.hq_ q).written + 18446744073709551616 - (s.hq_ q).read) % 18446744073709551616

/-- Write a 256-bit record into the completion ring, then the written count (R492, R502). -/
def State.cqPut (s : State) (q rec_ : Nat) : State :=
  let h := s.hq_ q
  let w := (h.written + 1) % 18446744073709551616
  let s := match s.hqPasid q with
    | some pasid => (s.hostWr pasid (s.cqBase q + 64 + 32 * (h.written % s.cqSize q)) 32 rec_).hostWr pasid (s.cqBase q) 8 w
    | none => s
  s.setHq q { (s.hq_ q) with written := w }

/-- The common completion header and the status of a command (R497); `body` holds bits [255:80] in place. -/
def cqRecord (c : HCmd) (status body : Nat) : Nat :=
  setBits (setBits (setBits (setBits (setBits body 0 8 (bits c.raw 0 8)) 8 16 (c.index % 65536)) 24 8 0) 32 32 (bits c.raw 32 32)) 64 16 status

/-! ### Commands in flight -/

def State.hcmd (s : State) (q i : Nat) : Option HCmd := (s.hq_ q).cmds.find? (fun c => decide (c.index = i))

def hOp (c : HCmd) : Nat := bits c.raw 0 8
def hFence (c : HCmd) : Bool := bit c.raw 8
def hQuiet (c : HCmd) : Bool := bit c.raw 9

/-- Opcodes that some unit executes (R232, R498). -/
def hKnown (op : Nat) : Bool := op == 1 || op == 2 || op == 3 || op == 4 || op == 0x10 || op == 0x11 || (decide (0x40 ≤ op) && decide (op ≤ 0x43))

/-- May the command start: everything before it in its queue has started, and with fence everything but posted buffers has
completed (R496, R502)? -/
def State.hStartable (s : State) (q : Nat) (c : HCmd) : Bool :=
  !c.started && (s.hq_ q).cmds.all (fun d => decide (c.index ≤ d.index) || d.posted || (d.started && !hFence c))

/-- Mark a command started, or a buffer posted. -/
def State.hMark (s : State) (q i : Nat) (posted : Bool) : State :=
  let h := s.hq_ q
  s.setHq q { h with cmds := h.cmds.map (fun c => if c.index = i then { c with started := true, posted := posted } else c) }

/-- Remove a command from those in flight. -/
def State.hDrop (s : State) (q i : Nat) : State :=
  let h := s.hq_ q
  s.setHq q { h with cmds := h.cmds.filter (fun c => decide (c.index ≠ i)) }

/-- The final record of a command, unless it is quiet and succeeded; its slot is released. -/
def State.hFinal (s : State) (q : Nat) (c : HCmd) (status body : Nat) : State :=
  let s := s.hDrop q c.index
  if hQuiet c && status == stSuccess then s else s.cqPut q (cqRecord c status body)

/-- Commands of an unknown opcode complete as they come to their turn (R498). -/
def State.hqAdvance (s : State) (q : Nat) : Nat → State
  | 0 => s
  | n + 1 =>
    match (s.hq_ q).cmds.find? (fun c => !hKnown (hOp c) && s.hStartable q c) with
    | some c => State.hqAdvance (s.hFinal q c stInvalid 0) q n
    | none => s

/-- A command completes with its final record (R495 to R497). -/
def State.hComplete (s : State) (q : Nat) (c : HCmd) (status body : Nat) : State :=
  (s.hFinal q c status body).hqAdvance q 256

/-- An interim record: only into a slot that no reservation holds, else dropped and counted (R495). -/
def State.hInterim (s : State) (q : Nat) (c : HCmd) (status body : Nat) : State :=
  if s.cqUnread q + (s.hq_ q).cmds.length < s.cqSize q then s.cqPut q (cqRecord c status body)
  else s.inc (Reg.HQ_Q_STAT.interim_dropped q) 1

/-- Run the body of a host command of opcode `op` that is in flight in queue q at ring position i, when it may start. -/
def withHostCmd (op q i : Nat) (s : State) (body : HCmd → State) : State :=
  match s.hcmd q i with
  | none => s
  | some c => if hOp c = op ∧ s.hStartable q c = true then (body c).hqAdvance q 256 else s

/-- Reserved header bits and the reserved body bits given by `mask` are zero (R498). -/
def hReservedOk (c : HCmd) (mask : Nat) : Bool :=
  bits c.raw 10 22 == 0 && Nat.land c.raw mask == 0

end Sys2Proof.Machine
end

