-- ==== Sys2Proof/Machine/Float.lean ====
section
/-! DEFINITION. Exact values of the number formats, and the one rounding every conversion and sum uses (R119 to R132, R143). -/

namespace Sys2Proof.Machine

/-- The value of an element: a NaN, an infinity, or ±m·2^e (m = 0: a signed zero). -/
inductive Val where
  | nan
  | inf (neg : Bool)
  | fin (neg : Bool) (m : Nat) (e : Int)
  deriving DecidableEq, Repr

/-- Parameters of a floating-point format (R120): exponent and mantissa bits, bias; `special` 0 IEEE infinities and NaNs,
1 E4M3 (one NaN pattern, no infinity), 2 none. -/
structure Fmt where
  eb : Nat
  mb : Nat
  bias : Nat
  special : Nat
  deriving DecidableEq, Repr

/-- Format of the elements of a format code (R119, R120); none for the integer and complex codes. -/
def fmtOf (code : Nat) : Option Fmt :=
  match code with
  | 0x0 => some ⟨4, 3, 7, 1⟩
  | 0x1 => some ⟨5, 2, 15, 0⟩
  | 0x2 => some ⟨4, 3, 7, 1⟩
  | 0x3 => some ⟨5, 2, 15, 0⟩
  | 0x4 => some ⟨2, 3, 1, 2⟩
  | 0x5 => some ⟨3, 2, 3, 2⟩
  | 0x6 => some ⟨2, 1, 1, 2⟩
  | 0x8 => some ⟨8, 7, 127, 0⟩
  | 0x9 => some ⟨5, 10, 15, 0⟩
  | 0xA => some ⟨8, 23, 127, 0⟩
  | 0xB => some ⟨8, 10, 127, 0⟩
  | _ => none

def fp32 : Fmt := ⟨8, 23, 127, 0⟩
def bf16 : Fmt := ⟨8, 7, 127, 0⟩
def fp16 : Fmt := ⟨5, 10, 15, 0⟩
def tf32 : Fmt := ⟨8, 10, 127, 0⟩

def Fmt.width (f : Fmt) : Nat := 1 + f.eb + f.mb

/-- The exponent of a subnormal's last place. -/
def Fmt.qmin (f : Fmt) : Int := 1 - (f.bias : Int) - (f.mb : Int)

/-- The pattern of the largest finite magnitude. -/
def Fmt.maxFin (f : Fmt) : Nat :=
  match f.special with
  | 0 => (2 ^ f.eb - 1) * 2 ^ f.mb - 1
  | 1 => 2 ^ (f.eb + f.mb) - 2
  | _ => 2 ^ (f.eb + f.mb) - 1

/-- The canonical NaN (R121); formats without one write their zero pattern (R123 puts the NaN in the scale). -/
def Fmt.nanBits (f : Fmt) : Nat :=
  match f.special with
  | 0 => if f.eb = 5 ∧ f.mb = 2 then 0x7E else (2 ^ f.eb - 1) * 2 ^ f.mb + 2 ^ (f.mb - 1)
  | 1 => 2 ^ (f.eb + f.mb) - 1
  | _ => 0

/-- The value of a pattern (R120, R121). -/
def Fmt.decode (f : Fmt) (x : Nat) : Val :=
  let neg := bit x (f.eb + f.mb)
  let e := bits x f.mb f.eb
  let m := bits x 0 f.mb
  if f.special = 0 ∧ e = 2 ^ f.eb - 1 then (if m = 0 then .inf neg else .nan)
  else if f.special = 1 ∧ e = 2 ^ f.eb - 1 ∧ m = 2 ^ f.mb - 1 then .nan
  else if e = 0 then .fin neg m f.qmin
  else .fin neg (2 ^ f.mb + m) (f.qmin + (e : Int) - 1)

/-- Bit length. -/
def bitLen (m : Nat) : Nat := if m = 0 then 0 else Nat.log2 m + 1

/-- The rounding of a conversion (R127): nearest-even, toward zero, or stochastic with r bits whose draw is u (R143). -/
inductive RMode where
  | rne
  | rtz
  | sr (r u : Nat)
  deriving DecidableEq, Repr

/-- m·2^e rounded to a multiple of 2^q, as that multiple. -/
def roundAt (md : RMode) (m : Nat) (e q : Int) : Nat :=
  if q ≤ e then m * 2 ^ (e - q).toNat
  else
    let d := (q - e).toNat
    let k := m / 2 ^ d
    let rem := m % 2 ^ d
    match md with
    | .rne => if 2 ^ d < 2 * rem ∨ (2 * rem = 2 ^ d ∧ k % 2 = 1) then k + 1 else k
    | .rtz => k
    | .sr r u => if u < rem * 2 ^ r / 2 ^ d then k + 1 else k

/-- Was anything discarded by that rounding? -/
def inexactAt (m : Nat) (e q : Int) : Bool := decide (e < q) && m % 2 ^ (q - e).toNat != 0

/-- Magnitude pattern of ±m·2^e in a format before the overflow rule: it exceeds maxFin where the value overflows. -/
def Fmt.roundMag (f : Fmt) (md : RMode) (m : Nat) (e : Int) : Nat :=
  if m = 0 then 0
  else
    let top := (bitLen m : Int) - 1 + e
    let q := max (top - (f.mb : Int)) f.qmin
    (q - f.qmin).toNat * 2 ^ f.mb + roundAt md m e q

/-- What a conversion does with a finite value too large (R128): the largest finite, or infinity. -/
inductive Over where
  | sat
  | inf
  deriving DecidableEq, Repr

/-- The sign bit in place. -/
def Fmt.signed (f : Fmt) (neg : Bool) (mag : Nat) : Nat := b2n neg * 2 ^ (f.eb + f.mb) + mag

/-- The infinity pattern of a format that has one; E4M3 converts an infinity to NaN (R128). -/
def Fmt.infBits (f : Fmt) (neg : Bool) : Nat :=
  if f.special = 0 then f.signed neg ((2 ^ f.eb - 1) * 2 ^ f.mb) else f.nanBits

/-- Numeric flags of R130 raised together, as a mask. -/
def flagNanIn : Nat := 1
def flagInvalid : Nat := 2
def flagInfOut : Nat := 4
def flagSat : Nat := 8
def flagAnchor : Nat := 16

/-- A value rounded into a format: its pattern, and the flags saturate or inf_out of an overflow. -/
def Fmt.encode (f : Fmt) (md : RMode) (ov : Over) (v : Val) : Nat × Nat :=
  match v with
  | .nan => (f.nanBits, 0)
  | .inf neg => (f.infBits neg, 0)
  | .fin neg m e =>
    let g := f.roundMag md m e
    if g ≤ f.maxFin then (f.signed neg g, 0)
    else
      match ov with
      | .sat => (f.signed neg f.maxFin, flagSat)
      | .inf => if md = .rtz then (f.signed neg f.maxFin, 0) else (f.infBits neg, flagInfOut)

def Val.isNan : Val → Bool | .nan => true | _ => false
def Val.isInf : Val → Bool | .inf _ => true | _ => false
def Val.isZero : Val → Bool | .fin _ 0 _ => true | _ => false
def Val.neg : Val → Val | .nan => .nan | .inf n => .inf (!n) | .fin n m e => .fin (!n) m e
def Val.abs : Val → Val | .nan => .nan | .inf _ => .inf false | .fin _ m e => .fin false m e
def Val.signBit : Val → Bool | .nan => false | .inf n => n | .fin n _ _ => n

/-- Signed mantissa at a common exponent. -/
def Val.at (v : Val) (e0 : Int) : Int :=
  match v with
  | .fin neg m e => (if neg then -1 else 1) * ((m : Int) * ((2 ^ (e - e0).toNat : Nat) : Int))
  | _ => 0

def Val.exp : Val → Int | .fin _ _ e => e | _ => 0

/-- Exact product (R121: infinity × 0 is NaN; signs multiply). -/
def Val.mul (a b : Val) : Val :=
  match a, b with
  | .nan, _ => .nan
  | _, .nan => .nan
  | .inf n, .inf k => .inf (n != k)
  | .inf n, .fin k m _ => if m = 0 then .nan else .inf (n != k)
  | .fin n m _, .inf k => if m = 0 then .nan else .inf (n != k)
  | .fin n m e, .fin k p g => .fin (n != k) (m * p) (e + g)

/-- v·2^k. -/
def Val.scale (v : Val) (k : Int) : Val :=
  match v with
  | .fin n m e => .fin n m (e + k)
  | x => x

/-- Exact sum of a list (R121): NaN and opposite infinities give NaN; an exact zero is −0 only where every term is −0. -/
def sumVals (l : List Val) : Val :=
  if l.any Val.isNan || (l.contains (.inf true) && l.contains (.inf false)) then .nan
  else if l.contains (.inf true) then .inf true
  else if l.contains (.inf false) then .inf false
  else
    let e0 := l.foldl (fun a v => if v.isZero then a else min a v.exp) 1000
    let t := l.foldl (fun a v => if v.isZero then a else a + v.at e0) (0 : Int)
    if t = 0 then .fin (!l.isEmpty && l.all (fun v => v.isZero && v.signBit)) 0 0
    else .fin (decide (t < 0)) t.natAbs e0

def Val.add (a b : Val) : Val := sumVals [a, b]

/-- Compare non-NaN values: −1, 0 or 1 (zeros of either sign are equal). -/
def Val.cmp (a b : Val) : Int :=
  match a, b with
  | .inf n, .inf k => if n = k then 0 else if n then -1 else 1
  | .inf n, _ => if n then -1 else 1
  | _, .inf k => if k then 1 else -1
  | _, _ =>
    let e0 := min a.exp b.exp
    let d := a.at e0 - b.at e0
    if d < 0 then -1 else if d = 0 then 0 else 1

/-- Quotient with enough bits that one rounding of it is correct: the last bit says whether the division was inexact. -/
def Val.div (a b : Val) : Val :=
  match a, b with
  | .nan, _ => .nan
  | _, .nan => .nan
  | .inf _, .inf _ => .nan
  | .inf n, .fin k _ _ => .inf (n != k)
  | .fin n _ _, .inf k => .fin (n != k) 0 0
  | .fin n m e, .fin k p g =>
    if p = 0 then (if m = 0 then .nan else .inf (n != k))
    else
      let sh := 64 + bitLen p
      let q := m * 2 ^ sh / p
      .fin (n != k) (2 * q + b2n (m * 2 ^ sh % p != 0)) (e - g - (sh : Int) - 1)

/-- Integer square root, one result bit at a time. -/
def isqrtGo : Nat → Nat → Nat → Nat
  | 0, _, r => r
  | n + 1, x, r => if (r + 2 ^ n) * (r + 2 ^ n) ≤ x then isqrtGo n x (r + 2 ^ n) else isqrtGo n x r

/-- ⌊√x⌋. -/
def isqrt (x : Nat) : Nat := isqrtGo (bitLen x / 2 + 1) x 0

/-- Square root with enough bits and a sticky last bit. −0 gives −0; a negative value gives NaN. -/
def Val.sqrt (a : Val) : Val :=
  match a with
  | .nan => .nan
  | .inf n => if n then .nan else .inf false
  | .fin n m e =>
    if m = 0 then .fin n 0 0
    else if n then .nan
    else
      let k : Nat := if (e % 2 = 0) then 128 else 129
      let x := m * 2 ^ k
      let r := isqrt x
      .fin false (2 * r + b2n (r * r != x)) ((e - (k : Int)) / 2 - 1)

/-- A value as an integer under a rounding mode, saturated to w bits of two's complement (R124): pattern and flags. -/
def Val.toInt (v : Val) (md : RMode) (w : Nat) : Nat × Nat :=
  match v with
  | .nan => (0, 0)
  | .inf n => (if n then 2 ^ (w - 1) else 2 ^ (w - 1) - 1, flagSat)
  | .fin n m e =>
    let k := roundAt md m e 0
    if n then (if 2 ^ (w - 1) < k then (2 ^ (w - 1), flagSat) else ((2 ^ w - k) % 2 ^ w, 0))
    else if 2 ^ (w - 1) - 1 < k then (2 ^ (w - 1) - 1, flagSat) else (k, 0)

/-- The value of a two's-complement pattern of w bits. -/
def Val.ofInt (x w : Nat) : Val := let i := sInt x w; .fin (decide (i < 0)) i.natAbs 0

/-- An integer shifted right by k with round to nearest, ties to even (R124, R125). -/
def rshiftRne (i : Int) (k : Nat) : Int :=
  let m := roundAt .rne i.natAbs 0 (k : Int)
  if i < 0 then -(m : Int) else (m : Int)

/-- Clamp an integer to w-bit two's complement: the value, and whether it was clamped. -/
def clampInt (i : Int) (w : Nat) : Int × Bool :=
  let hi : Int := ((2 ^ (w - 1) : Nat) : Int)
  if i < -hi then (-hi, true) else if hi - 1 < i then (hi - 1, true) else (i, false)

/-- ⌊log2 |v|⌋ of a non-zero finite value. -/
def Val.log2 (v : Val) : Int :=
  match v with
  | .fin _ m e => (bitLen m : Int) - 1 + e
  | _ => 0

/-! ### FP32 arithmetic with one RNE rounding (R131, R132) -/

def f32 (x : Nat) : Val := fp32.decode x
/-- round_fp32 of a vector operation (IEEE overflow). -/
def toF32 (v : Val) : Nat := (fp32.encode .rne .inf v).1
/-- round_fp32 of a sum in a Nib or the Hairline: overflow clamps and sets saturate (R131). -/
def toF32Sat (v : Val) : Nat × Nat := fp32.encode .rne .sat v
def f32add (x y : Nat) : Nat := toF32 ((f32 x).add (f32 y))
def f32mul (x y : Nat) : Nat := toF32 ((f32 x).mul (f32 y))

/-- The canonical tree of R140 over FP32 patterns, one level. -/
def treeLevel : List Nat → List Nat
  | a :: b :: r => f32add a b :: treeLevel r
  | l => l

/-- The canonical tree (fuel: a level halves the list). -/
def treeGo : Nat → List Nat → Nat
  | 0, l => l.headD 0
  | n + 1, l => match l with | [] => 0 | [x] => x | l => treeGo n (treeLevel l)

/-- v[0..n−1] reduced by the canonical tree of R140. -/
def canonTree (l : List Nat) : Nat := treeGo (bitLen l.length + 1) l

/-! ### The random generator (R147, R148) -/

def rotl64 (x n : Nat) : Nat := (x * 2 ^ n + x / 2 ^ (64 - n)) % 18446744073709551616

/-- The mixing rounds of lx_out. -/
def lxGo : Nat → Nat → Nat → Nat → Nat → Nat
  | 0, l, h, _, _ => Nat.xor l (rotl64 h 29)
  | n + 1, l, h, k0, k1 =>
    let p := Nat.xor l k0 * 0xB5A36C1D94E72F0B
    lxGo n (Nat.xor (Nat.xor h (p / 18446744073709551616)) k1) (p % 18446744073709551616)
      ((k0 + 0xA4C917E35B2D80F1) % 18446744073709551616) ((k1 + 0x6E1FD3A729C5B48D) % 18446744073709551616)

/-- lx_out(x, k0, k1). -/
def lxOut (x k0 k1 : Nat) : Nat := lxGo 6 (x % 18446744073709551616) (x / 18446744073709551616 % 18446744073709551616) k0 k1

/-- Step n of the stream with index idx (R148): its output under the key. -/
def streamStep (k0 k1 idx n : Nat) : Nat := lxOut ((idx * 18446744073709551616 + n) % 2 ^ 128) k0 k1

/-- The r rounding bits of element e of a logical tile (R145). -/
def srBits (k0 k1 idx r e : Nat) : Nat :=
  let c := 64 / r
  bits (streamStep k0 k1 idx (e / c)) (r * (e % c)) r

end Sys2Proof.Machine
end

