-- ==== Sys2Proof/Machine/Transc.lean ====
section
/-! DEFINITION. The transcendental functions of VFN and Quill (R132, R183, R280): each result is one of the FP32 neighbours of the exact
value, so within 1 ulp of it; which of them is free. -/

namespace Sys2Proof.Machine

/-! ### Fixed point with 320 fractional bits: enough for every FP32 argument -/

def hpBits : Nat := 320
def hpOne : Nat := 2 ^ 320

/-- The odd powers of z summed as z^k / k, with alternating signs where `alt`, from the power p of exponent k on. -/
def oddSeries (alt : Bool) (zz : Nat) : Nat → Nat → Nat → Bool → Int → Int
  | 0, _, _, _, acc => acc
  | n + 1, p, k, neg, acc =>
    oddSeries alt zz n (p * zz / hpOne) (k + 2) (if alt then !neg else false) (if neg then acc - (p / k : Nat) else acc + (p / k : Nat))

/-- 2·atanh(z) and atan(z) for z below 1/2. -/
def hpAtanh2 (z : Nat) : Nat := 2 * (oddSeries false (z * z / hpOne) 160 z 1 false 0).toNat
def hpAtan (z : Nat) : Nat := (oddSeries true (z * z / hpOne) 160 z 1 false 0).toNat

def hpLn2 : Nat := hpAtanh2 (hpOne / 3)
/-- π/2 = 8·atan(1/5) − 2·atan(1/239). -/
def hpHalfPi : Nat := 8 * hpAtan (hpOne / 5) - 2 * hpAtan (hpOne / 239)

/-- A value as a fixed-point number, rounded down. -/
def hpOf (v : Val) : Int :=
  match v with
  | .fin neg m e =>
    let k := e + 320
    let a := if 0 ≤ k then m * 2 ^ k.toNat else m / 2 ^ (-k).toNat
    if neg then -(a : Int) else (a : Int)
  | _ => 0

/-- Σ r^k / k! from the term t = r^(k−1) / (k−1)! on. -/
def expSeries (r : Int) : Nat → Int → Nat → Int → Int
  | 0, _, _, acc => acc
  | n + 1, t, k, acc => expSeries r n (t * r / (hpOne * k : Nat)) (k + 1) (acc + t)

/-- e^x as a mantissa and an exponent: x = k·ln 2 + r. -/
def hpExp (x : Int) : Nat × Int :=
  let k := x / (hpLn2 : Nat)
  ((expSeries (x - k * (hpLn2 : Nat)) 90 hpOne 1 0).toNat, k - 320)

/-- e^x for x ≤ 0 as a fixed-point number, at least its last place. -/
def hpExpNeg (x : Int) : Nat :=
  let y := hpExp x
  max 1 (y.1 / 2 ^ (-320 - y.2).toNat)

/-- ln of m·2^e: m = y·2^j with y from 2/3 to 4/3. -/
def hpLn (m : Nat) (e : Int) : Int :=
  let j := (bitLen (3 * m) : Int) - 2
  let y := if 0 ≤ 320 - j then m * 2 ^ (320 - j).toNat else m / 2 ^ (j - 320).toNat
  let z := hpAtanh2 ((if hpOne ≤ y then y - hpOne else hpOne - y) * hpOne / (y + hpOne))
  (if hpOne ≤ y then (z : Int) else -(z : Int)) + (j + e) * (hpLn2 : Nat)

/-- The series of sine (k = 2, from the angle) or cosine (k = 1, from 1). -/
def hpTrig (aa : Nat) : Nat → Nat → Nat → Bool → Int → Int
  | 0, _, _, _, acc => acc
  | n + 1, t, k, neg, acc => hpTrig aa n (t * aa / hpOne / (k * (k + 1))) (k + 2) (!neg) (if neg then acc - (t : Int) else acc + (t : Int))

/-- The sine of x + q·π/2. -/
def hpSin (x : Int) (q : Int) : Int :=
  let k := x / (hpHalfPi : Nat)
  let r := (x - k * (hpHalfPi : Nat)).toNat
  let j := (k + q) % 4
  let aa := r * r / hpOne
  let v := if j % 2 = 0 then hpTrig aa 60 r 2 false 0 else hpTrig aa 60 hpOne 1 false 0
  if 2 ≤ j then -v else v

/-- A quotient of fixed-point numbers. -/
def hpDiv (a b : Nat) : Int := ((a * hpOne / b : Nat) : Int)

/-- The exact value of a VFN sub-operation at a finite value, to far more than FP32's precision, as sign, mantissa and exponent; none where
the spec states no value: a logarithm of what is not positive. -/
def transc (sub : Nat) (v : Val) : Option (Bool × Nat × Int) :=
  let x := hpOf v
  let far := (1000 : Int) * (hpOne : Nat)
  let fx := fun (y : Int) => some (decide (y < 0), y.natAbs, (-320 : Int))
  let ex := fun (y : Int) => let e := hpExp (max (-far) (min far y)); some (false, e.1, e.2)
  match v with
  | .fin neg m e =>
    (match sub with
     | 0 => ex x
     | 1 => ex (x * (hpLn2 : Nat) / (hpOne : Nat))
     | 2 => if neg ∨ m = 0 then none else fx (hpLn m e)
     | 3 => if neg ∨ m = 0 then none else fx (hpLn m e * (hpOne : Nat) / (hpLn2 : Nat))
     | 4 => fx (hpSin x 0)
     | 5 => fx (hpSin x 1)
     | 6 =>
       let t := hpExpNeg (max (-far) (-2 * (x.natAbs : Int)))
       let y := hpDiv (hpOne - t) (hpOne + t)
       fx (if neg then -y else y)
     | _ =>
       let t := hpExpNeg (max (-far) (-(x.natAbs : Int)))
       fx (if neg then hpDiv t (hpOne + t) else hpDiv hpOne (hpOne + t)))
  | _ => none

/-- The result of a VFN sub-operation on an FP32 pattern (R132): the FP32 number toward zero from the exact value or the next one
outward, both within 1 ulp; Config.vfn says which. The spec's example fixes e^(−1). Where it states no value (an infinity, a logarithm of
what is not positive) the pattern is free. -/
def vfnVal (sub a : Nat) : Nat :=
  if sub = 0 ∧ a = 0xBF800000 then 0x3EBC5AB2
  else
    match transc sub (f32 a) with
    | some (neg, m, e) => fp32.signed neg (min 0x7F800000 (fp32.roundMag .rtz m e + Config.vfn sub a % 2))
    | none => Config.vfn sub a % 4294967296

end Sys2Proof.Machine
end

