-- ==== Sys2Proof/Machine/Quill.lean ====
section
/-! DEFINITION. Quill (R271 to R295, R556): profiles, contexts, the choice of a token from a row of logits, the checks and effects
of a command. -/

namespace Sys2Proof.Machine

/-! ### Contexts (R278) -/

def State.ctxAddr (s : State) (p c : Nat) : Nat := s.rd (Reg.QUILL_CTX_BASE.base p) * 8192 + 8192 * c

/-- The 64-byte header of a context as a number, and a field of it. -/
def State.ctxHead (s : State) (p c : Nat) : Nat := s.ldN (s.ctxAddr p c) 64
def cxProfile (h : Nat) : Nat := bits h 0 16
def cxValid (h : Nat) : Bool := bit h 16
def cxBusy (h : Nat) : Bool := bit h 17
def cxOverflow (h : Nat) : Bool := bit h 18
def cxDraftMax (h : Nat) : Nat := bits h 19 5
def cxDraftCur (h : Nat) : Nat := bits h 24 5
def cxZeroRun (h : Nat) : Nat := bits h 29 4
def cxBackoff (h : Nat) : Nat := bits h 33 9
def cxSeed (h : Nat) : Nat := bits h 64 64
def cxRemaining (h : Nat) : Nat := bits h 128 23
def cxSteps (h : Nat) : Nat := bits h 160 32
def cxPenCount (h : Nat) : Nat := bits h 288 11

/-- The header INIT writes (R273): profile, valid, draft lengths, seed, remaining. -/
def initHead (profile draftMax seed remaining : Nat) : Nat :=
  setBits (setBits (setBits (setBits (setBits (setBits 0 0 16 profile) 16 1 1) 19 5 draftMax) 24 5 draftMax) 64 64 seed) 128 23 remaining

/-- INIT of a context: the record is cleared and its header set. -/
def State.initCtx (s : State) (p c profile draftMax seed remaining : Nat) : State :=
  s.stN (s.ctxAddr p c) 8192 (initHead profile draftMax seed remaining)

/-- The penalty list: (token, count) pairs in ascending token order. -/
def State.penList (s : State) (p c : Nat) : List (Nat × Nat) :=
  (List.range (cxPenCount (s.ctxHead p c))).map (fun i =>
    let e := s.ldN (s.ctxAddr p c + 64 + 4 * i) 4
    (bits e 0 19, bits e 19 13))

/-- Count a token in a penalty list: raised (saturating at 8,191), inserted in order, or lost where the list of 2,032 is full. -/
def penAdd (l : List (Nat × Nat)) (t : Nat) : List (Nat × Nat) × Bool :=
  if l.any (fun e => decide (e.1 = t)) then (l.map (fun e => if e.1 = t then (t, min (e.2 + 1) 8191) else e), false)
  else if 2032 ≤ l.length then (l, true)
  else ((l.filter (fun e => decide (e.1 < t))) ++ [(t, 1)] ++ (l.filter (fun e => decide (t < e.1))), false)

/-! ### Profiles (R277) -/

def pfTemp (r : Nat) : Nat := bits r 0 32
def pfVocab (r : Nat) : Nat := bits r 32 19 + 1
def pfFmt (r : Nat) : Nat := bits r 52 4
def pfMaskEn (r : Nat) : Bool := bit r 56
def pfPenEn (r : Nat) : Bool := bit r 57
def pfTopK (r : Nat) : Nat := bits r 64 11
def pfTopP (r : Nat) : Nat := bits r 96 16 + 1
def pfMinP (r : Nat) : Nat := bits r 112 16
def pfRep (r : Nat) : Nat := bits r 128 32
def pfFreq (r : Nat) : Nat := bits r 160 32
def pfPres (r : Nat) : Nat := bits r 192 32
def pfMaskAddr (r : Nat) : Nat := bits r 224 48
def pfStops (r : Nat) : List Nat :=
  ((List.range 4).filter (fun i => bit r (288 + 32 * i + 31))).map (fun i => bits r (288 + 32 * i) 19)
/-- Bytes of a logit. -/
def pfSize (r : Nat) : Nat := if pfFmt r = 0xA then 4 else 2

def f32Finite (x : Nat) : Bool := decide (bits x 23 8 ≠ 255)

/-- Is a profile valid? -/
def pfValid (r : Nat) : Bool :=
  decide (pfTemp r < 0x7F800000) && decide (pfTopK r ≤ 1024) && decide (0x3F800000 ≤ pfRep r) && decide (pfRep r < 0x7F800000) &&
    f32Finite (pfFreq r) && f32Finite (pfPres r) && (pfFmt r == 0xA || pfFmt r == 8) && (!pfMaskEn r || pfMaskAddr r % 64 == 0) &&
    Nat.land r (msk 51 1 + msk 58 6 + msk 75 21 + msk 272 16 + msk 416 96 + msk 307 12 + msk 339 12 + msk 371 12 + msk 403 12) == 0

/-! ### One row (R279 to R283) -/

/-- A total order of finite FP32 patterns by value; zeros of either sign are equal. -/
def f32Key (x : Nat) : Int := if bit x 31 then -((x % 2147483648 : Nat) : Int) else ((x % 2147483648 : Nat) : Int)

/-- The processed logit of a token with penalty count n: none where it is excluded; and whether that was as non-finite (R279). -/
def procLogit (r l n : Nat) (allowed : Bool) : Option Nat × Bool :=
  if !allowed then (none, false)
  else if !f32Finite l then (none, true)
  else if pfPenEn r && decide (0 < n) then
    let l1 := if 0 < f32Key l then toF32 ((f32 l).div (f32 (pfRep r))) else f32mul l (pfRep r)
    let l2 := f32add l1 (Nat.xor (f32mul (toF32 (.fin false n 0)) (pfFreq r)) 0x80000000)
    let l3 := f32add l2 (Nat.xor (pfPres r) 0x80000000)
    if f32Finite l3 then (some l3, false) else (none, true)
  else (some l, false)

/-- Insert into the candidates, kept in candidate order and at most k of them (R280). -/
def candInsert (k : Nat) (l : List (Nat × Nat)) (e : Nat × Nat) : List (Nat × Nat) :=
  let before := fun (c : Nat × Nat) => decide (f32Key e.2 < f32Key c.2) || (decide (f32Key e.2 = f32Key c.2) && decide (c.1 < e.1))
  (l.takeWhile before ++ [e] ++ l.dropWhile before).take k

/-- The exponential as an integer weight (R280): 2^31 × exp(x), rounded RNE, at most 2^31. -/
def expWeight (x : Nat) : Nat :=
  if f32Key x = 0 then 2147483648
  else if x = 0xFF800000 then 0
  else
    match f32 (vfnVal 0 x) with
    | .fin false m e => min (roundAt .rne m (e + 31) 0) 2147483648
    | _ => 0

/-- The weight of a processed logit against the first candidate's. -/
def tokWeight (r m l : Nat) : Nat :=
  let rinv := (toF32Sat ((f32 0x3F800000).div (f32 (pfTemp r)))).1
  let d := f32add l (Nat.xor m 0x80000000)
  let x := if f32Key d = 0 then 0 else f32mul d rinv
  expWeight (if f32Key x ≤ 0 then x else 0)

/-- Choose from kept (token, weight) pairs at threshold h: the first whose running sum exceeds it (R282). -/
def drawFrom (h : Nat) : Nat → List (Nat × Nat) → Nat
  | _, [] => 0
  | acc, (t, w) :: r => if h < acc + w then t else drawFrom h (acc + w) r

/-- top-p (R281): the pairs kept; `acc` is the running sum before. Candidate 0 is always kept. -/
def topP (limit : Nat) : Nat → Bool → List (Nat × Nat) → List (Nat × Nat)
  | _, _, [] => []
  | acc, head, (t, w) :: r => if head || decide (65536 * acc < limit) then (t, w) :: topP limit (acc + w) false r else []

/-- The candidates of a row (R280), from its processed logits (token, value) in ascending token order. -/
def rowCands (r : Nat) (vals : List (Nat × Nat)) : List (Nat × Nat) :=
  vals.foldl (candInsert (if pfTopK r = 0 then 1024 else pfTopK r)) []

/-- The choice among the candidates of the first pass, with W_all of the second and the draw u; and the tail flag (R280 to R282). -/
def rowChoice (r : Nat) (cands : List (Nat × Nat)) (all u : Nat) : Option Nat × Bool :=
  match cands with
  | [] => (none, false)
  | c0 :: _ =>
    if pfTemp r = 0 then (some c0.1, false)
    else
      let wts := cands.map (fun e => (e.1, tokWeight r c0.2 e.2))
      let left := match wts with | [] => [] | a :: l => a :: l.filter (fun e => decide (pfMinP r * 2147483648 ≤ 65536 * e.2))
      let kept := topP (pfTopP r * all) 0 true left
      let sum := kept.foldl (fun a e => a + e.2) 0
      (some (drawFrom (u * sum / 18446744073709551616) 0 kept), kept.length == left.length && decide (65536 * sum < pfTopP r * all))

/-- The draw of sequence position q (R283). -/
def quillDraw (seed q : Nat) : Nat := streamStep seed 0x51 ((0xFFFFF00000000000 + q) % 18446744073709551616) 0

/-- One pass over a row (R279): the processed logits of the tokens that are not excluded, in ascending token order, and whether one was
excluded as non-finite. `logit t` is a logit's FP32 pattern, `pen t` its count, `ok t` the mask. -/
def rowPass (r : Nat) (pen : Nat → Nat) (logit : Nat → Nat) (ok : Nat → Bool) : List (Nat × Nat) × Bool :=
  let ls := (List.range (pfVocab r)).map (fun t => (t, procLogit r (logit t) (pen t) (ok t)))
  (ls.filterMap (fun e => match e.2.1 with | some v => some (e.1, v) | none => none), ls.any (fun e => e.2.2))

/-- W_all of a pass, against the first candidate of the first pass (R280, R292). -/
def rowAll (r : Nat) (cands vals : List (Nat × Nat)) : Nat :=
  match cands with
  | [] => 0
  | c0 :: _ => vals.foldl (fun a e => a + tokWeight r c0.2 e.2) 0

/-! ### Commands (R273 to R276) -/

def qcOp (c : Nat) : Nat := bits c 0 8
def qcDraft (c : Nat) : Nat := bits c 8 5
def qcServe (c : Nat) : Bool := bit c 13
def qcOutEn (c : Nat) : Bool := bit c 14
def qcCtx (c : Nat) : Nat := bits c 16 16
def qcLogits (c : Nat) : Nat := bits c 64 48
def qcStride (c : Nat) : Nat := bits c 128 32
def qcDrafts (c : Nat) : Nat := bits c 160 48
def qcPos (c : Nat) : Nat := bits c 224 23
def qcOut (c : Nat) : Nat := bits c 256 48
def qcProfile (c : Nat) : Nat := bits c 32 16
def qcSeed (c : Nat) : Nat := bits c 64 64
def qcRemaining (c : Nat) : Nat := bits c 128 23

def State.quillQueue (s : State) (j : Nat) : List EngCmd := NMap.get [] s.srv.quill j
def State.setQuillQueue (s : State) (j : Nat) (l : List EngCmd) : State :=
  { s with srv := { s.srv with quill := NMap.put [] s.srv.quill j l } }

/-- A 256-bit result record goes into the core store at a_res, then the semaphore is posted (R196, R229). -/
def State.engResult (s : State) (c : EngCmd) (rec_ : Nat) : State :=
  let s := s.csWrite c.core c.res (leBytes rec_ 32)
  match c.sem with | some q => s.semPost q 1 | none => s

/-- The result record of a Quill command (R275). -/
def quillRecord (c status emitted accepted draftNext : Nat) (fin tail nonfinite overflow : Bool) (last steps : Nat) : Nat :=
  let r := setBits (setBits (setBits (setBits 0 0 16 status) 16 5 emitted) 21 5 accepted) 26 5 draftNext
  let r := setBits (setBits (setBits (setBits r 31 1 (b2n fin)) 32 1 (b2n tail)) 33 1 (b2n nonfinite)) 34 1 (b2n overflow)
  setBits (setBits (setBits (setBits r 64 32 last) 96 16 (qcCtx c)) 128 23 (qcPos c + emitted)) 160 32 steps

/-- The request that holds a serving context: its key, and for the records (R472) its request_id. -/
def State.ctxKey (s : State) (p c : Nat) : Option Nat :=
  (s.srv.reqs.find? (fun e => decide (e.2.part = p) && decide (e.2.qctx = some c))).map (fun e => e.1)
def State.ctxRequest (s : State) (p c : Nat) : Nat :=
  match s.srv.reqs.find? (fun e => decide (e.2.part = p) && decide (e.2.qctx = some c)) with
  | some e => bits e.2.raw 96 32
  | none => 0

/-- SRV.QUILL_ACCESS or SRV.QUILL_PARITY of a command on Quill j. -/
def State.quillFault (s : State) (j code : Nat) (c : EngCmd) : State :=
  s.fault { code := code, part := c.part, die := 4 + j, unit := 4 + j, sub := j, tag := c.tag,
            arg0 := if qcServe c.raw then s.ctxRequest c.part (qcCtx c.raw) else 0 }

/-- Step 1 of R556: is the command well-formed for its partition's registers? -/
def State.quillFields (s : State) (c : EngCmd) : Bool :=
  let r := c.raw
  let cfg := Reg.QUILL_CTX_CFG.ctx_count c.part
  let srv := decide (qcCtx r < s.rd (Reg.QUILL_CTX_CFG.srv_count c.part))
  if qcOp r = 1 then
    decide (qcDraft r ≤ 16) && Nat.land r (msk 15 1 + msk 32 32 + msk 112 16 + msk 208 16 + msk 247 9 + msk 304 208) == 0 &&
      qcLogits r % 64 == 0 && (qcDraft r == 0 || qcDrafts r % 64 == 0) && (!qcOutEn r || qcOut r % 64 == 0) &&
      qcStride r % 64 == 0 && decide (qcCtx r < s.rd cfg) && (qcServe r == srv)
  else if qcOp r = 2 then
    decide (qcDraft r ≤ 16) && Nat.land r (msk 13 3 + msk 48 16 + msk 151 361) == 0 && decide (qcCtx r < s.rd cfg) && !srv &&
      decide (qcProfile r < s.rd (Reg.QUILL_PROF_BASE.prof_count c.part))
  else false

def State.profAddr (s : State) (p i : Nat) : Nat := s.rd (Reg.QUILL_PROF_BASE.base p) * 64 + 64 * i

/-- What the checks of a command come to: a final status with the fault it writes, or go on with the profile read. -/
inductive QChk where
  | done (status : Nat) (fault : Option Nat) (fin : Bool)
  | go (profile : Nat)
  deriving DecidableEq, Repr

/-- Steps 1 to 6 of R556 on a command, with nothing changed. -/
def State.quillCheck (s : State) (c : EngCmd) : QChk :=
  let r := c.raw
  let p := c.part
  let a := s.ctxAddr p (qcCtx r)
  let h := s.ctxHead p (qcCtx r)
  let isInit := qcOp r == 2
  let prof := if isInit then qcProfile r else cxProfile h
  let pa := s.profAddr p prof
  let pr := s.ldN pa 64
  let d := qcDraft r
  if !s.quillFields c then .done stInvalid none false
  else if !s.permit p a 8192 || (isInit && !s.permit p pa 64) then .done stUnreadable (some 0x5004) false
  else if s.lineBad a then .done stUnreadable (some 0x5005) false
  else if cxBusy h then .done stCtxBusy none false
  else if !isInit && (!cxValid h || decide (s.rd (Reg.QUILL_PROF_BASE.prof_count p) ≤ prof) || (qcServe r && decide (cxDraftCur h < d))) then
    .done stInvalid none false
  else if !s.permit p pa 64 then .done stUnreadable (some 0x5004) false
  else if s.lineBad pa then .done stUnreadable (some 0x5005) false
  else if !pfValid pr || (!isInit && decide (qcStride r < pfVocab pr * pfSize pr)) then .done stInvalid none false
  else if isInit then (if qcRemaining r = 0 then .done stSuccess none false else .go pr)
  else if (List.range (d + 1)).any (fun i => !s.permit p (qcLogits r + i * qcStride r) (pfVocab pr * pfSize pr)) ||
      (pfMaskEn pr && !s.permit p (pfMaskAddr pr) (cdiv (pfVocab pr) 8)) || (decide (0 < d) && !s.permit p (qcDrafts r) (4 * d)) ||
      (qcOutEn r && !s.permit p (qcOut r) (4 * (d + 1))) then .done stUnreadable (some 0x5004) false
  else if cxRemaining h = 0 then .done stSuccess none true
  else .go pr

/-- The poisoned line that ends a command at its checks, if that is why it ends: it counts as read (R221). -/
def State.quillBadLine (s : State) (c : EngCmd) : State :=
  let a := s.ctxAddr c.part (qcCtx c.raw)
  if s.lineBad a then s.countPoison a 64
  else s.countPoison (s.profAddr c.part (if qcOp c.raw = 2 then qcProfile c.raw else cxProfile (s.ctxHead c.part (qcCtx c.raw)))) 64

/-- Status of the INIT that the scheduler issues for a serving context (R288): the checks of R556 on it. -/
def State.initCheck (s : State) (p ctx profile : Nat) : Nat :=
  let a := s.ctxAddr p ctx
  let pa := s.profAddr p profile
  if s.rd (Reg.QUILL_CTX_CFG.ctx_count p) ≤ ctx ∨ s.rd (Reg.QUILL_PROF_BASE.prof_count p) ≤ profile then stInvalid
  else if !s.permit p a 8192 || !s.permit p pa 64 || s.lineBad a then stUnreadable
  else if cxBusy (s.ctxHead p ctx) then stCtxBusy
  else if s.lineBad pa then stUnreadable
  else if pfValid (s.ldN pa 64) then stSuccess else stInvalid

/-- Set or clear busy in a context header. -/
def State.setBusy (s : State) (p c : Nat) (b : Bool) : State :=
  s.stN (s.ctxAddr p c) 64 (setBits (s.ctxHead p c) 17 1 (b2n b))

/-- The verification loop of R285 over the rows, whose choices are given: tokens emitted, drafts accepted, end, nonfinite, tail. -/
def verifyGo (row : Nat → QRow) (draft : Nat → Nat) (stops : List Nat) (remaining d : Nat) :
    Nat → Nat → List Nat → Nat → Bool → Bool → List Nat × Nat × Bool × Bool × Bool
  | 0, _, out, a, nf, tl => (out, a, false, nf, tl)
  | fuel + 1, i, out, a, nf, tl =>
    let x := match row i with | .over t n l => (t, n, l) | _ => (none, false, false)
    let nf := nf || x.2.1
    let tl := tl || x.2.2
    match x.1 with
    | none => (out, a, decide (i = 0), nf, tl)
    | some t =>
      let out := out ++ [t]
      let hit := decide (i < d) && decide (t = draft (i + 1))
      let a := if hit then a + 1 else a
      if stops.contains t || decide (out.length = remaining) then (out, a, true, nf, tl)
      else if !hit then (out, a, false, nf, tl)
      else verifyGo row draft stops remaining d fuel (i + 1) out a nf tl

/-- The draft length after a step (R287): draft_cur, zero_run, backoff. -/
def adaptDraft (d a dmax cur zr bo : Nat) : Nat × Nat × Nat :=
  if d = 0 then
    if 0 < bo then (if bo = 1 then (min dmax 1, zr, 0) else (cur, zr, bo - 1)) else (cur, zr, bo)
  else if a = 0 then
    if zr + 1 = 8 then (0, 0, 256) else (min dmax 1, zr + 1, bo)
  else (min dmax (a + 1), 0, bo)

/-! ### Row units (R271, R292, R293) -/

/-- Replace command i of Quill j. -/
def State.putQuill (s : State) (j i : Nat) (c : EngCmd) : State := s.setQuillQueue j (listSet (s.quillQueue j) i c)

/-- Row units in use by commands. -/
def unitsBusy (l : List EngCmd) : List Nat :=
  l.flatMap (fun c => c.rows.filterMap (fun r => match r with | .runs u _ _ => some u | _ => none))
/-- The lowest-numbered free row unit. -/
def unitFree (l : List EngCmd) : Option Nat := (List.range 4).find? (fun u => !(unitsBusy l).contains u)

/-- The next row that waits, in acceptance order: command and row. -/
def rowNext (l : List EngCmd) : Option (Nat × Nat) :=
  (List.range l.length).findSome? (fun i => match l[i]? with
    | some c => ((List.range c.rows.length).find? (fun k => decide (c.rows[k]? = some QRow.waits))).map (fun k => (i, k))
    | none => none)

/-- One pass over row k of command c as memory stands: the processed logits and the non-finite flag. -/
def State.rowRead (s : State) (c : EngCmd) (k : Nat) : List (Nat × Nat) × Bool :=
  let r := c.raw
  let pr := c.profile
  let sz := pfSize pr
  rowPass pr
    (fun t => (match c.pens.find? (fun e => decide (e.1 = t)) with | some e => e.2 | none => 0) + ((c.drafts.take k).filter (fun d => decide (d = t))).length)
    (fun t => let v := s.ldN (qcLogits r + k * qcStride r + sz * t) sz
      if sz = 2 then v * 65536 else v)
    (fun t => !pfMaskEn pr || bit (s.ldN (pfMaskAddr pr + t / 8) 1) (t % 8))

/-- What a pass over row k of command c reads: ranges of memory. -/
def rowRanges (c : EngCmd) (k : Nat) : List (Nat × Nat) :=
  (qcLogits c.raw + k * qcStride c.raw, pfVocab c.profile * pfSize c.profile) ::
    (if pfMaskEn c.profile then [(pfMaskAddr c.profile, cdiv (pfVocab c.profile) 8)] else [])

/-- Command c of Quill j reads ranges: reads of poisoned lines are counted (R221), and one writes SRV.QUILL_PARITY (R295); was there
one? -/
def State.quillRead (s : State) (j : Nat) (c : EngCmd) (l : List (Nat × Nat)) : State × Bool :=
  let bad := l.any (fun e => s.rangeBad e.1 e.2)
  let t := each l s (fun e t => t.countPoison e.1 e.2)
  (if bad then t.quillFault j 0x5005 c else t, bad)

/-- Row k of command i of Quill j goes to row unit u, which makes the first pass. -/
def State.rowBegin (s : State) (j i k u : Nat) : State :=
  match (s.quillQueue j)[i]? with
  | none => s
  | some c =>
    let p := s.rowRead c k
    let q := s.quillRead j c (rowRanges c k)
    q.1.putQuill j i { c with spoilt := c.spoilt || q.2, rows := listSet c.rows k (.runs u (rowCands c.profile p.1) p.2) }

/-- Rows that wait take the free row units, the lowest-numbered first. -/
def State.rowAssign (s : State) (j : Nat) : Nat → State
  | 0 => s
  | n + 1 =>
    match rowNext (s.quillQueue j), unitFree (s.quillQueue j) with
    | some (i, k), some u => (s.rowBegin j i k u).rowAssign j n
    | _, _ => s

/-- Row k of command i of Quill j ends: the second pass, which a greedy row does not make (R293), gives W_all and the choice. `upset`: a
parity error in its row unit (R295). -/
def State.rowEnd (s : State) (j i k : Nat) (upset : Bool) : State :=
  match (s.quillQueue j)[i]? with
  | none => s
  | some c =>
    match c.rows[k]? with
    | some (.runs _ cands nf) =>
      let greedy := decide (pfTemp c.profile = 0)
      let p := if greedy then ([], false) else s.rowRead c k
      let ch := rowChoice c.profile cands (rowAll c.profile cands p.1) (quillDraw (cxSeed c.head) (qcPos c.raw + k))
      let q := s.quillRead j c (if greedy then [] else rowRanges c k)
      let s := if upset then (q.1.quillFault j 0x5005 c).countedFault 5 j else q.1
      (s.inc (Reg.QUILL_CNT.rows j) 1).putQuill j i { c with spoilt := c.spoilt || q.2 || upset, rows := listSet c.rows k (.over ch.1 (nf || p.2) ch.2) }
    | _ => s

/-- The first row of a command that is on a row unit; and the first that is not over. -/
def rowOn (c : EngCmd) : Option Nat :=
  (List.range c.rows.length).find? (fun k => match c.rows[k]? with | some (.runs _ _ _) => true | _ => false)
def rowsOver (c : EngCmd) : Bool := c.rows.all (fun r => match r with | .over _ _ _ => true | _ => false)

/-- Command i of Quill j, a SAMPLE with profile pr that passed its checks, starts: it sets busy and reads its context and drafts; its rows
wait for row units (R278, R290). -/
def State.sampleBegin (s : State) (j i : Nat) (c : EngCmd) (pr : Nat) (who : Option Nat) : State :=
  let p := c.part
  let x := qcCtx c.raw
  let d := qcDraft c.raw
  let q := s.quillRead j c ((s.ctxAddr p x + 64, 4 * cxPenCount (s.ctxHead p x)) :: (if 0 < d then [(qcDrafts c.raw, 4 * d)] else []))
  (q.1.setBusy p x true).putQuill j i { c with
    started := true, profile := pr, head := s.ctxHead p x, pens := s.penList p x, drafts := (List.range d).map (fun i => s.ldN (qcDrafts c.raw + 4 * i) 4),
    spoilt := q.2, rows := List.replicate (d + 1) .waits, who := who }

/-- What a SAMPLE whose rows are over leaves: the state, the status, the tokens, end, and its result record. -/
structure SampleRes where
  s : State
  status : Nat
  toks : List Nat
  fin : Bool
  rec_ : Nat
  deriving DecidableEq, Repr

/-- The end of a SAMPLE whose rows are over (R285, R286): the out array and the context are written, the header whole as it was read at the
start with what changed (R278). -/
def State.sampleRun (s : State) (c : EngCmd) : SampleRes :=
  let r := c.raw
  let p := c.part
  let x := qcCtx r
  let h := c.head
  let d := qcDraft r
  if c.spoilt then
    ⟨s.stN (s.ctxAddr p x) 64 (setBits h 17 1 0), stUnreadable, [], false,
      quillRecord r stUnreadable 0 0 (cxDraftCur h) false false false (cxOverflow h) 0 (cxSteps h)⟩
  else
    let v := verifyGo (fun i => c.rows.getD i .waits) (fun i => c.drafts.getD (i - 1) 0) (pfStops c.profile) (cxRemaining h) d (d + 1) 0 [] 0 false false
    let e := v.1.length
    let a := v.2.1
    if e = 0 then
      let s := s.stN (s.ctxAddr p x) 64 (setBits (setBits h 17 1 0) 128 23 0)
      ⟨s, stNoCandidate, [], true, quillRecord r stNoCandidate 0 0 (cxDraftCur h) true v.2.2.2.2 v.2.2.2.1 (cxOverflow h) 0 (cxSteps h)⟩
    else
      let pl := v.1.foldl (fun (st : List (Nat × Nat) × Bool) t => (let q := penAdd st.1 t; (q.1, st.2 || q.2))) (c.pens, cxOverflow h)
      let ad := adaptDraft d a (cxDraftMax h) (cxDraftCur h) (cxZeroRun h) (cxBackoff h)
      let h1 := setBits (setBits (setBits (setBits (setBits h 17 1 0) 18 1 (b2n pl.2)) 24 5 ad.1) 29 4 ad.2.1) 33 9 ad.2.2
      let h2 := setBits (setBits (setBits h1 128 23 (cxRemaining h - e)) 160 32 (cxSteps h + 1)) 192 32 (satAdd (bits h 192 32) d 32)
      let h3 := setBits (setBits (setBits h2 224 32 (satAdd (bits h 224 32) a 32))
        256 32 (if 0 < d ∧ a = 0 then satAdd (bits h 256 32) 1 32 else bits h 256 32)) 288 11 pl.1.length
      let s := if qcOutEn r then s.stBytes (qcOut r) (v.1.flatMap (fun t => leBytes t 4)) else s
      let s := s.stBytes (s.ctxAddr p x + 64) (pl.1.flatMap (fun q => leBytes (q.1 + 524288 * q.2) 4))
      let s := s.stN (s.ctxAddr p x) 64 h3
      let s := (s.inc (Reg.QUILL_PART_CNT.drafted p) d).inc (Reg.QUILL_PART_CNT.accepted p) a
      ⟨s, stSuccess, v.1, v.2.2.1,
        quillRecord r stSuccess e a ad.1 v.2.2.1 v.2.2.2.2 v.2.2.2.1 pl.2 (v.1.getLast?.getD 0) (cxSteps h + 1)⟩

/-- May command i of Quill j take its turn: every earlier one has started, and none of its own context is before it (R290,
R293)? -/
def quillTurn (l : List EngCmd) (i : Nat) : Bool :=
  match l[i]? with
  | none => false
  | some c => !c.started && (l.take i).all (fun d => d.started && !(decide (d.part = c.part) && decide (qcCtx d.raw = qcCtx c.raw)))

/-- The record of a command that ends at its checks. -/
def State.quillEndRecord (s : State) (c : EngCmd) (status : Nat) (fin : Bool) : Nat :=
  let read := s.quillFields c && s.permit c.part (s.ctxAddr c.part (qcCtx c.raw)) 8192
  let h := if read then s.ctxHead c.part (qcCtx c.raw) else 0
  quillRecord c.raw status 0 0 (cxDraftCur h) fin false false (cxOverflow h) 0 (cxSteps h)

/-- A fence of Quill j (R291): every command on it ends with UNIT_FENCED. -/
def State.quillFence (s : State) (j : Nat) : State :=
  let l := s.quillQueue j
  each l (s.setQuillQueue j []) (fun c t =>
    let t := if c.started then t.setBusy c.part (qcCtx c.raw) false else t
    t.engResult c (t.quillEndRecord c stUnitFenced false))

end Sys2Proof.Machine
end

