-- ==== Sys2Proof/Machine/Ethernet.lean ====
section
/-! DEFINITION. Ethernet ports, Blotters and egress scheduling (R332 to R365). -/

namespace Sys2Proof.Machine

/-! ### MACs (R332) -/

/-- The rate of MAC m in Gb/s; 0 where it is absent. -/
def State.macRate (s : State) (m : Nat) : Nat :=
  if m < 32 ∧ s.tilePresent (8 + m / 16) = true then
    match s.rd (Reg.ETH_PORT_CFG.mode (m / 4)) with
    | 1 => if m % 4 = 0 then 400 else 0
    | 2 => if m % 4 < 2 then 200 else 0
    | 3 => 100
    | _ => 0
  else 0

def State.macUp (s : State) (m : Nat) : Bool :=
  decide (s.macRate m ≠ 0) && bit (s.rd (Reg.ETH_PORT_STAT.link_up (m / 4))) (m % 4)

/-- The time of a frame's delimiter or end, in units of 2^−32 ns. -/
def State.t32n (s : State) : Nat := s.t32.toNat

/-- Time that L frame bytes, preamble and gap take, in units of 2^−32 ns (R357). -/
def frameTime (l rate : Nat) : Nat := (l + 20) * 8 * 4294967296 / rate

/-- An ETH, BLT or EQS record (R472) of local MAC or port `unit` on radio tile t. -/
def State.ethFault (s : State) (code t unit arg0 part : Nat) : State :=
  s.fault { code := code, part := part, die := 8 + t, unit := unit, arg0 := arg0 }

/-! ### Air time (R346) -/

/-- The air time of a U-plane or C-plane message with eCPRI header `b` for a cell at subcarrier spacing µ, near time `near` (ns):
in units of 1/(480·2^µ) ns, which are exact. Bytes 9 to 11 hold frameId, subframeId (4 bits), slotId (6), symbolId (6). -/
def State.airTime (s : State) (mu near : Nat) (b : List Nat) : Int :=
  let f := b.getD 9 0
  let sub := b.getD 10 0 / 16
  let slot := b.getD 10 0 % 16 * 4 + b.getD 11 0 / 64
  let sym := b.getD 11 0 % 64
  let phase : Int := (s.rd Reg.TICK_PHASE.phase_ns : Nat)
  let x : Int := (near : Int) - phase - (f : Int) * 10000000
  let k := (x + 1280000000) / 2560000000
  let start : Int := phase + ((f : Int) + 256 * k) * 10000000 + (sub : Int) * 1000000
  let l := slot * 14 + sym
  let extra := (if 0 < l then 16 * 2 ^ mu else 0) + (if 7 * 2 ^ mu < l then 16 * 2 ^ mu else 0)
  start * (480 * 2 ^ mu : Nat) + ((l * 2192 + extra) * 15625 : Nat)

/-- The air time of a message of cell c, scaled by airScale c. -/
def State.cellAir (s : State) (c near : Nat) (b : List Nat) : Int := s.airTime (s.rd (Reg.RAD_CELL_CFG.scs c)) near b
def State.airScale (s : State) (c : Nat) : Int := ((480 * 2 ^ s.rd (Reg.RAD_CELL_CFG.scs c) : Nat) : Int)

/-! ### Owners (R339, R466) -/

/-- The partition that owns a queue of kind `kind` with owner field `owner`; 64 where none does. -/
def State.queuePart (s : State) (kind owner : Nat) : Nat :=
  match kind with
  | 1 => if owner < 1024 then s.rd (Reg.RAD_CELL_CFG.partition owner) else 64
  | 2 => if owner < 64 then owner else 64
  | 3 => s.hqOwner owner
  | _ => 64

/-- Is the cell that owns a cell-kind queue of radio tile t valid on that tile (R339)? -/
def State.cellOn (s : State) (c t : Nat) : Bool :=
  decide (c < 1024) && s.on (Reg.RAD_CELL_CFG.valid c) && decide (s.rd (Reg.RAD_CELL_CFG.tile c) = t) && !NMap.get false s.rad.badCells c

/-- Is receive queue q in use? -/
def State.rxqOn (s : State) (q : Nat) : Bool :=
  let k := s.rd (Reg.BLT_RXQ_CFG.kind q)
  let o := s.rd (Reg.BLT_RXQ_CFG.owner q)
  match k with
  | 1 => s.cellOn o (q / 4096)
  | 2 => decide (o < 64)
  | 3 => true
  | _ => false

/-- Is egress queue q in use? -/
def State.egqOn (s : State) (q : Nat) : Bool :=
  let o := s.rd (Reg.EQS_Q_CFG.owner q)
  match s.rd (Reg.EQS_Q_CFG.kind q) with
  | 1 => s.cellOn o (q / 4096)
  | 2 => decide (o < 64)
  | 3 => true
  | _ => false

/-! ### Queues -/

def State.rxq (s : State) (q : Nat) : List RxPkt := NMap.get [] s.eth.rxq q
def State.setRxq (s : State) (q : Nat) (l : List RxPkt) : State := { s with eth := { s.eth with rxq := NMap.put [] s.eth.rxq q l } }
def State.egq (s : State) (q : Nat) : List TxMsg := NMap.get [] s.eth.egq q
def State.setEgq (s : State) (q : Nat) (l : List TxMsg) : State := { s with eth := { s.eth with egq := NMap.put [] s.eth.egq q l } }

/-- MAC m, package-wide, of egress queue q. -/
def State.egqMac (s : State) (q : Nat) : Nat := q / 4096 * 16 + s.rd (Reg.EQS_Q_CFG.mac q)

/-! ### Priority flow control and FH_XOFF (R347 to R350) -/

/-- A PFC frame as IEEE 802.1Qbb lays it out, without FCS. -/
def pfcBytes (src mask quanta : Nat) : List Nat :=
  [0x01, 0x80, 0xC2, 0x00, 0x00, 0x01] ++ (leBytes src 6).reverse ++ [0x88, 0x08, 0x01, 0x01, 0, mask] ++
    (List.range 8).flatMap (fun k => if bit mask k then [quanta / 256, quanta % 256] else [0, 0]) ++ List.replicate 26 0

/-- Send a PFC frame on MAC m, with quanta for the priorities of pfc_tx_mask; none with an empty mask (R349). -/
def State.sendPfc (s : State) (m quanta : Nat) : State :=
  let mask := s.rd (Reg.ETH_MAC_CFG.pfc_tx_mask m)
  if !s.macUp m || mask == 0 then s
  else
    let start := max s.t32n (NMap.get 0 s.eth.busy m)
    let f : TxFrame := ⟨m, pfcBytes (s.rd (Reg.ETH_MAC_ADDR.addr m)) mask quanta, false, start⟩
    { s with eth := { s.eth with sent := s.eth.sent ++ [f], pfcAt := NMap.put 0 s.eth.pfcAt m s.time.cnt,
                                 busy := NMap.put 0 s.eth.busy m (start + frameTime 64 (s.macRate m)) } }

/-- The XOFF state of port p after its fill or thresholds changed (R347). -/
def State.xoffWant (s : State) (p : Nat) : Bool :=
  let fill := s.rd (Reg.BLT_FILL.fill_kib p)
  if !s.on (Reg.BLT_PORT_CFG.xoff_en p) then false
  else if s.rd (Reg.BLT_PORT_CFG.hi_kib p) ≤ fill then true
  else if fill ≤ s.rd (Reg.BLT_PORT_CFG.lo_kib p) then false
  else NMap.get false s.eth.xoffIn p

/-- FH_XOFF and BLT_FILL.xoff follow XOFF, but no sooner than 1 µs after their last change (R348); each change sends PFC frames. -/
def State.xoffPin (s : State) (p : Nat) : State :=
  let want := NMap.get false s.eth.xoffIn p
  let last := NMap.get 0 s.eth.xoffAt p
  if want = s.on (Reg.BLT_FILL.xoff p) ∨ (last ≠ 0 ∧ s.time.cnt < last - 1 + usCycles 1) then s
  else
    let s := ({ s with eth := { s.eth with xoffAt := NMap.put 0 s.eth.xoffAt p (s.time.cnt + 1) } }).wr (Reg.BLT_FILL.xoff p) (b2n want)
    upto 4 s (fun i t => t.sendPfc (4 * p + i) (if want then 0xFFFF else 0))

/-- XOFF follows the fill of port p, and its pin follows XOFF. -/
def State.xoffEval (s : State) (p : Nat) : State :=
  ({ s with eth := { s.eth with xoffIn := NMap.put false s.eth.xoffIn p (s.xoffWant p) } }).xoffPin p

/-- Set the bytes held in port p's receive Blotter. -/
def State.setFill (s : State) (p v : Nat) : State :=
  (({ s with eth := { s.eth with fill := NMap.put 0 s.eth.fill p v } }).wr (Reg.BLT_FILL.fill_kib p) (v / 1024)).xoffEval p
def State.addFill (s : State) (p n : Nat) : State := s.setFill p (NMap.get 0 s.eth.fill p + n)
def State.subFill (s : State) (p n : Nat) : State := s.setFill p (NMap.get 0 s.eth.fill p - n)

/-- A received PFC frame on MAC m: quanta by priority, for the priorities of the vector (R350). -/
def State.pfcReceived (s : State) (m vec : Nat) (quanta : List Nat) : State :=
  upto 8 s (fun k t =>
    if !bit vec k then t
    else if bit (t.rd (Reg.ETH_MAC_CFG.pfc_rx_honour m)) k then
      let until_ := t.time.cnt + cdiv (quanta.getD k 0 * 512 * 8) (5 * t.macRate m)
      { t with eth := { t.eth with pause := NMap.put 0 t.eth.pause (8 * m + k) (if quanta.getD k 0 = 0 then 0 else until_) } }
    else t.inc (Reg.ETH_MAC_CNT.pause_ignored m) 1)

/-! ### Frames -/

/-- Big-endian value of bytes. -/
def beNat (l : List Nat) : Nat := leNat l.reverse

/-- Where the EtherType of a frame stands and its VID (R334): untagged, a C-tag, or an S-tag followed by a C-tag; none where its
tags are others. -/
def frameTags (f : List Nat) : Option (Nat × Nat) :=
  let ty := fun i => beNat ((f.drop i).take 2)
  if ty 12 = 0x8100 then (if ty 16 = 0x8100 ∨ ty 16 = 0x88A8 then none else some (16, ty 14 % 4096))
  else if ty 12 = 0x88A8 then (if ty 16 = 0x8100 ∧ ty 20 ≠ 0x8100 ∧ ty 20 ≠ 0x88A8 then some (20, ty 18 % 4096) else none)
  else some (12, 0)

/-- The address filter of R334. -/
def State.addrOk (s : State) (m : Nat) (f : List Nat) : Bool :=
  let d := beNat (f.take 6)
  d == s.rd (Reg.ETH_MAC_ADDR.addr m) || d == 0xFFFFFFFFFFFF || d == 0x011B19000000 || d == 0x0180C200000E

/-- The local receive queue of a valid classifier entry that matches (R338). -/
def State.classify (s : State) (m plane vid id : Nat) : Option Nat :=
  let t := m / 16
  match s.regs.find? (fun e =>
      decide (0x610000 ≤ e.1) && decide (e.1 < 0x630000) && decide (e.1 % 16 = 0) && decide ((e.1 - 0x610000) / 65536 = t) &&
        bit e.2.toNat 63 && decide (bits e.2.toNat 62 1 = plane) && decide (bits e.2.toNat 48 4 = m % 16) &&
        decide (bits e.2.toNat 32 12 = vid) && decide (bits e.2.toNat 0 16 = id)) with
  | some e => some (4096 * t + s.rd (Reg.ETH_CLS_ACT.queue ((e.1 - 0x610000) / 16)))
  | none => none

/-- What becomes of a frame that passed its checks (R337). -/
inductive RxClass where
  | drop
  | timeUnit
  | queue (q id : Nat)
  deriving DecidableEq, Repr

/-- The host queue of a MAC (R337, assumption log). -/
def State.hostRx (s : State) (m : Nat) : RxClass :=
  let q := 4096 * (m / 16) + Config.hostRxQueue m % 4096
  if s.rd (Reg.BLT_RXQ_CFG.kind q) = 3 then .queue q 0 else .drop

/-- Steps 3 to 7 of R337. -/
def State.rxClass (s : State) (m : Nat) (f : List Nat) : RxClass :=
  match frameTags f with
  | none => .drop
  | some (o, vid) =>
    let ty := beNat ((f.drop o).take 2)
    let b := f.drop (o + 2)
    let found := fun plane id => match s.classify m plane vid id with
      | some q => if s.rxqOn q then RxClass.queue q id else .drop
      | none => .drop
    if !s.addrOk m f then .drop
    else if ty = 0x88F7 then .timeUnit
    else if ty = 0xAEFE then
      if b.getD 0 0 / 16 ≠ 1 ∨ b.getD 0 0 % 2 ≠ 0 then .drop
      else if b.getD 1 0 = 0 then found 0 (beNat ((b.drop 4).take 2))
      else if b.getD 1 0 = 5 then s.hostRx m
      else .drop
    else if ty = s.rd Reg.ETH_SVC_CFG.ethertype ∧ ty ≠ 0 then
      (if b.getD 0 0 ≠ 1 then .drop else found 1 (leNat ((b.drop 4).take 2)))
    else s.hostRx m

/-- The packet of a frame. -/
def rxPacket (m time id : Nat) (f : List Nat) : RxPkt :=
  let o := match frameTags f with | some x => x | none => (12, 0)
  ⟨m / 4, m % 16, time, o.2, id, f.take (o.1 + 2), f.drop (o.1 + 2), f.length + 4, 0⟩

/-- The 16-byte receive header (R344). -/
def rxHeader (p : RxPkt) : Nat :=
  setBits (setBits (setBits (setBits (setBits 0 0 64 (p.time / 65536)) 64 16 p.body.length) 80 4 p.mac) 84 12 p.vid) 96 16 p.id

/-! ### Service messages (R359) -/

/-- A segment joins the message under reassembly on receive queue q, or discards it. -/
def State.svcSegment (s : State) (q : Nat) (p : RxPkt) : State :=
  let h := leNat (p.body.take 16)
  let seg := p.body.drop 16
  let reject := fun (t : State) => ({ t with eth := { t.eth with svc := NMap.del t.eth.svc q } }).inc (Reg.BLT_RXQ_STAT.rejected q) 1
  let keep := fun (t : State) (m : SvcMsg) =>
    if bit h 17 then
      { t with eth := { t.eth with svc := NMap.del t.eth.svc q, svcDone := NMap.put [] t.eth.svcDone q (NMap.get [] t.eth.svcDone q ++ [m]) } }
    else { t with eth := { t.eth with svc := NMap.ins t.eth.svc q m } }
  let cur := NMap.find s.eth.svc q
  if bit h 16 then
    let s := if cur.isSome then reject s else s
    if bits h 96 32 ≠ 0 then reject s
    else keep s ⟨bits h 8 8, bits h 32 16, bits h 64 32, seg, beNat ((p.head.drop 6).take 6), 1⟩
  else
    match cur with
    | none => s.inc (Reg.BLT_RXQ_STAT.rejected q) 1
    | some m =>
      if m.msgId ≠ bits h 64 32 ∨ bits h 96 32 ≠ m.bytes.length then reject s
      else keep s { m with bytes := m.bytes ++ seg, pkts := m.pkts + 1 }

/-! ### Delivery to the host (R500) -/

/-- The body of an RX_BUF or NET_TX record (R499): bytes, time stamp in 2^−16 ns, local MAC, VID. -/
def netBody (bytes time mac vid : Nat) : Nat :=
  setBits (setBits (setBits (setBits (setBits 0 96 32 bytes) 128 64 (time / 65536)) 192 16 (time % 65536)) 208 4 mac) 212 12 vid

/-- The oldest posted buffer of host queue h. -/
def State.rxBuf (s : State) (h : Nat) : Option HCmd := (s.hq_ h).cmds.find? (fun c => c.posted && hOp c == 0x11)

/-- A kind 3 receive queue of host queue h that holds a packet: the lowest. -/
def State.hostPacket (s : State) (h : Nat) : Option (Nat × RxPkt) :=
  match s.eth.rxq.find? (fun e => decide (s.rd (Reg.BLT_RXQ_CFG.kind e.1) = 3) && decide (s.rd (Reg.BLT_RXQ_CFG.owner e.1) = h) && !e.2.isEmpty) with
  | some (q, p :: _) => some (q, p)
  | _ => none

/-- Fill posted buffers of host queue h with waiting frames, in ring order. -/
def State.hostDeliver (s : State) (h : Nat) : Nat → State
  | 0 => s
  | n + 1 =>
    match s.rxBuf h, s.hostPacket h with
    | some c, some (q, p) =>
      let s := (s.setRxq q (s.rxq q).tail).subFill p.port p.space
      let f := p.head ++ p.body
      if bits c.raw 128 32 < f.length then (s.inc (Reg.HQ_Q_STAT.rx_too_big h) 1).hostDeliver h n
      else
        (match s.hqPasid h with
         | some pasid =>
           if s.hostUp then
             let s := s.hostWr pasid (bits c.raw 64 64) f.length (leNat f)
             (s.hComplete h c stSuccess (netBody f.length p.time p.mac p.vid)).hostDeliver h n
           else ((s.hqAccessFault h (bits c.raw 64 64)).hComplete h c stHostFailed 0).hostDeliver h n
         | none => ((s.hqAccessFault h (bits c.raw 64 64)).hComplete h c stHostFailed 0).hostDeliver h n)
    | _, _ => s

/-! ### Receiving (R340 to R346) -/

/-- The whole packet is rewound for want of space (R343). -/
def State.rxOverflow (s : State) (m : Nat) : State :=
  (s.inc (Reg.BLT_STAT.overflow_drops (m / 4)) 1).faultGather
    { code := 0x500F, part := 0x7F, die := 8 + m / 16, unit := m / 4 % 4 }

def State.rxCell (s : State) (q : Nat) : Nat := s.rd (Reg.BLT_RXQ_CFG.owner q)

/-- Packet p joins a queue as its newest, but before packets of higher ports that committed in its cycle (R345). -/
def rxJoin (p : RxPkt) (l : List RxPkt) : List RxPkt :=
  let late := (l.reverse.takeWhile (fun x => decide (x.cnt = p.cnt) && decide (p.port < x.port))).length
  l.take (l.length - late) ++ p :: l.drop (l.length - late)

/-- Commit packet p to queue q (R340, R345, R346). -/
def State.rxCommit (s : State) (q : Nat) (p : RxPkt) : State :=
  let k := s.rd (Reg.BLT_RXQ_CFG.kind q)
  let o := s.rd (Reg.BLT_RXQ_CFG.owner q)
  let s := s.meter (s.queuePart k o) 6 p.space
  let air := s.cellAir o (p.time / 65536) p.body
  let sc := s.airScale o
  let rx : Int := ((p.time / 65536 : Nat) : Int) * sc
  if k = 1 ∧ air + 10 * (s.rd (Reg.BLT_RXQ_CFG.ta4_max q) : Int) * sc < rx then s.inc (Reg.RAD_CELL_STAT.late_msgs o) 1
  else if k = 1 ∧ rx < air + 10 * (s.rd (Reg.BLT_RXQ_CFG.ta4_min q) : Int) * sc then s.inc (Reg.BLT_RXQ_STAT.early q) 1
  else
    let s := s.inc (Reg.BLT_RXQ_STAT.packets q) 1
    if k = 2 then s.svcSegment q p
    else
      let s := (s.setRxq q (rxJoin { p with cnt := s.time.cnt } (s.rxq q))).addFill p.port p.space
      if k = 3 then s.hostDeliver o 64 else s

/-- Have n bytes of a packet of MAC m no space, of which `held` already stand in the port's Blotter, or would they take their queue
beyond its limit (R343)? -/
def State.rxFull (s : State) (m held : Nat) (bytes : List Nat) (n : Nat) : Bool :=
  decide (0x400000 < NMap.get 0 s.eth.fill (m / 4) - held + n) ||
    decide (28 ≤ bytes.length) && (match s.rxClass m bytes with
     | .queue q _ => decide ((s.rd (Reg.BLT_RXQ_CFG.limit_64k_m1 q) + 1) * 65536 < (s.rxq q).foldl (fun a x => a + x.space) 0 + n)
     | _ => false)

/-- The packet that MAC m was receiving leaves its Blotter, which then holds n bytes of it. -/
def State.rxHold (s : State) (m n : Nat) : State :=
  let held := (NMap.get (0, 0) s.eth.partials m).1
  let e := { s.eth with partials := NMap.del s.eth.partials m }
  let e := if n = 0 then e else { e with partials := NMap.ins e.partials m (n, s.time.cnt) }
  ({ s with eth := e }).setFill (m / 4) (NMap.get 0 s.eth.fill (m / 4) - held + n)

/-- Words that arrive for the packet of MAC m belong to one that was rewound now: code 1 after a stall, 2 after another cause. -/
def State.rxCut (s : State) (m code : Nat) : State := { s with eth := { s.eth with cut := NMap.put 0 s.eth.cut m (4 * s.time.cnt + code) } }

/-- Does a frame whose delimiter arrived `lag` (2^−16 ns) ago belong to the packet whose rewinding is `cut` (R342)? -/
def State.sameFrame (s : State) (cut lag : Nat) : Bool := decide (cut ≠ 0) && decide (5 * 65536 * (s.time.cnt - cut / 4) ≤ 8 * lag)

/-- R337: the bytes of a frame on MAC m so far, from its destination address up to its FCS. `done`: its last word has arrived;
`fcsOk`, `parity`: its checks; `lag`: time since its start-of-frame delimiter, in 2^−16 ns. -/
def execFrameReceived (m : Nat) (done fcsOk parity : Bool) (lag : Nat) (bytes : List Nat) (s : State) :
    Host.Outcome State Fault Refusal :=
  let port := m / 4
  let held := (NMap.get (0, 0) s.eth.partials m).1
  let cut := NMap.get 0 s.eth.cut m
  let uncut := fun (t : State) => { t with eth := { t.eth with cut := NMap.del t.eth.cut m } }
  if !s.macUp m then .next s
  else if s.sameFrame cut lag then
    let t := if done then uncut s else s
    .next (if cut % 4 = 1 ∧ done = true then t.inc (Reg.BLT_STAT.framing_drops port) 1 else t)
  else if !done then
    let s := uncut s
    if s.rxFull m held bytes bytes.length then .next (((s.rxHold m 0).rxCut m 2).rxOverflow m)
    else .next (s.rxHold m bytes.length)
  else
    let s := uncut s
    let len := bytes.length + 4
    let bad := !fcsOk || decide (len < 64) || decide (s.rd (Reg.ETH_MAC_CFG.mtu m) < len) || parity
    let o := match frameTags bytes with | some x => x.1 | none => 12
    let ty := beNat ((bytes.drop o).take 2)
    let op := beNat ((bytes.drop (o + 2)).take 2)
    let full := decide (ty ≠ 0x8808) && s.rxFull m held bytes len
    let s := s.rxHold m 0
    if full then .next (s.rxOverflow m)
    else if bad then
      let s := s.inc (Reg.BLT_STAT.error_rewinds port) 1
      .next (if fcsOk then s else s.inc (Reg.ETH_MAC_CNT.fcs_errors m) 1)
    else if ty = 0x8808 ∧ op = 0x0101 then
      let v := bytes.drop (o + 4)
      .next (s.pfcReceived m (v.getD 1 0) ((List.range 8).map (fun k => beNat ((v.drop (2 + 2 * k)).take 2))))
    else if ty = 0x8808 ∧ op = 0x0001 then .next (s.inc (Reg.ETH_MAC_CNT.pause_ignored m) 1)
    else
      let asym := sInt (s.rd (Reg.TIME_PTP_PORT.asym m)) 32
      let time := (s.t32 / 65536 - (lag : Int) + asym).toNat
      match s.rxClass m bytes with
      | .drop => .next (s.inc (Reg.ETH_MAC_CNT.dropped_unmatched m) 1)
      | .timeUnit => .next { s with eth := { s.eth with ptpRx := s.eth.ptpRx ++ [rxPacket m time 0 bytes] } }
      | .queue q id => .next (s.rxCommit q (rxPacket m time id bytes))

/-! ### Egress (R351 to R353) -/

/-- Frame bytes of a message of `body` bytes with FCS (R352). -/
def State.egFrameLen (s : State) (q body : Nat) : Nat :=
  max 64 (14 + (if s.on (Reg.EQS_Q_HDR.tagged q) then 4 else 0) + body + 4)

/-- Virtual time V of a TC of a MAC. -/
def State.wfqV (s : State) (m tc : Nat) : Nat := NMap.get 0 s.eth.v (8 * m + tc)
def State.wfqF (s : State) (q : Nat) : Nat := NMap.get 0 s.eth.f q

/-- Fh of a message of L bytes as it reaches the head of queue q; `empty`: the queue was empty (R355). -/
def State.wfqTag (s : State) (q l : Nat) (empty : Bool) : Nat :=
  let w := s.rd (Reg.EQS_Q_CFG.weight_m1 q) + 1
  let c := s.rd (Reg.EQS_Q_CFG.burst_kib q) * 1024 * 65536 / w
  let v := s.wfqV (s.egqMac q) (s.rd (Reg.EQS_Q_CFG.tc q))
  let f := s.wfqF q
  (if empty then v - min c (v - f) else f) + cdiv (l * 65536) w

/-- Bytes of messages in the egress Blotter of tile t. -/
def State.egFill (s : State) (t : Nat) : Nat :=
  (s.eth.egq.filter (fun e => decide (e.1 / 4096 = t))).foldl (fun a e => a + (e.2.foldl (fun b x => b + x.body.length) 0)) 0

/-- Is there room for a message of n bytes in queue q and its Blotter (R351)? -/
def State.egRoom (s : State) (q n : Nat) : Bool :=
  decide ((s.egq q).foldl (fun b x => b + x.body.length) 0 + n ≤ (s.rd (Reg.EQS_Q_CFG.limit_64k_m1 q) + 1) * 65536) &&
    decide (s.egFill (q / 4096) + n ≤ 0x800000)

/-- Would the message's frame exceed mtu (R352)? -/
def State.egOversize (s : State) (q n : Nat) : Bool := decide (s.rd (Reg.ETH_MAC_CFG.mtu (s.egqMac q)) < s.egFrameLen q n)

/-- The oversized message is rewound (R352). -/
def State.egRewind (s : State) (q : Nat) : State :=
  let o := s.rd (Reg.EQS_Q_CFG.owner q)
  let k := s.rd (Reg.EQS_Q_CFG.kind q)
  (s.inc (Reg.EQS_Q_STAT.rewinds q) 1).ethFault 0x5011 (q / 4096) (s.rd (Reg.EQS_Q_CFG.mac q)) (if k = 1 then o else q % 4096) (s.queuePart k o)

/-- A message is committed to its queue. -/
def State.egCommit (s : State) (q : Nat) (x : TxMsg) : State :=
  let l := s.egq q
  s.setEgq q (l ++ [if l.isEmpty then { x with fh := s.wfqTag q (s.egFrameLen q x.body.length) true } else x])

/-- The first message of queue q leaves it; the next reaches the head. -/
def State.egPop (s : State) (q : Nat) : State :=
  match (s.egq q).tail with
  | [] => s.setEgq q []
  | x :: r => s.setEgq q ({ x with fh := s.wfqTag q (s.egFrameLen q x.body.length) false } :: r)

/-- Segments of service messages of radio tile t that waited for space enter their queues as far as there is room (R351). -/
def State.svcDrain (s : State) (t : Nat) : State :=
  each (s.eth.svcWait.filter (fun e => decide (e.1 / 4096 = t))) s (fun e u =>
    e.2.foldl (fun v x =>
      match NMap.get [] v.eth.svcWait e.1 with
      | y :: r => if y = x ∧ v.egRoom e.1 x.body.length = true then
          ({ v with eth := { v.eth with svcWait := NMap.put [] v.eth.svcWait e.1 r } }).egCommit e.1 x else v
      | [] => v) u)

/-- The frame of a message, without FCS (R352). The per-queue ecpriSeqid counts the messages sent. -/
def State.egFrame (s : State) (q : Nat) (x : TxMsg) (seq : Nat) : List Nat :=
  let m := s.egqMac q
  let dst := match x.dst with | some d => d | none => s.rd (Reg.EQS_Q_HDR.dst q)
  let tag := if s.on (Reg.EQS_Q_HDR.tagged q) then
      [0x81, 0x00] ++ (leBytes (s.rd (Reg.EQS_Q_HDR.pcp q) * 8192 + s.rd (Reg.EQS_Q_HDR.vid q)) 2).reverse else []
  let cell := s.rd (Reg.EQS_Q_CFG.kind q) == 1
  let ty := if cell then 0xAEFE else match x.etype with | some e => e | none => 0
  let body := if cell then
      let len := (leBytes (x.body.length - 4) 2).reverse
      x.body.take 2 ++ len ++ (x.body.drop 4).take 2 ++ [seq % 256, 0x80] ++ x.body.drop 8
    else x.body
  let f := (leBytes dst 6).reverse ++ (leBytes (s.rd (Reg.ETH_MAC_ADDR.addr m)) 6).reverse ++ tag ++ (leBytes ty 2).reverse ++ body
  f ++ List.replicate (60 - f.length) 0

/-! ### Gates (R356) -/

def State.gclDur (s : State) (m e : Nat) : Nat := s.rd (Reg.EQS_GCL.dur_ns_m1 m e) + 1
def State.gclLen (s : State) (m : Nat) : Nat := s.rd (Reg.EQS_MAC_CFG.gcl_len_m1 m) + 1

/-- Entry and offset at position x of a list whose entries from e on are `n`. -/
def gclFind (dur : Nat → Nat) : Nat → Nat → Nat → Nat × Nat
  | 0, e, x => (e, x)
  | n + 1, e, x => if x < dur e then (e, x) else gclFind dur n (e + 1) (x - dur e)

/-- The gate entry in force on MAC m at `ns`, and ns since its start; none where every gate is open. -/
def State.gateAt (s : State) (m ns : Nat) : Option (Nat × Nat) :=
  let base := s.rd (Reg.EQS_GATE_BASE.base_ns m)
  if !s.on (Reg.EQS_MAC_CFG.gate_en m) || decide (ns < base) then none
  else
    let n := s.gclLen m
    let cyc := (List.range n).foldl (fun a e => a + s.gclDur m e) 0
    some (gclFind (s.gclDur m) (n - 1) 0 ((ns - base) % cyc))

/-- ns from the end of entry e for which TC k stays open, over at most `fuel` further entries; none where it never closes. -/
def State.gateRun (s : State) (m k : Nat) : Nat → Nat → Option Nat
  | 0, _ => none
  | n + 1, e =>
    let e := e % s.gclLen m
    if bit (s.rd (Reg.EQS_GCL.gates m e)) k then (s.gateRun m k n (e + 1)).map (fun x => x + s.gclDur m e) else some 0

/-- Is TC k of MAC m open at `ns`? -/
def State.gateOpen (s : State) (m k ns : Nat) : Bool :=
  match s.gateAt m ns with
  | none => true
  | some (e, _) => bit (s.rd (Reg.EQS_GCL.gates m e)) k

/-- When TC k of MAC m, open at `ns`, closes; none: never. Before base_ns the first cycle decides. -/
def State.gateClose (s : State) (m k ns : Nat) : Option Nat :=
  if !s.on (Reg.EQS_MAC_CFG.gate_en m) then none
  else
    match s.gateAt m ns with
    | some (e, o) => (s.gateRun m k (s.gclLen m) (e + 1)).map (fun x => ns - o + s.gclDur m e + x)
    | none => (s.gateRun m k (s.gclLen m) 0).map (fun x => s.rd (Reg.EQS_GATE_BASE.base_ns m) + x)

/-! ### Selection (R354 to R358) -/

/-- Does a frame of l bytes fit before its TC's gate closes (R357)? -/
def State.egFits (s : State) (m tc l : Nat) : Bool :=
  let t := s.t32n
  match s.gateClose m tc (t / 4294967296) with
  | none => true
  | some c => decide (t + frameTime l (s.macRate m) < c * 4294967296)

/-- Is the message of queue q within its window of R353, and does it fit before the late limit (R357)? -/
def State.egWindow (s : State) (q l : Nat) (x : TxMsg) : Bool :=
  if s.rd (Reg.EQS_Q_CFG.kind q) ≠ 1 then true
  else
    let c := s.rd (Reg.EQS_Q_CFG.owner q)
    let sc := s.airScale c
    let a := s.cellAir c s.nowNs x.body
    let now := (s.t32n : Int) * sc
    let u : Int := 4294967296
    decide ((a - 10 * (s.rd (Reg.EQS_Q_WIN.early q) : Int) * sc) * u ≤ now) &&
      decide (now + (frameTime l (s.macRate (s.egqMac q)) : Int) * sc < (a - 10 * (s.rd (Reg.EQS_Q_WIN.late q) : Int) * sc) * u)

/-- Is the head message of queue q eligible on MAC m now (R354)? -/
def State.egEligible (s : State) (m tc q : Nat) : Bool :=
  match s.egq q with
  | [] => false
  | x :: _ =>
    let l := s.egFrameLen q x.body.length
    s.egqOn q && decide (s.egqMac q = m) && decide (s.rd (Reg.EQS_Q_CFG.tc q) = tc) &&
      decide (NMap.get 0 s.eth.pause (8 * m + s.rd (Reg.EQS_Q_HDR.pcp q)) ≤ s.time.cnt) && s.egWindow q l x && s.egFits m tc l

/-- Eligible queues of a TC, lowest first. -/
def State.egReady (s : State) (m tc : Nat) : List Nat := (s.eth.egq.filter (fun e => s.egEligible m tc e.1)).map (fun e => e.1)

/-- Native mode (R355): least Fh, ties to the lower queue index. -/
def State.pickNative (s : State) (l : List Nat) : Option Nat :=
  let fh := fun q => match s.egq q with | x :: _ => x.fh | [] => 0
  l.foldl (fun b q => match b with
    | none => some q
    | some p => if fh q < fh p then some q else some p) none

/-- What is missing from a bucket now: it fills at `mbps` (R358), one cycle adding 625·mbps·10⁻⁶ bit. -/
def bucketDef (have_ since now mbps : Nat) : Nat := have_ - (now - since) * 625 * mbps

/-- Package-wide subscriber of queue q (R364). -/
def State.egSub (s : State) (q : Nat) : Nat := 512 * (q / 4096) + s.rd (Reg.EQS_Q_CFG.subscriber q)
def State.subDef (s : State) (b : Nat) : Nat :=
  bucketDef (NMap.get 0 s.eth.subDef b) (NMap.get 0 s.eth.subAt b) s.time.cnt (s.rd (Reg.EQS_SUB_CFG.cir_mbps b))
def State.subReady (s : State) (b : Nat) : Bool :=
  s.rd (Reg.EQS_SUB_CFG.cir_mbps b) == 0 || decide (s.subDef b ≤ s.rd (Reg.EQS_SUB_CFG.burst_bytes b) * 8000000)
def State.macDefNow (s : State) (m : Nat) : Nat :=
  bucketDef (NMap.get 0 s.eth.macDef m) (NMap.get 0 s.eth.macAt m) s.time.cnt (s.rd (Reg.EQS_MAC_CFG.kw5_rate_mbps m))
def State.shaperReady (s : State) (m : Nat) : Bool :=
  s.rd (Reg.EQS_MAC_CFG.kw5_rate_mbps m) == 0 || decide (s.macDefNow m ≤ s.rd (Reg.ETH_MAC_CFG.mtu m) * 8000000)

/-- The next of a rising list after `last`, wrapping. -/
def nextAfter (l : List Nat) (last : Option Nat) : Option Nat :=
  match last with
  | none => l.head?
  | some x => match l.find? (fun y => decide (x < y)) with | some y => some y | none => l.head?

/-- KW5 mode (R358): subscribers in turn, then the highest service priority, queues of it in turn. The pointers hold last + 1. -/
def State.pickKw5 (s : State) (m tc : Nat) (l : List Nat) : Option Nat :=
  let last := fun (v : Nat) => if v = 0 then none else some (v - 1)
  let subs := (List.range 1024).filter (fun b => s.subReady b && l.any (fun q => decide (s.egSub q = b)))
  match nextAfter subs (last (NMap.get 0 s.eth.rrSub (8 * m + tc))) with
  | none => none
  | some b =>
    let mine := l.filter (fun q => decide (s.egSub q = b))
    let top := mine.foldl (fun a q => max a (s.rd (Reg.EQS_Q_CFG.svc_prio q))) 0
    nextAfter (mine.filter (fun q => decide (s.rd (Reg.EQS_Q_CFG.svc_prio q) = top))) (last (NMap.get 0 s.eth.rrQ (4 * (1024 * (8 * m + tc) + b) + top)))

/-- The bytes leave MAC m now; its next frame may start when they, the preamble and the gap are over. -/
def State.transmit (s : State) (m : Nat) (bytes : List Nat) (upset : Bool) : State :=
  let s := { s with eth := { s.eth with sent := s.eth.sent ++ [TxFrame.mk m bytes upset s.t32n],
                                        busy := NMap.put 0 s.eth.busy m (s.t32n + frameTime (bytes.length + 4) (s.macRate m)) } }
  if upset then s.inc (Reg.ETH_MAC_CNT.tx_errors m) 1 else s

/-- KW5 buckets after L bytes of queue q. -/
def State.kw5Charge (s : State) (m tc q l : Nat) : State :=
  let b := s.egSub q
  let e := s.eth
  { s with eth := { e with subDef := NMap.put 0 e.subDef b (s.subDef b + l * 8000000), subAt := NMap.put 0 e.subAt b s.time.cnt,
                           macDef := NMap.put 0 e.macDef m (s.macDefNow m + l * 8000000), macAt := NMap.put 0 e.macAt m s.time.cnt,
                           rrSub := NMap.put 0 e.rrSub (8 * m + tc) (b + 1),
                           rrQ := NMap.put 0 e.rrQ (4 * (1024 * (8 * m + tc) + b) + s.rd (Reg.EQS_Q_CFG.svc_prio q)) (q + 1) } }

/-- Queue q sends its head message on MAC m. -/
def State.egSend (s : State) (m tc q : Nat) (upset : Bool) : State :=
  match s.egq q with
  | [] => s
  | x :: _ =>
    let l := s.egFrameLen q x.body.length
    let kw5 := s.on (Reg.EQS_MAC_CFG.kw5 m)
    let seq := NMap.get 0 s.eth.seq q
    let s1 := s.transmit m (s.egFrame q x seq) upset
    let s1 := s1.meter (s.queuePart (s.rd (Reg.EQS_Q_CFG.kind q)) (s.rd (Reg.EQS_Q_CFG.owner q))) 6 l
    let s1 := if kw5 then s1.kw5Charge m tc q l
      else { s1 with eth := { s1.eth with f := NMap.put 0 s1.eth.f q x.fh, v := NMap.put 0 s1.eth.v (8 * m + tc) (max (s.wfqV m tc) x.fh) } }
    let s1 := ({ s1 with eth := { s1.eth with seq := NMap.put 0 s1.eth.seq q ((seq + 1) % 256) } }).egPop q
    let s1 := s1.svcDrain (q / 4096)
    match x.host with
    | none => s1
    | some (h, i) =>
      match s1.hcmd h i with
      | none => s1
      | some c => s1.hComplete h c stSuccess
          (netBody x.body.length (if bit c.raw 141 then s.t32n / 65536 else 0) (m % 16) (s.rd (Reg.EQS_Q_HDR.vid q)))

/-- The type of a PTP message: 0 Sync, 1 Delay_Req, 9 Delay_Resp, 0xB Announce. -/
def ptpType (b : List Nat) : Nat := b.getD 0 0 % 16

/-- The time stamp t16 (units of 2^−16 ns) goes into a PTP message: whole ns into the field at byte 34, the fraction into correctionField
(R376). -/
def ptpTime (b : List Nat) (t16 : Nat) : List Nat :=
  let ns := t16 / 65536
  let cf := (beNat ((b.drop 8).take 8) + t16 % 65536) % 18446744073709551616
  b.take 8 ++ (leBytes cf 8).reverse ++ (b.drop 16).take 18 ++ (leBytes (ns / 1000000000) 6).reverse ++
    (leBytes (ns % 1000000000) 4).reverse ++ b.drop 44

/-- A PTP Sync takes its time stamp as it leaves (R376). -/
def ptpStamp (b : List Nat) (t16 : Nat) : List Nat := if ptpType b = 0 then ptpTime b t16 else b

/-- The device's PTP message at the head of MAC m's own queue: its frame. -/
def State.ptpFrame (s : State) (m : Nat) (x : TxMsg) : List Nat :=
  let f := (leBytes (match x.dst with | some d => d | none => 0x011B19000000) 6).reverse ++ (leBytes (s.rd (Reg.ETH_MAC_ADDR.addr m)) 6).reverse ++
    [0x88, 0xF7] ++ ptpStamp x.body (s.t32n / 65536)
  f ++ List.replicate (60 - f.length) 0

/-- What MAC m sends from TC tc, if anything. -/
def State.egTc (s : State) (m tc : Nat) (upset : Bool) : Option State :=
  match (if tc = 7 then NMap.get [] s.eth.ptp m else []) with
  | x :: r =>
    let f := s.ptpFrame m x
    if s.egFits m 7 (f.length + 4) then
      some (({ s with eth := { s.eth with ptp := NMap.put [] s.eth.ptp m r } }).transmit m f upset)
    else
      (match (if s.on (Reg.EQS_MAC_CFG.kw5 m) then (if s.shaperReady m then s.pickKw5 m tc (s.egReady m tc) else none)
              else s.pickNative (s.egReady m tc)) with
       | some q => some (s.egSend m tc q upset)
       | none => none)
  | [] =>
    match (if s.on (Reg.EQS_MAC_CFG.kw5 m) then (if s.shaperReady m then s.pickKw5 m tc (s.egReady m tc) else none)
           else s.pickNative (s.egReady m tc)) with
    | some q => some (s.egSend m tc q upset)
    | none => none

/-- R354: MAC m is ready for its next frame (time passes until it is): the first TC, highest first, whose gate is open and that
has an eligible message sends one. `upset`: a stored word of that frame has a parity error (R219). -/
def execEgressSelection (m : Nat) (upset : Bool) (s : State) : Host.Outcome State Fault Refusal :=
  if !s.macUp m then .next s
  else
    let s := s.advance (s.cycleOf (NMap.get 0 s.eth.busy m : Nat))
    match ([7, 6, 5, 4, 3, 2, 1, 0].filter (fun k => s.gateOpen m k (s.t32n / 4294967296))).findSome? (fun k => s.egTc m k upset) with
    | some t => .next t
    | none => .next s

/-- R353: the late limit of message i of cell-kind egress queue q passes before its delimiter: it is removed and counted. -/
def execTxLate (q i : Nat) (s : State) : Host.Outcome State Fault Refusal :=
  match (s.egq q)[i]? with
  | none => .next s
  | some x =>
    if s.rd (Reg.EQS_Q_CFG.kind q) ≠ 1 then .next s
    else
      let c := s.rd (Reg.EQS_Q_CFG.owner q)
      let sc := s.airScale c
      let lim := s.cellAir c s.nowNs x.body - 10 * (s.rd (Reg.EQS_Q_WIN.late q) : Int) * sc
      let s := s.advance (s.cycleOf (-((-(lim * 4294967296)) / sc)))
      let s := (if i = 0 then s.egPop q else s.setEgq q (listDel (s.egq q) i)).svcDrain (q / 4096)
      let s := (s.inc (Reg.EQS_Q_STAT.late q) 1).inc (Reg.RAD_CELL_STAT.late_msgs c) 1
      .next (s.faultGather { code := 0x5010, part := s.rd (Reg.RAD_CELL_CFG.partition c), die := 8 + q / 4096,
                             unit := s.rd (Reg.EQS_Q_CFG.mac q), arg0 := c })

/-- R356: the next entry of MAC m's gate list starts. -/
def execGateChange (m : Nat) (s : State) : Host.Outcome State Fault Refusal :=
  if 32 ≤ m ∨ s.on (Reg.EQS_MAC_CFG.gate_en m) = false then .next s
  else
    match s.gateAt m s.nowNs with
    | none => .next (s.advanceNs (s.rd (Reg.EQS_GATE_BASE.base_ns m)))
    | some (e, o) => .next (s.advanceNs (s.nowNs - o + s.gclDur m e))

/-! ### Other events of a port -/

/-- R342: no word arrived for the stall limit. For a receive packet, x is the MAC; for an egress message being written, the egress
queue. -/
def execPacketStall (egress : Bool) (x : Nat) (s : State) : Host.Outcome State Fault Refusal :=
  if egress then
    let port := s.egqMac x / 4
    match s.rad.scribes.find? (fun e => e.2.xfers.any (fun f => decide (bits f.raw 0 4 = 1) && decide (4096 * (e.1 / 64) + bits f.raw 96 16 % 4096 = x) && !f.rewound)) with
    | none => .next s
    | some (k, sc) =>
      let s := s.advance (s.time.cnt + usCycles (s.rd (Reg.BLT_PORT_CFG.stall_us_m1 port) + 1))
      let i := sc.xfers.findIdx (fun f => decide (bits f.raw 0 4 = 1) && decide (4096 * (k / 64) + bits f.raw 96 16 % 4096 = x) && !f.rewound)
      let l := sc.xfers.modify i (fun f => { f with rewound := true })
      .next (({ s with rad := { s.rad with scribes := NMap.ins s.rad.scribes k { sc with xfers := l } } }).inc (Reg.BLT_STAT.stall_rewinds port) 1)
  else
    match NMap.find s.eth.partials x with
    | none => .next s
    | some (_, at_) =>
      let port := x / 4
      let s := s.advance (at_ + usCycles (s.rd (Reg.BLT_PORT_CFG.stall_us_m1 port) + 1))
      .next (((s.rxHold x 0).rxCut x 1).inc (Reg.BLT_STAT.stall_rewinds port) 1)

/-- R348: the 1 µs after a change of FH_XOFF[p] ends; a crossing held back takes effect. -/
def execXoffHoldEnd (p : Nat) (s : State) : Host.Outcome State Fault Refusal :=
  let last := NMap.get 0 s.eth.xoffAt p
  if 8 ≤ p ∨ last = 0 then .next s else .next ((s.advance (last - 1 + usCycles 1)).xoffPin p)

/-- R350: a PFC frame arrives on MAC m: priority vector and quanta. -/
def execPfcFrame (m vec : Nat) (quanta : List Nat) (s : State) : Host.Outcome State Fault Refusal :=
  if s.macUp m then .next (s.pfcReceived m vec quanta) else .next s

/-- R350: the pause of priority k of MAC m runs out. -/
def execPfcPauseExpiry (m k : Nat) (s : State) : Host.Outcome State Fault Refusal :=
  match NMap.find s.eth.pause (8 * m + k) with
  | none => .next s
  | some c => if 8 ≤ k then .next s else .next { (s.advance c) with eth := { s.eth with pause := NMap.del s.eth.pause (8 * m + k) } }

/-- R348: the refresh period of MAC m ends while its port's XOFF is set. -/
def execPfcRefresh (m : Nat) (s : State) : Host.Outcome State Fault Refusal :=
  if s.on (Reg.BLT_FILL.xoff (m / 4)) && decide (m < 32) then
    .next ((s.advance (NMap.get 0 s.eth.pfcAt m + usCycles (s.rd (Reg.ETH_MAC_CFG.pfc_refresh_us_m1 m) + 1))).sendPfc m 0xFFFF)
  else .next s

/-- The link of MAC m goes down: its partial packet is rewound (R341, R365). -/
def State.macDown (s : State) (m : Nat) : State :=
  let p := m / 4
  let up := s.rd (Reg.ETH_PORT_STAT.link_up p)
  if !bit up (m % 4) then s
  else
    let s := (s.wr (Reg.ETH_PORT_STAT.link_up p) (setBits up (m % 4) 1 0)).inc (Reg.ETH_PORT_STAT.link_downs p) 1
    let s := if (NMap.find s.eth.partials m).isSome then (s.rxHold m 0).inc (Reg.BLT_STAT.error_rewinds p) 1 else s
    ({ s with eth := { s.eth with cut := NMap.del s.eth.cut m } }).ethFault 0x7001 (m / 16) (m % 16) 0 0x7F

/-- R365: MAC m loses PCS block lock or FEC alignment. -/
def execEthLinkDown (m : Nat) (s : State) : Host.Outcome State Fault Refusal :=
  if m < 32 then .next (s.macDown m) else .next s

/-- R362: the link of MAC m returns. -/
def execEthLinkUp (m : Nat) (s : State) : Host.Outcome State Fault Refusal :=
  if s.macRate m = 0 then .next s
  else
    let up := s.rd (Reg.ETH_PORT_STAT.link_up (m / 4))
    .next (s.wr (Reg.ETH_PORT_STAT.link_up (m / 4)) (setBits up (m % 4) 1 1))

end Sys2Proof.Machine
end

