-- ==== Sys2Proof/Machine/Inkwell.lean ====
section
/-! DEFINITION. Inkwell: frames and their trailers, block tables, the prefix index, allocation, adapter slots (R246 to R253,
R259 to R261). -/

namespace Sys2Proof.Machine

/-! ### Pools and frames (R246 to R248) -/

def State.frameSize (s : State) (p n : Nat) : Nat := (s.rd (Reg.INK_POOL_GEOM.frame_4k_m1 p n) + 1) * 4096
def State.frameCount (s : State) (p n : Nat) : Nat :=
  if s.tilePresent n ∧ NMap.get false s.srv.badPools (8 * p + n) = false then s.rd (Reg.INK_POOL_GEOM.frames p n) else 0
/-- Base address of the frame of block ID `id`. -/
def State.blkAddr (s : State) (p id : Nat) : Nat :=
  s.rd (Reg.INK_POOL_BASE.base p (id / 33554432 % 8)) * 4096 + id % 33554432 * s.frameSize p (id / 33554432 % 8)
/-- Address of its trailer. -/
def State.trailer (s : State) (p id : Nat) : Nat := s.blkAddr p id + s.frameSize p (id / 33554432 % 8) - 512
/-- Does the block ID name a frame of the partition's pools? -/
def State.blkOk (s : State) (p id : Nat) : Bool := decide (id < 268435456) && decide (id % 33554432 < s.frameCount p (id / 33554432 % 8))

/-- The n bytes at a that an engine reads for partition p; zeros where the access is not permitted (R209, assumption 84). -/
def State.ldFor (s : State) (p a n : Nat) : Nat := if s.permit p a n then s.ldN a n else 0
/-- Bytes that an engine writes for partition p at a, where the access is permitted (R209). -/
def State.stFor (s : State) (p a : Nat) (l : List Nat) : State := if s.permit p a l.length then s.stBytes a l else s

/-- Payload bytes of a block of model m, in whole lines (R246). -/
def State.kvBytes (s : State) (p m : Nat) : Nat :=
  (s.rd (Reg.INK_KV_LAYOUT.layers_m1 p m) + 1) * 2 * (s.rd (Reg.INK_KV_LAYOUT.kv_heads_m1 p m) + 1) * 64 *
    (8 * (s.rd (Reg.INK_KV_LAYOUT.hd8_m1 p m) + 1)) * (if s.rd (Reg.INK_KV_LAYOUT.kv_fmt p m) = 8 then 2 else 1)

/-- Trailer fields (R250). -/
def State.trTokens (s : State) (p id : Nat) : Nat := s.ldFor p (s.trailer p id) 256
def State.trNs (s : State) (p id : Nat) : Nat := s.ldFor p (s.trailer p id + 256) 8
def State.trParent (s : State) (p id : Nat) : Nat := s.ldFor p (s.trailer p id + 264) 4
def State.trNext (s : State) (p id : Nat) : Nat := s.ldFor p (s.trailer p id + 268) 4
def State.trChildren (s : State) (p id : Nat) : Nat := s.ldFor p (s.trailer p id + 272) 4
def State.trRefs (s : State) (p id : Nat) : Nat := s.ldFor p (s.trailer p id + 276) 3
def State.trState (s : State) (p id : Nat) : Nat := s.ldFor p (s.trailer p id + 279) 1 % 8
def State.trLastUse (s : State) (p id : Nat) : Nat := s.ldFor p (s.trailer p id + 280) 8
def State.setTrState (s : State) (p id v : Nat) : State := s.stFor p (s.trailer p id + 279) (leBytes v 1)
def State.setTrRefs (s : State) (p id v : Nat) : State := s.stFor p (s.trailer p id + 276) (leBytes v 3)
def State.setTrChildren (s : State) (p id v : Nat) : State := s.stFor p (s.trailer p id + 272) (leBytes v 4)
def State.setTrNext (s : State) (p id v : Nat) : State := s.stFor p (s.trailer p id + 268) (leBytes v 4)
def State.setTrLastUse (s : State) (p id v : Nat) : State := s.stFor p (s.trailer p id + 280) (leBytes v 8)
def State.trBad (s : State) (p id : Nat) : Bool := s.rangeBad (s.trailer p id) 512

/-! ### Block tables (R247) -/

def State.btEntry (s : State) (p h i : Nat) : Nat :=
  s.rd (Reg.SRV_PART_BT.base p) * 64 + h * 64 * (s.rd (Reg.SRV_PART_BT.bt_lines_m1 p) + 1) + 4 * i
/-- Blocks a table can hold. -/
def State.btBlocks (s : State) (p : Nat) : Nat := 16 * (s.rd (Reg.SRV_PART_BT.bt_lines_m1 p) + 1)
def State.btGet (s : State) (p h i : Nat) : Nat := s.ldFor p (s.btEntry p h i) 4
def State.btPut (s : State) (p h i id : Nat) : State := s.stFor p (s.btEntry p h i) (leBytes (2147483648 + id % 268435456) 4)
/-- Mark position i released (R255). -/
def State.btRelease (s : State) (p h i : Nat) : State := s.stFor p (s.btEntry p h i) (leBytes (1073741824 + s.btGet p h i % 268435456) 4)
def btValid (e : Nat) : Bool := bit e 31
def btReleased (e : Nat) : Bool := bit e 30
def btBlock (e : Nat) : Nat := e % 268435456
def State.btClear (s : State) (p h n : Nat) : State := upto n s (fun i t => t.stFor p (t.btEntry p h i) [0, 0, 0, 0])

/-! ### The prefix index (R249 to R252) -/

def noBlock : Nat := 0xFFFFFFFF

/-- The namespace of a request (R249). -/
def nsOf (model adapter version : Nat) (en : Bool) : Nat :=
  setBits (setBits (setBits (setBits 0 60 4 model) 44 16 (if en then adapter else 0)) 28 16 (if en then version else 0)) 0 1 (b2n en)

/-- fold of 64 tokens (R249), M0 the constant of R147. -/
def foldTokens (l : List Nat) : Nat := l.foldl (fun f t => Nat.xor (rotl64 f 5) (t * 0xB5A36C1D94E72F0B % 18446744073709551616)) 0

/-- Is the index in use: enabled, its size valid, its home tile present (R266, R269)? -/
def State.indexOn (s : State) (p : Nat) : Bool :=
  s.on (Reg.SRV_PART_CFG.index_en p) && decide (16 ≤ s.rd (Reg.INK_INDEX_CFG.log2_buckets p)) &&
    decide (s.rd (Reg.INK_INDEX_CFG.log2_buckets p) ≤ 24) && s.tilePresent (s.rd (Reg.INK_INDEX_CFG.home p))

/-- Address of the bucket of (parent, tokens, ns). -/
def State.bucketAddr (s : State) (p parent ns : Nat) (tok : List Nat) : Nat :=
  s.rd (Reg.INK_INDEX_CFG.base p) +
    4 * (lxOut (parent * 18446744073709551616 + foldTokens tok) ns 0 % 2 ^ s.rd (Reg.INK_INDEX_CFG.log2_buckets p))

/-- The block ID of a bucket entry or next field; noBlock where it is not valid. -/
def nodeId (e : Nat) : Nat := if bit e 31 then e % 268435456 else noBlock

/-- What a walk of one chain finds. -/
inductive Walk where
  | found (id : Nat)
  | none
  | corrupt
  deriving DecidableEq, Repr

/-- Walk a chain for a node that `hit` accepts, over at most the nodes `fuel` counts (R251). -/
def State.walk (s : State) (p : Nat) (hit : Nat → Bool) : Nat → Nat → Walk
  | 0, id => if id = noBlock then .none else .corrupt
  | n + 1, id =>
    if id = noBlock then .none
    else if s.trBad p id || !s.blkOk p id then .corrupt
    else if hit id then .found id
    else s.walk p hit n (nodeId (s.trNext p id))

/-- The node of (parent, tokens, ns) in the index. -/
def State.lookNode (s : State) (p parent ns : Nat) (tok : List Nat) : Walk :=
  s.walk p (fun id => decide (s.trNs p id = ns) && decide (s.trParent p id = parent) && decide (s.trTokens p id = leNat (tok.flatMap (fun t => leBytes t 4))))
    4096 (nodeId (s.ldFor p (s.bucketAddr p parent ns tok) 4))

def blkTokens (tok : List Nat) (b : Nat) : List Nat := (tok.drop (64 * b)).take 64

/-- The tokens in a trailer. -/
def State.trTokList (s : State) (p id : Nat) : List Nat := (List.range 64).map (fun i => s.ldFor p (s.trailer p id + 4 * i) 4)

/-- Is block id a node of the index? -/
def State.isIndexed (s : State) (p id : Nat) : Bool :=
  s.indexOn p &&
    (match s.walk p (fun x => decide (x = id)) 4096 (nodeId (s.ldFor p (s.bucketAddr p (s.trParent p id) (s.trNs p id) (s.trTokList p id)) 4)) with
     | .found _ => true
     | _ => false)

/-- INK.NODE_CORRUPT (R270). -/
def State.nodeCorrupt (s : State) (p req : Nat) : State :=
  let n := s.rd (Reg.INK_INDEX_CFG.home p)
  s.fault { code := 0x5001, part := p, die := n, unit := n, arg0 := req, arg1 := s.rd Reg.GLB_DEVICE_ID.device_id }

/-- The lookup of R251 from block b on, over at most as many blocks as it is given: hit blocks gain a reference and enter the table of
handle h. `look`: the search for the node under a parent with a block's tokens. -/
def State.lookGo (look : State → Nat → List Nat → Walk) (s : State) (p h req : Nat) (tok : List Nat) : Nat → Nat → Nat → State × Nat
  | 0, b, _ => (s, b)
  | n + 1, b, parent =>
    match look s parent (blkTokens tok b) with
    | .none => (s, b)
    | .corrupt => (s.nodeCorrupt p req, b)
    | .found id =>
      let s := ((s.setTrRefs p id (s.trRefs p id + 1)).setTrLastUse p id s.tickNum).setTrState p id 1
      State.lookGo look (s.btPut p h b id) p h req tok n (b + 1) id

/-- The lookup of R251 over n blocks from block b on; how many blocks the table then has. -/
def State.lookup (s : State) (p h ns req : Nat) (tok : List Nat) (n b parent : Nat) : State × Nat :=
  State.lookGo (fun t par l => t.lookNode p par ns l) s p h req tok n b parent

/-- Is block id the index's node of tokens t under parent par? -/
def State.isNode (s : State) (p id par : Nat) (t : List Nat) : Bool :=
  s.isIndexed p id && decide (s.trParent p id = par) && decide (s.trTokens p id = leNat (t.flatMap (fun x => leBytes x 4)))

/-- Make block id the head of the chain of its bucket (R249, R250), its parent's count with it. -/
def State.newNode (s : State) (p ns id par : Nat) (t : List Nat) : State :=
  let a := s.bucketAddr p par ns t
  let old := s.ldFor p a 4
  let s := s.stFor p (s.trailer p id) (t.flatMap (fun x => leBytes x 4) ++ leBytes ns 8 ++ leBytes par 4 ++ leBytes old 4 ++ leBytes 0 4)
  let s := s.stFor p a (leBytes (2147483648 + id) 4)
  if par = noBlock then s else s.setTrChildren p par (s.trChildren p par + 1)

/-- The insertion of R252 with the search `look` and the test `node` of a node. -/
def State.insertGo (look : State → Nat → List Nat → Walk) (node : State → Nat → Nat → List Nat → Bool) (s : State) (p h ns : Nat)
    (tok : List Nat) : Nat → Nat → Option Nat → Nat → State × Nat
  | 0, _, _, k => (s, k)
  | n + 1, b, parent, k =>
    match parent with
    | none => (s, k)
    | some par =>
      let id := btBlock (s.btGet p h b)
      let t := blkTokens tok b
      if node s id par t then State.insertGo look node s p h ns tok n (b + 1) (some id) k
      else
        match look s par t with
        | .found _ => State.insertGo look node (s.inc (Reg.INK_CNT.duplicates p) 1) p h ns tok n (b + 1) none k
        | .corrupt => (s.nodeCorrupt p (match NMap.find s.srv.reqs (65536 * p + h) with | some r => bits r.raw 96 32 | none => 0), k)
        | .none => State.insertGo look node (s.newNode p ns id par t) p h ns tok n (b + 1) (some id) (k + 1)

/-- Insert blocks of handle h at positions [b, b + n) whose tokens are full (R252): at the head of their chains; those newly
indexed are counted. `parent`: the indexed block before b, if it is indexed. -/
def State.insertBlocks (s : State) (p h ns : Nat) (tok : List Nat) (n b : Nat) (parent : Option Nat) (k : Nat) : State × Nat :=
  State.insertGo (fun t par l => t.lookNode p par ns l) (fun t id par l => t.isNode p id par l) s p h ns tok n b parent k

/-- The parent of position b in the table of handle h, where it is indexed. -/
def State.indexParent (s : State) (p h b : Nat) : Option Nat :=
  if b = 0 then some noBlock else (let id := btBlock (s.btGet p h (b - 1)); if s.isIndexed p id then some id else none)

/-- Take node id out of its chain: `prev` the node before it. -/
def State.unchain (s : State) (p id : Nat) : Nat → Nat → State
  | 0, _ => s
  | n + 1, prev =>
    let nx := nodeId (s.trNext p prev)
    if nx = id then s.setTrNext p prev (s.trNext p id) else if nx = noBlock then s else s.unchain p id n nx

/-- Remove a node from the index: from its chain and from its parent's count (R253). -/
def State.unindex (s : State) (p id : Nat) : State :=
  let a := s.bucketAddr p (s.trParent p id) (s.trNs p id) (s.trTokList p id)
  let head := nodeId (s.ldFor p a 4)
  let par := s.trParent p id
  let s := if head = id then s.stFor p a (leBytes (s.trNext p id) 4) else s.unchain p id 4096 head
  if par = noBlock then s else s.setTrChildren p par (s.trChildren p par - 1)

/-! ### Allocation and release (R248, R253) -/

/-- The first free frame of the pool at or after f, wrapping. -/
def State.freeFrom (s : State) (p n cnt : Nat) : Nat → Nat → Option Nat
  | 0, _ => none
  | k + 1, f => if s.trState p (n * 33554432 + f % cnt) = 0 then some (n * 33554432 + f % cnt) else s.freeFrom p n cnt k (f + 1)

/-- The cached frame without children of least last_use (R253). -/
def State.reclaimable (s : State) (p n cnt : Nat) : Option Nat :=
  (List.range cnt).foldl (fun best f =>
    let id := n * 33554432 + f
    if s.trState p id = 2 ∧ s.trChildren p id = 0 then
      (match best with | none => some id | some b => if s.trLastUse p id < s.trLastUse p b then some id else some b)
    else best) none

/-- A frame is taken: its state, its references, no children. -/
def State.takeFrame (s : State) (p id st : Nat) : State :=
  ((s.setTrState p id st).setTrRefs p id (if st = 1 then 1 else 0)).setTrChildren p id 0

/-- Allocate a frame of the pool on tile n: a free one (which one the spec leaves open), else a reclaimed one. -/
def State.allocOn (s : State) (p n st : Nat) : State × Option Nat :=
  let cnt := s.frameCount p n
  if cnt = 0 then (s, none)
  else
    match s.freeFrom p n cnt cnt (Config.freeNat s.free % cnt) with
    | some id => ((s.took 1).takeFrame p id st, some id)
    | none =>
      match s.reclaimable p n cnt with
      | some id => (((s.unindex p id).inc (Reg.INK_CNT.reclaimed p) 1).takeFrame p id st, some id)
      | none => (s, none)

/-- Allocate from the first of some tiles that has a frame. -/
def State.allocTiles (s : State) (p st : Nat) : List Nat → State × Option Nat
  | [] => (s, none)
  | n :: r => match s.allocOn p n st with
    | (t, some id) => (t, some id)
    | (t, none) => t.allocTiles p st r

/-- Tiles of a mask that have a pool of p: tile `pref` first where it is one of them (R38), the others from a starting place the spec
leaves open. -/
def State.poolTiles (s : State) (p mask : Nat) (pref : Option Nat := none) : List Nat :=
  let l := (List.range 8).filter (fun n => bit mask n && decide (0 < s.frameCount p n))
  let k := Config.freeNat s.free % (l.length + 1)
  let o := l.drop k ++ l.take k
  match pref with
  | some n => if o.contains n then n :: o.filter (fun x => decide (x ≠ n)) else o
  | none => o

/-- A frame becomes free (R248). `next` links it into the free list of its pool (R250): to no frame where no other is free, else to one
that the spec leaves open (assumption 81). -/
def State.freeFrame (s : State) (p id : Nat) : State :=
  let n := id / 33554432 % 8
  let cnt := s.frameCount p n
  let t := ((s.setTrState p id 0).setTrRefs p id 0)
  if (s.freeFrom p n cnt cnt 0).isSome then (t.took 1).setTrNext p id (s.freeVal 32) else t.setTrNext p id 0

/-- Remove one reference of a block: at zero it becomes cached where it is indexed, else pending-free until the batch's boundary
`b` ends, or until the next edge (R248, R256). -/
def State.unref (s : State) (p id : Nat) (b : Option Nat) : State :=
  let r := s.trRefs p id
  let s := (s.setTrRefs p id (r - 1)).setTrLastUse p id s.tickNum
  if 1 < r then s
  else if s.isIndexed p id then s.setTrState p id 2
  else
    let s := s.setTrState p id 3
    { s with srv := { s.srv with pendFree := s.srv.pendFree ++ [(p, id, b)] } }

/-- Frames in pending-free of batch b (none: of no batch) become free. -/
def State.flushFree (s : State) (b : Option Nat) : State :=
  let l := s.srv.pendFree.filter (fun e => decide (e.2.2 = b))
  let s := each l s (fun e t => t.freeFrame e.1 e.2.1)
  { s with srv := { s.srv with pendFree := s.srv.pendFree.filter (fun e => decide (e.2.2 ≠ b)) } }

/-! ### Adapter slots (R259 to R261) -/

/-- The slots of partition p that it alone claims. -/
def State.adSlots (s : State) (p : Nat) : List Nat :=
  ((List.range (s.rd (Reg.INK_ADAPTER_CFG.slot_count p))).map (fun i => s.rd (Reg.INK_ADAPTER_CFG.slot_first p) + i)).filter
    (fun k => decide (k < 1024) && decide (s.rd (Reg.INK_ADAPTER_STAT.state k) ≠ 4))
/-- Slots of p that hold adapter a in a state that `f` accepts. -/
def State.adHeld (s : State) (p a : Nat) (f : Nat → Bool) : List Nat :=
  (s.adSlots p).filter (fun k => decide (s.rd (Reg.INK_ADAPTER_STAT.adapter_id k) = a) && f (s.rd (Reg.INK_ADAPTER_STAT.state k)))
/-- The live slot of adapter a with the newest version. -/
def State.adLive (s : State) (p a : Nat) : Option Nat :=
  (s.adHeld p a (fun x => x == 2)).foldl (fun b k => match b with
    | none => some k
    | some j => if s.rd (Reg.INK_ADAPTER_STAT.version j) < s.rd (Reg.INK_ADAPTER_STAT.version k) then some k else some j) none
def State.adAddr (s : State) (p k : Nat) : Nat :=
  s.rd (Reg.INK_ADAPTER_BASE.base p) * 65536 + (k - s.rd (Reg.INK_ADAPTER_CFG.slot_first p)) * s.rd (Reg.INK_ADAPTER_CFG.slot_64k p) * 65536

/-- A slot becomes empty. -/
def State.adEmpty (s : State) (k : Nat) : State := s.wr (Reg.INK_ADAPTER_STAT.all k) 0
/-- A slot retires; without references it is free at once. -/
def State.adRetire (s : State) (k : Nat) : State :=
  if s.rd (Reg.INK_ADAPTER_STAT.refs k) = 0 then s.adEmpty k else s.wr (Reg.INK_ADAPTER_STAT.state k) 3
def State.adPin (s : State) (k : Nat) : State := s.inc (Reg.INK_ADAPTER_STAT.refs k) 1
def State.adUnpin (s : State) (k : Nat) : State :=
  let s := s.wr (Reg.INK_ADAPTER_STAT.refs k) (s.rd (Reg.INK_ADAPTER_STAT.refs k) - 1)
  if s.rd (Reg.INK_ADAPTER_STAT.refs k) = 0 ∧ s.rd (Reg.INK_ADAPTER_STAT.state k) = 3 then s.adEmpty k else s

end Sys2Proof.Machine
end

