-- ==== Sys2Proof/Machine/Serving.lean ====
section
/-! DEFINITION. The serving scheduler on one package: requests, their ends, batches, prompt phases, adapters (R232 to R245, R254
to R261, R288, R289), and the routing and messages between packages (R262 to R266, R417, R463). -/

namespace Sys2Proof.Machine

/-! ### SUBMIT fields (R233) -/

def rqModel (r : Nat) : Nat := bits r 64 4
def rqClass (r : Nat) : Nat := bits r 68 2
def rqNoReuse (r : Nat) : Bool := bit r 70
def rqDropLate (r : Nat) : Bool := bit r 71
def rqPrio (r : Nat) : Nat := bits r 72 4
def rqAdEn (r : Nat) : Bool := bit r 76
def rqAdapter (r : Nat) : Nat := bits r 80 16
def rqId (r : Nat) : Nat := bits r 96 32
def rqLen (r : Nat) : Nat := bits r 128 23
def rqMaxNew (r : Nat) : Nat := bits r 152 23
def rqGoal (r : Nat) : Nat := bits r 176 16 + 1
def rqIova (r : Nat) : Nat := bits r 192 64
def rqOut (r : Nat) : Nat := bits r 256 64
def rqProfile (r : Nat) : Nat := bits r 320 16
def rqDraft (r : Nat) : Nat := bits r 336 5
def rqSeed (r : Nat) : Nat := bits r 384 64
/-- Reserved bits of the body are zero. -/
def rqReserved (r : Nat) : Bool := Nat.land r (msk 77 3 + msk 151 1 + msk 175 1 + msk 341 43 + msk 448 64) == 0

/-! ### Requests -/

def rqKey (p h : Nat) : Nat := 65536 * p + h
def State.req (s : State) (k : Nat) : Option Req := NMap.find s.srv.reqs k
def State.setReq (s : State) (k : Nat) (r : Req) : State := { s with srv := { s.srv with reqs := NMap.ins s.srv.reqs k r } }
def State.delReq (s : State) (k : Nat) : State := { s with srv := { s.srv with reqs := NMap.del s.srv.reqs k } }
def State.modReq (s : State) (k : Nat) (f : Req → Req) : State :=
  match s.req k with | some r => s.setReq k (f r) | none => s

/-- Set a record flag: 0 first_token, 1 reused, 2 rerouted, 3 reprefilled, 4 fallback_p, 5 recompute, 6 single_copy, 7
deadline_missed, 8 paused (bits 81 to 89 of R237). -/
def Req.flag (r : Req) (i : Nat) : Req := { r with flags := Nat.lor r.flags (2 ^ i) }

/-- Blocks of the prompt. -/
def Req.blocks (r : Req) : Nat := cdiv (rqLen r.raw) 64
/-- Tokens of the sequence so far. -/
def Req.toks (r : Req) : List Nat := r.prompt ++ r.outs
def Req.ns (r : Req) : Nat := nsOf (rqModel r.raw) (rqAdapter r.raw) r.version (rqAdEn r.raw)
/-- The goal tick (R238); Bulk has none. -/
def Req.goal (r : Req) : Nat := r.accept + rqGoal r.raw

/-- Does a come before b in priority order (R239)? -/
def reqBefore (a b : Nat × Req) : Bool :=
  let ca := rqClass a.2.raw
  let cb := rqClass b.2.raw
  if ca ≠ cb then decide (ca < cb)
  else if rqPrio a.2.raw ≠ rqPrio b.2.raw then decide (rqPrio b.2.raw < rqPrio a.2.raw)
  else if a.2.accept ≠ b.2.accept then decide (a.2.accept < b.2.accept)
  else decide (a.1 < b.1)

/-- Insert into a list kept in priority order. -/
def reqInsert (e : Nat × Req) : List (Nat × Req) → List (Nat × Req)
  | [] => [e]
  | x :: r => if reqBefore e x then e :: x :: r else x :: reqInsert e r
def reqSort (l : List (Nat × Req)) : List (Nat × Req) := l.foldl (fun a e => reqInsert e a) []

/-- Is a waiting request of its class at risk now (R238)? -/
def State.atRisk (s : State) (r : Req) : Bool :=
  let risk := if rqClass r.raw = 0 then s.rd (Reg.SRV_PART_CFG.risk_reflex r.part) else s.rd (Reg.SRV_PART_CFG.risk_interactive r.part)
  decide (rqClass r.raw < 2) && decide (r.goal ≤ s.tickNum + risk)

/-! ### Records and tokens (R237, R360) -/

/-- Bits [255:80] of a serving record. -/
def State.reqBody (s : State) (r : Req) (interim : Bool) : Nat :=
  setBits (setBits (setBits (setBits (setBits (setBits 0 80 1 (b2n interim)) 81 9 r.flags) 96 32 (rqId r.raw)) 128 23 r.delivered)
    151 24 (64 * r.hit)) 192 64 s.tickNum

/-- A service message leaves on egress queue q (R359, R360): segments that fit the MAC's mtu, which wait for space there (R351); the
message number is the sender's choice, left free. -/
def State.svcSend (s : State) (q addr svcId kind : Nat) (b : List Nat) : State :=
  let id := s.freeVal 32
  let room := max 1 (s.rd (Reg.ETH_MAC_CFG.mtu (s.egqMac q)) - 38)
  let n := max 1 (cdiv b.length room)
  let e := q / 4096
  if s.rd (Reg.EQS_Q_CFG.kind q) ≠ 2 then s
  else
    (upto n (s.took 1) (fun i t =>
      let head := setBits (setBits (setBits (setBits (setBits (setBits (setBits 0 0 8 1) 8 8 kind) 16 1 (b2n (i == 0))) 17 1 (b2n (i + 1 == n)))
        32 16 svcId) 64 32 id) 96 32 (i * room)
      let x : TxMsg := ⟨leBytes head 16 ++ (b.drop (i * room)).take room, some addr, some (t.rd Reg.ETH_SVC_CFG.ethertype), none, 0⟩
      { t with eth := { t.eth with svcWait := NMap.put [] t.eth.svcWait q (NMap.get [] t.eth.svcWait q ++ [x]) } })).svcDrain e

/-- A record of the request goes to where it came from; the final one of a host command completes the command. -/
def State.reqRecord (s : State) (r : Req) (status : Nat) (interim : Bool) : State :=
  let body := s.reqBody r interim
  match r.src with
  | .host q i =>
    (match s.hcmd q i with
     | some c => if interim then s.hInterim q c status body else s.hComplete q c status body
     | none => s)
  | .eth rxq svc addr =>
    let rec_ := setBits (setBits body 0 8 0x40) 64 16 status
    s.svcSend rxq addr svc 0x82 (leBytes rec_ 32)
  | .remote => s

/-- Return the prompt's place in the prompt store. -/
def State.freePrompt (s : State) (k : Nat) : State := s.modReq k (fun r => { r with store := none })

/-- Tokens reach the tenant (R237): written after those delivered, then the count; the first token brings its interim record and
frees the retained prompt (R264). -/
def State.deliver (s : State) (k : Nat) (toks : List Nat) : State :=
  match s.req k with
  | none => s
  | some r =>
    if toks.isEmpty then s
    else
      let n := r.delivered + toks.length
      let s := match r.src with
        | .host q _ =>
          (match s.hqPasid q with
           | some pasid =>
             let o := rqOut r.raw
             (s.hostWr pasid (o + 8 + 4 * r.delivered) (4 * toks.length) (leNat (toks.flatMap (fun t => leBytes t 4)))).hostWr pasid o 8 n
           | none => s)
        | .eth rxq svc addr =>
          s.svcSend rxq addr svc 0x81 (leBytes (rqId r.raw) 4 ++ leBytes toks.length 4 ++ toks.flatMap (fun t => leBytes t 4))
        | .remote => s
      let r1 := { r with delivered := n }
      if r.first then s.setReq k r1
      else
        let r2 := { (if rqClass r.raw < 2 ∧ r.goal < s.tickNum then r1.flag 7 else r1).flag 0 with first := true }
        ((s.setReq k r2).reqRecord r2 stSuccess true).freePrompt k

/-! ### The composition map (R461 to R463) -/

def cmDev (e : Nat) : Nat := bits e 0 16
def cmPrompt (e : Nat) : Bool := bit e 16 && bits e 24 4 != 0
def cmGen (e : Nat) : Bool := bit e 17 && bits e 28 4 != 0
def cmCache (e : Nat) : Bool := bit e 18 && bits e 32 8 != 0

/-- Compute tiles that are present, as a mask. -/
def State.presentTiles (s : State) : Nat := s.rd Reg.GLB_CAP_TILES.compute_present % 256

/-- A map's entries as they count: those of R461 that are down are marked so, and the entry of this package names present tiles only
(R46). -/
def State.mapEntries (s : State) (l : List Nat) : List Nat :=
  (List.range l.length).map (fun i =>
    let e := l.getD i 0
    let e := if cmDev e = 0xFFFF ∨ bits e 20 4 ≠ 0 ∨ bits e 48 80 ≠ 0 ∨ (l.take i).any (fun x => decide (cmDev x = cmDev e)) = true then setBits e 19 1 1 else e
    if cmDev e = s.devId then setBits e 24 16 (Nat.land (bits e 24 16) (257 * s.presentTiles)) else e)

/-- The live map of p (R461). -/
def State.liveMap (s : State) (p : Nat) : List Nat := s.mapEntries (NMap.get [] s.part.liveMap p)
def State.liveEpoch (s : State) (p : Nat) : Nat := s.rd (Reg.PART_COMP.live_epoch p)
/-- This package's entry, where it has one that is not down. -/
def State.myEntry (s : State) (p : Nat) : Option Nat :=
  (s.liveMap p).find? (fun e => decide (cmDev e = s.devId) && !bit e 19)
/-- The map of an epoch of p: the previous one's while its drain window is open, else the live one (R264). -/
def State.epochMap (s : State) (p e : Nat) : List Nat :=
  if e ≠ s.liveEpoch p ∧ e = s.rd (Reg.PART_COMP.prev_epoch p) ∧ s.on (Reg.PART_COMP_STAT.draining p) = true then
    s.mapEntries (NMap.get [] s.part.oldMap p)
  else s.liveMap p
/-- Candidates of a pool in a map, in map order, with their place. -/
def candidatesIn (l : List Nat) (role : Nat → Bool) : List (Nat × Nat) :=
  ((List.range l.length).zip l).filter (fun e => role e.2 && !bit e.2 19)
/-- Candidates of a pool of the live map. -/
def State.candidates (s : State) (p : Nat) (role : Nat → Bool) : List (Nat × Nat) := candidatesIn (s.liveMap p) role

/-- Weighted round robin over a pool (R463): the pointer holds 512·entry + selections used. `skip`: devices not to take. -/
def State.wrrPick (s : State) (p pool : Nat) (role : Nat → Bool) (skip : List Nat) : State × Option Nat :=
  let l := (s.candidates p role).filter (fun e => !skip.contains (cmDev e.2))
  let v := NMap.get 0 s.part.wrr (4 * p + pool)
  let pick := match l.find? (fun e => decide (v / 512 ≤ e.1)) with | some e => some e | none => l.head?
  match pick with
  | none => (s, none)
  | some (i, e) =>
    let used := (if i = v / 512 then v % 512 else 0) + 1
    let v1 := if bits e 40 8 + 1 ≤ used then 512 * (i + 1) else 512 * i + used
    ({ s with part := { s.part with wrr := NMap.put 0 s.part.wrr (4 * p + pool) v1 } }, some (cmDev e))

/-- Choose the prompt member of a request, the devices of `skip` excepted; without a live map, this package, if a P-tile is present. -/
def State.pickPrompt (s : State) (p : Nat) (skip : List Nat) : State × Option Nat :=
  if s.liveEpoch p = 0 then (s, if skip.contains s.devId || s.presentTiles % 16 == 0 then none else some s.devId)
  else if !skip.contains s.devId && (s.myEntry p).any cmPrompt then (s, some s.devId)
  else s.wrrPick p 0 cmPrompt skip
/-- Choose the generation member: the prompt member `pm` where it is a candidate. -/
def State.pickGen (s : State) (p pm : Nat) (skip : List Nat) : State × Option Nat :=
  if s.liveEpoch p = 0 then (s, if skip.contains pm then none else some pm)
  else if !skip.contains pm && (s.candidates p cmGen).any (fun e => decide (cmDev e.2 = pm)) then (s, some pm)
  else s.wrrPick p 1 cmGen skip
/-- The first candidate of map l after device `dev` in map order, wrapping, whose device is not in `skip`. -/
def candidateAfter (l : List Nat) (role : Nat → Bool) (dev : Nat) (skip : List Nat) : Option Nat :=
  let ok := (candidatesIn l role).filter (fun e => !skip.contains (cmDev e.2))
  match (List.range l.length).find? (fun i => decide (cmDev (l.getD i 0) = dev)) with
  | some i => (match ok.find? (fun e => decide (i < e.1)) with | some e => some (cmDev e.2) | none => (ok.head?).map (fun e => cmDev e.2))
  | none => (ok.head?).map (fun e => cmDev e.2)
/-- Choose the second cache member from the map of the request's epoch (R264): the prompt member where it is a candidate, else the first
after the generation member, those of `skip` excepted. -/
def State.pickSecond (s : State) (p epoch pm gm : Nat) (skip : List Nat) : Option Nat :=
  let l := s.epochMap p epoch
  if (candidatesIn l cmCache).any (fun e => decide (cmDev e.2 = pm)) && !skip.contains pm then some pm
  else candidateAfter l cmCache gm (gm :: skip)

/-! ### Serving messages (R417) -/

/-- Send a SERVE packet: kind, status and epoch, the request's identity, bits [511:128] and further lines. -/
def State.sendServe (s : State) (r : Req) (dev kind status epoch rest : Nat) (extra : List Nat) : State :=
  let head := setBits (setBits (setBits (setBits (setBits (setBits 0 0 8 kind) 8 16 status) 32 32 epoch) 64 32 (rqId r.raw)) 96 16 r.origin)
    112 16 r.originHandle
  let line := head + rest / 2 ^ 128 * 2 ^ 128 % 2 ^ 512
  let s := s.newGroup
  let ga := dev * 281474976710656
  s.launchOp { s.request 9 r.part ga with payload := leBytes line 64 ++ extra } r.part ga none none 0 0 0 s.fab.group 0

/-- The end of a request, to the origin: a TOKEN with the end flag (R262). -/
def State.sendToken (s : State) (r : Req) (toks : List Nat) (fin : Bool) (status : Nat) : State :=
  let rest := setBits (setBits (setBits (setBits 0 128 5 toks.length) 133 1 (b2n fin)) 134 16 status) 150 1 0
  s.sendServe r r.origin 6 0 r.epoch rest (leBytes (leNat (toks.flatMap (fun t => leBytes t 4))) (if toks.isEmpty then 0 else if toks.length ≤ 16 then 64 else 128))

/-! ### Ends (R240, R252) -/

/-- Drop the references of a request's blocks and its table. -/
def State.dropBlocks (s : State) (k : Nat) (b : Option Nat) : State :=
  match s.req k with
  | none => s
  | some r =>
    let h := k % 65536
    let s := upto r.held s (fun i t =>
      let e := t.btGet r.part h i
      if btValid e then t.unref r.part (btBlock e) b else t)
    (s.btClear r.part h r.held).modReq k (fun r => { r with held := 0, hit := r.hit, ready := 0 })

/-- A request leaves this package: its blocks, adapter pin, Quill context and handle are free (R240, R252, R260, R288). A
sequence that ends with SUCCESS indexes the full blocks its steps completed. -/
def State.leave (s : State) (k status : Nat) (b : Option Nat) : State :=
  match s.req k with
  | none => s
  | some r =>
    let h := k % 65536
    let full := min (r.toks.length / 64) r.held
    let done := rqLen r.raw / 64
    let s := if status = stSuccess ∧ s.indexOn r.part = true ∧ r.batch.isSome = true then
        (s.insertBlocks r.part h r.ns r.toks (full - done) done (s.indexParent r.part h done) 0).1 else s
    let s := s.dropBlocks k b
    let s := match r.slot with | some j => s.adUnpin j | none => s
    let s := { s with srv := { s.srv with
      batches := NMap.mapVals (fun _ x => { x with seats := x.seats.filter (fun y => decide (y ≠ k)) }) s.srv.batches
      quill := NMap.mapVals (fun _ l => l.map (fun (c : EngCmd) => if c.who = some k then { c with who := none } else c)) s.srv.quill } }
    s.delReq k

/-- CANCEL to the other members of the request that this package knows: from its origin, and from a prompt member that has not seen a
KV_ACK (assumption 42). -/
def State.cancelAway (s : State) (r : Req) : State :=
  let known := (if r.src = .remote then [] else [r.promptDev]) ++ (if r.src = .remote ∧ (bit r.roles 1 = false ∨ r.bound = true) then [] else r.genDev :: r.second.toList)
  each ((known.eraseDups).filter (fun d => decide (d ≠ s.devId) && decide (d ≠ 0xFFFF))) s (fun d t => t.sendServe r d 7 0 r.epoch 0 [])

/-- A request ends with a status: at its origin with a final record, elsewhere with a TOKEN to it; CANCEL to the members that hold it
elsewhere. -/
def State.reqEnd (s : State) (k status : Nat) (b : Option Nat) : State :=
  match s.req k with
  | none => s
  | some r =>
    let s := if status = stSuccess ∨ status = stGenLost then s else s.cancelAway r
    if r.src = .remote then ((if r.told then s else s.sendToken r [] true status).leave k status b)
    else (s.reqRecord r status false).leave k status b

/-! ### Admission (R234, R260) -/

/-- The lowest free handle of p. -/
def State.freeHandle (s : State) (p : Nat) : Option Nat :=
  (List.range (s.rd (Reg.SRV_PART_SEQ.seq_max_m1 p) + 1)).find? (fun h => (s.req (rqKey p h)).isNone)

/-- Requests of p that wait for a seat (R234, R238). -/
def State.waiting (s : State) (p : Nat) : Nat :=
  (s.srv.reqs.filter (fun e => decide (e.2.part = p) && e.2.src != .remote && (e.2.st == .queued || e.2.st == .joinWait))).length

/-- The lowest place for n bytes in the prompt store of p. -/
def State.promptRoom (s : State) (p n : Nat) : Option Nat :=
  let base := s.rd (Reg.SRV_PART_PSTORE.base p) * 4096
  let size := (s.rd (Reg.SRV_PART_PSTORE.size_mib_m1 p) + 1) * 1048576
  let used := s.srv.reqs.filterMap (fun e => if e.2.part = p then e.2.store else none)
  let free := fun (a : Nat) => decide (a + n ≤ base + size) && used.all (fun u => decide (a + n ≤ u.1) || decide (u.1 + u.2 ≤ a))
  ((base :: used.map (fun u => u.1 + u.2)).filter free).foldl (fun b a => match b with | none => some a | some x => some (min x a)) none

/-- The first check of R234 that applies; 0xFFFF where none does. A partition that is not ACTIVE admits no request (R456): QUEUE_FULL
(assumption 40). -/
def State.submitCheck (s : State) (p raw : Nat) : Nat :=
  let n := rqLen raw
  if n = 0 ∨ rqMaxNew raw = 0 then stSuccess
  else if s.partState p ≠ 1 then stQueueFull
  else if rqClass raw = 3 ∨ 16 < rqDraft raw ∨ rqReserved raw = false ∨ s.on (Reg.INK_KV_LAYOUT.valid p (rqModel raw)) = false then stInvalid
  else if 64 * s.btBlocks p < n + rqMaxNew raw ∨ 4194304 < n + rqMaxNew raw then stTooLong
  else if rqAdEn raw = true ∧ (s.adHeld p (rqAdapter raw) (fun x => x != 0)).isEmpty = true then stAdapterUnknown
  else if s.rd (Reg.SRV_PART_CFG.queue_m1 p) + 1 ≤ s.waiting p ∨ (s.freeHandle p).isNone = true ∨ (s.promptRoom p (64 * cdiv n 16)).isNone = true then stQueueFull
  else 0xFFFF

/-- A new request of partition p. -/
def newReq (p h raw : Nat) (src : ReqSrc) (origin tick : Nat) (prompt : List Nat) (store : Option (Nat × Nat)) : Req where
  part := p
  handle := h
  raw := raw
  src := src
  origin := origin
  originHandle := h
  accept := tick
  st := .queued
  epoch := 0
  prompt := prompt
  outs := []
  store := store
  slot := none
  version := 0
  hit := 0
  held := 0
  ready := 0
  promptDev := 0xFFFF
  genDev := 0xFFFF
  second := none
  roles := 0
  bound := false
  frames := []
  frames2 := []
  sent := []
  pushes := []
  doneSent := false
  genHandle := 0
  batch := none
  joined := false
  resumed := false
  qctx := none
  leaving := none
  flags := 0
  delivered := 0
  first := false
  ptile := 8
  tried := []
  tried2 := []
  told := false

/-- Pin the newest live version of the request's adapter; nothing where there is none yet (R260). -/
def State.pinReq (s : State) (k : Nat) : State :=
  match s.req k with
  | none => s
  | some r =>
    if !rqAdEn r.raw || r.slot.isSome then s
    else
      match s.adLive r.part (rqAdapter r.raw) with
      | some j => if s.srv.dropped.contains (rqKey r.part (rqAdapter r.raw)) then s
        else (s.adPin j).setReq k { r with slot := some j, version := s.rd (Reg.INK_ADAPTER_STAT.version j) }
      | none => s

/-- Accept a request with its prompt tokens: handle, prompt store, adapter pin. -/
def State.accept (s : State) (p raw : Nat) (src : ReqSrc) (prompt : List Nat) : State :=
  match s.freeHandle p, s.promptRoom p (64 * cdiv (rqLen raw) 16) with
  | some h, some a =>
    let s := s.stFor p a (prompt.flatMap (fun t => leBytes t 4))
    let r := newReq p h raw src s.devId s.tickNum prompt (some (a, 64 * cdiv (rqLen raw) 16))
    (s.setReq (rqKey p h) r).pinReq (rqKey p h)
  | _, _ => s

/-- Split bytes into 32-bit tokens. -/
def tokensOf (n v : Nat) : List Nat := (List.range n).map (fun i => bits v (32 * i) 32)

/-- Is the queue's owner a partition that accepts serving commands? -/
def State.srvPart (s : State) (q : Nat) : Option Nat :=
  let p := s.hqOwner q
  if p < 64 ∧ s.on (Reg.SRV_PART_CFG.enable p) = true then some p else none

/-- R234: a SUBMIT command of a host queue is checked and admitted, or refused with a final record. -/
def execSubmit (q i : Nat) (s : State) : Host.Outcome State Fault Refusal :=
  .next (withHostCmd 0x40 q i s (fun c =>
    match s.srvPart q with
    | none => s.hComplete q c stInvalid 0
    | some p =>
      let raw := c.raw / 2 ^ 64 * 2 ^ 64
      let st := if bits c.raw 10 22 ≠ 0 ∧ rqLen raw ≠ 0 ∧ rqMaxNew raw ≠ 0 then stInvalid else s.submitCheck p raw
      let refused := fun (t : State) (x : Nat) => t.hComplete q c x (t.reqBody (newReq p 0 raw (.host q i) t.devId t.tickNum [] none) false)
      if st ≠ 0xFFFF then refused s st
      else
        match s.hqPasid q with
        | none => refused s stUnreadable
        | some pasid =>
          match s.hostRd pasid (rqIova raw) (4 * rqLen raw) with
          | none => refused (s.hqAccessFault q (rqIova raw)) stUnreadable
          | some v => (s.hMark q i false).accept p raw (.host q i) (tokensOf (rqLen raw) v)))

/-- Requests of partition p, at their origin here, with a request_id: the key of the oldest. -/
def State.byId (s : State) (p id : Nat) : Option Nat :=
  (s.srv.reqs.find? (fun e => decide (e.2.part = p) && e.2.src != .remote && decide (rqId e.2.raw = id))).map (fun e => e.1)

/-- Mark a request to end: at the next edge, or in DECODE at its batch's next boundary (R240). -/
def State.markEnd (s : State) (k status : Nat) : State :=
  s.modReq k (fun r => if r.leaving.isSome then r else { r with leaving := some status })

/-- R232, R240: a CANCEL command. What its own record says where no request has the ID is not stated: its status is free. -/
def execCancel (q i : Nat) (s : State) : Host.Outcome State Fault Refusal :=
  .next (withHostCmd 0x41 q i s (fun c =>
    match s.srvPart q with
    | none => s.hComplete q c stInvalid 0
    | some p =>
      if hReservedOk c (msk 64 32 + msk 128 384) = false then s.hComplete q c stInvalid 0
      else
        match s.byId p (bits c.raw 96 32) with
        | some k => (s.markEnd k stCancelled).hComplete q c stSuccess (2 ^ 96 * bits c.raw 96 32)
        | none => (s.took 1).hComplete q c (s.freeVal 16) (2 ^ 96 * bits c.raw 96 32)))

/-- The oldest whole service message on receive queue q, if it is of a kind; the others stay in order. -/
def State.svcTake (s : State) (q kind : Nat) : Option (SvcMsg × State) :=
  match NMap.get [] s.eth.svcDone q with
  | m :: r => if m.kind = kind then some (m, { s with eth := { s.eth with svcDone := NMap.put [] s.eth.svcDone q r } }) else none
  | [] => none

/-- R235, R360: a SUBMIT message reassembled on service queue q admits a request. A message of no known kind is dropped here. -/
def execSvcSubmit (q : Nat) (s : State) : Host.Outcome State Fault Refusal :=
  let p := s.rd (Reg.BLT_RXQ_CFG.owner q)
  match s.svcTake q 0x01 with
  | none =>
    (match NMap.get [] s.eth.svcDone q with
     | m :: r => .next (if m.kind = 2 then s else ({ s with eth := { s.eth with svcDone := NMap.put [] s.eth.svcDone q r } }).inc (Reg.BLT_RXQ_STAT.rejected q) 1)
     | [] => .next s)
  | some (m, s) =>
    let raw := leNat (m.bytes.take 56) * 2 ^ 64
    let src := ReqSrc.eth q m.svcId m.src
    if 64 ≤ p ∨ s.on (Reg.SRV_PART_CFG.enable p) = false ∨ s.rd (Reg.BLT_RXQ_CFG.kind q) ≠ 2 then .next s
    else
      let st := s.submitCheck p raw
      let prompt := tokensOf (rqLen raw) (leNat (m.bytes.drop 56))
      if st ≠ 0xFFFF then .next (s.reqRecord (newReq p 0 raw src s.devId s.tickNum [] none) st false)
      else if m.bytes.length < 56 + 4 * rqLen raw then .next (s.reqRecord (newReq p 0 raw src s.devId s.tickNum [] none) stUnreadable false)
      else .next (s.accept p raw src prompt)

/-- R360: a CANCEL message reassembled on service queue q. -/
def execSvcCancel (q : Nat) (s : State) : Host.Outcome State Fault Refusal :=
  match s.svcTake q 0x02 with
  | none => .next s
  | some (m, s) =>
    match s.byId (s.rd (Reg.BLT_RXQ_CFG.owner q)) (leNat (m.bytes.take 4)) with
    | some k => .next (s.markEnd k stCancelled)
    | none => .next s

/-- R240: a QUEUED or JOINWAIT request with drop_late whose goal has passed ends. `h`: its handle at its origin. -/
def execDeadlineMissed (p h : Nat) (s : State) : Host.Outcome State Fault Refusal :=
  match s.req (rqKey p h) with
  | none => .next s
  | some r =>
    if (r.st = .queued ∨ r.st = .joinWait) ∧ rqDropLate r.raw = true ∧ rqClass r.raw < 2 ∧ r.goal < s.tickNum ∧ r.first = false then
      .next ((s.setReq (rqKey p h) (r.flag 7)).reqEnd (rqKey p h) stDeadline none)
    else .next s

/-! ### Adapters (R261) -/

/-- Take a free slot of p for a load and copy the adapter into it; nothing without a free slot. -/
def State.adStart (s : State) (l : AdLoad) : Option State :=
  match s.hcmd l.q l.index with
  | none => some { s with srv := { s.srv with loads := s.srv.loads.filter (fun x => decide (x ≠ l)) } }
  | some c =>
    let a := bits c.raw 80 16
    let n := bits c.raw 192 32 * 65536
    match (s.adSlots l.part).find? (fun k => decide (s.rd (Reg.INK_ADAPTER_STAT.state k) = 0)) with
    | none => none
    | some k =>
      let s1 := { s with srv := { s.srv with loads := s.srv.loads.map (fun x => if x = l then { l with slot := some k, landed := true } else x) } }
      let s1 := s1.wr (Reg.INK_ADAPTER_STAT.all k) (setBits (setBits (setBits 0 0 16 a) 16 16 (bits c.raw 96 16)) 32 3 1)
      let drop := fun (t : State) => ({ t with srv := { t.srv with loads := s.srv.loads.filter (fun x => decide (x ≠ l)) } }).adEmpty k
      match s.hqPasid l.q with
      | none => some ((drop s1).hComplete l.q c stHostFailed 0)
      | some pasid =>
        if !s.permit l.part (s.adAddr l.part k) n then some ((drop s1).hComplete l.q c stMemRefused 0)
        else
          match s.hostRd pasid (bits c.raw 128 64) n with
          | none => some (((drop s1).hqAccessFault l.q (bits c.raw 128 64)).hComplete l.q c stHostFailed 0)
          | some v => some (s1.stN (s.adAddr l.part k) n v)

/-- A waiting load tries again. -/
def State.adRetry (s : State) (l : AdLoad) : State :=
  if l.slot.isSome then s else match s.adStart l with | some t => t | none => s

/-- R261: an ADAPTER_LOAD command. -/
def execAdapterLoad (q i : Nat) (s : State) : Host.Outcome State Fault Refusal :=
  .next (withHostCmd 0x42 q i s (fun c =>
    match s.srvPart q with
    | none => s.hComplete q c stInvalid 0
    | some p =>
      let a := bits c.raw 80 16
      let v := bits c.raw 96 16
      let n := bits c.raw 192 32
      let old := match s.adLive p a with | some k => decide (v ≤ s.rd (Reg.INK_ADAPTER_STAT.version k)) | none => false
      if n = 0 then s.hComplete q c stSuccess 0
      else if hReservedOk c (msk 64 16 + msk 112 16 + msk 224 288) = false ∨ old = true ∨ s.rd (Reg.INK_ADAPTER_CFG.slot_64k p) < n then s.hComplete q c stInvalid 0
      else
        let l : AdLoad := ⟨p, q, i, none, false, false⟩
        let s := s.hMark q i false
        let s := { s with srv := { s.srv with loads := s.srv.loads ++ [l], dropped := s.srv.dropped.filter (fun x => decide (x ≠ rqKey p a)) } }
        match s.adStart l with
        | some t => t
        | none =>
          (match s.hcmd q i with | some c => s.hInterim q c stSlotBusy 0 | none => s)))

/-- R261: at an edge, the version loaded in slot k goes live, and the one before it retires. Requests that wait for it are
pinned. -/
def execAdapterLive (k : Nat) (s : State) : Host.Outcome State Fault Refusal :=
  match s.srv.loads.find? (fun l => decide (l.slot = some k) && l.landed) with
  | none => .next s
  | some l =>
    let a := s.rd (Reg.INK_ADAPTER_STAT.adapter_id k)
    let gone := s.srv.dropped.contains (rqKey l.part a)
    let old := (s.adHeld l.part a (fun x => x == 2)).filter (fun j => decide (j ≠ k))
    let s := s.wr (Reg.INK_ADAPTER_STAT.state k) 2
    let s := each old s (fun j t => t.adRetire j)
    let s := { s with srv := { s.srv with loads := s.srv.loads.filter (fun x => decide (x ≠ l)) } }
    let s := if gone then s.adRetire k else each s.srv.reqs s (fun e t => if e.2.part = l.part ∧ e.2.st = .queued then t.pinReq e.1 else t)
    .next (match s.hcmd l.q l.index with | some c => s.hComplete l.q c stSuccess 0 | none => s)

/-- R261: an ADAPTER_DROP command. -/
def execAdapterDrop (q i : Nat) (s : State) : Host.Outcome State Fault Refusal :=
  .next (withHostCmd 0x43 q i s (fun c =>
    match s.srvPart q with
    | none => s.hComplete q c stInvalid 0
    | some p =>
      let a := bits c.raw 80 16
      if hReservedOk c (msk 64 16 + msk 96 416) = false ∨ (s.adHeld p a (fun x => x != 0)).isEmpty = true then s.hComplete q c stInvalid 0
      else
        let loading := !(s.adHeld p a (fun x => x == 1)).isEmpty
        let s := each (s.adHeld p a (fun x => x == 2)) s (fun k t => t.adRetire k)
        let s := if loading then { s with srv := { s.srv with dropped := s.srv.dropped ++ [rqKey p a] } } else s
        s.hComplete q c stSuccess 0))

/-! ### Prompt phases (R251, R254, R262 to R266) -/

/-- Tiles of the generation pool of p for a model on this package: those of its enabled batches that are not for R266, within
the live map's g_tiles (R462); without one, every tile. -/
def State.genMask (s : State) (p model : Nat) (fb : Bool) : Nat :=
  let g := if s.liveEpoch p = 0 then 0xFF else match s.myEntry p with | some e => 16 * bits e 28 4 | none => 0
  let m := (List.range 64).foldl (fun a b =>
    if s.on (Reg.SRV_BATCH_CFG.enable b) && decide (s.rd (Reg.SRV_BATCH_CFG.partition b) = p) && decide (s.rd (Reg.SRV_BATCH_CFG.model b) = model) &&
        (s.on (Reg.SRV_BATCH_CFG.fallback b) == fb) then Nat.lor a (s.rd (Reg.SRV_BATCH_CFG.tiles b)) else a) 0
  let m := if fb then m else Nat.land m g
  if m = 0 then (if fb then 0x0F else Nat.land 0xFF (if s.liveEpoch p = 0 then 0xFF else g)) else m
/-- Tiles of the prompt pool here, present ones (R46). -/
def State.promptMask (s : State) (p : Nat) : Nat :=
  Nat.land s.presentTiles (if s.liveEpoch p = 0 then 0x0F else match s.myEntry p with | some e => bits e 24 4 | none => 0)

/-- The P-tile on which a prompt phase of p runs (R38); which of several the spec leaves open. -/
def State.promptTile (s : State) (p : Nat) : Option Nat :=
  let l := (List.range 4).filter (fun n => bit (s.promptMask p) n)
  l[Config.freeNat s.free % l.length]?

/-- Allocate frames for positions [b, b + n) of handle h from tiles of a mask, tile `pref` first: held with one reference; none where
one fails. -/
def State.allocBlocks (s : State) (p h mask : Nat) (pref : Option Nat) : Nat → Nat → Option State
  | 0, _ => some s
  | n + 1, b =>
    match (s.took 1).allocTiles p 1 (s.poolTiles p mask pref) with
    | (t, some id) => (t.btPut p h b id).allocBlocks p h mask pref n (b + 1)
    | (_, none) => none

/-- The G-tile that R38 pairs with the P-tile of the request's prompt phase here. -/
def Req.pair (r : Req) : Option Nat := if r.ptile < 4 then some (r.ptile + 4) else none

/-- Can no lookup reach the cache pool (R266): the live map names cache members and none is a candidate? -/
def State.cacheGone (s : State) (p : Nat) : Bool :=
  s.liveEpoch p != 0 && (s.liveMap p).any (fun e => bit e 18) && (s.candidates p cmCache).isEmpty

/-- Ask a member to reserve frames (HANDOFF_OPEN). -/
def State.sendOpen (s : State) (r : Req) (dev : Nat) (second : Bool) : State :=
  s.sendServe r dev 2 0 r.epoch (setBits (setBits (setBits 0 128 24 r.blocks) 152 64 r.ns) 216 1 (b2n second)) []

/-- The prompt phase of a request whose prompt member is this package: its P-tile, lookup, frames, handoff requests. None where its
frames cannot be allocated. `fb`: it will decode on P-tiles here (R266). -/
def State.startPrompt (s : State) (k : Nat) (fb : Bool) : Option State :=
  match s.req k, s.promptTile (k / 65536) with
  | some r, some i =>
    let p := r.part
    let h := k % 65536
    let here := decide (r.genDev = s.devId)
    let look := s.indexOn p && !s.cacheGone p
    let s := s.took 1
    let (s1, hit) := if look && !rqNoReuse r.raw then s.lookup p h r.ns (rqId r.raw) r.prompt ((rqLen r.raw - 1) / 64) 0 noBlock else (s, 0)
    let skipped := !look && !rqNoReuse r.raw && s.on (Reg.SRV_PART_CFG.index_en p)
    let s1 := if skipped then s1.inc (Reg.SRV_CNT_B.fallbacks p) 1 else s1
    match s1.allocBlocks p h (if here then s.genMask p (rqModel r.raw) fb else 2 ^ i) (if fb then none else some (i + 4)) (r.blocks - hit) hit with
    | none => none
    | some t =>
      let r1 := { r with st := .prefill, ptile := i, hit := hit, held := r.blocks, ready := hit, roles := Nat.lor 2 (if here then 1 else 0) }
      let r2 := if 0 < hit then r1.flag 1 else r1
      let r3 := if skipped then r2.flag 5 else r2
      let t := t.inc (Reg.INK_CNT.hits p) hit
      let single := !here && r.second.isNone
      let r4 := if single then r3.flag 6 else r3
      let t := if single then t.inc (Reg.SRV_CNT_B.fallbacks p) 1 else t
      let t := t.setReq k r4
      if here then some t
      else
        let t := t.sendOpen r4 r.genDev false
        some (match r.second with | some d => if d ≠ s.devId then t.sendOpen r4 d true else t | none => t)
  | _, _ => none

/-! ### Batches open to a request (R242, R257, R266) -/

def State.batch (s : State) (b : Nat) : Batch := NMap.get {} s.srv.batches b
def State.setBatch (s : State) (b : Nat) (x : Batch) : State :=
  ({ s with srv := { s.srv with batches := NMap.put {} s.srv.batches b x } }).wr (Reg.SRV_BATCH_STAT.occupancy b) x.seats.length

/-- The seated sequence of lowest priority that `ok` accepts. -/
def State.lowest (s : State) (b : Nat) (ok : Nat × Req → Bool) : Option Nat :=
  let l := (s.batch b).seats.filterMap (fun k => (s.req k).map (fun r => (k, r)))
  ((reqSort (l.filter ok)).getLast?).map (fun e => e.1)

/-- Is batch b open to new seats of partition p's model: enabled, of p and the model, its tiles within the live map (R462)? -/
def State.batchFits (s : State) (b p model : Nat) (fb : Bool) : Bool :=
  s.on (Reg.SRV_BATCH_CFG.enable b) && decide (s.rd (Reg.SRV_BATCH_CFG.partition b) = p) && decide (s.rd (Reg.SRV_BATCH_CFG.model b) = model) &&
    (s.on (Reg.SRV_BATCH_CFG.fallback b) == fb) &&
    (fb || s.liveEpoch p == 0 ||
      (match s.myEntry p with | some e => Nat.land (s.rd (Reg.SRV_BATCH_CFG.tiles b)) (255 - 16 * bits e 28 4) == 0 | none => false))
def State.freeSeats (s : State) (b : Nat) : Nat := s.rd (Reg.SRV_BATCH_CFG.max_seqs_m1 b) + 1 - (s.batch b).seats.length

/-- Has the request no seat to hope for outside R266: at risk, every batch it could join full, and no sequence of a lower class that R257
could pause in the first of them? -/
def State.fallsBack (s : State) (r : Req) : Bool :=
  let fits := (List.range 64).filter (fun b => s.batchFits b r.part (rqModel r.raw) false)
  s.atRisk r && fits.all (fun b => decide (s.freeSeats b = 0)) &&
    (match fits.head? with | some b => (s.lowest b (fun x => decide (rqClass r.raw < rqClass x.2.raw))).isNone | none => true)
/-- May this package decode the request in a batch of R266? -/
def State.canFallBack (s : State) (r : Req) : Bool :=
  s.fallsBack r && (List.range 64).any (fun b => s.batchFits b r.part (rqModel r.raw) true)

/-- Route a request under the live map and start, or send, its prompt phase (R463). -/
def State.routeReq (s : State) (k : Nat) : Option State :=
  match s.req k with
  | none => none
  | some r =>
    let p := r.part
    let a := if r.src = .remote then (s, some s.devId) else s.pickPrompt p r.tried
    let epoch := if r.src = .remote then r.epoch else s.liveEpoch p
    match a.2 with
    | none => some (s.reqEnd k stNoPool none)
    | some pm =>
      if pm = s.devId then
        let g := a.1.pickGen p pm r.tried
        match g.2 with
        | none =>
          if s.canFallBack r then (s.setReq k { r with epoch := epoch, promptDev := pm, genDev := pm, second := none }).startPrompt k true
          else some (s.reqEnd k stNoPool none)
        | some gm =>
          let second := if gm = pm then none else g.1.pickSecond p epoch pm gm []
          (g.1.setReq k { r with epoch := epoch, promptDev := pm, genDev := gm, second := second }).startPrompt k false
      else
        let r1 := { r with epoch := s.liveEpoch p, promptDev := pm, st := .prefill }
        let body := bits r.raw 64 384 * 2 ^ 128
        let ga := match r.store with | some x => s.devId * 281474976710656 + x.1 | none => 0
        some ((a.1.setReq k r1).sendServe r1 pm 1 0 r1.epoch body (leBytes (setBits (setBits 0 0 64 ga) 64 23 (rqLen r.raw)) 64))

/-- A sequence with released blocks goes to RECOMPUTE when frames for them can be allocated from its batch's tiles (R258). -/
def State.startRecompute (s : State) (k : Nat) : Option State :=
  match s.req k with
  | none => none
  | some r =>
    let h := k % 65536
    let rel := (List.range r.held).filter (fun i => btReleased (s.btGet r.part h i))
    let go := rel.foldl (fun (a : Option State) i => match a with
      | none => none
      | some t => t.allocBlocks r.part h (match r.batch with | some b => t.rd (Reg.SRV_BATCH_CFG.tiles b) | none => 0) r.pair 1 i) (some s)
    go.map (fun t => t.setReq k { r with st := .recompute, ready := match rel with | i :: _ => i | [] => r.held })

/-- R254: at an edge, the first request of partition p in priority order whose prompt phase can start does. -/
def execPromptPhaseStart (p : Nat) (s : State) : Host.Outcome State Fault Refusal :=
  let l := reqSort (s.srv.reqs.filter (fun e => decide (e.2.part = p) && s.partState p == 1 && e.2.leaving.isNone &&
    e.2.st == .queued && (!rqAdEn e.2.raw || e.2.slot.isSome)))
  match l.findSome? (fun e => s.routeReq e.1) with
  | some t => .next t
  | none => .next s

/-! ### Batches (R241 to R245, R255 to R258) -/

/-- Tokens of the next step of a sequence: one and its draft (R244). -/
def State.nNew (s : State) (r : Req) : Nat :=
  1 + (match r.qctx with | some c => cxDraftCur (s.ctxHead r.part c) | none => rqDraft r.raw)
/-- Blocks a sequence lacks for its next step. -/
def State.blocksShort (s : State) (r : Req) : Nat := cdiv (r.toks.length + s.nNew r) 64 - r.held

/-- A seated sequence is paused: its seat is free, the rest stays. -/
def State.pauseSeq (s : State) (b k : Nat) : State :=
  let x := s.batch b
  (s.setBatch b { x with seats := x.seats.filter (fun y => decide (y ≠ k)) }).modReq k (fun r => { r.flag 8 with st := .paused })

/-- Release the newest unshared blocks of a paused sequence, newest first, until `stop` says enough (R255). -/
def State.releaseBlocks (s : State) (k : Nat) (stop : State → Bool) : Nat → State
  | 0 => s
  | n + 1 =>
    match s.req k with
    | none => s
    | some r =>
      let e := s.btGet r.part (k % 65536) n
      if stop s then s
      else if btValid e && decide (s.trRefs r.part (btBlock e) = 1) then
        let s := if s.isIndexed r.part (btBlock e) then s.unindex r.part (btBlock e) else s
        (((s.setTrLastUse r.part (btBlock e) s.tickNum).freeFrame r.part (btBlock e)).btRelease r.part (k % 65536) n).releaseBlocks k stop n
      else s.releaseBlocks k stop n

/-- A frame for position `held` of sequence k from the batch's tiles. -/
def State.extendOne (s : State) (b k : Nat) : Option State :=
  match s.req k with
  | none => none
  | some r =>
    (s.allocBlocks r.part (k % 65536) (s.rd (Reg.SRV_BATCH_CFG.tiles b)) r.pair 1 r.held).map (fun t => t.modReq k (fun r => { r with held := r.held + 1 }))

/-- extend_or_pause of a seated sequence (R255). -/
def State.extendOrPause (s : State) (b k : Nat) : Nat → State
  | 0 => s
  | n + 1 =>
    match s.extendOne b k with
    | some t => t
    | none =>
      match s.lowest b (fun _ => true) with
      | none => s
      | some v =>
        let s := (s.pauseSeq b v).inc (Reg.SRV_CNT_A.paused_oom (v / 65536)) 1
        let held := match s.req v with | some r => r.held | none => 0
        if v = k then s else (s.releaseBlocks v (fun t => (t.extendOne b k).isSome) held).extendOrPause b k n

/-- Free serving context of p on this package (R288). -/
def State.freeCtx (s : State) (p : Nat) : Option Nat :=
  (List.range (s.rd (Reg.QUILL_CTX_CFG.srv_count p))).find? (fun c => s.srv.reqs.all (fun e => decide (e.2.part ≠ p) || decide (e.2.qctx ≠ some c)))

/-- Joiners and resumers of batch b, in priority order, at most 32 (R242). One that has been in the batch is offered once no waiting
request of a higher class is at risk (R258). -/
def State.offered (s : State) (b : Nat) : List (Nat × Req) :=
  let p := s.rd (Reg.SRV_BATCH_CFG.partition b)
  let fb := s.on (Reg.SRV_BATCH_CFG.fallback b)
  let risky := fun (c : Nat) => s.srv.reqs.any (fun e => decide (e.2.part = p) && (e.2.st == .queued || e.2.st == .joinWait) && decide (rqClass e.2.raw < c) && s.atRisk e.2)
  let ok := fun (e : Nat × Req) => decide (e.2.part = p) && e.2.leaving.isNone &&
    (if e.2.batch == some b then (e.2.st == .joinWait || e.2.st == .paused) && !risky (rqClass e.2.raw)
     else e.2.st == .joinWait && e.2.batch.isNone && bit e.2.roles 0 && s.batchFits b p (rqModel e.2.raw) fb && (!fb || s.fallsBack e.2))
  (reqSort (s.srv.reqs.filter ok)).take 32

/-- Blocks of the sequence are released (R255). -/
def State.anyReleased (s : State) (k : Nat) (r : Req) : Bool := (List.range r.held).any (fun i => btReleased (s.btGet r.part (k % 65536) i))

/-- Seat a joiner or resumer, where it has a context and its frames. One with released blocks first goes to RECOMPUTE (R258). -/
def State.seat (s : State) (b : Nat) (e : Nat × Req) : State :=
  let k := e.1
  let r := e.2
  let p := r.part
  let no := s.inc (Reg.SRV_CNT_A.not_admitted p) 1
  if s.anyReleased k r then (match s.startRecompute k with | some t => t | none => no)
  else if s.freeSeats b = 0 then s
  else
    match r.qctx, s.freeCtx p with
    | none, none => no
    | q, f =>
      let ctx := match q with | some c => c | none => f.getD 0
      let init := if q.isSome then stSuccess else s.initCheck p ctx (rqProfile r.raw)
      if init = stCtxBusy then no
      else if init ≠ stSuccess then s.markEnd k init
      else
      let s1 := if q.isSome then s else s.initCtx p ctx (rqProfile r.raw) (rqDraft r.raw) (rqSeed r.raw) (rqMaxNew r.raw)
      let r1 := { r with qctx := some ctx }
      match s1.allocBlocks p (k % 65536) (s1.rd (Reg.SRV_BATCH_CFG.tiles b)) r.pair (s1.blocksShort r1) r1.held with
      | none => no
      | some t =>
        let fb := t.on (Reg.SRV_BATCH_CFG.fallback b)
        let resumed := r.st == .paused || r.batch.isSome
        let r2 := { r1 with st := .decode, batch := some b, joined := r.batch.isNone, resumed := resumed, held := r1.held + s1.blocksShort r1 }
        let r3 := if fb && !bit r.flags 4 then r2.flag 4 else r2
        let t := if fb && !bit r.flags 4 then t.inc (Reg.SRV_CNT_B.fallbacks p) 1 else t
        let t := if resumed then t.inc (Reg.SRV_CNT_A.resumed p) 1 else t
        let x := t.batch b
        (t.setReq k r3).setBatch b { x with seats := x.seats ++ [k] }

/-- Would request k find a seat free in batch b when its turn comes (R242)? -/
def State.seatFor (s : State) (b k : Nat) : Bool :=
  let l := s.offered b
  l.any (fun e => decide (e.1 = k)) && decide (0 < (each (l.takeWhile (fun e => decide (e.1 ≠ k))) s (fun e t => t.seat b e)).freeSeats b)
/-- Would it also be seated, its frames found? -/
def State.seatable (s : State) (b k : Nat) : Bool :=
  match (each (s.offered b) s (fun e t => t.seat b e)).req k with
  | some r => r.st == .decode
  | none => false

/-- Pause sequences of a lower class than request k, the lowest first, until it has a seat (R257). -/
def State.riskSeat (s : State) (b k cls : Nat) : Nat → State
  | 0 => s
  | n + 1 =>
    if s.seatFor b k then s
    else
      match s.lowest b (fun x => decide (cls < rqClass x.2.raw)) with
      | some v => ((s.pauseSeq b v).inc (Reg.SRV_CNT_A.paused_risk (v / 65536)) 1).riskSeat b k cls n
      | none => s

/-- risk_pauses of batch b (R257): for each request at risk that has this as its first eligible batch and cannot be seated. Frames it
still lacks come from the sequences paused at this boundary; `seated`: who held a seat before it. -/
def State.riskPauses (s : State) (b : Nat) (seated : List Nat) : State :=
  let p := s.rd (Reg.SRV_BATCH_CFG.partition b)
  let mine := fun (e : Nat × Req) => e.2.st == .joinWait && e.2.batch.isNone && decide (e.2.part = p) && bit e.2.roles 0 && s.atRisk e.2 && e.2.leaving.isNone &&
    ((List.range 64).find? (fun x => s.batchFits x p (rqModel e.2.raw) false) == some b)
  each (reqSort (s.srv.reqs.filter mine)) s (fun e t =>
    let t := t.riskSeat b e.1 (rqClass e.2.raw) 129
    if t.seatFor b e.1 = false ∨ t.seatable b e.1 = true then t
    else
      each (seated.filter (fun v => match t.req v with | some x => x.st == .paused | none => false)) t (fun v u =>
        let held := match u.req v with | some x => x.held | none => 0
        if u.seatable b e.1 then u else u.releaseBlocks v (fun w => w.seatable b e.1) held))

/-- Write the step table of batch b (R245). -/
def State.writeStepTable (s : State) (b : Nat) : State :=
  let base := s.rd (Reg.SRV_BATCH_TAB.base b)
  let p := s.rd (Reg.SRV_BATCH_CFG.partition b)
  let seats := (s.batch b).seats
  let s := s.stFor p base (leBytes (setBits (setBits (setBits 0 0 32 (s.rd (Reg.SRV_BATCH_STAT.step b))) 32 8 seats.length) 64 64 s.tickNum) 64)
  each ((List.range seats.length).zip seats) s (fun e t =>
    match t.req e.2 with
    | none => t
    | some r =>
      let v := setBits (setBits (setBits (setBits (setBits 0 0 32 (e.2 % 65536)) 32 23 r.toks.length) 55 5 (t.nNew r)) 60 1 (b2n r.joined)) 61 1 (b2n r.resumed)
      let v := setBits (setBits (setBits (setBits v 64 64 (t.btEntry r.part (e.2 % 65536) 0)) 128 10 (r.slot.getD 0)) 138 1 (b2n r.slot.isSome)) 144 16 (r.qctx.getD 0)
      (t.stFor p (base + 64 + 64 * e.1) (leBytes v 64)).setReq e.2 { r with joined := false, resumed := false })

/-- R242: the present edge is a boundary of batch b: the scheduler prepares the next step. -/
def execBatchBoundary (b : Nat) (s : State) : Host.Outcome State Fault Refusal :=
  let n := s.rd Reg.TICK_STAT.period_code
  let x := s.batch b
  if 64 ≤ b ∨ s.on (Reg.SRV_BATCH_CFG.enable b) = false ∨ s.tickNum / 2 ^ n % (s.rd (Reg.SRV_BATCH_CFG.step_ticks_m1 b) + 1) ≠ 0 ∨
      x.taken = s.tickNum + 1 then .next s
  else
    let s := s.setBatch b { x with taken := s.tickNum + 1 }
    if !x.stepDone || decide (s.partState (s.rd (Reg.SRV_BATCH_CFG.partition b)) ≠ 1) then .next (s.inc (Reg.SRV_BATCH_STAT.skipped b) 1)
    else
      let s := each x.seats s (fun k t => match t.req k with
        | some r => (match r.leaving with | some st => t.reqEnd k st (some b) | none => t)
        | none => t)
      let s := each (s.batch b).seats s (fun k t => match t.req k with
        | some r => if (t.batch b).seats.contains k && decide (0 < t.blocksShort r) then t.extendOrPause b k 129 else t
        | none => t)
      let s := s.riskPauses b x.seats
      let s := each (s.offered b) s (fun e t => t.seat b e)
      let s := s.flushFree (some b)
      let s := s.wr (Reg.SRV_BATCH_STAT.step b) (s.rd (Reg.SRV_BATCH_STAT.step b) + 1)
      let s := s.writeStepTable b
      let s := s.setBatch b { s.batch b with stepDone := false }
      let sem := s.rd (Reg.SRV_BATCH_CFG.step_sem b)
      .next (if s.semOwned sem (s.rd (Reg.SRV_BATCH_CFG.partition b)) then s.semPost sem 1 else s)

/-! ### Tokens (R289) -/

/-- Quill hands the tokens of a SAMPLE with serve = 1 to the scheduler, for the request that held its context when it started; those of a
request that is DONE are discarded. -/
def State.serveTokens (s : State) (who : Option Nat) (toks : List Nat) (fin : Bool) (status : Nat) : State :=
  match who.bind (fun k => (s.req k).map (fun r => (k, r))) with
  | none => s
  | some (k, r) =>
    let endSt := if status = stNoCandidate then stInvalid else if status = stUnreadable then stUnreadable else stSuccess
    let stop := fin || status == stNoCandidate || status == stUnreadable
    let s := s.setReq k { r with outs := r.outs ++ toks, told := r.told || stop }
    let s := if r.src = .remote then (if toks.isEmpty && !stop then s else s.sendToken r toks stop (if stop then endSt else 0)) else s.deliver k toks
    if stop then s.markEnd k endSt else s

end Sys2Proof.Machine
end

