-- ==== Sys2Proof/Machine/ServeMsg.lean ====
section
/-! DEFINITION. Serving messages between packages and the Inkwell commands of the cores (R262 to R267, R417, R457). -/

namespace Sys2Proof.Machine

/-! ### Packets (R417) -/

/-- The first line of a serving packet, and its fields. -/
def svLine (p : Packet) : Nat := leNat (p.payload.take 64)
def svKind (p : Packet) : Nat := bits (svLine p) 0 8
def svStatus (p : Packet) : Nat := bits (svLine p) 8 16
def svEpoch (p : Packet) : Nat := bits (svLine p) 32 32
def svId (p : Packet) : Nat := bits (svLine p) 64 32
def svOrigin (p : Packet) : Nat := bits (svLine p) 96 16
def svHandle (p : Packet) : Nat := bits (svLine p) 112 16

/-- A request of partition q known by its origin's device, handle and request_id (R417), that `f` accepts. -/
def State.svReq (s : State) (q origin h id : Nat) (f : Req → Bool) : Option Nat :=
  (s.srv.reqs.find? (fun e => decide (e.2.part = q) && decide (e.2.origin = origin) && decide (e.2.originHandle % 65536 = h) &&
    decide (rqId e.2.raw = id) && f e.2)).map (fun e => e.1)
def State.svFind (s : State) (q : Nat) (p : Packet) (f : Req → Bool) : Option Nat := s.svReq q (svOrigin p) (svHandle p) (svId p) f

/-- Is this package the request's origin; its prompt member? -/
def Req.isOrigin (r : Req) : Bool := r.src != .remote
def Req.isPrompt (r : Req) : Bool := bit r.roles 1

/-- Is an epoch accepted (R263): live, or previous while its drain window is open? -/
def State.epochOk (s : State) (q e : Nat) : Bool :=
  decide (e = s.liveEpoch q) || (s.on (Reg.PART_COMP_STAT.draining q) && decide (e = s.rd (Reg.PART_COMP.prev_epoch q)))

/-- A request that exists only here for the answer to a message about a request this package does not hold. -/
def svGhost (q : Nat) (p : Packet) : Req :=
  { newReq q 0 (svId p * 2 ^ 96) .remote (svOrigin p) 0 [] none with originHandle := svHandle p, epoch := svEpoch p }

/-- Answer a PROMPT_REQ or HANDOFF_OPEN with a status and no frames (R417). -/
def State.svRefuse (s : State) (q : Nat) (p : Packet) (status : Nat) : State := s.sendServe (svGhost q p) p.src 3 status (svEpoch p) 0 []

/-- A serving message of kind `kind` arrives: lifetime (R406), domain (R402), epoch (R263); its acknowledgement, then its
effect. `bound`: it is accepted for the partition whatever its epoch. -/
def serveIn (kind : Nat) (bound : State → Nat → Bool) (p : Packet) (s : State) (body : State → Nat → State) : State :=
  if p.type ≠ 9 ∨ p.dst ≠ s.devId ∨ svKind p ≠ kind then s
  else if tooOld p then s.inc Reg.FAB_STAT.lifetime_drops 1
  else
    match s.domainPart p.domain with
    | none => s.refuse p 0x82
    | some q =>
      let st := s.partState q
      if st = 0 ∨ st = 4 ∨ st = 5 then s.refuse p 0x82
      else if bound s q || s.epochOk q (svEpoch p) then
        (if (kind = 1 ∨ kind = 2) ∧ (st ≠ 1 ∨ s.on (Reg.SRV_PART_CFG.enable q) = false) then (s.ack p 0).svRefuse q p stNoSpace
         else body (s.ack p 0) q)
      else if kind = 1 ∨ kind = 2 then (s.ack p 0).svRefuse q p stEpochStale
      else s.ack p 1

/-! ### Blocks on their way (R262, R264) -/

/-- Store block b of request k into the frame at global address ga of another package, as the instructions of R191 would: lines of
at most 1,024 bytes a packet. -/
def State.pushBlock (s : State) (k b which ga : Nat) : State :=
  match s.req k with
  | none => s
  | some r =>
    let n := s.kvBytes r.part (rqModel r.raw)
    let a := s.blkAddr r.part (btBlock (s.btGet r.part (k % 65536) b))
    let s := s.newGroup
    let g := s.fab.group
    let s := upto (cdiv n 1024) s (fun i t =>
      t.launchOp { t.request 2 r.part (ga + 1024 * i) with payload := t.ldBytes (a + 1024 * i) (min 1024 (n - 1024 * i)) }
        r.part (ga + 1024 * i) none none 0 0 0 g 0 (if r.ptile < 4 then some r.ptile else none))
    s.setReq k { r with sent := NMap.put false r.sent (2 * b + which) true, pushes := r.pushes ++ [(2 * b + which, g)] }

/-- Does the request have a second copy on another package? -/
def State.secondAway (s : State) (r : Req) : Bool := match r.second with | some d => decide (d ≠ s.devId) | none => false

/-- KV_DONE goes out once every store has been acknowledged (R264). -/
def State.kvDone (s : State) (k : Nat) : State :=
  match s.req k with
  | none => s
  | some r =>
    let all := fun (w : Nat) => (List.range r.blocks).all (fun b => NMap.get false r.sent (2 * b + w))
    if !r.isPrompt || r.doneSent || decide (r.genDev = s.devId) || decide (r.genDev = 0xFFFF) || r.bound || decide (r.ready < r.blocks) ||
        !all 0 || (s.secondAway r && !all 1) || !r.pushes.isEmpty then s
    else
      (s.sendServe r r.genDev 4 0 r.epoch (setBits (setBits 0 128 24 r.blocks) 152 23 (rqLen r.raw)) []).modReq k
        (fun x => { x with doneSent := true })

/-- Push the first n blocks of request k that have not gone to member w (0 generation, 1 second cache) and whose address has arrived. -/
def State.pushTo (s : State) (k n w : Nat) (frames : NMap Nat) : State :=
  upto n s (fun b u =>
    match NMap.find frames b with
    | none => u
    | some ga => if NMap.get false (match u.req k with | some x => x.sent | none => []) (2 * b + w) then u else u.pushBlock k b w ga)

/-- Push every complete block of request k whose address has arrived. -/
def State.pushKv (s : State) (k : Nat) : State :=
  match s.req k with
  | none => s
  | some r =>
    if !r.isPrompt || r.bound || decide (r.genDev = s.devId) then s
    else
      let s := s.pushTo k (min r.ready r.blocks) 0 r.frames
      let s := if s.secondAway r then s.pushTo k (min r.ready r.blocks) 1 r.frames2 else s
      s.kvDone k

/-- The stores of a group have all been acknowledged. -/
def State.kvAcked (s : State) (g : Nat) : State :=
  if s.fab.out.any (fun o => decide (o.group = g)) then s
  else
    match s.srv.reqs.find? (fun e => e.2.pushes.any (fun x => decide (x.2 = g))) with
    | none => s
    | some (k, r) => (s.setReq k { r with pushes := r.pushes.filter (fun x => decide (x.2 ≠ g)) }).kvDone k

/-- A device is lost (`who` none), or stale for request `who`, to the serving scheduler, which acts at the next edge (R265). -/
def State.noteLost (s : State) (dev : Nat) (who : Option Nat) : State :=
  if s.srv.lost.contains (dev, who) then s else { s with srv := { s.srv with lost := s.srv.lost ++ [(dev, who)] } }

/-- A second copy of the request on another package is given up there by a CANCEL (R264, assumption 42). -/
def State.dropSecond (s : State) (r : Req) : State :=
  match r.second with
  | some d => if d ≠ s.devId then s.sendServe r d 7 0 r.epoch 0 [] else s
  | none => s

/-! ### R265 -/

/-- SRV.HANDOFF_LOST or SRV.GEN_LOST. -/
def State.lostFault (s : State) (code : Nat) (r : Req) (dev : Nat) : State :=
  s.fault { code := code, part := r.part, die := 8, unit := 8, arg0 := rqId r.raw, arg1 := dev }

/-- Forget where the phases of a request ran. -/
def Req.fresh (r : Req) (st : ReqSt) : Req :=
  { r with st := st, promptDev := 0xFFFF, genDev := 0xFFFF, second := none, roles := 0, bound := false, frames := [], frames2 := [],
           sent := [], pushes := [], doneSent := false, genHandle := 0, batch := none, joined := false, resumed := false,
           hit := 0, held := 0, ready := 0, ptile := 8, tried2 := [] }

/-- Re-prefill from the retained prompt, at the origin or at a prompt member that holds its tokens: QUEUED, reprefilled and rerouted set
(R265). Devices of `tried` are passed over in the new choice. -/
def State.reprefill (s : State) (k : Nat) (tried : List Nat) : State :=
  match (s.dropBlocks k none).req k with
  | none => s
  | some r =>
    let s := s.dropBlocks k none
    let s := (s.inc (Reg.SRV_CNT_B.reprefilled r.part) 1).inc (Reg.SRV_CNT_B.rerouted r.part) 1
    s.setReq k { ((r.flag 3).flag 2).fresh .queued with tried := tried }

/-- At a prompt member, another generation member takes over before KV_ACK: it gets the blocks from the frames here (assumption 82).
With none, this package's P-tiles where R266 allows it, or the wait for one goes on (`keep`), or the request ends with `status` (R265). -/
def State.newGen (s : State) (k : Nat) (tried : List Nat) (status : Nat) (keep : Bool) (after : Option Nat) : State :=
  match s.req k with
  | none => s
  | some r =>
    let r0 := { r.flag 2 with frames := [], sent := r.sent.filter (fun e => decide (e.1 % 2 = 1)), pushes := r.pushes.filter (fun e => decide (e.1 % 2 = 1)), doneSent := false, tried := tried }
    let g := match after with | some d => (s, candidateAfter (s.liveMap r.part) cmGen d tried) | none => s.wrrPick r.part 1 cmGen tried
    match (if s.liveEpoch r.part = 0 then none else g.2), s.canFallBack r with
    | none, true => (s.inc (Reg.SRV_CNT_B.rerouted r.part) 1).setReq k { r0 with genDev := s.devId, epoch := s.liveEpoch r.part, roles := Nat.lor r.roles 1 }
    | some d, _ =>
      if d = s.devId then
        -- this package has become a generation member: its own frames serve
        (g.1.inc (Reg.SRV_CNT_B.rerouted r.part) 1).setReq k { r0 with genDev := d, epoch := s.liveEpoch r.part, roles := Nat.lor r.roles 1 }
      else
        let r1 := { r0 with genDev := d, epoch := s.liveEpoch r.part }
        ((g.1.inc (Reg.SRV_CNT_B.rerouted r.part) 1).setReq k r1).sendOpen r1 d false
    | none, false =>
      if keep then s.setReq k { r0 with genDev := 0xFFFF, tried := [] }
      else (s.setReq k r0).markEnd k status

/-- The second cache member of request k cannot serve it: the next cache member in map order, else the handoff goes on with one copy
(R265, R266). -/
def State.newSecond (s : State) (k : Nat) (next : Bool) : State :=
  match s.req k with
  | none => s
  | some r =>
    let tried := r.tried2 ++ r.second.toList
    let r0 := { r with frames2 := [], tried2 := tried, sent := r.sent.filter (fun e => decide (e.1 % 2 = 0)), pushes := r.pushes.filter (fun e => decide (e.1 % 2 = 0)) }
    match (if next then candidateAfter (s.epochMap r.part r.epoch) cmCache (r.second.getD r.genDev) (r.genDev :: s.devId :: tried) else none) with
    | some d => (s.setReq k { r0 with second := some d }).sendOpen { r0 with second := some d } d true
    | none => ((s.inc (Reg.SRV_CNT_B.fallbacks r.part) 1).setReq k { r0.flag 6 with second := none }).kvDone k

/-- The action of R265 for one request when a device is lost (`gone`) or has answered as stale. -/
def State.memberLost (s : State) (dev : Nat) (gone : Bool) (k : Nat) : State :=
  match s.req k with
  | none => s
  | some r =>
    let rec_ := fun (t : State) => if gone then t.lostFault 0x5002 r dev else t
    if !r.isOrigin && gone && decide (r.origin = dev) then (s.setReq k { r with told := true }).leave k stCancelled none
    else if decide (dev = s.devId) then s
    else if r.isPrompt && !r.bound && decide (r.genDev = dev) then
      -- both copies are gone where it was the only one
      (if r.second.isNone && gone then (rec_ s).reprefill k [dev]
       else (rec_ s).newGen k [dev] stNoPool false none)
    else if r.isPrompt && !r.bound && r.second == some dev then (rec_ s).newSecond k (!gone)
    else if r.isOrigin && !r.bound && decide (r.promptDev = dev) then (rec_ s).reprefill k [dev]
    else if r.isOrigin && r.bound && gone && decide (r.genDev = dev) then
      (if r.first then (s.lostFault 0x5003 r dev).reqEnd k stGenLost none else (rec_ s).reprefill k [dev])
    else s

/-- R265: at the edge after the loss of a member, or of its stale answer, became known, or while a live map marks it down, the action
of the table is taken for every request it concerns. -/
def execMemberLost (dev : Nat) (s : State) : Host.Outcome State Fault Refusal :=
  let gone := s.srv.lost.contains (dev, none)
  let downIn := fun (q : Nat) => (s.liveMap q).any (fun e => decide (cmDev e = dev) && bit e 19)
  let keys := s.srv.reqs.map (fun e => e.1)
  let t := { s with srv := { s.srv with lost := s.srv.lost.filter (fun e => decide (e.1 ≠ dev)) } }
  .next (each keys t (fun k u =>
    if gone || downIn (k / 65536) then u.memberLost dev true k
    else if s.srv.lost.contains (dev, some k) then u.memberLost dev false k else u))

/-! ### The messages (R262) -/

/-- The slot of partition q that holds a version of an adapter that may be pinned (R260). -/
def State.adVersion (s : State) (q a ver : Nat) : Option Nat :=
  (s.adHeld q a (fun x => x == 2 || x == 3)).find? (fun j => decide (s.rd (Reg.INK_ADAPTER_STAT.version j) = ver))

/-- R262: a PROMPT_REQ at a prompt member. `prompt`: what the origin keeps of the request, and the
packet does not carry (assumption 41). -/
def execPromptReq (p : Packet) (prompt : Kept) (s : State) : Host.Outcome State Fault Refusal :=
  .next (serveIn 1 (fun _ _ => false) p s (fun s q =>
    let raw := setBits (setBits (bits (svLine p) 128 384 * 2 ^ 64) 96 32 (svId p)) 448 64 0
    match s.freeHandle q with
    | none => s.svRefuse q p stNoSpace
    | some h =>
      let slot := if rqAdEn raw then s.adVersion q (rqAdapter raw) prompt.version else none
      if (s.svFind q p (fun r => r.isPrompt)).isSome then s
      else if rqAdEn raw && slot.isNone then s.svRefuse q p stVersionAbsent
      else
        let toks := (List.range (rqLen raw)).map (fun i => prompt.toks.getD i 0 % 4294967296)
        let r := { newReq q h raw .remote (svOrigin p) prompt.accept toks none with
          originHandle := svHandle p, epoch := svEpoch p, promptDev := s.devId, roles := 2, slot := slot, version := if rqAdEn raw then prompt.version else 0 }
        (match slot with | some j => s.adPin j | none => s).setReq (rqKey q h) r))

/-- Reserve n frames for the request of handle h (R248): its table names them. -/
def State.reserveFrames (s : State) (q h mask : Nat) : Nat → Nat → Option State
  | 0, _ => some s
  | n + 1, b =>
    match (s.took 1).allocTiles q 4 (s.poolTiles q mask) with
    | (t, some id) => (t.btPut q h b id).reserveFrames q h mask n (b + 1)
    | (_, none) => none

/-- Send the addresses of the frames of request k, at most 120 a packet. -/
def State.sendFrames (s : State) (k dev epoch : Nat) : State :=
  match s.req k with
  | none => s
  | some r =>
    upto (cdiv r.held 120) s (fun i t =>
      let addrs := (List.range (min 120 (r.held - 120 * i))).map (fun j =>
        t.devId * 281474976710656 + t.blkAddr r.part (btBlock (t.btGet r.part (k % 65536) (120 * i + j))))
      let n := cdiv (addrs.length) 8 * 64
      t.sendServe r dev 3 0 epoch (setBits (setBits 0 128 24 r.held) 152 24 (120 * i)) (leBytes (leNat (addrs.flatMap (fun a => leBytes a 8))) n))

/-- R262: a HANDOFF_OPEN asks this package for reserved frames. The packet carries neither the SUBMIT fields nor the prompt that the
generation member needs; `body` (bits [447:64] of the SUBMIT) and `prompt` are what it has of them (assumption 41); the version is in the packet. -/
def execHandoffOpen (p : Packet) (body : Nat) (prompt : Kept) (s : State) : Host.Outcome State Fault Refusal :=
  .next (serveIn 2 (fun _ _ => false) p s (fun s q =>
    let l := svLine p
    let n := bits l 128 24
    let ns := bits l 152 64
    let second := bit l 216
    let raw := setBits (setBits (setBits (setBits (bits body 0 384 * 2 ^ 64) 96 32 (svId p)) 64 4 (bits ns 60 4)) 80 16 (bits ns 44 16)) 76 1 (bits ns 0 1)
    let ver := bits ns 28 16
    let slot := s.adVersion q (bits ns 44 16) ver
    let mask := if second then (match s.myEntry q with | some e => bits e 32 8 | none => 0) else s.genMask q (bits ns 60 4) false
    match s.freeHandle q with
    | none => s.svRefuse q p stNoSpace
    | some h =>
      if rqAdEn raw && slot.isNone then s.svRefuse q p stVersionAbsent
      else if s.btBlocks q < n then s.svRefuse q p stNoSpace
      else
        match s.reserveFrames q h mask n 0 with
        | none => s.svRefuse q p stNoSpace
        | some t =>
          let r := { newReq q h raw .remote (svOrigin p) prompt.accept prompt.toks none with
            originHandle := svHandle p, epoch := svEpoch p, st := .handoff, promptDev := p.src, genDev := t.devId, held := n,
            slot := if rqAdEn raw then slot else none, version := ver, roles := if second then 4 else 1 }
          let t := match (if rqAdEn raw then slot else none) with | some j => t.adPin j | none => t
          (t.setReq (rqKey q h) r).sendFrames (rqKey q h) p.src (svEpoch p)))

/-- R265, R417: a HANDOFF_REPLY at the prompt member, or at the origin for its PROMPT_REQ. One that reports EPOCH_STALE is taken
whatever its epoch. -/
def execHandoffReply (p : Packet) (s : State) : Host.Outcome State Fault Refusal :=
  .next (serveIn 3 (fun _ _ => svStatus p == stEpochStale) p s (fun s q =>
    let l := svLine p
    let st := svStatus p
    let s := if st = stEpochStale then s.inc (Reg.SRV_CNT_B.epoch_stale q) 1 else s
    match s.svFind q p (fun r => r.isPrompt && !r.bound && (decide (r.genDev = p.src) || r.second == some p.src)) with
    | some k =>
      (match s.req k with
       | none => s
       | some r =>
         let gen := decide (r.genDev = p.src)
         if st = stSuccess then
           let first := bits l 152 24
           let n := min 120 (bits l 128 24 - first)
           let f := fun (m : NMap Nat) => upto n m (fun i m => NMap.ins m (first + i) (leNat ((p.payload.drop (64 + 8 * i)).take 8)))
           (s.setReq k (if gen then { r with frames := f r.frames } else { r with frames2 := f r.frames2 })).pushKv k
         else if gen then
           (if st = stEpochStale then s.noteLost p.src (some k)
            else s.newGen k (r.tried ++ [p.src]) st (st == stNoSpace) (some p.src))
         else s.newSecond k true)
    | none =>
      match s.svFind q p (fun r => r.isOrigin && !r.isPrompt && !r.bound && decide (r.promptDev = p.src)) with
      | none => s
      | some k =>
        if st = stSuccess then s
        else if st = stEpochStale then s.noteLost p.src (some k)
        else
          -- the next prompt member in map order; after a whole pass the request ends, or waits for space
          (match s.req k with
           | none => s
           | some r =>
             let tried := r.tried ++ [p.src]
             if ((s.candidates q cmPrompt).filter (fun e => !tried.contains (cmDev e.2))).isEmpty then
               (if st = stNoSpace then s.setReq k { r.fresh .queued with tried := [] } else s.markEnd k st)
             else s.setReq k { r.fresh .queued with tried := tried })))

/-- What a KV_DONE does at the generation member: the reserved frames are held, full blocks indexed, KV_ACK sent (R262, R264). -/
def State.svKvDone (s : State) (q : Nat) (p : Packet) : State :=
  match s.svFind q p (fun r => !r.isPrompt && bit r.roles 0 && r.st == .handoff) with
  | none => s
  | some k =>
    match s.req k with
    | none => s
    | some r =>
      let h := k % 65536
      let s := upto r.held s (fun i t => let id := btBlock (t.btGet q h i); (t.setTrState q id 1).setTrRefs q id 1)
      let s := if s.indexOn q ∧ rqLen r.raw = r.prompt.length then (s.insertBlocks q h r.ns r.prompt (rqLen r.raw / 64) 0 (some noBlock) 0).1 else s
      let r1 := { r with st := .joinWait, ready := r.held, bound := true }
      let rest := setBits (setBits 0 128 24 r.held) 152 16 h
      let s := (s.setReq k r1).sendServe r1 p.src 5 0 r.epoch rest []
      if r.origin = p.src then s else s.sendServe r1 r.origin 5 0 r.epoch rest []

/-- Hold a message of a partition that is being quiesced (R457). -/
def State.svHold (s : State) (p : Packet) : State := { s with srv := { s.srv with held := s.srv.held ++ [p] } }

/-- R262: a KV_DONE at the generation member. -/
def execKvDone (p : Packet) (s : State) : Host.Outcome State Fault Refusal :=
  .next (serveIn 4 (fun _ _ => false) p s (fun s q => s.svKvDone q p))

/-- R262, R264: a KV_ACK at the prompt member, which drops its references, and at the origin, where the request is bound to the
generation member. A second copy on another package is given up there by a CANCEL (assumption 42). -/
def execKvAck (p : Packet) (s : State) : Host.Outcome State Fault Refusal :=
  .next (serveIn 5 (fun _ _ => false) p s (fun s q =>
    let h := bits (svLine p) 152 16
    match s.svFind q p (fun r => (r.isOrigin || r.isPrompt) && !r.bound && (decide (r.genDev = p.src) || (r.isOrigin && !r.isPrompt))) with
    | none => s
    | some k =>
      match s.req k with
      | none => s
      | some r =>
        let s := s.dropSecond r
        if !r.isOrigin then (s.setReq k { r with told := true }).leave k stCancelled none
        else
          let s := if r.isPrompt then s.dropBlocks k none else s
          s.modReq k (fun r => { r with st := .joinWait, bound := true, genDev := p.src, genHandle := h })))

/-- What a TOKEN does at the origin: its tokens are delivered; the end ends the request (R237, R262). -/
def State.svToken (s : State) (q : Nat) (p : Packet) : State :=
  let l := svLine p
  match s.svFind q p (fun r => r.isOrigin) with
  | none => s
  | some k =>
    let toks := (List.range (min 17 (bits l 128 5))).map (fun i => leNat ((p.payload.drop (64 + 4 * i)).take 4))
    let s := s.modReq k (fun r => { (if bit l 150 then r.flag 7 else r) with st := if r.batch.isNone && r.st == .joinWait then .decode else r.st })
    let s := s.deliver k toks
    if bit l 133 then s.reqEnd k (bits l 134 16) none else s

/-- R262: a TOKEN at the origin; one of a request bound by KV_ACK is accepted whatever its epoch (R263). -/
def execToken (p : Packet) (s : State) : Host.Outcome State Fault Refusal :=
  .next (serveIn 6 (fun t q => (t.svFind q p (fun r => r.bound)).isSome) p s (fun s q => if s.partState q ≠ 1 then s.svHold p else s.svToken q p))

/-- What a CANCEL does at a member: its part of the request ends, and the origin, which asked for it, is not told (R262). -/
def State.svCancel (s : State) (q : Nat) (p : Packet) : State :=
  match s.svFind q p (fun r => !r.isOrigin) with
  | none => s
  | some k => (s.modReq k (fun r => { r with told := true })).markEnd k stCancelled

/-- R262: a CANCEL at a member; one of a request bound by KV_ACK is accepted whatever its epoch (R263). -/
def execCancelMsg (p : Packet) (s : State) : Host.Outcome State Fault Refusal :=
  .next (serveIn 7 (fun t q => (t.svFind q p (fun r => r.bound)).isSome) p s (fun s q => if s.partState q ≠ 1 then s.svHold p else s.svCancel q p))

/-- RESUME of partition q: the messages held for it take effect in order (R457). -/
def State.svRelease (s : State) (q : Nat) : State :=
  let mine := fun (p : Packet) => s.domainPart p.domain == some q
  let l := s.srv.held.filter mine
  each l { s with srv := { s.srv with held := s.srv.held.filter (fun p => !mine p) } }
    (fun p t => if svKind p = 6 then t.svToken q p else t.svCancel q p)

/-! ### Inkwell commands from cores (R267) -/

def State.inkQueue (s : State) (n : Nat) : List EngCmd := NMap.get [] s.srv.ink n

/-- The oldest Inkwell command of tile n, if its opcode is accepted by `f`; the record of its end. -/
def inkTake (n : Nat) (f : Nat → Bool) (s : State) (body : State → EngCmd → State × Nat × Nat) : State :=
  match s.inkQueue n with
  | [] => s
  | c :: rest =>
    if !f (bits c.raw 0 8) then s
    else
      let s := { s with srv := { s.srv with ink := NMap.put [] s.srv.ink n rest } }
      let r := body s c
      r.1.engResult c (setBits (setBits (setBits 0 0 16 r.2.1) 32 32 (bits c.raw 32 32)) 64 32 r.2.2)

/-- Is tile n the index home of the command's partition? -/
def State.inkHome (s : State) (n : Nat) (c : EngCmd) : Bool := decide (s.rd (Reg.INK_INDEX_CFG.home c.part) = n)

/-- R252, R267: an IKC KV_READY: leading blocks of a sequence are complete; full prompt blocks are indexed; complete blocks of a handoff
go out. A command of a bad op ends here with INVALID_REQUEST. -/
def execKvReady (n : Nat) (s : State) : Host.Outcome State Fault Refusal :=
  .next (inkTake n (fun op => op != 2) s (fun s c =>
    let h := bits c.raw 32 32
    let v := bits c.raw 64 32
    let k := rqKey c.part h
    if bits c.raw 0 8 ≠ 1 ∨ s.inkHome n c = false then (s, stInvalid, 0)
    else if v = 0 then (s, stSuccess, 0)
    else
      match (if h < 65536 then s.req k else none) with
      | none => (s, stInvalid, 0)
      | some r =>
        if (r.st ≠ .prefill ∧ r.st ≠ .recompute) ∨ r.held < v then (s, stInvalid, 0)
        else
          let ready := max r.ready v
          let s := s.setReq k { r with ready := ready }
          let full := min ready (rqLen r.raw / 64)
          let x := if s.indexOn c.part then s.insertBlocks c.part h r.ns r.prompt (full - r.ready) r.ready (s.indexParent c.part h r.ready) 0 else (s, 0)
          (x.1.pushKv k, stSuccess, x.2)))

/-- R243, R267: an IKC STEP_DONE: the step of that number of the batch is complete. -/
def execStepDone (n : Nat) (s : State) : Host.Outcome State Fault Refusal :=
  .next (inkTake n (fun op => op == 2) s (fun s c =>
    let b := bits c.raw 32 32
    if s.inkHome n c = false ∨ 64 ≤ b ∨ s.on (Reg.SRV_BATCH_CFG.enable b) = false ∨ s.rd (Reg.SRV_BATCH_CFG.partition b) ≠ c.part then (s, stInvalid, 0)
    else if s.rd (Reg.SRV_BATCH_STAT.step b) = bits c.raw 64 32 then (s.setBatch b { s.batch b with stepDone := true }, stSuccess, 0)
    else (s, stSuccess, 0)))

end Sys2Proof.Machine
end

