-- ==== Sys2Proof/Machine/Flags.lean ====
section
/-! DEFINITION. The numeric flags of R130 as each operation raises them. -/

namespace Sys2Proof.Machine

/-- Flags of an operation on values `ins` with exact or rounded result value `out` (R130): a NaN operand, a NaN produced from
none, and what the rounding raised (saturate, inf_out). An infinity counts as inf_out only from finite inputs. -/
def opFlags (ins : List Val) (out : Val) (rounding : Nat) : Nat :=
  let nin := ins.any Val.isNan
  let inf := out.isInf && !nin && ins.all (fun v => !v.isInf)
  Nat.lor (if nin then flagNanIn else 0)
    (Nat.lor (if out.isNan && !nin then flagInvalid else 0)
      (Nat.lor (if inf then flagInfOut else 0)
        (if ins.all (fun v => !v.isInf && !v.isNan) then rounding else Nat.land rounding flagSat)))

/-- Flags of one Nib or Hairline sum: a NaN operand or NaN scale was read, the sum is NaN from none, or it was clamped. -/
def sumFlags (nanIn : Bool) (out : Val) (rounding : Nat) : Nat :=
  Nat.lor (if nanIn then flagNanIn else 0) (Nat.lor (if out.isNan && !nanIn then flagInvalid else 0) rounding)

/-- Flags of a comparison or a minimum: only a NaN operand shows. -/
def nanFlags (ins : List Val) : Nat := if ins.any Val.isNan then flagNanIn else 0

end Sys2Proof.Machine
end

