-- ==== Sys2Proof/Machine/Operands.lean ====
section
/-! DEFINITION. How a core instruction issues (R159 to R166, R172, R198): which bank, slot and guard it has, the registers it
names, and what one instruction does to its bundle. -/

namespace Sys2Proof.Machine

/-! ### Registers of a bank (R165) -/

def Bank.sR (b : Bank) (n : Nat) : Nat := if n = 0 then 0 else NMap.get 0 b.s n % 2 ^ 64
def Bank.aR (b : Bank) (n : Nat) : Nat := NMap.get 0 b.a n % 2 ^ 64
def Bank.vR (b : Bank) (n : Nat) : Nat := NMap.get 0 b.v n % 2 ^ 8192
def Bank.pR (b : Bank) (n : Nat) : Nat := if n = 0 then 2 ^ 512 - 1 else NMap.get 0 b.p n % 2 ^ 512

/-- Bits [lo+w−1:lo] of an instruction word. -/
def wf (w : Word) (lo n : Nat) : Nat := bits w.toNat lo n
/-- The opcode (R172). -/
def wOp (w : Word) : Nat := wf w 56 7
/-- The variance mark. -/
def wVar (w : Word) : Bool := bit w.toNat 63

/-! Format S (R173). -/
def wPg (w : Word) : Nat := wf w 53 3
def wRd (w : Word) : Nat := wf w 48 5
def wRs1 (w : Word) : Nat := wf w 43 5
def wRs2 (w : Word) : Nat := wf w 38 5
def wImmSel (w : Word) : Bool := bit w.toNat 37
def wCond (w : Word) : Nat := wf w 34 3
/-- The signed immediate as a 64-bit pattern. -/
def wImm (w : Word) : Nat := ofInt (sInt (wf w 0 32) 32) 64

/-- op2 of R174. -/
def Bank.op2 (b : Bank) (w : Word) : Nat := if wImmSel w then wImm w else b.sR (wRs2 w)

/-- Bits 55 to 0 outside `mask` are zero: reserved and unused operand fields (R198). -/
def onlyBits (w : Word) (mask : Nat) : Bool := Nat.land (w.toNat % 2 ^ 56) (2 ^ 56 - 1 - mask) == 0

/-- The slot an opcode may occupy (R160); NOP fits any. -/
def slotFits (op slot : Nat) : Bool :=
  if op = 0 then decide (slot < 4)
  else if op < 0x40 then slot == 0
  else if op < 0x50 then slot == 1
  else if op < 0x68 then slot == 2
  else slot == 3

/-- What one instruction does when it starts: a new state with its register writes and flags, a fault (code, Nib, address), or
nothing yet because something it needs is not there. -/
inductive CRes where
  | ok (s : State) (writes : List (CReg × Nat)) (flags : Nat)
  | fault (code nib arg : Nat)
  /-- A fault that leaves effects of its own: the rows, lines or columns that completed before it (R118). -/
  | trap (s : State) (code nib arg : Nat)
  /-- A matrix instruction is suspended at a unit boundary (R110): the units it has done, the running sums of an HMV's column, flags. -/
  | cut (s : State) (units : Nat) (sums : List Nat) (flags : Nat)
  | wait

/-- Is the register the destination of a remote load or atomic still on its way, or of a queued instruction (R161, R162, R192)? -/
def State.regPending (s : State) (k : Nat) (r : CReg) : Bool :=
  decide (r ≠ .s 0) && (s.fab.out.any (fun o => decide (o.bank = some k) &&
    (decide (o.reg = some r) || (match r with | .p n => decide (o.pd = n) && decide (n ≠ 0) | _ => false))) ||
    (match s.bank k with | some b => b.queue.any (fun q => q.dests.contains r) | none => false))

/-- A register from its lanes of w bits. -/
def fromLanes (w : Nat) : List Nat → Nat
  | [] => 0
  | x :: r => x % 2 ^ w + 2 ^ w * fromLanes w r

/-- The byte mask of a predicate: bit i governs bytes 2i and 2i + 1 (R166), as a mask over 8,192 bits. -/
def granMask (p : Nat) : Nat := fromLanes 16 ((List.range 512).map (fun i => if bit p i then 65535 else 0))

/-! ### Accumulators and core store: keys, ownership, checks (R86, R102, R104, R107, R108) -/

/-- Nibs of a core: 4 on a P-core, 2 on a G-core (R86). -/
def nibsOf (n : Nat) : Nat := if n < 4 then 4 else 2

/-- Key of byte o of accumulator tile `t` of Nib `nib` of a core; and of the tile in the sets of poisoned tiles. -/
def accKey (core nib t o : Nat) : Nat := ((core * 4 + nib) * 8 + t) * 65536 + o
def accTile (core nib t : Nat) : Nat := (core * 4 + nib) * 8 + t

/-- Is row r of an accumulator tile poisoned? -/
def State.rowBad (s : State) (tile r : Nat) : Bool := NMap.get false s.core.accRows (tile * 128 + r)
/-- Is any row of it? -/
def State.tileBad (s : State) (tile : Nat) : Bool := s.core.accRows.any (fun e => decide (e.1 / 128 = tile) && e.2)

/-- Is accumulator index t of core c of tile n owned by p (R107)? -/
def State.accOwned (s : State) (n c t p : Nat) : Bool :=
  s.on (Reg.TILE_ACC_OWN.valid n c t) && decide (s.rd (Reg.TILE_ACC_OWN.partition n c t) = p)

/-- Is an accumulator index or granule of a core still being zeroed (R108)? -/
def State.accZeroing (s : State) (core t : Nat) : Bool := s.core.zeroing.contains (0, core * 8 + t)
def State.granZeroing (s : State) (core g : Nat) : Bool := s.core.zeroing.contains (1, core * 64 + g)

/-- Bytes of core store of a core (R86). -/
def storeSize (n : Nat) : Nat := if n < 4 then 0x400000 else 0x200000

/-- Does core-store range [a, a + l) of core c of tile n belong to p, granule by granule (R107)? -/
def State.granOwned (s : State) (n c p a l : Nat) : Bool :=
  l == 0 || (List.range ((a + l - 1) / 65536 - a / 65536 + 1)).all (fun i =>
    let g := a / 65536 + i
    s.on (Reg.TILE_STORE_OWN.valid n c (g / 8) (g % 8)) && decide (s.rd (Reg.TILE_STORE_OWN.partition n c (g / 8) (g % 8)) = p))

/-- Is a granule of the range being zeroed? -/
def State.rangeZeroing (s : State) (core a l : Nat) : Bool :=
  l != 0 && (List.range ((a + l - 1) / 65536 - a / 65536 + 1)).any (fun i => s.granZeroing core (a / 65536 + i))

/-- The fault of an access to core-store ranges (address, length) by p, 0 where there is none: STORE_RANGE before
OWNER_VIOLATION, before STORE_PARITY on a read. -/
def State.storeCheck (s : State) (n c p : Nat) (read : Bool) (l : List (Nat × Nat)) : Nat :=
  if l.any (fun r => decide (storeSize n < r.1 + r.2)) then 0x3013
  else if l.any (fun r => !s.granOwned n c p r.1 r.2) then 0x3015
  else if read && l.any (fun r => s.csBad (16 * n + c) r.1 r.2) then 0x301E
  else 0

/-- Must an access to these ranges wait for zeroing (R108)? -/
def State.storeWait (s : State) (core : Nat) (l : List (Nat × Nat)) : Bool := l.any (fun r => s.rangeZeroing core r.1 r.2)

/-- The first fault of a list of (code where violated). -/
def firstFault : List (Bool × Nat) → Option Nat
  | [] => none
  | (v, c) :: r => if v then some c else firstFault r

/-- Registers whose double write in one bundle is an illegal operation: hard-wired ones discard theirs. -/
def CReg.real : CReg → Bool
  | .s 0 => false
  | .p 0 => false
  | _ => true

/-! ### Queues and instruction fetch (R162, R164, R225) -/

/-- Do two lists of core-store ranges share a 64-byte line? -/
def linesMeet (l m : List (Nat × Nat)) : Bool :=
  l.any (fun r => m.any (fun t => r.2 != 0 && t.2 != 0 && decide (r.1 / 64 ≤ (t.1 + t.2 - 1) / 64) && decide (t.1 / 64 ≤ (r.1 + r.2 - 1) / 64)))

/-- May an instruction of slot `slot` that touches `lines` start behind the queued ones `q`: none of its own queue, none of the other that
touches a line of it? -/
def queueFree (q : List QOp) (slot : Nat) (lines : List (Nat × Nat)) : Bool :=
  q.all (fun e => decide (e.slot ≠ slot) && !linesMeet e.lines lines)

/-- Entries of the matrix queue and of the memory queue. -/
def queueCap (slot : Nat) : Nat := if slot = 1 then 8 else 16

/-- Is the queue of a slot full? -/
def Bank.full (b : Bank) (slot : Nat) : Bool := decide (queueCap slot ≤ (b.queue.filter (fun e => decide (e.slot = slot))).length)

def State.enqueue (s : State) (k : Nat) (q : QOp) : State := s.modBank k (fun b => { b with queue := b.queue ++ [q] })

/-- The bundle at the PC of bank k is fetched through the quarter of its core's instruction cache that is the bank's (R164): 16 lines of
1 KiB, the least recently used replaced. -/
def State.fetchBundle (s : State) (k : Nat) (b : Bank) : State :=
  let e := (b.part, (s.progBase b.part + b.pc) / 1024)
  let q := NMap.get [] s.core.icache k
  if b.issued ≠ 0 ∨ q.head? = some e then s
  else
    let t : State := { s with core := { s.core with icache := NMap.put [] s.core.icache k ((e :: q.filter (fun x => decide (x ≠ e))).take 16) } }
    if q.contains e then t else t.tsAccess (e.2 * 1024) 1024 false true

/-- Parity upsets met while an instruction executes (R102, R223). -/
def State.upset (s : State) (x : Issue) : State :=
  let core := 16 * x.tile + x.core
  each x.upsets s (fun u t =>
    if u % 2 = 0 then { t with core := { t.core with storeBad := NMap.put false t.core.storeBad (storeKey core (u / 2)) true } }
    else if u / 2 < 16 then { t with core := { t.core with wbufBad := NMap.put false t.core.wbufBad (core * 8 + u / 2 % 8) true } }
    else if u / 2 = 48 then { t with core := { t.core with vbufBad := NMap.put false t.core.vbufBad core true } }
    else
      let j := u / 2 - 16
      let rows := upto 128 t.core.accRows (fun i m => NMap.put false m (((core * 4 + j / 8 % 4) * 8 + j % 8) * 128 + i) true)
      { t with core := { t.core with accRows := rows } })

/-- The last slot of a bundle has issued: results are written, the PC moves (R161), an EXIT of the
bundle may now complete; a JMPR with a bad target faults now, its
bundle done (R174). -/
def State.endBundle (s : State) (k : Nat) : State :=
  match s.bank k with
  | none => s
  | some b => if b.badJump then s.coreFault k 0x3011 0 (match b.branch with | some t => t | none => 0) else (s.setBank k (b.commit s.time.cnt)).settle k

/-- The instruction's writes join its bundle, and the registers it will write later; a register written twice in one bundle is an
illegal operation (R161). -/
def State.joinBundle (s : State) (x : Issue) (k : Nat) (wr : List (CReg × Nat)) (dests : List CReg) (fl : Nat) : State :=
  match s.bank k with
  | none => s
  | some b =>
    let old := b.writes.map (fun q => q.1) ++ b.dests
    if (wr.map (fun p => p.1) ++ dests).any (fun r => r.real && old.contains r) then s.coreFault k 0x3010 0 0
    else
      let s := s.setBank k { b with issued := Nat.lor b.issued (2 ^ x.slot), writes := b.writes ++ wr, dests := b.dests ++ dests, flags := Nat.lor b.flags fl }
      if x.last then s.endBundle k else s

/-- The instruction of slot x that bank b holds for a queue: its operands are captured (R162). -/
def queueEntry (x : Issue) (w : Word) (b : Bank) (dests : List CReg) (lines : List (Nat × Nat)) (units : Nat) (sums : List Nat) : QOp :=
  ⟨x.slot, w, b.pc, b.s, b.a, b.v, b.p, dests, lines, units, sums⟩

/-- The unit at which the issue-stop cycle of its Stroke suspends a matrix instruction that x issues (R110). -/
def State.cutOf (s : State) (x : Issue) (b : Bank) : Option Nat := if (b.slot.bind (s.slotAt x.tile)).isSome then x.cut else none

/-- The cycle at which it is suspended: the issue-stop cycle of its Stroke. -/
def State.toStop (s : State) (x : Issue) (b : Bank) : State :=
  match b.slot.bind (s.slotAt x.tile) with
  | some sl => s.advance (sl.stop x.tile)
  | none => s

/-- Does an instruction that x issues do nothing on bank b: the bank runs no Stroke or is past its issue-stop cycle (R63), it holds its
later bundles (R558), that slot has issued, the word is not of this opcode, a register is still on its way (R161)? -/
def State.issueHeld (s : State) (x : Issue) (w : Word) (op : Nat) (uses : List CReg) (b : Bank) : Bool :=
  !b.live || b.slot.isNone || !s.issueOpen x.tile b.slot || decide (wOp w ≠ op) || (decide (b.hold ≠ .free) && b.issued == 0) ||
    bit b.issued x.slot || decide (4 ≤ x.slot) || decide (4 ≤ x.bank) || decide (8 ≤ x.tile) || decide (16 ≤ x.core) ||
    uses.any (fun r => !b.dests.contains r && s.regPending (bankKey x.tile x.core x.bank) r)

/-- Issue one instruction with opcode `op` on the bank that `x` names. `uses`: the registers it names. `legal`: its reserved and unused
fields are zero and its variance mark is allowed (R198). `pred`: it has a guard whose bit 0 decides (R166). `dests`: the registers it
writes, where it does so after it issued. `lines`: the core-store ranges it touches. An instruction of slot 1 or 3 that cannot start
enters its queue; where the queue is full its bundle waits (R162). -/
def coreIssue (x : Issue) (w : Word) (op : Nat) (pred legal : Bool) (uses : List CReg) (s : State)
    (body : State → Nat → Bank → CRes) (dests : List CReg := []) (lines : State → Bank → List (Nat × Nat) := fun _ _ => []) :
    Host.Outcome State Fault Refusal :=
  let k := bankKey x.tile x.core x.bank
  match s.bank k with
  | none => .next s
  | some b =>
    let t := (s.fetchBundle k b).upset x
    let queued := x.slot % 2 == 1 && op != 0
    if s.issueHeld x w op uses b then .next s
    else if b.issued = 0 ∧ (s.progSize b.part < b.pc + 32 ∨ b.pc % 32 ≠ 0) then .next (s.coreFault k 0x3011 0 (s.progBase b.part + b.pc))
    else if !slotFits op x.slot || !legal then .next (t.coreFault k 0x3010 0 0)
    else if pred && !bit (b.pR (wPg w)) 0 then .next (t.joinBundle x k [] [] 0)
    else
      match (if queued && !queueFree b.queue x.slot (lines t b) then .wait else body t k b) with
      | .ok u wr fl => .next (u.joinBundle x k wr (dests.filter (fun r => !(wr.map (fun p => p.1)).contains r)) fl)
      | .fault c n a => .next (t.coreFault k c n a)
      | .trap u c n a => .next (u.coreFault k c n a)
      | .cut u n sums fl => .next (((u.toStop x b).enqueue k (queueEntry x w b dests (lines t b) n sums)).joinBundle x k [] dests fl)
      | .wait => if queued && !b.full x.slot then .next ((t.enqueue k (queueEntry x w b dests (lines t b) 0 [])).joinBundle x k [] dests 0) else .next s

end Sys2Proof.Machine
end

