-- ==== Sys2Proof/Machine/Vector.lean ====
section
/-! DEFINITION. Slot 2 instructions (R182 to R187, R150 to R152): vectors, conversions, reductions, random numbers, accumulator
rows. -/

namespace Sys2Proof.Machine

/-! ### Format V (R182) -/

def vVd (w : Word) : Nat := wf w 47 6
def vVa (w : Word) : Nat := wf w 41 6
def vVb (w : Word) : Nat := wf w 35 6
def vVc (w : Word) : Nat := wf w 29 6
def vFmt (w : Word) : Nat := wf w 25 4
def vRmode (w : Word) : Nat := wf w 23 2
def vRcode (w : Word) : Nat := wf w 21 2
def vKey (w : Word) : Nat := wf w 16 5
def vSidx (w : Word) : Nat := wf w 11 5
def vPos (w : Word) : Nat := wf w 6 5
def vSub (w : Word) : Nat := wf w 0 6

def mVd : Nat := msk 47 6
def mVa : Nat := msk 41 6
def mVb : Nat := msk 35 6
def mVc : Nat := msk 29 6
def mFmt : Nat := msk 25 4
def mRnd : Nat := msk 16 9
def mKey : Nat := msk 16 5
def mSidx : Nat := msk 11 5
def mPos : Nat := msk 6 5
def mSub : Nat := msk 0 6
def mPg : Nat := msk 53 3

/-- Random bits per draw of an r_code (R177). -/
def rOf (code : Nat) : Nat := match code with | 0 => 1 | 1 => 4 | 2 => 8 | _ => 12

/-! ### Lanes -/

/-- Lane width in bits of a format in a vector register (R165, R183): TF32 in a 32-bit container, MXFP6 in a byte (R89). -/
def laneW (code : Nat) : Nat :=
  match code with
  | 0x8 => 16
  | 0x9 => 16
  | 0xA => 32
  | 0xB => 32
  | 0xC => 32
  | 0xD => 32
  | 0x6 => 4
  | _ => 8

/-- Lane i of a register whose lanes are w bits. -/
def lane (v w i : Nat) : Nat := bits v (w * i) w

/-- Enabled granules take the new value, the others keep the old (R182). -/
def blend (p old new : Nat) : Nat :=
  let m := granMask p
  Nat.lor (Nat.land new m) (Nat.xor old (Nat.land old m))

/-- Lane arithmetic results: values and the flags they raise. -/
def mapLanes (w n : Nat) (f : Nat → Nat × Nat) : Nat × Nat :=
  let r := (List.range n).map f
  (fromLanes w (r.map (fun e => e.1)), r.foldl (fun a e => Nat.lor a e.2) 0)

/-- Only enabled lanes raise flags: bit 0 of the lane's first granule. -/
def laneOn (p w i : Nat) : Bool := bit p (w * i / 16)

/-- Issue a vector instruction writing vd under its guard. `mask`: the fields in use; `fmts`: the formats allowed (R183). -/
def vecIssue (op : Nat) (x : Issue) (w : Word) (mask : Nat) (okFmt okSub : Bool) (uses : List CReg) (s : State)
    (f : State → Bank → Nat × Nat) (free : Nat) : Host.Outcome State Fault Refusal :=
  coreIssue x w op false (!wVar w && onlyBits w (mPg + mask) && okSub) ([.p (wPg w), .v (vVd w)] ++ uses) s
    (fun t _ b =>
      if okFmt then
        let r := f t b
        .ok (t.took free) [(.v (vVd w), blend (b.pR (wPg w)) (b.vR (vVd w)) r.1)] r.2
      else .fault 0x3018 0 0)

/-- A floating-point lane result rounded once (R132), with its flags. -/
def roundLane (f : Fmt) (ins : List Val) (v : Val) : Nat × Nat :=
  let r := f.encode .rne .inf v
  (r.1, opFlags ins (f.decode r.1) r.2)

/-- A TF32 operand: the FP32 value rounded to 10 mantissa bits as it is read (R129). -/
def tf32In (x : Nat) : Val := tf32.decode ((tf32.encode .rne .inf (f32 x)).1)

/-- Saturate a part to 16 bits. -/
def sat16 (i : Int) : Nat × Nat := let c := clampInt i 16; (ofInt c.1 16, if c.2 then flagSat else 0)

/-- A lanewise operation of two sources in a format: the float part takes values, the integer part takes signed lanes, the
complex part takes (re, im) pairs. -/
def laneOp (fmt : Nat) (fl : Val → Val → Val) (int : Int → Int → Int) (cx : Int × Int → Int × Int → Int × Int) (p a b : Nat) : Nat × Nat :=
  let on := fun (wd i : Nat) (r : Nat × Nat) => if laneOn p wd i then r else (r.1, 0)
  match fmt with
  | 0x8 => mapLanes 16 512 (fun i => let u := bf16.decode (lane a 16 i); let v := bf16.decode (lane b 16 i); on 16 i (roundLane bf16 [u, v] (fl u v)))
  | 0x9 => mapLanes 16 512 (fun i => let u := fp16.decode (lane a 16 i); let v := fp16.decode (lane b 16 i); on 16 i (roundLane fp16 [u, v] (fl u v)))
  | 0xA => mapLanes 32 256 (fun i => let u := f32 (lane a 32 i); let v := f32 (lane b 32 i); on 32 i (roundLane fp32 [u, v] (fl u v)))
  | 0xB => mapLanes 32 256 (fun i => let u := tf32In (lane a 32 i); let v := tf32In (lane b 32 i); on 32 i (roundLane fp32 [u, v] (fl u v)))
  | 0xC => mapLanes 32 256 (fun i => (ofInt (int (sInt (lane a 32 i) 32) (sInt (lane b 32 i) 32)) 32, 0))
  | _ => mapLanes 32 256 (fun i =>
      let r := cx (sInt (lane a 16 (2 * i)) 16, sInt (lane a 16 (2 * i + 1)) 16) (sInt (lane b 16 (2 * i)) 16, sInt (lane b 16 (2 * i + 1)) 16)
      let re := sat16 r.1
      let im := sat16 r.2
      on 32 i (re.1 + 65536 * im.1, Nat.lor re.2 im.2))

/-- Formats of VADD, VSUB and VMUL (R183). -/
def arithFmt (c : Nat) : Bool := c == 0x8 || c == 0x9 || c == 0xA || c == 0xB || c == 0xC || c == 0xD

def vec2 (op : Nat) (ok : Bool) (fl : Val → Val → Val) (int : Int → Int → Int) (cx : Int × Int → Int × Int → Int × Int)
    (x : Issue) (w : Word) (s : State) : Host.Outcome State Fault Refusal :=
  vecIssue op x w (mVd + mVa + mVb + mFmt) ok true [.v (vVa w), .v (vVb w)] s
    (fun _ b => laneOp (vFmt w) fl int cx (b.pR (wPg w)) (b.vR (vVa w)) (b.vR (vVb w))) 0

/-- Lanewise add; complex parts saturate. -/
def execVadd (x : Issue) (w : Word) (s : State) : Host.Outcome State Fault Refusal :=
  vec2 0x50 (arithFmt (vFmt w)) Val.add (fun a b => a + b) (fun a b => (a.1 + b.1, a.2 + b.2)) x w s

/-- Lanewise subtract. -/
def execVsub (x : Issue) (w : Word) (s : State) : Host.Outcome State Fault Refusal :=
  vec2 0x51 (arithFmt (vFmt w)) (fun a b => a.add b.neg) (fun a b => a - b) (fun a b => (a.1 - b.1, a.2 - b.2)) x w s

/-- Lanewise multiply; a complex product is exact, shifted right by 15 bits with RNE, and saturated. -/
def execVmul (x : Issue) (w : Word) (s : State) : Host.Outcome State Fault Refusal :=
  vec2 0x52 (arithFmt (vFmt w)) Val.mul (fun a b => a * b)
    (fun a b => (rshiftRne (a.1 * b.1 - a.2 * b.2) 15, rshiftRne (a.1 * b.2 + a.2 * b.1) 15)) x w s

/-- vd = va × vb + vc with one rounding. -/
def execVfma (x : Issue) (w : Word) (s : State) : Host.Outcome State Fault Refusal :=
  vecIssue 0x53 x w (mVd + mVa + mVb + mVc + mFmt) (vFmt w == 0x8 || vFmt w == 0x9 || vFmt w == 0xA) true
    [.v (vVa w), .v (vVb w), .v (vVc w)] s
    (fun _ b =>
      let f := match vFmt w with | 0x8 => bf16 | 0x9 => fp16 | _ => fp32
      mapLanes f.width (8192 / f.width) (fun i =>
        let u := f.decode (lane (b.vR (vVa w)) f.width i)
        let v := f.decode (lane (b.vR (vVb w)) f.width i)
        let c := f.decode (lane (b.vR (vVc w)) f.width i)
        let r := roundLane f [u, v, c] ((u.mul v).add c)
        if laneOn (b.pR (wPg w)) f.width i then r else (r.1, 0))) 0

/-- IEEE 754-2019 minimum: NaN propagates, −0 is below +0. -/
def valMin (a b : Val) : Val :=
  if a.isNan || b.isNan then .nan
  else if a.cmp b < 0 then a else if 0 < a.cmp b then b else if a.signBit then a else b

/-- IEEE 754-2019 maximum. -/
def valMax (a b : Val) : Val :=
  if a.isNan || b.isNan then .nan
  else if a.cmp b < 0 then b else if 0 < a.cmp b then a else if a.signBit then b else a

def minFmt (c : Nat) : Bool := c == 0x8 || c == 0x9 || c == 0xA || c == 0xC

def execVmin (x : Issue) (w : Word) (s : State) : Host.Outcome State Fault Refusal :=
  vec2 0x54 (minFmt (vFmt w)) valMin (fun a b => min a b) (fun a _ => a) x w s

def execVmax (x : Issue) (w : Word) (s : State) : Host.Outcome State Fault Refusal :=
  vec2 0x55 (minFmt (vFmt w)) valMax (fun a b => max a b) (fun a _ => a) x w s

/-- Correctly rounded division. -/
def execVdiv (x : Issue) (w : Word) (s : State) : Host.Outcome State Fault Refusal :=
  vec2 0x56 (vFmt w == 0xA) Val.div (fun a _ => a) (fun a _ => a) x w s

/-- A lanewise FP32 operation of one source. -/
def vec1 (op mask : Nat) (okSub : Bool) (f : Nat → Nat × Nat) (x : Issue) (w : Word) (s : State) : Host.Outcome State Fault Refusal :=
  vecIssue op x w (mVd + mVa + mFmt + mask) (vFmt w == 0xA) okSub [.v (vVa w)] s
    (fun _ b => mapLanes 32 256 (fun i =>
      let r := f (lane (b.vR (vVa w)) 32 i)
      if laneOn (b.pR (wPg w)) 32 i then r else (r.1, 0))) 0

/-- Correctly rounded square root. -/
def execVsqrt (x : Issue) (w : Word) (s : State) : Host.Outcome State Fault Refusal :=
  vec1 0x57 0 true (fun a => roundLane fp32 [f32 a] (f32 a).sqrt) x w s

/-- Transcendental functions (R132): a fixed function of the input with an error of at most 1 ulp. A NaN input gives the canonical
NaN. -/
def vfnLane (sub a : Nat) : Nat × Nat :=
  if (f32 a).isNan then (fp32.nanBits, flagNanIn)
  else
    let r := vfnVal sub a
    let v := f32 r
    (if v.isNan then fp32.nanBits else r, opFlags [f32 a] v 0)

def execVfn (x : Issue) (w : Word) (s : State) : Host.Outcome State Fault Refusal :=
  vec1 0x58 mSub (decide (vSub w < 8)) (vfnLane (vSub w)) x w s

/-! ### Conversions (R122 to R128, R185) -/

/-- The value of lane i of a source in a format, its block scale from the scale bytes `sc` (R122). -/
def srcVal (fmt v sc i : Nat) : Val :=
  match fmt with
  | 0x7 => Val.ofInt (lane v 8 i) 8
  | 0xC => Val.ofInt (lane v 32 i) 32
  | 0xB => tf32In (lane v 32 i)
  | _ =>
    match fmtOf fmt with
    | none => .nan
    | some f =>
      let u := f.decode (bits v (laneW fmt * i) f.width)
      if 2 ≤ fmt ∧ fmt ≤ 6 then
        (let e := bits sc (8 * (i / 32)) 8
         if e = 255 then .nan else u.scale ((e : Int) - 127))
      else u

/-- A block of values quantised to an MX format (R123): the scale byte, the elements and flags. -/
def mxBlock (fmt : Nat) (l : List (Val × RMode)) : Nat × List (Nat × Nat) :=
  let f := match fmtOf fmt with | some f => f | none => fp32
  let emax : Int := match fmt with | 0x2 => 8 | 0x3 => 15 | 0x5 => 4 | _ => 2
  if l.any (fun e => e.1.isNan || e.1.isInf) then
    (255, l.map (fun e => (0, Nat.lor (nanFlags [e.1]) (if l.any (fun e => e.1.isNan) then 0 else flagInvalid))))
  else if l.all (fun e => e.1.isZero) then (0, l.map (fun _ => (0, 0)))
  else
    let top := l.foldl (fun a e => if e.1.isZero then a else max a e.1.log2) (-100000)
    let x := max (-127) (min 127 (top - emax))
    ((x + 127).toNat, l.map (fun e => f.encode e.2 .sat (e.1.scale (-x))))

/-- The rounding mode of lane i of a VCVT: stochastic rounding draws from the stream at element e0 + i (R185). -/
def cvtMode (b : Bank) (w : Word) (i : Nat) : RMode :=
  match vRmode w with
  | 0 => .rne
  | 1 => .rtz
  | _ =>
    let r := rOf (vRcode w)
    .sr r (srBits (b.sR (vKey w)) (b.sR (vKey w + 1)) (b.sR (vSidx w)) r (b.sR (vPos w) + i))

/-- Number of lanes a VCVT converts: those that both the source and the destination register hold. -/
def cvtLanes (src dst : Nat) : Nat := 8192 / max (laneW src) (laneW dst)

/-- One converted lane in a format without block scales: pattern and flags. -/
def cvtLane (dst : Nat) (md : RMode) (v : Val) : Nat × Nat :=
  let fl := fun (r : Nat × Nat) => (r.1, Nat.lor (Nat.lor (nanFlags [v]) (if dst == 0 && v.isInf then flagInvalid else 0)) r.2)
  match dst with
  | 0x7 => fl (v.toInt md 8)
  | 0xC => fl (v.toInt md 32)
  | 0xB => (let r := tf32.encode md .inf v; fl (r.1 * 8192, r.2))
  | _ =>
    match fmtOf dst with
    | none => (0, 0)
    | some f => fl (f.encode md (if dst ≤ 1 then .sat else .inf) v)

/-- VCVT: vd, and for an MX destination the scales in the partner register's first bytes. A complex source or destination has
no stated result: a free value. Bytes of vd beyond the converted lanes are free as well. -/
def execVcvt (x : Issue) (w : Word) (s : State) : Host.Outcome State Fault Refusal :=
  let src := wf w 0 4
  let dst := vFmt w
  let partner := (vVd w + 1) % 64
  let srcPartner := (vVa w + 1) % 64
  let sr := vRmode w == 2
  let isMx := fun (c : Nat) => decide (2 ≤ c) && decide (c ≤ 6)
  coreIssue x w 0x59 false
    (!wVar w && onlyBits w (mPg + mVd + mVa + mFmt + msk 23 2 + msk 0 4 + (if sr then msk 21 2 + mKey + mSidx + mPos else 0)) &&
      decide (vRmode w < 3) && (!sr || vKey w % 2 == 0))
    ([.p (wPg w), .v (vVd w), .v (vVa w)] ++ (if isMx dst then [.v partner] else []) ++ (if isMx src then [.v srcPartner] else []) ++
      (if sr then [.s (vKey w), .s (vKey w + 1), .s (vSidx w), .s (vPos w)] else [])) s
    (fun t _ b =>
      if decide (14 ≤ src) || decide (14 ≤ dst) then .fault 0x3018 0 0
      else
        let n := cvtLanes src dst
        let old := b.vR (vVd w)
        let fill := Config.freeNat t.free % 2 ^ 8192
        let rest := fun (v : Nat) => setBits fill 0 (n * laneW dst) v
        if src = 0xD ∨ dst = 0xD then .ok (t.took 1) [(.v (vVd w), blend (b.pR (wPg w)) old fill)] 0
        else
          let vals := (List.range n).map (fun i => (srcVal src (b.vR (vVa w)) (b.vR srcPartner) i, cvtMode b w i))
          if isMx dst then
            let blocks := (List.range (n / 32)).map (fun j => mxBlock dst ((vals.drop (32 * j)).take 32))
            let els := blocks.flatMap (fun e => e.2)
            let v := fromLanes (laneW dst) (els.map (fun e => e.1))
            let sc := fromLanes 8 (blocks.map (fun e => e.1))
            .ok (t.took 1) [(.v (vVd w), blend (b.pR (wPg w)) old (rest v)),
                (.v partner, setBits (b.vR partner) 0 (8 * (n / 32)) sc)]
              (Nat.lor (if vals.any (fun e => e.1.isNan) then flagNanIn else 0) (els.foldl (fun a e => Nat.lor a e.2) 0))
          else
            let r := vals.map (fun e => cvtLane dst e.2 e.1)
            let fl := ((List.range n).zip r).foldl (fun a e => if laneOn (b.pR (wPg w)) (laneW dst) e.1 then Nat.lor a e.2.2 else a) 0
            .ok (t.took 1) [(.v (vVd w), blend (b.pR (wPg w)) old (rest (fromLanes (laneW dst) (r.map (fun e => e.1)))))] fl)

/-! ### Compare, select, reduce, broadcast, logic -/

/-- The comparison of a VCMP sub on two values; a NaN compares false except for NE and UNORD. -/
def vcmpHolds (sub : Nat) (a b : Val) : Bool :=
  let un := a.isNan || b.isNan
  let c := a.cmp b
  match sub with
  | 0 => !un && decide (c = 0)
  | 1 => un || decide (c ≠ 0)
  | 2 => !un && decide (c < 0)
  | 3 => !un && decide (c ≤ 0)
  | 4 => !un && decide (0 < c)
  | 5 => !un && decide (0 ≤ c)
  | _ => un

/-- VCMP into predicate p[vd[2:0]]: every bit of a lane's granules; disabled granules keep theirs. -/
def execVcmp (x : Issue) (w : Word) (s : State) : Host.Outcome State Fault Refusal :=
  let pd := vVd w % 8
  coreIssue x w 0x5A false (!wVar w && onlyBits w (mPg + msk 47 3 + mVa + mVb + mFmt + mSub) && decide (vSub w < 7))
    [.p (wPg w), .p pd, .v (vVa w), .v (vVb w)] s
    (fun t _ b =>
      if minFmt (vFmt w) then
        let lw := laneW (vFmt w)
        let n := 8192 / lw
        let r := (List.range n).map (fun i =>
          let u := srcVal (vFmt w) (b.vR (vVa w)) 0 i
          let v := srcVal (vFmt w) (b.vR (vVb w)) 0 i
          (if vcmpHolds (vSub w) u v then 2 ^ (lw / 16) - 1 else 0, if laneOn (b.pR (wPg w)) lw i then nanFlags [u, v] else 0))
        let new := fromLanes (lw / 16) (r.map (fun e => e.1))
        let g := b.pR (wPg w)
        .ok t [(.p pd, Nat.lor (Nat.land new g) (Nat.xor (b.pR pd) (Nat.land (b.pR pd) g)))] (r.foldl (fun a e => Nat.lor a e.2) 0)
      else .fault 0x3018 0 0)

/-- VSEL: per granule va where p[vc] is set, else vb. -/
def execVsel (x : Issue) (w : Word) (s : State) : Host.Outcome State Fault Refusal :=
  vecIssue 0x5B x w (mVd + mVa + mVb + msk 29 3 + mFmt) (decide (vFmt w ≠ 15)) true [.v (vVa w), .v (vVb w), .p (vVc w % 8)] s
    (fun _ b => (blend (b.pR (vVc w % 8)) (b.vR (vVb w)) (b.vR (vVa w)), 0)) 0

/-- VRED: sum by the canonical tree, minimum or maximum over the lanes; a disabled lane adds +0 and is ignored by min and max
(R184); lane 0 gets the result, the others zero, where their granules are enabled. With no lane enabled a minimum or maximum has no stated value: free. -/
def execVred (x : Issue) (w : Word) (s : State) : Host.Outcome State Fault Refusal :=
  coreIssue x w 0x5C false (!wVar w && onlyBits w (mPg + mVd + mVa + mFmt + mSub) && decide (vSub w < 3))
    [.p (wPg w), .v (vVd w), .v (vVa w)] s
    (fun t _ b =>
      let g := b.pR (wPg w)
      let ls := (List.range 256).map (fun i => (laneOn g 32 i, lane (b.vR (vVa w)) 32 i))
      let on := (ls.filter (fun e => e.1)).map (fun e => e.2)
      let into := fun (r : Nat) => [(CReg.v (vVd w), blend g (b.vR (vVd w)) r)]
      if vFmt w = 0xA then
        let fl := nanFlags (on.map f32)
        if vSub w = 0 then
          let r := canonTree (ls.map (fun e => if e.1 then e.2 else 0))
          let ins := on.map f32
          .ok t (into r) (opFlags ins (f32 r) 0)
        else
          match on with
          | [] => .ok (t.took 1) (into (t.freeVal 32)) 0
          | a :: l => .ok t (into (toF32 (l.foldl (fun m e => if vSub w = 1 then valMin m (f32 e) else valMax m (f32 e)) (f32 a)))) fl
      else if vFmt w = 0xC then
        if vSub w = 0 then .ok t (into (on.foldl (fun a e => a + e) 0 % 4294967296)) 0
        else
          match on with
          | [] => .ok (t.took 1) (into (t.freeVal 32)) 0
          | a :: l =>
            .ok t (into (ofInt (l.foldl (fun m e => if vSub w = 1 then min m (sInt e 32) else max m (sInt e 32)) (sInt a 32)) 32)) 0
      else .fault 0x3018 0 0)

/-- VBC: every lane is the low bits of s[va[4:0]]. -/
def execVbc (x : Issue) (w : Word) (s : State) : Host.Outcome State Fault Refusal :=
  vecIssue 0x5D x w (mVd + msk 41 5 + mFmt) (decide (vFmt w < 15)) true [.s (vVa w % 32)] s
    (fun _ b =>
      let lw := if vFmt w = 14 then 16 else laneW (vFmt w)
      (fromLanes lw ((List.range (8192 / lw)).map (fun _ => b.sR (vVa w % 32))), 0)) 0

/-- VLOGIC on INT32 lanes: and, or, xor, shifts by vb. A shift of 32 or more has no stated result: that lane is free. -/
def execVlogic (x : Issue) (w : Word) (s : State) : Host.Outcome State Fault Refusal :=
  vecIssue 0x5E x w (mVd + mVa + mVb + mFmt + mSub) (vFmt w == 0xC) (decide (vSub w < 5)) [.v (vVa w), .v (vVb w)] s
    (fun t b => mapLanes 32 256 (fun i =>
      let u := lane (b.vR (vVa w)) 32 i
      let v := lane (b.vR (vVb w)) 32 i
      (match vSub w with
        | 0 => Nat.land u v
        | 1 => Nat.lor u v
        | 2 => Nat.xor u v
        | 3 => if v < 32 then u * 2 ^ v else Config.freeNat (t.free + i)
        | _ => if v < 32 then u / 2 ^ v else Config.freeNat (t.free + i), 0))) 256

/-! ### Random numbers (R150 to R152, R186) -/

/-- Output of element e of a stream for a VRNG sub. -/
def rngElement (sub k0 k1 idx e : Nat) : Nat :=
  match sub with
  | 0 => streamStep k0 k1 idx e
  | 1 => (let u := bits (streamStep k0 k1 idx (e / 2)) (if e % 2 = 0 then 40 else 16) 24; toF32 (.fin false u (-24)))
  | 2 => (let u := bits (streamStep k0 k1 idx (e / 2)) (if e % 2 = 0 then 40 else 16) 24; normalTable u)
  | _ => (let o := streamStep k0 k1 idx e; boxMuller (bits o 40 24) (bits o 16 24))

/-- VRNG: generator output for elements e0 + i. -/
def execVrng (x : Issue) (w : Word) (s : State) : Host.Outcome State Fault Refusal :=
  vecIssue 0x60 x w (mVd + mKey + mSidx + mPos + mSub) true (decide (vSub w < 4) && vKey w % 2 == 0)
    [.s (vKey w), .s (vKey w + 1), .s (vSidx w), .s (vPos w)] s
    (fun _ b =>
      let lw := if vSub w = 0 then 64 else 32
      (fromLanes lw ((List.range (8192 / lw)).map (fun i =>
        rngElement (vSub w) (b.sR (vKey w)) (b.sR (vKey w + 1)) (b.sR (vSidx w)) (b.sR (vPos w) + i))), 0)) 0

/-! ### Accumulator rows (R187) -/

/-- The accumulator and Nib that va of VACR and VACW names. -/
def vacAcc (w : Word) : Nat := bits (vVa w) 3 3
def vacNib (w : Word) : Nat := bits (vVa w) 1 2

/-- VACR: rows 2q and 2q + 1 of an accumulator tile into vd. It waits for queued matrix instructions (R162). -/
def execVacr (x : Issue) (w : Word) (s : State) : Host.Outcome State Fault Refusal :=
  coreIssue x w 0x61 false (!wVar w && onlyBits w (mPg + mVd + msk 42 5 + mPos)) [.p (wPg w), .v (vVd w), .s (vPos w)] s
    (fun t k b =>
      let core := keyCore k
      let q := b.sR (vPos w)
      if 63 < q ∨ nibsOf x.tile ≤ vacNib w then .fault 0x3010 (vacNib w) 0
      else if !t.accOwned x.tile x.core (vacAcc w) b.part then .fault 0x3015 (vacNib w) 0
      else if t.accZeroing core (vacAcc w) || b.queue.any (fun e => decide (e.slot = 1)) then .wait
      else if t.rowBad (accTile core (vacNib w) (vacAcc w)) (2 * q) || t.rowBad (accTile core (vacNib w) (vacAcc w)) (2 * q + 1) then
        .fault 0x301D (vacNib w) 0
      else .ok t [(.v (vVd w), blend (b.pR (wPg w)) (b.vR (vVd w)) (Mem.rdN t.core.acc (accKey core (vacNib w) (vacAcc w) (1024 * q)) 1024))] 0)

/-- VACW: vd into rows 2q and 2q + 1; poison of the tile is cleared for the rows written. -/
def execVacw (x : Issue) (w : Word) (s : State) : Host.Outcome State Fault Refusal :=
  coreIssue x w 0x62 false (!wVar w && onlyBits w (mPg + mVd + msk 42 5 + mPos)) [.p (wPg w), .v (vVd w), .s (vPos w)] s
    (fun t k b =>
      let core := keyCore k
      let q := b.sR (vPos w)
      if 63 < q ∨ nibsOf x.tile ≤ vacNib w then .fault 0x3010 (vacNib w) 0
      else if !t.accOwned x.tile x.core (vacAcc w) b.part then .fault 0x3015 (vacNib w) 0
      else if t.accZeroing core (vacAcc w) || b.queue.any (fun e => decide (e.slot = 1)) then .wait
      else
        let a := accKey core (vacNib w) (vacAcc w) (1024 * q)
        let new := blend (b.pR (wPg w)) (Mem.rdN t.core.acc a 1024) (b.vR (vVd w))
        let m1 := Mem.wrN t.core.acc a 1024 new
        let tile := accTile core (vacNib w) (vacAcc w)
        let bad := upto 2 t.core.accRows (fun i m => NMap.put false m (tile * 128 + 2 * q + i) false)
        .ok { t with core := { t.core with acc := m1, accRows := bad } } [] 0)

end Sys2Proof.Machine
end

