-- ==== Sys2Proof/Machine/Collective.lean ====
section
/-! DEFINITION. Collective operations (R420 to R446, R482, R483): launches, the order gate, shards and slots, the packets of R443,
their ends. -/

namespace Sys2Proof.Machine

/-! ### Check values (R435) -/

/-- One bit of a reflected CRC-32C. -/
def crcBit (c : Nat) : Nat := if c % 2 = 1 then Nat.xor (c / 2) 0x82F63B78 else c / 2
/-- CRC-32C (Castagnoli) of bytes (assumption 43). -/
def crc32c (l : List Nat) : Nat :=
  Nat.xor 0xFFFFFFFF (l.foldl (fun c b => upto 8 (Nat.xor c (b % 256)) (fun _ x => crcBit x)) 0xFFFFFFFF)

/-! ### The launch (R424, R425) -/

def clOp (c : Nat) : Nat := bits c 0 8
def clRop (c : Nat) : Nat := bits c 8 4
def clFmt (c : Nat) : Nat := bits c 12 4
def clEndpoint (c : Nat) : Bool := bit c 16
def clComm (c : Nat) : Nat := bits c 32 16
def clRoot (c : Nat) : Nat := bits c 48 16
def clSrc (c : Nat) : Nat := bits c 64 48
def clDst (c : Nat) : Nat := bits c 128 48
def clScratch (c : Nat) : Nat := bits c 192 48
def clCount (c : Nat) : Nat := bits c 256 32
def clOrder (c : Nat) : Nat := bits c 288 32
/-- Bytes of an element in src and dst. -/
def clSize (c : Nat) : Nat := if clFmt c = 8 then 2 else 4
def clFloat (c : Nat) : Bool := clFmt c != 0xC
/-- A reduction; one that counts in the variance mark (R197, R431). -/
def clReduces (c : Nat) : Bool := decide (1 ≤ clOp c) && decide (clOp c ≤ 3)

def Coll.raw (c : Coll) : Nat := c.cmd.raw
/-- A Copperplate floating-point sum runs the two phases of R141. -/
def Coll.exact (c : Coll) : Bool := c.copper && clReduces c.raw && clFloat c.raw && clRop c.raw == 0
def Coll.root (c : Coll) : Bool := decide (c.rank = clRoot c.raw)
/-- g of R432. -/
def Coll.g (c : Coll) : Nat := bitLen (c.size - 1)

/-- First element and length of shard r (R427). -/
def Coll.shard (c : Coll) (r : Nat) : Nat × Nat :=
  let n := clCount c.raw
  if clOp c.raw = 3 then (r * n, n)
  else
    let w := 256 * cdiv n (256 * c.size)
    (r * w, min w (n - r * w))
/-- Chunks of m elements. -/
def chunksOf (m : Nat) : Nat := cdiv m 256
/-- Elements of chunk k of shard r. -/
def Coll.chunkLen (c : Coll) (r k : Nat) : Nat := min 256 ((c.shard r).2 - 256 * k)
/-- Address in src of chunk k of shard r. -/
def Coll.srcAddr (c : Coll) (r k : Nat) : Nat := clSrc c.raw + ((c.shard r).1 + 256 * k) * clSize c.raw
/-- Offset in dst, at every rank that receives it, of chunk k of shard r. -/
def Coll.dstOff (c : Coll) (r k : Nat) : Nat := ((if clOp c.raw = 3 then 0 else (c.shard r).1) + 256 * k) * clSize c.raw
/-- Does rank q receive the chunks of shard r? -/
def Coll.receives (c : Coll) (q r : Nat) : Bool :=
  if clOp c.raw = 1 then true else if clOp c.raw = 2 then decide (q = clRoot c.raw) else decide (q = r)

/-- Bytes of a slot, and how many a target of `gran` granules has (R429). -/
def Coll.slotBytes (c : Coll) : Nat := if c.exact then 2048 else 1024
def Coll.slots (c : Coll) (endpoint : Bool) (gran : Nat) : Nat := (if endpoint then 262144 else 65536 * gran) / c.slotBytes

/-! ### READY lines (R423, R428): the layout is this model's (assumption 44) -/

/-- Where rank's own shard takes contributions: base die, endpoint, scratch, granules as a mask. -/
structure Target where
  die : Nat
  endpoint : Bool
  scratch : Nat
  mask : Nat
  deriving DecidableEq, Repr

/-- The signature of R423: op, rop, fmt, mode, root, count, order. -/
def Coll.sig (c : Coll) : Nat :=
  setBits (setBits (setBits (setBits (bits c.raw 0 16) 16 1 (b2n c.copper)) 32 16 (clRoot c.raw)) 64 32 (clCount c.raw)) 96 32 (clOrder c.raw)
def sigMask : Nat := msk 0 17 + msk 32 16 + msk 64 64

/-- The payload line of a READY, RESEND or ABORT of this rank, with a status. -/
def Coll.line (c : Coll) (status : Nat) : Nat :=
  let gran := c.granules.foldl (fun m g => Nat.lor m (2 ^ g)) 0
  let v := setBits (setBits (setBits (setBits c.sig 17 1 (b2n (c.mode == 2))) 18 1 (b2n (c.mode == 1))) 48 16 status) 128 48 (clDst c.raw)
  setBits (setBits (setBits v 192 48 (clScratch c.raw)) 240 4 c.die) 256 128 gran
def lnTarget (l : Nat) : Target := ⟨bits l 240 4, bit l 17, bits l 192 48, bits l 256 128⟩
def lnDst (l : Nat) : Nat := bits l 128 48
def lnStatus (l : Nat) : Nat := bits l 48 16

/-- Address of slot i of a target. -/
def Coll.slotAddr (c : Coll) (t : Target) (i : Nat) : Nat :=
  let o := i * c.slotBytes
  if t.endpoint then t.scratch + o
  else
    let gs := (List.range 128).filter (bit t.mask)
    0x20000000000 + t.die * 0x1000000 + gs.getD (o / 65536) 0 * 65536 + o % 65536
def Target.grans (t : Target) : Nat := ((List.range 128).filter (bit t.mask)).length
def Coll.slotsOf (c : Coll) (t : Target) : Nat := c.slots t.endpoint t.grans
/-- This rank's own target. -/
def Coll.target (c : Coll) : Target := lnTarget (c.line 0)

/-! ### The set of collectives -/

def Coll.key (c : Coll) : Nat := c.commId * 4096 + c.seq
/-- Replace one collective (they are told apart by partition, descriptor, sequence number and launch). -/
def Coll.same (a b : Coll) : Bool := decide (a.part = b.part) && decide (a.comm = b.comm) && decide (a.seq = b.seq) && a.started == b.started && decide (a.cmd = b.cmd)
def State.setColl (s : State) (c : Coll) : State := { s with col := { s.col with colls := s.col.colls.map (fun x => if x.same c then c else x) } }
def State.delColl (s : State) (c : Coll) : State := { s with col := { s.col with colls := s.col.colls.filter (fun x => !x.same c) } }
/-- The started collective of partition q with a communicator identifier and sequence number. -/
def State.coll (s : State) (q key : Nat) : Option Coll := s.col.colls.find? (fun c => c.started && decide (c.part = q) && decide (c.key = key))

/-- COL faults (R446, R472). -/
def State.colFault (s : State) (c : Coll) (code : Nat) : State :=
  s.fault { code := code, part := c.part, die := c.die, unit := c.die, tag := c.cmd.tag, arg0 := c.commId + c.seq * 1048576, arg1 := clOrder c.raw }

/-- Mark the communicator broken in its state area (R439): byte 4; the next sequence number is bytes 0 to 3 (assumption 44). -/
def State.breakComm (s : State) (area : Nat) : State := if area = 0 then s else s.stN (area + 4) 1 1

/-- The 32-byte completion record (R441). -/
def State.colRecord (s : State) (c : Coll) (status : Nat) : Nat :=
  let v := setBits (setBits (setBits (setBits 0 0 16 status) 16 1 (b2n c.fallback)) 17 1 (b2n c.denied)) 18 1 (b2n c.retried)
  setBits (setBits (setBits (setBits (setBits (setBits v 32 20 c.commId) 52 12 c.seq) 64 32 (clOrder c.raw)) 96 32 c.varEvents) 128 64 s.tickNum) 192 32 c.chunks

/-- A collective ends: counted, its record written, its semaphore posted (R441, R445). -/
def State.colFinish (s : State) (c : Coll) (status : Nat) : State :=
  let s := if status = 0 then s.inc (Reg.COL_PART_STAT.completed c.part) 1
    else (s.inc (Reg.COL_PART_STAT.failed c.part) 1).inc (Reg.COL_STAT.aborts c.die) 1
  s.engResult c.cmd (s.colRecord c status)

/-! ### Sending (R443) -/

/-- A COLL packet to rank r, held until it is acknowledged. `poison`: its payload was read from a poisoned line (R219). -/
def State.sendCol (s : State) (c : Coll) (r kind addr : Nat) (payload : List Nat) (poison : Bool := false) : State :=
  let dev := c.members.getD r 0 % 65536
  let ga := dev * 281474976710656 + addr
  let p := { s.request 0x0A c.part ga with
    poison := poison, cp := c.copper, seq := c.key % 4294967296, kind := kind, rop := clRop c.raw, fmt := clFmt c.raw, check := crc32c payload, payload := payload,
    lines := cdiv payload.length 64 - 1 }
  let o : RemOp := ⟨p.seq, 0x0A, dev, c.part, ga, none, none, false, kind, 0, 0, 0, c.cmd.tag, s.time.cnt + s.bound, 0, s.time.cnt, p⟩
  ({ s with fab := { s.fab with out := s.fab.out ++ [o] } }).send p (some c.die)

/-- Is a packet of that kind to rank r, at an address in [a, a + n), unacknowledged? -/
def State.colPending (s : State) (c : Coll) (r kind a n : Nat) : Bool :=
  s.fab.out.any (fun o => decide (o.type = 0x0A) && decide (o.seq = c.key % 4294967296) && decide (o.part = c.part) &&
    decide (o.dev = c.members.getD r 0 % 65536) && decide (o.line = kind) && decide (a ≤ o.ga % 281474976710656) && decide (o.ga % 281474976710656 < a + n))

/-- Is any packet of the collective unacknowledged? -/
def State.colBusy (s : State) (c : Coll) : Bool :=
  s.fab.out.any (fun o => decide (o.type = 0x0A) && decide (o.seq = c.key % 4294967296) && decide (o.part = c.part))

/-- Return the reservation key of a collective (R430): RSV_REL to the engine's own base die. -/
def State.colRelease (s : State) (c : Coll) : State :=
  if c.mode = 1 then
    s.send { s.request 8 c.part (s.devId * 281474976710656 + 0x20000000000 + c.die * 0x1000000) with payload := leBytes (c.key % 4294967296) 64 }
  else s

/-- Ranks a collective holds a READY from. -/
def Coll.peers (c : Coll) : List Nat := (c.ready.map (fun e => e.1)).filter (fun r => decide (r ≠ c.rank))

/-- Pieces of dst this rank receives: source rank and chunk, and their address and bytes. -/
def Coll.pieces (c : Coll) : List (Nat × Nat) :=
  let all := fun (r m : Nat) => (List.range (chunksOf m)).map (fun k => (r, k))
  match clOp c.raw with
  | 1 => (List.range c.size).flatMap (fun r => all r (c.shard r).2)
  | 2 => if c.root then (List.range c.size).flatMap (fun r => all r (c.shard r).2) else []
  | 3 => all c.rank (clCount c.raw)
  | 5 => all (clRoot c.raw) (clCount c.raw)
  | _ => (List.range c.size).flatMap (fun r => all r (clCount c.raw))
def Coll.pieceAt (c : Coll) (r k : Nat) : Nat × Nat :=
  if clReduces c.raw then (clDst c.raw + c.dstOff r k, c.chunkLen r k * clSize c.raw)
  else
    let blk := if clOp c.raw = 5 then 0 else r * clCount c.raw
    (clDst c.raw + (blk + 256 * k) * clSize c.raw, min 256 (clCount c.raw - 256 * k) * clSize c.raw)
def pieceKey (r k : Nat) : Nat := r * 67108864 + k
def Coll.has (c : Coll) (r k : Nat) : Bool := NMap.get false c.recv (pieceKey r k)

/-- A started collective ends with a status other than SUCCESS (R439): dst is undefined where no final value has arrived, so free;
reservations are released; after MISMATCH, ORDER_MISMATCH, PEER_LOST and DATA_ERROR the communicator is broken; ABORT goes to every
rank whose READY is held, unless one brought it about. -/
def State.colFail (s : State) (c : Coll) (status : Nat) (tell : Bool) : State :=
  let s := if tell then each c.peers s (fun r t => t.sendCol c r 7 0 (leBytes (c.line status) 64)) else s
  let s := each c.pieces s (fun e t => if c.has e.1 e.2 then t else
    (t.took 1).stN (c.pieceAt e.1 e.2).1 (c.pieceAt e.1 e.2).2 (Config.freeNat t.free))
  let s := s.colRelease c
  let s := if status = 0x31 ∨ status = 0x32 ∨ status = 0x33 ∨ status = 0x34 then s.breakComm c.area else s
  let mine := fun (o : RemOp) => decide (o.type = 0x0A) && decide (o.seq = c.key % 4294967296) && decide (o.part = c.part) && decide (o.line ≠ 7)
  let s := { s with fab := { s.fab with out := s.fab.out.filter (fun o => !mine o) } }
  (s.delColl c).colFinish c status

/-- The straggler measurement of a collective that completed (R482, R483): the lag of the latest other rank, the lowest of those that tie;
a threshold of 0 detects nothing. -/
def State.straggle (s : State) (c : Coll) : State :=
  let p := c.part
  if s.on (Reg.FLT_STRAG_CFG.enable p) = false ∨ s.rd (Reg.FLT_STRAG_CFG.comm p) ≠ c.comm ∨ c.size < 2 then s
  else
    let lagOf := fun (r : Nat) => NMap.get 0 c.lag r
    let first := if c.rank = 0 then 1 else 0
    let worst := ((List.range c.size).filter (fun r => decide (r ≠ c.rank))).foldl (fun b r => if lagOf b < lagOf r then r else b) first
    let lag := lagOf worst
    let limit := 1000 * s.rd (Reg.FLT_STRAG_CFG.threshold_us p)
    let n := if limit = 0 ∨ lag < limit then 0
      else if s.rd (Reg.FLT_STRAG_STAT.measured p) ≠ 0 ∧ s.rd (Reg.FLT_STRAG_STAT.rank p) = worst then s.rd (Reg.FLT_STRAG_STAT.consec p) + 1 else 1
    let s := (((s.wr (Reg.FLT_STRAG_STAT.rank p) worst).wr (Reg.FLT_STRAG_STAT.lag_us p) (min (lag / 1000) 0x7FFFFF)).incw (Reg.FLT_STRAG_STAT.measured p) 1).wr
      (Reg.FLT_STRAG_STAT.consec p) n
    if n = s.rd (Reg.FLT_STRAG_CFG.steps_m1 p) + 1 then
      (s.fault { code := 0x1004, part := p, die := c.die, unit := c.die, tag := c.cmd.tag, arg0 := worst, arg1 := lag }).wr (Reg.FLT_STRAG_STAT.consec p) 0
    else s

/-- A collective whose last data have arrived, whose own shard is done and whose packets are all acknowledged completes (R441). -/
def State.colEnd (s : State) (q key : Nat) : State :=
  match s.coll q key with
  | none => s
  | some c =>
    let own := !clReduces c.raw || (List.range (chunksOf (c.shard c.rank).2)).all (fun k => NMap.get false c.done k)
    let sent := c.size == 1 || (List.range c.size).all (fun r => decide (r = c.rank) ||
      (if clReduces c.raw then decide (chunksOf (c.shard r).2 ≤ NMap.get 0 c.sentTo r)
       else NMap.get false c.putSent r || (clOp c.raw == 5 && !c.root)))
    if c.pieces.all (fun e => c.has e.1 e.2) && own && sent && decide (c.mode ≠ 0) && !s.colBusy c then
      (((s.colRelease c).delColl c).colFinish c 0).straggle c
    else s

/-! ### Arithmetic (R431, R432) -/

/-- An element of src as its wire word: BF16 widens to FP32. -/
def clWiden (fmt x : Nat) : Nat := if fmt = 8 then x * 65536 else x
/-- A combined word rounded once to fmt. -/
def clRound (fmt x : Nat) : Nat := if fmt = 0xC then x else if fmt = 8 then (bf16.encode .rne .inf (f32 x)).1 else toF32 (f32 x)
/-- Combine two wire words. -/
def clCombine (rop fmt a b : Nat) : Nat :=
  if fmt = 0xC then
    match rop with
    | 0 => (a + b) % 4294967296
    | 1 => if sInt a 32 ≤ sInt b 32 then a else b
    | 2 => if sInt a 32 ≤ sInt b 32 then b else a
    | 3 => Nat.land a b
    | 4 => Nat.lor a b
    | _ => Nat.xor a b
  else match rop with
    | 0 => f32add a b
    | 1 => toF32 (valMin (f32 a) (f32 b))
    | _ => toF32 (valMax (f32 a) (f32 b))

/-- The phase-1 record of a block of FP32 words (R433). -/
def expRecord (l : List Nat) : Nat :=
  let vs := l.map f32
  let m := vs.foldl (fun (b : Option Int) v => match v with
    | .fin _ n _ => if n = 0 then b else (match b with | none => some v.log2 | some x => some (max x v.log2))
    | _ => b) none
  let e := match m with | none => 0x8000 | some x => ofInt x 16
  setBits (setBits (setBits e 16 1 (b2n (vs.any Val.isNan))) 17 1 (b2n (vs.contains (.inf false)))) 18 1 (b2n (vs.contains (.inf true)))
/-- Combine two records. -/
def expCombine (a b : Nat) : Nat :=
  let x := if sInt a 16 ≤ sInt b 16 then b % 65536 else a % 65536
  x + Nat.lor (a / 65536) (b / 65536) * 65536
/-- The quantum exponent L of a combined record. -/
def expQuantum (r g : Nat) : Int := (if r % 65536 = 0x8000 then 0 else sInt r 16) + (g : Int) - 61
/-- q of an FP32 word (64-bit pattern); a NaN or infinity contributes zero, its flag decides. -/
def expQuant (r g x : Nat) : Nat := match f32 x with | .fin n m e => ((Val.fin n m e).scale (-(expQuantum r g))).toInt .rne 64 |>.1 | _ => 0
/-- The result of a sum of q. -/
def expResult (fmt r g sum : Nat) : Nat :=
  let v : Val := if bit r 16 || (bit r 17 && bit r 18) then .nan else if bit r 17 then .inf false else if bit r 18 then .inf true
    else (Val.ofInt sum 64).scale (expQuantum r g)
  if fmt = 8 then (bf16.encode .rne .inf v).1 else toF32 v

/-- Words of w bytes of a byte list. -/
def wordsOf (w n : Nat) (l : List Nat) : List Nat := (List.range n).map (fun i => leNat ((l.drop (w * i)).take w))
def bytesOf (w : Nat) (l : List Nat) : List Nat := l.flatMap (fun x => leBytes x w)

/-- The wire words of chunk k of shard r from src. -/
def State.colWords (s : State) (c : Coll) (r k : Nat) : List Nat :=
  (wordsOf (clSize c.raw) (c.chunkLen r k) (s.ldBytes (c.srcAddr r k) (c.chunkLen r k * clSize c.raw))).map (clWiden (clFmt c.raw))
/-- The phase-1 record of block b of shard r here. -/
def State.colExp (s : State) (c : Coll) (r b : Nat) : Nat := expRecord (((s.colWords c r (b / 2)).drop (128 * (b % 2))).take 128)
/-- Blocks of 128 in shard r. -/
def Coll.blocks (c : Coll) (r : Nat) : Nat := cdiv (c.shard r).2 128
/-- The wire data of chunk k of shard r, once its combined records are here. -/
def State.colData (s : State) (c : Coll) (r k : Nat) : List Nat :=
  let ws := s.colWords c r k
  if c.exact then
    bytesOf 8 (((List.range ws.length).zip ws).map (fun e => expQuant (NMap.get 0x8000 c.expAll (pieceKey r (2 * k + e.1 / 128))) c.g e.2))
  else bytesOf 4 ws
/-- Are the combined records of chunk k of shard r here? -/
def Coll.expReady (c : Coll) (r k : Nat) : Bool :=
  !c.exact || (List.range (min 2 (c.blocks r - 2 * k))).all (fun i => (NMap.find c.expAll (pieceKey r (2 * k + i))).isSome)

/-! ### The owner of a shard (R429 to R432) -/

/-- Are the bytes of chunk k of shard r poisoned in src; and their read, which counts (R221). -/
def State.srcBad (s : State) (c : Coll) (r k : Nat) : Bool := s.rangeBad (c.srcAddr r k) (c.chunkLen r k * clSize c.raw)
def State.srcRead (s : State) (c : Coll) (r k : Nat) : State := s.countPoison (c.srcAddr r k) (c.chunkLen r k * clSize c.raw)

/-- Write received bytes of piece (r, k) into dst; poison goes with them (R401). -/
def State.colLand (s : State) (c : Coll) (r k : Nat) (b : List Nat) (bad : Bool) : State × Coll :=
  ((s.stBytes (c.pieceAt r k).1 b).poisonRange (c.pieceAt r k).1 b.length bad, { c with recv := NMap.put false c.recv (pieceKey r k) true, chunks := c.chunks + 1 })

/-- The variance events of a result chunk (R431): one for each of its lines, when two or more contributions formed it under Cursive. -/
def Coll.chunkEvents (c : Coll) (k : Nat) : Nat :=
  if c.copper || !clFloat c.raw || decide (c.size < 2) then 0 else cdiv (c.chunkLen c.rank k * clSize c.raw) 64

/-- Are all contributions of chunk k of the own shard in? -/
def Coll.full (c : Coll) (k : Nat) : Bool :=
  let halves := if c.exact && decide (128 < c.chunkLen c.rank k) then 2 else 1
  (List.range c.size).all (fun r => (List.range halves).all (fun h => NMap.get false c.got (k * 8192 + 2 * r + h)))

/-- Finalise chunk k (R429): round once, FINAL to every rank that receives it, acknowledge its contributions, free its slot. -/
def State.colFinal (s : State) (c : Coll) (k : Nat) : State × Coll :=
  let t := c.target
  let a := c.slotAddr t (k % max 1 (c.slotsOf t))
  let n := c.chunkLen c.rank k
  let fmt := clFmt c.raw
  let out := if c.exact then
      ((List.range n).zip (wordsOf 8 n (s.ldBytes a (8 * n)))).map (fun e => expResult fmt (NMap.get 0x8000 c.expAll (pieceKey c.rank (2 * k + e.1 / 128))) c.g e.2)
    else (wordsOf 4 n (s.ldBytes a (4 * n))).map (clRound fmt)
  let b := bytesOf (clSize c.raw) out
  let bad := s.rangeBad a ((if c.exact then 8 else 4) * n)
  let ev := c.chunkEvents k
  let s := if ev = 0 then s else s.inc (Reg.PART_VAR_EVENTS.events c.part) ev
  let mine := fun (p : Packet) => decide (a ≤ p.addr) && decide (p.addr < a + c.slotBytes)
  let s := each (c.owed.filter mine) s (fun p u => u.ack p 0)
  let c := { c with done := NMap.put false c.done k true, owed := c.owed.filter (fun p => !mine p), varEvents := c.varEvents + ev }
  each (List.range c.size) (s, c) (fun r x =>
    if !c.receives r c.rank then x
    else if r = c.rank then x.1.colLand x.2 c.rank k b bad
    else (x.1.sendCol c r 5 (lnDst (NMap.get 0 c.ready r) + c.dstOff c.rank k) b bad, x.2))

/-- A contribution of rank r to chunk k (half h) of the own shard enters its slot: the first is written, each later one combined
(R431, R432); with poison in one the slot is poisoned. -/
def State.colEnter (s : State) (c : Coll) (k r h : Nat) (b : List Nat) (poison : Bool) : State × Coll :=
  let t := c.target
  let a := c.slotAddr t (k % max 1 (c.slotsOf t)) + 1024 * h
  let first := (List.range c.size).all (fun q => !NMap.get false c.got (k * 8192 + 2 * q + h))
  let w := if c.exact then 8 else 4
  let n := b.length / w
  let old := wordsOf w n (s.ldBytes a (w * n))
  let new := wordsOf w n b
  let sum := ((List.range n).zip new).map (fun e =>
    let o := old.getD e.1 0
    if first then e.2 else if c.exact then (o + e.2) % 18446744073709551616 else clCombine (clRop c.raw) (clFmt c.raw) o e.2)
  let bad := poison || (!first && s.rangeBad a (w * n))
  ((s.stBytes a (bytesOf w sum)).poisonRange a (w * n) bad, { c with got := NMap.put false c.got (k * 8192 + 2 * r + h) true })

/-- May chunk k of the own shard be finalised: all contributions in, the READY of every rank that receives it held? -/
def Coll.ripe (c : Coll) (k : Nat) : Bool :=
  c.full k && !NMap.get false c.done k && (List.range c.size).all (fun r => decide (r = c.rank) || !c.receives r c.rank || (NMap.find c.ready r).isSome)

/-- The owner's own contribution to chunk k enters (both halves). -/
def State.colOwn (s : State) (c : Coll) (k : Nat) : State × Coll :=
  let b := s.colData c c.rank k
  let bad := s.srcBad c c.rank k
  let x := (s.srcRead c c.rank k).colEnter c k c.rank 0 (b.take 1024) bad
  let c1 := { x.2 with sentTo := NMap.put 0 x.2.sentTo c.rank (k + 1) }
  if 1024 < b.length then x.1.colEnter c1 k c.rank 1 (b.drop 1024) bad else (x.1, c1)

/-- The owner's turn: combined records of every complete group go back, own contributions enter free slots, full chunks are
finalised. -/
def State.colOwner (s : State) (c : Coll) : State × Coll :=
  let m := (c.shard c.rank).2
  if !clReduces c.raw || decide (m = 0) || (decide (c.mode ≠ 1) && decide (c.mode ≠ 2)) then (s, c)
  else
    let nb := c.blocks c.rank
    -- phase 1: groups of 256 blocks
    let x := if !c.exact then (s, c) else upto (cdiv nb 256) (s, c) (fun g x =>
      let s := x.1
      let c := x.2
      let bs := (List.range (min 256 (nb - 256 * g))).map (fun i => 256 * g + i)
      let others := (List.range c.size).filter (fun r => decide (r ≠ c.rank))
      if NMap.get false c.expOut g || !others.all (fun r => bs.all (fun b => (NMap.find c.expIn (pieceKey r b)).isSome) && (NMap.find c.ready r).isSome) then x
      else
        let recs := bs.map (fun b => others.foldl (fun v r => expCombine v (NMap.get 0 c.expIn (pieceKey r b))) (s.colExp c c.rank b))
        let all := (bs.zip recs).foldl (fun (t : NMap Nat) e => NMap.ins t (pieceKey c.rank e.1) e.2) c.expAll
        let c := { c with expAll := all, expOut := NMap.put false c.expOut g true }
        (each others s (fun r t => t.sendCol c r 4 (1024 * g) (bytesOf 4 recs)), c))
    let slots := x.2.slotsOf x.2.target
    upto (chunksOf m) x (fun k x =>
      let c := x.2
      let x := if NMap.get 0 c.sentTo c.rank = k ∧ c.expReady c.rank k = true ∧ (k < slots ∨ NMap.get false c.done (k - slots) = true) then x.1.colOwn c k else x
      if x.2.ripe k then x.1.colFinal x.2 k else x)

/-! ### The contributor and the gathers (R428, R429, R432) -/

/-- Send what may go to rank r, whose READY is held. -/
def State.colSendTo (s : State) (c : Coll) (r : Nat) : State × Coll :=
  match (if r = c.rank then none else NMap.find c.ready r) with
  | none => (s, c)
  | some line =>
    let n := clCount c.raw
    if clReduces c.raw then
      let m := (c.shard r).2
      let t := lnTarget line
      let slots := c.slotsOf t
      let x := if c.exact && !NMap.get false c.expSent r && decide (0 < m) then
          (upto (cdiv (c.blocks r) 256) s (fun g u =>
            u.sendCol c r 3 (1024 * g) (bytesOf 4 ((List.range (min 256 (c.blocks r - 256 * g))).map (fun i => u.colExp c r (256 * g + i))))),
           { c with expSent := NMap.put false c.expSent r true })
        else (s, c)
      upto (chunksOf m) x (fun k x =>
        let s := x.1
        let c := x.2
        let a := c.slotAddr t (k % max 1 slots)
        if NMap.get 0 c.sentTo r = k ∧ c.expReady r k = true ∧ s.colPending c r 1 a c.slotBytes = false then
          let b := s.colData c r k
          let bad := s.srcBad c r k
          let s := (s.srcRead c r k).sendCol c r 1 a (b.take 1024) bad
          let s := if 1024 < b.length then s.sendCol c r 1 (a + 1024) (b.drop 1024) bad else s
          (s, { c with sentTo := NMap.put 0 c.sentTo r (k + 1) })
        else x)
    else if NMap.get false c.putSent r || (clOp c.raw == 5 && !c.root) then (s, c)
    else
      let base := if clOp c.raw = 6 then r * n else 0
      let first := if clOp c.raw = 5 then 0 else c.rank * n
      (upto (chunksOf n) s (fun k u =>
        let a := clSrc c.raw + (base + 256 * k) * clSize c.raw
        let len := min 256 (n - 256 * k) * clSize c.raw
        (u.countPoison a len).sendCol c r 2 (lnDst line + (first + 256 * k) * clSize c.raw) (u.ldBytes a len) (u.rangeBad a len)),
       { c with putSent := NMap.put false c.putSent r true })

/-- The blocks of a gather, broadcast or exchange that stay on this rank (R425). -/
def State.colLocal (s : State) (c : Coll) : State × Coll :=
  let n := clCount c.raw
  if clReduces c.raw || (clOp c.raw == 5 && !c.root) then (s, c)
  else
    let base := if clOp c.raw = 6 then c.rank * n else 0
    upto (chunksOf n) (s, c) (fun k x =>
      let a := clSrc c.raw + (base + 256 * k) * clSize c.raw
      let len := min 256 (n - 256 * k) * clSize c.raw
      let y := (x.1.countPoison a len).colLand x.2 c.rank k (x.1.ldBytes a len) (x.1.rangeBad a len)
      (y.1, { y.2 with chunks := x.2.chunks }))

/-- A reduction over one rank (P = 1): src is converted into dst, and nothing is sent (R425). -/
def State.colAlone (s : State) (c : Coll) : State × Coll :=
  upto (chunksOf (c.shard 0).2) (s, c) (fun k x =>
    let out := (x.1.colWords c 0 k).map (clRound (clFmt c.raw))
    let y := (x.1.srcRead c 0 k).colLand x.2 0 k (bytesOf (clSize c.raw) out) (x.1.srcBad c 0 k)
    (y.1, { y.2 with done := NMap.put false y.2.done k true, chunks := x.2.chunks }))

/-- Everything a collective can do now. -/
def State.colKick (s : State) (q key : Nat) : State :=
  match s.coll q key with
  | none => s
  | some c =>
    if c.mode = 0 ∨ c.size = 1 then s
    else
      let x := upto c.size (s.colOwner c) (fun r x => x.1.colSendTo x.2 r)
      -- records that came back may let own contributions in
      let x := x.1.colOwner x.2
      (x.1.setColl x.2).colEnd q key

/-! ### Starting (R422, R426, R430, R438) -/

/-- A launch completes at once (R426): its record names no sequence number. -/
def State.colRefuse (s : State) (c : Coll) (status : Nat) : State :=
  (if status = 0x36 then s.colFault c 0x500D else s).colFinish c status

/-- READY to every other rank (R428), and what follows. -/
def State.colReady (s : State) (c : Coll) : State :=
  let s := upto c.size s (fun r t => if r = c.rank then t else t.sendCol c r 0 0 (leBytes (c.line 0) 64))
  s.colKick c.part c.key

def rangesMeet (a n b m : Nat) : Bool := decide (a < b + m) && decide (b < a + n)

/-- Take in the READY line of rank r: a signature that differs ends both sides with MISMATCH (R423). -/
def State.colTakeReady (s : State) (c : Coll) (r line : Nat) : State :=
  if Nat.land line sigMask ≠ Nat.land c.sig sigMask then
    ((s.setColl { c with ready := NMap.ins c.ready r line }).colFault c 0x5008).colFail { c with ready := NMap.ins c.ready r line } 0x31 true
  else
    let c := { c with
      ready := NMap.ins c.ready r line, heard := NMap.put 0 c.heard r s.time.cnt, fallback := c.fallback || bit line 17,
      lag := NMap.put 0 c.lag r (s.nowNs - c.sinceNs) }
    (s.setColl c).colKick c.part c.key

/-- The rank of a device in a collective. -/
def Coll.rankOf (c : Coll) (dev : Nat) : Option Nat := (List.range c.size).find? (fun r => decide (c.members.getD r 0 % 65536 = dev))

/-- READYs that came before the launch (R428). -/
def State.colEarly (s : State) (c : Coll) : State :=
  let mine := fun (p : Packet) => decide (p.seq = c.key % 4294967296) && s.domainPart p.domain == some c.part
  let l := s.col.early.filter mine
  let s := { s with col := { s.col with early := s.col.early.filter (fun p => !mine p) } }
  each l s (fun p t => match c.rankOf p.src, t.coll c.part c.key with
    | some r, some x => t.colTakeReady x r (leNat (p.payload.take 64))
    | _, _ => t)

/-- A collective that passed its checks starts: sequence number, reservation or endpoint mode, READYs. -/
def State.colGo (s : State) (c : Coll) : State :=
  let s := s.stN c.area 4 ((c.seq + 1) % 4096)
  let own := (c.shard c.rank).2
  if c.size = 1 then
    let x := if clReduces c.raw then s.colAlone c else s.colLocal c
    (({ x.1 with col := { x.1.col with colls := x.1.col.colls ++ [{ x.2 with mode := 3 }] } })).colEnd c.part c.key
  else
    let mode := if !clReduces c.raw || own == 0 then 3 else if clEndpoint c.raw then 2 else 0
    let s := if mode = 2 then s.inc (Reg.COL_STAT.fallbacks c.die) 1 else s
    let x := s.colLocal { c with mode := mode, fallback := mode == 2, renewAt := s.time.cnt + msCycles (s.rd Reg.COL_CFG.lease_ms_m1 + 1) / 2 }
    let s := { x.1 with col := { x.1.col with colls := x.1.col.colls ++ [x.2] } }
    if mode = 0 then
      let n := min (s.rd Reg.COL_CFG.rsv_granules) (cdiv (own * (if c.exact then 8 else 4)) 65536)
      let line := setBits (setBits (setBits 0 0 32 c.key) 32 7 n) 40 8 (s.rd Reg.COL_CFG.lease_ms_m1)
      (s.send { s.request 7 c.part (s.devId * 281474976710656 + 0x20000000000 + c.die * 0x1000000) with payload := leBytes line 64 }).colEarly x.2
    else (s.colReady x.2).colEarly x.2

/-- The checks of R422 and R426 on a launch whose turn has come. -/
def State.colCheck (s : State) (c : Coll) : State :=
  let r := c.raw
  let p := c.part
  let n := clCount r
  let da := s.rd (Reg.COL_PART_CFG.base p) * 64 + 64 * clComm r
  let red := clReduces r
  let fmtOk := clFmt r == 0xA || clFmt r == 8 || clFmt r == 0xC
  if n = 0 then s.colFinish c 0
  else if s.on (Reg.COL_PART_CFG.enable p) = false ∨ clOp r = 0 ∨ 6 < clOp r ∨ fmtOk = false ∨ (red = true ∧ (5 < clRop r ∨ (3 ≤ clRop r ∧ clFmt r ≠ 0xC))) ∨
      Nat.land r (msk 17 15 + msk 112 16 + msk 176 16 + msk 240 16 + msk 320 192) ≠ 0 ∨ s.rd (Reg.COL_PART_CFG.comm_count p) ≤ clComm r ∨
      clSrc r % 64 ≠ 0 ∨ clDst r % 64 ≠ 0 ∨ (red = true ∧ clScratch r % 64 ≠ 0) then s.colRefuse c stInvalid
  else if !s.permit p da 64 then s.colRefuse c 0x36
  else
    let d := s.ldN da 64
    let size := bits d 32 12 + 1
    let rank := bits d 48 12
    let ma := bits d 64 48
    let area := bits d 128 48
    if bit d 20 = false ∨ size ≤ rank ∨ ma % 4 ≠ 0 ∨ area % 4096 ≠ 0 ∨ ((clOp r = 2 ∨ clOp r = 5) ∧ size ≤ clRoot r) then s.colRefuse c stInvalid
    else if !s.permit p ma (4 * size) || !s.permit p area 4096 then s.colRefuse c 0x36
    else
      let members := wordsOf 4 size (s.ldBytes ma (4 * size))
      let c := { c with commId := bits d 0 20, size := size, rank := rank, members := members, area := area }
      let me := members.getD rank 0
      let es := clSize r
      let root := decide (rank = clRoot r)
      let srcLen := if clOp r = 5 ∧ root = false then 0 else (if clOp r = 3 ∨ clOp r = 6 then size * n else n) * es
      let dstLen := if clOp r = 2 ∧ root = false then 0 else (if clOp r = 4 ∨ clOp r = 6 then size * n else n) * es
      let same := (clOp r == 1 || clOp r == 2 || clOp r == 5) && decide (clSrc r = clDst r)
      let lapped := !same && rangesMeet (clSrc r) srcLen (clDst r) dstLen
      if me % 65536 ≠ s.devId ∨ bits me 16 4 ≠ c.die ∨ lapped = true then s.colRefuse c stInvalid
      else if !s.permit p (clSrc r) srcLen || !s.permit p (clDst r) dstLen || (red && !s.permit p (clScratch r) 262144) then s.colRefuse c 0x36
      else if s.ldN (area + 4) 1 ≠ 0 then s.colRefuse c 0x35
      else if 4 ≤ (s.col.colls.filter (fun x => x.started && decide (x.part = p) && decide (x.comm = c.comm))).length then s.colRefuse c 0x30
      else s.colGo { c with seq := s.ldN area 4 % 4096, started := true, since := s.time.cnt, sinceNs := s.nowNs }

/-- A launch as an engine accepts it. -/
def State.newColl (s : State) (die : Nat) (cmd : EngCmd) : Coll where
  die := die
  part := cmd.part
  comm := clComm cmd.raw
  cmd := cmd
  copper := NMap.get false s.part.copper cmd.part
  started := false
  since := s.time.cnt
  sinceNs := s.nowNs
  commId := 0
  size := 1
  rank := 0
  seq := 0
  members := []
  area := 0
  mode := 3
  granules := []
  renewAt := 0
  denied := false
  retried := false
  fallback := false
  ready := []
  heard := []
  lag := []
  sentTo := []
  expSent := []
  putSent := []
  expIn := []
  expAll := []
  expOut := []
  got := []
  done := []
  recv := []
  owed := []
  asked := []
  varEvents := 0
  chunks := 0

/-- The descriptor of a held launch, for its broken mark: the state area where it can be read. -/
def State.colArea (s : State) (c : Coll) : Nat :=
  let da := s.rd (Reg.COL_PART_CFG.base c.part) * 64 + 64 * c.comm
  if decide (c.comm < s.rd (Reg.COL_PART_CFG.comm_count c.part)) && s.permit c.part da 64 && bit (s.ldN da 64) 20 &&
      s.permit c.part (bits (s.ldN da 64) 128 48) 4096 then bits (s.ldN da 64) 128 48 else 0

/-- A launch ends at the order gate (R438). -/
def State.orderMismatch (s : State) (c : Coll) : State :=
  ((s.colFault c 0x5009).breakComm (s.colArea c)).colFinish c 0x32

/-- Held launches of partition p whose order lies below next_order end at once (R438). -/
def State.orderSweep (s : State) (p : Nat) : State :=
  each (s.col.colls.filter (fun c => !c.started && decide (c.part = p) && decide (clOrder c.raw < s.rd (Reg.COL_ORDER.next_order p)))) s
    (fun c t => (t.delColl c).orderMismatch c)

/-- A collective engine accepts a launch: under Copperplate the order gate comes first (R438). -/
def State.colAccept (s : State) (die : Nat) (cmd : EngCmd) : State :=
  let c := s.newColl die cmd
  if !c.copper then s.colCheck c
  else
    let next := s.rd (Reg.COL_ORDER.next_order c.part)
    let o := clOrder c.raw
    if o = next then ((s.wr (Reg.COL_ORDER.next_order c.part) (next + 1)).colCheck c).orderSweep c.part
    else if o < next then s.orderMismatch c
    else { s with col := { s.col with colls := s.col.colls ++ [c] } }

/-- R438: a held Copperplate launch of partition p whose order has come starts and is checked. -/
def execOrderGateStart (p : Nat) (s : State) : Host.Outcome State Fault Refusal :=
  let next := s.rd (Reg.COL_ORDER.next_order p)
  match s.col.colls.find? (fun c => !c.started && decide (c.part = p) && decide (clOrder c.raw = next)) with
  | none => .next s
  | some c => .next ((((s.delColl c).wr (Reg.COL_ORDER.next_order p) (next + 1)).colCheck c).orderSweep p)

/-- The collective bound C in cycles (R439). -/
def State.colBound (s : State) : Nat := msCycles (s.rd Reg.COL_CFG.bound_ms_m1 + 1)

/-- R438: the oldest held launch of partition p has not started within C. -/
def execOrderMismatch (p : Nat) (s : State) : Host.Outcome State Fault Refusal :=
  match s.col.colls.find? (fun c => !c.started && decide (c.part = p)) with
  | none => .next s
  | some c =>
    let s := s.advance (c.since + s.colBound)
    .next ((((s.delColl c).wr (Reg.COL_ORDER.next_order p) (clOrder c.raw + 1)).orderMismatch c).orderSweep p)

/-! ### Packets (R435, R443) -/

/-- A COLL packet of a kind arrives for a collective of this package: lifetime, domain; then its effect. A packet of a collective that
has ended is acknowledged and dropped. -/
def colIn (kind : Nat) (p : Packet) (s : State) (body : State → Nat → Coll → Nat → State) : State :=
  if p.type ≠ 0x0A ∨ p.dst ≠ s.devId ∨ p.kind ≠ kind then s
  else if tooOld p then s.inc Reg.FAB_STAT.lifetime_drops 1
  else
    match s.domainPart p.domain with
    | none => s.refuse p 0x82
    | some q =>
      let st := s.partState q
      if st = 0 ∨ st = 4 ∨ st = 5 then s.refuse p 0x82
      else
        match s.coll q p.seq with
        | none => s.ack p 0
        | some c =>
          match c.rankOf p.src with
          | none => s.refuse p 0x82
          | some r => body s q { c with heard := NMap.put 0 c.heard r s.time.cnt } r

/-- The check value of a data packet (R435): a mismatch discards it and asks for it once more; a second ends the collective. -/
def State.colChecked (s : State) (p : Packet) (c : Coll) (r : Nat) (ok : State → State) : State :=
  if crc32c p.payload = p.check then ok (s.setColl c)
  else if c.asked.contains (p.src, p.kind, p.addr) then ((s.setColl c).colFault c 0x500B).colFail c 0x34 true
  else
    let c := { c with asked := c.asked ++ [(p.src, p.kind, p.addr)], retried := true }
    ((s.setColl c).inc (Reg.COL_STAT.retries c.die) 1).sendCol c r 6 0 (leBytes (setBits (setBits 0 0 8 p.kind) 64 48 p.addr) 64)

/-- R428: a READY arrives; before its launch it is kept, up to 4 from a peer on a communicator. -/
def execReady (p : Packet) (s : State) : Host.Outcome State Fault Refusal :=
  if p.type = 0x0A ∧ p.dst = s.devId ∧ p.kind = 0 ∧ tooOld p = false ∧
      (match s.domainPart p.domain with | some q => decide (s.partState q = 1 ∨ s.partState q = 2 ∨ s.partState q = 3) && (s.coll q p.seq).isNone | none => false) = true then
    let n := (s.col.early.filter (fun e => decide (e.src = p.src) && decide (e.domain = p.domain) && decide (e.seq / 4096 = p.seq / 4096))).length
    .next (if 4 ≤ n then s.ack p 0 else ({ s with col := { s.col with early := s.col.early ++ [p] } }).ack p 0)
  else .next (colIn 0 p s (fun s _ c r => (s.ack p 0).colTakeReady c r (leNat (p.payload.take 64))))

/-- Half h of chunk k of the contribution of rank r enters the sum (R429, R431); an adder whose residue check fails once is retried, one
that fails again ends the collective (R436). -/
def State.dataChunk (s : State) (q : Nat) (c : Coll) (p : Packet) (r k h upset : Nat) : State :=
  if 2 ≤ upset then
    let s := (((s.colFault c 0x500C).countedFault 6 c.die).inc (Reg.COL_STAT.retries c.die) 1).ack p 0
    s.colFail { c with retried := true } 0x34 true
  else
    let s := if upset = 1 then s.inc (Reg.COL_STAT.retries c.die) 1 else s
    let w := if c.exact then 8 else 4
    let n := min 1024 (c.chunkLen c.rank k * w - 1024 * h)
    let x := s.colEnter { c with retried := c.retried || decide (upset = 1), owed := c.owed ++ [p], chunks := c.chunks + b2n (h == 0) } k r h (p.payload.take n) p.poison
    (x.1.setColl x.2).colKick q c.key

/-- R429, R431, R436: a contribution chunk lands in its slot. `upset`: how often the adder's residue check fails on it. -/
def execData (p : Packet) (upset : Nat) (s : State) : Host.Outcome State Fault Refusal :=
  .next (colIn 1 p s (fun s q c r =>
    s.colChecked p c r (fun s =>
      let t := c.target
      let slots := c.slotsOf t
      let slot := (List.range slots).find? (fun i => decide (c.slotAddr t i ≤ p.addr) && decide (p.addr < c.slotAddr t i + c.slotBytes))
      match slot with
      | none => s.refuse p 0x82
      | some i =>
        let h := (p.addr - c.slotAddr t i) / 1024
        match ((List.range (chunksOf (c.shard c.rank).2)).filter (fun k => decide (k % slots = i))).find? (fun k => !NMap.get false c.got (k * 8192 + 2 * r + h)) with
        | none => s.ack p 0
        | some k =>
          if !s.permit q p.addr p.payload.length || (decide (c.mode ≠ 1) && decide (c.mode ≠ 2)) then s.refuse p 0x82
          else s.dataChunk q c p r k h upset)))

/-- A block or final chunk lands at p.addr in dst (R428, R429). -/
def State.colInto (s : State) (q : Nat) (c : Coll) (p : Packet) (ok : Nat → Bool) : State :=
  match c.pieces.find? (fun e => ok e.1 && decide ((c.pieceAt e.1 e.2).1 = p.addr)) with
  | none => s.refuse p 0x82
  | some (r, k) =>
    let n := (c.pieceAt r k).2
    if !s.permit q p.addr n then s.refuse p 0x82
    else if c.has r k then s.ack p 0
    else
      let x := (s.ack p 0).colLand c r k ((p.payload ++ List.replicate n 0).take n) p.poison
      (x.1.setColl x.2).colKick q c.key

/-- R428: a gather, broadcast or exchange block lands in dst. -/
def execPut (p : Packet) (s : State) : Host.Outcome State Fault Refusal :=
  .next (colIn 2 p s (fun s q c r => s.colChecked p c r (fun s => if clReduces c.raw then s.refuse p 0x82 else s.colInto q c p (fun x => decide (x = r)))))

/-- R432: a contributor's phase-1 records arrive at the owner. -/
def execExp1 (p : Packet) (s : State) : Host.Outcome State Fault Refusal :=
  .next (colIn 3 p s (fun s q c r => s.colChecked p c r (fun s =>
    let n := p.payload.length / 4
    let l := wordsOf 4 n p.payload
    let m := ((List.range n).zip l).foldl (fun (t : NMap Nat) e => NMap.ins t (pieceKey r (p.addr / 4 + e.1)) e.2) c.expIn
    ((s.ack p 0).setColl { c with expIn := m }).colKick q c.key)))

/-- R432: combined records return to a contributor, which then sends its quantised data. -/
def execExpr (p : Packet) (s : State) : Host.Outcome State Fault Refusal :=
  .next (colIn 4 p s (fun s q c r => s.colChecked p c r (fun s =>
    let n := p.payload.length / 4
    let l := wordsOf 4 n p.payload
    let m := ((List.range n).zip l).foldl (fun (t : NMap Nat) e => NMap.ins t (pieceKey r (p.addr / 4 + e.1)) e.2) c.expAll
    ((s.ack p 0).setColl { c with expAll := m }).colKick q c.key)))

/-- R429: a reduced chunk lands in dst. -/
def execFinal (p : Packet) (s : State) : Host.Outcome State Fault Refusal :=
  .next (colIn 5 p s (fun s q c r => s.colChecked p c r (fun s => if clReduces c.raw then s.colInto q c p (fun x => decide (x = r)) else s.refuse p 0x82)))

/-- R435: a RESEND: the packet it names is sent once more. -/
def execResend (p : Packet) (s : State) : Host.Outcome State Fault Refusal :=
  .next (colIn 6 p s (fun s _ c r =>
    let l := leNat (p.payload.take 64)
    let s := ((s.ack p 0).setColl { c with retried := true }).inc (Reg.COL_STAT.retries c.die) 1
    match s.fab.out.find? (fun o => decide (o.type = 0x0A) && decide (o.seq = p.seq) && decide (o.dev = c.members.getD r 0 % 65536) &&
        decide (o.line = bits l 0 8) && decide (o.ga % 281474976710656 = bits l 64 48)) with
    | some o => s.send o.packet
    | none => s))

/-- R439: an ABORT ends the collective with the carried status. -/
def execAbort (p : Packet) (s : State) : Host.Outcome State Fault Refusal :=
  .next (colIn 7 p s (fun s _ c _ => (s.ack p 0).colFail c (lnStatus (leNat (p.payload.take 64))) false))

/-- R439: no READY, data, EXPR or acknowledgement of a collective has come from rank r for C. -/
def execPeerTimeout (q key r : Nat) (s : State) : Host.Outcome State Fault Refusal :=
  match s.coll q key with
  | none => .next s
  | some c =>
    if r = c.rank ∨ c.size ≤ r then .next s
    else
      let s := s.advance (NMap.get c.since c.heard r + s.colBound)
      .next ((s.colFault c 0x500A).colFail c 0x33 true)

/-- R430: half a lease has passed: the engine renews its reservation. -/
def execLeaseRenewal (q key : Nat) (s : State) : Host.Outcome State Fault Refusal :=
  match s.coll q key with
  | none => .next s
  | some c =>
    if c.mode ≠ 1 then .next s
    else
      let s := s.advance c.renewAt
      let line := setBits (setBits (setBits 0 0 32 c.key) 32 7 c.granules.length) 40 8 (s.rd Reg.COL_CFG.lease_ms_m1)
      let s := s.send { s.request 7 q (s.devId * 281474976710656 + 0x20000000000 + c.die * 0x1000000) with payload := leBytes line 64 }
      .next (s.setColl { c with renewAt := s.time.cnt + msCycles (s.rd Reg.COL_CFG.lease_ms_m1 + 1) / 2 })

/-- A reservation reply (R430): granules, or a refusal, after which the shard runs in endpoint mode. -/
def State.colReserved (s : State) (q key : Nat) (mask : Nat) : State :=
  match s.coll q key with
  | none => s
  | some c =>
    if c.mode ≠ 0 then s
    else
      let gs := (List.range 128).filter (bit mask)
      if gs.isEmpty then
        let c := { c with mode := 2, denied := true, fallback := true }
        (((s.inc (Reg.COL_STAT.reservoir_denials c.die) 1).inc (Reg.COL_STAT.fallbacks c.die) 1).setColl c).colReady c
      else (s.setColl { c with mode := 1, granules := gs }).colReady { c with mode := 1, granules := gs }

/-- An acknowledgement of a COLL packet (R443): the credit of R429; a refused packet ends the collective (R442). -/
def State.colAcked (s : State) (q : Nat) (a : Packet) : State :=
  let mine := fun (o : RemOp) => decide (o.type = 0x0A) && decide (o.dev = a.src) && decide (o.seq = a.seq) && decide (o.line = a.kind) &&
    decide (o.ga % 281474976710656 = a.addr) && decide (o.part = q)
  match s.fab.out.find? mine with
  | none => s
  | some o =>
    let s := { s with fab := { s.fab with out := s.fab.out.filter (fun x => decide (x ≠ o)) } }
    let s := if a.var = 0 then s else s.inc (Reg.PART_VAR_EVENTS.events q) a.var
    match s.coll q a.seq with
    | none => s
    | some c =>
      match c.rankOf a.src with
      | none => s
      | some r =>
        let c := { c with heard := NMap.put 0 c.heard r s.time.cnt }
        if a.status = 0 then (s.setColl c).colKick q c.key
        else s.colFail c 0x36 true

/-! ### COLL, IKC and QLC (R196) -/

def eTarget (w : Word) : Nat := wf w 52 4
def eSem (w : Word) : Option Nat := if bit w.toNat 29 then some (wf w 30 14) else none

/-- Hand a 64-byte command to an engine: `here` whether the engine is there, `room` whether it can accept, `node` its tile, `give` what
it does with it; `mark` whether the command allows the variance mark. Behind a failed mesh link it is dropped (R30). -/
def engineRun (here room : State → Nat → Bool) (node : Nat → Nat) (mark : State → Bank → Nat → Bool) (give : State → Nat → EngCmd → State)
    (x : Issue) (w : Word) (t : State) (k : Nat) (b : Bank) : CRes :=
  let core := keyCore k
  let a := b.aR (wf w 48 4)
  let r := b.aR (wf w 44 4)
  let sem := eSem w
  if !here t (eTarget w) then .fault 0x3017 0 0
  else if a % 64 ≠ 0 ∨ r % 32 ≠ 0 then .fault 0x3012 0 (if a % 64 ≠ 0 then a else r)
  else if (match sem with | some q => !t.semOwned q b.part | none => false) = true then .fault 0x3016 0 0
  else
    let c1 := t.storeCheck x.tile x.core b.part true [(a, 64)]
    let c2 := t.storeCheck x.tile x.core b.part false [(r, 32)]
    if c1 ≠ 0 then .fault c1 0 a
    else if c2 ≠ 0 then .fault c2 0 r
    else if t.storeWait core [(a, 64), (r, 32)] || !room t (eTarget w) then .wait
    else
      let raw := Mem.rdN t.core.store (storeKey core a) 64
      if wVar w && !mark t b raw then .fault 0x3010 0 0
      else if (t.meshCut x.tile (node (eTarget w))).isSome then .ok (t.meshRecord x.tile (node (eTarget w)) 1) [] 0
      else .ok (give t (eTarget w) { raw := raw, part := b.part, ctx := b.ctx, tag := b.d.tag, core := core, res := r, sem := sem }) [] 0

/-- Issue of an engine command with opcode `op` (R196). -/
def engineIssue (op limit : Nat) (body : Issue → Word → State → Nat → Bank → CRes) (x : Issue) (w : Word) (s : State) :
    Host.Outcome State Fault Refusal :=
  coreIssue x w op false (wf w 0 29 == 0 && decide (eTarget w < limit)) [.a (wf w 48 4), .a (wf w 44 4)] s (body x w)
    (lines := fun _ b => [(b.aR (wf w 48 4), 64), (b.aR (wf w 44 4), 32)])

/-- A COLL, an IKC and a QLC run. A Quill's queue holds 64 (R271). -/
def bodyColl (x : Issue) (w : Word) (t : State) (k : Nat) (b : Bank) : CRes :=
  engineRun (fun t d => t.tilePresent d && !t.colFenced d) (fun _ _ => true) (fun d => d)
    (fun t b c => !NMap.get false t.part.copper b.part && clReduces c && (clFmt c == 8 || clFmt c == 0xA) && decide (clRop c < 3))
    (fun t d c => t.colAccept d c) x w t k b
def bodyIkc (x : Issue) (w : Word) (t : State) (k : Nat) (b : Bank) : CRes :=
  engineRun (fun t n => t.tilePresent n) (fun _ _ => true) (fun n => n) (fun _ _ _ => false)
    (fun t n c => { t with srv := { t.srv with ink := NMap.put [] t.srv.ink n (t.inkQueue n ++ [c]) } }) x w t k b
def bodyQlc (x : Issue) (w : Word) (t : State) (k : Nat) (b : Bank) : CRes :=
  engineRun (fun t j => t.quillPresent j && !t.quillFenced j) (fun t j => decide ((t.quillQueue j).length < 64)) (fun j => 4 + j)
    (fun _ _ _ => false) (fun t j c => t.setQuillQueue j (t.quillQueue j ++ [c])) x w t k b

/-- COLL: launches a collective on the engine of base die `target`. -/
def execColl (x : Issue) (w : Word) (s : State) : Host.Outcome State Fault Refusal := engineIssue 0x78 10 bodyColl x w s
/-- IKC: a command to the Inkwell controller of a compute tile. -/
def execIkc (x : Issue) (w : Word) (s : State) : Host.Outcome State Fault Refusal := engineIssue 0x79 8 bodyIkc x w s
/-- QLC: a command to a Quill. -/
def execQlc (x : Issue) (w : Word) (s : State) : Host.Outcome State Fault Refusal := engineIssue 0x7A 4 bodyQlc x w s

end Sys2Proof.Machine
end

