-- ==== Sys2Proof/Machine/ScribeBase.lean ====
section
/-! DEFINITION. The Scribe: memories, registers, pointers and patterns, moves, issue, faults, and its transfers' data
(R300 to R307, R315, R316). -/

namespace Sys2Proof.Machine

/-! ### Memories (R300) -/

/-- The byte of Scribe k's X (y = 0) or Y memory; y = 2 keys the parity of its program memory. -/
def xyKey (k y a : Nat) : Nat := k * 1048576 + y * 262144 + a

def State.xyBytes (s : State) (k y a n : Nat) : List Nat := Mem.bytes s.rad.xy (xyKey k y a) n
def State.xyBad (s : State) (k y a n : Nat) : Bool :=
  s.rad.bad.any (fun e => decide (xyKey k y a ≤ e.1) && decide (e.1 < xyKey k y a + n) && e.2)
/-- Write bytes; they carry good parity. -/
def State.xyWrite (s : State) (k y a : Nat) (l : List Nat) : State :=
  { s with rad := { s.rad with xy := Mem.wrBytes s.rad.xy (xyKey k y a) l,
                               bad := NMap.clearRange s.rad.bad (xyKey k y a) (xyKey k y a + l.length) } }
/-- Bytes arrive with a parity error (R218). -/
def State.xyPoison (s : State) (k y a n : Nat) : State :=
  { s with rad := { s.rad with bad := upto n s.rad.bad (fun i m => NMap.put false m (xyKey k y a + i) true) } }

def State.scribe (s : State) (k : Nat) : Option Scribe := NMap.find s.rad.scribes k
def State.setScribe (s : State) (k : Nat) (c : Scribe) : State := { s with rad := { s.rad with scribes := NMap.ins s.rad.scribes k c } }
def State.delScribe (s : State) (k : Nat) : State := { s with rad := { s.rad with scribes := NMap.del s.rad.scribes k } }

/-- Is Scribe k owned by partition p (R303)? -/
def State.scribeOwned (s : State) (k p : Nat) : Bool :=
  decide (k < 128) && s.on (Reg.RAD_SCRIBE_OWN.valid k) && decide (s.rd (Reg.RAD_SCRIBE_OWN.partition k) = p)

/-- Does partition p own cell c on radio tile t (R304)? -/
def State.cellOf (s : State) (c p t : Nat) : Bool := s.cellOn c t && decide (s.rd (Reg.RAD_CELL_CFG.partition c) = p)

/-! ### Registers (R301) -/

def vecParts (v : Nat) : List Int := (List.range 64).map (fun j => sInt (bits v (16 * j) 16) 16)
def accParts (v : Nat) : List Int := (List.range 64).map (fun j => sInt (bits v (40 * j) 40) 40)
def packParts (w : Nat) (l : List Int) : Nat := fromLanes w (l.map (fun i => ofInt i w))

def Scribe.vec (c : Scribe) (i : Nat) : List Int := vecParts (NMap.get 0 c.r i)
def Scribe.ac (c : Scribe) (i : Nat) : List Int := accParts (NMap.get 0 c.acc i)
def Scribe.ak (c : Scribe) (k : Nat) : Nat := NMap.get 0 c.a k
def Scribe.pm (c : Scribe) (k : Nat) : Nat := NMap.get 0 c.m k
def Scribe.nk (c : Scribe) (k : Nat) : Nat := NMap.get 0 c.n k
def Scribe.ni (c : Scribe) (k : Nat) : Int := sInt (c.nk k) 18
def Scribe.shift (c : Scribe) : Nat := c.sr % 32
def Scribe.ovf (c : Scribe) : Bool := bit c.sr 5
def Scribe.setOvf (c : Scribe) : Scribe := { c with sr := Nat.lor c.sr 32 }
def Scribe.setLim (c : Scribe) : Scribe := { c with sr := Nat.lor c.sr 64 }

/-- Write an accumulator: each part saturates to 40 bits (R302). -/
def Scribe.setAcc (c : Scribe) (i : Nat) (l : List Int) : Scribe :=
  let q := l.map (fun v => clampInt v 40)
  let c := { c with acc := NMap.put 0 c.acc i (packParts 40 (q.map (fun e => e.1))) }
  if q.any (fun e => e.2) then c.setOvf else c

def Scribe.setVec (c : Scribe) (i v : Nat) : Scribe := { c with r := NMap.put 0 c.r i v }

/-! ### Patterns (R301) -/

def patKind (m : Nat) : Nat := bits m 16 2
def ringLen (m : Nat) : Nat := 128 * (bits m 0 16 + 1)
/-- Is the pattern invalid: kind 3, or a ring longer than the memory? -/
def patBad (m : Nat) : Bool := patKind m == 3 || (patKind m == 1 && decide (262144 < ringLen m))

/-- Address `a` under the pattern of pointer k: a ring takes it as its origin + ((a − origin) mod R). -/
def Scribe.place (c : Scribe) (k : Nat) (a : Int) : Nat :=
  let o : Int := (NMap.get 0 c.org k : Nat)
  if patKind (c.pm k) = 1 then ((o + (a - o) % ((ringLen (c.pm k) : Nat) : Int)) % 262144).toNat else (a % 262144).toNat

/-- Latch the origin of pointer k and clear its step count, under kinds 1 and 2. -/
def Scribe.latch (c : Scribe) (k : Nat) : Scribe :=
  if patKind (c.pm k) = 1 ∨ patKind (c.pm k) = 2 then { c with org := NMap.put 0 c.org k (c.ak k), cnt := NMap.put 0 c.cnt k 0 } else c

/-- Write pointer k by an instruction. -/
def Scribe.setA (c : Scribe) (k v : Nat) : Scribe := ({ c with a := NMap.put 0 c.a k (v % 262144) }).latch k
def Scribe.setM (c : Scribe) (k v : Nat) : Scribe := ({ c with m := NMap.put 0 c.m k (v % 262144) }).latch k
def Scribe.setN (c : Scribe) (k v : Nat) : Scribe := { c with n := NMap.put 0 c.n k (v % 262144) }

/-- Pointer k moves by an amount, under its pattern. -/
def Scribe.bump (c : Scribe) (k : Nat) (d : Int) : Scribe := { c with a := NMap.put 0 c.a k (c.place k ((c.ak k : Int) + d)) }

/-- A forward step of pointer k: in a tile walk the W-th step goes to the next row, by n = `n`. -/
def Scribe.forward (c : Scribe) (k : Nat) (n : Int) (step : Nat) : Scribe :=
  if patKind (c.pm k) = 2 then
    let j := NMap.get 0 c.cnt k + 1
    if j = bits (c.pm k) 8 8 + 1 then
      let a := (((NMap.get 0 c.org k : Nat) : Int) + n) % 262144
      { c with a := NMap.put 0 c.a k a.toNat, org := NMap.put 0 c.org k a.toNat, cnt := NMap.put 0 c.cnt k 0 }
    else ({ c with cnt := NMap.put 0 c.cnt k j }).bump k step
  else c.bump k step

/-! ### Moves (R306) -/

def mvKind (f : Nat) : Nat := bits f 18 2
def mvK (f : Nat) : Nat := bits f 15 3
def mvUpd (f : Nat) : Nat := bits f 12 3
def mvReg (f : Nat) : Nat := bits f 9 3
def mvRaw (f : Nat) : Bool := bit f 8

/-- Addresses of the n bytes that start at address a of pointer k; a ring wraps. -/
def Scribe.span (c : Scribe) (k : Nat) (a : Int) (n : Nat) : List Nat := (List.range n).map (fun (i : Nat) => c.place k (a + (i : Int)))

/-- Does an access of n bytes at a run past the memory's end (R306)? A ring never does. -/
def Scribe.past (c : Scribe) (k : Nat) (a n : Nat) : Bool := patKind (c.pm k) != 1 && decide (262144 < a + n)

def mvBytes (f : Nat) : Nat := if mvKind f = 3 then 4 else 128

/-- The address of a move. -/
def Scribe.mvAddr (c : Scribe) (f : Nat) : Nat :=
  let k := mvK f
  if mvUpd f = 4 ∨ mvUpd f = 5 then c.place k ((c.ak k : Int) + c.ni k) else c.place k (c.ak k)

/-- The pointer after a move; `c0` has the registers that the instruction read (R307). -/
def Scribe.mvUpdate (c0 : Scribe) (f : Nat) (c : Scribe) : Scribe :=
  let k := mvK f
  match mvUpd f with
  | 1 => c.forward k (c0.ni k) (mvBytes f)
  | 2 => c.bump k (c0.ni k)
  | 3 => c.bump k (-(c0.ni k))
  | 5 => c.bump k (c0.ni k)
  | 6 => c.bump k (-(mvBytes f : Int))
  | _ => c

/-- A Scribe instruction's end: done, or a fault code. -/
inductive ScRes where
  | ok (s : State) (c : Scribe)
  /-- The PC after the instruction is given (a jump, a loop that is skipped). -/
  | jump (s : State) (c : Scribe) (pc : Nat)
  | fault (code : Nat)
  | wait
  /-- The Stroke exits once its transfers are done. -/
  | exit (c : Scribe)

/-- The fault of a move field, 0 for none. `y`: the Y field. -/
def State.mvFault (s : State) (k y : Nat) (c : Scribe) (f : Nat) : Nat :=
  if bits f 0 8 ≠ 0 then 0x3020
  else if mvKind f = 0 then 0
  else if mvUpd f = 7 ∨ patBad (c.pm (mvK f)) = true ∨ (mvKind f ≠ 2 ∧ 4 ≤ mvReg f) then 0x3020
  else
    let a := c.mvAddr f
    let n := mvBytes f
    if a % 4 ≠ 0 then 0x3020
    else if c.past (mvK f) a n then 0x3021
    else if mvKind f ≠ 2 ∧ ((c.span (mvK f) a n).any (fun b => s.xyBad k y b 1)) = true then 0x3022
    else 0

/-- Two move fields that update one pointer (R306). -/
def mvClash (x y : Nat) : Bool :=
  let upd := fun f => mvKind f != 0 && mvUpd f != 0 && mvUpd f != 4
  upd x && upd y && mvK x == mvK y

/-- A stored vector: an accumulator under sr.shift or raw, saturating to 16 bits; or an input register (R302, R306). -/
def Scribe.storeVec (c : Scribe) (y f : Nat) : List Int × Bool :=
  if mvReg f < 4 then
    let q := (c.ac (mvReg f)).map (fun v => clampInt (rshiftRne v (if mvRaw f then 0 else c.shift)) 16)
    (q.map (fun e => e.1), q.any (fun e => e.2))
  else (c.vec (4 * y + mvReg f - 4), false)

/-- Perform the memory side of a store move with the old registers `c0`; the write of the Scribe. -/
def State.mvStore (s : State) (k y : Nat) (c0 : Scribe) (f : Nat) : State :=
  if mvKind f ≠ 2 then s
  else
    let a := c0.span (mvK f) (c0.mvAddr f) 128
    let b := leBytes (packParts 16 (c0.storeVec y f).1) 128
    each (a.zip b) s (fun e t => t.xyWrite k y e.1 [e.2])

/-- The register side of a move: loads and the pointer. -/
def State.mvLoad (s : State) (k y : Nat) (c0 : Scribe) (f : Nat) (c : Scribe) : Scribe :=
  if mvKind f = 0 then c
  else
    let a := c0.mvAddr f
    let rd := fun n => leNat ((c0.span (mvK f) a n).map (fun b => Mem.rd s.rad.xy (xyKey k y b)))
    let c := match mvKind f with
      | 1 => c.setVec (4 * y + mvReg f) (rd 128)
      | 3 => c.setVec (4 * y + mvReg f) (fromLanes 32 (List.replicate 32 (rd 4)))
      | _ => if (c0.storeVec y f).2 then c.setLim else c
    c0.mvUpdate f c

/-! ### Ending a Stroke -/

/-- Free the Blotter space of a transfer's packet. -/
def State.xferDrop (s : State) (k : Nat) (x : Xfer) : State :=
  let s := match x.pkt with | some p => s.subFill p.port p.space | none => s
  if bits x.raw 0 4 = 1 ∧ !x.rewound then s.inc (Reg.EQS_Q_STAT.rewinds (4096 * (k / 64) + bits x.raw 96 12)) 1 else s

/-- The bytes that a transfer moves, in pieces of at most 64 bytes: where to, and a write of each (R315). `k` is the Scribe. A piece whose
device local range has ceased to be permitted does not move (R209, R210); behind a failed mesh link a read is the error value and a
write is dropped (R30). -/
def xferPieces (k : Nat) (x : Xfer) : List (State → State) :=
  let r := x.raw
  let y := bits r 4 1
  let loc := bits r 16 18
  let len := bits r 64 32
  let rem := bits r 96 48
  let node := 8 + k / 64
  let cut := fun (n : Nat) => (List.range (cdiv n 64)).map (fun i => (64 * i, min 64 (n - 64 * i)))
  match bits r 0 4 with
  | 0 =>
    (match x.pkt with
     | none => []
     | some p =>
       let d := leBytes (rxHeader p) 16 ++ p.body
       (cut d.length).map (fun e => fun t => t.xyWrite k y (loc + e.1) ((d.drop e.1).take e.2)))
  | 2 =>
    (cut len).map (fun e => fun t =>
      if !t.permit x.part (rem + e.1) e.2 then t
      else
        let lost := t.meshLost node (rem + e.1)
        let t1 := (t.xyWrite k y (loc + e.1) (t.ldVia node (rem + e.1) e.2)).countPoison (rem + e.1) (if lost then 0 else e.2)
        if !lost && t.rangeBad (rem + e.1) e.2 then t1.xyPoison k y (loc + e.1) e.2 else t1)
  | 3 =>
    (cut len).map (fun e => fun t =>
      if !t.permit x.part (rem + e.1) e.2 || t.meshLost node (rem + e.1) then t
      else
        let t1 := t.stBytes (rem + e.1) (t.xyBytes k y (loc + e.1) e.2)
        if t.xyBad k y (loc + e.1) e.2 then t1.setLineBad (rem + e.1) true else t1)
  | 5 =>
    let peer := 64 * (k / 64) + bits r 8 6
    let pa := bits r 34 18
    (cut len).map (fun e => fun t =>
      let t1 := t.xyWrite peer y (pa + e.1) (t.xyBytes k y (loc + e.1) e.2)
      if t.xyBad k y (loc + e.1) e.2 then t1.xyPoison peer y (pa + e.1) e.2 else t1)
  | 6 =>
    let core := 16 * bits r 96 4 + bits r 100 4
    (List.range (bits r 144 16)).flatMap (fun row =>
      (cut len).map (fun e => fun t =>
        if (t.meshCut node (bits r 96 4)).isSome then t else
        let a := loc + row * bits r 160 16 + e.1
        let d := bits r 104 22 + row * bits r 176 16 + e.1
        let t1 := t.csWrite core d (t.xyBytes k y a e.2)
        if t.xyBad k y a e.2 then t1.csPoison core d e.2 else t1))
  | _ => []

/-- Transfers of an ended Stroke are abandoned: what each had written is not defined (R64, R554), so each piece is free. -/
def State.xferAbandon (s : State) (k : Nat) (x : Xfer) : State :=
  let l := xferPieces k x
  let s1 := each ((List.range l.length).zip l) (s.took l.length)
    (fun e t => if bit (Config.freeNat (s.free + e.1)) 0 then e.2 t else t)
  s1.xferDrop k x

/-- The Stroke of Scribe k ends by a fault (R331) or a halt: its transfers are abandoned, its wait withdrawn. -/
def State.clearScribe (s : State) (k : Nat) : State :=
  match s.scribe k with
  | none => s
  | some c =>
    let s := match c.hold with | .semw q => s.semWithdraw q (.scribe k) | _ => s
    (each c.xfers s (fun x t => t.xferAbandon k x)).delScribe k

/-- A fault that ends the Stroke on Scribe k. -/
def State.scribeFault (s : State) (k code : Nat) : State :=
  match s.scribe k with
  | none => s
  | some c =>
    let n := 8 + k / 64
    let s := s.fault { code := code, part := c.d.part, die := n, unit := k % 64, tag := c.d.tag, arg0 := c.d.cell, arg1 := 8 * c.pc }
    let s := match s.slotAt n c.slot with
      | some sl => (s.meterRun n sl).setPhase n c.slot .spent
      | none => s
    let s := (s.clearScribe k).markLost c.d.cell
    if code = 0x3022 then s.countedFault 3 k else s

/-- EXIT completes (R304). -/
def State.exitScribe (s : State) (k : Nat) : State :=
  match s.scribe k with
  | none => s
  | some c =>
    let n := 8 + k / 64
    let s := s.postOf c.d
    let s := match s.slotAt n c.slot with
      | some sl => ((s.meterRun n sl).setPhase n c.slot .spent).rec_ (fun r => { r with slack := min r.slack (sl.closes - s.time.cnt) })
      | none => s
    s.delScribe k

/-- What an XWAIT or EXIT waits for has come. -/
def State.settleScribe (s : State) (k : Nat) : State :=
  match s.scribe k with
  | none => s
  | some c =>
    match c.hold with
    | .xwait n => if c.xfers.length ≤ n then s.setScribe k { c with hold := .free } else s
    | .exit => if c.xfers.isEmpty then s.exitScribe k else s
    | _ => s

/-! ### Issue (R305, R307, R314) -/

/-- The instruction word at the PC of Scribe k. -/
def State.scWord (s : State) (k pc : Nat) : Nat := Mem.rdN s.rad.prog (k * 131072 + pc * 8) 8

/-- Assigned opcodes of a Scribe. -/
def scAssigned (op : Nat) : Bool := decide (op ≤ 0x1E) || (decide (0x30 ≤ op) && decide (op ≤ 0x3B)) || decide (op = 0x3F)

/-- After the instruction at pc: the loops that end there go round or are left (R314). -/
def loopNext (pc : Nat) : List (Nat × Nat × Nat) → List (Nat × Nat × Nat) × Nat
  | [] => ([], pc + 1)
  | (n, st, e) :: r => if e = pc then (if 1 < n then ((n - 1, st, e) :: r, st) else loopNext pc r) else ((n, st, e) :: r, pc + 1)

/-- Issue one instruction on Scribe k: the one at its PC, where its opcode is `op` (SCRIBE_NOP also issues unassigned opcodes).
`upset`: a parity error in a register, or in the program memory as the word is read. Past the issue-stop cycle nothing issues (R63). -/
def scribeIssue (k op : Nat) (upset : Bool) (s : State) (body : Scribe → Nat → ScRes) : Host.Outcome State Fault Refusal :=
  match s.scribe k with
  | none => .next s
  | some c =>
    if 128 ≤ k ∨ c.hold ≠ .free ∨ s.issueOpen (8 + k / 64) (some c.slot) = false then .next s
    else if 16384 ≤ c.pc then .next (s.scribeFault k 0x3021)
    else
      let w := s.scWord k c.pc
      let o := bits w 58 6
      if o ≠ op ∧ !(op = 0 ∧ scAssigned o = false) then .next s
      else if upset || s.xyBad k 2 (8 * c.pc) 8 then .next (s.scribeFault k 0x3022)
      else if scAssigned o = false then .next (s.scribeFault k 0x3020)
      else
        match body c w with
        | .fault f => .next (s.scribeFault k f)
        | .wait => .next s
        | .ok t c => let l := loopNext c.pc c.loops; .next (t.setScribe k { c with loops := l.1, pc := l.2 })
        | .jump t c pc => .next (t.setScribe k { c with pc := pc })
        | .exit c => .next ((s.setScribe k { c with hold := .exit }).settleScribe k)

end Sys2Proof.Machine
end

