-- ==== Sys2Proof/Machine/ScribeAlu.lean ====
section
/-! DEFINITION. The data ALU instructions of a Scribe (R308 to R313). -/

namespace Sys2Proof.Machine

/-! ### Operand fields (R305) -/

def uD (w : Nat) : Nat := bits w 56 2
def uS1 (w : Nat) : Nat := bits w 53 3
def uS2 (w : Nat) : Nat := bits w 50 3
def uCj (w : Nat) : Bool := bit w 49
def uImm (w : Nat) : Nat := bits w 40 8
def uX (w : Nat) : Nat := bits w 20 20
def uY (w : Nat) : Nat := bits w 0 20

/-- Lane i of a vector or accumulator: real and imaginary parts. -/
def laneC (l : List Int) (i : Nat) : Int × Int := (l.getD (2 * i) 0, l.getD (2 * i + 1) 0)
/-- Lanes from a function. -/
def lanesC (f : Nat → Int × Int) : List Int := (List.range 32).flatMap (fun i => [(f i).1, (f i).2])
/-- The conjugate, where asked. -/
def cjC (b : Bool) (x : Int × Int) : Int × Int := if b then (x.1, -x.2) else x
/-- The exact complex product. -/
def mulC (x y : Int × Int) : Int × Int := (x.1 * y.1 - x.2 * y.2, x.1 * y.2 + x.2 * y.1)
def addL (a b : List Int) : List Int := (a.zip b).map (fun e => e.1 + e.2)
def subL (a b : List Int) : List Int := (a.zip b).map (fun e => e.1 - e.2)
/-- Parts placed as p × 2^15 (R302). -/
def q15 (l : List Int) : List Int := l.map (fun p => p * 32768)

/-- s1 × s2' lane by lane. -/
def Scribe.prod (c : Scribe) (w : Nat) : List Int :=
  let a := c.vec (uS1 w)
  let b := c.vec (uS2 w)
  lanesC (fun i => mulC (laneC a i) (cjC (uCj w) (laneC b i)))

/-- One ALU instruction: its moves are checked and performed beside `alu`, which gives the accumulators and other registers it
writes from the old ones. `noX`, `noY`: the row forbids that move. `bad`: its fields are invalid. -/
def aluIssue (k op : Nat) (upset : Bool) (noX noY : Bool) (s : State) (bad : Scribe → Nat → Bool) (alu : Scribe → Nat → Scribe → Scribe) :
    Host.Outcome State Fault Refusal :=
  scribeIssue k op upset s (fun c w =>
    let x := uX w
    let y := uY w
    let fx := s.mvFault k 0 c x
    let fy := s.mvFault k 1 c y
    if bit w 48 || bad c w || (noX && mvKind x != 0) || (noY && mvKind y != 0) || mvClash x y then .fault 0x3020
    else if fx = 0x3020 ∨ fy = 0x3020 then .fault 0x3020
    else if fx ≠ 0 then .fault fx
    else if fy ≠ 0 then .fault fy
    else
      let t := (s.mvStore k 0 c x).mvStore k 1 c y
      .ok t (s.mvLoad k 1 c y (s.mvLoad k 0 c x (alu c w c))))

/-- An instruction that writes accumulator d only. -/
def aluAcc (k op : Nat) (upset : Bool) (s : State) (f : Scribe → Nat → List Int) : Host.Outcome State Fault Refusal :=
  aluIssue k op upset false false s (fun _ _ => false) (fun c0 w c => c.setAcc (uD w) (f c0 w))

/-! ### R308 -/

/-- NOP: moves only. A word with an unassigned opcode is issued here, and is illegal. -/
def execScribeNop (k : Nat) (upset : Bool) (s : State) : Host.Outcome State Fault Refusal :=
  aluIssue k 0x00 upset false false s (fun _ _ => false) (fun _ _ c => c)
def execClr (k : Nat) (upset : Bool) (s : State) : Host.Outcome State Fault Refusal :=
  aluAcc k 0x01 upset s (fun _ _ => List.replicate 64 0)
def execMov (k : Nat) (upset : Bool) (s : State) : Host.Outcome State Fault Refusal :=
  aluAcc k 0x02 upset s (fun c w => q15 (c.vec (uS1 w)))
def execMpy (k : Nat) (upset : Bool) (s : State) : Host.Outcome State Fault Refusal :=
  aluAcc k 0x03 upset s (fun c w => c.prod w)
def execMac (k : Nat) (upset : Bool) (s : State) : Host.Outcome State Fault Refusal :=
  aluAcc k 0x04 upset s (fun c w => addL (c.ac (uD w)) (c.prod w))
def execMsu (k : Nat) (upset : Bool) (s : State) : Host.Outcome State Fault Refusal :=
  aluAcc k 0x05 upset s (fun c w => subL (c.ac (uD w)) (c.prod w))
/-- Lane imm[4:0] of s2' meets every lane of s1. -/
def execMacl (k : Nat) (upset : Bool) (s : State) : Host.Outcome State Fault Refusal :=
  aluAcc k 0x06 upset s (fun c w =>
    let a := c.vec (uS1 w)
    let b := cjC (uCj w) (laneC (c.vec (uS2 w)) (uImm w % 32))
    addL (c.ac (uD w)) (lanesC (fun i => mulC (laneC a i) b)))

/-- re² + im² of each lane in the real part. -/
def magL (a : List Int) : List Int := lanesC (fun i => ((laneC a i).1 * (laneC a i).1 + (laneC a i).2 * (laneC a i).2, 0))
def execMag (k : Nat) (upset : Bool) (s : State) : Host.Outcome State Fault Refusal :=
  aluAcc k 0x07 upset s (fun c w => magL (c.vec (uS1 w)))
def execMaga (k : Nat) (upset : Bool) (s : State) : Host.Outcome State Fault Refusal :=
  aluAcc k 0x08 upset s (fun c w => addL (c.ac (uD w)) (magL (c.vec (uS1 w))))
def execAddr (k : Nat) (upset : Bool) (s : State) : Host.Outcome State Fault Refusal :=
  aluAcc k 0x09 upset s (fun c w => addL (c.ac (uD w)) (q15 (c.vec (uS1 w))))
def execSubr (k : Nat) (upset : Bool) (s : State) : Host.Outcome State Fault Refusal :=
  aluAcc k 0x0A upset s (fun c w => subL (c.ac (uD w)) (q15 (c.vec (uS1 w))))
def execAcca (k : Nat) (upset : Bool) (s : State) : Host.Outcome State Fault Refusal :=
  aluAcc k 0x0B upset s (fun c w => addL (c.ac (uD w)) (c.ac (uImm w % 4)))

/-- v × 2^n: a right shift rounds to nearest, ties to even (R309); saturation is the accumulator's. -/
def shiftPart (n v : Int) : Int := if 0 ≤ n then v * ((2 ^ n.toNat : Nat) : Int) else rshiftRne v (-n).toNat

def execAsh (k : Nat) (upset : Bool) (s : State) : Host.Outcome State Fault Refusal :=
  aluAcc k 0x0C upset s (fun c w => (c.ac (uD w)).map (shiftPart (sInt (uImm w % 64) 6)))
def execNeg (k : Nat) (upset : Bool) (s : State) : Host.Outcome State Fault Refusal :=
  aluAcc k 0x0D upset s (fun c w => (c.ac (uD w)).map (fun v => -v))

/-- Real elementwise product of s1 and s2. -/
def Scribe.rprod (c : Scribe) (w : Nat) : List Int := ((c.vec (uS1 w)).zip (c.vec (uS2 w))).map (fun e => e.1 * e.2)
def execRmpy (k : Nat) (upset : Bool) (s : State) : Host.Outcome State Fault Refusal := aluAcc k 0x0E upset s (fun c w => c.rprod w)
def execRmac (k : Nat) (upset : Bool) (s : State) : Host.Outcome State Fault Refusal :=
  aluAcc k 0x0F upset s (fun c w => addL (c.ac (uD w)) (c.rprod w))
def execMaxa (k : Nat) (upset : Bool) (s : State) : Host.Outcome State Fault Refusal :=
  aluAcc k 0x1D upset s (fun c w => ((c.ac (uD w)).zip (q15 (c.vec (uS1 w)))).map (fun e => max e.1 e.2))
def execMina (k : Nat) (upset : Bool) (s : State) : Host.Outcome State Fault Refusal :=
  aluAcc k 0x1E upset s (fun c w => ((c.ac (uD w)).zip (q15 (c.vec (uS1 w)))).map (fun e => min e.1 e.2))

/-! ### R309 -/

/-- The smallest signed width that holds v. -/
def signedWidth (v : Int) : Nat := bitLen (if 0 ≤ v then v.toNat else (-v - 1).toNat) + 1
/-- Headroom of a w-bit part. -/
def headroom (w : Nat) (v : Int) : Nat := w - signedWidth v

/-- The least headroom of parts of width w. -/
def minHead (w : Nat) (l : List Int) : Nat := l.foldl (fun a v => min a (headroom w v)) (w - 1)

def execBexp (k : Nat) (upset : Bool) (s : State) : Host.Outcome State Fault Refusal :=
  aluIssue k 0x10 upset false false s (fun _ _ => false)
    (fun c0 w c => c.setN (uImm w % 8) (if bit (uImm w) 3 then minHead 16 (c0.vec (uS1 w)) else minHead 40 (c0.ac (uD w))))
def execNorm (k : Nat) (upset : Bool) (s : State) : Host.Outcome State Fault Refusal :=
  aluAcc k 0x11 upset s (fun c w => (c.ac (uD w)).map (shiftPart (c.ni (uImm w % 8))))
def execExpx (k : Nat) (upset : Bool) (s : State) : Host.Outcome State Fault Refusal :=
  aluAcc k 0x12 upset s (fun c w => (c.ac (uImm w % 4)).map (fun v => ((headroom 40 v : Nat) : Int)))
def execNormp (k : Nat) (upset : Bool) (s : State) : Host.Outcome State Fault Refusal :=
  aluAcc k 0x13 upset s (fun c w => (c.ac (uImm w % 4)).map (fun v => v * ((2 ^ headroom 40 v : Nat) : Int)))

/-! ### R310 -/

def execBf2 (k : Nat) (upset : Bool) (s : State) : Host.Outcome State Fault Refusal :=
  aluIssue k 0x14 upset false false s (fun _ _ => false) (fun c0 w c =>
    let a := q15 (c0.vec (uS1 w))
    let t := c0.ac (uD w)
    (c.setAcc (uD w) (addL a t)).setAcc (Nat.xor (uD w) 1) (subL a t))

/-- X_k of BF3: Σ x_j × w^(jk), w = (−16,384, −28,378) in Q15. -/
def bf3 (x0 x1 x2 : List Int) (k : Nat) : List Int :=
  let tw := fun (e : Nat) => if e % 3 = 0 then ((32768 : Int), (0 : Int)) else if e % 3 = 1 then (-16384, -28378) else (-16384, 28378)
  lanesC (fun i =>
    let y := [(x0, 0), (x1, 1), (x2, 2)].map (fun (e : List Int × Nat) => mulC (laneC e.1 i) (tw (e.2 * k)))
    (y.foldl (fun a z => a + z.1) 0, y.foldl (fun a z => a + z.2) 0))
def execBf3 (k : Nat) (upset : Bool) (s : State) : Host.Outcome State Fault Refusal :=
  aluIssue k 0x15 upset false false s (fun _ w => !(uS1 w == 0 || uS1 w == 1 || uS1 w == 4 || uS1 w == 5)) (fun c0 w c =>
    let x := fun i => c0.vec (uS1 w + i)
    upto 3 c (fun j c => c.setAcc j (bf3 (x 0) (x 1) (x 2) j)))

/-- X_k of BF4: Σ x_j × (−i)^(jk) × 2^15. -/
def bf4 (x : Nat → List Int) (k : Nat) : List Int :=
  let rot := fun (e : Nat) (z : Int × Int) => match e % 4 with | 0 => z | 1 => (z.2, -z.1) | 2 => (-z.1, -z.2) | _ => (-z.2, z.1)
  lanesC (fun i =>
    let y := (List.range 4).map (fun j => rot (j * k) (laneC (x j) i))
    (32768 * y.foldl (fun a z => a + z.1) 0, 32768 * y.foldl (fun a z => a + z.2) 0))
def execBf4 (k : Nat) (upset : Bool) (s : State) : Host.Outcome State Fault Refusal :=
  aluIssue k 0x16 upset false false s (fun _ w => !(uS1 w == 0 || uS1 w == 4)) (fun c0 w c =>
    upto 4 c (fun j c => c.setAcc j (bf4 (fun i => c0.vec (uS1 w + i)) j)))

def bitrev5 (i : Nat) : Nat := b2n (bit i 4) + 2 * b2n (bit i 3) + 4 * b2n (bit i 2) + 8 * b2n (bit i 1) + 16 * b2n (bit i 0)

/-- Lane i of a SHUF: from s1 (false) or s2 (true), and which lane. -/
def shufLane (imm i : Nat) : Bool × Nat :=
  match imm % 8 with
  | 0 => (false, bitrev5 i)
  | 1 => (i % 2 == 1, i / 2)
  | 2 => (i % 2 == 1, 16 + i / 2)
  | 3 => (decide (16 ≤ i), 2 * (i % 16))
  | 4 => (decide (16 ≤ i), 2 * (i % 16) + 1)
  | _ => (false, (i + imm / 8) % 32)
def execShuf (k : Nat) (upset : Bool) (s : State) : Host.Outcome State Fault Refusal :=
  aluIssue k 0x17 upset false false s (fun _ w => decide (6 ≤ uImm w % 8)) (fun c0 w c =>
    let a := c0.vec (uS1 w)
    let b := c0.vec (uS2 w)
    c.setAcc (uD w) (q15 (lanesC (fun i => let e := shufLane (uImm w) i; laneC (if e.1 then b else a) e.2))))

/-! ### R311 -/

/-- One step of x1 and x2 of TS 38.211 clause 5.2.1, 31 bits each, next bit lowest (PRESUMED, assumption 38). -/
def goldStep (x1 x2 : Nat) : Nat × Nat :=
  (x1 / 2 + 1073741824 * (Nat.xor (x1 / 8) x1 % 2), x2 / 2 + 1073741824 * (Nat.xor (Nat.xor (x2 / 8) (x2 / 4)) (Nat.xor (x2 / 2) x2) % 2))
/-- Skip n bits. -/
def goldSkip : Nat → Nat × Nat → Nat × Nat
  | 0, g => g
  | n + 1, g => goldSkip n (goldStep g.1 g.2)
/-- The next n bits and the state after them. -/
def goldBits : Nat → Nat × Nat → List Nat → List Nat × (Nat × Nat)
  | 0, g, l => (l.reverse, g)
  | n + 1, g, l => goldBits n (goldStep g.1 g.2) (Nat.xor g.1 g.2 % 2 :: l)

def execGold (k : Nat) (upset : Bool) (s : State) : Host.Outcome State Fault Refusal :=
  aluIssue k 0x18 upset false false s (fun _ _ => false) (fun c0 w c =>
    let g := goldBits 64 (c0.seq1, c0.seq2) []
    let v := g.1.map (fun (b : Nat) => (1 - 2 * (b : Int)) * 5793 * 32768)
    { c.setAcc (uD w) v with seq1 := g.2.1, seq2 := g.2.2 })

/-- One dimension of a constellation point of TS 38.211 clause 5.1 from its bits, first bit first: an odd integer. -/
def pamLevel : List Nat → Int
  | [] => 1
  | [b] => 1 - 2 * (b : Int)
  | b :: r => (1 - 2 * (b : Int)) * (2 ^ r.length - pamLevel r)

/-- Energy normaliser of the constellation of qm bits. -/
def qamNorm (qm : Nat) : Nat := match qm with | 1 => 2 | 2 => 2 | 4 => 10 | 6 => 42 | 8 => 170 | _ => 682

/-- round(a / √N × 2^13). The value is irrational, so no tie arises. -/
def qamCoord (qm : Nat) (a : Int) : Int :=
  let r := (((isqrt (4 * (a.natAbs * a.natAbs) * 67108864 / qamNorm qm) + 1) / 2 : Nat) : Int)
  if a < 0 then -r else r

/-- The point of a lane's bits, as MODM scales it. -/
def qamPoint (qm : Nat) (b : List Nat) : Int × Int :=
  if qm = 1 then (qamCoord 1 (pamLevel b), qamCoord 1 (pamLevel b))
  else
    let h := fun (p : Nat) => (List.range (qm / 2)).map (fun i => b.getD (2 * i + p) 0)
    (qamCoord qm (pamLevel (h 0)), qamCoord qm (pamLevel (h 1)))

/-- Bit j of a bit string: byte ⌊j / 8⌋ at bit 7 − (j mod 8) (R320). -/
def strBit (v j : Nat) : Nat := v / 2 ^ (8 * (j / 8) + (7 - j % 8)) % 2

def execModm (k : Nat) (upset : Bool) (s : State) : Host.Outcome State Fault Refusal :=
  aluIssue k 0x19 upset false false s (fun _ w => !([1, 2, 4, 6, 8, 10].contains (uImm w % 16))) (fun c0 w c =>
    let qm := uImm w % 16
    let v := NMap.get 0 c0.r (uS1 w)
    c.setAcc (uD w) (q15 (lanesC (fun l => qamPoint qm ((List.range qm).map (fun j => strBit v (qm * l + j)))))))

/-- All bit strings of length n. -/
def bitStrings : Nat → List (List Nat)
  | 0 => [[]]
  | n + 1 => (bitStrings n).flatMap (fun r => [0 :: r, 1 :: r])

/-- The least of a list of squared distances. -/
def leastOf (l : List Int) : Int := match l with | [] => 0 | a :: r => r.foldl min a

/-- LLR of bit j of a lane at (x, y) with confidence c (R311). The other dimension adds the same to both distances. -/
def demapLlr (qm j : Nat) (z : Int × Int) (c : Nat) : Int :=
  let diff :=
    if qm = 1 then
      let d := fun b => (let p := qamPoint 1 [b]; (z.1 - p.1) * (z.1 - p.1) + (z.2 - p.2) * (z.2 - p.2))
      d 1 - d 0
    else
      let x := if j % 2 = 0 then z.1 else z.2
      let d := fun b => leastOf (((bitStrings (qm / 2)).filter (fun r => decide (r.getD (j / 2) 0 = b))).map
        (fun r => (let p := qamCoord qm (pamLevel r); (x - p) * (x - p))))
      d 1 - d 0
  min 127 (max (-127) (rshiftRne ((c : Int) * diff) 30))

def execDemap (k : Nat) (upset : Bool) (s : State) : Host.Outcome State Fault Refusal :=
  scribeIssue k 0x1A upset s (fun c w =>
    let qm := uImm w % 16
    let p := uImm w / 16 % 8
    let x := uX w
    let fx := s.mvFault k 0 c x
    let a := c.place p (c.ak p)
    if bit w 48 || mvKind (uY w) != 0 || bits (uY w) 0 8 != 0 || !([1, 2, 4, 6, 8].contains qm) || patBad (c.pm p) ||
        (mvKind x != 0 && mvUpd x != 0 && mvUpd x != 4 && mvK x == p) then .fault 0x3020
    else if fx ≠ 0 then .fault fx
    else if c.past p a (32 * qm) then .fault 0x3021
    else
      let v := c.vec (uS1 w)
      let u := NMap.get 0 c.r (uS2 w)
      let out := (List.range 32).flatMap (fun l => (List.range qm).map (fun j => ofInt (demapLlr qm j (laneC v l) (bits u (32 * l) 16)) 8))
      let t := each ((c.span p a (32 * qm)).zip out) (s.mvStore k 0 c x) (fun e t => t.xyWrite k 1 e.1 [e.2])
      .ok t ((s.mvLoad k 0 c x c).bump p (32 * qm : Nat)))

/-! ### R312, R313 -/

/-- Bits [from, from + n) of a byte list, most significant bit of each byte first, as a number. -/
def msbBits (l : List Nat) (start n : Nat) : Nat :=
  (List.range n).foldl (fun a i => 2 * a + l.getD ((start + i) / 8) 0 / 2 ^ (7 - (start + i) % 8) % 2) 0

/-- The bytes of fields of w bits each, most significant bit first. -/
def msbPack (w : Nat) (l : List Nat) : List Nat :=
  let v := l.foldl (fun a x => a * 2 ^ w + x % 2 ^ w) 0
  let n := l.length * w
  (leBytes (v * 2 ^ (8 * cdiv n 8 - n)) (cdiv n 8)).reverse

/-- Expand one PRB: its 24 parts × 2^e. -/
def bfpExpand (w : Nat) (raw : Bool) (b : List Nat) : List Int :=
  let e := if raw then 0 else b.getD 0 0 % 16
  let d := if raw then b else b.drop 1
  (List.range 24).map (fun i => sInt (msbBits d (i * w) w) w * ((2 ^ e : Nat) : Int))

/-- Compress one PRB of 24 parts (R313). -/
def bfpCompress (w : Nat) (raw : Bool) (l : List Int) : List Nat :=
  if raw then msbPack 16 (l.map (fun v => ofInt v 16))
  else
    let h := minHead 16 l
    let e0 := 16 - h - w
    let fits := fun (e : Nat) => l.all (fun v => !(clampInt (rshiftRne v e) w).2)
    let e := min 15 (if fits e0 then e0 else e0 + 1)
    e :: msbPack w (l.map (fun v => ofInt (clampInt (rshiftRne v e) w).1 w))

def bfpBytes (imm : Nat) : Nat := if bit imm 4 then 48 else 3 * (imm % 16 + 1) + 1

def execBfpx (k : Nat) (upset : Bool) (s : State) : Host.Outcome State Fault Refusal :=
  scribeIssue k 0x1B upset s (fun c w =>
    let imm := uImm w
    let p := imm / 32
    let n := bfpBytes imm
    let y := uY w
    let fy := s.mvFault k 1 c y
    let a := c.place p (c.ak p)
    let sp := c.span p a (2 * n)
    if bit w 48 || mvKind (uX w) != 0 || bits (uX w) 0 8 != 0 || patBad (c.pm p) ||
        (mvKind y != 0 && mvUpd y != 0 && mvUpd y != 4 && mvK y == p) then .fault 0x3020
    else if fy ≠ 0 then .fault fy
    else if c.past p a (2 * n) then .fault 0x3021
    else if sp.any (fun b => s.xyBad k 0 b 1) then .fault 0x3022
    else
      let b := sp.map (fun i => Mem.rd s.rad.xy (xyKey k 0 i))
      let wd := if bit imm 4 then 16 else imm % 16 + 1
      let parts := bfpExpand wd (bit imm 4) (b.take n) ++ bfpExpand wd (bit imm 4) (b.drop n) ++ List.replicate 16 0
      .ok (s.mvStore k 1 c y) ((s.mvLoad k 1 c y (c.setAcc (uD w) (q15 parts))).bump p (2 * n : Nat)))

def execBfpc (k : Nat) (upset : Bool) (s : State) : Host.Outcome State Fault Refusal :=
  scribeIssue k 0x1C upset s (fun c w =>
    let imm := uImm w
    let p := imm / 32
    let n := bfpBytes imm
    let x := uX w
    let fx := s.mvFault k 0 c x
    let a := c.place p (c.ak p)
    if bit w 48 || mvKind (uY w) != 0 || bits (uY w) 0 8 != 0 || patBad (c.pm p) then .fault 0x3020
    else if fx ≠ 0 then .fault fx
    else if c.past p a (2 * n) then .fault 0x3021
    else
      let v := c.vec (uS1 w)
      let wd := imm % 16 + 1
      let out := bfpCompress wd (bit imm 4) (v.take 24) ++ bfpCompress wd (bit imm 4) ((v.drop 24).take 24)
      let t := each ((c.span p a (2 * n)).zip out) (s.mvStore k 0 c x) (fun e t => t.xyWrite k 1 e.1 [e.2])
      .ok t (s.mvLoad k 0 c x c))

end Sys2Proof.Machine
end

