-- ==== Sys2Proof/Machine/ScribeCtl.lean ====
section
/-! DEFINITION. The control instructions of a Scribe (R314) and its transfers (R315, R316, R326 to R329). -/

namespace Sys2Proof.Machine

/-- Bits of a control word outside opcode and `mask` are zero (R305). -/
def ctlOk (w mask : Nat) : Bool := Nat.land (w % 2 ^ 58) (2 ^ 58 - 1 - mask) == 0

/-! ### Loops, jumps, registers -/

def execLoop (k : Nat) (upset : Bool) (s : State) : Host.Outcome State Fault Refusal :=
  scribeIssue k 0x30 upset s (fun c w =>
    let n := if bit w 57 then c.nk (bits w 53 3) else bits w 37 16
    let e := bits w 0 14
    if !ctlOk w (msk 57 1 + msk 53 3 + msk 37 16 + msk 0 14) then .fault 0x3020
    else if n = 0 then (let l := loopNext e c.loops; .jump s { c with loops := l.1 } l.2)
    else if 4 ≤ c.loops.length then .fault 0x3020
    else .jump s { c with loops := (n, c.pc + 1, e) :: c.loops } (c.pc + 1))

def execScribeJmp (k : Nat) (upset : Bool) (s : State) : Host.Outcome State Fault Refusal :=
  scribeIssue k 0x31 upset s (fun c w =>
    let n := c.ni (bits w 52 3)
    let t := bits w 0 14
    let cond := bits w 55 3
    let go := match cond with
      | 0 => true | 1 => decide (n = 0) | 2 => decide (n ≠ 0) | 3 => decide (n < 0) | 4 => decide (0 ≤ n) | _ => c.ovf
    if 6 ≤ cond ∨ ctlOk w (msk 55 3 + msk 52 3 + msk 0 14) = false then .fault 0x3020
    else if go then .jump s { c with loops := c.loops.filter (fun l => decide (l.2.1 ≤ t) && decide (t ≤ l.2.2)) } t
    else .ok s c)

def execAga (k : Nat) (upset : Bool) (s : State) : Host.Outcome State Fault Refusal :=
  scribeIssue k 0x32 upset s (fun c w =>
    let p := bits w 55 3
    let imm := sInt (bits w 0 18) 18
    if !ctlOk w (msk 55 3 + msk 52 3 + msk 51 1 + msk 50 1 + msk 0 18) then .fault 0x3020
    else if bit w 50 then .ok s (c.setN p (ofInt (c.ni p + imm) 18))
    else if patBad (c.pm p) then .fault 0x3020
    else .ok s (c.bump p (if bit w 51 then imm else c.ni (bits w 52 3))))

/-- Write register `i` of a class: 0 a, 1 m, 2 n, 3 sr. -/
def Scribe.setReg (c : Scribe) (cls i v : Nat) : Scribe :=
  match cls with
  | 0 => c.setA i v
  | 1 => c.setM i v
  | 2 => c.setN i v
  | _ => { c with sr := v % 128 }
def Scribe.getReg (c : Scribe) (cls i : Nat) : Nat :=
  match cls with
  | 0 => c.ak i
  | 1 => c.pm i
  | 2 => c.nk i
  | _ => c.sr

def execMovi (k : Nat) (upset : Bool) (s : State) : Host.Outcome State Fault Refusal :=
  scribeIssue k 0x33 upset s (fun c w =>
    if !ctlOk w (msk 56 2 + msk 53 3 + msk 0 18) then .fault 0x3020 else .ok s (c.setReg (bits w 56 2) (bits w 53 3) (bits w 0 18)))

def execMovr (k : Nat) (upset : Bool) (s : State) : Host.Outcome State Fault Refusal :=
  scribeIssue k 0x34 upset s (fun c w =>
    if !ctlOk w (msk 48 10) then .fault 0x3020
    else .ok s (c.setReg (bits w 56 2) (bits w 53 3) (c.getReg (bits w 51 2) (bits w 48 3))))

/-- The X element at pointer j: its value, or a fault. -/
def State.xElem (s : State) (k : Nat) (c : Scribe) (j : Nat) : Nat × Nat :=
  let a := c.place j (c.ak j)
  let sp := c.span j a 4
  if patBad (c.pm j) || decide (a % 4 ≠ 0) then (0, 0x3020)
  else if c.past j a 4 then (0, 0x3021)
  else if sp.any (fun b => s.xyBad k 0 b 1) then (0, 0x3022)
  else (leNat (sp.map (fun b => Mem.rd s.rad.xy (xyKey k 0 b))), 0)

def execMovl (k : Nat) (upset : Bool) (s : State) : Host.Outcome State Fault Refusal :=
  scribeIssue k 0x35 upset s (fun c w =>
    let e := s.xElem k c (bits w 50 3)
    if !ctlOk w (msk 50 8) then .fault 0x3020
    else if e.2 ≠ 0 then .fault e.2
    else .ok s (c.setReg (bits w 56 2) (bits w 53 3) (e.1 % 262144)))

def execSeqi (k : Nat) (upset : Bool) (s : State) : Host.Outcome State Fault Refusal :=
  scribeIssue k 0x36 upset s (fun c w =>
    let e := s.xElem k c (bits w 55 3)
    let g := goldSkip 1600 (1, e.1 % 2147483648)
    if !ctlOk w (msk 55 3) then .fault 0x3020
    else if e.2 ≠ 0 then .fault e.2
    else .ok s { c with seq1 := g.1, seq2 := g.2 })

def execSeqs (k : Nat) (upset : Bool) (s : State) : Host.Outcome State Fault Refusal :=
  scribeIssue k 0x37 upset s (fun c w =>
    let g := goldSkip (64 * c.nk (bits w 55 3)) (c.seq1, c.seq2)
    if !ctlOk w (msk 55 3) then .fault 0x3020 else .ok s { c with seq1 := g.1, seq2 := g.2 })

/-! ### XFER (R315, R316) -/

/-- Packets that an XFER of kind 0 passes over, longer than it accepts, are discarded; then the packet it takes (R344). -/
def State.takePacket (s : State) (q len : Nat) : Nat → State × Option RxPkt
  | 0 => (s, none)
  | n + 1 =>
    match s.rxq q with
    | [] => (s, none)
    | p :: r =>
      let s := s.setRxq q r
      if len < 16 + p.body.length then ((s.subFill p.port p.space).inc (Reg.BLT_RXQ_STAT.rejected q) 1).takePacket q len n
      else (s, some p)

/-- The transfers of Scribes above k of its tile that took a packet of queue q in this cycle, in rising order: Scribe and place. -/
def State.laterXfers (s : State) (k q : Nat) : List (Nat × Nat) :=
  s.rad.scribes.flatMap (fun e =>
    if k < e.1 ∧ e.1 / 64 = k / 64 then
      ((List.range e.2.xfers.length).filter (fun i => match e.2.xfers[i]? with
        | some x => x.pkt.isSome && decide (4096 * (k / 64) + bits x.raw 96 16 = q) && decide (x.cnt = s.time.cnt)
        | none => false)).map (fun i => (e.1, i))
    else [])

def State.xferAt (s : State) (e : Nat × Nat) : Option Xfer := (s.scribe e.1).bind (fun c => c.xfers[e.2]?)
def State.setPkt (s : State) (e : Nat × Nat) (p : Option RxPkt) : State :=
  match s.scribe e.1 with
  | some c => s.setScribe e.1 { c with xfers := c.xfers.modify e.2 (fun x => { x with pkt := p }) }
  | none => s

/-- A transfer of Scribe k takes its packet of queue q. Transfers that started in one cycle take successive packets in ascending Scribe
index (R345), so those of higher Scribes take theirs again after it. -/
def State.xferTake (s : State) (k q len : Nat) : State × Option RxPkt :=
  let l := s.laterXfers k q
  let back := l.filterMap (fun e => (s.xferAt e).bind (fun x => x.pkt))
  let s := if l.isEmpty then s else s.setRxq q (back ++ s.rxq q)
  let tk := s.takePacket q len (s.rxq q).length
  (each l tk.1 (fun e t =>
    match t.xferAt e with
    | some x => let r := t.takePacket q (bits x.raw 64 32) (t.rxq q).length
                r.1.setPkt e r.2
    | none => t), tk.2)

/-- Is the queue's owner a cell that partition p owns on radio tile t (R316)? -/
def State.cellQueue (s : State) (kind owner p t : Nat) : Bool := decide (kind = 1) && s.cellOf owner p t

/-- Does the local side of a transfer break R315: misaligned, or past the memory? -/
def xferLocalBad (r : Nat) : Bool :=
  let loc := bits r 16 18
  let len := bits r 64 32
  let rows := bits r 144 16
  decide (loc % 4 ≠ 0) ||
    decide (262144 < loc + (if bits r 0 4 = 4 then 48 else if bits r 0 4 = 6 then (if rows = 0 then 0 else (rows - 1) * bits r 160 16 + len) else len))

/-- Do the checks of R316 refuse the transfer? One of kind 4 is not refused. -/
def State.xferBad (s : State) (k p r : Nat) : Bool :=
  let t := k / 64
  let kind := bits r 0 4
  let len := bits r 64 32
  let rem := bits r 96 48
  let q := bits r 96 16
  let rows := bits r 144 16
  decide (7 < kind) || (decide (kind ≠ 4) && xferLocalBad r) ||
    (match kind with
     | 0 => decide (4096 ≤ q) || !s.cellQueue (s.rd (Reg.BLT_RXQ_CFG.kind (4096 * t + q))) (s.rd (Reg.BLT_RXQ_CFG.owner (4096 * t + q))) p t
     | 1 => decide (4096 ≤ q) || !s.cellQueue (s.rd (Reg.EQS_Q_CFG.kind (4096 * t + q))) (s.rd (Reg.EQS_Q_CFG.owner (4096 * t + q))) p t
     | 2 => decide (rem % 64 ≠ 0) || !s.permit p rem len
     | 3 => decide (rem % 64 ≠ 0) || !s.permit p rem len
     | 5 => decide (bits r 34 18 % 4 ≠ 0) || decide (262144 < bits r 34 18 + len) || !s.scribeOwned (64 * t + bits r 8 6) p
     | 6 =>
       let n := bits r 96 4
       let core := bits r 100 4
       let d := bits r 104 22
       decide (8 ≤ n) || decide (d % 64 ≠ 0) || decide (bits r 176 16 % 64 ≠ 0) ||
         (List.range rows).any (fun i => decide (storeSize n < d + i * bits r 176 16 + len) || !s.granOwned n core p (d + i * bits r 176 16) len) ||
         !s.tilePresent n || !s.coreInService n core
     | 7 => decide (s.hqOwner (bits r 96 12) ≠ p) || (decide (len < 16) && decide (len ≠ 0))
     | _ => false)

/-- Is an export dropped (R316, R328)? The cell may lie on either radio tile. -/
def State.exportBad (s : State) (p r : Nat) : Bool :=
  let c := bits r 96 10
  xferLocalBad r || !s.on (Reg.RAD_EXP_CFG.enable c) || decide (s.rd (Reg.RAD_EXP_CFG.log2_entries c) < 4) ||
    decide (16 < s.rd (Reg.RAD_EXP_CFG.log2_entries c)) || !(s.cellOf c p 0 || s.cellOf c p 1) || (decide (bits r 106 2 ≠ 1) && decide (bits r 106 2 ≠ 2))

/-- A transfer whose descriptor r at address a is good starts (R315): an empty one is over at once, a receive transfer takes its packet,
an export that its cell refuses is dropped and recorded (R326, R329). -/
def State.xferStart (s : State) (k : Nat) (c : Scribe) (r a : Nat) (zero : Bool) : ScRes :=
  let p := c.d.part
  let x : Xfer := ⟨r, a, p, s.tickNum, none, zero, s.time.cnt⟩
  if zero then .ok s { c with xfers := c.xfers ++ [x] }
  else if bits r 0 4 = 0 then
    let q := 4096 * (k / 64) + bits r 96 16
    let tk := s.xferTake k q (bits r 64 32)
    .ok tk.1 { c with xfers := c.xfers ++ [{ x with pkt := tk.2 }] }
  else if bits r 0 4 = 4 ∧ s.exportBad p r = true then
    let cell := bits r 96 10
    .ok ((s.inc (Reg.RAD_CELL_STAT.export_drops cell) 1).fault
        { code := 0x2009, part := p, die := 8 + k / 64, unit := k % 64, tag := c.d.tag, arg0 := c.d.cell, arg1 := 8 * c.pc })
      { c with xfers := c.xfers ++ [{ x with rewound := true }] }
  else .ok s { c with xfers := c.xfers ++ [x] }

/-- XFER: start the transfer whose descriptor is at X address ak. -/
def execXfer (k : Nat) (upset : Bool) (s : State) : Host.Outcome State Fault Refusal :=
  scribeIssue k 0x38 upset s (fun c w =>
    let j := bits w 55 3
    let a := c.place j (c.ak j)
    let r := Mem.rdN s.rad.xy (xyKey k 0 a) 32
    let p := c.d.part
    let kind := bits r 0 4
    let zero := bits r 64 32 == 0 || (kind == 6 && bits r 144 16 == 0)
    if !ctlOk w (msk 55 3) then .fault 0x3020
    else if patBad (c.pm j) then .fault 0x3020
    else if a % 32 ≠ 0 then .fault 0x3024
    else if s.xyBad k 0 a 32 then .fault 0x3022
    else if 16 ≤ c.xfers.length then .wait
    else if s.xferBad k p r then .fault 0x3024
    else if kind = 6 ∧ (List.range (bits r 144 16)).any (fun i => s.rangeZeroing (16 * bits r 96 4 + bits r 100 4)
        (bits r 104 22 + i * bits r 176 16) (bits r 64 32)) = true then .wait
    else if kind = 5 ∧ s.core.zeroing.contains (3, 64 * (k / 64) + bits r 8 6) = true then .wait
    else s.xferStart k c r a zero)

/-- The key of a BF16 value in the order of the numbers; none for a NaN. -/
def bf16Key (v : Nat) : Option Int :=
  if bits v 7 8 = 255 ∧ v % 128 ≠ 0 then none else some (if bit v 15 then -((v % 32768 : Nat) : Int) else ((v % 32768 : Nat) : Int))

/-- The least of the values other than NaN, from `start` (R329). -/
def bf16Least (start : Nat) (l : List Nat) : Nat :=
  l.foldl (fun a v => match bf16Key v with
    | none => a
    | some x => (match bf16Key a with | none => v | some y => if x < y then v else a)) start

/-- A line of a ring is written by the export unit of radio tile `node` for partition p, if p may still reach it (R209); behind a failed
mesh link it is dropped (R30). -/
def State.exportLine (s : State) (node p a : Nat) (l : List Nat) (bad : Bool) : State :=
  if !s.permit p a 64 then s
  else if s.meshLost node a then s.meshRecords node [a]
  else
    let s := (s.stBytes a l).tsAccess a l.length true true
    if bad then s.setLineBad a true else s

/-- An export writes its record, then the count, which the unit keeps (R326 to R329). -/
def State.exportDone (s : State) (k : Nat) (x : Xfer) : State :=
  let r := x.raw
  let c := bits r 96 10
  let kind := bits r 106 2
  let base := s.rd (Reg.RAD_EXP_BASE.base c) * 4096
  let n := 2 ^ s.rd (Reg.RAD_EXP_CFG.log2_entries c)
  let node := 8 + k / 64
  let i := NMap.get 0 s.rad.expCount c
  let payload := s.xyBytes k (bits r 4 1) (bits r 16 18) 48
  let head := setBits (setBits (setBits (setBits (setBits 0 0 32 i) 32 32 (x.tick % 4294967296)) 64 10 c) 74 2 kind) 80 16 (bits r 112 16)
  let a := base + 64 + 64 * (i % n)
  let bad := s.xyBad k (bits r 4 1) (bits r 16 18) 48
  let s := s.exportLine node x.part a (leBytes head 16 ++ payload) bad
  let i1 := (i + 1) % 18446744073709551616
  let s := ({ s with rad := { s.rad with expCount := NMap.put 0 s.rad.expCount c i1 } }).exportLine node x.part base (leBytes i1 64) false
  if kind ≠ 2 then s
  else
    let vals := (List.range 24).map (fun j => leNat ((payload.drop (2 * j)).take 2))
    let start := if NMap.find s.rad.nfTick c = some x.tick then s.rd (Reg.RAD_CELL_NF.nf_min c) else 0x7FC0
    let s : State := { s with rad := { s.rad with nfTick := NMap.ins s.rad.nfTick c x.tick } }
    (s.wr (Reg.RAD_CELL_NF.tick_lo c) (x.tick % 65536)).wr (Reg.RAD_CELL_NF.nf_min c) (bf16Least start vals)

/-- A transport block goes to the oldest posted buffer of its host queue, or is dropped (R501); with a parity error in it the PCIe write
has its EP bit set (R219). -/
def State.blockToHost (s : State) (k : Nat) (x : Xfer) : State :=
  let r := x.raw
  let h := bits r 96 12
  let b := s.xyBytes k (bits r 4 1) (bits r 16 18) (bits r 64 32)
  let head := leNat (b.take 16)
  let data := b.drop 16
  match s.rxBuf h with
  | none => s.inc (Reg.HQ_Q_STAT.rx_dropped h) 1
  | some c =>
    if bits c.raw 128 32 < data.length then s.inc (Reg.HQ_Q_STAT.rx_dropped h) 1
    else
      let body := setBits (setBits (setBits (setBits (setBits (setBits 0 80 1 1) 96 32 data.length) 128 64 (bits head 0 64))
        192 16 (bits head 64 16)) 208 4 (bits head 80 4)) 212 12 (bits head 84 12) 
      let body := setBits body 224 32 (bits head 96 32)
      match s.hqPasid h with
      | some pasid =>
        if s.hostUp then
          let s := s.hostWr pasid (bits c.raw 64 64) data.length (leNat data)
          (if s.xyBad k (bits r 4 1) (bits r 16 18) (bits r 64 32) then s.hostMark pasid (bits c.raw 64 64) data.length else s).hComplete h c stSuccess body
        else (s.hqAccessFault h (bits c.raw 64 64)).hComplete h c stHostFailed body
      | none => (s.hqAccessFault h (bits c.raw 64 64)).hComplete h c stHostFailed body

/-- The message of an XFER of kind 1 enters its egress queue, or is refused (R351, R352). -/
def State.messageOut (s : State) (k : Nat) (x : Xfer) : State :=
  let q := 4096 * (k / 64) + bits x.raw 96 16
  let b := s.xyBytes k (bits x.raw 4 1) (bits x.raw 16 18) (bits x.raw 64 32)
  if s.xyBad k (bits x.raw 4 1) (bits x.raw 16 18) (bits x.raw 64 32) then s.inc (Reg.BLT_STAT.error_rewinds (s.egqMac q / 4)) 1
  else if s.egOversize q b.length then s.egRewind q
  else if !s.egRoom q b.length then s.inc (Reg.EQS_Q_STAT.drops q) 1
  else s.egCommit q ⟨b, none, none, none, 0⟩

/-- XFER_COMPLETE (R315): the oldest transfer of Scribe k performs its data and is complete; what waited for it goes on. -/
def execXferComplete (k : Nat) (s : State) : Host.Outcome State Fault Refusal :=
  match s.scribe k with
  | none => .next s
  | some c =>
    match c.xfers with
    | [] => .next s
    | x :: rest =>
      let kind := bits x.raw 0 4
      let s := if x.rewound then s else each (xferPieces k x) s (fun f t => f t)
      let s := if kind = 0 then
          (match x.pkt with
           | some p => (s.subFill p.port p.space).xyWrite k 0 (x.at_ + 8) (leBytes (16 + p.body.length) 4)
           | none => s.xyWrite k 0 (x.at_ + 8) (leBytes 0 4))
        else if x.rewound then s
        else if kind = 1 then s.messageOut k x
        else if kind = 2 ∨ kind = 3 then
          (s.tsAccess (bits x.raw 96 48) (bits x.raw 64 32) (kind == 3) true).meshRecords (8 + k / 64)
            ((List.range (cdiv (bits x.raw 64 32) 64)).map (fun i => bits x.raw 96 48 + 64 * i))
        else if kind = 4 then s.exportDone k x
        else if kind = 6 then s.meshRecord (8 + k / 64) (bits x.raw 96 4) (bits x.raw 144 16 * cdiv (bits x.raw 64 32) 64)
        else if kind = 7 then (if (s.meshCut (8 + k / 64) 8).isSome then s.meshRecord (8 + k / 64) 8 1 else s.blockToHost k x)
        else s
      .next ((s.setScribe k { c with xfers := rest }).settleScribe k)

/-! ### Waits and semaphores -/

def execXwait (k : Nat) (upset : Bool) (s : State) : Host.Outcome State Fault Refusal :=
  scribeIssue k 0x39 upset s (fun c w =>
    let n := bits w 53 5
    if !ctlOk w (msk 53 5) then .fault 0x3020
    else .ok s { c with hold := if n < c.xfers.length then .xwait n else .free })

def execScribeSemp (k : Nat) (upset : Bool) (s : State) : Host.Outcome State Fault Refusal :=
  scribeIssue k 0x3A upset s (fun c w =>
    let q := bits w 44 14
    if !ctlOk w (msk 28 30) then .fault 0x3020
    else if !s.semOwned q c.d.part then .fault 0x3023
    else .ok (s.semPost q (bits w 28 16)) c)

def execScribeSemw (k : Nat) (upset : Bool) (s : State) : Host.Outcome State Fault Refusal :=
  scribeIssue k 0x3B upset s (fun c w =>
    let q := bits w 44 14
    if !ctlOk w (msk 44 14) then .fault 0x3020
    else if !s.semOwned q c.d.part then .fault 0x3023
    else if s.semVal q ≠ 0 then .ok (s.semDec q) c
    else .ok (s.semRegister q (.scribe k)) { c with hold := .semw q })

def execScribeExit (k : Nat) (upset : Bool) (s : State) : Host.Outcome State Fault Refusal :=
  scribeIssue k 0x3F upset s (fun c w => if !ctlOk w 0 then .fault 0x3020 else .exit c)

end Sys2Proof.Machine
end

