-- ==== Sys2Proof/Machine/Fec.lean ====
section
/-! DEFINITION. FEC engines (R317 to R323), and the start, halt and grant of Strokes on Scribes and FEC engines (R62 to R65,
R304, R318). -/

namespace Sys2Proof.Machine

/-! ### A FEC time slice -/

def State.fec (s : State) (e : Nat) : Option Fec := NMap.find s.rad.fec e
def State.setFec (s : State) (e : Nat) (f : Fec) : State := { s with rad := { s.rad with fec := NMap.ins s.rad.fec e f } }
def State.delFec (s : State) (e : Nat) : State := { s with rad := { s.rad with fec := NMap.del s.rad.fec e } }

/-- The Scribe, address and count of a slice's command list (R318). -/
def fecScribe (d : Desc) : Nat := bits d.arg 18 6
def fecAddr (d : Desc) : Nat := bits d.arg 0 18
def fecCount (d : Desc) : Nat := bits d.arg 24 12

/-- A slice on engine e exits: post_sem, metering. -/
def State.exitFec (s : State) (e : Nat) : State :=
  match s.fec e with
  | none => s
  | some f =>
    let n := 8 + e / 4
    let s := s.postOf f.d
    let s := match s.slotAt n f.slot with
      | some sl => ((s.meterRun n sl).setPhase n f.slot .spent).rec_ (fun r => { r with slack := min r.slack (sl.closes - s.time.cnt) })
      | none => s
    s.delFec e

/-! ### Commands (R319 to R322) -/

/-- A lifting size of TS 38.212 table 5.3.2-1. -/
def liftOk (z : Nat) : Bool :=
  decide (z ≤ 384) && [2, 3, 5, 7, 9, 11, 13, 15].any (fun a => (List.range 8).any (fun j => decide (z = a * 2 ^ j)))
/-- A block size of TS 36.212 table 5.1.3-3. -/
def turboOk (k : Nat) : Bool :=
  (decide (40 ≤ k) && decide (k ≤ 512) && k % 8 == 0) || (decide (512 < k) && decide (k ≤ 1024) && k % 16 == 0) ||
    (decide (1024 < k) && decide (k ≤ 2048) && k % 32 == 0) || (decide (2048 < k) && decide (k ≤ 6144) && k % 64 == 0)
def qmOk (q : Nat) : Bool := [1, 2, 4, 6, 8, 10].contains q

/-- Are the command's fields valid? `op` is the operation its engine takes it as. -/
def fecValid (op c : Nat) : Bool :=
  let z := fun (lo n : Nat) => bits c lo n == 0
  bits c 0 4 == op && z 4 4 && z 23 1 && z 49 1 && z 75 1 && z 94 2 && z 145 15 && z 192 64 && bits c 76 18 % 8 == 0 &&
    bits c 96 48 % 64 == 0 && (op != 3 || (z 96 48 && z 144 1)) && z 356 156 &&
    (match op with
     | 1 => liftOk (bits c 257 9) && decide (3 ≤ bits c 266 6) && decide (bits c 266 6 ≤ (if bit c 256 then 41 else 45)) &&
         qmOk (bits c 274 4) && decide (bits c 338 2 < 3) && z 340 16
     | 2 => turboOk (bits c 256 13) && z 269 3 && qmOk (bits c 274 4) && z 294 14 && decide (bits c 332 4 < 8) &&
         decide (bits c 336 2 < 3) && decide (bits c 338 2 < 3) && z 340 16
     | 3 => liftOk (bits c 257 9) && decide (3 ≤ bits c 266 6) && decide (bits c 266 6 ≤ (if bit c 256 then 41 else 45)) &&
         qmOk (bits c 274 4) && z 332 4 && z 338 18
     | 4 => decide (5 ≤ bits c 256 4) && decide (bits c 256 4 ≤ 10) && z 274 34 && z 332 4 && z 338 18 &&
         decide (bits c 260 10 ≤ 2 ^ bits c 256 4)
     | _ => decide (1 ≤ bits c 256 12) && decide (bits c 256 12 ≤ 2048) && z 268 40 && z 332 4 && decide (bits c 336 2 < 2) && z 338 2)

/-- Bits of the block a decoder works on. -/
def fecBlock (op c : Nat) : Nat :=
  match op with
  | 1 => (if bit c 256 then 10 else 22) * bits c 257 9 - bits c 294 14
  | 2 => bits c 256 13
  | 3 => bits c 308 24
  | 4 => bits c 260 10
  | _ => bits c 256 12

/-- Bits of the CRC that a decoder checks (R320). -/
def fecCrcLen (op c : Nat) : Nat :=
  match op with
  | 1 => [0, 24, 24, 16].getD (bits c 336 2) 0
  | 2 => [0, 24, 24].getD (bits c 336 2) 0
  | 4 => [0, 6, 11, 24].getD (bits c 336 2) 0
  | _ => [0, 16].getD (bits c 336 2) 0
/-- The generator of that CRC, without its leading term (PRESUMED: TS 38.212 clause 5.1, TS 36.212 clause 5.1.1; log entry 75). -/
def fecCrcPoly (op c : Nat) : Nat :=
  match op with
  | 1 => [0, 0x800063, 0x864CFB, 0x1021].getD (bits c 336 2) 0
  | 2 => [0, 0x800063, 0x864CFB].getD (bits c 336 2) 0
  | _ => 0x1021

/-- The remainder of a bit string, first bit first, under a CRC of `len` bits. -/
def crcOf (poly len : Nat) (l : List Nat) : Nat :=
  l.foldl (fun r b => if (r / 2 ^ (len - 1) + b) % 2 = 1 then Nat.xor (2 * r % 2 ^ len) poly else 2 * r % 2 ^ len) 0

/-- Bits of packed bytes, most significant first (R320), and a number from bits, first bit first. -/
def unpackMsb (l : List Nat) : List Nat := l.flatMap (fun b => (List.range 8).map (fun i => bits b (7 - i) 1))
def msbNat (l : List Nat) : Nat := l.foldl (fun a b => 2 * a + b) 0

/-- The first n bits of the sequence of initialiser `i` (R311). -/
def goldSeq (i n : Nat) : List Nat := (goldBits n (goldSkip 1600 (1, i)) []).1

/-- LLR bytes descrambled (R319): that of bit j changes sign where c(j) is 1. -/
def descramble (c : Nat) (l : List Nat) : List Nat :=
  if bit c 191 then (l.zip (goldSeq (bits c 160 31) l.length)).map (fun e => if e.2 = 1 then (256 - e.1) % 256 else e.1) else l
/-- Packed output bytes scrambled: bit j is inverted where c(j) is 1. -/
def scramble (c : Nat) (l : List Nat) : List Nat :=
  if bit c 191 then
    let g := goldSeq (bits c 160 31) (8 * l.length)
    ((List.range l.length).zip l).map (fun e => Nat.xor e.2 (msbNat ((g.drop (8 * e.1)).take 8)))
  else l

/-- Does the CRC of a decoded block pass (R320)? A convolutional decode takes its CRC under the mask rnti; that of a polar block goes with the
choice of the list, which the decoder makes. -/
def fecPasses (op c : Nat) (block : List Nat) (free : Bool) : Bool :=
  let len := fecCrcLen op c
  let n := block.length - len
  if len = 0 then true
  else if op = 4 then free
  else crcOf (fecCrcPoly op c) len (block.take n) == Nat.xor (msbNat (block.drop n)) (if op = 5 then bits c 340 16 else 0)

/-- Bits written (R320): e for an encoder; for a decoder the block's information bits, with its CRC or without. -/
def fecBits (op c : Nat) : Nat :=
  if op = 3 then bits c 308 24 else fecBlock op c - (if Config.fecCut c % 2 = 0 then fecCrcLen op c else 0)
/-- Source bytes read: e LLR bytes, or the bits to encode. -/
def fecSrcLen (op c : Nat) : Nat := if op = 3 then cdiv ((if bit c 256 then 10 else 22) * bits c 257 9 - bits c 294 14) 8 else bits c 308 24
/-- Bytes of the soft buffer, none without one. -/
def fecHarqLen (op c : Nat) : Nat := if op = 3 ∨ bits c 96 48 = 0 then 0 else if op = 1 ∨ op = 2 then bits c 278 16 else bits c 308 24

/-- Cycles of a command (R321) that runs `it` iterations; the first of a slice costs more. -/
def fecCycles (op c it : Nat) (first : Bool) : Nat :=
  let e := bits c 308 24
  let harq := if bits c 96 48 ≠ 0 then cdiv (bits c 278 16) 64 else 0
  let mz := (bits c 266 6 + 1) * bits c 257 9
  (match op with
   | 1 => max (cdiv e 128) (48 + it * cdiv mz 96) + harq
   | 2 => max (cdiv e 128) (64 + it * cdiv (bits c 256 13) 64) + harq
   | 3 => max (cdiv e 1024) (18 + cdiv mz 64)
   | 4 => max (cdiv e 128) (288 + cdiv (2 ^ bits c 256 4 * (bits c 270 3 + 1)) 8)
   | _ => max (cdiv e 128) (64 + cdiv (bits c 256 12) 5)) +
  (if first then 400 + (if op ≠ 3 ∧ bits c 96 48 ≠ 0 then 600 else 0) else 0)

/-- Most iterations a command may run. -/
def fecMaxIt (op c : Nat) : Nat := match op with | 1 => bits c 332 4 + 1 | 2 => bits c 332 4 + 1 | 4 => bits c 270 3 + 1 | _ => 1

/-- Iterations run, from a free number: all of them where early termination is off; for a polar block the index chosen in its list. -/
def fecIters (op c free : Nat) : Nat :=
  match op with
  | 1 | 2 => if bits c 338 2 = 0 then fecMaxIt op c else 1 + free % fecMaxIt op c
  | 4 => free % fecMaxIt op c
  | _ => free % 32

/-- The 8-byte result (R322). -/
def fecResult (c status it n : Nat) : Nat := setBits (setBits (setBits (setBits 0 0 8 (bits c 8 8)) 8 4 status) 16 5 it) 32 24 n

/-- Count busy cycles of engine e in units of 1,024 (R330). -/
def State.fecBusy (s : State) (e n : Nat) : State :=
  let t := NMap.get 0 s.rad.fecRest e + n
  ({ s with rad := { s.rad with fecRest := NMap.put 0 s.rad.fecRest e (t % 1024) } }).inc (Reg.RAD_FEC_CNT.busy_k (e / 4) (e % 4)) (t / 1024)

/-- A record of engine e about the command at address a (R331, R472). -/
def State.fecFault (s : State) (e code : Nat) (d : Desc) (a : Nat) : State :=
  s.fault { code := code, part := d.part, die := 8 + e / 4, unit := 64 + e % 4, tag := d.tag, arg0 := d.cell, arg1 := a }

/-- Run the next command of the slice on engine e = 4·tile + engine, as operation `op`: its data, its result, then the next
command or the end of the slice. `upset`: a parity error in the engine. -/
def State.fecRun (s : State) (e op : Nat) (f : Fec) (upset : Bool) : State :=
  let d := f.d
  let t := e / 4
  let p := d.part
  let la := fecAddr d + 64 * f.next
  let lk := 64 * t + fecScribe d
  let c := Mem.rdN s.rad.xy (xyKey lk 1 la) 64
  let src := 64 * t + bits c 16 6
  let dst := 64 * t + bits c 42 6
  let res := 64 * t + bits c 68 6
  let own := fun (k a n : Nat) => s.scribeOwned k p && decide (a + n ≤ 262144)
  let resOk := own res (bits c 76 18) 8
  let e0 := bits c 308 24 == 0
  let hl := fecHarqLen op c
  let sl := fecSrcLen op c
  let out := cdiv (fecBits op c) 8
  let allowed := own src (bits c 24 18) sl && own dst (bits c 50 18) out && resOk && s.permit p (bits c 96 48) hl
  let bad := upset || s.xyBad lk 1 la 64 || s.xyBad src (bits c 22 1) (bits c 24 18) sl || (bit c 144 && s.rangeBad (bits c 96 48) hl)
  let node := 8 + t
  let sb := s.xyBytes src (bits c 22 1) (bits c 24 18) sl
  let sv := leNat (if op = 3 then sb else descramble c sb)
  let hv := if bit c 144 then leNat (s.ldVia node (bits c 96 48) hl) else 0
  let dec := Config.fecData c sv hv
  let blockBits := (unpackMsb (leBytes dec (cdiv (fecBlock op c) 8))).take (fecBlock op c)
  let pass := op == 3 || fecPasses op c blockBits (Config.fecPass c sv hv)
  let it := fecIters op c (Config.fecIter c sv hv)
  let put := fun (x : State) (status i n : Nat) =>
    if resOk then x.xyWrite res (bits c 74 1) (bits c 76 18) (leBytes (fecResult c status i n) 8) else x
  let s1 :=
    if !s.xyBad lk 1 la 64 && !fecValid op c then put (s.fecFault e 0x5006 d la) 2 0 0
    else if !s.xyBad lk 1 la 64 && !allowed then put s 3 0 0
    else if bad then put (((s.fecFault e 0x5007 d la).countedFault 4 e).countPoison (bits c 96 48) (if bit c 144 then hl else 0)) 4 0 0
    else if e0 then put s 0 0 0
    else
      let n := fecBits op c
      let x := s.xyWrite dst (bits c 48 1) (bits c 50 18) (if op = 3 then scramble c (leBytes dec out) else leBytes dec out)
      let x := if 0 < hl then
          ((x.stVia node (bits c 96 48) (leBytes (Config.fecSoft c sv hv) hl)).tsAccess (bits c 96 48) hl true true).meshRecords node
            ((List.range (cdiv hl 64)).map (fun i => bits c 96 48 + 64 * i))
        else x
      let x := if pass then x else x.inc (Reg.RAD_FEC_CNT.crc_fail t (e % 4)) 1
      (put x (if pass then 0 else 1) it n).fecBusy e (fecCycles op c it (f.next == 0))
  let s2 := s1.inc (Reg.RAD_FEC_CNT.commands t (e % 4)) 1
  if f.next + 1 < fecCount d then s2.setFec e { f with next := f.next + 1 } else (s2.setFec e { f with next := f.next + 1 }).exitFec e

/-- A FEC command row: engine `en` of radio tile t takes the next command of its slice, where that command is operation `op`, or
`first` (the engine's first row) where it is none of the engine's operations. -/
def fecRow (t en op : Nat) (ops : List Nat) (upset : Bool) (s : State) : Host.Outcome State Fault Refusal :=
  let e := 4 * t + en
  match s.fec e with
  | none => .next s
  | some f =>
    let c := Mem.rdN s.rad.xy (xyKey (64 * t + fecScribe f.d) 1 (fecAddr f.d + 64 * f.next)) 4 
    let o := c % 16
    if 2 ≤ t ∨ s.issueOpen (8 + t) (some f.slot) = false then .next s
    else if o = op ∨ (ops.contains o = false ∧ ops.head? = some op) then .next (s.fecRun e op f upset)
    else .next s

def execLdpcDec (t : Nat) (upset : Bool) (s : State) : Host.Outcome State Fault Refusal := fecRow t 0 1 [1, 2] upset s
def execTurboDec (t : Nat) (upset : Bool) (s : State) : Host.Outcome State Fault Refusal := fecRow t 0 2 [1, 2] upset s
def execLdpcEnc (t : Nat) (upset : Bool) (s : State) : Host.Outcome State Fault Refusal := fecRow t 1 3 [3] upset s
def execPolarDec (t : Nat) (upset : Bool) (s : State) : Host.Outcome State Fault Refusal := fecRow t 2 4 [4] upset s
def execConvDec (t : Nat) (upset : Bool) (s : State) : Host.Outcome State Fault Refusal := fecRow t 3 5 [5] upset s

/-! ### Strokes on radio tiles -/

/-- Registers of a Scribe as a Stroke starts (R304). -/
def freshScribe (slot : Nat) (d : Desc) (tick : Nat) : Scribe where
  slot := slot
  d := d
  pc := d.entry / 8
  r := []
  acc := []
  a := NMap.put 0 [] 0 (d.arg % 262144)
  m := []
  n := NMap.put 0 [] 7 (tick % 262144)
  sr := 15
  loops := []
  org := []
  cnt := []
  seq1 := 0
  seq2 := 0
  xfers := []
  hold := .free

/-- A RADIO Stroke that raises a fault as it starts: record, slot over, cell lost. -/
def State.radioStartFault (s : State) (n i code : Nat) (d : Desc) : State :=
  ((s.fault { code := code, part := d.part, die := n, unit := d.target, tag := d.tag, arg0 := d.cell, arg1 := d.entry }).setPhase n i .spent).markLost d.cell

/-- The Stroke in slot i of radio tile n = 8, 9 starts on its Scribe or engine (R304, R318). -/
def State.startRadio (s : State) (n i : Nat) : State :=
  match s.slotAt n i with
  | none => s
  | some sl =>
    let d := sl.d
    let t := n - 8
    let k := 64 * t + sl.target
    let s := (s.modSlot n i (fun x => { x with phase := .running, start := s.time.cnt })).rec_ (fun r => { r with started := r.started + 1 })
    if sl.target < 64 then
      if !s.scribeOwned k d.part || !s.cellOf d.cell d.part t then s.radioStartFault n i 0x3023 d
      else
        let s := s.setScribe k (freshScribe i d s.tickNum)
        if d.entry % 8 ≠ 0 ∨ 131072 ≤ d.entry then s.scribeFault k 0x3021 else s
    else
      let e := 4 * t + (sl.target - 64)
      if !s.scribeOwned (64 * t + fecScribe d) d.part || !s.cellOf d.cell d.part t then s.radioStartFault n i 0x3023 d
      else if fecAddr d % 64 ≠ 0 ∨ bits d.arg 36 12 ≠ 0 ∨ 262144 < fecAddr d + 64 * fecCount d then s.radioStartFault n i 0x3020 d
      else
        let s := s.setFec e ⟨i, d, 0⟩
        if fecCount d = 0 then s.exitFec e else s

/-- A Stroke on a radio tile tries to start: a Scribe that is being zeroed or loaded makes it wait, then its semaphore (R62,
R303). -/
def State.tryStartRadio (s : State) (n i : Nat) : State :=
  match s.slotAt n i with
  | none => s
  | some sl =>
    if sl.target < 64 ∧ s.core.zeroing.contains (3, 64 * (n - 8) + sl.target) = true then s.setPhase n i .waitCore
    else if !sl.d.waitEn then s.startRadio n i
    else if s.semVal sl.d.waitSem ≠ 0 then (s.semDec sl.d.waitSem).startRadio n i
    else (s.semRegister sl.d.waitSem (sl.waiter n)).setPhase n i .waitSem

/-- A Stroke on a radio tile reaches its budget: it is halted (R64, R323). -/
def State.haltRadio (s : State) (n i : Nat) : State :=
  match s.slotAt n i with
  | none => s
  | some sl =>
    let s := if sl.phase = .running then s.meterRun n sl else s
    let s := s.semWithdraw sl.d.waitSem (sl.waiter n)
    let s := if sl.phase ≠ .running then s
      else if sl.target < 64 then s.clearScribe (64 * (n - 8) + sl.target) else s.delFec (4 * (n - 8) + (sl.target - 64))
    let s := (s.setPhase n i .spent).markLost sl.d.cell
    let s := (s.inc Reg.TICK_CNT.halted 1).rec_ (fun r => { r with halted := r.halted + 1 })
    let s := s.fault { code := 0x3001, part := sl.d.part, die := n, unit := sl.target, tag := sl.d.tag, arg0 := sl.d.cell, arg1 := sl.d.addr }
    s.postClose sl

/-- A grant for a Stroke's wait_sem arrives on a radio tile, for the wait of the window that opened at CNT `at_`: a halted Stroke's is
dropped. -/
def State.grantRadio (s : State) (n target : Nat) (d : Desc) (at_ : Nat) : State :=
  match (List.range (s.tileProg n).length).find? (fun i =>
      match s.slotAt n i with
      | some x => decide (x.phase = .waitSem) && decide (x.waiter n = .stroke n target d at_)
      | none => false) with
  | some i => s.startRadio n i
  | none => s

/-- A grant for a Scribe's SEMW arrives; a Stroke that has ended drops it. -/
def State.grantScribe (s : State) (q k : Nat) : State :=
  match s.scribe k with
  | none => s
  | some c => if c.hold = .semw q then s.setScribe k { c with hold := .free } else s

end Sys2Proof.Machine
end

