-- ==== Sys2Proof/Machine/Matrix.lean ====
section
/-! DEFINITION. Slot 1 instructions (R86 to R118, R131, R134 to R139, R177 to R181): the Nibs and the Hairline. A matrix
instruction that starts does its whole work, unit by unit, unless its Stroke's issue-stop cycle suspends it (R110): repeat intervals and
interlocks change cycle counts only (R93, R106). -/

namespace Sys2Proof.Machine

/-! ### Units (R110, R118) -/

/-- Units i to i + n − 1 of a matrix instruction, each by `f` with the running sums that go from one to the next: a fault ends it with the
units before it kept, `stop` suspends it before that unit. -/
def unitLoop (stop : Option Nat) (f : State → Nat → List Nat → CRes × List Nat) : Nat → Nat → State → List Nat → Nat → CRes
  | 0, _, s, _, fl => .ok s [] fl
  | n + 1, i, s, sums, fl =>
    if stop = some i then .cut s i sums fl
    else
      match (f s i sums).1 with
      | .ok t _ g => unitLoop stop f n (i + 1) t (f s i sums).2 (Nat.lor fl g)
      | .fault c nib a => .trap s c nib a
      | r => r

/-- What a completed instruction does after its last unit. -/
def CRes.done (r : CRes) (f : State → State) : CRes :=
  match r with
  | .ok s wr fl => .ok (f s) wr fl
  | r => r

/-! ### Fields of format M (R177, R180) -/

def mMask (w : Word) : Nat := wf w 52 4
def mNib (w : Word) : Nat := wf w 54 2
def mBuf (w : Word) : Nat := wf w 51 1
def mAcc (w : Word) : Nat := wf w 48 3
def mZero (w : Word) : Bool := bit w.toNat 47
/-- wt_fmt of NLW, act_fmt of NMM. -/
def mFmtIn (w : Word) : Nat := wf w 43 4
/-- a_src of NLW, a_act of NMM. -/
def mSrc (w : Word) : Nat := wf w 39 4
def mStride (w : Word) : Nat := wf w 34 5
def mScale (w : Word) : Nat := wf w 30 4
/-- The anchor operand, a 10-bit two's-complement number. -/
def mAnchor (w : Word) : Int := sInt (wf w 20 10) 10

/-- The Nibs of a mask, in order. -/
def maskNibs (m : Nat) : List Nat := (List.range 4).filter (bit m)

/-- A Nib mask that names no Nib or an absent one (R178). -/
def maskBad (n m : Nat) : Bool := m == 0 || (decide (4 ≤ n) && decide (4 ≤ m))

/-! ### Classes and shapes (R88, R89) -/

/-- The class of an operand format: 0 F8, 1 F4, 2 I8, 3 BF16 of F16, 4 CX, 5 FP16 of F16; 9 none. -/
def nibClass (f : Nat) : Nat :=
  match f with
  | 6 => 1
  | 7 => 2
  | 8 => 3
  | 9 => 5
  | 0xD => 4
  | _ => if f < 6 then 0 else 9

def isMx (f : Nat) : Bool := decide (2 ≤ f) && decide (f ≤ 6)
/-- Rows and columns of a weight tile. -/
def tileK (f : Nat) : Nat := if f = 6 then 256 else if f = 0xD then 64 else 128
def tileN (f : Nat) : Nat := if f = 0xD then 64 else 128
/-- Bytes of l elements along a row in the core store. -/
def rowLen (f l : Nat) : Nat := match f with | 6 => l / 2 | 8 => 2 * l | 9 => 2 * l | 0xD => 4 * l | _ => l
/-- Bytes of an element in a weight buffer. -/
def elSize (f : Nat) : Nat := match f with | 8 => 2 | 9 => 2 | 0xD => 4 | _ => 1

/-- Element i of a row whose byte o is `rd o`. -/
def rowEl (f : Nat) (rd : Nat → Nat) (i : Nat) : Nat :=
  match f with
  | 6 => bits (rd (i / 2)) (4 * (i % 2)) 4
  | 4 => rd i % 64
  | 5 => rd i % 64
  | 8 => rd (2 * i) + 256 * rd (2 * i + 1)
  | 9 => rd (2 * i) + 256 * rd (2 * i + 1)
  | 0xD => rd (4 * i) + 256 * rd (4 * i + 1) + 65536 * rd (4 * i + 2) + 16777216 * rd (4 * i + 3)
  | _ => rd i

/-- An element as a value (R120, R122): an integer for INT8, scaled by 2^(x − 127) with a scale byte x. -/
def elVal (f pat x : Nat) : Val :=
  if f = 7 then Val.ofInt pat 8
  else
    match fmtOf f with
    | none => .nan
    | some m => if isMx f then (if x = 255 then .nan else (m.decode pat).scale ((x : Int) - 127)) else m.decode pat

/-! ### Weight buffers (R94 to R96) -/

def wbufKey (core nib buf o : Nat) : Nat := (core * 8 + 2 * nib + buf) * 1048576 + o
def wbufTag (core nib buf : Nat) : Nat := core * 8 + 2 * nib + buf
/-- The tag of a context in a weight or vector buffer. -/
def ctxTag (b : Bank) : Nat := 1 + b.part * 4096 + b.ctx

/-- Rows of a tile load's source, elements of one, its 64-byte lines. -/
def nlwRows (r : NlwRec) : Nat := if r.transposed then tileN r.wtFmt else tileK r.wtFmt
def nlwWide (r : NlwRec) : Nat := if r.transposed then tileK r.wtFmt else tileN r.wtFmt
def nlwPer (r : NlwRec) : Nat := rowLen r.wtFmt (nlwWide r) / 64
/-- 64-byte lines that a tile load reads: its elements, then its scales. -/
def nlwLines (r : NlwRec) : Nat := nlwRows r * nlwPer r + (if isMx r.wtFmt then tileK r.wtFmt / 16 else 0)

/-- The address of line j of a tile load. -/
def nlwLine (r : NlwRec) (j : Nat) : Nat :=
  if j < nlwRows r * nlwPer r then r.src + j / nlwPer r * r.stride + j % nlwPer r * 64 else r.scale + 64 * (j - nlwRows r * nlwPer r)

/-- The core-store ranges a tile load reads. -/
def nlwRanges (r : NlwRec) : List (Nat × Nat) := (List.range (nlwLines r)).map (fun j => (nlwLine r j, 64))

/-- Negate the imaginary part of a complex element; −32,768 becomes +32,767 (R95). -/
def conjEl (x : Nat) : Nat :=
  let im := x / 65536
  x % 65536 + 65536 * (if im = 0x8000 then 0x7FFF else (65536 - im) % 65536)

/-- The weight buffers after line j of a tile load: its elements K-major, one byte per F4 element, or its scales at +0x10000. -/
def State.nlwStore (s : State) (core nib buf : Nat) (r : NlwRec) (j : Nat) : Mem :=
  if j < nlwRows r * nlwPer r then
    let q := j / nlwPer r
    let n := nlwWide r / nlwPer r
    let rd := fun o => Mem.rd s.core.store (storeKey core (r.src + q * r.stride + o))
    each (List.range n) s.core.wbuf (fun i m =>
      let e := j % nlwPer r * n + i
      let at_ := if r.transposed then e * tileN r.wtFmt + q else q * tileN r.wtFmt + e
      let x := rowEl r.wtFmt rd e
      Mem.wrN m (wbufKey core nib buf (at_ * elSize r.wtFmt)) (elSize r.wtFmt) (if r.conj && r.wtFmt == 0xD then conjEl x else x))
  else Mem.wrBytes s.core.wbuf (wbufKey core nib buf (65536 + 64 * (j - nlwRows r * nlwPer r))) (s.csBytes core (nlwLine r j) 64)

/-- Line j of a tile load reaches the buffer, which until the last line is tagged as loaded by no context (assumption 70). -/
def State.loadLine (s : State) (core nib buf : Nat) (r : NlwRec) (j : Nat) : State :=
  let m1 := s.nlwStore core nib buf r j
  { s with core := { s.core with wbuf := m1, wtag := NMap.put 0 s.core.wtag (wbufTag core nib buf) 0 } }

/-- A tile load is complete: the buffer's tag, no parity error left. -/
def State.loadDone (s : State) (core nib buf tag : Nat) : State :=
  { s with core := { s.core with wtag := NMap.put 0 s.core.wtag (wbufTag core nib buf) tag, wbufBad := NMap.put false s.core.wbufBad (wbufTag core nib buf) false } }

/-- A whole tile load (R94, R96). -/
def State.loadWeightTile (s : State) (core nib buf : Nat) (r : NlwRec) (tag : Nat) : State :=
  (upto (nlwLines r) s (fun j t => t.loadLine core nib buf r j)).loadDone core nib buf tag

/-- Weight (k, n) of a buffer loaded under r. -/
def State.weight (s : State) (core nib buf : Nat) (r : NlwRec) (k n : Nat) : Nat :=
  Mem.rdN s.core.wbuf (wbufKey core nib buf ((k * tileN r.wtFmt + n) * elSize r.wtFmt)) (elSize r.wtFmt)

/-- The scale byte of weight (k, n). -/
def State.weightScale (s : State) (core nib buf k n : Nat) : Nat := Mem.rd s.core.wbuf (wbufKey core nib buf (65536 + k / 32 * 128 + n))

/-- The load that an NLW names. -/
def Bank.nlwOf (b : Bank) (w : Word) : NlwRec :=
  ⟨mFmtIn w, bit w.toNat 50, bit w.toNat 49, b.aR (mSrc w), b.sR (mStride w), b.aR (mScale w)⟩

/-- An NLW runs: line by line, its parameters recorded at the end. One that was suspended loads the whole tile again. -/
def bodyNlw (x : Issue) (w : Word) (_ : Nat) (_ : List Nat) (t : State) (k : Nat) (b : Bank) : CRes :=
  let core := keyCore k
  let r := b.nlwOf w
  match firstFault [(nibClass r.wtFmt == 9 || (r.transposed && isMx r.wtFmt), 0x301A), (decide (r.stride % 64 ≠ 0), 0x3012)] with
  | some c => .fault c (mNib w) 0
  | none =>
    if t.storeWait core (nlwRanges r) then .wait
    else
      (unitLoop (t.cutOf x b) (fun u j _ =>
        let c := u.storeCheck x.tile x.core b.part true [(nlwLine r j, 64)]
        (if c ≠ 0 then .fault c (mNib w) (nlwLine r j) else .ok (u.loadLine core (mNib w) (mBuf w) r j) [] 0, [])) (nlwLines r) 0 t [] 0).done
        (fun u => (u.loadDone core (mNib w) (mBuf w) (ctxTag b)).modBank k (fun b => { b with nlw := NMap.ins b.nlw (2 * mNib w + mBuf w) r }))

/-- NLW (R94): loads one weight tile from the core store into a weight buffer of one Nib and records its parameters. -/
def execNlw (x : Issue) (w : Word) (s : State) : Host.Outcome State Fault Refusal :=
  coreIssue x w 0x40 false
    (!wVar w && onlyBits w (msk 54 2 + msk 49 3 + msk 30 17) && decide (mNib w < nibsOf x.tile))
    [.a (mSrc w), .s (mStride w), .a (mScale w)] s (bodyNlw x w 0 []) (lines := fun _ b => nlwRanges (b.nlwOf w))

/-! ### Accumulators -/

def State.accWord (s : State) (core nib t i j : Nat) : Nat := Mem.rdN s.core.acc (accKey core nib t ((i * 128 + j) * 4)) 4
def accPut (core nib t i j v : Nat) (m : Mem) : Mem := Mem.wrN m (accKey core nib t ((i * 128 + j) * 4)) 4 v

/-- Element (i, j) of a quad as a 128-bit pattern (R98). -/
def State.quadEl (s : State) (core nib q i j : Nat) : Nat :=
  s.accWord core nib q i j + 2 ^ 32 * s.accWord core nib (q + 1) i j + 2 ^ 64 * s.accWord core nib (q + 2) i j +
    2 ^ 96 * s.accWord core nib (q + 3) i j
def quadPut (core nib q i j v : Nat) (m : Mem) : Mem :=
  upto 4 m (fun t m => accPut core nib (q + t) i j (bits v (32 * t) 32) m)

/-- Part j of row i of a pair as a 64-bit pattern (R99). -/
def State.pairEl (s : State) (core nib p i j : Nat) : Nat := s.accWord core nib p i j + 2 ^ 32 * s.accWord core nib (p + 1) i j
def pairPut (core nib p i j v : Nat) (m : Mem) : Mem :=
  upto 2 m (fun t m => accPut core nib (p + t) i j (bits v (32 * t) 32) m)

/-- The marker of R137. -/
def quadMarker : Nat := 2 ^ 127

def State.copper (s : State) (p : Nat) : Bool := NMap.get false s.part.copper p
def State.accKindOf (s : State) (tile : Nat) : Nat := NMap.get 0 s.core.accKind tile

/-- How many tiles an accumulator index names for an operand class, and what an NMM leaves in them. -/
def accSpan (copper : Bool) (cls : Nat) : Nat × Nat :=
  if cls = 4 then (2, 5)
  else if cls = 3 ∨ cls = 5 then (1, 1)
  else if copper then (4, if cls = 2 then 4 else 3)
  else (1, if cls = 2 then 2 else 1)

/-! ### NMM (R87 to R99, R103, R131, R136, R137) -/

/-- What one element's sum is made of: values of both operands and their combined scale exponent. -/
structure Prod where
  a : Val
  w : Val
  s : Int
  deriving DecidableEq, Repr

/-- The unbiased scale of an operand: 0 where it carries none. -/
def scaleExp (f x : Nat) : Int := if isMx f then (x : Int) - 127 else 0

/-- The products of activation row i and column n on a Nib. -/
def State.nmmProds (s : State) (core nib buf : Nat) (r : NlwRec) (af base stride sc i n : Nat) : List Prod :=
  let rd := fun o => Mem.rd s.core.store (storeKey core (base + i * stride + o))
  (List.range (tileK af)).map (fun k =>
    let xa := if isMx af then Mem.rd s.core.store (storeKey core (sc + 8 * i + k / 32)) else 127
    let xw := if isMx r.wtFmt then s.weightScale core nib buf k n else 127
    ⟨elVal af (rowEl af rd k) xa, elVal r.wtFmt (s.weight core nib buf r k n) xw, scaleExp af xa + scaleExp r.wtFmt xw⟩)

/-- One Cursive element (R97, R131): new pattern and flags. -/
def cursiveEl (zero : Bool) (old : Nat) (l : List Prod) : Nat × Nat :=
  let prods := l.map (fun p => p.a.mul p.w)
  let v := sumVals (if zero then prods else f32 old :: prods)
  let r := toF32Sat v
  (r.1, sumFlags (l.any (fun p => p.a.isNan || p.w.isNan) || (!zero && (f32 old).isNan)) v r.2)

/-- The exact integer sum of an I8 row and column. -/
def intSum (l : List Prod) : Int := l.foldl (fun t p => t + p.a.at 0 * p.w.at 0) 0

/-- One element of a quad in class F8 or F4 (R136, R137): new pattern and flags. -/
def quadElem (old : Nat) (anchor : Int) (l : List Prod) : Nat × Nat :=
  let nan := l.any (fun p => p.a.isNan || p.w.isNan)
  let prods := l.map (fun p => p.a.mul p.w)
  let high := if l.any (fun p => decide (anchor < p.s)) then flagAnchor else 0
  if old = quadMarker then (quadMarker, Nat.lor high (if nan then flagNanIn else 0))
  else if prods.any (fun v => v.isNan || v.isInf) then (quadMarker, Nat.lor high (if nan then flagNanIn else flagInvalid))
  else
    let t := prods.foldl (fun a v => match v with
      | .fin neg m e => (let q : Int := (roundAt .rne m e (anchor - 80) : Nat); if neg then a - q else a + q)
      | _ => a) (0 : Int)
    (ofInt ((old : Int) + t) 128, high)

/-- The complex sum of row i and column n (R103): real and imaginary part. -/
def State.cxSum (s : State) (core nib buf : Nat) (r : NlwRec) (base stride i n : Nat) : Int × Int :=
  let rd := fun o => Mem.rd s.core.store (storeKey core (base + i * stride + o))
  (List.range 64).foldl (fun t k =>
    let a := rowEl 0xD rd k
    let v := s.weight core nib buf r k n
    let ar := sInt a 16
    let ai := sInt (a / 65536) 16
    let wr := sInt v 16
    let wi := sInt (v / 65536) 16
    (t.1 + (ar * wr - ai * wi), t.2 + (ar * wi + ai * wr))) (0, 0)

/-- Row i of one Nib's part of an NMM: the accumulator memory after it, and the flags raised. -/
def State.nmmRow (s : State) (core nib buf acc cls : Nat) (r : NlwRec) (copper zero : Bool) (anchor : Int) (af base stride sc i : Nat) :
    Mem × Nat :=
  (List.range (tileN af)).foldl (fun st n =>
    if cls = 4 then
      let y := s.cxSum core nib buf r base stride i n
      let re := if zero then 0 else s.pairEl core nib acc i (2 * n)
      let im := if zero then 0 else s.pairEl core nib acc i (2 * n + 1)
      (pairPut core nib acc i (2 * n + 1) (ofInt ((im : Int) + y.2) 64) (pairPut core nib acc i (2 * n) (ofInt ((re : Int) + y.1) 64) st.1), st.2)
    else
      let l := s.nmmProds core nib buf r af base stride sc i n
      if cls = 2 then
        if copper then
          let old := if zero then 0 else s.quadEl core nib acc i n
          (quadPut core nib acc i n (if old = quadMarker then quadMarker else ofInt ((old : Int) + intSum l) 128) st.1, st.2)
        else
          let old : Int := if zero then 0 else sInt (s.accWord core nib acc i n) 32
          let v := clampInt (old + intSum l) 32
          (accPut core nib acc i n (ofInt v.1 32) st.1, if v.2 then Nat.lor st.2 flagSat else st.2)
      else if copper && decide (cls ≤ 1) then
        let v := quadElem (if zero then 0 else s.quadEl core nib acc i n) anchor l
        (quadPut core nib acc i n v.1 st.1, Nat.lor st.2 v.2)
      else
        let v := cursiveEl zero (s.accWord core nib acc i n) l
        (accPut core nib acc i n v.1 st.1, Nat.lor st.2 v.2)) (s.core.acc, 0)

/-- Zero accumulator bytes [a0, a1). -/
def State.zeroAccBytes (s : State) (a0 a1 : Nat) : State := { s with core := { s.core with acc := Mem.zero s.core.acc a0 a1 } }

/-- Clear the poison of row i of tiles [a, a + n) of a Nib. -/
def State.clearPoison (s : State) (core nib a n i : Nat) : State :=
  let m := upto n s.core.accRows (fun q m => NMap.put false m (accTile core nib (a + q) * 128 + i) false)
  { s with core := { s.core with accRows := m } }

/-- Zero row i of tiles [a, a + n) of a Nib. -/
def State.zeroRow (s : State) (core nib a n i : Nat) : State :=
  upto n s (fun q t => t.zeroAccBytes (accKey core nib (a + q) (512 * i)) (accKey core nib (a + q) (512 * i + 512)))

/-- Set the kind of tiles [a, a + n) of a Nib. -/
def State.setKind (s : State) (core nib a n v : Nat) : State :=
  let m := upto n s.core.accKind (fun i m => NMap.put 0 m (accTile core nib (a + i)) v)
  { s with core := { s.core with accKind := m } }

def State.anchorOf (s : State) (core nib q : Nat) : Int := NMap.get 0 s.core.anchor (accTile core nib q)
def State.setAnchor (s : State) (core nib q : Nat) (v : Int) : State :=
  { s with core := { s.core with anchor := NMap.put 0 s.core.anchor (accTile core nib q) v } }

/-- Reload the buffers of the mask that are tagged with another context (R96). -/
def State.reloads (s : State) (core buf : Nat) (b : Bank) (nibs : List Nat) : State :=
  each nibs s (fun nib t =>
    match NMap.find b.nlw (2 * nib + buf) with
    | some r => if NMap.get 0 t.core.wtag (wbufTag core nib buf) = ctxTag b then t else t.loadWeightTile core nib buf r (ctxTag b)
    | none => t)

/-- The recorded loads of the mask's Nibs whose buffer needs a reload, as ranges. -/
def State.reloadRanges (s : State) (core buf : Nat) (b : Bank) (nibs : List Nat) : List (Nat × Nat) :=
  nibs.flatMap (fun nib =>
    match NMap.find b.nlw (2 * nib + buf) with
    | some r => if NMap.get 0 s.core.wtag (wbufTag core nib buf) = ctxTag b then [] else nlwRanges r
    | none => [])

/-- The accumulator memory with row i of one Nib's part of an NMM added, and the flags it raised. -/
def State.nmmOn (s : State) (core nib buf acc cls : Nat) (r : NlwRec) (copper zero : Bool) (af base stride sc i : Nat) : State × Nat :=
  let y := s.nmmRow core nib buf acc cls r copper zero (s.anchorOf core nib acc) af base stride sc i
  ({ s with core := { s.core with acc := y.1 } }, y.2)

/-- Row i of one Nib of an NMM: with row 0 the anchor and what the tiles now hold; the poison of what it starts afresh; its sums. -/
def State.nmmStep (s : State) (core nib buf : Nat) (b : Bank) (w : Word) (copper : Bool) (i flags : Nat) : State × Nat :=
  let cls := nibClass (mFmtIn w)
  let span := accSpan copper cls
  match NMap.find b.nlw (2 * nib + buf) with
  | none => (s, flags)
  | some rc =>
    let u := if i = 0 then s.setKind core nib (mAcc w) span.1 span.2 else s
    let u := if i = 0 ∧ (copper && mZero w && decide (cls ≤ 1)) = true then u.setAnchor core nib (mAcc w) (mAnchor w) else u
    let u := if mZero w then u.clearPoison core nib (mAcc w) span.1 i else u
    let y := u.nmmOn core nib buf (mAcc w) cls rc copper (mZero w) (mFmtIn w) (b.aR (mSrc w)) (b.sR (mStride w)) (b.aR (mScale w)) i
    (y.1, Nat.lor flags y.2)

/-- Row i of an NMM on every Nib of its mask. -/
def State.nmmRows (s : State) (core buf : Nat) (b : Bank) (w : Word) (copper : Bool) (i : Nat) : State × Nat :=
  (maskNibs (mMask w)).foldl (fun (st : State × Nat) nib => st.1.nmmStep core nib buf b w copper i st.2) (s, 0)

/-- The core-store ranges of activation row i, its scales with it (R90). -/
def Bank.actRow (b : Bank) (w : Word) (i : Nat) : List (Nat × Nat) :=
  let af := mFmtIn w
  (b.aR (mSrc w) + i * b.sR (mStride w), rowLen af (tileK af)) :: (if isMx af then [(b.aR (mScale w) + 8 * i, tileK af / 32)] else [])

/-- The core-store ranges an NMM reads: the reloads it needs and its activation rows. -/
def State.nmmRanges (s : State) (core : Nat) (b : Bank) (w : Word) : List (Nat × Nat) :=
  s.reloadRanges core (mBuf w) b (maskNibs (mMask w)) ++ (List.range 128).flatMap (b.actRow w)

/-- The first Nib of the mask on which row i of an NMM's tiles is poisoned and is read (R102). -/
def State.nmmPoison (s : State) (core : Nat) (w : Word) (copper : Bool) (i : Nat) : Option Nat :=
  if mZero w then none
  else (maskNibs (mMask w)).find? (fun nib =>
    (List.range (accSpan copper (nibClass (mFmtIn w))).1).any (fun a => s.rowBad (accTile core nib (mAcc w + a)) i))

/-- An NMM runs from row `start` on. Of several faults the first of WBUF_EMPTY, NIB_FORMAT, ALIGN, OWNER_VIOLATION, those of a reload,
a weight buffer's NIB_PARITY, then row by row the store's and an accumulator's NIB_PARITY (assumption 71). -/
def bodyNmm (x : Issue) (w : Word) (start : Nat) (_ : List Nat) (t : State) (k : Nat) (b : Bank) : CRes :=
  let core := keyCore k
  let nibs := maskNibs (mMask w)
  let buf := mBuf w
  let cls := nibClass (mFmtIn w)
  let copper := t.copper b.part
  let acc := mAcc w
  let span := accSpan copper cls
  let recs := nibs.map (fun nib => (nib, NMap.find b.nlw (2 * nib + buf)))
  match recs.find? (fun e => e.2.isNone) with
  | some e => .fault 0x301B e.1 0
  | none =>
    let clash := recs.find? (fun e => match e.2 with | some r => decide (nibClass r.wtFmt ≠ cls) | none => false)
    let badAcc := (span.1 == 4 && decide (acc % 4 ≠ 0)) || (cls == 4 && decide (acc % 2 ≠ 0))
    let tiles := (List.range span.1).map (fun i => acc + i)
    match firstFault [(cls == 9 || clash.isSome || badAcc, 0x301A), (decide (b.sR (mStride w) % 64 ≠ 0), 0x3012),
        (tiles.any (fun i => !t.accOwned x.tile x.core i b.part), 0x3015)] with
    | some c => .fault c (match clash with | some e => e.1 | none => nibs.headD 0) 0
    | none =>
      let c := t.storeCheck x.tile x.core b.part true (t.reloadRanges core buf b nibs)
      if c ≠ 0 then .fault c (nibs.headD 0) 0
      else if t.storeWait core (t.nmmRanges core b w) || tiles.any (t.accZeroing core) then .wait
      else
        let t := t.reloads core buf b nibs
        match nibs.find? (fun nib => NMap.get false t.core.wbufBad (wbufTag core nib buf)) with
        | some nib => .trap { t with core := { t.core with wtag := NMap.put 0 t.core.wtag (wbufTag core nib buf) 0 } } 0x301D nib 0
        | none =>
          (unitLoop (t.cutOf x b) (fun u i _ =>
            let c := u.storeCheck x.tile x.core b.part true (b.actRow w i)
            (if c ≠ 0 then .fault c (nibs.headD 0) (b.aR (mSrc w) + i * b.sR (mStride w))
             else
               match u.nmmPoison core w copper i with
               | some nib => .fault 0x301D nib 0
               | none => (let r := u.nmmRows core buf b w copper i
                          .ok (r.1.meter b.part 1 nibs.length) [] r.2), [])) (128 - start) start t [] 0).done
            (fun u => u.inc (Reg.TILE_CORE_CNT.nmm x.tile x.core) 1)

/-- NMM (R87): 128 activation rows through the Nibs of the mask into the named accumulator of each. -/
def execNmm (x : Issue) (w : Word) (s : State) : Host.Outcome State Fault Refusal :=
  coreIssue x w 0x41 false (!wVar w && onlyBits w (msk 20 36) && !maskBad x.tile (mMask w))
    [.a (mSrc w), .s (mStride w), .a (mScale w)] s (bodyNmm x w 0 []) (lines := fun t b => t.nmmRanges (keyCore (bankKey x.tile x.core x.bank)) b w)

/-! ### NDRN (R100, R139, R179) -/

/-- One converted element: pattern, flags, in a floating-point output format (R128: a finite overflow saturates). -/
def drainEl (fmt : Nat) (md : RMode) (v : Val) : Nat × Nat :=
  match fmtOf fmt with
  | none => (0, 0)
  | some f =>
    let r := f.encode md .sat v
    (r.1, Nat.lor (Nat.lor (nanFlags [v]) (if fmt == 0 && v.isInf then flagInvalid else 0)) r.2)

/-- An integer shifted right with RNE and saturated to w bits (R124, R125). -/
def drainInt (i : Int) (sh w : Nat) : Nat × Nat := let c := clampInt (rshiftRne i sh) w; (ofInt c.1 w, if c.2 then flagSat else 0)

/-- The value of a quad's element (R139). -/
def quadVal (kind : Nat) (anchor : Int) (v : Nat) : Val :=
  if v = quadMarker then .nan
  else
    let i := sInt v 128
    .fin (decide (i < 0)) i.natAbs (if kind = 4 then 0 else anchor - 80)

/-- Row i of a Nib's accumulator in the output format: its bytes, its MXFP8 scales and the flags raised. `md` gives the rounding
of column j; `free` starts the free values used where the shift count has no meaning (R100). -/
def State.drainRow (s : State) (core nib acc kind fmt sh : Nat) (md : Nat → RMode) (free i : Nat) : List Nat × List Nat × Nat :=
  let cols := List.range 128
  let pack := fun (n : Nat) (l : List (Nat × Nat)) => (l.flatMap (fun e => leBytes e.1 n), ([] : List Nat), l.foldl (fun a e => Nat.lor a e.2) 0)

  if kind = 5 ∧ fmt = 0xD then
    pack 2 ((cols.map (fun j =>
      if 47 < sh then (Config.freeNat (free + i * 128 + j) % 65536, 0)
      else drainInt (sInt (s.pairEl core nib acc i j) 64) sh 16)))
  else if kind = 5 then
    pack 4 (cols.map (fun j => drainEl 0xA (md j) (Val.ofInt (s.pairEl core nib acc i j) 64)))
  else if kind = 3 ∨ kind = 4 then
    pack (rowLen fmt 1 * (if fmt = 0xA then 4 else 1))
      (cols.map (fun j => drainEl fmt (md j) (quadVal kind (s.anchorOf core nib acc) (s.quadEl core nib acc i j))))
  else if fmt = 0xC then pack 4 (cols.map (fun j => (s.accWord core nib acc i j, 0)))
  else if fmt = 7 then
    pack 1 (cols.map (fun j =>
      if 31 < sh then (Config.freeNat (free + i * 128 + j) % 256, 0) else drainInt (sInt (s.accWord core nib acc i j) 32) sh 8))
  else if isMx fmt then
    let bl := (List.range 4).map (fun g => mxBlock fmt ((List.range 32).map (fun j => (f32 (s.accWord core nib acc i (32 * g + j)), md (32 * g + j)))))
    let els := bl.flatMap (fun e => e.2)
    (els.map (fun e => e.1), bl.map (fun e => e.1), els.foldl (fun a e => Nat.lor a e.2) 0)
  else pack (rowLen fmt 1 * (if fmt = 0xA then 4 else 1)) (cols.map (fun j => drainEl fmt (md j) (f32 (s.accWord core nib acc i j))))

/-- Bytes of a drained row. -/
def drainLen (kind fmt : Nat) : Nat := if kind = 5 then (if fmt = 0xD then 256 else 512) else match fmt with
  | 0xA => 512 | 0xC => 512 | 8 => 256 | 9 => 256 | 0xD => 256 | _ => 128

/-- What a drain of a tile in format fmt takes its contents as: the kind the last NMM left, or what the format says where a
clear came last; none where R100 has no such conversion. -/
def drainKind (kind acc fmt : Nat) : Option Nat :=
  let fl := fmt ≤ 1 ∨ fmt = 8 ∨ fmt = 9 ∨ fmt = 0xA
  match kind with
  | 0 => if fl ∨ fmt = 2 ∨ fmt = 3 then some 1 else if fmt = 0xC ∨ fmt = 7 then some 2 else if fmt = 0xD ∧ acc % 2 = 0 then some 5 else none
  | 1 => if fl ∨ fmt = 2 ∨ fmt = 3 then some 1 else none
  | 2 => if fmt = 0xC ∨ fmt = 7 then some 2 else none
  | 5 => if (fmt = 0xD ∨ fmt = 0xA) ∧ acc % 2 = 0 then some 5 else none
  | q => if fl ∧ acc % 4 = 0 then some q else none

/-- How many tiles a kind of accumulator contents spans. -/
def kindWidth (kind : Nat) : Nat := if kind = 5 then 2 else if kind = 3 ∨ kind = 4 then 4 else 1

def dFmt (w : Word) : Nat := wf w 40 4
def dDst (w : Word) : Nat := wf w 36 4
def dStride (w : Word) : Nat := wf w 31 5
def dSdst (w : Word) : Nat := wf w 20 4
def dKey (w : Word) : Nat := wf w 15 5
def dSidx (w : Word) : Nat := wf w 10 5
def dRmode (w : Word) : Nat := wf w 46 2

/-- What a drain takes the contents of Nib `nib`'s tile as. -/
def State.drainKindOf (s : State) (core nib : Nat) (w : Word) : Option Nat := drainKind (s.accKindOf (accTile core nib (mAcc w))) (mAcc w) (dFmt w)

/-- The rounding of element (i, j) of the Nib at position m (R179). -/
def drainMode (b : Bank) (w : Word) (m i j : Nat) : RMode :=
  match dRmode w with
  | 0 => .rne
  | 1 => .rtz
  | _ =>
    let rr := rOf (wf w 44 2)
    .sr rr (srBits (b.sR (dKey w)) (b.sR (dKey w + 1)) ((b.sR (dSidx w) + m) % 18446744073709551616) rr (128 * i + j))

/-- The core-store ranges of unit u of a drain: a row of `len` bytes, and its scales. -/
def Bank.drainRange (b : Bank) (w : Word) (len u : Nat) : List (Nat × Nat) :=
  (b.aR (dDst w) + u * b.sR (dStride w), len) :: (if isMx (dFmt w) then [(b.aR (dSdst w) + 4 * u, 4)] else [])

/-- Unit u of a drain: row u % 128 of the Nib at position u / 128 of the mask reaches the core store, and is zeroed where `clear` says. -/
def State.drainUnit (s : State) (core nib kind : Nat) (b : Bank) (w : Word) (free u : Nat) : State × Nat :=
  let i := u % 128
  let y := s.drainRow core nib (mAcc w) kind (dFmt w) (wf w 24 6) (drainMode b w (u / 128) i) (free + u / 128 * 16384) i
  let v := s.csWrite core (b.aR (dDst w) + u * b.sR (dStride w)) y.1
  let v := if isMx (dFmt w) then v.csWrite core (b.aR (dSdst w) + 4 * u) y.2.1 else v
  (if bit w.toNat 51 then v.zeroRow core nib (mAcc w) (kindWidth kind) i else v, y.2.2)

/-- An NDRN runs from unit `start` on: the rows of the Nibs of its mask, Nib by Nib. The position of a Nib is its rank among the set bits
(assumption 72). -/
def bodyNdrn (x : Issue) (w : Word) (start : Nat) (_ : List Nat) (t : State) (k : Nat) (b : Bank) : CRes :=
  let core := keyCore k
  let nibs := maskNibs (mMask w)
  let acc := mAcc w
  let fmt := dFmt w
  let sr := dRmode w == 2
  match nibs.find? (fun nib => match t.drainKindOf core nib w with
      | none => true
      | some kd => sr && !((kd == 1 || kd == 3 || kd == 4) && (decide (fmt ≤ 1) || fmt == 8 || fmt == 9))) with
  | some nib => .fault 0x301A nib 0
  | none =>
    let kd := fun nib => match t.drainKindOf core nib w with | some v => v | none => 1
    let nibAt := fun (u : Nat) => nibs.getD (u / 128) 0
    let tiles := fun nib => (List.range (kindWidth (kd nib))).map (fun i => acc + i)
    match firstFault [(decide (b.sR (dStride w) % 64 ≠ 0), 0x3012), (nibs.any (fun nib => (tiles nib).any (fun i => !t.accOwned x.tile x.core i b.part)), 0x3015)] with
    | some c => .fault c (nibs.headD 0) 0
    | none =>
      if t.storeWait core ((List.range (128 * nibs.length)).flatMap (fun u => b.drainRange w (drainLen (kd (nibAt u)) fmt) u)) ||
          nibs.any (fun nib => (tiles nib).any (t.accZeroing core)) then .wait
      else
        let free := t.free
        unitLoop (t.cutOf x b) (fun u i _ =>
          let nib := nibAt i
          let c := u.storeCheck x.tile x.core b.part false (b.drainRange w (drainLen (kd nib) fmt) i)
          (if c ≠ 0 then .fault c nib (b.aR (dDst w) + i * b.sR (dStride w))
           else if (tiles nib).any (fun a => u.rowBad (accTile core nib a) (i % 128)) then .fault 0x301D nib 0
           else (let r := u.drainUnit core nib (kd nib) b w free i
                 .ok r.1 [] r.2), [])) (128 * nibs.length - start) start (t.took 65536) [] 0

/-- NDRN (R100): drains accumulator rows of each Nib of the mask to the core store, converted; the clear flag zeroes the tiles. Fields
that the rounding mode or the format does not use are zero (R198). -/
def execNdrn (x : Issue) (w : Word) (s : State) : Host.Outcome State Fault Refusal :=
  let sr := dRmode w == 2
  let fmt := dFmt w
  let key := dKey w
  coreIssue x w 0x42 false
    (!wVar w && onlyBits w (msk 51 5 + msk 48 3 + msk 46 2 + msk 31 13 + (if sr then msk 44 2 + msk 10 10 else 0) +
        (if fmt = 7 ∨ fmt = 0xD then msk 24 6 else 0) + (if isMx fmt then msk 20 4 else 0)) &&
      !maskBad x.tile (mMask w) && decide (dRmode w < 3) && (!sr || key % 2 == 0))
    ([.a (dDst w), .s (dStride w)] ++ (if isMx fmt then [.a (dSdst w)] else []) ++ (if sr then [.s key, .s (key + 1), .s (dSidx w)] else [])) s
    (bodyNdrn x w 0 []) (lines := fun _ b => (List.range (128 * (maskNibs (mMask w)).length)).flatMap (b.drainRange w 512))

/-- Tiles an NCLR clears on each Nib. -/
def clrSpan (w : Word) : Nat := 2 ^ wf w 46 2

/-- An NCLR runs from unit `start` on, row by row of Nib after Nib: contents and poison; with row 0 a quad's anchor (R101, R134). -/
def bodyNclr (x : Issue) (w : Word) (start : Nat) (_ : List Nat) (t : State) (k : Nat) (b : Bank) : CRes :=
  let core := keyCore k
  let nibs := maskNibs (mMask w)
  let acc := mAcc w
  let tiles := (List.range (clrSpan w)).map (fun i => acc + i)
  if tiles.any (fun i => !t.accOwned x.tile x.core i b.part) then .fault 0x3015 (nibs.headD 0) 0
  else if tiles.any (t.accZeroing core) then .wait
  else
    unitLoop (t.cutOf x b) (fun u i _ =>
      let nib := nibs.getD (i / 128) 0
      let v := (u.zeroRow core nib acc (clrSpan w) (i % 128)).clearPoison core nib acc (clrSpan w) (i % 128)
      let v := if i % 128 = 0 then v.setKind core nib acc (clrSpan w) 0 else v
      (.ok (if i % 128 = 0 ∧ clrSpan w = 4 then v.setAnchor core nib acc 0 else v) [] 0, [])) (128 * nibs.length - start) start t [] 0

/-- NCLR (R101, R134): clears a tile, a pair or a quad on every Nib of the mask, its poison, and a quad's anchor. -/
def execNclr (x : Issue) (w : Word) (s : State) : Host.Outcome State Fault Refusal :=
  coreIssue x w 0x43 false
    (!wVar w && onlyBits w (msk 52 4 + msk 48 3 + msk 46 2) && !maskBad x.tile (mMask w) && decide (wf w 46 2 < 3) && decide (mAcc w % clrSpan w = 0)) [] s
    (bodyNclr x w 0 [])

/-! ### The Hairline (R111 to R116) -/

def vbufSize : Nat := 262144

/-- Line j of a vector load reaches the vector buffer, which until the last line is tagged as loaded by no context. -/
def State.vecLine (s : State) (core src off j : Nat) : State :=
  let m1 := Mem.wrBytes s.core.vbuf (core * 1048576 + off + 64 * j) (s.csBytes core (src + 64 * j) 64)
  { s with core := { s.core with vbuf := m1, vtag := NMap.put 0 s.core.vtag core 0 } }

/-- A vector load is complete. -/
def State.vecDone (s : State) (core tag : Nat) : State :=
  { s with core := { s.core with vtag := NMap.put 0 s.core.vtag core tag, vbufBad := NMap.put false s.core.vbufBad core false } }

/-- A whole vector load (R112). -/
def State.loadVec (s : State) (core : Nat) (src off len tag : Nat) : State :=
  (upto (len / 64) s (fun j t => t.vecLine core src off j)).vecDone core tag

/-- An HLV runs, line by line. One that was suspended loads everything again. -/
def bodyHlv (x : Issue) (w : Word) (_ : Nat) (_ : List Nat) (t : State) (k : Nat) (b : Bank) : CRes :=
  let core := keyCore k
  let src := b.aR (wf w 44 4)
  let off := b.aR (wf w 40 4)
  let len := b.sR (wf w 36 4)
  if x.tile < 4 then .fault 0x301C 0 0
  else if len = 0 then .ok t [] 0
  else if len % 64 ≠ 0 ∨ off % 64 ≠ 0 then .fault 0x3012 0 src
  else if vbufSize < off + len then .fault 0x301C 0 off
  else if t.storeWait core [(src, len)] then .wait
  else
    (unitLoop (t.cutOf x b) (fun u j _ =>
      let c := u.storeCheck x.tile x.core b.part true [(src + 64 * j, 64)]
      (if c ≠ 0 then .fault c 0 (src + 64 * j) else .ok (u.vecLine core src off j) [] 0, [])) (len / 64) 0 t [] 0).done
      (fun u => (u.vecDone core (ctxTag b)).modBank k (fun b => { b with hlv := some (src, off, len) }))

/-- HLV (R112): loads vectors from the core store into the vector buffer. -/
def execHlv (x : Issue) (w : Word) (s : State) : Host.Outcome State Fault Refusal :=
  coreIssue x w 0x44 false (!wVar w && onlyBits w (msk 36 12)) [.a (wf w 44 4), .a (wf w 40 4), .s (wf w 36 4)] s
    (bodyHlv x w 0 []) (lines := fun _ b => [(b.aR (wf w 44 4), b.sR (wf w 36 4))])

/-- Elements of a weight line, and scale bytes of a line, by weight format (R113); none where HMV refuses it. -/
def hlShape (f : Nat) : Option (Nat × Nat) :=
  match f with
  | 0 => some (256, 0)
  | 1 => some (256, 0)
  | 7 => some (256, 0)
  | 2 => some (256, 8)
  | 3 => some (256, 8)
  | 6 => some (512, 16)
  | 8 => some (128, 0)
  | _ => none

/-- Line l of a column added to the running FP32 sum of one vector (R114): pattern and flags. `wt`, `sc`: the bytes of the line and of its
scales; vb: the vector in the vector buffer; k: elements of the column, e of a line. -/
def State.hlLine (s : State) (core f : Nat) (wt sc : List Nat) (vb k e l : Nat) (start : Nat) : Nat × Nat :=
  let prods := ((List.range e).filter (fun i => decide (l * e + i < k))).map (fun i =>
    (elVal f (rowEl f (fun o => wt.getD o 0) i) (if sc.isEmpty then 127 else sc.getD (i / 32) 0),
      bf16.decode (Mem.rdN s.core.vbuf (core * 1048576 + vb + 2 * (l * e + i)) 2)))
  let v := sumVals (f32 start :: prods.map (fun p => p.1.mul p.2))
  let r := toF32Sat v
  (r.1, sumFlags (prods.any (fun p => p.1.isNan || p.2.isNan) || (f32 start).isNan) v r.2)

/-- Count weight lines in hl_klines, in units of 1,024 (R109). -/
def State.countLines (s : State) (x : Issue) (n : Nat) : State :=
  let core := 16 * x.tile + x.core
  let t := NMap.get 0 s.core.hlRest core + n
  ({ s with core := { s.core with hlRest := NMap.put 0 s.core.hlRest core (t % 1024) } }).inc (Reg.TILE_CORE_CNT.hl_klines x.tile x.core) (t / 1024)

def hGrp (w : Word) : Nat := wf w 31 5
/-- Vectors of an HMV, columns, elements of a column, and whether it accumulates. -/
def hVecs (w : Word) : Nat := wf w 53 3 + 1
def Bank.hCols (b : Bank) (w : Word) : Nat := b.sR (hGrp w + 2)
def Bank.hK (b : Bank) (w : Word) : Nat := b.sR (hGrp w + 3)
def hAccum (w : Word) : Bool := bit w.toNat 52
/-- Weight lines of a column of k elements, e to a line, the address of line l of column n, and of its scales. -/
def Bank.hLines (b : Bank) (w : Word) (e : Nat) : Nat := cdiv (b.hK w) e
def Bank.hWt (b : Bank) (w : Word) (n l : Nat) : Nat := b.aR (wf w 44 4) + n * b.sR (hGrp w) + 256 * l
def Bank.hSc (b : Bank) (w : Word) (scb n l : Nat) : Nat := b.aR (wf w 40 4) + n * b.sR (hGrp w + 1) + scb * l
/-- The output slots of column n. -/
def Bank.hOut (b : Bank) (w : Word) (n : Nat) : Nat × Nat := (b.aR (wf w 36 4) + 32 * n, 4 * hVecs w)
/-- Bytes from one vector to the next in the vector buffer (R112). -/
def Bank.hVstride (b : Bank) (w : Word) : Nat := cdiv (2 * b.hK w) 1024 * 1024

/-- A weight line is consumed: counted, metered, read past the tile store (R116); the scale lines are read as they are entered. -/
def State.hmvCount (s : State) (x : Issue) (p wa sa scb : Nat) : State :=
  let s := (((s.countLines x 1).meter p 2 1).tsAccess wa 256 false false).meshRecords x.tile [wa]
  if scb ≠ 0 ∧ sa % 64 < scb then s.tsAccess (sa / 64 * 64) 64 false false else s

/-- Weight line u of an HMV: line u % L of column u / L (R113, R114). The output slots are checked with a column's first line; its results
are written with the last. -/
def State.hmvUnit (u : State) (x : Issue) (w : Word) (core : Nat) (b : Bank) (shape : Nat × Nat) (i : Nat) (sums : List Nat) : CRes × List Nat :=
  let lines := b.hLines w shape.1
  let n := i / lines
  let l := i % lines
  let wa := b.hWt w n l
  let sa := b.hSc w shape.2 n l
  let out := b.hOut w n
  let c := if l = 0 then u.storeCheck x.tile x.core b.part (hAccum w) [out] else 0
  if c ≠ 0 then (.fault c 0 out.1, [])
  else if NMap.get false u.core.vbufBad core then (.trap { u with core := { u.core with vtag := NMap.put 0 u.core.vtag core 0 } } 0x301D 0 0, [])
  else if (!u.meshLost x.tile wa && u.rangeBad wa 256) || (shape.2 != 0 && !u.meshLost x.tile sa && u.rangeBad sa shape.2) then
    (.trap ((u.countPoison wa 256).countPoison sa shape.2) 0x301F 0 wa, [])
  else
    let wt := u.ldVia x.tile wa 256
    let sc := u.ldVia x.tile sa shape.2
    let r := (List.range (hVecs w)).map (fun v =>
      u.hlLine core (wf w 48 4) wt sc (b.sR (hGrp w + 4) + v * b.hVstride w) (b.hK w) shape.1 l
        (if l = 0 then (if hAccum w then Mem.rdN u.core.store (storeKey core (out.1 + 4 * v)) 4 else 0) else sums.getD v 0))
    let t := u.hmvCount x b.part wa sa shape.2
    let new := r.map (fun e => e.1)
    (.ok (if l + 1 = lines then t.csWrite core out.1 (new.flatMap (fun e => leBytes e 4)) else t) [] (r.foldl (fun a e => Nat.lor a e.2) 0), new)

/-- An HMV runs from unit `start` on, with the running sums of its column. -/
def bodyHmv (x : Issue) (w : Word) (start : Nat) (sums : List Nat) (t : State) (k : Nat) (b : Bank) : CRes :=
  let core := keyCore k
  let wb := b.aR (wf w 44 4)
  let vbase := b.sR (hGrp w + 4)
  let cols := b.hCols w
  if x.tile < 4 then .fault 0x301C 0 0
  else
    match hlShape (wf w 48 4) with
    | none => .fault 0x301C 0 0
    | some (e, scb) =>
      if cols = 0 ∨ b.hK w = 0 then .ok t [] 0
      else if wb % 256 ≠ 0 ∨ b.sR (hGrp w) % 256 ≠ 0 ∨ b.aR (wf w 40 4) % 64 ≠ 0 ∨ b.sR (hGrp w + 1) % 64 ≠ 0 ∨
          vbufSize < vbase + hVecs w * b.hVstride w then .fault 0x301C 0 wb
      else if vbase % 64 ≠ 0 then .fault 0x3012 0 vbase
      else
        match b.hlv with
        | none => .fault 0x301B 0 0
        | some (src, off, len) =>
          let reload := decide (NMap.get 0 t.core.vtag core ≠ ctxTag b)
          let lines := b.hLines w e
          let back := if reload then [(src, len)] else []
          let c1 := t.storeCheck x.tile x.core b.part true back
          if c1 ≠ 0 then .fault c1 0 src
          else if (List.range cols).any (fun n => !t.permit b.part (b.hWt w n 0) (256 * lines) ||
              (scb != 0 && !t.permit b.part (b.hSc w scb n 0) (scb * lines))) then .fault 0x3014 0 wb
          else if t.storeWait core ((List.range cols).map (b.hOut w) ++ back) then .wait
          else
            unitLoop (t.cutOf x b) (fun u i sums => u.hmvUnit x w core b (e, scb) i sums) (cols * lines - start) start
              (if reload then t.loadVec core src off len (ctxTag b) else t) sums 0

/-- HMV (R113, R114): one Hairline matrix-vector product over weight lines of device local memory. A poisoned line ends it at
its line; earlier columns are written. -/
def execHmv (x : Issue) (w : Word) (s : State) : Host.Outcome State Fault Refusal :=
  coreIssue x w 0x45 false (!wVar w && onlyBits w (msk 31 25) && decide (hGrp w ≤ 27))
    ([.a (wf w 44 4), .a (wf w 40 4), .a (wf w 36 4)] ++ (List.range 5).map (fun i => CReg.s (hGrp w + i))) s
    (bodyHmv x w 0 []) (lines := fun _ b => (List.range (b.hCols w)).map (b.hOut w))

end Sys2Proof.Machine
end

