-- ==== Sys2Proof/Machine/CoreMem.lean ====
section
/-! DEFINITION. Slot 3 instructions on the core store and DMA (R188 to R190, R225). -/

namespace Sys2Proof.Machine

/-! ### Format L (R188) -/

def lReg (w : Word) : Nat := wf w 47 6
def lSReg (w : Word) : Nat := wf w 48 5
def lBase (w : Word) : Nat := wf w 43 4
def lOff (w : Word) : Nat := wf w 38 5
def lPost (w : Word) : Bool := bit w.toNat 37
def legalL (w : Word) : Bool := !wVar w && wf w 32 5 == 0

/-- The address of a format L access. -/
def Bank.lAddr (b : Bank) (w : Word) : Nat :=
  (b.aR (lBase w) + b.sR (lOff w) + (if lPost w then 0 else wImm w)) % 18446744073709551616

/-- a_base after the access: imm is added where post_inc is 1. -/
def Bank.lWrites (b : Bank) (w : Word) : List (CReg × Nat) :=
  if lPost w then [(.a (lBase w), (b.aR (lBase w) + wImm w) % 18446744073709551616)] else []

/-- An access of n bytes aligned to `al`: faults in order ALIGN, STORE_RANGE, OWNER_VIOLATION, STORE_PARITY; a wait for
zeroing; else the body. -/
def storeAccess (x : Issue) (read : Bool) (al n a : Nat) (t : State) (b : Bank) (body : CRes) : CRes :=
  if a % al ≠ 0 then .fault 0x3012 0 a
  else
    let c := t.storeCheck x.tile x.core b.part read [(a, n)]
    if c ≠ 0 then .fault c 0 a
    else if t.storeWait (16 * x.tile + x.core) [(a, n)] then .wait
    else body

/-- A format L instruction on `size` bytes of core store: it enters the memory queue where it cannot start; `reg`: the register it loads. -/
def lIssue (op size : Nat) (pred legal : Bool) (regs : List CReg) (reg : List CReg) (x : Issue) (w : Word) (s : State)
    (body : Issue → Word → State → Nat → Bank → CRes) : Host.Outcome State Fault Refusal :=
  coreIssue x w op pred legal ([.p (wPg w), .a (lBase w), .s (lOff w)] ++ regs) s (body x w)
    (dests := reg ++ (if lPost w then [.a (lBase w)] else [])) (lines := fun _ b => [(b.lAddr w, size)])

/-- A VLD runs: disabled granules keep their values. -/
def bodyVld (x : Issue) (w : Word) (t : State) (k : Nat) (b : Bank) : CRes :=
  let a := b.lAddr w
  storeAccess x true 64 1024 a t b
    (let p := granMask (b.pR (wPg w))
     let old := b.vR (lReg w)
     let new := Mem.rdN t.core.store (storeKey (keyCore k) a) 1024
     .ok t ((.v (lReg w), Nat.lor (Nat.land new p) (Nat.xor old (Nat.land old p))) :: b.lWrites w) 0)

/-- VLD: 1,024 bytes into a vector register. -/
def execVld (x : Issue) (w : Word) (s : State) : Host.Outcome State Fault Refusal :=
  lIssue 0x68 1024 false (legalL w) [.v (lReg w)] [.v (lReg w)] x w s bodyVld

/-- A VST runs: disabled granules are not written. -/
def bodyVst (x : Issue) (w : Word) (t : State) (k : Nat) (b : Bank) : CRes :=
  let a := b.lAddr w
  storeAccess x false 64 1024 a t b
    (.ok (upto 512 t (fun i u =>
      if bit (b.pR (wPg w)) i then u.csWrite (keyCore k) (a + 2 * i) (leBytes (bits (b.vR (lReg w)) (16 * i) 16) 2) else u))
      (b.lWrites w) 0)

/-- VST: 1,024 bytes of a vector register. -/
def execVst (x : Issue) (w : Word) (s : State) : Host.Outcome State Fault Refusal :=
  lIssue 0x69 1024 false (legalL w) [.v (lReg w)] [] x w s bodyVst

/-- An LDS runs. -/
def bodyLds (x : Issue) (w : Word) (t : State) (k : Nat) (b : Bank) : CRes :=
  let a := b.lAddr w
  storeAccess x true 8 8 a t b (.ok t ((.s (lSReg w), Mem.rdN t.core.store (storeKey (keyCore k) a) 8) :: b.lWrites w) 0)

/-- LDS: 8 bytes into a scalar register. -/
def execLds (x : Issue) (w : Word) (s : State) : Host.Outcome State Fault Refusal :=
  lIssue 0x6A 8 true (legalL w && !bit w.toNat 47) [.s (lSReg w)] [.s (lSReg w)] x w s bodyLds

/-- An STS runs. -/
def bodySts (x : Issue) (w : Word) (t : State) (k : Nat) (b : Bank) : CRes :=
  let a := b.lAddr w
  storeAccess x false 8 8 a t b (.ok (t.csWrite (keyCore k) a (leBytes (b.sR (lSReg w)) 8)) (b.lWrites w) 0)

/-- STS: 8 bytes from a scalar register. -/
def execSts (x : Issue) (w : Word) (s : State) : Host.Outcome State Fault Refusal :=
  lIssue 0x6B 8 true (legalL w && !bit w.toNat 47) [.s (lSReg w)] [] x w s bodySts

/-! ### DMA (R189, R190) -/

/-- The row ranges of one side of a DMA. -/
def dmaRanges (a rows n stride : Nat) : List (Nat × Nat) := (List.range rows).map (fun i => (a + i * stride, n))

def dKind (w : Word) : Nat := wf w 52 4
def dGrp (w : Word) : Nat := wf w 39 5

/-- The DMA that an instruction names. -/
def Bank.dmaOf (b : Bank) (w : Word) : Dma :=
  ⟨dKind w, b.aR (wf w 48 4), b.aR (wf w 44 4), b.sR (dGrp w), b.sR (dGrp w + 1), b.sR (dGrp w + 2), b.sR (dGrp w + 3),
    if bit w.toNat 24 then some (wf w 25 14) else none, bit w.toNat 23, []⟩

/-- The core-store ranges of a DMA. -/
def Dma.local_ (m : Dma) : List (Nat × Nat) :=
  if m.kind = 0 then dmaRanges m.dst m.rows m.rowBytes m.dstStride else if m.kind = 1 then dmaRanges m.src m.rows m.rowBytes m.srcStride else []

/-- A DMA starts: a strided copy is outstanding. A copy from core store takes its bytes here, at its place in program order (R225). -/
def bodyDma (x : Issue) (w : Word) (t : State) (k : Nat) (b : Bank) : CRes :=
  let core := keyCore k
  let m := b.dmaOf w
  if 3 ≤ dKind w ∨ 28 < dGrp w then .fault 0x3010 0 0
  else if (match m.sem with | some q => !t.semOwned q b.part | none => false) = true then .fault 0x3016 0 0
  else if m.rows = 0 ∨ m.rowBytes = 0 then .ok (match m.sem with | some q => t.semPost q 1 | none => t) [] 0
  else if (m.dst % 64 ≠ 0 ∨ m.src % 64 ≠ 0) ∨ (m.rowBytes % 64 ≠ 0 ∨ m.dstStride % 64 ≠ 0 ∨ m.srcStride % 64 ≠ 0) then .fault 0x3012 0 m.dst
  else
    let dst := dmaRanges m.dst m.rows m.rowBytes m.dstStride
    let src := dmaRanges m.src m.rows m.rowBytes m.srcStride
    let c := t.storeCheck x.tile x.core b.part (m.kind == 1) m.local_
    let bad := fun (l : List (Nat × Nat)) => l.find? (fun r => !t.permit b.part r.1 r.2)
    if c ≠ 0 then .fault c 0 (if m.kind = 0 then m.dst else m.src)
    else
      match (if m.kind = 1 then none else bad src), (if m.kind = 0 then none else bad dst) with
      | some r, _ => .fault 0x3014 0 r.1
      | none, some r => .fault 0x3014 0 r.1
      | none, none =>
        if 16 ≤ b.dmas.length ∨ t.storeWait core m.local_ = true then .wait
        else
          let data := if m.kind = 1 then src.flatMap (fun r => t.csBytes core r.1 r.2) else []
          .ok (t.modBank k (fun b => { b with dmas := b.dmas ++ [{ m with data := data }] })) [] 0

/-- DMA: starts a strided copy; a bad kind or register group faults when it starts (R189). -/
def execDma (x : Issue) (w : Word) (s : State) : Host.Outcome State Fault Refusal :=
  coreIssue x w 0x6C false (!wVar w && wf w 0 23 == 0)
    ([.a (wf w 48 4), .a (wf w 44 4)] ++ (List.range 4).map (fun i => CReg.s (dGrp w + i))) s (bodyDma x w)
    (lines := fun _ b => (b.dmaOf w).local_)

/-- The oldest DMA of the context on bank k writes its last byte (R190): its bytes move, its reads and writes meet the tile stores, lines
that were refused or lost are recorded, its semaphore follows. -/
def State.dmaFinish (s : State) (k : Nat) : State :=
  match s.bank k with
  | none => s
  | some b =>
    match b.dmas with
    | [] => s
    | m :: rest =>
      let core := keyCore k
      let js := List.range m.lines
      let refused := js.filter (fun j => !s.dmaMay b.part m j)
      let s := s.meshRecords (core / 16) ((if m.kind = 1 then [] else js.map (fun j => (m.line j).2)) ++ (if m.kind = 0 then [] else js.map (fun j => (m.line j).1)))
      let s := upto m.lines s (fun j t => t.dmaLine core b.part m j)
      let s := if m.kind = 0 then s else upto m.rows s (fun i t => t.overwrite (m.dst + i * m.dstStride) m.rowBytes (t.devId * 65536 + b.ctx))
      let s := if m.kind = 1 then s else upto m.rows s (fun i t => t.tsAccess (m.src + i * m.srcStride) m.rowBytes false (!m.nt))
      let s := if m.kind = 0 then s else upto m.rows s (fun i t => t.tsAccess (m.dst + i * m.dstStride) m.rowBytes true (!m.nt))
      let s := if refused.isEmpty then s
        else s.fault { code := 0x3014, part := b.part, die := keyTile k, unit := core % 16, count := refused.length, tag := b.d.tag, arg1 := m.dst }
      let s := s.modBank k (fun b => { b with dmas := rest })
      match m.sem with | some q => s.semPost q 1 | none => s

/-- A DMAW runs: the memory queue waits at it until at most max_out DMAs are outstanding. -/
def bodyDmaw (_ : Issue) (w : Word) (t : State) (_ : Nat) (b : Bank) : CRes := if b.dmas.length ≤ wf w 52 4 then .ok t [] 0 else .wait

/-- DMAW (R190). -/
def execDmaw (x : Issue) (w : Word) (s : State) : Host.Outcome State Fault Refusal :=
  coreIssue x w 0x6D false (!wVar w && wf w 0 52 == 0) [] s (bodyDmaw x w)

/-- A FENCE runs: the memory queue waits at it for earlier DMAs and for acknowledgements of earlier remote writes. -/
def bodyFence (_ : Issue) (_ : Word) (t : State) (k : Nat) (b : Bank) : CRes :=
  if b.dmas.isEmpty && t.fab.out.all (fun o => decide (o.bank ≠ some k) || o.reg.isSome) then .ok t [] 0 else .wait

/-- FENCE (R190). -/
def execFence (x : Issue) (w : Word) (s : State) : Host.Outcome State Fault Refusal :=
  coreIssue x w 0x6E false (!wVar w && wf w 0 56 == 0) [] s (bodyFence x w)

end Sys2Proof.Machine
end

