-- ==== Sys2Proof/Machine/Remote.lean ====
section
/-! DEFINITION. Slot 3 remote memory instructions (R191, R192, R197, R408): each line is a request on Flonil; replies arrive by
commands of their own. -/

namespace Sys2Proof.Machine

/-! ### Format R (R191) -/

def rRop (w : Word) : Nat := wf w 52 4
def rAg (w : Word) : Nat := wf w 48 4
def rV (w : Word) : Nat := wf w 42 6
def rLines (w : Word) : Nat := wf w 38 4 + 1
def rPd (w : Word) : Nat := wf w 35 3
def rFmt (w : Word) : Nat := wf w 31 4
def rSa (w : Word) : Nat := wf w 26 5
def rSb (w : Word) : Nat := wf w 21 5
def rSd (w : Word) : Nat := wf w 16 5
def rW64 (w : Word) : Bool := bit w.toNat 15

/-- Is an element format of RRED and RATOM a floating-point one? -/
def remFloat (f : Nat) : Bool := f == 0xA || f == 8

/-- Does a global address lie in Reservoir at its target? -/
def inReservoir (ga : Nat) : Bool := decide (0x20000000000 ≤ ga % 281474976710656)

/-- Line j of a global address: the device stays, the local address wraps below 2^48. -/
def gaLine (ga j : Nat) : Nat := ga / 281474976710656 * 281474976710656 + (ga + 64 * j) % 281474976710656

/-- The predicate of a remote instruction, as a register it names. -/
def pdUse (w : Word) : List CReg := if rPd w = 0 then [] else [.p (rPd w)]

/-- A global address that an instruction may not name: device 0xFFFF; outside RMST a multicast group (R203, assumption 73). -/
def gaBad (group : Bool) (ga : Nat) : Bool := decide (ga / 281474976710656 = 0xFFFF) || (!group && decide (0xF000 ≤ ga / 281474976710656))

/-- An RLD runs: one LOAD per line. -/
def bodyRld (_ : Issue) (w : Word) (t : State) (k : Nat) (b : Bank) : CRes :=
  let ga := b.aR (rAg w)
  if gaBad false ga then .fault 0x3014 0 ga
  else if ga % 64 ≠ 0 then .fault 0x3012 0 ga
  else
    let t := t.newGroup
    .ok (upto (rLines w) t (fun j u =>
      u.launchOp { u.request 1 b.part (gaLine ga j) with tag := b.ctx } b.part (gaLine ga j) (some k) (some (.v (rV w))) j 64 (rPd w) t.fab.group b.d.tag)) [] 0

/-- RLD: loads lines into bytes 64j of v. -/
def execRld (x : Issue) (w : Word) (s : State) : Host.Outcome State Fault Refusal :=
  coreIssue x w 0x70 false (!wVar w && onlyBits w (msk 35 17)) ([.a (rAg w), .v (rV w)] ++ pdUse w) s (bodyRld x w)
    (dests := .v (rV w) :: pdUse w)

/-- The payload of the lines of v. -/
def Bank.linesOf (b : Bank) (w : Word) : List Nat := leBytes (b.vR (rV w)) (64 * rLines w)

/-- One request of a type that carries all lines of v. -/
def sendLines (type : Nat) (w : Word) (t : State) (k : Nat) (b : Bank) : CRes :=
  let ga := b.aR (rAg w)
  if gaBad (type == 3) ga then .fault 0x3014 0 ga
  else if ga % 64 ≠ 0 then .fault 0x3012 0 ga
  else
    let t := t.newGroup
    .ok (t.launchOp { t.request type b.part ga with tag := b.ctx, rop := rRop w, fmt := if type = 4 then rFmt w else 0, payload := b.linesOf w }
      b.part ga (some k) none 0 (64 * rLines w) (rPd w) t.fab.group b.d.tag) [] 0

/-- An RST, an RMST and an RRED run. A floating-point reduction is refused under Copperplate (R197). -/
def bodyRst (_ : Issue) (w : Word) (t : State) (k : Nat) (b : Bank) : CRes := sendLines 2 w t k b
def bodyRmst (_ : Issue) (w : Word) (t : State) (k : Nat) (b : Bank) : CRes := sendLines 3 w t k b
def bodyRred (_ : Issue) (w : Word) (t : State) (k : Nat) (b : Bank) : CRes :=
  let ga := b.aR (rAg w)
  if rFmt w = 0xF then .fault 0x3018 0 0
  else if wVar w && !remFloat (rFmt w) && !inReservoir ga then .fault 0x3010 0 0
  else if remFloat (rFmt w) && NMap.get false t.part.copper b.part then .fault 0x3019 0 ga
  else sendLines 4 w t k b

/-- RST: stores lines of v. -/
def execRst (x : Issue) (w : Word) (s : State) : Host.Outcome State Fault Refusal :=
  coreIssue x w 0x71 false (!wVar w && onlyBits w (msk 35 17)) ([.a (rAg w), .v (rV w)] ++ pdUse w) s (bodyRst x w) (dests := pdUse w)

/-- RMST: stores lines of v to a multicast group (R203, R412). -/
def execRmst (x : Issue) (w : Word) (s : State) : Host.Outcome State Fault Refusal :=
  coreIssue x w 0x72 false (!wVar w && onlyBits w (msk 35 17)) ([.a (rAg w), .v (rV w)] ++ pdUse w) s (bodyRmst x w) (dests := pdUse w)

/-- RRED: reduces elements of v into the target lines. -/
def execRred (x : Issue) (w : Word) (s : State) : Host.Outcome State Fault Refusal :=
  let fl := remFloat (rFmt w)
  coreIssue x w 0x73 false
    (onlyBits w (msk 31 25) && decide (rRop w < 6) && (fl || rFmt w == 0xC || rFmt w == 0xF) && !(fl && decide (3 ≤ rRop w)))
    ([.a (rAg w), .v (rV w)] ++ pdUse w) s (bodyRred x w) (dests := pdUse w)

/-- Bytes of the word an ATOMIC works on (R403). -/
def atomSize (fmt : Nat) (w64 : Bool) : Nat := if w64 then 8 else if fmt = 8 then 2 else 4

/-- An RATOM runs. -/
def bodyRatom (_ : Issue) (w : Word) (t : State) (k : Nat) (b : Bank) : CRes :=
  let ga := b.aR (rAg w)
  let dev := ga / 281474976710656
  let n := atomSize (rFmt w) (rW64 w)
  if !rW64 w && rFmt w == 0xF then .fault 0x3018 0 0
  else if (remFloat (rFmt w) && !rW64 w) && NMap.get false t.part.copper b.part then .fault 0x3019 0 ga
  else if gaBad false ga then .fault 0x3014 0 ga
  else if ga % n ≠ 0 then .fault 0x3012 0 ga
  else
    let t := t.pruneHorizon dev
    if 256 ≤ (NMap.get [] t.fab.horizon dev).length then .wait
    else
      let t := t.newGroup
      .ok (t.launchOp { t.request 5 b.part ga with tag := b.ctx, rop := rRop w, fmt := rFmt w, w64 := rW64 w, payload := leBytes (b.sR (rSa w)) 8 ++ leBytes (b.sR (rSb w)) 8 }
        b.part ga (some k) (some (.s (rSd w))) 0 n (rPd w) t.fab.group b.d.tag) [] 0

/-- RATOM: one remote atomic; its old value goes to s_d. -/
def execRatom (x : Issue) (w : Word) (s : State) : Host.Outcome State Fault Refusal :=
  let fl := remFloat (rFmt w) && !rW64 w
  coreIssue x w 0x74 false
    (onlyBits w (msk 48 8 + msk 35 3 + msk 31 4 + msk 26 5 + (if rRop w = 2 then msk 21 5 else 0) + msk 15 6) && decide (rRop w < 8) &&
      (rW64 w || remFloat (rFmt w) || rFmt w == 0xC || rFmt w == 0xF) && !(fl && decide (3 ≤ rRop w) && decide (rRop w ≤ 5)) &&
      (!wVar w || fl || decide (rSd w ≠ 0)))
    ([.a (rAg w), .s (rSa w), .s (rSd w)] ++ (if rRop w = 2 then [.s (rSb w)] else []) ++ pdUse w) s (bodyRatom x w) (dests := .s (rSd w) :: pdUse w)

/-- An RSEMP runs: it waits in the memory queue until everything before it is done (R558), then its post is sent. -/
def bodyRsemp (_ : Issue) (w : Word) (t : State) (k : Nat) (b : Bank) : CRes :=
  if gaBad false (b.aR (rAg w)) then .fault 0x3014 0 (b.aR (rAg w))
  else if t.releaseOk k then .ok (t.sendPost b.part (b.aR (rAg w)) (b.sR (rSa w) % 4294967296) (some k) (rPd w) b.d.tag b.ctx) [] 0
  else .wait

/-- RSEMP: a semaphore post at the target package, as a release. -/
def execRsemp (x : Issue) (w : Word) (s : State) : Host.Outcome State Fault Refusal :=
  coreIssue x w 0x75 false (!wVar w && onlyBits w (msk 48 4 + msk 35 3 + msk 26 5)) ([.a (rAg w), .s (rSa w)] ++ pdUse w) s (bodyRsemp x w)
    (dests := pdUse w)

end Sys2Proof.Machine
end

