-- ==== Sys2Proof/Machine/Queue.lean ====
section
/-! DEFINITION. The matrix queue and the memory queue of a context (R162, R190): what starts when what it waited for has come. -/

namespace Sys2Proof.Machine

/-- What an instruction of slot 1 or 3 does when it runs: `start` and `sums` say how far a matrix instruction had come. -/
def opBody (x : Issue) (w : Word) (start : Nat) (sums : List Nat) (t : State) (k : Nat) (b : Bank) : CRes :=
  match wOp w with
  | 0x40 => bodyNlw x w start sums t k b
  | 0x41 => bodyNmm x w start sums t k b
  | 0x42 => bodyNdrn x w start sums t k b
  | 0x43 => bodyNclr x w start sums t k b
  | 0x44 => bodyHlv x w start sums t k b
  | 0x45 => bodyHmv x w start sums t k b
  | 0x68 => bodyVld x w t k b
  | 0x69 => bodyVst x w t k b
  | 0x6A => bodyLds x w t k b
  | 0x6B => bodySts x w t k b
  | 0x6C => bodyDma x w t k b
  | 0x6D => bodyDmaw x w t k b
  | 0x6E => bodyFence x w t k b
  | 0x70 => bodyRld x w t k b
  | 0x71 => bodyRst x w t k b
  | 0x72 => bodyRmst x w t k b
  | 0x73 => bodyRred x w t k b
  | 0x74 => bodyRatom x w t k b
  | 0x75 => bodyRsemp x w t k b
  | 0x78 => bodyColl x w t k b
  | 0x79 => bodyIkc x w t k b
  | 0x7A => bodyQlc x w t k b
  | _ => .wait

/-- The bank as queued instruction e reads it: the registers as they were when it issued. -/
def QOp.view (e : QOp) (b : Bank) : Bank := { b with pc := e.pc, s := e.s, a := e.a, v := e.v, p := e.p }

/-- The issue that queued instruction e of bank k stands for. -/
def QOp.issue (e : QOp) (k : Nat) : Issue := { tile := keyTile k, core := keyCore k % 16, bank := k % 4, slot := e.slot, last := false, upsets := [] }

/-- Does entry i belong to the bundle that bank b is still issuing? Its results are written with the others of the bundle (R161). -/
def Bank.unbundled (b : Bank) (i : Nat) (e : QOp) : Bool :=
  decide (b.issued ≠ 0) && decide (e.pc = b.pc) && bit b.issued e.slot && (b.queue.drop (i + 1)).all (fun f => decide (f.slot ≠ e.slot))

/-- Queued instruction i of bank k runs, where it may: only for a running Stroke that has not reached its issue-stop cycle, in program order
within its queue, and behind nothing that touches a line of it (R162, R225). None: it waits. -/
def State.tryOp (s : State) (k i : Nat) : Option State :=
  match s.bank k with
  | none => none
  | some b =>
    match b.queue[i]? with
    | none => none
    | some e =>
      if !b.live || b.slot.isNone || !s.issueOpen (keyTile k) b.slot || b.unbundled i e || !queueFree (b.queue.take i) e.slot e.lines then none
      else
        match opBody (e.issue k) e.word e.units e.sums s k (e.view b) with
        | .ok u wr fl => some (u.modBank k (fun b => each wr { b with queue := b.queue.eraseIdx i, flags := Nat.lor b.flags fl } (fun w t => t.setReg w.1 w.2)))
        | .fault c n a => some (s.coreFaultAt k e.pc c n a)
        | .trap u c n a => some (u.coreFaultAt k e.pc c n a)
        | .cut _ _ _ _ => none
        | .wait => none

/-- The queues of bank k start what can start, then a SEMP or EXIT that waited for them goes on. -/
def State.runQueue (s : State) (k : Nat) : Nat → State
  | 0 => s.settle k
  | n + 1 =>
    match (match s.bank k with | some b => (List.range b.queue.length).findSome? (s.tryOp k) | none => none) with
    | some t => t.runQueue k n
    | none => s.settle k

/-- Entries of both queues of a bank. -/
def queueFuel : Nat := 24

/-- Everything queued on any bank that can start does. -/
def State.pump (s : State) : State := each (s.core.banks.map (fun e => e.1)) s (fun k t => t.runQueue k queueFuel)

/-- DMA_COMPLETE (R190): the oldest DMA of the context on that bank completes; what waited for it goes on. -/
def execDmaComplete (tile core bank : Nat) (s : State) : Host.Outcome State Fault Refusal :=
  let k := bankKey tile core bank
  .next ((s.dmaFinish k).runQueue k queueFuel)

/-- QLCs that started before the fence of Quill j and are held at its full queue are accepted (R291): those at the head of a memory
queue whose checks they passed. -/
def State.fenceHeld (s : State) (j : Nat) : State :=
  each (s.core.banks.map (fun e => e.1)) s (fun k t =>
    match t.bank k with
    | none => t
    | some b =>
      match (List.range b.queue.length).find? (fun i => match b.queue[i]? with | some e => decide (e.slot = 3) | none => false) with
      | none => t
      | some i =>
        match b.queue[i]? with
        | none => t
        | some e =>
          if wOp e.word ≠ 0x7A ∨ eTarget e.word ≠ j then t
          else
            match (t.setQuillQueue j []).tryOp k i with
            | some u => if (u.quillQueue j).isEmpty then t else u.setQuillQueue j (t.quillQueue j ++ u.quillQueue j)
            | none => t)

end Sys2Proof.Machine
end

