-- ==== Sys2Proof/Machine/Fabric.lean ====
section
/-! DEFINITION. Flonil: requests at their target, replies at their source, retries and bounds, multicast, reservations, links (R391
to R419). -/

namespace Sys2Proof.Machine

/-! ### At the target (R401 to R403, R409, R410) -/

/-- The partition a request acts for, where it is served: a valid domain, a partition that is not ABSENT, RESETTING or REMOVING (R402,
R453). -/
def State.fabPart (s : State) (p : Packet) : Option Nat :=
  match s.domainPart p.domain with
  | none => none
  | some q => if s.partState q = 0 ∨ s.partState q = 4 ∨ s.partState q = 5 then none else some q

/-- The reply type of a request (R400). -/
def replyType (t : Nat) : Nat := if t = 1 then 0x81 else if t = 5 then 0x83 else if t = 7 ∨ t = 8 then 0x84 else 0x82

/-- The base die a reservation packet names by its address. -/
def rsvDie (p : Packet) : Nat := (p.addr - 0x20000000000) / 0x1000000

/-- The tile at which a request is served. -/
def pktNode (p : Packet) : Nat := if p.type = 6 then semHome (fabSem (p.addr % 4096)) else if p.type = 7 ∨ p.type = 8 then rsvDie p else addrNode p.addr

/-- A packet that arrived on `port` (36: from this package; none: not said) reaches its tile, or is dropped on the way (R30). Where the
tile it comes from is not said and a mesh link has failed, it is a free value. -/
def State.arrive (s : State) (port : Option Nat) (node : Nat) (go : State → State) : State :=
  if s.mesh.failed.isEmpty then go s
  else (s.took 1).meshPass (match port with | some k => if k < 36 then portTile k else Config.freeNat s.free % 10 | none => Config.freeNat s.free % 10) node go

/-- A request of a type for this package arrives: its lifetime (R406), its domain, then its effect for the partition. -/
def fabIn (type : Nat) (p : Packet) (s : State) (body : State → Nat → State) : State :=
  if p.type ≠ type ∨ p.dst ≠ s.devId then s
  else if tooOld p then s.inc Reg.FAB_STAT.lifetime_drops 1
  else
    match s.fabPart p with
    | none => s.refuse p (replyType type)
    | some q => s.arrive none (pktNode p) (fun t => body t q)

/-- A request meets its line (R410): a line that was hot in the window before serves one request per 16 cycles, and the request waits
its turn. `combined`: it is served together with an identical one that waits (R409). -/
def State.hotLine (s : State) (a : Nat) (combined : Bool) : State :=
  let k := s.memKey a / 64
  let w := s.time.cnt / 1024
  let l := NMap.get ⟨0, 0, 0, 0⟩ s.fab.load k
  let l := if l.window = w then { l with now := l.now + 1 } else { l with window := w, before := if l.window + 1 = w then l.now else 0, now := 1 }
  let limit := s.rd Reg.FAB_CFG.hot_limit
  let hot := decide (limit ≠ 0) && decide (limit < l.before)
  let put := fun (t : State) (x : LineLoad) => { t with fab := { t.fab with load := NMap.put ⟨0, 0, 0, 0⟩ t.fab.load k x } }
  if combined then (put s l).inc Reg.FAB_STAT.combined 1
  else if !hot then put s l
  else if s.time.cnt < l.next then ((put s { l with next := l.next + 16 }).inc Reg.FAB_STAT.hot_throttled 1).advance l.next
  else put s { l with next := s.time.cnt + 16 }

/-- Who sends a request, for R155. -/
def pktWho (p : Packet) : Nat := p.src * 65536 + p.tag

/-- The zeroing of the range's channel or granule must be over; what lies in a granule or channel being zeroed is not permitted until
then (R210, R413). -/
def State.rsvZeroing (s : State) (a : Nat) : Bool :=
  match s.rsvDecode a with
  | some (d, o) => s.core.zeroing.contains (2, d * 128 + o / 65536)
  | none => false

/-- Does a request wait for the zeroing of a Reservoir granule it accesses (R413)? -/
def State.pktHeld (s : State) (p : Packet) : Bool :=
  let a := if p.type = 5 then p.addr else p.addr / 64 * 64
  s.rsvZeroing a || s.rsvZeroing (a + ((if p.type = 2 ∨ p.type = 4 then p.payload.length else 1) - 1))

/-- It waits until the zeroing is done. -/
def State.holdPkt (s : State) (p : Packet) (combined : Bool) : State :=
  { s with fab := { s.fab with held := s.fab.held ++ [(p, combined)] } }

/-- A LOAD for partition q is served at its point of order. -/
def State.serveLoad (p : Packet) (combined : Bool) (s : State) (q : Nat) : State :=
  let a := p.addr / 64 * 64
  if !s.permit q a 64 then s.refuse p 0x81
  else if s.pktHeld p then s.holdPkt p combined
  else
    let s := (s.hotLine a combined).tsAccess a 64 false true
    if s.lineBad a then (s.countPoison a 64).send (s.replyTo p 0x81 2 [])
    else s.send (s.replyTo p 0x81 0 (s.ldBytes a 64))

/-- R401: a LOAD. -/
def execLoad (p : Packet) (combined : Bool) (s : State) : Host.Outcome State Fault Refusal := .next (fabIn 1 p s (State.serveLoad p combined))

/-- Write the lines of a store at a; a poisoned payload poisons them (R401, R221). -/
def State.storeLines (s : State) (p : Packet) (a : Nat) : State :=
  let s := s.stBytes a p.payload
  let s := if p.poison then upto (cdiv p.payload.length 64) s (fun i t => t.setLineBad (a + 64 * i) true) else s
  s.overwrite a p.payload.length (pktWho p)

/-- A STORE for partition q writes its lines. -/
def State.serveStore (p : Packet) (s : State) (q : Nat) : State :=
  let a := p.addr / 64 * 64
  let n := p.payload.length
  if !s.permit q a n then s.refuse p 0x82
  else if s.pktHeld p then s.holdPkt p false
  else ((((s.hotLine a false).tsAccess a n true true)).storeLines p a).ack p 0

/-- R401: a STORE. -/
def execStore (p : Packet) (s : State) : Host.Outcome State Fault Refusal := .next (fabIn 2 p s (State.serveStore p))

/-- Combine an element in memory with one of a REDUCE (R403): BF16 is computed in FP32 and rounded. -/
def redElem (rop fmt old new : Nat) : Nat :=
  if fmt = 8 then (bf16.encode .rne .inf (f32 (clCombine rop 0xA (old * 65536) (new * 65536)))).1 else clCombine rop fmt old new

/-- A REDUCE for partition q combines its elements into the target lines, each line atomically. A line of a floating-point result that now
has contributions of two sources is a variance event, which the reply reports (R155, R156). -/
def State.serveReduce (p : Packet) (s : State) (q : Nat) : State :=
  let a := p.addr / 64 * 64
  let n := p.payload.length
  let fl := p.fmt == 0xA || p.fmt == 8
  if !s.permit q a n || !(fl || p.fmt == 0xC) || decide (6 ≤ p.rop) || (fl && decide (3 ≤ p.rop)) then s.refuse p 0x82
  else if s.pktHeld p then s.holdPkt p false
  else
    let w := if p.fmt = 8 then 2 else 4
    let s := (s.hotLine a false).tsAccess a n true true
    let x := upto (cdiv n 64) (s, 0) (fun i st =>
      let t := st.1
      let b := a + 64 * i
      let m := min 64 (n - 64 * i)
      let old := wordsOf w (m / w) (t.ldBytes b m)
      let new := wordsOf w (m / w) ((p.payload.drop (64 * i)).take m)
      let bad := p.poison || t.lineBad b
      let t := t.countPoison b m
      let t := (t.stBytes b (bytesOf w ((old.zip new).map (fun e => redElem p.rop p.fmt e.1 e.2)))).setLineBad b bad
      let y := if fl then (t.touch b m (pktWho p)).contribute b (pktWho p) else (t.touch b m (pktWho p), 0)
      (y.1, st.2 + y.2))
    x.1.send { x.1.replyTo p 0x82 0 [] with var := x.2 }

/-- R403: a REDUCE. -/
def execReduce (p : Packet) (s : State) : Host.Outcome State Fault Refusal := .next (fabIn 4 p s (State.serveReduce p))

/-- The value an ATOMIC writes (R403). -/
def atomNew (rop fmt : Nat) (w64 : Bool) (old x cmp : Nat) : Nat :=
  let w := if w64 then 64 else if fmt = 8 then 16 else 32
  let fl := !w64 && (fmt == 0xA || fmt == 8)
  let f := fun (r : Nat) => if fmt = 8 then redElem r 8 old x else clCombine r 0xA old x
  match rop with
  | 0 => if fl then f 0 else (old + x) % 2 ^ w
  | 1 => x
  | 2 => if old = cmp then x else old
  | 3 => Nat.land old x
  | 4 => Nat.lor old x
  | 5 => Nat.xor old x
  | 6 => if fl then f 1 else if sInt old w ≤ sInt x w then old else x
  | _ => if fl then f 2 else if sInt old w ≤ sInt x w then x else old

/-- The deduplication window of a source (R407): a slot it has, a free one, or one whose source has been silent for 2 ms; none where
there is none or the region is not the manager's. -/
def State.dedupSlot (s : State) (src : Nat) : Option State :=
  let here := fun (t : State) => t.wr Reg.FAB_DEDUP_STAT.slots_used t.fab.dedupAt.length
  if !s.permit 0x40 (s.rd Reg.FAB_DEDUP_BASE.base * 8388608) 8388608 then none
  else if (NMap.find s.fab.dedupAt src).isSome then some s
  else
    let add := fun (t : State) => here { t with fab := { t.fab with dedupAt := NMap.ins t.fab.dedupAt src t.time.cnt } }
    if s.fab.dedupAt.length < 1024 then some (add s)
    else
      match s.fab.dedupAt.find? (fun e => decide (e.2 + msCycles 2 ≤ s.time.cnt)) with
      | none => none
      | some e => some (add { s with fab := { s.fab with dedup := NMap.del s.fab.dedup e.1, dedupAt := NMap.del s.fab.dedupAt e.1 } })

/-- The first copy of an ATOMIC (R403, R407): its line is combined with, its result kept for a second copy, its reply sent. The reply's var
reports in bit 0 a floating-point line that now has contributions of two sources, in bit 1 a word that another source had modified in this
tick (R155, assumption 76). -/
def State.atomicFirst (p : Packet) (combined : Bool) (s : State) (q n : Nat) (fl : Bool) : State :=
  if p.addr % n ≠ 0 ∨ s.permit q p.addr n = false ∨ 8 ≤ p.rop ∨ (fl = true ∧ 3 ≤ p.rop ∧ p.rop ≤ 5) ∨ (p.w64 = false ∧ fl = false ∧ p.fmt ≠ 0xC) then s.refuse p 0x83
  else if s.pktHeld p then s.holdPkt p combined
  else
    match s.dedupSlot p.src with
    | none => (s.inc Reg.FAB_DEDUP_STAT.busy 1).send (s.replyTo p 0x83 3 [])
    | some s =>
      let s := s.hotLine p.addr combined
      if s.lineBad p.addr then (s.countPoison p.addr n).send (s.replyTo p 0x83 2 [])
      else
        let old := s.ldN p.addr n
        let x := leNat (p.payload.take n)
        let cmp := leNat ((p.payload.drop 8).take n)
        let l := NMap.get [] s.fab.dedup p.src
        let combines := fl && (p.rop == 0 || p.rop == 6 || p.rop == 7)
        let met := b2n (s.contended p.addr n (pktWho p))
        let kept := p.rop == 2 && old != cmp
        let new := atomNew p.rop p.fmt p.w64 old x cmp
        let t := (s.tsAccess p.addr n (!kept) true).stN p.addr n new
        let t := if kept then t else t.touch p.addr n (pktWho p)
        let y := if combines then t.contribute p.addr (pktWho p) else (t, 0)
        let s := y.1
        let var := y.2 + 2 * met
        let l := (if 256 ≤ l.length then l.drop 1 else l) ++ [(p.seq, old + 18446744073709551616 * var)]
        let s := { s with fab := { s.fab with dedup := NMap.put [] s.fab.dedup p.src l, dedupAt := NMap.put 0 s.fab.dedupAt p.src s.time.cnt } }
        s.send { s.replyTo p 0x83 0 (leBytes old 8) with var := var }

/-- An ATOMIC for partition q is applied once, and returns the old value; a second copy gets the first one's result, and keeps its source's
slot (R407). -/
def State.serveAtomic (p : Packet) (combined : Bool) (s : State) (q : Nat) : State :=
  let n := if p.w64 then 8 else if p.fmt = 8 then 2 else 4
  let fl := !p.w64 && (p.fmt == 0xA || p.fmt == 8)
  match (NMap.get [] s.fab.dedup p.src).find? (fun e => decide (e.1 = p.seq)) with
  | some e =>
    let s := { s with fab := { s.fab with dedupAt := NMap.ins s.fab.dedupAt p.src s.time.cnt } }
    (s.inc Reg.FAB_STAT.dedup_hits 1).send { s.replyTo p 0x83 0 (leBytes e.2 8) with var := e.2 / 18446744073709551616 }
  | none => State.atomicFirst p combined s q n fl

/-- R403, R407: an ATOMIC. -/
def execAtomic (p : Packet) (combined : Bool) (s : State) : Host.Outcome State Fault Refusal :=
  .next (if p.kind ≠ 0 then s else fabIn 5 p s (State.serveAtomic p combined))

/-- Zeroing is done: the requests that waited for it are served, oldest first (R413). -/
def State.serveHeld (s : State) : State :=
  let ready := s.fab.held.filter (fun e => !s.pktHeld e.1)
  each ready { s with fab := { s.fab with held := s.fab.held.filter (fun e => s.pktHeld e.1) } } (fun e t =>
    match t.fabPart e.1 with
    | none => t.refuse e.1 (replyType e.1.type)
    | some q =>
      match e.1.type with
      | 1 => State.serveLoad e.1 e.2 t q
      | 2 => State.serveStore e.1 t q
      | 4 => State.serveReduce e.1 t q
      | _ => State.serveAtomic e.1 e.2 t q)

/-- R195, R400: a remote semaphore post at the semaphore's home. -/
def execSempost (p : Packet) (s : State) : Host.Outcome State Fault Refusal :=
  .next (fabIn 6 p s (fun s q =>
    let k := fabSem (p.addr % 4096)
    if !s.semOwned k q then s.refuse p 0x82
    else (s.semPost k (leNat (p.payload.take 4))).ack p 0))

/-- A reservation reply: the key, the count and the granules as a mask (assumption 44). -/
def rsvLine (key : Nat) (gs : List Nat) : List Nat :=
  leBytes (setBits (setBits (setBits 0 0 32 key) 32 7 gs.length) 128 128 (gs.foldl (fun m g => Nat.lor m (2 ^ g)) 0)) 64

/-- R414: a reservation request is granted, renewed or refused at once; a fenced die refuses (R481). -/
def execRsvReq (p : Packet) (s : State) : Host.Outcome State Fault Refusal :=
  .next (fabIn 7 p s (fun s _ =>
    let d := rsvDie p
    let l := leNat (p.payload.take 64)
    if 10 ≤ d ∨ s.tilePresent d = false then s.refuse p 0x84
    else
      let r := if s.colFenced d then (s.inc (Reg.FAB_RSV_STAT.denials d) 1, []) else s.reserve d (bits l 0 32) p.domain (bits l 32 7) (bits l 40 8 + 1)
      r.1.send (r.1.replyTo p 0x84 0 (rsvLine (bits l 0 32) r.2))))

/-- R414: RSV_REL returns the key's granules to the pool. -/
def execRsvRel (p : Packet) (s : State) : Host.Outcome State Fault Refusal :=
  .next (fabIn 8 p s (fun s _ =>
    let key := leNat (p.payload.take 4)
    let s := match s.fab.leases.find? (fun x => decide (x.die = rsvDie p) && decide (x.key = key) && decide (x.domain = p.domain)) with
      | some x => s.dropLease x
      | none => s
    s.send (s.replyTo p 0x84 0 (rsvLine key []))))

/-- R414: lease i has lapsed: its granules go back to the pool, zeroed. -/
def execLeaseExpiry (i : Nat) (s : State) : Host.Outcome State Fault Refusal :=
  match s.fab.leases[i]? with
  | none => .next s
  | some l => .next (((each l.granules (s.advance l.expiry) (fun g t => t.zeroRsv l.die g)).dropLease l).inc (Reg.FAB_RSV_STAT.expiries l.die) 1)

/-! ### Multicast stores (R412) -/

/-- The source of a multicast store learns how many members applied it. -/
def State.mcastAtSource (s : State) (group seq count : Nat) (finish : State → RemOp → Bool → State) : State :=
  match s.fab.out.find? (fun o => decide (o.type = 3) && decide (o.dev = 0xF000 + group) && decide (o.seq = seq)) with
  | none => s
  | some o => finish s o (decide (count = s.rd (Reg.FAB_MCAST.members_m1 group) + 1))

/-- The acknowledgement of a multicast store towards its source. -/
def State.mcastAck (s : State) (w : McastWait) (p : Packet) (status : Nat) (finish : State → RemOp → Bool → State) : State :=
  if w.arrival = 36 then s.mcastAtSource w.group w.seq w.count finish
  else s.emit w.arrival 0 { s.replyTo p 0x82 status [] with dst := w.src, seq := w.seq, count := w.count }

/-! ### At the source (R404, R405, R419) -/

/-- Fill line `line` of a register with the bytes of a number. -/
def Bank.fill (b : Bank) (r : CReg) (line n v : Nat) : Bank :=
  match r with
  | .v k => b.setReg (.v k) (setBits (NMap.get 0 b.v k) (512 * line) (8 * n) v)
  | r => b.setReg r v

/-- The error value over n bytes: 0xDEAD_DEAD in every 32-bit word (R192). -/
def errorValue (n : Nat) : Nat := leNat ((List.replicate (cdiv n 4) [0xAD, 0xDE, 0xAD, 0xDE]).flatten.take (max n 4))

/-- An operation of this package ends (R191, R192, R404): its register is written, its predicate when the last line of its instruction
has ended; what waited for it goes on. -/
def State.endOp (s : State) (o : RemOp) (value : Option Nat) : State :=
  let s := { s with fab := { s.fab with out := s.fab.out.filter (fun x => decide (x ≠ o)) } }
  let s := if o.type = 5 then { s with fab := { s.fab with horizon := NMap.mapVals (fun d l => if d = o.dev then l.map (fun e => if e.1 = o.seq then (e.1, e.2.1, true) else e) else l) s.fab.horizon } } else s
  let s := if value.isNone then { s with fab := { s.fab with failed := NMap.put false s.fab.failed o.group true } } else s
  let last := s.fab.out.all (fun x => decide (x.group ≠ o.group))
  let bad := NMap.get false s.fab.failed o.group
  let s := if last then { s with fab := { s.fab with failed := NMap.del s.fab.failed o.group } } else s
  match o.bank with
  | none => s
  | some k =>
    let s := s.modBank k (fun b =>
      let b := match o.reg with
        | some r => b.fill r o.line o.bytes (match value with | some v => v | none => errorValue o.bytes)
        | none => b
      if last && decide (o.pd ≠ 0) then b.setReg (.p o.pd) (if bad then 2 ^ 512 - 1 else 0) else b)
    s.runQueue k queueFuel

/-- An operation fails: the record of R419, except for one whose bank was freed (R554), the error value, and what the serving engines make
of it (R265). -/
def State.failOp (s : State) (o : RemOp) (code : Nat) (count : Nat) : State :=
  let s := if o.orphan then s else s.fault { code := code, part := o.part, die := 8, unit := 0xFF, count := if code = 0x4005 then count else 1, tag := o.tag, arg0 := o.seq, arg1 := o.ga }
  let s := s.endOp o none
  let push := decide (o.type = 2) && o.bank.isNone && s.srv.reqs.any (fun e => e.2.pushes.any (fun x => decide (x.2 = o.group)))
  if o.type = 9 ∨ push = true then s.noteLost o.dev none else s

/-- An operation succeeds; a KV store may have been the last of its block. -/
def State.doneOp (s : State) (o : RemOp) (v : Nat) : State :=
  let s := s.endOp o (some v)
  if o.type = 2 ∧ o.bank.isNone = true then s.kvAcked o.group else s

/-- The multicast operation at its source ends. -/
def State.endMcast (count : Nat) (s : State) (o : RemOp) (ok : Bool) : State := if ok then s.doneOp o 0 else s.failOp o 0x4005 count

/-- Does an ATOMIC return its value to a register other than s0? -/
def RemOp.returns (o : RemOp) : Bool := match o.reg with | some (.s n) => decide (n ≠ 0) | _ => false

/-- The outstanding operation a reply answers. -/
def State.answered (s : State) (p : Packet) (f : Nat → Bool) : Option RemOp :=
  s.fab.out.find? (fun o => decide (o.dev = p.src) && decide (o.seq = p.seq) && f o.type)

/-- A reply of a type for this package; a REFUSED or POISON one fails its operation at once; one after B finds none and is
discarded. -/
def fabReply (type : Nat) (p : Packet) (f : Nat → Bool) (s : State) (ok : State → RemOp → State) : State :=
  if p.type ≠ type ∨ p.dst ≠ s.devId then s
  else
    match s.answered p f with
    | none => s
    | some o =>
      if p.status = 3 then s
      else if p.status = 1 then s.failOp o 0x4003 1
      else if p.status = 2 ∨ p.poison = true then s.failOp o 0x4004 1
      else ok s o

/-- R404: a LOAD reply. -/
def execLoadRsp (p : Packet) (s : State) : Host.Outcome State Fault Refusal :=
  .next (fabReply 0x81 p (fun t => t == 1) s (fun s o => s.doneOp o (leNat (p.payload.take 64))))

/-- R404: an ATOMIC reply: the old value goes to s_d. The events it reports count here (R156): that of its word only where the instruction
returns the value. -/
def execAtomicRsp (p : Packet) (s : State) : Host.Outcome State Fault Refusal :=
  .next (fabReply 0x83 p (fun t => t == 5) s (fun s o =>
    let s := s.inc (Reg.PART_VAR_EVENTS.events o.part) (p.var % 2 + (if o.returns then p.var / 2 % 2 else 0))
    s.doneOp o (leNat (p.payload.take o.bytes))))

/-- R404, R412: an acknowledgement arrives on `port` (36: from this package): of a multicast copy, of a COLL packet, of a serving
message, or of a store, reduction or post. Variance events it reports count here (R156). -/
def execAck (p : Packet) (port : Nat) (s : State) : Host.Outcome State Fault Refusal :=
  if p.type ≠ 0x82 then .next s
  else
    match s.fab.mcast.find? (fun w => decide (w.src = p.dst) && decide (w.seq = p.seq) && w.waiting.contains port) with
    | some w =>
      let w1 := { w with waiting := w.waiting.filter (fun k => decide (k ≠ port)), count := w.count + p.count }
      let rest := s.fab.mcast.filter (fun x => decide (x ≠ w))
      if w1.waiting.isEmpty then .next (({ s with fab := { s.fab with mcast := rest } }).mcastAck w1 p 0 (State.endMcast w1.count))
      else .next { s with fab := { s.fab with mcast := rest ++ [w1] } }
    | none =>
      if p.dst ≠ s.devId then .next s
      else if (s.answered p (fun t => t == 0x0A)).isSome then
        .next (match s.domainPart p.domain with | some q => s.colAcked q p | none => s)
      else
        match s.answered p (fun t => t == 2 || t == 4 || t == 6 || t == 9) with
        | none => .next s
        | some o =>
          let s := if p.var = 0 then s else s.inc (Reg.PART_VAR_EVENTS.events o.part) p.var
          if p.status = 0 then .next (s.doneOp o 0)
          else if o.type = 9 then
            let t := (s.endOp o none).inc (Reg.SRV_CNT_B.epoch_stale o.part) 1
            .next (match t.svFind o.part o.packet (fun _ => true) with | some k => t.noteLost o.dev (some k) | none => t)
          else .next (s.failOp o (if p.status = 2 then 0x4004 else 0x4003) 1)

/-- R414: a reservation reply at the collective engine that asked. -/
def execRsvRsp (p : Packet) (s : State) : Host.Outcome State Fault Refusal :=
  if p.type ≠ 0x84 ∨ p.dst ≠ s.devId then .next s
  else
    let l := leNat (p.payload.take 64)
    match s.domainPart p.domain with
    | some q => .next (s.colReserved q (bits l 0 32) (if p.status = 0 then bits l 128 128 else 0))
    | none => .next s

/-- A packet of a collective was not acknowledged in time (R439): the collective ends with PEER_LOST. -/
def State.colUnheard (s : State) (o : RemOp) : State :=
  match s.coll o.part o.seq with
  | none => { s with fab := { s.fab with out := s.fab.out.filter (fun x => decide (x ≠ o)) } }
  | some c => (s.colFault c 0x500A).colFail c 0x33 true

/-- R404: B of an operation to device dev with sequence number seq has run out. Of a collective's packets (R439), a DATA has no such bound:
its acknowledgement is the credit of R429. -/
def execRemoteTimeout (dev seq : Nat) (s : State) : Host.Outcome State Fault Refusal :=
  match s.fab.out.find? (fun o => decide (o.dev = dev) && decide (o.seq = seq) && decide (o.type ≠ 0x0A)) with
  | none =>
    (match s.fab.out.find? (fun o => decide (o.dev = dev) && decide (o.seq = seq) && decide (o.line ≠ 1)) with
     | none => .next s
     | some o => .next ((s.advance o.deadline).colUnheard o))
  | some o =>
    let s := s.advance o.deadline
    .next (s.failOp o (if o.type = 5 then 0x4002 else if o.type = 3 then 0x4005 else 0x4001) 0)

/-- R405: a load or atomic with no reply is sent again at its retry interval, until 1.5 ms after its first transmission or B. -/
def execRetry (dev seq : Nat) (s : State) : Host.Outcome State Fault Refusal :=
  match s.fab.out.find? (fun o => decide (o.dev = dev) && decide (o.seq = seq) && (o.type == 1 || o.type == 5)) with
  | none => .next s
  | some o =>
    if o.deadline ≤ o.retryAt ∨ o.sentAt + usCycles 1500 < o.retryAt then .next s
    else
      let s := s.advance o.retryAt
      let s := { s with fab := { s.fab with out := s.fab.out.map (fun x => if x = o then { o with retryAt := o.retryAt + s.retryGap } else x) } }
      .next (s.send { o.packet with retry := true })

/-- R412: a multicast store arrives: copied to the other ports of its group, applied here, answered when all copies are. -/
def execMstore (p : Packet) (x : Arrival) (s : State) : Host.Outcome State Fault Refusal :=
  let g := p.dst - 0xF000
  if p.type ≠ 3 ∨ p.dst < 0xF000 ∨ p.kind ≠ 0 then .next s
  else if tooOld p then .next (s.inc Reg.FAB_STAT.lifetime_drops 1)
  else if 4095 ≤ g ∨ s.on (Reg.FAB_MCAST.valid g) = false then .next (s.inc Reg.FAB_STAT2.no_route 1)
  else
    let ports := s.mcastPorts g x.port
    let s := s.mcastCopies ports x.lvc p
    let a := p.addr / 64 * 64
    let r := if !s.on (Reg.FAB_MCAST.local g) then (s, 0)
      else
        match s.fabPart p with
        | none => (s.inc Reg.FAB_STAT2.refused 1, 0)
        | some q =>
          if !s.permit q a p.payload.length then (s.inc Reg.FAB_STAT2.refused 1, 0)
          else
            let t := s.arrive (some x.port) (addrNode a) (fun t => (t.tsAccess a p.payload.length true true).storeLines p a)
            (t, b2n (decide (t.fab.touched.length ≠ s.fab.touched.length)))
    let w : McastWait := ⟨p, p.src, p.seq, g, x.port, ports, r.2, s.time.cnt, 0⟩
    if ports.isEmpty then .next (r.1.mcastAck w p 0 (State.endMcast w.count))
    else .next { r.1 with fab := { r.1.fab with mcast := r.1.fab.mcast ++ [w] } }

/-- R412: 3B/4 has passed since the store of source src with sequence number seq arrived: the aggregated acknowledgement goes with what
has come. -/
def execMcastAckTimeout (src seq : Nat) (s : State) : Host.Outcome State Fault Refusal :=
  match s.fab.mcast.find? (fun w => decide (w.src = src) && decide (w.seq = seq)) with
  | none => .next s
  | some w =>
    let s := s.advance (w.since + 3 * s.bound / 4)
    let s := { s with fab := { s.fab with mcast := s.fab.mcast.filter (fun x => decide (x ≠ w)) } }
    .next (s.mcastAck w w.packet 4 (State.endMcast w.count))

/-! ### Links and transit (R392 to R397, R406) -/

/-- R396, R406: a packet for another package arrives on link channel lvc, having spent `stay` units of 64 ns here and on its link; it
goes on through the route tables. -/
def execForward (p : Packet) (lvc stay : Nat) (s : State) : Host.Outcome State Fault Refusal :=
  if p.dst = s.devId ∨ 0xF000 ≤ p.dst ∨ 4 ≤ lvc then .next s
  else
    let p := { p with age := min 65535 (p.age + stay) }
    if tooOld p && !isReply p.type then .next (s.inc Reg.FAB_STAT.lifetime_drops 1)
    else .next (s.routeFrom lvc p)

/-- R400: a packet of an unassigned type is dropped and counted. -/
def execMalformedPacket (p : Packet) (s : State) : Host.Outcome State Fault Refusal :=
  if (1 ≤ p.type ∧ p.type ≤ 0x0A) ∨ (0x81 ≤ p.type ∧ p.type ≤ 0x84) then .next s else .next (s.inc Reg.FAB_STAT2.malformed 1)

/-- An UP link goes DOWN (R394). -/
def State.fabDown (s : State) (k : Nat) : State :=
  if !s.portUp k then s.wr (Reg.FAB_PORT_STAT.state k) 0
  else
    (((s.wr (Reg.FAB_PORT_STAT.state k) 0).wr (Reg.FAB_PORT_STAT.peer_id k) 0xFFFF).inc (Reg.FAB_PORT_STAT.link_downs k) 1).fault
      { code := 0x7002, part := 0x40, die := if k < 32 then k / 4 else 8 + (k - 32) / 2, unit := k }

/-- R394: port k moves on by one state of its training. `ok`: the state's action succeeded; `peer`, `rev`: what the other side sends in
PARAM, where the device ID is kept for UP. -/
def execLinkTrain (k peer rev : Nat) (ok : Bool) (s : State) : Host.Outcome State Fault Refusal :=
  let st := s.rd (Reg.FAB_PORT_STAT.state k)
  let set := fun (t : State) (v : Nat) => t.wr (Reg.FAB_PORT_STAT.state k) v
  if 36 ≤ k ∨ s.on (Reg.FAB_PORT_CFG.en k) = false ∨ s.tilePresent (portTile k) = false then .next s
  else if st = 0 then .next (set s 1)
  else if 4 ≤ st then .next s
  else if !ok then .next (set s 0)
  else if st = 1 then .next (set s 2)
  else if st = 2 then
    if s.devId = 0xFFFF ∨ peer = 0xFFFF ∨ peer = s.devId ∨ rev ≠ s.rd Reg.GLB_ID.config_rev then
      .next ((set s 0).fault { code := 0x7003, part := 0x40, die := if k < 32 then k / 4 else 8 + (k - 32) / 2, unit := k })
    else .next (set { s with fab := { s.fab with peers := NMap.ins s.fab.peers k peer } } 3)
  else .next (((set s 4).wr (Reg.FAB_PORT_STAT.peer_id k) (NMap.get 0xFFFF s.fab.peers k)).wr Reg.GLB_DEVICE_ID.locked 1)

/-- R392: a flit of port k fails `times` times in a row; each of the first two failures brings a replay, the third takes the link down. -/
def execFlitReplay (k times : Nat) (s : State) : Host.Outcome State Fault Refusal :=
  if 36 ≤ k ∨ times = 0 then .next s
  else
    let s := s.inc (Reg.FAB_PORT_STAT.replays k) (min times 2)
    .next (if 3 ≤ times then s.fabDown k else s)

/-- R394: an UP link loses lock, falls silent or is disabled. -/
def execFabLinkDown (k : Nat) (s : State) : Host.Outcome State Fault Refusal :=
  if k < 36 ∧ s.portUp k = true then .next (s.fabDown k) else .next s

end Sys2Proof.Machine
end

