-- ==== Sys2Proof/Machine/Host.lean ====
section
/-! DEFINITION. The host interface: doorbells, fetching, the commands it executes itself, its link (R489 to R502, R518). -/

namespace Sys2Proof.Machine

/-! ### Doorbells and fetching (R493, R495, R505) -/

/-- A doorbell names queue q: its tail is read, once more after a read in progress; one for a queue whose owner is quiesced is
recorded. -/
def State.ringBell (s : State) (q : Nat) : State :=
  let h := s.hq_ q
  if !s.hqLive q then s
  else if h.reading || !s.hqMayFetch q then s.setHq q { h with again := true }
  else s.setHq q { h with reading := true }

/-- R493: the host, having stored `stores` (key of hostKey, byte) into its memory, writes HQ_DOORBELL. -/
def execDoorbell (q : Nat) (stores : List (Nat × Nat)) (s : State) : Host.Outcome State Fault Refusal :=
  .next ((s.hostStores stores).ringBell (q % 4096))

/-- R493: 2^(poll_code − 1) base ticks have passed since the last read of the tail. -/
def execTailPoll (q : Nat) (stores : List (Nat × Nat)) (s : State) : Host.Outcome State Fault Refusal :=
  let s := s.hostStores stores
  let code := s.rd (Reg.HQ_Q_CFG.poll_code q)
  let h := s.hq_ q
  if s.hqMayFetch q = false ∨ code = 0 ∨ 8 < code ∨ h.reading = true then .next s
  else
    let s := s.advance (h.lastRead + 100000 * 2 ^ (code - 1))
    .next (s.setHq q { s.hq_ q with reading := true })

/-- Fetch the read count of queue q's completion ring again, at most once per tick (R495). -/
def State.cqRefetch (s : State) (q pasid : Nat) : State :=
  let h := s.hq_ q
  if h.readAt = s.tickNum + 1 then s
  else
    match s.hostRd pasid (s.cqBase q + 8) 8 with
    | some v => s.setHq q { h with read := v, readAt := s.tickNum + 1 }
    | none => (s.setHq q { h with readAt := s.tickNum + 1 }).hqRingFail q (s.cqBase q + 8)

/-- Completion slots free for new commands. -/
def State.cqFree (s : State) (q : Nat) : Nat := s.cqSize q - (s.cqUnread q + (s.hq_ q).cmds.length)

/-- The entry at ring position i of queue q. -/
def State.sqEntry (s : State) (q pasid i : Nat) : Nat :=
  (s.hostRd pasid (s.sqBase q + 64 + 64 * (i % s.sqSize q)) 64).getD 0

/-- R493, R495: a tail read of queue q returns, and the new entries are fetched as far as completion slots allow. `ok`: the accesses
succeed at PCIe and ATS. -/
def execCommandFetch (q : Nat) (ok : Bool) (stores : List (Nat × Nat)) (s : State) : Host.Outcome State Fault Refusal :=
  let s := s.hostStores stores
  let h := s.hq_ q
  if h.reading = false ∨ s.hqMayFetch q = false then .next s
  else
    match (if ok then s.hqPasid q else none) with
    | none => .next ((s.setHq q { h with reading := false, again := false }).hqRingFail q (s.sqBase q))
    | some pasid =>
      match s.hostRd pasid (s.sqBase q) 8 with
      | none => .next ((s.setHq q { h with reading := false, again := false }).hqRingFail q (s.sqBase q))
      | some tail =>
        let n := (tail + 18446744073709551616 - h.head) % 18446744073709551616
        let s := s.setHq q { h with lastRead := s.time.cnt }
        if s.sqSize q < n then
          .next (((s.setHq q { s.hq_ q with reading := false, again := false }).hqStop q).fault
            { code := 0x2010, part := s.hqOwner q, unit := q % 256, sub := q / 256 % 16, arg1 := s.sqBase q })
        else
          let want := min n (256 - (s.hq_ q).cmds.length)
          let s := if s.cqFree q < want then s.cqRefetch q pasid else s
          let k := min want (s.cqFree q)
          let h := s.hq_ q
          let new := (List.range k).map (fun i => HCmd.mk ((h.head + i) % 18446744073709551616) (s.sqEntry q pasid (h.head + i)) false false)
          let head := (h.head + k) % 18446744073709551616
          let s := s.setHq q { h with head := head, cmds := h.cmds ++ new, reading := decide (k < n) || h.again, again := false }
          let s := (if k = 0 then s else s.hostWr pasid (s.sqBase q + 8) 8 head).wr (Reg.HQ_Q_FLAGS.stall_cq q) (b2n (decide (k < want)))
          .next (s.hqAdvance q 256)

/-! ### Commands of the host interface (R498 to R501) -/

/-- R498: NOP. -/
def execHqNop (q i : Nat) (s : State) : Host.Outcome State Fault Refusal :=
  .next (withHostCmd 0x01 q i s (fun c => s.hComplete q c (if hReservedOk c (msk 64 448) then stSuccess else stInvalid) 0))

/-- Fields of COPY_IN and COPY_OUT. -/
def cpIova (c : HCmd) : Nat := bits c.raw 64 64
def cpAddr (c : HCmd) : Nat := bits c.raw 128 48
def cpBytes (c : HCmd) : Nat := bits c.raw 192 32
def cpSem (c : HCmd) : Option Nat := if bit c.raw 238 then some (bits c.raw 224 14) else none

/-- A copy: checks in common, then the data; n of its lines were done when a host access failed. -/
def State.copyCmd (s : State) (q : Nat) (c : HCmd) (ok : Bool) (go : State → Nat → Nat → State) : State :=
  let o := s.hqOwner q
  let n := cpBytes c
  if hReservedOk c (msk 176 16 + msk 239 273) = false ∨ cpIova c % 64 ≠ 0 ∨ cpAddr c % 64 ≠ 0 ∨ n % 64 ≠ 0 ∨
      (match cpSem c with | some k => !s.semOwned k o | none => false) = true then s.hComplete q c stInvalid 0
  else if n = 0 then s.hComplete q c stSuccess 0
  else if !s.permit o (cpAddr c) n then s.hComplete q c stMemRefused 0
  else
    match (if ok && s.hostUp then s.hqPasid q else none) with
    | none =>
      -- the access fails part way: how many lines were done is not stated
      let done := match s.hqPasid q with
        | some pasid => if s.hostUp then go (s.took 1) pasid (64 * (Config.freeNat s.free % (n / 64))) else s
        | none => s
      (done.hqAccessFault q (cpIova c)).hComplete q c stHostFailed 0
    | some pasid =>
      let s := go s pasid n
      let s := match cpSem c with | some k => s.semPost k 1 | none => s
      s.hComplete q c stSuccess 0

/-- R498: COPY_IN: host memory into device local memory. -/
def execCopyIn (q i : Nat) (ok : Bool) (s : State) : Host.Outcome State Fault Refusal :=
  .next (withHostCmd 0x02 q i s (fun c => s.copyCmd q c ok (fun t pasid n =>
    ((((t.stRange 8 (cpAddr c) (Mem.bytes t.host (hostKey pasid (cpIova c)) n)).tsAccess (cpAddr c) n true true).rangeRecords 8 (cpAddr c) n).overwrite
      (cpAddr c) n (t.devId * 65536)))))

/-- The lines of [a, a + n) that are poisoned go to host memory at `iova` with the EP bit set (R219). -/
def State.copyMarks (s : State) (a pasid iova n : Nat) : State :=
  upto (n / 64) s (fun i t => if !t.meshLost 8 (a + 64 * i) && t.lineBad (a + 64 * i) then t.hostMark pasid (iova + 64 * i) 64 else t)

/-- R498: COPY_OUT: device local memory into host memory. -/
def execCopyOut (q i : Nat) (ok : Bool) (s : State) : Host.Outcome State Fault Refusal :=
  .next (withHostCmd 0x03 q i s (fun c => s.copyCmd q c ok (fun t pasid n =>
    ((((t.countPoison (cpAddr c) n).tsAccess (cpAddr c) n false true).rangeRecords 8 (cpAddr c) n).hostWr pasid (cpIova c) n
      (leNat (t.ldRange 8 (cpAddr c) n))).copyMarks (cpAddr c) pasid (cpIova c) n)))

/-- R498: SEM_POST. -/
def execSemPost (q i : Nat) (s : State) : Host.Outcome State Fault Refusal :=
  .next (withHostCmd 0x04 q i s (fun c =>
    let k := bits c.raw 64 14
    if hReservedOk c (msk 78 2 + msk 96 416) = false ∨ s.semOwned k (s.hqOwner q) = false then s.hComplete q c stInvalid 0
    else (s.semPost k (bits c.raw 80 16)).hComplete q c stSuccess 0))

/-- R499: NET_TX writes one frame into an egress queue of this host queue; it waits for room there, and completes when the frame has
been sent, or is rewound. -/
def execNetTx (q i : Nat) (ok : Bool) (s : State) : Host.Outcome State Fault Refusal :=
  .next (withHostCmd 0x10 q i s (fun c =>
    let e := bits c.raw 128 13
    let n := bits c.raw 208 16
    if hReservedOk c (msk 142 2 + msk 224 288) = false ∨ s.rd (Reg.EQS_Q_CFG.kind e) ≠ 3 ∨ s.rd (Reg.EQS_Q_CFG.owner e) ≠ q ∨ s.egqOn e = false then
      s.hComplete q c stInvalid 0
    else if n = 0 then s.hComplete q c stSuccess 0
    else if s.egOversize e n then ((s.took 1).egRewind e).hComplete q c (s.freeVal 16) 0
    else if !s.egRoom e n then s
    else
      match (if ok && s.hostUp then s.hqPasid q else none) with
      | none => (s.hqAccessFault q (bits c.raw 64 64)).hComplete q c stHostFailed 0
      | some pasid =>
        (s.hMark q i false).egCommit e ⟨Mem.bytes s.host (hostKey pasid (bits c.raw 64 64)) n, some (bits c.raw 144 48), some (bits c.raw 192 16), some (q, i), 0⟩))

/-- R500: RX_BUF posts a buffer; waiting frames fill it. One of no bytes does nothing (R15). -/
def execRxBuf (q i : Nat) (s : State) : Host.Outcome State Fault Refusal :=
  .next (withHostCmd 0x11 q i s (fun c =>
    if hReservedOk c (msk 160 352) = false ∨ bits c.raw 64 64 % 64 ≠ 0 then s.hComplete q c stInvalid 0
    else if bits c.raw 128 32 = 0 then s.hComplete q c stSuccess 0
    else (s.hMark q i true).hostDeliver q 64))

/-! ### The endpoint (R490, R491, R518) -/

/-- R490: an access has had no completion for 10 ms: of a ring of queue q, or of its command at ring position i. -/
def execHostAccessTimeout (q : Nat) (i : Option Nat) (s : State) : Host.Outcome State Fault Refusal :=
  match i with
  | none => .next (if s.hqLive q ∧ (s.hq_ q).reading = true then (s.setHq q { s.hq_ q with reading := false, again := false }).hqRingFail q (s.sqBase q) else s)
  | some i =>
    match s.hcmd q i with
    | none => .next s
    | some c =>
      .next (if s.hStartable q c ∧ (hOp c = 2 ∨ hOp c = 3 ∨ hOp c = 0x10 ∨ hOp c = 0x40 ∨ hOp c = 0x42) then
        (s.hqAccessFault q (if hOp c = 0x40 then bits c.raw 192 64 else if hOp c = 0x42 then bits c.raw 128 64 else bits c.raw 64 64)).hComplete q c
          (if hOp c = 0x40 then stUnreadable else stHostFailed) 0 else s)

/-- R490: an ATS invalidation completes once the accesses that used the translation have completed; every access of this model completes
within its step. -/
def execAtsInvalidation (s : State) : Host.Outcome State Fault Refusal := .next { s with hq := { s.hq with ats := s.hq.ats + 1 } }

/-- R491: a hot reset or loss of the link. -/
def execPcieLinkDown (s : State) : Host.Outcome State Fault Refusal := .next ((s.wr Reg.HQ_LINK.up 0).wr Reg.HQ_LINK.width 0 |>.wr Reg.HQ_LINK.speed 0)

/-- R491, R546: the link trains after CORE_READY with PCIE_PERST_N high, at a speed code (3 Gen5 to 5 Gen7) and width; a package without
radio tile 0 or an image does not train it (R42, R533). -/
def execPcieLinkUp (speed width : Nat) (s : State) : Host.Outcome State Fault Refusal :=
  .next (if !(s.pins.coreReady && s.pins.perst && decide (3 ≤ speed) && decide (speed ≤ 5) && [1, 2, 4, 8, 16].contains width) then s else ((s.wr Reg.HQ_LINK.up 1).wr Reg.HQ_LINK.speed speed).wr Reg.HQ_LINK.width width)

/-- R518: D0 or D3hot. -/
def execPciePowerState (d3 : Bool) (s : State) : Host.Outcome State Fault Refusal := .next { s with hq := { s.hq with d3hot := d3 } }

end Sys2Proof.Machine
end

