-- ==== Sys2Proof/Machine/Time.lean ====
section
/-! DEFINITION. The time unit: steps, rate, sources, holdover, reference inputs, fabric time, standby, pulses, start barriers (R366 to
R390). -/

namespace Sys2Proof.Machine

/-- A record of the time unit (R390, R472): `unit` is a barrier, a pulse or a port. -/
def State.timeFault (s : State) (code part unit : Nat) : State :=
  s.fault { code := code, part := part, die := 8 + s.rd Reg.TIME_STAT.active_unit, unit := unit, arg1 := s.nowNs }

/-! ### Pulses (R382) -/

def State.pulse (s : State) (k : Nat) : Pulse := NMap.get ⟨false, 0, none, false⟩ s.pulses k
def State.setPulse (s : State) (k : Nat) (p : Pulse) : State := { s with pulses := NMap.put ⟨false, 0, none, false⟩ s.pulses k p }

/-- The first target of a periodic pulse at or after T. -/
def State.firstTarget (s : State) (k : Nat) : Nat :=
  let start := s.rd (Reg.TIME_PULSE_START.start_ns k)
  let per := s.rd (Reg.TIME_PULSE_PERIOD.period_ns_m1 k) + 1
  let now := ((s.t32 + 4294967295) / 4294967296).toNat
  if now ≤ start then start else start + cdiv (now - start) per * per

/-- A pulse configuration takes effect: its first target. -/
def State.pulseReload (s : State) (k : Nat) : State :=
  let p := s.pulse k
  match s.rd (Reg.TIME_PULSE_CFG.mode k) with
  | 1 =>
    let start := s.rd (Reg.TIME_PULSE_START.start_ns k)
    if (start : Int) * 4294967296 < s.t32 then (s.setPulse k { p with next := none }).wr (Reg.TIME_PULSE_STAT.missed k) 1
    else s.setPulse k { p with next := some start }
  | 2 => s.setPulse k { p with next := some (s.firstTarget k) }
  | _ => s.setPulse k { p with next := none }

/-- A step moved T: a once target now past is missed, a periodic pulse goes on at the first target from the new T (R382). -/
def State.pulseStep (s : State) (k : Nat) : State :=
  let p := s.pulse k
  match p.next with
  | none => s
  | some t =>
    if s.rd (Reg.TIME_PULSE_CFG.mode k) = 2 then s.setPulse k { p with next := some (s.firstTarget k) }
    else if (t : Int) * 4294967296 < s.t32 then (s.setPulse k { p with next := none }).wr (Reg.TIME_PULSE_STAT.missed k) 1
    else s

/-- Drive the active edge of pulse k at the instant `at32` (units of 2^−32 ns); the end is fixed by the live width. -/
def State.pulseDrive (s : State) (k : Nat) (at32 : Int) (next : Option Nat) (once : Bool) : State :=
  let width := s.rd (Reg.TIME_PULSE_CFG.width_ns_m1 k) + 1
  (s.setPulse k ⟨true, at32 + (width : Int) * 4294967296, next, once⟩).inc (Reg.TIME_PULSE_STAT.edges k) 1

/-- R382: T reaches the next target of output k; its edge is driven lead_cycles early. -/
def execTimePulse (k : Nat) (s : State) : Host.Outcome State Fault Refusal :=
  match (s.pulse k).next with
  | none => .next s
  | some t =>
    let lead := s.rd (Reg.TIME_PULSE_CFG.lead_cycles k)
    let s := s.advance (s.cycleOf ((t : Int) * 4294967296) - lead)
    let mode2 := s.rd (Reg.TIME_PULSE_CFG.mode k) == 2
    .next (s.pulseDrive k ((t : Int) * 4294967296 - (lead : Int) * 2684354560)
      (if mode2 then some (t + s.rd (Reg.TIME_PULSE_PERIOD.period_ns_m1 k) + 1) else none) (!mode2))

/-- R382: the pulse in progress at output k ends; after a once pulse, done sets. -/
def execPulseEnd (k : Nat) (s : State) : Host.Outcome State Fault Refusal :=
  let p := s.pulse k
  if p.active then
    let s := (s.advance (s.cycleOf p.endT)).setPulse k { p with active := false, once := false }
    .next (if p.once then s.wr (Reg.TIME_PULSE_STAT.done k) 1 else s)
  else .next s

/-! ### Start barriers (R383 to R388) -/

def State.bar (s : State) (b : Nat) : Bar := NMap.get ⟨false, 0, none, 0, false⟩ s.bars b
def State.setBar (s : State) (b : Nat) (x : Bar) : State := { s with bars := NMap.put ⟨false, 0, none, 0, false⟩ s.bars b x }

/-- Barrier b watches arr_sem: a non-zero one gives its unit at once, a zero one registers the barrier (R383, R195). -/
def State.barWatch (s : State) (b : Nat) : State :=
  let x := s.bar b
  if x.arrived || x.watching || !s.on (Reg.TIME_BAR_CFG.enable b) || !s.on (Reg.TIME_BAR_SEM.arr_en b) then s
  else
    let k := s.rd (Reg.TIME_BAR_SEM.arr_sem b)
    (s.setBar b { x with watching := true }).semRegister k (.barrier b) |>.semServe k (s.semWaiters k).length.succ

/-- Barrier b stops watching semaphore k; a unit already on its way goes back. -/
def State.barUnwatch (s : State) (b k : Nat) : State :=
  let s := (s.setBar b { s.bar b with watching := false }).semWithdraw k (.barrier b)
  match s.sem.grants.find? (fun g => decide (g.dest = .barrier b)) with
  | none => s
  | some g => ({ s with sem := { s.sem with grants := s.sem.grants.filter (fun x => decide (x ≠ g)) } }).semPost g.sem 1

/-- The ARRIVE of barrier b for its generation: an exactly-once atomic to the root (R383; layout: log 44). -/
def State.sendArrive (s : State) (b : Nat) : State :=
  let part := s.rd (Reg.TIME_BAR_SEM.partition b)
  let ga := s.rd (Reg.TIME_BAR_CFG.root b) * 281474976710656 + b
  let s := s.newGroup
  s.launchOp { s.request 5 part ga with kind := 1, payload := leBytes (s.rd (Reg.TIME_BAR_STAT.gen b)) 2 } part ga none none 0 0 0 s.fab.group 0

/-- This member arrives at barrier b; one that has arrived ignores it (R383). -/
def State.barArrive (s : State) (b : Nat) : State :=
  if 8 ≤ b ∨ s.on (Reg.TIME_BAR_CFG.enable b) = false ∨ (s.bar b).arrived = true then s
  else
    let s := s.barUnwatch b (s.rd (Reg.TIME_BAR_SEM.arr_sem b))
    (s.setBar b { s.bar b with arrived := true, arriveAt := s.time.cnt }).sendArrive b

/-- R383: the manager writes TIME_BAR_CTRL[b].arrive = 1. -/
def execBarrierArrive (b : Nat) (s : State) : Host.Outcome State Fault Refusal := .next (s.barArrive b)

/-- A grant of arr_sem reaches barrier b: the decrement has been done, and the member arrives. -/
def State.grantBar (s : State) (q b : Nat) : State :=
  let s := s.setBar b { s.bar b with watching := false }
  if s.on (Reg.TIME_BAR_CFG.enable b) && !(s.bar b).arrived then s.barArrive b else s.semPost q 1

/-- R383: with arr_en, the decrement of a non-zero arr_sem reaches barrier b. -/
def execArrSemArrive (b : Nat) (s : State) : Host.Outcome State Fault Refusal :=
  let s := s.barWatch b
  match s.sem.grants.find? (fun g => decide (g.dest = .barrier b)) with
  | none => .next s
  | some g => .next (({ s with sem := { s.sem with grants := s.sem.grants.filter (fun x => decide (x ≠ g)) } }).grantBar g.sem b)

/-- The generation of barrier b ends, fired or aborted: gen advances, the count starts anew (R385, R386). -/
def State.barNext (s : State) (b : Nat) : State :=
  let s := ((s.incw (Reg.TIME_BAR_STAT.gen b) 1).wr (Reg.TIME_BAR_STAT.arrived b) 0).setBar b
    { s.bar b with arrived := false, arriveAt := 0, release := none, firstArrive := 0 }
  s.barWatch b

/-- Barrier b fires for the release time `t` (R385). -/
def State.barFire (s : State) (b t : Nat) : State :=
  let now := s.t32
  let s := if s.on (Reg.TIME_BAR_SEM.rel_en b) then s.semPost (s.rd (Reg.TIME_BAR_SEM.rel_sem b)) 1 else s
  let s := each (List.range 4) s (fun k u =>
    if bit (u.rd (Reg.TIME_BAR_SEM.pulse_mask b)) k && (u.rd (Reg.TIME_PULSE_CFG.mode k) == 3) then u.pulseDrive k now none false else u)
  (s.wr (Reg.TIME_BAR_REL.t_rel b) t).barNext b

/-- Barrier b aborts its generation (R386, R388). -/
def State.barAbort (s : State) (b : Nat) : State :=
  ((s.wr (Reg.TIME_BAR_STAT.timeout b) 1).timeFault 0x6007 (s.rd (Reg.TIME_BAR_SEM.partition b)) b).barNext b

/-- Is an arrival outstanding in this generation, here or at this root? -/
def State.barOutstanding (s : State) (b : Nat) : Bool := (s.bar b).arrived || decide (s.rd (Reg.TIME_BAR_STAT.arrived b) ≠ 0)

/-- The root counts an arrival of generation gen; the one that completes the count releases (R384). -/
def State.barCount (s : State) (b gen : Nat) : State :=
  if gen ≠ s.rd (Reg.TIME_BAR_STAT.gen b) then s.inc (Reg.TIME_BAR_STAT.stale b) 1
  else
    let n := s.rd (Reg.TIME_BAR_STAT.arrived b) + 1
    let s := s.wr (Reg.TIME_BAR_STAT.arrived b) n
    let s := if n = 1 then s.setBar b { s.bar b with firstArrive := s.time.cnt } else s
    if n ≠ s.rd (Reg.TIME_BAR_CFG.members_m1 b) + 1 then s
    else
      let t := ((s.t32 + 2147483648) / 4294967296).toNat + s.rd (Reg.TIME_BAR_CFG.lead_ns b)
      let part := s.rd (Reg.TIME_BAR_SEM.partition b)
      s.send { s.request 3 part ((0xF000 + s.rd (Reg.TIME_BAR_CFG.group b) % 4096) * 281474976710656 + b) with
        kind := 2, payload := leBytes gen 2 ++ leBytes t 8 }

/-- R384: an ARRIVE reaches the root; it is counted once (R407) and answered. -/
def execArrive (p : Packet) (s : State) : Host.Outcome State Fault Refusal :=
  let b := p.addr
  .next (if p.kind ≠ 1 ∨ 8 ≤ b then s
    else fabIn 5 p s (fun s q =>
      if (NMap.get [] s.fab.dedup p.src).any (fun e => decide (e.1 = p.seq)) then (s.inc Reg.FAB_STAT.dedup_hits 1).send (s.replyTo p 0x83 0 (leBytes 0 8))
      else if s.on (Reg.TIME_BAR_CFG.enable b) = false ∨ s.rd (Reg.TIME_BAR_CFG.root b) ≠ s.devId ∨ s.rd (Reg.TIME_BAR_SEM.partition b) ≠ q then s.refuse p 0x83
      else
        match s.dedupSlot p.src with
        | none => (s.inc Reg.FAB_DEDUP_STAT.busy 1).send (s.replyTo p 0x83 3 [])
        | some s =>
          let l := NMap.get [] s.fab.dedup p.src
          let l := (if 256 ≤ l.length then l.drop 1 else l) ++ [(p.seq, 0)]
          let s := { s with fab := { s.fab with dedup := NMap.put [] s.fab.dedup p.src l, dedupAt := NMap.put 0 s.fab.dedupAt p.src s.time.cnt } }
          (s.send (s.replyTo p 0x83 0 (leBytes 0 8))).barCount b (leNat (p.payload.take 2))))

/-- R385: a RELEASE arrives; it is copied to the group's other ports, and a member takes its time. -/
def execRelease (p : Packet) (x : Arrival) (s : State) : Host.Outcome State Fault Refusal :=
  let g := p.dst - 0xF000
  let b := p.addr
  if p.type ≠ 3 ∨ p.kind ≠ 2 ∨ p.dst < 0xF000 ∨ 8 ≤ b then .next s
  else if tooOld p then .next (s.inc Reg.FAB_STAT.lifetime_drops 1)
  else if 4095 ≤ g ∨ s.on (Reg.FAB_MCAST.valid g) = false then .next (s.inc Reg.FAB_STAT2.no_route 1)
  else
    let s := s.mcastCopies (s.mcastPorts g x.port) x.lvc p
    let t := leNat ((p.payload.drop 2).take 8)
    if !s.on (Reg.FAB_MCAST.local g) || s.fabPart p != some (s.rd (Reg.TIME_BAR_SEM.partition b)) || !s.on (Reg.TIME_BAR_CFG.enable b) ||
        decide (s.rd (Reg.TIME_BAR_CFG.group b) % 4096 ≠ g) || decide (leNat (p.payload.take 2) ≠ s.rd (Reg.TIME_BAR_STAT.gen b)) then .next s
    else if (t : Int) * 4294967296 ≤ s.t32 then
      .next (((s.wr (Reg.TIME_BAR_STAT.late b) 1).timeFault 0x6006 (s.rd (Reg.TIME_BAR_SEM.partition b)) b).barFire b t)
    else .next (s.setBar b { s.bar b with release := some t })

/-- R385: T reaches the release time of barrier b. -/
def execBarrierFire (b : Nat) (s : State) : Host.Outcome State Fault Refusal :=
  match (s.bar b).release with
  | none => .next s
  | some t => .next ((s.advanceNs t).barFire b t)

/-- R386: the bound passes with no RELEASE at a member that has arrived, or with an incomplete count at the root. -/
def execBarrierTimeout (b : Nat) (s : State) : Host.Outcome State Fault Refusal :=
  let x := s.bar b
  let n := s.rd (Reg.TIME_BAR_STAT.arrived b)
  let root := decide (n ≠ 0) && decide (n ≤ s.rd (Reg.TIME_BAR_CFG.members_m1 b))
  if 8 ≤ b ∨ x.release.isSome = true ∨ (x.arrived = false ∧ root = false) then .next s
  else
    let due := (if x.arrived then [x.arriveAt + s.bound] else []) ++ (if root then [x.firstArrive + s.bound] else [])
    .next ((s.advance (due.foldl min (due.headD 0))).barAbort b)

/-! ### Steps and rate (R367 to R369) -/

/-- T moves by `d` (units of 2^−32 ns): base_t, of 96 bits, wraps (R366); pulses and barriers follow (R382, R388). -/
def State.stepTime (s : State) (d : Int) : State :=
  let s := s.meterTicks
  let s := (({ s with time := { s.time with baseT := (s.time.baseT + d) % 79228162514264337593543950336 } }).wr Reg.TIME_STAT.valid 1).tickMark
  let s := each (List.range 4) s (fun k t => t.pulseStep k)
  each (List.range 8) s (fun b t => if t.barOutstanding b then t.barAbort b else t)

/-- A whole TIME_STEP has been written (R369). -/
def State.timeStep (s : State) (v : Nat) : State :=
  if s.on Reg.TICK_STAT.running || s.tick.starting || s.on Reg.TICK_SWITCH_STAT.armed then s.timeFault 0x2004 0x40 0
  else s.stepTime (sInt v 64 * 4294967296)

/-- R369: TIME_STEP. -/
def execTimeStep (v : Nat) (s : State) : Host.Outcome State Fault Refusal := .next (s.timeStep v)

/-- The limit of R368. -/
def rateLimit : Int := 28147497671

/-- A rate takes effect: time is rebased, and the clamped rate applies (R367, R368). -/
def State.applyRate (s : State) (r : Int) : State :=
  let c := max (-rateLimit) (min rateLimit r)
  let s := if c = r then s else s.wr Reg.TIME_STAT.rate_clamped 1
  ({ s with time := { s.time with baseT := s.t32, baseCnt := s.time.cnt, rate := c } }).wr Reg.TIME_RATE.rate (ofInt c 36)

/-- Holdover ends (R372). -/
def State.leaveHold (s : State) : State :=
  ((s.wr Reg.TIME_STAT.holdover 0).wr Reg.TIME_STAT.hold_cause 0).wr Reg.TICK_STAT.holdover 0

/-- Holdover begins: 1 hold_req, 2 watchdog, 3 fabric link (R372). -/
def State.enterHold (s : State) (cause : Nat) : State :=
  if s.on Reg.TIME_STAT.holdover then s
  else
    let s := ((s.wr Reg.TIME_STAT.holdover 1).wr Reg.TIME_STAT.hold_cause cause).wr Reg.TICK_STAT.holdover 1
    ({ s with time := { s.time with exitReady := false } }).timeFault 0x6002 0x40 (if cause = 3 then s.rd Reg.TIME_CTRL.fab_port else 0)

/-- TIME_RATE is written (R367, R371 to R373). -/
def State.timeRate (s : State) (v : Nat) : State :=
  let source := s.rd Reg.TIME_CTRL.source
  let hold := s.on Reg.TIME_STAT.holdover
  let r := sInt v 36
  if source = 2 ∨ (hold = true ∧ ¬(source = 1 ∧ s.time.exitReady = true)) then s.inc Reg.TIME_HOLD.discarded 1
  else
    let s := if hold then s.leaveHold else s
    ({ s with time := { s.time with lastRate := s.time.cnt } }).applyRate r

/-- R367: TIME_RATE. -/
def execTimeRate (v : Nat) (s : State) : Host.Outcome State Fault Refusal := .next (s.timeRate v)

/-! ### Sources and holdover (R371 to R373) -/

/-- TIME_CTRL is written with v (R371, R373). -/
def State.timeCtrl (s : State) (v : Nat) : State :=
  let old := s.rd Reg.TIME_CTRL.source
  let src := bits v 0 2
  if src = 3 then s.badAccess 0x200000
  else
    let s := s.setReg 0x200000 (BitVec.ofNat 64 (bits v 0 10))
    let s := if src = old then s
      else
        let t := if src = 1 then { s.time with lastSource := s.time.cnt } else s.time
        let t := { t with fabN := 0, fabSum := 0, fabD := none, fabStepped := false, fabGood := 0, fabLast := s.time.cnt }
        let s := { s with time := t }
        if old = 2 then ((s.wr Reg.TIME_STAT.fab_locked 0).wr Reg.TIME_STAT.up_holdover 0).wr Reg.TIME_FAB.hops 0xFF else s
    if src ≠ 2 ∧ bit v 3 = true then ({ s with time := { s.time with exitReady := false } }).enterHold 1
    else if s.on Reg.TIME_STAT.holdover && !bit v 3 then
      if src = 0 then s.leaveHold
      else if src = 1 then { s with time := { s.time with exitReady := true } }
      else s
    else s

/-- R371: TIME_CTRL.source changes, with the servo and the upstream port; hold_req stays. -/
def execTimeSource (source servoMgr fabPort : Nat) (s : State) : Host.Outcome State Fault Refusal :=
  .next (s.timeCtrl (source % 4 + 4 * (servoMgr % 2) + 8 * s.rd Reg.TIME_CTRL.hold_req + 16 * (fabPort % 64)))

/-- R373: TIME_CTRL.hold_req is written; the other fields stay. -/
def execHoldReq (v : Bool) (s : State) : Host.Outcome State Fault Refusal :=
  .next (s.timeCtrl (setBits (s.reg 0x200000).toNat 3 1 (b2n v)))

/-- R373: no TIME_RATE write for wd_ms in servo mode. -/
def execServoWatchdog (s : State) : Host.Outcome State Fault Refusal :=
  let wd := s.rd Reg.TIME_HOLD.wd_ms
  if s.rd Reg.TIME_CTRL.source ≠ 1 ∨ wd = 0 ∨ s.on Reg.TIME_STAT.holdover = true then .next s
  else .next ((s.advance (max s.time.lastRate s.time.lastSource + msCycles wd)).enterHold 2)

/-- The phase error of the source in ns: each report of one above the threshold sets the alarm and is recorded (R370). -/
def State.phaseAlarm (s : State) (err : Nat) : State :=
  let lim := s.rd Reg.TIME_HOLD.phase_alarm_ns
  if decide (lim ≠ 0) && decide (lim < err) then
    (s.wr Reg.TIME_STAT.phase_alarm 1).timeFault 0x6001 0x40 0
  else s

/-! ### PPS and 10 MHz (R377) -/

/-- R377: a rising edge of PPS_IN. -/
def execPpsEdge (s : State) : Host.Outcome State Fault Refusal :=
  let s := ((s.wr Reg.TIME_PPS_CAP.t_ns s.nowNs).incw Reg.TIME_REF_STAT.pps_edges 1).wr Reg.TIME_STAT.pps_ok 1
  .next { s with time := { s.time with lastPps := s.time.cnt } }

/-- R377: a 10 MHz count of `cycles` arithmetic cycles completes. -/
def execRef10Count (cycles : Nat) (s : State) : Host.Outcome State Fault Refusal :=
  let s := s.advance (s.time.lastRef + cycles)
  let s := ({ s with time := { s.time with lastRef := s.time.cnt } }).wr Reg.TIME_REF_STAT.ref10_cycles cycles
  if 1599680000 ≤ cycles ∧ cycles ≤ 1600320000 then .next (s.wr Reg.TIME_STAT.ref10_ok 1)
  else if s.on Reg.TIME_STAT.ref10_ok then .next ((s.wr Reg.TIME_STAT.ref10_ok 0).timeFault 0x6004 0x40 0)
  else .next s

/-- R377: no PPS edge for 1.1 s. -/
def execPpsLost (s : State) : Host.Outcome State Fault Refusal :=
  if s.on Reg.TIME_STAT.pps_ok then
    .next (((s.advance (s.time.lastPps + msCycles 1100)).wr Reg.TIME_STAT.pps_ok 0).timeFault 0x6003 0x40 0)
  else .next s

/-- R377: no 10 MHz count for 1.1 s. -/
def execRef10Lost (s : State) : Host.Outcome State Fault Refusal :=
  if s.on Reg.TIME_STAT.ref10_ok then
    .next (((s.advance (s.time.lastRef + msCycles 1100)).wr Reg.TIME_STAT.ref10_ok 0).timeFault 0x6004 0x40 0)
  else .next s

/-! ### Fabric time and the standby (R378 to R381) -/

/-- The offset o of an exchange, in units of 2^−6 ns, acts on rate, lock and alarm (R378, R370). The loop's coefficients are not given:
the rate is a free value (log 3). -/
def State.fabFollow (s : State) (o : Int) : State :=
  let s := s.wr Reg.TIME_FAB.offset (ofInt o 32)
  let s := (s.took 1).applyRate (sInt (s.freeVal 36) 36)
  let good := if o.natAbs < 64 then min 1000 (s.time.fabGood + 1) else 0
  let s := { s with time := { s.time with fabGood := good } }
  let s := if 1000 ≤ good then s.wr Reg.TIME_STAT.fab_locked 1 else if 128 ≤ o.natAbs then s.wr Reg.TIME_STAT.fab_locked 0 else s
  s.phaseAlarm (cdiv o.natAbs 64)

/-- The hop count that this unit sends: 0 where it drives its own rate, else the one it shows (R378). -/
def State.ownHops (s : State) : Nat := if s.rd Reg.TIME_CTRL.source < 2 then 0 else s.rd Reg.TIME_FAB.hops

/-- The exchange that goes back on a port: this unit's T, the time at which the peer's arrived, the hop count and the flags (R393). -/
def State.exchange (s : State) (port : Nat) (heard : Int) : State :=
  { s with time := { s.time with
    exch := NMap.ins s.time.exch port ⟨s.t32 / 67108864, heard, s.ownHops, s.on Reg.TIME_STAT.valid, s.on Reg.TIME_STAT.holdover⟩ } }

/-- R378: a time exchange arrives on a port, all times in units of 2^−6 ns: this unit sent its exchange at `t1`, the peer received it at
`t2` and sent the present one at `t3`; it carries the peer's hop count and holdover flag. The follower of that port steers by it; on every port it is answered. -/
def execTimeExchange (port : Nat) (t1 t2 t3 : Int) (hops : Nat) (hold : Bool) (s : State) : Host.Outcome State Fault Refusal :=
  let t4 : Int := s.t32 / 67108864
  if s.rd Reg.TIME_CTRL.source ≠ 2 ∨ port ≠ s.rd Reg.TIME_CTRL.fab_port then .next (s.exchange port t4)
  else
    let s := if s.on Reg.TIME_STAT.holdover then s.leaveHold else s
    let s := (s.wr Reg.TIME_FAB.hops (min 255 (hops + 1))).wr Reg.TIME_STAT.up_holdover (b2n hold)
    let n := s.time.fabN + 1
    let sum := s.time.fabSum + ((t4 - t1) - (t3 - t2))
    let full := decide (64 ≤ n)
    let d : Option Int := if full then some (sum / 128) else s.time.fabD
    let s := { s with time := { s.time with fabN := if full then 0 else n, fabSum := if full then 0 else sum, fabD := d, fabLast := s.time.cnt } }
    match d with
    | none => .next (s.exchange port t4)
    | some d =>
      let s := s.wr Reg.TIME_FAB.link_delay (ofInt d 24)
      let o := t4 - (t3 + d)
      if s.time.fabStepped then .next ((s.fabFollow o).exchange port t4)
      else
        let s := { s with time := { s.time with fabStepped := true } }
        if s.on Reg.TICK_STAT.running then .next ((s.fabFollow o).exchange port t4)
        else .next (((s.wr Reg.TIME_FAB.offset (ofInt o 32)).stepTime (-o * 67108864)).exchange port t4)

/-- R379: the upstream link fails (`failed`), or carries no exchange for 16 µs. -/
def execFabricHoldover (failed : Bool) (s : State) : Host.Outcome State Fault Refusal :=
  if s.rd Reg.TIME_CTRL.source ≠ 2 ∨ s.on Reg.TIME_STAT.holdover = true then .next s
  else .next ((if failed then s else s.advance (s.time.fabLast + usCycles 16)).enterHold 3)

/-- R381: the active time unit flags its parity, or misses 16 cycles of heartbeat; the standby's lines are used from then on. A package without radio tile 1 has no standby (R43). -/
def execUnitTakeover (parity : Bool) (s : State) : Host.Outcome State Fault Refusal :=
  if s.on Reg.TIME_STAT.active_unit || !s.on Reg.GLB_CAP_TILES.standby_ok then .next s
  else
    let s := if parity then s else s.advance (s.time.cnt + 16)
    .next (((s.wr Reg.TIME_STAT.active_unit 1).wr Reg.TICK_STAT.active_unit 1).timeFault 0x8003 0x40 0)

/-- R381: the two units disagree with no failure flagged. -/
def execUnitMismatch (s : State) : Host.Outcome State Fault Refusal :=
  .next (if s.on Reg.GLB_CAP_TILES.standby_ok then (s.wr Reg.TIME_STAT.standby_ok 0).timeFault 0x6005 0x40 0 else s)

end Sys2Proof.Machine
end

