-- ==== Sys2Proof/Machine/Management.lean ====
section
/-! DEFINITION. Wioliz: the management loop, the mailbox, power, identity, configuration records, firmware update, settings, the log
(R507 to R537). -/

namespace Sys2Proof.Machine

/-- A program or erase of the flash: FLASH_WP_N is high while it lasts (R549). -/
def State.modFlash (s : State) (f : MgtSt → MgtSt) : State := s.modMgt (fun g => let h := f g; { h with wpHigh := h.wpHigh + 1 })

/-! ### Log, faults, mailbox (R509, R535, R536) -/

/-- One log entry: an event and its arguments (R535). The flash region holds 131,072 entries; the oldest is overwritten. -/
def State.logEvent (s : State) (event args : Nat) : State :=
  let ok := s.on Reg.TIME_STAT.valid
  let e := setBits (setBits (setBits (setBits (setBits 0 0 32 s.mgt.logNext) 32 16 event) 64 64 (if ok then s.nowNs else s.time.cnt)) 128 1
    (b2n (!ok))) 256 256 args
  let l := s.mgt.log ++ [e]
  (s.modFlash (fun g => { g with log := l.drop (l.length - 131072), logNext := (s.mgt.logNext + 1) % 4294967296 }))

/-- A fault record of Wioliz (R536). -/
def State.mgtRec (s : State) (code arg0 arg1 : Nat) : FRec :=
  let c := s.rd Reg.MGT_STAT.active_core
  { code := code, part := 0x40, die := 8 + c, unit := c, arg0 := arg0, arg1 := arg1 }

/-- The record, with a log entry of the same fields. -/
def State.mgtFault (s : State) (code arg0 arg1 : Nat) (event : Option Nat) : State :=
  let r := s.mgtRec code arg0 arg1
  let s := match event with | some e => s.logEvent e (r.word s.tickNum) | none => s
  s.fault r

/-- The next loop boundary: a multiple of 1,600,000 of CNT that no loop has taken (R507). -/
def State.nextLoop (s : State) : Nat :=
  if s.time.cnt % 1600000 = 0 ∧ s.mgt.loopAt ≠ s.time.cnt then s.time.cnt else (s.time.cnt / 1600000 + 1) * 1600000

/-- The command that is held, where its opcode is `op` (R510). -/
def State.mboxCmd (s : State) (op : Nat) : Option Nat :=
  match s.mgt.cmd with
  | some (_, raw) => if bits raw 0 8 = op then some raw else none
  | none => none

/-- The response: status, seq, and the fields from bit 32 upward; then done_seq advances and busy clears (R509). -/
def State.respond (s : State) (status body : Nat) : State :=
  match s.mgt.cmd with
  | none => s
  | some (seq, _) =>
    let v := setBits (setBits (setBits 0 0 16 status) 16 16 seq) 32 96 body
    let s := each (List.range 4) s (fun i t => t.wr (Reg.MGT_MBOX_RESP.data i) (bits v (64 * i) 64))
    let s := (s.modMgt (fun g => { g with cmd := none }))
    (s.wr Reg.MGT_MBOX_STAT.done_seq seq).wr Reg.MGT_MBOX_STAT.busy 0

/-- A mailbox row: the held command, if it is this one. -/
def mboxRow (op : Nat) (s : State) (body : State → Nat → State) : Host.Outcome State Fault Refusal :=
  .next (match s.mboxCmd op with
    | some raw => body s raw
    | none => s)

def mInvalid : Nat := 0x2
def mMemRefused : Nat := 0x40
def mStateRefused : Nat := 0x50
def mBadSignature : Nat := 0x51
def mFlashError : Nat := 0x52
def mNoIdentity : Nat := 0x53
def mPending : Nat := 0x54

/-- May Wioliz reach n bytes at a (R510)? A status where it may not. -/
def State.mboxRange (s : State) (a n : Nat) : Option Nat :=
  if a % 64 ≠ 0 then some mInvalid else if s.permit 0x40 a n then none else some mMemRefused

/-- A write of MGT_MBOX_SUBMIT (R509). -/
def State.mboxSubmit (s : State) (seq : Nat) : State :=
  if s.on Reg.MGT_MBOX_STAT.busy || decide (seq % 65536 ≠ (s.rd Reg.MGT_MBOX_STAT.done_seq + 1) % 65536) then s.badAccess 0xF000140
  else (s.modMgt (fun g => { g with submit := some (seq % 65536) }))

/-- The opcodes of R510. -/
def mboxKnown (op : Nat) : Bool := [1, 0x10, 0x11, 0x12, 0x13, 0x20, 0x21, 0x22, 0x23, 0x30, 0x31, 0x32, 0x40, 0x41, 0x42].contains op

/-- The loop takes the submitted command (R509). -/
def State.mboxTake (s : State) : State :=
  match s.mgt.submit, s.mgt.cmd with
  | some seq, none =>
    if s.rd Reg.MGT_STAT.state = 2 then s
    else
      let raw := leNat ((List.range 8).flatMap (fun i => leBytes (s.reg (Reg.MGT_MBOX_CMD.all i).off).toNat 8))
      let s := ((s.modMgt (fun g => { g with submit := none, cmd := some (seq, raw) }))).wr Reg.MGT_MBOX_STAT.busy 1
      if mboxKnown (bits raw 0 8) then s else s.respond mInvalid 0
  | _, _ => s

/-! ### Settings (R534) -/

def settingDefault (id : Nat) : Nat := match id with | 1 => 3600 | 2 => 95 | 3 => 85 | _ => 0x4A
def settingRange (id v : Nat) : Bool :=
  match id with
  | 1 => decide (100 ≤ v) && decide (v ≤ 3600)
  | 2 => decide (60 ≤ v) && decide (v ≤ 105)
  | 3 => decide (60 ≤ v) && decide (v ≤ 95)
  | 4 => decide (8 ≤ v) && decide (v ≤ 0x77)
  | _ => false

/-- The stored format and value of a setting; never stored: the default in the running image's format. -/
def State.setting (s : State) (id : Nat) : Nat × Nat :=
  match NMap.find s.mgt.stored id with
  | some x => x
  | none => (Config.imgFormat s.mgt.running.version id, settingDefault id)

/-- A setting's live value. -/
def State.setLive (s : State) (id v : Nat) : State :=
  match id with
  | 1 => s.wr Reg.MGT_PWR_CFG.limit_w v
  | 2 => s.wr Reg.MGT_THERM_CFG.die_setpoint v
  | 3 => s.wr Reg.MGT_THERM_CFG.hbm_setpoint v
  | 4 => (s.modMgt (fun g => { g with smbAddr := v }))
  | _ => s

/-- An image starts and reads the settings: one in another format is reset to its default, in SRAM only while in trial. -/
def State.readSettings (s : State) (trial : Bool) : State :=
  each [1, 2, 3, 4] s (fun id t =>
    let x := t.setting id
    let f := Config.imgFormat t.mgt.running.version id
    if x.1 = f then t.setLive id x.2
    else
      let t := t.setLive id (settingDefault id)
      let t := if trial then (t.modMgt (fun g => { g with trialResets := t.mgt.trialResets ++ [id] }))
        else (t.modFlash (fun g => { g with stored := NMap.ins t.mgt.stored id (f, settingDefault id) }))
      (t.logEvent 5 (setBits (setBits (setBits 0 0 16 id) 16 16 x.1) 32 16 f)).mgtFault 0x9003 id (x.1 % 65536 + f % 65536 * 65536) none)

/-! ### Firmware states (R529 to R532) -/

/-- MGT_FW_STAT.state changes; the log says so. -/
def State.fwState (s : State) (v : Nat) : State := if s.rd Reg.MGT_FW_STAT.state = v then s else (s.wr Reg.MGT_FW_STAT.state v).logEvent 3 0

/-- An image of `ver` runs from here on. -/
def State.runImage (s : State) (i : Img) : State := ((s.modMgt (fun g => { g with running := i }))).wr Reg.MGT_FW_STAT.active_version i.version

/-- The trial of an image begins. -/
def State.startTrial (s : State) (i : Img) : State :=
  let s := (s.modMgt (fun g => { g with old := s.mgt.running, trialEnd := s.time.cnt + 48000000000, clean := 0, ptpLoops := 0, trialResets := [], coldTrial := false }))
  (((s.runImage i).wr Reg.MGT_HEALTH.confirm 0).wr Reg.MGT_HEALTH.trial_s 30).fwState 4

/-- The handover of R530 at a loop boundary: the other core runs the staged image from the last state block, and writes the ACTIVATE
response. -/
def State.handover (s : State) : State :=
  match s.mgt.staged with
  | none => s
  | some i =>
    let s := s.wr Reg.MGT_STAT.active_core (1 - s.rd Reg.MGT_STAT.active_core)
    ((s.startTrial i).readSettings true).respond 0 0

/-- The device falls back at the next loop boundary (R532): causes of R536; `failed`: the trial core has failed and stays out. After a cold
start into the trial the same core runs the primary slot, unless it has failed and there is another (R533). -/
def State.fallBack (s : State) (cause : Nat) (failed : Bool) : State :=
  let s := s.advance s.nextLoop
  let bad := s.mgt.running.version
  let core := s.rd Reg.MGT_STAT.active_core
  let stays := s.mgt.coldTrial && !(failed && s.on Reg.GLB_CAP_TILES.standby_ok)
  let s := (s.runImage s.mgt.old).wr Reg.MGT_STAT.active_core (if stays then core else 1 - core)
  let s := each s.mgt.trialResets s (fun id t => t.setLive id (t.setting id).2)
  let s := (s.modMgt (fun g => { g with trialResets := [], reload := !failed, trialEnd := 0 }))
  let s := (((s.wr Reg.MGT_STAT.standby_ok 0).wr Reg.MGT_HEALTH.trial_s 0).wr Reg.MGT_FW_STAT.fallback_cause cause).fwState 6
  s.mgtFault 0x9002 cause bad (some 4)

/-! ### Power control (R511 to R513) -/

/-- The stacks of compute tile n. -/
def tileStacks (n : Nat) : List Nat := (List.range (chanCount n / 16)).map (fun i => firstChan n / 16 + i)

/-- d[n] of R512. -/
def State.duty (s : State) (n : Nat) : Nat := s.rd (Reg.MGT_DUTY.duty_m n) + 1

/-- Are the temperatures of compute tile n all below their setpoints less `k` °C (at setpoints less 2: at least 2 below)? -/
def State.tileHot (s : State) (n : Nat) : Bool × Bool :=
  (decide ((8 * s.rd Reg.MGT_THERM_CFG.die_setpoint : Int) ≤ sInt (s.rd (Reg.MGT_TEMP.temp n)) 16),
   (tileStacks n).any (fun k => decide ((8 * s.rd Reg.MGT_THERM_CFG.hbm_setpoint : Int) ≤ sInt (s.rd (Reg.MGT_HBM_TEMP.temp k)) 16)))
def State.tileCool (s : State) (n : Nat) : Bool :=
  decide (sInt (s.rd (Reg.MGT_TEMP.temp n)) 16 + 16 ≤ (8 * s.rd Reg.MGT_THERM_CFG.die_setpoint : Int)) &&
   (tileStacks n).all (fun k => decide (sInt (s.rd (Reg.MGT_HBM_TEMP.temp k)) 16 + 16 ≤ (8 * s.rd Reg.MGT_THERM_CFG.hbm_setpoint : Int)))

/-- One step of the duty controller (R513). -/
def State.powerStep (s : State) : State :=
  let limit := min 3600 (min (s.rd Reg.MGT_PWR_CFG.limit_w) s.mgt.boardLimit)
  let s := (s.wr Reg.MGT_PWR.limit_eff_w limit).wr Reg.MGT_PWR.board_limit_w s.mgt.boardLimit
  let mw := s.rd Reg.MGT_PWR.power_mw
  let above := decide (1000 * limit < mw)
  let full := (List.range 8).all (fun n => s.duty n == 16)
  let s := each (List.range 8) s (fun n t =>
    let h := t.tileHot n
    if above || h.1 || h.2 then
      (((t.modMgt (fun g => { g with cool := NMap.put 0 t.mgt.cool n 0 }))).wr (Reg.MGT_DUTY.duty_m n) (max 1 (t.duty n - 2) - 1))
    else
      let c := if decide (mw ≤ 970 * limit) && t.tileCool n then min 10 (NMap.get 0 t.mgt.cool n + 1) else 0
      let t := (t.modMgt (fun g => { g with cool := NMap.put 0 t.mgt.cool n c }))
      if c = 10 then t.wr (Reg.MGT_DUTY.duty_m n) (min 16 (t.duty n + 1) - 1) else t)
  let s := s.wr Reg.MGT_DUTY.limited ((List.range 8).foldl (fun x n => if s.duty n < 16 then x + 2 ^ n else x) 0)
  let low := (List.range 8).foldl (fun x n => min x (s.duty n)) 16
  if full && decide (low < 16) then
    let die := (List.range 8).any (fun n => (s.tileHot n).1)
    let hbm := (List.range 8).any (fun n => (s.tileHot n).2)
    let hot := (List.range 10).foldl (fun x t => max x (sInt (s.rd (Reg.MGT_TEMP.temp t)) 16)) (sInt (s.rd (Reg.MGT_TEMP.temp 0)) 16)
    s.mgtFault 0x9001 (b2n above + 2 * b2n die + 4 * b2n hbm + 256 * (low - 1)) (mw + ofInt hot 16 * 4294967296) (some 7)
  else if !full && decide (low = 16) then s.logEvent 7 0
  else s

/-- The board-interface snapshot (R519), by code. -/
def State.snapshot (s : State) : State :=
  let hottest := fun (l : List Nat) => ofInt (l.foldl (fun x v => max x (sInt v 16)) (sInt (l.headD 0) 16)) 16
  let m : List (Nat × Nat) := [
    (0, (s.reg 0).toNat),
    (1, s.rd Reg.MGT_STAT.state + 4 * s.rd Reg.MGT_STAT.active_core + 8 * s.rd Reg.MGT_STAT.standby_ok + 16 * s.rd Reg.MGT_FW_STAT.state),
    (2, hottest ((List.range 10).map (fun t => s.rd (Reg.MGT_TEMP.temp t)))),
    (3, hottest ((List.range 32).map (fun k => s.rd (Reg.MGT_HBM_TEMP.temp k)))),
    (4, s.rd Reg.MGT_PWR.power_mw / 1000),
    (5, s.mgt.boardLimit),
    (6, s.mgt.cnt8 + 65536 * s.mgt.cnt9),
    (7, s.rd Reg.MGT_STAT.wake_reason),
    (8, s.mgt.boot)]
  (s.modMgt (fun g => { g with snap := m }))

/-- May the agent send message b on MAC m (R374): PTP there, a domain of G.8275.1, a type that the port's role sends; Sync at most 16 times
a second, Announce 8 times? -/
def State.ptpMay (s : State) (m : Nat) (b : List Nat) : Bool :=
  let dom := s.rd (Reg.TIME_PTP_PORT.domain m)
  let role := s.rd (Reg.TIME_PTP_PORT.role m)
  decide (m < 32) && s.on (Reg.TIME_PTP_PORT.en m) && decide (24 ≤ dom) && decide (dom ≤ 43) && decide (b.getD 4 0 = dom) &&
    (match ptpType b with
     | 0 => role == 2 && decide (NMap.get 0 s.mgt.ptpSent (2 * m) ≠ s.nowNs / 62500000 + 1)
     | 0xB => role == 2 && decide (NMap.get 0 s.mgt.ptpSent (2 * m + 1) ≠ s.nowNs / 125000000 + 1)
     | 9 => role == 2
     | 1 => role == 1
     | _ => false)

/-- The receive stamp of the Delay_Req that Delay_Resp b on MAC m answers: the same sequenceId, from the port it names. -/
def State.delayReq (s : State) (m : Nat) (b : List Nat) : Option Nat :=
  (s.eth.ptpRx.find? (fun p => decide (16 * (p.port / 4) + p.mac = m) && decide (ptpType p.body = 1) && (p.body.drop 30).take 2 == (b.drop 30).take 2 &&
    (p.body.drop 20).take 10 == (b.drop 44).take 10)).map (fun p => p.time)

/-- The agent sends b on MAC m, to 01-80-C2-00-00-0E where `link`: a Delay_Resp with the receive time of its Delay_Req (R376). -/
def State.ptpSend (s : State) (m : Nat) (link : Bool) (b : List Nat) : State :=
  let put := fun (t : State) (b : List Nat) => { t with
    eth := { t.eth with ptp := NMap.put [] t.eth.ptp m (NMap.get [] t.eth.ptp m ++ [⟨b, if link then some 0x0180C200000E else none, none, none, 0⟩]) } }
  let mark := fun (k v : Nat) => s.modMgt (fun g => { g with ptpSent := NMap.put 0 g.ptpSent k v })
  if !s.ptpMay m b then s
  else
    match ptpType b with
    | 0 => put (mark (2 * m) (s.nowNs / 62500000 + 1)) b
    | 0xB => put (mark (2 * m + 1) (s.nowNs / 125000000 + 1)) b
    | 9 => (match s.delayReq m b with | some t => put s (ptpTime b t) | none => s)
    | _ => put s b

/-- The PTP agent's part of a loop (R374, R373, R370): the rate it writes, the port it follows, the phase error it reports, the messages
it sends; it has read the messages received. -/
def State.ptpAgent (s : State) (x : Loop) : State :=
  if s.on Reg.TIME_CTRL.servo_mgr then (s.modMgt (fun g => { g with ptpLoops := 0 }))
  else
    let rx := match x.rx with
      | some m => if m < 32 ∧ s.on (Reg.TIME_PTP_PORT.en m) = true ∧ s.rd (Reg.TIME_PTP_PORT.role m) = 1 then some m else none
      | none => none
    let s := match rx with
      | some m => (s.wr Reg.TIME_STAT.rx_valid 1).wr Reg.TIME_STAT.rx_mac m
      | none => (s.wr Reg.TIME_STAT.rx_valid 0).wr Reg.TIME_STAT.rx_mac 0
    let s := if s.rd Reg.TIME_CTRL.source = 1 then s.phaseAlarm x.phase else s
    let s := match x.rate with
      | some v => if s.rd Reg.TIME_CTRL.source = 1 then s.timeRate v else s
      | none => s
    let s := each x.send s (fun e t => t.ptpSend e.1 e.2.1 e.2.2)
    ({ s with eth := { s.eth with ptpRx := [] } }).modMgt (fun g => { g with ptpLoops := if x.rate.isSome then g.ptpLoops + 1 else 0 })

/-- The boundary at which a loop starts (R507): the next one, or the one after it where the previous loop overran. -/
def State.loopBoundary (s : State) (overrun : Bool) : State :=
  let s := if overrun then ((s.advance s.nextLoop).inc Reg.MGT_LOOP.overruns 1) else s
  let s := if overrun then s.modMgt (fun g => { g with loopAt := s.time.cnt, clean := 0 }) else s
  let s := s.advance s.nextLoop
  (s.modMgt (fun g => { g with loopAt := s.time.cnt, clean := g.clean + 1 })).incw Reg.MGT_LOOP.loops 1

/-- What takes effect at a loop boundary: a handover, the trial's seconds, a standby core that has loaded its image, settings, the
board limit (R530, R531, R508, R534, R519). -/
def State.loopTakes (s : State) (ready shadow : Bool) : State :=
  let s := if s.rd Reg.MGT_FW_STAT.state = 3 ∧ ready = true then s.handover else s
  let s := if s.rd Reg.MGT_FW_STAT.state = 4 then s.wr Reg.MGT_HEALTH.trial_s ((s.mgt.trialEnd - s.time.cnt) / 1600000000) else s
  let s := if s.mgt.reload && shadow && s.on Reg.GLB_CAP_TILES.standby_ok && decide (s.rd Reg.MGT_FW_STAT.state ≠ 3) && decide (s.rd Reg.MGT_FW_STAT.state ≠ 4) then
    (s.modMgt (fun g => { g with reload := false })).wr Reg.MGT_STAT.standby_ok 1 else s
  let s := each s.mgt.pendSet s (fun e t => t.setLive e.1 e.2)
  s.modMgt (fun g => { g with pendSet := [], boardLimit := (match g.boardNext with | some v => v | none => g.boardLimit), boardNext := none })

/-- The sensors of a loop reach their registers (R511). -/
def State.loopSensors (s : State) (x : Loop) : State :=
  let s := each (List.range 10) s (fun t u => u.wr (Reg.MGT_TEMP.temp t) (x.temps.getD t 0))
  let s := each (List.range 32) s (fun k u => u.wr (Reg.MGT_HBM_TEMP.temp k) (x.hbm.getD k 0))
  let s := each (List.range 16) s (fun r u => (u.wr (Reg.MGT_RAIL.current_ma r) (x.rails.getD r (0, 0)).1).wr (Reg.MGT_RAIL.voltage_mv r) (x.rails.getD r (0, 0)).2)
  let e := s.mgt.energyRest + x.power
  ((s.wr Reg.MGT_PWR.power_mw x.power).modMgt (fun g => { g with energyRest := e % 1000 })).incw Reg.MGT_ENERGY.mj (e / 1000)

/-- R507: with a radio tile 0 and an image (R42, R519), one loop of the active core, at the next boundary (the one after it where the previous loop overran). -/
def execManagementLoop (x : Loop) (s : State) : Host.Outcome State Fault Refusal :=
  if s.pins.stopped ∨ s.mgt.boot % 4 ≠ 3 then .next s
  else .next (((((((s.loopBoundary x.overrun).flushGather).loopTakes x.ready x.shadow).loopSensors x).powerStep).ptpAgent x).mboxTake).snapshot

/-- R508: the standby core becomes active at the next loop boundary. In a trial it falls back (R532). -/
def execWiolizTakeover (s : State) : Host.Outcome State Fault Refusal :=
  if s.rd Reg.MGT_FW_STAT.state = 4 ∧ s.on Reg.GLB_CAP_TILES.standby_ok = true then .next (s.fallBack 3 true)
  else if !s.on Reg.MGT_STAT.standby_ok then .next s
  else
    let s := s.advance s.nextLoop
    let s := (s.wr Reg.MGT_STAT.active_core (1 - s.rd Reg.MGT_STAT.active_core)).wr Reg.MGT_STAT.standby_ok 0
    .next (((s.modMgt (fun g => { g with reload := false }))).logEvent 9 0)

/-! ### Mailbox commands (R510) -/

/-- R510: NOP. -/
def execMboxNop (s : State) : Host.Outcome State Fault Refusal := mboxRow 0x01 s (fun s _ => s.respond 0 0)

/-- Can Wioliz not read n bytes at a: a line of them is poisoned or behind a failed mesh link (assumption 79)? -/
def State.mboxLost (s : State) (a n : Nat) : Bool := s.rangeBad a n || s.meshLost (8 + s.rd Reg.MGT_STAT.active_core) a

/-- The staging slot is emptied. -/
def State.stageClear (s : State) : State := s.modFlash (fun g => { g with staging := [], stagedKib := [], staged := none })

/-- n bytes of memory at src go to byte `off` of the staging slot; the KiB they touch count as staged. -/
def State.stageWrite (s : State) (off src n : Nat) : State :=
  s.modFlash (fun g => { g with
    staging := Mem.wrBytes g.staging off (s.ldBytes src n)
    stagedKib := upto (cdiv n 1024) g.stagedKib (fun i m => NMap.put false m (off / 1024 + i) true) })

/-- R529: STAGE. -/
def execStage (flashOk : Bool) (s : State) : Host.Outcome State Fault Refusal :=
  mboxRow 0x10 s (fun s c =>
    let off := bits c 64 32
    let n := bits c 96 32
    let src := bits c 128 48
    let st := s.rd Reg.MGT_FW_STAT.state
    if st ≠ 0 ∧ st ≠ 1 ∧ st ≠ 2 ∧ st ≠ 6 then s.respond mStateRefused 0
    else if off % 4096 ≠ 0 ∨ 65536 < n ∨ 0x1000000 < off + n then s.respond mInvalid 0
    else if n = 0 then s.respond 0 0
    else
      match s.mboxRange src n with
      | some e => s.respond e 0
      | none =>
        if s.mboxLost src n then (s.countPoison src n).respond mMemRefused 0
        else if !flashOk then s.respond mFlashError 0
        else
          let s := if st = 1 then s else (s.stageClear.wr Reg.MGT_FW_STAT.staged_kib 0).fwState 1
          let s := s.stageWrite off src n
          (s.wr Reg.MGT_FW_STAT.staged_kib s.mgt.stagedKib.length).respond 0 0)

/-- The staged image where it is valid (R528). -/
def State.stagedImage (s : State) : Option Img :=
  let m := s.mgt.staging
  let h := Mem.rdN m 0 64
  let n := bits h 64 32
  let body := Mem.bytes m 4096 n
  if bits h 0 32 = 0x574C5A49 ∧ n ≤ 16773120 ∧ bit (bits h 96 16) (s.rd Reg.GLB_ID.config_rev) = true ∧ bits h 112 256 = Config.sha3 body % 2 ^ 256 ∧
      Config.lemwickOk (Mem.bytes m 0 64) (Mem.bytes m 1024 2420) = true then
    some ⟨bits h 32 32, bits h 112 256⟩
  else none

/-- R529: VERIFY. -/
def execVerify (s : State) : Host.Outcome State Fault Refusal :=
  mboxRow 0x11 s (fun s _ =>
    let st := s.rd Reg.MGT_FW_STAT.state
    if st ≠ 1 ∧ st ≠ 2 ∧ st ≠ 6 then s.respond mStateRefused 0
    else
      match s.stagedImage with
      | some i => (((s.modMgt (fun g => { g with staged := some i }))).fwState 2).respond 0 i.version
      | none => (((s.modMgt (fun g => { g with staged := none }))).fwState 1).respond mBadSignature 0)

/-- R529, R530: ACTIVATE: the standby core begins to load, and the response comes with the handover; without a standby the image is
armed for the next cold start. -/
def execActivate (s : State) : Host.Outcome State Fault Refusal :=
  mboxRow 0x12 s (fun s _ =>
    let st := s.rd Reg.MGT_FW_STAT.state
    if st = 3 then s
    else if st ≠ 2 then s.respond mStateRefused 0
    else if s.on Reg.MGT_STAT.standby_ok then (s.wr Reg.MGT_STAT.standby_ok 0).fwState 3
    else (s.fwState 7).respond 0 0)

/-- R529, R532: REJECT. -/
def execReject (s : State) : Host.Outcome State Fault Refusal :=
  mboxRow 0x13 s (fun s _ => if s.rd Reg.MGT_FW_STAT.state = 4 then (s.respond 0 0).fallBack 2 false else s.respond mStateRefused 0)

/-- R531: the image in trial confirms its health. `healthy`: the sensors have read, the mailbox and the board interface have answered,
the shadow core has acknowledged. -/
def execConfirm (healthy : Bool) (s : State) : Host.Outcome State Fault Refusal :=
  let ptp := s.on Reg.TIME_CTRL.servo_mgr || s.on Reg.TIME_CTRL.hold_req || decide (1000 ≤ s.mgt.ptpLoops)
  if s.rd Reg.MGT_FW_STAT.state = 4 ∧ healthy = true ∧ 1000 ≤ s.mgt.clean ∧ ptp = true then
    let st := each s.mgt.trialResets s.mgt.stored (fun id m => NMap.ins m id (Config.imgFormat s.mgt.running.version id, settingDefault id))
    let s := (s.modFlash (fun g => { g with stored := st, trialResets := [], trialEnd := 0, reload := true }))
    .next (((s.wr Reg.MGT_HEALTH.confirm 1).wr Reg.MGT_HEALTH.trial_s 0).fwState 5)
  else .next s

/-- R532: the trial timer expires. -/
def execTrialTimeout (s : State) : Host.Outcome State Fault Refusal :=
  if s.rd Reg.MGT_FW_STAT.state = 4 then .next ((s.advance s.mgt.trialEnd).fallBack 1 false) else .next s

/-! ### Configuration records (R523 to R525) -/

/-- Is a retirement entry of a kind and an index within range (R7, R23, R523)? -/
def unitKnown (kind i : Nat) : Bool :=
  match kind with
  | 1 => decide (i < 64) | 2 => decide (i < 64) | 3 => decide (i < 128) | 4 => decide (i < 8) | 5 => decide (i < 2)
  | 6 => decide (i < 4) | 7 => decide (i < 2) | 8 => decide (i < 512) | 9 => decide (i < 32) | _ => false

/-- The Lemwick entries of a section. -/
def lemEntries (l : List Nat) : List Nat := (List.range (leNat ((l.drop 40).take 2))).map (fun i => leNat ((l.drop (64 + 8 * i)).take 8))

/-- The kind and index of an entry. -/
def entryUnit (e : Nat) : Nat × Nat := (bits e 0 8, bits e 8 16)

/-- Every unit a record retires. -/
def Cfg.units (c : Cfg) : List (Nat × Nat) := (lemEntries c.lem ++ c.dev).map entryUnit

/-- The digest of a record. -/
def Cfg.digest (c : Cfg) : Nat := Config.sha3 (c.lem ++ leBytes (c.gen + c.dev.length * 4294967296) 8 ++ c.dev.flatMap (fun e => leBytes e 8)) % 2 ^ 256

/-- Why a Lemwick section is not valid (R524; causes of R536); none where it is. -/
def State.lemBad (s : State) (l : List Nat) : Option Nat :=
  let n := leNat ((l.drop 40).take 2)
  let body := l.take (64 + 8 * n)
  if leNat (l.take 4) ≠ 0x43464752 ∨ leNat ((l.drop 4).take 1) ≠ s.rd Reg.GLB_ID.config_rev then some 2
  else if leNat ((l.drop 8).take 32) ≠ Config.identity % 2 ^ 256 then some 3
  else if l.length ≠ 64 + 8 * n + 2420 ∨ Config.lemwickOk body (l.drop (64 + 8 * n)) = false then some 1
  else if (lemEntries l).all (fun e => unitKnown (entryUnit e).1 (entryUnit e).2) then none
  else some 4

/-- Show the records in MGT_CFG_STAT. -/
def State.cfgShow (s : State) : State :=
  (((s.wr Reg.MGT_CFG_STAT.live_gen s.mgt.live.gen).wr Reg.MGT_CFG_STAT.pending (b2n s.mgt.pendCfg.isSome)).wr Reg.MGT_CFG_STAT.pending_revert
    (b2n s.mgt.pendRev)).wr Reg.MGT_CFG_STAT.prev_valid (b2n s.mgt.prev.isSome)

/-- Make a record pending. -/
def State.cfgPend (s : State) (c : Cfg) (revert flashOk : Bool) : State :=
  if flashOk then (((s.modFlash (fun g => { g with pendCfg := some c, pendRev := revert }))).cfgShow).respond 0 0 else s.respond mFlashError 0

/-- R525: CFG_INSTALL. -/
def execCfgInstall (flashOk : Bool) (s : State) : Host.Outcome State Fault Refusal :=
  mboxRow 0x20 s (fun s c =>
    let src := bits c 128 48
    let n := bits c 192 32
    if s.mgt.pendCfg.isSome then s.respond mPending 0
    else if n = 0 then s.respond 0 0
    else
      match s.mboxRange src n with
      | some e => s.respond e 0
      | none =>
        let l := s.ldBytes src n
        if s.mboxLost src n then (s.countPoison src n).respond mMemRefused 0
        else match s.lemBad l with
        | some cause => (s.mgtFault 0x9005 cause (s.mgt.live.gen + 1) none).respond mBadSignature 0
        | none => s.cfgPend ⟨l, s.mgt.live.gen + 1, []⟩ false flashOk)

/-- R525: CFG_RETIRE. -/
def execCfgRetire (flashOk : Bool) (s : State) : Host.Outcome State Fault Refusal :=
  mboxRow 0x21 s (fun s c =>
    let kind := bits c 64 8
    let i := bits c 72 16
    if s.mgt.pendCfg.isSome then s.respond mPending 0
    else if !s.on Reg.MGT_STAT.puf_ok then s.respond mNoIdentity 0
    else if !unitKnown kind i then s.respond mInvalid 0
    else s.cfgPend ⟨s.mgt.live.lem, s.mgt.live.gen + 1, s.mgt.live.dev ++ [kind + 256 * i + 16777216 * 3]⟩ false flashOk)

/-- R525: CFG_REVERT: the previous record, with every entry of the live one that it lacks. -/
def execCfgRevert (flashOk : Bool) (s : State) : Host.Outcome State Fault Refusal :=
  mboxRow 0x22 s (fun s _ =>
    if s.mgt.pendCfg.isSome then s.respond mPending 0
    else
      match s.mgt.prev with
      | none => s.respond mStateRefused 0
      | some p =>
        let lacks := (lemEntries s.mgt.live.lem ++ s.mgt.live.dev).filter (fun e => !p.units.contains (entryUnit e))
        s.cfgPend ⟨p.lem, s.mgt.live.gen + 1, p.dev ++ lacks⟩ true flashOk)

/-- R525: CFG_CANCEL. -/
def execCfgCancel (flashOk : Bool) (s : State) : Host.Outcome State Fault Refusal :=
  mboxRow 0x23 s (fun s _ =>
    if s.mgt.pendCfg.isNone then s.respond mStateRefused 0
    else if !flashOk then s.respond mFlashError 0
    else (((s.modFlash (fun g => { g with pendCfg := none, pendRev := false }))).cfgShow).respond 0 0)

/-! ### Attestation, certificate, log, power, settings -/

/-- The attestation body (R522). -/
def State.attestBody (s : State) (nonce : Nat) : Nat :=
  let staged := match s.mgt.staged with | some i => i | none => ⟨0, 0⟩
  let settings := s.mgt.stored.flatMap (fun e => leBytes e.1 2 ++ leBytes e.2.1 2 ++ leBytes e.2.2 4)
  leNat (leBytes 0x41545354 4 ++ leBytes 1 4 ++ leBytes nonce 32 ++ leBytes Config.identity 32 ++ leBytes (s.reg 0).toNat 4 ++
    leBytes (s.reg 0x1A0).toNat 8 ++ leBytes s.mgt.running.digest 32 ++ leBytes s.mgt.running.version 4 ++ leBytes staged.digest 32 ++
    leBytes staged.version 4 ++ leBytes (s.rd Reg.MGT_FW_STAT.state) 4 ++ leBytes s.mgt.previous.digest 32 ++ leBytes s.mgt.live.gen 4 ++
    leBytes s.mgt.live.digest 32 ++ leBytes (Config.sha3 settings) 32 ++ leBytes s.tickNum 8 ++
    leBytes (if s.on Reg.TIME_STAT.valid then s.nowNs else 0) 8)

/-- R522: ATTEST. -/
def execAttest (s : State) : Host.Outcome State Fault Refusal :=
  mboxRow 0x30 s (fun s c =>
    let src := bits c 64 48
    let dst := bits c 128 48
    if !s.on Reg.MGT_STAT.puf_ok then s.respond mNoIdentity 0
    else
      match s.mboxRange src 32, s.mboxRange dst 2932 with
      | some e, _ => s.respond e 0
      | none, some e => s.respond e 0
      | none, none =>
        if s.mboxLost src 32 then (s.countPoison src 32).respond mMemRefused 0 else
        let body := leBytes (s.attestBody (s.ldN src 32)) 512
        let r := s.freeVal 256
        let sig := (List.range 2420).map (fun i => Config.sigByte body r i % 256)
        ((((s.took 1).stBytes dst (body ++ sig)).logEvent 10 0)).respond 0 0)

/-- R510: CERT_READ. -/
def execCertRead (s : State) : Host.Outcome State Fault Refusal :=
  mboxRow 0x31 s (fun s c =>
    let dst := bits c 128 48
    let l := Config.cert.map (fun b => b % 256)
    match s.mboxRange dst l.length with
    | some e => s.respond e 0
    | none => (s.stBytes dst l).respond 0 l.length)

/-- R535: LOG_READ, from the entry `first` or the oldest still held. -/
def execLogRead (s : State) : Host.Outcome State Fault Refusal :=
  mboxRow 0x32 s (fun s c =>
    let first := bits c 64 32
    let n := bits c 96 16
    let dst := bits c 128 48
    if 4096 < n then s.respond mInvalid 0
    else if n = 0 then s.respond 0 0
    else
      match s.mboxRange dst (64 * n) with
      | some e => s.respond e 0
      | none =>
        let held := s.mgt.log.length
        let back := (s.mgt.logNext + 4294967296 - first) % 4294967296
        let skip := if back = 0 ∨ 2147483648 ≤ back then held else held - min held back
        let l := (s.mgt.log.drop skip).take n
        let from_ := (s.mgt.logNext + 4294967296 - (held - skip)) % 4294967296
        (s.stBytes dst (l.flatMap (fun e => leBytes e 64))).respond 0 (from_ + 4294967296 * l.length))

/-- R517: the package goes to dormant-ready: the tick unit stops, every Flonil and Ethernet port goes down. -/
def State.dormant (s : State) : State :=
  let s := ({ s with tick := { s.tick with stopping := false, starting := false, armed := none } }).wr Reg.TICK_STAT.running 0
  let s := s.wr Reg.TICK_SWITCH_STAT.armed 0
  let s := each (List.range 36) s (fun k t => t.fabDown k)
  let s := each (List.range 32) s (fun m t => t.macDown m)
  let s := s.respond 0 0
  (((s.modMgt (fun g => { g with submit := none }))).wr Reg.MGT_STAT.state 2).logEvent 8 0

/-- R515 to R517: POWER. -/
def execPower (s : State) : Host.Outcome State Fault Refusal :=
  mboxRow 0x40 s (fun s c =>
    let states := (List.range 64).map s.partState
    match bits c 64 2 with
    | 0 => ((s.modMgt (fun g => { g with pendPower := some 0 }))).respond 0 0
    | 1 => if states.all (fun x => x == 0 || x == 3) then ((s.modMgt (fun g => { g with pendPower := some 1 }))).respond 0 0
           else s.respond mStateRefused 0
    | 2 => if bit c 66 || states.all (fun x => x == 0) then s.dormant else s.respond mStateRefused 0
    | _ => s.respond mInvalid 0)

/-- The power state asked for takes effect at a tick edge (R516). -/
def State.powerEdge (s : State) : State :=
  match s.mgt.pendPower with
  | none => s
  | some v =>
    let s := (s.modMgt (fun g => { g with pendPower := none, selfRefresh := if v = 0 then [] else s.mgt.selfRefresh }))
    if s.rd Reg.MGT_STAT.state = v then s else (s.wr Reg.MGT_STAT.state v).logEvent 8 0

/-- R534: SETTING_SET: live at the next loop, and stored. -/
def execSettingSet (flashOk : Bool) (s : State) : Host.Outcome State Fault Refusal :=
  mboxRow 0x41 s (fun s c =>
    let id := bits c 64 16
    let v := bits c 96 32
    if !settingRange id v then s.respond mInvalid 0
    else if !flashOk then s.respond mFlashError 0
    else
      (s.modFlash (fun g => { g with
          pendSet := g.pendSet ++ [(id, v)]
          trialResets := g.trialResets.filter (fun x => decide (x ≠ id))
          stored := NMap.ins g.stored id (Config.imgFormat g.running.version id, v) })).respond 0 0)

/-- R534: SETTING_GET. -/
def execSettingGet (s : State) : Host.Outcome State Fault Refusal :=
  mboxRow 0x42 s (fun s c =>
    let id := bits c 64 16
    if id = 0 ∨ 4 < id then s.respond mInvalid 0
    else
      let f := Config.imgFormat s.mgt.running.version id % 65536
      let v := if s.mgt.trialResets.contains id then settingDefault id else (s.setting id).2
      s.respond 0 (v + 4294967296 * f))

/-! ### The board interface (R519) and self-refresh (R515) -/

/-- R519: a board write of a code; a wrong packet error code discards it. -/
def execSmbusWrite (code v : Nat) (pecOk : Bool) (s : State) : Host.Outcome State Fault Refusal :=
  if pecOk = false ∨ code ≠ 5 ∨ s.mgt.boot % 4 ≠ 3 then .next s
  else .next (s.modMgt (fun g => { g with boardNext := some (if v % 65536 = 0 ∨ 3600 < v % 65536 then 3600 else v % 65536) }))

/-- R519: a board read of code 0x06 returns the snapshot and clears what it returned. -/
def execFaultCountRead (s : State) : Host.Outcome State Fault Refusal :=
  let v := NMap.get 0 s.mgt.snap 6
  .next (s.modMgt (fun g => { g with smb := v, cnt8 := s.mgt.cnt8 - v % 65536, cnt9 := s.mgt.cnt9 - v / 65536, snap := NMap.put 0 s.mgt.snap 6 0 }))

/-- R515: in Idle a channel not accessed for 1 ms enters self-refresh (`enter`), and an access wakes it. -/
def execHbmSelfRefresh (ch : Nat) (enter : Bool) (s : State) : Host.Outcome State Fault Refusal :=
  if s.rd Reg.MGT_STAT.state ≠ 1 ∨ s.chanPresent ch = false then .next s
  else .next (s.modMgt (fun g => { g with selfRefresh := NMap.put false s.mgt.selfRefresh ch enter }))

end Sys2Proof.Machine
end

