-- ==== Sys2Proof/Machine/Pins.lean ====
section
/-! DEFINITION. Pins, power, reset, cold start, thermal trip, test access port (R538 to R551), and retirement (R39 to R45). -/

namespace Sys2Proof.Machine

/-! ### Stopping (R541, R544, R548) -/

/-- What Wioliz keeps across a stop: its flash. -/
def MgtSt.flash (m : MgtSt) : MgtSt :=
  { State.reset.mgt with
    stored := m.stored, primary := m.primary, previous := m.previous, staged := m.staged, staging := m.staging, stagedKib := m.stagedKib,
    running := m.running, old := m.old, wpHigh := m.wpHigh, log := m.log, logNext := m.logNext, live := m.live, prev := m.prev, pendCfg := m.pendCfg, pendRev := m.pendRev }

/-- Memories and registers lose their contents; host memory, the flash, the pins and the queue stay. -/
def State.cleared (s : State) : State :=
  { State.reset with pending := s.pending, host := s.host, free := s.free, mgt := s.mgt.flash, pins := s.pins }

/-- All activity stops: of the device only the flash (with the firmware state of the boot record) and the standby domain stay. -/
def State.stopAll (s : State) : State :=
  ({ s.cleared with pins := { s.pins with stopped := true, coreReady := false, perst := false } }).wr Reg.MGT_FW_STAT.state
    (s.rd Reg.MGT_FW_STAT.state)

/-- The wake latch keeps the highest-numbered cause (R545). -/
def State.latchWake (s : State) (cause : Nat) : State := { s with pins := { s.pins with latch := max s.pins.latch cause } }

/-- R540, R545: PWR_GOOD rises; a cold start follows the release of RESET_N. -/
def execPwrGoodRise (s : State) : Host.Outcome State Fault Refusal :=
  if s.pins.pwrGood then .next s else .next (({ s with pins := { s.pins with pwrGood := true, stopped := true } }).latchWake 1)

/-- R541: PWR_GOOD falls. -/
def execPwrGoodFall (s : State) : Host.Outcome State Fault Refusal :=
  if s.pins.pwrGood then
    let s := s.stopAll
    .next { s with pins := { s.pins with pwrGood := false, thermtrip := false } }
  else .next s

/-- R544: a low pulse of `ns` on RESET_N. -/
def execResetNAssert (ns : Nat) (s : State) : Host.Outcome State Fault Refusal :=
  if s.pins.pwrGood = false ∨ ns ≤ 1000 then .next s
  else .next ((s.latchWake (if s.rd Reg.MGT_STAT.state = 2 then 4 else 3)).stopAll)

/-- R545: a low level of `ns` on WAKE_N. -/
def execWakeN (ns : Nat) (s : State) : Host.Outcome State Fault Refusal :=
  if 10000 ≤ ns ∧ (s.pins.pwrGood = false ∨ s.rd Reg.MGT_STAT.state = 2) then .next (s.latchWake 2) else .next s

/-- R545: rail 15 is lost, and the latch with it. -/
def execStandbyRailLoss (s : State) : Host.Outcome State Fault Refusal := .next { s with pins := { s.pins with latch := 0 } }

/-- R548: a sensor at its trip temperature for 16 µs. -/
def execThermtrip (s : State) : Host.Outcome State Fault Refusal :=
  if s.pins.stopped then .next s
  else
    let s := (s.latchWake 5).stopAll
    .next { s with pins := { s.pins with thermtrip := true } }

/-- R546, R491: PCIE_PERST_N rises after CORE_READY (link training starts), or falls (a hot reset). -/
def execPciePerstN (high : Bool) (s : State) : Host.Outcome State Fault Refusal :=
  if high then (if s.pins.coreReady then .next { s with pins := { s.pins with perst := true } } else .next s)
  else if s.pins.perst then execPcieLinkDown { s with pins := { s.pins with perst := false } }
  else .next s

/-! ### Retirement and the capacity registers (R39 to R45) -/

/-- Is a unit in service, given the absent ones: itself, and the tile, radio tile or stack it belongs to (R39, R41)? -/
def unitIn (absent : List (Nat × Nat)) (kind i : Nat) : Bool :=
  let out := fun (k j : Nat) => absent.contains (k, j)
  match kind with
  | 1 => !out 1 i && !out 4 (i / 16)
  | 2 => !out 2 i && !out 4 (4 + i / 16)
  | 3 => !out 3 i && !out 5 (i / 64)
  | 6 => !out 6 i && !out 4 (4 + i)
  | 7 => !out 7 i && !out 5 i
  | 8 => !out 8 i && !out 9 (i / 16) && !out 4 (chanTile i)
  | k => !out k i

/-- The bits i < n of a predicate. -/
def maskOf (n : Nat) (f : Nat → Bool) : Nat := (List.range n).foldl (fun x i => if f i then x + 2 ^ i else x) 0

/-- How many i < n. -/
def countOf (n : Nat) (f : Nat → Bool) : Nat := ((List.range n).filter f).length

/-- Load the capacity registers (R45). -/
def State.loadCaps (s : State) (absent : List (Nat × Nat)) : State :=
  let u := unitIn absent
  let put := fun (t : State) (f : Fld) (v : Nat) => t.wr f v
  let s := put s Reg.GLB_CAP_TILES.compute_present (maskOf 8 (u 4))
  let s := put s Reg.GLB_CAP_TILES.radio_present (maskOf 2 (u 5))
  let s := put s Reg.GLB_CAP_TILES.quill_present (maskOf 4 (u 6))
  let s := put s Reg.GLB_CAP_TILES.fec_present (maskOf 2 (u 7))
  let s := put (put s Reg.GLB_CAP_TILES.standby_ok (b2n (u 5 1))) Reg.TIME_STAT.standby_ok (b2n (u 5 1))
  let s := each (List.range 8) s (fun n t => t.wr (Reg.GLB_CAP_CORES.core_present n) (maskOf 16 (fun c => if n < 4 then u 1 (16 * n + c) else u 2 (16 * (n - 4) + c))))
  let s := each (List.range 2) s (fun k t => t.wr (Reg.GLB_CAP_SCRIBES.scribe_present k) (maskOf 64 (fun i => u 3 (64 * k + i))))
  let s := each (List.range 8) s (fun k t => t.wr (Reg.GLB_CAP_CHAN.chan_present k) (maskOf 64 (fun i => u 8 (64 * k + i))))
  let s := each (List.range 512) s (fun c t => t.wr (Reg.TILE_CHAN_STAT.retired (chanTile c) (c - firstChan (chanTile c))) (b2n (!u 8 c)))
  let p := countOf 64 (u 1)
  let g := countOf 64 (u 2)
  let s := put s Reg.GLB_CAP_SUM.stacks (countOf 32 (fun k => (List.range 16).any (fun i => u 8 (16 * k + i))))
  let s := put s Reg.GLB_CAP_SUM.channels (countOf 512 (u 8))
  let s := put s Reg.GLB_CAP_SUM.scribes (countOf 128 (u 3))
  let s := put s Reg.GLB_CAP_SUM.g_cores g
  let s := put s Reg.GLB_CAP_SUM.p_cores p
  put s Reg.GLB_CAP_SUM.nibs (4 * p + 2 * g)

/-! ### Cold start (R546) -/

/-- The image that boots (R533), the firmware state then, whether it runs in trial, the cause of a fallback, and the slots after the
copies; none where no image is valid. -/
def bootImage (m : MgtSt) (st : Nat) (bad : List Nat) : Option (Img × Nat × Bool × Option Nat × Img × Img) :=
  let ok := fun (i : Nat) => !bad.contains i
  let other (st : Nat) (cause : Option Nat) : Option (Img × Nat × Bool × Option Nat × Img × Img) :=
    if ok 0 then some (m.primary, st, false, cause, m.primary, m.previous)
    else if ok 1 then some (m.previous, st, false, some 5, m.primary, m.previous)
    else none
  match st, m.staged with
  | 5, some i => if ok 2 then some (i, 0, false, none, i, m.primary) else other 0 none
  | 7, some i => if ok 2 then some (i, 4, true, none, m.primary, m.previous) else other 6 none
  | 4, _ => other 6 (some 4)
  | 3, _ => other 2 none
  | k, _ => other k none

/-- The configuration record that becomes live and the one that becomes previous (R525, R526); none where no record is valid. -/
def bootCfg (m : MgtSt) (bad : List Nat) : Option (Cfg × Option Cfg) :=
  let ok := fun (i : Nat) => !bad.contains i
  let rest : Option (Cfg × Option Cfg) :=
    if ok 1 then some (m.live, m.prev)
    else match m.prev with
      | some p => if ok 2 then some (p, none) else none
      | none => none
  match m.pendCfg with
  | some c => if ok 0 then some (c, if m.pendRev then none else some m.live) else rest
  | none => rest

/-- A cold start takes its configuration record (R526): records that read back bad are reported, a changed generation is logged. -/
def State.coldCfg (s : State) (bad : List Nat) : State :=
  let tried := (match s.mgt.pendCfg with | some c => [(0, c.gen)] | none => []) ++ [(1, s.mgt.live.gen)] ++
    (match s.mgt.prev with | some p => [(2, p.gen)] | none => [])
  let t := each (tried.takeWhile (fun e => bad.contains e.1)) s (fun e t => t.mgtFault 0x9005 5 e.2 none)
  let t := match bootCfg s.mgt bad with
    | some (l, p) => t.modFlash (fun g => { g with live := l, prev := p, pendCfg := none, pendRev := false })
    | none => t
  if t.mgt.live.gen = s.mgt.live.gen then t else t.logEvent 6 0

/-- The units that what failed self-test retires (R39): a core with its Nibs and SRAM banks, a tile with its top die and tile store, a stack
with its PHY. -/
def bootUnits (x : Boot) : List (Nat × Nat) :=
  (x.failed ++ x.cores.map (fun c => if c < 64 then (1, c) else (2, c - 64)) ++ x.tiles.map (fun t => (4, t)) ++ x.stackIds.map (fun k => (9, k))).eraseDups

/-- Units that failed self-test and are not retired yet (R40); with an identity, also those that failed in cold starts without one (R520). -/
def State.freshUnits (s : State) (x : Boot) : List (Nat × Nat) :=
  ((bootUnits x ++ if x.puf then s.pins.unlisted else []).eraseDups).filter (fun u => unitKnown u.1 u.2 && !s.mgt.live.units.contains u)

/-- R42: radio tile 0 or its PCIe endpoint, tick unit or time unit has failed: core[1] reports it, where there is one. Codes 0x00 and 0x08 are
answered then, and while no image runs (R519). -/
def State.coldReport (s : State) (dead : Bool) (boot : Nat) : State :=
  let s := if dead && s.on Reg.GLB_CAP_TILES.standby_ok then s.wr Reg.MGT_STAT.active_core 1 else s
  s.modMgt (fun g => { g with boot := boot, snap := if dead || boot / 2 % 2 == 0 then [(0, (s.reg 0).toNat), (8, boot)] else g.snap })

/-- A cold start retires the units that failed self-test in a new generation of the device section (R40), unless the identity could not be
reconstructed: then they wait for one in which it can (R520). -/
def State.coldRetire (s : State) (x : Boot) : State :=
  let fresh := s.freshUnits x
  let later := if x.puf then [] else (s.pins.unlisted ++ fresh).eraseDups
  let s := if later = s.pins.unlisted then s else ({ s with pins := { s.pins with unlisted := later } }).modFlash (fun g => g)
  if !x.puf || fresh.isEmpty then s
  else
    let t := s.modFlash (fun g => { g with live := { g.live with
      gen := g.live.gen + 1, dev := g.live.dev ++ fresh.map (fun (u : Nat × Nat) => u.1 + 256 * u.2 + 16777216 * 2) } })
    (each fresh t (fun u t => t.mgtFault 0x9004 (u.1 + 256 * u.2) t.mgt.live.gen (some 2))).logEvent 6 0

/-- A cold start runs its image (R533): i in firmware state st, in trial or not, with a cause where it fell back, and the slots pr and pv. -/
def State.coldImage (s : State) (fw : Nat) (i : Img) (st : Nat) (trial : Bool) (fb : Option Nat) (pr pv : Img) : State :=
  let was := s.mgt.staged
  let copied := s.mgt.primary != pr || s.mgt.previous != pv
  let s := (if copied then s.modFlash else s.modMgt) (fun g => { g with primary := pr, previous := pv, old := pr, coldTrial := trial })
  let s := if st = 0 then s.stageClear else s
  let s := s.wr Reg.MGT_FW_STAT.staged_kib s.mgt.stagedKib.length
  let s := (s.runImage i).wr Reg.MGT_FW_STAT.state st
  let s := if st = fw then s else s.logEvent 3 0
  let s := match fb with
    | some c =>
      (s.wr Reg.MGT_FW_STAT.fallback_cause c).mgtFault 0x9002 c
        (if c = 4 then (match was with | some g => g.version | none => 0) else s.mgt.primary.version) (some 4)
    | none => s
  let s := if trial then (s.modMgt (fun g => { g with trialEnd := s.time.cnt + 48000000000 })).wr Reg.MGT_HEALTH.trial_s 30 else s
  s.readSettings trial

/-- R546: the release of RESET_N runs the cold start through to CORE_READY. -/
def execColdStart (x : Boot) (s : State) : Host.Outcome State Fault Refusal :=
  if s.pins.stopped = false ∨ s.pins.pwrGood = false then .next s
  else
    let fw := s.rd Reg.MGT_FW_STAT.state
    let img := bootImage s.mgt fw x.badImages
    let cfg := bootCfg s.mgt x.badRecords
    let base : State := { s.cleared with
      pins := { s.pins with stopped := false, coreReady := false, perst := false, latch := 0, taken := false } }
    let t := (base.wr Reg.MGT_STAT.wake_reason (if s.pins.latch = 0 then 1 else s.pins.latch)).logEvent 1 0
    let t := (t.wr Reg.MGT_STAT.puf_ok (b2n x.puf)).coldCfg x.badRecords
    let fresh := t.freshUnits x
    let t := t.coldRetire x
    let absent := t.mgt.live.units ++ fresh
    let t := (t.loadCaps absent).cfgShow
    let t := match img with
      | none => t.wr Reg.MGT_FW_STAT.state fw
      | some (i, st, trial, fb, pr, pv) => t.coldImage fw i st trial fb pr pv
    let radio0 := !absent.contains (5, 0)
    let t := t.coldReport (!radio0 || x.central) (b2n (radio0 && !x.central) + 2 * b2n img.isSome + 4 * b2n cfg.isSome + 8 * b2n x.puf)
    .next { t with pins := { t.pins with coreReady := radio0 && !x.mesh && !x.central && img.isSome && cfg.isSome } }

/-! ### Test access port (R551) -/

/-- R551: BYPASS, and every code that is no instruction. -/
def execBypass (s : State) : Host.Outcome State Fault Refusal := .next { s with pins := { s.pins with tap := .bypass, dr := 0 } }

/-- R551: IDCODE reads 0x14B0_874F. -/
def execIdcode (s : State) : Host.Outcome State Fault Refusal := .next { s with pins := { s.pins with tap := .idcode, dr := 0x14B0874F } }

/-- R551: SAMPLE/PRELOAD captures the pins and loads the boundary latches. -/
def execSamplePreload (sample preload : Nat) (s : State) : Host.Outcome State Fault Refusal :=
  .next { s with pins := { s.pins with tap := .samplePreload, dr := sample, boundary := preload } }

/-- R551: EXTEST drives the boundary pins from the latches and captures the inputs. -/
def execExtest (sample drive : Nat) (s : State) : Host.Outcome State Fault Refusal :=
  .next { s with pins := { s.pins with tap := .extest, dr := sample, boundary := drive, taken := true } }

/-- R551: CLAMP drives the boundary pins from the latches, with the bypass register selected. -/
def execClamp (s : State) : Host.Outcome State Fault Refusal := .next { s with pins := { s.pins with tap := .clamp, dr := 0, taken := true } }

/-- R551: HIGHZ floats the boundary pins, with the bypass register selected. -/
def execHighz (s : State) : Host.Outcome State Fault Refusal := .next { s with pins := { s.pins with tap := .highz, dr := 0, taken := true } }

end Sys2Proof.Machine
end

