-- ==== Sys2Proof/Machine/MemEvents.lean ====
section
/-! DEFINITION. Events of the memories, the mesh and the semaphores: channel failure, patrol scrub, mesh replay, the end of zeroing,
scrubbing and write-back, grants (R30, R108, R195, R210, R215, R222 to R224). -/

namespace Sys2Proof.Machine

/-- R223: a channel fails its checks on 16 consecutive transfers. -/
def execHbmChanFail (ch : Nat) (s : State) : Host.Outcome State Fault Refusal := .next (if ch < 512 then s.failChannel ch else s)

/-- Lines of HBM that turn out corrected or uncorrectable (R223): counted; an uncorrectable one is rewritten as poison. -/
def State.hbmErrors (s : State) (ch corrected odecc : Nat) (ue : List Nat) : State :=
  let n := chanTile ch
  let k := ch - firstChan n
  let s := (s.inc (Reg.TILE_CHAN_ERR.ce n k) corrected).inc (Reg.TILE_CHAN_ERR.odecc n k) odecc
  let s := if corrected = 0 then s else s.faultGather { code := 0x1003, die := n, unit := k, count := corrected, arg1 := ch * chanBytes }
  each ue s (fun off t =>
    let key := (ch * chanBytes + off % chanBytes) / 64
    let t := { t with mem := { t.mem with bad := NMap.put false t.mem.bad key true } }
    (t.inc (Reg.TILE_CHAN_ERR.ue n k) 1).fault { code := 0x5014, die := n, unit := k, arg1 := key * 64 })

/-- The patrol period of tile n in cycles (R222); none where patrol is off. -/
def State.patrolPeriod (s : State) (n : Nat) : Option Nat :=
  match s.rd (Reg.TILE_SCRUB_CFG.period n) with
  | 1 => some (msCycles 3600000)
  | 2 => some (msCycles 28800000)
  | 3 => some (msCycles 86400000)
  | _ => none

/-- Does a patrol pass of channel ch end now? One ends in each period (assumption 77). -/
def State.patrolDue (s : State) (ch : Nat) : Bool :=
  match s.patrolPeriod (chanTile ch) with
  | some p => decide (NMap.get 0 s.mem.patrolAt ch ≠ s.time.cnt / p + 1)
  | none => false

/-- The pass that ends is the one of this period. -/
def State.patrolMark (s : State) (ch : Nat) : State :=
  match s.patrolPeriod (chanTile ch) with
  | some p => { s with mem := { s.mem with patrolAt := NMap.put 0 s.mem.patrolAt ch (s.time.cnt / p + 1) } }
  | none => s

/-- Does a tile store hold the line at a, to be written back; and that line no longer is. -/
def State.tsDirty (s : State) (a : Nat) : Bool := s.mem.ts.any (fun e => decide (e.2.key = s.memKey a / 64) && e.2.dirty)
def State.tsClean (s : State) (a : Nat) : State :=
  { s with mem := { s.mem with ts := NMap.mapVals (fun _ l => if l.key = s.memKey a / 64 then { l with dirty := false } else l) s.mem.ts } }

/-- R222, R223: patrol scrub has read every line of a channel: `corrected` lines rewritten with their corrected values, `odecc` errors
the stack reported, uncorrectable lines by offset. With them, the errors that the accesses since the previous pass met in the tile store
of the channel's tile: clean lines refetched, dirty lines (device local addresses) poisoned and written back. -/
def execPatrolScrub (ch corrected odecc : Nat) (ue : List Nat) (clean : Nat) (dirty : List Nat) (s : State) : Host.Outcome State Fault Refusal :=
  if 512 ≤ ch ∨ s.chanPresent ch = false then .next s
  else
    let n := chanTile ch
    let s := if s.patrolDue ch then (s.hbmErrors ch corrected odecc ue).patrolMark ch else s
    let s := s.inc (Reg.TILE_TS_ERR.ce n) clean
    let s := if clean = 0 then s else s.faultGather { code := 0x1002, die := n, unit := 0xFF, count := clean }
    .next (each dirty s (fun a t =>
      if isHbm a && decide (chanTile (t.decodeHbm a).1 = n) && t.tsDirty a then
        (((t.setLineBad a true).tsClean a).inc (Reg.TILE_TS_ERR.ue n) 1).fault { code := 0x5013, die := n, unit := 0xFF, arg1 := a / 64 * 64 }
      else t))

/-- R30: a flit of mesh link `link` has failed `times` times in a row: each of the first two is replayed with a record, the third
declares the link failed. -/
def execMeshReplay (link times : Nat) (s : State) : Host.Outcome State Fault Refusal :=
  if 14 ≤ link ∨ times = 0 ∨ link ∈ s.mesh.failed then .next s
  else
    let s := upto (min times 2) s (fun _ t => t.fault { code := 0x1001, part := 0x40, unit := link })
    if times < 3 then .next s
    else .next (({ s with mesh := { s.mesh with failed := s.mesh.failed ++ [link] } }).fault { code := 0x8001, part := 0x40, unit := link })

/-- R108, R303, R413: the zeroing of a unit completes (kind and index as in CoreSt.zeroing); its accesses are served. -/
def execZeroingComplete (kind index : Nat) (s : State) : Host.Outcome State Fault Refusal :=
  .next (((({ s with core := { s.core with zeroing := s.core.zeroing.filter (fun e => decide (e ≠ (kind, index))) } }).zeroSettle kind index).serveHeld).pump)

/-- R210: the scrub of a channel writes its last line: 3 GiB at 48 bytes a cycle, 67,108,864 cycles from its start. -/
def execChannelScrubComplete (ch : Nat) (s : State) : Host.Outcome State Fault Refusal :=
  let n := chanTile ch
  let k := ch - firstChan n
  if 512 ≤ ch ∨ s.on (Reg.TILE_CHAN_STAT.scrubbing n k) = false then .next s
  else
    let s := s.advance (NMap.get 0 s.mem.scrubAt ch + 67108864)
    .next (({ s with mem := { s.mem with scrubAt := NMap.del s.mem.scrubAt ch } }).wr (Reg.TILE_CHAN_STAT.scrubbing n k) 0 |>.zeroSettle 4 ch)

/-- R215: the write-back of the ways taken from masks of tile n completes. -/
def execWayWriteBackComplete (n : Nat) (s : State) : Host.Outcome State Fault Refusal :=
  .next (if (NMap.find s.mem.flushAt n).isSome then s.wayFlushed n else s)

/-- R195: grant i in flight reaches its waiter. -/
def execSemaphoreGrant (i : Nat) (s : State) : Host.Outcome State Fault Refusal :=
  match s.sem.grants[i]? with
  | none => .next s
  | some g =>
    let s := { s with sem := { s.sem with grants := s.sem.grants.eraseIdx i } }
    .next (match g.dest with
      | .stroke n t d at_ => if n < 8 then (s.grantCore g.sem n t d at_).pump else s.grantRadio n t d at_
      | .bank k => (s.grantBank g.sem k).pump
      | .scribe k => s.grantScribe g.sem k
      | .barrier b => s.grantBar g.sem b)

end Sys2Proof.Machine
end

