-- ==== Sys2Proof/Machine/QuillOps.lean ====
section
/-! DEFINITION. The commands of a Quill (R273, R285, R288 to R290, R293, R556). -/

namespace Sys2Proof.Machine

/-- Command i leaves the queue of Quill j, counted, its record written, its semaphore posted (R293). -/
def State.quillDone (s : State) (j i : Nat) (c : EngCmd) (status rec_ : Nat) : State :=
  let s := (s.setQuillQueue j (listDel (s.quillQueue j) i)).inc (Reg.QUILL_CNT.commands j) 1
  let s := if status = stCtxBusy then s.inc (Reg.QUILL_CNT.ctx_busy j) 1 else s
  s.engResult c rec_

/-- A command takes its turn: it ends at steps 1 to 6 of R556, or goes on with `run`. -/
def State.quillTurnOf (s : State) (j i : Nat) (c : EngCmd) (run : State → Nat → State) : State :=
  if !quillTurn (s.quillQueue j) i then s
  else
    match s.quillCheck c with
    | .done st f fin =>
      let who := if qcServe c.raw && decide (qcOp c.raw = 1) then s.ctxKey c.part (qcCtx c.raw) else none
      let s := match f with | some code => (if code = 0x5005 then s.quillBadLine c else s).quillFault j code c | none => s
      let s := s.quillDone j i c st (s.quillEndRecord c st fin)
      if st = stSuccess ∨ st = stUnreadable then s.serveTokens who [] fin st else s
    | .go pr => run s pr

/-- A SAMPLE starts, where a row unit is free for its first row and no row before it waits (R293). -/
def State.sampleStart (s : State) (j i : Nat) (c : EngCmd) (pr : Nat) : State :=
  if (rowNext (s.quillQueue j)).isSome || (unitFree (s.quillQueue j)).isNone then s
  else (s.sampleBegin j i c pr (if qcServe c.raw then s.ctxKey c.part (qcCtx c.raw) else none)).rowAssign j 4

/-- A SAMPLE whose rows are over ends (R293): the out array and the context, its record, its semaphore; then its tokens (R289). -/
def State.sampleOver (s : State) (j i : Nat) : State :=
  match (s.quillQueue j)[i]? with
  | none => s
  | some c =>
    if !c.started || !rowsOver c then s
    else
      let r := s.sampleRun c
      let t := r.s.quillDone j i c r.status r.rec_
      (t.serveTokens c.who r.toks r.fin r.status).pump

/-- R285: command i of Quill j, a SAMPLE (or a command of no known opcode), takes its turn; once it has begun, the first of its rows that
is on a row unit ends, and with the last row the command. `upset`: a parity error in that row unit; with no command i, in a row unit that
no command uses (R295). -/
def execSample (j i : Nat) (upset : Bool) (s : State) : Host.Outcome State Fault Refusal :=
  match (s.quillQueue j)[i]? with
  | none =>
    .next (if upset && decide (j < 4) && s.quillPresent j then
        (s.fault { code := 0x5005, part := 0x40, die := 4 + j, unit := 4 + j, sub := j }).countedFault 5 j
      else s)
  | some c =>
    if qcOp c.raw = 2 then .next s
    else if !c.started then .next (s.quillTurnOf j i c (fun t pr => t.sampleStart j i c pr)).pump
    else
      match rowOn c with
      | some k => .next (((s.rowEnd j i k upset).rowAssign j 4).sampleOver j i)
      | none => .next s

/-- Command i of Quill j, a SAMPLE that has started, runs to its end at once (R459): n bounds its passes. -/
def State.sampleThrough (s : State) (j i : Nat) : Nat → State
  | 0 => s
  | n + 1 =>
    match (s.quillQueue j)[i]? with
    | none => s
    | some c =>
      if !c.started then s
      else if rowsOver c then s.sampleOver j i
      else
        match rowOn c, rowNext [c] with
        | some k, _ => (s.rowEnd j i k false).sampleThrough j i n
        | none, some e => ((s.rowBegin j i e.2 0).rowEnd j i e.2 false).sampleThrough j i n
        | none, none => s

/-- The command at the head of Quill j, a SAMPLE or of no known opcode, runs to its end at once, row units free or not (R459). -/
def State.sampleForce (s : State) (j : Nat) (c : EngCmd) : State :=
  if c.started then s.sampleThrough j 0 20
  else
    let t := s.quillTurnOf j 0 c (fun t pr => t.sampleBegin j 0 c pr (if qcServe c.raw then t.ctxKey c.part (qcCtx c.raw) else none))
    if (t.quillQueue j).length = (s.quillQueue j).length then t.sampleThrough j 0 20 else t

/-- R273: command i of Quill j, an INIT, sets its context. -/
def execInit (j i : Nat) (s : State) : Host.Outcome State Fault Refusal :=
  match (s.quillQueue j)[i]? with
  | none => .next s
  | some c =>
    if qcOp c.raw ≠ 2 then .next s
    else
      .next (s.quillTurnOf j i c (fun t _ =>
        let t := t.initCtx c.part (qcCtx c.raw) (qcProfile c.raw) (qcDraft c.raw) (qcSeed c.raw) (qcRemaining c.raw)
        t.quillDone j i c stSuccess (quillRecord c.raw stSuccess 0 0 (qcDraft c.raw) false false false false 0 0))).pump

end Sys2Proof.Machine
end

