-- ==== Sys2Proof/Machine/Commit.lean ====
section
/-! DEFINITION. COMMIT and REVERT (R78 to R83): pending operations, the shadow copy and the previous generation, and what the rules make
of changed fields at the apply cycle. -/

namespace Sys2Proof.Machine

/-! ### Blocks (R78) -/

/-- Block bases of the blocks with SH fields, with the end of their offsets. -/
def blocks : List (Nat × Nat) :=
  [(0x100000, 0x200000), (0x200000, 0x300000), (0x300000, 0x400000), (0x400000, 0x500000), (0x500000, 0x600000), (0x600000, 0x800000),
   (0x800000, 0x900000), (0x900000, 0xA00000), (0xA00000, 0xC00000), (0xC00000, 0xD00000), (0xD00000, 0xE00000), (0xE00000, 0x1000000),
   (0x1000000, 0x2000000)] ++ (List.range 8).map (fun n => (0x2000000 + 0x1000000 * n, 0x3000000 + 0x1000000 * n))

/-- The block of an offset: base and end. -/
def blockOf (off : Nat) : Option (Nat × Nat) := blocks.find? (fun b => decide (b.1 ≤ off) && decide (off < b.2))

/-- Fields of BLK_COMMIT_STAT of the block at `b`. -/
def blkGen (b : Nat) : Fld := ⟨b + 0xFFF08, 0, 30⟩
def blkPending (b : Nat) : Fld := ⟨b + 0xFFF08, 32, 1⟩
def blkRevert (b : Nat) : Fld := ⟨b + 0xFFF08, 33, 1⟩
def blkPrev (b : Nat) : Fld := ⟨b + 0xFFF08, 34, 1⟩
def blkRefused (b : Nat) : Fld := ⟨b + 0xFFF08, 35, 1⟩
def blkDiscarded (b : Nat) : Fld := ⟨b + 0xFFF08, 48, 16⟩

/-- A write of BLK_COMMIT (R79 to R81). -/
def State.blkCommit (s : State) (b v : Nat) : State :=
  let op := bits v 30 2
  let gen := bits v 0 30
  let live := s.rd (blkGen b)
  let bad := decide (op = 0) || decide (op = 3) || s.on (blkPending b) || decide (gen ≠ (if op = 1 then (live + 1) % 1073741824 else live)) ||
    (decide (op = 2) && !s.on (blkPrev b))
  if (blocks.any (fun e => e.1 == b)) = false then s
  else if bad then (s.wr (blkRefused b) 1).fault { code := 0x2003, part := 0x40, die := 8 + s.rd Reg.TICK_STAT.active_unit }
  else
    let s := ((s.wr (blkPending b) 1).wr (blkRevert b) (b2n (decide (op = 2)))).wr (blkRefused b) 0
    { s with tick := { s.tick with ops := s.tick.ops ++ [(b, decide (op = 2))] } }

/-- R79: COMMIT of the block at `b` for generation `gen`. -/
def execCommit (b gen : Nat) (s : State) : Host.Outcome State Fault Refusal := .next (s.blkCommit b (1073741824 + gen % 1073741824))

/-- R80: REVERT of the block at `b`. -/
def execRevert (b gen : Nat) (s : State) : Host.Outcome State Fault Refusal := .next (s.blkCommit b (2147483648 + gen % 1073741824))

/-! ### Changed registers -/

/-- Is the register at an offset one of SH fields? -/
def isShadowed (off : Nat) : Bool := match regRow off with | some r => r.sh != 0 | none => false

/-- The SH registers of a block that hold, or held, something other than their reset value. -/
def State.shKeys (s : State) (lo hi : Nat) : List Nat :=
  (((s.shadow ++ s.regs ++ s.prev).map (fun e => e.1)).filter (fun k => decide (lo ≤ k) && decide (k < hi) && isShadowed k)).eraseDups

/-- The previous generation's value of a register. -/
def State.prevReg (s : State) (off : Nat) : Word := NMap.get (regReset off) s.prev off

/-- The registers whose live value an operation changes: offset, old value, new value. -/
def State.opDiff (s : State) (o : Nat × Bool) : List (Nat × Nat × Nat) :=
  match blockOf o.1 with
  | none => []
  | some b => ((s.shKeys b.1 b.2).map (fun k => (k, (s.reg k).toNat, (if o.2 then s.prevReg k else s.shadowReg k).toNat))).filter
      (fun e => decide (e.2.1 ≠ e.2.2))

/-- Set the previous generation of a register (R79). -/
def State.setPrev (s : State) (off : Nat) (v : Word) : State := { s with prev := NMap.put (regReset off) s.prev off v }

/-- One operation moves its block's generations (R79, R80). -/
def State.opMove (s : State) (o : Nat × Bool) : State :=
  match blockOf o.1 with
  | none => s
  | some b =>
    let keys := s.shKeys b.1 b.2
    let s := if o.2 then each keys s (fun k t => (t.setReg k (s.prevReg k)).setShadow k (s.prevReg k))
      else each keys s (fun k t =>
        (t.setPrev k (s.reg k)).setReg k (s.shadowReg k))
    let s := (s.wr (blkGen b.1) (s.rd (blkGen b.1) + 1)).wr (blkPrev b.1) (b2n (!o.2))
    let s := (s.wr (blkPending b.1) 0).wr (blkRevert b.1) 0
    s.rec_ (fun r => { r with commits := r.commits + 1 })

/-- Changed registers of an array: index, old value, new value. -/
def hits (d : List (Nat × Nat × Nat)) (base stride n : Nat) : List (Nat × Nat × Nat) :=
  d.filterMap (fun e => if base ≤ e.1 ∧ e.1 < base + stride * n ∧ (e.1 - base) % stride = 0 then some ((e.1 - base) / stride, e.2.1, e.2.2) else none)

/-- Indices of an array's changed registers. -/
def hitIx (d : List (Nat × Nat × Nat)) (base stride n : Nat) : List Nat := (hits d base stride n).map (fun e => e.1)

/-- Bytes of an array of owner bytes that changed: 8·register + byte. -/
def byteHits (d : List (Nat × Nat × Nat)) (base stride n : Nat) : List Nat :=
  (hits d base stride n).flatMap (fun e => ((List.range 8).filter (fun b => decide (bits e.2.1 (8 * b) 8 ≠ bits e.2.2 (8 * b) 8))).map (fun b => 8 * e.1 + b))

/-! ### Zeroing on a change of owner (R108, R210, R303, R413, R448) -/

/-- Mark a unit as being zeroed. -/
def State.startZero (s : State) (kind i : Nat) : State :=
  if s.core.zeroing.contains (kind, i) then s else { s with core := { s.core with zeroing := s.core.zeroing ++ [(kind, i)] } }

/-- Accumulator index t of a core, on every Nib (R108). -/
def State.zeroAcc (s : State) (core t : Nat) : State :=
  let s := upto 4 s (fun nib u =>
    let k := accTile core nib t
    { u with core := { u.core with
        acc := Mem.zero u.core.acc (k * 65536) (k * 65536 + 65536)
        accRows := NMap.clearRange u.core.accRows (k * 128) (k * 128 + 128)
        anchor := NMap.clearRange u.core.anchor k (k + 1)
        accKind := NMap.clearRange u.core.accKind k (k + 1) } })
  s.startZero 0 (core * 8 + t)

/-- Core-store granule g of a core (R108). -/
def State.zeroGran (s : State) (core g : Nat) : State :=
  let k := storeKey core (g * 65536)
  ({ s with core := { s.core with
      store := Mem.zero s.core.store k (k + 65536)
      storeBad := NMap.clearRange s.core.storeBad k (k + 65536) } }).startZero 1 (core * 64 + g)

/-- Reservoir granule g of base die d (R413). -/
def State.zeroPoolGran (s : State) (d g : Nat) : State := (s.zeroRsv d g).startZero 2 (d * 128 + g)

/-- The X and Y memories of Scribe k (R303). -/
def State.zeroScribe (s : State) (k : Nat) : State :=
  ({ s with rad := { s.rad with
      xy := Mem.zero s.rad.xy (k * 1048576) (k * 1048576 + 1048576)
      bad := NMap.clearRange s.rad.bad (k * 1048576) (k * 1048576 + 524288) } }).startZero 3 k

/-- The program memory of Scribe k is loaded from its owner's memory (R303); poisoned lines meet a parity error there (R221). -/
def State.loadScribe (s : State) (k : Nat) : State :=
  let a := s.rd (Reg.RAD_SCRIBE_PROG.base k) * 1024
  let n := (s.rd (Reg.RAD_SCRIBE_PROG.size_1k_m1 k) + 1) * 1024
  if s.on (Reg.RAD_SCRIBE_OWN.valid k) && s.permit (s.rd (Reg.RAD_SCRIBE_OWN.partition k)) a n then
    let node := 8 + k / 64
    let s := (s.countPoison a n).tsAccess a n false true
    let prog := Mem.wrBytes (Mem.zero s.rad.prog (k * 131072) (k * 131072 + 131072)) (k * 131072) (s.ldVia node a n)
    let clean : State := { s with rad := { s.rad with prog := prog, bad := NMap.clearRange s.rad.bad (xyKey k 2 0) (xyKey k 3 0) } }
    let s1 := upto (n / 64) clean (fun i t => if s.lineBad (a + 64 * i) then t.xyPoison k 2 (64 * i) 64 else t)
    (s1.meshRecords node ((List.range (n / 64)).map (fun i => a + 64 * i))).startZero 3 k
  else s

/-! ### Before the fields change -/

/-- Commands of host queue q end: serving requests CANCELLED, the rest and posted buffers FLUSHED (R504). -/
def State.hqFlush (s : State) (q : Nat) : State :=
  let reqs := (s.srv.reqs.filter (fun e => match e.2.src with | .host h _ => decide (h = q) | _ => false)).map (fun e => e.1)
  let s := each reqs s (fun k t => t.reqEnd k stCancelled none)
  each (s.hq_ q).cmds s (fun c t => if (t.hcmd q c.index).isSome then t.hFinal q c (if hOp c = 0x40 then stCancelled else stFlushed) 0 else t)

/-- Egress queue q is emptied (R364): its messages count in drops; a NET_TX that waits for one is flushed. -/
def State.egqFlush (s : State) (q : Nat) : State :=
  let l := s.egq q
  let s := ({ (s.setEgq q []) with eth := { (s.setEgq q []).eth with svcWait := NMap.del s.eth.svcWait q } }).inc (Reg.EQS_Q_STAT.drops q) l.length
  each l s (fun x t => match x.host with
    | some (h, i) => (match t.hcmd h i with | some c => t.hComplete h c stFlushed 0 | none => t)
    | none => t)

/-- Receive queue q is emptied (R364): its packets count in rejected and leave their Blotters; what it was reassembling goes too. -/
def State.rxqFlush (s : State) (q : Nat) : State :=
  let l := s.rxq q
  let held := ((NMap.find s.eth.svc q).toList ++ NMap.get [] s.eth.svcDone q).foldl (fun n m => n + m.pkts) 0
  let s := (s.setRxq q []).inc (Reg.BLT_RXQ_STAT.rejected q) (l.length + held)
  let s := each l s (fun x t => t.subFill x.port x.space)
  { s with eth := { s.eth with svc := NMap.del s.eth.svc q, svcDone := NMap.del s.eth.svcDone q } }

/-- What ends before changed fields go live: disabled host queues (R504), reconfigured pools (R268). -/
def State.beforeApply (s : State) (d : List (Nat × Nat × Nat)) : State :=
  let off := (hits d 0x330000 8 4096).filter (fun e => bit e.2.1 63 && !bit e.2.2 63)
  let s := each off s (fun e t => (((t.hqFlush e.1).wr (Reg.HQ_Q_FLAGS.active e.1) 0).wr (Reg.HQ_Q_FLAGS.error e.1) 0).wr (Reg.HQ_Q_FLAGS.stall_cq e.1) 0)
  let parts := ((hitIx d 0xD00000 8 512).map (fun i => i / 8) ++ (hitIx d 0xD01000 8 512).map (fun i => i / 8) ++ (hitIx d 0xD02000 4 1024).map (fun i => i / 16) ++
    hitIx d 0xD03000 8 64 ++ hitIx d 0xD03200 8 64 ++ hitIx d 0xD03400 8 64).eraseDups
  each parts s (fun p t => each ((t.srv.reqs.filter (fun e => decide (e.2.part = p))).map (fun e => e.1)) t (fun k u => u.reqEnd k stReconfigured none))

/-! ### After the fields changed -/

/-- A register keeps the value it had (an invalid value is not made live). -/
def State.keepOld (s : State) (d : List (Nat × Nat × Nat)) (off : Nat) : State :=
  match d.find? (fun e => decide (e.1 = off)) with
  | some e => s.setReg off (BitVec.ofNat 64 e.2.1)
  | none => s

/-- One field keeps the value it had. -/
def State.keepField (s : State) (d : List (Nat × Nat × Nat)) (f : Fld) : State :=
  match d.find? (fun e => decide (e.1 = f.off)) with
  | some e => s.wr f (bits e.2.1 f.lo f.w)
  | none => s

/-- Compute tile n (R108, R210, R215). -/
def State.applyTile (s : State) (d : List (Nat × Nat × Nat)) (n : Nat) : State :=
  let b := 0x2000000 + 0x1000000 * n
  let s := each (byteHits d (b + 0x1000) 8 16) s (fun i t => t.zeroAcc (16 * n + i / 8) (i % 8))
  let s := each (byteHits d (b + 0x1100) 8 128) s (fun i t => t.zeroGran (16 * n + i / 64) (i % 64))
  let s := each (hitIx d (b + 0x4000) 4 96) s (fun k t => t.startScrub n k)
  let out := (hits d (b + 0x4400) 4 65).flatMap (fun e => ((List.range 16).filter (fun w => bit e.2.1 w && !bit e.2.2 w)).map (fun w => (n, e.1, w)))
  if out.isEmpty then s
  else
    ({ s with mem := { s.mem with flush := s.mem.flush ++ out, flushAt := NMap.ins s.mem.flushAt n s.time.cnt } }).wr (Reg.TILE_TS_STAT.flushing n) 1

/-- Pulses and barriers (R382, R383). -/
def State.applyTime (s : State) (d : List (Nat × Nat × Nat)) : State :=
  let pulses := ((hitIx d 0x200200 32 4) ++ (hitIx d 0x200208 32 4) ++ (hitIx d 0x200210 32 4)).eraseDups
  let s := each pulses s (fun k t =>
    if t.rd (Reg.TIME_PULSE_CFG.mode k) = 2 ∧ t.rd (Reg.TIME_PULSE_PERIOD.period_ns_m1 k) ≤ t.rd (Reg.TIME_PULSE_CFG.width_ns_m1 k) then
      (((t.keepOld d (0x200200 + 32 * k)).keepOld d (0x200208 + 32 * k)).keepOld d (0x200210 + 32 * k)).timeFault 0x2005 0x40 k
    else t.pulseReload k)
  let bars := ((hitIx d 0x200400 32 8) ++ (hitIx d 0x200408 32 8)).eraseDups
  each bars s (fun b t =>
    let old := match d.find? (fun e => decide (e.1 = 0x200408 + 32 * b)) with | some e => bits e.2.1 0 14 | none => t.rd (Reg.TIME_BAR_SEM.arr_sem b)
    let t := t.barUnwatch b old
    let p := t.rd (Reg.TIME_BAR_SEM.partition b)
    let ok := (!t.on (Reg.TIME_BAR_SEM.rel_en b) || t.semOwned (t.rd (Reg.TIME_BAR_SEM.rel_sem b)) p) &&
      (!t.on (Reg.TIME_BAR_SEM.arr_en b) || t.semOwned (t.rd (Reg.TIME_BAR_SEM.arr_sem b)) p)
    let t := if t.on (Reg.TIME_BAR_CFG.enable b) && !ok then (t.wr (Reg.TIME_BAR_CFG.enable b) 0).timeFault 0x2006 p b else t
    t.barWatch b)

/-- Host queues (R503): a queue that is enabled is checked. -/
def State.applyHq (s : State) (d : List (Nat × Nat × Nat)) : State :=
  each ((hits d 0x330000 8 4096).filter (fun e => !bit e.2.1 63 && bit e.2.2 63)) s (fun e t =>
    let q := e.1
    let sz := fun (x : Nat) => decide (4 ≤ x) && decide (x ≤ 16)
    match t.hqPasid q with
    | some pasid =>
      if t.sqBase q % 64 = 0 ∧ t.cqBase q % 64 = 0 ∧ sz (t.rd (Reg.HQ_Q_CFG.sq_log2 q)) = true ∧ sz (t.rd (Reg.HQ_Q_CFG.cq_log2 q)) = true then
        let t := ((t.setHq q {}).hostWr pasid (t.sqBase q + 8) 8 0).hostWr pasid (t.cqBase q) 8 0
        ((t.wr (Reg.HQ_Q_FLAGS.active q) 1).wr (Reg.HQ_Q_FLAGS.error q) 0).wr (Reg.HQ_Q_FLAGS.stall_cq q) 0
      else (t.wr (Reg.HQ_Q_CFG.enable q) 0).fault { code := 0x2010, part := t.hqOwner q, unit := q % 256, sub := q / 256 % 16, arg1 := t.sqBase q }
    | none => (t.wr (Reg.HQ_Q_CFG.enable q) 0).fault { code := 0x2010, part := t.hqOwner q, unit := q % 256, sub := q / 256 % 16, arg1 := t.sqBase q })

/-- A meter record of partition p (R468): the ring of the manager; `time`: the mode in force up to the event, `epoch`: the live epoch up
to it. -/
def State.meterRecord (s : State) (p reason time epoch : Nat) : State :=
  let lg := s.rd Reg.PART_METER_CFG.log2_entries
  match (if s.on Reg.PART_METER_CFG.enable && decide (4 ≤ lg) && decide (lg ≤ 16) then s.mgrPasid else none) with
  | none => s
  | some pasid =>
    let head := setBits (setBits (setBits (setBits (setBits 0 0 64 s.tickNum) 64 6 p) 72 3 reason) 75 1 time) 96 32 epoch
    let i := s.rd Reg.PART_METER_HEAD.written
    let body := (List.range 8).flatMap (fun k => leBytes (s.rd (Reg.PART_METER.count p k)) 8)
    (s.hostWr pasid (s.rd Reg.PART_METER_RING.iova + 128 * (i % 2 ^ lg)) 128 (leNat (leBytes head 64 ++ body))).incw Reg.PART_METER_HEAD.written 1

/-- A PASID is valid in two entries (R449). -/
def State.pasidConflicts (s : State) : List Nat := (s.boundPasids.filter (fun v => decide (1 < (s.boundPasids.filter (fun x => x == v)).length))).eraseDups

/-- Partitions (R195, R448, R449, R467). -/
def State.applyPart (s was : State) (d : List (Nat × Nat × Nat)) : State :=
  let s := each (byteHits d 0x400C00 8 32) s (fun g t => t.semZeroGroup g)
  let s := each (hits d 0x400100 8 64) s (fun e t =>
    if bit e.2.1 2 = bit e.2.2 2 ∨ t.partState e.1 = 0 then t else t.meterRecord e.1 3 (b2n (bit e.2.1 2)) (t.rd (Reg.PART_COMP.live_epoch e.1)))
  let fresh := s.pasidConflicts.filter (fun v => !was.pasidConflicts.contains v)
  each fresh s (fun v t =>
    let part := (List.range 64).find? (fun p => (List.range 16).any (fun i => t.on (Reg.PART_PASID.valid p i) && decide (t.rd (Reg.PART_PASID.pasid p i) = v)))
    t.fault { code := 0x200E, part := (match part with | some p => p | none => 0x40) })

/-- A fault ring that is enabled, or moved while enabled, starts anew (R474). -/
def State.applyFlt (s : State) (d : List (Nat × Nat × Nat)) : State :=
  let touched := (if d.any (fun e => e.1 == 0x500000 || e.1 == 0x500008) then [64] else []) ++
    ((hitIx d 0x501000 16 64) ++ (hits d 0x501008 16 64).filterMap (fun e => if bits e.2.1 0 9 = bits e.2.2 0 9 then none else some e.1)).eraseDups
  let s := each touched s (fun k t =>
    if (t.ringInfo k).2.1 then
      let t := t.setRing k { t.ring k with written := 0, read := 0, fetched := 0 }
      match t.ringOn k with
      | some pasid => t.hostWr pasid (t.ringInfo k).1 8 0
      | none => t
    else t)
  s.flushHeld

/-- Ethernet (R338, R347, R354 to R358, R362 to R364). -/
def State.applyEth (s was : State) (d : List (Nat × Nat × Nat)) : State :=
  -- a port whose mode changes loses its links
  let s := each (hitIx d 0x600000 4 8) s (fun p t => upto 4 t (fun i u => u.macDown (4 * p + i)))
  -- mtu
  let s := each (hitIx d 0x601100 8 32) s (fun m t =>
    let v := t.rd (Reg.ETH_MAC_CFG.mtu m)
    if v < 64 ∨ 9216 < v then (t.keepField d (Reg.ETH_MAC_CFG.mtu m)).ethFault 0x200A (m / 16) (m % 16) 0 0x7F else t)
  -- classifier entries with equal keys
  let keys := (s.regs.filter (fun e => decide (0x610000 ≤ e.1) && decide (e.1 < 0x630000) && e.1 % 16 == 0 && bit e.2.toNat 63)).map
    (fun e => ((e.1 - 0x610000) / 16, e.2.toNat))
  let dup := keys.filter (fun e => keys.any (fun x => decide (x.1 ≠ e.1) && decide (x.1 / 4096 = e.1 / 4096) && decide (x.2 = e.2)))
  let s := each dup s (fun e t => t.wr (Reg.ETH_CLS_KEY.valid e.1) 0)
  let s := each ((dup.map (fun e => e.1 / 4096)).eraseDups) s (fun k t => t.ethFault 0x200A k 0 0 0x7F)
  -- Blotter thresholds
  let s := each (hitIx d 0x800000 8 8) s (fun p t =>
    let lo := t.rd (Reg.BLT_PORT_CFG.lo_kib p)
    let hi := t.rd (Reg.BLT_PORT_CFG.hi_kib p)
    let t := if hi ≤ lo ∨ 4096 < hi then
        ((t.keepField d (Reg.BLT_PORT_CFG.lo_kib p)).keepField d (Reg.BLT_PORT_CFG.hi_kib p)).ethFault 0x200A (p / 4) (p % 4) 0 0x7F else t
    t.xoffEval p)
  -- windows
  let s := each (hitIx d 0x940000 8 8192) s (fun q t =>
    if t.rd (Reg.EQS_Q_WIN.early q) ≤ t.rd (Reg.EQS_Q_WIN.late q) then
      (t.keepOld d (Reg.EQS_Q_WIN.all q).off).ethFault 0x200A (q / 4096) (t.egqMac q % 16) q 0x7F else t)
  -- queues that are in use no more, and tags of the others
  let s := each (hitIx d 0x810000 8 8192) s (fun q t => if was.rxqOn q && !t.rxqOn q then t.rxqFlush q else t)
  let s := each (hitIx d 0x920000 8 8192) s (fun q t =>
    let t := if was.egqOn q && !t.egqOn q then t.egqFlush q else t
    { t with eth := { t.eth with f := NMap.put 0 t.eth.f q (t.wfqV (t.egqMac q) (t.rd (Reg.EQS_Q_CFG.tc q))) } })
  -- buckets start full
  let s := each (hitIx d 0x960000 8 1024) s (fun b t => { t with eth := { t.eth with subDef := NMap.del t.eth.subDef b, subAt := NMap.put 0 t.eth.subAt b t.time.cnt } })
  let s := (s.svcDrain 0).svcDrain 1
  each (hitIx d 0x900000 8 32) s (fun m t => { t with eth := { t.eth with macDef := NMap.del t.eth.macDef m, macAt := NMap.put 0 t.eth.macAt m t.time.cnt } })

/-- Flonil (R394, R402, R413, R418). -/
def State.applyFab (s : State) (d : List (Nat × Nat × Nat)) : State :=
  let bad := fun (t : State) (port : Nat) => t.fault { code := 0x200B, part := 0x40, unit := port }
  let s := if d.any (fun e => e.1 == 0xA00000) then
      (let v := s.rd Reg.FAB_CFG.bound_us
       if v < 5 ∨ 50000 < v then bad (s.keepField d Reg.FAB_CFG.bound_us) 0xFF else s)
    else s
  let s := each ((hits d 0xA00100 4 36).filter (fun e => bit e.2.1 0 && !bit e.2.2 0)) s (fun e t => t.fabDown e.1)
  let doms := (List.range 64).filter (fun p => s.on (Reg.FAB_DOMAIN.valid p))
  let dup := doms.filter (fun p => doms.any (fun q => decide (p ≠ q) && decide (s.rd (Reg.FAB_DOMAIN.domain p) = s.rd (Reg.FAB_DOMAIN.domain q))))
  let s := if dup.isEmpty then s else bad (each dup s (fun p t => t.wr (Reg.FAB_DOMAIN.valid p) 0)) 0xFF
  each (hits d 0xA02000 8 160) s (fun e t =>
    let die := e.1 / 16
    let w := e.1 % 16
    let t := upto 8 t (fun b u =>
      let same := bits e.2.1 (Reg.FAB_RSV_OWN.valid die w b).lo 1 == bits e.2.2 (Reg.FAB_RSV_OWN.valid die w b).lo 1 &&
        bits e.2.1 (Reg.FAB_RSV_OWN.pool die w b).lo 1 == bits e.2.2 (Reg.FAB_RSV_OWN.pool die w b).lo 1 &&
        bits e.2.1 (Reg.FAB_RSV_OWN.partition die w b).lo 6 == bits e.2.2 (Reg.FAB_RSV_OWN.partition die w b).lo 6
      if same then u
      else
        let u := if u.on (Reg.FAB_RSV_OWN.valid die w b) && u.on (Reg.FAB_RSV_OWN.pool die w b) then
            bad ((u.wr (Reg.FAB_RSV_OWN.valid die w b) 0).wr (Reg.FAB_RSV_OWN.pool die w b) 0) 0xFF else u
        u.zeroPoolGran die (8 * w + b))
    t.showPool die)

/-- Collectives (R445). -/
def State.applyCol (s : State) (d : List (Nat × Nat × Nat)) : State :=
  let v := s.rd Reg.COL_CFG.rsv_granules
  if d.any (fun e => e.1 == 0xC00000) && (decide (v = 0) || decide (64 < v)) then
    (s.keepField d Reg.COL_CFG.rsv_granules).fault { code := 0x200C, part := 0x40 }
  else s

/-- Is pool (p, n) as its rules want it (R245, R246, R270): in sets owned by p on tile n, frames large enough for every valid layout? -/
def State.poolOk (s : State) (p n : Nat) : Bool :=
  let k := s.rd (Reg.INK_POOL_GEOM.frames p n)
  let a := s.rd (Reg.INK_POOL_BASE.base p n) * 4096
  let len := k * s.frameSize p n
  k == 0 || (s.permit p a len && isHbm a && isHbm (a + len - 1) && decide (chanTile (a / chanBytes) = n) && decide (chanTile ((a + len - 1) / chanBytes) = n) &&
    (List.range 16).all (fun m => !s.on (Reg.INK_KV_LAYOUT.valid p m) || decide (s.kvBytes p m + 512 ≤ s.frameSize p n)))

/-- Inkwell (R268 to R270): pools are checked, changed ones start empty, adapter slots claimed twice are used by neither. -/
def State.applyInk (s : State) (d : List (Nat × Nat × Nat)) : State :=
  let pools := ((hitIx d 0xD00000 8 512) ++ (hitIx d 0xD01000 8 512)).eraseDups
  let s := upto 512 s (fun i t =>
    let bad := !t.poolOk (i / 8) (i % 8)
    let was := NMap.get false t.srv.badPools i
    let t := { t with srv := { t.srv with badPools := NMap.put false t.srv.badPools i bad } }
    if bad && (!was || pools.contains i) then t.fault { code := 0x2007, part := i / 8, die := i % 8, unit := i % 8, arg1 := t.devId } else t)
  let s := each pools s (fun i t => upto (t.frameCount (i / 8) (i % 8)) t (fun f u => u.freeFrame (i / 8) (i % 8 * 33554432 + f)))
  let idx := (pools.map (fun i => i / 8) ++ hitIx d 0xD03000 8 64).eraseDups
  let s := each idx s (fun p t => if t.indexOn p then
      upto (2 ^ t.rd (Reg.INK_INDEX_CFG.log2_buckets p)) t (fun i u => u.stFor p (u.rd (Reg.INK_INDEX_CFG.base p) + 4 * i) [0, 0, 0, 0]) else t)
  if (hitIx d 0xD03200 8 64).isEmpty then s
  else
    let claims := fun (t : State) (k : Nat) => ((List.range 64).filter (fun p =>
      decide (t.rd (Reg.INK_ADAPTER_CFG.slot_first p) ≤ k) && decide (k < t.rd (Reg.INK_ADAPTER_CFG.slot_first p) + t.rd (Reg.INK_ADAPTER_CFG.slot_count p)))).length
    upto 1024 s (fun k t =>
      let n := claims t k
      let st := t.rd (Reg.INK_ADAPTER_STAT.state k)
      if 1 < n then t.wr (Reg.INK_ADAPTER_STAT.state k) 4
      else if st = 4 then t.setReg (Reg.INK_ADAPTER_STAT.all k).off 0
      else t)

/-- A cell's slot in base ticks. -/
def State.cellTicks (s : State) (c : Nat) : Nat := if s.rd (Reg.RAD_CELL_CFG.scs c) = 1 then 8 else 16

/-- Do a cell's fields and the live and armed periods allow it (R296, R297, R298, R330)? -/
def State.cellFits (s : State) (c : Nat) : Bool :=
  let rat := s.rd (Reg.RAD_CELL_CFG.rat c)
  let scs := s.rd (Reg.RAD_CELL_CFG.scs c)
  let prbs := s.rd (Reg.RAD_CELL_CFG.prbs_m1 c) + 1
  let per := fun (n : Nat) => decide (s.cellTicks c % 2 ^ n = 0)
  s.tilePresent (8 + s.rd (Reg.RAD_CELL_CFG.tile c)) && decide (rat < 2) && decide (scs < 2) && !(rat == 1 && scs == 1) &&
    decide (prbs ≤ if rat = 1 then 100 else if scs = 1 then 273 else 270) && (decide (rat ≠ 1) || decide (6 ≤ prbs)) && per (s.rd Reg.TICK_STAT.period_code) &&
    (match s.tick.armed with | some i => per i.code | none => true)

/-- Is cell c in service: valid, and not treated as invalid? -/
def State.cellValid (s : State) (c : Nat) : Bool := s.on (Reg.RAD_CELL_CFG.valid c) && !NMap.get false s.rad.badCells c

/-- The radio block (R296, R303, R326, R330). -/
def State.applyRad (s was : State) (d : List (Nat × Nat × Nat)) : State :=
  let cells := (s.regs.filter (fun e => decide (0x1000000 ≤ e.1) && decide (e.1 < 0x1002000) && bit e.2.toNat 63)).map (fun e => (e.1 - 0x1000000) / 8)
  let fit := cells.filter s.cellFits
  let excess := fun (c : Nat) => decide (256 ≤ (fit.filter (fun x => decide (x < c) && decide (s.rd (Reg.RAD_CELL_CFG.tile x) = s.rd (Reg.RAD_CELL_CFG.tile c)))).length)
  let bad := cells.filter (fun c => !s.cellFits c || excess c)
  let s := { s with rad := { s.rad with badCells := bad.foldl (fun m c => NMap.put false m c true) [] } }
  let changed := hitIx d 0x1000000 8 1024
  let s := each (bad.filter (fun c => was.cellValid c || changed.contains c)) s (fun c t =>
    t.fault { code := 0x2008, part := t.rd (Reg.RAD_CELL_CFG.partition c), die := 8 + t.rd (Reg.RAD_CELL_CFG.tile c), arg0 := c })
  -- counters and lost mark of a cell that moved
  let s := each (hits d 0x1000000 8 1024) s (fun e t =>
    if bits e.2.1 56 7 = bits e.2.2 56 7 then t else t.setReg (Reg.RAD_CELL_STAT.all e.1).off 0)
  -- exports
  let moved := hitIx d 0x1006000 8 1024 ++ hitIx d 0x1008000 4 1024
  let exps := (changed ++ moved).eraseDups
  let s := each exps s (fun c t =>
    let lg := t.rd (Reg.RAD_EXP_CFG.log2_entries c)
    if t.on (Reg.RAD_EXP_CFG.enable c) = false ∨ lg < 4 ∨ 16 < lg then t
    else if t.cellValid c && t.permit (t.rd (Reg.RAD_CELL_CFG.partition c)) (t.rd (Reg.RAD_EXP_BASE.base c) * 4096) (64 + 64 * 2 ^ lg) then
      -- a ring of new registers starts empty (assumption 74)
      (if moved.contains c then
        let b := t.rd (Reg.RAD_EXP_BASE.base c) * 4096
        ({ t with rad := { t.rad with expCount := NMap.put 0 t.rad.expCount c 0 } }).stBytes b (leBytes 0 64)
       else t)
    else (t.wr (Reg.RAD_EXP_CFG.enable c) 0).fault
      { code := 0x2009, part := t.rd (Reg.RAD_CELL_CFG.partition c), die := 8 + t.rd (Reg.RAD_CELL_CFG.tile c), arg0 := c })
  -- Scribes
  let own := hitIx d 0x1010000 4 128
  let s := each own s (fun k t => t.zeroScribe k)
  each ((hitIx d 0x1010200 8 128) ++ own).eraseDups s (fun k t => t.loadScribe k)

/-- Every operation pending takes effect in one cycle (R82): what ends first, the fields, what the rules make of the changes; then the SH
writes that were held apart enter the shadow copy (R79). -/
def State.applyCommits (s : State) : State :=
  let ops := s.tick.ops
  if ops.isEmpty then s
  else
    let d := ops.flatMap s.opDiff
    let was := s
    let s := s.beforeApply d
    let s := each ops { s with tick := { s.tick with ops := [] } } (fun o t => t.opMove o)
    let s := s.applyPart was d
    let s := upto 8 s (fun n t => t.applyTile d n)
    let s := ((s.applyTime d).applyHq d).applyFlt d
    let s := (((s.applyRad was d).applyEth was d).applyFab d).applyCol d
    let s := if ops.any (fun o => o.1 == 0xD00000 || decide (0x2000000 ≤ o.1)) then s.applyInk d else s
    let s := each s.bus.shHeld s (fun e t => t.setShadow e.1 e.2)
    { s with bus := { s.bus with shHeld := [] } }

end Sys2Proof.Machine
end

