-- ==== Sys2Proof/Machine/Part.lean ====
section
/-! DEFINITION. Partition operations and their apply cycle, fences, epoch switches, meter records (R453 to R468, R480, R481). -/

namespace Sys2Proof.Machine

/-! ### What a partition has outstanding, and what it owns (R456, R460) -/

/-- The units whose owner is p and whose zeroing has not completed, and its channels being scrubbed. -/
def State.zeroingOf (s : State) (p : Nat) : List (Nat × Nat) :=
  let own := fun (e : Nat × Nat) => match e.1 with
    | 0 => decide (s.rd (Reg.TILE_ACC_OWN.partition (e.2 / 128) (e.2 / 8 % 16) (e.2 % 8)) = p)
    | 1 => decide (s.rd (Reg.TILE_STORE_OWN.partition (e.2 / 1024) (e.2 / 64 % 16) (e.2 % 64 / 8) (e.2 % 8)) = p)
    | 2 => decide (s.rd (Reg.FAB_RSV_OWN.partition (e.2 / 128) (e.2 % 128 / 8) (e.2 % 8)) = p)
    | _ => decide (s.rd (Reg.RAD_SCRIBE_OWN.partition e.2) = p)
  (s.core.zeroing.filter own) ++
    (s.mem.scrubAt.filter (fun e => decide (s.rd (Reg.TILE_CHAN_CFG.owner (chanTile e.1) (e.1 - firstChan (chanTile e.1))) = p))).map (fun e => (4, e.1))

/-- Is a host command over for R456: a posted buffer, or a serving request that stays as it is (R457, R505)? -/
def State.hcmdQuiet (s : State) (q : Nat) (c : HCmd) : Bool :=
  c.posted || s.srv.reqs.any (fun e => match e.2.src with | .host h i => decide (h = q) && decide (i = c.index) | _ => false)

/-- PART_STAT.busy: the kinds of p outstanding. A handoff is open from the end of its prompt phase to KV_ACK. -/
def State.busyBits (s : State) (p : Nat) : Nat :=
  let dma := s.core.banks.any (fun e => decide (e.2.part = p) && !e.2.dmas.isEmpty) || s.fab.out.any (fun o => decide (o.part = p) && o.bank.isSome)
  let eng := (s.srv.quill ++ s.srv.ink).any (fun e => e.2.any (fun c => decide (c.part = p)))
  let col := s.col.colls.any (fun c => decide (c.part = p))
  let host := s.hq.q.any (fun e => decide (s.hqOwner e.1 = p) && e.2.cmds.any (fun c => !s.hcmdQuiet e.1 c))
  let hand := s.srv.reqs.any (fun e => decide (e.2.part = p) && e.2.st == .handoff && e.2.isPrompt)
  b2n dma + 2 * b2n eng + 4 * b2n col + 8 * b2n host + 16 * b2n hand + 32 * b2n (!(s.zeroingOf p).isEmpty)

/-- Does one of the eight owner bytes of a register name p, valid? -/
def byteOwned (v p : Nat) : Bool := (List.range 8).any (fun b => bit v (8 * b + 7) && decide (bits v (8 * b) 6 = p))

/-- The kind of resource of p, as a bit of PART_STAT.held, that a live register of value v at an offset is; 10 where it is none. -/
def State.heldKind (s : State) (p off v : Nat) : Nat :=
  let rsvd := fun (v : Nat) => (List.range 8).any (fun b => bit v (8 * b + 7) && !bit v (8 * b + 6) && decide (bits v (8 * b) 6 = p))
  let o := off % 0x1000000
  if 0x2000000 ≤ off then
    if 0x4000 ≤ o ∧ o < 0x4180 then (if bits v 0 7 = p then 0 else 10)
    else if o = 0x4400 + 4 * p then (if bits v 0 16 ≠ 0 then 1 else 10)
    else if 0x1000 ≤ o ∧ o < 0x1500 then (if byteOwned v p then 2 else 10)
    else 10
  else if 0x400C00 ≤ off ∧ off < 0x400D00 then (if byteOwned v p then 5 else 10)
  else if 0x401000 + 64 * p ≤ off ∧ off < 0x401040 + 64 * p then (if bit v 31 then 8 else 10)
  else if 0xA02000 ≤ off ∧ off < 0xA02500 then (if rsvd v then 3 else 10)
  else if 0x1000000 ≤ off ∧ off < 0x1002000 then (if bit v 63 && decide (bits v 56 6 = p) then 4 else 10)
  else if 0x1010000 ≤ off ∧ off < 0x1010200 then (if bit v 31 && decide (bits v 0 6 = p) then 4 else 10)
  else if 0x810000 ≤ off ∧ off < 0x820000 then (if s.queuePart (bits v 0 2) (bits v 4 12) = p then 6 else 10)
  else if 0x920000 ≤ off ∧ off < 0x930000 then (if s.queuePart (bits v 0 2) (bits v 2 12) = p then 6 else 10)
  else if 0x330000 ≤ off ∧ off < 0x338000 then (if bit v 63 && decide (bits v 56 7 = p) then 7 else 10)
  else 10

/-- Engine settings of p: its domain and the engines that are enabled, or have something configured, for it. -/
def State.engineSet (s : State) (p : Nat) : Bool :=
  s.on (Reg.FAB_DOMAIN.valid p) || s.on (Reg.SRV_PART_CFG.enable p) || s.on (Reg.COL_PART_CFG.enable p) ||
    decide (s.rd (Reg.QUILL_CTX_CFG.ctx_count p) ≠ 0) || decide (s.rd (Reg.INK_ADAPTER_CFG.slot_count p) ≠ 0) ||
    (List.range 8).any (fun n => decide (s.rd (Reg.INK_POOL_GEOM.frames p n) ≠ 0)) || (List.range 16).any (fun m => s.on (Reg.INK_KV_LAYOUT.valid p m))

/-- PART_STAT.held: the kinds of resource p owns. -/
def State.heldBits (s : State) (p : Nat) : Nat :=
  let ks := s.regs.map (fun e => s.heldKind p e.1 e.2.toNat)
  (List.range 9).foldl (fun a i => if ks.contains i then a + 2 ^ i else a) (if s.engineSet p then 512 else 0)

/-! ### Requests for an operation (R454) -/

/-- An operation on p is refused. -/
def State.opRefuse (s : State) (p reason : Nat) : State :=
  ((s.wr (Reg.PART_STAT.refused p) 1).wr (Reg.PART_STAT.reason p) reason).fault
    { code := 0x200D, part := p, die := 8 + s.rd Reg.TICK_STAT.active_unit, arg0 := reason }

/-- A write of PART_CTRL. -/
def State.partCtrl (s : State) (p op : Nat) (force : Bool) : State :=
  if op = 0 ∨ 5 < op then s.opRefuse p 7
  else if s.rd (Reg.PART_STAT.pending_op p) ≠ 0 then s.opRefuse p 2
  else { s.wr (Reg.PART_STAT.pending_op p) op with part := { s.part with ops := s.part.ops ++ [(p, op, force)] } }

/-- R455: PART_CTRL CREATE of partition p. -/
def execCreate (p : Nat) (s : State) : Host.Outcome State Fault Refusal := .next (s.partCtrl (p % 64) 1 false)
/-- R456: PART_CTRL QUIESCE of partition p. -/
def execQuiesce (p : Nat) (s : State) : Host.Outcome State Fault Refusal := .next (s.partCtrl (p % 64) 2 false)
/-- R458: PART_CTRL RESUME of partition p. -/
def execResume (p : Nat) (s : State) : Host.Outcome State Fault Refusal := .next (s.partCtrl (p % 64) 3 false)
/-- R459: PART_CTRL RESET of partition p. -/
def execReset (p : Nat) (force : Bool) (s : State) : Host.Outcome State Fault Refusal := .next (s.partCtrl (p % 64) 4 force)
/-- R460: PART_CTRL REMOVE of partition p. -/
def execRemove (p : Nat) (s : State) : Host.Outcome State Fault Refusal := .next (s.partCtrl (p % 64) 5 false)

/-! ### The operations at their apply cycle (R455 to R460) -/

/-- The program region of p lies in consistent interleave sets that p owns (R455). -/
def State.progOk (s : State) (p : Nat) : Bool :=
  let a := s.progBase p
  let z := a + s.progSize p - 1
  isHbm z && (List.range (z / chanBytes - a / chanBytes + 1)).all (fun i =>
    let c := a / chanBytes + i
    let n := chanTile c
    s.setConsistent n (c - firstChan n) && decide (s.rd (Reg.TILE_CHAN_CFG.owner n (c - firstChan n)) = p))

/-- Every core of p's mask is present (R46, R455). -/
def State.maskOk (s : State) (p : Nat) : Bool :=
  (List.range 8).all (fun n => let m := s.rd (Reg.PART_CORE_MASK.cores p (n / 4) (n % 4))
    m == 0 || (s.tilePresent n && (List.range 16).all (fun c => !bit m c || s.coreInService n c)))

/-- R455. -/
def State.partCreate (s : State) (p : Nat) : State :=
  if s.partState p ≠ 0 then s.opRefuse p 1
  else if (List.range 16).all (fun i => (s.partPasid p i).isNone) then s.opRefuse p 3
  else if !s.progOk p then s.opRefuse p 4
  else if !s.maskOk p then s.opRefuse p 6
  else
    let s := s.wr (Reg.PART_VAR_EVENTS.events p) 0
    let s := upto 8 s (fun k t => t.wr (Reg.PART_METER.count p k) 0)
    let s := (s.wr (Reg.COL_ORDER.next_order p) 1).wr (Reg.PART_STAT.state p) 3
    let s := { s with part := { s.part with copper := NMap.put false s.part.copper p (s.on (Reg.PART_CFG.copperplate p)) } }
    s.meterRecord p 6 (s.rd (Reg.PART_CFG.meter_time p)) (s.liveEpoch p)

/-- Valid cells, in order. -/
def State.validCells (s : State) : List Nat :=
  ((s.regs.filter (fun e => decide (0x1000000 ≤ e.1) && decide (e.1 < 0x1002000) && bit e.2.toNat 63)).map (fun e => (e.1 - 0x1000000) / 8)).filter s.cellValid

/-- Valid cells of partition p. -/
def State.cellsOf (s : State) (p : Nat) : List Nat := s.validCells.filter (fun c => decide (s.rd (Reg.RAD_CELL_CFG.partition c) = p))

/-- R456, R457. -/
def State.partQuiesce (s : State) (p : Nat) : State :=
  if s.partState p ≠ 1 then s.opRefuse p 1
  else
    let s := each (s.cellsOf p) s (fun c t => t.markLost c)
    { s.wr (Reg.PART_STAT.state p) 2 with part := { s.part with quiescedAt := NMap.put 0 s.part.quiescedAt p (s.time.cnt + 1) } }

/-- R458: fetching restarts at the queues whose doorbell was recorded; held messages take effect; the cells' marks stay until a
slot_first Stroke runs. -/
def State.partResume (s : State) (p : Nat) : State :=
  if s.partState p ≠ 3 ∨ s.rd Reg.MGT_STAT.state = 1 then s.opRefuse p 1
  else
    let s := s.wr (Reg.PART_STAT.state p) 1
    let quiet := (s.cellsOf p).foldl (fun m c => if s.cellLost c then NMap.put false m c true else m) s.part.quietCells
    let s := { s with part := { s.part with quietCells := quiet, quiescedAt := NMap.del s.part.quiescedAt p } }
    let s := each (s.hq.q.map (fun e => e.1)) s (fun q t =>
      if t.hqOwner q = p ∧ t.hqLive q = true ∧ (t.hq_ q).again = true then t.setHq q { t.hq_ q with reading := true, again := false } else t)
    s.svRelease p

/-- The state an outcome gives; s where it gives none. -/
def State.nextOf (s : State) (o : Host.Outcome State Fault Refusal) : State := match o with | .next t => t | _ => s

/-- The Quill commands of p complete at once (R459 step 2): one of them. -/
def State.quillForce (s : State) (p j : Nat) : Nat → State
  | 0 => s
  | n + 1 =>
    match (List.range (s.quillQueue j).length).find? (fun i => match (s.quillQueue j)[i]? with | some c => decide (c.part = p) | none => false) with
    | none => s
    | some i =>
      -- it goes to the head of its Quill, so that it is its turn
      match (s.quillQueue j)[i]? with
      | none => s
      | some c =>
        let s := s.setQuillQueue j (c :: listDel (s.quillQueue j) i)
        State.quillForce (if qcOp c.raw = 2 then s.nextOf (execInit j 0 s) else s.sampleForce j c) p j n

/-- A request of p ends with CANCELLED; no message is sent (R459). -/
def State.reqCancel (s : State) (k : Nat) : State :=
  match s.req k with
  | none => s
  | some r => (if r.src = .remote then s else s.reqRecord r stCancelled false).leave k stCancelled none

/-- Steps 1 and 2 of R459: the banks and the carried Strokes of p, then its Quill commands and collectives where it is forced. -/
def State.clearEngines (s : State) (p : Nat) (force : Bool) : State :=
  let s := each ((s.core.banks.filter (fun e => decide (e.2.part = p))).map (fun e => e.1)) s (fun k t => t.freeBank k)
  let s := { s with tick := { s.tick with carry := (s.tick.carry.map (fun (e : Nat × List Desc) => (e.1, e.2.filter (fun (d : Desc) => decide (d.part ≠ p))))).filter (fun e => !e.2.isEmpty) } }
  if force then
    (let s := upto 4 s (fun j t => t.quillForce p j (2 * (t.quillQueue j).length))
     each (s.col.colls.filter (fun (c : Coll) => decide (c.part = p))) s (fun c t =>
       if c.started then t.colFail c 0x33 true else (t.delColl c).colFinish c 0x33))
  else s

/-- Step 3 of R459: the requests of p and the messages held for it. -/
def State.clearRequests (s : State) (p : Nat) : State :=
  let s := each ((s.srv.reqs.filter (fun (e : Nat × Req) => decide (e.2.part = p))).map (fun (e : Nat × Req) => e.1)) s (fun k t => t.reqCancel k)
  { s with srv := { s.srv with held := s.srv.held.filter (fun x => s.domainPart x.domain != some p) } }

/-- A host queue is emptied, and goes on from the host's tail (R459). -/
def State.clearHostQueue (s : State) (q : Nat) : State :=
  let t := s.hqFlush q
  if !t.hqLive q then t
  else match (t.hqPasid q).bind (fun pasid => t.hostRd pasid (t.sqBase q) 8) with
  | some tail => t.setHq q { t.hq_ q with head := tail, reading := false, again := false }
  | none => t.hqRingFail q (t.sqBase q)

/-- Step 4 of R459: the semaphores, Ethernet queues and host queues of p. -/
def State.clearQueues (s : State) (p : Nat) : State :=
  let s := upto 256 s (fun g t =>
    if t.on (Reg.PART_SEM_OWN.valid (g / 8) (g % 8)) && decide (t.rd (Reg.PART_SEM_OWN.partition (g / 8) (g % 8)) = p) then t.semZeroGroup g else t)
  let s := each (s.eth.rxq.map (fun e => e.1) ++ s.eth.svc.map (fun e => e.1) ++ s.eth.svcDone.map (fun e => e.1)).eraseDups s (fun q t =>
    if t.queuePart (t.rd (Reg.BLT_RXQ_CFG.kind q)) (t.rd (Reg.BLT_RXQ_CFG.owner q)) = p then t.rxqFlush q else t)
  let s := each (s.eth.egq.map (fun e => e.1)) s (fun q t =>
    if t.queuePart (t.rd (Reg.EQS_Q_CFG.kind q)) (t.rd (Reg.EQS_Q_CFG.owner q)) = p then t.egqFlush q else t)
  each ((s.regs.filter (fun e => decide (0x330000 ≤ e.1) && decide (e.1 < 0x338000) && bit e.2.toNat 63 && decide (bits e.2.toNat 56 7 = p))).map
    (fun e => (e.1 - 0x330000) / 8)) s (fun q t => t.clearHostQueue q)

/-- Steps 1 to 4 of R459. -/
def State.partClear (s : State) (p : Nat) (force : Bool) : State := ((s.clearEngines p force).clearRequests p).clearQueues p

/-- Step 5 of R459: everything p owns is zeroed. -/
def State.partZero (s : State) (p : Nat) : State :=
  each s.regs s (fun e t =>
    let off := e.1
    let o := off % 0x1000000
    let n := off / 0x1000000 - 2
    let v := e.2.toNat
    let mine := (List.range 8).filter (fun b => bit v (8 * b + 7) && decide (bits v (8 * b) 6 = p))
    match s.heldKind p off v with
    | 0 => t.startScrub n ((o - 0x4000) / 4)
    | 1 => t.wr (Reg.TILE_TS_STAT.flushing n) 1
    | 2 => if o < 0x1100 then each mine t (fun b u => u.zeroAcc (16 * n + (o - 0x1000) / 8) b)
      else each mine t (fun b u => u.zeroGran (16 * n + (o - 0x1100) / 64) ((o - 0x1100) / 8 % 8 * 8 + b))
    | 3 => each (mine.filter (fun b => !bit v (8 * b + 6))) t (fun b u => u.zeroPoolGran ((off - 0xA02000) / 128) ((off - 0xA02000) / 8 % 16 * 8 + b))
    | 4 => if off < 0x1002000 then t.setReg (Reg.RAD_CELL_STAT.all ((off - 0x1000000) / 8)).off 0
      else let k := (off - 0x1010000) / 4
           (t.zeroScribe k).loadScribe k
    | _ => t)

/-- The partition waits for zeroing (RESETTING, REMOVING), or is through at once. -/
def State.awaitZero (s : State) (p : Nat) (l : List (Nat × Nat)) (during after : Nat) : State :=
  if l.isEmpty then s.wr (Reg.PART_STAT.state p) after
  else { s.wr (Reg.PART_STAT.state p) during with part := { s.part with zeroWait := NMap.ins s.part.zeroWait p l } }

/-- R459. -/
def State.partReset (s : State) (p : Nat) (force : Bool) : State :=
  let st := s.partState p
  if st ≠ 3 ∧ ¬(st = 2 ∧ force = true) then s.opRefuse p 1
  else
    let s := (s.partClear p force).partZero p
    let s := (s.wr (Reg.PART_VAR_EVENTS.events p) 0).wr (Reg.COL_ORDER.next_order p) 1
    let s := s.meterRecord p 4 (s.rd (Reg.PART_CFG.meter_time p)) (s.liveEpoch p)
    s.awaitZero p (s.zeroingOf p) 4 3

/-- R460. `new`: the zeroing that the COMMIT of the same edge started. -/
def State.partRemove (s : State) (p : Nat) (new : List (Nat × Nat)) : State :=
  if s.partState p ≠ 3 then s.opRefuse p 1
  else
    let h := s.heldBits p
    let s := s.wr (Reg.PART_STAT.held p) h
    if h ≠ 0 then s.opRefuse p 5
    else
      let s := s.partClear p false
      let s := s.meterRecord p 5 (s.rd (Reg.PART_CFG.meter_time p)) (s.liveEpoch p)
      s.awaitZero p new 5 0

/-- One operation at its apply cycle. -/
def State.partOp (s : State) (new : List (Nat × Nat)) (o : Nat × Nat × Bool) : State :=
  let s := s.wr (Reg.PART_STAT.pending_op o.1) 0
  match o.2.1 with
  | 1 => s.partCreate o.1
  | 2 => s.partQuiesce o.1
  | 3 => s.partResume o.1
  | 4 => s.partReset o.1 o.2.2
  | _ => s.partRemove o.1 new

/-! ### Fences (R480, R481) -/

/-- A unit is to be fenced: kind as in FLT_FENCE and package-wide index. -/
def State.fenceUnit (s : State) (kind index : Nat) : State :=
  if s.flt.pendFence.contains (kind, index) then s else { s with flt := { s.flt with pendFence := s.flt.pendFence ++ [(kind, index)] } }

/-- Units of a kind. -/
def unitsOf (kind : Nat) : Nat := match kind with | 1 => 64 | 2 => 64 | 3 => 128 | 4 => 8 | 5 => 4 | 6 => 10 | _ => 0

/-- A write of FLT_FENCE (R488). -/
def State.fltFence (s : State) (v : Nat) : State :=
  if bits v 0 7 < unitsOf (bits v 8 3) then s.fenceUnit (bits v 8 3) (bits v 0 7) else s.badAccess Reg.FLT_FENCE.all.off

/-- R480: a write of FLT_FENCE. -/
def execFltFence (v : Nat) (s : State) : Host.Outcome State Fault Refusal := .next (s.fltFence v)

/-- R480: a unit has raised three counted faults within 1,000 ms. -/
def execUnitFence (kind index : Nat) (s : State) : Host.Outcome State Fault Refusal :=
  .next (if index < unitsOf kind ∧ 3 ≤ (NMap.get [] s.flt.counted (kind * 256 + index)).length then s.fenceUnit kind index else s)

/-- The bit of FLT_FENCED that shows a unit, and its base die. -/
def fenceFld (kind i : Nat) : Fld × Nat :=
  match kind with
  | 1 => (⟨(Reg.FLT_FENCED_CORE.all (i / 16)).off, i % 16, 1⟩, i / 16)
  | 2 => (⟨(Reg.FLT_FENCED_CORE.all (4 + i / 16)).off, i % 16, 1⟩, 4 + i / 16)
  | 3 => (⟨(Reg.FLT_FENCED_SCRIBE.all (i / 64)).off, i % 64, 1⟩, 8 + i / 64)
  | 4 => (⟨Reg.FLT_FENCED_MISC.all.off, i, 1⟩, 8 + i / 4)
  | 5 => (⟨Reg.FLT_FENCED_MISC.all.off, 8 + i, 1⟩, 4 + i)
  | _ => (⟨Reg.FLT_FENCED_MISC.all.off, 12 + i, 1⟩, i)

/-- A Stroke on the fenced target is over (possible only while windows of a stopped tick unit still run). -/
def State.fenceSlots (s : State) (n t : Nat) : State :=
  s.setTileProg n ((s.tileProg n).map (fun x => if x.target = t then { x with phase := .spent } else x))

/-- A fence at its apply cycle. -/
def State.fenceApply (s : State) (f : Nat × Nat) : State :=
  let b := fenceFld f.1 f.2
  if s.on b.1 then s
  else
    let s := s.wr b.1 1
    let ks := if f.1 ≤ 2 then (s.core.banks.filter (fun e => decide (keyCore e.1 = (if f.1 = 1 then f.2 else 64 + f.2)))) else []
    let lost := (ks.map (fun e => e.2.part)).eraseDups
    let s := match f.1 with
      | 1 => (each ks s (fun e t => t.freeBank e.1)).fenceSlots b.2 (f.2 % 16)
      | 2 => (each ks s (fun e t => t.freeBank e.1)).fenceSlots b.2 (f.2 % 16)
      | 3 => (if (s.scribe f.2).isSome then s.clearScribe f.2 else s).fenceSlots b.2 (f.2 % 64)
      | 4 => (s.delFec f.2).fenceSlots b.2 (64 + f.2 % 4)
      | 5 => (s.fenceHeld f.2).quillFence f.2
      | _ => s
    each (0x40 :: lost) s (fun p t => t.fault { code := 0x8004, part := p, die := b.2, unit := b.2 })

/-! ### The apply cycle (R79, R82, R83, R454, R481) -/

/-- Everything pending takes effect: COMMIT and REVERT operations, then partition operations in order of arrival, then fences. -/
def State.applyCycle (s : State) : State :=
  let z0 := s.core.zeroing
  let c0 := s.mem.scrubAt
  let s := s.meterTicks.applyCommits
  let new := (s.core.zeroing.filter (fun e => !z0.contains e)) ++ ((s.mem.scrubAt.filter (fun e => !c0.contains e)).map (fun e => (4, e.1)))
  let ops := s.part.ops
  let s := each ops { s with part := { s.part with ops := [] } } (fun o t => t.partOp new o)
  let s := upto 64 s (fun p t => if t.rd (Reg.PART_STAT.held p) = 0 then t else t.wr (Reg.PART_STAT.held p) (t.heldBits p))
  let fs := s.flt.pendFence
  each fs { s with flt := { s.flt with pendFence := [] } } (fun f t => t.fenceApply f)

/-- R83: while the tick unit is stopped, what is pending takes effect. -/
def execStoppedApply (s : State) : Host.Outcome State Fault Refusal :=
  .next (if s.on Reg.TICK_STAT.running then s else s.applyCycle)

/-! ### Quiescence (R456, R457) -/

/-- R456: at this edge everything of p has completed. -/
def execQuiesceComplete (p : Nat) (s : State) : Host.Outcome State Fault Refusal :=
  .next (if p < 64 ∧ s.partState p = 2 ∧ s.busyBits p % 32 = 0 then s.wr (Reg.PART_STAT.state p) 3 else s)

/-- R456: p is still QUIESCING quiesce_ms_m1 + 1 ms after its edge. -/
def execQuiesceSlow (p : Nat) (s : State) : Host.Outcome State Fault Refusal :=
  if p < 64 ∧ s.partState p = 2 then
    let s := s.advance (NMap.get 0 s.part.quiescedAt p - 1 + msCycles (s.rd (Reg.PART_CFG.quiesce_ms_m1 p) + 1))
    .next ((s.wr (Reg.PART_STAT.quiesce_slow p) 1).fault { code := 0x500E, part := p, die := 8 + s.rd Reg.TICK_STAT.active_unit })
  else .next s

/-- R457: at an edge at TICK_NUM `num` that starts a slot of it, the slot of a cell of a QUIESCING or QUIESCED partition is lost, and so
on after RESUME until a slot_first Stroke runs. -/
def State.quietSlots (s : State) (num : Nat) : State :=
  each s.validCells s (fun c t =>
    let st := t.partState (t.rd (Reg.RAD_CELL_CFG.partition c))
    if num % t.cellTicks c = 0 ∧ (st = 2 ∨ st = 3 ∨ NMap.get false t.part.quietCells c = true) then
      (t.wr (Reg.RAD_CELL_STAT.lost c) 1).inc (Reg.RAD_CELL_STAT.lost_slots c) 1
    else t)

/-! ### Composition (R461 to R465) -/

/-- An epoch switch of p is refused. -/
def State.compRefuse (s : State) (p reason : Nat) : State :=
  ((s.wr (Reg.PART_COMP_STAT.refused p) 1).wr (Reg.PART_COMP_STAT.reason p) reason).fault
    { code := 0x200F, part := p, die := 8 + s.rd Reg.TICK_STAT.active_unit, arg0 := reason }

/-- A composition map as its header and entries stand in manager-owned memory: epoch and entries (R461). -/
def State.compImage (s : State) (base : Nat) : Option (Nat × List Nat) :=
  if !s.permit 0x40 base 64 then none
  else
    let h := s.ldN base 64
    let n := bits h 64 12 + 1
    if bits h 0 32 = 0x434F4D50 ∧ s.permit 0x40 (base + 64) (16 * n) = true then
      some (bits h 32 32, (List.range n).map (fun i => s.ldN (base + 64 + 16 * i) 16))
    else none

/-- Entries that repeat a device, name 0xFFFF or have a reserved bit set count as down (R461). -/
def compEntries : List Nat → List Nat → List Nat
  | _, [] => []
  | seen, e :: r =>
    let d := bits e 0 16
    (if seen.contains d || decide (d = 0xFFFF) || decide (bits e 20 4 ≠ 0) || decide (bits e 48 80 ≠ 0) then setBits e 19 1 1 else e) :: compEntries (d :: seen) r

/-- A switch is armed. -/
def State.compArm (s : State) (p : Nat) (a : CompArm) : State :=
  { s.wr (Reg.PART_COMP_STAT.armed p) 1 with part := { s.part with armed := NMap.ins s.part.armed p a } }

/-- A write of PART_COMP_SWITCH[p] (R464). Where several conditions fail, the reason is that of the first in the rule's order. -/
def State.compSwitch (s : State) (p v : Nat) : State :=
  let s := s.setReg (Reg.PART_COMP_SWITCH.all p).off (BitVec.ofNat 64 (v % 2 ^ 48 + bits v 62 2 * 2 ^ 62))
  let slot := bits v 63 1
  let target := if bits v 0 48 = 0 then s.tickNum + 32 else bits v 0 48
  if s.on (Reg.PART_COMP_STAT.armed p) then s.compRefuse p 4
  else if s.liveEpoch p ≠ 0 ∧ s.rd (Reg.PART_COMP_STAT.live_slot p) = slot then s.compRefuse p 2
  else if target < s.tickNum + 32 then s.compRefuse p 1
  else
    match s.compImage (s.rd (Reg.PART_COMP_BASE.base p slot)) with
    | none => s.compRefuse p 3
    | some (epoch, l) =>
      if epoch ≤ s.liveEpoch p then s.compRefuse p 3
      else if s.on (Reg.PART_COMP_STAT.draining p) && !bit v 62 then s.compRefuse p 5
      else
        s.compArm p ⟨slot, bit v 62, target, epoch, compEntries [] l⟩

/-- R464: a write of PART_COMP_SWITCH[p]. -/
def execCompSwitch (p v : Nat) (s : State) : Host.Outcome State Fault Refusal := .next (s.compSwitch (p % 64) v)

/-- The epoch switches whose target TICK_NUM has been reached at this edge (R465). -/
def State.compEdge (s : State) : State :=
  each s.part.armed s (fun e t =>
    let p := e.1
    let a := e.2
    if t.tickNum < a.target then t
    else
      let old := t.liveEpoch p
      let t := t.meterRecord p 2 (t.rd (Reg.PART_CFG.meter_time p)) old
      let t := ((t.wr (Reg.PART_COMP.prev_epoch p) old).wr (Reg.PART_COMP.live_epoch p) a.epoch).wr (Reg.PART_COMP_STAT.live_slot p) a.slot
      let t := ((t.wr (Reg.PART_COMP_STAT.armed p) 0).wr (Reg.PART_COMP_STAT.done p) 1).wr (Reg.PART_COMP_STAT.draining p) 1
      let stop := t.time.cnt + msCycles (t.rd (Reg.PART_CFG.drain_ms_m1 p) + 1)
      { t with part := { t.part with
          armed := NMap.del t.part.armed p
          oldMap := NMap.put [] t.part.oldMap p (NMap.get [] t.part.liveMap p)
          liveMap := NMap.put [] t.part.liveMap p a.members
          wrr := NMap.clearRange t.part.wrr (4 * p) (4 * p + 4)
          drainEnd := NMap.put 0 t.part.drainEnd p stop } })

/-- R465: the drain window of p closes. -/
def execDrainWindowClose (p : Nat) (s : State) : Host.Outcome State Fault Refusal :=
  if p < 64 ∧ s.on (Reg.PART_COMP_STAT.draining p) = true then
    let s := s.advance (NMap.get 0 s.part.drainEnd p)
    .next { s.wr (Reg.PART_COMP_STAT.draining p) 0 with part := { s.part with drainEnd := NMap.del s.part.drainEnd p } }
  else .next s

/-- R468: period_ms ms have passed since the last periodic records: one for each partition that is not ABSENT. -/
def execMeterRecord (s : State) : Host.Outcome State Fault Refusal :=
  let ms := s.rd Reg.PART_METER_CFG.period_ms
  if ms = 0 ∨ s.on Reg.PART_METER_CFG.enable = false then .next s
  else
    let s := (s.advance (s.part.meterAt + msCycles ms)).meterTicks
    let s := { s with part := { s.part with meterAt := s.time.cnt } }
    .next (upto 64 s (fun p t => if t.partState p = 0 then t else t.meterRecord p 1 (t.rd (Reg.PART_CFG.meter_time p)) (t.liveEpoch p)))

end Sys2Proof.Machine
end

