-- ==== Sys2Proof/Machine/Tick.lean ====
section
/-! DEFINITION. The tick: image switches, the edge sequence, dispatch, windows, tick records (R49 to R77, R85, R452, R553). -/

namespace Sys2Proof.Machine

/-! ### Images (R49, R55, R56, R75) -/

/-- Minimum cycles C_min of a tick with period code n (R49). -/
def cMin (n : Nat) : Nat := 99990 * 2 ^ n

/-- The header at `base` as an image, where it is valid (R56). -/
def State.header (s : State) (slot target base : Nat) : Option Image :=
  if !s.permit 0x40 base 64 then none
  else
    let h := s.ldN base 64
    let code := bits h 40 3
    let progs := bits h 48 11 + 1
    let size := bits h 64 32
    let dir := bits h 96 32
    if bits h 0 32 = 0x44554354 ∧ bits h 32 8 = 1 ∧ code ≤ 4 ∧ 163840 % (progs * 2 ^ code) = 0 ∧ dir % 128 = 0 ∧ dir + 128 * progs ≤ size then
      some ⟨slot, target, base, code, progs, size, dir⟩
    else none

/-- A switch is refused, or withdrawn (R75, R77). -/
def State.switchRefuse (s : State) (reason : Nat) : State :=
  ((s.wr Reg.TICK_SWITCH_STAT.refused 1).wr Reg.TICK_SWITCH_STAT.reason reason).fault
    { code := 0x2002, part := 0x40, die := 8 + s.rd Reg.TICK_STAT.active_unit, arg0 := 0x3FF }

/-- A write of TICK_SWITCH (R75). Where several conditions fail, the reason is that of the first in the rule's order; the alignment of a
target is judged by the live period code alone where the header is invalid. -/
def State.tickSwitch (s : State) (v : Nat) : State :=
  let s := s.setReg Reg.TICK_SWITCH.all.off (BitVec.ofNat 64 v)
  let slot := bits v 63 1
  let target := bits v 0 63
  let n := s.rd Reg.TICK_STAT.period_code
  let img := s.header slot target (s.rd (Reg.TICK_DUCTUS_BASE.base slot))
  let m := match img with | some i => max n i.code | none => n
  let near := if s.on Reg.TICK_STAT.running then s.tickNum + 2 * 2 ^ n else s.tickNum + 32
  if target % 2 ^ m ≠ 0 then s.switchRefuse 2
  else if target < near then s.switchRefuse 1
  else if (match s.tick.image with | some a => decide (a.slot = slot) | none => false) = true then s.switchRefuse 3
  else
    match img with
    | none => s.switchRefuse 4
    | some i =>
      if s.validCells.any (fun c => decide (s.cellTicks c % 2 ^ i.code ≠ 0)) then s.switchRefuse 7
      else if s.tick.armed.isSome then s.switchRefuse 5
      else { s.wr Reg.TICK_SWITCH_STAT.armed 1 with tick := { s.tick with armed := some i } }

/-- R75: a write of TICK_SWITCH. -/
def execTickSwitch (v : Nat) (s : State) : Host.Outcome State Fault Refusal := .next (s.tickSwitch v)

/-- A write of TICK_CTRL (R77). Writing run = 1 while the unit is stopping lets it run on; writing run = 0 before the first edge
withdraws the start. -/
def State.tickCtrl (s : State) (run : Bool) : State :=
  let go := fun (t : State) (stopping starting : Bool) =>
    { t.wr Reg.TICK_CTRL.run (b2n run) with tick := { t.tick with stopping := stopping, starting := starting } }
  if s.on Reg.TICK_STAT.running then go s (!run) s.tick.starting
  else if !run then go s false false
  else
    match s.tick.armed with
    | some i => if s.tickNum < i.target then go s false true else s.badAccess Reg.TICK_CTRL.run.off
    | none => s.badAccess Reg.TICK_CTRL.run.off

/-- R77: TICK_CTRL.run = 1. -/
def execTickRun (s : State) : Host.Outcome State Fault Refusal := .next (s.tickCtrl true)
/-- R77: TICK_CTRL.run = 0. -/
def execTickStop (s : State) : Host.Outcome State Fault Refusal := .next (s.tickCtrl false)

/-- The instant at which the base-tick count becomes n (R50), in ns. -/
def State.tickInstant (s : State) (n : Nat) : Nat := s.rd Reg.TICK_PHASE.phase_ns + 62500 * n

/-- R77: TICK_NUM reaches the target of an armed switch while the tick unit is stopped and not starting: the switch is withdrawn. -/
def execSwitchTargetPassed (s : State) : Host.Outcome State Fault Refusal :=
  match s.tick.armed with
  | none => .next s
  | some i =>
    if s.on Reg.TICK_STAT.running || s.tick.starting then .next s
    else
      let s := s.advanceNs (s.tickInstant i.target)
      .next (({ s with tick := { s.tick with armed := none } }).wr Reg.TICK_SWITCH_STAT.armed 0 |>.switchRefuse 6)

/-! ### Descriptors of a program (R57 to R61, R553) -/

/-- Number of descriptors and array offset in a directory entry. -/
def Image.entry (i : Image) (idx n : Nat) : Nat := i.base + i.dir + 128 * idx + 8 * n

/-- What a tile read of its program: nothing that it could read, a bad entry, or its descriptors. -/
inductive ProgRead where
  | unread
  | bad
  | ok (l : List Desc)
  deriving DecidableEq, Repr

/-- The program idx of an image, as tile n reads it: as memory stands at the edge (R59, assumption 78). Memory that the manager does not
hold is not read, and a poisoned line or one behind a failed mesh link is no descriptor, so the prefetch does not complete (R74). -/
def State.readProg (s : State) (i : Image) (idx n : Nat) : ProgRead :=
  let e := s.ldN (i.entry idx n) 8
  let count := bits e 0 13
  let off := bits e 32 32
  if !s.permit 0x40 (i.entry idx n) 8 then .unread
  else if 4096 < count ∨ off % 32 ≠ 0 ∨ i.bytes < off + 32 * count then .bad
  else if !s.permit 0x40 (i.base + off) (32 * count) then .unread
  else if s.rangeBad (i.entry idx n) 8 || s.rangeBad (i.base + off) (32 * count) || s.meshLost n (i.base + off) then .unread
  else .ok ((List.range count).map (fun j => ⟨s.ldN (i.base + off + 32 * j) 32, i.base + off + 32 * j⟩))

/-- Do two windows overlap? -/
def windowsMeet (a m b n : Nat) : Bool := decide (a < b + n) && decide (b < a + m)

/-- Is target t of tile n in range and present (R46)? -/
def State.targetPresent (s : State) (n t : Nat) : Bool :=
  if n < 8 then decide (t < 16) && s.tilePresent n && s.coreInService n t
  else if t < 64 then s.tilePresent n && bit (s.rd (Reg.GLB_CAP_SCRIBES.scribe_present (n - 8))) t
  else decide (t < 68) && s.fecPresent (n - 8)

/-- Is a descriptor of tile n invalid under R61, period code `code`? `before`: the valid RADIO descriptors before it. -/
def State.descBad (s : State) (n code : Nat) (before : List Desc) (d : Desc) : Bool :=
  decide (4 ≤ d.cls) || d.rsvdSet || decide (cMin code < d.offset + d.budget) ||
    (if d.dynamic then decide (d.offset < 320) || d.radio || decide (8 ≤ n) else decide (d.offset < 64) || !s.targetPresent n d.target) ||
    (decide (8 ≤ n) && !d.radio) || s.partState d.part == 0 ||
    (d.waitEn && !s.semOwned d.waitSem d.part) || (d.postEn && !s.semOwned d.postSem d.part) ||
    (d.radio && before.any (fun e => decide (e.target = d.target) && windowsMeet e.offset e.budget d.offset d.budget))

/-- An invalid descriptor: its record, and a RADIO one loses its cell's slot. -/
def State.strokeInvalid (s : State) (n : Nat) (d : Desc) : State :=
  let s := (s.rec_ (fun r => { r with invalid := r.invalid + 1 })).fault
    { code := 0x3002, part := if s.partState d.part = 0 then 0x40 else d.part, die := n, unit := d.target, tag := d.tag,
      arg0 := if d.radio then d.cell else 0x3FF, arg1 := d.addr }
  if d.radio then s.markLost d.cell else s

/-- The valid descriptors of a program, in order; the invalid ones are recorded. -/
def State.sortDescs (s : State) (n code : Nat) (l : List Desc) : State × List Desc :=
  each l (s, []) (fun d x =>
    if x.1.descBad n code (x.2.filter (fun e => e.radio)) d then (x.1.strokeInvalid n d, x.2) else (x.1, x.2 ++ [d]))

/-- Where the window [a, z) of a non-radio Stroke on target t closes: at the first RADIO window that opens inside it (R68). -/
def clipAt (radio : List Desc) (t edge a z : Nat) : Nat :=
  radio.foldl (fun z r => if r.target = t ∧ a < edge + r.offset ∧ edge + r.offset < z then edge + r.offset else z) z

/-- A program slot of a descriptor on target t; a Stroke whose partition is not ACTIVE is passed over (R456). -/
def State.slotOf (s : State) (radio : List Desc) (d : Desc) (t : Nat) : Slot where
  d := d
  target := t
  opens := s.tick.edge + d.offset
  closes := if d.radio then s.tick.edge + d.offset + d.budget
    else clipAt radio t s.tick.edge (s.tick.edge + d.offset) (s.tick.edge + d.offset + d.budget)
  phase := if s.partState d.part = 1 then .closed else .spent
  start := 0
  starved := false

/-! ### Dispatch (R70 to R72) -/

/-- Does a slot's window block core c for [a, z)? Windows of static non-radio Strokes that are passed over do not. -/
def Slot.blocks (x : Slot) (c a z : Nat) : Bool :=
  decide (x.target = c) && (x.d.radio || x.phase != .spent) && decide (x.opens < z) && decide (a < x.closes)

/-- The core that dispatch assigns to a dynamic Stroke. -/
def State.dispatchCore (s : State) (n : Nat) (l : List Slot) (d : Desc) : Option Nat :=
  let mask := s.rd (Reg.PART_CORE_MASK.cores d.part (n / 4) (n % 4))
  let home := s.homeCore n d.part d.ctx
  let a := s.tick.edge + d.offset
  (List.range 16).find? (fun c => bit mask c && s.coreUsable n c && (match home with | some h => decide (h = c) | none => true) &&
    !l.any (fun x => x.blocks c a (a + d.budget)))

/-- One offer: assigned to a core as a new slot, or deferred into the carry queue `q`, where `carried` Strokes keep their place. -/
def State.offer (s : State) (n : Nat) (carried : Bool) (d : Desc) (q : List Desc) : State × List Desc :=
  match s.dispatchCore n (s.tileProg n) d with
  | some c => (s.setTileProg n (s.tileProg n ++ [s.slotOf [] d c]), q)
  | none =>
    let s := (s.inc Reg.TICK_CNT.deferred 1).rec_ (fun r => { r with deferred := r.deferred + 1 })
    if carried || decide (q.length < 256) then (s, q ++ [d])
    else (s.fault { code := 0x3003, part := d.part, die := n, unit := d.target, tag := d.tag, arg0 := 0x3FF, arg1 := d.addr }, q)

/-- Dispatch of compute tile n: carried Strokes in carry order, then the program's dynamic ones `l` in array order. -/
def State.dispatch (s : State) (n code : Nat) (l : List Desc) : State :=
  let old := NMap.get [] s.tick.carry n
  let x := each old (s, ([] : List Desc)) (fun d x =>
    if x.1.partState d.part ≠ 1 then (x.1, x.2 ++ [d])
    else if x.1.descBad n code [] d then (x.1.strokeInvalid n d, x.2)
    else x.1.offer n true d x.2)
  let y := each l x (fun d x => if x.1.partState d.part ≠ 1 then x else x.1.offer n false d x.2)
  { y.1 with tick := { y.1.tick with carry := NMap.put [] y.1.tick.carry n y.2 } }

/-! ### The edge (R73) -/

/-- The program of tile n for the tick that begins becomes current; a program that is late or bad runs nothing (R74, R553). -/
def State.loadTile (s : State) (i : Image) (idx n : Nat) (late : Bool) : State :=
  let s := s.setTileProg n []
  let lateNow := fun (t : State) (l : List Desc) =>
    let t := (t.rec_ (fun r => { r with late := true })).fault { code := 0x3004, part := 0x40, die := n, arg0 := 0x3FF, arg1 := i.entry idx n }
    each (l.filter (fun d => d.radio)) t (fun d u => u.markLost d.cell)
  match s.readProg i idx n with
  | .unread => lateNow s []
  | .bad =>
    let s := s.fault { code := 0x3005, part := 0x40, die := n, unit := n, arg0 := idx, arg1 := i.entry idx n }
    if n < 8 then s else each (s.validCells.filter (fun c => decide (s.rd (Reg.RAD_CELL_CFG.tile c) = n - 8))) s (fun c t => t.markLost c)
  | .ok l =>
    if late then lateNow s l
    else
      let x := s.sortDescs n i.code l
      let radio := x.2.filter (fun d => d.radio)
      let s := x.1.setTileProg n ((x.2.filter (fun d => !d.dynamic)).map (fun d => x.1.slotOf radio d d.target))
      if n < 8 then s.dispatch n i.code (x.2.filter (fun d => d.dynamic)) else s

/-- Has tile n no program of its own in this tick: none readable, or one that came late? -/
def State.progless (s : State) (i : Image) (idx n : Nat) (late : Bool) : Bool :=
  match s.readProg i idx n with | .ok _ => late | _ => true

/-- One tile at the edge: a tile that has no program of its own in this tick still offers its carried Strokes. -/
def State.loadTileAt (s : State) (i : Image) (idx n : Nat) (late : Bool) : State :=
  if !s.tilePresent n then s
  else if n < 8 ∧ (s.loadTile i idx n late).progless i idx n late = true then (s.loadTile i idx n late).dispatch n i.code []
  else s.loadTile i idx n late

/-- Every tile at the edge (R66, R67). -/
def State.loadTiles (s : State) (i : Image) (idx : Nat) (late : List Nat) : State :=
  each (List.range 10) s (fun n t => t.loadTileAt i idx n (late.contains n))

/-- The cores on which an image places a RADIO Stroke (R67). -/
def State.imageCores (s : State) (i : Image) : NMap Bool :=
  each (List.range i.progs) ([] : NMap Bool) (fun idx m => each (List.range 8) m (fun n m =>
    match s.readProg i idx n with
    | .ok l => l.foldl (fun (m : NMap Bool) d => if d.radio && !d.dynamic && decide (d.target < 16) then NMap.put false m (16 * n + d.target) true else m) m
    | _ => m))

/-- Whatever is not idle when a tick ends is halted or paused (R73, cycle 4). -/
def State.forceIdle (s : State) : State :=
  each (List.range 10) s (fun n t => each (List.range (t.tileProg n).length) t (fun i u =>
    match u.slotAt n i with
    | some x => if x.phase = .closed ∨ x.phase = .spent then u else if n < 8 then u.budgetCore n i else u.haltRadio n i
    | none => u))

/-- The waiting-nonresident state of the tick that ends (R452). -/
def State.starvedTick (s : State) : State :=
  each (List.range 8) s (fun n t =>
    let l := (t.tileProg n).filter (fun x => x.starved && x.phase == .spent)
    each ((l.map (fun x => x.d.part)).eraseDups) t (fun p u =>
      let c := match (l.filter (fun x => decide (x.d.part = p))).getLast? with | some x => x.target | none => 0
      let u := if u.tick.record.starved.contains p then u else u.inc (Reg.PART_STAT.wn_ticks p) 1
      (({ u with tick := { u.tick with record := { u.tick.record with starved := p :: u.tick.record.starved } } }).wr (Reg.PART_STAT.waiting_nonresident p) 1).wr
        (Reg.PART_STAT.wn_where p) (16 * n + c)))

/-- The tick record of the tick that ends (R85). -/
def State.tickRecord (s : State) : State :=
  let r := s.tick.record
  let lg := s.rd Reg.TICK_REC_CFG.log2_entries
  match (if s.on Reg.TICK_REC_CFG.enable && decide (4 ≤ lg) && decide (lg ≤ 16) then s.mgrPasid else none) with
  | none => s
  | some pasid =>
    let m := fun (x : Nat) => min x 65535
    let v := setBits (setBits (setBits (setBits (setBits (setBits (setBits 0 0 64 s.tickNum) 64 16 (m r.started)) 80 16 (m r.halted)) 96 16 (m r.paused))
      112 16 (m r.deferred)) 128 16 (m r.skipped)) 144 16 (m r.invalid)
    let v := setBits (setBits (setBits (setBits (setBits v 160 32 (s.time.cnt - s.tick.edge)) 192 8 (min r.commits 255)) 200 1 (b2n r.switched))
      201 1 (b2n r.late)) 224 32 (min r.slack 0xFFFFFFFF)
    (s.hostWr pasid (s.rd Reg.TICK_REC_BASE.iova + 32 * (s.rd Reg.TICK_REC_HEAD.written % 2 ^ lg)) 32 v).incw Reg.TICK_REC_HEAD.written 1

/-- Compute tiles whose top die is clock-gated until the next edge (R514). -/
def State.gatedTiles (s : State) : List Nat :=
  (List.range 8).filter (fun n =>
    let here := fun (k : Nat) => decide (keyTile k = n)
    s.tilePresent n && (s.tileProg n).isEmpty && (NMap.get [] s.tick.carry n).isEmpty &&
      s.core.banks.all (fun e => !here e.1 || (e.2.queue.isEmpty && e.2.dmas.isEmpty)) &&
      s.fab.out.all (fun o => match o.bank with | some k => !here k | none => true) &&
      (decide (n < 4) || (s.quillQueue (n - 4)).isEmpty))

def State.gateTiles (s : State) : State := { s with tick := { s.tick with gated := s.gatedTiles } }

/-- A tick ends: its cores are idle, its record is written, a new count begins. -/
def State.endTick (s : State) : State :=
  let s := s.forceIdle.starvedTick.tickRecord
  { s with tick := { s.tick with record := ⟨0, 0, 0, 0, 0, 0, 0, false, false, 0xFFFFFFFF, []⟩ }, fab := { s.fab with touched := [] } }

/-- The armed switch takes effect where its target is this tick (R76). -/
def State.switchEdge (s : State) : State :=
  match s.tick.armed with
  | none => s
  | some i =>
    if i.target ≠ s.tickNum then s
    else
      let cores := s.imageCores i
      let s := { s with tick := { s.tick with armed := none, image := some i, radioCores := cores } }
      let s := ((s.wr Reg.TICK_STAT.period_code i.code).wr Reg.TICK_STAT.active_slot i.slot).rec_ (fun r => { r with switched := true })
      (s.wr Reg.TICK_SWITCH_STAT.armed 0).wr Reg.TICK_SWITCH_STAT.done 1

/-- One request at an edge (R240): its phase has ended, its end has been asked for, or its prompt member looks again for a generation
member (R265). -/
def State.reqEdge (s : State) (k : Nat) : State :=
  match s.req k with
  | none => s
  | some r =>
    if s.partState r.part ≠ 1 then s
    else
      match (if r.st = .decode ∧ r.batch.isSome = true then none else r.leaving) with
      | some st => s.reqEnd k st none
      | none =>
        if (r.st = .prefill ∨ (r.st = .handoff ∧ r.genDev = s.devId)) ∧ r.isPrompt = true ∧ r.blocks ≤ r.ready then
          (if r.genDev = s.devId then
             let r1 := { r with st := .joinWait, bound := true }
             let s := (s.dropSecond r).setReq k r1
             if r.src = .remote then s.sendServe r1 r.origin 5 0 r.epoch (setBits (setBits 0 128 24 r.held) 152 16 (k % 65536)) [] else s
           else if r.genDev = 0xFFFF then (s.setReq k { r with st := .handoff }).newGen k [] stNoSpace true none
           else s.setReq k { r with st := .handoff })
        else if r.st = .recompute ∧ r.held ≤ r.ready then s.setReq k { r with st := .joinWait }
        else if (r.st = .prefill ∨ r.st = .handoff) ∧ r.isPrompt = true ∧ r.bound = false ∧ r.genDev = 0xFFFF then s.newGen k [] stNoSpace true none
        else s

/-- The serving scheduler at an edge (R240, R248, R261, R265). -/
def State.srvEdge (s : State) : State :=
  let s := each (s.srv.reqs.map (fun e => e.1)) s (fun k t => t.reqEdge k)
  let s := each s.srv.loads s (fun l t => t.adRetry l)
  s.flushFree none

/-- The count of an edge advances and its record starts. -/
def State.edgeMark (s : State) (num : Nat) : State :=
  let s := ((s.wr Reg.TICK_NUM.tick_num num).wr Reg.TICK_STAT.running 1)
  { s with tick := { s.tick with edge := s.time.cnt, starting := false, record := { s.tick.record with commits := 0 } } }

/-- The programs of the active image at the edge at TICK_NUM `num` reach their tiles (R56, R73). -/
def State.edgeLoad (s : State) (num : Nat) (late : List Nat) : State :=
  match s.tick.image with
  | some i => (s.wr Reg.TICK_STAT.prog_index (num / 2 ^ i.code % i.progs)).loadTiles i (num / 2 ^ i.code % i.progs) late
  | none => s

/-- The edge at TICK_NUM `num` (R73): cycles 0 to 320. `late`: the tiles whose prefetch has not completed. -/
def State.edge (s : State) (num : Nat) (late : List Nat) : State :=
  let s := if s.on Reg.TICK_STAT.running then s.endTick else s
  (((((((((((s.edgeMark num).quietSlots num).applyCycle).compEdge).powerEdge).switchEdge).edgeLoad num late).flushGather).srvEdge).flushDue).pump).gateTiles

/-- R73: corrected time reaches the next edge instant: TICK_NUM + 2^n while the tick unit runs, the armed target while it starts. -/
def execTickEdge (late : List Nat) (s : State) : Host.Outcome State Fault Refusal :=
  if s.on Reg.TICK_STAT.running then
    if s.tick.stopping then .next s
    else
      let num := s.rd Reg.TICK_NUM.tick_num + 2 ^ s.rd Reg.TICK_STAT.period_code
      .next ((s.advanceNs (s.tickInstant num)).edge num late)
  else
    match (if s.tick.starting then s.tick.armed else none) with
    | some i => .next ((s.advanceNs (s.tickInstant i.target)).edge i.target late)
    | none => .next s

/-- R77: the instant at which the next edge would have fallen, after run = 0. -/
def execTickUnitStopped (s : State) : Host.Outcome State Fault Refusal :=
  if s.on Reg.TICK_STAT.running && s.tick.stopping then
    let s := s.advanceNs (s.tickInstant (s.rd Reg.TICK_NUM.tick_num + 2 ^ s.rd Reg.TICK_STAT.period_code))
    let s := s.endTick
    .next (({ s with tick := { s.tick with stopping := false, prog := [] } }).wr Reg.TICK_STAT.running 0)
  else .next s

/-! ### Windows (R62 to R68) -/

/-- A RADIO Stroke is skipped (R65). -/
def State.skipRadio (s : State) (n i : Nat) (d : Desc) : State :=
  (((s.setPhase n i .spent).inc Reg.TICK_CNT.skipped 1).rec_ (fun r => { r with skipped := r.skipped + 1 })).postOf d

/-- Windows on target t of tile n that have closed by now with their Strokes not through (R63, R68). -/
def State.closeDue (s : State) (n t : Nat) : State :=
  each (List.range (s.tileProg n).length) s (fun i u =>
    match u.slotAt n i with
    | some x => if x.target = t ∧ x.phase ≠ .closed ∧ x.phase ≠ .spent ∧ x.stop n ≤ u.time.cnt then (if n < 8 then u.budgetCore n i else u.haltRadio n i) else u
    | none => u)

/-- May target t of tile n start Strokes (R481)? -/
def State.targetUsable (s : State) (n t : Nat) : Bool :=
  if n < 8 then s.coreUsable n t else if t < 64 then s.scribeUsable (64 * (n - 8) + t) else !s.fecFenced (n - 8) (t - 64)

/-- Does the context of a non-radio Stroke hold a paused state on another core of tile n (R67); the Stroke is not started there. -/
def State.offHome (s : State) (n : Nat) (x : Slot) : Bool :=
  decide (n < 8) && !x.d.radio && (match s.homeCore n x.d.part x.d.ctx with | some h => decide (h ≠ x.target) | none => false)
def State.deferStroke (s : State) (n i : Nat) : State :=
  ((s.setPhase n i .spent).inc Reg.TICK_CNT.deferred 1).rec_ (fun r => { r with deferred := r.deferred + 1 })

/-- The Stroke in slot i tries to start; a context that resumes goes on with what it had queued. -/
def State.tryStart (s : State) (n i : Nat) (x : Slot) : State :=
  if n < 8 then
    let t := s.tryStartCore n i (NMap.get false s.tick.radioCores (16 * n + x.target))
    match t.ctxBank n x.target x.d.part x.d.ctx with
    | some k => t.runQueue k queueFuel
    | none => t
  else s.tryStartRadio n i

/-- R62: the window of slot i of tile n's program opens; a Stroke that waits for its core or for a bank tries again. -/
def execStrokeWindowOpen (n i : Nat) (s : State) : Host.Outcome State Fault Refusal :=
  match s.slotAt n i with
  | none => .next s
  | some x =>
    let d := x.d
    if x.phase = .closed then
      let s := (s.advance x.opens).closeDue n x.target
      if d.radio then
        if !s.targetUsable n x.target then
          .next (((if d.slotFirst then s.wr (Reg.RAD_CELL_STAT.lost d.cell) 0 else s).markLost d.cell).skipRadio n i d)
        else if d.slotFirst then
          let s := s.wr (Reg.RAD_CELL_STAT.lost d.cell) 0
          .next (({ s with part := { s.part with quietCells := NMap.put false s.part.quietCells d.cell false } }).tryStart n i x)
        else if s.cellLost d.cell then .next (s.skipRadio n i d)
        else .next (s.tryStart n i x)
      else if !s.targetUsable n x.target then .next (s.setPhase n i .spent)
      else
        if s.offHome n x then .next (s.deferStroke n i)
        else .next (if s.radioHolds n x.target s.time.cnt then s.setPhase n i .waitCore else s.tryStart n i x)
    else if x.phase = .waitCore ∧ s.offHome n x = true then .next (s.deferStroke n i)
    else if x.phase = .waitCore ∧ (d.radio = true ∨ s.radioHolds n x.target s.time.cnt = false) then
      let t := s.tryStart n i x
      .next (match t.slotAt n i with
        | some y => if y.phase = .waitCore then t else t.modSlot n i (fun z => { z with starved := false })
        | none => t)
    else .next s

/-- R63: slot i of tile n's program has not exited by its issue-stop cycle: it reaches its budget, and is halted or paused by the close
of its window. -/
def execIssueStop (n i : Nat) (s : State) : Host.Outcome State Fault Refusal :=
  match s.slotAt n i with
  | none => .next s
  | some x =>
    if x.phase = .closed ∨ x.phase = .spent then .next s
    else
      let s := s.advance (x.stop n)
      .next (if n < 8 then s.budgetCore n i else s.haltRadio n i)

end Sys2Proof.Machine
end

