-- ==== Sys2Proof/Machine/RegAccess.lean ====
section
/-! DEFINITION. Access to the control window: writes, reads, their effects (R9 to R13, R552), and the registers whose value is formed at
the read or whose write is a command of its own. -/

namespace Sys2Proof.Machine

/-! ### Presence of registers -/

/-- Is an offset in the block of a tile that is retired (R41, R217)? -/
def State.deadTile (s : State) (off : Nat) : Bool :=
  decide (0x2000000 ≤ off) && decide (off < 0xA000000) && !s.tilePresent ((off - 0x2000000) / 0x1000000)

/-- TILE_STORE_OWN[c][4..7] of a G-core, and FAB_RSV_OWN[d][8..15] of a radio die, describe nothing (R109, R418). -/
def emptyOwn (off : Nat) : Bool :=
  (decide (0x6000000 ≤ off) && decide (off < 0xA000000) && decide (0x1100 ≤ off % 0x1000000) && decide (off % 0x1000000 < 0x1500) &&
    decide (4 ≤ (off % 0x1000000 - 0x1100) / 8 % 8)) ||
    (decide (0xA02400 ≤ off) && decide (off < 0xA02500) && decide (8 ≤ (off - 0xA02000) / 8 % 16))

/-! ### Writes (R9 to R13, R552) -/

/-- A write to SH fields (R13): into the shadow copy; held apart while a COMMIT of the block is pending (R79); discarded while a REVERT
is (R80). -/
def State.shWrite (s : State) (off : Nat) (v : Word) : State :=
  match blockOf off with
  | none => s
  | some b =>
    if s.on (blkPending b.1) then
      if s.on (blkRevert b.1) then s.inc (blkDiscarded b.1) 1
      else { s with bus := { s.bus with shHeld := s.bus.shHeld.filter (fun e => decide (e.1 ≠ off)) ++ [(off, v)] } }
    else s.setShadow off v

/-- A write that no rule gives a meaning of its own: RW bits are stored, ones clear W1C bits, SH bits go to the shadow copy. -/
def State.plainWrite (s : State) (off : Nat) (r : RegRow) (v : Word) : State :=
  let rw := BitVec.ofNat 64 r.rw
  let old := s.reg off
  let s := s.setReg off (((old &&& ~~~rw) ||| (v &&& rw)) &&& ~~~(v &&& BitVec.ofNat 64 r.w1c))
  if r.sh = 0 then s
  else
    let sh := BitVec.ofNat 64 r.sh
    s.shWrite off ((BitVec.ofNat 64 r.reset &&& ~~~sh) ||| (v &&& sh))

/-- Index of the register at `off` in an array. -/
def arrayIx (off base stride n : Nat) : Option Nat :=
  if base ≤ off ∧ off < base + stride * n ∧ (off - base) % stride = 0 then some ((off - base) / stride) else none

/-- A write of value v to the register that starts at `off` (row r), as a whole. -/
def State.regWrite (s : State) (off : Nat) (r : RegRow) (v : Nat) : State :=
  let w := BitVec.ofNat 64 v
  let plain := s.plainWrite off r w
  let bad := s.badAccess off
  if Nat.land v r.zero ≠ 0 then bad
  else if emptyOwn off then
    (if 0x2000000 ≤ off then (if (List.range 8).any (fun b => bit v (8 * b + 7)) then bad else s) else bad)
  else if off = Reg.TICK_CTRL.all.off then s.tickCtrl (bit v 0)
  else if off = Reg.TICK_SWITCH.all.off then s.tickSwitch v
  else if off = Reg.TICK_PHASE.all.off then
    (if s.on Reg.TICK_STAT.running || decide (10239999999 < bits v 0 34) then bad else (s.meterTicks.plainWrite off r w).tickMark)
  else if off = Reg.TIME_CTRL.all.off then s.timeCtrl v
  else if off = Reg.TIME_STEP.all.off then s.timeStep v
  else if off = Reg.TIME_RATE.all.off then s.timeRate v
  else if off = Reg.PART_CTRL.all.off then s.partCtrl (bits v 0 6) (bits v 8 3) (bit v 13)
  else if off = Reg.PART_MGR_PASID.all.off then plain.flushHeld
  else if off = Reg.FLT_FENCE.all.off then s.fltFence v
  else if off = Reg.HQ_DOORBELL.all.off then s.ringBell (bits v 0 12)
  else if off = Reg.GLB_DEVICE_ID.all.off then
    (if s.on Reg.GLB_DEVICE_ID.locked || decide (0xEFFF < bits v 0 16) then bad else plain)
  else if off = Reg.MGT_MBOX_SUBMIT.all.off then s.mboxSubmit (bits v 0 16)
  else if off = Reg.MGT_PWR_CFG.all.off then s.wr Reg.MGT_PWR_CFG.limit_w (max 100 (min 3600 (bits v 0 12)))
  else if off % 0x100000 = 0xFFF00 ∧ (blocks.any (fun b => decide (b.1 + 0xFFF00 = off))) = true then s.blkCommit (off - 0xFFF00) v
  else
    match arrayIx off (Reg.TICK_DUCTUS_BASE.all 0).off 8 2 with
    | some k =>
      let here := fun (i : Option Image) => match i with | some x => decide (x.slot = k) | none => false
      if here s.tick.image || here s.tick.armed then bad else plain
    | none =>
    match arrayIx off (Reg.TIME_BAR_CTRL.all 0).off 32 8 with
    | some b => if bit v 0 then s.barArrive b else s
    | none =>
    match arrayIx off (Reg.PART_COMP_BASE.all 0 0).off 8 128 with
    | some k =>
      let p := k / 2
      let live := decide (s.liveEpoch p ≠ 0) && decide (s.rd (Reg.PART_COMP_STAT.live_slot p) = k % 2)
      let armed := match NMap.find s.part.armed p with | some a => decide (a.slot = k % 2) | none => false
      if live || armed then bad else plain
    | none =>
    match arrayIx off (Reg.PART_COMP_SWITCH.all 0).off 8 64 with
    | some p => s.compSwitch p v
    | none =>
    match arrayIx off (Reg.MGT_MBOX_CMD.all 0).off 8 8 with
    | some _ => if s.on Reg.MGT_MBOX_STAT.busy then bad else plain
    | none => plain

/-- A write of the aligned 32-bit word at `off` by requester req (R9, R10). -/
def State.wordWrite (s : State) (req off v : Nat) : State :=
  if s.deadTile off then s.badAccess off
  else
    match regRow off with
    | some r =>
      if r.width = 32 then s.regWrite off r v
      else { s with bus := { s.bus with lowHeld := s.bus.lowHeld.filter (fun e => !(decide (e.req = req) && decide (e.off = off))) ++ [⟨req, off, BitVec.ofNat 64 v⟩] } }
    | none =>
      match (if off % 8 = 4 then regRow (off - 4) else none) with
      | some r =>
        if r.width = 32 then s.badAccess off
        else
          (match s.bus.lowHeld.find? (fun e => decide (e.req = req) && decide (e.off = off - 4)) with
           | none => s.badAccess off
           | some l =>
             let s := { s with bus := { s.bus with lowHeld := s.bus.lowHeld.filter (fun e => decide (e ≠ l)) } }
             s.regWrite (off - 4) r (l.val.toNat + v * 4294967296))
      | none => s.badAccess off

/-- R12: a host write of `v` by requester req to the 8-byte lane at `off`, with byte enables `be`. A stopped device takes none. A write whose
byte enables cover one word whole and the other in part, such as 0x1F, is discarded whole, with one record, and the record of a partial
write names the lane, whichever of its bytes are enabled (DESIGN CHOICE, log 63). -/
def execRegisterWrite (req off : Nat) (be : BitVec 8) (v : Word) (s : State) : Host.Outcome State Fault Refusal :=
  let a := off / 8 * 8
  let lo := v.toNat % 4294967296
  let hi := v.toNat / 4294967296
  if s.pins.stopped then .next s
  else if be = 0x0F then .next (s.wordWrite req a lo)
  else if be = 0xF0 then .next (s.wordWrite req (a + 4) hi)
  else if be = 0xFF then
    (match regRow a with
     | some r => if r.width = 64 then .next (if s.deadTile a then s.badAccess a else s.regWrite a r v.toNat) else .next ((s.wordWrite req a lo).wordWrite req (a + 4) hi)
     | none => if (regRow (a + 4)).isSome then .next ((s.wordWrite req a lo).wordWrite req (a + 4) hi) else .next (s.badAccess a))
  else .next (s.badAccess a)

/-! ### Reads (R9, R10, R12, R13) -/

/-- Frames of p's pools in one of the states of R247. -/
def State.framesIn (s : State) (p st : Nat) : Nat :=
  upto 8 0 (fun n a => upto (s.frameCount p n) a (fun f a => if s.trState p (n * 33554432 + f) = st then a + 1 else a))

/-- The value of a register where it is formed at the read. -/
def State.formed (s : State) (off : Nat) : Option Nat :=
  let o := off % 0x1000000
  let n := off / 0x1000000 - 2
  if off = Reg.TIME_NOW.all.off then some s.nowNs
  else if off = Reg.TIME_NOW_FRAC.all.off then some (s.t32 % 4294967296).toNat
  else if off = Reg.TIME_CNT.all.off then some s.time.cnt
  else if off = Reg.TICK_NUM.all.off then some s.tickNum
  else if 0x2000000 ≤ off ∧ off < 0xA000000 ∧ 0x4200 ≤ o ∧ o < 0x4380 then
    some (setBits (s.reg off).toNat 0 1 (b2n (!s.setConsistent n ((o - 0x4200) / 4))))
  else if 0x2000000 ≤ off ∧ off < 0xA000000 ∧ o = 0x4600 then some (setBits (s.reg off).toNat 0 16 (s.wayConflict n))
  else
    match arrayIx off (Reg.INK_STAT.all 0).off 8 64 with
    | some p => some (s.framesIn p 0 % 4294967296 + s.framesIn p 2 % 4294967296 * 4294967296)
    | none =>
      match arrayIx off (Reg.PART_STAT.all 0).off 8 64 with
      | some p => some (setBits (s.reg off).toNat 16 6 (s.busyBits p))
      | none => none

/-- What a read of the whole register at `off` returns (R12): RO, RW, W1C and RC fields their value, SH fields the shadow copy, WO
fields zero. -/
def State.readValue (s : State) (off : Nat) (r : RegRow) : Word :=
  if s.deadTile off then BitVec.ofNat 64 r.reset
  else if emptyOwn off then 0
  else
    let sh := BitVec.ofNat 64 r.sh
    let v := match s.formed off with | some x => BitVec.ofNat 64 x | none => s.reg off
    (v &&& ~~~(sh ||| BitVec.ofNat 64 r.wo)) ||| (s.shadowReg off &&& sh)

/-- The read effect on the fields of mask m: RC fields clear. -/
def State.readEffect (s : State) (off : Nat) (r : RegRow) (m : Word) : State :=
  if r.rc = 0 ∨ s.deadTile off = true then s else s.setReg off (s.reg off &&& ~~~(BitVec.ofNat 64 r.rc &&& m))

/-- Set a latch of a requester, and take it away. -/
def State.setLatch (s : State) (req off : Nat) (v : Word) : State :=
  { s with bus := { s.bus with latch := s.bus.latch.filter (fun e => !(decide (e.req = req) && decide (e.off = off))) ++ [⟨req, off, v⟩] } }
def State.latchAt (s : State) (req off : Nat) : Option Latch := s.bus.latch.find? (fun e => decide (e.req = req) && decide (e.off = off))
def State.dropLatch (s : State) (l : Latch) : State := { s with bus := { s.bus with latch := s.bus.latch.filter (fun e => decide (e ≠ l)) } }
def State.answer (s : State) (v : Word) : State := { s with bus := { s.bus with rdata := v } }

/-- A read of TIME_NOW latches TIME_NOW_FRAC too (R389). -/
def State.latchFrac (s : State) (req off : Nat) : State :=
  if off = Reg.TIME_NOW.all.off then s.setLatch req Reg.TIME_NOW_FRAC.all.off (BitVec.ofNat 64 (s.t32 % 4294967296).toNat) else s

/-- A read of the whole register at `off`. -/
def State.wholeRead (s : State) (req off : Nat) (r : RegRow) : State :=
  if off = Reg.TIME_NOW_FRAC.all.off then
    (match s.latchAt req off with
     | some l => (s.dropLatch l).answer l.val
     | none => s.answer (s.readValue off r))
  else
    let v := s.readValue off r
    let s := if off = Reg.TIME_NOW.all.off then (s.latchFrac req off).setLatch req (off + 4) (v >>> 32) else s
    (s.readEffect off r (BitVec.allOnes 64)).answer v

/-- How often requests of a core store were refused follows from timing this model has not (R106, R109): as TILE_CORE_CNT is read, its
conflict_cycles advances by a free amount (assumption 80). -/
def State.conflicts (s : State) (off : Nat) : State :=
  let o := off % 0x1000000
  let n := off / 0x1000000 - 2
  if 0x2000000 ≤ off ∧ n < 8 ∧ 0x1800 ≤ o ∧ o < 0x1880 then (s.took 1).inc (Reg.TILE_CORE_CNT.conflict_cycles n ((o - 0x1800) / 8)) (Config.freeNat s.free) else s

/-- R12: a read of the whole register at `off`, 32 or 64 bits wide: its value is returned (bus.rdata), its RC fields clear. An offset with
no register reads zero, without a record. -/
def execRcRead (req off : Nat) (s : State) : Host.Outcome State Fault Refusal :=
  if s.pins.stopped then .next s
  else match regRow off with
    | some r => .next ((s.conflicts off).wholeRead req off r)
    | none => .next (s.answer 0)

/-- R9: a read of the low word of the register at `off`: the whole register is read at once, its high word latched. -/
def execLowWordRead (req off : Nat) (s : State) : Host.Outcome State Fault Refusal :=
  if s.pins.stopped then .next s
  else match regRow off with
    | none => .next (s.answer 0)
    | some r =>
      if r.width = 32 then .next (s.wholeRead req off r)
      else
        let s := s.conflicts off
        let v := s.readValue off r
        let s := (s.latchFrac req off).setLatch req (off + 4) (v >>> 32)
        .next ((s.readEffect off r (BitVec.allOnes 64)).answer (v &&& 0xFFFFFFFF))

/-- R9: a read of the high word of the 64-bit register at `off`: the latch of its requester, which it consumes; with none, the high word
now, with the read effects of its own fields. Above a 32-bit register it is a register of its own. -/
def execHighWordRead (req off : Nat) (s : State) : Host.Outcome State Fault Refusal :=
  if s.pins.stopped then .next s
  else match regRow off with
    | none => .next (s.answer 0)
    | some r =>
      if r.width = 32 then
        (match regRow (off + 4) with
         | some x => .next (s.wholeRead req (off + 4) x)
         | none => .next (s.answer 0))
      else
        match s.latchAt req (off + 4) with
        | some l => .next ((s.dropLatch l).answer l.val)
        | none =>
          let s := s.conflicts off
          .next ((s.readEffect off r (BitVec.allOnes 64 <<< 32)).answer (s.readValue off r >>> 32))

/-- R10: a read whose byte enables do not cover whole aligned words: zero, no read effect, a record. -/
def execNarrowRead (off : Nat) (s : State) : Host.Outcome State Fault Refusal :=
  if s.pins.stopped then .next s else .next ((s.badAccess off).answer 0)

end Sys2Proof.Machine
end

