-- ==== Sys2Proof/Machine/Scalar.lean ====
section
/-! DEFINITION. Slot 0 instructions (R173 to R176): scalar arithmetic, moves, branches, EXIT, the control and status registers. -/

namespace Sys2Proof.Machine

/-- Format S fields in use: guard, and of rd, rs1 and the second operand those the instruction has; imm_sel only with a second operand. -/
def legalS (w : Word) (rd rs1 op2 imm : Bool) : Bool :=
  !wVar w && onlyBits w (msk 53 3 + (if rd then msk 48 5 else 0) + (if rs1 then msk 43 5 else 0) +
    (if op2 then msk 37 1 + (if wImmSel w then msk 0 32 else msk 38 5) else 0) + (if imm then msk 0 32 else 0))

/-- Registers a format S instruction on s registers names. -/
def usesS (w : Word) : List CReg := [.p (wPg w), .s (wRd w), .s (wRs1 w)] ++ (if wImmSel w then [] else [.s (wRs2 w)])

/-- A scalar operation rd = f rs1 op2 on 64-bit values (R174). -/
def scalarOp (op : Nat) (f : Nat → Nat → Nat) (x : Issue) (w : Word) (s : State) : Host.Outcome State Fault Refusal :=
  coreIssue x w op true (legalS w true true true false) (usesS w) s
    (fun t _ b => .ok t [(.s (wRd w), f (b.sR (wRs1 w)) (b.op2 w) % 18446744073709551616)] 0)

/-- Does some core instruction have the opcode (R160)? -/
def coreAssigned (op : Nat) : Bool :=
  decide (op ≤ 0x11) || (decide (0x18 ≤ op) && decide (op ≤ 0x1C)) || (decide (0x20 ≤ op) && decide (op ≤ 0x23)) ||
    (decide (0x40 ≤ op) && decide (op ≤ 0x45)) || (decide (0x50 ≤ op) && decide (op ≤ 0x5E)) ||
    (decide (0x60 ≤ op) && decide (op ≤ 0x62)) || (decide (0x68 ≤ op) && decide (op ≤ 0x6E)) ||
    (decide (0x70 ≤ op) && decide (op ≤ 0x75)) || (decide (0x78 ≤ op) && decide (op ≤ 0x7A))

/-- R160: NOP, in any slot; every operand field is unused. A word with an unassigned opcode has no row of its own: it is issued
by this row and is an illegal operation. -/
def execNop (x : Issue) (w : Word) (s : State) : Host.Outcome State Fault Refusal :=
  coreIssue x w (if coreAssigned (wOp w) then 0x00 else wOp w) false (coreAssigned (wOp w) && !wVar w && onlyBits w 0) [] s
    (fun t _ _ => .ok t [] 0)

def execAdd (x : Issue) (w : Word) (s : State) : Host.Outcome State Fault Refusal := scalarOp 0x01 (fun a b => a + b) x w s
def execSub (x : Issue) (w : Word) (s : State) : Host.Outcome State Fault Refusal :=
  scalarOp 0x02 (fun a b => a + 18446744073709551616 - b) x w s
def execAnd (x : Issue) (w : Word) (s : State) : Host.Outcome State Fault Refusal := scalarOp 0x03 Nat.land x w s
def execOr (x : Issue) (w : Word) (s : State) : Host.Outcome State Fault Refusal := scalarOp 0x04 Nat.lor x w s
def execXor (x : Issue) (w : Word) (s : State) : Host.Outcome State Fault Refusal := scalarOp 0x05 Nat.xor x w s
/-- Shift by op2[5:0]. -/
def execShl (x : Issue) (w : Word) (s : State) : Host.Outcome State Fault Refusal := scalarOp 0x06 (fun a b => a * 2 ^ (b % 64)) x w s
def execShr (x : Issue) (w : Word) (s : State) : Host.Outcome State Fault Refusal := scalarOp 0x07 (fun a b => a / 2 ^ (b % 64)) x w s
def execSra (x : Issue) (w : Word) (s : State) : Host.Outcome State Fault Refusal :=
  scalarOp 0x08 (fun a b => ofInt (sInt a 64 / ((2 ^ (b % 64) : Nat) : Int)) 64) x w s
def execMul (x : Issue) (w : Word) (s : State) : Host.Outcome State Fault Refusal := scalarOp 0x09 (fun a b => a * b) x w s
def execMin (x : Issue) (w : Word) (s : State) : Host.Outcome State Fault Refusal :=
  scalarOp 0x0A (fun a b => if sInt a 64 ≤ sInt b 64 then a else b) x w s
def execMax (x : Issue) (w : Word) (s : State) : Host.Outcome State Fault Refusal :=
  scalarOp 0x0B (fun a b => if sInt a 64 ≤ sInt b 64 then b else a) x w s

/-- The comparison that a cond code names (R173). -/
def condHolds (c a b : Nat) : Bool :=
  match c with
  | 0 => a == b
  | 1 => a != b
  | 2 => decide (sInt a 64 < sInt b 64)
  | 3 => decide (sInt b 64 ≤ sInt a 64)
  | 4 => decide (a < b)
  | _ => decide (b ≤ a)

/-- R174: every bit of predicate rd = (rs1 cond op2). -/
def execCmp (x : Issue) (w : Word) (s : State) : Host.Outcome State Fault Refusal :=
  coreIssue x w 0x0C true
    (!wVar w && decide (wCond w < 6) &&
      onlyBits w (msk 53 3 + msk 48 3 + msk 43 5 + msk 37 1 + msk 34 3 + (if wImmSel w then msk 0 32 else msk 38 5)))
    ([.p (wPg w), .p (wRd w % 8), .s (wRs1 w)] ++ (if wImmSel w then [] else [.s (wRs2 w)])) s
    (fun t _ b => .ok t [(.p (wRd w % 8), if condHolds (wCond w) (b.sR (wRs1 w)) (b.op2 w) then 2 ^ 512 - 1 else 0)] 0)

/-- R174: rd = imm. -/
def execLi (x : Issue) (w : Word) (s : State) : Host.Outcome State Fault Refusal :=
  coreIssue x w 0x0D true (legalS w true false false true) [.p (wPg w), .s (wRd w)] s (fun t _ _ => .ok t [(.s (wRd w), wImm w)] 0)

/-- R174: rd[63:32] = imm, rd[31:0] unchanged. -/
def execLui (x : Issue) (w : Word) (s : State) : Host.Outcome State Fault Refusal :=
  coreIssue x w 0x0E true (legalS w true false false true) [.p (wPg w), .s (wRd w)] s
    (fun t _ b => .ok t [(.s (wRd w), wf w 0 32 * 4294967296 + b.sR (wRd w) % 4294967296)] 0)

/-- R174: a rd = s rs1. -/
def execMova (x : Issue) (w : Word) (s : State) : Host.Outcome State Fault Refusal :=
  coreIssue x w 0x0F true (legalS w true true false false && !bit w.toNat 52) [.p (wPg w), .a (wRd w), .s (wRs1 w)] s
    (fun t _ b => .ok t [(.a (wRd w), b.sR (wRs1 w))] 0)

/-- R174: s rd = a rs1. -/
def execMovs (x : Issue) (w : Word) (s : State) : Host.Outcome State Fault Refusal :=
  coreIssue x w 0x10 true (legalS w true true false false && !bit w.toNat 47) [.p (wPg w), .s (wRd w), .a (wRs1 w)] s
    (fun t _ b => .ok t [(.s (wRd w), b.aR (wRs1 w))] 0)

/-- R174: a rd = a rs1 + op2. -/
def execAdda (x : Issue) (w : Word) (s : State) : Host.Outcome State Fault Refusal :=
  coreIssue x w 0x11 true (legalS w true true true false && !bit w.toNat 52 && !bit w.toNat 47)
    ([.p (wPg w), .a (wRd w), .a (wRs1 w)] ++ (if wImmSel w then [] else [.s (wRs2 w)])) s
    (fun t _ b => .ok t [(.a (wRd w), (b.aR (wRs1 w) + b.op2 w) % 18446744073709551616)] 0)

/-- R174: PC = PC + 32 × imm. -/
def execJmp (x : Issue) (w : Word) (s : State) : Host.Outcome State Fault Refusal :=
  coreIssue x w 0x18 true (legalS w false false false true) [.p (wPg w)] s
    (fun t k b => .ok (t.setBank k { b with branch := some ((b.pc + 32 * wImm w) % 18446744073709551616) }) [] 0)

/-- R174: PC = region base + rs1; a misaligned or outside target faults when the bundle is done. -/
def execJmpr (x : Issue) (w : Word) (s : State) : Host.Outcome State Fault Refusal :=
  coreIssue x w 0x19 true (legalS w false true false false) [.p (wPg w), .s (wRs1 w)] s
    (fun t k b =>
      let a := b.sR (wRs1 w)
      .ok (t.setBank k { b with branch := some a, badJump := decide (a % 32 ≠ 0 ∨ t.progSize b.part ≤ a) }) [] 0)

/-- R170: EXIT ends the Stroke once its work, DMAs and remote operations are complete. -/
def execExit (x : Issue) (w : Word) (s : State) : Host.Outcome State Fault Refusal :=
  coreIssue x w 0x1A true (legalS w false false false false) [.p (wPg w)] s
    (fun t k b => .ok (t.setBank k { b with hold := .exit }) [] 0)

/-- A control and status register of R175; none where the number is not listed. -/
def State.csr (s : State) (k : Nat) (b : Bank) (n : Nat) : Option Nat :=
  match n with
  | 0x000 => some b.flags
  | 0x001 => some s.tickNum
  | 0x002 => some (s.time.cnt - s.tick.edge)
  | 0x003 => some (b.d.offset + b.d.budget)
  | 0x004 => some (keyCore k)
  | 0x005 => some (b.part * 4096 + b.ctx)
  | 0x006 => some (b2n (NMap.get false s.part.copper b.part))
  | 0x007 => some b.d.tag
  | 0x008 => some (b2n b.resumed)
  | 0x009 => some b.dmas.length
  | 0x00A => some ((s.fab.out.filter (fun o => decide (o.bank = some k))).map (fun o => o.group)).eraseDups.length
  | _ => none

/-- R175: rd = CSR imm[11:0]. -/
def execCsrr (x : Issue) (w : Word) (s : State) : Host.Outcome State Fault Refusal :=
  coreIssue x w 0x1B true (legalS w true false false true && decide (wf w 12 20 = 0)) [.p (wPg w), .s (wRd w)] s
    (fun t k b => match t.csr k b (wf w 0 12) with
      | some v => .ok t [(.s (wRd w), v)] 0
      | none => .fault 0x3010 0 0)

/-- R175: clear the bits of FLAGS set in rs1. -/
def execCsrw (x : Issue) (w : Word) (s : State) : Host.Outcome State Fault Refusal :=
  coreIssue x w 0x1C true (legalS w false true false true && decide (wf w 12 20 = 0)) [.p (wPg w), .s (wRs1 w)] s
    (fun t k b =>
      if wf w 0 12 = 0 then
        .ok (t.setBank k { b with flags := Nat.xor b.flags (Nat.land b.flags (b.sR (wRs1 w))) }) [] 0
      else .fault 0x3010 0 0)

end Sys2Proof.Machine
end

