-- ==== Sys2Proof/Machine/SemOps.lean ====
section
/-! DEFINITION. Semaphore instructions and grants (R194, R195, R555, R558). -/

namespace Sys2Proof.Machine

/-- The semaphore a format S instruction names: imm[13:0] + s[rs1] modulo 2^64 (R194). -/
def Bank.semIndex (b : Bank) (w : Word) : Nat := (wf w 0 14 + b.sR (wRs1 w)) % 18446744073709551616

/-- Fields in use of a semaphore instruction. -/
def legalSem (w : Word) (rd rs2 cnt : Bool) : Bool :=
  !wVar w && onlyBits w (msk 53 3 + (if rd then msk 48 5 else 0) + msk 43 5 + (if rs2 then msk 38 5 else 0) + msk 0 14 + (if cnt then msk 14 18 else 0))

/-- Check the index (SEM_OWNER), then the body. -/
def semIssue (op : Nat) (x : Issue) (w : Word) (legal : Bool) (uses : List CReg) (s : State) (body : State → Nat → Bank → Nat → CRes) :
    Host.Outcome State Fault Refusal :=
  coreIssue x w op true legal ([.p (wPg w), .s (wRs1 w)] ++ uses) s
    (fun t k b => if t.semOwned (b.semIndex w) b.part then body t k b (b.semIndex w) else .fault 0x3016 0 0)

/-- SEMW: waits until the value is non-zero, then decrements it; an acquire that holds later bundles. -/
def execSemw (x : Issue) (w : Word) (s : State) : Host.Outcome State Fault Refusal :=
  semIssue 0x20 x w (legalSem w false false false) [] s (fun t k _ q => .ok (t.semwTry k q) [] 0)

/-- SEMP: adds a count once everything before it is done; a release that holds later bundles. -/
def execSemp (x : Issue) (w : Word) (s : State) : Host.Outcome State Fault Refusal :=
  semIssue 0x21 x w (legalSem w false true (decide (wRs2 w = 0))) [.s (wRs2 w)] s
    (fun t k b q =>
      let n := if wRs2 w = 0 then wf w 14 18 else b.sR (wRs2 w)
      .ok (if n = 0 then t else t.setBank k { b with hold := .semp q n }) [] 0)

/-- SEMT: decrements if non-zero and reports it in predicate rd. -/
def execSemt (x : Issue) (w : Word) (s : State) : Host.Outcome State Fault Refusal :=
  semIssue 0x22 x w (legalSem w true false false && wf w 51 2 == 0) [.p (wRd w % 8)] s
    (fun t _ _ q =>
      if t.semVal q ≠ 0 then .ok (t.semDec q) [(.p (wRd w % 8), 2 ^ 512 - 1)] 0 else .ok t [(.p (wRd w % 8), 0)] 0)

/-- SEMR: reads the value. -/
def execSemr (x : Issue) (w : Word) (s : State) : Host.Outcome State Fault Refusal :=
  semIssue 0x23 x w (legalSem w true false false) [.s (wRd w)] s (fun t _ _ q => .ok t [(.s (wRd w), t.semVal q)] 0)

end Sys2Proof.Machine
end

