-- ==== Sys2Proof/Machine/Dispatch.lean ====
section
/-! DEFINITION. The dispatch of a command to its meaning, one arm per constructor of Instr. -/

namespace Sys2Proof.Machine

/-- The effect of a command on everything but the queue. -/
def exec (i : Instr) (s : State) : Host.Outcome State Fault Refusal :=
  match i with
  | .registerWrite req off be v => Sys2Proof.Machine.execRegisterWrite req off be v s
  | .lowWordRead req off => Sys2Proof.Machine.execLowWordRead req off s
  | .rcRead req off => Sys2Proof.Machine.execRcRead req off s
  | .tickEdge late => Sys2Proof.Machine.execTickEdge late s
  | .strokeWindowOpen n ix => Sys2Proof.Machine.execStrokeWindowOpen n ix s
  | .issueStop n ix => Sys2Proof.Machine.execIssueStop n ix s
  | .commit b gen => Sys2Proof.Machine.execCommit b gen s
  | .revert b gen => Sys2Proof.Machine.execRevert b gen s
  | .stoppedApply => Sys2Proof.Machine.execStoppedApply s
  | .tickSwitch v => Sys2Proof.Machine.execTickSwitch v s
  | .tickRun => Sys2Proof.Machine.execTickRun s
  | .tickStop => Sys2Proof.Machine.execTickStop s
  | .tickUnitStopped => Sys2Proof.Machine.execTickUnitStopped s
  | .switchTargetPassed => Sys2Proof.Machine.execSwitchTargetPassed s
  | .meshReplay link times => Sys2Proof.Machine.execMeshReplay link times s
  | .zeroingComplete kind index => Sys2Proof.Machine.execZeroingComplete kind index s
  | .channelScrubComplete ch => Sys2Proof.Machine.execChannelScrubComplete ch s
  | .wayWriteBackComplete n => Sys2Proof.Machine.execWayWriteBackComplete n s
  | .nlw x w => Sys2Proof.Machine.execNlw x w s
  | .nmm x w => Sys2Proof.Machine.execNmm x w s
  | .ndrn x w => Sys2Proof.Machine.execNdrn x w s
  | .nclr x w => Sys2Proof.Machine.execNclr x w s
  | .hlv x w => Sys2Proof.Machine.execHlv x w s
  | .hmv x w => Sys2Proof.Machine.execHmv x w s
  | .nop x w => Sys2Proof.Machine.execNop x w s
  | .add x w => Sys2Proof.Machine.execAdd x w s
  | .sub x w => Sys2Proof.Machine.execSub x w s
  | .andOp x w => Sys2Proof.Machine.execAnd x w s
  | .orOp x w => Sys2Proof.Machine.execOr x w s
  | .xorOp x w => Sys2Proof.Machine.execXor x w s
  | .shl x w => Sys2Proof.Machine.execShl x w s
  | .shr x w => Sys2Proof.Machine.execShr x w s
  | .sra x w => Sys2Proof.Machine.execSra x w s
  | .mul x w => Sys2Proof.Machine.execMul x w s
  | .minOp x w => Sys2Proof.Machine.execMin x w s
  | .maxOp x w => Sys2Proof.Machine.execMax x w s
  | .cmp x w => Sys2Proof.Machine.execCmp x w s
  | .li x w => Sys2Proof.Machine.execLi x w s
  | .lui x w => Sys2Proof.Machine.execLui x w s
  | .mova x w => Sys2Proof.Machine.execMova x w s
  | .movs x w => Sys2Proof.Machine.execMovs x w s
  | .adda x w => Sys2Proof.Machine.execAdda x w s
  | .jmp x w => Sys2Proof.Machine.execJmp x w s
  | .jmpr x w => Sys2Proof.Machine.execJmpr x w s
  | .exit x w => Sys2Proof.Machine.execExit x w s
  | .csrr x w => Sys2Proof.Machine.execCsrr x w s
  | .csrw x w => Sys2Proof.Machine.execCsrw x w s
  | .vadd x w => Sys2Proof.Machine.execVadd x w s
  | .vsub x w => Sys2Proof.Machine.execVsub x w s
  | .vmul x w => Sys2Proof.Machine.execVmul x w s
  | .vfma x w => Sys2Proof.Machine.execVfma x w s
  | .vmin x w => Sys2Proof.Machine.execVmin x w s
  | .vmax x w => Sys2Proof.Machine.execVmax x w s
  | .vdiv x w => Sys2Proof.Machine.execVdiv x w s
  | .vsqrt x w => Sys2Proof.Machine.execVsqrt x w s
  | .vfn x w => Sys2Proof.Machine.execVfn x w s
  | .vcvt x w => Sys2Proof.Machine.execVcvt x w s
  | .vcmp x w => Sys2Proof.Machine.execVcmp x w s
  | .vsel x w => Sys2Proof.Machine.execVsel x w s
  | .vred x w => Sys2Proof.Machine.execVred x w s
  | .vbc x w => Sys2Proof.Machine.execVbc x w s
  | .vlogic x w => Sys2Proof.Machine.execVlogic x w s
  | .vrng x w => Sys2Proof.Machine.execVrng x w s
  | .vacr x w => Sys2Proof.Machine.execVacr x w s
  | .vacw x w => Sys2Proof.Machine.execVacw x w s
  | .vld x w => Sys2Proof.Machine.execVld x w s
  | .vst x w => Sys2Proof.Machine.execVst x w s
  | .lds x w => Sys2Proof.Machine.execLds x w s
  | .sts x w => Sys2Proof.Machine.execSts x w s
  | .dma x w => Sys2Proof.Machine.execDma x w s
  | .dmaComplete tile core bank => Sys2Proof.Machine.execDmaComplete tile core bank s
  | .dmaw x w => Sys2Proof.Machine.execDmaw x w s
  | .fence x w => Sys2Proof.Machine.execFence x w s
  | .rld x w => Sys2Proof.Machine.execRld x w s
  | .rst x w => Sys2Proof.Machine.execRst x w s
  | .rmst x w => Sys2Proof.Machine.execRmst x w s
  | .rred x w => Sys2Proof.Machine.execRred x w s
  | .ratom x w => Sys2Proof.Machine.execRatom x w s
  | .rsemp x w => Sys2Proof.Machine.execRsemp x w s
  | .semw x w => Sys2Proof.Machine.execSemw x w s
  | .semp x w => Sys2Proof.Machine.execSemp x w s
  | .semt x w => Sys2Proof.Machine.execSemt x w s
  | .semr x w => Sys2Proof.Machine.execSemr x w s
  | .semaphoreGrant ix => Sys2Proof.Machine.execSemaphoreGrant ix s
  | .coll x w => Sys2Proof.Machine.execColl x w s
  | .ikc x w => Sys2Proof.Machine.execIkc x w s
  | .qlc x w => Sys2Proof.Machine.execQlc x w s
  | .hbmChanFail ch => Sys2Proof.Machine.execHbmChanFail ch s
  | .patrolScrub ch corrected odecc ue clean dirty => Sys2Proof.Machine.execPatrolScrub ch corrected odecc ue clean dirty s
  | .submit q ix => Sys2Proof.Machine.execSubmit q ix s
  | .cancel q ix => Sys2Proof.Machine.execCancel q ix s
  | .adapterLoad q ix => Sys2Proof.Machine.execAdapterLoad q ix s
  | .adapterLive k => Sys2Proof.Machine.execAdapterLive k s
  | .adapterDrop q ix => Sys2Proof.Machine.execAdapterDrop q ix s
  | .batchBoundary b => Sys2Proof.Machine.execBatchBoundary b s
  | .promptPhaseStart p => Sys2Proof.Machine.execPromptPhaseStart p s
  | .deadlineMissed p h => Sys2Proof.Machine.execDeadlineMissed p h s
  | .kvReady n => Sys2Proof.Machine.execKvReady n s
  | .stepDone n => Sys2Proof.Machine.execStepDone n s
  | .promptReq p prompt => Sys2Proof.Machine.execPromptReq p prompt s
  | .handoffOpen p body prompt => Sys2Proof.Machine.execHandoffOpen p body prompt s
  | .handoffReply p => Sys2Proof.Machine.execHandoffReply p s
  | .kvDone p => Sys2Proof.Machine.execKvDone p s
  | .kvAck p => Sys2Proof.Machine.execKvAck p s
  | .token p => Sys2Proof.Machine.execToken p s
  | .cancelMsg p => Sys2Proof.Machine.execCancelMsg p s
  | .memberLost dev => Sys2Proof.Machine.execMemberLost dev s
  | .sample j ix upset => Sys2Proof.Machine.execSample j ix upset s
  | .initCtx j ix => Sys2Proof.Machine.execInit j ix s
  | .scribeNop k upset => Sys2Proof.Machine.execScribeNop k upset s
  | .clr k upset => Sys2Proof.Machine.execClr k upset s
  | .mov k upset => Sys2Proof.Machine.execMov k upset s
  | .mpy k upset => Sys2Proof.Machine.execMpy k upset s
  | .mac k upset => Sys2Proof.Machine.execMac k upset s
  | .msu k upset => Sys2Proof.Machine.execMsu k upset s
  | .macl k upset => Sys2Proof.Machine.execMacl k upset s
  | .mag k upset => Sys2Proof.Machine.execMag k upset s
  | .maga k upset => Sys2Proof.Machine.execMaga k upset s
  | .addr k upset => Sys2Proof.Machine.execAddr k upset s
  | .subr k upset => Sys2Proof.Machine.execSubr k upset s
  | .acca k upset => Sys2Proof.Machine.execAcca k upset s
  | .ash k upset => Sys2Proof.Machine.execAsh k upset s
  | .neg k upset => Sys2Proof.Machine.execNeg k upset s
  | .rmpy k upset => Sys2Proof.Machine.execRmpy k upset s
  | .rmac k upset => Sys2Proof.Machine.execRmac k upset s
  | .bexp k upset => Sys2Proof.Machine.execBexp k upset s
  | .norm k upset => Sys2Proof.Machine.execNorm k upset s
  | .expx k upset => Sys2Proof.Machine.execExpx k upset s
  | .normp k upset => Sys2Proof.Machine.execNormp k upset s
  | .bf2 k upset => Sys2Proof.Machine.execBf2 k upset s
  | .bf3 k upset => Sys2Proof.Machine.execBf3 k upset s
  | .bf4 k upset => Sys2Proof.Machine.execBf4 k upset s
  | .shuf k upset => Sys2Proof.Machine.execShuf k upset s
  | .gold k upset => Sys2Proof.Machine.execGold k upset s
  | .modm k upset => Sys2Proof.Machine.execModm k upset s
  | .demap k upset => Sys2Proof.Machine.execDemap k upset s
  | .bfpx k upset => Sys2Proof.Machine.execBfpx k upset s
  | .bfpc k upset => Sys2Proof.Machine.execBfpc k upset s
  | .maxa k upset => Sys2Proof.Machine.execMaxa k upset s
  | .mina k upset => Sys2Proof.Machine.execMina k upset s
  | .loop k upset => Sys2Proof.Machine.execLoop k upset s
  | .scribeJmp k upset => Sys2Proof.Machine.execScribeJmp k upset s
  | .aga k upset => Sys2Proof.Machine.execAga k upset s
  | .movi k upset => Sys2Proof.Machine.execMovi k upset s
  | .movr k upset => Sys2Proof.Machine.execMovr k upset s
  | .movl k upset => Sys2Proof.Machine.execMovl k upset s
  | .seqi k upset => Sys2Proof.Machine.execSeqi k upset s
  | .seqs k upset => Sys2Proof.Machine.execSeqs k upset s
  | .xfer k upset => Sys2Proof.Machine.execXfer k upset s
  | .xwait k upset => Sys2Proof.Machine.execXwait k upset s
  | .scribeSemp k upset => Sys2Proof.Machine.execScribeSemp k upset s
  | .scribeSemw k upset => Sys2Proof.Machine.execScribeSemw k upset s
  | .scribeExit k upset => Sys2Proof.Machine.execScribeExit k upset s
  | .ldpcDec t upset => Sys2Proof.Machine.execLdpcDec t upset s
  | .turboDec t upset => Sys2Proof.Machine.execTurboDec t upset s
  | .ldpcEnc t upset => Sys2Proof.Machine.execLdpcEnc t upset s
  | .polarDec t upset => Sys2Proof.Machine.execPolarDec t upset s
  | .convDec t upset => Sys2Proof.Machine.execConvDec t upset s
  | .frameReceived m done fcsOk parity lag bytes => Sys2Proof.Machine.execFrameReceived m done fcsOk parity lag bytes s
  | .packetStall egress x => Sys2Proof.Machine.execPacketStall egress x s
  | .xoffHoldEnd p => Sys2Proof.Machine.execXoffHoldEnd p s
  | .pfcFrame m vec quanta => Sys2Proof.Machine.execPfcFrame m vec quanta s
  | .pfcPauseExpiry m k => Sys2Proof.Machine.execPfcPauseExpiry m k s
  | .pfcRefresh m => Sys2Proof.Machine.execPfcRefresh m s
  | .ethLinkDown m => Sys2Proof.Machine.execEthLinkDown m s
  | .ethLinkUp m => Sys2Proof.Machine.execEthLinkUp m s
  | .egressSelection m upset => Sys2Proof.Machine.execEgressSelection m upset s
  | .txLate q ix => Sys2Proof.Machine.execTxLate q ix s
  | .gateChange m => Sys2Proof.Machine.execGateChange m s
  | .svcSubmit q => Sys2Proof.Machine.execSvcSubmit q s
  | .svcCancel q => Sys2Proof.Machine.execSvcCancel q s
  | .timeStep v => Sys2Proof.Machine.execTimeStep v s
  | .timeRate v => Sys2Proof.Machine.execTimeRate v s
  | .timeSource source servoMgr fabPort => Sys2Proof.Machine.execTimeSource source servoMgr fabPort s
  | .holdReq v => Sys2Proof.Machine.execHoldReq v s
  | .servoWatchdog => Sys2Proof.Machine.execServoWatchdog s
  | .ppsEdge => Sys2Proof.Machine.execPpsEdge s
  | .ref10Count cycles => Sys2Proof.Machine.execRef10Count cycles s
  | .ppsLost => Sys2Proof.Machine.execPpsLost s
  | .ref10Lost => Sys2Proof.Machine.execRef10Lost s
  | .timeExchange port t1 t2 t3 hops hold => Sys2Proof.Machine.execTimeExchange port t1 t2 t3 hops hold s
  | .fabricHoldover failed => Sys2Proof.Machine.execFabricHoldover failed s
  | .unitTakeover parity => Sys2Proof.Machine.execUnitTakeover parity s
  | .unitMismatch => Sys2Proof.Machine.execUnitMismatch s
  | .timePulse k => Sys2Proof.Machine.execTimePulse k s
  | .pulseEnd k => Sys2Proof.Machine.execPulseEnd k s
  | .barrierArrive b => Sys2Proof.Machine.execBarrierArrive b s
  | .arrSemArrive b => Sys2Proof.Machine.execArrSemArrive b s
  | .arrive p => Sys2Proof.Machine.execArrive p s
  | .release p port => Sys2Proof.Machine.execRelease p port s
  | .barrierFire b => Sys2Proof.Machine.execBarrierFire b s
  | .barrierTimeout b => Sys2Proof.Machine.execBarrierTimeout b s
  | .linkTrain k peer rev ok => Sys2Proof.Machine.execLinkTrain k peer rev ok s
  | .flitReplay k times => Sys2Proof.Machine.execFlitReplay k times s
  | .fabLinkDown k => Sys2Proof.Machine.execFabLinkDown k s
  | .forward p lvc stay => Sys2Proof.Machine.execForward p lvc stay s
  | .load p combined => Sys2Proof.Machine.execLoad p combined s
  | .store p => Sys2Proof.Machine.execStore p s
  | .mstore p port => Sys2Proof.Machine.execMstore p port s
  | .reduce p => Sys2Proof.Machine.execReduce p s
  | .atomic p combined => Sys2Proof.Machine.execAtomic p combined s
  | .sempost p => Sys2Proof.Machine.execSempost p s
  | .rsvReq p => Sys2Proof.Machine.execRsvReq p s
  | .rsvRel p => Sys2Proof.Machine.execRsvRel p s
  | .loadRsp p => Sys2Proof.Machine.execLoadRsp p s
  | .ack p port => Sys2Proof.Machine.execAck p port s
  | .atomicRsp p => Sys2Proof.Machine.execAtomicRsp p s
  | .rsvRsp p => Sys2Proof.Machine.execRsvRsp p s
  | .remoteTimeout dev seq => Sys2Proof.Machine.execRemoteTimeout dev seq s
  | .retry dev seq => Sys2Proof.Machine.execRetry dev seq s
  | .mcastAckTimeout src seq => Sys2Proof.Machine.execMcastAckTimeout src seq s
  | .leaseExpiry ix => Sys2Proof.Machine.execLeaseExpiry ix s
  | .leaseRenewal q key => Sys2Proof.Machine.execLeaseRenewal q key s
  | .orderGateStart p => Sys2Proof.Machine.execOrderGateStart p s
  | .orderMismatch p => Sys2Proof.Machine.execOrderMismatch p s
  | .ready p => Sys2Proof.Machine.execReady p s
  | .data p upset => Sys2Proof.Machine.execData p upset s
  | .putPkt p => Sys2Proof.Machine.execPut p s
  | .exp1 p => Sys2Proof.Machine.execExp1 p s
  | .expr p => Sys2Proof.Machine.execExpr p s
  | .finalPkt p => Sys2Proof.Machine.execFinal p s
  | .resend p => Sys2Proof.Machine.execResend p s
  | .abort p => Sys2Proof.Machine.execAbort p s
  | .peerTimeout q key r => Sys2Proof.Machine.execPeerTimeout q key r s
  | .create p => Sys2Proof.Machine.execCreate p s
  | .quiesce p => Sys2Proof.Machine.execQuiesce p s
  | .quiesceComplete p => Sys2Proof.Machine.execQuiesceComplete p s
  | .quiesceSlow p => Sys2Proof.Machine.execQuiesceSlow p s
  | .resume p => Sys2Proof.Machine.execResume p s
  | .resetPart p force => Sys2Proof.Machine.execReset p force s
  | .remove p => Sys2Proof.Machine.execRemove p s
  | .compSwitch p v => Sys2Proof.Machine.execCompSwitch p v s
  | .drainWindowClose p => Sys2Proof.Machine.execDrainWindowClose p s
  | .meterRecord => Sys2Proof.Machine.execMeterRecord s
  | .fltFence v => Sys2Proof.Machine.execFltFence v s
  | .unitFence kind index => Sys2Proof.Machine.execUnitFence kind index s
  | .doorbell q stores => Sys2Proof.Machine.execDoorbell q stores s
  | .tailPoll q stores => Sys2Proof.Machine.execTailPoll q stores s
  | .commandFetch q ok stores => Sys2Proof.Machine.execCommandFetch q ok stores s
  | .hqNop q ix => Sys2Proof.Machine.execHqNop q ix s
  | .copyIn q ix ok => Sys2Proof.Machine.execCopyIn q ix ok s
  | .copyOut q ix ok => Sys2Proof.Machine.execCopyOut q ix ok s
  | .semPost q ix => Sys2Proof.Machine.execSemPost q ix s
  | .netTx q ix ok => Sys2Proof.Machine.execNetTx q ix ok s
  | .rxBuf q ix => Sys2Proof.Machine.execRxBuf q ix s
  | .hostAccessTimeout q ix => Sys2Proof.Machine.execHostAccessTimeout q ix s
  | .atsInvalidation => Sys2Proof.Machine.execAtsInvalidation s
  | .pcieLinkDown => Sys2Proof.Machine.execPcieLinkDown s
  | .managementLoop x => Sys2Proof.Machine.execManagementLoop x s
  | .wiolizTakeover => Sys2Proof.Machine.execWiolizTakeover s
  | .mboxNop => Sys2Proof.Machine.execMboxNop s
  | .stage flashOk => Sys2Proof.Machine.execStage flashOk s
  | .verify => Sys2Proof.Machine.execVerify s
  | .activate => Sys2Proof.Machine.execActivate s
  | .reject => Sys2Proof.Machine.execReject s
  | .confirm healthy => Sys2Proof.Machine.execConfirm healthy s
  | .trialTimeout => Sys2Proof.Machine.execTrialTimeout s
  | .cfgInstall flashOk => Sys2Proof.Machine.execCfgInstall flashOk s
  | .cfgRetire flashOk => Sys2Proof.Machine.execCfgRetire flashOk s
  | .cfgRevert flashOk => Sys2Proof.Machine.execCfgRevert flashOk s
  | .cfgCancel flashOk => Sys2Proof.Machine.execCfgCancel flashOk s
  | .attest => Sys2Proof.Machine.execAttest s
  | .certRead => Sys2Proof.Machine.execCertRead s
  | .logRead => Sys2Proof.Machine.execLogRead s
  | .power => Sys2Proof.Machine.execPower s
  | .settingSet flashOk => Sys2Proof.Machine.execSettingSet flashOk s
  | .settingGet => Sys2Proof.Machine.execSettingGet s
  | .smbusWrite code v pecOk => Sys2Proof.Machine.execSmbusWrite code v pecOk s
  | .faultCountRead => Sys2Proof.Machine.execFaultCountRead s
  | .pwrGoodRise => Sys2Proof.Machine.execPwrGoodRise s
  | .pwrGoodFall => Sys2Proof.Machine.execPwrGoodFall s
  | .resetNAssert ns => Sys2Proof.Machine.execResetNAssert ns s
  | .coldStart x => Sys2Proof.Machine.execColdStart x s
  | .wakeN ns => Sys2Proof.Machine.execWakeN ns s
  | .thermtrip => Sys2Proof.Machine.execThermtrip s
  | .pciePerstN high => Sys2Proof.Machine.execPciePerstN high s
  | .bypass => Sys2Proof.Machine.execBypass s
  | .idcode => Sys2Proof.Machine.execIdcode s
  | .samplePreload sample preload => Sys2Proof.Machine.execSamplePreload sample preload s
  | .extest sample drive => Sys2Proof.Machine.execExtest sample drive s
  | .clamp => Sys2Proof.Machine.execClamp s
  | .highz => Sys2Proof.Machine.execHighz s
  | .highWordRead req off => Sys2Proof.Machine.execHighWordRead req off s
  | .narrowRead off => Sys2Proof.Machine.execNarrowRead off s
  | .xferComplete k => Sys2Proof.Machine.execXferComplete k s
  | .malformedPacket p => Sys2Proof.Machine.execMalformedPacket p s
  | .hbmSelfRefresh ch enter => Sys2Proof.Machine.execHbmSelfRefresh ch enter s
  | .standbyRailLoss => Sys2Proof.Machine.execStandbyRailLoss s
  | .pcieLinkUp speed width => Sys2Proof.Machine.execPcieLinkUp speed width s
  | .pciePowerState d3 => Sys2Proof.Machine.execPciePowerState d3 s

end Sys2Proof.Machine
end

