-- ==== Sys2Proof/WellFormed.lean ====
section
/-! DEFINITION. Well-formed commands: every operand within the width or the number of things the spec gives it. -/

namespace Sys2Proof

/-- Is x below n? -/
def below (n x : Nat) : Bool := decide (x < n)

/-- Are these bytes? -/
def bytesOk (l : List Nat) : Bool := l.all (below 256)

/-- Stores of the host into its memory: keys within the PASIDs' address spaces, bytes. -/
def storesOk (l : List (Nat × Nat)) : Bool := l.all (fun e => below (2 ^ 84) e.1 && below 256 e.2)

/-- An instruction names a core's bank and one of the slots of a bundle. -/
def Issue.ok (x : Issue) : Bool := below 8 x.tile && below 16 x.core && below 4 x.bank && below 4 x.slot

/-- A packet's fields lie within the widths of R399, and its payload is of bytes and no longer than the largest packet's. -/
def Packet.ok (p : Packet) : Bool :=
  below 256 p.type && below 16 p.lines && below 65536 p.dst && below 65536 p.src && below 65536 p.domain && below (2 ^ 48) p.addr &&
    below 65536 p.age && below 65536 p.tag && below 4294967296 p.seq && below 16 p.rop && below 16 p.fmt && below 256 p.status &&
    below 256 p.var && below 65536 p.count && below 16 p.kind && below 4294967296 p.check && bytesOk p.payload && below 1025 p.payload.length

/-- A port, or this package itself, and one of the link channels of requests. -/
def Arrival.ok (x : Arrival) : Bool := below 37 x.port && decide (x.lvc = 2 ∨ x.lvc = 3)

/-- A loop's readings lie within their registers' widths (R537). -/
def Loop.ok (x : Loop) : Bool :=
  x.temps.all (below 65536) && x.hbm.all (below 65536) && x.rails.all (fun r => below 4294967296 r.1 && below 65536 r.2) &&
    below 4294967296 x.power && x.send.all (fun e => below 32 e.1 && bytesOk e.2.2)

/-- Tokens, ticks and versions have their widths. -/
def Kept.ok (x : Kept) : Bool := x.toks.all (below 4294967296) && below (2 ^ 64) x.accept && below 65536 x.version

/-- A cold start names records, slots and units that exist. -/
def Boot.ok (x : Boot) : Bool :=
  x.badRecords.all (below 3) && x.badImages.all (below 3) && x.failed.all (fun e => below 16 e.1 && below 1024 e.2) &&
    x.cores.all (below 128) && x.tiles.all (below 8) && x.stackIds.all (below 32)

/-- Are the operands of a command within their ranges? -/
def Instr.wellFormed (i : Instr) : Bool :=
  match i with
  | .registerWrite req off _ _ => below 65536 req && below 268435456 off
  | .lowWordRead req off => below 65536 req && below 268435456 off
  | .rcRead req off => below 65536 req && below 268435456 off
  | .tickEdge late => late.all (below 10)
  | .strokeWindowOpen n i => below 10 n && below 8192 i
  | .issueStop n i => below 10 n && below 8192 i
  | .commit b gen => below 268435456 b && below 1073741824 gen
  | .revert b gen => below 268435456 b && below 1073741824 gen
  | .stoppedApply => true
  | .tickSwitch v => below 18446744073709551616 v
  | .tickRun => true
  | .tickStop => true
  | .tickUnitStopped => true
  | .switchTargetPassed => true
  | .meshReplay link times => below 14 link && below 4 times
  | .zeroingComplete kind index => below 4 kind && below 65536 index
  | .channelScrubComplete ch => below 512 ch
  | .wayWriteBackComplete n => below 8 n
  | .nlw x _ => x.ok
  | .nmm x _ => x.ok
  | .ndrn x _ => x.ok
  | .nclr x _ => x.ok
  | .hlv x _ => x.ok
  | .hmv x _ => x.ok
  | .nop x _ => x.ok
  | .add x _ => x.ok
  | .sub x _ => x.ok
  | .andOp x _ => x.ok
  | .orOp x _ => x.ok
  | .xorOp x _ => x.ok
  | .shl x _ => x.ok
  | .shr x _ => x.ok
  | .sra x _ => x.ok
  | .mul x _ => x.ok
  | .minOp x _ => x.ok
  | .maxOp x _ => x.ok
  | .cmp x _ => x.ok
  | .li x _ => x.ok
  | .lui x _ => x.ok
  | .mova x _ => x.ok
  | .movs x _ => x.ok
  | .adda x _ => x.ok
  | .jmp x _ => x.ok
  | .jmpr x _ => x.ok
  | .exit x _ => x.ok
  | .csrr x _ => x.ok
  | .csrw x _ => x.ok
  | .vadd x _ => x.ok
  | .vsub x _ => x.ok
  | .vmul x _ => x.ok
  | .vfma x _ => x.ok
  | .vmin x _ => x.ok
  | .vmax x _ => x.ok
  | .vdiv x _ => x.ok
  | .vsqrt x _ => x.ok
  | .vfn x _ => x.ok
  | .vcvt x _ => x.ok
  | .vcmp x _ => x.ok
  | .vsel x _ => x.ok
  | .vred x _ => x.ok
  | .vbc x _ => x.ok
  | .vlogic x _ => x.ok
  | .vrng x _ => x.ok
  | .vacr x _ => x.ok
  | .vacw x _ => x.ok
  | .vld x _ => x.ok
  | .vst x _ => x.ok
  | .lds x _ => x.ok
  | .sts x _ => x.ok
  | .dma x _ => x.ok
  | .dmaComplete tile core bank => below 8 tile && below 16 core && below 4 bank
  | .dmaw x _ => x.ok
  | .fence x _ => x.ok
  | .rld x _ => x.ok
  | .rst x _ => x.ok
  | .rmst x _ => x.ok
  | .rred x _ => x.ok
  | .ratom x _ => x.ok
  | .rsemp x _ => x.ok
  | .semw x _ => x.ok
  | .semp x _ => x.ok
  | .semt x _ => x.ok
  | .semr x _ => x.ok
  | .semaphoreGrant i => below 4294967296 i
  | .coll x _ => x.ok
  | .ikc x _ => x.ok
  | .qlc x _ => x.ok
  | .hbmChanFail ch => below 512 ch
  | .patrolScrub ch corrected odecc ue clean dirty => below 512 ch && below 4294967296 corrected && below 4294967296 odecc && ue.all (below 0xC0000000) && below 4294967296 clean && dirty.all (below 0x18000000000)
  | .submit q i => below 4096 q && below 18446744073709551616 i
  | .cancel q i => below 4096 q && below 18446744073709551616 i
  | .adapterLoad q i => below 4096 q && below 18446744073709551616 i
  | .adapterLive k => below 1024 k
  | .adapterDrop q i => below 4096 q && below 18446744073709551616 i
  | .batchBoundary b => below 64 b
  | .promptPhaseStart p => below 64 p
  | .deadlineMissed p h => below 64 p && below 65536 h
  | .kvReady n => below 8 n
  | .stepDone n => below 8 n
  | .promptReq p prompt => p.ok && prompt.ok
  | .handoffOpen p body prompt => p.ok && below (2 ^ 512) body && prompt.ok
  | .handoffReply p => p.ok
  | .kvDone p => p.ok
  | .kvAck p => p.ok
  | .token p => p.ok
  | .cancelMsg p => p.ok
  | .memberLost dev => below 61440 dev
  | .sample j i _ => below 4 j && below 65536 i
  | .initCtx j i => below 4 j && below 65536 i
  | .scribeNop k _ => below 128 k
  | .clr k _ => below 128 k
  | .mov k _ => below 128 k
  | .mpy k _ => below 128 k
  | .mac k _ => below 128 k
  | .msu k _ => below 128 k
  | .macl k _ => below 128 k
  | .mag k _ => below 128 k
  | .maga k _ => below 128 k
  | .addr k _ => below 128 k
  | .subr k _ => below 128 k
  | .acca k _ => below 128 k
  | .ash k _ => below 128 k
  | .neg k _ => below 128 k
  | .rmpy k _ => below 128 k
  | .rmac k _ => below 128 k
  | .bexp k _ => below 128 k
  | .norm k _ => below 128 k
  | .expx k _ => below 128 k
  | .normp k _ => below 128 k
  | .bf2 k _ => below 128 k
  | .bf3 k _ => below 128 k
  | .bf4 k _ => below 128 k
  | .shuf k _ => below 128 k
  | .gold k _ => below 128 k
  | .modm k _ => below 128 k
  | .demap k _ => below 128 k
  | .bfpx k _ => below 128 k
  | .bfpc k _ => below 128 k
  | .maxa k _ => below 128 k
  | .mina k _ => below 128 k
  | .loop k _ => below 128 k
  | .scribeJmp k _ => below 128 k
  | .aga k _ => below 128 k
  | .movi k _ => below 128 k
  | .movr k _ => below 128 k
  | .movl k _ => below 128 k
  | .seqi k _ => below 128 k
  | .seqs k _ => below 128 k
  | .xfer k _ => below 128 k
  | .xwait k _ => below 128 k
  | .scribeSemp k _ => below 128 k
  | .scribeSemw k _ => below 128 k
  | .scribeExit k _ => below 128 k
  | .ldpcDec t _ => below 2 t
  | .turboDec t _ => below 2 t
  | .ldpcEnc t _ => below 2 t
  | .polarDec t _ => below 2 t
  | .convDec t _ => below 2 t
  | .frameReceived m _ _ _ lag bytes => below 32 m && below 4294967296 lag && bytesOk bytes
  | .packetStall _ x => below 8192 x
  | .xoffHoldEnd p => below 8 p
  | .pfcFrame m vec quanta => below 32 m && below 256 vec && quanta.length == 8 && quanta.all (below 65536)
  | .pfcPauseExpiry m k => below 32 m && below 8 k
  | .pfcRefresh m => below 32 m
  | .ethLinkDown m => below 32 m
  | .ethLinkUp m => below 32 m
  | .egressSelection m _ => below 32 m
  | .txLate q i => below 8192 q && below 65536 i
  | .gateChange m => below 32 m
  | .svcSubmit q => below 8192 q
  | .svcCancel q => below 8192 q
  | .timeStep v => below 18446744073709551616 v
  | .timeRate v => below 18446744073709551616 v
  | .timeSource source servoMgr fabPort => below 3 source && below 2 servoMgr && below 64 fabPort
  | .holdReq _ => true
  | .servoWatchdog => true
  | .ppsEdge => true
  | .ref10Count cycles => below 4294967296 cycles
  | .ppsLost => true
  | .ref10Lost => true
  | .timeExchange port _ _ _ hops _ => below 36 port && below 256 hops
  | .fabricHoldover _ => true
  | .unitTakeover _ => true
  | .unitMismatch => true
  | .timePulse k => below 4 k
  | .pulseEnd k => below 4 k
  | .barrierArrive b => below 8 b
  | .arrSemArrive b => below 8 b
  | .arrive p => p.ok
  | .release p x => p.ok && x.ok
  | .barrierFire b => below 8 b
  | .barrierTimeout b => below 8 b
  | .linkTrain k peer rev _ => below 36 k && below 65536 peer && below 65536 rev
  | .flitReplay k times => below 36 k && below 4 times
  | .fabLinkDown k => below 36 k
  | .forward p lvc stay => p.ok && below 4 lvc && below 68719476736 stay
  | .load p _ => p.ok
  | .store p => p.ok
  | .mstore p x => p.ok && x.ok
  | .reduce p => p.ok
  | .atomic p _ => p.ok
  | .sempost p => p.ok
  | .rsvReq p => p.ok
  | .rsvRel p => p.ok
  | .loadRsp p => p.ok
  | .ack p port => p.ok && below 37 port
  | .atomicRsp p => p.ok
  | .rsvRsp p => p.ok
  | .remoteTimeout dev seq => below 65536 dev && below 4294967296 seq
  | .retry dev seq => below 65536 dev && below 4294967296 seq
  | .mcastAckTimeout src seq => below 65536 src && below 4294967296 seq
  | .leaseExpiry i => below 65536 i
  | .leaseRenewal q key => below 64 q && below 4294967296 key
  | .orderGateStart p => below 64 p
  | .orderMismatch p => below 64 p
  | .ready p => p.ok
  | .data p upset => p.ok && below 65536 upset
  | .putPkt p => p.ok
  | .exp1 p => p.ok
  | .expr p => p.ok
  | .finalPkt p => p.ok
  | .resend p => p.ok
  | .abort p => p.ok
  | .peerTimeout q key r => below 64 q && below 4294967296 key && below 4096 r
  | .create p => below 64 p
  | .quiesce p => below 64 p
  | .quiesceComplete p => below 64 p
  | .quiesceSlow p => below 64 p
  | .resume p => below 64 p
  | .resetPart p _ => below 64 p
  | .remove p => below 64 p
  | .compSwitch p v => below 64 p && below 18446744073709551616 v
  | .drainWindowClose p => below 64 p
  | .meterRecord => true
  | .fltFence v => below 4294967296 v
  | .unitFence kind index => below 8 kind && below 128 index
  | .doorbell q stores => below 4096 q && storesOk stores
  | .tailPoll q stores => below 4096 q && storesOk stores
  | .commandFetch q _ stores => below 4096 q && storesOk stores
  | .hqNop q i => below 4096 q && below 18446744073709551616 i
  | .copyIn q i _ => below 4096 q && below 18446744073709551616 i
  | .copyOut q i _ => below 4096 q && below 18446744073709551616 i
  | .semPost q i => below 4096 q && below 18446744073709551616 i
  | .netTx q i _ => below 4096 q && below 18446744073709551616 i
  | .rxBuf q i => below 4096 q && below 18446744073709551616 i
  | .hostAccessTimeout q i => below 4096 q && (match i with | some j => below 18446744073709551616 j | none => true)
  | .atsInvalidation => true
  | .pcieLinkDown => true
  | .managementLoop x => x.ok
  | .wiolizTakeover => true
  | .mboxNop => true
  | .stage _ => true
  | .verify => true
  | .activate => true
  | .reject => true
  | .confirm _ => true
  | .trialTimeout => true
  | .cfgInstall _ => true
  | .cfgRetire _ => true
  | .cfgRevert _ => true
  | .cfgCancel _ => true
  | .attest => true
  | .certRead => true
  | .logRead => true
  | .power => true
  | .settingSet _ => true
  | .settingGet => true
  | .smbusWrite code v _ => below 256 code && below 65536 v
  | .faultCountRead => true
  | .pwrGoodRise => true
  | .pwrGoodFall => true
  | .resetNAssert ns => below 4294967296 ns
  | .coldStart x => x.ok
  | .wakeN ns => below 4294967296 ns
  | .thermtrip => true
  | .pciePerstN _ => true
  | .bypass => true
  | .idcode => true
  | .samplePreload smp preload => below (2 ^ 1024) smp && below (2 ^ 1024) preload
  | .extest smp drive => below (2 ^ 1024) smp && below (2 ^ 1024) drive
  | .clamp => true
  | .highz => true
  | .highWordRead req off => below 65536 req && below 268435456 off
  | .narrowRead off => below 268435456 off
  | .xferComplete k => below 128 k
  | .malformedPacket p => p.ok
  | .hbmSelfRefresh ch _ => below 512 ch
  | .standbyRailLoss => true
  | .pcieLinkUp speed width => below 8 speed && below 32 width
  | .pciePowerState _ => true

end Sys2Proof
end

