-- ==== Sys2Proof/Safety.lean ====
section
/-! DEFINITION. What holds of every state: the canonical form of the register file and of every byte memory, and what a command may do
to the queue and to the count of free values. -/

namespace Sys2Proof.Machine

/-- The register file, its shadow copies and the previous generation are in canonical form: offsets strictly rising, and no register
listed that holds its reset value, so that equal register files are equal data. -/
def State.regsOk (s : State) : Bool :=
  NMap.wf regReset s.regs && NMap.wf regReset s.shadow && NMap.wf regReset s.prev

/-- The byte memories of the cores are in canonical form: core stores, weight buffers, accumulators, vector buffers. -/
def CoreSt.memOk (c : CoreSt) : Bool := Mem.wf c.store && Mem.wf c.wbuf && Mem.wf c.acc && Mem.wf c.vbuf

/-- The byte memories of the Scribes are in canonical form: X and Y memory, program memory. -/
def RadSt.memOk (r : RadSt) : Bool := Mem.wf r.xy && Mem.wf r.prog

/-- Every byte memory is in canonical form: the host's, device local memory, the cores' and the Scribes', and the firmware staging
slot. -/
def State.memOk (s : State) : Bool :=
  Mem.wf s.host && Mem.wf s.mem.bytes && s.core.memOk && s.rad.memOk && Mem.wf s.mgt.staging

/-- The invariant of every step. -/
def State.canonical (s : State) : Prop := s.regsOk = true ∧ s.memOk = true

/-- What a command keeps between the state before it and the state after it: the canonical form, the queue, and every free value
that has been taken stays taken. -/
def Keeps (s t : State) : Prop := (s.canonical → t.canonical) ∧ t.pending = s.pending ∧ s.free ≤ t.free

end Sys2Proof.Machine
end

