-- ==== Sys2Proof/Claims.lean ====
section
/-! DEFINITION. The words in which the statements about the block are made: when a command can take effect, what it leaves, and what it
leaves alone. -/

namespace Sys2Proof.Machine

/-! ### Core instructions -/

/-- The value a register of a bank reads as (R165). -/
def Bank.reg (b : Bank) (r : CReg) : Nat :=
  match r with
  | .s n => b.sR n
  | .a n => b.aR n
  | .v n => b.vR n
  | .p n => b.pR n

/-- The width of a register (R165). -/
def CReg.width (r : CReg) : Nat :=
  match r with
  | .s _ => 64
  | .a _ => 64
  | .v _ => 8192
  | .p _ => 512

/-- The bank that an issue names. -/
def issueKey (x : Issue) : Nat := bankKey x.tile x.core x.bank

/-- Instruction w can issue at x as the whole of its bundle: bank b runs a Stroke before its issue-stop cycle, nothing holds it, its matrix
and memory queues are empty, no remote result is on its way to it, its program counter is a bundle of its program region in the line of
the instruction cache last used, no upset strikes, and no issue-stop cycle cuts it. -/
structure Issues (s : State) (x : Issue) (w : Word) (b : Bank) : Prop where
  bank : s.bank (issueKey x) = some b
  place : x.tile < 8 ∧ x.core < 16 ∧ x.bank < 4
  fits : slotFits (wOp w) x.slot = true ∧ x.slot < 4
  runs : b.live = true ∧ b.slot.isSome = true ∧ b.hold = .free ∧ b.queue = [] ∧ s.issueOpen x.tile b.slot = true
  alone : b.issued = 0 ∧ b.writes = [] ∧ b.dests = [] ∧ b.branch = none ∧ b.badJump = false ∧ x.last = true
  fetch : b.pc + 32 ≤ s.progSize b.part ∧ b.pc % 32 = 0 ∧
    (NMap.get [] s.core.icache (issueKey x)).head? = some (b.part, (s.progBase b.part + b.pc) / 1024)
  idle : ∀ r, s.regPending (issueKey x) r = false
  calm : x.upsets = [] ∧ x.cut = none

/-- Its guard lets it take effect (R166). -/
def Guarded (b : Bank) (w : Word) : Prop := bit (b.pR (wPg w)) 0 = true

/-- What register q reads after at most one register was written: s0 and p0 discard writes (R165). -/
def Bank.after (b : Bank) (wr : Option (CReg × Nat)) (q : CReg) : Nat :=
  match wr with
  | none => b.reg q
  | some (r, v) => if q = r ∧ r.real = true then v else b.reg q

/-- The frame of an instruction that is the whole of its bundle: at most one register of the bank is written, flags are only set, the
program counter stands at `pc`, the rest of the bank, every other bank and all other state are unchanged. -/
structure Retires (s t : State) (x : Issue) (b : Bank) (wr : Option (CReg × Nat)) (fl pc : Nat) : Prop where
  bank : ∃ b', t.bank (issueKey x) = some b' ∧ (∀ q, b'.reg q = b.after wr q) ∧ b'.flags = Nat.lor b.flags fl ∧ b'.pc = pc ∧
    b' = { b with s := b'.s, a := b'.a, v := b'.v, p := b'.p, flags := b'.flags, pc := b'.pc, lastIssue := b'.lastIssue }
  others : ∀ j, j ≠ (issueKey x) → t.bank j = s.bank j
  rest : t = { s with core := { s.core with banks := t.core.banks } }

/-- The instruction completes, writing `v` to register r. -/
def Writes (i : Issue → Word → Instr) (s : State) (x : Issue) (w : Word) (b : Bank) (r : CReg) (v : Nat) : Prop :=
  ∃ t, exec (i x w) s = .next t ∧ Retires s t x b (some (r, v)) 0 (b.pc + 32)

/-- No context has anything in its matrix or memory queue, and none waits for one to run empty. -/
def Unqueued (s : State) : Prop := ∀ j c, s.bank j = some c → c.queue = [] ∧ (c.hold = .free ∨ ∃ r, c.hold = .semw r)

/-- A vector result under a predicate (R166, R182): granule j takes the new value where predicate bit j is one, else it keeps the old. -/
def Blended (p old new res : Nat) : Prop := ∀ j, j < 512 → lane res 16 j = if bit p j then lane new 16 j else lane old 16 j

/-- The vector instruction completes: it takes n free values and writes to vd, under its guard, a value of which P holds; it may set
numeric flags. -/
def WritesVector (i : Issue → Word → Instr) (s : State) (x : Issue) (w : Word) (b : Bank) (n : Nat) (P : Nat → Prop) : Prop :=
  ∃ t new res fl, exec (i x w) s = .next t ∧ Retires (s.took n) t x b (some (.v (vVd w), res)) fl (b.pc + 32) ∧
    Blended (b.pR (wPg w)) (b.vR (vVd w)) new res ∧ P new

/-- Every lane of `new`, w bits wide, is the function's value. -/
def Lanes (w : Nat) (f : Nat → Nat) (new : Nat) : Prop := ∀ i, i < 8192 / w → lane new w i = f i

/-- A value clamped to 16-bit two's complement, as a pattern (R125). -/
def clamp16 (z : Int) : Nat := (BitVec.ofInt 16 (max (-32768) (min 32767 z))).toNat

/-- The bank of the instruction goes on: the program counter at the next bundle, at most one register written, every other bank as it
was. -/
def GoesOn (s t : State) (x : Issue) (b : Bank) (wr : Option (CReg × Nat)) : Prop :=
  (∃ b', t.bank (issueKey x) = some b' ∧ b'.pc = b.pc + 32 ∧ ∀ r, b'.reg r = b.after wr r) ∧ ∀ j, j ≠ issueKey x → t.bank j = s.bank j

/-- The core an issue names, package-wide. -/
def issueCore (x : Issue) : Nat := 16 * x.tile + x.core

/-- An access of the instruction's context to these core-store ranges meets no fault and need not wait (R104, R107, R108, R223). -/
def StoreOpen (s : State) (x : Issue) (b : Bank) (read : Bool) (l : List (Nat × Nat)) : Prop :=
  s.storeCheck x.tile x.core b.part read l = 0 ∧ s.storeWait (issueCore x) l = false

/-- Accumulator tile i of the core is the context's and is not being zeroed (R107, R108). -/
def AccOpen (s : State) (x : Issue) (b : Bank) (i : Nat) : Prop :=
  s.accOwned x.tile x.core i b.part = true ∧ s.accZeroing (issueCore x) i = false

/-- One byte of a core's store. -/
def storeByte (s : State) (x : Issue) (a : Nat) : Nat := Mem.rd s.core.store (storeKey (issueCore x) a)

/-- One byte of an accumulator tile of a Nib. -/
def accByte (s : State) (x : Issue) (nib tile o : Nat) : Nat := Mem.rd s.core.acc (accKey (issueCore x) nib tile o)

/-- What register r reads after an access in format L that wrote only its base, where post_inc is 1 (R188). -/
def Bank.stepped (b : Bank) (w : Word) (r : CReg) : Nat :=
  if lPost w = true ∧ r = .a (lBase w) then (b.aR (lBase w) + wImm w) % 2 ^ 64 else b.reg r

/-- A packet for device `dst` finds its way: no mesh link of the package has failed (R30), and it goes to this package itself, to a multicast
group, or by a route with a port UP (R395, R412). -/
def Routable (s : State) (dst : Nat) : Prop :=
  s.mesh.failed = [] ∧ (dst = s.devId ∨ 0xF000 ≤ dst ∨ (s.routeOf s.devId dst).isSome = true)

/-- p is the request of partition `part` and context `ctx` for global address ga (R203, R399). -/
def IsRequest (s : State) (p : Packet) (type part ctx ga : Nat) (payload : List Nat) : Prop :=
  p.type = type ∧ p.dst = ga / 2 ^ 48 % 2 ^ 16 ∧ p.addr = ga % 2 ^ 48 ∧ p.src = s.devId ∧ p.domain = s.rd (Reg.FAB_DOMAIN.domain part) ∧
    p.tag = ctx ∧ p.seq = s.nextSeq p.dst ∧ p.payload = payload ∧ p.retry = false ∧ p.poison = false

/-- The instruction sends one request and holds it outstanding until its reply or its bound (R404). -/
def SendsRequest (i : Issue → Word → Instr) (s : State) (x : Issue) (w : Word) (b : Bank) (type ga : Nat) (payload : List Nat) (reg : Option CReg)
    (P : Packet → Prop) : Prop :=
  ∃ t p o port lvc, exec (i x w) s = .next t ∧ GoesOn s t x b none ∧ IsRequest s p type b.part b.ctx ga payload ∧ P p ∧
    t.fab.tx = s.fab.tx ++ [⟨port, lvc, p⟩] ∧ t.fab.out = s.fab.out ++ [o] ∧ o.seq = p.seq ∧ o.dev = p.dst ∧ o.type = type ∧ o.ga = ga ∧
    o.bank = some (issueKey x) ∧ o.reg = reg ∧ o.pd = rPd w ∧ o.deadline = s.time.cnt + s.bound ∧ o.packet = p ∧
    t.nextSeq p.dst = (p.seq + 1) % 2 ^ 32 ∧ t = { s with core := { s.core with banks := t.core.banks }, fab := t.fab, regs := t.regs }

/-! ### Registers -/

/-- A register whose writes are those of its access codes alone (R12): it lies in a block from ETH on, below MGT, it is no commit register
(R76), it is no ownership entry that describes nothing (R109, R418), and its tile is present. -/
structure PlainRegister (s : State) (off : Nat) (r : RegRow) : Prop where
  row : regRow off = some r
  block : 0x600000 ≤ off ∧ off < 0xF000000 ∧ off % 0x100000 ≠ 0xFFF00
  aligned : off % 8 = 0
  owns : emptyOwn off = false
  present : s.deadTile off = false
  up : s.pins.stopped = false

/-- Register `off` after a write of v by the access codes of its row (R12): ones clear W1C bits, RW bits take v, all others stay. -/
def Written (s t : State) (off : Nat) (r : RegRow) (v : Word) : Prop :=
  (∀ i, i < 64 → (t.reg off).getLsbD i =
    if bit r.w1c i = true ∧ v.getLsbD i = true then false else if bit r.rw i then v.getLsbD i else (s.reg off).getLsbD i) ∧
  ∀ o, o ≠ off → t.reg o = s.reg o

/-- The shadow copy after a write of v to the SH fields of a register (R13); no other register's changes. -/
def Shadowed (s t : State) (off : Nat) (r : RegRow) (v : Word) : Prop :=
  (∀ i, i < 64 → bit r.sh i = true → (t.shadowReg off).getLsbD i = v.getLsbD i) ∧ (∀ o, o ≠ off → t.shadowReg o = s.shadowReg o) ∧
  (r.sh = 0 → t.shadow = s.shadow)

/-- What a read of a register returns (R12): SH fields their shadow copy, WO fields zero, the others their value. -/
def ReadsAs (s : State) (off : Nat) (r : RegRow) (v : Word) : Prop :=
  ∀ i, i < 64 → v.getLsbD i =
    if bit r.sh i then (s.shadowReg off).getLsbD i else if bit r.wo i then false else (s.reg off).getLsbD i

/-- The read effect on the bits from lo up (R12): RC fields clear, nothing else of any register changes. -/
def RcCleared (s t : State) (off : Nat) (r : RegRow) (lo : Nat) : Prop :=
  (∀ i, i < 64 → (t.reg off).getLsbD i = if bit r.rc i = true ∧ lo ≤ i then false else (s.reg off).getLsbD i) ∧
  ∀ o, o ≠ off → t.reg o = s.reg o

/-- A fault record with the fields of r was raised: its class counter advanced, and nothing but the fault counters, the count of dropped host
writes, the board's fault counts and host memory changed. -/
structure Raised (s t : State) (r : FRec) : Prop where
  counted : r.code / 4096 ≠ 5 → r.code / 4096 < 16 →
    t.rd (Reg.FLT_CLASS_CNT.count (r.code / 4096)) = min (s.rd (Reg.FLT_CLASS_CNT.count (r.code / 4096)) + r.count) (2 ^ 64 - 1)
  regs : ∀ o, (o < 0x500010 ∨ 0x500180 ≤ o) → o ≠ Reg.HQ_LINK.up.off → t.reg o = s.reg o
  link : t.rd Reg.HQ_LINK.up = s.rd Reg.HQ_LINK.up
  rest : t = { s with regs := t.regs, host := t.host, flt := t.flt, mgt := { s.mgt with cnt8 := t.mgt.cnt8, cnt9 := t.mgt.cnt9 } }

/-! ### Frames -/

/-- No register but those whose offsets are listed reads another value. -/
def OnlyRegs (s t : State) (l : List Nat) : Prop := ∀ o, o ∉ l → t.reg o = s.reg o

/-- Corrected time has been let run to the instant `ns` (R366), unless it is past it. -/
def Reached (s t : State) (ns : Nat) : Prop := t.time = { s.time with cnt := max s.time.cnt (s.cycleOf ((ns : Int) * 4294967296)) }

/-- The zeroing of one unit has ended (R108): nothing else has changed yet. -/
def ZeroDone (s : State) (kind i : Nat) : State :=
  { s with core := { s.core with zeroing := s.core.zeroing.filter (fun e => decide (e ≠ (kind, i))) } }

/-! ### Time -/

/-- The time unit records `code` for `part` and `unit` (R390) after its registers, listed in l, and its own state became those of a state of
which P holds. -/
def TimeRecords (s t : State) (l : List Nat) (code part unit : Nat) (P : State → Prop) : Prop :=
  ∃ u : State, P u ∧ OnlyRegs s u l ∧ u = { s with regs := u.regs, time := u.time } ∧
    Raised u t ⟨code, part, 8 + u.rd Reg.TIME_STAT.active_unit, unit, 0, 1, 0, 0, u.nowNs⟩

/-- Holdover has begun for a cause (R372), with a record of it. -/
def HeldOver (s t : State) (l : List Nat) (cause unit : Nat) (P : State → Prop) : Prop :=
  TimeRecords s t ([0x200008, Reg.TICK_STAT.all.off] ++ l) 0x6002 0x40 unit (fun u => u.on Reg.TIME_STAT.holdover = true ∧
    u.rd Reg.TIME_STAT.hold_cause = cause ∧ u.on Reg.TICK_STAT.holdover = true ∧ u.time.rate = s.time.rate ∧ P u)

/-! ### Flonil -/

/-- One packet has left: the one of which P holds (port 36 is this package). -/
def Sends (s t : State) (P : Packet → Prop) : Prop := ∃ y port lvc, t.fab.tx = s.fab.tx ++ [⟨port, lvc, y⟩] ∧ P y

/-- y answers request p (R399, R400). -/
def Answers (s : State) (p : Packet) (type status : Nat) (payload : List Nat) (y : Packet) : Prop :=
  y.type = type ∧ y.status = status ∧ y.payload = payload ∧ y.dst = p.src ∧ y.src = s.devId ∧ y.addr = p.addr ∧ y.tag = p.tag ∧ y.seq = p.seq ∧
  y.domain = p.domain ∧ y.poison = false ∧ y.retry = false

/-- A request of a type is served here for partition q: it is for this package, young enough, of one valid domain, and its reply finds a
way (R402, R406). -/
structure Served (s : State) (type : Nat) (p : Packet) (q : Nat) : Prop where
  type : p.type = type
  here : p.dst = s.devId
  young : tooOld p = false
  owner : s.fabPart p = some q
  back : Routable s p.src

/-- No register changed but those listed and the partition meters. -/
def MetersAnd (s t : State) (l : List Nat) : Prop :=
  ∀ o, o ∉ l → (∀ p k, p < 64 → k < 8 → o ≠ (Reg.PART_METER.count p k).off) → t.reg o = s.reg o

/-- No channel of [a, a + n) has failed (R223). -/
def Live (s : State) (a n : Nat) : Prop := ∀ i, i < n → s.chanFailed (a + i) = false

/-- The bytes of device local memory at a are those of l, every other byte of storage is as it was. -/
def Stored (s t : State) (a : Nat) (l : List Nat) : Prop :=
  (∀ i v, l[i]? = some v → t.ldN (a + i) 1 = v % 256) ∧
  ∀ k, (∀ i, i < l.length → k ≠ s.memKey (a + i)) → Mem.rd t.mem.bytes k = Mem.rd s.mem.bytes k

/-- The operation o has ended (R404): it is no longer outstanding; its register has the value, its predicate, once no operation of its
instruction is left, is all ones if one of them failed and zero else; the bank's other registers, all other banks and all else but the
fabric's own state are unchanged. -/
structure Ended (s t : State) (o : RemOp) (bank : Nat) (b : Bank) (failed : Bool) (P : Bank → Prop) : Prop where
  out : t.fab.out = s.fab.out.filter (fun x => decide (x ≠ o))
  held : ∃ b', t.bank bank = some b' ∧ P b' ∧ (∀ r, some r ≠ o.reg → r ≠ .p o.pd → b'.reg r = b.reg r) ∧ b'.pc = b.pc ∧ b'.flags = b.flags ∧
    (o.pd ≠ 0 → (∃ x, x ∈ s.fab.out ∧ x ≠ o ∧ x.group = o.group) → b'.pR o.pd = b.pR o.pd) ∧
    (o.pd ≠ 0 → (∀ x, x ∈ s.fab.out → x ≠ o → x.group ≠ o.group) →
      b'.pR o.pd = if failed = true ∨ NMap.get false s.fab.failed o.group = true then 2 ^ 512 - 1 else 0)
  banks : ∀ j, j ≠ bank → t.bank j = s.bank j
  core : t.core = { s.core with banks := t.core.banks }
  rest : t.mem = s.mem ∧ t.sem = s.sem ∧ t.fab.tx = s.fab.tx

/-- Operation o of a context at work is outstanding, and nothing on its bank waits for it. -/
structure Outstanding (s : State) (o : RemOp) (bank : Nat) (b : Bank) : Prop where
  bank : o.bank = some bank ∧ s.bank bank = some b ∧ o.orphan = false
  free : b.hold = .free ∧ b.queue = []

/-! ### Host queues -/

/-- The completion ring of queue q: a command's record has the fields of R497, the written count follows it, and no other byte of host
memory changed but those listed. -/
structure HostRecord (s t : State) (q : Nat) (c : HCmd) (status : Nat) (may : Nat → Prop) : Prop where
  record : ∀ pasid, s.hqPasid q = some pasid →
    let at_ := hostKey pasid (s.cqBase q + 64 + 32 * ((s.hq_ q).written % s.cqSize q))
    Mem.rd t.host at_ = bits c.raw 0 8 ∧ Mem.rdN t.host (at_ + 1) 2 = c.index % 2 ^ 16 ∧ Mem.rdN t.host (at_ + 4) 4 = bits c.raw 32 32 ∧
    Mem.rdN t.host (at_ + 8) 2 = status ∧ Mem.rdN t.host (hostKey pasid (s.cqBase q)) 8 = ((s.hq_ q).written + 1) % 2 ^ 64 ∧
    ∀ a, (a < at_ ∨ at_ + 32 ≤ a) → (a < hostKey pasid (s.cqBase q) ∨ hostKey pasid (s.cqBase q) + 8 ≤ a) → ¬ may a → Mem.rd t.host a = Mem.rd s.host a
  written : (t.hq_ q).written = ((s.hq_ q).written + 1) % 2 ^ 64

/-- Command c is the only one in flight in queue q, it has not started, it is not quiet, and the queue's owner and rings can be reached. -/
structure OnlyCommand (s : State) (q : Nat) (c : HCmd) (op : Nat) : Prop where
  only : (s.hq_ q).cmds = [c]
  fresh : c.started = false ∧ c.posted = false ∧ hOp c = op ∧ hQuiet c = false
  reach : (s.hqPasid q).isSome = true ∧ s.hostUp = true
  rings : s.cqBase q + 64 + 32 * s.cqSize q < 2 ^ 64 ∧ s.cqBase q % 64 = 0

/-- The command has completed: its record is written and the queue is empty. -/
structure Completed (s t : State) (q : Nat) (c : HCmd) (status : Nat) (may : Nat → Prop) : Prop where
  record : HostRecord s t q c status may
  gone : (t.hq_ q).cmds = []
  others : ∀ j, j ≠ q → t.hq_ j = s.hq_ j

/-! ### Serving -/

/-- Command c is the only one in flight in queue q, its work has started and its record is still to come. -/
structure AwaitsRecord (s : State) (q : Nat) (c : HCmd) : Prop where
  only : (s.hq_ q).cmds = [c]
  begun : c.started = true ∧ hQuiet c = false
  reach : (s.hqPasid q).isSome = true ∧ s.hostUp = true
  rings : s.cqBase q + 64 + 32 * s.cqSize q < 2 ^ 64 ∧ s.cqBase q % 64 = 0

/-- Request k is r, every other request as it was. -/
def Has (s t : State) (k : Nat) (r : Req) : Prop := t.req k = some r ∧ ∀ j, j ≠ k → t.req j = s.req j

/-- A serving message of a kind reaches an ACTIVE partition q that serves, in its live epoch (R262, R263, R402). -/
structure Arrives (s : State) (kind : Nat) (p : Packet) (q : Nat) : Prop where
  type : p.type = 9 ∧ svKind p = kind
  here : p.dst = s.devId ∧ p.src < 65536
  young : tooOld p = false
  owner : s.domainPart p.domain = some q
  active : s.partState q = 1 ∧ s.on (Reg.SRV_PART_CFG.enable q) = true
  live : svEpoch p = s.liveEpoch q
  back : Routable s p.src

/-- y is a serving message of a kind with a status about request r (R417). -/
def SaysOf (y : Packet) (dev kind status : Nat) (r : Req) : Prop :=
  y.type = 9 ∧ y.dst = dev ∧ svKind y = kind ∧ svStatus y = status ∧ svId y = rqId r.raw ∧ svOrigin y = r.origin ∧ svHandle y = r.originHandle % 65536

/-- The message p is acknowledged (R417) and nothing else leaves. -/
def Acknowledged (s t : State) (p : Packet) : Prop := Sends s t (Answers s p 0x82 0 [])

/-- The result record of an engine command in core store (R196, R267), its first 16 bits a status; its semaphore is posted. -/
def Resulted (s t : State) (c : EngCmd) (status : Nat) : Prop :=
  Mem.rdN t.core.store (storeKey c.core c.res) 2 = status ∧
  (∀ a, (a < storeKey c.core c.res ∨ storeKey c.core c.res + 32 ≤ a) → Mem.rd t.core.store a = Mem.rd s.core.store a) ∧
  ∀ k, (∀ q, c.sem = some q → s.semWaiters q = []) →
    t.semVal k = if c.sem = some k then min (s.semVal k + 1) (2 ^ 32 - 1) else s.semVal k

/-! ### Scribes -/

/-- The instruction w stands at the program counter of Scribe k, which runs before its issue-stop cycle, and no loop ends there. -/
structure ScribeAt (s : State) (k : Nat) (c : Scribe) (op w : Nat) : Prop where
  scribe : k < 128 ∧ s.scribe k = some c
  runs : c.hold = .free ∧ c.pc < 16384 ∧ s.issueOpen (8 + k / 64) (some c.slot) = true
  word : s.scWord k c.pc = w ∧ bits w 58 6 = op ∧ s.xyBad k 2 (8 * c.pc) 8 = false
  within : ∀ l, l ∈ c.loops → l.2.2 ≠ c.pc

/-- An ALU word with no move (R305, R306). -/
def NoMoves (w : Nat) : Prop :=
  bit w 48 = false ∧ mvKind (uX w) = 0 ∧ bits (uX w) 0 8 = 0 ∧ mvKind (uY w) = 0 ∧ bits (uY w) 0 8 = 0

/-- A part as an accumulator holds it: saturated to 40 bits (R302). -/
def clamp40 (z : Int) : Int := max (-549755813888) (min 549755813887 z)

/-- Scribe k alone changes, to c', and its program counter moves on by one. -/
def ScribeOnly (s t : State) (k : Nat) (c c' : Scribe) : Prop :=
  t.scribe k = some c' ∧ c'.pc = c.pc + 1 ∧ (∀ j, j ≠ k → t.scribe j = s.scribe j) ∧ t = { s with rad := { s.rad with scribes := t.rad.scribes } }

/-- The instruction leaves in accumulator d the lanes of g, saturated, and in the others what stood there; ovf is set where a part
saturated, and stays set; no other register changes. -/
def LeavesAcc (s : State) (i : Instr) (k : Nat) (c : Scribe) (d : Nat) (g : Nat → Int × Int) : Prop :=
  ∃ t c', exec i s = .next t ∧ ScribeOnly s t k c c' ∧
    (∀ l, l < 32 → laneC (c'.ac d) l = (clamp40 (g l).1, clamp40 (g l).2)) ∧ (∀ e, e ≠ d → c'.ac e = c.ac e) ∧
    (c'.ovf = true ↔ c.ovf = true ∨ ∃ l, l < 32 ∧ (clamp40 (g l).1 ≠ (g l).1 ∨ clamp40 (g l).2 ≠ (g l).2)) ∧ (c'.sr = c.sr ∨ c'.sr = Nat.lor c.sr 32) ∧
    c' = { c with acc := c'.acc, sr := c'.sr, pc := c.pc + 1 }

/-- The lane-wise sum. -/
def addC (x y : Int × Int) : Int × Int := (x.1 + y.1, x.2 + y.2)
/-- Both parts through a function. -/
def bothC (f : Int → Int) (x : Int × Int) : Int × Int := (f x.1, f x.2)

/-! ### Collectives -/

/-- A COLL packet of a kind from rank r reaches its collective c, the only one here, of partition q (R402, R435, R443). -/
structure InColl (s : State) (kind : Nat) (p : Packet) (q : Nat) (c : Coll) (r : Nat) : Prop where
  type : p.type = 0x0A ∧ p.kind = kind
  here : p.dst = s.devId
  young : tooOld p = false
  owner : s.domainPart p.domain = some q ∧ (s.partState q = 1 ∨ s.partState q = 2 ∨ s.partState q = 3)
  only : s.col.colls = [c] ∧ s.coll q p.seq = some c ∧ p.seq < 2 ^ 32
  rank : c.rankOf p.src = some r ∧ r ≠ c.rank
  back : Routable s p.src

/-- Collective c waits for a READY of every other rank, its own contributions are in, and nothing has landed yet. -/
structure Collecting (c : Coll) : Prop where
  ready : c.ready = []
  own : NMap.get 0 c.sentTo c.rank = chunksOf (c.shard c.rank).2
  none : c.recv = []

/-- The collective has gone on to c', and nothing but what a packet's arrival allows has changed elsewhere. -/
def CollIs (s t : State) (q key : Nat) (c' : Coll) : Prop :=
  t.coll q key = some c' ∧ t.col.colls.length = s.col.colls.length ∧ t.core = s.core ∧ t.sem = s.sem ∧ t.host = s.host

/-- Collective c has ended with a status: it is gone, its record stands in the store of the core that launched it, its semaphore is
posted, and the partition's count of its kind has gone up by one (R441, R445). -/
def CollEnded (s t : State) (c : Coll) (status : Nat) : Prop :=
  t.col.colls = [] ∧ Resulted s t c.cmd status ∧
  (if status = 0 then
    t.rd (Reg.COL_PART_STAT.completed c.part) = min (s.rd (Reg.COL_PART_STAT.completed c.part) + 1) (2 ^ (Reg.COL_PART_STAT.completed c.part).w - 1)
  else t.rd (Reg.COL_PART_STAT.failed c.part) = min (s.rd (Reg.COL_PART_STAT.failed c.part) + 1) (2 ^ (Reg.COL_PART_STAT.failed c.part).w - 1))

/-! ### Wioliz -/

/-- A mailbox command with opcode `op` is held: its sequence number and its 64 bytes (R509, R510). -/
def Holds (s : State) (op seq raw : Nat) : Prop := s.mgt.cmd = some (seq, raw) ∧ bits raw 0 8 = op ∧ seq < 65536

/-- The response of a mailbox command (R509): status, sequence number and body stand in MGT_MBOX_RESP, done_seq is the command's, the
mailbox is free; of the registers, only those of the mailbox and the ones listed have changed. -/
structure Responds (s t : State) (seq status body : Nat) (l : List Nat) : Prop where
  low : (t.reg (Reg.MGT_MBOX_RESP.data 0).off).toNat = status + seq * 2 ^ 16 + body % 2 ^ 32 * 2 ^ 32
  high : (t.reg (Reg.MGT_MBOX_RESP.data 1).off).toNat = body / 2 ^ 32 % 2 ^ 64
  done : t.rd Reg.MGT_MBOX_STAT.done_seq = seq ∧ t.on Reg.MGT_MBOX_STAT.busy = false ∧ t.mgt.cmd = none
  regs : OnlyRegs s t ([0xF000148, 0xF000180, 0xF000188, 0xF000190, 0xF000198] ++ l)

/-- Nothing but registers, host memory, the fault unit and Wioliz's own state has changed. -/
def MgtOnly (s t : State) : Prop := t = { s with regs := t.regs, host := t.host, flt := t.flt, mgt := t.mgt }

end Sys2Proof.Machine
end

