-- ==== Sys2Proof/Certificates/Slice0/Obligations.lean ====
section
/-! DEFINITION. The statements for the provers. Each docstring names the rules of spec/ its statement rests on. -/

open Sys2Proof Sys2Proof.Machine

/-- A step takes the command at the front of the queue and gives that command's effect on the state with the queue's rest. -/
def Obligations.StepRunsFront : Prop :=
  ∀ (c : Instr) (r : List Instr) (s : State), s.pending = c :: r → step s = exec c { s with pending := r }

/-- R174: each two-operand scalar instruction writes its 64-bit result, the second operand being the immediate or a register.
Where the spec is silent it rests on the model's choices of log entries 11 and 14. -/
def Obligations.ScalarArithmetic : Prop :=
  ∀ (s : State) (x : Issue) (w : Word) (b : Bank), Issues s x w b → Guarded b w → legalS w true true true false = true →
    let a := BitVec.ofNat 64 (b.sR (wRs1 w))
    let c := BitVec.ofNat 64 (if wImmSel w then wImm w else b.sR (wRs2 w))
    let n := c.toNat % 64
    let gives := fun (i : Issue → Word → Instr) (v : Word) => Writes i s x w b (.s (wRd w)) v.toNat
    (wOp w = 0x01 → gives .add (a + c)) ∧ (wOp w = 0x02 → gives .sub (a - c)) ∧ (wOp w = 0x03 → gives .andOp (a &&& c)) ∧
    (wOp w = 0x04 → gives .orOp (a ||| c)) ∧ (wOp w = 0x05 → gives .xorOp (a ^^^ c)) ∧ (wOp w = 0x06 → gives .shl (a <<< n)) ∧
    (wOp w = 0x07 → gives .shr (a >>> n)) ∧ (wOp w = 0x08 → gives .sra (a.sshiftRight n)) ∧ (wOp w = 0x09 → gives .mul (a * c)) ∧
    (wOp w = 0x0A → gives .minOp (if a.sle c then a else c)) ∧ (wOp w = 0x0B → gives .maxOp (if a.sle c then c else a))

/-- R173, R174: CMP fills a predicate with the outcome of the comparison its condition names.
R174: the moves and the loads of an immediate, and the address addition.
Where the spec is silent it rests on the model's choices of log entries 11 and 14. -/
def Obligations.ScalarComparesAndMoves : Prop :=
  (∀ (s : State) (x : Issue) (w : Word) (b : Bank), Issues s x w b → Guarded b w → wOp w = 0x0C → wVar w = false → wCond w < 6 →
    onlyBits w (msk 53 3 + msk 48 3 + msk 43 5 + msk 37 1 + msk 34 3 + (if wImmSel w then msk 0 32 else msk 38 5)) = true →
    let a := BitVec.ofNat 64 (b.sR (wRs1 w))
    let c := BitVec.ofNat 64 (if wImmSel w then wImm w else b.sR (wRs2 w))
    let holds := match wCond w with
      | 0 => decide (a = c)
      | 1 => decide (a ≠ c)
      | 2 => a.slt c
      | 3 => c.sle a
      | 4 => a.ult c
      | _ => c.ule a
    Writes .cmp s x w b (.p (wRd w % 8)) (if holds then 2 ^ 512 - 1 else 0)) ∧
  (∀ (s : State) (x : Issue) (w : Word) (b : Bank), Issues s x w b → Guarded b w →
    (wOp w = 0x0D → legalS w true false false true = true → Writes .li s x w b (.s (wRd w)) (((BitVec.ofNat 32 w.toNat).signExtend 64).toNat)) ∧
    (wOp w = 0x0E → legalS w true false false true = true →
      Writes .lui s x w b (.s (wRd w)) ((BitVec.ofNat 32 w.toNat ++ BitVec.ofNat 32 (b.sR (wRd w)) : Word).toNat)) ∧
    (wOp w = 0x0F → legalS w true true false false = true → wRd w < 16 → Writes .mova s x w b (.a (wRd w)) (b.sR (wRs1 w))) ∧
    (wOp w = 0x10 → legalS w true true false false = true → wRs1 w < 16 → Writes .movs s x w b (.s (wRd w)) (b.aR (wRs1 w))) ∧
    (wOp w = 0x11 → legalS w true true true false = true → wRd w < 16 → wRs1 w < 16 →
      Writes .adda s x w b (.a (wRd w))
        (BitVec.ofNat 64 (b.aR (wRs1 w)) + BitVec.ofNat 64 (if wImmSel w then wImm w else b.sR (wRs2 w))).toNat))

/-- R160, R166: NOP, and a guarded scalar instruction whose guard is false, only move the program counter to the next bundle.
Where the spec is silent it rests on the model's choices of log entries 11 and 14. -/
def Obligations.ScalarNoEffect : Prop :=
  ∀ (s : State) (x : Issue) (w : Word) (b : Bank), Issues s x w b →
    let nothing := fun (i : Issue → Word → Instr) => ∃ t, exec (i x w) s = .next t ∧ Retires s t x b none 0 (b.pc + 32)
    (wOp w = 0x00 → wVar w = false → onlyBits w 0 = true → nothing .nop) ∧
    (¬ Guarded b w →
      (legalS w true true true false = true →
        (wOp w = 0x01 → nothing .add) ∧ (wOp w = 0x02 → nothing .sub) ∧ (wOp w = 0x03 → nothing .andOp) ∧ (wOp w = 0x04 → nothing .orOp) ∧
        (wOp w = 0x05 → nothing .xorOp) ∧ (wOp w = 0x06 → nothing .shl) ∧ (wOp w = 0x07 → nothing .shr) ∧ (wOp w = 0x08 → nothing .sra) ∧
        (wOp w = 0x09 → nothing .mul) ∧ (wOp w = 0x0A → nothing .minOp) ∧ (wOp w = 0x0B → nothing .maxOp)) ∧
      (legalS w true false false true = true → (wOp w = 0x0D → nothing .li) ∧ (wOp w = 0x0E → nothing .lui)) ∧
      (legalS w false false false true = true → wOp w = 0x18 → nothing .jmp) ∧
      (legalS w false true false false = true → wOp w = 0x19 → nothing .jmpr) ∧
      (legalS w false false false false = true → wOp w = 0x1A → nothing .exit))

/-- R174, R175: the jumps move the program counter and write no register; CSRR reads FLAGS or the context's own identity into a
register; CSRW clears the flags that are ones in its source.
Where the spec is silent it rests on the model's choices of log entries 11 and 14. -/
def Obligations.ScalarControl : Prop :=
  ∀ (s : State) (x : Issue) (w : Word) (b : Bank), Issues s x w b → Guarded b w →
    (wOp w = 0x18 → legalS w false false false true = true →
      ∃ t, exec (.jmp x w) s = .next t ∧
        Retires s t x b none 0 (BitVec.ofNat 64 b.pc + 32 * (BitVec.ofNat 32 w.toNat).signExtend 64).toNat) ∧
    (wOp w = 0x19 → legalS w false true false false = true → b.sR (wRs1 w) % 32 = 0 → b.sR (wRs1 w) < s.progSize b.part →
      ∃ t, exec (.jmpr x w) s = .next t ∧ Retires s t x b none 0 (b.sR (wRs1 w))) ∧
    (wOp w = 0x1B → legalS w true false false true = true → wf w 12 20 = 0 →
      (wf w 0 12 = 0x000 → Writes .csrr s x w b (.s (wRd w)) (b.flags % 2 ^ 64)) ∧
      (wf w 0 12 = 0x002 → Writes .csrr s x w b (.s (wRd w)) ((s.time.cnt - s.tick.edge) % 2 ^ 64)) ∧
      (wf w 0 12 = 0x004 → Writes .csrr s x w b (.s (wRd w)) (16 * x.tile + x.core)) ∧
      (wf w 0 12 = 0x009 → Writes .csrr s x w b (.s (wRd w)) (b.dmas.length % 2 ^ 64))) ∧
    (wOp w = 0x1C → legalS w false true false true = true → wf w 12 20 = 0 → wf w 0 12 = 0x000 →
      ∃ t b', exec (.csrw x w) s = .next t ∧ t.bank (issueKey x) = some b' ∧ b'.pc = b.pc + 32 ∧ (∀ q, b'.reg q = b.reg q) ∧
        (∀ n, b'.flags.testBit n = (b.flags.testBit n && !(b.sR (wRs1 w)).testBit n)) ∧
        (∀ j, j ≠ (issueKey x) → t.bank j = s.bank j) ∧ t = { s with core := { s.core with banks := t.core.banks } })

/-- R161: an instruction that is not the last of its bundle changes no register and not the program counter: the other slots of the bundle
read the old values. When the last slot has issued, the result is written and the program counter moves.
Where the spec is silent it rests on the model's choices of log entries 11 and 13. -/
def Obligations.BundleReadsOldValues : Prop :=
  ∀ (s : State) (x : Issue) (w w' : Word) (b : Bank) (n : Nat), Issues s x w b → Guarded b w → legalS w true true true false = true → x.slot = 0 →
    0 < n → n < 4 → wOp w = 0x01 → wOp w' = 0x00 → wVar w' = false → onlyBits w' 0 = true →
    ∃ t b1, exec (.add { x with last := false } w) s = .next t ∧ t.bank (issueKey x) = some b1 ∧ (∀ q, b1.reg q = b.reg q) ∧ b1.pc = b.pc ∧
      ∃ u b2, exec (.nop { x with slot := n } w') t = .next u ∧ u.bank (issueKey x) = some b2 ∧ b2.pc = b.pc + 32 ∧
      (∀ q, b2.reg q = b.after (some (.s (wRd w), (b.sR (wRs1 w) + b.op2 w) % 2 ^ 64)) q)

/-- R170, R466: EXIT ends a Stroke that has no DMA and no remote operation outstanding and no grant on its way: its bank is free, its program slot is spent, its
post_sem is incremented if it has one, its run time is metered.
Where the spec is silent it rests on the model's choices of log entry 13. -/
def Obligations.ExitEndsStroke : Prop :=
  ∀ (s : State) (x : Issue) (w : Word) (b : Bank) (i : Nat) (sl : Slot), Issues s x w b → Guarded b w → wOp w = 0x1A →
    legalS w false false false false = true → b.slot = some i → s.slotAt x.tile i = some sl → b.dmas = [] →
    s.fab.out.all (fun o => decide (o.bank ≠ some (issueKey x))) = true → b.grants = [] →
    (∀ g, g ∈ s.sem.grants → b.awaits (issueKey x) g = false) → (b.d.postEn = true → s.semWaiters b.d.postSem = []) →
    ∃ t, exec (.exit x w) s = .next t ∧ t.bank (issueKey x) = none ∧ (∀ j, j ≠ issueKey x → t.bank j = s.bank j) ∧
      (∃ y, t.slotAt x.tile i = some y ∧ y.phase = .spent) ∧
      (∀ q, t.semVal q = if b.d.postEn = true ∧ q = b.d.postSem then min (s.semVal q + 1) (2 ^ 32 - 1) else s.semVal q) ∧
      t.rd (Reg.PART_METER.count sl.d.part 0) =
        (if sl.d.part < 64 ∧ s.partState sl.d.part ≠ 0 ∧ s.on (Reg.PART_CFG.meter_time sl.d.part) = false then
          (s.rd (Reg.PART_METER.count sl.d.part 0) + (s.time.cnt - sl.start)) % 2 ^ 64 else s.rd (Reg.PART_METER.count sl.d.part 0)) ∧
      t = { s with core := { s.core with banks := t.core.banks }, regs := t.regs, tick := t.tick, sem := t.sem }

/-- R183: the INT32 lanes of the lanewise instructions, and the two that only move data. Shifts by 32 or more are left open.
Where the spec is silent it rests on the model's choices of log entries 14 and 17. -/
def Obligations.VectorIntegerLanes : Prop :=
  ∀ (s : State) (x : Issue) (w : Word) (b : Bank), Issues s x w b → wVar w = false →
    let u := fun i => BitVec.ofNat 32 (lane (b.vR (vVa w)) 32 i)
    let v := fun i => BitVec.ofNat 32 (lane (b.vR (vVb w)) 32 i)
    let gives := fun (i : Issue → Word → Instr) (f : Nat → BitVec 32) => WritesVector i s x w b 0 (Lanes 32 (fun k => (f k).toNat))
    (onlyBits w (mPg + (mVd + mVa + mVb + mFmt)) = true → vFmt w = 0xC →
      (wOp w = 0x50 → gives .vadd (fun k => u k + v k)) ∧ (wOp w = 0x51 → gives .vsub (fun k => u k - v k)) ∧
      (wOp w = 0x52 → gives .vmul (fun k => u k * v k)) ∧ (wOp w = 0x54 → gives .vmin (fun k => if (u k).sle (v k) then u k else v k)) ∧
      (wOp w = 0x55 → gives .vmax (fun k => if (u k).sle (v k) then v k else u k))) ∧
    (wOp w = 0x5B → onlyBits w (mPg + (mVd + mVa + mVb + msk 29 3 + mFmt)) = true → vFmt w ≠ 15 →
      WritesVector .vsel s x w b 0 (fun new => Blended (b.pR (vVc w % 8)) (b.vR (vVb w)) (b.vR (vVa w)) new)) ∧
    (wOp w = 0x5D → onlyBits w (mPg + (mVd + msk 41 5 + mFmt)) = true → vFmt w = 0xA →
      WritesVector .vbc s x w b 0 (Lanes 32 (fun _ => b.sR (vVa w % 32) % 2 ^ 32))) ∧
    (wOp w = 0x5E → onlyBits w (mPg + (mVd + mVa + mVb + mFmt + mSub)) = true → vFmt w = 0xC →
      (vSub w = 0 → WritesVector .vlogic s x w b 256 (Lanes 32 (fun k => (u k &&& v k).toNat))) ∧
      (vSub w = 1 → WritesVector .vlogic s x w b 256 (Lanes 32 (fun k => (u k ||| v k).toNat))) ∧
      (vSub w = 2 → WritesVector .vlogic s x w b 256 (Lanes 32 (fun k => (u k ^^^ v k).toNat))) ∧
      (vSub w = 3 → WritesVector .vlogic s x w b 256
        (fun new => ∀ k, k < 256 → (v k).toNat < 32 → lane new 32 k = (u k <<< (v k).toNat).toNat)) ∧
      (vSub w = 4 → WritesVector .vlogic s x w b 256
        (fun new => ∀ k, k < 256 → (v k).toNat < 32 → lane new 32 k = (u k >>> (v k).toNat).toNat)))

/-- R132, R183: the floating-point lanes are the exact result of their operands, rounded once to nearest even; VFN's is its fixed function
of the lane: for a finite lane whose function the spec states, one of the two FP32 numbers next to the exact value.
Where the spec is silent it rests on the model's choices of log entries 14, 16 and 17. -/
def Obligations.VectorFloatLanes : Prop :=
  ∀ (s : State) (x : Issue) (w : Word) (b : Bank) (f : Fmt), Issues s x w b → wVar w = false → fmtOf (vFmt w) = some f → vFmt w = 0x8 ∨ vFmt w = 0x9 ∨ vFmt w = 0xA →
    let u := fun i => f.decode (lane (b.vR (vVa w)) f.width i)
    let v := fun i => f.decode (lane (b.vR (vVb w)) f.width i)
    let c := fun i => f.decode (lane (b.vR (vVc w)) f.width i)
    let gives := fun (i : Issue → Word → Instr) (g : Nat → Val) => WritesVector i s x w b 0 (Lanes f.width (fun k => (f.encode .rne .inf (g k)).1))
    (onlyBits w (mPg + (mVd + mVa + mVb + mFmt)) = true →
      (wOp w = 0x50 → gives .vadd (fun k => (u k).add (v k))) ∧ (wOp w = 0x51 → gives .vsub (fun k => (u k).add (v k).neg)) ∧
      (wOp w = 0x52 → gives .vmul (fun k => (u k).mul (v k))) ∧ (wOp w = 0x54 → gives .vmin (fun k => valMin (u k) (v k))) ∧
      (wOp w = 0x55 → gives .vmax (fun k => valMax (u k) (v k))) ∧
      (wOp w = 0x56 → vFmt w = 0xA → gives .vdiv (fun k => (u k).div (v k)))) ∧
    (onlyBits w (mPg + (mVd + mVa + mVb + mVc + mFmt)) = true → wOp w = 0x53 → gives .vfma (fun k => ((u k).mul (v k)).add (c k))) ∧
    (onlyBits w (mPg + (mVd + mVa + mFmt + 0)) = true → wOp w = 0x57 → vFmt w = 0xA → gives .vsqrt (fun k => (u k).sqrt)) ∧
    (onlyBits w (mPg + (mVd + mVa + mFmt + mSub)) = true → wOp w = 0x58 → vFmt w = 0xA → vSub w < 8 →
      WritesVector .vfn s x w b 0 (fun new => ∀ k, k < 256 →
        lane new 32 k = if (u k).isNan then 0x7FC00000 else
          let r := vfnVal (vSub w) (lane (b.vR (vVa w)) 32 k)
          if (f.decode r).isNan then 0x7FC00000 else r)) ∧
    (∀ sub a neg m e, ¬ (sub = 0 ∧ a = 0xBF800000) → transc sub (f32 a) = some (neg, m, e) →
      let low := fp32.roundMag .rtz m e
      vfnVal sub a = fp32.signed neg (min 0x7F800000 low) ∨ vfnVal sub a = fp32.signed neg (min 0x7F800000 (low + 1))) ∧
    vfnVal 0 0xBF800000 = 0x3EBC5AB2

/-- R129, R183: TF32 lanes are added, subtracted and multiplied as FP32 after their operands are rounded to TF32; complex lanes work on
their 16-bit parts, saturating, a product being exact and shifted right by 15 bits with round to nearest even.
Where the spec is silent it rests on the model's choices of log entries 14 and 17. -/
def Obligations.VectorTf32AndComplexLanes : Prop :=
  ∀ (s : State) (x : Issue) (w : Word) (b : Bank), Issues s x w b → wVar w = false → onlyBits w (mPg + (mVd + mVa + mVb + mFmt)) = true →
    let u := fun i => tf32In (lane (b.vR (vVa w)) 32 i)
    let v := fun i => tf32In (lane (b.vR (vVb w)) 32 i)
    let p := fun i => (BitVec.ofNat 16 (lane (b.vR (vVa w)) 16 i)).toInt
    let q := fun i => (BitVec.ofNat 16 (lane (b.vR (vVb w)) 16 i)).toInt
    (vFmt w = 0xB →
      let gives := fun (i : Issue → Word → Instr) (g : Nat → Val) => WritesVector i s x w b 0 (Lanes 32 (fun k => (fp32.encode .rne .inf (g k)).1))
      (wOp w = 0x50 → gives .vadd (fun k => (u k).add (v k))) ∧ (wOp w = 0x51 → gives .vsub (fun k => (u k).add (v k).neg)) ∧
      (wOp w = 0x52 → gives .vmul (fun k => (u k).mul (v k)))) ∧
    (vFmt w = 0xD →
      (wOp w = 0x50 → WritesVector .vadd s x w b 0 (Lanes 16 (fun k => clamp16 (p k + q k)))) ∧
      (wOp w = 0x51 → WritesVector .vsub s x w b 0 (Lanes 16 (fun k => clamp16 (p k - q k)))) ∧
      (wOp w = 0x52 → WritesVector .vmul s x w b 0 (fun new => ∀ k, k < 256 →
        lane new 16 (2 * k) = clamp16 (rshiftRne (p (2 * k) * q (2 * k) - p (2 * k + 1) * q (2 * k + 1)) 15) ∧
        lane new 16 (2 * k + 1) = clamp16 (rshiftRne (p (2 * k) * q (2 * k + 1) + p (2 * k + 1) * q (2 * k)) 15))))

/-- R122 to R128, R185: VCVT rounds each lane that source and destination both hold, under the mode its word names, into the destination
format; a value too large saturates in the FP8 formats and becomes infinite in the wide ones. Lanes beyond these are left open.
Where the spec is silent it rests on the model's choices of log entries 14, 17, 66 and 67. -/
def Obligations.VectorConvert : Prop :=
  ∀ (s : State) (x : Issue) (w : Word) (b : Bank) (f g : Fmt), Issues s x w b → wVar w = false → wOp w = 0x59 →
    onlyBits w (mPg + mVd + mVa + mFmt + msk 23 2 + msk 0 4 + (if vRmode w == 2 then msk 21 2 + mKey + mSidx + mPos else 0)) = true →
    vRmode w < 3 → (vRmode w = 2 → vKey w % 2 = 0) → (wf w 0 4 ∈ [0x0, 0x1, 0x8, 0x9, 0xA]) → fmtOf (wf w 0 4) = some f →
    let mode := fun k => match vRmode w with
      | 0 => RMode.rne
      | 1 => RMode.rtz
      | _ => RMode.sr (rOf (vRcode w)) (srBits (b.sR (vKey w)) (b.sR (vKey w + 1)) (b.sR (vSidx w)) (rOf (vRcode w)) (b.sR (vPos w) + k))
    let u := fun k => f.decode (lane (b.vR (vVa w)) f.width k)
    ((vFmt w ∈ [0x8, 0x9, 0xA] → fmtOf (vFmt w) = some g →
      WritesVector .vcvt s x w b 1 (fun new => ∀ k, k < 8192 / max f.width g.width → lane new g.width k = (g.encode (mode k) .inf (u k)).1)) ∧
    (vFmt w ∈ [0x0, 0x1] → fmtOf (vFmt w) = some g →
      WritesVector .vcvt s x w b 1 (fun new => ∀ k, k < 8192 / max f.width g.width → lane new g.width k = (g.encode (mode k) .sat (u k)).1)) ∧
    (vFmt w = 0xC → WritesVector .vcvt s x w b 1 (fun new => ∀ k, k < 8192 / 32 → lane new 32 k = ((u k).toInt (mode k) 32).1)) ∧
    (vFmt w = 0x7 → WritesVector .vcvt s x w b 1 (fun new => ∀ k, k < 8192 / max f.width 8 → lane new 8 k = ((u k).toInt (mode k) 8).1)))

/-- R184: VCMP writes, in each granule its guard enables, whether the comparison holds between the lanes the granule lies in.
Where the spec is silent it rests on the model's choices of log entry 14. -/
def Obligations.VectorCompare : Prop :=
  ∀ (s : State) (x : Issue) (w : Word) (b : Bank), Issues s x w b → wVar w = false → wOp w = 0x5A →
    onlyBits w (mPg + msk 47 3 + mVa + mVb + mFmt + mSub) = true → vSub w < 7 →
    let ends := fun (lw : Nat) (holds : Nat → Bool) => ∃ t v fl, exec (.vcmp x w) s = .next t ∧
      Retires s t x b (some (.p (vVd w % 8), v)) fl (b.pc + 32) ∧
      ∀ j, j < 512 → bit v j = if bit (b.pR (wPg w)) j then holds (j / (lw / 16)) else bit (b.pR (vVd w % 8)) j
    (vFmt w = 0xC →
      let u := fun k => BitVec.ofNat 32 (lane (b.vR (vVa w)) 32 k)
      let v := fun k => BitVec.ofNat 32 (lane (b.vR (vVb w)) 32 k)
      (vSub w = 0 → ends 32 (fun k => u k == v k)) ∧ (vSub w = 1 → ends 32 (fun k => u k != v k)) ∧
      (vSub w = 2 → ends 32 (fun k => (u k).slt (v k))) ∧ (vSub w = 3 → ends 32 (fun k => (u k).sle (v k))) ∧
      (vSub w = 4 → ends 32 (fun k => (v k).slt (u k))) ∧ (vSub w = 5 → ends 32 (fun k => (v k).sle (u k))) ∧
      (vSub w = 6 → ends 32 (fun _ => false))) ∧
    (∀ f, vFmt w ∈ [0x8, 0x9, 0xA] → fmtOf (vFmt w) = some f →
      ends f.width (fun k => vcmpHolds (vSub w) (f.decode (lane (b.vR (vVa w)) f.width k)) (f.decode (lane (b.vR (vVb w)) f.width k))))

/-- R184, R150: VRED leaves the sum, least or greatest of the enabled INT32 lanes, or the canonical tree sum of the FP32 lanes with the
disabled ones as zero, in lane 0 and zero elsewhere, in the granules its guard enables; VRNG fills the lanes with consecutive elements of a stream.
Where the spec is silent it rests on the model's choices of log entry 14. -/
def Obligations.VectorReduceAndRandom : Prop :=
  ∀ (s : State) (x : Issue) (w : Word) (b : Bank), Issues s x w b → wVar w = false →
    let on := (List.range 256).filter (fun k => bit (b.pR (wPg w)) (2 * k))
    let u := fun k => lane (b.vR (vVa w)) 32 k
    let ends := fun (r : Nat) => ∃ t fl res, exec (.vred x w) s = .next t ∧ Retires s t x b (some (.v (vVd w), res)) fl (b.pc + 32) ∧
      Blended (b.pR (wPg w)) (b.vR (vVd w)) r res
    (wOp w = 0x5C → onlyBits w (mPg + mVd + mVa + mFmt + mSub) = true →
      (vFmt w = 0xC → vSub w = 0 → ends ((on.map u).sum % 2 ^ 32)) ∧
      (vFmt w = 0xC → vSub w = 1 → on ≠ [] → ∃ k ∈ on, ends (u k) ∧ ∀ j ∈ on, (BitVec.ofNat 32 (u k)).sle (BitVec.ofNat 32 (u j)) = true) ∧
      (vFmt w = 0xC → vSub w = 2 → on ≠ [] → ∃ k ∈ on, ends (u k) ∧ ∀ j ∈ on, (BitVec.ofNat 32 (u j)).sle (BitVec.ofNat 32 (u k)) = true) ∧
      (vFmt w = 0xA → vSub w = 0 → ends (canonTree ((List.range 256).map (fun k => if bit (b.pR (wPg w)) (2 * k) then u k else 0)) % 2 ^ 8192))) ∧
    (wOp w = 0x60 → onlyBits w (mPg + (mVd + mKey + mSidx + mPos + mSub)) = true → vKey w % 2 = 0 →
      let step := fun e => streamStep (b.sR (vKey w)) (b.sR (vKey w + 1)) (b.sR (vSidx w)) e
      (vSub w = 0 → WritesVector .vrng s x w b 0 (Lanes 64 (fun k => step (b.sR (vPos w) + k) % 2 ^ 64))) ∧
      (vSub w = 1 → WritesVector .vrng s x w b 0 (Lanes 32 (fun k =>
        let e := b.sR (vPos w) + k
        toF32 (.fin false (bits (step (e / 2)) (if e % 2 = 0 then 40 else 16) 24) (-24)) % 2 ^ 32))))

/-- R187: VACR reads, and VACW writes under its guard, rows 2q and 2q + 1 of an accumulator tile of the Nib, byte by byte; a row written
is no longer poisoned; no other accumulator byte changes.
Where the spec is silent it rests on the model's choices of log entries 13 and 14. -/
def Obligations.AccumulatorRows : Prop :=
  ∀ (s : State) (x : Issue) (w : Word) (b : Bank), Issues s x w b → wVar w = false → onlyBits w (mPg + mVd + msk 42 5 + mPos) = true →
    let q := b.sR (vPos w)
    let key := fun o => accKey (16 * x.tile + x.core) (vacNib w) (vacAcc w) (1024 * q + o)
    let tile := accTile (16 * x.tile + x.core) (vacNib w) (vacAcc w)
    q ≤ 63 → vacNib w < nibsOf x.tile → s.accOwned x.tile x.core (vacAcc w) b.part = true → s.accZeroing (16 * x.tile + x.core) (vacAcc w) = false →
    (wOp w = 0x61 → s.rowBad tile (2 * q) = false → s.rowBad tile (2 * q + 1) = false →
      WritesVector .vacr s x w b 0 (fun new => ∀ i, i < 1024 → lane new 8 i = Mem.rd s.core.acc (key i))) ∧
    (wOp w = 0x62 →
      ∃ t, exec (.vacw x w) s = .next t ∧ (∃ b', t.bank (issueKey x) = some b' ∧ b'.pc = b.pc + 32 ∧ ∀ r, b'.reg r = b.reg r) ∧
        (∀ i, i < 1024 → Mem.rd t.core.acc (key i) = if bit (b.pR (wPg w)) (i / 2) then lane (b.vR (vVd w)) 8 i else Mem.rd s.core.acc (key i)) ∧
        (∀ a, a < key 0 ∨ key 1024 ≤ a → Mem.rd t.core.acc a = Mem.rd s.core.acc a) ∧
        t.rowBad tile (2 * q) = false ∧ t.rowBad tile (2 * q + 1) = false ∧ (∀ j, j ≠ issueKey x → t.bank j = s.bank j) ∧
        t = { s with core := { s.core with banks := t.core.banks, acc := t.core.acc, accRows := t.core.accRows } })

/-- R101, R134: NCLR zeroes every byte of the tiles it spans on each Nib of its mask, ends their poison, and changes no other accumulator
byte.
Where the spec is silent it rests on the model's choices of log entries 13 and 15. -/
def Obligations.NibClear : Prop :=
  ∀ (s : State) (x : Issue) (w : Word) (b : Bank), Issues s x w b → wOp w = 0x43 → wVar w = false →
    onlyBits w (msk 52 4 + msk 48 3 + msk 46 2) = true → maskBad x.tile (mMask w) = false → wf w 46 2 < 3 → mAcc w % 2 ^ wf w 46 2 = 0 →
    (∀ i, mAcc w ≤ i → i < mAcc w + 2 ^ wf w 46 2 → AccOpen s x b i) →
    ∃ t, exec (.nclr x w) s = .next t ∧ GoesOn s t x b none ∧
      (∀ nib tile o, nib < 4 → tile < 8 → o < 65536 →
        accByte t x nib tile o = if bit (mMask w) nib = true ∧ mAcc w ≤ tile ∧ tile < mAcc w + 2 ^ wf w 46 2 then 0 else accByte s x nib tile o) ∧
      (∀ nib tile, bit (mMask w) nib = true → nib < 4 → mAcc w ≤ tile → tile < mAcc w + 2 ^ wf w 46 2 →
        t.tileBad (accTile (issueCore x) nib tile) = false) ∧
      t = { s with core := { s.core with banks := t.core.banks, acc := t.core.acc, accRows := t.core.accRows, accKind := t.core.accKind, anchor := t.core.anchor } }

/-- R94, R96: NLW copies a tile of one-byte elements from the core store into the weight buffer, K-major, as it lies or transposed,
records its parameters and tags the buffer with its context; no other weight-buffer byte below the scales changes.
Where the spec is silent it rests on the model's choices of log entries 13, 15 and 70. -/
def Obligations.NibLoad : Prop :=
  ∀ (s : State) (x : Issue) (w : Word) (b : Bank), Issues s x w b → wOp w = 0x40 → wVar w = false →
    onlyBits w (msk 54 2 + msk 49 3 + msk 30 17) = true → mNib w < nibsOf x.tile → mFmtIn w ∈ [0x0, 0x1, 0x7] →
    let r : NlwRec := ⟨mFmtIn w, bit w.toNat 50, bit w.toNat 49, b.aR (mSrc w), b.sR (mStride w), b.aR (mScale w)⟩
    r.stride % 64 = 0 → StoreOpen s x b true (nlwRanges r) →
    let key := fun o => wbufKey (issueCore x) (mNib w) (mBuf w) o
    ∃ t b', exec (.nlw x w) s = .next t ∧ GoesOn s t x b none ∧ t.bank (issueKey x) = some b' ∧
      NMap.find b'.nlw (2 * mNib w + mBuf w) = some r ∧
      (∀ k n, k < 128 → n < 128 → Mem.rd t.core.wbuf (key (k * 128 + n)) =
        storeByte s x (if r.transposed then r.src + n * r.stride + k else r.src + k * r.stride + n)) ∧
      (∀ a, a < key 0 ∨ key 16384 ≤ a → Mem.rd t.core.wbuf a = Mem.rd s.core.wbuf a) ∧
      NMap.get 0 t.core.wtag (wbufTag (issueCore x) (mNib w) (mBuf w)) = 1 + b.part * 4096 + b.ctx ∧
      NMap.get false t.core.wbufBad (wbufTag (issueCore x) (mNib w) (mBuf w)) = false ∧
      t = { s with core := { s.core with banks := t.core.banks, wbuf := t.core.wbuf, wtag := t.core.wtag, wbufBad := t.core.wbufBad } }

/-- R87, R97: a Cursive NMM of INT8 operands leaves in each element of each Nib's tile the exact sum of the 128 products of its
activation row and weight column, with the old element unless it starts afresh, saturated to INT32.
Where the spec is silent it rests on the model's choices of log entries 13, 15 and 71. -/
def Obligations.NibMultiplyInt8 : Prop :=
  ∀ (s : State) (x : Issue) (w : Word) (b : Bank), Issues s x w b → wOp w = 0x41 → wVar w = false → onlyBits w (msk 20 36) = true →
    maskBad x.tile (mMask w) = false → mFmtIn w = 0x7 → s.copper b.part = false → b.sR (mStride w) % 64 = 0 → AccOpen s x b (mAcc w) →
    (∀ nib, nib ∈ maskNibs (mMask w) → (∃ r, NMap.find b.nlw (2 * nib + mBuf w) = some r ∧ r.wtFmt = 0x7) ∧
      NMap.get 0 s.core.wtag (wbufTag (issueCore x) nib (mBuf w)) = ctxTag b ∧
      NMap.get false s.core.wbufBad (wbufTag (issueCore x) nib (mBuf w)) = false ∧
      (mZero w = true ∨ s.tileBad (accTile (issueCore x) nib (mAcc w)) = false)) →
    StoreOpen s x b true ((List.range 128).map (fun i => (b.aR (mSrc w) + i * b.sR (mStride w), 128))) →
    let act := fun (i k : Nat) => (BitVec.ofNat 8 (storeByte s x (b.aR (mSrc w) + i * b.sR (mStride w) + k))).toInt
    let weight := fun (nib k n : Nat) => (BitVec.ofNat 8 (Mem.rd s.core.wbuf (wbufKey (issueCore x) nib (mBuf w) (k * 128 + n)))).toInt
    let old := fun (nib i n : Nat) => if mZero w then (0 : Int) else (BitVec.ofNat 32 (s.accWord (issueCore x) nib (mAcc w) i n)).toInt
    ∃ t, exec (.nmm x w) s = .next t ∧ GoesOn s t x b none ∧
      (∀ nib i n, nib ∈ maskNibs (mMask w) → i < 128 → n < 128 →
        let sum := old nib i n + ((List.range 128).map (fun k => act i k * weight nib k n)).sum
        (BitVec.ofNat 32 (t.accWord (issueCore x) nib (mAcc w) i n)).toInt = max (-2147483648) (min 2147483647 sum)) ∧
      (∀ nib tile o, nib < 4 → tile < 8 → o < 65536 → ¬ (bit (mMask w) nib = true ∧ tile = mAcc w) → accByte t x nib tile o = accByte s x nib tile o) ∧
      t = { s with core := { s.core with banks := t.core.banks, acc := t.core.acc, accRows := t.core.accRows, accKind := t.core.accKind }, regs := t.regs }

/-- R100: NDRN of the INT32 contents of one Nib's tile copies its 128 rows of 512 bytes to the core store, a stride apart, and with its
clear flag zeroes the tile.
Where the spec is silent it rests on the model's choices of log entries 13, 15, 17 and 72. -/
def Obligations.NibDrainInt32 : Prop :=
  ∀ (s : State) (x : Issue) (w : Word) (b : Bank) (nib : Nat), Issues s x w b → wOp w = 0x42 → wVar w = false →
    onlyBits w (msk 51 5 + msk 48 3 + msk 46 2 + msk 31 13) = true → mMask w = 2 ^ nib → nib < nibsOf x.tile → wf w 46 2 = 0 → wf w 40 4 = 0xC →
    s.accKindOf (accTile (issueCore x) nib (mAcc w)) = 2 → s.tileBad (accTile (issueCore x) nib (mAcc w)) = false → AccOpen s x b (mAcc w) →
    let dst := b.aR (wf w 36 4)
    let stride := b.sR (wf w 31 5)
    stride % 64 = 0 → 512 ≤ stride → dst + 128 * stride ≤ storeSize x.tile → StoreOpen s x b false ((List.range 128).map (fun r => (dst + r * stride, 512))) →
    ∃ t, exec (.ndrn x w) s = .next t ∧ GoesOn s t x b none ∧
      (∀ r o, r < 128 → o < 512 → storeByte t x (dst + r * stride + o) = accByte s x nib (mAcc w) (r * 512 + o)) ∧
      (∀ a, (∀ r, r < 128 → a < storeKey (issueCore x) (dst + r * stride) ∨ storeKey (issueCore x) (dst + r * stride) + 512 ≤ a) →
        Mem.rd t.core.store a = Mem.rd s.core.store a) ∧
      (∀ o, o < 65536 → accByte t x nib (mAcc w) o = if bit w.toNat 51 then 0 else accByte s x nib (mAcc w) o) ∧
      t = { s with core := { s.core with banks := t.core.banks, store := t.core.store, storeBad := t.core.storeBad, acc := t.core.acc }, free := t.free }

/-- R112 to R114: HLV on a G-core copies core-store bytes into the vector buffer and records itself; HMV leaves at 32 bytes per column the
running FP32 sum of each of its vectors with that column's weight lines, and with no column or no element it only goes on.
Where the spec is silent it rests on the model's choices of log entries 13, 15, 47 and 70. -/
def Obligations.Hairline : Prop :=
  ∀ (s : State) (x : Issue) (w : Word) (b : Bank), Issues s x w b → wVar w = false → 4 ≤ x.tile →
    (wOp w = 0x44 → onlyBits w (msk 36 12) = true →
      let src := b.aR (wf w 44 4)
      let off := b.aR (wf w 40 4)
      let len := b.sR (wf w 36 4)
      0 < len → len % 64 = 0 → off % 64 = 0 → off + len ≤ 262144 → StoreOpen s x b true [(src, len)] →
      ∃ t b', exec (.hlv x w) s = .next t ∧ GoesOn s t x b none ∧ t.bank (issueKey x) = some b' ∧ b'.hlv = some (src, off, len) ∧ NMap.get false t.core.vbufBad (issueCore x) = false ∧
        (∀ i, i < len → Mem.rd t.core.vbuf (issueCore x * 1048576 + off + i) = storeByte s x (src + i)) ∧
        (∀ a, a < issueCore x * 1048576 + off ∨ issueCore x * 1048576 + off + len ≤ a → Mem.rd t.core.vbuf a = Mem.rd s.core.vbuf a) ∧
        NMap.get 0 t.core.vtag (issueCore x) = 1 + b.part * 4096 + b.ctx ∧
        t = { s with core := { s.core with banks := t.core.banks, vbuf := t.core.vbuf, vtag := t.core.vtag, vbufBad := t.core.vbufBad } }) ∧
    (wOp w = 0x45 → onlyBits w (msk 31 25) = true → wf w 31 5 ≤ 27 →
      let g := wf w 31 5
      let wb := b.aR (wf w 44 4)
      let sb := b.aR (wf w 40 4)
      let ob := b.aR (wf w 36 4)
      let cols := b.sR (g + 2)
      let kk := b.sR (g + 3)
      let nv := wf w 53 3 + 1
      let vstride := cdiv (2 * kk) 1024 * 1024
      (cols = 0 ∨ kk = 0 → ∃ t, exec (.hmv x w) s = .next t ∧ Retires s t x b none 0 (b.pc + 32)) ∧
      (∀ e scb, 0 < cols → 0 < kk → hlShape (wf w 48 4) = some (e, scb) → wb % 256 = 0 → b.sR g % 256 = 0 → sb % 64 = 0 →
        b.sR (g + 1) % 64 = 0 → b.sR (g + 4) + nv * vstride ≤ 262144 → b.sR (g + 4) % 64 = 0 → b.hlv.isSome = true →
        NMap.get 0 s.core.vtag (issueCore x) = ctxTag b → NMap.get false s.core.vbufBad (issueCore x) = false → s.mesh.failed = [] →
        StoreOpen s x b (bit w.toNat 52) ((List.range cols).map (fun n => (ob + 32 * n, 4 * nv))) →
        (∀ n, n < cols → s.permit b.part (wb + n * b.sR g) (256 * cdiv kk e) = true ∧ s.rangeBad (wb + n * b.sR g) (256 * cdiv kk e) = false ∧
          (scb ≠ 0 → s.permit b.part (sb + n * b.sR (g + 1)) (scb * cdiv kk e) = true ∧ s.rangeBad (sb + n * b.sR (g + 1)) (scb * cdiv kk e) = false)) →
        ∃ t, exec (.hmv x w) s = .next t ∧ GoesOn s t x b none ∧
          (∀ n v, n < cols → v < nv →
            Mem.rdN t.core.store (storeKey (issueCore x) (ob + 32 * n + 4 * v)) 4 =
              (List.range (cdiv kk e)).foldl (fun acc l =>
                (s.hlLine (issueCore x) (wf w 48 4) (s.ldBytes (wb + n * b.sR g + 256 * l) 256) (s.ldBytes (sb + n * b.sR (g + 1) + scb * l) scb)
                  (b.sR (g + 4) + v * vstride) kk e l acc).1)
                (if bit w.toNat 52 then Mem.rdN s.core.store (storeKey (issueCore x) (ob + 32 * n + 4 * v)) 4 else 0) % 2 ^ 32) ∧
          (∀ a, (∀ n, n < cols → a < storeKey (issueCore x) (ob + 32 * n) ∨ storeKey (issueCore x) (ob + 32 * n) + 4 * nv ≤ a) →
            Mem.rd t.core.store a = Mem.rd s.core.store a) ∧
          t = { s with core := { s.core with banks := t.core.banks, store := t.core.store, storeBad := t.core.storeBad, hlRest := t.core.hlRest },
                       mem := { s.mem with ts := t.mem.ts }, regs := t.regs, free := t.free }))

/-- R182, R188: VLD and LDS read the core store, VST and STS write it, at the address format L gives; a vector's disabled granules keep
their old bytes; the base register steps where post_inc is 1; no other byte and no other register changes.
R104, R107, R188: an access that is misaligned, beyond the store, or in a granule of another partition ends its Stroke: the context's bank
is free and no byte of the store has changed.
Where the spec is silent it rests on the model's choices of log entries 13 and 14. -/
def Obligations.CoreStoreAccess : Prop :=
  (∀ (s : State) (x : Issue) (w : Word) (b : Bank), Issues s x w b → legalL w = true →
    let a := b.lAddr w
    let p := b.pR (wPg w)
    let ends := fun (i : Issue → Word → Instr) (P : State → Bank → Prop) => ∃ t b', exec (i x w) s = .next t ∧ t.bank (issueKey x) = some b' ∧
      b'.pc = b.pc + 32 ∧ (∀ j, j ≠ issueKey x → t.bank j = s.bank j) ∧
      t = { s with core := { s.core with banks := t.core.banks, store := t.core.store, storeBad := t.core.storeBad } } ∧ P t b'
    (wOp w = 0x68 → a % 64 = 0 → StoreOpen s x b true [(a, 1024)] →
      ends .vld (fun t b' => t.core.store = s.core.store ∧
        (∀ i, i < 1024 → lane (b'.reg (.v (lReg w))) 8 i = if bit p (i / 2) then storeByte s x (a + i) else lane (b.vR (lReg w)) 8 i) ∧
        ∀ r, r ≠ .v (lReg w) → b'.reg r = b.stepped w r)) ∧
    (wOp w = 0x69 → a % 64 = 0 → StoreOpen s x b false [(a, 1024)] →
      ends .vst (fun t b' => (∀ r, b'.reg r = b.stepped w r) ∧
        (∀ i, i < 1024 → storeByte t x (a + i) = if bit p (i / 2) then lane (b.vR (lReg w)) 8 i else storeByte s x (a + i)) ∧
        ∀ c, c < storeKey (issueCore x) a ∨ storeKey (issueCore x) a + 1024 ≤ c → Mem.rd t.core.store c = Mem.rd s.core.store c)) ∧
    (Guarded b w → wOp w = 0x6A → bit w.toNat 47 = false → a % 8 = 0 → StoreOpen s x b true [(a, 8)] →
      ends .lds (fun t b' => t.core.store = s.core.store ∧
        (lSReg w ≠ 0 → b'.reg (.s (lSReg w)) = Mem.rdN s.core.store (storeKey (issueCore x) a) 8) ∧
        ∀ r, r ≠ .s (lSReg w) ∨ lSReg w = 0 → b'.reg r = b.stepped w r)) ∧
    (Guarded b w → wOp w = 0x6B → bit w.toNat 47 = false → a % 8 = 0 → StoreOpen s x b false [(a, 8)] →
      ends .sts (fun t b' => (∀ r, b'.reg r = b.stepped w r) ∧ Mem.rdN t.core.store (storeKey (issueCore x) a) 8 = b.sR (lSReg w) ∧
        ∀ c, c < storeKey (issueCore x) a ∨ storeKey (issueCore x) a + 8 ≤ c → Mem.rd t.core.store c = Mem.rd s.core.store c)) ∧
    (¬ Guarded b w → (wOp w = 0x6A → bit w.toNat 47 = false → ∃ t, exec (.lds x w) s = .next t ∧ Retires s t x b none 0 (b.pc + 32)) ∧
      (wOp w = 0x6B → bit w.toNat 47 = false → ∃ t, exec (.sts x w) s = .next t ∧ Retires s t x b none 0 (b.pc + 32)))) ∧
  (∀ (s : State) (x : Issue) (w : Word) (b : Bank), Issues s x w b → legalL w = true → Guarded b w → bit w.toNat 47 = false → b.dmas = [] →
    (b.lAddr w % 8 ≠ 0 ∨ storeSize x.tile < b.lAddr w + 8 ∨ s.granOwned x.tile x.core b.part (b.lAddr w) 8 = false) →
    (wOp w = 0x6A → ∃ t, exec (.lds x w) s = .next t ∧ t.bank (issueKey x) = none ∧ t.core.store = s.core.store ∧
      ∀ j, j ≠ issueKey x → t.bank j = s.bank j) ∧
    (wOp w = 0x6B → ∃ t, exec (.sts x w) s = .next t ∧ t.bank (issueKey x) = none ∧ t.core.store = s.core.store ∧
      ∀ j, j ≠ issueKey x → t.bank j = s.bank j))

/-- R189, R190, R225: DMA puts a strided copy at the end of its context's list, a copy from the core store with the bytes it reads there;
DMAW and FENCE pass at once where nothing that they wait for is outstanding, or else wait in the memory queue while their bundle goes
on.
R190: when the oldest DMA of a context from device local memory completes, every byte of its rows has reached the core store, the DMA
is off the list and its semaphore is incremented.
R162, R190: a DMAW at the head of a memory queue is over when, by a DMA's completion, no more DMAs than it allows are outstanding;
else it waits on. Registers and program counter do not change.
Where the spec is silent it rests on the model's choices of log entries 13, 15 and 56. -/
def Obligations.DmaMovesBytes : Prop :=
  (∀ (s : State) (x : Issue) (w : Word) (b : Bank), Issues s x w b → wVar w = false →
    let g := wf w 39 5
    let kind := wf w 52 4
    let dst := b.aR (wf w 48 4)
    let src := b.aR (wf w 44 4)
    let rows := b.sR g
    let n := b.sR (g + 1)
    let ds := b.sR (g + 2)
    let ss := b.sR (g + 3)
    let range := fun (a st : Nat) => (List.range rows).map (fun i => (a + i * st, n))
    (wOp w = 0x6C → wf w 0 23 = 0 → kind < 3 → g ≤ 28 → 0 < rows → 0 < n → dst % 64 = 0 → src % 64 = 0 → n % 64 = 0 →
      ds % 64 = 0 → ss % 64 = 0 → (bit w.toNat 24 = true → s.semOwned (wf w 25 14) b.part = true) → b.dmas.length < 16 →
      (kind = 0 → StoreOpen s x b false (range dst ds) ∧ ∀ i, i < rows → s.permit b.part (src + i * ss) n = true) →
      (kind = 1 → StoreOpen s x b true (range src ss) ∧ ∀ i, i < rows → s.permit b.part (dst + i * ds) n = true) →
      (kind = 2 → ∀ i, i < rows → s.permit b.part (src + i * ss) n = true ∧ s.permit b.part (dst + i * ds) n = true) →
      ∃ t b' m, exec (.dma x w) s = .next t ∧ GoesOn s t x b none ∧ t.bank (issueKey x) = some b' ∧ b'.dmas = b.dmas ++ [m] ∧
        m = ⟨kind, dst, src, rows, n, ds, ss, if bit w.toNat 24 then some (wf w 25 14) else none, bit w.toNat 23, m.data⟩ ∧
        (kind = 1 → ∀ i o, i < rows → o < n → m.data[i * n + o]? = some (storeByte s x (src + i * ss + o))) ∧
        t = { s with core := { s.core with banks := t.core.banks } }) ∧
    (wOp w = 0x6D → wf w 0 52 = 0 →
      ∃ t b', exec (.dmaw x w) s = .next t ∧ GoesOn s t x b none ∧ t.bank (issueKey x) = some b' ∧
        b'.queue = (if b.dmas.length ≤ wf w 52 4 then [] else [⟨x.slot, w, b.pc, b.s, b.a, b.v, b.p, [], [], 0, []⟩]) ∧ t = { s with core := { s.core with banks := t.core.banks } }) ∧
    (wOp w = 0x6E → wf w 0 56 = 0 →
      ∃ t b', exec (.fence x w) s = .next t ∧ GoesOn s t x b none ∧ t.bank (issueKey x) = some b' ∧
        b'.queue = (if b.dmas = [] ∧ (s.fab.out.all (fun o => decide (o.bank ≠ some (issueKey x)) || o.reg.isSome)) = true then []
          else [⟨x.slot, w, b.pc, b.s, b.a, b.v, b.p, [], [], 0, []⟩]) ∧
        t = { s with core := { s.core with banks := t.core.banks } })) ∧
  (∀ (s : State) (tile core bank : Nat) (b : Bank) (m : Dma) (rest : List Dma), tile < 8 → core < 16 → bank < 4 →
    s.bank (bankKey tile core bank) = some b → b.dmas = m :: rest → b.hold = .free → b.queue = [] → m.kind = 0 → 0 < m.rowBytes →
    m.rowBytes % 64 = 0 → m.rowBytes ≤ m.dstStride → (∀ j, j < m.lines → s.lineBad (m.line j).2 = false ∧ s.permit b.part (m.line j).2 64 = true) → s.mesh.failed = [] →
    (∀ q, m.sem = some q → s.semWaiters q = []) →
    ∃ t b', exec (.dmaComplete tile core bank) s = .next t ∧ t.bank (bankKey tile core bank) = some b' ∧ b'.dmas = rest ∧
      (∀ r, b'.reg r = b.reg r) ∧ b'.pc = b.pc ∧
      (∀ i o, i < m.rows → o < m.rowBytes →
        Mem.rd t.core.store (storeKey (16 * tile + core) (m.dst + i * m.dstStride + o)) = s.ldN (m.src + i * m.srcStride + o) 1) ∧
      (∀ q, t.semVal q = if m.sem = some q then min (s.semVal q + 1) (2 ^ 32 - 1) else s.semVal q) ∧
      (∀ j, j ≠ bankKey tile core bank → t.bank j = s.bank j) ∧
      t = { s with core := { s.core with banks := t.core.banks, store := t.core.store, storeBad := t.core.storeBad }, sem := t.sem, mem := { s.mem with ts := t.mem.ts }, regs := t.regs, free := t.free }) ∧
  (∀ (s : State) (tile core bank : Nat) (b : Bank) (m : Dma) (rest : List Dma) (e : QOp), tile < 8 → core < 16 → bank < 4 →
    s.bank (bankKey tile core bank) = some b → b.dmas = m :: rest → b.hold = .free → b.live = true → b.slot.isSome = true →
    s.issueOpen tile b.slot = true → b.issued = 0 → b.queue = [e] → e.slot = 3 → wOp e.word = 0x6D → m.sem = none → s.mesh.failed = [] →
    (∀ j, j < m.lines → s.dmaMay b.part m j = true) →
    ∃ t b', exec (.dmaComplete tile core bank) s = .next t ∧ t.bank (bankKey tile core bank) = some b' ∧ b'.dmas = rest ∧
      b'.queue = (if rest.length ≤ wf e.word 52 4 then [] else [e]) ∧ (∀ r, b'.reg r = b.reg r) ∧ b'.pc = b.pc ∧
      ∀ j, j ≠ bankKey tile core bank → t.bank j = s.bank j)

/-- R164: the first instruction of a bundle whose line is not in its bank's quarter of the instruction cache issues as any other does; the
line is then first in the quarter, which keeps the fifteen used last before it. The result is that of a hit, and only the tile store, the
meters and free values differ besides.
Where the spec is silent it rests on the model's choices of log entry 47. -/
def Obligations.FetchFillsCache : Prop :=
  ∀ (s : State) (x : Issue) (w : Word) (b : Bank), wOp w = 0x00 → wVar w = false → onlyBits w 0 = true →
    let line := (b.part, (s.progBase b.part + b.pc) / 1024)
    let q := NMap.get [] s.core.icache (issueKey x)
    q.contains line = false → Issues { s with core := { s.core with icache := NMap.put [] s.core.icache (issueKey x) [line] } } x w b →
    ∃ t b', exec (.nop x w) s = .next t ∧ t.bank (issueKey x) = some b' ∧ b'.pc = b.pc + 32 ∧ (∀ r, b'.reg r = b.reg r) ∧
      NMap.get [] t.core.icache (issueKey x) = (line :: q).take 16 ∧
      (∀ k, k ≠ issueKey x → NMap.get [] t.core.icache k = NMap.get [] s.core.icache k) ∧
      t = { s with core := { s.core with banks := t.core.banks, icache := t.core.icache }, mem := { s.mem with ts := t.mem.ts }, regs := t.regs, free := t.free }

/-- R191, R404: with no mesh link failed, RLD of an address at a package holds one LOAD outstanding for each of its lines, each to fill its line of the vector register.
R191, R403, R404: RST, RMST, RRED and RATOM send one request, with their lines, operands and operation, and hold it outstanding.
R558: RSEMP waits in the memory queue for the context's outstanding operations; with none it sends its post at once.
R203: a remote instruction that names device ID 0xFFFF, or, outside RMST, a multicast group ID, ends its Stroke and sends nothing. For a
group ID outside RMST the fault is the model's choice of log entry 73.
Where the spec is silent it rests on the model's choices of log entries 18 and 73. -/
def Obligations.RemoteRequests : Prop :=
  (∀ (s : State) (x : Issue) (w : Word) (b : Bank), Issues s x w b → wOp w = 0x70 → wVar w = false → onlyBits w (msk 35 17) = true →
    b.aR (rAg w) % 64 = 0 → b.aR (rAg w) / 2 ^ 48 < 0xF000 → s.mesh.failed = [] →
    ∃ t, exec (.rld x w) s = .next t ∧ GoesOn s t x b none ∧ t.fab.out.length = s.fab.out.length + rLines w ∧
      (∀ j, j < s.fab.out.length → t.fab.out[j]? = s.fab.out[j]?) ∧
      (∀ j, j < rLines w → ∃ o, t.fab.out[s.fab.out.length + j]? = some o ∧ o.type = 1 ∧ o.dev = b.aR (rAg w) / 2 ^ 48 ∧
        o.ga = b.aR (rAg w) / 2 ^ 48 * 2 ^ 48 + (b.aR (rAg w) + 64 * j) % 2 ^ 48 ∧ o.bank = some (issueKey x) ∧ o.reg = some (.v (rV w)) ∧ o.line = j ∧
        o.bytes = 64 ∧ o.pd = rPd w ∧ o.deadline = s.time.cnt + s.bound) ∧
      t = { s with core := { s.core with banks := t.core.banks }, fab := t.fab, regs := t.regs }) ∧
  (∀ (s : State) (x : Issue) (w : Word) (b : Bank), Issues s x w b → wVar w = false → Routable s (b.aR (rAg w) / 2 ^ 48 % 2 ^ 16) →
    let ga := b.aR (rAg w)
    let lines := leBytes (b.vR (rV w)) (64 * rLines w)
    let float := (remFloat (rFmt w) : Bool)
    (onlyBits w (msk 35 17) = true → ga % 64 = 0 →
      (wOp w = 0x71 → ga / 2 ^ 48 < 0xF000 → SendsRequest .rst s x w b 2 ga lines none (fun p => p.lines + 1 = rLines w)) ∧
      (wOp w = 0x72 → ga / 2 ^ 48 ≠ 0xFFFF → SendsRequest .rmst s x w b 3 ga lines none (fun p => p.lines + 1 = rLines w))) ∧
    (wOp w = 0x73 → onlyBits w (msk 31 25) = true → ga % 64 = 0 → ga / 2 ^ 48 < 0xF000 → (rFmt w = 0xC ∧ rRop w < 6 ∨ float = true ∧ rRop w < 3 ∧ s.copper b.part = false) →
      SendsRequest .rred s x w b 4 ga lines none (fun p => p.lines + 1 = rLines w ∧ p.rop = rRop w ∧ p.fmt = rFmt w)) ∧
    (wOp w = 0x74 → onlyBits w (msk 48 8 + msk 35 3 + msk 31 4 + msk 26 5 + (if rRop w = 2 then msk 21 5 else 0) + msk 15 6) = true → rRop w < 8 → ga / 2 ^ 48 < 0xF000 →
      (rW64 w = true ∨ rFmt w = 0xC ∨ float = true ∧ (rRop w < 3 ∨ 5 < rRop w) ∧ s.copper b.part = false) →
      ga % (if rW64 w then 8 else if rFmt w = 8 then 2 else 4) = 0 →
      (NMap.get [] (s.pruneHorizon (ga / 2 ^ 48)).fab.horizon (ga / 2 ^ 48)).length < 256 →
      SendsRequest .ratom s x w b 5 ga (leBytes (b.sR (rSa w)) 8 ++ leBytes (b.sR (rSb w)) 8) (some (.s (rSd w)))
        (fun p => p.rop = rRop w ∧ p.fmt = rFmt w ∧ p.w64 = rW64 w))) ∧
  (∀ (s : State) (x : Issue) (w : Word) (b : Bank), Issues s x w b → wOp w = 0x75 → wVar w = false →
    onlyBits w (msk 48 4 + msk 35 3 + msk 26 5) = true → b.aR (rAg w) / 2 ^ 48 < 0xF000 →
    (s.releaseOk (issueKey x) = true → Routable s (b.aR (rAg w) / 2 ^ 48 % 2 ^ 16) →
      SendsRequest .rsemp s x w b 6 (b.aR (rAg w)) (leBytes (b.sR (rSa w) % 2 ^ 32) 4) none (fun _ => True)) ∧
    (s.releaseOk (issueKey x) = false →
      ∃ t b', exec (.rsemp x w) s = .next t ∧ GoesOn s t x b none ∧ t.bank (issueKey x) = some b' ∧
        b'.queue = [⟨x.slot, w, b.pc, b.s, b.a, b.v, b.p, pdUse w, [], 0, []⟩] ∧ t = { s with core := { s.core with banks := t.core.banks } })) ∧
  (∀ (s : State) (x : Issue) (w : Word) (b : Bank), Issues s x w b → wVar w = false → b.dmas = [] →
    let dev := b.aR (rAg w) / 2 ^ 48
    let faults := fun (i : Issue → Word → Instr) => ∃ t, exec (i x w) s = .next t ∧ t.bank (issueKey x) = none ∧ t.fab.tx = s.fab.tx ∧
      ∀ j, j ≠ issueKey x → t.bank j = s.bank j
    (onlyBits w (msk 35 17) = true →
      (wOp w = 0x70 → 0xF000 ≤ dev → faults .rld) ∧ (wOp w = 0x71 → 0xF000 ≤ dev → faults .rst) ∧ (wOp w = 0x72 → dev = 0xFFFF → faults .rmst)) ∧
    (wOp w = 0x73 → onlyBits w (msk 31 25) = true → rFmt w = 0xC → rRop w < 6 → 0xF000 ≤ dev → faults .rred) ∧
    (wOp w = 0x74 → onlyBits w (msk 48 8 + msk 35 3 + msk 31 4 + msk 26 5 + msk 15 6) = true → rRop w < 8 → rRop w ≠ 2 → rFmt w = 0xC →
      0xF000 ≤ dev → faults .ratom) ∧
    (wOp w = 0x75 → onlyBits w (msk 48 4 + msk 35 3 + msk 26 5) = true → 0xF000 ≤ dev → faults .rsemp))

/-- R194, R195, R558: SEMW takes a unit of a non-zero semaphore, or registers at a zero one and holds the later bundles; SEMP posts once
nothing of its context is outstanding; SEMT takes a unit if there is one and says so; SEMR reads the value.
R194: an instruction on a semaphore its partition does not own, or that does not exist, ends its Stroke and changes no semaphore's value.
Where the spec is silent it rests on the model's choices of log entry 13. -/
def Obligations.CoreSemaphores : Prop :=
  (∀ (s : State) (x : Issue) (w : Word) (b : Bank), Issues s x w b → Guarded b w → s.semOwned (b.semIndex w) b.part = true →
    let q := b.semIndex w
    let n := if wRs2 w = 0 then wf w 14 18 else b.sR (wRs2 w)
    let rest := fun (t : State) => t = { s with core := { s.core with banks := t.core.banks }, sem := t.sem }
    (wOp w = 0x20 → legalSem w false false false = true →
      ∃ t b', exec (.semw x w) s = .next t ∧ GoesOn s t x b none ∧ t.bank (issueKey x) = some b' ∧ rest t ∧
        (if q ∈ b.grants then b'.hold = .free ∧ b'.grants = b.grants.erase q ∧ t.sem = s.sem
         else if s.semVal q = 0 then b'.hold = .semw q ∧ t.semWaiters q = s.semWaiters q ++ [.bank (issueKey x)] ∧ ∀ j, t.semVal j = s.semVal j
         else b'.hold = .free ∧ t.semVal q = s.semVal q - 1 ∧ (∀ j, j ≠ q → t.semVal j = s.semVal j) ∧ ∀ j, t.semWaiters j = s.semWaiters j)) ∧
    (wOp w = 0x21 → legalSem w false true (decide (wRs2 w = 0)) = true → s.releaseOk (issueKey x) = true → s.semWaiters q = [] →
      ∃ t, exec (.semp x w) s = .next t ∧ GoesOn s t x b none ∧ rest t ∧
        t.semVal q = (if n = 0 then s.semVal q else min (s.semVal q + n) (2 ^ 32 - 1)) ∧
        ∀ j, j ≠ q → t.semVal j = s.semVal j) ∧
    (wOp w = 0x21 → legalSem w false true (decide (wRs2 w = 0)) = true → s.releaseOk (issueKey x) = false →
      0 < n →
      ∃ t b', exec (.semp x w) s = .next t ∧ GoesOn s t x b none ∧ t.bank (issueKey x) = some b' ∧ t.sem = s.sem ∧ rest t ∧
        b'.hold = .semp q n) ∧
    (wOp w = 0x22 → legalSem w true false false = true → wf w 51 2 = 0 →
      ∃ t, exec (.semt x w) s = .next t ∧ GoesOn s t x b (some (.p (wRd w % 8), if s.semVal q = 0 then 0 else 2 ^ 512 - 1)) ∧ rest t ∧
        t.semVal q = s.semVal q - 1 ∧ ∀ j, j ≠ q → t.semVal j = s.semVal j) ∧
    (wOp w = 0x23 → legalSem w true false false = true →
      ∃ t, exec (.semr x w) s = .next t ∧ Retires s t x b (some (.s (wRd w), s.semVal q % 2 ^ 64)) 0 (b.pc + 32))) ∧
  (∀ (s : State) (x : Issue) (w : Word) (b : Bank), Issues s x w b → Guarded b w → s.semOwned (b.semIndex w) b.part = false → b.dmas = [] →
    legalSem w true false false = true →
    (wOp w = 0x22 → wf w 51 2 = 0 → ∃ t, exec (.semt x w) s = .next t ∧ t.bank (issueKey x) = none ∧ ∀ j, t.semVal j = s.semVal j) ∧
    (wOp w = 0x23 → ∃ t, exec (.semr x w) s = .next t ∧ t.bank (issueKey x) = none ∧ ∀ j, t.semVal j = s.semVal j))

/-- R195: a grant for a context that waits in SEMW on that semaphore ends its wait; for one that does not, and whose next Stroke
does not wait for it either, it is held in its bank. Either way it is no longer on its way. No other context has work queued.
R196: IKC and QLC hand the 64 bytes at their address to the Inkwell controller or Quill they name, at the end of its queue; COLL hands
a Copperplate launch that is ahead of its order to its collective engine, which holds it.
Where the spec is silent it rests on the model's choices of log entry 13. -/
def Obligations.EngineCommandsAndGrants : Prop :=
  (∀ (s : State) (i k q : Nat) (b : Bank), s.sem.grants[i]? = some ⟨q, .bank k⟩ → s.bank k = some b →
    ((b.hold = .semw q ∧ b.slot.isSome = true) ∨ s.waitingSlot k q b = none) →
    Unqueued s →
    ∃ t b', exec (.semaphoreGrant i) s = .next t ∧ t.sem.grants = s.sem.grants.eraseIdx i ∧ t.bank k = some b' ∧
      (if b.hold = .semw q ∧ b.slot.isSome then b' = { b with hold := .free } ∧ ∀ j, Waiter.bank k ∈ t.semWaiters j → j ≠ q
       else b' = { b with grants := b.grants ++ [q] }) ∧
      (∀ j, t.semVal j = s.semVal j) ∧ (∀ j, j ≠ k → t.bank j = s.bank j) ∧
      t = { s with core := { s.core with banks := t.core.banks }, sem := t.sem }) ∧
  (∀ (s : State) (x : Issue) (w : Word) (b : Bank), Issues s x w b → wVar w = false → wf w 0 29 = 0 →
    let a := b.aR (wf w 48 4)
    let r := b.aR (wf w 44 4)
    let n := eTarget w
    a % 64 = 0 → r % 32 = 0 → (∀ q, eSem w = some q → s.semOwned q b.part = true) → StoreOpen s x b true [(a, 64)] → StoreOpen s x b false [(r, 32)] → s.mesh.failed = [] →
    let cmd : EngCmd := { raw := Mem.rdN s.core.store (storeKey (issueCore x) a) 64, part := b.part, ctx := b.ctx, tag := b.d.tag, core := issueCore x, res := r, sem := eSem w }
    (wOp w = 0x79 → n < 8 → s.tilePresent n = true →
      ∃ t, exec (.ikc x w) s = .next t ∧ GoesOn s t x b none ∧ t.inkQueue n = s.inkQueue n ++ [cmd] ∧ (∀ j, j ≠ n → t.inkQueue j = s.inkQueue j) ∧
        t = { s with core := { s.core with banks := t.core.banks }, srv := { s.srv with ink := t.srv.ink } }) ∧
    (wOp w = 0x7A → n < 4 → s.quillPresent n = true → s.quillFenced n = false → (s.quillQueue n).length < 64 →
      ∃ t, exec (.qlc x w) s = .next t ∧ GoesOn s t x b none ∧ t.quillQueue n = s.quillQueue n ++ [cmd] ∧ (∀ j, j ≠ n → t.quillQueue j = s.quillQueue j) ∧
        t = { s with core := { s.core with banks := t.core.banks }, srv := { s.srv with quill := t.srv.quill } }) ∧
    (wOp w = 0x78 → n < 10 → s.tilePresent n = true → s.colFenced n = false → s.copper b.part = true →
      s.rd (Reg.COL_ORDER.next_order b.part) < clOrder cmd.raw →
      ∃ t c, exec (.coll x w) s = .next t ∧ GoesOn s t x b none ∧ t.col.colls = s.col.colls ++ [c] ∧ c.cmd = cmd ∧ c.die = n ∧ c.part = b.part ∧
        c.started = false ∧ c.since = s.time.cnt ∧ t = { s with core := { s.core with banks := t.core.banks }, col := { s.col with colls := t.col.colls } }))

/-- R9, R12, R13, R552: a 64-bit write to a register takes effect whole and at once, by the access codes of its fields: RW fields are
stored, ones clear W1C fields, SH fields go to the shadow copy and the live value stays; RO and reserved bits are not stored. A write of two
halves takes effect at its high half, as one write of both. A write that sets a bit which must be zero changes no register but the
fault unit's.
Where the spec is silent it rests on the model's choices of log entries 10 and 63. -/
def Obligations.RegisterWrite : Prop :=
  ∀ (s : State) (req off : Nat) (v : Word) (r : RegRow), PlainRegister s off r → r.width = 64 →
    (∀ b, blockOf off = some b → s.on (blkPending b.1) = false) →
    let rest := fun (t : State) => t = { s with regs := t.regs, shadow := t.shadow, bus := t.bus }
    (Nat.land v.toNat r.zero = 0 →
      ∃ t, exec (.registerWrite req off 0xFF v) s = .next t ∧ Written s t off r v ∧ (blockOf off ≠ none → Shadowed s t off r v) ∧
        t.bus = s.bus ∧ rest t) ∧
    (∃ t, exec (.registerWrite req off 0x0F v) s = .next t ∧ t.regs = s.regs ∧ t.shadow = s.shadow ∧ rest t ∧
      ∀ w : Word, Nat.land (v.toNat % 2 ^ 32 + w.toNat / 2 ^ 32 * 2 ^ 32) r.zero = 0 →
        ∃ u, exec (.registerWrite req off 0xF0 w) t = .next u ∧
          Written s u off r (BitVec.ofNat 64 (v.toNat % 2 ^ 32 + w.toNat / 2 ^ 32 * 2 ^ 32)) ∧
          (blockOf off ≠ none → Shadowed s u off r (BitVec.ofNat 64 (v.toNat % 2 ^ 32 + w.toNat / 2 ^ 32 * 2 ^ 32))) ∧ rest u) ∧
    (Nat.land v.toNat r.zero ≠ 0 →
      ∃ t, exec (.registerWrite req off 0xFF v) s = .next t ∧ Raised s t ⟨0x2001, 0x40, if 0x2000000 ≤ off ∧ off < 0xA000000 then (off - 0x2000000) / 0x1000000 else 8, if 0x2000000 ≤ off ∧ off < 0xA000000 then (off - 0x2000000) / 0x1000000 else 8, 0, 1, 0, 0, off⟩)

/-- R9, R12: of a register as its unit has it at the read (a core's conflict count is free as it is read, log entry 80; no other register
differs from its stored value), a read of a whole register returns its value and clears its RC fields. A read of its low word does the same and latches the
high word, which the next read of the high word by that requester returns, with no read effect; with no latch that read returns the high
word as it stands and clears the RC fields of the high word alone.
R10, R471, R474: a read that does not cover whole aligned words returns zero, clears nothing and is recorded: where the manager ring
is enabled, reachable and has room, the record stands in host memory at the ring's next position and the written count has moved past it.
Where the spec is silent it rests on the model's choices of log entries 10 and 80. -/
def Obligations.RegisterRead : Prop :=
  (∀ (s : State) (req off : Nat) (r : RegRow), PlainRegister s off r → s.formed off = none →
    let rest := fun (s t : State) => t = { s with regs := t.regs, bus := t.bus }
    let s1 := s.conflicts off
    (OnlyRegs s s1 [off] ∧ s1 = { s with regs := s1.regs, free := s1.free } ∧
      ((off < 0x2000000 ∨ 0xA000000 ≤ off ∨ off % 0x1000000 < 0x1800 ∨ 0x1880 ≤ off % 0x1000000) → s1 = s)) ∧
    (∃ t, exec (.rcRead req off) s = .next t ∧ ReadsAs s1 off r t.bus.rdata ∧ RcCleared s1 t off r 0 ∧ t.bus = { s.bus with rdata := t.bus.rdata } ∧
      rest s1 t) ∧
    (r.width = 64 →
      (∃ t v, exec (.lowWordRead req off) s = .next t ∧ ReadsAs s1 off r v ∧ t.bus.rdata = v &&& 0xFFFFFFFF ∧ RcCleared s1 t off r 0 ∧ rest s1 t ∧
        ∀ u : State, u.pins.stopped = false → u.bus.latch = t.bus.latch →
          ∃ u', exec (.highWordRead req off) u = .next u' ∧ u'.bus.rdata = v >>> 32 ∧ u'.regs = u.regs ∧ u'.latchAt req (off + 4) = none ∧
            rest u u') ∧
      (s.latchAt req (off + 4) = none →
        ∃ t v, exec (.highWordRead req off) s = .next t ∧ ReadsAs s1 off r v ∧ t.bus.rdata = v >>> 32 ∧ RcCleared s1 t off r 32 ∧ rest s1 t))) ∧
  (∀ (s : State) (off pasid : Nat), s.pins.stopped = false →
    (∃ t u, exec (.narrowRead off) s = .next t ∧ t.bus.rdata = 0 ∧ t = { u with bus := { u.bus with rdata := 0 } } ∧
      Raised s u ⟨0x2001, 0x40, if 0x2000000 ≤ off ∧ off < 0xA000000 then (off - 0x2000000) / 0x1000000 else 8, if 0x2000000 ≤ off ∧ off < 0xA000000 then (off - 0x2000000) / 0x1000000 else 8, 0, 1, 0, 0, off⟩) ∧
    (s.flt.everEnabled = true → s.ringOn 64 = some pasid → s.hostUp = true → off < 0x2000000 → (s.ring 64).lost = 0 →
      (s.ring 64).written < 2 ^ 64 - 1 → (s.ring 64).read ≤ (s.ring 64).written →
      (s.ring 64).written - (s.ring 64).read < 2 ^ (s.ringInfo 64).2.2.1 →
      let base := (s.ringInfo 64).1
      let at_ := base + 64 + 32 * ((s.ring 64).written % 2 ^ (s.ringInfo 64).2.2.1)
      base + 64 + 32 * 2 ^ 16 < 2 ^ 64 →
      ∃ t, exec (.narrowRead off) s = .next t ∧ (t.ring 64).written = (s.ring 64).written + 1 ∧
        Mem.rdN t.host (hostKey pasid base) 8 = (s.ring 64).written + 1 ∧
        Mem.rdN t.host (hostKey pasid at_) 2 = 0x2001 ∧ Mem.rd t.host (hostKey pasid (at_ + 2)) = 0x40 ∧
        Mem.rdN t.host (hostKey pasid (at_ + 16)) 8 = s.tickNum % 2 ^ 64 ∧ Mem.rdN t.host (hostKey pasid (at_ + 24)) 8 = off ∧
        t.rd Reg.FLT_STAT.dropped = s.rd Reg.FLT_STAT.dropped))

/-- R75, R56: a write of TICK_SWITCH arms the image of its slot when its header is valid, its target is aligned and far enough ahead, its
slot is not active, every valid cell's slot is a multiple of its period, and none is armed; nothing but the armed image, the written
register and its armed flag changes.
R75: a switch whose target is misaligned, too near, into the active slot, or without a valid header is refused with its reason and a
record, and arms nothing.
Where the spec is silent it rests on the model's choices of log entry 19. -/
def Obligations.ImageSwitch : Prop :=
  (∀ (s : State) (v : Nat), v < 2 ^ 64 →
    let slot := bits v 63 1
    let target := bits v 0 63
    let base := s.rd (Reg.TICK_DUCTUS_BASE.base slot)
    let h := s.ldN base 64
    let code := bits h 40 3
    let progs := bits h 48 11 + 1
    let size := bits h 64 32
    let dir := bits h 96 32
    let n := s.rd Reg.TICK_STAT.period_code
    s.permit 0x40 base 64 = true → bits h 0 32 = 0x44554354 → bits h 32 8 = 1 → code ≤ 4 → 163840 % (progs * 2 ^ code) = 0 → dir % 128 = 0 →
    dir + 128 * progs ≤ size → target % 2 ^ max n code = 0 →
    (if s.on Reg.TICK_STAT.running = true then s.tickNum + 2 * 2 ^ n else s.tickNum + 32) ≤ target →
    (∀ a, s.tick.image = some a → a.slot ≠ slot) → (∀ c, c ∈ s.validCells → s.cellTicks c % 2 ^ code = 0) → s.tick.armed = none →
    ∃ t, exec (.tickSwitch v) s = .next t ∧ t.tick = { s.tick with armed := some ⟨slot, target, base, code, progs, size, dir⟩ } ∧
      t.on Reg.TICK_SWITCH_STAT.armed = true ∧ t.reg Reg.TICK_SWITCH.all.off = BitVec.ofNat 64 v ∧
      t.rd Reg.TICK_SWITCH_STAT.refused = s.rd Reg.TICK_SWITCH_STAT.refused ∧
      t.rd Reg.TICK_SWITCH_STAT.reason = s.rd Reg.TICK_SWITCH_STAT.reason ∧
      OnlyRegs s t [Reg.TICK_SWITCH.all.off, Reg.TICK_SWITCH_STAT.all.off] ∧ t = { s with regs := t.regs, tick := t.tick }) ∧
  (∀ (s : State) (v : Nat), v < 2 ^ 64 →
    let slot := bits v 63 1
    let target := bits v 0 63
    let img := s.header slot target (s.rd (Reg.TICK_DUCTUS_BASE.base slot))
    let n := s.rd Reg.TICK_STAT.period_code
    let near := if s.on Reg.TICK_STAT.running = true then s.tickNum + 2 * 2 ^ n else s.tickNum + 32
    let aligned := target % 2 ^ (match img with | some i => max n i.code | none => n) = 0
    let refused := fun (r : Nat) => ∃ t u, exec (.tickSwitch v) s = .next t ∧ t.on Reg.TICK_SWITCH_STAT.refused = true ∧
      t.rd Reg.TICK_SWITCH_STAT.reason = r ∧ t.tick = s.tick ∧ t.rd Reg.TICK_SWITCH_STAT.armed = s.rd Reg.TICK_SWITCH_STAT.armed ∧
      u = { s with regs := u.regs } ∧ OnlyRegs s u [Reg.TICK_SWITCH.all.off, Reg.TICK_SWITCH_STAT.all.off] ∧
      Raised u t ⟨0x2002, 0x40, 8 + s.rd Reg.TICK_STAT.active_unit, 0, 0, 1, 0, 0x3FF, 0⟩
    (¬ aligned → refused 2) ∧
    (aligned → target < near → refused 1) ∧
    (aligned → near ≤ target → (∃ a, s.tick.image = some a ∧ a.slot = slot) → refused 3) ∧
    (aligned → near ≤ target → (∀ a, s.tick.image = some a → a.slot ≠ slot) → img = none → refused 4) ∧
    (∀ i c, aligned → near ≤ target → (∀ a, s.tick.image = some a → a.slot ≠ slot) → img = some i → c ∈ s.validCells →
      s.cellTicks c % 2 ^ i.code ≠ 0 → refused 7) ∧
    (∀ i, aligned → near ≤ target → (∀ a, s.tick.image = some a → a.slot ≠ slot) → img = some i →
      (∀ c, c ∈ s.validCells → s.cellTicks c % 2 ^ i.code = 0) → s.tick.armed ≠ none → refused 5))

/-- R77, R85: run = 1 with a switch armed ahead makes the tick unit start, and with none is discarded and recorded; run = 0 while it runs
makes it stop at its next edge instant, where the record of the last tick is written; a switch whose target passes while it is stopped
is withdrawn with reason 6.
Where the spec is silent it rests on the model's choices of log entries 7, 19 and 65. -/
def Obligations.TickUnitRunsAndStops : Prop :=
  ∀ (s : State),
    let rest := fun (t : State) => OnlyRegs s t [Reg.TICK_CTRL.all.off] ∧ t = { s with regs := t.regs, tick := t.tick }
    (∀ i, s.on Reg.TICK_STAT.running = false → s.tick.armed = some i → s.tickNum < i.target →
      ∃ t, exec .tickRun s = .next t ∧ t.on Reg.TICK_CTRL.run = true ∧ t.tick = { s.tick with stopping := false, starting := true } ∧ rest t) ∧
    (s.on Reg.TICK_STAT.running = false → s.tick.armed = none →
      ∃ t, exec .tickRun s = .next t ∧ t.tick = s.tick ∧ Raised s t ⟨0x2001, 0x40, 8, 8, 0, 1, 0, 0, Reg.TICK_CTRL.all.off⟩) ∧
    (s.on Reg.TICK_STAT.running = true →
      ∃ t, exec .tickStop s = .next t ∧ t.on Reg.TICK_CTRL.run = false ∧ t.tick = { s.tick with stopping := true } ∧ rest t) ∧
    (s.on Reg.TICK_STAT.running = true → s.tick.stopping = true → s.tick.prog = [] → s.on Reg.TICK_REC_CFG.enable = false →
      ∃ t, exec .tickUnitStopped s = .next t ∧ t.on Reg.TICK_STAT.running = false ∧ t.tick.stopping = false ∧
        Reached s t (s.tickInstant (s.rd Reg.TICK_NUM.tick_num + 2 ^ s.rd Reg.TICK_STAT.period_code)) ∧
        OnlyRegs s t [Reg.TICK_STAT.all.off] ∧ t = { s with regs := t.regs, tick := t.tick, time := t.time, fab := { s.fab with touched := [] } }) ∧
    (∀ pasid, s.on Reg.TICK_STAT.running = true → s.tick.stopping = true → s.tick.prog = [] → s.on Reg.TICK_REC_CFG.enable = true →
      4 ≤ s.rd Reg.TICK_REC_CFG.log2_entries → s.rd Reg.TICK_REC_CFG.log2_entries ≤ 16 → s.mgrPasid = some pasid → s.hostUp = true →
      s.rd Reg.TICK_REC_BASE.iova + 32 * 2 ^ 16 < 2 ^ 64 →
      let at_ := hostKey pasid (s.rd Reg.TICK_REC_BASE.iova + 32 * (s.rd Reg.TICK_REC_HEAD.written % 2 ^ s.rd Reg.TICK_REC_CFG.log2_entries))
      ∃ t, exec .tickUnitStopped s = .next t ∧ t.on Reg.TICK_STAT.running = false ∧
        Mem.rdN t.host at_ 8 = s.rd Reg.TICK_NUM.tick_num ∧ Mem.rdN t.host (at_ + 8) 2 = min s.tick.record.started 65535 ∧
        Mem.rdN t.host (at_ + 10) 2 = min s.tick.record.halted 65535 ∧ Mem.rdN t.host (at_ + 12) 2 = min s.tick.record.paused 65535 ∧
        t.rd Reg.TICK_REC_HEAD.written = (s.rd Reg.TICK_REC_HEAD.written + 1) % 2 ^ 32 ∧
        ∀ a, a < at_ ∨ at_ + 32 ≤ a → Mem.rd t.host a = Mem.rd s.host a) ∧
    (∀ i, s.tick.armed = some i → s.on Reg.TICK_STAT.running = false → s.tick.starting = false →
      ∃ t u, exec .switchTargetPassed s = .next t ∧ t.tick = { s.tick with armed := none } ∧ t.on Reg.TICK_SWITCH_STAT.armed = false ∧
        t.on Reg.TICK_SWITCH_STAT.refused = true ∧ t.rd Reg.TICK_SWITCH_STAT.reason = 6 ∧ Reached s t (s.tickInstant i.target) ∧
        u = { s with regs := u.regs, tick := t.tick, time := t.time } ∧ OnlyRegs s u [Reg.TICK_SWITCH_STAT.all.off] ∧
        Raised u t ⟨0x2002, 0x40, 8 + s.rd Reg.TICK_STAT.active_unit, 0, 0, 1, 0, 0x3FF, 0⟩)

/-- R81: a COMMIT or REVERT is refused, with its fault record, and leaves the pending operation as it was, where the generation is not the one
it must name, where an operation of the block is pending, and, for a REVERT, where the block has no previous generation; so is a write of a
block's BLK_COMMIT whose op is 0b00 or 0b11. -/
def Obligations.CommitRefused : Prop :=
  ∀ (s : State) (b : Nat), b ∈ blocks.map Prod.fst →
    let refused := fun (c : Instr) => ∃ t u, exec c s = .next t ∧ t.on (blkRefused b) = true ∧ t.rd (blkPending b) = s.rd (blkPending b) ∧
      t.rd (blkRevert b) = s.rd (blkRevert b) ∧ t.rd (blkGen b) = s.rd (blkGen b) ∧ t.tick = s.tick ∧ t.shadow = s.shadow ∧ t.prev = s.prev ∧
      u = { s with regs := u.regs } ∧ OnlyRegs s u [b + 0xFFF08] ∧
      Raised u t ⟨0x2003, 0x40, 8 + s.rd Reg.TICK_STAT.active_unit, 0, 0, 1, 0, 0, 0⟩
    (∀ gen, gen < 2 ^ 30 → gen ≠ (s.rd (blkGen b) + 1) % 2 ^ 30 ∨ s.on (blkPending b) = true → refused (.commit b gen)) ∧
    (∀ gen, gen < 2 ^ 30 → gen ≠ s.rd (blkGen b) ∨ s.on (blkPending b) = true ∨ s.on (blkPrev b) = false → refused (.revert b gen)) ∧
    (∀ req (v : Word), bits v.toNat 30 2 = 0 ∨ bits v.toNat 30 2 = 3 → s.pins.stopped = false → s.deadTile (b + 0xFFF00) = false →
      refused (.registerWrite req (b + 0xFFF00) 0x0F v))

/-- R79 to R83: COMMIT of the next generation and REVERT of the live one are accepted where nothing of the block is pending, and change no
live field. While the tick unit is stopped a pending COMMIT of the TICK block makes its shadow
copy live and keeps the old values as the previous generation, and a REVERT brings those back.
Where the spec is silent it rests on the model's choices of log entries 22 and 23. -/
def Obligations.CommitAndRevert : Prop :=
  ∀ (s : State) (b gen : Nat), b ∈ blocks.map Prod.fst → gen < 2 ^ 30 → s.on (blkPending b) = false →
    let rest := fun (t : State) => OnlyRegs s t [b + 0xFFF08] ∧ t = { s with regs := t.regs, tick := t.tick }
    (gen = (s.rd (blkGen b) + 1) % 2 ^ 30 →
      ∃ t, exec (.commit b gen) s = .next t ∧ t.on (blkPending b) = true ∧ t.on (blkRevert b) = false ∧ t.on (blkRefused b) = false ∧
        t.rd (blkGen b) = s.rd (blkGen b) ∧ t.tick = { s.tick with ops := s.tick.ops ++ [(b, false)] } ∧ rest t) ∧
    (gen = s.rd (blkGen b) → s.on (blkPrev b) = true →
      ∃ t, exec (.revert b gen) s = .next t ∧ t.on (blkPending b) = true ∧ t.on (blkRevert b) = true ∧ t.on (blkRefused b) = false ∧
        t.rd (blkGen b) = s.rd (blkGen b) ∧ t.tick = { s.tick with ops := s.tick.ops ++ [(b, true)] } ∧ rest t) ∧
    (∀ back, s.on Reg.TICK_STAT.running = false → s.tick.ops = [(0x100000, back)] → s.part.ops = [] → s.flt.pendFence = [] → s.bus.shHeld = [] →
      (∀ e, e ∈ s.regs → e.1 < 0x200000) →
      ∃ t, exec .stoppedApply s = .next t ∧ t.tick.ops = [] ∧ t.on (blkPending 0x100000) = false ∧
        t.rd (blkGen 0x100000) = (s.rd (blkGen 0x100000) + 1) % 2 ^ 30 ∧ t.on (blkPrev 0x100000) = !back ∧
        (∀ o, o = Reg.TICK_REC_BASE.all.off ∨ o = Reg.TICK_REC_CFG.all.off →
          t.reg o = (if back then s.prevReg o else s.shadowReg o) ∧ (back = false → t.prevReg o = s.reg o) ∧
          (back = true → t.shadowReg o = s.prevReg o)) ∧
        ∀ o, o ≠ Reg.TICK_REC_BASE.all.off → o ≠ Reg.TICK_REC_CFG.all.off → o ≠ 0x1FFF08 → t.reg o = s.reg o)

/-- R73, R56, R60, R62: at an edge with nothing queued on a core TICK_NUM moves on by the tick's length, and every tile present takes the program of the active image for
that tick: its static non-radio Strokes have their windows at the offsets of their descriptors from the edge cycle. R514: the top die of a compute tile with no Stroke in
that tick and no work pending is gated, that of one with a Stroke is not.
Where the spec is silent it rests on the model's choices of log entries 20 and 78. -/
def Obligations.TickEdgeLoadsPrograms : Prop :=
  ∀ (s : State) (i : Image) (l : Nat → List Desc), s.on Reg.TICK_STAT.running = true → s.tick.stopping = false → s.tick.image = some i →
    s.tick.armed = none → s.tick.ops = [] → s.tick.prog = [] → s.tick.carry = [] → s.part.ops = [] → s.part.armed = [] → s.flt.pendFence = [] →
    s.flt.gather = [] → s.mgt.pendPower = none → s.srv.reqs = [] → s.srv.loads = [] → s.srv.pendFree = [] → s.validCells = [] →
    s.on Reg.TICK_REC_CFG.enable = false → (∀ p, p < 64 → s.rd (Reg.PART_STAT.held p) = 0) →
    Unqueued s → s.mem.flushAt = [] →
    let num := s.rd Reg.TICK_NUM.tick_num + 2 ^ s.rd Reg.TICK_STAT.period_code
    let idx := num / 2 ^ i.code % i.progs
    num < 2 ^ 64 → i.progs ≤ 2048 → i.code ≤ 4 →
    (∀ n, n < 10 → s.readProg i idx n = .ok (l n)) →
    (∀ n d, d ∈ l n → d.dynamic = false ∧ d.radio = false ∧ s.descBad n i.code [] d = false) →
    ∃ t, exec (.tickEdge []) s = .next t ∧ t.rd Reg.TICK_NUM.tick_num = num ∧ t.on Reg.TICK_STAT.running = true ∧
      t.rd Reg.TICK_STAT.prog_index = idx ∧ Reached s t (s.tickInstant num) ∧ t.tick.edge = t.time.cnt ∧
      (∀ n, n < 10 → s.tilePresent n = true → t.tileProg n = (l n).map (fun d =>
        ⟨d, d.target, t.tick.edge + d.offset, t.tick.edge + d.offset + d.budget, if s.partState d.part = 1 then .closed else .spent, 0, false⟩)) ∧
      (∀ n, n < 8 → s.tilePresent n = true → l n ≠ [] → n ∉ t.tick.gated) ∧
      (∀ n, n < 8 → s.tilePresent n = true → l n = [] → s.core.banks = [] → s.fab.out = [] → s.srv.quill = [] → n ∈ t.tick.gated) ∧
      t.core = s.core ∧ t.mem = s.mem ∧ t.sem = s.sem ∧ t.host = s.host ∧ t.hq = s.hq ∧ t.eth = s.eth ∧ t.rad = s.rad ∧ t.col = s.col ∧
      (∀ o, (o < 0x400000 ∨ 0x500000 ≤ o) → o ≠ Reg.TICK_NUM.all.off → o ≠ Reg.TICK_STAT.all.off → t.reg o = s.reg o)

/-- R62, R64, R66, R67, R169: when the window of a Stroke on a usable core opens and a bank is free, the Stroke starts on it with its
argument in a0, TICK_NUM in s1 and every other register at zero (p0 reads as ones, R165); a RADIO Stroke in a lost slot is skipped. A RADIO Stroke that has not
exited by its issue-stop cycle, 256 cycles before its window closes, is halted, its bank freed and its slot lost; another one is paused and
its bank keeps its registers.
Where the spec is silent it rests on the model's choices of log entries 7, 12 and 20. -/
def Obligations.StrokeWindows : Prop :=
  ∀ (s : State) (n i k : Nat) (x : Slot), n < 8 → s.slotAt n i = some x → x.target < 16 →
    let d := x.d
    (x.phase = .closed → d.radio = false → s.targetUsable n x.target = true → s.homeCore n d.part d.ctx = none →
      s.ctxBank n x.target d.part d.ctx = none → s.freeBankOf n x.target d (NMap.get false s.tick.radioCores (16 * n + x.target)) = some k →
      d.waitEn = false → s.radioHolds n x.target (max s.time.cnt x.opens) = false → d.entry % 32 = 0 → d.entry < s.progSize d.part →
      (∀ y, y ∈ s.tileProg n → y.target = x.target → y = x ∨ y.phase = .spent) →
      ∃ t b, exec (.strokeWindowOpen n i) s = .next t ∧ t.time = { s.time with cnt := max s.time.cnt x.opens } ∧ t.bank k = some b ∧
        b.live = true ∧ b.slot = some i ∧ b.pc = d.entry ∧ b.part = d.part ∧ b.ctx = d.ctx ∧
        (∀ r, b.reg r = if r = .a 0 then d.arg else if r = .s 1 then t.tickNum % 2 ^ 64 else if r = .p 0 then 2 ^ 512 - 1 else 0) ∧
        t.slotAt n i = some { x with phase := .running, start := t.time.cnt } ∧ (∀ j, j ≠ k → t.bank j = s.bank j) ∧ t.regs = s.regs ∧
        t = { s with time := t.time, tick := t.tick, core := { s.core with banks := t.core.banks } }) ∧
    (x.phase = .closed → d.radio = true → d.slotFirst = false → s.targetUsable n x.target = true → s.cellLost d.cell = true → d.postEn = false →
      (∀ y, y ∈ s.tileProg n → y.target = x.target → y.phase = .closed ∨ y.phase = .spent) →
      ∃ t, exec (.strokeWindowOpen n i) s = .next t ∧ t.slotAt n i = some { x with phase := .spent } ∧
        t.rd Reg.TICK_CNT.skipped = min (s.rd Reg.TICK_CNT.skipped + 1) (2 ^ Reg.TICK_CNT.skipped.w - 1) ∧ t.core = s.core ∧
        OnlyRegs s t [Reg.TICK_CNT.all.off] ∧ t = { s with time := t.time, tick := t.tick, regs := t.regs }) ∧
    (∀ b, x.phase = .running → d.radio = true → d.waitEn = false → d.postEn = false → s.semWaiters d.waitSem = [] →
      s.ctxBank n x.target d.part d.ctx = some k → s.bank k = some b → b.dmas = [] → (∀ q, b.hold ≠ .semw q) →
      ∃ t, exec (.issueStop n i) s = .next t ∧ t.time = { s.time with cnt := max s.time.cnt (x.closes - 256) } ∧ t.bank k = none ∧
        (∀ j, j ≠ k → t.bank j = s.bank j) ∧ t.slotAt n i = some { x with phase := .spent } ∧ t.cellLost d.cell = true ∧
        t.rd Reg.TICK_CNT.halted = min (s.rd Reg.TICK_CNT.halted + 1) (2 ^ Reg.TICK_CNT.halted.w - 1) ∧ t.mem = s.mem ∧
        t.core.store = s.core.store ∧ ∀ q, t.semVal q = s.semVal q) ∧
    (∀ b, x.phase = .running → d.radio = false → s.ctxBank n x.target d.part d.ctx = some k → s.bank k = some b → (∀ q, b.hold ≠ .semw q) →
      ∃ t, exec (.issueStop n i) s = .next t ∧ t.time = { s.time with cnt := max s.time.cnt (x.closes - 256) } ∧ t.bank k = some { b with slot := none } ∧
        (∀ j, j ≠ k → t.bank j = s.bank j) ∧ t.slotAt n i = some { x with phase := .spent } ∧
        t.rd Reg.TICK_CNT.paused = min (s.rd Reg.TICK_CNT.paused + 1) (2 ^ Reg.TICK_CNT.paused.w - 1) ∧
        t = { s with time := t.time, tick := t.tick, core := { s.core with banks := t.core.banks }, regs := t.regs })

/-- R30, R108, R210, R215, R221 to R223, R515: what the memories and the mesh report: replays and a failed link, units and channels whose
zeroing or scrub has ended, a write-back that drops the lines of the ways taken away, a failed channel, which reads as poison, the errors a patrol scrub counts, once in a period, and the lines it poisons, self-refresh of a channel. Nothing
else changes.
R25, R26: a path of the mesh goes from its first tile to its last over links of the mesh, first along the row, then along the column; a
radio tile is entered and left through the P-tile of the other end's row next to it, and the two radio tiles meet over row 0.
R30: a line that a DMA loads from behind a failed mesh link is the error value 0xDEAD_DEAD throughout, with one fault record; the context
goes on.
Where the spec is silent it rests on the model's choices of log entries 56, 77, 90, 95 and 101. -/
def Obligations.MemoryEvents : Prop :=
  (∀ (s : State),
    (∀ link times, link < 14 → link ∉ s.mesh.failed → 0 < times → times ≤ 3 →
      ∃ t, exec (.meshReplay link times) s = .next t ∧ t.mesh.failed = (if times = 3 then s.mesh.failed ++ [link] else s.mesh.failed) ∧
        t.rd (Reg.FLT_CLASS_CNT.count 1) = min (s.rd (Reg.FLT_CLASS_CNT.count 1) + min times 2) (2 ^ 64 - 1) ∧
        t.rd (Reg.FLT_CLASS_CNT.count 8) = min (s.rd (Reg.FLT_CLASS_CNT.count 8) + if times = 3 then 1 else 0) (2 ^ 64 - 1) ∧
        t.core = s.core ∧ t.mem = s.mem ∧ ∀ o, (o < 0x500010 ∨ 0x500180 ≤ o) → o ≠ Reg.HQ_LINK.up.off → t.reg o = s.reg o) ∧
    (∀ kind i, s.part.zeroWait = [] → s.fab.held = [] → Unqueued s →
      ∃ t, exec (.zeroingComplete kind i) s = .next t ∧ (∀ u, u ∈ t.core.zeroing ↔ u ∈ s.core.zeroing ∧ u ≠ (kind, i)) ∧
        t = { s with core := { s.core with zeroing := t.core.zeroing } }) ∧
    (∀ kind i p, p < 64 → s.part.zeroWait = [(p, [(kind, i)])] → s.fab.held = [] → Unqueued s →
      ∃ t, exec (.zeroingComplete kind i) s = .next t ∧ t.part.zeroWait = [] ∧
        t.partState p = (if s.partState p = 4 then 3 else 0) ∧ OnlyRegs s t [(Reg.PART_STAT.all p).off]) ∧
    (∀ kind i q (p : Packet), s.part.zeroWait = [] → s.fab.held = [(p, false)] → Unqueued s → p.type = 2 → s.fabPart p = some q → Routable s p.src →
      let a := p.addr / 64 * 64
      (ZeroDone s kind i).pktHeld p = false → (ZeroDone s kind i).permit q a p.payload.length = true → Live s a p.payload.length →
      ∃ t, exec (.zeroingComplete kind i) s = .next t ∧ t.fab.held = [] ∧ Stored s t a p.payload ∧ Sends s t (Answers s p 0x82 0 []) ∧
        t.core = (ZeroDone s kind i).core ∧ t.sem = s.sem ∧ t.part = s.part) ∧
    (∀ ch, ch < 512 → s.part.zeroWait = [] → s.on (Reg.TILE_CHAN_STAT.scrubbing (chanTile ch) (ch - firstChan (chanTile ch))) = true →
      ∃ t, exec (.channelScrubComplete ch) s = .next t ∧
        t.on (Reg.TILE_CHAN_STAT.scrubbing (chanTile ch) (ch - firstChan (chanTile ch))) = false ∧
        t.time = { s.time with cnt := max s.time.cnt (NMap.get 0 s.mem.scrubAt ch + 67108864) } ∧ t.mem.bytes = s.mem.bytes ∧
        OnlyRegs s t [(Reg.TILE_CHAN_STAT.all (chanTile ch) (ch - firstChan (chanTile ch))).off] ∧
        t = { s with regs := t.regs, mem := t.mem, time := t.time }) ∧
    (∀ n, n < 8 → NMap.find s.mem.flushAt n = none → exec (.wayWriteBackComplete n) s = .next s) ∧
    (∀ n, n < 8 → (NMap.find s.mem.flushAt n).isSome = true →
      ∃ t, exec (.wayWriteBackComplete n) s = .next t ∧ t.on (Reg.TILE_TS_STAT.flushing n) = false ∧
        (∀ e, e ∈ t.mem.ts ↔ e ∈ s.mem.ts ∧ ¬ (e.1 / 16 / 98304 = n ∧ (n, s.keyOwner e.2.key, e.1 % 16) ∈ s.mem.flush)) ∧
        (∀ e, e ∈ t.mem.flush ↔ e ∈ s.mem.flush ∧ e.1 ≠ n) ∧ MetersAnd s t [(Reg.TILE_TS_STAT.all n).off] ∧
        t = { s with regs := t.regs, mem := { s.mem with ts := t.mem.ts, flush := t.mem.flush, flushAt := t.mem.flushAt } }) ∧
    (∀ ch, ch < 512 → s.chanPresent ch = true → s.on (Reg.TILE_CHAN_STAT.failed (chanTile ch) (ch - firstChan (chanTile ch))) = false →
      ∃ t u, exec (.hbmChanFail ch) s = .next t ∧ t.on (Reg.TILE_CHAN_STAT.failed (chanTile ch) (ch - firstChan (chanTile ch))) = true ∧
        (∀ a, isHbm a = true → (t.decodeHbm a).1 = ch → t.lineBad a = true) ∧
        u = { s with regs := u.regs } ∧ OnlyRegs s u [(Reg.TILE_CHAN_STAT.all (chanTile ch) (ch - firstChan (chanTile ch))).off] ∧
        Raised u t ⟨0x8002, 0x7F, chanTile ch, ch - firstChan (chanTile ch), 0, 1, 0, 0, ch * 0xC0000000⟩) ∧
    (∀ ch ce odecc ue, ch < 512 → s.chanPresent ch = true → s.patrolDue ch = false →
      ∃ t, exec (.patrolScrub ch ce odecc ue 0 []) s = .next t ∧ t.mem = s.mem ∧ ∀ o, t.reg o = s.reg o) ∧
    (∀ ch ce odecc, ch < 512 → s.chanPresent ch = true → s.patrolDue ch = true →
      ∃ t, exec (.patrolScrub ch ce odecc [] 0 []) s = .next t ∧ t.mem = { s.mem with patrolAt := t.mem.patrolAt } ∧ t.patrolDue ch = false ∧
        t.rd (Reg.TILE_CHAN_ERR.ce (chanTile ch) (ch - firstChan (chanTile ch))) =
          min (s.rd (Reg.TILE_CHAN_ERR.ce (chanTile ch) (ch - firstChan (chanTile ch))) + ce) 65535 ∧
        t.rd (Reg.TILE_CHAN_ERR.odecc (chanTile ch) (ch - firstChan (chanTile ch))) =
          min (s.rd (Reg.TILE_CHAN_ERR.odecc (chanTile ch) (ch - firstChan (chanTile ch))) + odecc) 65535 ∧
        t.rd (Reg.TILE_CHAN_ERR.ue (chanTile ch) (ch - firstChan (chanTile ch))) =
          s.rd (Reg.TILE_CHAN_ERR.ue (chanTile ch) (ch - firstChan (chanTile ch)))) ∧
    (∀ ch off, ch < 512 → off < 0xC0000000 → s.chanPresent ch = true → s.patrolDue ch = true →
      ∃ t, exec (.patrolScrub ch 0 0 [off] 0 []) s = .next t ∧ t.mem.bytes = s.mem.bytes ∧
        (∀ k, NMap.get false t.mem.bad k = (decide (k = (ch * 0xC0000000 + off) / 64) || NMap.get false s.mem.bad k)) ∧
        t.rd (Reg.TILE_CHAN_ERR.ue (chanTile ch) (ch - firstChan (chanTile ch))) =
          min (s.rd (Reg.TILE_CHAN_ERR.ue (chanTile ch) (ch - firstChan (chanTile ch))) + 1) 65535) ∧
    (∀ ch enter, s.rd Reg.MGT_STAT.state = 1 → s.chanPresent ch = true →
      ∃ t, exec (.hbmSelfRefresh ch enter) s = .next t ∧ NMap.get false t.mgt.selfRefresh ch = enter ∧
        (∀ j, j ≠ ch → NMap.get false t.mgt.selfRefresh j = NMap.get false s.mgt.selfRefresh j) ∧
        t = { s with mgt := { s.mgt with selfRefresh := t.mgt.selfRefresh } })) ∧
  ((∀ a b, a < 10 → b < 10 → (meshNodes a b).head? = some a ∧ (meshNodes a b).getLast? = some b ∧
    (meshNodes a b).length = (meshPath a b).length + 1 ∧
    ∀ e, e ∈ (meshNodes a b).zip (meshNodes a b).tail → e ∈ meshLinks ∨ (e.2, e.1) ∈ meshLinks) ∧
  meshNodes 0 7 = [0, 4, 5, 7] ∧ meshNodes 7 0 = [7, 6, 2, 0] ∧ meshNodes 1 6 = [1, 5, 4, 6] ∧ meshNodes 8 7 = [8, 2, 6, 7] ∧ meshNodes 5 9 = [5, 1, 9] ∧
  meshNodes 8 9 = [8, 0, 4, 5, 1, 9] ∧ meshNodes 9 8 = [9, 1, 5, 4, 0, 8]) ∧
  (∀ (s : State) (tile core bank : Nat) (b : Bank) (m : Dma) (rest : List Dma), tile < 8 → core < 16 → bank < 4 →
    s.bank (bankKey tile core bank) = some b → b.dmas = m :: rest → b.hold = .free → b.queue = [] → m.kind = 0 → m.rows = 1 → m.rowBytes = 64 →
    m.src % 64 = 0 → m.sem = none → s.permit b.part m.src 64 = true → addrNode m.src < 10 → s.meshLost tile m.src = true →
    ∃ t b', exec (.dmaComplete tile core bank) s = .next t ∧ t.bank (bankKey tile core bank) = some b' ∧ b'.dmas = rest ∧
      (∀ i, i < 16 → Mem.rdN t.core.store (storeKey (16 * tile + core) (m.dst + 4 * i)) 4 = 0xDEADDEAD) ∧
      t.rd (Reg.FLT_CLASS_CNT.count 8) = min (s.rd (Reg.FLT_CLASS_CNT.count 8) + 1) (2 ^ 64 - 1) ∧ t.mem.bytes = s.mem.bytes ∧
      (∀ r, b'.reg r = b.reg r) ∧ b'.pc = b.pc ∧ ∀ j, j ≠ bankKey tile core bank → t.bank j = s.bank j)

/-- R368: TIME_RATE is limited to 28,147,497,671 either way: a value beyond the limit is stored as the nearer limit and sets rate_clamped, one
within it is stored as it is; either takes effect without a jump of time. -/
def Obligations.TimeRateLimited : Prop :=
  ∀ (s : State) (v : Nat), v < 2 ^ 36 → s.rd Reg.TIME_CTRL.source ≠ 2 → s.on Reg.TIME_STAT.holdover = false →
    let r := max (-28147497671) (min 28147497671 (sInt v 36))
    ∃ t, exec (.timeRate v) s = .next t ∧ t.t32 = s.t32 ∧ t.time.rate = r ∧ t.time.cnt = s.time.cnt ∧ t.rd Reg.TIME_RATE.rate = ofInt r 36 ∧
      t.on Reg.TIME_STAT.holdover = false ∧ (r ≠ sInt v 36 → t.on Reg.TIME_STAT.rate_clamped = true) ∧
      (r = sInt v 36 → t.rd Reg.TIME_STAT.rate_clamped = s.rd Reg.TIME_STAT.rate_clamped) ∧
      OnlyRegs s t [0x200008, 0x200030, Reg.TICK_STAT.all.off] ∧ t = { s with regs := t.regs, time := t.time }

/-- R367 to R369, R371 to R373: TIME_STEP moves corrected time by the signed count of ns while the tick unit is stopped, with the pulses that
then lie past missed, and is discarded and recorded while it runs; a TIME_RATE that may end holdover ends it and takes effect clamped, without a
jump of time, and one is discarded in fabric time and in holdover; TIME_CTRL selects the source, and its reserved source is an invalid access; hold_req and the servo watchdog
begin holdover, and clearing hold_req ends it in free run.
Where the spec is silent it rests on the model's choices of log entry 28. -/
def Obligations.TimeSteers : Prop :=
  ∀ (s : State),
    let stopped := s.on Reg.TICK_STAT.running = false ∧ s.tick.starting = false ∧ s.on Reg.TICK_SWITCH_STAT.armed = false
    let source := s.rd Reg.TIME_CTRL.source
    let held := s.on Reg.TIME_STAT.holdover
    (∀ v, v < 2 ^ 64 → stopped → (∀ b, b < 8 → s.barOutstanding b = false) →
      ∃ t, exec (.timeStep v) s = .next t ∧ t.on Reg.TIME_STAT.valid = true ∧
        t.time = { s.time with baseT := (s.time.baseT + sInt v 64 * 2 ^ 32) % 2 ^ 96 } ∧
        (0 ≤ s.time.baseT + sInt v 64 * 2 ^ 32 → s.time.baseT + sInt v 64 * 2 ^ 32 < 2 ^ 96 → t.t32 = s.t32 + sInt v 64 * 2 ^ 32) ∧
        (∀ k, k < 4 → t.pulse k = match (s.pulse k).next with
          | none => s.pulse k
          | some g => if s.rd (Reg.TIME_PULSE_CFG.mode k) = 2 then { s.pulse k with next := some (t.firstTarget k) }
            else if (g : Int) * 2 ^ 32 < t.t32 then { s.pulse k with next := none } else s.pulse k) ∧
        (∀ k g, k < 4 → (s.pulse k).next = some g → s.rd (Reg.TIME_PULSE_CFG.mode k) ≠ 2 → (g : Int) * 2 ^ 32 < t.t32 →
          t.on (Reg.TIME_PULSE_STAT.missed k) = true) ∧
        (∀ o, o ≠ 0x200008 → (∀ k, k < 4 → o ≠ (Reg.TIME_PULSE_STAT.all k).off) → (∀ p, p < 64 → o ≠ (Reg.PART_METER.count p 7).off) →
          t.reg o = s.reg o) ∧
        t = { s with regs := t.regs, time := t.time, pulses := t.pulses, part := { s.part with ticks := t.part.ticks } }) ∧
    (∀ v, ¬ stopped → ∃ t, exec (.timeStep v) s = .next t ∧ TimeRecords s t [] 0x2004 0x40 0 (fun u => u = s)) ∧
    (∀ v, v < 2 ^ 36 → source = 1 → held = true → s.time.exitReady = true →
      let r := max (-28147497671) (min 28147497671 (sInt v 36))
      ∃ t, exec (.timeRate v) s = .next t ∧ t.t32 = s.t32 ∧ t.time.rate = r ∧ t.time.cnt = s.time.cnt ∧ t.rd Reg.TIME_RATE.rate = ofInt r 36 ∧
        t.on Reg.TIME_STAT.holdover = false ∧ (r ≠ sInt v 36 → t.on Reg.TIME_STAT.rate_clamped = true) ∧
        (r = sInt v 36 → t.rd Reg.TIME_STAT.rate_clamped = s.rd Reg.TIME_STAT.rate_clamped) ∧
        OnlyRegs s t [0x200008, 0x200030, Reg.TICK_STAT.all.off] ∧ t = { s with regs := t.regs, time := t.time }) ∧
    (∀ v, (source = 2 ∨ held = true ∧ ¬ (source = 1 ∧ s.time.exitReady = true)) →
      ∃ t, exec (.timeRate v) s = .next t ∧ t.rd Reg.TIME_HOLD.discarded = min (s.rd Reg.TIME_HOLD.discarded + 1) 65535 ∧
        OnlyRegs s t [0x200038] ∧ t = { s with regs := t.regs }) ∧
    (∀ src servo port, src < 3 → servo < 2 → port < 64 → s.rd Reg.TIME_CTRL.hold_req = 0 → held = false →
      ∃ t, exec (.timeSource src servo port) s = .next t ∧ t.rd Reg.TIME_CTRL.source = src ∧ t.rd Reg.TIME_CTRL.servo_mgr = servo ∧
        t.rd Reg.TIME_CTRL.fab_port = port ∧ t.rd Reg.TIME_CTRL.hold_req = 0 ∧ t.t32 = s.t32 ∧ t.time.rate = s.time.rate ∧
        t.on Reg.TIME_STAT.holdover = false ∧ OnlyRegs s t [0x200000, 0x200008, 0x200050] ∧ t = { s with regs := t.regs, time := t.time }) ∧
    (∀ servo port, ∃ t, exec (.timeSource 3 servo port) s = .next t ∧ Raised s t ⟨0x2001, 0x40, 8, 8, 0, 1, 0, 0, 0x200000⟩) ∧
    (source < 2 → held = false →
      ∃ t, exec (.holdReq true) s = .next t ∧ HeldOver s t [0x200000] 1 0 (fun u => u.rd Reg.TIME_CTRL.hold_req = 1 ∧ u.rd Reg.TIME_CTRL.source = source)) ∧
    (source = 0 → held = true →
      ∃ t, exec (.holdReq false) s = .next t ∧ t.on Reg.TIME_STAT.holdover = false ∧ t.rd Reg.TIME_STAT.hold_cause = 0 ∧
        t.rd Reg.TIME_CTRL.hold_req = 0 ∧ t.on Reg.TICK_STAT.holdover = false ∧ t.time = s.time ∧
        OnlyRegs s t [0x200000, 0x200008, Reg.TICK_STAT.all.off] ∧ t = { s with regs := t.regs }) ∧
    (source = 1 → held = false → s.rd Reg.TIME_HOLD.wd_ms ≠ 0 →
      ∃ t, exec .servoWatchdog s = .next t ∧ HeldOver s t [] 2 0 (fun u =>
        u.time.cnt = max s.time.cnt (max s.time.lastRate s.time.lastSource + 1600000 * s.rd Reg.TIME_HOLD.wd_ms)))

/-- R377, R379, R381: an edge of PPS is captured and counted; a 10 MHz count is kept and judged; the loss of either is recorded; a failed
upstream link begins holdover; the standby time unit takes over, and a disagreement of the two is recorded.
R378, R380, R393: the exchanges of fabric time. One on a port that is not followed steers nothing; every one is answered with this unit's
time, the time of the one that came, the hop count and the flags. Of those of the upstream port, before the first mean of 64 one only counts towards it and carries the hop
count and the holdover flag down; the 64th sets the link delay and, with the tick unit stopped, steps time once by the offset; later ones
leave time where it is, show the offset, and lock after 1000 offsets below 1 ns.
Where the spec is silent it rests on the model's choices of log entries 28, 29 and 102. -/
def Obligations.TimeInputsAndFabricTime : Prop :=
  (∀ (s : State),
    (∃ t, exec .ppsEdge s = .next t ∧ t.rd Reg.TIME_PPS_CAP.t_ns = s.nowNs % 2 ^ 64 ∧
      t.rd Reg.TIME_REF_STAT.pps_edges = (s.rd Reg.TIME_REF_STAT.pps_edges + 1) % 2 ^ 16 ∧ t.on Reg.TIME_STAT.pps_ok = true ∧
      t.time = { s.time with lastPps := s.time.cnt } ∧ OnlyRegs s t [0x200008, 0x200040, 0x200048] ∧ t = { s with regs := t.regs, time := t.time }) ∧
    (∀ n, n < 2 ^ 32 →
      let at_ := fun (u : State) => u.rd Reg.TIME_REF_STAT.ref10_cycles = n ∧ u.time.cnt = max s.time.cnt (s.time.lastRef + n) ∧
        u.time.lastRef = u.time.cnt
      ((n < 1599680000 ∨ 1600320000 < n) → s.on Reg.TIME_STAT.ref10_ok = true →
        ∃ t, exec (.ref10Count n) s = .next t ∧
          TimeRecords s t [0x200008, 0x200048] 0x6004 0x40 0 (fun u => u.on Reg.TIME_STAT.ref10_ok = false ∧ at_ u)) ∧
      (1599680000 ≤ n → n ≤ 1600320000 →
        ∃ t, exec (.ref10Count n) s = .next t ∧ t.on Reg.TIME_STAT.ref10_ok = true ∧ at_ t ∧ OnlyRegs s t [0x200008, 0x200048] ∧
          t = { s with regs := t.regs, time := t.time })) ∧
    (s.on Reg.TIME_STAT.pps_ok = true →
      ∃ t, exec .ppsLost s = .next t ∧ TimeRecords s t [0x200008] 0x6003 0x40 0 (fun u => u.on Reg.TIME_STAT.pps_ok = false ∧
        u.time = { s.time with cnt := max s.time.cnt (s.time.lastPps + 1760000000) })) ∧
    (s.on Reg.TIME_STAT.ref10_ok = true →
      ∃ t, exec .ref10Lost s = .next t ∧ TimeRecords s t [0x200008] 0x6004 0x40 0 (fun u => u.on Reg.TIME_STAT.ref10_ok = false ∧
        u.time = { s.time with cnt := max s.time.cnt (s.time.lastRef + 1760000000) })) ∧
    (s.rd Reg.TIME_CTRL.source = 2 → s.on Reg.TIME_STAT.holdover = false →
      (∃ t, exec (.fabricHoldover true) s = .next t ∧ HeldOver s t [] 3 (s.rd Reg.TIME_CTRL.fab_port) (fun u => u.time.cnt = s.time.cnt)) ∧
      (∃ t, exec (.fabricHoldover false) s = .next t ∧ HeldOver s t [] 3 (s.rd Reg.TIME_CTRL.fab_port) (fun u =>
        u.time.cnt = max s.time.cnt (s.time.fabLast + 25600)))) ∧
    (∀ parity, s.on Reg.TIME_STAT.active_unit = false → s.on Reg.GLB_CAP_TILES.standby_ok = true →
      ∃ t, exec (.unitTakeover parity) s = .next t ∧ TimeRecords s t [0x200008, Reg.TICK_STAT.all.off] 0x8003 0x40 0 (fun u =>
        u.on Reg.TIME_STAT.active_unit = true ∧ u.on Reg.TICK_STAT.active_unit = true ∧
        u.time = { s.time with cnt := if parity then s.time.cnt else s.time.cnt + 16 })) ∧
    (s.on Reg.GLB_CAP_TILES.standby_ok = true →
      ∃ t, exec .unitMismatch s = .next t ∧ TimeRecords s t [0x200008] 0x6005 0x40 0 (fun u => u.on Reg.TIME_STAT.standby_ok = false ∧ u.time = s.time)) ∧
    (s.on Reg.GLB_CAP_TILES.standby_ok = false → exec .unitMismatch s = .next s ∧ ∀ parity, exec (.unitTakeover parity) s = .next s)) ∧
  (∀ (s : State) (t1 t2 t3 : Int) (hops : Nat) (hold : Bool),
    let t4 := s.t32 / 2 ^ 26
    (∀ port, s.rd Reg.TIME_CTRL.source ≠ 2 ∨ port ≠ s.rd Reg.TIME_CTRL.fab_port →
      ∃ t, exec (.timeExchange port t1 t2 t3 hops hold) s = .next t ∧ t = { s with time := { s.time with exch := t.time.exch } } ∧
        (∀ k, k ≠ port → NMap.find t.time.exch k = NMap.find s.time.exch k) ∧
        NMap.find t.time.exch port = some ⟨t4, t4, if s.rd Reg.TIME_CTRL.source < 2 then 0 else s.rd Reg.TIME_FAB.hops, s.on Reg.TIME_STAT.valid,
          s.on Reg.TIME_STAT.holdover⟩) ∧
    (s.rd Reg.TIME_CTRL.source = 2 → s.on Reg.TIME_STAT.holdover = false →
    let ex := exec (.timeExchange (s.rd Reg.TIME_CTRL.fab_port) t1 t2 t3 hops hold) s
    let sum := s.time.fabSum + ((t4 - t1) - (t3 - t2))
    let passes := fun (t : State) => t.rd Reg.TIME_FAB.hops = min 255 (hops + 1) ∧ t.on Reg.TIME_STAT.up_holdover = hold ∧
      t.time.fabLast = s.time.cnt ∧ t.time.cnt = s.time.cnt ∧
      NMap.find t.time.exch (s.rd Reg.TIME_CTRL.fab_port) =
        some ⟨t.t32 / 2 ^ 26, t4, min 255 (hops + 1), t.on Reg.TIME_STAT.valid, t.on Reg.TIME_STAT.holdover⟩
    (s.time.fabN < 63 → s.time.fabD = none →
      ∃ t, ex = .next t ∧ passes t ∧ t.t32 = s.t32 ∧ t.time = { s.time with fabN := s.time.fabN + 1, fabSum := sum, fabLast := s.time.cnt, exch := t.time.exch } ∧
        OnlyRegs s t [0x200008, 0x200050] ∧ t = { s with regs := t.regs, time := t.time }) ∧
    (s.time.fabN = 63 → s.time.fabStepped = false → s.on Reg.TICK_STAT.running = false → (∀ b, b < 8 → s.barOutstanding b = false) →
      (∀ k, k < 4 → (s.pulse k).next = none) →
      let o := t4 - (t3 + sum / 128)
      ∃ t, ex = .next t ∧ passes t ∧ t.time.baseT = (s.time.baseT - o * 2 ^ 26) % 2 ^ 96 ∧
        (0 ≤ s.time.baseT - o * 2 ^ 26 → s.time.baseT - o * 2 ^ 26 < 2 ^ 96 → t.t32 = s.t32 - o * 2 ^ 26) ∧ t.rd Reg.TIME_FAB.link_delay = ofInt (sum / 128) 24 ∧
        t.rd Reg.TIME_FAB.offset = ofInt o 32 ∧ t.time.fabD = some (sum / 128) ∧ t.time.fabN = 0 ∧ t.time.fabStepped = true ∧
        t.on Reg.TIME_STAT.valid = true ∧ t.pulses = s.pulses ∧ t.bars = s.bars) ∧
    (∀ d, s.time.fabN < 63 → s.time.fabD = some d → s.time.fabStepped = true → s.rd Reg.TIME_HOLD.phase_alarm_ns = 0 →
      let o := t4 - (t3 + d)
      ∃ t, ex = .next t ∧ passes t ∧ t.t32 = s.t32 ∧ t.rd Reg.TIME_FAB.offset = ofInt o 32 ∧ t.time.rate.natAbs ≤ 28147497671 ∧
        t.time.fabGood = (if o.natAbs < 64 then min 1000 (s.time.fabGood + 1) else 0) ∧
        (t.time.fabGood = 1000 → t.on Reg.TIME_STAT.fab_locked = true) ∧ (128 ≤ o.natAbs → t.on Reg.TIME_STAT.fab_locked = false) ∧
        t.pulses = s.pulses ∧ t.bars = s.bars ∧ OnlyRegs s t [0x200008, 0x200030, 0x200050])))

/-- R382 to R386: a pulse output starts its pulse when corrected time, by its lead, reaches the target, and ends it after its width, when done sets for a once pulse; a member
arrives once, by the manager's write or by its semaphore, and sends its ARRIVE to the root; the root counts arrivals of its generation and
counts another's as stale; a RELEASE sets the release time, at which the member posts its semaphore, starts its pulses and enters the next
generation; an arrival with no release in the bound aborts the generation.
Where the spec is silent it rests on the model's choices of log entries 30 and 44. -/
def Obligations.PulsesAndBarriers : Prop :=
  ∀ (s : State),
    (∀ k g, k < 4 → (s.pulse k).next = some g →
      let periodic := (s.rd (Reg.TIME_PULSE_CFG.mode k) == 2 : Bool)
      let lead := s.rd (Reg.TIME_PULSE_CFG.lead_cycles k)
      ∃ t, exec (.timePulse k) s = .next t ∧
        t.pulse k = ⟨true, (g : Int) * 2 ^ 32 - (lead : Int) * 2684354560 + ((s.rd (Reg.TIME_PULSE_CFG.width_ns_m1 k) + 1 : Nat) : Int) * 2 ^ 32,
          if periodic then some (g + s.rd (Reg.TIME_PULSE_PERIOD.period_ns_m1 k) + 1) else none, !periodic⟩ ∧
        t.rd (Reg.TIME_PULSE_STAT.edges k) = min (s.rd (Reg.TIME_PULSE_STAT.edges k) + 1) 65535 ∧
        t.rd (Reg.TIME_PULSE_STAT.done k) = s.rd (Reg.TIME_PULSE_STAT.done k) ∧
        t.time = { s.time with cnt := max s.time.cnt (s.cycleOf ((g : Int) * 2 ^ 32) - lead) } ∧ (∀ j, j ≠ k → t.pulse j = s.pulse j) ∧
        OnlyRegs s t [(Reg.TIME_PULSE_STAT.all k).off] ∧ t = { s with regs := t.regs, time := t.time, pulses := t.pulses }) ∧
    (∀ k, (s.pulse k).active = true →
      ∃ t, exec (.pulseEnd k) s = .next t ∧ t.pulse k = { s.pulse k with active := false, once := false } ∧ (∀ j, j ≠ k → t.pulse j = s.pulse j) ∧
        t.time = { s.time with cnt := s.cycleOf (s.pulse k).endT } ∧
        t.rd (Reg.TIME_PULSE_STAT.done k) = (if (s.pulse k).once then 1 else s.rd (Reg.TIME_PULSE_STAT.done k)) ∧
        OnlyRegs s t [(Reg.TIME_PULSE_STAT.all k).off] ∧ t = { s with regs := t.regs, time := t.time, pulses := t.pulses }) ∧
    (∀ b, b < 8 → s.on (Reg.TIME_BAR_CFG.enable b) = true → (s.bar b).arrived = false → s.sem.grants = [] →
      s.semRegistered (s.rd (Reg.TIME_BAR_SEM.arr_sem b)) (.barrier b) = false →
      let sends := fun (t : State) => ∃ p lvc port, t.fab.tx = s.fab.tx ++ [⟨port, lvc, p⟩] ∧ p.type = 5 ∧ p.kind = 1 ∧
        p.dst = s.rd (Reg.TIME_BAR_CFG.root b) ∧ p.addr = b ∧ p.domain = s.rd (Reg.FAB_DOMAIN.domain (s.rd (Reg.TIME_BAR_SEM.partition b))) ∧
        p.payload = leBytes (s.rd (Reg.TIME_BAR_STAT.gen b)) 2
      let arrived := fun (t : State) => t.bar b = { s.bar b with arrived := true, arriveAt := s.time.cnt, watching := false } ∧
        (∀ j, j ≠ b → t.bar j = s.bar j)
      Routable s (s.rd (Reg.TIME_BAR_CFG.root b)) →
      (∃ t, exec (.barrierArrive b) s = .next t ∧ arrived t ∧ sends t ∧ (∀ q, t.semVal q = s.semVal q) ∧
        t = { s with regs := t.regs, bars := t.bars, sem := t.sem, fab := t.fab }) ∧
      (∀ k, (s.bar b).watching = false → s.on (Reg.TIME_BAR_SEM.arr_en b) = true → s.rd (Reg.TIME_BAR_SEM.arr_sem b) = k →
        s.semWaiters k = [] → 0 < s.semVal k →
        ∃ t, exec (.arrSemArrive b) s = .next t ∧ arrived t ∧ sends t ∧ (∀ q, t.semVal q = if q = k then s.semVal k - 1 else s.semVal q) ∧
          t.sem.grants = [] ∧ t = { s with regs := t.regs, bars := t.bars, sem := t.sem, fab := t.fab })) ∧
    (∀ (p : Packet) q, p.type = 5 → p.kind = 1 → p.addr < 8 → p.dst = s.devId → tooOld p = false → s.fabPart p = some q →
      (∀ e, e ∈ NMap.get [] s.fab.dedup p.src → e.1 ≠ p.seq) → s.on (Reg.TIME_BAR_CFG.enable p.addr) = true →
      s.rd (Reg.TIME_BAR_CFG.root p.addr) = s.devId → s.rd (Reg.TIME_BAR_SEM.partition p.addr) = q → (s.dedupSlot p.src).isSome = true →
      Routable s p.src →
      let n := s.rd (Reg.TIME_BAR_STAT.arrived p.addr)
      let gen := leNat (p.payload.take 2)
      (gen = s.rd (Reg.TIME_BAR_STAT.gen p.addr) → n < s.rd (Reg.TIME_BAR_CFG.members_m1 p.addr) →
        ∃ t, exec (.arrive p) s = .next t ∧ t.rd (Reg.TIME_BAR_STAT.arrived p.addr) = n + 1 ∧
          t.rd (Reg.TIME_BAR_STAT.gen p.addr) = gen ∧ t.fab.tx.length = s.fab.tx.length + 1 ∧ t.time = s.time) ∧
      (gen = s.rd (Reg.TIME_BAR_STAT.gen p.addr) → n = s.rd (Reg.TIME_BAR_CFG.members_m1 p.addr) →
        ∃ t, exec (.arrive p) s = .next t ∧ t.rd (Reg.TIME_BAR_STAT.arrived p.addr) = n + 1 ∧
          ∃ r y lvc port, t.fab.tx = s.fab.tx ++ [y, ⟨port, lvc, r⟩] ∧ r.type = 3 ∧ r.kind = 2 ∧ r.addr = p.addr ∧
            r.dst = 0xF000 + s.rd (Reg.TIME_BAR_CFG.group p.addr) % 4096 ∧
            r.payload = leBytes gen 2 ++ leBytes (((s.t32 + 2 ^ 31) / 2 ^ 32).toNat + s.rd (Reg.TIME_BAR_CFG.lead_ns p.addr)) 8) ∧
      (gen ≠ s.rd (Reg.TIME_BAR_STAT.gen p.addr) →
        ∃ t, exec (.arrive p) s = .next t ∧
          t.rd (Reg.TIME_BAR_STAT.stale p.addr) = min (s.rd (Reg.TIME_BAR_STAT.stale p.addr) + 1) (2 ^ (Reg.TIME_BAR_STAT.stale p.addr).w - 1) ∧
          t.rd (Reg.TIME_BAR_STAT.arrived p.addr) = n)) ∧
    (∀ (p : Packet) (x : Arrival) g q, p.type = 3 → p.kind = 2 → p.dst = 0xF000 + g → g < 4095 → p.addr < 8 → tooOld p = false →
      s.on (Reg.FAB_MCAST.valid g) = true → s.on (Reg.FAB_MCAST.local g) = true → (∀ k, k < 36 → bit (s.rd (Reg.FAB_MCAST.port_mask g)) k = true → k = x.port) →
      s.fabPart p = some q → s.rd (Reg.TIME_BAR_SEM.partition p.addr) = q → s.on (Reg.TIME_BAR_CFG.enable p.addr) = true →
      s.rd (Reg.TIME_BAR_CFG.group p.addr) % 4096 = g → leNat (p.payload.take 2) = s.rd (Reg.TIME_BAR_STAT.gen p.addr) →
      let r := leNat ((p.payload.drop 2).take 8)
      s.t32 < (r : Int) * 2 ^ 32 →
      ∃ t, exec (.release p x) s = .next t ∧ t.bar p.addr = { s.bar p.addr with release := some r } ∧ (∀ j, j ≠ p.addr → t.bar j = s.bar j) ∧
        t = { s with bars := t.bars }) ∧
    (∀ b r, b < 8 → (s.bar b).release = some r → s.on (Reg.TIME_BAR_SEM.arr_en b) = false → s.on (Reg.TIME_BAR_SEM.rel_en b) = true →
      let q := s.rd (Reg.TIME_BAR_SEM.rel_sem b)
      s.semWaiters q = [] →
      ∃ t, exec (.barrierFire b) s = .next t ∧ Reached s t r ∧ t.rd (Reg.TIME_BAR_REL.t_rel b) = r % 2 ^ 64 ∧
        t.rd (Reg.TIME_BAR_STAT.gen b) = (s.rd (Reg.TIME_BAR_STAT.gen b) + 1) % 2 ^ 16 ∧ t.rd (Reg.TIME_BAR_STAT.arrived b) = 0 ∧
        t.semVal q = min (s.semVal q + 1) (2 ^ 32 - 1) ∧ (∀ j, j ≠ q → t.semVal j = s.semVal j) ∧
        t.bar b = { s.bar b with arrived := false, arriveAt := 0, release := none, firstArrive := 0 } ∧ (∀ j, j ≠ b → t.bar j = s.bar j) ∧
        (∀ k, k < 4 → if bit (s.rd (Reg.TIME_BAR_SEM.pulse_mask b)) k = true ∧ s.rd (Reg.TIME_PULSE_CFG.mode k) = 3 then
          (t.pulse k).active = true ∧ t.rd (Reg.TIME_PULSE_STAT.edges k) = min (s.rd (Reg.TIME_PULSE_STAT.edges k) + 1) 65535
          else t.pulse k = s.pulse k ∧ t.reg (Reg.TIME_PULSE_STAT.all k).off = s.reg (Reg.TIME_PULSE_STAT.all k).off) ∧
        t = { s with regs := t.regs, time := t.time, pulses := t.pulses, bars := t.bars, sem := t.sem }) ∧
    (∀ b, b < 8 → (s.bar b).arrived = true → (s.bar b).release = none → s.rd (Reg.TIME_BAR_STAT.arrived b) = 0 →
      s.on (Reg.TIME_BAR_SEM.arr_en b) = false →
      ∃ t, exec (.barrierTimeout b) s = .next t ∧ t.on (Reg.TIME_BAR_STAT.timeout b) = true ∧
        t.rd (Reg.TIME_BAR_STAT.gen b) = (s.rd (Reg.TIME_BAR_STAT.gen b) + 1) % 2 ^ 16 ∧ (t.bar b).arrived = false ∧ (∀ j, j ≠ b → t.bar j = s.bar j) ∧
        t.rd (Reg.FLT_CLASS_CNT.count 6) = min (s.rd (Reg.FLT_CLASS_CNT.count 6) + 1) (2 ^ 64 - 1) ∧
        t.time = { s.time with cnt := max s.time.cnt ((s.bar b).arriveAt + s.bound) } ∧ t.sem = s.sem ∧ t.fab = s.fab ∧ t.pulses = s.pulses)

/-- R195, R401 to R403, R407, R413: a request at its target. A load returns its line, and a poisoned line as POISON; a store writes its payload; a
reduction combines its elements with those in memory; an atomic is applied once and returns the old value, its second copy returns the
same and applies nothing; a request to a Reservoir granule that is being zeroed waits; a post adds to its semaphore. A request for no valid domain, or beyond its partition, is refused.
Where the spec is silent it rests on the model's choices of log entries 31, 32, 58, 76 and 101. -/
def Obligations.RequestsServed : Prop :=
  ∀ (s : State) (p : Packet) (q : Nat) (both : Bool),
    let a := p.addr / 64 * 64
    let counters := [Reg.FAB_STAT.all.off, Reg.FAB_STAT2.all.off, Reg.FAB_DEDUP_STAT.all.off]
    let unchanged := fun (t : State) => t.core = s.core ∧ t.sem = s.sem ∧ t.host = s.host ∧ s.time.cnt ≤ t.time.cnt ∧
      t = { s with regs := t.regs, fab := t.fab, mem := t.mem, time := { s.time with cnt := t.time.cnt }, free := t.free }
    (Served s 1 p q → s.permit q a 64 = true → s.pktHeld p = false → s.lineBad a = false →
      ∃ t, exec (.load p both) s = .next t ∧ Sends s t (Answers s p 0x81 0 (s.ldBytes a 64)) ∧ t.mem = { s.mem with ts := t.mem.ts } ∧ unchanged t ∧ MetersAnd s t counters) ∧
    (Served s 1 p q → s.permit q a 64 = true → s.pktHeld p = false → s.lineBad a = true →
      ∃ t, exec (.load p both) s = .next t ∧ Sends s t (Answers s p 0x81 2 []) ∧ t.mem = { s.mem with ts := t.mem.ts } ∧ unchanged t) ∧
    (Served s 2 p q → s.permit q a p.payload.length = true → s.pktHeld p = false → Live s a p.payload.length →
      ∃ t, exec (.store p) s = .next t ∧ Sends s t (Answers s p 0x82 0 []) ∧ Stored s t a p.payload ∧ unchanged t ∧ MetersAnd s t counters ∧
        ∀ i, i < p.payload.length / 64 → t.lineBad (a + 64 * i) = p.poison) ∧
    (Served s 2 p q → s.permit q a p.payload.length = true → s.pktHeld p = true →
      exec (.store p) s = .next { s with fab := { s.fab with held := s.fab.held ++ [(p, false)] } }) ∧
    (∀ m, Served s 4 p q → s.permit q a p.payload.length = true → s.pktHeld p = false → Live s a p.payload.length →
      let w := if p.fmt = 8 then 2 else 4
      p.payload.length = w * m → (p.fmt = 0xC ∧ p.rop < 6 ∨ (p.fmt = 8 ∨ p.fmt = 0xA) ∧ p.rop < 3) →
      ∃ t, exec (.reduce p) s = .next t ∧ Sends s t (fun y => Answers s p 0x82 0 [] y ∧ (p.fmt = 0xC → y.var = 0)) ∧ unchanged t ∧
        (∀ j, j < m → t.ldN (a + w * j) w = redElem p.rop p.fmt (s.ldN (a + w * j) w) (leNat ((p.payload.drop (w * j)).take w)) % 256 ^ w) ∧
        (∀ k, (∀ i, i < p.payload.length → k ≠ s.memKey (a + i)) → Mem.rd t.mem.bytes k = Mem.rd s.mem.bytes k) ∧
        (∀ i, 64 * i < p.payload.length → t.lineBad (a + 64 * i) = (p.poison || s.lineBad (a + 64 * i))) ∧
        (s.rangeBad a p.payload.length = false → MetersAnd s t counters)) ∧
    (Served s 5 p q → p.kind = 0 → (∀ e, e ∈ NMap.get [] s.fab.dedup p.src → e.1 ≠ p.seq) →
      let n := if p.w64 then 8 else if p.fmt = 8 then 2 else 4
      let old := s.ldN p.addr n
      p.addr % n = 0 → s.permit q p.addr n = true → p.rop < 8 →
      (p.w64 = true ∨ p.fmt = 0xC ∨ (p.fmt = 8 ∨ p.fmt = 0xA) ∧ (p.rop < 3 ∨ 5 < p.rop)) → s.pktHeld p = false →
      (s.dedupSlot p.src).isSome = true → s.lineBad p.addr = false →
      ∃ t var, exec (.atomic p both) s = .next t ∧ Sends s t (fun y => Answers s p 0x83 0 (leBytes old 8) y ∧ y.var = var) ∧ unchanged t ∧
        t.ldN p.addr n = atomNew p.rop p.fmt p.w64 old (leNat (p.payload.take n)) (leNat ((p.payload.drop 8).take n)) % 256 ^ n ∧
        (∀ k, (∀ i, i < n → k ≠ s.memKey (p.addr + i)) → Mem.rd t.mem.bytes k = Mem.rd s.mem.bytes k) ∧
        (p.seq, old + 2 ^ 64 * var) ∈ NMap.get [] t.fab.dedup p.src ∧ MetersAnd s t counters) ∧
    (∀ l e, Served s 5 p q → p.kind = 0 → NMap.find s.fab.dedup p.src = some l → l.find? (fun e => decide (e.1 = p.seq)) = some e →
      ∃ t, exec (.atomic p both) s = .next t ∧ Sends s t (fun y => Answers s p 0x83 0 (leBytes e.2 8) y ∧ y.var = e.2 / 2 ^ 64) ∧ t.mem = s.mem ∧ t.time = s.time ∧ unchanged t ∧
        t.rd Reg.FAB_STAT.dedup_hits = min (s.rd Reg.FAB_STAT.dedup_hits + 1) 65535) ∧
    (Served s 6 p q →
      let k := fabSem (p.addr % 4096)
      let n := leNat (p.payload.take 4)
      (s.semOwned k q = true → s.semWaiters k = [] →
        ∃ t, exec (.sempost p) s = .next t ∧ Sends s t (Answers s p 0x82 0 []) ∧ t.semVal k = (if n = 0 then s.semVal k else min (s.semVal k + n) (2 ^ 32 - 1)) ∧
          (∀ j, j ≠ k → t.semVal j = s.semVal j) ∧ t.mem = s.mem ∧ t.core = s.core ∧ MetersAnd s t []) ∧
      (s.semOwned k q = false →
        ∃ t, exec (.sempost p) s = .next t ∧ Sends s t (Answers s p 0x82 1 []) ∧ t.sem = s.sem ∧ unchanged t)) ∧
    (p.type = 2 → p.dst = s.devId → tooOld p = false → Routable s p.src → (s.fabPart p = none ∨ ∃ r, s.fabPart p = some r ∧ s.permit r a p.payload.length = false) →
      ∃ t, exec (.store p) s = .next t ∧ Sends s t (Answers s p 0x82 1 []) ∧ t.mem = s.mem ∧ unchanged t ∧
        t.rd Reg.FAB_STAT2.refused = min (s.rd Reg.FAB_STAT2.refused + 1) 65535 ∧ MetersAnd s t [Reg.FAB_STAT2.all.off])

/-- R191, R192, R403 to R405, R412: at the source. The reply of a load fills its line of the vector register, the old value of an atomic its
scalar register, an acknowledgement ends its store; one that comes as POISON, or not before the bound, leaves the error value and an
all-ones predicate, and a record. A load or atomic with no reply is sent again, marked. A multicast store whose copies are not all
acknowledged in three quarters of the bound is acknowledged as incomplete with the count so far.
Where the spec is silent it rests on the model's choices of log entries 18 and 32. -/
def Obligations.RepliesAndBounds : Prop :=
  ∀ (s : State) (p : Packet) (o : RemOp) (k : Nat) (b : Bank), Outstanding s o k b →
    let banksOnly := fun (t : State) => t = { s with core := { s.core with banks := t.core.banks }, fab := t.fab }
    (∀ n, p.type = 0x81 → p.dst = s.devId → s.answered p (fun t => t == 1) = some o → o.reg = some (.v n) → o.line < 16 → o.bytes = 64 →
      (p.status = 0 → p.poison = false →
        ∃ t, exec (.loadRsp p) s = .next t ∧ banksOnly t ∧ Ended s t o k b false (fun b' =>
          lane (b'.vR n) 512 o.line = leNat (p.payload.take 64) ∧ ∀ j, j < 16 → j ≠ o.line → lane (b'.vR n) 512 j = lane (b.vR n) 512 j)) ∧
      (p.status = 2 →
        ∃ t, exec (.loadRsp p) s = .next t ∧ t.rd (Reg.FLT_CLASS_CNT.count 4) = min (s.rd (Reg.FLT_CLASS_CNT.count 4) + 1) (2 ^ 64 - 1) ∧
          Ended s t o k b true (fun b' => ∀ j, j < 16 → lane (b'.vR n) 32 (16 * o.line + j) = 0xDEADDEAD))) ∧
    (∀ n, n ≠ 0 → p.type = 0x83 → p.dst = s.devId → s.answered p (fun t => t == 5) = some o → o.reg = some (.s n) → p.status = 0 → p.poison = false →
      o.bytes ≤ 8 →
      ∃ t, exec (.atomicRsp p) s = .next t ∧ OnlyRegs s t [(Reg.PART_VAR_EVENTS.all o.part).off] ∧
        t.rd (Reg.PART_VAR_EVENTS.events o.part) =
          min (s.rd (Reg.PART_VAR_EVENTS.events o.part) + (p.var % 2 + p.var / 2 % 2)) (2 ^ (Reg.PART_VAR_EVENTS.events o.part).w - 1) ∧
        t = { s with core := { s.core with banks := t.core.banks }, fab := t.fab, regs := t.regs } ∧ Ended s t o k b false (fun b' => b'.sR n = leNat (p.payload.take o.bytes))) ∧
    (∀ port, p.type = 0x82 → p.dst = s.devId → (∀ w, w ∈ s.fab.mcast → w.src ≠ p.dst ∨ w.seq ≠ p.seq) → s.answered p (fun t => t == 0x0A) = none →
      s.answered p (fun t => t == 2 || t == 4 || t == 6 || t == 9) = some o → o.type ≠ 9 → o.reg = none →
      (p.status = 0 → p.var = 0 → ∃ t, exec (.ack p port) s = .next t ∧ banksOnly t ∧ Ended s t o k b false (fun _ => True)) ∧
      (p.status = 1 →
        ∃ t, exec (.ack p port) s = .next t ∧ t.rd (Reg.FLT_CLASS_CNT.count 4) = min (s.rd (Reg.FLT_CLASS_CNT.count 4) + 1) (2 ^ 64 - 1) ∧
          t.rd (Reg.PART_VAR_EVENTS.events o.part) =
            min (s.rd (Reg.PART_VAR_EVENTS.events o.part) + p.var) (2 ^ (Reg.PART_VAR_EVENTS.events o.part).w - 1) ∧
          Ended s t o k b true (fun _ => True))) ∧
    (∀ n, s.fab.out.find? (fun x => decide (x.dev = o.dev) && decide (x.seq = o.seq) && decide (x.type ≠ 0x0A)) = some o → o.type = 5 →
      o.reg = some (.s n) → n ≠ 0 → o.bytes = 8 →
      ∃ t, exec (.remoteTimeout o.dev o.seq) s = .next t ∧ t.time = { s.time with cnt := max s.time.cnt o.deadline } ∧
        t.rd (Reg.FLT_CLASS_CNT.count 4) = min (s.rd (Reg.FLT_CLASS_CNT.count 4) + 1) (2 ^ 64 - 1) ∧
        Ended s t o k b true (fun b' => b'.sR n = 0xDEADDEADDEADDEAD)) ∧
    (s.fab.out.find? (fun x => decide (x.dev = o.dev) && decide (x.seq = o.seq) && (x.type == 1 || x.type == 5)) = some o → o.retryAt < o.deadline →
      o.retryAt ≤ o.sentAt + 2400000 → o.packet.src = s.devId → Routable s o.packet.dst →
      ∃ t, exec (.retry o.dev o.seq) s = .next t ∧ Sends s t (fun y => y = { o.packet with retry := true }) ∧
        t.fab.out = s.fab.out.map (fun x => if x = o then { o with retryAt := o.retryAt + s.retryGap } else x) ∧
        t.time = { s.time with cnt := max s.time.cnt o.retryAt } ∧ t = { s with regs := t.regs, time := t.time, fab := t.fab } ∧ MetersAnd s t []) ∧
    (∀ w, s.fab.mcast.find? (fun x => decide (x.src = w.src) && decide (x.seq = w.seq)) = some w → w.arrival < 36 →
      ∃ t, exec (.mcastAckTimeout w.src w.seq) s = .next t ∧ Sends s t (fun y => y.type = 0x82 ∧ y.status = 4 ∧ y.dst = w.src ∧ y.seq = w.seq ∧ y.count = w.count) ∧
        t.fab.mcast = s.fab.mcast.filter (fun x => decide (x ≠ w)) ∧ t.time = { s.time with cnt := max s.time.cnt (w.since + 3 * s.bound / 4) } ∧
        t = { s with regs := t.regs, time := t.time, fab := t.fab } ∧ MetersAnd s t [])

/-- R392 to R397, R400, R406, R412, R414: links and what crosses a package. Training moves a port on one state at a time and back to DOWN where
it fails or the two sides do not match, and UP shows the device ID that PARAM brought; a flit that fails a third time, or a loss of the link, takes
an UP port down with a record. A packet in transit
ages and leaves by its route on its link channel; a multicast store is applied to the local member and acknowledged, and copied to a
port that is UP, whose acknowledgement it waits for; an unassigned type
is dropped and counted. A reservation is granted from the pool, and given back on release and, zeroed, at expiry.
Where the spec is silent it rests on the model's choices of log entries 31, 32, 44, 95, 97 and 100. -/
def Obligations.LinksTransitAndReservations : Prop :=
  ∀ (s : State),
    let die := fun (k : Nat) => if k < 32 then k / 4 else 8 + (k - 32) / 2
    (∀ k peer rev, k < 36 → s.on (Reg.FAB_PORT_CFG.en k) = true → s.tilePresent (portTile k) = true →
      let st := s.rd (Reg.FAB_PORT_STAT.state k)
      let moves := fun (ok : Bool) (v : Nat) => ∃ t, exec (.linkTrain k peer rev ok) s = .next t ∧ t.rd (Reg.FAB_PORT_STAT.state k) = v ∧
        t.rd (Reg.FAB_PORT_STAT.replays k) = s.rd (Reg.FAB_PORT_STAT.replays k) ∧
        OnlyRegs s t ([(Reg.FAB_PORT_STAT.all k).off] ++ if v = 4 then [Reg.GLB_DEVICE_ID.all.off] else []) ∧
        t = { s with regs := t.regs, fab := { s.fab with peers := t.fab.peers } } ∧
        (∀ j, j ≠ k ∨ st ≠ 2 → NMap.find t.fab.peers j = NMap.find s.fab.peers j) ∧ (st = 2 → ok = true → NMap.find t.fab.peers k = some peer)
      let matched := s.devId ≠ 0xFFFF ∧ peer ≠ 0xFFFF ∧ peer ≠ s.devId ∧ rev = s.rd Reg.GLB_ID.config_rev
      (∀ ok, st = 0 → moves ok 1) ∧ (st = 1 → moves true 2) ∧ (st = 2 → matched → moves true 3) ∧ (st = 3 → moves true 4) ∧
      (0 < st → st < 4 → moves false 0) ∧
      (∀ id, st = 3 → NMap.find s.fab.peers k = some id → id < 65536 →
        ∃ t, exec (.linkTrain k peer rev true) s = .next t ∧ t.rd (Reg.FAB_PORT_STAT.peer_id k) = id ∧
        t.on Reg.GLB_DEVICE_ID.locked = true ∧ t.devId = s.devId) ∧
      (st = 2 → ¬ matched → ∃ t u, exec (.linkTrain k peer rev true) s = .next t ∧ u.rd (Reg.FAB_PORT_STAT.state k) = 0 ∧
        u = { s with regs := u.regs } ∧ OnlyRegs s u [(Reg.FAB_PORT_STAT.all k).off] ∧ Raised u t ⟨0x7003, 0x40, die k, k, 0, 1, 0, 0, 0⟩)) ∧
    (∀ k times, k < 36 → 0 < times → times < 3 →
      ∃ t, exec (.flitReplay k times) s = .next t ∧ t.rd (Reg.FAB_PORT_STAT.replays k) = min (s.rd (Reg.FAB_PORT_STAT.replays k) + times) 65535 ∧
        t.rd (Reg.FAB_PORT_STAT.state k) = s.rd (Reg.FAB_PORT_STAT.state k) ∧ OnlyRegs s t [(Reg.FAB_PORT_STAT.all k).off] ∧ t = { s with regs := t.regs }) ∧
    (∀ k, k < 36 → s.portUp k = true →
      let down := fun (i : Instr) (n : Nat) => ∃ t u, exec i s = .next t ∧ u.rd (Reg.FAB_PORT_STAT.state k) = 0 ∧
        u.rd (Reg.FAB_PORT_STAT.peer_id k) = 0xFFFF ∧ u.rd (Reg.FAB_PORT_STAT.link_downs k) = min (s.rd (Reg.FAB_PORT_STAT.link_downs k) + 1) 65535 ∧
        u.rd (Reg.FAB_PORT_STAT.replays k) = min (s.rd (Reg.FAB_PORT_STAT.replays k) + n) 65535 ∧ u = { s with regs := u.regs } ∧
        OnlyRegs s u [(Reg.FAB_PORT_STAT.all k).off] ∧ Raised u t ⟨0x7002, 0x40, die k, k, 0, 1, 0, 0, 0⟩
      (∀ times, 3 ≤ times → down (.flitReplay k times) 2) ∧ down (.fabLinkDown k) 0) ∧
    (∀ (p : Packet) lvc stay port, p.dst ≠ s.devId → p.dst < 0xF000 → lvc < 4 →
      let age := min 65535 (p.age + stay)
      ((age ≤ 3906 ∨ isReply p.type = true) → s.mesh.failed = [] → s.routeOf p.src p.dst = some port →
        ∃ t, exec (.forward p lvc stay) s = .next t ∧
          t.fab.tx = s.fab.tx ++ [⟨port, if s.on (Reg.FAB_PORT_CFG.dateline port) = true ∧ lvc % 2 = 0 then lvc + 1 else lvc, { p with age := age }⟩] ∧
          MetersAnd s t [] ∧ t = { s with regs := t.regs, fab := { s.fab with tx := t.fab.tx } }) ∧
      (3906 < age → isReply p.type = false →
        ∃ t, exec (.forward p lvc stay) s = .next t ∧ t.rd Reg.FAB_STAT.lifetime_drops = min (s.rd Reg.FAB_STAT.lifetime_drops + 1) 65535 ∧
          OnlyRegs s t [Reg.FAB_STAT.all.off] ∧ t = { s with regs := t.regs })) ∧
    (∀ (p : Packet), ¬ (1 ≤ p.type ∧ p.type ≤ 0x0A) → ¬ (0x81 ≤ p.type ∧ p.type ≤ 0x84) →
      ∃ t, exec (.malformedPacket p) s = .next t ∧ t.rd Reg.FAB_STAT2.malformed = min (s.rd Reg.FAB_STAT2.malformed + 1) 65535 ∧
        OnlyRegs s t [Reg.FAB_STAT2.all.off] ∧ t = { s with regs := t.regs }) ∧
    (∀ (p : Packet) (x : Arrival) g q, p.type = 3 → p.kind = 0 → p.dst = 0xF000 + g → g < 4095 → x.port < 36 → tooOld p = false →
      s.on (Reg.FAB_MCAST.valid g) = true → s.on (Reg.FAB_MCAST.local g) = true →
      (∀ k, k < 36 → bit (s.rd (Reg.FAB_MCAST.port_mask g)) k = true → k = x.port) → s.fabPart p = some q →
      s.permit q (p.addr / 64 * 64) p.payload.length = true → s.mesh.failed = [] → Live s (p.addr / 64 * 64) p.payload.length →
      ∃ t, exec (.mstore p x) s = .next t ∧ Stored s t (p.addr / 64 * 64) p.payload ∧
        Sends s t (fun y => y.type = 0x82 ∧ y.status = 0 ∧ y.dst = p.src ∧ y.seq = p.seq ∧ y.count = 1) ∧ MetersAnd s t [] ∧
        t = { s with regs := t.regs, fab := t.fab, mem := t.mem, free := t.free }) ∧
    (∀ (p : Packet) (x : Arrival) g k, p.type = 3 → p.kind = 0 → p.dst = 0xF000 + g → g < 4095 → k < 36 → k ≠ x.port → tooOld p = false →
      s.on (Reg.FAB_MCAST.valid g) = true → s.on (Reg.FAB_MCAST.local g) = false → bit (s.rd (Reg.FAB_MCAST.port_mask g)) k = true →
      (∀ j, j < 36 → bit (s.rd (Reg.FAB_MCAST.port_mask g)) j = true → j = k ∨ j = x.port) →
      ∃ t, exec (.mstore p x) s = .next t ∧ t.fab.mcast = s.fab.mcast ++ [⟨p, p.src, p.seq, g, x.port, [k], 0, s.time.cnt, 0⟩] ∧
        t.fab.tx = s.fab.tx ++ (if s.portUp k = true then
          [⟨k, if s.on (Reg.FAB_PORT_CFG.dateline k) = true ∧ x.lvc % 2 = 0 then x.lvc + 1 else x.lvc, p⟩] else []) ∧
        MetersAnd s t [] ∧ t = { s with regs := t.regs, fab := { s.fab with tx := t.fab.tx, mcast := t.fab.mcast } }) ∧
    (∀ (p : Packet) q key n ms, Served s 7 p q → key < 2 ^ 32 → 0 < n → n ≤ 64 → ms < 256 →
      let d := rsvDie p
      leNat (p.payload.take 64) = key + n * 2 ^ 32 + ms * 2 ^ 40 → d < 10 → s.tilePresent d = true → s.colFenced d = false →
      (∀ l, l ∈ s.fab.leases → l.die ≠ d ∨ l.key ≠ key ∨ l.domain ≠ p.domain) →
      n ≤ ((s.poolGranules d).filter (fun g => !(s.leased d).contains g)).length →
      ∃ t gs, exec (.rsvReq p) s = .next t ∧ t.fab.leases = s.fab.leases ++ [⟨d, key, p.domain, gs, s.time.cnt + 1600000 * (ms + 1)⟩] ∧ gs.length = n ∧
        (∀ g, g ∈ gs → g ∈ s.poolGranules d ∧ g ∉ s.leased d) ∧ Sends s t (Answers s p 0x84 0 (rsvLine key gs)) ∧
        MetersAnd s t [(Reg.FAB_RSV_STAT.all d).off] ∧ t.mem = s.mem) ∧
    (∀ (p : Packet) q l, Served s 8 p q → s.fab.leases = [l] → l.die = rsvDie p → l.key = leNat (p.payload.take 4) → l.domain = p.domain →
      ∃ t, exec (.rsvRel p) s = .next t ∧ t.fab.leases = [] ∧ Sends s t (Answers s p 0x84 0 (rsvLine l.key [])) ∧ t.mem = s.mem) ∧
    (∀ l, s.fab.leases = [l] →
      ∃ t, exec (.leaseExpiry 0) s = .next t ∧ t.fab.leases = [] ∧ t.time = { s.time with cnt := max s.time.cnt l.expiry } ∧
        t.rd (Reg.FAB_RSV_STAT.expiries l.die) = min (s.rd (Reg.FAB_RSV_STAT.expiries l.die) + 1) 65535 ∧
        OnlyRegs s t [(Reg.FAB_RSV_STAT.all l.die).off] ∧
        ∀ a, Mem.rd t.mem.bytes a = if a / 65536 ∈ l.granules.map (fun g => 0x2000000 + l.die * 256 + g) then 0 else Mem.rd s.mem.bytes a)

/-- R337, R340, R344, R347, R348, R350, R362, R365: a frame that passes its checks joins its queue as one packet and fills its Blotter; one
with a bad FCS is rewound and counted; one that nothing matches is dropped and counted. PFC frames pause the priorities they name, pauses run
out, FH_XOFF follows the fill after its hold, is refreshed, and links go down and come up.
Where the spec is silent it rests on the model's choices of log entries 8 and 34. -/
def Obligations.EthernetReceive : Prop :=
  ∀ (s : State) (m : Nat), s.macUp m = true → m < 32 →
    let p := m / 4
    let calm := s.on (Reg.BLT_PORT_CFG.xoff_en p) = false ∧ s.on (Reg.BLT_FILL.xoff p) = false ∧ NMap.get false s.eth.xoffIn p = false
    let fillReg := (Reg.BLT_FILL.all p).off
    (∀ lag bytes q id o n, calm → NMap.get 0 s.eth.cut m = 0 → NMap.find s.eth.partials m = none → 60 ≤ bytes.length →
      bytes.length + 4 ≤ s.rd (Reg.ETH_MAC_CFG.mtu m) → NMap.get 0 s.eth.fill p + bytes.length + 4 ≤ 0x400000 → frameTags bytes = some (o, n) →
      beNat ((bytes.drop o).take 2) ≠ 0x8808 → s.rxClass m bytes = .queue q id → s.rd (Reg.BLT_RXQ_CFG.kind q) = 3 →
      (s.rxq q).foldl (fun a x => a + x.space) 0 + bytes.length + 4 ≤ (s.rd (Reg.BLT_RXQ_CFG.limit_64k_m1 q) + 1) * 65536 →
      s.rxBuf (s.rd (Reg.BLT_RXQ_CFG.owner q)) = none → (∀ x, x ∈ s.rxq q → x.cnt = s.time.cnt → x.port ≤ p) →
      let h := s.rd (Reg.BLT_RXQ_CFG.owner q)
      ∃ t pkt, exec (.frameReceived m true true false lag bytes) s = .next t ∧ t.rxq q = s.rxq q ++ [pkt] ∧ (∀ j, j ≠ q → t.rxq j = s.rxq j) ∧
        pkt.port = p ∧ pkt.mac = m % 16 ∧ pkt.vid = n ∧ pkt.id = id ∧ pkt.head ++ pkt.body = bytes ∧ pkt.head.length = o + 2 ∧
        pkt.space = bytes.length + 4 ∧ pkt.cnt = s.time.cnt ∧ NMap.get 0 t.eth.fill p = NMap.get 0 s.eth.fill p + bytes.length + 4 ∧
        t.rd (Reg.BLT_RXQ_STAT.packets q) = min (s.rd (Reg.BLT_RXQ_STAT.packets q) + 1) (2 ^ (Reg.BLT_RXQ_STAT.packets q).w - 1) ∧
        OnlyRegs s t [fillReg, (Reg.BLT_RXQ_STAT.all q).off, (Reg.PART_METER.all (s.hqOwner h) 6).off] ∧ t = { s with regs := t.regs, eth := t.eth }) ∧
    (∀ lag bytes, calm → NMap.get 0 s.eth.cut m = 0 → NMap.find s.eth.partials m = none → s.rxFull m 0 bytes (bytes.length + 4) = false →
      ∃ t, exec (.frameReceived m true false false lag bytes) s = .next t ∧ t.eth.rxq = s.eth.rxq ∧
        t.rd (Reg.BLT_STAT.error_rewinds p) = min (s.rd (Reg.BLT_STAT.error_rewinds p) + 1) (2 ^ (Reg.BLT_STAT.error_rewinds p).w - 1) ∧
        t.rd (Reg.ETH_MAC_CNT.fcs_errors m) = min (s.rd (Reg.ETH_MAC_CNT.fcs_errors m) + 1) (2 ^ (Reg.ETH_MAC_CNT.fcs_errors m).w - 1) ∧
        OnlyRegs s t [fillReg, (Reg.BLT_STAT.all p).off, (Reg.ETH_MAC_CNT.all m).off] ∧ t = { s with regs := t.regs, eth := t.eth }) ∧
    (∀ lag bytes, calm → NMap.get 0 s.eth.cut m = 0 → NMap.find s.eth.partials m = none → 60 ≤ bytes.length →
      bytes.length + 4 ≤ s.rd (Reg.ETH_MAC_CFG.mtu m) → NMap.get 0 s.eth.fill p + bytes.length + 4 ≤ 0x400000 →
      (∀ o n, frameTags bytes = some (o, n) → beNat ((bytes.drop o).take 2) ≠ 0x8808) → frameTags bytes ≠ none → s.rxClass m bytes = .drop →
      ∃ t, exec (.frameReceived m true true false lag bytes) s = .next t ∧ t.eth.rxq = s.eth.rxq ∧
        t.rd (Reg.ETH_MAC_CNT.dropped_unmatched m) =
          min (s.rd (Reg.ETH_MAC_CNT.dropped_unmatched m) + 1) (2 ^ (Reg.ETH_MAC_CNT.dropped_unmatched m).w - 1) ∧
        OnlyRegs s t [fillReg, (Reg.ETH_MAC_CNT.all m).off] ∧ t = { s with regs := t.regs, eth := t.eth }) ∧
    (∀ n at_, calm → NMap.find s.eth.partials m = some (n, at_) →
      ∃ t, exec (.packetStall false m) s = .next t ∧ NMap.find t.eth.partials m = none ∧ NMap.get 0 t.eth.cut m = 4 * t.time.cnt + 1 ∧ t.eth.rxq = s.eth.rxq ∧
        t.time = { s.time with cnt := max s.time.cnt (at_ + 1600 * (s.rd (Reg.BLT_PORT_CFG.stall_us_m1 p) + 1)) } ∧
        NMap.get 0 t.eth.fill p = NMap.get 0 s.eth.fill p - n ∧
        t.rd (Reg.BLT_STAT.stall_rewinds p) = min (s.rd (Reg.BLT_STAT.stall_rewinds p) + 1) (2 ^ (Reg.BLT_STAT.stall_rewinds p).w - 1) ∧
        OnlyRegs s t [fillReg, (Reg.BLT_STAT.all p).off]) ∧
    (∀ vec quanta, ∃ t, exec (.pfcFrame m vec quanta) s = .next t ∧ t.eth.rxq = s.eth.rxq ∧ OnlyRegs s t [(Reg.ETH_MAC_CNT.all m).off] ∧
      (∀ k, k < 8 → NMap.get 0 t.eth.pause (8 * m + k) =
        if bit vec k = true ∧ bit (s.rd (Reg.ETH_MAC_CFG.pfc_rx_honour m)) k = true then
          (if quanta.getD k 0 = 0 then 0 else s.time.cnt + cdiv (quanta.getD k 0 * 512 * 8) (5 * s.macRate m))
        else NMap.get 0 s.eth.pause (8 * m + k)) ∧
      t = { s with regs := t.regs, eth := { s.eth with pause := t.eth.pause } }) ∧
    (∀ k c, k < 8 → NMap.find s.eth.pause (8 * m + k) = some c →
      ∃ t, exec (.pfcPauseExpiry m k) s = .next t ∧ NMap.get 0 t.eth.pause (8 * m + k) = 0 ∧
        (∀ j, j ≠ 8 * m + k → NMap.get 0 t.eth.pause j = NMap.get 0 s.eth.pause j) ∧
        t = { s with time := { s.time with cnt := max s.time.cnt c }, eth := { s.eth with pause := t.eth.pause } }) ∧
    (let want := NMap.get false s.eth.xoffIn p
     0 < NMap.get 0 s.eth.xoffAt p → want ≠ s.on (Reg.BLT_FILL.xoff p) →
      ∃ t, exec (.xoffHoldEnd p) s = .next t ∧ t.on (Reg.BLT_FILL.xoff p) = want ∧
        t.time = { s.time with cnt := max s.time.cnt (NMap.get 0 s.eth.xoffAt p + 1599) } ∧ OnlyRegs s t [fillReg] ∧
        t = { s with regs := t.regs, eth := t.eth, time := t.time }) ∧
    (s.on (Reg.BLT_FILL.xoff p) = true → s.rd (Reg.ETH_MAC_CFG.pfc_tx_mask m) ≠ 0 →
      ∃ t f, exec (.pfcRefresh m) s = .next t ∧ t.eth.sent = s.eth.sent ++ [f] ∧ f.mac = m ∧ f.badFcs = false ∧
        f.bytes = pfcBytes (s.rd (Reg.ETH_MAC_ADDR.addr m)) (s.rd (Reg.ETH_MAC_CFG.pfc_tx_mask m)) 0xFFFF ∧
        t.time = { s.time with cnt := max s.time.cnt (NMap.get 0 s.eth.pfcAt m + 1600 * (s.rd (Reg.ETH_MAC_CFG.pfc_refresh_us_m1 m) + 1)) } ∧
        t = { s with eth := t.eth, time := t.time }) ∧
    (NMap.find s.eth.partials m = none →
      ∃ t u, exec (.ethLinkDown m) s = .next t ∧ t.macUp m = false ∧
        t.rd (Reg.ETH_PORT_STAT.link_downs p) = min (s.rd (Reg.ETH_PORT_STAT.link_downs p) + 1) (2 ^ (Reg.ETH_PORT_STAT.link_downs p).w - 1) ∧
        t.eth = { s.eth with cut := t.eth.cut } ∧ OnlyRegs s u [(Reg.ETH_PORT_STAT.all p).off] ∧
        u = { s with regs := u.regs, eth := t.eth } ∧ Raised u t ⟨0x7001, 0x7F, 8 + m / 16, m % 16, 0, 1, 0, 0, 0⟩) ∧
    (∀ k, k < 32 → s.macRate k ≠ 0 →
      ∃ t, exec (.ethLinkUp k) s = .next t ∧ t.macUp k = true ∧ OnlyRegs s t [(Reg.ETH_PORT_STAT.all (k / 4)).off] ∧ t = { s with regs := t.regs })

/-- R351 to R357: a ready MAC sends the head message of its eligible queue as one frame, with the queue's header and its sequence count; with
nothing eligible, or at a gate change, only time passes; a message whose late limit has passed is removed and counted.
Where the spec is silent it rests on the model's choices of log entries 34 and 64. -/
def Obligations.EthernetEgress : Prop :=
  ∀ (s : State) (m q : Nat) (x : TxMsg) (r : List TxMsg),
    let rate := s.macRate m
    let l := s.egFrameLen q x.body.length
    let seq := NMap.get 0 s.eth.seq q
    (∀ upset, s.macUp m = true → s.eth.egq = [(q, x :: r)] → s.eth.ptp = [] → s.eth.svcWait = [] → s.on (Reg.EQS_MAC_CFG.gate_en m) = false →
      s.on (Reg.EQS_MAC_CFG.kw5 m) = false → s.egqOn q = true → s.egqMac q = m → s.rd (Reg.EQS_Q_CFG.kind q) ≠ 1 → x.host = none →
      NMap.get 0 s.eth.pause (8 * m + s.rd (Reg.EQS_Q_HDR.pcp q)) ≤ s.time.cnt → s.rd (Reg.EQS_Q_CFG.tc q) < 8 →
      ∃ t, exec (.egressSelection m upset) s = .next t ∧ s.time.cnt ≤ t.time.cnt ∧ t.time = { s.time with cnt := t.time.cnt } ∧
        t.eth.sent = s.eth.sent ++ [⟨m, s.egFrame q x seq, upset, t.t32n⟩] ∧ (t.egq q).map (fun y => y.body) = r.map (fun y => y.body) ∧
        NMap.get 0 t.eth.seq q = (seq + 1) % 256 ∧ NMap.get 0 t.eth.busy m = t.t32n + frameTime ((s.egFrame q x seq).length + 4) rate ∧
        t.wfqV m (s.rd (Reg.EQS_Q_CFG.tc q)) = max (s.wfqV m (s.rd (Reg.EQS_Q_CFG.tc q))) x.fh ∧
        t.rd (Reg.ETH_MAC_CNT.tx_errors m) =
          (if upset then min (s.rd (Reg.ETH_MAC_CNT.tx_errors m) + 1) (2 ^ (Reg.ETH_MAC_CNT.tx_errors m).w - 1) else s.rd (Reg.ETH_MAC_CNT.tx_errors m)) ∧
        t.core = s.core ∧ t.mem = s.mem ∧ t.host = s.host ∧ t.hq = s.hq ∧ l = (s.egFrame q x seq).length + 4) ∧
    (∀ upset, s.macUp m = true → s.eth.egq = [] → s.eth.ptp = [] →
      ∃ t, exec (.egressSelection m upset) s = .next t ∧ s.time.cnt ≤ t.time.cnt ∧ t = { s with time := { s.time with cnt := t.time.cnt } }) ∧
    (∀ i, (s.egq q)[i]? = some x → s.eth.svcWait = [] → s.rd (Reg.EQS_Q_CFG.kind q) = 1 → s.rd (Reg.EQS_Q_CFG.owner q) < 1024 →
      let c := s.rd (Reg.EQS_Q_CFG.owner q)
      ∃ t, exec (.txLate q i) s = .next t ∧ (t.egq q).map (fun y => y.body) = ((s.egq q).eraseIdx i).map (fun y => y.body) ∧
        t.rd (Reg.EQS_Q_STAT.late q) = min (s.rd (Reg.EQS_Q_STAT.late q) + 1) (2 ^ (Reg.EQS_Q_STAT.late q).w - 1) ∧
        t.rd (Reg.RAD_CELL_STAT.late_msgs c) = min (s.rd (Reg.RAD_CELL_STAT.late_msgs c) + 1) (2 ^ (Reg.RAD_CELL_STAT.late_msgs c).w - 1) ∧
        s.time.cnt ≤ t.time.cnt ∧ t.eth.sent = s.eth.sent ∧ t.core = s.core ∧ t.mem = s.mem) ∧
    (m < 32 → s.on (Reg.EQS_MAC_CFG.gate_en m) = true →
      ∃ t, exec (.gateChange m) s = .next t ∧ s.time.cnt ≤ t.time.cnt ∧ t = { s with time := { s.time with cnt := t.time.cnt } })

/-- R490 to R493, R495, R497 to R500, R518: a doorbell or a poll starts a tail read; a fetch takes the new entries in ring order; NOP, the
copies and SEM_POST do what they say and complete with one record; NET_TX hands its frame to its egress queue and RX_BUF posts its buffer;
a timed-out access fails its command or stops its queue; the link and the power state of the function follow the endpoint.
Where the spec is silent it rests on the model's choices of log entries 33 and 88. -/
def Obligations.HostInterface : Prop :=
  ∀ (s : State) (q : Nat), q < 4096 →
    let h := s.hq_ q
    let ring := fun (t : State) => OnlyRegs s t [(Reg.HQ_Q_STAT.all q).off] ∧ (∀ j, j ≠ q → t.hq_ j = s.hq_ j) ∧
      t = { s with regs := t.regs, hq := { s.hq with q := t.hq.q }, time := t.time }
    let nobody := fun (_ : Nat) => False
    (s.hqMayFetch q = true → h.reading = false →
      ∃ t, exec (.doorbell q []) s = .next t ∧ t.hq_ q = { h with reading := true } ∧ ring t ∧ t.time = s.time) ∧
    (s.hqLive q = true → s.hqMayFetch q = false ∨ h.reading = true →
      ∃ t, exec (.doorbell q []) s = .next t ∧ t.hq_ q = { h with again := true } ∧ ring t ∧ t.time = s.time) ∧
    (s.hqMayFetch q = true → h.reading = false → 0 < s.rd (Reg.HQ_Q_CFG.poll_code q) → s.rd (Reg.HQ_Q_CFG.poll_code q) ≤ 8 →
      ∃ t, exec (.tailPoll q []) s = .next t ∧ t.hq_ q = { h with reading := true } ∧ ring t ∧
        t.time = { s.time with cnt := max s.time.cnt (h.lastRead + 100000 * 2 ^ (s.rd (Reg.HQ_Q_CFG.poll_code q) - 1)) }) ∧
    (∀ pasid n, s.hqMayFetch q = true → h.reading = true → h.again = false → h.cmds = [] → s.hqPasid q = some pasid →
      Mem.rdN s.host (hostKey pasid (s.sqBase q)) 8 = h.head + n → h.head + n < 2 ^ 64 → 0 < n → n ≤ s.sqSize q → n ≤ 256 → n ≤ s.cqFree q →
      (∀ i, i < n → hKnown (bits (s.sqEntry q pasid (h.head + i)) 0 8) = true) →
      ∃ t, exec (.commandFetch q true []) s = .next t ∧ (t.hq_ q).head = h.head + n ∧ (t.hq_ q).reading = false ∧
        (t.hq_ q).cmds = (List.range n).map (fun i => ⟨h.head + i, s.sqEntry q pasid (h.head + i), false, false⟩) ∧
        Mem.rdN t.host (hostKey pasid (s.sqBase q + 8)) 8 = h.head + n ∧ (∀ j, j ≠ q → t.hq_ j = s.hq_ j) ∧
        OnlyRegs s t [(Reg.HQ_Q_STAT.all q).off, (Reg.HQ_Q_FLAGS.all q).off] ∧
        t = { s with regs := t.regs, hq := { s.hq with q := t.hq.q }, host := t.host }) ∧
    (∀ c, OnlyCommand s q c 0x01 → hReservedOk c (msk 64 448) = true →
      ∃ t, exec (.hqNop q c.index) s = .next t ∧ Completed s t q c 0 nobody ∧ OnlyRegs s t [(Reg.HQ_Q_STAT.all q).off] ∧
        t = { s with regs := t.regs, hq := { s.hq with q := t.hq.q }, host := t.host }) ∧
    (∀ c, OnlyCommand s q c 0x01 → hReservedOk c (msk 64 448) = false →
      ∃ t, exec (.hqNop q c.index) s = .next t ∧ Completed s t q c 2 nobody ∧ OnlyRegs s t [(Reg.HQ_Q_STAT.all q).off]) ∧
    (∀ c pasid, OnlyCommand s q c 0x02 → s.hqPasid q = some pasid → hReservedOk c (msk 176 16 + msk 239 273) = true → cpIova c % 64 = 0 →
      cpAddr c % 64 = 0 → cpBytes c % 64 = 0 → 0 < cpBytes c → cpSem c = none → cpIova c + cpBytes c < 2 ^ 64 →
      s.permit (s.hqOwner q) (cpAddr c) (cpBytes c) = true → s.mesh.failed = [] → Live s (cpAddr c) (cpBytes c) →
      ∃ t, exec (.copyIn q c.index true) s = .next t ∧ Completed s t q c 0 nobody ∧
        (∀ i, i < cpBytes c → t.ldN (cpAddr c + i) 1 = Mem.rd s.host (hostKey pasid (cpIova c) + i)) ∧ t.core = s.core ∧ t.sem = s.sem) ∧
    (∀ c pasid, OnlyCommand s q c 0x03 → s.hqPasid q = some pasid → hReservedOk c (msk 176 16 + msk 239 273) = true → cpIova c % 64 = 0 →
      cpAddr c % 64 = 0 → cpBytes c % 64 = 0 → 0 < cpBytes c → cpSem c = none → cpIova c + cpBytes c < 2 ^ 64 →
      s.permit (s.hqOwner q) (cpAddr c) (cpBytes c) = true →
      s.mesh.failed = [] → (cpIova c + cpBytes c ≤ s.cqBase q ∨ s.cqBase q + 64 + 32 * s.cqSize q ≤ cpIova c) →
      ∃ t, exec (.copyOut q c.index true) s = .next t ∧
        Completed s t q c 0 (fun a => hostKey pasid (cpIova c) ≤ a ∧ a < hostKey pasid (cpIova c) + cpBytes c) ∧
        (∀ i, i < cpBytes c → Mem.rd t.host (hostKey pasid (cpIova c) + i) = s.ldN (cpAddr c + i) 1) ∧ t.mem = { s.mem with ts := t.mem.ts } ∧
        t.core = s.core ∧ t.sem = s.sem) ∧
    (∀ c k, OnlyCommand s q c 0x04 → hReservedOk c (msk 78 2 + msk 96 416) = true → k = bits c.raw 64 14 → s.semOwned k (s.hqOwner q) = true →
      s.semWaiters k = [] →
      ∃ t, exec (.semPost q c.index) s = .next t ∧ Completed s t q c 0 nobody ∧
        t.semVal k = (if bits c.raw 80 16 = 0 then s.semVal k else min (s.semVal k + bits c.raw 80 16) (2 ^ 32 - 1)) ∧
        (∀ j, j ≠ k → t.semVal j = s.semVal j) ∧ t.core = s.core ∧ t.mem = s.mem) ∧
    (∀ c pasid, OnlyCommand s q c 0x10 → s.hqPasid q = some pasid → hReservedOk c (msk 142 2 + msk 224 288) = true →
      let e := bits c.raw 128 13
      let n := bits c.raw 208 16
      0 < n → s.rd (Reg.EQS_Q_CFG.kind e) = 3 → s.rd (Reg.EQS_Q_CFG.owner e) = q → s.egOversize e n = false → s.egRoom e n = true →
      ∃ t x, exec (.netTx q c.index true) s = .next t ∧ t.egq e = s.egq e ++ [x] ∧ (∀ j, j ≠ e → t.egq j = s.egq j) ∧
        x.body = Mem.bytes s.host (hostKey pasid (bits c.raw 64 64)) n ∧ x.dst = some (bits c.raw 144 48) ∧ x.etype = some (bits c.raw 192 16) ∧
        x.host = some (q, c.index) ∧ (t.hq_ q).cmds = [{ c with started := true }] ∧ t.host = s.host ∧
        t = { s with regs := t.regs, hq := { s.hq with q := t.hq.q }, eth := { s.eth with egq := t.eth.egq } }) ∧
    (∀ c, OnlyCommand s q c 0x11 → hReservedOk c (msk 160 352) = true → bits c.raw 64 64 % 64 = 0 → bits c.raw 128 32 ≠ 0 → s.hostPacket q = none →
      ∃ t, exec (.rxBuf q c.index) s = .next t ∧ (t.hq_ q).cmds = [{ c with started := true, posted := true }] ∧ ring t ∧ t.time = s.time) ∧
    (∀ c, OnlyCommand s q c 0x02 →
      ∃ t, exec (.hostAccessTimeout q (some c.index)) s = .next t ∧ (t.hq_ q).cmds = [] ∧ t.mem = s.mem ∧ t.core = s.core ∧ t.sem = s.sem ∧
        (t.hq_ q).written = ((s.hq_ q).written + 1) % 2 ^ 64) ∧
    (s.hqLive q = true → h.reading = true →
      ∃ t, exec (.hostAccessTimeout q none) s = .next t ∧ t.on (Reg.HQ_Q_FLAGS.error q) = true ∧ t.hqLive q = false ∧
        t.hq_ q = { h with reading := false, again := false } ∧ t.mem = s.mem ∧ t.core = s.core ∧ t.sem = s.sem) ∧
    exec .atsInvalidation s = .next { s with hq := { s.hq with ats := s.hq.ats + 1 } } ∧
    (∃ t, exec .pcieLinkDown s = .next t ∧ t.on Reg.HQ_LINK.up = false ∧ t.hostUp = false ∧ OnlyRegs s t [Reg.HQ_LINK.all.off] ∧
      t = { s with regs := t.regs }) ∧
    (∀ c, OnlyCommand s q c 0x11 → hReservedOk c (msk 160 352) = true → bits c.raw 64 64 % 64 = 0 → bits c.raw 128 32 = 0 →
      ∃ t, exec (.rxBuf q c.index) s = .next t ∧ Completed s t q c 0 nobody ∧ t.eth = s.eth) ∧
    (∀ c, OnlyCommand s q c 0x10 → hReservedOk c (msk 142 2 + msk 224 288) = true → bits c.raw 208 16 = 0 →
      s.rd (Reg.EQS_Q_CFG.kind (bits c.raw 128 13)) = 3 → s.rd (Reg.EQS_Q_CFG.owner (bits c.raw 128 13)) = q →
      ∃ t, exec (.netTx q c.index true) s = .next t ∧ Completed s t q c 0 nobody ∧ t.eth = s.eth) ∧
    (∀ speed width, s.pins.coreReady = true → s.pins.perst = true → 3 ≤ speed → speed ≤ 5 → width ∈ [1, 2, 4, 8, 16] →
      ∃ t, exec (.pcieLinkUp speed width) s = .next t ∧ t.on Reg.HQ_LINK.up = true ∧ t.rd Reg.HQ_LINK.speed = speed ∧
      t.rd Reg.HQ_LINK.width = width ∧ t.rd Reg.HQ_LINK.dropped_writes = s.rd Reg.HQ_LINK.dropped_writes ∧
      OnlyRegs s t [Reg.HQ_LINK.all.off] ∧ t = { s with regs := t.regs }) ∧
    (∀ d3, exec (.pciePowerState d3) s = .next { s with hq := { s.hq with d3hot := d3 } })

/-- R232 to R240, R254, R260, R261: commands from hosts and tenants to the serving engines. A SUBMIT that passes its checks is held QUEUED under
the lowest free handle with its prompt, else refused with its record; a CANCEL marks its request; an adapter is copied to a free slot, goes
live at an edge, and is dropped to its pins; the same by a service message; a late request that asked for it ends with DEADLINE; a queued
request starts its prompt phase.
Where the spec is silent it rests on the model's choices of log entries 39 and 40. -/
def Obligations.ServingCommands : Prop :=
  ∀ (s : State) (q p : Nat) (c : HCmd), q < 4096 →
    let raw := c.raw / 2 ^ 64 * 2 ^ 64
    let n := rqLen raw
    let nobody := fun (_ : Nat) => False
    (s.srvPart q = some p →
      (∀ h a pasid, OnlyCommand s q c 0x40 → bits c.raw 10 22 = 0 → s.submitCheck p raw = 0xFFFF → rqAdEn raw = false → s.freeHandle p = some h →
        s.promptRoom p (64 * cdiv n 16) = some a → s.hqPasid q = some pasid →
        let prompt := tokensOf n (Mem.rdN s.host (hostKey pasid (rqIova raw)) (4 * n))
        Live s a (4 * n) →
        ∃ t, exec (.submit q c.index) s = .next t ∧
          Has s t (rqKey p h) (newReq p h raw (.host q c.index) s.devId s.tickNum prompt (some (a, 64 * cdiv n 16))) ∧
          (s.permit p a (4 * n) = true → Stored s t a (prompt.flatMap (fun x => leBytes x 4))) ∧ (t.hq_ q).cmds = [{ c with started := true }] ∧
          (∀ j, j ≠ q → t.hq_ j = s.hq_ j) ∧ OnlyRegs s t [(Reg.HQ_Q_STAT.all q).off] ∧ t.host = s.host ∧ t.core = s.core) ∧
      (OnlyCommand s q c 0x40 → bits c.raw 10 22 = 0 → s.submitCheck p raw ≠ 0xFFFF →
        ∃ t, exec (.submit q c.index) s = .next t ∧ Completed s t q c (s.submitCheck p raw) nobody ∧ t.srv = s.srv ∧ t.mem = s.mem ∧
          OnlyRegs s t [(Reg.HQ_Q_STAT.all q).off]) ∧
      (∀ k r, OnlyCommand s q c 0x41 → hReservedOk c (msk 64 32 + msk 128 384) = true → s.byId p (bits c.raw 96 32) = some k → s.req k = some r →
        r.leaving = none →
        ∃ t, exec (.cancel q c.index) s = .next t ∧ Completed s t q c 0 nobody ∧ Has s t k { r with leaving := some stCancelled } ∧ t.mem = s.mem ∧
          OnlyRegs s t [(Reg.HQ_Q_STAT.all q).off]) ∧
      (∀ k pasid, OnlyCommand s q c 0x42 → hReservedOk c (msk 64 16 + msk 112 16 + msk 224 288) = true → s.srv.loads = [] → s.hqPasid q = some pasid →
        let size := bits c.raw 192 32
        0 < size → size ≤ s.rd (Reg.INK_ADAPTER_CFG.slot_64k p) → (∀ j, s.adLive p (bits c.raw 80 16) = some j → s.rd (Reg.INK_ADAPTER_STAT.version j) < bits c.raw 96 16) →
        (s.adSlots p).find? (fun k => decide (s.rd (Reg.INK_ADAPTER_STAT.state k) = 0)) = some k → s.permit p (s.adAddr p k) (size * 65536) = true →
        Live s (s.adAddr p k) (size * 65536) →
        ∃ t, exec (.adapterLoad q c.index) s = .next t ∧ t.srv.loads = [⟨p, q, c.index, some k, true, false⟩] ∧
          t.rd (Reg.INK_ADAPTER_STAT.state k) = 1 ∧ t.rd (Reg.INK_ADAPTER_STAT.adapter_id k) = bits c.raw 80 16 ∧
          t.rd (Reg.INK_ADAPTER_STAT.version k) = bits c.raw 96 16 ∧
          (∀ i, i < size * 65536 → t.ldN (s.adAddr p k + i) 1 = Mem.rd s.host (hostKey pasid (bits c.raw 128 64) + i)) ∧
          (t.hq_ q).cmds = [{ c with started := true }] ∧ OnlyRegs s t [(Reg.HQ_Q_STAT.all q).off, (Reg.INK_ADAPTER_STAT.all k).off]) ∧
      (∀ k, AwaitsRecord s q c → s.srv.loads = [⟨p, q, c.index, some k, true, false⟩] → k < 1024 → s.srv.dropped = [] → s.srv.reqs = [] →
        (∀ j, j ∈ s.adHeld p (s.rd (Reg.INK_ADAPTER_STAT.adapter_id k)) (fun x => x == 2) → s.rd (Reg.INK_ADAPTER_STAT.refs j) ≠ 0) →
        ∃ t, exec (.adapterLive k) s = .next t ∧ Completed s t q c 0 nobody ∧ t.rd (Reg.INK_ADAPTER_STAT.state k) = 2 ∧ t.srv.loads = [] ∧
          (∀ j, j ∈ s.adHeld p (s.rd (Reg.INK_ADAPTER_STAT.adapter_id k)) (fun x => x == 2) → j ≠ k → t.rd (Reg.INK_ADAPTER_STAT.state j) = 3) ∧ t.mem = s.mem) ∧
      (OnlyCommand s q c 0x43 → hReservedOk c (msk 64 16 + msk 96 416) = true → s.adHeld p (bits c.raw 80 16) (fun x => x != 0) ≠ [] →
        s.adHeld p (bits c.raw 80 16) (fun x => x == 1) = [] →
        ∃ t, exec (.adapterDrop q c.index) s = .next t ∧ Completed s t q c 0 nobody ∧ t.srv = s.srv ∧ t.mem = s.mem ∧
          ∀ j, j ∈ s.adHeld p (bits c.raw 80 16) (fun x => x == 2) → t.rd (Reg.INK_ADAPTER_STAT.state j) = if s.rd (Reg.INK_ADAPTER_STAT.refs j) = 0 then 0 else 3)) ∧
    (∀ m rest, NMap.get [] s.eth.svcDone q = m :: rest → s.rd (Reg.BLT_RXQ_CFG.owner q) = p → p < 64 → s.rd (Reg.BLT_RXQ_CFG.kind q) = 2 →
      s.on (Reg.SRV_PART_CFG.enable p) = true →
      let raw := leNat (m.bytes.take 56) * 2 ^ 64
      (∀ h a, m.kind = 1 → s.submitCheck p raw = 0xFFFF → rqAdEn raw = false → 56 + 4 * rqLen raw ≤ m.bytes.length → s.freeHandle p = some h →
        s.promptRoom p (64 * cdiv (rqLen raw) 16) = some a → Live s a (4 * rqLen raw) →
        ∃ t, exec (.svcSubmit q) s = .next t ∧ NMap.get [] t.eth.svcDone q = rest ∧
          Has s t (rqKey p h) (newReq p h raw (.eth q m.svcId m.src) s.devId s.tickNum (tokensOf (rqLen raw) (leNat (m.bytes.drop 56)))
            (some (a, 64 * cdiv (rqLen raw) 16))) ∧ t.regs = s.regs ∧ t.core = s.core ∧ t.hq = s.hq ∧ t.host = s.host) ∧
      (∀ k r, m.kind = 2 → s.byId p (leNat (m.bytes.take 4)) = some k → s.req k = some r → r.leaving = none →
        ∃ t, exec (.svcCancel q) s = .next t ∧ NMap.get [] t.eth.svcDone q = rest ∧ Has s t k { r with leaving := some stCancelled } ∧
          t = { s with srv := t.srv, eth := t.eth })) ∧
    (∀ h r, s.req (rqKey p h) = some r → h < 65536 → (r.st = .queued ∨ r.st = .joinWait) → rqDropLate r.raw = true → rqClass r.raw < 2 → r.goal < s.tickNum →
      r.first = false → r.src = .host q c.index → AwaitsRecord s q c → r.promptDev = 0xFFFF → r.genDev = 0xFFFF → r.second = none → r.held = 0 → r.slot = none →
      ∃ t, exec (.deadlineMissed p h) s = .next t ∧ Completed s t q c stDeadline nobody ∧ t.req (rqKey p h) = none ∧
        (∀ j, j ≠ rqKey p h → t.req j = s.req j) ∧ t.mem = s.mem ∧ OnlyRegs s t [(Reg.HQ_Q_STAT.all q).off]) ∧
    (∀ h r i, s.srv.reqs = [(rqKey p h, r)] → h < 65536 → r.part = p → s.promptTile p = some i → r.st = .queued → r.leaving = none → rqAdEn r.raw = false → r.src ≠ .remote → r.tried = [] →
      s.partState p = 1 → s.liveEpoch p = 0 → s.on (Reg.SRV_PART_CFG.index_en p) = false →
      let r1 := { r with epoch := 0, promptDev := s.devId, genDev := s.devId, second := none }
      (((s.setReq (rqKey p h) r1).took 1).allocBlocks p h (s.genMask p (rqModel r.raw) false) (some (i + 4)) r.blocks 0).isSome = true →
      ∃ t, exec (.promptPhaseStart p) s = .next t ∧
        Has s t (rqKey p h) { r1 with st := .prefill, ptile := i, hit := 0, held := r.blocks, ready := 0, roles := 3 } ∧ t.core = s.core ∧ t.hq = s.hq ∧ t.host = s.host ∧ t.fab = s.fab)

/-- R242, R243, R252, R267: at a boundary of a batch whose step is complete the scheduler ends those that leave, seats those that may join or
resume, advances the step, writes its table and posts its semaphore; a batch whose step is not complete only counts it. A STEP_DONE
completes the step it names, a KV_READY the blocks it names.
Where the spec is silent it rests on the model's choices of log entries 39, 45, 83 and 87. -/
def Obligations.BatchesAndSteps : Prop :=
  ∀ (s : State) (b : Nat), b < 64 → s.on (Reg.SRV_BATCH_CFG.enable b) = true →
    let p := s.rd (Reg.SRV_BATCH_CFG.partition b)
    let x := s.batch b
    let base := s.rd (Reg.SRV_BATCH_TAB.base b)
    let sem := s.rd (Reg.SRV_BATCH_CFG.step_sem b)
    (s.tickNum / 2 ^ s.rd Reg.TICK_STAT.period_code % (s.rd (Reg.SRV_BATCH_CFG.step_ticks_m1 b) + 1) = 0 → x.taken ≠ s.tickNum + 1 →
      (x.stepDone = false →
        ∃ t, exec (.batchBoundary b) s = .next t ∧ t.batch b = { x with taken := s.tickNum + 1 } ∧ t.srv.reqs = s.srv.reqs ∧ t.mem = s.mem ∧ t.sem = s.sem ∧
          t.rd (Reg.SRV_BATCH_STAT.skipped b) = min (s.rd (Reg.SRV_BATCH_STAT.skipped b) + 1) (2 ^ (Reg.SRV_BATCH_STAT.skipped b).w - 1) ∧
          t.rd (Reg.SRV_BATCH_STAT.step b) = s.rd (Reg.SRV_BATCH_STAT.step b) ∧ OnlyRegs s t [(Reg.SRV_BATCH_STAT.all b).off]) ∧
      (x.stepDone = true → s.partState p = 1 → x.seats = [] → s.srv.reqs = [] → s.srv.pendFree = [] → s.semOwned sem p = true → s.semWaiters sem = [] → Live s base 64 →
        ∃ t, exec (.batchBoundary b) s = .next t ∧ t.batch b = ⟨[], false, s.tickNum + 1⟩ ∧
          t.rd (Reg.SRV_BATCH_STAT.step b) = (s.rd (Reg.SRV_BATCH_STAT.step b) + 1) % 2 ^ 32 ∧ t.semVal sem = min (s.semVal sem + 1) (2 ^ 32 - 1) ∧
          (s.permit p base 64 = true → t.ldN base 4 = t.rd (Reg.SRV_BATCH_STAT.step b) ∧ t.ldN (base + 4) 1 = 0 ∧ t.ldN (base + 8) 8 = s.tickNum % 2 ^ 64) ∧
          OnlyRegs s t [(Reg.SRV_BATCH_STAT.all b).off] ∧ t.core = s.core ∧ t.hq = s.hq ∧ t.host = s.host) ∧
      (∀ k r ctx, x.stepDone = true → s.partState p = 1 → x.seats = [] → s.srv.reqs = [(k, r)] → s.srv.pendFree = [] → r.part = p → k = rqKey p r.handle →
        r.handle < 65536 → r.st = .paused → r.batch = some b → r.leaving = none → r.qctx = some ctx → s.blocksShort r = 0 →
        (∀ i, i < r.held → btReleased (s.btGet p r.handle i) = false) → Live s base 128 → s.on (Reg.SRV_BATCH_CFG.fallback b) = false →
        ∃ t, exec (.batchBoundary b) s = .next t ∧ t.batch b = ⟨[k], false, s.tickNum + 1⟩ ∧ t.rd (Reg.SRV_BATCH_STAT.occupancy b) = 1 ∧
          t.req k = some { r with st := .decode, joined := false, resumed := false } ∧
          t.rd (Reg.SRV_CNT_A.resumed p) = min (s.rd (Reg.SRV_CNT_A.resumed p) + 1) (2 ^ (Reg.SRV_CNT_A.resumed p).w - 1) ∧
          (s.permit p base 128 = true → t.ldN (base + 4) 1 = 1 ∧ t.ldN (base + 64) 4 = r.handle ∧ bits (t.ldN (base + 64) 8) 32 23 = r.toks.length % 2 ^ 23))) ∧
    (∀ n c rest, s.inkQueue n = c :: rest → s.inkHome n c = true →
      let leaves := fun (t : State) => t.inkQueue n = rest ∧ (∀ j, j ≠ n → t.inkQueue j = s.inkQueue j) ∧ Resulted s t c 0 ∧ t.mem = s.mem ∧ t.regs = s.regs
      (bits c.raw 0 8 = 2 → bits c.raw 32 32 = b → p = c.part → s.rd (Reg.SRV_BATCH_STAT.step b) = bits c.raw 64 32 →
        ∃ t, exec (.stepDone n) s = .next t ∧ t.srv.reqs = s.srv.reqs ∧ t.batch b = { x with stepDone := true } ∧
          Resulted s t c 0 ∧ t.mem = s.mem ∧ t.inkQueue n = rest) ∧
      (∀ r, bits c.raw 0 8 = 1 → bits c.raw 32 32 < 65536 → 0 < bits c.raw 64 32 → s.req (rqKey c.part (bits c.raw 32 32)) = some r →
        (r.st = .prefill ∨ r.st = .recompute) → bits c.raw 64 32 ≤ r.held → s.indexOn c.part = false → r.genDev = s.devId →
        ∃ t, exec (.kvReady n) s = .next t ∧ leaves t ∧ Has s t (rqKey c.part (bits c.raw 32 32)) { r with ready := max r.ready (bits c.raw 64 32) }))

/-- R262 to R265, R417: the messages between the packages of a composition. Each is acknowledged and has its effect: a prompt request is held
here; a handoff is opened with frames, whose addresses go back; they are kept by the prompt member; the generation member that has all
blocks confirms and waits to seat; the origin binds the request to it; tokens reach the tenant; a cancelled part is marked to end; a lost
generation member makes the origin start again from the retained prompt.
Where the spec is silent it rests on the model's choices of log entries 41, 42, 44, 46 and 82. -/
def Obligations.ServingMessages : Prop :=
  ∀ (s : State) (p : Packet) (q k : Nat) (r : Req), r.part = q →
    (∀ h (prompt : Kept), Arrives s 1 p q → s.freeHandle q = some h → s.svFind q p (fun r => r.isPrompt) = none →
      let raw := setBits (setBits (bits (svLine p) 128 384 * 2 ^ 64) 96 32 (svId p)) 448 64 0
      let r0 := { newReq q h raw .remote (svOrigin p) prompt.accept ((List.range (rqLen raw)).map (fun i => prompt.toks.getD i 0 % 2 ^ 32)) none with
          originHandle := svHandle p, epoch := svEpoch p, promptDev := s.devId, roles := 2 }
      (rqAdEn raw = false →
        ∃ t, exec (.promptReq p prompt) s = .next t ∧ Acknowledged s t p ∧ Has s t (rqKey q h) r0 ∧ t.mem = s.mem ∧ t.core = s.core) ∧
      (∀ j, rqAdEn raw = true → s.adVersion q (rqAdapter raw) prompt.version = some j →
        ∃ t, exec (.promptReq p prompt) s = .next t ∧ Acknowledged s t p ∧
          Has s t (rqKey q h) { r0 with slot := some j, version := prompt.version } ∧ t.mem = s.mem ∧ t.core = s.core ∧
          t.rd (Reg.INK_ADAPTER_STAT.refs j) = min (s.rd (Reg.INK_ADAPTER_STAT.refs j) + 1) (2 ^ (Reg.INK_ADAPTER_STAT.refs j).w - 1))) ∧
    (∀ h body (prompt : Kept), Arrives s 2 p q → s.freeHandle q = some h → bit (svLine p) 152 = false → bit (svLine p) 216 = false →
      let n := bits (svLine p) 128 24
      0 < n → n ≤ 120 → n ≤ s.btBlocks q → ((s.ack p 0).reserveFrames q h (s.genMask q (bits (svLine p) 212 4) false) n 0).isSome = true →
      ∃ t x y a b c d r', exec (.handoffOpen p body prompt) s = .next t ∧ t.fab.tx = s.fab.tx ++ [⟨a, b, x⟩, ⟨c, d, y⟩] ∧ Answers s p 0x82 0 [] x ∧
        Has s t (rqKey q h) r' ∧ r'.st = .handoff ∧ r'.held = n ∧ r'.roles = 1 ∧ r'.promptDev = p.src ∧ r'.origin = svOrigin p ∧ r'.accept = prompt.accept ∧ r'.prompt = prompt.toks ∧
        SaysOf y p.src 3 0 r' ∧ y.payload.length = 64 + cdiv n 8 * 64 ∧ bits (svLine y) 128 24 = n ∧ t.core = s.core) ∧
    (Arrives s 3 p q → svStatus p = stSuccess → s.svFind q p (fun r => r.isPrompt && !r.bound && (decide (r.genDev = p.src) || r.second == some p.src)) = some k →
      s.req k = some r → r.isPrompt = true → r.bound = false → r.genDev = p.src → p.src ≠ s.devId → r.second = none → r.ready = 0 → 0 < r.blocks →
      let first := bits (svLine p) 152 24
      let n := min 120 (bits (svLine p) 128 24 - first)
      ∃ t f, exec (.handoffReply p) s = .next t ∧ Acknowledged s t p ∧ Has s t k { r with frames := f } ∧
        (∀ i, i < n → NMap.find f (first + i) = some (leNat ((p.payload.drop (64 + 8 * i)).take 8))) ∧
        (∀ j, (j < first ∨ first + n ≤ j) → NMap.find f j = NMap.find r.frames j) ∧ t.mem = s.mem ∧ t.core = s.core) ∧
    (Arrives s 4 p q → s.svFind q p (fun r => !r.isPrompt && bit r.roles 0 && r.st == .handoff) = some k → s.req k = some r → r.origin = p.src →
      s.indexOn q = false →
      ∃ t x y a b c d, exec (.kvDone p) s = .next t ∧ t.fab.tx = s.fab.tx ++ [⟨a, b, x⟩, ⟨c, d, y⟩] ∧ Answers s p 0x82 0 [] x ∧
        SaysOf y p.src 5 0 r ∧ bits (svLine y) 152 16 = k % 65536 ∧ Has s t k { r with st := .joinWait, ready := r.held, bound := true } ∧ t.core = s.core) ∧
    (Arrives s 5 p q → s.svFind q p (fun r => (r.isOrigin || r.isPrompt) && !r.bound && (decide (r.genDev = p.src) || (r.isOrigin && !r.isPrompt))) = some k →
      s.req k = some r → r.isOrigin = true → r.isPrompt = false → r.second = none →
      ∃ t, exec (.kvAck p) s = .next t ∧ Acknowledged s t p ∧
        Has s t k { r with st := .joinWait, bound := true, genDev := p.src, genHandle := bits (svLine p) 152 16 } ∧ t.mem = s.mem ∧ t.core = s.core) ∧
    (∀ hq i pasid, Arrives s 6 p q → s.svFind q p (fun r => r.isOrigin) = some k → s.req k = some r → r.src = .host hq i → r.first = true →
      r.st = .decode → s.hqPasid hq = some pasid → s.hostUp = true → bit (svLine p) 133 = false → bit (svLine p) 150 = false →
      let n := min 17 (bits (svLine p) 128 5)
      0 < n → rqOut r.raw + 8 + 4 * (r.delivered + n) < 2 ^ 64 →
      ∃ t, exec (.token p) s = .next t ∧ Acknowledged s t p ∧ Has s t k { r with delivered := r.delivered + n } ∧
        Mem.rdN t.host (hostKey pasid (rqOut r.raw)) 8 = r.delivered + n ∧
        (∀ i, i < n → Mem.rdN t.host (hostKey pasid (rqOut r.raw) + 8 + 4 * (r.delivered + i)) 4 = leNat ((p.payload.drop (64 + 4 * i)).take 4)) ∧
        (∀ a, (a < hostKey pasid (rqOut r.raw) ∨ hostKey pasid (rqOut r.raw) + 8 + 4 * (r.delivered + n) ≤ a) → Mem.rd t.host a = Mem.rd s.host a) ∧ t.mem = s.mem) ∧
    (Arrives s 7 p q → s.svFind q p (fun r => !r.isOrigin) = some k → s.req k = some r → r.leaving = none →
      ∃ t, exec (.cancelMsg p) s = .next t ∧ Acknowledged s t p ∧ Has s t k { r with told := true, leaving := some stCancelled } ∧ t.mem = s.mem ∧ t.core = s.core) ∧
    (∀ dev, s.srv.lost = [(dev, none)] → s.srv.reqs = [(k, r)] → r.isOrigin = true → r.isPrompt = false → r.bound = true → r.genDev = dev → r.promptDev ≠ dev →
      dev ≠ s.devId → r.first = false → r.held = 0 →
      ∃ t, exec (.memberLost dev) s = .next t ∧ t.srv.lost = [] ∧ t.req k = some { ((r.flag 3).flag 2).fresh .queued with tried := [dev] } ∧
        t.rd (Reg.SRV_CNT_B.reprefilled q) = min (s.rd (Reg.SRV_CNT_B.reprefilled q) + 1) (2 ^ (Reg.SRV_CNT_B.reprefilled q).w - 1) ∧
        t.rd (Reg.SRV_CNT_B.rerouted q) = min (s.rd (Reg.SRV_CNT_B.rerouted q) + 1) (2 ^ (Reg.SRV_CNT_B.rerouted q).w - 1) ∧ t.mem = s.mem ∧ t.core = s.core)

/-- R273, R276, R278, R285 to R287, R292, R293, R556: a command of a Quill at its turn. INIT writes its context; SAMPLE makes its context busy,
reads it, and its first row goes to the lowest-numbered free row unit, which makes the first pass; when its one row ends, after a second pass
unless it is greedy, the command emits the token the row chooses and counts it against what remains; a command that fails a check ends with its
status.
Where the spec is silent it rests on the model's choices of log entries 16 and 48. -/
def Obligations.QuillCommands : Prop :=
  ∀ (s : State) (j i : Nat) (c : EngCmd), Unqueued s → (s.quillQueue j)[i]? = some c →
    let p := c.part
    let x := qcCtx c.raw
    let h := s.ctxHead p x
    let a := s.ctxAddr p x
    let gone := fun (t : State) => t.quillQueue j = listDel (s.quillQueue j) i ∧
      t.rd (Reg.QUILL_CNT.commands j) = min (s.rd (Reg.QUILL_CNT.commands j) + 1) (2 ^ (Reg.QUILL_CNT.commands j).w - 1)
    (∀ pr, qcOp c.raw = 2 → quillTurn (s.quillQueue j) i = true → s.quillCheck c = .go pr → Live s a 8192 →
      ∃ t, exec (.initCtx j i) s = .next t ∧ gone t ∧ Resulted s t c 0 ∧
        t.ldN a 64 = initHead (qcProfile c.raw) (qcDraft c.raw) (qcSeed c.raw) (qcRemaining c.raw) ∧ (∀ o, o < 8128 → t.ldN (a + 64 + o) 1 = 0) ∧
        (∀ k, (∀ o, o < 8192 → k ≠ s.memKey (a + o)) → Mem.rd t.mem.bytes k = Mem.rd s.mem.bytes k) ∧ OnlyRegs s t [(Reg.QUILL_CNT.commands j).off]) ∧
    (∀ pr upset u, qcOp c.raw = 1 → c.started = false → quillTurn (s.quillQueue j) i = true → s.quillCheck c = .go pr →
      rowNext (s.quillQueue j) = none → unitFree (s.quillQueue j) = some u →
      let reads := (a + 64, 4 * cxPenCount h) :: (qcDrafts c.raw, 4 * qcDraft c.raw) :: (List.range 4).flatMap (fun k => rowRanges { c with profile := pr } k)
      ∃ t c', exec (.sample j i upset) s = .next t ∧ (t.quillQueue j)[i]? = some c' ∧
        c' = { c with started := true, profile := pr, head := h, pens := s.penList p x, drafts := c'.drafts, spoilt := c'.spoilt, rows := c'.rows, who := c'.who } ∧
        c'.rows.length = qcDraft c.raw + 1 ∧
        (let pass := rowPass pr (fun tok => match c'.pens.find? (fun e => decide (e.1 = tok)) with | some e => e.2 | none => 0)
            (fun tok => if pfSize pr = 2 then t.ldN (qcLogits c.raw + 2 * tok) 2 * 65536 else t.ldN (qcLogits c.raw + pfSize pr * tok) (pfSize pr))
            (fun tok => !pfMaskEn pr || bit (t.ldN (pfMaskAddr pr + tok / 8) 1) (tok % 8))
         c'.rows[0]? = some (.runs u (rowCands pr pass.1) pass.2)) ∧
        ((∀ e, e ∈ reads → s.rangeBad e.1 e.2 = false) → t.regs = s.regs) ∧
        (t.quillQueue j).length = (s.quillQueue j).length ∧ cxBusy (t.ctxHead p x) = true ∧ cxSeed (t.ctxHead p x) = cxSeed h ∧
        cxRemaining (t.ctxHead p x) = cxRemaining h ∧
        (∀ k, (∀ o, o < 64 → k ≠ s.memKey (a + o)) → Mem.rd t.mem.bytes k = Mem.rd s.mem.bytes k) ∧ t.core = s.core ∧ t.sem = s.sem) ∧
    (∀ upset status, qcOp c.raw = 1 → c.started = false → quillTurn (s.quillQueue j) i = true → qcServe c.raw = false → s.quillCheck c = .done status none false →
      status < 65536 →
      ∃ t, exec (.sample j i upset) s = .next t ∧ gone t ∧ Resulted s t c status ∧ t.mem = s.mem ∧ t.srv.reqs = s.srv.reqs) ∧
    (∀ u cands nf, qcOp c.raw = 1 → c.started = true → qcServe c.raw = false → c.who = none → qcDraft c.raw = 0 → qcOutEn c.raw = false → c.spoilt = false →
      c.rows = [.runs u cands nf] → rowNext (s.quillQueue j) = none → (∀ e, e ∈ rowRanges c 0 → s.rangeBad e.1 e.2 = false) → Live s a 8192 →
      0 < cxRemaining c.head → c.pens.length ≤ 2032 →
      let all := if pfTemp c.profile = 0 then 0 else rowAll c.profile cands (s.rowRead c 0).1
      let choice := (rowChoice c.profile cands all (quillDraw (cxSeed c.head) (qcPos c.raw))).1
      (∀ tok, choice = some tok →
        ∃ t, exec (.sample j i false) s = .next t ∧ gone t ∧ Resulted s t c 0 ∧
          bits (Mem.rdN t.core.store (storeKey c.core c.res) 4) 16 5 = 1 ∧ Mem.rdN t.core.store (storeKey c.core c.res + 8) 4 = tok % 2 ^ 32 ∧
          cxBusy (t.ctxHead p x) = false ∧ cxRemaining (t.ctxHead p x) = cxRemaining c.head - 1 ∧ cxSteps (t.ctxHead p x) = (cxSteps c.head + 1) % 2 ^ 32 ∧
          cxSeed (t.ctxHead p x) = cxSeed c.head ∧
          (∀ k, (∀ o, o < 8192 → k ≠ s.memKey (a + o)) → Mem.rd t.mem.bytes k = Mem.rd s.mem.bytes k)) ∧
      (choice = none →
        ∃ t, exec (.sample j i false) s = .next t ∧ gone t ∧ Resulted s t c stNoCandidate ∧ cxRemaining (t.ctxHead p x) = 0 ∧ cxBusy (t.ctxHead p x) = false))

/-- R454 to R458, R461, R464, R465, R467, R468, R480, R481: a PART_CTRL operation waits for its apply cycle, one at a time; CREATE, QUIESCE
and RESUME take effect there; quiescence completes, or is reported slow; an epoch switch is armed or refused with its reason, a drain window
closes; a periodic meter record is written for a partition; a unit that is to be fenced is fenced at the apply cycle.
Where the spec is silent it rests on the model's choices of log entries 24, 25 and 26. -/
def Obligations.PartitionsAndFences : Prop :=
  ∀ (s : State) (p : Nat), p < 64 →
    let stat := (Reg.PART_STAT.all p).off
    let ask := fun (op : Nat) (force : Bool) (t : State) => t.rd (Reg.PART_STAT.pending_op p) = op ∧
      t.part = { s.part with ops := s.part.ops ++ [(p, op, force)] } ∧ OnlyRegs s t [stat] ∧ t.partState p = s.partState p ∧
      t = { s with regs := t.regs, part := t.part }
    let calm := s.on Reg.TICK_STAT.running = false ∧ s.tick.ops = [] ∧ s.validCells = [] ∧ ∀ j, j < 64 → s.rd (Reg.PART_STAT.held j) = 0
    let nothing := s.hq.q = [] ∧ s.srv.held = [] ∧ s.on Reg.PART_METER_CFG.enable = false
    (s.rd (Reg.PART_STAT.pending_op p) = 0 →
      (∃ t, exec (.create p) s = .next t ∧ ask 1 false t) ∧ (∃ t, exec (.quiesce p) s = .next t ∧ ask 2 false t) ∧
      (∃ t, exec (.resume p) s = .next t ∧ ask 3 false t) ∧ (∀ f, ∃ t, exec (.resetPart p f) s = .next t ∧ ask 4 f t) ∧
      (∃ t, exec (.remove p) s = .next t ∧ ask 5 false t)) ∧
    (s.rd (Reg.PART_STAT.pending_op p) ≠ 0 →
      ∃ t u, exec (.quiesce p) s = .next t ∧ t.on (Reg.PART_STAT.refused p) = true ∧ t.rd (Reg.PART_STAT.reason p) = 2 ∧ t.part = s.part ∧
        u = { s with regs := u.regs } ∧ OnlyRegs s u [stat] ∧ Raised u t ⟨0x200D, p, 8 + s.rd Reg.TICK_STAT.active_unit, 0, 0, 1, 0, 2, 0⟩) ∧
    (calm → s.part.ops = [(p, 2, false)] → s.flt.pendFence = [] → s.partState p = 1 →
      ∃ t, exec .stoppedApply s = .next t ∧ t.partState p = 2 ∧ t.rd (Reg.PART_STAT.pending_op p) = 0 ∧ t.part.ops = [] ∧
        (∀ j, j < 64 → j ≠ p → t.partState j = s.partState j) ∧ t.core = s.core ∧ t.mem = s.mem ∧ t.hq = s.hq) ∧
    (calm → nothing → s.part.ops = [(p, 3, false)] → s.flt.pendFence = [] → s.partState p = 3 → s.rd Reg.MGT_STAT.state ≠ 1 →
      ∃ t, exec .stoppedApply s = .next t ∧ t.partState p = 1 ∧ t.rd (Reg.PART_STAT.pending_op p) = 0 ∧ t.part.ops = [] ∧
        (∀ j, j < 64 → j ≠ p → t.partState j = s.partState j) ∧ t.core = s.core ∧ t.mem = s.mem) ∧
    (calm → nothing → s.part.ops = [(p, 1, false)] → s.flt.pendFence = [] → s.partState p = 0 → (∃ i, i < 16 ∧ (s.partPasid p i).isSome = true) →
      s.progOk p = true → s.maskOk p = true →
      ∃ t, exec .stoppedApply s = .next t ∧ t.partState p = 3 ∧ (∀ k, k < 8 → t.rd (Reg.PART_METER.count p k) = 0) ∧
        t.rd (Reg.COL_ORDER.next_order p) = 1 ∧ t.copper p = s.on (Reg.PART_CFG.copperplate p) ∧
        (∀ j, j < 64 → j ≠ p → t.partState j = s.partState j) ∧ t.core = s.core ∧ t.mem = s.mem) ∧
    (s.partState p = 2 → s.busyBits p % 32 = 0 →
      ∃ t, exec (.quiesceComplete p) s = .next t ∧ t.partState p = 3 ∧ OnlyRegs s t [stat] ∧ t = { s with regs := t.regs }) ∧
    (s.partState p = 2 → s.busyBits p % 32 ≠ 0 → exec (.quiesceComplete p) s = .next s) ∧
    (s.partState p = 2 →
      ∃ t u, exec (.quiesceSlow p) s = .next t ∧ t.on (Reg.PART_STAT.quiesce_slow p) = true ∧ t.partState p = 2 ∧
        t.time = { s.time with cnt := max s.time.cnt (NMap.get 0 s.part.quiescedAt p - 1 + 1600000 * (s.rd (Reg.PART_CFG.quiesce_ms_m1 p) + 1)) } ∧
        u = { s with regs := u.regs, time := t.time } ∧ OnlyRegs s u [stat] ∧
        Raised u t ⟨0x500E, p, 8 + s.rd Reg.TICK_STAT.active_unit, 0, 0, 1, 0, 0, 0⟩) ∧
    (∀ v epoch l, v < 2 ^ 64 →
      let target := if bits v 0 48 = 0 then s.tickNum + 32 else bits v 0 48
      s.on (Reg.PART_COMP_STAT.armed p) = false → s.liveEpoch p = 0 ∨ s.rd (Reg.PART_COMP_STAT.live_slot p) ≠ bits v 63 1 → s.tickNum + 32 ≤ target →
      s.compImage (s.rd (Reg.PART_COMP_BASE.base p (bits v 63 1))) = some (epoch, l) → s.liveEpoch p < epoch →
      s.on (Reg.PART_COMP_STAT.draining p) = false ∨ bit v 62 = true →
      ∃ t, exec (.compSwitch p v) s = .next t ∧ t.on (Reg.PART_COMP_STAT.armed p) = true ∧
        NMap.find t.part.armed p = some ⟨bits v 63 1, bit v 62, target, epoch, compEntries [] l⟩ ∧
        (∀ j, j ≠ p → NMap.find t.part.armed j = NMap.find s.part.armed j) ∧ t.liveEpoch p = s.liveEpoch p ∧
        OnlyRegs s t [(Reg.PART_COMP_STAT.all p).off, (Reg.PART_COMP_SWITCH.all p).off] ∧
        t = { s with regs := t.regs, part := { s.part with armed := t.part.armed } }) ∧
    (∀ v, s.on (Reg.PART_COMP_STAT.armed p) = true →
      ∃ t, exec (.compSwitch p v) s = .next t ∧ t.on (Reg.PART_COMP_STAT.refused p) = true ∧ t.rd (Reg.PART_COMP_STAT.reason p) = 4 ∧ t.part = s.part) ∧
    (s.on (Reg.PART_COMP_STAT.draining p) = true →
      ∃ t, exec (.drainWindowClose p) s = .next t ∧ t.on (Reg.PART_COMP_STAT.draining p) = false ∧
        t.time = { s.time with cnt := max s.time.cnt (NMap.get 0 s.part.drainEnd p) } ∧ OnlyRegs s t [(Reg.PART_COMP_STAT.all p).off] ∧
        t = { s with regs := t.regs, time := t.time, part := { s.part with drainEnd := t.part.drainEnd } }) ∧
    (∀ pasid, s.on Reg.PART_METER_CFG.enable = true → 0 < s.rd Reg.PART_METER_CFG.period_ms → 4 ≤ s.rd Reg.PART_METER_CFG.log2_entries →
      s.rd Reg.PART_METER_CFG.log2_entries ≤ 16 → s.mgrPasid = some pasid → s.hostUp = true → s.partState p ≠ 0 →
      (∀ j, j < 64 → j ≠ p → s.partState j = 0) → s.on (Reg.PART_CFG.meter_time p) = false →
      s.rd Reg.PART_METER_RING.iova + 128 * 2 ^ 16 < 2 ^ 64 →
      let at_ := hostKey pasid (s.rd Reg.PART_METER_RING.iova + 128 * (s.rd Reg.PART_METER_HEAD.written % 2 ^ s.rd Reg.PART_METER_CFG.log2_entries))
      ∃ t, exec .meterRecord s = .next t ∧ Mem.rdN t.host at_ 8 = t.tickNum % 2 ^ 64 ∧ Mem.rd t.host (at_ + 8) = p ∧
        Mem.rd t.host (at_ + 9) % 8 = 1 ∧ (∀ k, k < 8 → Mem.rdN t.host (at_ + 64 + 8 * k) 8 = s.rd (Reg.PART_METER.count p k)) ∧
        (∀ a, a < at_ ∨ at_ + 128 ≤ a → Mem.rd t.host a = Mem.rd s.host a) ∧
        OnlyRegs s t [Reg.PART_METER_HEAD.all.off] ∧ t.part.meterAt = t.time.cnt ∧
        t.time = { s.time with cnt := max s.time.cnt (s.part.meterAt + 1600000 * s.rd Reg.PART_METER_CFG.period_ms) }) ∧
    (∀ v, bits v 0 7 < unitsOf (bits v 8 3) → (bits v 8 3, bits v 0 7) ∉ s.flt.pendFence →
      exec (.fltFence v) s = .next { s with flt := { s.flt with pendFence := s.flt.pendFence ++ [(bits v 8 3, bits v 0 7)] } }) ∧
    (∀ kind i, i < unitsOf kind → (kind, i) ∉ s.flt.pendFence → 3 ≤ (NMap.get [] s.flt.counted (kind * 256 + i)).length →
      exec (.unitFence kind i) s = .next { s with flt := { s.flt with pendFence := s.flt.pendFence ++ [(kind, i)] } }) ∧
    (∀ kind i, (NMap.get [] s.flt.counted (kind * 256 + i)).length < 3 → exec (.unitFence kind i) s = .next s) ∧
    (∀ i, calm → s.part.ops = [] → i < 10 → s.flt.pendFence = [(6, i)] → s.colFenced i = false →
      ∃ t, exec .stoppedApply s = .next t ∧ t.colFenced i = true ∧ t.flt.pendFence = [] ∧ (∀ j, j ≠ i → j < 10 → t.colFenced j = s.colFenced j) ∧
        t.core = s.core ∧ t.mem = s.mem ∧ t.col = s.col)

/-- R302, R308, R309: the accumulator instructions of a Scribe, lane by lane: the parts are exact before they saturate to 40 bits.
Where the spec is silent it rests on the model's choices of log entry 35. -/
def Obligations.ScribeArithmetic : Prop :=
  ∀ (s : State) (k : Nat) (c : Scribe) (op w : Nat), ScribeAt s k c op w → NoMoves w →
    let d := uD w
    let a := fun (l : Nat) => laneC (c.vec (uS1 w)) l
    let b := fun (l : Nat) => cjC (uCj w) (laneC (c.vec (uS2 w)) l)
    let q := fun (l : Nat) => bothC (fun z => z * 32768) (a l)
    let acc := fun (l : Nat) => laneC (c.ac d) l
    let other := fun (l : Nat) => laneC (c.ac (uImm w % 4)) l
    let leaves := fun (i : Instr) (g : Nat → Int × Int) => LeavesAcc s i k c d g
    (op = 0x00 → ∃ t, exec (.scribeNop k false) s = .next t ∧ ScribeOnly s t k c { c with pc := c.pc + 1 }) ∧
    (op = 0x01 → leaves (.clr k false) (fun _ => (0, 0))) ∧
    (op = 0x02 → leaves (.mov k false) q) ∧
    (op = 0x03 → leaves (.mpy k false) (fun l => mulC (a l) (b l))) ∧
    (op = 0x04 → leaves (.mac k false) (fun l => addC (acc l) (mulC (a l) (b l)))) ∧
    (op = 0x05 → leaves (.msu k false) (fun l => addC (acc l) (bothC (fun z => -z) (mulC (a l) (b l))))) ∧
    (op = 0x06 → leaves (.macl k false) (fun l => addC (acc l) (mulC (a l) (b (uImm w % 32))))) ∧
    (op = 0x07 → leaves (.mag k false) (fun l => ((a l).1 ^ 2 + (a l).2 ^ 2, 0))) ∧
    (op = 0x08 → leaves (.maga k false) (fun l => addC (acc l) ((a l).1 ^ 2 + (a l).2 ^ 2, 0))) ∧
    (op = 0x09 → leaves (.addr k false) (fun l => addC (acc l) (q l))) ∧
    (op = 0x0A → leaves (.subr k false) (fun l => addC (acc l) (bothC (fun z => -z) (q l)))) ∧
    (op = 0x0B → leaves (.acca k false) (fun l => addC (acc l) (other l))) ∧
    (op = 0x0C → leaves (.ash k false) (fun l => bothC (shiftPart (sInt (uImm w % 64) 6)) (acc l))) ∧
    (op = 0x0D → leaves (.neg k false) (fun l => bothC (fun z => -z) (acc l))) ∧
    (op = 0x0E → leaves (.rmpy k false) (fun l => ((a l).1 * (laneC (c.vec (uS2 w)) l).1, (a l).2 * (laneC (c.vec (uS2 w)) l).2))) ∧
    (op = 0x0F → leaves (.rmac k false) (fun l => addC (acc l) ((a l).1 * (laneC (c.vec (uS2 w)) l).1, (a l).2 * (laneC (c.vec (uS2 w)) l).2))) ∧
    (op = 0x1D → leaves (.maxa k false) (fun l => (max (acc l).1 (q l).1, max (acc l).2 (q l).2))) ∧
    (op = 0x1E → leaves (.mina k false) (fun l => (min (acc l).1 (q l).1, min (acc l).2 (q l).2))) ∧
    (op = 0x10 → ∃ t c', exec (.bexp k false) s = .next t ∧ ScribeOnly s t k c c' ∧
      c'.nk (uImm w % 8) = (if bit (uImm w) 3 then minHead 16 (c.vec (uS1 w)) else minHead 40 (c.ac d)) ∧
      (∀ j, j ≠ uImm w % 8 → c'.nk j = c.nk j) ∧ c' = { c with n := c'.n, pc := c.pc + 1 }) ∧
    (op = 0x11 → leaves (.norm k false) (fun l => bothC (shiftPart (c.ni (uImm w % 8))) (acc l))) ∧
    (op = 0x12 → leaves (.expx k false) (fun l => bothC (fun z => ((headroom 40 z : Nat) : Int)) (other l))) ∧
    (op = 0x13 → leaves (.normp k false) (fun l => bothC (fun z => z * ((2 ^ headroom 40 z : Nat) : Int)) (other l))) ∧
    (op = 0x17 → uImm w % 8 < 6 → leaves (.shuf k false) (fun l =>
      let e := shufLane (uImm w) l
      bothC (fun z => z * 32768) (if e.1 then laneC (c.vec (uS2 w)) e.2 else a e.2))) ∧
    (op = 0x19 → uImm w % 16 ∈ [1, 2, 4, 6, 8, 10] → leaves (.modm k false) (fun l =>
      bothC (fun z => z * 32768) (qamPoint (uImm w % 16) ((List.range (uImm w % 16)).map (fun j => strBit (NMap.get 0 c.r (uS1 w)) (uImm w % 16 * l + j))))))

/-- R306, R310 to R313, R315: moves beside an instruction, butterflies, scrambling, demapping and block floating point. A load fills its
register from the addresses its pointer gives, a store writes its vector there, and the pointer moves by its update; the outputs of DEMAP
and BFPC go to Y memory and no other byte changes.
Where the spec is silent it rests on the model's choices of log entries 35 and 38. -/
def Obligations.ScribeTransforms : Prop :=
  ∀ (s : State) (k : Nat) (c : Scribe) (op w : Nat), ScribeAt s k c op w →
    let x := uX w
    let y := uY w
    let a := fun (j l : Nat) => laneC (c.vec (uS1 w + j)) l
    let parts := fun (c' : Scribe) (e : Nat) (g : Nat → Int × Int) => ∀ l, l < 32 → laneC (c'.ac e) l = (clamp40 (g l).1, clamp40 (g l).2)
    let accOnly := fun (c' : Scribe) => c' = { c with acc := c'.acc, sr := c'.sr, pc := c.pc + 1 }
    let writes := fun (t : State) (l : List Nat) (b : List Nat) => b.length = l.length →
      (∀ j, j < l.length → Mem.rd t.rad.xy (xyKey k 1 (l.getD j 0)) = b.getD j 0 % 256) ∧
      (∀ o, (∀ j, j < l.length → o ≠ xyKey k 1 (l.getD j 0)) → Mem.rd t.rad.xy o = Mem.rd s.rad.xy o)
    let moved := fun (t : State) (c' : Scribe) => t.scribe k = some c' ∧ (∀ j, j ≠ k → t.scribe j = s.scribe j) ∧
      t = { s with rad := { s.rad with scribes := t.rad.scribes, xy := t.rad.xy, bad := t.rad.bad } }
    (op = 0x00 → bit w 48 = false → (mvKind x = 1 ∨ mvKind x = 3) → s.mvFault k 0 c x = 0 → mvKind y = 0 → bits y 0 8 = 0 →
      let at_ := (c.span (mvK x) (c.mvAddr x) (mvBytes x)).map (fun b => Mem.rd s.rad.xy (xyKey k 0 b))
      ∃ t c', exec (.scribeNop k false) s = .next t ∧ ScribeOnly s t k c c' ∧
        NMap.get 0 c'.r (mvReg x) = (if mvKind x = 1 then leNat at_ else fromLanes 32 (List.replicate 32 (leNat at_))) ∧
        (∀ j, j ≠ mvReg x → NMap.get 0 c'.r j = NMap.get 0 c.r j) ∧ c'.a = (c.mvUpdate x c).a ∧
        c' = { c.mvUpdate x c with r := c'.r, pc := c.pc + 1 }) ∧
    (op = 0x00 → bit w 48 = false → mvKind y = 2 → s.mvFault k 1 c y = 0 → mvKind x = 0 → bits x 0 8 = 0 →
      ∃ t c', exec (.scribeNop k false) s = .next t ∧ moved t c' ∧ c'.pc = c.pc + 1 ∧ c'.a = (c.mvUpdate y c).a ∧ c'.acc = c.acc ∧ c'.r = c.r ∧
        writes t (c.span (mvK y) (c.mvAddr y) 128) (leBytes (packParts 16 (c.storeVec 1 y).1) 128)) ∧
    (op = 0x14 → NoMoves w → ∃ t c', exec (.bf2 k false) s = .next t ∧ ScribeOnly s t k c c' ∧ accOnly c' ∧
      parts c' (uD w) (fun l => addC (bothC (fun z => z * 32768) (a 0 l)) (laneC (c.ac (uD w)) l)) ∧
      parts c' (Nat.xor (uD w) 1) (fun l => addC (bothC (fun z => z * 32768) (a 0 l)) (bothC (fun z => -z) (laneC (c.ac (uD w)) l))) ∧
      ∀ e, e ≠ uD w → e ≠ Nat.xor (uD w) 1 → c'.ac e = c.ac e) ∧
    (op = 0x15 → NoMoves w → uS1 w ∈ [0, 1, 4, 5] → ∃ t c', exec (.bf3 k false) s = .next t ∧ ScribeOnly s t k c c' ∧ accOnly c' ∧ c'.ac 3 = c.ac 3 ∧
      (∀ j, j < 3 → parts c' j (fun l =>
        let tw := fun (e : Nat) => if e % 3 = 0 then ((32768 : Int), (0 : Int)) else if e % 3 = 1 then (-16384, -28378) else (-16384, 28378)
        addC (addC (mulC (a 0 l) (tw 0)) (mulC (a 1 l) (tw j))) (mulC (a 2 l) (tw (2 * j)))))) ∧
    (op = 0x16 → NoMoves w → uS1 w ∈ [0, 4] → ∃ t c', exec (.bf4 k false) s = .next t ∧ ScribeOnly s t k c c' ∧ accOnly c' ∧
      (∀ j, j < 4 → parts c' j (fun l =>
        let rot := fun (e : Nat) => if e % 4 = 0 then ((32768 : Int), (0 : Int)) else if e % 4 = 1 then (0, -32768) else if e % 4 = 2 then (-32768, 0) else (0, 32768)
        addC (addC (mulC (a 0 l) (rot 0)) (mulC (a 1 l) (rot j))) (addC (mulC (a 2 l) (rot (2 * j))) (mulC (a 3 l) (rot (3 * j))))))) ∧
    (op = 0x18 → NoMoves w → ∃ t c', exec (.gold k false) s = .next t ∧ ScribeOnly s t k c c' ∧
      parts c' (uD w) (fun l =>
        let g := goldBits 64 (c.seq1, c.seq2) []
        ((1 - 2 * ((g.1.getD (2 * l) 0 : Nat) : Int)) * 5793 * 32768, (1 - 2 * ((g.1.getD (2 * l + 1) 0 : Nat) : Int)) * 5793 * 32768)) ∧
      (c'.seq1, c'.seq2) = goldSkip 64 (c.seq1, c.seq2) ∧ (∀ e, e ≠ uD w → c'.ac e = c.ac e) ∧
      c' = { c with acc := c'.acc, sr := c'.sr, seq1 := c'.seq1, seq2 := c'.seq2, pc := c.pc + 1 }) ∧
    (∀ p, op = 0x1A → NoMoves w → uImm w % 16 ∈ [1, 2, 4, 6, 8] → p = uImm w / 16 % 8 → patBad (c.pm p) = false →
      c.past p (c.place p (c.ak p)) (32 * (uImm w % 16)) = false → (patKind (c.pm p) = 1 → 32 * (uImm w % 16) ≤ ringLen (c.pm p)) →
      ∃ t c', exec (.demap k false) s = .next t ∧ moved t c' ∧ c' = { c.bump p (32 * (uImm w % 16) : Nat) with pc := c.pc + 1 } ∧
        writes t (c.span p (c.place p (c.ak p)) (32 * (uImm w % 16)))
          ((List.range 32).flatMap (fun l => (List.range (uImm w % 16)).map (fun j => ofInt (demapLlr (uImm w % 16) j (a 0 l) (bits (NMap.get 0 c.r (uS2 w)) (32 * l) 16)) 8)))) ∧
    (∀ p, op = 0x1B → NoMoves w → p = uImm w / 32 → patBad (c.pm p) = false →
      let n := bfpBytes (uImm w)
      let wd := if bit (uImm w) 4 then 16 else uImm w % 16 + 1
      let sp := c.span p (c.place p (c.ak p)) (2 * n)
      let b := sp.map (fun i => Mem.rd s.rad.xy (xyKey k 0 i))
      c.past p (c.place p (c.ak p)) (2 * n) = false → (∀ i, i ∈ sp → s.xyBad k 0 i 1 = false) →
      ∃ t c', exec (.bfpx k false) s = .next t ∧ ScribeOnly s t k c c' ∧ c'.a = (c.bump p (2 * n : Nat)).a ∧ (∀ e, e ≠ uD w → c'.ac e = c.ac e) ∧
        (∀ i, i < 64 → (c'.ac (uD w)).getD i 0 =
          clamp40 (32768 * (bfpExpand wd (bit (uImm w) 4) (b.take n) ++ bfpExpand wd (bit (uImm w) 4) (b.drop n)).getD i 0))) ∧
    (∀ p, op = 0x1C → NoMoves w → p = uImm w / 32 → patBad (c.pm p) = false →
      let n := bfpBytes (uImm w)
      c.past p (c.place p (c.ak p)) (2 * n) = false →
      ∃ t c', exec (.bfpc k false) s = .next t ∧ moved t c' ∧ c' = { c with pc := c.pc + 1 } ∧
        writes t (c.span p (c.place p (c.ak p)) (2 * n))
          (bfpCompress (uImm w % 16 + 1) (bit (uImm w) 4) ((c.vec (uS1 w)).take 24) ++
            bfpCompress (uImm w % 16 + 1) (bit (uImm w) 4) (((c.vec (uS1 w)).drop 24).take 24)))

/-- R304, R311, R314 to R316, R344: control of a Scribe. A loop is entered with its count, goes round at its end, and is skipped with a count of
zero; jumps test an n register or ovf; pointers, patterns and registers are set; the scrambling sequence is set and advanced; a transfer is
started, held, and when it completes its bytes are where its descriptor says; XWAIT, SEMP, SEMW and EXIT do what they say.
R314: an instruction that ends a loop with rounds left goes to the loop's start with one round less; in its last round the loop is left.
Where the spec is silent it rests on the model's choices of log entries 35, 36 and 74. -/
def Obligations.ScribeControl : Prop :=
  (∀ (s : State) (k : Nat) (c : Scribe) (op w : Nat), ScribeAt s k c op w →
    let goes := fun (i : Instr) (c' : Scribe) => ∃ t, exec i s = .next t ∧ t.scribe k = some c' ∧ (∀ j, j ≠ k → t.scribe j = s.scribe j) ∧
      t = { s with rad := { s.rad with scribes := t.rad.scribes } }
    let sets := fun (i : Instr) (cls r v : Nat) => ∃ c', goes i c' ∧ c'.pc = c.pc + 1 ∧ c' = { c with a := c'.a, m := c'.m, n := c'.n, sr := c'.sr, org := c'.org, cnt := c'.cnt, pc := c.pc + 1 } ∧
      ∀ cls' r', cls' < 4 → c'.getReg cls' r' = if cls' = cls ∧ (r' = r ∨ cls = 3) then v % (if cls = 3 then 128 else 2 ^ 18) else c.getReg cls' r'
    let n := c.ni (bits w 52 3)
    (op = 0x30 → ctlOk w (msk 57 1 + msk 53 3 + msk 37 16 + msk 0 14) = true →
      let m := if bit w 57 then c.nk (bits w 53 3) else bits w 37 16
      (m = 0 → (∀ l, l ∈ c.loops → l.2.2 ≠ bits w 0 14) → goes (.loop k false) { c with pc := bits w 0 14 + 1 }) ∧
      (∀ j st outer, m = 0 → c.loops = (j, st, bits w 0 14) :: outer → 1 < j →
        goes (.loop k false) { c with loops := (j - 1, st, bits w 0 14) :: outer, pc := st }) ∧
      (m ≠ 0 → c.loops.length < 4 → goes (.loop k false) { c with loops := (m, c.pc + 1, bits w 0 14) :: c.loops, pc := c.pc + 1 })) ∧
    (op = 0x31 → ctlOk w (msk 55 3 + msk 52 3 + msk 0 14) = true → bits w 55 3 < 6 →
      let go := match bits w 55 3 with | 0 => true | 1 => decide (n = 0) | 2 => decide (n ≠ 0) | 3 => decide (n < 0) | 4 => decide (0 ≤ n) | _ => c.ovf
      let dest := bits w 0 14
      (go = true → goes (.scribeJmp k false) { c with loops := c.loops.filter (fun l => decide (l.2.1 ≤ dest) && decide (dest ≤ l.2.2)), pc := dest }) ∧
      (go = false → goes (.scribeJmp k false) { c with pc := c.pc + 1 })) ∧
    (op = 0x32 → ctlOk w (msk 55 3 + msk 52 3 + msk 51 1 + msk 50 1 + msk 0 18) = true →
      let p := bits w 55 3
      let imm := sInt (bits w 0 18) 18
      (bit w 50 = true → sets (.aga k false) 2 p (ofInt (c.ni p + imm) 18)) ∧
      (bit w 50 = false → patBad (c.pm p) = false → ∃ c', goes (.aga k false) c' ∧ c'.pc = c.pc + 1 ∧
        c'.ak p = c.place p ((c.ak p : Int) + if bit w 51 then imm else n) ∧ (∀ j, j ≠ p → c'.ak j = c.ak j) ∧ c' = { c with a := c'.a, pc := c.pc + 1 })) ∧
    (op = 0x33 → ctlOk w (msk 56 2 + msk 53 3 + msk 0 18) = true → sets (.movi k false) (bits w 56 2) (bits w 53 3) (bits w 0 18)) ∧
    (op = 0x34 → ctlOk w (msk 48 10) = true → sets (.movr k false) (bits w 56 2) (bits w 53 3) (c.getReg (bits w 51 2) (bits w 48 3))) ∧
    (∀ v, op = 0x35 → ctlOk w (msk 50 8) = true → s.xElem k c (bits w 50 3) = (v, 0) → sets (.movl k false) (bits w 56 2) (bits w 53 3) (v % 2 ^ 18)) ∧
    (∀ v, op = 0x36 → ctlOk w (msk 55 3) = true → s.xElem k c (bits w 55 3) = (v, 0) →
      goes (.seqi k false) { c with seq1 := (goldSkip 1600 (1, v % 2 ^ 31)).1, seq2 := (goldSkip 1600 (1, v % 2 ^ 31)).2, pc := c.pc + 1 }) ∧
    (op = 0x37 → ctlOk w (msk 55 3) = true →
      goes (.seqs k false) { c with seq1 := (goldSkip (64 * c.nk (bits w 55 3)) (c.seq1, c.seq2)).1,
                                    seq2 := (goldSkip (64 * c.nk (bits w 55 3)) (c.seq1, c.seq2)).2, pc := c.pc + 1 }) ∧
    (∀ j a r, op = 0x38 → ctlOk w (msk 55 3) = true → j = bits w 55 3 → a = c.place j (c.ak j) → r = Mem.rdN s.rad.xy (xyKey k 0 a) 32 →
      patBad (c.pm j) = false → a % 32 = 0 → s.xyBad k 0 a 32 = false → c.xfers.length < 16 → s.xferBad k c.d.part r = false →
      ((bits r 0 4 = 1 ∨ bits r 0 4 = 2 ∨ bits r 0 4 = 3 ∨ bits r 0 4 = 7) → bits r 64 32 ≠ 0 →
        goes (.xfer k false) { c with xfers := c.xfers ++ [⟨r, a, c.d.part, s.tickNum, none, false, s.time.cnt⟩], pc := c.pc + 1 }) ∧
      (∀ p rest, bits r 0 4 = 0 → s.rxq (4096 * (k / 64) + bits r 96 16) = p :: rest → 16 + p.body.length ≤ bits r 64 32 →
        s.laterXfers k (4096 * (k / 64) + bits r 96 16) = [] →
        ∃ t, exec (.xfer k false) s = .next t ∧
          t.scribe k = some { c with xfers := c.xfers ++ [⟨r, a, c.d.part, s.tickNum, some p, false, s.time.cnt⟩], pc := c.pc + 1 } ∧
          t.rxq (4096 * (k / 64) + bits r 96 16) = rest ∧ t.rad.xy = s.rad.xy ∧ t.mem = s.mem ∧ t.core = s.core)) ∧
    (op = 0x39 → ctlOk w (msk 53 5) = true →
      goes (.xwait k false) { c with hold := if bits w 53 5 < c.xfers.length then .xwait (bits w 53 5) else .free, pc := c.pc + 1 }) ∧
    (∀ q, op = 0x3A → ctlOk w (msk 28 30) = true → q = bits w 44 14 → s.semOwned q c.d.part = true → s.semWaiters q = [] →
      ∃ t, exec (.scribeSemp k false) s = .next t ∧ t.scribe k = some { c with pc := c.pc + 1 } ∧
        t.semVal q = (if bits w 28 16 = 0 then s.semVal q else min (s.semVal q + bits w 28 16) (2 ^ 32 - 1)) ∧ (∀ j, j ≠ q → t.semVal j = s.semVal j) ∧
        t = { s with rad := { s.rad with scribes := t.rad.scribes }, sem := t.sem }) ∧
    (∀ q, op = 0x3B → ctlOk w (msk 44 14) = true → q = bits w 44 14 → s.semOwned q c.d.part = true →
      ∃ t, exec (.scribeSemw k false) s = .next t ∧ (∀ j, j ≠ q → t.semVal j = s.semVal j) ∧ t.semVal q = s.semVal q - 1 ∧
        t.scribe k = some { c with hold := if s.semVal q = 0 then .semw q else c.hold, pc := c.pc + 1 } ∧
        t.semWaiters q = s.semWaiters q ++ (if s.semVal q = 0 then [.scribe k] else []) ∧
        t = { s with rad := { s.rad with scribes := t.rad.scribes }, sem := t.sem }) ∧
    (op = 0x3F → ctlOk w 0 = true →
      (c.xfers ≠ [] → goes (.scribeExit k false) { c with hold := .exit }) ∧
      (∀ sl, c.xfers = [] → c.d.postEn = false → s.slotAt (8 + k / 64) c.slot = some sl →
        ∃ t, exec (.scribeExit k false) s = .next t ∧ t.scribe k = none ∧ (∀ j, j ≠ k → t.scribe j = s.scribe j) ∧
          t.slotAt (8 + k / 64) c.slot = some { sl with phase := .spent } ∧ t.sem = s.sem ∧ t.mem = s.mem ∧ t.rad.xy = s.rad.xy ∧
          t.rd (Reg.RAD_CELL_STAT.lost c.d.cell) = s.rd (Reg.RAD_CELL_STAT.lost c.d.cell))) ∧
    (∀ x rest, c.xfers = x :: rest → x.rewound = false → s.mesh.failed = [] →
      let loc := bits x.raw 16 18
      let len := bits x.raw 64 32
      let rem := bits x.raw 96 48
      let y := bits x.raw 4 1
      (bits x.raw 0 4 = 2 → s.permit x.part rem len = true → loc + len ≤ 262144 → (∀ i, i < cdiv len 64 → s.rangeBad (rem + 64 * i) (min 64 (len - 64 * i)) = false) →
        ∃ t, exec (.xferComplete k) s = .next t ∧ t.scribe k = some { c with xfers := rest } ∧
          (∀ i, i < len → Mem.rd t.rad.xy (xyKey k y (loc + i)) = s.ldN (rem + i) 1) ∧
          (∀ o, (∀ i, i < len → o ≠ xyKey k y (loc + i)) → Mem.rd t.rad.xy o = Mem.rd s.rad.xy o) ∧ t.mem = { s.mem with ts := t.mem.ts } ∧ t.core = s.core ∧ t.sem = s.sem) ∧
      (bits x.raw 0 4 = 3 → s.permit x.part rem len = true → Live s rem len → rem % 64 = 0 →
        ∃ t, exec (.xferComplete k) s = .next t ∧ t.scribe k = some { c with xfers := rest } ∧
          Stored s t rem (s.xyBytes k y loc len) ∧ t.rad.xy = s.rad.xy ∧ t.core = s.core ∧ t.sem = s.sem) ∧
      (∀ p, bits x.raw 0 4 = 0 → x.pkt = some p → y = 1 → x.at_ + 12 ≤ 262144 → loc + 16 + p.body.length ≤ 262144 →
        ∃ t, exec (.xferComplete k) s = .next t ∧ t.scribe k = some { c with xfers := rest } ∧
          Mem.rdN t.rad.xy (xyKey k 0 (x.at_ + 8)) 4 = (16 + p.body.length) % 2 ^ 32 ∧
          (∀ i v, (leBytes (rxHeader p) 16 ++ p.body)[i]? = some v → Mem.rd t.rad.xy (xyKey k 1 (loc + i)) = v % 256) ∧ t.mem = s.mem ∧ t.core = s.core))) ∧
  (∀ (s : State) (k n st w : Nat) (c : Scribe) (outer : List (Nat × Nat × Nat)), k < 128 → s.scribe k = some c → c.hold = .free → c.pc < 16384 →
    s.issueOpen (8 + k / 64) (some c.slot) = true → s.xyBad k 2 (8 * c.pc) 8 = false → s.scWord k c.pc = w → bits w 58 6 = 0 → NoMoves w → c.loops = (n, st, c.pc) :: outer → (∀ l, l ∈ outer → l.2.2 ≠ c.pc) →
    ∃ t, exec (.scribeNop k false) s = .next t ∧
      t.scribe k = some (if 1 < n then { c with loops := (n - 1, st, c.pc) :: outer, pc := st } else { c with loops := outer, pc := c.pc + 1 }) ∧
      (∀ j, j ≠ k → t.scribe j = s.scribe j) ∧ t = { s with rad := { s.rad with scribes := t.rad.scribes } })

/-- R311, R317 to R323: a FEC engine takes the next command of its slice: it checks it, descrambles what a decoder reads and scrambles what an
encoder writes, writes its data and its result record, in which a decoder reports its CRC, counts it, and goes on to the next command or ends
the slice.
Where the spec is silent it rests on the model's choices of log entries 37 and 75. -/
def Obligations.FecCommands : Prop :=
  ∀ (s : State) (t en : Nat) (f : Fec), t < 2 → en < 4 → s.fec (4 * t + en) = some f → s.issueOpen (8 + t) (some f.slot) = true → s.mesh.failed = [] →
    let e := 4 * t + en
    let la := fecAddr f.d + 64 * f.next
    let lk := 64 * t + fecScribe f.d
    let c := Mem.rdN s.rad.xy (xyKey lk 1 la) 64
    let op := bits c 0 4
    let src := 64 * t + bits c 16 6
    let dst := 64 * t + bits c 42 6
    let res := 64 * t + bits c 68 6
    let out := cdiv (fecBits op c) 8
    let row : Option Instr := match op with
      | 1 => some (.ldpcDec t false)
      | 2 => some (.turboDec t false)
      | 3 => some (.ldpcEnc t false)
      | 4 => some (.polarDec t false)
      | 5 => some (.convDec t false)
      | _ => none
    let own := fun (k a n : Nat) => s.scribeOwned k f.d.part = true ∧ a + n ≤ 262144
    let record := fun (u : State) (status it n : Nat) => Mem.rdN u.rad.xy (xyKey res (bits c 74 1) (bits c 76 18)) 8 = fecResult c status it n
    let after := fun (u : State) => u.fec e = (if f.next + 1 < fecCount f.d then some { f with next := f.next + 1 } else none) ∧
      u.rd (Reg.RAD_FEC_CNT.commands t en) = min (s.rd (Reg.RAD_FEC_CNT.commands t en) + 1) (2 ^ (Reg.RAD_FEC_CNT.commands t en).w - 1) ∧
      (∀ k, u.scribe k = s.scribe k) ∧ u.core.store = s.core.store
    en = (if op < 3 then 0 else op - 2) → s.xyBad lk 1 la 64 = false → own res (bits c 76 18) 8 → f.d.postEn = false →
    ∀ i, row = some i →
      (fecValid op c = true → own src (bits c 24 18) (fecSrcLen op c) → own dst (bits c 50 18) out → s.permit f.d.part (bits c 96 48) (fecHarqLen op c) = true →
        s.xyBad src (bits c 22 1) (bits c 24 18) (fecSrcLen op c) = false → (bit c 144 = true → s.rangeBad (bits c 96 48) (fecHarqLen op c) = false) →
        bits c 308 24 ≠ 0 →
        let sb := s.xyBytes src (bits c 22 1) (bits c 24 18) (fecSrcLen op c)
        let sv := leNat (if op = 3 then sb else descramble c sb)
        let hv := if bit c 144 then s.ldN (bits c 96 48) (fecHarqLen op c) else 0
        let dec := Config.fecData c sv hv
        let block := (unpackMsb (leBytes dec (cdiv (fecBlock op c) 8))).take (fecBlock op c)
        let pass := (op == 3 || fecPasses op c block (Config.fecPass c sv hv))
        ∃ u, exec i s = .next u ∧ after u ∧ record u (if pass then 0 else 1) (fecIters op c (Config.fecIter c sv hv)) (fecBits op c) ∧
          ((dst ≠ res ∨ bits c 48 1 ≠ bits c 74 1) →
            Mem.bytes u.rad.xy (xyKey dst (bits c 48 1) (bits c 50 18)) out = if op = 3 then scramble c (leBytes dec out) else leBytes dec out)) ∧
      (fecValid op c = false →
        ∃ u, exec i s = .next u ∧ after u ∧ record u 2 0 0 ∧ u.mem = s.mem)

/-- R423, R428, R429, R431, R432, R435, R439, R443: the packets of a collective. A READY is kept until its launch, or taken; a contribution
is combined into its slot; a block or a final chunk lands in dst, and with the last of a broadcast the collective completes; phase-1 records
are held; a RESEND sends its packet once more; an ABORT ends the collective with the status it carries.
Where the spec is silent it rests on the model's choices of log entries 43, 44 and 49. -/
def Obligations.CollectivePackets : Prop :=
  ∀ (s : State) (p : Packet) (q : Nat) (c : Coll) (r : Nat),
    let acked := fun (t : State) => Sends s t (Answers s p 0x82 0 [])
    let line := leNat (p.payload.take 64)
    (p.type = 0x0A → p.kind = 0 → p.dst = s.devId → tooOld p = false → s.domainPart p.domain = some q → s.partState q = 1 → s.coll q p.seq = none →
      Routable s p.src →
      (s.col.early.filter (fun e => decide (e.src = p.src) && decide (e.domain = p.domain) && decide (e.seq / 4096 = p.seq / 4096))).length < 4 →
      ∃ t, exec (.ready p) s = .next t ∧ acked t ∧ t.col = { s.col with early := s.col.early ++ [p] } ∧ MetersAnd s t [] ∧
        t = { s with regs := t.regs, fab := t.fab, col := t.col }) ∧
    (InColl s 0 p q c r → c.mode = 0 → Nat.land line sigMask = Nat.land c.sig sigMask →
      ∃ t c', exec (.ready p) s = .next t ∧ acked t ∧ CollIs s t q p.seq c' ∧ NMap.find c'.ready r = some line ∧
        c'.fallback = (c.fallback || bit line 17) ∧ NMap.get 0 c'.lag r = s.nowNs - c.sinceNs ∧
        c' = { c with ready := c'.ready, heard := c'.heard, fallback := c'.fallback, lag := c'.lag } ∧ t.mem = s.mem) ∧
    (InColl s 0 p q c r → Nat.land line sigMask ≠ Nat.land c.sig sigMask → ∃ t, exec (.ready p) s = .next t ∧ CollEnded s t c 0x31) ∧
    (∀ k, InColl s 1 p q c r → Collecting c → c.mode = 2 → c.copper = false → clOp c.raw = 1 → crc32c p.payload = p.check → k < 256 →
      k < chunksOf (c.shard c.rank).2 → p.addr = clScratch c.raw + 1024 * k → c.chunkLen c.rank k * 4 ≤ p.payload.length →
      NMap.get false c.got (k * 8192 + 2 * r) = false → s.permit q p.addr p.payload.length = true →
      Live s p.addr p.payload.length →
      let first := (List.range c.size).all (fun x => !NMap.get false c.got (k * 8192 + 2 * x))
      ∃ t c', exec (.data p 0) s = .next t ∧ CollIs s t q p.seq c' ∧ NMap.get false c'.got (k * 8192 + 2 * r) = true ∧ c'.owed = c.owed ++ [p] ∧
        (∀ j, j < c.chunkLen c.rank k → let new := leNat ((p.payload.drop (4 * j)).take 4)
          t.ldN (p.addr + 4 * j) 4 = (if first then new else clCombine (clRop c.raw) (clFmt c.raw) (s.ldN (p.addr + 4 * j) 4) new) % 2 ^ 32) ∧
        (∀ a, (∀ i, i < 4 * c.chunkLen c.rank k → a ≠ s.memKey (p.addr + i)) → Mem.rd t.mem.bytes a = Mem.rd s.mem.bytes a) ∧ t.fab = s.fab ∧ t.regs = s.regs) ∧
    (∀ k, InColl s 2 p q c r → clOp c.raw = 5 → c.root = false → r = clRoot c.raw → crc32c p.payload = p.check → k < chunksOf (clCount c.raw) →
      c.ready = [] → c.mode = 3 → NMap.get false c.recv (pieceKey r k) = false → p.addr = (c.pieceAt r k).1 → p.payload.length = (c.pieceAt r k).2 →
      0 < clCount c.raw → s.permit q p.addr p.payload.length = true → Live s p.addr p.payload.length →
      ((∃ j, j < chunksOf (clCount c.raw) ∧ j ≠ k ∧ NMap.get false c.recv (pieceKey r j) = false) →
        ∃ t c', exec (.putPkt p) s = .next t ∧ acked t ∧ Stored s t p.addr p.payload ∧ CollIs s t q p.seq c' ∧ NMap.get false c'.recv (pieceKey r k) = true ∧
          c'.chunks = c.chunks + 1) ∧
      ((∀ j, j < chunksOf (clCount c.raw) → j ≠ k → NMap.get false c.recv (pieceKey r j) = true) → 1 < c.size → s.colBusy c = false →
        s.on (Reg.FLT_STRAG_CFG.enable c.part) = false →
        ∃ t, exec (.putPkt p) s = .next t ∧ acked t ∧ CollEnded s t c 0 ∧ Stored s t p.addr p.payload)) ∧
    (∀ k, InColl s 5 p q c r → Collecting c → c.mode = 2 → clOp c.raw = 1 → crc32c p.payload = p.check → k < chunksOf (c.shard r).2 →
      p.addr = (c.pieceAt r k).1 → p.payload.length = (c.pieceAt r k).2 → s.permit q p.addr p.payload.length = true → c.rank < c.size →
      0 < (c.shard c.rank).2 → Live s p.addr p.payload.length →
      ∃ t c', exec (.finalPkt p) s = .next t ∧ acked t ∧ Stored s t p.addr p.payload ∧ CollIs s t q p.seq c' ∧ NMap.get false c'.recv (pieceKey r k) = true) ∧
    (InColl s 3 p q c r → Collecting c → c.mode = 2 → clOp c.raw = 1 → c.exact = true → crc32c p.payload = p.check → 0 < (c.shard c.rank).2 →
      p.addr % 4 = 0 →
      ∃ t c', exec (.exp1 p) s = .next t ∧ acked t ∧ CollIs s t q p.seq c' ∧ t.mem = s.mem ∧
        ∀ i, i < p.payload.length / 4 → NMap.find c'.expIn (pieceKey r (p.addr / 4 + i)) = some (leNat ((p.payload.drop (4 * i)).take 4))) ∧
    (InColl s 4 p q c r → Collecting c → c.mode = 2 → clOp c.raw = 1 → c.exact = true → crc32c p.payload = p.check → 0 < (c.shard c.rank).2 →
      p.addr % 4 = 0 →
      ∃ t c', exec (.expr p) s = .next t ∧ acked t ∧ CollIs s t q p.seq c' ∧ t.mem = s.mem ∧
        ∀ i, i < p.payload.length / 4 → NMap.find c'.expAll (pieceKey r (p.addr / 4 + i)) = some (leNat ((p.payload.drop (4 * i)).take 4))) ∧
    (∀ o, InColl s 6 p q c r → s.fab.out.find? (fun o => decide (o.type = 0x0A) && decide (o.seq = p.seq) && decide (o.dev = c.members.getD r 0 % 65536) &&
        decide (o.line = bits line 0 8) && decide (o.ga % 2 ^ 48 = bits line 64 48)) = some o → o.packet.src = s.devId → Routable s o.packet.dst →
      ∃ t x a b d e, exec (.resend p) s = .next t ∧ t.fab.tx = s.fab.tx ++ [⟨a, b, x⟩, ⟨d, e, o.packet⟩] ∧ Answers s p 0x82 0 [] x ∧
        (∃ c', CollIs s t q p.seq c' ∧ c'.retried = true) ∧
        t.rd (Reg.COL_STAT.retries c.die) = min (s.rd (Reg.COL_STAT.retries c.die) + 1) (2 ^ (Reg.COL_STAT.retries c.die).w - 1) ∧ t.mem = s.mem) ∧
    (InColl s 7 p q c r → lnStatus line ≠ 0 → ∃ t, exec (.abort p) s = .next t ∧ CollEnded s t c (lnStatus line))

/-- R414, R430, R438 to R441: launches and the life of a collective. A held Copperplate launch starts when its order comes, or ends with
ORDER_MISMATCH once the bound is over; a rank not heard from for the bound, or a packet of a kind other than DATA that is not acknowledged
within B, ends the collective with PEER_LOST; a reservation is granted or
denied, after which the ranks are told, and it is renewed after half its lease.
Where the spec is silent it rests on the model's choices of log entries 44, 49 and 96. -/
def Obligations.CollectiveLife : Prop :=
  ∀ (s : State) (c : Coll) (q : Nat), s.col.colls = [c] → c.part = q → q < 64 →
    (c.started = false → clOrder c.raw = s.rd (Reg.COL_ORDER.next_order q) → clCount c.raw = 0 →
      ∃ t, exec (.orderGateStart q) s = .next t ∧ CollEnded s t c 0 ∧ t.rd (Reg.COL_ORDER.next_order q) = (clOrder c.raw + 1) % 2 ^ 32 ∧ t.time = s.time ∧
        t.mem = s.mem) ∧
    (c.started = false →
      ∃ t, exec (.orderMismatch q) s = .next t ∧ t.col.colls = [] ∧ Resulted s t c.cmd 0x32 ∧
        t.rd (Reg.COL_ORDER.next_order q) = (clOrder c.raw + 1) % 2 ^ 32 ∧
        t.time = { s.time with cnt := max s.time.cnt (c.since + 1600000 * (s.rd Reg.COL_CFG.bound_ms_m1 + 1)) }) ∧
    (∀ r, c.started = true → r ≠ c.rank → r < c.size →
      ∃ t, exec (.peerTimeout q c.key r) s = .next t ∧ CollEnded s t c 0x33 ∧
        t.time = { s.time with cnt := max s.time.cnt (NMap.get c.since c.heard r + 1600000 * (s.rd Reg.COL_CFG.bound_ms_m1 + 1)) }) ∧
    (∀ o, c.started = true → s.fab.out = [o] → o.type = 0x0A → o.line ≠ 1 → o.part = q → o.seq = c.key →
      ∃ t, exec (.remoteTimeout o.dev o.seq) s = .next t ∧ CollEnded s t c 0x33 ∧ t.time = { s.time with cnt := max s.time.cnt o.deadline }) ∧
    (c.started = true → c.mode = 1 → c.die < 10 →
      ∃ t c', exec (.leaseRenewal q c.key) s = .next t ∧ t.col.colls = [c'] ∧ c' = { c with renewAt := c'.renewAt } ∧
        c'.renewAt = t.time.cnt + 1600000 * (s.rd Reg.COL_CFG.lease_ms_m1 + 1) / 2 ∧ t.time = { s.time with cnt := max s.time.cnt c.renewAt } ∧
        Sends s t (fun y => y.type = 7 ∧ y.dst = s.devId ∧ y.addr = 0x20000000000 + c.die * 0x1000000 ∧
          y.payload = leBytes (c.key % 2 ^ 32 + c.granules.length % 128 * 2 ^ 32 + s.rd Reg.COL_CFG.lease_ms_m1 % 256 * 2 ^ 40) 64)) ∧
    (∀ (p : Packet), p.type = 0x84 → p.dst = s.devId → s.domainPart p.domain = some q → c.started = true → c.key = bits (leNat (p.payload.take 64)) 0 32 →
      c.mode = 0 → 1 < c.size → c.rank < c.size → c.ready = [] → c.recv = [] →
      clOp c.raw = 1 → 0 < (c.shard c.rank).2 →
      (∀ r, r < c.size → Routable s (c.members.getD r 0 % 65536)) →
      let told := fun (t : State) => ∀ r, r < c.size → r ≠ c.rank → ∃ y, y ∈ t.fab.tx ∧ y.packet.type = 0x0A ∧ y.packet.kind = 0 ∧
        y.packet.dst = c.members.getD r 0 % 65536 ∧ y.packet.seq = c.key % 2 ^ 32
      (p.status = 0 → bits (leNat (p.payload.take 64)) 128 128 ≠ 0 →
        ∃ t c', exec (.rsvRsp p) s = .next t ∧ t.col.colls = [c'] ∧ c'.mode = 1 ∧
          c'.granules = (List.range 128).filter (bit (bits (leNat (p.payload.take 64)) 128 128)) ∧ c'.denied = c.denied ∧ told t) ∧
      (p.status ≠ 0 →
        ∃ t c', exec (.rsvRsp p) s = .next t ∧ t.col.colls = [c'] ∧ c'.mode = 2 ∧ c'.denied = true ∧ c'.fallback = true ∧ told t ∧
          t.rd (Reg.COL_STAT.reservoir_denials c.die) = min (s.rd (Reg.COL_STAT.reservoir_denials c.die) + 1) (2 ^ (Reg.COL_STAT.reservoir_denials c.die).w - 1)))

/-- R509, R510, R522, R525, R529, R530, R532, R534, R535: each mailbox command that is held does what its rule says and its response is
written: status 0 and what it returns, or the status of its refusal; a command whose response comes later leaves the mailbox busy.
Where the spec is silent it rests on the model's choices of log entries 50 and 52. -/
def Obligations.MailboxCommands : Prop :=
  ∀ (s : State) (seq raw : Nat) (ok : Bool),
    let st := s.rd Reg.MGT_FW_STAT.state
    let done := fun (t : State) (status body : Nat) (l : List Nat) => Responds s t seq status body l ∧ MgtOnly s t
    let src := bits raw 128 48
    (Holds s 0x01 seq raw → ∃ t, exec .mboxNop s = .next t ∧ done t 0 0 [] ∧ t.mgt = { s.mgt with cmd := none }) ∧
    (Holds s 0x10 seq raw → st = 0 ∨ st = 1 ∨ st = 2 ∨ st = 6 → bits raw 64 32 % 4096 = 0 → 0 < bits raw 96 32 → bits raw 96 32 ≤ 65536 →
      bits raw 64 32 + bits raw 96 32 ≤ 2 ^ 24 → src % 64 = 0 → s.permit 0x40 src (bits raw 96 32) = true →
      s.mboxLost src (bits raw 96 32) = false →
      ∃ t, exec (.stage true) s = .next t ∧ done t 0 0 [0xF000200] ∧ t.rd Reg.MGT_FW_STAT.state = 1 ∧
        (∀ i, i < bits raw 96 32 → Mem.rd t.mgt.staging (bits raw 64 32 + i) = s.ldN (src + i) 1) ∧
        ∀ a, a < bits raw 64 32 ∨ bits raw 64 32 + bits raw 96 32 ≤ a → Mem.rd t.mgt.staging a = if st = 1 then Mem.rd s.mgt.staging a else 0) ∧
    (Holds s 0x10 seq raw → st = 3 ∨ st = 4 ∨ st = 5 ∨ st = 7 → ∃ t, exec (.stage ok) s = .next t ∧ done t 0x50 0 []) ∧
    (Holds s 0x11 seq raw → st = 1 ∨ st = 2 ∨ st = 6 →
      ∃ t, exec .verify s = .next t ∧ t.mgt.staged = s.stagedImage ∧ t.rd Reg.MGT_FW_STAT.state = (if s.stagedImage.isSome then 2 else 1) ∧
        done t (if s.stagedImage.isSome then 0 else 0x51) ((s.stagedImage.map Img.version).getD 0) [0xF000200]) ∧
    (Holds s 0x12 seq raw → st = 2 → s.on Reg.MGT_STAT.standby_ok = true →
      ∃ t, exec .activate s = .next t ∧ t.rd Reg.MGT_FW_STAT.state = 3 ∧ t.on Reg.MGT_STAT.standby_ok = false ∧ t.mgt.cmd = s.mgt.cmd ∧
        OnlyRegs s t [0xF000000, 0xF000200] ∧ MgtOnly s t) ∧
    (Holds s 0x12 seq raw → st = 2 → s.on Reg.MGT_STAT.standby_ok = false →
      ∃ t, exec .activate s = .next t ∧ done t 0 0 [0xF000200] ∧ t.rd Reg.MGT_FW_STAT.state = 7) ∧
    (Holds s 0x13 seq raw → st = 4 → s.mgt.trialResets = [] →
      ∃ t, exec .reject s = .next t ∧ t.mgt.cmd = none ∧ t.rd Reg.MGT_MBOX_STAT.done_seq = seq ∧ t.rd Reg.MGT_FW_STAT.state = 6 ∧
        t.rd Reg.MGT_FW_STAT.fallback_cause = 2 ∧ t.mgt.running = s.mgt.old ∧
        t.rd Reg.MGT_STAT.active_core = if s.mgt.coldTrial then s.rd Reg.MGT_STAT.active_core else 1 - s.rd Reg.MGT_STAT.active_core) ∧
    (Holds s 0x20 seq raw → s.mgt.pendCfg = none → 0 < bits raw 192 32 → src % 64 = 0 → s.permit 0x40 src (bits raw 192 32) = true →
      s.mboxLost src (bits raw 192 32) = false →
      ∃ t, exec (.cfgInstall true) s = .next t ∧ t.mgt.live = s.mgt.live ∧
        if s.lemBad (s.ldBytes src (bits raw 192 32)) = none then
          done t 0 0 [0xF000210] ∧ t.on Reg.MGT_CFG_STAT.pending = true ∧
            t.mgt.pendCfg = some ⟨s.ldBytes src (bits raw 192 32), s.mgt.live.gen + 1, []⟩
        else t.rd Reg.MGT_MBOX_STAT.done_seq = seq ∧ (t.reg (Reg.MGT_MBOX_RESP.data 0).off).toNat = 0x51 + seq * 2 ^ 16 ∧ t.mgt.pendCfg = none) ∧
    (Holds s 0x21 seq raw → s.mgt.pendCfg = none → s.on Reg.MGT_STAT.puf_ok = true → unitKnown (bits raw 64 8) (bits raw 72 16) = true →
      ∃ t, exec (.cfgRetire true) s = .next t ∧ done t 0 0 [0xF000210] ∧ t.mgt.live = s.mgt.live ∧ t.on Reg.MGT_CFG_STAT.pending = true ∧
        t.mgt.pendCfg = some ⟨s.mgt.live.lem, s.mgt.live.gen + 1, s.mgt.live.dev ++ [bits raw 64 8 + 256 * bits raw 72 16 + 3 * 2 ^ 24]⟩) ∧
    (∀ p, Holds s 0x22 seq raw → s.mgt.pendCfg = none → s.mgt.prev = some p →
      ∃ t c, exec (.cfgRevert true) s = .next t ∧ done t 0 0 [0xF000210] ∧ t.mgt.pendCfg = some c ∧ t.on Reg.MGT_CFG_STAT.pending_revert = true ∧
        c.lem = p.lem ∧ c.gen = s.mgt.live.gen + 1 ∧ (∀ u, u ∈ c.units ↔ u ∈ p.units ∨ u ∈ s.mgt.live.units)) ∧
    (Holds s 0x23 seq raw → s.mgt.pendCfg ≠ none →
      ∃ t, exec (.cfgCancel true) s = .next t ∧ done t 0 0 [0xF000210] ∧ t.mgt.pendCfg = none ∧ t.on Reg.MGT_CFG_STAT.pending = false) ∧
    (Holds s 0x30 seq raw → s.on Reg.MGT_STAT.puf_ok = true → bits raw 64 48 % 64 = 0 → s.permit 0x40 (bits raw 64 48) 32 = true → src % 64 = 0 →
      s.permit 0x40 src 2932 = true → s.mboxLost (bits raw 64 48) 32 = false → Live s src 2932 →
      ∃ t, exec .attest s = .next t ∧ Responds s t seq 0 0 [] ∧
        (∀ i, i < 512 → t.ldN (src + i) 1 = s.attestBody (s.ldN (bits raw 64 48) 32) / 256 ^ i % 256) ∧ t.mgt.log ≠ [] ∧ t.core = s.core) ∧
    (Holds s 0x31 seq raw → src % 64 = 0 → Live s src Config.cert.length →
      ∃ t, exec .certRead s = .next t ∧ t.core = s.core ∧
        if s.permit 0x40 src Config.cert.length = true then
          Responds s t seq 0 Config.cert.length [] ∧ ∀ i, i < Config.cert.length → t.ldN (src + i) 1 = Config.cert.getD i 0 % 256
        else done t 0x40 0 []) ∧
    (∀ k, Holds s 0x32 seq raw → 0 < bits raw 96 16 → bits raw 96 16 ≤ 4096 → src % 64 = 0 → s.permit 0x40 src (64 * bits raw 96 16) = true →
      0 < k → k ≤ s.mgt.log.length → k < 2 ^ 31 → s.mgt.logNext < 2 ^ 32 → bits raw 64 32 = (s.mgt.logNext + 2 ^ 32 - k) % 2 ^ 32 →
      Live s src (64 * bits raw 96 16) →
      ∃ t, exec .logRead s = .next t ∧ Responds s t seq 0 (bits raw 64 32 + 2 ^ 32 * min k (bits raw 96 16)) [] ∧ t.core = s.core ∧
        ∀ j, j < min k (bits raw 96 16) → t.ldN (src + 64 * j) 64 = s.mgt.log.getD (s.mgt.log.length - k + j) 0 % 2 ^ 512) ∧
    (Holds s 0x40 seq raw → bits raw 64 2 = 0 ∨ (bits raw 64 2 = 1 ∧ ∀ p, p < 64 → s.partState p = 0 ∨ s.partState p = 3) →
      ∃ t, exec .power s = .next t ∧ done t 0 0 [] ∧ t.mgt.pendPower = some (bits raw 64 2)) ∧
    (Holds s 0x40 seq raw → bits raw 64 2 = 2 → (bit raw 66 = true ∨ ∀ p, p < 64 → s.partState p = 0) →
      ∃ t, exec .power s = .next t ∧ t.rd Reg.MGT_STAT.state = 2) ∧
    (∀ p, Holds s 0x40 seq raw → p < 64 → s.partState p = 1 → bits raw 64 2 = 1 ∨ (bits raw 64 2 = 2 ∧ bit raw 66 = false) →
      ∃ t, exec .power s = .next t ∧ done t 0x50 0 [] ∧ t.mgt.pendPower = s.mgt.pendPower) ∧
    (Holds s 0x41 seq raw → settingRange (bits raw 64 16) (bits raw 96 32) = true →
      ∃ t, exec (.settingSet true) s = .next t ∧ done t 0 0 [] ∧ t.mgt.pendSet = s.mgt.pendSet ++ [(bits raw 64 16, bits raw 96 32)] ∧
        (t.setting (bits raw 64 16)).2 = bits raw 96 32) ∧
    (Holds s 0x41 seq raw → settingRange (bits raw 64 16) (bits raw 96 32) = false →
      ∃ t, exec (.settingSet ok) s = .next t ∧ done t 2 0 [] ∧ t.mgt = { s.mgt with cmd := none }) ∧
    (Holds s 0x42 seq raw → 0 < bits raw 64 16 → bits raw 64 16 ≤ 4 → bits raw 64 16 ∉ s.mgt.trialResets →
      ∃ t f, exec .settingGet s = .next t ∧ done t 0 ((s.setting (bits raw 64 16)).2 + 2 ^ 32 * f) [] ∧ f < 2 ^ 16 ∧
        t.mgt = { s.mgt with cmd := none })

/-- R507, R508, R511 to R513, R519, R531, R532: a management loop runs at its boundary, shows what its sensors read and lowers the duty of
every tile by 2 while power is above its limit; the standby core takes over; an image confirms itself or its trial ends in a fallback;
the board sets its limit and reads the fault counts.
Where the spec is silent it rests on the model's choices of log entries 51, 53 and 89. -/
def Obligations.ManagementLoop : Prop :=
  ∀ (s : State),
    (∀ x : Loop, s.pins.stopped = false → x.overrun = false → x.rate = none → x.send = [] → s.rd Reg.MGT_FW_STAT.state ≠ 3 →
      s.mgt.boot % 4 = 3 → s.rd Reg.MGT_FW_STAT.state ≠ 4 → s.mgt.pendSet = [] → s.mgt.boardNext = none → s.mgt.submit = none →
      ∃ t, exec (.managementLoop x) s = .next t ∧ t.time.cnt = s.nextLoop ∧ t.mgt.loopAt = t.time.cnt ∧ s.time.cnt ≤ t.time.cnt ∧
        t.time.cnt % 1600000 = 0 ∧ t.rd Reg.MGT_LOOP.loops = (s.rd Reg.MGT_LOOP.loops + 1) % 2 ^ 32 ∧
        (∀ i, i < 10 → t.rd (Reg.MGT_TEMP.temp i) = x.temps.getD i 0 % 2 ^ 16) ∧
        (∀ i, i < 32 → t.rd (Reg.MGT_HBM_TEMP.temp i) = x.hbm.getD i 0 % 2 ^ 16) ∧ t.rd Reg.MGT_PWR.power_mw = x.power % 2 ^ 32 ∧
        (x.power < 2 ^ 32 → 1000 * min 3600 (min (s.rd Reg.MGT_PWR_CFG.limit_w) s.mgt.boardLimit) < x.power →
          ∀ n, n < 8 → t.duty n = max 1 (s.duty n - 2)) ∧
        (∀ n, n < 8 → 1 ≤ t.duty n ∧ t.duty n ≤ 16) ∧ t.mem = s.mem ∧ t.core = s.core ∧ t.sem = s.sem) ∧
    (s.rd Reg.MGT_FW_STAT.state ≠ 4 → s.on Reg.MGT_STAT.standby_ok = true →
      ∃ t, exec .wiolizTakeover s = .next t ∧ t.rd Reg.MGT_STAT.active_core = 1 - s.rd Reg.MGT_STAT.active_core ∧
        t.on Reg.MGT_STAT.standby_ok = false ∧ t.time.cnt = s.nextLoop ∧ OnlyRegs s t [0xF000000] ∧
        t = { s with regs := t.regs, time := { s.time with cnt := t.time.cnt }, mgt := t.mgt }) ∧
    (s.rd Reg.MGT_FW_STAT.state = 4 → 1000 ≤ s.mgt.clean → s.on Reg.TIME_CTRL.servo_mgr = true →
      ∃ t, exec (.confirm true) s = .next t ∧ t.rd Reg.MGT_FW_STAT.state = 5 ∧ t.on Reg.MGT_HEALTH.confirm = true ∧
        t.rd Reg.MGT_HEALTH.trial_s = 0 ∧ t.mgt.running = s.mgt.running ∧ OnlyRegs s t [0xF000200, 0xF000208] ∧ MgtOnly s t) ∧
    (s.rd Reg.MGT_FW_STAT.state = 4 → s.mgt.trialResets = [] →
      ∃ t, exec .trialTimeout s = .next t ∧ t.rd Reg.MGT_FW_STAT.state = 6 ∧ t.rd Reg.MGT_FW_STAT.fallback_cause = 1 ∧
        t.mgt.running = s.mgt.old ∧ s.mgt.trialEnd ≤ t.time.cnt ∧
        t.rd Reg.MGT_STAT.active_core = if s.mgt.coldTrial then s.rd Reg.MGT_STAT.active_core else 1 - s.rd Reg.MGT_STAT.active_core) ∧
    (∀ v, s.mgt.boot % 4 = 3 → ∃ t, exec (.smbusWrite 5 v true) s = .next t ∧
      t = { s with mgt := { s.mgt with boardNext := some (if v % 65536 = 0 ∨ 3600 < v % 65536 then 3600 else v % 65536) } }) ∧
    (∀ code v ok, ok = false ∨ code ≠ 5 ∨ s.mgt.boot % 4 ≠ 3 → exec (.smbusWrite code v ok) s = .next s) ∧
    (∃ t, exec .faultCountRead s = .next t ∧ t.mgt.smb = NMap.get 0 s.mgt.snap 6 ∧ t.mgt.cnt8 = s.mgt.cnt8 - t.mgt.smb % 65536 ∧
      t.mgt.cnt9 = s.mgt.cnt9 - t.mgt.smb / 65536 ∧ NMap.get 0 t.mgt.snap 6 = 0 ∧ t = { s with mgt := t.mgt })

/-- R520, R540, R541, R544 to R546, R548, R551: loss of power, a reset pulse and a thermal trip stop the device and clear its memories and
registers, but not host memory or the flash; a cold start with everything healthy brings it to CORE_READY with its primary image and full
capacity; a unit that fails self-test without an identity is entered in the configuration record at the next cold start that has one; the wake
latch keeps the highest cause; the test access port selects its registers and touches nothing else.
Where the spec is silent it rests on the model's choices of log entries 1, 4, 55, 98 and 99. -/
def Obligations.PinsAndReset : Prop :=
  ∀ (s : State),
    let down := fun (t : State) (latch : Nat) => t.pins.stopped = true ∧ t.pins.coreReady = false ∧ t.pins.latch = latch ∧ t.core = State.reset.core ∧
      t.mem = State.reset.mem ∧ t.tick = State.reset.tick ∧ t.sem = State.reset.sem ∧ OnlyRegs State.reset t [0xF000200] ∧
      t.rd Reg.MGT_FW_STAT.state = s.rd Reg.MGT_FW_STAT.state ∧ t.host = s.host ∧ t.pending = s.pending ∧ t.mgt.primary = s.mgt.primary ∧
      t.mgt.live = s.mgt.live ∧ t.mgt.log = s.mgt.log
    (s.pins.pwrGood = false →
      exec .pwrGoodRise s = .next { s with pins := { s.pins with pwrGood := true, stopped := true, latch := max s.pins.latch 1 } }) ∧
    (s.pins.pwrGood = true → ∃ t, exec .pwrGoodFall s = .next t ∧ t.pins.pwrGood = false ∧ t.pins.thermtrip = false ∧ down t s.pins.latch) ∧
    (∀ ns, s.pins.pwrGood = true → 1000 < ns →
      ∃ t, exec (.resetNAssert ns) s = .next t ∧ t.pins.pwrGood = true ∧ down t (max s.pins.latch (if s.rd Reg.MGT_STAT.state = 2 then 4 else 3))) ∧
    (∀ ns, ns ≤ 1000 → exec (.resetNAssert ns) s = .next s) ∧
    (s.pins.stopped = false → ∃ t, exec .thermtrip s = .next t ∧ t.pins.thermtrip = true ∧ down t (max s.pins.latch 5)) ∧
    (∀ ns, 10000 ≤ ns → s.pins.pwrGood = false ∨ s.rd Reg.MGT_STAT.state = 2 →
      exec (.wakeN ns) s = .next { s with pins := { s.pins with latch := max s.pins.latch 2 } }) ∧
    exec .standbyRailLoss s = .next { s with pins := { s.pins with latch := 0 } } ∧
    (s.pins.stopped = true → s.pins.pwrGood = true → s.rd Reg.MGT_FW_STAT.state = 0 → s.mgt.pendCfg = none → s.mgt.live.units = [] → s.mgt.stored = [] → s.pins.unlisted = [] →
      ∃ t, exec (.coldStart { puf := true, badRecords := [], badImages := [], failed := [] }) s = .next t ∧ t.pins.stopped = false ∧ t.pins.coreReady = true ∧ t.pins.latch = 0 ∧
        t.rd Reg.MGT_STAT.wake_reason = (if s.pins.latch = 0 then 1 else s.pins.latch) % 8 ∧ t.on Reg.MGT_STAT.puf_ok = true ∧
        t.on Reg.TIME_STAT.standby_ok = true ∧ t.rd Reg.GLB_CAP_TILES.compute_present = 0xFF ∧ t.rd Reg.GLB_CAP_TILES.radio_present = 3 ∧ t.rd Reg.GLB_CAP_TILES.quill_present = 0xF ∧
        t.mgt.running = s.mgt.primary ∧ t.core = State.reset.core ∧ t.mem = State.reset.mem ∧ t.host = s.host ∧ t.pending = s.pending) ∧
    (∀ u, s.pins.stopped = true → s.pins.pwrGood = true → s.rd Reg.MGT_FW_STAT.state = 0 → s.mgt.pendCfg = none → s.mgt.live.units = [] →
      s.mgt.stored = [] → unitKnown u.1 u.2 = true →
      (s.pins.unlisted = [] →
        ∃ t, exec (.coldStart { puf := false, badRecords := [], badImages := [], failed := [u] }) s = .next t ∧ t.pins.unlisted = [u] ∧
          t.mgt.live = s.mgt.live ∧ t.on Reg.MGT_STAT.puf_ok = false) ∧
      (s.pins.unlisted = [u] →
        ∃ t, exec (.coldStart { puf := true, badRecords := [], badImages := [], failed := [] }) s = .next t ∧ t.pins.unlisted = [] ∧
          t.mgt.live.units = [u] ∧ t.mgt.live.gen = s.mgt.live.gen + 1)) ∧
    (s.pins.coreReady = true → exec (.pciePerstN true) s = .next { s with pins := { s.pins with perst := true } }) ∧
    (s.pins.perst = true → ∃ t, exec (.pciePerstN false) s = .next t ∧ t.pins.perst = false ∧ t.on Reg.HQ_LINK.up = false ∧
      OnlyRegs s t [Reg.HQ_LINK.all.off] ∧ t = { s with regs := t.regs, pins := { s.pins with perst := false } }) ∧
    exec .bypass s = .next { s with pins := { s.pins with tap := .bypass, dr := 0 } } ∧
    exec .idcode s = .next { s with pins := { s.pins with tap := .idcode, dr := 0x14B0874F } } ∧
    (∀ a b, exec (.samplePreload a b) s = .next { s with pins := { s.pins with tap := .samplePreload, dr := a, boundary := b } }) ∧
    (∀ a b, exec (.extest a b) s = .next { s with pins := { s.pins with tap := .extest, dr := a, boundary := b, taken := true } }) ∧
    exec .clamp s = .next { s with pins := { s.pins with tap := .clamp, dr := 0, taken := true } } ∧
    exec .highz s = .next { s with pins := { s.pins with tap := .highz, dr := 0, taken := true } }

/-- R12, R39, R88, R89, R303, R366, R492: the state after reset is in canonical form and has the values the spec gives for reset: an empty
queue, no image live or armed, time not valid and free-running at the nominal rate, the tick unit stopped, no partition, all memories
with nothing listed; the memories' contents and the registers for which the spec gives no reset value are the model's choice (log entry 1).
Where the spec is silent it rests on the model's choices of log entries 1 and 4. -/
def Obligations.ResetState : Prop :=
  let s := State.reset
  s.canonical ∧ s.pending = [] ∧ s.tick.image = none ∧ s.tick.armed = none ∧ s.on Reg.TICK_STAT.running = false ∧ s.on Reg.TIME_STAT.valid = false ∧
  s.rd Reg.TIME_CTRL.source = 0 ∧ s.time.rate = 0 ∧ (∀ p, p < 64 → s.partState p = 0) ∧ s.core.banks = [] ∧ s.rad.scribes = [] ∧ s.srv.reqs = [] ∧
  s.col.colls = [] ∧ s.fab.out = [] ∧ s.sem.grants = [] ∧ s.mem.bytes = [] ∧ s.host = [] ∧
  (∀ k, k < 36 → s.rd (Reg.FAB_PORT_STAT.state k) = 0)

/-- R12, R226: a step, whatever command stands at the front of the queue and in whatever state, goes on: it takes that command off the queue,
keeps the register file and every memory in canonical form, and takes no free value back.
Where the spec is silent it rests on the model's choices of log entries 2 and 6. -/
def Obligations.StepKeepsForm : Prop :=
  ∀ s : State, ∃ t, step s = .next t ∧ (s.canonical → t.canonical) ∧ t.pending = s.pending.tail ∧ s.free ≤ t.free
end

