-- ==== Sys2Proof/Laws/Map.lean ====
section
/-! SUPPORT. What the operations of the sparse map do: a read after a write, and that each keeps the canonical form. -/

namespace Sys2Proof.Machine

/-! ### The canonical form -/

/-- A map above a bound is a map. -/
theorem NMap.okFrom_none {α : Type} [DecidableEq α] {d : Nat → α} {b : Option Nat} {m : List (Nat × α)}
    (h : NMap.okFrom d b m = true) : NMap.okFrom d none m = true := by
  cases m with
  | nil => rfl
  | cons p r => obtain ⟨j, v⟩ := p; simp_all [NMap.okFrom]

/-- A lower bound may be lowered. -/
theorem NMap.okFrom_le {α : Type} [DecidableEq α] {d : Nat → α} {j k : Nat} {m : List (Nat × α)}
    (h : NMap.okFrom d (some k) m = true) (hjk : j ≤ k) : NMap.okFrom d (some j) m = true := by
  cases m with
  | nil => rfl
  | cons p r =>
    obtain ⟨i, v⟩ := p
    simp only [NMap.okFrom, Bool.and_eq_true, decide_eq_true_eq] at h ⊢
    exact ⟨⟨by omega, h.1.2⟩, h.2⟩

/-- Taking pairs out keeps the form. -/
theorem NMap.okFrom_filter {α : Type} [DecidableEq α] {d : Nat → α} (p : Nat × α → Bool) {b : Option Nat} {m : List (Nat × α)}
    (h : NMap.okFrom d b m = true) : NMap.okFrom d b (m.filter p) = true := by
  induction m generalizing b with
  | nil => rfl
  | cons e r ih =>
    obtain ⟨j, v⟩ := e
    simp only [NMap.okFrom, Bool.and_eq_true] at h
    rw [List.filter_cons]
    split
    · simp only [NMap.okFrom, Bool.and_eq_true]
      exact ⟨h.1, ih h.2⟩
    · have h2 := ih h.2
      cases b with
      | none => exact NMap.okFrom_none h2
      | some k => exact NMap.okFrom_le h2 (Nat.le_of_lt (by simpa using h.1.1))

/-- Removing a key keeps the form. -/
theorem NMap.okFrom_del {α : Type} [DecidableEq α] {d : Nat → α} (k : Nat) {b : Option Nat} {m : List (Nat × α)}
    (h : NMap.okFrom d b m = true) : NMap.okFrom d b (NMap.del m k) = true := NMap.okFrom_filter _ h

/-- Listing a value that is not its key's default keeps the form. -/
theorem NMap.okFrom_ins {α : Type} [DecidableEq α] {d : Nat → α} {k : Nat} {v : α} (hv : v ≠ d k) {b : Option Nat} {m : List (Nat × α)}
    (hb : ∀ i, b = some i → i < k) (h : NMap.okFrom d b m = true) : NMap.okFrom d b (NMap.ins m k v) = true := by
  induction m generalizing b with
  | nil => cases b <;> simp_all [NMap.ins, NMap.okFrom]
  | cons e r ih =>
    obtain ⟨j, u⟩ := e
    have h' := h
    simp only [NMap.okFrom, Bool.and_eq_true] at h
    simp only [NMap.ins]
    split
    · rename_i hj
      subst hj
      simp only [NMap.okFrom, Bool.and_eq_true]
      exact ⟨⟨h.1.1, by simpa using hv⟩, h.2⟩
    · split
      · rename_i hlt
        simp only [NMap.okFrom, Bool.and_eq_true]
        refine ⟨⟨?_, by simpa using hv⟩, ⟨by simpa using hlt, h.1.2⟩, h.2⟩
        cases b with
        | none => rfl
        | some i => simpa using hb i rfl
      · simp only [NMap.okFrom, Bool.and_eq_true]
        exact ⟨h.1, ih (fun i hi => by cases hi; omega) h.2⟩

/-- A write keeps the canonical form. -/
theorem NMap.wf_put {α : Type} [DecidableEq α] {d : Nat → α} {m : List (Nat × α)} (k : Nat) (v : α) (h : NMap.wf d m = true) :
    NMap.wf d (NMap.put (d k) m k v) = true := by
  unfold NMap.put
  split
  · exact NMap.okFrom_del k h
  · rename_i hv
    exact NMap.okFrom_ins hv (by simp) h

/-- Clearing a range keeps the canonical form. -/
theorem NMap.wf_clearRange {α : Type} [DecidableEq α] {d : Nat → α} {m : List (Nat × α)} (lo hi : Nat) (h : NMap.wf d m = true) :
    NMap.wf d (NMap.clearRange m lo hi) = true := NMap.okFrom_filter _ h

/-! ### A read after a write -/

/-- A key that was removed reads as the default. -/
@[simp] theorem NMap.get_del {α : Type} (x : α) (m : List (Nat × α)) (k : Nat) : NMap.get x (NMap.del m k) k = x := by
  unfold NMap.del
  induction m with
  | nil => rfl
  | cons e r ih =>
    obtain ⟨j, v⟩ := e
    by_cases h : j = k
    · simpa [List.filter_cons, h] using ih
    · simpa [List.filter_cons, h, NMap.get] using ih

/-- Removing a key leaves every other key. -/
theorem NMap.get_del_ne {α : Type} (x : α) (m : List (Nat × α)) {j k : Nat} (hjk : j ≠ k) :
    NMap.get x (NMap.del m k) j = NMap.get x m j := by
  unfold NMap.del
  induction m with
  | nil => rfl
  | cons e r ih =>
    obtain ⟨i, v⟩ := e
    by_cases h : i = k
    · subst h
      simpa [List.filter_cons, NMap.get, Ne.symm hjk] using ih
    · simp only [List.filter_cons, ne_eq, h, not_false_eq_true, decide_true, if_true, NMap.get]
      rw [ih]

/-- A listed key reads as its value. -/
@[simp] theorem NMap.get_ins {α : Type} (x : α) (m : List (Nat × α)) (k : Nat) (v : α) : NMap.get x (NMap.ins m k v) k = v := by
  induction m with
  | nil => simp [NMap.ins, NMap.get]
  | cons e r ih =>
    obtain ⟨i, u⟩ := e
    simp only [NMap.ins]
    split
    · simp [NMap.get]
    · split
      · simp [NMap.get]
      · rw [NMap.get, if_neg (by assumption), ih]

/-- Listing a key leaves every other key. -/
theorem NMap.get_ins_ne {α : Type} (x : α) (m : List (Nat × α)) {j k : Nat} (v : α) (hjk : j ≠ k) :
    NMap.get x (NMap.ins m k v) j = NMap.get x m j := by
  induction m with
  | nil => simp [NMap.ins, NMap.get, Ne.symm hjk]
  | cons e r ih =>
    obtain ⟨i, u⟩ := e
    simp only [NMap.ins]
    split
    · rename_i hi
      rw [NMap.get, NMap.get, if_neg (by omega), if_neg (by omega)]
    · split
      · rw [NMap.get, if_neg (Ne.symm hjk)]
      · simp only [NMap.get, ih]

/-- A read of the written key gives the value written. -/
@[simp] theorem NMap.get_put {α : Type} [DecidableEq α] (d : α) (m : List (Nat × α)) (k : Nat) (v : α) :
    NMap.get d (NMap.put d m k v) k = v := by
  unfold NMap.put
  split
  · rename_i hv
    rw [NMap.get_del, hv]
  · exact NMap.get_ins d m k v

/-- A write leaves every other key. -/
theorem NMap.get_put_ne {α : Type} [DecidableEq α] (x y : α) (m : List (Nat × α)) {j k : Nat} (v : α) (hjk : j ≠ k) :
    NMap.get x (NMap.put y m k v) j = NMap.get x m j := by
  unfold NMap.put
  split
  · exact NMap.get_del_ne x m hjk
  · exact NMap.get_ins_ne x m v hjk

/-! ### Looking a key up -/

@[simp] theorem NMap.find_del {α : Type} (m : List (Nat × α)) (k : Nat) : NMap.find (NMap.del m k) k = none := by
  unfold NMap.del
  induction m with
  | nil => rfl
  | cons e r ih =>
    obtain ⟨j, v⟩ := e
    by_cases h : j = k
    · simpa [List.filter_cons, h] using ih
    · simpa [List.filter_cons, h, NMap.find] using ih

theorem NMap.find_del_ne {α : Type} (m : List (Nat × α)) {j k : Nat} (hjk : j ≠ k) : NMap.find (NMap.del m k) j = NMap.find m j := by
  unfold NMap.del
  induction m with
  | nil => rfl
  | cons e r ih =>
    obtain ⟨i, v⟩ := e
    by_cases h : i = k
    · subst h
      simpa [List.filter_cons, NMap.find, Ne.symm hjk] using ih
    · simp only [List.filter_cons, ne_eq, h, not_false_eq_true, decide_true, if_true, NMap.find]
      rw [ih]

@[simp] theorem NMap.find_ins {α : Type} (m : List (Nat × α)) (k : Nat) (v : α) : NMap.find (NMap.ins m k v) k = some v := by
  induction m with
  | nil => simp [NMap.ins, NMap.find]
  | cons e r ih =>
    obtain ⟨i, u⟩ := e
    simp only [NMap.ins]
    split
    · simp [NMap.find]
    · split
      · simp [NMap.find]
      · rw [NMap.find, if_neg (by assumption), ih]

theorem NMap.find_ins_ne {α : Type} (m : List (Nat × α)) {j k : Nat} (v : α) (hjk : j ≠ k) :
    NMap.find (NMap.ins m k v) j = NMap.find m j := by
  induction m with
  | nil => simp [NMap.ins, NMap.find, Ne.symm hjk]
  | cons e r ih =>
    obtain ⟨i, u⟩ := e
    simp only [NMap.ins]
    split
    · rename_i hi
      rw [NMap.find, NMap.find, if_neg (by omega), if_neg (by omega)]
    · split
      · rw [NMap.find, if_neg (Ne.symm hjk)]
      · simp only [NMap.find, ih]

/-! ### Byte memories -/

theorem Mem.wf_wr {m : Mem} (a v : Nat) (h : Mem.wf m = true) : Mem.wf (Mem.wr m a v) = true :=
  NMap.wf_put (d := fun _ => (0 : Byte)) a _ h

theorem Mem.wf_zero {m : Mem} (lo hi : Nat) (h : Mem.wf m = true) : Mem.wf (Mem.zero m lo hi) = true := NMap.wf_clearRange lo hi h

theorem Mem.wf_wrN {m : Mem} (a n v : Nat) (h : Mem.wf m = true) : Mem.wf (Mem.wrN m a n v) = true := by
  induction n generalizing m a v with
  | zero => exact h
  | succ n ih => exact ih _ _ (Mem.wf_wr _ _ h)

theorem Mem.wf_wrBytes {m : Mem} (a : Nat) (l : List Nat) (h : Mem.wf m = true) : Mem.wf (Mem.wrBytes m a l) = true := by
  induction l generalizing m a with
  | nil => exact h
  | cons b r ih => exact ih _ (Mem.wf_wr _ _ h)

theorem Mem.wf_each_wr {α : Type} {m : Mem} (l : List α) (f g : α → Nat) (h : Mem.wf m = true) :
    Mem.wf (each l m (fun e n => Mem.wr n (f e) (g e))) = true := by
  unfold each
  induction l generalizing m with
  | nil => exact h
  | cons x r ih => exact ih (Mem.wf_wr _ _ h)

theorem Mem.wf_each {α : Type} {m : Mem} {l : List α} {f : α → Mem → Mem} (hf : ∀ i m, Mem.wf m = true → Mem.wf (f i m) = true)
    (h : Mem.wf m = true) : Mem.wf (each l m f) = true := by
  unfold each
  induction l generalizing m with
  | nil => exact h
  | cons x r ih => exact ih (hf x m h)

theorem Mem.wf_upto {m : Mem} {n : Nat} {f : Nat → Mem → Mem} (hf : ∀ i m, Mem.wf m = true → Mem.wf (f i m) = true)
    (h : Mem.wf m = true) : Mem.wf (upto n m f) = true := by
  unfold upto
  generalize List.range n = l
  induction l generalizing m with
  | nil => exact h
  | cons x r ih => exact ih (hf x m h)

theorem Mem.wf_foldlP {α β : Type} {p : Mem × β} {l : List α} {f : Mem × β → α → Mem × β}
    (hf : ∀ t x, Mem.wf t.1 = true → Mem.wf (f t x).1 = true) (h : Mem.wf p.1 = true) : Mem.wf (l.foldl f p).1 = true := by
  induction l generalizing p with
  | nil => exact h
  | cons x r ih => exact ih (hf p x h)

/-- A byte reads as it was written. -/
@[simp] theorem Mem.rd_wr (m : Mem) (a v : Nat) : Mem.rd (Mem.wr m a v) a = v % 256 := by
  unfold Mem.rd Mem.wr
  rw [NMap.get_put, BitVec.toNat_ofNat]

/-- A write leaves every other byte. -/
theorem Mem.rd_wr_ne (m : Mem) {a b : Nat} (v : Nat) (h : b ≠ a) : Mem.rd (Mem.wr m a v) b = Mem.rd m b := by
  unfold Mem.rd Mem.wr
  rw [NMap.get_put_ne _ _ _ _ h]

/-- A wide write leaves the bytes outside it. -/
theorem Mem.rd_wrN_out (m : Mem) (a n v b : Nat) (h : b < a ∨ a + n ≤ b) : Mem.rd (Mem.wrN m a n v) b = Mem.rd m b := by
  induction n generalizing m a v with
  | zero => rfl
  | succ n ih => rw [Mem.wrN, ih _ _ _ (by omega), Mem.rd_wr_ne _ _ (by omega)]

/-- Writing a list of bytes leaves the bytes outside it. -/
theorem Mem.rd_wrBytes_out (m : Mem) (a : Nat) (l : List Nat) (b : Nat) (h : b < a ∨ a + l.length ≤ b) :
    Mem.rd (Mem.wrBytes m a l) b = Mem.rd m b := by
  induction l generalizing m a with
  | nil => rfl
  | cons x r ih =>
    simp only [List.length_cons] at h
    rw [Mem.wrBytes, ih _ _ (by omega), Mem.rd_wr_ne _ _ (by omega)]

/-- A wide read after a wide write at the same place gives the value written. -/
theorem Mem.rdN_wrN (m : Mem) (a n v : Nat) : Mem.rdN (Mem.wrN m a n v) a n = v % 256 ^ n := by
  induction n generalizing m a v with
  | zero => simp [Mem.rdN, Nat.mod_one]
  | succ n ih =>
    rw [Mem.wrN, Mem.rdN, ih, Mem.rd_wrN_out _ _ _ _ _ (by omega), Mem.rd_wr, Nat.pow_succ, Nat.mul_comm (256 ^ n) 256, Nat.mod_mul,
      Nat.mod_mod]

/-- A byte of a written list reads as it was written. -/
theorem Mem.rd_wrBytes (m : Mem) (a : Nat) (l : List Nat) (i : Nat) (hi : i < l.length) :
    Mem.rd (Mem.wrBytes m a l) (a + i) = l[i] % 256 := by
  induction l generalizing m a i with
  | nil => simp at hi
  | cons x r ih =>
    cases i with
    | zero =>
      rw [Mem.wrBytes, Mem.rd_wrBytes_out _ _ _ _ (by omega)]
      exact Mem.rd_wr _ a x
    | succ i =>
      rw [Mem.wrBytes, show a + (i + 1) = a + 1 + i by omega, ih (Mem.wr m a x) (a + 1) i (by simpa using hi)]
      simp

/-- A cleared range reads as zero, and every byte outside it as before. -/
theorem Mem.rd_zero (m : Mem) (lo hi b : Nat) : Mem.rd (Mem.zero m lo hi) b = if lo ≤ b ∧ b < hi then 0 else Mem.rd m b := by
  unfold Mem.rd Mem.zero NMap.clearRange
  induction m with
  | nil => simp [NMap.get]
  | cons e r ih =>
    obtain ⟨j, v⟩ := e
    simp only [List.filter_cons, NMap.get]
    by_cases hj : lo ≤ j ∧ j < hi
    · simp only [hj, decide_true, Bool.and_self, Bool.not_true, Bool.false_eq_true, if_false]
      rw [ih]
      by_cases hb : lo ≤ b ∧ b < hi
      · simp [hb]
      · have : j ≠ b := by rintro rfl; exact hb hj
        simp [hb, this]
    · have h1 : (!(decide (lo ≤ j) && decide (j < hi))) = true := by
        simp only [Bool.not_eq_true', Bool.and_eq_false_iff, decide_eq_false_iff_not]
        omega
      simp only [h1, if_true, NMap.get]
      by_cases hjb : j = b
      · subst hjb; simp [hj]
      · simp only [hjb, if_false]; exact ih

end Sys2Proof.Machine
end

