-- ==== Sys2Proof/Laws/State.lean ====
section
/-! SUPPORT. What each named update of State changes: its own field; and what a register field reads after a write. -/

namespace Sys2Proof.Machine

/-! ### Fields under updates -/

/-! setReg -/
@[simp] theorem State.setReg_pending (s : State) (off : Nat) (v : Word) : (s.setReg off v).pending = s.pending := rfl
@[simp] theorem State.setReg_shadow (s : State) (off : Nat) (v : Word) : (s.setReg off v).shadow = s.shadow := rfl
@[simp] theorem State.setReg_prev (s : State) (off : Nat) (v : Word) : (s.setReg off v).prev = s.prev := rfl
@[simp] theorem State.setReg_bus (s : State) (off : Nat) (v : Word) : (s.setReg off v).bus = s.bus := rfl
@[simp] theorem State.setReg_host (s : State) (off : Nat) (v : Word) : (s.setReg off v).host = s.host := rfl
@[simp] theorem State.setReg_free (s : State) (off : Nat) (v : Word) : (s.setReg off v).free = s.free := rfl
@[simp] theorem State.setReg_flt (s : State) (off : Nat) (v : Word) : (s.setReg off v).flt = s.flt := rfl
@[simp] theorem State.setReg_tick (s : State) (off : Nat) (v : Word) : (s.setReg off v).tick = s.tick := rfl
@[simp] theorem State.setReg_time (s : State) (off : Nat) (v : Word) : (s.setReg off v).time = s.time := rfl
@[simp] theorem State.setReg_pulses (s : State) (off : Nat) (v : Word) : (s.setReg off v).pulses = s.pulses := rfl
@[simp] theorem State.setReg_bars (s : State) (off : Nat) (v : Word) : (s.setReg off v).bars = s.bars := rfl
@[simp] theorem State.setReg_core (s : State) (off : Nat) (v : Word) : (s.setReg off v).core = s.core := rfl
@[simp] theorem State.setReg_mem (s : State) (off : Nat) (v : Word) : (s.setReg off v).mem = s.mem := rfl
@[simp] theorem State.setReg_sem (s : State) (off : Nat) (v : Word) : (s.setReg off v).sem = s.sem := rfl
@[simp] theorem State.setReg_mesh (s : State) (off : Nat) (v : Word) : (s.setReg off v).mesh = s.mesh := rfl
@[simp] theorem State.setReg_part (s : State) (off : Nat) (v : Word) : (s.setReg off v).part = s.part := rfl
@[simp] theorem State.setReg_hq (s : State) (off : Nat) (v : Word) : (s.setReg off v).hq = s.hq := rfl
@[simp] theorem State.setReg_fab (s : State) (off : Nat) (v : Word) : (s.setReg off v).fab = s.fab := rfl
@[simp] theorem State.setReg_srv (s : State) (off : Nat) (v : Word) : (s.setReg off v).srv = s.srv := rfl
@[simp] theorem State.setReg_eth (s : State) (off : Nat) (v : Word) : (s.setReg off v).eth = s.eth := rfl
@[simp] theorem State.setReg_rad (s : State) (off : Nat) (v : Word) : (s.setReg off v).rad = s.rad := rfl
@[simp] theorem State.setReg_col (s : State) (off : Nat) (v : Word) : (s.setReg off v).col = s.col := rfl
@[simp] theorem State.setReg_mgt (s : State) (off : Nat) (v : Word) : (s.setReg off v).mgt = s.mgt := rfl
@[simp] theorem State.setReg_pins (s : State) (off : Nat) (v : Word) : (s.setReg off v).pins = s.pins := rfl

/-! wr -/
@[simp] theorem State.wr_pending (s : State) (f : Fld) (x : Nat) : (s.wr f x).pending = s.pending := rfl
@[simp] theorem State.wr_shadow (s : State) (f : Fld) (x : Nat) : (s.wr f x).shadow = s.shadow := rfl
@[simp] theorem State.wr_prev (s : State) (f : Fld) (x : Nat) : (s.wr f x).prev = s.prev := rfl
@[simp] theorem State.wr_bus (s : State) (f : Fld) (x : Nat) : (s.wr f x).bus = s.bus := rfl
@[simp] theorem State.wr_host (s : State) (f : Fld) (x : Nat) : (s.wr f x).host = s.host := rfl
@[simp] theorem State.wr_free (s : State) (f : Fld) (x : Nat) : (s.wr f x).free = s.free := rfl
@[simp] theorem State.wr_flt (s : State) (f : Fld) (x : Nat) : (s.wr f x).flt = s.flt := rfl
@[simp] theorem State.wr_tick (s : State) (f : Fld) (x : Nat) : (s.wr f x).tick = s.tick := rfl
@[simp] theorem State.wr_time (s : State) (f : Fld) (x : Nat) : (s.wr f x).time = s.time := rfl
@[simp] theorem State.wr_pulses (s : State) (f : Fld) (x : Nat) : (s.wr f x).pulses = s.pulses := rfl
@[simp] theorem State.wr_bars (s : State) (f : Fld) (x : Nat) : (s.wr f x).bars = s.bars := rfl
@[simp] theorem State.wr_core (s : State) (f : Fld) (x : Nat) : (s.wr f x).core = s.core := rfl
@[simp] theorem State.wr_mem (s : State) (f : Fld) (x : Nat) : (s.wr f x).mem = s.mem := rfl
@[simp] theorem State.wr_sem (s : State) (f : Fld) (x : Nat) : (s.wr f x).sem = s.sem := rfl
@[simp] theorem State.wr_mesh (s : State) (f : Fld) (x : Nat) : (s.wr f x).mesh = s.mesh := rfl
@[simp] theorem State.wr_part (s : State) (f : Fld) (x : Nat) : (s.wr f x).part = s.part := rfl
@[simp] theorem State.wr_hq (s : State) (f : Fld) (x : Nat) : (s.wr f x).hq = s.hq := rfl
@[simp] theorem State.wr_fab (s : State) (f : Fld) (x : Nat) : (s.wr f x).fab = s.fab := rfl
@[simp] theorem State.wr_srv (s : State) (f : Fld) (x : Nat) : (s.wr f x).srv = s.srv := rfl
@[simp] theorem State.wr_eth (s : State) (f : Fld) (x : Nat) : (s.wr f x).eth = s.eth := rfl
@[simp] theorem State.wr_rad (s : State) (f : Fld) (x : Nat) : (s.wr f x).rad = s.rad := rfl
@[simp] theorem State.wr_col (s : State) (f : Fld) (x : Nat) : (s.wr f x).col = s.col := rfl
@[simp] theorem State.wr_mgt (s : State) (f : Fld) (x : Nat) : (s.wr f x).mgt = s.mgt := rfl
@[simp] theorem State.wr_pins (s : State) (f : Fld) (x : Nat) : (s.wr f x).pins = s.pins := rfl

/-! inc -/
@[simp] theorem State.inc_pending (s : State) (f : Fld) (n : Nat) : (s.inc f n).pending = s.pending := rfl
@[simp] theorem State.inc_shadow (s : State) (f : Fld) (n : Nat) : (s.inc f n).shadow = s.shadow := rfl
@[simp] theorem State.inc_prev (s : State) (f : Fld) (n : Nat) : (s.inc f n).prev = s.prev := rfl
@[simp] theorem State.inc_bus (s : State) (f : Fld) (n : Nat) : (s.inc f n).bus = s.bus := rfl
@[simp] theorem State.inc_host (s : State) (f : Fld) (n : Nat) : (s.inc f n).host = s.host := rfl
@[simp] theorem State.inc_free (s : State) (f : Fld) (n : Nat) : (s.inc f n).free = s.free := rfl
@[simp] theorem State.inc_flt (s : State) (f : Fld) (n : Nat) : (s.inc f n).flt = s.flt := rfl
@[simp] theorem State.inc_tick (s : State) (f : Fld) (n : Nat) : (s.inc f n).tick = s.tick := rfl
@[simp] theorem State.inc_time (s : State) (f : Fld) (n : Nat) : (s.inc f n).time = s.time := rfl
@[simp] theorem State.inc_pulses (s : State) (f : Fld) (n : Nat) : (s.inc f n).pulses = s.pulses := rfl
@[simp] theorem State.inc_bars (s : State) (f : Fld) (n : Nat) : (s.inc f n).bars = s.bars := rfl
@[simp] theorem State.inc_core (s : State) (f : Fld) (n : Nat) : (s.inc f n).core = s.core := rfl
@[simp] theorem State.inc_mem (s : State) (f : Fld) (n : Nat) : (s.inc f n).mem = s.mem := rfl
@[simp] theorem State.inc_sem (s : State) (f : Fld) (n : Nat) : (s.inc f n).sem = s.sem := rfl
@[simp] theorem State.inc_mesh (s : State) (f : Fld) (n : Nat) : (s.inc f n).mesh = s.mesh := rfl
@[simp] theorem State.inc_part (s : State) (f : Fld) (n : Nat) : (s.inc f n).part = s.part := rfl
@[simp] theorem State.inc_hq (s : State) (f : Fld) (n : Nat) : (s.inc f n).hq = s.hq := rfl
@[simp] theorem State.inc_fab (s : State) (f : Fld) (n : Nat) : (s.inc f n).fab = s.fab := rfl
@[simp] theorem State.inc_srv (s : State) (f : Fld) (n : Nat) : (s.inc f n).srv = s.srv := rfl
@[simp] theorem State.inc_eth (s : State) (f : Fld) (n : Nat) : (s.inc f n).eth = s.eth := rfl
@[simp] theorem State.inc_rad (s : State) (f : Fld) (n : Nat) : (s.inc f n).rad = s.rad := rfl
@[simp] theorem State.inc_col (s : State) (f : Fld) (n : Nat) : (s.inc f n).col = s.col := rfl
@[simp] theorem State.inc_mgt (s : State) (f : Fld) (n : Nat) : (s.inc f n).mgt = s.mgt := rfl
@[simp] theorem State.inc_pins (s : State) (f : Fld) (n : Nat) : (s.inc f n).pins = s.pins := rfl

/-! incw -/
@[simp] theorem State.incw_pending (s : State) (f : Fld) (n : Nat) : (s.incw f n).pending = s.pending := rfl
@[simp] theorem State.incw_shadow (s : State) (f : Fld) (n : Nat) : (s.incw f n).shadow = s.shadow := rfl
@[simp] theorem State.incw_prev (s : State) (f : Fld) (n : Nat) : (s.incw f n).prev = s.prev := rfl
@[simp] theorem State.incw_bus (s : State) (f : Fld) (n : Nat) : (s.incw f n).bus = s.bus := rfl
@[simp] theorem State.incw_host (s : State) (f : Fld) (n : Nat) : (s.incw f n).host = s.host := rfl
@[simp] theorem State.incw_free (s : State) (f : Fld) (n : Nat) : (s.incw f n).free = s.free := rfl
@[simp] theorem State.incw_flt (s : State) (f : Fld) (n : Nat) : (s.incw f n).flt = s.flt := rfl
@[simp] theorem State.incw_tick (s : State) (f : Fld) (n : Nat) : (s.incw f n).tick = s.tick := rfl
@[simp] theorem State.incw_time (s : State) (f : Fld) (n : Nat) : (s.incw f n).time = s.time := rfl
@[simp] theorem State.incw_pulses (s : State) (f : Fld) (n : Nat) : (s.incw f n).pulses = s.pulses := rfl
@[simp] theorem State.incw_bars (s : State) (f : Fld) (n : Nat) : (s.incw f n).bars = s.bars := rfl
@[simp] theorem State.incw_core (s : State) (f : Fld) (n : Nat) : (s.incw f n).core = s.core := rfl
@[simp] theorem State.incw_mem (s : State) (f : Fld) (n : Nat) : (s.incw f n).mem = s.mem := rfl
@[simp] theorem State.incw_sem (s : State) (f : Fld) (n : Nat) : (s.incw f n).sem = s.sem := rfl
@[simp] theorem State.incw_mesh (s : State) (f : Fld) (n : Nat) : (s.incw f n).mesh = s.mesh := rfl
@[simp] theorem State.incw_part (s : State) (f : Fld) (n : Nat) : (s.incw f n).part = s.part := rfl
@[simp] theorem State.incw_hq (s : State) (f : Fld) (n : Nat) : (s.incw f n).hq = s.hq := rfl
@[simp] theorem State.incw_fab (s : State) (f : Fld) (n : Nat) : (s.incw f n).fab = s.fab := rfl
@[simp] theorem State.incw_srv (s : State) (f : Fld) (n : Nat) : (s.incw f n).srv = s.srv := rfl
@[simp] theorem State.incw_eth (s : State) (f : Fld) (n : Nat) : (s.incw f n).eth = s.eth := rfl
@[simp] theorem State.incw_rad (s : State) (f : Fld) (n : Nat) : (s.incw f n).rad = s.rad := rfl
@[simp] theorem State.incw_col (s : State) (f : Fld) (n : Nat) : (s.incw f n).col = s.col := rfl
@[simp] theorem State.incw_mgt (s : State) (f : Fld) (n : Nat) : (s.incw f n).mgt = s.mgt := rfl
@[simp] theorem State.incw_pins (s : State) (f : Fld) (n : Nat) : (s.incw f n).pins = s.pins := rfl

/-! setShadow -/
@[simp] theorem State.setShadow_pending (s : State) (off : Nat) (v : Word) : (s.setShadow off v).pending = s.pending := rfl
@[simp] theorem State.setShadow_regs (s : State) (off : Nat) (v : Word) : (s.setShadow off v).regs = s.regs := rfl
@[simp] theorem State.setShadow_prev (s : State) (off : Nat) (v : Word) : (s.setShadow off v).prev = s.prev := rfl
@[simp] theorem State.setShadow_bus (s : State) (off : Nat) (v : Word) : (s.setShadow off v).bus = s.bus := rfl
@[simp] theorem State.setShadow_host (s : State) (off : Nat) (v : Word) : (s.setShadow off v).host = s.host := rfl
@[simp] theorem State.setShadow_free (s : State) (off : Nat) (v : Word) : (s.setShadow off v).free = s.free := rfl
@[simp] theorem State.setShadow_flt (s : State) (off : Nat) (v : Word) : (s.setShadow off v).flt = s.flt := rfl
@[simp] theorem State.setShadow_tick (s : State) (off : Nat) (v : Word) : (s.setShadow off v).tick = s.tick := rfl
@[simp] theorem State.setShadow_time (s : State) (off : Nat) (v : Word) : (s.setShadow off v).time = s.time := rfl
@[simp] theorem State.setShadow_pulses (s : State) (off : Nat) (v : Word) : (s.setShadow off v).pulses = s.pulses := rfl
@[simp] theorem State.setShadow_bars (s : State) (off : Nat) (v : Word) : (s.setShadow off v).bars = s.bars := rfl
@[simp] theorem State.setShadow_core (s : State) (off : Nat) (v : Word) : (s.setShadow off v).core = s.core := rfl
@[simp] theorem State.setShadow_mem (s : State) (off : Nat) (v : Word) : (s.setShadow off v).mem = s.mem := rfl
@[simp] theorem State.setShadow_sem (s : State) (off : Nat) (v : Word) : (s.setShadow off v).sem = s.sem := rfl
@[simp] theorem State.setShadow_mesh (s : State) (off : Nat) (v : Word) : (s.setShadow off v).mesh = s.mesh := rfl
@[simp] theorem State.setShadow_part (s : State) (off : Nat) (v : Word) : (s.setShadow off v).part = s.part := rfl
@[simp] theorem State.setShadow_hq (s : State) (off : Nat) (v : Word) : (s.setShadow off v).hq = s.hq := rfl
@[simp] theorem State.setShadow_fab (s : State) (off : Nat) (v : Word) : (s.setShadow off v).fab = s.fab := rfl
@[simp] theorem State.setShadow_srv (s : State) (off : Nat) (v : Word) : (s.setShadow off v).srv = s.srv := rfl
@[simp] theorem State.setShadow_eth (s : State) (off : Nat) (v : Word) : (s.setShadow off v).eth = s.eth := rfl
@[simp] theorem State.setShadow_rad (s : State) (off : Nat) (v : Word) : (s.setShadow off v).rad = s.rad := rfl
@[simp] theorem State.setShadow_col (s : State) (off : Nat) (v : Word) : (s.setShadow off v).col = s.col := rfl
@[simp] theorem State.setShadow_mgt (s : State) (off : Nat) (v : Word) : (s.setShadow off v).mgt = s.mgt := rfl
@[simp] theorem State.setShadow_pins (s : State) (off : Nat) (v : Word) : (s.setShadow off v).pins = s.pins := rfl

/-! took -/
@[simp] theorem State.took_pending (s : State) (n : Nat) : (s.took n).pending = s.pending := rfl
@[simp] theorem State.took_regs (s : State) (n : Nat) : (s.took n).regs = s.regs := rfl
@[simp] theorem State.took_shadow (s : State) (n : Nat) : (s.took n).shadow = s.shadow := rfl
@[simp] theorem State.took_prev (s : State) (n : Nat) : (s.took n).prev = s.prev := rfl
@[simp] theorem State.took_bus (s : State) (n : Nat) : (s.took n).bus = s.bus := rfl
@[simp] theorem State.took_host (s : State) (n : Nat) : (s.took n).host = s.host := rfl
@[simp] theorem State.took_flt (s : State) (n : Nat) : (s.took n).flt = s.flt := rfl
@[simp] theorem State.took_tick (s : State) (n : Nat) : (s.took n).tick = s.tick := rfl
@[simp] theorem State.took_time (s : State) (n : Nat) : (s.took n).time = s.time := rfl
@[simp] theorem State.took_pulses (s : State) (n : Nat) : (s.took n).pulses = s.pulses := rfl
@[simp] theorem State.took_bars (s : State) (n : Nat) : (s.took n).bars = s.bars := rfl
@[simp] theorem State.took_core (s : State) (n : Nat) : (s.took n).core = s.core := rfl
@[simp] theorem State.took_mem (s : State) (n : Nat) : (s.took n).mem = s.mem := rfl
@[simp] theorem State.took_sem (s : State) (n : Nat) : (s.took n).sem = s.sem := rfl
@[simp] theorem State.took_mesh (s : State) (n : Nat) : (s.took n).mesh = s.mesh := rfl
@[simp] theorem State.took_part (s : State) (n : Nat) : (s.took n).part = s.part := rfl
@[simp] theorem State.took_hq (s : State) (n : Nat) : (s.took n).hq = s.hq := rfl
@[simp] theorem State.took_fab (s : State) (n : Nat) : (s.took n).fab = s.fab := rfl
@[simp] theorem State.took_srv (s : State) (n : Nat) : (s.took n).srv = s.srv := rfl
@[simp] theorem State.took_eth (s : State) (n : Nat) : (s.took n).eth = s.eth := rfl
@[simp] theorem State.took_rad (s : State) (n : Nat) : (s.took n).rad = s.rad := rfl
@[simp] theorem State.took_col (s : State) (n : Nat) : (s.took n).col = s.col := rfl
@[simp] theorem State.took_mgt (s : State) (n : Nat) : (s.took n).mgt = s.mgt := rfl
@[simp] theorem State.took_pins (s : State) (n : Nat) : (s.took n).pins = s.pins := rfl

/-! modMgt -/
@[simp] theorem State.modMgt_pending (s : State) (f : MgtSt → MgtSt) : (s.modMgt f).pending = s.pending := rfl
@[simp] theorem State.modMgt_regs (s : State) (f : MgtSt → MgtSt) : (s.modMgt f).regs = s.regs := rfl
@[simp] theorem State.modMgt_shadow (s : State) (f : MgtSt → MgtSt) : (s.modMgt f).shadow = s.shadow := rfl
@[simp] theorem State.modMgt_prev (s : State) (f : MgtSt → MgtSt) : (s.modMgt f).prev = s.prev := rfl
@[simp] theorem State.modMgt_bus (s : State) (f : MgtSt → MgtSt) : (s.modMgt f).bus = s.bus := rfl
@[simp] theorem State.modMgt_host (s : State) (f : MgtSt → MgtSt) : (s.modMgt f).host = s.host := rfl
@[simp] theorem State.modMgt_free (s : State) (f : MgtSt → MgtSt) : (s.modMgt f).free = s.free := rfl
@[simp] theorem State.modMgt_flt (s : State) (f : MgtSt → MgtSt) : (s.modMgt f).flt = s.flt := rfl
@[simp] theorem State.modMgt_tick (s : State) (f : MgtSt → MgtSt) : (s.modMgt f).tick = s.tick := rfl
@[simp] theorem State.modMgt_time (s : State) (f : MgtSt → MgtSt) : (s.modMgt f).time = s.time := rfl
@[simp] theorem State.modMgt_pulses (s : State) (f : MgtSt → MgtSt) : (s.modMgt f).pulses = s.pulses := rfl
@[simp] theorem State.modMgt_bars (s : State) (f : MgtSt → MgtSt) : (s.modMgt f).bars = s.bars := rfl
@[simp] theorem State.modMgt_core (s : State) (f : MgtSt → MgtSt) : (s.modMgt f).core = s.core := rfl
@[simp] theorem State.modMgt_mem (s : State) (f : MgtSt → MgtSt) : (s.modMgt f).mem = s.mem := rfl
@[simp] theorem State.modMgt_sem (s : State) (f : MgtSt → MgtSt) : (s.modMgt f).sem = s.sem := rfl
@[simp] theorem State.modMgt_mesh (s : State) (f : MgtSt → MgtSt) : (s.modMgt f).mesh = s.mesh := rfl
@[simp] theorem State.modMgt_part (s : State) (f : MgtSt → MgtSt) : (s.modMgt f).part = s.part := rfl
@[simp] theorem State.modMgt_hq (s : State) (f : MgtSt → MgtSt) : (s.modMgt f).hq = s.hq := rfl
@[simp] theorem State.modMgt_fab (s : State) (f : MgtSt → MgtSt) : (s.modMgt f).fab = s.fab := rfl
@[simp] theorem State.modMgt_srv (s : State) (f : MgtSt → MgtSt) : (s.modMgt f).srv = s.srv := rfl
@[simp] theorem State.modMgt_eth (s : State) (f : MgtSt → MgtSt) : (s.modMgt f).eth = s.eth := rfl
@[simp] theorem State.modMgt_rad (s : State) (f : MgtSt → MgtSt) : (s.modMgt f).rad = s.rad := rfl
@[simp] theorem State.modMgt_col (s : State) (f : MgtSt → MgtSt) : (s.modMgt f).col = s.col := rfl
@[simp] theorem State.modMgt_pins (s : State) (f : MgtSt → MgtSt) : (s.modMgt f).pins = s.pins := rfl

/-! advance -/
@[simp] theorem State.advance_pending (s : State) (c : Nat) : (s.advance c).pending = s.pending := rfl
@[simp] theorem State.advance_regs (s : State) (c : Nat) : (s.advance c).regs = s.regs := rfl
@[simp] theorem State.advance_shadow (s : State) (c : Nat) : (s.advance c).shadow = s.shadow := rfl
@[simp] theorem State.advance_prev (s : State) (c : Nat) : (s.advance c).prev = s.prev := rfl
@[simp] theorem State.advance_bus (s : State) (c : Nat) : (s.advance c).bus = s.bus := rfl
@[simp] theorem State.advance_host (s : State) (c : Nat) : (s.advance c).host = s.host := rfl
@[simp] theorem State.advance_free (s : State) (c : Nat) : (s.advance c).free = s.free := rfl
@[simp] theorem State.advance_flt (s : State) (c : Nat) : (s.advance c).flt = s.flt := rfl
@[simp] theorem State.advance_tick (s : State) (c : Nat) : (s.advance c).tick = s.tick := rfl
@[simp] theorem State.advance_pulses (s : State) (c : Nat) : (s.advance c).pulses = s.pulses := rfl
@[simp] theorem State.advance_bars (s : State) (c : Nat) : (s.advance c).bars = s.bars := rfl
@[simp] theorem State.advance_core (s : State) (c : Nat) : (s.advance c).core = s.core := rfl
@[simp] theorem State.advance_mem (s : State) (c : Nat) : (s.advance c).mem = s.mem := rfl
@[simp] theorem State.advance_sem (s : State) (c : Nat) : (s.advance c).sem = s.sem := rfl
@[simp] theorem State.advance_mesh (s : State) (c : Nat) : (s.advance c).mesh = s.mesh := rfl
@[simp] theorem State.advance_part (s : State) (c : Nat) : (s.advance c).part = s.part := rfl
@[simp] theorem State.advance_hq (s : State) (c : Nat) : (s.advance c).hq = s.hq := rfl
@[simp] theorem State.advance_fab (s : State) (c : Nat) : (s.advance c).fab = s.fab := rfl
@[simp] theorem State.advance_srv (s : State) (c : Nat) : (s.advance c).srv = s.srv := rfl
@[simp] theorem State.advance_eth (s : State) (c : Nat) : (s.advance c).eth = s.eth := rfl
@[simp] theorem State.advance_rad (s : State) (c : Nat) : (s.advance c).rad = s.rad := rfl
@[simp] theorem State.advance_col (s : State) (c : Nat) : (s.advance c).col = s.col := rfl
@[simp] theorem State.advance_mgt (s : State) (c : Nat) : (s.advance c).mgt = s.mgt := rfl
@[simp] theorem State.advance_pins (s : State) (c : Nat) : (s.advance c).pins = s.pins := rfl

/-! setRing -/
@[simp] theorem State.setRing_pending (s : State) (k : Nat) (r : Ring) : (s.setRing k r).pending = s.pending := rfl
@[simp] theorem State.setRing_regs (s : State) (k : Nat) (r : Ring) : (s.setRing k r).regs = s.regs := rfl
@[simp] theorem State.setRing_shadow (s : State) (k : Nat) (r : Ring) : (s.setRing k r).shadow = s.shadow := rfl
@[simp] theorem State.setRing_prev (s : State) (k : Nat) (r : Ring) : (s.setRing k r).prev = s.prev := rfl
@[simp] theorem State.setRing_bus (s : State) (k : Nat) (r : Ring) : (s.setRing k r).bus = s.bus := rfl
@[simp] theorem State.setRing_host (s : State) (k : Nat) (r : Ring) : (s.setRing k r).host = s.host := rfl
@[simp] theorem State.setRing_free (s : State) (k : Nat) (r : Ring) : (s.setRing k r).free = s.free := rfl
@[simp] theorem State.setRing_tick (s : State) (k : Nat) (r : Ring) : (s.setRing k r).tick = s.tick := rfl
@[simp] theorem State.setRing_time (s : State) (k : Nat) (r : Ring) : (s.setRing k r).time = s.time := rfl
@[simp] theorem State.setRing_pulses (s : State) (k : Nat) (r : Ring) : (s.setRing k r).pulses = s.pulses := rfl
@[simp] theorem State.setRing_bars (s : State) (k : Nat) (r : Ring) : (s.setRing k r).bars = s.bars := rfl
@[simp] theorem State.setRing_core (s : State) (k : Nat) (r : Ring) : (s.setRing k r).core = s.core := rfl
@[simp] theorem State.setRing_mem (s : State) (k : Nat) (r : Ring) : (s.setRing k r).mem = s.mem := rfl
@[simp] theorem State.setRing_sem (s : State) (k : Nat) (r : Ring) : (s.setRing k r).sem = s.sem := rfl
@[simp] theorem State.setRing_mesh (s : State) (k : Nat) (r : Ring) : (s.setRing k r).mesh = s.mesh := rfl
@[simp] theorem State.setRing_part (s : State) (k : Nat) (r : Ring) : (s.setRing k r).part = s.part := rfl
@[simp] theorem State.setRing_hq (s : State) (k : Nat) (r : Ring) : (s.setRing k r).hq = s.hq := rfl
@[simp] theorem State.setRing_fab (s : State) (k : Nat) (r : Ring) : (s.setRing k r).fab = s.fab := rfl
@[simp] theorem State.setRing_srv (s : State) (k : Nat) (r : Ring) : (s.setRing k r).srv = s.srv := rfl
@[simp] theorem State.setRing_eth (s : State) (k : Nat) (r : Ring) : (s.setRing k r).eth = s.eth := rfl
@[simp] theorem State.setRing_rad (s : State) (k : Nat) (r : Ring) : (s.setRing k r).rad = s.rad := rfl
@[simp] theorem State.setRing_col (s : State) (k : Nat) (r : Ring) : (s.setRing k r).col = s.col := rfl
@[simp] theorem State.setRing_mgt (s : State) (k : Nat) (r : Ring) : (s.setRing k r).mgt = s.mgt := rfl
@[simp] theorem State.setRing_pins (s : State) (k : Nat) (r : Ring) : (s.setRing k r).pins = s.pins := rfl

/-! setBank -/
@[simp] theorem State.setBank_pending (s : State) (k : Nat) (b : Bank) : (s.setBank k b).pending = s.pending := rfl
@[simp] theorem State.setBank_regs (s : State) (k : Nat) (b : Bank) : (s.setBank k b).regs = s.regs := rfl
@[simp] theorem State.setBank_shadow (s : State) (k : Nat) (b : Bank) : (s.setBank k b).shadow = s.shadow := rfl
@[simp] theorem State.setBank_prev (s : State) (k : Nat) (b : Bank) : (s.setBank k b).prev = s.prev := rfl
@[simp] theorem State.setBank_bus (s : State) (k : Nat) (b : Bank) : (s.setBank k b).bus = s.bus := rfl
@[simp] theorem State.setBank_host (s : State) (k : Nat) (b : Bank) : (s.setBank k b).host = s.host := rfl
@[simp] theorem State.setBank_free (s : State) (k : Nat) (b : Bank) : (s.setBank k b).free = s.free := rfl
@[simp] theorem State.setBank_flt (s : State) (k : Nat) (b : Bank) : (s.setBank k b).flt = s.flt := rfl
@[simp] theorem State.setBank_tick (s : State) (k : Nat) (b : Bank) : (s.setBank k b).tick = s.tick := rfl
@[simp] theorem State.setBank_time (s : State) (k : Nat) (b : Bank) : (s.setBank k b).time = s.time := rfl
@[simp] theorem State.setBank_pulses (s : State) (k : Nat) (b : Bank) : (s.setBank k b).pulses = s.pulses := rfl
@[simp] theorem State.setBank_bars (s : State) (k : Nat) (b : Bank) : (s.setBank k b).bars = s.bars := rfl
@[simp] theorem State.setBank_mem (s : State) (k : Nat) (b : Bank) : (s.setBank k b).mem = s.mem := rfl
@[simp] theorem State.setBank_sem (s : State) (k : Nat) (b : Bank) : (s.setBank k b).sem = s.sem := rfl
@[simp] theorem State.setBank_mesh (s : State) (k : Nat) (b : Bank) : (s.setBank k b).mesh = s.mesh := rfl
@[simp] theorem State.setBank_part (s : State) (k : Nat) (b : Bank) : (s.setBank k b).part = s.part := rfl
@[simp] theorem State.setBank_hq (s : State) (k : Nat) (b : Bank) : (s.setBank k b).hq = s.hq := rfl
@[simp] theorem State.setBank_fab (s : State) (k : Nat) (b : Bank) : (s.setBank k b).fab = s.fab := rfl
@[simp] theorem State.setBank_srv (s : State) (k : Nat) (b : Bank) : (s.setBank k b).srv = s.srv := rfl
@[simp] theorem State.setBank_eth (s : State) (k : Nat) (b : Bank) : (s.setBank k b).eth = s.eth := rfl
@[simp] theorem State.setBank_rad (s : State) (k : Nat) (b : Bank) : (s.setBank k b).rad = s.rad := rfl
@[simp] theorem State.setBank_col (s : State) (k : Nat) (b : Bank) : (s.setBank k b).col = s.col := rfl
@[simp] theorem State.setBank_mgt (s : State) (k : Nat) (b : Bank) : (s.setBank k b).mgt = s.mgt := rfl
@[simp] theorem State.setBank_pins (s : State) (k : Nat) (b : Bank) : (s.setBank k b).pins = s.pins := rfl

/-! delBank -/
@[simp] theorem State.delBank_pending (s : State) (k : Nat) : (s.delBank k).pending = s.pending := rfl
@[simp] theorem State.delBank_regs (s : State) (k : Nat) : (s.delBank k).regs = s.regs := rfl
@[simp] theorem State.delBank_shadow (s : State) (k : Nat) : (s.delBank k).shadow = s.shadow := rfl
@[simp] theorem State.delBank_prev (s : State) (k : Nat) : (s.delBank k).prev = s.prev := rfl
@[simp] theorem State.delBank_bus (s : State) (k : Nat) : (s.delBank k).bus = s.bus := rfl
@[simp] theorem State.delBank_host (s : State) (k : Nat) : (s.delBank k).host = s.host := rfl
@[simp] theorem State.delBank_free (s : State) (k : Nat) : (s.delBank k).free = s.free := rfl
@[simp] theorem State.delBank_flt (s : State) (k : Nat) : (s.delBank k).flt = s.flt := rfl
@[simp] theorem State.delBank_tick (s : State) (k : Nat) : (s.delBank k).tick = s.tick := rfl
@[simp] theorem State.delBank_time (s : State) (k : Nat) : (s.delBank k).time = s.time := rfl
@[simp] theorem State.delBank_pulses (s : State) (k : Nat) : (s.delBank k).pulses = s.pulses := rfl
@[simp] theorem State.delBank_bars (s : State) (k : Nat) : (s.delBank k).bars = s.bars := rfl
@[simp] theorem State.delBank_mem (s : State) (k : Nat) : (s.delBank k).mem = s.mem := rfl
@[simp] theorem State.delBank_sem (s : State) (k : Nat) : (s.delBank k).sem = s.sem := rfl
@[simp] theorem State.delBank_mesh (s : State) (k : Nat) : (s.delBank k).mesh = s.mesh := rfl
@[simp] theorem State.delBank_part (s : State) (k : Nat) : (s.delBank k).part = s.part := rfl
@[simp] theorem State.delBank_hq (s : State) (k : Nat) : (s.delBank k).hq = s.hq := rfl
@[simp] theorem State.delBank_fab (s : State) (k : Nat) : (s.delBank k).fab = s.fab := rfl
@[simp] theorem State.delBank_srv (s : State) (k : Nat) : (s.delBank k).srv = s.srv := rfl
@[simp] theorem State.delBank_eth (s : State) (k : Nat) : (s.delBank k).eth = s.eth := rfl
@[simp] theorem State.delBank_rad (s : State) (k : Nat) : (s.delBank k).rad = s.rad := rfl
@[simp] theorem State.delBank_col (s : State) (k : Nat) : (s.delBank k).col = s.col := rfl
@[simp] theorem State.delBank_mgt (s : State) (k : Nat) : (s.delBank k).mgt = s.mgt := rfl
@[simp] theorem State.delBank_pins (s : State) (k : Nat) : (s.delBank k).pins = s.pins := rfl

/-! setTileProg -/
@[simp] theorem State.setTileProg_pending (s : State) (n : Nat) (l : List Slot) : (s.setTileProg n l).pending = s.pending := rfl
@[simp] theorem State.setTileProg_regs (s : State) (n : Nat) (l : List Slot) : (s.setTileProg n l).regs = s.regs := rfl
@[simp] theorem State.setTileProg_shadow (s : State) (n : Nat) (l : List Slot) : (s.setTileProg n l).shadow = s.shadow := rfl
@[simp] theorem State.setTileProg_prev (s : State) (n : Nat) (l : List Slot) : (s.setTileProg n l).prev = s.prev := rfl
@[simp] theorem State.setTileProg_bus (s : State) (n : Nat) (l : List Slot) : (s.setTileProg n l).bus = s.bus := rfl
@[simp] theorem State.setTileProg_host (s : State) (n : Nat) (l : List Slot) : (s.setTileProg n l).host = s.host := rfl
@[simp] theorem State.setTileProg_free (s : State) (n : Nat) (l : List Slot) : (s.setTileProg n l).free = s.free := rfl
@[simp] theorem State.setTileProg_flt (s : State) (n : Nat) (l : List Slot) : (s.setTileProg n l).flt = s.flt := rfl
@[simp] theorem State.setTileProg_time (s : State) (n : Nat) (l : List Slot) : (s.setTileProg n l).time = s.time := rfl
@[simp] theorem State.setTileProg_pulses (s : State) (n : Nat) (l : List Slot) : (s.setTileProg n l).pulses = s.pulses := rfl
@[simp] theorem State.setTileProg_bars (s : State) (n : Nat) (l : List Slot) : (s.setTileProg n l).bars = s.bars := rfl
@[simp] theorem State.setTileProg_core (s : State) (n : Nat) (l : List Slot) : (s.setTileProg n l).core = s.core := rfl
@[simp] theorem State.setTileProg_mem (s : State) (n : Nat) (l : List Slot) : (s.setTileProg n l).mem = s.mem := rfl
@[simp] theorem State.setTileProg_sem (s : State) (n : Nat) (l : List Slot) : (s.setTileProg n l).sem = s.sem := rfl
@[simp] theorem State.setTileProg_mesh (s : State) (n : Nat) (l : List Slot) : (s.setTileProg n l).mesh = s.mesh := rfl
@[simp] theorem State.setTileProg_part (s : State) (n : Nat) (l : List Slot) : (s.setTileProg n l).part = s.part := rfl
@[simp] theorem State.setTileProg_hq (s : State) (n : Nat) (l : List Slot) : (s.setTileProg n l).hq = s.hq := rfl
@[simp] theorem State.setTileProg_fab (s : State) (n : Nat) (l : List Slot) : (s.setTileProg n l).fab = s.fab := rfl
@[simp] theorem State.setTileProg_srv (s : State) (n : Nat) (l : List Slot) : (s.setTileProg n l).srv = s.srv := rfl
@[simp] theorem State.setTileProg_eth (s : State) (n : Nat) (l : List Slot) : (s.setTileProg n l).eth = s.eth := rfl
@[simp] theorem State.setTileProg_rad (s : State) (n : Nat) (l : List Slot) : (s.setTileProg n l).rad = s.rad := rfl
@[simp] theorem State.setTileProg_col (s : State) (n : Nat) (l : List Slot) : (s.setTileProg n l).col = s.col := rfl
@[simp] theorem State.setTileProg_mgt (s : State) (n : Nat) (l : List Slot) : (s.setTileProg n l).mgt = s.mgt := rfl
@[simp] theorem State.setTileProg_pins (s : State) (n : Nat) (l : List Slot) : (s.setTileProg n l).pins = s.pins := rfl

/-! setSem -/
@[simp] theorem State.setSem_pending (s : State) (k v : Nat) : (s.setSem k v).pending = s.pending := rfl
@[simp] theorem State.setSem_regs (s : State) (k v : Nat) : (s.setSem k v).regs = s.regs := rfl
@[simp] theorem State.setSem_shadow (s : State) (k v : Nat) : (s.setSem k v).shadow = s.shadow := rfl
@[simp] theorem State.setSem_prev (s : State) (k v : Nat) : (s.setSem k v).prev = s.prev := rfl
@[simp] theorem State.setSem_bus (s : State) (k v : Nat) : (s.setSem k v).bus = s.bus := rfl
@[simp] theorem State.setSem_host (s : State) (k v : Nat) : (s.setSem k v).host = s.host := rfl
@[simp] theorem State.setSem_free (s : State) (k v : Nat) : (s.setSem k v).free = s.free := rfl
@[simp] theorem State.setSem_flt (s : State) (k v : Nat) : (s.setSem k v).flt = s.flt := rfl
@[simp] theorem State.setSem_tick (s : State) (k v : Nat) : (s.setSem k v).tick = s.tick := rfl
@[simp] theorem State.setSem_time (s : State) (k v : Nat) : (s.setSem k v).time = s.time := rfl
@[simp] theorem State.setSem_pulses (s : State) (k v : Nat) : (s.setSem k v).pulses = s.pulses := rfl
@[simp] theorem State.setSem_bars (s : State) (k v : Nat) : (s.setSem k v).bars = s.bars := rfl
@[simp] theorem State.setSem_core (s : State) (k v : Nat) : (s.setSem k v).core = s.core := rfl
@[simp] theorem State.setSem_mem (s : State) (k v : Nat) : (s.setSem k v).mem = s.mem := rfl
@[simp] theorem State.setSem_mesh (s : State) (k v : Nat) : (s.setSem k v).mesh = s.mesh := rfl
@[simp] theorem State.setSem_part (s : State) (k v : Nat) : (s.setSem k v).part = s.part := rfl
@[simp] theorem State.setSem_hq (s : State) (k v : Nat) : (s.setSem k v).hq = s.hq := rfl
@[simp] theorem State.setSem_fab (s : State) (k v : Nat) : (s.setSem k v).fab = s.fab := rfl
@[simp] theorem State.setSem_srv (s : State) (k v : Nat) : (s.setSem k v).srv = s.srv := rfl
@[simp] theorem State.setSem_eth (s : State) (k v : Nat) : (s.setSem k v).eth = s.eth := rfl
@[simp] theorem State.setSem_rad (s : State) (k v : Nat) : (s.setSem k v).rad = s.rad := rfl
@[simp] theorem State.setSem_col (s : State) (k v : Nat) : (s.setSem k v).col = s.col := rfl
@[simp] theorem State.setSem_mgt (s : State) (k v : Nat) : (s.setSem k v).mgt = s.mgt := rfl
@[simp] theorem State.setSem_pins (s : State) (k v : Nat) : (s.setSem k v).pins = s.pins := rfl

/-! setWaiters -/
@[simp] theorem State.setWaiters_pending (s : State) (k : Nat) (l : List Waiter) : (s.setWaiters k l).pending = s.pending := rfl
@[simp] theorem State.setWaiters_regs (s : State) (k : Nat) (l : List Waiter) : (s.setWaiters k l).regs = s.regs := rfl
@[simp] theorem State.setWaiters_shadow (s : State) (k : Nat) (l : List Waiter) : (s.setWaiters k l).shadow = s.shadow := rfl
@[simp] theorem State.setWaiters_prev (s : State) (k : Nat) (l : List Waiter) : (s.setWaiters k l).prev = s.prev := rfl
@[simp] theorem State.setWaiters_bus (s : State) (k : Nat) (l : List Waiter) : (s.setWaiters k l).bus = s.bus := rfl
@[simp] theorem State.setWaiters_host (s : State) (k : Nat) (l : List Waiter) : (s.setWaiters k l).host = s.host := rfl
@[simp] theorem State.setWaiters_free (s : State) (k : Nat) (l : List Waiter) : (s.setWaiters k l).free = s.free := rfl
@[simp] theorem State.setWaiters_flt (s : State) (k : Nat) (l : List Waiter) : (s.setWaiters k l).flt = s.flt := rfl
@[simp] theorem State.setWaiters_tick (s : State) (k : Nat) (l : List Waiter) : (s.setWaiters k l).tick = s.tick := rfl
@[simp] theorem State.setWaiters_time (s : State) (k : Nat) (l : List Waiter) : (s.setWaiters k l).time = s.time := rfl
@[simp] theorem State.setWaiters_pulses (s : State) (k : Nat) (l : List Waiter) : (s.setWaiters k l).pulses = s.pulses := rfl
@[simp] theorem State.setWaiters_bars (s : State) (k : Nat) (l : List Waiter) : (s.setWaiters k l).bars = s.bars := rfl
@[simp] theorem State.setWaiters_core (s : State) (k : Nat) (l : List Waiter) : (s.setWaiters k l).core = s.core := rfl
@[simp] theorem State.setWaiters_mem (s : State) (k : Nat) (l : List Waiter) : (s.setWaiters k l).mem = s.mem := rfl
@[simp] theorem State.setWaiters_mesh (s : State) (k : Nat) (l : List Waiter) : (s.setWaiters k l).mesh = s.mesh := rfl
@[simp] theorem State.setWaiters_part (s : State) (k : Nat) (l : List Waiter) : (s.setWaiters k l).part = s.part := rfl
@[simp] theorem State.setWaiters_hq (s : State) (k : Nat) (l : List Waiter) : (s.setWaiters k l).hq = s.hq := rfl
@[simp] theorem State.setWaiters_fab (s : State) (k : Nat) (l : List Waiter) : (s.setWaiters k l).fab = s.fab := rfl
@[simp] theorem State.setWaiters_srv (s : State) (k : Nat) (l : List Waiter) : (s.setWaiters k l).srv = s.srv := rfl
@[simp] theorem State.setWaiters_eth (s : State) (k : Nat) (l : List Waiter) : (s.setWaiters k l).eth = s.eth := rfl
@[simp] theorem State.setWaiters_rad (s : State) (k : Nat) (l : List Waiter) : (s.setWaiters k l).rad = s.rad := rfl
@[simp] theorem State.setWaiters_col (s : State) (k : Nat) (l : List Waiter) : (s.setWaiters k l).col = s.col := rfl
@[simp] theorem State.setWaiters_mgt (s : State) (k : Nat) (l : List Waiter) : (s.setWaiters k l).mgt = s.mgt := rfl
@[simp] theorem State.setWaiters_pins (s : State) (k : Nat) (l : List Waiter) : (s.setWaiters k l).pins = s.pins := rfl

/-! setScribe -/
@[simp] theorem State.setScribe_pending (s : State) (k : Nat) (c : Scribe) : (s.setScribe k c).pending = s.pending := rfl
@[simp] theorem State.setScribe_regs (s : State) (k : Nat) (c : Scribe) : (s.setScribe k c).regs = s.regs := rfl
@[simp] theorem State.setScribe_shadow (s : State) (k : Nat) (c : Scribe) : (s.setScribe k c).shadow = s.shadow := rfl
@[simp] theorem State.setScribe_prev (s : State) (k : Nat) (c : Scribe) : (s.setScribe k c).prev = s.prev := rfl
@[simp] theorem State.setScribe_bus (s : State) (k : Nat) (c : Scribe) : (s.setScribe k c).bus = s.bus := rfl
@[simp] theorem State.setScribe_host (s : State) (k : Nat) (c : Scribe) : (s.setScribe k c).host = s.host := rfl
@[simp] theorem State.setScribe_free (s : State) (k : Nat) (c : Scribe) : (s.setScribe k c).free = s.free := rfl
@[simp] theorem State.setScribe_flt (s : State) (k : Nat) (c : Scribe) : (s.setScribe k c).flt = s.flt := rfl
@[simp] theorem State.setScribe_tick (s : State) (k : Nat) (c : Scribe) : (s.setScribe k c).tick = s.tick := rfl
@[simp] theorem State.setScribe_time (s : State) (k : Nat) (c : Scribe) : (s.setScribe k c).time = s.time := rfl
@[simp] theorem State.setScribe_pulses (s : State) (k : Nat) (c : Scribe) : (s.setScribe k c).pulses = s.pulses := rfl
@[simp] theorem State.setScribe_bars (s : State) (k : Nat) (c : Scribe) : (s.setScribe k c).bars = s.bars := rfl
@[simp] theorem State.setScribe_core (s : State) (k : Nat) (c : Scribe) : (s.setScribe k c).core = s.core := rfl
@[simp] theorem State.setScribe_mem (s : State) (k : Nat) (c : Scribe) : (s.setScribe k c).mem = s.mem := rfl
@[simp] theorem State.setScribe_sem (s : State) (k : Nat) (c : Scribe) : (s.setScribe k c).sem = s.sem := rfl
@[simp] theorem State.setScribe_mesh (s : State) (k : Nat) (c : Scribe) : (s.setScribe k c).mesh = s.mesh := rfl
@[simp] theorem State.setScribe_part (s : State) (k : Nat) (c : Scribe) : (s.setScribe k c).part = s.part := rfl
@[simp] theorem State.setScribe_hq (s : State) (k : Nat) (c : Scribe) : (s.setScribe k c).hq = s.hq := rfl
@[simp] theorem State.setScribe_fab (s : State) (k : Nat) (c : Scribe) : (s.setScribe k c).fab = s.fab := rfl
@[simp] theorem State.setScribe_srv (s : State) (k : Nat) (c : Scribe) : (s.setScribe k c).srv = s.srv := rfl
@[simp] theorem State.setScribe_eth (s : State) (k : Nat) (c : Scribe) : (s.setScribe k c).eth = s.eth := rfl
@[simp] theorem State.setScribe_col (s : State) (k : Nat) (c : Scribe) : (s.setScribe k c).col = s.col := rfl
@[simp] theorem State.setScribe_mgt (s : State) (k : Nat) (c : Scribe) : (s.setScribe k c).mgt = s.mgt := rfl
@[simp] theorem State.setScribe_pins (s : State) (k : Nat) (c : Scribe) : (s.setScribe k c).pins = s.pins := rfl

/-! delScribe -/
@[simp] theorem State.delScribe_pending (s : State) (k : Nat) : (s.delScribe k).pending = s.pending := rfl
@[simp] theorem State.delScribe_regs (s : State) (k : Nat) : (s.delScribe k).regs = s.regs := rfl
@[simp] theorem State.delScribe_shadow (s : State) (k : Nat) : (s.delScribe k).shadow = s.shadow := rfl
@[simp] theorem State.delScribe_prev (s : State) (k : Nat) : (s.delScribe k).prev = s.prev := rfl
@[simp] theorem State.delScribe_bus (s : State) (k : Nat) : (s.delScribe k).bus = s.bus := rfl
@[simp] theorem State.delScribe_host (s : State) (k : Nat) : (s.delScribe k).host = s.host := rfl
@[simp] theorem State.delScribe_free (s : State) (k : Nat) : (s.delScribe k).free = s.free := rfl
@[simp] theorem State.delScribe_flt (s : State) (k : Nat) : (s.delScribe k).flt = s.flt := rfl
@[simp] theorem State.delScribe_tick (s : State) (k : Nat) : (s.delScribe k).tick = s.tick := rfl
@[simp] theorem State.delScribe_time (s : State) (k : Nat) : (s.delScribe k).time = s.time := rfl
@[simp] theorem State.delScribe_pulses (s : State) (k : Nat) : (s.delScribe k).pulses = s.pulses := rfl
@[simp] theorem State.delScribe_bars (s : State) (k : Nat) : (s.delScribe k).bars = s.bars := rfl
@[simp] theorem State.delScribe_core (s : State) (k : Nat) : (s.delScribe k).core = s.core := rfl
@[simp] theorem State.delScribe_mem (s : State) (k : Nat) : (s.delScribe k).mem = s.mem := rfl
@[simp] theorem State.delScribe_sem (s : State) (k : Nat) : (s.delScribe k).sem = s.sem := rfl
@[simp] theorem State.delScribe_mesh (s : State) (k : Nat) : (s.delScribe k).mesh = s.mesh := rfl
@[simp] theorem State.delScribe_part (s : State) (k : Nat) : (s.delScribe k).part = s.part := rfl
@[simp] theorem State.delScribe_hq (s : State) (k : Nat) : (s.delScribe k).hq = s.hq := rfl
@[simp] theorem State.delScribe_fab (s : State) (k : Nat) : (s.delScribe k).fab = s.fab := rfl
@[simp] theorem State.delScribe_srv (s : State) (k : Nat) : (s.delScribe k).srv = s.srv := rfl
@[simp] theorem State.delScribe_eth (s : State) (k : Nat) : (s.delScribe k).eth = s.eth := rfl
@[simp] theorem State.delScribe_col (s : State) (k : Nat) : (s.delScribe k).col = s.col := rfl
@[simp] theorem State.delScribe_mgt (s : State) (k : Nat) : (s.delScribe k).mgt = s.mgt := rfl
@[simp] theorem State.delScribe_pins (s : State) (k : Nat) : (s.delScribe k).pins = s.pins := rfl


/-! ### Bit fields -/

theorem bits_lt (x lo w : Nat) : bits x lo w < 2 ^ w := Nat.mod_lt _ (Nat.two_pow_pos w)

/-- A field reads as it was set. -/
theorem bits_setBits (x lo w v : Nat) : bits (setBits x lo w v) lo w = v % 2 ^ w := by
  unfold bits setBits
  have h1 : x % 2 ^ lo + v % 2 ^ w * 2 ^ lo + x / 2 ^ (lo + w) * 2 ^ (lo + w)
      = x % 2 ^ lo + 2 ^ lo * (v % 2 ^ w + 2 ^ w * (x / 2 ^ (lo + w))) := by
    rw [Nat.pow_add]
    rw [Nat.mul_add, ← Nat.add_assoc, Nat.mul_comm (v % 2 ^ w), Nat.mul_comm (x / _) , Nat.mul_assoc]
  rw [h1, Nat.add_mul_div_left _ _ (Nat.two_pow_pos lo), Nat.div_eq_of_lt (Nat.mod_lt _ (Nat.two_pow_pos lo)), Nat.zero_add,
    Nat.add_mul_mod_self_left, Nat.mod_mod]

/-- A bit outside the field that is set stays. -/
theorem testBit_setBits (x lo w v i : Nat) (h : i < lo ∨ lo + w ≤ i) : (setBits x lo w v).testBit i = x.testBit i := by
  have key : setBits x lo w v = 2 ^ (lo + w) * (x / 2 ^ (lo + w)) + (x % 2 ^ lo + 2 ^ lo * (v % 2 ^ w)) := by
    unfold setBits
    rw [Nat.mul_comm (x / _), Nat.mul_comm (v % _)]
    omega
  have hl : x % 2 ^ lo < 2 ^ lo := Nat.mod_lt _ (Nat.two_pow_pos lo)
  have hv : v % 2 ^ w < 2 ^ w := Nat.mod_lt _ (Nat.two_pow_pos w)
  have hlow : x % 2 ^ lo + 2 ^ lo * (v % 2 ^ w) < 2 ^ (lo + w) := by
    rw [Nat.pow_add]
    calc x % 2 ^ lo + 2 ^ lo * (v % 2 ^ w) < 2 ^ lo + 2 ^ lo * (v % 2 ^ w) := by omega
      _ = 2 ^ lo * (v % 2 ^ w + 1) := by rw [Nat.mul_add]; omega
      _ ≤ 2 ^ lo * 2 ^ w := Nat.mul_le_mul_left _ hv
  rw [key, Nat.testBit_two_pow_mul_add _ hlow]
  split
  · rename_i hi
    have : i < lo := by omega
    rw [Nat.add_comm, Nat.testBit_two_pow_mul_add _ hl, if_pos this, Nat.testBit_mod_two_pow]
    simp [this]
  · rename_i hi
    rw [Nat.testBit_div_two_pow]
    congr 1
    omega

theorem testBit_bits (x lo w i : Nat) : (bits x lo w).testBit i = (decide (i < w) && x.testBit (lo + i)) := by
  unfold bits
  rw [Nat.testBit_mod_two_pow, Nat.testBit_div_two_pow, Nat.add_comm]

/-- A field apart from the one that is set stays. -/
theorem bits_setBits_apart (x lo w v lo' w' : Nat) (h : lo' + w' ≤ lo ∨ lo + w ≤ lo') : bits (setBits x lo w v) lo' w' = bits x lo' w' := by
  apply Nat.eq_of_testBit_eq
  intro i
  rw [testBit_bits, testBit_bits]
  by_cases hi : i < w'
  · rw [testBit_setBits _ _ _ _ _ (by omega)]
  · simp [hi]

/-- Setting a field of a 64-bit number gives a 64-bit number. -/
theorem setBits_lt {x : Nat} (lo w v : Nat) (hx : x < 2 ^ 64) (h : lo + w ≤ 64) : setBits x lo w v < 2 ^ 64 := by
  apply Nat.lt_pow_two_of_testBit
  intro i hi
  rw [testBit_setBits _ _ _ _ _ (by omega)]
  exact Nat.testBit_lt_two_pow (Nat.lt_of_lt_of_le hx (Nat.pow_le_pow_right (by omega) hi))

/-! ### Registers -/

@[simp] theorem State.reg_setReg (s : State) (off : Nat) (v : Word) : (s.setReg off v).reg off = v := by
  simp [State.reg, State.setReg]

theorem State.reg_setReg_ne (s : State) {o off : Nat} (v : Word) (h : o ≠ off) : (s.setReg off v).reg o = s.reg o := by
  unfold State.reg State.setReg
  exact NMap.get_put_ne _ _ _ _ h

theorem State.reg_wr_ne (s : State) {o : Nat} (f : Fld) (x : Nat) (h : o ≠ f.off) : (s.wr f x).reg o = s.reg o :=
  State.reg_setReg_ne s _ h

theorem State.toNat_reg_wr (s : State) (f : Fld) (x : Nat) (h : f.lo + f.w ≤ 64) :
    ((s.wr f x).reg f.off).toNat = setBits (s.reg f.off).toNat f.lo f.w x := by
  unfold State.wr
  rw [State.reg_setReg, BitVec.toNat_ofNat, Nat.mod_eq_of_lt (setBits_lt _ _ _ (s.reg f.off).isLt h)]

/-- A field reads as it was written. -/
theorem State.rd_wr (s : State) (f : Fld) (x : Nat) (h : f.lo + f.w ≤ 64) : (s.wr f x).rd f = x % 2 ^ f.w := by
  unfold State.rd
  rw [State.toNat_reg_wr s f x h, bits_setBits]

/-- A field of another register reads as before. -/
theorem State.rd_wr_ne (s : State) (f g : Fld) (x : Nat) (h : g.off ≠ f.off) : (s.wr f x).rd g = s.rd g := by
  unfold State.rd
  rw [State.reg_wr_ne s f x h]

/-- A field of the same register apart from the one written reads as before. -/
theorem State.rd_wr_apart (s : State) (f g : Fld) (x : Nat) (h : f.lo + f.w ≤ 64) (ho : g.off = f.off)
    (hd : g.lo + g.w ≤ f.lo ∨ f.lo + f.w ≤ g.lo) : (s.wr f x).rd g = s.rd g := by
  unfold State.rd
  rw [ho, State.toNat_reg_wr s f x h, bits_setBits_apart _ _ _ _ _ _ hd]

/-- Either way. -/
theorem State.rd_wr_other (s : State) (f g : Fld) (x : Nat) (h : f.lo + f.w ≤ 64)
    (hd : g.off ≠ f.off ∨ g.lo + g.w ≤ f.lo ∨ f.lo + f.w ≤ g.lo) : (s.wr f x).rd g = s.rd g := by
  by_cases ho : g.off = f.off
  · exact State.rd_wr_apart s f g x h ho (by omega)
  · exact State.rd_wr_ne s f g x ho

theorem State.rd_lt (s : State) (f : Fld) : s.rd f < 2 ^ f.w := bits_lt _ _ _

/-- Registers are read from the register file alone. -/
theorem State.reg_congr {s t : State} (h : s.regs = t.regs) (off : Nat) : s.reg off = t.reg off := by unfold State.reg; rw [h]

theorem State.rd_congr {s t : State} (h : s.regs = t.regs) (f : Fld) : s.rd f = t.rd f := by unfold State.rd; rw [State.reg_congr h]

theorem State.on_congr {s t : State} (h : s.regs = t.regs) (f : Fld) : s.on f = t.on f := by unfold State.on; rw [State.rd_congr h]

theorem State.on_wr_one (s : State) (f : Fld) (h : f.lo + f.w ≤ 64) (hw : f.w = 1) : (s.wr f 1).on f = true := by
  unfold State.on; rw [State.rd_wr s f 1 h, hw]; rfl

theorem State.on_wr_zero (s : State) (f : Fld) (h : f.lo + f.w ≤ 64) : (s.wr f 0).on f = false := by
  unfold State.on; rw [State.rd_wr s f 0 h]; simp

theorem State.on_wr_ne (s : State) (f g : Fld) (x : Nat) (h : g.off ≠ f.off) : (s.wr f x).on g = s.on g := by
  unfold State.on; rw [State.rd_wr_ne s f g x h]

/-- A saturating counter advances (R14). -/
theorem State.rd_inc (s : State) (f : Fld) (n : Nat) (h : f.lo + f.w ≤ 64) : (s.inc f n).rd f = satAdd (s.rd f) n f.w := by
  unfold State.inc
  rw [State.rd_wr s f _ h]
  apply Nat.mod_eq_of_lt
  unfold satAdd
  have := Nat.two_pow_pos f.w
  omega

/-- A wrapping counter advances. -/
theorem State.rd_incw (s : State) (f : Fld) (n : Nat) (h : f.lo + f.w ≤ 64) : (s.incw f n).rd f = (s.rd f + n) % 2 ^ f.w := State.rd_wr s f _ h

theorem State.rd_inc_ne (s : State) (f g : Fld) (n : Nat) (h : g.off ≠ f.off) : (s.inc f n).rd g = s.rd g := State.rd_wr_ne s f g _ h

/-! A register write changes the register file alone. -/

theorem State.setReg_rest (s : State) (off : Nat) (v : Word) : s.setReg off v = { s with regs := (s.setReg off v).regs } := rfl
theorem State.wr_rest (s : State) (f : Fld) (x : Nat) : s.wr f x = { s with regs := (s.wr f x).regs } := rfl
theorem State.inc_rest (s : State) (f : Fld) (n : Nat) : s.inc f n = { s with regs := (s.inc f n).regs } := rfl
theorem State.incw_rest (s : State) (f : Fld) (n : Nat) : s.incw f n = { s with regs := (s.incw f n).regs } := rfl

/-! ### Register banks, program slots, semaphores -/

@[simp] theorem State.bank_setBank (s : State) (k : Nat) (b : Bank) : (s.setBank k b).bank k = some b := NMap.find_ins _ _ _
theorem State.bank_setBank_ne (s : State) {j k : Nat} (b : Bank) (h : j ≠ k) : (s.setBank k b).bank j = s.bank j := NMap.find_ins_ne _ _ h
@[simp] theorem State.bank_delBank (s : State) (k : Nat) : (s.delBank k).bank k = none := NMap.find_del _ _
theorem State.bank_delBank_ne (s : State) {j k : Nat} (h : j ≠ k) : (s.delBank k).bank j = s.bank j := NMap.find_del_ne _ h
@[simp] theorem State.tileProg_setTileProg (s : State) (n : Nat) (l : List Slot) : (s.setTileProg n l).tileProg n = l := NMap.get_put _ _ _ _
theorem State.tileProg_setTileProg_ne (s : State) {m n : Nat} (l : List Slot) (h : m ≠ n) : (s.setTileProg n l).tileProg m = s.tileProg m :=
  NMap.get_put_ne _ _ _ _ h
@[simp] theorem State.semVal_setSem (s : State) (k v : Nat) : (s.setSem k v).semVal k = v := NMap.get_put _ _ _ _
theorem State.semVal_setSem_ne (s : State) {j k : Nat} (v : Nat) (h : j ≠ k) : (s.setSem k v).semVal j = s.semVal j := NMap.get_put_ne _ _ _ _ h
@[simp] theorem State.semWaiters_setWaiters (s : State) (k : Nat) (l : List Waiter) : (s.setWaiters k l).semWaiters k = l := NMap.get_put _ _ _ _
theorem State.semWaiters_setWaiters_ne (s : State) {j k : Nat} (l : List Waiter) (h : j ≠ k) :
    (s.setWaiters k l).semWaiters j = s.semWaiters j := NMap.get_put_ne _ _ _ _ h
@[simp] theorem State.semWaiters_setSem (s : State) (k v j : Nat) : (s.setSem k v).semWaiters j = s.semWaiters j := rfl
@[simp] theorem State.semVal_setWaiters (s : State) (k : Nat) (l : List Waiter) (j : Nat) : (s.setWaiters k l).semVal j = s.semVal j := rfl

end Sys2Proof.Machine
end

