-- ==== Sys2Proof/Laws/Core.lean ====
section
/-! SUPPORT. How a core instruction that is ready issues, and what the end of its bundle leaves. -/

namespace Sys2Proof.Machine

/-- A ready instruction is fetched and passes the tests of its issue. -/
theorem Issues.front {s : State} {x : Issue} {w : Word} {b : Bank} {op : Nat} (h : Issues s x w b) (hop : wOp w = op) (uses : List CReg) :
    (s.fetchBundle (issueKey x) b).upset x = s ∧ s.issueHeld x w op uses b = false ∧ b.full x.slot = false := by
  obtain ⟨hb, ⟨h1, h2, h3⟩, ⟨h4, h5⟩, ⟨h6, h7, h8, h9, ho⟩, ⟨h10, h11, hd, h12, h13, h14⟩, ⟨h15, h16, hc⟩, h17, h18, h19⟩ := h
  have hr : uses.any (fun r => !b.dests.contains r && s.regPending (bankKey x.tile x.core x.bank) r) = false := by
    simp only [List.any_eq_false]
    intro r _
    have e : s.regPending (bankKey x.tile x.core x.bank) r = false := h17 r
    simp [e]
  have hn : b.slot.isNone = false := by cases hs : b.slot <;> simp_all
  refine ⟨?_, ?_, ?_⟩
  · unfold State.fetchBundle
    simp only
    rw [if_pos (Or.inr hc)]
    simp [State.upset, h18, each]
  · subst hop
    unfold State.issueHeld
    rw [hr]
    simp [h6, hn, h8, h10, bit, ho]
    omega
  · simp only [Bank.full, h9, List.filter_nil, List.length_nil, decide_eq_false_iff_not]
    unfold queueCap
    split <;> omega

/-- A ready instruction does what its body says; one of slot 1 or 3 that cannot start enters its queue. -/
theorem coreIssue_ready {s : State} {x : Issue} {w : Word} {b : Bank} {op : Nat} {pred legal : Bool} {uses : List CReg}
    {body : State → Nat → Bank → CRes} {dests : List CReg} {lines : State → Bank → List (Nat × Nat)} (h : Issues s x w b) (hop : wOp w = op)
    (hl : legal = true) (hg : pred = true → Guarded b w) :
    coreIssue x w op pred legal uses s body dests lines =
      match body s (issueKey x) b with
      | .ok t wr fl => .next (t.joinBundle x (issueKey x) wr (dests.filter (fun r => !(wr.map (fun p => p.1)).contains r)) fl)
      | .fault c n a => .next (s.coreFault (issueKey x) c n a)
      | .trap t c n a => .next (t.coreFault (issueKey x) c n a)
      | .cut t n sums fl =>
        .next (((t.toStop x b).enqueue (issueKey x) (queueEntry x w b dests (lines s b) n sums)).joinBundle x (issueKey x) [] dests fl)
      | .wait =>
        if (x.slot % 2 == 1 && op != 0) = true then
          .next ((s.enqueue (issueKey x) (queueEntry x w b dests (lines s b) 0 [])).joinBundle x (issueKey x) [] dests 0)
        else .next s := by
  obtain ⟨e1, e2, e3⟩ := h.front hop uses
  have hb' : s.bank (bankKey x.tile x.core x.bank) = some b := h.bank
  have e1' : (s.fetchBundle (bankKey x.tile x.core x.bank) b).upset x = s := e1
  have c3 : ¬ (b.issued = 0 ∧ (s.progSize b.part < b.pc + 32 ∨ b.pc % 32 ≠ 0)) := by
    have := h.fetch.1; have := h.fetch.2.1; omega
  have c4 : (!slotFits op x.slot || !legal) = false := by rw [← hop]; simp [h.fits.1, hl]
  have c5 : (pred && !bit (b.pR (wPg w)) 0) = false := by
    cases pred with
    | false => rfl
    | true => simp [show bit (b.pR (wPg w)) 0 = true from hg rfl]
  have c6 : ∀ l, queueFree b.queue x.slot l = true := by intro l; rw [h.runs.2.2.2.1]; rfl
  unfold coreIssue
  simp only [hb', e1', e2, c4, c5, c6, e3, Bool.not_true, Bool.not_false, Bool.and_false, Bool.and_true, Bool.false_eq_true, if_false, if_neg c3]
  rfl

/-- A ready instruction whose guard is false does nothing. -/
theorem coreIssue_unguarded {s : State} {x : Issue} {w : Word} {b : Bank} {op : Nat} {legal : Bool} {uses : List CReg}
    {body : State → Nat → Bank → CRes} {dests : List CReg} {lines : State → Bank → List (Nat × Nat)} (h : Issues s x w b) (hop : wOp w = op)
    (hl : legal = true) (hg : ¬ Guarded b w) :
    coreIssue x w op true legal uses s body dests lines = .next (s.joinBundle x (issueKey x) [] [] 0) := by
  obtain ⟨e1, e2, -⟩ := h.front hop uses
  have hb' : s.bank (bankKey x.tile x.core x.bank) = some b := h.bank
  have e1' : (s.fetchBundle (bankKey x.tile x.core x.bank) b).upset x = s := e1
  have c3 : ¬ (b.issued = 0 ∧ (s.progSize b.part < b.pc + 32 ∨ b.pc % 32 ≠ 0)) := by
    have := h.fetch.1; have := h.fetch.2.1; omega
  have c4 : (!slotFits op x.slot || !legal) = false := by rw [← hop]; simp [h.fits.1, hl]
  have c5 : (true && !bit (b.pR (wPg w)) 0) = true := by
    have : bit (b.pR (wPg w)) 0 = false := by simpa [Guarded] using hg
    simp [this]
  unfold coreIssue
  simp only [hb', e1', e2, c4, c5, Bool.false_eq_true, if_false, if_true, if_neg c3]
  rfl

theorem Bank.reg_setReg (b : Bank) (r q : CReg) (v : Nat) :
    (b.setReg r v).reg q = if q = r ∧ r.real = true then v % 2 ^ r.width else b.reg q := by
  cases r with
  | s n =>
    by_cases hn : n = 0
    · subst hn; simp [Bank.setReg, CReg.real]
    · simp only [Bank.setReg, hn, if_false, CReg.width]
      cases q with
      | s m =>
        by_cases hm : m = n
        · subst hm; simp [Bank.reg, Bank.sR, hn, CReg.real]
        · simp [Bank.reg, Bank.sR, hm, NMap.get_put_ne _ _ _ _ hm]
      | _ => simp [Bank.reg, Bank.aR, Bank.vR, Bank.pR]
  | a n =>
    simp only [Bank.setReg, CReg.width]
    cases q with
    | a m =>
      by_cases hm : m = n
      · subst hm; simp [Bank.reg, Bank.aR, CReg.real]
      · simp [Bank.reg, Bank.aR, hm, NMap.get_put_ne _ _ _ _ hm]
    | _ => simp [Bank.reg, Bank.sR, Bank.vR, Bank.pR]
  | v n =>
    simp only [Bank.setReg, CReg.width]
    cases q with
    | v m =>
      by_cases hm : m = n
      · subst hm; simp [Bank.reg, Bank.vR, CReg.real]
      · simp [Bank.reg, Bank.vR, hm, NMap.get_put_ne _ _ _ _ hm]
    | _ => simp [Bank.reg, Bank.sR, Bank.aR, Bank.pR]
  | p n =>
    by_cases hn : n = 0
    · subst hn; simp [Bank.setReg, CReg.real]
    · simp only [Bank.setReg, hn, if_false, CReg.width]
      cases q with
      | p m =>
        by_cases hm : m = n
        · subst hm; simp [Bank.reg, Bank.pR, hn, CReg.real]
        · simp [Bank.reg, Bank.pR, hm, NMap.get_put_ne _ _ _ _ hm]
      | _ => simp [Bank.reg, Bank.sR, Bank.aR, Bank.vR]

theorem Bank.setReg_rest (b : Bank) (r : CReg) (v : Nat) :
    b.setReg r v = { b with s := (b.setReg r v).s, a := (b.setReg r v).a, v := (b.setReg r v).v, p := (b.setReg r v).p } := by
  cases r <;> simp only [Bank.setReg] <;> first | rfl | (split <;> rfl)

/-- Nothing holds the bank: settling it leaves the state. -/
theorem State.settle_free {s : State} {k : Nat} {b : Bank} (hb : s.bank k = some b) (hh : b.hold = .free) : s.settle k = s := by
  unfold State.settle
  simp only [hb, hh]
  split <;> rfl

/-- The bundle of a single instruction: what retiring it leaves. `b` is the bank as the instruction's body left it. -/
theorem State.joinBundle_alone {s : State} {x : Issue} {k : Nat} {b : Bank} (wr : Option (CReg × Nat)) (fl : Nat) (hk : s.bank k = some b)
    (hi : b.issued = 0) (hw : b.writes = []) (hd : b.dests = []) (hj : b.badJump = false) (hl : x.last = true) (hh : b.hold = .free) :
    ∃ b', (s.joinBundle x k wr.toList [] fl).bank k = some b' ∧
      (∀ q, b'.reg q = b.after (wr.map (fun e => (e.1, e.2 % 2 ^ e.1.width))) q) ∧ b'.flags = Nat.lor b.flags fl ∧
      b'.pc = (match b.branch with | some t => t | none => b.pc + 32) ∧
      b' = { b with s := b'.s, a := b'.a, v := b'.v, p := b'.p, flags := b'.flags, pc := b'.pc, branch := none, lastIssue := b'.lastIssue } ∧
      (∀ j, j ≠ k → (s.joinBundle x k wr.toList [] fl).bank j = s.bank j) ∧
      s.joinBundle x k wr.toList [] fl = { s with core := { s.core with banks := (s.joinBundle x k wr.toList [] fl).core.banks } } := by
  let b1 : Bank := { b with issued := Nat.lor b.issued (2 ^ x.slot), writes := b.writes ++ wr.toList, dests := b.dests ++ [], flags := Nat.lor b.flags fl }
  have hne : b1.issued ≠ 0 := by
    show Nat.lor b.issued (2 ^ x.slot) ≠ 0
    rw [hi, show Nat.lor 0 (2 ^ x.slot) = 2 ^ x.slot from Nat.zero_or _]
    exact Nat.ne_of_gt (Nat.two_pow_pos _)
  have hhold : (b1.commit s.time.cnt).hold = .free := by
    unfold Bank.commit
    rw [if_neg hne]
    show (each b1.writes b1 _).hold = _
    cases wr with
    | none => simp [b1, hw, each, hh]
    | some e => simp only [b1, hw, each, Option.toList, List.nil_append, List.foldl]; rw [Bank.setReg_rest]; exact hh
  have hjb : s.joinBundle x k wr.toList [] fl = (s.setBank k b1).setBank k (b1.commit s.time.cnt) := by
    have hs := State.settle_free (s := (s.setBank k b1).setBank k (b1.commit s.time.cnt)) (k := k) (State.bank_setBank _ _ _) hhold
    unfold State.joinBundle
    simp only [hk]
    rw [if_neg (by simp [hw, hd]), if_pos hl]
    unfold State.endBundle
    rw [State.bank_setBank]
    show (if b.badJump = true then _ else ((s.setBank k b1).setBank k (Bank.commit s.time.cnt b1)).settle k) = _
    rw [if_neg (by rw [hj]; exact Bool.false_ne_true), hs]
  rw [hjb]
  refine ⟨b1.commit s.time.cnt, State.bank_setBank _ _ _, ?_, ?_, ?_, ?_, ?_, rfl⟩
  · intro q
    unfold Bank.commit
    rw [if_neg hne]
    cases wr with
    | none => cases q <;> simp [b1, hw, each, Bank.reg, Bank.after, Bank.sR, Bank.aR, Bank.vR, Bank.pR]
    | some e =>
      simp only [b1, hw, each, Option.toList, List.nil_append, List.foldl, Option.map, Bank.after]
      have hx := Bank.reg_setReg b1 e.1 q e.2
      simp only [b1, hw, List.nil_append, Option.toList] at hx
      have hb1 : b1.reg q = b.reg q := by cases q <;> rfl
      cases q <;> exact hx
  · unfold Bank.commit
    rw [if_neg hne]
    cases wr with
    | none => simp [b1, hw, each]
    | some e => simp only [b1, hw, each, Option.toList, List.nil_append, List.foldl]; rw [Bank.setReg_rest]
  · unfold Bank.commit
    rw [if_neg hne]
    all_goals rfl
  · unfold Bank.commit
    rw [if_neg hne]
    cases wr with
    | none => simp [b1, hw, each, hi, hj, hd]
    | some e =>
      simp only [b1, hw, each, Option.toList, List.nil_append, List.foldl]
      rw [Bank.setReg_rest]
      simp [hi, hj, hd]
  · intro j hjk
    rw [State.bank_setBank_ne _ _ hjk, State.bank_setBank_ne _ _ hjk]

/-- An instruction whose body leaves the state and writes at most one register completes, and retires. -/
theorem retires_of_ok {s : State} {x : Issue} {w : Word} {b : Bank} (h : Issues s x w b) (wr : Option (CReg × Nat)) (fl : Nat)
    (hv : ∀ e, wr = some e → e.2 < 2 ^ e.1.width) :
    Retires s (s.joinBundle x (issueKey x) wr.toList [] fl) x b wr fl (b.pc + 32) := by
  obtain ⟨b', h1, h2, h3, h4, h5, h6, h7⟩ := State.joinBundle_alone wr fl h.bank h.alone.1 h.alone.2.1 h.alone.2.2.1 h.alone.2.2.2.2.1
    h.alone.2.2.2.2.2 h.runs.2.2.1
  have hw : wr.map (fun e => (e.1, e.2 % 2 ^ e.1.width)) = wr := by
    cases wr with
    | none => rfl
    | some e => simp [Nat.mod_eq_of_lt (hv e rfl)]
  rw [hw] at h2
  rw [h.alone.2.2.2.1] at h4
  refine ⟨⟨b', h1, h2, h3, h4, ?_⟩, h6, h7⟩
  have hbr := h.alone.2.2.2.1
  rw [h5]
  simp [hbr]

/-- The bundle of a single EXIT of a Stroke that waits for nothing ends the Stroke. -/
theorem State.joinBundle_exit {s : State} {x : Issue} {k : Nat} {b : Bank} (hk : s.bank k = some b) (hi : b.issued = 0) (hw : b.writes = [])
    (hd : b.dests = []) (hbr : b.branch = none) (hj : b.badJump = false) (hl : x.last = true) (hh : b.hold = .exit) (hq : b.queue = [])
    (hv : b.live = true) (hs : b.slot.isNone = false) (ho : s.issueOpen (keyTile k) b.slot = true) (hm : b.dmas = [])
    (hf : s.fab.out.all (fun o => decide (o.bank ≠ some k)) = true) :
    ∃ (t : State) (b' : Bank), s.joinBundle x k [] [] 0 = t.exitBank k ∧ t.bank k = some b' ∧ b'.grants = b.grants ∧ b'.d = b.d ∧ b'.slot = b.slot ∧
      (∀ j, j ≠ k → t.bank j = s.bank j) ∧ t = { s with core := { s.core with banks := t.core.banks } } := by
  let b1 : Bank := { b with issued := Nat.lor b.issued (2 ^ x.slot), writes := b.writes ++ [], dests := b.dests ++ [], flags := Nat.lor b.flags 0 }
  have hne : b1.issued ≠ 0 := by
    show Nat.lor b.issued (2 ^ x.slot) ≠ 0
    rw [hi, show Nat.lor 0 (2 ^ x.slot) = 2 ^ x.slot from Nat.zero_or _]
    exact Nat.ne_of_gt (Nat.two_pow_pos _)
  have e0 : s.joinBundle x k [] [] 0 = ((s.setBank k b1).setBank k (b1.commit s.time.cnt)).settle k := by
    unfold State.joinBundle
    simp only [hk, List.map_nil, List.append_nil, List.any_nil, Bool.false_eq_true, if_false, hl, if_true]
    unfold State.endBundle
    rw [State.bank_setBank]
    show (if b.badJump = true then _ else _) = _
    rw [if_neg (by rw [hj]; exact Bool.false_ne_true)]
    simp [b1, hw, hd]
  have eb : b1.commit s.time.cnt =
      { b1 with writes := [], dests := [], issued := 0, branch := none, badJump := false, lastIssue := s.time.cnt + 1, pc := b.pc + 32 } := by
    unfold Bank.commit
    rw [if_neg hne]
    simp [b1, hw, hbr, each]
  have c1 : (b1.commit s.time.cnt).live = true := by rw [eb]; exact hv
  have c2 : (b1.commit s.time.cnt).slot.isNone = false := by rw [eb]; exact hs
  have c3 : (b1.commit s.time.cnt).hold = .exit := by rw [eb]; exact hh
  have c4 : (b1.commit s.time.cnt).queue = [] := by rw [eb]; exact hq
  have c5 : (b1.commit s.time.cnt).issued = 0 := by rw [eb]
  have c6 : (b1.commit s.time.cnt).dmas = [] := by rw [eb]; exact hm
  have c7 : (b1.commit s.time.cnt).grants = b.grants := by rw [eb]
  have c8 : (b1.commit s.time.cnt).d = b.d := by rw [eb]
  have c9 : (b1.commit s.time.cnt).slot = b.slot := by rw [eb]
  rw [e0]
  generalize b1.commit s.time.cnt = b2 at *
  refine ⟨(s.setBank k b1).setBank k b2, b2, ?_, State.bank_setBank _ _ _, c7, c8, c9, ?_, rfl⟩
  · have e3 : ((s.setBank k b1).setBank k b2).releaseOk k = true := by
      unfold State.releaseOk
      rw [State.bank_setBank]
      simp only [c6, List.isEmpty_nil, Bool.true_and]
      exact hf
    have e4 : ((s.setBank k b1).setBank k b2).issueOpen (keyTile k) b2.slot = true := by rw [c9]; exact ho
    unfold State.settle
    rw [State.bank_setBank]
    simp only [c1, c2, c3, c4, c5, e3, e4, Bool.not_true, Bool.or_self, Bool.false_eq_true, if_false, List.isEmpty_nil, Bool.and_self, and_self, if_true]
  · intro j hjk
    rw [State.bank_setBank_ne _ _ hjk, State.bank_setBank_ne _ _ hjk]

/-- Metering changes registers alone; the meter of an active partition that is not metered by time counts on (R466). -/
theorem State.meter_rest (s : State) (p k n : Nat) : s.meter p k n = { s with regs := (s.meter p k n).regs } := by
  unfold State.meter
  by_cases h : p < 64 ∧ s.partState p ≠ 0 ∧ s.on (Reg.PART_CFG.meter_time p) = false
  · rw [if_pos h]; exact State.incw_rest s _ n
  · rw [if_neg h]

theorem State.rd_meter (s : State) (p k n : Nat) :
    (s.meter p k n).rd (Reg.PART_METER.count p k) =
      if p < 64 ∧ s.partState p ≠ 0 ∧ s.on (Reg.PART_CFG.meter_time p) = false then (s.rd (Reg.PART_METER.count p k) + n) % 2 ^ 64
      else s.rd (Reg.PART_METER.count p k) := by
  unfold State.meter
  by_cases h : p < 64 ∧ s.partState p ≠ 0 ∧ s.on (Reg.PART_CFG.meter_time p) = false
  · rw [if_pos h, if_pos h]
    exact State.rd_incw s (Reg.PART_METER.count p k) n (Nat.le_refl 64)
  · rw [if_neg h, if_neg h]

end Sys2Proof.Machine
end

