-- ==== Sys2Proof/Laws/Fault.lean ====
section
/-! SUPPORT. What raising a fault record can change: `State.fault_raised` says it once, and the commands that record a fault cite it. -/

namespace Sys2Proof.Machine

/-- What the fault unit may change while it writes records: its own registers (the class counters but the host's class 5 stay), the count
of dropped host writes, its rings, host memory, and the board's fault counts. -/
structure Records (s t : State) : Prop where
  counts : ∀ c, c < 16 → c ≠ 5 → t.reg (Reg.FLT_CLASS_CNT.count c).off = s.reg (Reg.FLT_CLASS_CNT.count c).off
  regs : ∀ o, (o < 0x500010 ∨ 0x500180 ≤ o) → o ≠ Reg.HQ_LINK.up.off → t.reg o = s.reg o
  link : t.rd Reg.HQ_LINK.up = s.rd Reg.HQ_LINK.up
  rest : t = { s with regs := t.regs, host := t.host, flt := t.flt, mgt := { s.mgt with cnt8 := t.mgt.cnt8, cnt9 := t.mgt.cnt9 } }

theorem Records.refl (s : State) : Records s s := ⟨fun _ _ _ => rfl, fun _ _ _ => rfl, rfl, rfl⟩

theorem Records.trans {s t u : State} (h : Records s t) (k : Records t u) : Records s u :=
  ⟨fun c a b => (k.counts c a b).trans (h.counts c a b), fun o a b => (k.regs o a b).trans (h.regs o a b), k.link.trans h.link, by
    rw [k.rest, h.rest]⟩

theorem Records.ite {s t u : State} {c : Prop} [Decidable c] (h : Records s t) (k : Records s u) : Records s (if c then t else u) := by
  split
  · exact h
  · exact k

/-- A change of the fault unit's own state and of host memory. -/
theorem Records.of {s t : State} (h : t = { s with host := t.host, flt := t.flt }) : Records s t := by
  have hr : t.regs = s.regs := by rw [h]
  refine ⟨fun c _ _ => State.reg_congr hr _, fun o _ _ => State.reg_congr hr o, State.rd_congr hr _, ?_⟩
  rw [h]

/-- A write to a register of the fault unit that is no class counter. -/
theorem Records.wr {s t : State} (h : Records s t) (f : Fld) (x : Nat) (a : 0x500010 ≤ f.off) (b : f.off < 0x500180)
    (c : ∀ i, i < 16 → i ≠ 5 → f.off ≠ 0x500100 + 8 * i) : Records s (t.wr f x) := by
  refine h.trans ⟨fun i hi hn => State.reg_wr_ne _ _ _ fun e => c i hi hn e.symm, fun o ho _ => State.reg_wr_ne _ _ _ (by omega), ?_, rfl⟩
  refine State.rd_wr_ne _ _ _ _ ?_
  simp only [Reg.HQ_LINK.up]
  omega

theorem Records.inc {s t : State} (h : Records s t) (f : Fld) (n : Nat) (a : 0x500010 ≤ f.off) (b : f.off < 0x500180)
    (c : ∀ i, i < 16 → i ≠ 5 → f.off ≠ 0x500100 + 8 * i) : Records s (t.inc f n) := h.wr f _ a b c

theorem Records.hostWr {s t : State} (h : Records s t) (p a n v : Nat) : Records s (t.hostWr p a n v) := by
  unfold State.hostWr
  refine Records.ite (h.trans (Records.of rfl)) (h.trans ⟨fun c hc _ => State.reg_wr_ne _ _ _ ?_, fun o _ ho => State.reg_wr_ne _ _ _ ho, ?_, ?_⟩)
  · simp only [Reg.FLT_CLASS_CNT.count, Reg.HQ_LINK.dropped_writes]
    omega
  · exact State.rd_wr_apart _ _ _ _ (by decide) rfl (by decide)
  · rw [State.inc_rest]

theorem Records.ringPut {s t : State} (h : Records s t) (k w : Nat) : Records s (t.ringPut k w).1 := by
  have st : ∀ (u : State) (p : Nat), Records s u → Records s (u.ringStore k p w) := fun u p hu =>
    (((hu.hostWr _ _ _ _).hostWr _ _ _ _).trans (Records.of rfl))
  have fe : ∀ (u : State) (p : Nat), Records s u → Records s (u.ringFetch k p).1 := by
    intro u p hu
    unfold State.ringFetch
    simp only
    by_cases c : (u.ring k).fetched = u.tickNum + 1
    · rw [if_pos c]; exact hu
    · rw [if_neg c]
      split
      · exact hu.trans (Records.of rfl)
      · exact hu.trans (Records.of rfl)
  unfold State.ringPut
  split
  · exact h
  · rename_i p hp
    split
    · exact st _ _ h
    · simp only
      split
      · exact st _ _ (fe _ _ h)
      · refine Records.inc ((fe _ _ h).trans (Records.of rfl)) _ _ ?_ ?_ ?_ <;> split <;> simp only [Reg.FLT_STAT.dropped, Reg.FLT_STAT.part_dropped] <;> omega

theorem Records.putManager {s t : State} (h : Records s t) (w : Nat) : Records s (t.putManager w).1 := by
  unfold State.putManager
  split
  · exact h.ringPut _ _
  · split
    · refine Records.wr (h.trans (Records.of rfl)) _ _ (by decide) (by decide) ?_
      simp only [Reg.FLT_STAT.held]; omega
    · refine Records.inc h _ _ (by decide) (by decide) ?_
      simp only [Reg.FLT_STAT.held_lost]; omega

/-- The class counter of a record's own class and the board's counts. -/
theorem State.countClass_rest (s : State) (r : FRec) :
    s.countClass r = { s with regs := (s.countClass r).regs, mgt := { s.mgt with cnt8 := (s.countClass r).mgt.cnt8, cnt9 := (s.countClass r).mgt.cnt9 } } := by
  unfold State.countClass
  by_cases a : r.code / 4096 = 8
  · simp only [if_pos a]; rw [State.inc_rest]
  · by_cases b : r.code / 4096 = 9
    · simp only [if_neg a, if_pos b]; rw [State.inc_rest]
    · simp only [if_neg a, if_neg b]; rw [State.inc_rest]

theorem State.countClass_regs (s : State) (r : FRec) : (s.countClass r).regs = (s.inc (Reg.FLT_CLASS_CNT.count (r.code / 4096)) r.count).regs := by
  unfold State.countClass
  by_cases a : r.code / 4096 = 8
  · simp only [if_pos a]
  · by_cases b : r.code / 4096 = 9
    · simp only [if_neg a, if_pos b]
    · simp only [if_neg a, if_neg b]

theorem Records.countClass {s t : State} (h : Records s t) (r : FRec) (hr : r.code / 4096 = 5) : Records s (t.countClass r) := by
  have e := State.countClass_regs t r
  rw [hr] at e
  refine h.trans ⟨fun c hc hn => ?_, fun o ho hl => ?_, ?_, ?_⟩
  · rw [State.reg_congr e]; refine State.reg_wr_ne _ _ _ ?_
    simp only [Reg.FLT_CLASS_CNT.count]
    omega
  · rw [State.reg_congr e]; refine State.reg_wr_ne _ _ _ ?_
    simp only [Reg.FLT_CLASS_CNT.count]
    omega
  · rw [State.rd_congr e]; refine State.rd_wr_ne _ _ _ _ ?_
    simp only [Reg.FLT_CLASS_CNT.count, Reg.HQ_LINK.up]
    omega
  · exact (State.countClass_rest t r).trans (by rw [State.countClass_rest])

theorem Records.faultGo {s t : State} (h : Records s t) (n : Nat) (r : FRec) : Records s (t.faultGo n r) := by
  induction n generalizing t r with
  | zero => exact h
  | succ n ih =>
    unfold State.faultGo
    simp only
    have step : ∀ (u : State) (b : Bool) (e : FRec), e.code / 4096 = 5 → Records s u → Records s (if b = true then State.faultGo n (u.countClass e) e else u) := by
      intro u b e he hu
      split
      · exact ih (hu.countClass e he) e
      · exact hu
    have m := step (t.putManager (({ r with part := t.faultPart r.part } : FRec).word t.tickNum)).1
      (t.putManager (({ r with part := t.faultPart r.part } : FRec).word t.tickNum)).2
      { code := 0x5012, part := 0x40, arg1 := ((t.putManager (({ r with part := t.faultPart r.part } : FRec).word t.tickNum)).1.ringInfo 64).1 + 8 }
      (by simp) (h.putManager _)
    split
    · exact step _ _ { code := 0x5012, part := t.faultPart r.part, arg1 := _ } (by simp) (m.ringPut _ _)
    · exact m

/-- What raising a fault record does: its class counter advances, and nothing outside the fault unit's reach changes. -/
theorem State.fault_raised (s : State) (r : FRec) (h16 : r.code < 65536) : Raised s (s.fault r) r := by
  have e := State.countClass_regs s r
  have g : Records (s.countClass r) (s.fault r) := (Records.refl _).faultGo 4 r
  refine ⟨fun h5 hc => ?_, fun o ho hl => ?_, ?_, ?_⟩
  · have e1 : (s.fault r).rd (Reg.FLT_CLASS_CNT.count (r.code / 4096)) = (s.countClass r).rd (Reg.FLT_CLASS_CNT.count (r.code / 4096)) := by
      unfold State.rd; rw [g.counts _ hc h5]
    rw [e1, State.rd_congr e, State.rd_inc _ _ _ (by simp [Reg.FLT_CLASS_CNT.count])]; rfl
  · rw [g.regs o ho hl, State.reg_congr e]; refine State.reg_wr_ne _ _ _ ?_
    simp only [Reg.FLT_CLASS_CNT.count]
    omega
  · rw [g.link, State.rd_congr e]; refine State.rd_wr_ne _ _ _ _ ?_
    simp only [Reg.FLT_CLASS_CNT.count, Reg.HQ_LINK.up]
    omega
  · rw [g.rest, State.countClass_rest]

/-- A control-window access that is discarded and recorded (R10). -/
theorem State.badAccess_raised (s : State) (off : Nat) : Raised s (s.badAccess off)
    { code := 0x2001, part := 0x40, arg1 := off,
            die := if 0x2000000 ≤ off ∧ off < 0xA000000 then (off - 0x2000000) / 0x1000000 else 8,
            unit := if 0x2000000 ≤ off ∧ off < 0xA000000 then (off - 0x2000000) / 0x1000000 else 8 } := State.fault_raised s _ (by simp)

end Sys2Proof.Machine
end

