-- ==== Sys2Proof/Laws/KeepsBase.lean ====
section
/-! SUPPORT. How Keeps is put together: it is reflexive and transitive, and folds, branches and record updates have it. -/

namespace Sys2Proof.Machine

theorem Keeps.refl (s : State) : Keeps s s := ⟨id, rfl, Nat.le_refl _⟩

theorem Keeps.trans {s t u : State} (h : Keeps s t) (k : Keeps t u) : Keeps s u :=
  ⟨fun c => k.1 (h.1 c), k.2.1.trans h.2.1, Nat.le_trans h.2.2 k.2.2⟩

theorem Keeps.ite {s t u : State} {c : Prop} [Decidable c] (h : Keeps s t) (k : Keeps s u) : Keeps s (if c then t else u) := by
  split
  · exact h
  · exact k

/-! A local value `x` is dealt with once (`via`): what it is shown to keep stands in its place from there on. -/

theorem Keeps.via {s x v : State} {P : Prop} (h : x = v) (k : Keeps s v) (g : Keeps s x → P) : P := g (h ▸ k)

theorem Keeps.viaP {α : Type} {s : State} {x v : State × α} {P : Prop} (h : x = v) (k : Keeps s v.1) (g : Keeps s x.1 → P) : P := g (h ▸ k)

theorem Keeps.ofMk {α : Type} {s t : State} {n : α} {v : State × α} (h : v = (t, n)) (k : Keeps s v.1) : Keeps s t := by
  rw [h] at k; exact k

theorem Keeps.viaFun {s : State} {x v : State → State} {P : Prop} (h : x = v)
    (k : ∀ t, Keeps s t → Keeps s (v t)) (g : (∀ t, Keeps s t → Keeps s (x t)) → P) : P := g (h ▸ k)

theorem Keeps.viaFunA {α : Type} {s : State} {x v : α → State → State} {P : Prop} (h : x = v)
    (k : ∀ a t, Keeps s t → Keeps s (v a t)) (g : (∀ a t, Keeps s t → Keeps s (x a t)) → P) : P := g (h ▸ k)

theorem Keeps.viaFunB {α : Type} {s : State} {x v : State → α → State} {P : Prop} (h : x = v)
    (k : ∀ t a, Keeps s t → Keeps s (v t a)) (g : (∀ t a, Keeps s t → Keeps s (x t a)) → P) : P := g (h ▸ k)

theorem Keeps.viaFunE {α β : Type} {s : State} {x v : State → α → β → State} {P : Prop} (h : x = v)
    (k : ∀ t a b, Keeps s t → Keeps s (v t a b)) (g : (∀ t a b, Keeps s t → Keeps s (x t a b)) → P) : P := g (h ▸ k)

theorem Keeps.viaFunD {α β γ : Type} {s : State} {x v : State → α → β → γ → State} {P : Prop} (h : x = v)
    (k : ∀ t a b c, Keeps s t → Keeps s (v t a b c)) (g : (∀ t a b c, Keeps s t → Keeps s (x t a b c)) → P) : P := g (h ▸ k)

theorem Keeps.viaFunC {α : Type} {s : State} {x v : α → State} {P : Prop} (h : x = v)
    (k : ∀ a, Keeps s (v a)) (g : (∀ a, Keeps s (x a)) → P) : P := g (h ▸ k)

theorem Keeps.each {α : Type} {s0 s : State} {l : List α} {f : α → State → State} (hf : ∀ x t, Keeps s0 t → Keeps s0 (f x t))
    (h : Keeps s0 s) : Keeps s0 (Machine.each l s f) := by
  unfold Machine.each
  induction l generalizing s with
  | nil => exact h
  | cons x r ih => exact ih (hf x s h)

theorem Keeps.eachMem {α : Type} {s0 s : State} {l : List α} {f : α → State → State} (hf : ∀ x ∈ l, ∀ t, Keeps s0 t → Keeps s0 (f x t))
    (h : Keeps s0 s) : Keeps s0 (Machine.each l s f) := by
  unfold Machine.each
  induction l generalizing s with
  | nil => exact h
  | cons x r ih => exact ih (fun y hy => hf y (List.mem_cons_of_mem _ hy)) (hf x List.mem_cons_self s h)

theorem Keeps.foldl {α : Type} {s0 s : State} {l : List α} {f : State → α → State} (hf : ∀ t x, Keeps s0 t → Keeps s0 (f t x))
    (h : Keeps s0 s) : Keeps s0 (l.foldl f s) := by
  induction l generalizing s with
  | nil => exact h
  | cons x r ih => exact ih (hf s x h)

theorem Keeps.upto {s0 s : State} {n : Nat} {f : Nat → State → State} (hf : ∀ x t, Keeps s0 t → Keeps s0 (f x t))
    (h : Keeps s0 s) : Keeps s0 (Machine.upto n s f) := Keeps.foldl (fun t x => hf x t) h

theorem Keeps.eachP {α β : Type} {s0 : State} {p : State × β} {l : List α} {f : α → State × β → State × β}
    (hf : ∀ x t, Keeps s0 t.1 → Keeps s0 (f x t).1) (h : Keeps s0 p.1) : Keeps s0 (Machine.each l p f).1 := by
  unfold Machine.each
  induction l generalizing p with
  | nil => exact h
  | cons x r ih => exact ih (hf x p h)

theorem Keeps.foldlP {α β : Type} {s0 : State} {p : State × β} {l : List α} {f : State × β → α → State × β}
    (hf : ∀ t x, Keeps s0 t.1 → Keeps s0 (f t x).1) (h : Keeps s0 p.1) : Keeps s0 (l.foldl f p).1 := by
  induction l generalizing p with
  | nil => exact h
  | cons x r ih => exact ih (hf p x h)

theorem Keeps.uptoP {β : Type} {s0 : State} {p : State × β} {n : Nat} {f : Nat → State × β → State × β}
    (hf : ∀ x t, Keeps s0 t.1 → Keeps s0 (f x t).1) (h : Keeps s0 p.1) : Keeps s0 (Machine.upto n p f).1 :=
  Keeps.foldlP (fun t x => hf x t) h

/-- A record update that leaves the register file, the queue, and the canonical form of each memory it touches. -/
theorem Keeps.upd {s0 x : State} (h : Keeps s0 x) {bus : Bus} {host : Mem} {hostEp : List (Nat × Nat)} {free : Nat} {flt : FltSt} {tick : TickSt} {time : TimeSt}
    {pulses : NMap Pulse} {bars : NMap Bar} {core : CoreSt} {mem : MemSt} {sem : SemSt} {mesh : MeshSt} {part : PartSt} {hq : HqSt}
    {fab : FabSt} {srv : SrvSt} {eth : EthSt} {rad : RadSt} {col : ColSt} {mgt : MgtSt} {pins : PinSt}
    (hf : x.free ≤ free) (hh : Mem.wf x.host = true → Mem.wf host = true) (hm : Mem.wf x.mem.bytes = true → Mem.wf mem.bytes = true)
    (hc : x.core.memOk = true → core.memOk = true) (hr : x.rad.memOk = true → rad.memOk = true)
    (hs : Mem.wf x.mgt.staging = true → Mem.wf mgt.staging = true) :
    Keeps s0 (State.mk x.pending x.regs x.shadow x.prev bus host hostEp free flt tick time pulses bars core mem sem mesh part hq fab srv eth rad
      col mgt pins) := by
  refine Keeps.trans h ⟨fun c => ⟨c.1, ?_⟩, rfl, hf⟩
  have c2 := c.2
  simp only [State.memOk, Bool.and_eq_true] at c2 ⊢
  exact ⟨⟨⟨⟨hh c2.1.1.1.1, hm c2.1.1.1.2⟩, hc c2.1.1.2⟩, hr c2.1.2⟩, hs c2.2⟩

theorem memEq {x v : Mem} (h : x = v) : x = v := h

theorem memPairEq {x v : Mem × Nat} (h : x = v) : x = v := h

/-- An update of the cores' memories. -/
theorem Keeps.coreUpd {s0 x : State} (h : Keeps s0 x) {core : CoreSt} (hc : x.core.memOk = true → core.memOk = true) :
    Keeps s0 (State.mk x.pending x.regs x.shadow x.prev x.bus x.host x.hostEp x.free x.flt x.tick x.time x.pulses x.bars core x.mem x.sem x.mesh
      x.part x.hq x.fab x.srv x.eth x.rad x.col x.mgt x.pins) := Keeps.upd h (Nat.le_refl _) id id hc id id

/-- The memories of a core, one by one. -/
theorem CoreSt.memOk_of {c d : CoreSt} (h1 : Mem.wf c.store = true → Mem.wf d.store = true) (h2 : Mem.wf c.wbuf = true → Mem.wf d.wbuf = true)
    (h3 : Mem.wf c.acc = true → Mem.wf d.acc = true) (h4 : Mem.wf c.vbuf = true → Mem.wf d.vbuf = true) : c.memOk = true → d.memOk = true := by
  intro w
  simp only [CoreSt.memOk, Bool.and_eq_true] at w ⊢
  exact ⟨⟨⟨h1 w.1.1.1, h2 w.1.1.2⟩, h3 w.1.2⟩, h4 w.2⟩

/-- The memories of the Scribes, one by one. -/
theorem RadSt.memOk_of {c d : RadSt} (h1 : Mem.wf c.xy = true → Mem.wf d.xy = true) (h2 : Mem.wf c.prog = true → Mem.wf d.prog = true) :
    c.memOk = true → d.memOk = true := by
  intro w
  simp only [RadSt.memOk, Bool.and_eq_true] at w ⊢
  exact ⟨h1 w.1, h2 w.2⟩

/-- A record update that leaves every memory. -/
theorem Keeps.same {s0 x : State} (h : Keeps s0 x) {bus : Bus} {hostEp : List (Nat × Nat)} {flt : FltSt} {tick : TickSt} {time : TimeSt}
    {pulses : NMap Pulse} {bars : NMap Bar} {core : CoreSt} {mem : MemSt} {sem : SemSt} {mesh : MeshSt} {part : PartSt} {hq : HqSt}
    {fab : FabSt} {srv : SrvSt} {eth : EthSt} {rad : RadSt} {col : ColSt} {mgt : MgtSt} {pins : PinSt}
    (hm : mem.bytes = x.mem.bytes) (h1 : core.store = x.core.store) (h2 : core.wbuf = x.core.wbuf) (h3 : core.acc = x.core.acc)
    (h4 : core.vbuf = x.core.vbuf) (h5 : rad.xy = x.rad.xy) (h6 : rad.prog = x.rad.prog) (hs : mgt.staging = x.mgt.staging) :
    Keeps s0 (State.mk x.pending x.regs x.shadow x.prev bus x.host hostEp x.free flt tick time pulses bars core mem sem mesh part hq fab srv eth
      rad col mgt pins) :=
  Keeps.upd h (Nat.le_refl _) id (fun a => hm ▸ a) (CoreSt.memOk_of (fun a => h1 ▸ a) (fun a => h2 ▸ a) (fun a => h3 ▸ a) (fun a => h4 ▸ a))
    (RadSt.memOk_of (fun a => h5 ▸ a) (fun a => h6 ▸ a)) (fun a => hs ▸ a)

/-- A command's outcome keeps what Keeps says. -/
def OutKeeps (s : State) (o : Host.Outcome State Fault Refusal) : Prop := ∀ t, o = .next t → Keeps s t

theorem OutKeeps.next {s t : State} (h : Keeps s t) : OutKeeps s (.next t) := fun u e => by cases e; exact h

/-- A result that may be missing keeps what Keeps says. -/
def OptKeeps (s : State) (o : Option State) : Prop := ∀ t, o = some t → Keeps s t

theorem OptKeeps.some {s t : State} (h : Keeps s t) : OptKeeps s (some t) := fun u e => by cases e; exact h

theorem OptKeeps.none {s : State} : OptKeeps s none := fun u e => by cases e

theorem OptKeeps.ite {s : State} {t u : Option State} {c : Prop} [Decidable c] (h : OptKeeps s t) (k : OptKeeps s u) :
    OptKeeps s (if c then t else u) := by
  split
  · exact h
  · exact k

theorem OptKeeps.findSome {α : Type} {s : State} {l : List α} {f : α → Option State} (h : ∀ a, OptKeeps s (f a)) :
    OptKeeps s (l.findSome? f) := by
  induction l with
  | nil => exact OptKeeps.none
  | cons x r ih =>
    intro t e
    rw [List.findSome?_cons] at e
    cases hx : f x with
    | none => rw [hx] at e; exact ih t e
    | some u => rw [hx] at e; cases e; exact h x _ hx

theorem OptKeeps.map {s : State} {o : Option State} {f : State → State} (h : ∀ t, Keeps s t → Keeps s (f t)) (k : OptKeeps s o) :
    OptKeeps s (o.map f) := by
  cases o with
  | none => exact OptKeeps.none
  | some t => exact OptKeeps.some (h t (k t rfl))

theorem OptKeeps.foldl {α : Type} {s : State} {l : List α} {o : Option State} {f : Option State → α → Option State}
    (h : ∀ a x, OptKeeps s a → OptKeeps s (f a x)) (k : OptKeeps s o) : OptKeeps s (l.foldl f o) := by
  induction l generalizing o with
  | nil => exact k
  | cons x r ih => exact ih (h o x k)

theorem OptKeeps.get {s t : State} {o : Option State} (e : o = Option.some t) (h : OptKeeps s o) : Keeps s t := h t e

theorem OptKeeps.via {s : State} {x v : Option State} {P : Prop} (h : x = v) (k : OptKeeps s v) (g : OptKeeps s x → P) : P := g (h ▸ k)

theorem OutKeeps.ite {s : State} {t u : Host.Outcome State Fault Refusal} {c : Prop} [Decidable c] (h : OutKeeps s t) (k : OutKeeps s u) :
    OutKeeps s (if c then t else u) := by
  split
  · exact h
  · exact k

end Sys2Proof.Machine
end

