-- ==== Sys2Proof/Laws/KeepsOps.lean ====
section
/-! SUPPORT. Every operation of Machine/Ops.lean keeps what Keeps (Safety.lean) says. -/

namespace Sys2Proof.Machine

theorem State.setReg_keeps {s0 s : State} (off : Nat) (v : Word) (h : Keeps s0 s) : Keeps s0 (s.setReg off v) :=
  Keeps.trans h ⟨fun c => ⟨by
    have := c.1
    simp only [State.regsOk, State.setReg, Bool.and_eq_true] at this ⊢
    exact ⟨⟨NMap.wf_put _ _ this.1.1, this.1.2⟩, this.2⟩, c.2⟩, rfl, Nat.le_refl _⟩

theorem State.setShadow_keeps {s0 s : State} (off : Nat) (v : Word) (h : Keeps s0 s) : Keeps s0 (s.setShadow off v) :=
  Keeps.trans h ⟨fun c => ⟨by
    have := c.1
    simp only [State.regsOk, State.setShadow, Bool.and_eq_true] at this ⊢
    exact ⟨⟨this.1.1, NMap.wf_put _ _ this.1.2⟩, this.2⟩, c.2⟩, rfl, Nat.le_refl _⟩

theorem State.wr_keeps {s0 : State} (s : State) (f : Fld) (x : Nat) (hS : Keeps s0 s) : Keeps s0 (State.wr s f x) := by
  unfold State.wr
  with_reducible repeat' (first
    | assumption | apply State.setReg_keeps)

theorem State.inc_keeps {s0 : State} (s : State) (f : Fld) (n : Nat) (hS : Keeps s0 s) : Keeps s0 (State.inc s f n) := by
  unfold State.inc
  with_reducible repeat' (first
    | assumption | apply State.wr_keeps)

theorem State.incw_keeps {s0 : State} (s : State) (f : Fld) (n : Nat) (hS : Keeps s0 s) : Keeps s0 (State.incw s f n) := by
  unfold State.incw
  with_reducible repeat' (first
    | assumption | apply State.wr_keeps)

theorem State.took_keeps {s0 s : State} (n : Nat) (h : Keeps s0 s) : Keeps s0 (s.took n) :=
  Keeps.upd h (Nat.le_add_right _ _) id id id id id

theorem State.modMgt_keeps {s0 : State} (s : State) (f : MgtSt → MgtSt) (hf : (f s.mgt).staging = s.mgt.staging) (h : Keeps s0 s) :
    Keeps s0 (s.modMgt f) := Keeps.same h rfl rfl rfl rfl rfl rfl rfl hf

/-- An update of Wioliz's state that keeps the canonical form of the staging slot. -/
theorem State.modMgt_staging {s0 : State} (s : State) (f : MgtSt → MgtSt) (hf : Mem.wf s.mgt.staging = true → Mem.wf (f s.mgt).staging = true)
    (h : Keeps s0 s) : Keeps s0 (s.modMgt f) := Keeps.upd h (Nat.le_refl _) id id id id hf

theorem State.advance_keeps {s0 : State} (s : State) (c : Nat) (hS : Keeps s0 s) : Keeps s0 (State.advance s c) := by
  unfold State.advance
  with_reducible repeat' (first
    | assumption | (extract_lets +onlyGivenNames x; clear_value (hx : x = _); ((have hy : @Eq TimeSt x _ := hx); clear hx; subst hy))
    | (refine Keeps.same ?_ rfl rfl rfl rfl rfl rfl rfl rfl))

theorem State.advanceNs_keeps {s0 : State} (s : State) (ns : Nat) (hS : Keeps s0 s) : Keeps s0 (State.advanceNs s ns) := by
  unfold State.advanceNs
  with_reducible repeat' (first
    | assumption | apply State.advance_keeps)

theorem State.hostWr_keeps {s0 s : State} (pasid iova n v : Nat) (h : Keeps s0 s) : Keeps s0 (s.hostWr pasid iova n v) := by
  unfold State.hostWr
  split
  · exact Keeps.upd h (Nat.le_refl _) (Mem.wf_wrN _ _ _) id id id id
  · exact State.inc_keeps _ _ _ h

theorem State.hostMark_keeps {s0 : State} (s : State) (pasid iova n : Nat) (hS : Keeps s0 s) : Keeps s0 (State.hostMark s pasid iova n) := by
  unfold State.hostMark
  with_reducible repeat' (first
    | assumption | intro _ | exact Keeps.refl _
    | (extract_lets +onlyGivenNames x; clear_value (hx : x = _); refine Keeps.via (s := s0) hx ?_ fun hk => ?_)
    | (extract_lets +onlyGivenNames x; clear_value (hx : x = _); refine Keeps.viaP (s := s0) hx ?_ fun hk => ?_)
    | (extract_lets +onlyGivenNames x; clear_value (hx : x = _); refine OptKeeps.via (s := s0) hx ?_ fun hk => ?_)
    | (extract_lets +onlyGivenNames x; clear_value (hx : x = _); clear hx) | apply Keeps.ite | split | dsimp -zeta only
    | (refine Keeps.same ?_ rfl rfl rfl rfl rfl rfl rfl rfl))

theorem State.hostStores_keeps {s0 s : State} (l : List (Nat × Nat)) (h : Keeps s0 s) : Keeps s0 (s.hostStores l) := by
  exact Keeps.upd h (Nat.le_refl _) (Mem.wf_each_wr _ _ _) id id id id

theorem State.setRing_keeps {s0 : State} (s : State) (k : Nat) (r : Ring) (hS : Keeps s0 s) : Keeps s0 (State.setRing s k r) := by
  unfold State.setRing
  with_reducible repeat' (first
    | assumption | (extract_lets +onlyGivenNames x; clear_value (hx : x = _); ((have hy : @Eq FltSt x _ := hx); clear hx; subst hy))
    | (refine Keeps.same ?_ rfl rfl rfl rfl rfl rfl rfl rfl))

theorem State.ringStore_keeps {s0 : State} (s : State) (k pasid rec_ : Nat) (hS : Keeps s0 s) : Keeps s0 (State.ringStore s k pasid rec_) := by
  unfold State.ringStore
  with_reducible repeat' (first
    | assumption | apply State.hostWr_keeps | apply State.setRing_keeps)

theorem State.ringFetch_keeps {s0 : State} (s : State) (k pasid : Nat) (hS : Keeps s0 s) : Keeps s0 (State.ringFetch s k pasid).1 := by
  unfold State.ringFetch
  with_reducible repeat' (first
    | assumption | apply State.setRing_keeps
    | (extract_lets +onlyGivenNames x; clear_value (hx : x = _); refine Keeps.via (s := s0) hx ?_ fun hk => ?_)
    | (extract_lets +onlyGivenNames x; clear_value (hx : x = _); clear hx) | split)

theorem State.ringPut_keeps {s0 : State} (s : State) (k rec_ : Nat) (hS : Keeps s0 s) : Keeps s0 (State.ringPut s k rec_).1 := by
  unfold State.ringPut
  with_reducible repeat' (first
    | assumption | apply State.inc_keeps | apply State.setRing_keeps | apply State.ringStore_keeps | apply State.ringFetch_keeps
    | (extract_lets +onlyGivenNames x; clear_value (hx : x = _); refine Keeps.viaP (s := s0) hx ?_ fun hk => ?_)
    | (extract_lets +onlyGivenNames x; clear_value (hx : x = _); clear hx) | split)

theorem State.putManager_keeps {s0 : State} (s : State) (w : Nat) (hS : Keeps s0 s) : Keeps s0 (State.putManager s w).1 := by
  unfold State.putManager
  with_reducible repeat' (first
    | assumption | apply State.wr_keeps | apply State.inc_keeps | apply State.ringPut_keeps
    | (extract_lets +onlyGivenNames x; clear_value (hx : x = _); ((have hy : @Eq FltSt x _ := hx); clear hx; subst hy)) | split
    | (refine Keeps.same ?_ rfl rfl rfl rfl rfl rfl rfl rfl))

theorem State.countClass_keeps {s0 : State} (s : State) (r : FRec) (hS : Keeps s0 s) : Keeps s0 (State.countClass s r) := by
  unfold State.countClass
  with_reducible repeat' (first
    | assumption | apply State.inc_keeps
    | (extract_lets +onlyGivenNames x; clear_value (hx : x = _); refine Keeps.via (s := s0) hx ?_ fun hk => ?_)
    | (extract_lets +onlyGivenNames x; clear_value (hx : x = _); ((have hy : @Eq MgtSt x _ := hx); clear hx; subst hy)) | apply Keeps.ite
    | (refine Keeps.same ?_ rfl rfl rfl rfl rfl rfl rfl rfl))

theorem State.faultGo_keeps {s0 : State} (n : Nat) (s : State) (r : FRec) (h : Keeps s0 s) : Keeps s0 (State.faultGo n s r) := by
  induction n generalizing s r with
  | zero => exact h
  | succ n ih =>
    unfold State.faultGo
    repeat' (first
      | with_reducible assumption
      | with_reducible apply ih
      | with_reducible apply State.putManager_keeps
      | with_reducible apply State.countClass_keeps
      | with_reducible apply State.ringPut_keeps
      | (extract_lets +onlyGivenNames x; clear_value (hx : x = _); refine Keeps.via (s := s0) hx ?_ fun hk => ?_)
      | (extract_lets +onlyGivenNames x; clear_value (hx : x = _); refine Keeps.viaP (s := s0) hx ?_ fun hk => ?_)
      | (extract_lets +onlyGivenNames x; clear_value (hx : x = _); clear hx)
      | split
      | dsimp -zeta only)

theorem State.fault_keeps {s0 : State} (s : State) (r : FRec) (hS : Keeps s0 s) : Keeps s0 (State.fault s r) := by
  unfold State.fault
  with_reducible repeat' (first
    | assumption | apply State.countClass_keeps | apply State.faultGo_keeps)

theorem State.flushHeld_keeps {s0 : State} (s : State) (hS : Keeps s0 s) : Keeps s0 (State.flushHeld s) := by
  unfold State.flushHeld
  with_reducible repeat' (first
    | assumption | intro _ | apply State.wr_keeps | apply State.ringPut_keeps | apply Keeps.each
    | (extract_lets +onlyGivenNames x; clear_value (hx : x = _); refine Keeps.via (s := s0) hx ?_ fun hk => ?_)
    | (extract_lets +onlyGivenNames x; clear_value (hx : x = _); ((have hy : @Eq FltSt x _ := hx); clear hx; subst hy))
    | (extract_lets +onlyGivenNames x; clear_value (hx : x = _); clear hx) | apply Keeps.ite
    | (refine Keeps.same ?_ rfl rfl rfl rfl rfl rfl rfl rfl))

theorem State.faultGather_keeps {s0 : State} (s : State) (r : FRec) (hS : Keeps s0 s) : Keeps s0 (State.faultGather s r) := by
  unfold State.faultGather
  with_reducible repeat' (first
    | assumption | apply State.countClass_keeps | apply State.faultGo_keeps
    | (extract_lets +onlyGivenNames x; clear_value (hx : x = _); refine Keeps.via (s := s0) hx ?_ fun hk => ?_)
    | (extract_lets +onlyGivenNames x; clear_value (hx : x = _); ((have hy : @Eq FltSt x _ := hx); clear hx; subst hy))
    | (extract_lets +onlyGivenNames x; clear_value (hx : x = _); clear hx) | apply Keeps.ite | split
    | (refine Keeps.same ?_ rfl rfl rfl rfl rfl rfl rfl rfl))

theorem State.flushGather_keeps {s0 : State} (s : State) (hS : Keeps s0 s) : Keeps s0 (State.flushGather s) := by
  unfold State.flushGather
  with_reducible repeat' (first
    | assumption | intro _ | apply State.faultGo_keeps | apply Keeps.each
    | (extract_lets +onlyGivenNames x; clear_value (hx : x = _); ((have hy : @Eq FltSt x _ := hx); clear hx; subst hy))
    | (extract_lets +onlyGivenNames x; clear_value (hx : x = _); clear hx) | apply Keeps.ite
    | (refine Keeps.same ?_ rfl rfl rfl rfl rfl rfl rfl rfl))

theorem State.badAccess_keeps {s0 : State} (s : State) (off : Nat) (hS : Keeps s0 s) : Keeps s0 (State.badAccess s off) := by
  unfold State.badAccess
  with_reducible repeat' (first
    | assumption | apply State.fault_keeps)

theorem State.countedFault_keeps {s0 : State} (s : State) (kind index : Nat) (hS : Keeps s0 s) : Keeps s0 (State.countedFault s kind index) := by
  unfold State.countedFault
  with_reducible repeat' (first
    | assumption | (extract_lets +onlyGivenNames x; clear_value (hx : x = _); ((have hy : @Eq FltSt x _ := hx); clear hx; subst hy))
    | (extract_lets +onlyGivenNames x; clear_value (hx : x = _); clear hx) | (refine Keeps.same ?_ rfl rfl rfl rfl rfl rfl rfl rfl))

theorem State.meterTicks_keeps {s0 : State} (s : State) (hS : Keeps s0 s) : Keeps s0 (State.meterTicks s) := by
  unfold State.meterTicks
  with_reducible repeat' (first
    | assumption | intro _ | apply State.incw_keeps | apply Keeps.upto
    | (extract_lets +onlyGivenNames x; clear_value (hx : x = _); refine Keeps.via (s := s0) hx ?_ fun hk => ?_)
    | (extract_lets +onlyGivenNames x; clear_value (hx : x = _); ((have hy : @Eq PartSt x _ := hx); clear hx; subst hy))
    | (extract_lets +onlyGivenNames x; clear_value (hx : x = _); clear hx) | apply Keeps.ite
    | (refine Keeps.same ?_ rfl rfl rfl rfl rfl rfl rfl rfl))

theorem State.tickMark_keeps {s0 : State} (s : State) (hS : Keeps s0 s) : Keeps s0 (State.tickMark s) := by
  unfold State.tickMark
  with_reducible repeat' (first
    | assumption | (extract_lets +onlyGivenNames x; clear_value (hx : x = _); ((have hy : @Eq PartSt x _ := hx); clear hx; subst hy))
    | (refine Keeps.same ?_ rfl rfl rfl rfl rfl rfl rfl rfl))

end Sys2Proof.Machine
end

