-- ==== Sys2Proof/Laws/KeepsMemory.lean ====
section
/-! SUPPORT. Every operation of Machine/Memory.lean keeps what Keeps (Safety.lean) says. -/

namespace Sys2Proof.Machine

theorem State.meter_keeps {s0 : State} (s : State) (p k n : Nat) (hS : Keeps s0 s) : Keeps s0 (State.meter s p k n) := by
  unfold State.meter
  with_reducible repeat' (first
    | assumption | apply State.incw_keeps | apply Keeps.ite)

theorem State.countPoison_keeps {s0 : State} (s : State) (a n : Nat) (hS : Keeps s0 s) : Keeps s0 (State.countPoison s a n) := by
  unfold State.countPoison
  with_reducible repeat' (first
    | assumption | intro _ | apply State.inc_keeps | apply Keeps.upto
    | (extract_lets +onlyGivenNames x; clear_value (hx : x = _); clear hx) | apply Keeps.ite)

theorem State.setLineBad_keeps {s0 : State} (s : State) (a : Nat) (b : Bool) (hS : Keeps s0 s) : Keeps s0 (State.setLineBad s a b) := by
  unfold State.setLineBad
  with_reducible repeat' (first
    | assumption | (extract_lets +onlyGivenNames x; clear_value (hx : x = _); ((have hy : @Eq MemSt x _ := hx); clear hx; subst hy))
    | (refine Keeps.same ?_ rfl rfl rfl rfl rfl rfl rfl rfl))

theorem State.poisonRange_keeps {s0 : State} (s : State) (a n : Nat) (b : Bool) (hS : Keeps s0 s) : Keeps s0 (State.poisonRange s a n b) := by
  unfold State.poisonRange
  with_reducible repeat' (first
    | assumption | intro _ | exact Keeps.refl _ | apply State.setLineBad_keeps | apply Keeps.upto | apply Keeps.uptoP | apply Keeps.ite
    | split | dsimp -zeta only)

theorem State.stLive_keeps {s0 : State} (s : State) (a : Nat) (l : List Nat) (h : Keeps s0 s) : Keeps s0 (State.stLive s a l) := by
  unfold State.stLive
  refine Keeps.upto (fun i t ht => ?_) (Keeps.upd h (Nat.le_refl _) id (fun w => Mem.wf_each_wr _ _ _ w) id id id)
  dsimp only
  split
  · exact State.setLineBad_keeps _ _ _ ht
  · exact ht

theorem State.stBytes_keeps {s0 : State} (s : State) (a : Nat) (l : List Nat) (hS : Keeps s0 s) : Keeps s0 (State.stBytes s a l) := by
  unfold State.stBytes
  with_reducible repeat' (first
    | assumption | intro _ | exact Keeps.refl _ | apply State.inc_keeps | apply State.stLive_keeps | apply Keeps.upto | apply Keeps.uptoP
    | (extract_lets +onlyGivenNames x; clear_value (hx : x = _); refine Keeps.via (s := s0) hx ?_ fun hk => ?_)
    | (extract_lets +onlyGivenNames x; clear_value (hx : x = _); refine Keeps.viaP (s := s0) hx ?_ fun hk => ?_)
    | (extract_lets +onlyGivenNames x; clear_value (hx : x = _); refine OptKeeps.via (s := s0) hx ?_ fun hk => ?_)
    | (extract_lets +onlyGivenNames x; clear_value (hx : x = _); clear hx) | apply Keeps.ite | split | dsimp -zeta only)

theorem State.stN_keeps {s0 : State} (s : State) (a n v : Nat) (hS : Keeps s0 s) : Keeps s0 (State.stN s a n v) := by
  unfold State.stN
  with_reducible repeat' (first
    | assumption | apply State.stBytes_keeps)

theorem State.meterLines_keeps {s0 : State} (s : State) (keys : List Nat) (hS : Keeps s0 s) : Keeps s0 (State.meterLines s keys) := by
  unfold State.meterLines
  with_reducible repeat' (first
    | assumption | intro _ | exact Keeps.refl _ | apply State.meter_keeps | apply Keeps.upto | apply Keeps.uptoP | dsimp -zeta only)

theorem State.tsAccess_keeps {s0 : State} (s : State) (a n : Nat) (write alloc : Bool) (hS : Keeps s0 s) : Keeps s0 (State.tsAccess s a n write alloc) := by
  unfold State.tsAccess
  with_reducible repeat' (first
    | assumption | intro _ | exact Keeps.refl _ | apply State.took_keeps | apply State.meterLines_keeps | apply Keeps.upto
    | apply Keeps.uptoP | (extract_lets +onlyGivenNames x; clear_value (hx : x = _); refine Keeps.via (s := s0) hx ?_ fun hk => ?_)
    | (extract_lets +onlyGivenNames x; clear_value (hx : x = _); refine Keeps.viaP (s := s0) hx ?_ fun hk => ?_)
    | (extract_lets +onlyGivenNames x; clear_value (hx : x = _); ((have hy : @Eq MemSt x _ := hx); clear hx; subst hy))
    | (extract_lets +onlyGivenNames x; clear_value (hx : x = _); refine OptKeeps.via (s := s0) hx ?_ fun hk => ?_)
    | (extract_lets +onlyGivenNames x; clear_value (hx : x = _); clear hx) | apply Keeps.ite | split | dsimp -zeta only
    | (refine Keeps.same ?_ rfl rfl rfl rfl rfl rfl rfl rfl))

theorem State.tsDrop_keeps {s0 : State} (s : State) (out : Nat → TsLine → Bool) (hS : Keeps s0 s) : Keeps s0 (State.tsDrop s out) := by
  unfold State.tsDrop
  with_reducible repeat' (first
    | assumption | intro _ | exact Keeps.refl _ | apply State.meterLines_keeps | apply OptKeeps.some | exact OptKeeps.none
    | (extract_lets +onlyGivenNames x; clear_value (hx : x = _); refine Keeps.via (s := s0) hx ?_ fun hk => ?_)
    | (extract_lets +onlyGivenNames x; clear_value (hx : x = _); refine Keeps.viaP (s := s0) hx ?_ fun hk => ?_)
    | (extract_lets +onlyGivenNames x; clear_value (hx : x = _); ((have hy : @Eq MemSt x _ := hx); clear hx; subst hy))
    | (extract_lets +onlyGivenNames x; clear_value (hx : x = _); refine OptKeeps.via (s := s0) hx ?_ fun hk => ?_)
    | (extract_lets +onlyGivenNames x; clear_value (hx : x = _); clear hx) | apply Keeps.ite | apply OptKeeps.ite | split
    | dsimp -zeta only | exact OptKeeps.get rfl (by assumption) | refine OptKeeps.get (by assumption) ?_
    | (refine Keeps.same ?_ rfl rfl rfl rfl rfl rfl rfl rfl))

theorem State.wayFlushed_keeps {s0 : State} (s : State) (n : Nat) (hS : Keeps s0 s) : Keeps s0 (State.wayFlushed s n) := by
  unfold State.wayFlushed
  with_reducible repeat' (first
    | assumption | intro _ | exact Keeps.refl _ | apply State.wr_keeps | apply State.tsDrop_keeps
    | (extract_lets +onlyGivenNames x; clear_value (hx : x = _); refine Keeps.via (s := s0) hx ?_ fun hk => ?_)
    | (extract_lets +onlyGivenNames x; clear_value (hx : x = _); refine Keeps.viaP (s := s0) hx ?_ fun hk => ?_)
    | (extract_lets +onlyGivenNames x; clear_value (hx : x = _); ((have hy : @Eq MemSt x _ := hx); clear hx; subst hy))
    | (extract_lets +onlyGivenNames x; clear_value (hx : x = _); refine OptKeeps.via (s := s0) hx ?_ fun hk => ?_)
    | (extract_lets +onlyGivenNames x; clear_value (hx : x = _); clear hx) | dsimp -zeta only
    | (refine Keeps.same ?_ rfl rfl rfl rfl rfl rfl rfl rfl))

theorem State.flushDue_keeps {s0 : State} (s : State) (hS : Keeps s0 s) : Keeps s0 (State.flushDue s) := by
  unfold State.flushDue
  with_reducible repeat' (first
    | assumption | intro _ | exact Keeps.refl _ | apply State.wayFlushed_keeps | apply Keeps.each | apply Keeps.eachP | apply Keeps.ite
    | split | dsimp -zeta only)

theorem State.meshRecord_keeps {s0 : State} (s : State) (a b n : Nat) (hS : Keeps s0 s) : Keeps s0 (State.meshRecord s a b n) := by
  unfold State.meshRecord
  with_reducible repeat' (first
    | assumption | intro _ | exact Keeps.refl _ | apply State.fault_keeps | apply OptKeeps.some | exact OptKeeps.none
    | (extract_lets +onlyGivenNames x; clear_value (hx : x = _); refine Keeps.via (s := s0) hx ?_ fun hk => ?_)
    | (extract_lets +onlyGivenNames x; clear_value (hx : x = _); refine Keeps.viaP (s := s0) hx ?_ fun hk => ?_)
    | (extract_lets +onlyGivenNames x; clear_value (hx : x = _); refine OptKeeps.via (s := s0) hx ?_ fun hk => ?_)
    | (extract_lets +onlyGivenNames x; clear_value (hx : x = _); clear hx) | split | dsimp -zeta only
    | exact OptKeeps.get rfl (by assumption) | refine OptKeeps.get (by assumption) ?_ | refine Keeps.ofMk (by assumption) ?_
    | (refine Keeps.same ?_ rfl rfl rfl rfl rfl rfl rfl rfl))

theorem State.meshRecords_keeps {s0 : State} (s : State) (node : Nat) (l : List Nat) (hS : Keeps s0 s) : Keeps s0 (State.meshRecords s node l) := by
  unfold State.meshRecords
  with_reducible repeat' (first
    | assumption | intro _ | exact Keeps.refl _ | apply State.meshRecord_keeps | apply Keeps.each | apply Keeps.eachP
    | (extract_lets +onlyGivenNames x; clear_value (hx : x = _); refine Keeps.via (s := s0) hx ?_ fun hk => ?_)
    | (extract_lets +onlyGivenNames x; clear_value (hx : x = _); refine Keeps.viaP (s := s0) hx ?_ fun hk => ?_)
    | (extract_lets +onlyGivenNames x; clear_value (hx : x = _); refine OptKeeps.via (s := s0) hx ?_ fun hk => ?_)
    | (extract_lets +onlyGivenNames x; clear_value (hx : x = _); clear hx) | apply Keeps.ite | split | dsimp -zeta only)

theorem State.stVia_keeps {s0 : State} (s : State) (node a : Nat) (l : List Nat) (hS : Keeps s0 s) : Keeps s0 (State.stVia s node a l) := by
  unfold State.stVia
  with_reducible repeat' (first
    | assumption | intro _ | exact Keeps.refl _ | apply State.stBytes_keeps | apply Keeps.ite | split | dsimp -zeta only)

theorem State.stRange_keeps {s0 : State} (s : State) (node a : Nat) (l : List Nat) (hS : Keeps s0 s) : Keeps s0 (State.stRange s node a l) := by
  unfold State.stRange
  with_reducible repeat' (first
    | assumption | intro _ | exact Keeps.refl _ | apply State.stBytes_keeps | apply State.stVia_keeps | apply Keeps.each
    | apply Keeps.eachP | apply Keeps.ite | split | dsimp -zeta only)

theorem State.rangeRecords_keeps {s0 : State} (s : State) (node a n : Nat) (hS : Keeps s0 s) : Keeps s0 (State.rangeRecords s node a n) := by
  unfold State.rangeRecords
  with_reducible repeat' (first
    | assumption | intro _ | exact Keeps.refl _ | apply State.meshRecords_keeps | apply OptKeeps.map | dsimp -zeta only)

theorem State.zeroChannel_keeps {s0 : State} (s : State) (ch : Nat) (h : Keeps s0 s) : Keeps s0 (State.zeroChannel s ch) :=
  Keeps.upd h (Nat.le_refl _) id (Mem.wf_zero _ _) id id id

theorem State.zeroRsv_keeps {s0 : State} (s : State) (d g : Nat) (h : Keeps s0 s) : Keeps s0 (State.zeroRsv s d g) :=
  Keeps.upd h (Nat.le_refl _) id (Mem.wf_zero _ _) id id id

theorem State.zeroSettle_keeps {s0 : State} (s : State) (kind i : Nat) (hS : Keeps s0 s) : Keeps s0 (State.zeroSettle s kind i) := by
  unfold State.zeroSettle
  with_reducible repeat' (first
    | assumption | intro _ | apply State.wr_keeps | apply Keeps.each
    | (extract_lets +onlyGivenNames x; clear_value (hx : x = _); refine Keeps.via (s := s0) hx ?_ fun hk => ?_)
    | (extract_lets +onlyGivenNames x; clear_value (hx : x = _); ((have hy : @Eq PartSt x _ := hx); clear hx; subst hy))
    | (extract_lets +onlyGivenNames x; clear_value (hx : x = _); clear hx) | apply Keeps.ite | split
    | (refine Keeps.same ?_ rfl rfl rfl rfl rfl rfl rfl rfl))

theorem State.startScrub_keeps {s0 : State} (s : State) (n k : Nat) (hS : Keeps s0 s) : Keeps s0 (State.startScrub s n k) := by
  unfold State.startScrub
  with_reducible repeat' (first
    | assumption | intro _ | exact Keeps.refl _ | apply State.wr_keeps | apply State.zeroChannel_keeps
    | (extract_lets +onlyGivenNames x; clear_value (hx : x = _); refine Keeps.via (s := s0) hx ?_ fun hk => ?_)
    | (extract_lets +onlyGivenNames x; clear_value (hx : x = _); refine Keeps.viaP (s := s0) hx ?_ fun hk => ?_)
    | (extract_lets +onlyGivenNames x; clear_value (hx : x = _); ((have hy : @Eq MemSt x _ := hx); clear hx; subst hy))
    | (extract_lets +onlyGivenNames x; clear_value (hx : x = _); refine OptKeeps.via (s := s0) hx ?_ fun hk => ?_)
    | (extract_lets +onlyGivenNames x; clear_value (hx : x = _); clear hx) | dsimp -zeta only
    | (refine Keeps.same ?_ rfl rfl rfl rfl rfl rfl rfl rfl))

theorem State.failChannel_keeps {s0 : State} (s : State) (ch : Nat) (hS : Keeps s0 s) : Keeps s0 (State.failChannel s ch) := by
  unfold State.failChannel
  with_reducible repeat' (first
    | assumption | apply State.wr_keeps | apply State.fault_keeps | (extract_lets +onlyGivenNames x; clear_value (hx : x = _); clear hx)
    | apply Keeps.ite)

end Sys2Proof.Machine
end

