-- ==== Sys2Proof/Laws/KeepsSem.lean ====
section
/-! SUPPORT. Every operation of Machine/Sem.lean keeps what Keeps (Safety.lean) says. -/

namespace Sys2Proof.Machine

theorem State.setSem_keeps {s0 : State} (s : State) (k v : Nat) (hS : Keeps s0 s) : Keeps s0 (State.setSem s k v) := by
  unfold State.setSem
  with_reducible repeat' (first
    | assumption | (extract_lets +onlyGivenNames x; clear_value (hx : x = _); ((have hy : @Eq SemSt x _ := hx); clear hx; subst hy))
    | (refine Keeps.same ?_ rfl rfl rfl rfl rfl rfl rfl rfl))

theorem State.setWaiters_keeps {s0 : State} (s : State) (k : Nat) (l : List Waiter) (hS : Keeps s0 s) : Keeps s0 (State.setWaiters s k l) := by
  unfold State.setWaiters
  with_reducible repeat' (first
    | assumption | (extract_lets +onlyGivenNames x; clear_value (hx : x = _); ((have hy : @Eq SemSt x _ := hx); clear hx; subst hy))
    | (refine Keeps.same ?_ rfl rfl rfl rfl rfl rfl rfl rfl))

theorem State.semServe_keeps {s0 : State} (s : State) (k : Nat) (y0 : Nat) (hS : Keeps s0 s) : Keeps s0 (State.semServe s k y0) := by
  induction y0 generalizing s with
  | zero =>
    unfold State.semServe
    with_reducible repeat' (first
      | assumption)
  | succ z ih =>
    unfold State.semServe
    with_reducible repeat' (first
      | assumption | apply ih | apply State.setSem_keeps | apply State.setWaiters_keeps
      | (extract_lets +onlyGivenNames x; clear_value (hx : x = _); refine Keeps.via (s := s0) hx ?_ fun hk => ?_)
      | (extract_lets +onlyGivenNames x; clear_value (hx : x = _); ((have hy : @Eq SemSt x _ := hx); clear hx; subst hy)) | apply Keeps.ite
      | split | (refine Keeps.same ?_ rfl rfl rfl rfl rfl rfl rfl rfl))

theorem State.semPost_keeps {s0 : State} (s : State) (k n : Nat) (hS : Keeps s0 s) : Keeps s0 (State.semPost s k n) := by
  unfold State.semPost
  with_reducible repeat' (first
    | assumption | apply State.setSem_keeps | apply State.semServe_keeps | apply Keeps.ite)

theorem State.semDec_keeps {s0 : State} (s : State) (k : Nat) (hS : Keeps s0 s) : Keeps s0 (State.semDec s k) := by
  unfold State.semDec
  with_reducible repeat' (first
    | assumption | apply State.setSem_keeps)

theorem State.semRegister_keeps {s0 : State} (s : State) (k : Nat) (w : Waiter) (hS : Keeps s0 s) : Keeps s0 (State.semRegister s k w) := by
  unfold State.semRegister
  with_reducible repeat' (first
    | assumption | apply State.setWaiters_keeps)

theorem State.semWithdraw_keeps {s0 : State} (s : State) (k : Nat) (w : Waiter) (hS : Keeps s0 s) : Keeps s0 (State.semWithdraw s k w) := by
  unfold State.semWithdraw
  with_reducible repeat' (first
    | assumption | apply State.setWaiters_keeps)

theorem State.semZeroGroup_keeps {s0 : State} (s : State) (g : Nat) (hS : Keeps s0 s) : Keeps s0 (State.semZeroGroup s g) := by
  unfold State.semZeroGroup
  with_reducible repeat' (first
    | assumption | (extract_lets +onlyGivenNames x; clear_value (hx : x = _); ((have hy : @Eq SemSt x _ := hx); clear hx; subst hy))
    | (extract_lets +onlyGivenNames x; clear_value (hx : x = _); clear hx) | (refine Keeps.same ?_ rfl rfl rfl rfl rfl rfl rfl rfl))

end Sys2Proof.Machine
end

