-- ==== Sys2Proof/Laws/KeepsFab.lean ====
section
/-! SUPPORT. Every operation of Machine/Fab.lean keeps what Keeps (Safety.lean) says. -/

namespace Sys2Proof.Machine

theorem State.emit_keeps {s0 : State} (s : State) (port lvc : Nat) (p : Packet) (hS : Keeps s0 s) : Keeps s0 (State.emit s port lvc p) := by
  unfold State.emit
  with_reducible repeat' (first
    | assumption | apply State.meter_keeps
    | (extract_lets +onlyGivenNames x; clear_value (hx : x = _); refine Keeps.via (s := s0) hx ?_ fun hk => ?_)
    | (extract_lets +onlyGivenNames x; clear_value (hx : x = _); ((have hy : @Eq FabSt x _ := hx); clear hx; subst hy))
    | (extract_lets +onlyGivenNames x; clear_value (hx : x = _); clear hx) | split
    | (refine Keeps.same ?_ rfl rfl rfl rfl rfl rfl rfl rfl))

theorem State.meshPass_keeps {s0 : State} (s : State) (a b : Nat) (go : State → State) (hgo : ∀ a0, Keeps s0 a0 → Keeps s0 (go a0)) (hS : Keeps s0 s) : Keeps s0 (State.meshPass s a b go) := by
  unfold State.meshPass
  with_reducible repeat' (first
    | assumption | intro _ | exact Keeps.refl _ | apply hgo | apply State.meshRecord_keeps | apply Keeps.ite | split | dsimp -zeta only)

theorem State.routeFrom_keeps {s0 : State} (s : State) (lvc : Nat) (p : Packet) (node : Option Nat) (hS : Keeps s0 s) : Keeps s0 (State.routeFrom s lvc p node) := by
  unfold State.routeFrom
  with_reducible repeat' (first
    | assumption | intro _ | exact Keeps.refl _ | apply State.inc_keeps | apply State.took_keeps | apply State.emit_keeps
    | apply State.meshPass_keeps | apply OptKeeps.some | exact OptKeeps.none
    | (extract_lets +onlyGivenNames x; clear_value (hx : x = _); refine Keeps.via (s := s0) hx ?_ fun hk => ?_)
    | (extract_lets +onlyGivenNames x; clear_value (hx : x = _); refine Keeps.viaP (s := s0) hx ?_ fun hk => ?_)
    | (extract_lets +onlyGivenNames x; clear_value (hx : x = _); ((have hy : @Eq FabSt x _ := hx); clear hx; subst hy))
    | (extract_lets +onlyGivenNames x; clear_value (hx : x = _); refine OptKeeps.via (s := s0) hx ?_ fun hk => ?_)
    | (extract_lets +onlyGivenNames x; clear_value (hx : x = _); clear hx) | apply Keeps.ite | apply OptKeeps.ite | split
    | dsimp -zeta only | exact OptKeeps.get rfl (by assumption) | refine OptKeeps.get (by assumption) ?_
    | refine Keeps.ofMk (by assumption) ?_ | (refine Keeps.same ?_ rfl rfl rfl rfl rfl rfl rfl rfl))

theorem State.send_keeps {s0 : State} (s : State) (p : Packet) (node : Option Nat) (hS : Keeps s0 s) : Keeps s0 (State.send s p node) := by
  unfold State.send
  with_reducible repeat' (first
    | assumption | intro _ | exact Keeps.refl _ | apply State.routeFrom_keeps | apply Keeps.ite | split | dsimp -zeta only)

theorem State.ack_keeps {s0 : State} (s : State) (p : Packet) (status : Nat) (hS : Keeps s0 s) : Keeps s0 (State.ack s p status) := by
  unfold State.ack
  with_reducible repeat' (first
    | assumption | apply State.send_keeps)

theorem State.refuse_keeps {s0 : State} (s : State) (p : Packet) (type : Nat) (hS : Keeps s0 s) : Keeps s0 (State.refuse s p type) := by
  unfold State.refuse
  with_reducible repeat' (first
    | assumption | apply State.inc_keeps | apply State.send_keeps)

theorem State.launchOp_keeps {s0 : State} (s : State) (p : Packet) (part ga : Nat) (bank : Option Nat) (reg : Option CReg) (line bytes pd group tag : Nat) (node : Option Nat) (hS : Keeps s0 s) : Keeps s0 (State.launchOp s p part ga bank reg line bytes pd group tag node) := by
  unfold State.launchOp
  with_reducible repeat' (first
    | assumption | intro _ | exact Keeps.refl _ | apply State.send_keeps | apply OptKeeps.some | apply OptKeeps.map | exact OptKeeps.none
    | apply OutKeeps.next | (extract_lets +onlyGivenNames x; clear_value (hx : x = _); refine Keeps.via (s := s0) hx ?_ fun hk => ?_)
    | (extract_lets +onlyGivenNames x; clear_value (hx : x = _); refine Keeps.viaP (s := s0) hx ?_ fun hk => ?_)
    | (extract_lets +onlyGivenNames x; clear_value (hx : x = _); ((have hy : @Eq FabSt x _ := hx); clear hx; subst hy))
    | (extract_lets +onlyGivenNames x; clear_value (hx : x = _); refine OptKeeps.via (s := s0) hx ?_ fun hk => ?_)
    | (extract_lets +onlyGivenNames x; clear_value (hx : x = _); clear hx) | apply Keeps.ite | apply OptKeeps.ite | apply OutKeeps.ite
    | split | dsimp -zeta only | exact OptKeeps.get rfl (by assumption) | refine OptKeeps.get (by assumption) ?_
    | refine Keeps.ofMk (by assumption) ?_ | (refine Keeps.same ?_ rfl rfl rfl rfl rfl rfl rfl rfl))

theorem State.mcastCopies_keeps {s0 : State} (s : State) (ports : List Nat) (lvc : Nat) (p : Packet) (hS : Keeps s0 s) : Keeps s0 (State.mcastCopies s ports lvc p) := by
  unfold State.mcastCopies
  with_reducible repeat' (first
    | assumption | intro _ | exact Keeps.refl _ | apply State.emit_keeps | apply Keeps.each | apply OutKeeps.next
    | (extract_lets +onlyGivenNames x; clear_value (hx : x = _); refine Keeps.via (s := s0) hx ?_ fun hk => ?_)
    | (extract_lets +onlyGivenNames x; clear_value (hx : x = _); refine Keeps.viaP (s := s0) hx ?_ fun hk => ?_)
    | (extract_lets +onlyGivenNames x; clear_value (hx : x = _); refine OptKeeps.via (s := s0) hx ?_ fun hk => ?_)
    | (extract_lets +onlyGivenNames x; clear_value (hx : x = _); clear hx) | apply Keeps.ite | apply OutKeeps.ite | split
    | dsimp -zeta only | (refine Keeps.same ?_ rfl rfl rfl rfl rfl rfl rfl rfl))

theorem State.touch_keeps {s0 : State} (s : State) (a n who : Nat) (hS : Keeps s0 s) : Keeps s0 (State.touch s a n who) := by
  unfold State.touch
  with_reducible repeat' (first
    | assumption | (extract_lets +onlyGivenNames x; clear_value (hx : x = _); ((have hy : @Eq FabSt x _ := hx); clear hx; subst hy))
    | (refine Keeps.same ?_ rfl rfl rfl rfl rfl rfl rfl rfl))

theorem State.overwrite_keeps {s0 : State} (s : State) (a n who : Nat) (hS : Keeps s0 s) : Keeps s0 (State.overwrite s a n who) := by
  unfold State.overwrite
  with_reducible repeat' (first
    | assumption | intro _ | exact Keeps.refl _ | apply State.touch_keeps | apply Keeps.upto | apply Keeps.uptoP
    | (extract_lets +onlyGivenNames x; clear_value (hx : x = _); refine Keeps.via (s := s0) hx ?_ fun hk => ?_)
    | (extract_lets +onlyGivenNames x; clear_value (hx : x = _); refine Keeps.viaP (s := s0) hx ?_ fun hk => ?_)
    | (extract_lets +onlyGivenNames x; clear_value (hx : x = _); ((have hy : @Eq FabSt x _ := hx); clear hx; subst hy))
    | (extract_lets +onlyGivenNames x; clear_value (hx : x = _); refine OptKeeps.via (s := s0) hx ?_ fun hk => ?_)
    | (extract_lets +onlyGivenNames x; clear_value (hx : x = _); clear hx) | dsimp -zeta only
    | (refine Keeps.same ?_ rfl rfl rfl rfl rfl rfl rfl rfl))

theorem State.contribute_keeps {s0 : State} (s : State) (a who : Nat) (hS : Keeps s0 s) : Keeps s0 (State.contribute s a who).1 := by
  unfold State.contribute
  with_reducible repeat' (first
    | assumption | intro _ | exact Keeps.refl _ | apply OptKeeps.some | exact OptKeeps.none | apply hF | apply hG | apply hH
    | (extract_lets +onlyGivenNames x; clear_value (hx : x = _); refine Keeps.via (s := s0) hx ?_ fun hk => ?_)
    | (extract_lets +onlyGivenNames x; clear_value (hx : x = _); refine Keeps.viaP (s := s0) hx ?_ fun hk => ?_)
    | (extract_lets +onlyGivenNames x; clear_value (hx : x = _); ((have hy : @Eq FabSt x _ := hx); clear hx; subst hy))
    | (extract_lets +onlyGivenNames x; clear_value (hx : x = _); refine OptKeeps.via (s := s0) hx ?_ fun hk => ?_)
    | (extract_lets +onlyGivenNames x; clear_value (hx : x = _); (fail_if_success have := hF); refine Keeps.viaFunC (s := s0) hx ?_ fun hF => ?_)
    | (extract_lets +onlyGivenNames x; clear_value (hx : x = _); clear hx) | apply Keeps.ite | apply OptKeeps.ite | split
    | dsimp -zeta only | exact OptKeeps.get rfl (by assumption) | refine OptKeeps.get (by assumption) ?_
    | refine Keeps.ofMk (by assumption) ?_ | (refine Keeps.same ?_ rfl rfl rfl rfl rfl rfl rfl rfl))

theorem State.newGroup_keeps {s0 : State} (s : State) (hS : Keeps s0 s) : Keeps s0 (State.newGroup s) := by
  unfold State.newGroup
  with_reducible repeat' (first
    | assumption | (extract_lets +onlyGivenNames x; clear_value (hx : x = _); ((have hy : @Eq FabSt x _ := hx); clear hx; subst hy))
    | (refine Keeps.same ?_ rfl rfl rfl rfl rfl rfl rfl rfl))

theorem State.pruneHorizon_keeps {s0 : State} (s : State) (dev : Nat) (hS : Keeps s0 s) : Keeps s0 (State.pruneHorizon s dev) := by
  unfold State.pruneHorizon
  with_reducible repeat' (first
    | assumption | (extract_lets +onlyGivenNames x; clear_value (hx : x = _); ((have hy : @Eq FabSt x _ := hx); clear hx; subst hy))
    | (extract_lets +onlyGivenNames x; clear_value (hx : x = _); clear hx) | (refine Keeps.same ?_ rfl rfl rfl rfl rfl rfl rfl rfl))

theorem State.sendPost_keeps {s0 : State} (s : State) (part ga n : Nat) (bank : Option Nat) (pd tag ctx : Nat) (hS : Keeps s0 s) : Keeps s0 (State.sendPost s part ga n bank pd tag ctx) := by
  unfold State.sendPost
  with_reducible repeat' (first
    | assumption | apply State.launchOp_keeps | apply State.newGroup_keeps)

theorem State.showPool_keeps {s0 : State} (s : State) (d : Nat) (hS : Keeps s0 s) : Keeps s0 (State.showPool s d) := by
  unfold State.showPool
  with_reducible repeat' (first
    | assumption | apply State.wr_keeps)

theorem State.dropLease_keeps {s0 : State} (s : State) (l : Lease) (hS : Keeps s0 s) : Keeps s0 (State.dropLease s l) := by
  unfold State.dropLease
  with_reducible repeat' (first
    | assumption | apply State.showPool_keeps
    | (extract_lets +onlyGivenNames x; clear_value (hx : x = _); ((have hy : @Eq FabSt x _ := hx); clear hx; subst hy))
    | (refine Keeps.same ?_ rfl rfl rfl rfl rfl rfl rfl rfl))

theorem State.reserve_keeps {s0 : State} (s : State) (d key domain n ms : Nat) (hS : Keeps s0 s) : Keeps s0 (State.reserve s d key domain n ms).1 := by
  unfold State.reserve
  with_reducible repeat' (first
    | assumption | apply State.inc_keeps | apply State.showPool_keeps
    | (extract_lets +onlyGivenNames x; clear_value (hx : x = _); ((have hy : @Eq FabSt x _ := hx); clear hx; subst hy))
    | (extract_lets +onlyGivenNames x; clear_value (hx : x = _); clear hx) | split | dsimp -zeta only
    | (refine Keeps.same ?_ rfl rfl rfl rfl rfl rfl rfl rfl))

end Sys2Proof.Machine
end

