-- ==== Sys2Proof/Laws/KeepsContext.lean ====
section
/-! SUPPORT. Every operation of Machine/Context.lean keeps what Keeps (Safety.lean) says. -/

namespace Sys2Proof.Machine

theorem State.setTileProg_keeps {s0 : State} (s : State) (n : Nat) (l : List Slot) (hS : Keeps s0 s) : Keeps s0 (State.setTileProg s n l) := by
  unfold State.setTileProg
  with_reducible repeat' (first
    | assumption | (extract_lets +onlyGivenNames x; clear_value (hx : x = _); ((have hy : @Eq TickSt x _ := hx); clear hx; subst hy))
    | (refine Keeps.same ?_ rfl rfl rfl rfl rfl rfl rfl rfl))

theorem State.modSlot_keeps {s0 : State} (s : State) (n i : Nat) (f : Slot → Slot) (hS : Keeps s0 s) : Keeps s0 (State.modSlot s n i f) := by
  unfold State.modSlot
  with_reducible repeat' (first
    | assumption | apply State.setTileProg_keeps | split)

theorem State.setPhase_keeps {s0 : State} (s : State) (n i : Nat) (p : Phase) (hS : Keeps s0 s) : Keeps s0 (State.setPhase s n i p) := by
  unfold State.setPhase
  with_reducible repeat' (first
    | assumption | apply State.modSlot_keeps)

theorem State.setBank_keeps {s0 : State} (s : State) (k : Nat) (b : Bank) (hS : Keeps s0 s) : Keeps s0 (State.setBank s k b) := by
  unfold State.setBank
  with_reducible repeat' (first
    | assumption | (extract_lets +onlyGivenNames x; clear_value (hx : x = _); ((have hy : @Eq CoreSt x _ := hx); clear hx; subst hy))
    | (refine Keeps.same ?_ rfl rfl rfl rfl rfl rfl rfl rfl))

theorem State.delBank_keeps {s0 : State} (s : State) (k : Nat) (hS : Keeps s0 s) : Keeps s0 (State.delBank s k) := by
  unfold State.delBank
  with_reducible repeat' (first
    | assumption | (extract_lets +onlyGivenNames x; clear_value (hx : x = _); ((have hy : @Eq CoreSt x _ := hx); clear hx; subst hy))
    | (refine Keeps.same ?_ rfl rfl rfl rfl rfl rfl rfl rfl))

theorem State.modBank_keeps {s0 : State} (s : State) (k : Nat) (f : Bank → Bank) (hS : Keeps s0 s) : Keeps s0 (State.modBank s k f) := by
  unfold State.modBank
  with_reducible repeat' (first
    | assumption | apply State.setBank_keeps | split)

theorem State.markLost_keeps {s0 : State} (s : State) (cell : Nat) (hS : Keeps s0 s) : Keeps s0 (State.markLost s cell) := by
  unfold State.markLost
  with_reducible repeat' (first
    | assumption | apply State.wr_keeps | apply State.inc_keeps | apply Keeps.ite)

theorem State.csWrite_keeps {s0 : State} (s : State) (core a : Nat) (l : List Nat) (h : Keeps s0 s) : Keeps s0 (State.csWrite s core a l) := by
  refine Keeps.upd h (Nat.le_refl _) id id (fun w => ?_) id id
  simp only [CoreSt.memOk, Bool.and_eq_true] at w ⊢
  exact ⟨⟨⟨Mem.wf_wrBytes _ _ w.1.1.1, w.1.1.2⟩, w.1.2⟩, w.2⟩

theorem State.csPoison_keeps {s0 : State} (s : State) (core a n : Nat) (hS : Keeps s0 s) : Keeps s0 (State.csPoison s core a n) := by
  unfold State.csPoison
  with_reducible repeat' (first
    | assumption | (extract_lets +onlyGivenNames x; clear_value (hx : x = _); ((have hy : @Eq CoreSt x _ := hx); clear hx; subst hy))
    | (extract_lets +onlyGivenNames x; clear_value (hx : x = _); clear hx) | (refine Keeps.same ?_ rfl rfl rfl rfl rfl rfl rfl rfl))

theorem State.dmaLine_keeps {s0 : State} (s : State) (core p : Nat) (m : Dma) (j : Nat) (hS : Keeps s0 s) : Keeps s0 (State.dmaLine s core p m j) := by
  unfold State.dmaLine
  with_reducible repeat' (first
    | assumption | intro _ | exact Keeps.refl _ | apply State.countPoison_keeps | apply State.setLineBad_keeps | apply State.stBytes_keeps
    | apply State.csWrite_keeps | apply State.csPoison_keeps
    | (extract_lets +onlyGivenNames x; clear_value (hx : x = _); refine Keeps.via (s := s0) hx ?_ fun hk => ?_)
    | (extract_lets +onlyGivenNames x; clear_value (hx : x = _); refine Keeps.viaP (s := s0) hx ?_ fun hk => ?_)
    | (extract_lets +onlyGivenNames x; clear_value (hx : x = _); refine OptKeeps.via (s := s0) hx ?_ fun hk => ?_)
    | (extract_lets +onlyGivenNames x; clear_value (hx : x = _); clear hx) | apply Keeps.ite | split | dsimp -zeta only)

theorem State.dmaAbandon_keeps {s0 : State} (s : State) (core p : Nat) (m : Dma) (hS : Keeps s0 s) : Keeps s0 (State.dmaAbandon s core p m) := by
  unfold State.dmaAbandon
  with_reducible repeat' (first
    | assumption | intro _ | exact Keeps.refl _ | apply State.took_keeps | apply State.dmaLine_keeps | apply Keeps.upto
    | apply Keeps.uptoP | apply Keeps.ite | split | dsimp -zeta only)

theorem State.orphanRemote_keeps {s0 : State} (s : State) (k : Nat) (hS : Keeps s0 s) : Keeps s0 (State.orphanRemote s k) := by
  unfold State.orphanRemote
  with_reducible repeat' (first
    | assumption | intro _ | exact Keeps.refl _ | apply OptKeeps.some | apply OptKeeps.map | exact OptKeeps.none
    | (extract_lets +onlyGivenNames x; clear_value (hx : x = _); refine Keeps.via (s := s0) hx ?_ fun hk => ?_)
    | (extract_lets +onlyGivenNames x; clear_value (hx : x = _); refine Keeps.viaP (s := s0) hx ?_ fun hk => ?_)
    | (extract_lets +onlyGivenNames x; clear_value (hx : x = _); ((have hy : @Eq FabSt x _ := hx); clear hx; subst hy))
    | (extract_lets +onlyGivenNames x; clear_value (hx : x = _); refine OptKeeps.via (s := s0) hx ?_ fun hk => ?_)
    | (extract_lets +onlyGivenNames x; clear_value (hx : x = _); clear hx) | apply Keeps.ite | apply OptKeeps.ite | split
    | dsimp -zeta only | exact OptKeeps.get rfl (by assumption) | refine OptKeeps.get (by assumption) ?_
    | (refine Keeps.same ?_ rfl rfl rfl rfl rfl rfl rfl rfl))

theorem State.dropGrants_keeps {s0 : State} (s : State) (k : Nat) (b : Bank) (hS : Keeps s0 s) : Keeps s0 (State.dropGrants s k b) := by
  unfold State.dropGrants
  with_reducible repeat' (first
    | assumption | intro _ | exact Keeps.refl _
    | (extract_lets +onlyGivenNames x; clear_value (hx : x = _); refine Keeps.via (s := s0) hx ?_ fun hk => ?_)
    | (extract_lets +onlyGivenNames x; clear_value (hx : x = _); refine Keeps.viaP (s := s0) hx ?_ fun hk => ?_)
    | (extract_lets +onlyGivenNames x; clear_value (hx : x = _); ((have hy : @Eq SemSt x _ := hx); clear hx; subst hy))
    | (extract_lets +onlyGivenNames x; clear_value (hx : x = _); refine OptKeeps.via (s := s0) hx ?_ fun hk => ?_)
    | (extract_lets +onlyGivenNames x; clear_value (hx : x = _); clear hx) | dsimp -zeta only
    | (refine Keeps.same ?_ rfl rfl rfl rfl rfl rfl rfl rfl))

theorem State.freeBank_keeps {s0 : State} (s : State) (k : Nat) (hS : Keeps s0 s) : Keeps s0 (State.freeBank s k) := by
  unfold State.freeBank
  with_reducible repeat' (first
    | assumption | intro _ | exact Keeps.refl _ | apply State.semWithdraw_keeps | apply State.delBank_keeps | apply State.dmaAbandon_keeps
    | apply State.orphanRemote_keeps | apply State.dropGrants_keeps | apply Keeps.each | apply Keeps.eachP | apply OptKeeps.some
    | exact OptKeeps.none | (extract_lets +onlyGivenNames x; clear_value (hx : x = _); refine Keeps.via (s := s0) hx ?_ fun hk => ?_)
    | (extract_lets +onlyGivenNames x; clear_value (hx : x = _); refine Keeps.viaP (s := s0) hx ?_ fun hk => ?_)
    | (extract_lets +onlyGivenNames x; clear_value (hx : x = _); refine OptKeeps.via (s := s0) hx ?_ fun hk => ?_)
    | (extract_lets +onlyGivenNames x; clear_value (hx : x = _); clear hx) | split | dsimp -zeta only
    | exact OptKeeps.get rfl (by assumption) | refine OptKeeps.get (by assumption) ?_ | refine Keeps.ofMk (by assumption) ?_
    | (refine Keeps.same ?_ rfl rfl rfl rfl rfl rfl rfl rfl))

theorem State.rec__keeps {s0 : State} (s : State) (f : TickRec → TickRec) (hS : Keeps s0 s) : Keeps s0 (State.rec_ s f) := by
  unfold State.rec_
  with_reducible repeat' (first
    | assumption | (extract_lets +onlyGivenNames x; clear_value (hx : x = _); ((have hy : @Eq TickSt x _ := hx); clear hx; subst hy))
    | (refine Keeps.same ?_ rfl rfl rfl rfl rfl rfl rfl rfl))

theorem State.meterRun_keeps {s0 : State} (s : State) (n : Nat) (sl : Slot) (hS : Keeps s0 s) : Keeps s0 (State.meterRun s n sl) := by
  unfold State.meterRun
  with_reducible repeat' (first
    | assumption | apply State.meter_keeps | apply Keeps.ite)

theorem State.postOf_keeps {s0 : State} (s : State) (d : Desc) (hS : Keeps s0 s) : Keeps s0 (State.postOf s d) := by
  unfold State.postOf
  with_reducible repeat' (first
    | assumption | apply State.semPost_keeps | apply Keeps.ite)

theorem State.postClose_keeps {s0 : State} (s : State) (sl : Slot) (hS : Keeps s0 s) : Keeps s0 (State.postClose s sl) := by
  unfold State.postClose
  with_reducible repeat' (first
    | assumption | intro _ | exact Keeps.refl _ | apply State.advance_keeps | apply State.postOf_keeps | apply Keeps.ite | split
    | dsimp -zeta only)

theorem State.coreFaultAt_keeps {s0 : State} (s : State) (k pc code nib arg1 : Nat) (hS : Keeps s0 s) : Keeps s0 (State.coreFaultAt s k pc code nib arg1) := by
  unfold State.coreFaultAt
  with_reducible repeat' (first
    | assumption | intro _ | exact Keeps.refl _ | apply State.fault_keeps | apply State.countedFault_keeps | apply State.setPhase_keeps
    | apply State.markLost_keeps | apply State.freeBank_keeps | apply State.meterRun_keeps | apply OptKeeps.some | exact OptKeeps.none
    | (extract_lets +onlyGivenNames x; clear_value (hx : x = _); refine Keeps.via (s := s0) hx ?_ fun hk => ?_)
    | (extract_lets +onlyGivenNames x; clear_value (hx : x = _); refine Keeps.viaP (s := s0) hx ?_ fun hk => ?_)
    | (extract_lets +onlyGivenNames x; clear_value (hx : x = _); refine OptKeeps.via (s := s0) hx ?_ fun hk => ?_)
    | (extract_lets +onlyGivenNames x; clear_value (hx : x = _); clear hx) | apply Keeps.ite | apply OptKeeps.ite | split
    | dsimp -zeta only | exact OptKeeps.get rfl (by assumption) | refine OptKeeps.get (by assumption) ?_
    | refine Keeps.ofMk (by assumption) ?_ | (refine Keeps.same ?_ rfl rfl rfl rfl rfl rfl rfl rfl))

theorem State.coreFault_keeps {s0 : State} (s : State) (k code nib arg1 : Nat) (hS : Keeps s0 s) : Keeps s0 (State.coreFault s k code nib arg1) := by
  unfold State.coreFault
  with_reducible repeat' (first
    | assumption | intro _ | exact Keeps.refl _ | apply State.coreFaultAt_keeps | apply OptKeeps.some | exact OptKeeps.none
    | (extract_lets +onlyGivenNames x; clear_value (hx : x = _); refine Keeps.via (s := s0) hx ?_ fun hk => ?_)
    | (extract_lets +onlyGivenNames x; clear_value (hx : x = _); refine Keeps.viaP (s := s0) hx ?_ fun hk => ?_)
    | (extract_lets +onlyGivenNames x; clear_value (hx : x = _); refine OptKeeps.via (s := s0) hx ?_ fun hk => ?_)
    | (extract_lets +onlyGivenNames x; clear_value (hx : x = _); clear hx) | split | dsimp -zeta only
    | exact OptKeeps.get rfl (by assumption) | refine OptKeeps.get (by assumption) ?_ | refine Keeps.ofMk (by assumption) ?_
    | (refine Keeps.same ?_ rfl rfl rfl rfl rfl rfl rfl rfl))

theorem State.exitBank_keeps {s0 : State} (s : State) (k : Nat) (hS : Keeps s0 s) : Keeps s0 (State.exitBank s k) := by
  unfold State.exitBank
  with_reducible repeat' (first
    | assumption | intro _ | exact Keeps.refl _ | apply State.semPost_keeps | apply State.setPhase_keeps | apply State.delBank_keeps
    | apply State.dropGrants_keeps | apply State.rec__keeps | apply State.meterRun_keeps | apply State.postOf_keeps | apply Keeps.each
    | apply Keeps.eachP | apply OptKeeps.some | apply OptKeeps.map | exact OptKeeps.none
    | (extract_lets +onlyGivenNames x; clear_value (hx : x = _); refine Keeps.via (s := s0) hx ?_ fun hk => ?_)
    | (extract_lets +onlyGivenNames x; clear_value (hx : x = _); refine Keeps.viaP (s := s0) hx ?_ fun hk => ?_)
    | (extract_lets +onlyGivenNames x; clear_value (hx : x = _); refine OptKeeps.via (s := s0) hx ?_ fun hk => ?_)
    | (extract_lets +onlyGivenNames x; clear_value (hx : x = _); clear hx) | apply Keeps.ite | apply OptKeeps.ite | split
    | dsimp -zeta only | exact OptKeeps.get rfl (by assumption) | refine OptKeeps.get (by assumption) ?_
    | refine Keeps.ofMk (by assumption) ?_ | (refine Keeps.same ?_ rfl rfl rfl rfl rfl rfl rfl rfl))

theorem State.settle_keeps {s0 : State} (s : State) (k : Nat) (hS : Keeps s0 s) : Keeps s0 (State.settle s k) := by
  unfold State.settle
  with_reducible repeat' (first
    | assumption | intro _ | exact Keeps.refl _ | apply State.semPost_keeps | apply State.setBank_keeps | apply State.exitBank_keeps
    | apply OptKeeps.some | exact OptKeeps.none
    | (extract_lets +onlyGivenNames x; clear_value (hx : x = _); refine Keeps.via (s := s0) hx ?_ fun hk => ?_)
    | (extract_lets +onlyGivenNames x; clear_value (hx : x = _); refine Keeps.viaP (s := s0) hx ?_ fun hk => ?_)
    | (extract_lets +onlyGivenNames x; clear_value (hx : x = _); refine OptKeeps.via (s := s0) hx ?_ fun hk => ?_)
    | (extract_lets +onlyGivenNames x; clear_value (hx : x = _); clear hx) | apply Keeps.ite | apply OptKeeps.ite | split
    | dsimp -zeta only | exact OptKeeps.get rfl (by assumption) | refine OptKeeps.get (by assumption) ?_
    | refine Keeps.ofMk (by assumption) ?_ | (refine Keeps.same ?_ rfl rfl rfl rfl rfl rfl rfl rfl))

theorem State.semwTry_keeps {s0 : State} (s : State) (k q : Nat) (hS : Keeps s0 s) : Keeps s0 (State.semwTry s k q) := by
  unfold State.semwTry
  with_reducible repeat' (first
    | assumption | apply State.semDec_keeps | apply State.semRegister_keeps | apply State.setBank_keeps | apply Keeps.ite | split)

theorem State.launch_keeps {s0 : State} (s : State) (n i : Nat) (k : Nat) (hS : Keeps s0 s) : Keeps s0 (State.launch s n i k) := by
  unfold State.launch
  with_reducible repeat' (first
    | assumption | intro _ | exact Keeps.refl _ | apply State.modSlot_keeps | apply State.setBank_keeps | apply State.rec__keeps
    | apply State.coreFault_keeps | apply State.settle_keeps | apply State.semwTry_keeps | apply OptKeeps.some | exact OptKeeps.none
    | (extract_lets +onlyGivenNames x; clear_value (hx : x = _); refine Keeps.via (s := s0) hx ?_ fun hk => ?_)
    | (extract_lets +onlyGivenNames x; clear_value (hx : x = _); refine Keeps.viaP (s := s0) hx ?_ fun hk => ?_)
    | (extract_lets +onlyGivenNames x; clear_value (hx : x = _); refine OptKeeps.via (s := s0) hx ?_ fun hk => ?_)
    | (extract_lets +onlyGivenNames x; clear_value (hx : x = _); clear hx) | apply Keeps.ite | apply OptKeeps.ite | split
    | dsimp -zeta only | exact OptKeeps.get rfl (by assumption) | refine OptKeeps.get (by assumption) ?_
    | refine Keeps.ofMk (by assumption) ?_ | (refine Keeps.same ?_ rfl rfl rfl rfl rfl rfl rfl rfl))

theorem State.tryStartCore_keeps {s0 : State} (s : State) (n i : Nat) (carries : Bool) (hS : Keeps s0 s) : Keeps s0 (State.tryStartCore s n i carries) := by
  unfold State.tryStartCore
  with_reducible repeat' (first
    | assumption | apply State.semDec_keeps | apply State.semRegister_keeps | apply State.modSlot_keeps | apply State.setPhase_keeps
    | apply State.setBank_keeps | apply State.modBank_keeps | apply State.launch_keeps
    | (extract_lets +onlyGivenNames x; clear_value (hx : x = _); refine Keeps.via (s := s0) hx ?_ fun hk => ?_)
    | (extract_lets +onlyGivenNames x; clear_value (hx : x = _); clear hx) | apply Keeps.ite | split)

theorem State.haltCore_keeps {s0 : State} (s : State) (n i : Nat) (hS : Keeps s0 s) : Keeps s0 (State.haltCore s n i) := by
  unfold State.haltCore
  with_reducible repeat' (first
    | assumption | intro _ | exact Keeps.refl _ | apply State.inc_keeps | apply State.fault_keeps | apply State.semWithdraw_keeps
    | apply State.setPhase_keeps | apply State.markLost_keeps | apply State.freeBank_keeps | apply State.rec__keeps
    | apply State.meterRun_keeps | apply State.postClose_keeps | apply OptKeeps.some | exact OptKeeps.none
    | (extract_lets +onlyGivenNames x; clear_value (hx : x = _); refine Keeps.via (s := s0) hx ?_ fun hk => ?_)
    | (extract_lets +onlyGivenNames x; clear_value (hx : x = _); refine Keeps.viaP (s := s0) hx ?_ fun hk => ?_)
    | (extract_lets +onlyGivenNames x; clear_value (hx : x = _); refine OptKeeps.via (s := s0) hx ?_ fun hk => ?_)
    | (extract_lets +onlyGivenNames x; clear_value (hx : x = _); clear hx) | apply Keeps.ite | apply OptKeeps.ite | split
    | dsimp -zeta only | exact OptKeeps.get rfl (by assumption) | refine OptKeeps.get (by assumption) ?_
    | refine Keeps.ofMk (by assumption) ?_ | (refine Keeps.same ?_ rfl rfl rfl rfl rfl rfl rfl rfl))

theorem State.pauseCore_keeps {s0 : State} (s : State) (n i : Nat) (hS : Keeps s0 s) : Keeps s0 (State.pauseCore s n i) := by
  unfold State.pauseCore
  with_reducible repeat' (first
    | assumption | intro _ | exact Keeps.refl _ | apply State.inc_keeps | apply State.semWithdraw_keeps | apply State.modSlot_keeps
    | apply State.setPhase_keeps | apply State.setBank_keeps | apply State.delBank_keeps | apply State.rec__keeps
    | apply State.meterRun_keeps | apply OptKeeps.some | exact OptKeeps.none | apply hF | apply hG | apply hH
    | (extract_lets +onlyGivenNames x; clear_value (hx : x = _); refine Keeps.via (s := s0) hx ?_ fun hk => ?_)
    | (extract_lets +onlyGivenNames x; clear_value (hx : x = _); refine Keeps.viaP (s := s0) hx ?_ fun hk => ?_)
    | (extract_lets +onlyGivenNames x; clear_value (hx : x = _); refine OptKeeps.via (s := s0) hx ?_ fun hk => ?_)
    | (extract_lets +onlyGivenNames x; clear_value (hx : x = _); (fail_if_success have := hF); refine Keeps.viaFun (s := s0) hx ?_ fun hF => ?_)
    | (extract_lets +onlyGivenNames x; clear_value (hx : x = _); clear hx) | apply Keeps.ite | apply OptKeeps.ite | split
    | dsimp -zeta only | exact OptKeeps.get rfl (by assumption) | refine OptKeeps.get (by assumption) ?_
    | refine Keeps.ofMk (by assumption) ?_ | (refine Keeps.same ?_ rfl rfl rfl rfl rfl rfl rfl rfl))

theorem State.budgetCore_keeps {s0 : State} (s : State) (n i : Nat) (hS : Keeps s0 s) : Keeps s0 (State.budgetCore s n i) := by
  unfold State.budgetCore
  with_reducible repeat' (first
    | assumption | apply State.haltCore_keeps | apply State.pauseCore_keeps | apply Keeps.ite | split)

theorem State.grantBank_keeps {s0 : State} (s : State) (q k : Nat) (hS : Keeps s0 s) : Keeps s0 (State.grantBank s q k) := by
  unfold State.grantBank
  with_reducible repeat' (first
    | assumption | intro _ | exact Keeps.refl _ | apply State.semWithdraw_keeps | apply State.setBank_keeps | apply State.launch_keeps
    | apply OptKeeps.some | exact OptKeeps.none
    | (extract_lets +onlyGivenNames x; clear_value (hx : x = _); refine Keeps.via (s := s0) hx ?_ fun hk => ?_)
    | (extract_lets +onlyGivenNames x; clear_value (hx : x = _); refine Keeps.viaP (s := s0) hx ?_ fun hk => ?_)
    | (extract_lets +onlyGivenNames x; clear_value (hx : x = _); refine OptKeeps.via (s := s0) hx ?_ fun hk => ?_)
    | (extract_lets +onlyGivenNames x; clear_value (hx : x = _); clear hx) | apply Keeps.ite | apply OptKeeps.ite | split
    | dsimp -zeta only | exact OptKeeps.get rfl (by assumption) | refine OptKeeps.get (by assumption) ?_
    | refine Keeps.ofMk (by assumption) ?_ | (refine Keeps.same ?_ rfl rfl rfl rfl rfl rfl rfl rfl))

theorem State.grantCore_keeps {s0 : State} (s : State) (q n target : Nat) (d : Desc) (at_ : Nat) (hS : Keeps s0 s) : Keeps s0 (State.grantCore s q n target d at_) := by
  unfold State.grantCore
  with_reducible repeat' (first
    | assumption | intro _ | exact Keeps.refl _ | apply State.launch_keeps | apply State.grantBank_keeps | apply OptKeeps.some
    | exact OptKeeps.none | (extract_lets +onlyGivenNames x; clear_value (hx : x = _); refine Keeps.via (s := s0) hx ?_ fun hk => ?_)
    | (extract_lets +onlyGivenNames x; clear_value (hx : x = _); refine Keeps.viaP (s := s0) hx ?_ fun hk => ?_)
    | (extract_lets +onlyGivenNames x; clear_value (hx : x = _); refine OptKeeps.via (s := s0) hx ?_ fun hk => ?_)
    | (extract_lets +onlyGivenNames x; clear_value (hx : x = _); clear hx) | apply Keeps.ite | apply OptKeeps.ite | split
    | dsimp -zeta only | exact OptKeeps.get rfl (by assumption) | refine OptKeeps.get (by assumption) ?_
    | refine Keeps.ofMk (by assumption) ?_ | (refine Keeps.same ?_ rfl rfl rfl rfl rfl rfl rfl rfl))

end Sys2Proof.Machine
end

