-- ==== Sys2Proof/Laws/KeepsHostBase.lean ====
section
/-! SUPPORT. Every operation of Machine/HostBase.lean keeps what Keeps (Safety.lean) says. -/

namespace Sys2Proof.Machine

theorem State.setHq_keeps {s0 : State} (s : State) (q : Nat) (h : HQueue) (hS : Keeps s0 s) : Keeps s0 (State.setHq s q h) := by
  unfold State.setHq
  with_reducible repeat' (first
    | assumption | apply State.wr_keeps
    | (extract_lets +onlyGivenNames x; clear_value (hx : x = _); ((have hy : @Eq HqSt x _ := hx); clear hx; subst hy))
    | (refine Keeps.same ?_ rfl rfl rfl rfl rfl rfl rfl rfl))

theorem State.hqAccessFault_keeps {s0 : State} (s : State) (q addr : Nat) (hS : Keeps s0 s) : Keeps s0 (State.hqAccessFault s q addr) := by
  unfold State.hqAccessFault
  with_reducible repeat' (first
    | assumption | apply State.fault_keeps)

theorem State.hqStop_keeps {s0 : State} (s : State) (q : Nat) (hS : Keeps s0 s) : Keeps s0 (State.hqStop s q) := by
  unfold State.hqStop
  with_reducible repeat' (first
    | assumption | apply State.wr_keeps)

theorem State.hqRingFail_keeps {s0 : State} (s : State) (q addr : Nat) (hS : Keeps s0 s) : Keeps s0 (State.hqRingFail s q addr) := by
  unfold State.hqRingFail
  with_reducible repeat' (first
    | assumption | apply State.hqAccessFault_keeps | apply State.hqStop_keeps)

theorem State.cqPut_keeps {s0 : State} (s : State) (q rec_ : Nat) (hS : Keeps s0 s) : Keeps s0 (State.cqPut s q rec_) := by
  unfold State.cqPut
  with_reducible repeat' (first
    | assumption | apply State.hostWr_keeps | apply State.setHq_keeps | split)

theorem State.hMark_keeps {s0 : State} (s : State) (q i : Nat) (posted : Bool) (hS : Keeps s0 s) : Keeps s0 (State.hMark s q i posted) := by
  unfold State.hMark
  with_reducible repeat' (first
    | assumption | apply State.setHq_keeps)

theorem State.hDrop_keeps {s0 : State} (s : State) (q i : Nat) (hS : Keeps s0 s) : Keeps s0 (State.hDrop s q i) := by
  unfold State.hDrop
  with_reducible repeat' (first
    | assumption | apply State.setHq_keeps)

theorem State.hFinal_keeps {s0 : State} (s : State) (q : Nat) (c : HCmd) (status body : Nat) (hS : Keeps s0 s) : Keeps s0 (State.hFinal s q c status body) := by
  unfold State.hFinal
  with_reducible repeat' (first
    | assumption | apply State.cqPut_keeps | apply State.hDrop_keeps
    | (extract_lets +onlyGivenNames x; clear_value (hx : x = _); refine Keeps.via (s := s0) hx ?_ fun hk => ?_) | apply Keeps.ite)

theorem State.hqAdvance_keeps {s0 : State} (s : State) (q : Nat) (y0 : Nat) (hS : Keeps s0 s) : Keeps s0 (State.hqAdvance s q y0) := by
  induction y0 generalizing s with
  | zero =>
    unfold State.hqAdvance
    with_reducible repeat' (first
      | assumption)
  | succ z ih =>
    unfold State.hqAdvance
    with_reducible repeat' (first
      | assumption | apply ih | apply State.hFinal_keeps | split)

theorem State.hComplete_keeps {s0 : State} (s : State) (q : Nat) (c : HCmd) (status body : Nat) (hS : Keeps s0 s) : Keeps s0 (State.hComplete s q c status body) := by
  unfold State.hComplete
  with_reducible repeat' (first
    | assumption | apply State.hFinal_keeps | apply State.hqAdvance_keeps)

theorem State.hInterim_keeps {s0 : State} (s : State) (q : Nat) (c : HCmd) (status body : Nat) (hS : Keeps s0 s) : Keeps s0 (State.hInterim s q c status body) := by
  unfold State.hInterim
  with_reducible repeat' (first
    | assumption | apply State.inc_keeps | apply State.cqPut_keeps | apply Keeps.ite)

theorem withHostCmd_keeps {s0 : State} (op q i : Nat) (s : State) (body : HCmd → State) (hbody : ∀ a0, Keeps s0 (body a0)) (hS : Keeps s0 s) : Keeps s0 (withHostCmd op q i s body) := by
  unfold withHostCmd
  with_reducible repeat' (first
    | assumption | apply hbody | apply State.hqAdvance_keeps | apply Keeps.ite | split)

end Sys2Proof.Machine
end

