-- ==== Sys2Proof/Laws/KeepsOperands.lean ====
section
/-! SUPPORT. Every operation of Machine/Operands.lean keeps what Keeps (Safety.lean) says. -/

namespace Sys2Proof.Machine

/-- An instruction's result keeps what Keeps says, where it has a state. -/
def CKeeps (s : State) : CRes → Prop
  | .ok t _ _ => Keeps s t
  | .trap t _ _ _ => Keeps s t
  | .cut t _ _ _ => Keeps s t
  | .fault _ _ _ => True
  | .wait => True

theorem CKeeps.ok {s t : State} {w : List (CReg × Nat)} {f : Nat} (h : Keeps s t) : CKeeps s (.ok t w f) := h

theorem CKeeps.trap {s t : State} {c n a : Nat} (h : Keeps s t) : CKeeps s (.trap t c n a) := h

theorem CKeeps.cut {s t : State} {n f : Nat} {l : List Nat} (h : Keeps s t) : CKeeps s (.cut t n l f) := h

theorem CKeeps.fault {s : State} {c n a : Nat} : CKeeps s (.fault c n a) := trivial

theorem CKeeps.wait {s : State} : CKeeps s .wait := trivial

theorem CKeeps.ite {s : State} {t u : CRes} {c : Prop} [Decidable c] (h : CKeeps s t) (k : CKeeps s u) :
    CKeeps s (if c then t else u) := by
  split
  · exact h
  · exact k

theorem CKeeps.via {s : State} {x v : CRes} {P : Prop} (h : x = v) (k : CKeeps s v) (g : CKeeps s x → P) : P := g (h ▸ k)

theorem CKeeps.getOk {s t : State} {r : CRes} {w : List (CReg × Nat)} {f : Nat} (e : r = .ok t w f) (h : CKeeps s r) : Keeps s t := by
  subst e; exact h

theorem CKeeps.getTrap {s t : State} {r : CRes} {c n a : Nat} (e : r = .trap t c n a) (h : CKeeps s r) : Keeps s t := by subst e; exact h

theorem CKeeps.getCut {s t : State} {r : CRes} {n f : Nat} {l : List Nat} (e : r = .cut t n l f) (h : CKeeps s r) : Keeps s t := by
  subst e; exact h

theorem State.enqueue_keeps {s0 : State} (s : State) (k : Nat) (q : QOp) (hS : Keeps s0 s) : Keeps s0 (State.enqueue s k q) := by
  unfold State.enqueue
  with_reducible repeat' (first
    | assumption | intro _ | exact Keeps.refl _ | apply State.modBank_keeps
    | (extract_lets +onlyGivenNames x; clear_value (hx : x = _); refine Keeps.via (s := s0) hx ?_ fun hk => ?_)
    | (extract_lets +onlyGivenNames x; clear_value (hx : x = _); refine Keeps.viaP (s := s0) hx ?_ fun hk => ?_)
    | (extract_lets +onlyGivenNames x; clear_value (hx : x = _); refine OptKeeps.via (s := s0) hx ?_ fun hk => ?_)
    | (extract_lets +onlyGivenNames x; clear_value (hx : x = _); clear hx) | dsimp -zeta only
    | (refine Keeps.same ?_ rfl rfl rfl rfl rfl rfl rfl rfl))

theorem State.fetchBundle_keeps {s0 : State} (s : State) (k : Nat) (b : Bank) (hS : Keeps s0 s) : Keeps s0 (State.fetchBundle s k b) := by
  unfold State.fetchBundle
  with_reducible repeat' (first
    | assumption | intro _ | exact Keeps.refl _ | apply State.tsAccess_keeps | apply OptKeeps.some
    | (extract_lets +onlyGivenNames x; clear_value (hx : x = _); refine Keeps.via (s := s0) hx ?_ fun hk => ?_)
    | (extract_lets +onlyGivenNames x; clear_value (hx : x = _); refine Keeps.viaP (s := s0) hx ?_ fun hk => ?_)
    | (extract_lets +onlyGivenNames x; clear_value (hx : x = _); ((have hy : @Eq CoreSt x _ := hx); clear hx; subst hy))
    | (extract_lets +onlyGivenNames x; clear_value (hx : x = _); refine OptKeeps.via (s := s0) hx ?_ fun hk => ?_)
    | (extract_lets +onlyGivenNames x; clear_value (hx : x = _); clear hx) | apply Keeps.ite | apply OptKeeps.ite | split
    | dsimp -zeta only | exact OptKeeps.get rfl (by assumption) | refine OptKeeps.get (by assumption) ?_
    | (refine Keeps.same ?_ rfl rfl rfl rfl rfl rfl rfl rfl))

theorem State.upset_keeps {s0 : State} (s : State) (x : Issue) (hS : Keeps s0 s) : Keeps s0 (State.upset s x) := by
  unfold State.upset
  with_reducible repeat' (first
    | assumption | intro _ | exact Keeps.refl _ | apply Keeps.each | apply Keeps.eachP | apply Keeps.upto | apply Keeps.uptoP
    | (extract_lets +onlyGivenNames x; clear_value (hx : x = _); refine Keeps.via (s := s0) hx ?_ fun hk => ?_)
    | (extract_lets +onlyGivenNames x; clear_value (hx : x = _); refine Keeps.viaP (s := s0) hx ?_ fun hk => ?_)
    | (extract_lets +onlyGivenNames x; clear_value (hx : x = _); ((have hy : @Eq CoreSt x _ := hx); clear hx; subst hy))
    | (extract_lets +onlyGivenNames x; clear_value (hx : x = _); refine OptKeeps.via (s := s0) hx ?_ fun hk => ?_)
    | (extract_lets +onlyGivenNames x; clear_value (hx : x = _); clear hx) | apply Keeps.ite | split | dsimp -zeta only
    | (refine Keeps.same ?_ rfl rfl rfl rfl rfl rfl rfl rfl))

theorem State.endBundle_keeps {s0 : State} (s : State) (k : Nat) (hS : Keeps s0 s) : Keeps s0 (State.endBundle s k) := by
  unfold State.endBundle
  with_reducible repeat' (first
    | assumption | apply State.setBank_keeps | apply State.coreFault_keeps | apply State.settle_keeps | apply Keeps.ite | split)

theorem State.joinBundle_keeps {s0 : State} (s : State) (x : Issue) (k : Nat) (wr : List (CReg × Nat)) (dests : List CReg) (fl : Nat) (hS : Keeps s0 s) : Keeps s0 (State.joinBundle s x k wr dests fl) := by
  unfold State.joinBundle
  with_reducible repeat' (first
    | assumption | intro _ | exact Keeps.refl _ | apply State.wr_keeps | apply State.setBank_keeps | apply State.coreFault_keeps
    | apply State.endBundle_keeps | apply OptKeeps.some | apply OptKeeps.map | exact OptKeeps.none
    | (extract_lets +onlyGivenNames x; clear_value (hx : x = _); refine Keeps.via (s := s0) hx ?_ fun hk => ?_)
    | (extract_lets +onlyGivenNames x; clear_value (hx : x = _); refine Keeps.viaP (s := s0) hx ?_ fun hk => ?_)
    | (extract_lets +onlyGivenNames x; clear_value (hx : x = _); refine OptKeeps.via (s := s0) hx ?_ fun hk => ?_)
    | (extract_lets +onlyGivenNames x; clear_value (hx : x = _); clear hx) | apply Keeps.ite | apply OptKeeps.ite | split
    | dsimp -zeta only | exact OptKeeps.get rfl (by assumption) | refine OptKeeps.get (by assumption) ?_
    | refine Keeps.ofMk (by assumption) ?_ | (refine Keeps.same ?_ rfl rfl rfl rfl rfl rfl rfl rfl))

theorem State.toStop_keeps {s0 : State} (s : State) (x : Issue) (b : Bank) (hS : Keeps s0 s) : Keeps s0 (State.toStop s x b) := by
  unfold State.toStop
  with_reducible repeat' (first
    | assumption | intro _ | exact Keeps.refl _ | apply State.advance_keeps | apply OptKeeps.some | exact OptKeeps.none
    | (extract_lets +onlyGivenNames x; clear_value (hx : x = _); refine Keeps.via (s := s0) hx ?_ fun hk => ?_)
    | (extract_lets +onlyGivenNames x; clear_value (hx : x = _); refine Keeps.viaP (s := s0) hx ?_ fun hk => ?_)
    | (extract_lets +onlyGivenNames x; clear_value (hx : x = _); refine OptKeeps.via (s := s0) hx ?_ fun hk => ?_)
    | (extract_lets +onlyGivenNames x; clear_value (hx : x = _); clear hx) | split | dsimp -zeta only
    | exact OptKeeps.get rfl (by assumption) | refine OptKeeps.get (by assumption) ?_ | refine Keeps.ofMk (by assumption) ?_
    | (refine Keeps.same ?_ rfl rfl rfl rfl rfl rfl rfl rfl))

theorem coreIssue_keeps {s0 : State} (x : Issue) (w : Word) (op : Nat) (pred legal : Bool) (uses : List CReg) (s : State) (body : State → Nat → Bank → CRes) (dests : List CReg) (lines : State → Bank → List (Nat × Nat) := fun _ _ => []) (hbody : ∀ a0 a1 a2, Keeps s0 a0 → CKeeps s0 (body a0 a1 a2)) (hS : Keeps s0 s) : OutKeeps s0 (coreIssue x w op pred legal uses s body dests lines) := by
  unfold coreIssue
  with_reducible repeat' (first
    | assumption | intro _ | exact Keeps.refl _ | apply hbody | apply State.wr_keeps | apply State.fault_keeps
    | apply State.coreFault_keeps | apply State.enqueue_keeps | apply State.fetchBundle_keeps | apply State.upset_keeps
    | apply State.joinBundle_keeps | apply State.toStop_keeps | apply OptKeeps.some | apply OptKeeps.map | exact OptKeeps.none
    | apply CKeeps.ok | apply CKeeps.trap | apply CKeeps.cut | exact CKeeps.fault | exact CKeeps.wait | apply OutKeeps.next
    | (extract_lets +onlyGivenNames x; clear_value (hx : x = _); refine Keeps.via (s := s0) hx ?_ fun hk => ?_)
    | (extract_lets +onlyGivenNames x; clear_value (hx : x = _); refine Keeps.viaP (s := s0) hx ?_ fun hk => ?_)
    | (extract_lets +onlyGivenNames x; clear_value (hx : x = _); refine CKeeps.via (s := s0) hx ?_ fun hk => ?_)
    | (extract_lets +onlyGivenNames x; clear_value (hx : x = _); refine OptKeeps.via (s := s0) hx ?_ fun hk => ?_)
    | (extract_lets +onlyGivenNames x; clear_value (hx : x = _); clear hx) | apply Keeps.ite | apply OptKeeps.ite | apply OutKeeps.ite
    | apply CKeeps.ite | split | dsimp -zeta only | exact OptKeeps.get rfl (by assumption) | refine OptKeeps.get (by assumption) ?_
    | refine CKeeps.getOk (by assumption) ?_ | refine CKeeps.getTrap (by assumption) ?_ | refine CKeeps.getCut (by assumption) ?_
    | refine Keeps.ofMk (by assumption) ?_ | (refine Keeps.same ?_ rfl rfl rfl rfl rfl rfl rfl rfl))

end Sys2Proof.Machine
end

