-- ==== Sys2Proof/Laws/KeepsScalar.lean ====
section
/-! SUPPORT. Every operation of Machine/Scalar.lean keeps what Keeps (Safety.lean) says. -/

namespace Sys2Proof.Machine

theorem scalarOp_keeps {s0 : State} (op : Nat) (f : Nat → Nat → Nat) (x : Issue) (w : Word) (s : State) (hS : Keeps s0 s) : OutKeeps s0 (scalarOp op f x w s) := by
  unfold scalarOp
  with_reducible repeat' (first
    | assumption | intro _ | apply coreIssue_keeps | apply CKeeps.ok)

theorem execNop_keeps {s0 : State} (x : Issue) (w : Word) (s : State) (hS : Keeps s0 s) : OutKeeps s0 (execNop x w s) := by
  unfold execNop
  with_reducible repeat' (first
    | assumption | intro _ | apply coreIssue_keeps | apply CKeeps.ok)

theorem execAdd_keeps {s0 : State} (x : Issue) (w : Word) (s : State) (hS : Keeps s0 s) : OutKeeps s0 (execAdd x w s) := by
  unfold execAdd
  with_reducible repeat' (first
    | assumption | apply scalarOp_keeps)

theorem execSub_keeps {s0 : State} (x : Issue) (w : Word) (s : State) (hS : Keeps s0 s) : OutKeeps s0 (execSub x w s) := by
  unfold execSub
  with_reducible repeat' (first
    | assumption | apply scalarOp_keeps)

theorem execAnd_keeps {s0 : State} (x : Issue) (w : Word) (s : State) (hS : Keeps s0 s) : OutKeeps s0 (execAnd x w s) := by
  unfold execAnd
  with_reducible repeat' (first
    | assumption | apply scalarOp_keeps)

theorem execOr_keeps {s0 : State} (x : Issue) (w : Word) (s : State) (hS : Keeps s0 s) : OutKeeps s0 (execOr x w s) := by
  unfold execOr
  with_reducible repeat' (first
    | assumption | apply scalarOp_keeps)

theorem execXor_keeps {s0 : State} (x : Issue) (w : Word) (s : State) (hS : Keeps s0 s) : OutKeeps s0 (execXor x w s) := by
  unfold execXor
  with_reducible repeat' (first
    | assumption | apply scalarOp_keeps)

theorem execShl_keeps {s0 : State} (x : Issue) (w : Word) (s : State) (hS : Keeps s0 s) : OutKeeps s0 (execShl x w s) := by
  unfold execShl
  with_reducible repeat' (first
    | assumption | apply scalarOp_keeps)

theorem execShr_keeps {s0 : State} (x : Issue) (w : Word) (s : State) (hS : Keeps s0 s) : OutKeeps s0 (execShr x w s) := by
  unfold execShr
  with_reducible repeat' (first
    | assumption | apply scalarOp_keeps)

theorem execSra_keeps {s0 : State} (x : Issue) (w : Word) (s : State) (hS : Keeps s0 s) : OutKeeps s0 (execSra x w s) := by
  unfold execSra
  with_reducible repeat' (first
    | assumption | apply scalarOp_keeps)

theorem execMul_keeps {s0 : State} (x : Issue) (w : Word) (s : State) (hS : Keeps s0 s) : OutKeeps s0 (execMul x w s) := by
  unfold execMul
  with_reducible repeat' (first
    | assumption | apply scalarOp_keeps)

theorem execMin_keeps {s0 : State} (x : Issue) (w : Word) (s : State) (hS : Keeps s0 s) : OutKeeps s0 (execMin x w s) := by
  unfold execMin
  with_reducible repeat' (first
    | assumption | apply scalarOp_keeps)

theorem execMax_keeps {s0 : State} (x : Issue) (w : Word) (s : State) (hS : Keeps s0 s) : OutKeeps s0 (execMax x w s) := by
  unfold execMax
  with_reducible repeat' (first
    | assumption | apply scalarOp_keeps)

theorem execCmp_keeps {s0 : State} (x : Issue) (w : Word) (s : State) (hS : Keeps s0 s) : OutKeeps s0 (execCmp x w s) := by
  unfold execCmp
  with_reducible repeat' (first
    | assumption | intro _ | apply coreIssue_keeps | apply CKeeps.ok)

theorem execLi_keeps {s0 : State} (x : Issue) (w : Word) (s : State) (hS : Keeps s0 s) : OutKeeps s0 (execLi x w s) := by
  unfold execLi
  with_reducible repeat' (first
    | assumption | intro _ | apply coreIssue_keeps | apply CKeeps.ok)

theorem execLui_keeps {s0 : State} (x : Issue) (w : Word) (s : State) (hS : Keeps s0 s) : OutKeeps s0 (execLui x w s) := by
  unfold execLui
  with_reducible repeat' (first
    | assumption | intro _ | apply coreIssue_keeps | apply CKeeps.ok)

theorem execMova_keeps {s0 : State} (x : Issue) (w : Word) (s : State) (hS : Keeps s0 s) : OutKeeps s0 (execMova x w s) := by
  unfold execMova
  with_reducible repeat' (first
    | assumption | intro _ | apply coreIssue_keeps | apply CKeeps.ok)

theorem execMovs_keeps {s0 : State} (x : Issue) (w : Word) (s : State) (hS : Keeps s0 s) : OutKeeps s0 (execMovs x w s) := by
  unfold execMovs
  with_reducible repeat' (first
    | assumption | intro _ | apply coreIssue_keeps | apply CKeeps.ok)

theorem execAdda_keeps {s0 : State} (x : Issue) (w : Word) (s : State) (hS : Keeps s0 s) : OutKeeps s0 (execAdda x w s) := by
  unfold execAdda
  with_reducible repeat' (first
    | assumption | intro _ | apply coreIssue_keeps | apply CKeeps.ok)

theorem execJmp_keeps {s0 : State} (x : Issue) (w : Word) (s : State) (hS : Keeps s0 s) : OutKeeps s0 (execJmp x w s) := by
  unfold execJmp
  with_reducible repeat' (first
    | assumption | intro _ | apply State.setBank_keeps | apply coreIssue_keeps | apply CKeeps.ok)

theorem execJmpr_keeps {s0 : State} (x : Issue) (w : Word) (s : State) (hS : Keeps s0 s) : OutKeeps s0 (execJmpr x w s) := by
  unfold execJmpr
  with_reducible repeat' (first
    | assumption | intro _ | apply State.setBank_keeps | apply coreIssue_keeps | apply CKeeps.ok)

theorem execExit_keeps {s0 : State} (x : Issue) (w : Word) (s : State) (hS : Keeps s0 s) : OutKeeps s0 (execExit x w s) := by
  unfold execExit
  with_reducible repeat' (first
    | assumption | intro _ | apply State.setBank_keeps | apply coreIssue_keeps | apply CKeeps.ok)

theorem execCsrr_keeps {s0 : State} (x : Issue) (w : Word) (s : State) (hS : Keeps s0 s) : OutKeeps s0 (execCsrr x w s) := by
  unfold execCsrr
  with_reducible repeat' (first
    | assumption | intro _ | apply coreIssue_keeps | apply CKeeps.ok | exact CKeeps.fault | split)

theorem execCsrw_keeps {s0 : State} (x : Issue) (w : Word) (s : State) (hS : Keeps s0 s) : OutKeeps s0 (execCsrw x w s) := by
  unfold execCsrw
  with_reducible repeat' (first
    | assumption | intro _ | apply State.setBank_keeps | apply coreIssue_keeps | apply CKeeps.ok | exact CKeeps.fault | apply CKeeps.ite)

end Sys2Proof.Machine
end

