-- ==== Sys2Proof/Laws/KeepsVector.lean ====
section
/-! SUPPORT. Every operation of Machine/Vector.lean keeps what Keeps (Safety.lean) says. -/

namespace Sys2Proof.Machine

theorem vecIssue_keeps {s0 : State} (op : Nat) (x : Issue) (w : Word) (mask : Nat) (okFmt okSub : Bool) (uses : List CReg) (s : State) (f : State → Bank → Nat × Nat) (free : Nat) (hS : Keeps s0 s) : OutKeeps s0 (vecIssue op x w mask okFmt okSub uses s f free) := by
  unfold vecIssue
  with_reducible repeat' (first
    | assumption | intro _ | apply State.took_keeps | apply coreIssue_keeps | apply CKeeps.ok | exact CKeeps.fault
    | (extract_lets +onlyGivenNames x; clear_value (hx : x = _); clear hx) | apply CKeeps.ite)

theorem vec2_keeps {s0 : State} (op : Nat) (ok : Bool) (fl : Val → Val → Val) (int : Int → Int → Int) (cx : Int × Int → Int × Int → Int × Int) (x : Issue) (w : Word) (s : State) (hS : Keeps s0 s) : OutKeeps s0 (vec2 op ok fl int cx x w s) := by
  unfold vec2
  with_reducible repeat' (first
    | assumption | apply vecIssue_keeps)

theorem execVadd_keeps {s0 : State} (x : Issue) (w : Word) (s : State) (hS : Keeps s0 s) : OutKeeps s0 (execVadd x w s) := by
  unfold execVadd
  with_reducible repeat' (first
    | assumption | apply vec2_keeps)

theorem execVsub_keeps {s0 : State} (x : Issue) (w : Word) (s : State) (hS : Keeps s0 s) : OutKeeps s0 (execVsub x w s) := by
  unfold execVsub
  with_reducible repeat' (first
    | assumption | apply vec2_keeps)

theorem execVmul_keeps {s0 : State} (x : Issue) (w : Word) (s : State) (hS : Keeps s0 s) : OutKeeps s0 (execVmul x w s) := by
  unfold execVmul
  with_reducible repeat' (first
    | assumption | apply vec2_keeps)

theorem execVfma_keeps {s0 : State} (x : Issue) (w : Word) (s : State) (hS : Keeps s0 s) : OutKeeps s0 (execVfma x w s) := by
  unfold execVfma
  with_reducible repeat' (first
    | assumption | apply vecIssue_keeps)

theorem execVmin_keeps {s0 : State} (x : Issue) (w : Word) (s : State) (hS : Keeps s0 s) : OutKeeps s0 (execVmin x w s) := by
  unfold execVmin
  with_reducible repeat' (first
    | assumption | apply vec2_keeps)

theorem execVmax_keeps {s0 : State} (x : Issue) (w : Word) (s : State) (hS : Keeps s0 s) : OutKeeps s0 (execVmax x w s) := by
  unfold execVmax
  with_reducible repeat' (first
    | assumption | apply vec2_keeps)

theorem execVdiv_keeps {s0 : State} (x : Issue) (w : Word) (s : State) (hS : Keeps s0 s) : OutKeeps s0 (execVdiv x w s) := by
  unfold execVdiv
  with_reducible repeat' (first
    | assumption | apply vec2_keeps)

theorem vec1_keeps {s0 : State} (op mask : Nat) (okSub : Bool) (f : Nat → Nat × Nat) (x : Issue) (w : Word) (s : State) (hS : Keeps s0 s) : OutKeeps s0 (vec1 op mask okSub f x w s) := by
  unfold vec1
  with_reducible repeat' (first
    | assumption | apply vecIssue_keeps)

theorem execVsqrt_keeps {s0 : State} (x : Issue) (w : Word) (s : State) (hS : Keeps s0 s) : OutKeeps s0 (execVsqrt x w s) := by
  unfold execVsqrt
  with_reducible repeat' (first
    | assumption | apply vec1_keeps)

theorem execVfn_keeps {s0 : State} (x : Issue) (w : Word) (s : State) (hS : Keeps s0 s) : OutKeeps s0 (execVfn x w s) := by
  unfold execVfn
  with_reducible repeat' (first
    | assumption | apply vec1_keeps)

theorem execVcvt_keeps {s0 : State} (x : Issue) (w : Word) (s : State) (hS : Keeps s0 s) : OutKeeps s0 (execVcvt x w s) := by
  unfold execVcvt
  with_reducible repeat' (first
    | assumption | intro _ | apply State.took_keeps | apply coreIssue_keeps | apply CKeeps.ok | exact CKeeps.fault
    | (extract_lets +onlyGivenNames x; clear_value (hx : x = _); clear hx) | apply CKeeps.ite)

theorem execVcmp_keeps {s0 : State} (x : Issue) (w : Word) (s : State) (hS : Keeps s0 s) : OutKeeps s0 (execVcmp x w s) := by
  unfold execVcmp
  with_reducible repeat' (first
    | assumption | intro _ | apply coreIssue_keeps | apply CKeeps.ok | exact CKeeps.fault
    | (extract_lets +onlyGivenNames x; clear_value (hx : x = _); clear hx) | apply CKeeps.ite)

theorem execVsel_keeps {s0 : State} (x : Issue) (w : Word) (s : State) (hS : Keeps s0 s) : OutKeeps s0 (execVsel x w s) := by
  unfold execVsel
  with_reducible repeat' (first
    | assumption | apply vecIssue_keeps)

theorem execVred_keeps {s0 : State} (x : Issue) (w : Word) (s : State) (hS : Keeps s0 s) : OutKeeps s0 (execVred x w s) := by
  unfold execVred
  with_reducible repeat' (first
    | assumption | intro _ | exact Keeps.refl _ | apply State.took_keeps | apply State.fault_keeps | apply coreIssue_keeps
    | apply Keeps.foldl | apply Keeps.foldlP | apply OptKeeps.map | apply CKeeps.ok | exact CKeeps.fault | apply hF | apply hG | apply hH
    | (extract_lets +onlyGivenNames x; clear_value (hx : x = _); refine Keeps.via (s := s0) hx ?_ fun hk => ?_)
    | (extract_lets +onlyGivenNames x; clear_value (hx : x = _); refine Keeps.viaP (s := s0) hx ?_ fun hk => ?_)
    | (extract_lets +onlyGivenNames x; clear_value (hx : x = _); refine CKeeps.via (s := s0) hx ?_ fun hk => ?_)
    | (extract_lets +onlyGivenNames x; clear_value (hx : x = _); refine OptKeeps.via (s := s0) hx ?_ fun hk => ?_)
    | (extract_lets +onlyGivenNames x; clear_value (hx : x = _); (fail_if_success have := hF); refine Keeps.viaFunC (s := s0) hx ?_ fun hF => ?_)
    | (extract_lets +onlyGivenNames x; clear_value (hx : x = _); clear hx) | apply Keeps.ite | apply CKeeps.ite | split | dsimp -zeta only
    | refine CKeeps.getOk (by assumption) ?_ | refine CKeeps.getTrap (by assumption) ?_ | refine CKeeps.getCut (by assumption) ?_
    | refine Keeps.ofMk (by assumption) ?_ | (refine Keeps.same ?_ rfl rfl rfl rfl rfl rfl rfl rfl))

theorem execVbc_keeps {s0 : State} (x : Issue) (w : Word) (s : State) (hS : Keeps s0 s) : OutKeeps s0 (execVbc x w s) := by
  unfold execVbc
  with_reducible repeat' (first
    | assumption | apply vecIssue_keeps)

theorem execVlogic_keeps {s0 : State} (x : Issue) (w : Word) (s : State) (hS : Keeps s0 s) : OutKeeps s0 (execVlogic x w s) := by
  unfold execVlogic
  with_reducible repeat' (first
    | assumption | apply vecIssue_keeps)

theorem execVrng_keeps {s0 : State} (x : Issue) (w : Word) (s : State) (hS : Keeps s0 s) : OutKeeps s0 (execVrng x w s) := by
  unfold execVrng
  with_reducible repeat' (first
    | assumption | apply vecIssue_keeps)

theorem execVacr_keeps {s0 : State} (x : Issue) (w : Word) (s : State) (hS : Keeps s0 s) : OutKeeps s0 (execVacr x w s) := by
  unfold execVacr
  with_reducible repeat' (first
    | assumption | intro _ | exact Keeps.refl _ | apply State.fault_keeps | apply coreIssue_keeps | apply CKeeps.ok | exact CKeeps.fault
    | exact CKeeps.wait | (extract_lets +onlyGivenNames x; clear_value (hx : x = _); refine Keeps.via (s := s0) hx ?_ fun hk => ?_)
    | (extract_lets +onlyGivenNames x; clear_value (hx : x = _); refine Keeps.viaP (s := s0) hx ?_ fun hk => ?_)
    | (extract_lets +onlyGivenNames x; clear_value (hx : x = _); refine CKeeps.via (s := s0) hx ?_ fun hk => ?_)
    | (extract_lets +onlyGivenNames x; clear_value (hx : x = _); refine OptKeeps.via (s := s0) hx ?_ fun hk => ?_)
    | (extract_lets +onlyGivenNames x; clear_value (hx : x = _); clear hx) | apply Keeps.ite | apply CKeeps.ite | split | dsimp -zeta only
    | refine CKeeps.getOk (by assumption) ?_ | refine CKeeps.getTrap (by assumption) ?_ | refine CKeeps.getCut (by assumption) ?_)

theorem execVacw_keeps {s0 : State} (x : Issue) (w : Word) (s : State) (hS : Keeps s0 s) : OutKeeps s0 (execVacw x w s) := by
  unfold execVacw
  refine coreIssue_keeps _ _ _ _ _ _ _ _ _ _ (fun t k b ht => ?_) hS
  extract_lets core q a new m1 tile bad
  have hm : Mem.wf t.core.acc = true → Mem.wf m1 = true := fun w => Mem.wf_wrN a 1024 new w
  clear_value m1 bad
  split
  · exact CKeeps.fault
  · split
    · exact CKeeps.fault
    · split
      · exact CKeeps.wait
      · exact CKeeps.ok (Keeps.coreUpd ht (CoreSt.memOk_of id id hm id))

end Sys2Proof.Machine
end

