-- ==== Sys2Proof/Laws/KeepsMatrix.lean ====
section
/-! SUPPORT. Every operation of Machine/Matrix.lean keeps what Keeps (Safety.lean) says. -/

namespace Sys2Proof.Machine

theorem accPut_wf {m : Mem} (core nib t i n v : Nat) (h : Mem.wf m = true) : Mem.wf (accPut core nib t i n v m) = true :=
  Mem.wf_wrN _ _ _ h

theorem quadPut_wf {m : Mem} (core nib q i n v : Nat) (h : Mem.wf m = true) : Mem.wf (quadPut core nib q i n v m) = true := by
  unfold quadPut
  exact Mem.wf_upto (fun i m hm => accPut_wf _ _ _ _ _ _ hm) h

theorem pairPut_wf {m : Mem} (core nib q i n v : Nat) (h : Mem.wf m = true) : Mem.wf (pairPut core nib q i n v m) = true := by
  unfold pairPut
  exact Mem.wf_upto (fun i m hm => accPut_wf _ _ _ _ _ _ hm) h

/-- One row of a Nib's part of an NMM keeps the canonical form of the accumulators. -/
theorem State.nmmRow_wf (s : State) (core nib buf acc cls : Nat) (r : NlwRec) (copper zero : Bool) (anchor : Int) (af base stride sc i : Nat)
    (h : Mem.wf s.core.acc = true) : Mem.wf (s.nmmRow core nib buf acc cls r copper zero anchor af base stride sc i).1 = true := by
  unfold State.nmmRow
  refine Mem.wf_foldlP (fun st c hm => ?_) h
  dsimp only
  split
  · exact pairPut_wf _ _ _ _ _ _ (pairPut_wf _ _ _ _ _ _ hm)
  · split
    · split
      · exact quadPut_wf _ _ _ _ _ _ hm
      · exact accPut_wf _ _ _ _ _ _ hm
    · split
      · exact quadPut_wf _ _ _ _ _ _ hm
      · exact accPut_wf _ _ _ _ _ _ hm

/-- A line of a tile load keeps the canonical form of the weight buffers. -/
theorem State.nlwStore_wf (s : State) (core nib buf : Nat) (r : NlwRec) (j : Nat) (h : Mem.wf s.core.wbuf = true) :
    Mem.wf (s.nlwStore core nib buf r j) = true := by
  unfold State.nlwStore
  split
  · exact Mem.wf_each (fun i m hm => Mem.wf_wrN _ _ _ hm) h
  · exact Mem.wf_wrBytes _ _ h

theorem unitLoop_keeps {s0 : State} (stop : Option Nat) (f : State → Nat → List Nat → CRes × List Nat) (n i : Nat) (s : State)
    (sums : List Nat) (fl : Nat) (hf : ∀ t i l, Keeps s0 t → CKeeps s0 (f t i l).1) (h : Keeps s0 s) :
    CKeeps s0 (unitLoop stop f n i s sums fl) := by
  induction n generalizing i s sums fl with
  | zero => exact h
  | succ n ih =>
    unfold unitLoop
    have := hf s i sums h
    revert this
    split
    · exact fun _ => h
    · rcases (f s i sums).1 with _ | _ | _ | _ | _
      all_goals intro this
      all_goals first | exact ih _ _ _ _ this | exact h | exact this

theorem CRes.done_keeps {s0 : State} (r : CRes) (f : State → State) (hr : CKeeps s0 r) (hf : ∀ t, Keeps s0 t → Keeps s0 (f t)) :
    CKeeps s0 (CRes.done r f) := by
  unfold CRes.done
  split
  · exact CKeeps.ok (hf _ hr)
  · exact hr

theorem State.loadLine_keeps {s0 : State} (s : State) (core nib buf : Nat) (r : NlwRec) (j : Nat) (h : Keeps s0 s) : Keeps s0 (State.loadLine s core nib buf r j) :=
  Keeps.coreUpd h (CoreSt.memOk_of id (State.nlwStore_wf s core nib buf r j) id id)

theorem State.loadDone_keeps {s0 : State} (s : State) (core nib buf tag : Nat) (hS : Keeps s0 s) : Keeps s0 (State.loadDone s core nib buf tag) := by
  unfold State.loadDone
  with_reducible repeat' (first
    | assumption | intro _ | exact Keeps.refl _
    | (extract_lets +onlyGivenNames x; clear_value (hx : x = _); refine Keeps.via (s := s0) hx ?_ fun hk => ?_)
    | (extract_lets +onlyGivenNames x; clear_value (hx : x = _); refine Keeps.viaP (s := s0) hx ?_ fun hk => ?_)
    | (extract_lets +onlyGivenNames x; clear_value (hx : x = _); ((have hy : @Eq CoreSt x _ := hx); clear hx; subst hy))
    | (extract_lets +onlyGivenNames x; clear_value (hx : x = _); refine OptKeeps.via (s := s0) hx ?_ fun hk => ?_)
    | (extract_lets +onlyGivenNames x; clear_value (hx : x = _); clear hx) | dsimp -zeta only
    | (refine Keeps.same ?_ rfl rfl rfl rfl rfl rfl rfl rfl))

theorem State.loadWeightTile_keeps {s0 : State} (s : State) (core nib buf : Nat) (r : NlwRec) (tag : Nat) (hS : Keeps s0 s) : Keeps s0 (State.loadWeightTile s core nib buf r tag) := by
  unfold State.loadWeightTile
  with_reducible repeat' (first
    | assumption | intro _ | exact Keeps.refl _ | apply State.loadLine_keeps | apply State.loadDone_keeps | apply Keeps.upto
    | apply Keeps.uptoP | dsimp -zeta only)

theorem bodyNlw_keeps {s0 : State} (x : Issue) (w : Word) (z2 : Nat) (z3 : List Nat) (t : State) (k : Nat) (b : Bank) (hS : Keeps s0 t) : CKeeps s0 (bodyNlw x w z2 z3 t k b) := by
  unfold bodyNlw
  with_reducible repeat' (first
    | assumption | intro _ | exact Keeps.refl _ | apply State.fault_keeps | apply State.modBank_keeps | apply unitLoop_keeps
    | apply CRes.done_keeps | apply State.loadLine_keeps | apply State.loadDone_keeps | apply OptKeeps.some | exact OptKeeps.none
    | apply CKeeps.ok | exact CKeeps.fault | exact CKeeps.wait
    | (extract_lets +onlyGivenNames x; clear_value (hx : x = _); refine Keeps.via (s := s0) hx ?_ fun hk => ?_)
    | (extract_lets +onlyGivenNames x; clear_value (hx : x = _); refine Keeps.viaP (s := s0) hx ?_ fun hk => ?_)
    | (extract_lets +onlyGivenNames x; clear_value (hx : x = _); refine CKeeps.via (s := s0) hx ?_ fun hk => ?_)
    | (extract_lets +onlyGivenNames x; clear_value (hx : x = _); refine OptKeeps.via (s := s0) hx ?_ fun hk => ?_)
    | (extract_lets +onlyGivenNames x; clear_value (hx : x = _); clear hx) | apply Keeps.ite | apply OptKeeps.ite | apply CKeeps.ite
    | split | dsimp -zeta only | exact OptKeeps.get rfl (by assumption) | refine OptKeeps.get (by assumption) ?_
    | refine CKeeps.getOk (by assumption) ?_ | refine CKeeps.getTrap (by assumption) ?_ | refine CKeeps.getCut (by assumption) ?_
    | dsimp only | refine Keeps.ofMk (by assumption) ?_ | (refine Keeps.same ?_ rfl rfl rfl rfl rfl rfl rfl rfl))

theorem execNlw_keeps {s0 : State} (x : Issue) (w : Word) (s : State) (hS : Keeps s0 s) : OutKeeps s0 (execNlw x w s) := by
  unfold execNlw
  with_reducible repeat' (first
    | assumption | intro _ | exact Keeps.refl _ | apply coreIssue_keeps | apply bodyNlw_keeps | apply hF | apply hG | apply hH
    | dsimp -zeta only)

theorem State.zeroAccBytes_keeps {s0 : State} (s : State) (a0 a1 : Nat) (h : Keeps s0 s) : Keeps s0 (State.zeroAccBytes s a0 a1) :=
  Keeps.coreUpd h (CoreSt.memOk_of id id (Mem.wf_zero _ _) id)

theorem State.clearPoison_keeps {s0 : State} (s : State) (core nib a n i : Nat) (hS : Keeps s0 s) : Keeps s0 (State.clearPoison s core nib a n i) := by
  unfold State.clearPoison
  with_reducible repeat' (first
    | assumption | intro _ | exact Keeps.refl _ | apply Keeps.upto | apply Keeps.uptoP
    | (extract_lets +onlyGivenNames x; clear_value (hx : x = _); refine Keeps.via (s := s0) hx ?_ fun hk => ?_)
    | (extract_lets +onlyGivenNames x; clear_value (hx : x = _); refine Keeps.viaP (s := s0) hx ?_ fun hk => ?_)
    | (extract_lets +onlyGivenNames x; clear_value (hx : x = _); ((have hy : @Eq CoreSt x _ := hx); clear hx; subst hy))
    | (extract_lets +onlyGivenNames x; clear_value (hx : x = _); refine OptKeeps.via (s := s0) hx ?_ fun hk => ?_)
    | (extract_lets +onlyGivenNames x; clear_value (hx : x = _); clear hx) | dsimp -zeta only
    | (refine Keeps.same ?_ rfl rfl rfl rfl rfl rfl rfl rfl))

theorem State.zeroRow_keeps {s0 : State} (s : State) (core nib a n i : Nat) (hS : Keeps s0 s) : Keeps s0 (State.zeroRow s core nib a n i) := by
  unfold State.zeroRow
  with_reducible repeat' (first
    | assumption | intro _ | exact Keeps.refl _ | apply State.zeroAccBytes_keeps | apply Keeps.upto | apply Keeps.uptoP | dsimp -zeta only)

theorem State.setKind_keeps {s0 : State} (s : State) (core nib a n v : Nat) (hS : Keeps s0 s) : Keeps s0 (State.setKind s core nib a n v) := by
  unfold State.setKind
  with_reducible repeat' (first
    | assumption | (extract_lets +onlyGivenNames x; clear_value (hx : x = _); ((have hy : @Eq CoreSt x _ := hx); clear hx; subst hy))
    | (extract_lets +onlyGivenNames x; clear_value (hx : x = _); clear hx) | (refine Keeps.same ?_ rfl rfl rfl rfl rfl rfl rfl rfl))

theorem State.setAnchor_keeps {s0 : State} (s : State) (core nib q : Nat) (v : Int) (hS : Keeps s0 s) : Keeps s0 (State.setAnchor s core nib q v) := by
  unfold State.setAnchor
  with_reducible repeat' (first
    | assumption | (extract_lets +onlyGivenNames x; clear_value (hx : x = _); ((have hy : @Eq CoreSt x _ := hx); clear hx; subst hy))
    | (refine Keeps.same ?_ rfl rfl rfl rfl rfl rfl rfl rfl))

theorem State.reloads_keeps {s0 : State} (s : State) (core buf : Nat) (b : Bank) (nibs : List Nat) (hS : Keeps s0 s) : Keeps s0 (State.reloads s core buf b nibs) := by
  unfold State.reloads
  with_reducible repeat' (first
    | assumption | intro _ | apply State.loadWeightTile_keeps | apply Keeps.each | apply Keeps.ite | split)

theorem State.nmmOn_keeps {s0 : State} (s : State) (core nib buf acc cls : Nat) (r : NlwRec) (copper zero : Bool) (af base stride sc i : Nat)
    (h : Keeps s0 s) : Keeps s0 (State.nmmOn s core nib buf acc cls r copper zero af base stride sc i).1 :=
  Keeps.coreUpd h (CoreSt.memOk_of id id (State.nmmRow_wf s core nib buf acc cls r copper zero _ af base stride sc i) id)

theorem State.nmmStep_keeps {s0 : State} (s : State) (core nib buf : Nat) (b : Bank) (w : Word) (copper : Bool) (i flags : Nat) (hS : Keeps s0 s) : Keeps s0 (State.nmmStep s core nib buf b w copper i flags).1 := by
  unfold State.nmmStep
  with_reducible repeat' (first
    | assumption | intro _ | exact Keeps.refl _ | apply State.clearPoison_keeps | apply State.setKind_keeps | apply State.setAnchor_keeps
    | apply State.nmmOn_keeps | apply OptKeeps.some | exact OptKeeps.none
    | (extract_lets +onlyGivenNames x; clear_value (hx : x = _); refine Keeps.via (s := s0) hx ?_ fun hk => ?_)
    | (extract_lets +onlyGivenNames x; clear_value (hx : x = _); refine Keeps.viaP (s := s0) hx ?_ fun hk => ?_)
    | (extract_lets +onlyGivenNames x; clear_value (hx : x = _); refine OptKeeps.via (s := s0) hx ?_ fun hk => ?_)
    | (extract_lets +onlyGivenNames x; clear_value (hx : x = _); clear hx) | apply Keeps.ite | apply OptKeeps.ite | split
    | dsimp -zeta only | exact OptKeeps.get rfl (by assumption) | refine OptKeeps.get (by assumption) ?_
    | refine Keeps.ofMk (by assumption) ?_ | (refine Keeps.same ?_ rfl rfl rfl rfl rfl rfl rfl rfl))

theorem State.nmmRows_keeps {s0 : State} (s : State) (core buf : Nat) (b : Bank) (w : Word) (copper : Bool) (i : Nat) (hS : Keeps s0 s) : Keeps s0 (State.nmmRows s core buf b w copper i).1 := by
  unfold State.nmmRows
  with_reducible repeat' (first
    | assumption | intro _ | exact Keeps.refl _ | apply State.nmmStep_keeps | apply Keeps.foldl | apply Keeps.foldlP | dsimp -zeta only)

theorem bodyNmm_keeps {s0 : State} (x : Issue) (w : Word) (start : Nat) (z3 : List Nat) (t : State) (k : Nat) (b : Bank) (hS : Keeps s0 t) : CKeeps s0 (bodyNmm x w start z3 t k b) := by
  unfold bodyNmm
  with_reducible repeat' (first
    | assumption | intro _ | exact Keeps.refl _ | apply State.inc_keeps | apply State.fault_keeps | apply State.meter_keeps
    | apply unitLoop_keeps | apply CRes.done_keeps | apply State.reloads_keeps | apply State.nmmRows_keeps | apply OptKeeps.some
    | apply OptKeeps.map | exact OptKeeps.none | apply CKeeps.ok | apply CKeeps.trap | exact CKeeps.fault | exact CKeeps.wait
    | (extract_lets +onlyGivenNames x; clear_value (hx : x = _); refine Keeps.via (s := s0) hx ?_ fun hk => ?_)
    | (extract_lets +onlyGivenNames x; clear_value (hx : x = _); refine Keeps.viaP (s := s0) hx ?_ fun hk => ?_)
    | (extract_lets +onlyGivenNames x; clear_value (hx : x = _); ((have hy : @Eq CoreSt x _ := hx); clear hx; subst hy))
    | (extract_lets +onlyGivenNames x; clear_value (hx : x = _); refine CKeeps.via (s := s0) hx ?_ fun hk => ?_)
    | (extract_lets +onlyGivenNames x; clear_value (hx : x = _); refine OptKeeps.via (s := s0) hx ?_ fun hk => ?_)
    | (extract_lets +onlyGivenNames x; clear_value (hx : x = _); clear hx) | apply Keeps.ite | apply OptKeeps.ite | apply CKeeps.ite
    | split | dsimp -zeta only | exact OptKeeps.get rfl (by assumption) | refine OptKeeps.get (by assumption) ?_
    | refine CKeeps.getOk (by assumption) ?_ | refine CKeeps.getTrap (by assumption) ?_ | refine CKeeps.getCut (by assumption) ?_
    | dsimp only | refine Keeps.ofMk (by assumption) ?_ | (refine Keeps.same ?_ rfl rfl rfl rfl rfl rfl rfl rfl))

theorem execNmm_keeps {s0 : State} (x : Issue) (w : Word) (s : State) (hS : Keeps s0 s) : OutKeeps s0 (execNmm x w s) := by
  unfold execNmm
  with_reducible repeat' (first
    | assumption | intro _ | exact Keeps.refl _ | apply coreIssue_keeps | apply bodyNmm_keeps | apply hF | apply hG | apply hH
    | dsimp -zeta only)

theorem State.drainUnit_keeps {s0 : State} (s : State) (core nib kind : Nat) (b : Bank) (w : Word) (free u : Nat) (hS : Keeps s0 s) : Keeps s0 (State.drainUnit s core nib kind b w free u).1 := by
  unfold State.drainUnit
  with_reducible repeat' (first
    | assumption | intro _ | exact Keeps.refl _ | apply State.csWrite_keeps | apply State.zeroRow_keeps
    | (extract_lets +onlyGivenNames x; clear_value (hx : x = _); refine Keeps.via (s := s0) hx ?_ fun hk => ?_)
    | (extract_lets +onlyGivenNames x; clear_value (hx : x = _); refine Keeps.viaP (s := s0) hx ?_ fun hk => ?_)
    | (extract_lets +onlyGivenNames x; clear_value (hx : x = _); refine OptKeeps.via (s := s0) hx ?_ fun hk => ?_)
    | (extract_lets +onlyGivenNames x; clear_value (hx : x = _); clear hx) | apply Keeps.ite | split | dsimp -zeta only)

theorem bodyNdrn_keeps {s0 : State} (x : Issue) (w : Word) (start : Nat) (z3 : List Nat) (t : State) (k : Nat) (b : Bank) (hS : Keeps s0 t) : CKeeps s0 (bodyNdrn x w start z3 t k b) := by
  unfold bodyNdrn
  with_reducible repeat' (first
    | assumption | intro _ | exact Keeps.refl _ | apply State.took_keeps | apply State.fault_keeps | apply unitLoop_keeps
    | apply State.drainUnit_keeps | apply OptKeeps.some | apply OptKeeps.map | exact OptKeeps.none | apply CKeeps.ok | exact CKeeps.fault
    | exact CKeeps.wait | apply hF | apply hG | apply hH
    | (extract_lets +onlyGivenNames x; clear_value (hx : x = _); refine Keeps.via (s := s0) hx ?_ fun hk => ?_)
    | (extract_lets +onlyGivenNames x; clear_value (hx : x = _); refine Keeps.viaP (s := s0) hx ?_ fun hk => ?_)
    | (extract_lets +onlyGivenNames x; clear_value (hx : x = _); refine CKeeps.via (s := s0) hx ?_ fun hk => ?_)
    | (extract_lets +onlyGivenNames x; clear_value (hx : x = _); refine OptKeeps.via (s := s0) hx ?_ fun hk => ?_)
    | (extract_lets +onlyGivenNames x; clear_value (hx : x = _); (fail_if_success have := hF); refine Keeps.viaFun (s := s0) hx ?_ fun hF => ?_)
    | (extract_lets +onlyGivenNames x; clear_value (hx : x = _); (fail_if_success have := hG); refine Keeps.viaFun (s := s0) hx ?_ fun hG => ?_)
    | (extract_lets +onlyGivenNames x; clear_value (hx : x = _); (fail_if_success have := hH); refine Keeps.viaFun (s := s0) hx ?_ fun hH => ?_)
    | (extract_lets +onlyGivenNames x; clear_value (hx : x = _); (fail_if_success have := hF); refine Keeps.viaFunC (s := s0) hx ?_ fun hF => ?_)
    | (extract_lets +onlyGivenNames x; clear_value (hx : x = _); (fail_if_success have := hG); refine Keeps.viaFunC (s := s0) hx ?_ fun hG => ?_)
    | (extract_lets +onlyGivenNames x; clear_value (hx : x = _); (fail_if_success have := hH); refine Keeps.viaFunC (s := s0) hx ?_ fun hH => ?_)
    | (extract_lets +onlyGivenNames x; clear_value (hx : x = _); clear hx) | apply Keeps.ite | apply OptKeeps.ite | apply CKeeps.ite
    | split | dsimp -zeta only | exact OptKeeps.get rfl (by assumption) | refine OptKeeps.get (by assumption) ?_
    | refine CKeeps.getOk (by assumption) ?_ | refine CKeeps.getTrap (by assumption) ?_ | refine CKeeps.getCut (by assumption) ?_
    | dsimp only | refine Keeps.ofMk (by assumption) ?_ | (refine Keeps.same ?_ rfl rfl rfl rfl rfl rfl rfl rfl))

theorem execNdrn_keeps {s0 : State} (x : Issue) (w : Word) (s : State) (hS : Keeps s0 s) : OutKeeps s0 (execNdrn x w s) := by
  unfold execNdrn
  with_reducible repeat' (first
    | assumption | intro _ | exact Keeps.refl _ | apply coreIssue_keeps | apply bodyNdrn_keeps | apply hF | apply hG | apply hH
    | (extract_lets +onlyGivenNames x; clear_value (hx : x = _); refine Keeps.via (s := s0) hx ?_ fun hk => ?_)
    | (extract_lets +onlyGivenNames x; clear_value (hx : x = _); refine Keeps.viaP (s := s0) hx ?_ fun hk => ?_)
    | (extract_lets +onlyGivenNames x; clear_value (hx : x = _); refine OptKeeps.via (s := s0) hx ?_ fun hk => ?_)
    | (extract_lets +onlyGivenNames x; clear_value (hx : x = _); clear hx) | apply Keeps.ite | split | dsimp -zeta only)

theorem bodyNclr_keeps {s0 : State} (x : Issue) (w : Word) (start : Nat) (z3 : List Nat) (t : State) (k : Nat) (b : Bank) (hS : Keeps s0 t) : CKeeps s0 (bodyNclr x w start z3 t k b) := by
  unfold bodyNclr
  with_reducible repeat' (first
    | assumption | intro _ | exact Keeps.refl _ | apply State.fault_keeps | apply unitLoop_keeps | apply State.clearPoison_keeps
    | apply State.zeroRow_keeps | apply State.setKind_keeps | apply State.setAnchor_keeps | apply OptKeeps.map | apply CKeeps.ok
    | exact CKeeps.fault | exact CKeeps.wait
    | (extract_lets +onlyGivenNames x; clear_value (hx : x = _); refine Keeps.via (s := s0) hx ?_ fun hk => ?_)
    | (extract_lets +onlyGivenNames x; clear_value (hx : x = _); refine Keeps.viaP (s := s0) hx ?_ fun hk => ?_)
    | (extract_lets +onlyGivenNames x; clear_value (hx : x = _); refine CKeeps.via (s := s0) hx ?_ fun hk => ?_)
    | (extract_lets +onlyGivenNames x; clear_value (hx : x = _); refine OptKeeps.via (s := s0) hx ?_ fun hk => ?_)
    | (extract_lets +onlyGivenNames x; clear_value (hx : x = _); clear hx) | apply Keeps.ite | apply CKeeps.ite | split | dsimp -zeta only
    | refine CKeeps.getOk (by assumption) ?_ | refine CKeeps.getTrap (by assumption) ?_ | refine CKeeps.getCut (by assumption) ?_
    | dsimp only)

theorem execNclr_keeps {s0 : State} (x : Issue) (w : Word) (s : State) (hS : Keeps s0 s) : OutKeeps s0 (execNclr x w s) := by
  unfold execNclr
  with_reducible repeat' (first
    | assumption | intro _ | exact Keeps.refl _ | apply coreIssue_keeps | apply bodyNclr_keeps | dsimp -zeta only)

theorem State.vecLine_keeps {s0 : State} (s : State) (core src off j : Nat) (hS : Keeps s0 s) : Keeps s0 (State.vecLine s core src off j) := by
  unfold State.vecLine
  with_reducible repeat' (first
    | assumption | intro _ | exact Keeps.refl _
    | (extract_lets +onlyGivenNames x; clear_value (hx : x = _); ((have hy := memEq hx); clear hx; subst hy))
    | (extract_lets +onlyGivenNames x; clear_value (hx : x = _); ((have hy := memPairEq hx); clear hx; subst hy))
    | (extract_lets +onlyGivenNames x; clear_value (hx : x = _); refine Keeps.via (s := s0) hx ?_ fun hk => ?_)
    | (extract_lets +onlyGivenNames x; clear_value (hx : x = _); refine Keeps.viaP (s := s0) hx ?_ fun hk => ?_)
    | (extract_lets +onlyGivenNames x; clear_value (hx : x = _); ((have hy : @Eq CoreSt x _ := hx); clear hx; subst hy))
    | (extract_lets +onlyGivenNames x; clear_value (hx : x = _); refine OptKeeps.via (s := s0) hx ?_ fun hk => ?_)
    | (extract_lets +onlyGivenNames x; clear_value (hx : x = _); clear hx) | dsimp -zeta only
    | (refine Keeps.same ?_ rfl rfl rfl rfl rfl rfl rfl rfl)
    | (refine Keeps.coreUpd ?_ ?_; rotate_left; focus (apply CoreSt.memOk_of <;> (try exact id) <;> (intro _; repeat' (first | assumption | apply Mem.wf_zero | apply Mem.wf_wrBytes | apply Mem.wf_wrN | apply Mem.wf_wr | (apply State.nmmRow_wf) | split)))))

theorem State.vecDone_keeps {s0 : State} (s : State) (core tag : Nat) (hS : Keeps s0 s) : Keeps s0 (State.vecDone s core tag) := by
  unfold State.vecDone
  with_reducible repeat' (first
    | assumption | intro _ | exact Keeps.refl _
    | (extract_lets +onlyGivenNames x; clear_value (hx : x = _); refine Keeps.via (s := s0) hx ?_ fun hk => ?_)
    | (extract_lets +onlyGivenNames x; clear_value (hx : x = _); refine Keeps.viaP (s := s0) hx ?_ fun hk => ?_)
    | (extract_lets +onlyGivenNames x; clear_value (hx : x = _); ((have hy : @Eq CoreSt x _ := hx); clear hx; subst hy))
    | (extract_lets +onlyGivenNames x; clear_value (hx : x = _); refine OptKeeps.via (s := s0) hx ?_ fun hk => ?_)
    | (extract_lets +onlyGivenNames x; clear_value (hx : x = _); clear hx) | dsimp -zeta only
    | (refine Keeps.same ?_ rfl rfl rfl rfl rfl rfl rfl rfl))

theorem State.loadVec_keeps {s0 : State} (s : State) (core : Nat) (src off len tag : Nat) (hS : Keeps s0 s) : Keeps s0 (State.loadVec s core src off len tag) := by
  unfold State.loadVec
  with_reducible repeat' (first
    | assumption | intro _ | exact Keeps.refl _ | apply State.vecLine_keeps | apply State.vecDone_keeps | apply Keeps.upto
    | apply Keeps.uptoP | dsimp -zeta only)

theorem bodyHlv_keeps {s0 : State} (x : Issue) (w : Word) (z2 : Nat) (z3 : List Nat) (t : State) (k : Nat) (b : Bank) (hS : Keeps s0 t) : CKeeps s0 (bodyHlv x w z2 z3 t k b) := by
  unfold bodyHlv
  with_reducible repeat' (first
    | assumption | intro _ | exact Keeps.refl _ | apply State.fault_keeps | apply State.modBank_keeps | apply unitLoop_keeps
    | apply CRes.done_keeps | apply State.vecLine_keeps | apply State.vecDone_keeps | apply OptKeeps.some | apply CKeeps.ok
    | exact CKeeps.fault | exact CKeeps.wait
    | (extract_lets +onlyGivenNames x; clear_value (hx : x = _); refine Keeps.via (s := s0) hx ?_ fun hk => ?_)
    | (extract_lets +onlyGivenNames x; clear_value (hx : x = _); refine Keeps.viaP (s := s0) hx ?_ fun hk => ?_)
    | (extract_lets +onlyGivenNames x; clear_value (hx : x = _); refine CKeeps.via (s := s0) hx ?_ fun hk => ?_)
    | (extract_lets +onlyGivenNames x; clear_value (hx : x = _); refine OptKeeps.via (s := s0) hx ?_ fun hk => ?_)
    | (extract_lets +onlyGivenNames x; clear_value (hx : x = _); clear hx) | apply Keeps.ite | apply OptKeeps.ite | apply CKeeps.ite
    | split | dsimp -zeta only | exact OptKeeps.get rfl (by assumption) | refine OptKeeps.get (by assumption) ?_
    | refine CKeeps.getOk (by assumption) ?_ | refine CKeeps.getTrap (by assumption) ?_ | refine CKeeps.getCut (by assumption) ?_
    | dsimp only | (refine Keeps.same ?_ rfl rfl rfl rfl rfl rfl rfl rfl))

theorem execHlv_keeps {s0 : State} (x : Issue) (w : Word) (s : State) (hS : Keeps s0 s) : OutKeeps s0 (execHlv x w s) := by
  unfold execHlv
  with_reducible repeat' (first
    | assumption | intro _ | exact Keeps.refl _ | apply coreIssue_keeps | apply bodyHlv_keeps | apply hF | apply hG | apply hH
    | dsimp -zeta only)

theorem State.countLines_keeps {s0 : State} (s : State) (x : Issue) (n : Nat) (hS : Keeps s0 s) : Keeps s0 (State.countLines s x n) := by
  unfold State.countLines
  with_reducible repeat' (first
    | assumption | apply State.inc_keeps
    | (extract_lets +onlyGivenNames x; clear_value (hx : x = _); ((have hy : @Eq CoreSt x _ := hx); clear hx; subst hy))
    | (refine Keeps.same ?_ rfl rfl rfl rfl rfl rfl rfl rfl))

theorem State.hmvCount_keeps {s0 : State} (s : State) (x : Issue) (p wa sa scb : Nat) (hS : Keeps s0 s) : Keeps s0 (State.hmvCount s x p wa sa scb) := by
  unfold State.hmvCount
  with_reducible repeat' (first
    | assumption | intro _ | exact Keeps.refl _ | apply State.meter_keeps | apply State.tsAccess_keeps | apply State.meshRecords_keeps
    | apply State.countLines_keeps
    | (extract_lets +onlyGivenNames x; clear_value (hx : x = _); refine Keeps.via (s := s0) hx ?_ fun hk => ?_)
    | (extract_lets +onlyGivenNames x; clear_value (hx : x = _); refine Keeps.viaP (s := s0) hx ?_ fun hk => ?_)
    | (extract_lets +onlyGivenNames x; clear_value (hx : x = _); refine OptKeeps.via (s := s0) hx ?_ fun hk => ?_)
    | (extract_lets +onlyGivenNames x; clear_value (hx : x = _); clear hx) | apply Keeps.ite | split | dsimp -zeta only)

theorem State.hmvUnit_keeps {s0 : State} (u : State) (x : Issue) (w : Word) (core : Nat) (b : Bank) (shape : Nat × Nat) (i : Nat) (sums : List Nat) (hS : Keeps s0 u) : CKeeps s0 (State.hmvUnit u x w core b shape i sums).1 := by
  unfold State.hmvUnit
  with_reducible repeat' (first
    | assumption | intro _ | exact Keeps.refl _ | apply State.fault_keeps | apply State.countPoison_keeps | apply State.csWrite_keeps
    | apply State.hmvCount_keeps | apply Keeps.foldl | apply Keeps.foldlP | apply OptKeeps.map | apply CKeeps.ok | apply CKeeps.trap
    | exact CKeeps.fault | (extract_lets +onlyGivenNames x; clear_value (hx : x = _); refine Keeps.via (s := s0) hx ?_ fun hk => ?_)
    | (extract_lets +onlyGivenNames x; clear_value (hx : x = _); refine Keeps.viaP (s := s0) hx ?_ fun hk => ?_)
    | (extract_lets +onlyGivenNames x; clear_value (hx : x = _); ((have hy : @Eq CoreSt x _ := hx); clear hx; subst hy))
    | (extract_lets +onlyGivenNames x; clear_value (hx : x = _); refine CKeeps.via (s := s0) hx ?_ fun hk => ?_)
    | (extract_lets +onlyGivenNames x; clear_value (hx : x = _); refine OptKeeps.via (s := s0) hx ?_ fun hk => ?_)
    | (extract_lets +onlyGivenNames x; clear_value (hx : x = _); clear hx) | apply Keeps.ite | apply CKeeps.ite | split | dsimp -zeta only
    | refine CKeeps.getOk (by assumption) ?_ | refine CKeeps.getTrap (by assumption) ?_ | refine CKeeps.getCut (by assumption) ?_
    | dsimp only | (refine Keeps.same ?_ rfl rfl rfl rfl rfl rfl rfl rfl))

theorem bodyHmv_keeps {s0 : State} (x : Issue) (w : Word) (start : Nat) (sums : List Nat) (t : State) (k : Nat) (b : Bank) (hS : Keeps s0 t) : CKeeps s0 (bodyHmv x w start sums t k b) := by
  unfold bodyHmv
  with_reducible repeat' (first
    | assumption | intro _ | exact Keeps.refl _ | apply State.fault_keeps | apply unitLoop_keeps | apply State.loadVec_keeps
    | apply State.hmvUnit_keeps | apply OptKeeps.some | exact OptKeeps.none | apply CKeeps.ok | exact CKeeps.fault | exact CKeeps.wait
    | (extract_lets +onlyGivenNames x; clear_value (hx : x = _); refine Keeps.via (s := s0) hx ?_ fun hk => ?_)
    | (extract_lets +onlyGivenNames x; clear_value (hx : x = _); refine Keeps.viaP (s := s0) hx ?_ fun hk => ?_)
    | (extract_lets +onlyGivenNames x; clear_value (hx : x = _); refine CKeeps.via (s := s0) hx ?_ fun hk => ?_)
    | (extract_lets +onlyGivenNames x; clear_value (hx : x = _); refine OptKeeps.via (s := s0) hx ?_ fun hk => ?_)
    | (extract_lets +onlyGivenNames x; clear_value (hx : x = _); clear hx) | apply Keeps.ite | apply OptKeeps.ite | apply CKeeps.ite
    | split | dsimp -zeta only | exact OptKeeps.get rfl (by assumption) | refine OptKeeps.get (by assumption) ?_
    | refine CKeeps.getOk (by assumption) ?_ | refine CKeeps.getTrap (by assumption) ?_ | refine CKeeps.getCut (by assumption) ?_
    | dsimp only | refine Keeps.ofMk (by assumption) ?_ | (refine Keeps.same ?_ rfl rfl rfl rfl rfl rfl rfl rfl))

theorem execHmv_keeps {s0 : State} (x : Issue) (w : Word) (s : State) (hS : Keeps s0 s) : OutKeeps s0 (execHmv x w s) := by
  unfold execHmv
  with_reducible repeat' (first
    | assumption | intro _ | exact Keeps.refl _ | apply coreIssue_keeps | apply bodyHmv_keeps | apply OptKeeps.map | apply hF | apply hG
    | apply hH | dsimp -zeta only)

end Sys2Proof.Machine
end

