-- ==== Sys2Proof/Laws/KeepsCoreMem.lean ====
section
/-! SUPPORT. Every operation of Machine/CoreMem.lean keeps what Keeps (Safety.lean) says. -/

namespace Sys2Proof.Machine

theorem storeAccess_keeps {s0 : State} (x : Issue) (read : Bool) (al n a : Nat) (t : State) (b : Bank) (body : CRes) (hbody : CKeeps s0 body) (hS : Keeps s0 t) : CKeeps s0 (storeAccess x read al n a t b body) := by
  unfold storeAccess
  with_reducible repeat' (first
    | assumption | exact CKeeps.fault | exact CKeeps.wait | (extract_lets +onlyGivenNames x; clear_value (hx : x = _); clear hx)
    | apply CKeeps.ite)

theorem lIssue_keeps {s0 : State} (op size : Nat) (pred legal : Bool) (regs : List CReg) (reg : List CReg) (x : Issue) (w : Word) (s : State) (body : Issue → Word → State → Nat → Bank → CRes) (hbody : ∀ a0 a1 a2 a3 a4, Keeps s0 a2 → CKeeps s0 (body a0 a1 a2 a3 a4)) (hS : Keeps s0 s) : OutKeeps s0 (lIssue op size pred legal regs reg x w s body) := by
  unfold lIssue
  with_reducible repeat' (first
    | assumption | intro _ | exact Keeps.refl _ | apply hbody | apply coreIssue_keeps | apply hF | apply hG | apply hH | apply Keeps.ite
    | split | dsimp -zeta only)

theorem bodyVld_keeps {s0 : State} (x : Issue) (w : Word) (t : State) (k : Nat) (b : Bank) (hS : Keeps s0 t) : CKeeps s0 (bodyVld x w t k b) := by
  unfold bodyVld
  with_reducible repeat' (first
    | assumption | intro _ | exact Keeps.refl _ | apply storeAccess_keeps | apply CKeeps.ok
    | (extract_lets +onlyGivenNames x; clear_value (hx : x = _); refine Keeps.via (s := s0) hx ?_ fun hk => ?_)
    | (extract_lets +onlyGivenNames x; clear_value (hx : x = _); refine Keeps.viaP (s := s0) hx ?_ fun hk => ?_)
    | (extract_lets +onlyGivenNames x; clear_value (hx : x = _); refine CKeeps.via (s := s0) hx ?_ fun hk => ?_)
    | (extract_lets +onlyGivenNames x; clear_value (hx : x = _); refine OptKeeps.via (s := s0) hx ?_ fun hk => ?_)
    | (extract_lets +onlyGivenNames x; clear_value (hx : x = _); clear hx) | dsimp -zeta only | refine CKeeps.getOk (by assumption) ?_
    | refine CKeeps.getTrap (by assumption) ?_ | refine CKeeps.getCut (by assumption) ?_)

theorem execVld_keeps {s0 : State} (x : Issue) (w : Word) (s : State) (hS : Keeps s0 s) : OutKeeps s0 (execVld x w s) := by
  unfold execVld
  with_reducible repeat' (first
    | assumption | intro _ | exact Keeps.refl _ | apply lIssue_keeps | apply bodyVld_keeps | dsimp -zeta only)

theorem bodyVst_keeps {s0 : State} (x : Issue) (w : Word) (t : State) (k : Nat) (b : Bank) (hS : Keeps s0 t) : CKeeps s0 (bodyVst x w t k b) := by
  unfold bodyVst
  with_reducible repeat' (first
    | assumption | intro _ | exact Keeps.refl _ | apply State.csWrite_keeps | apply storeAccess_keeps | apply Keeps.upto
    | apply Keeps.uptoP | apply CKeeps.ok
    | (extract_lets +onlyGivenNames x; clear_value (hx : x = _); refine Keeps.via (s := s0) hx ?_ fun hk => ?_)
    | (extract_lets +onlyGivenNames x; clear_value (hx : x = _); refine Keeps.viaP (s := s0) hx ?_ fun hk => ?_)
    | (extract_lets +onlyGivenNames x; clear_value (hx : x = _); refine CKeeps.via (s := s0) hx ?_ fun hk => ?_)
    | (extract_lets +onlyGivenNames x; clear_value (hx : x = _); refine OptKeeps.via (s := s0) hx ?_ fun hk => ?_)
    | (extract_lets +onlyGivenNames x; clear_value (hx : x = _); clear hx) | apply Keeps.ite | apply CKeeps.ite | split | dsimp -zeta only
    | refine CKeeps.getOk (by assumption) ?_ | refine CKeeps.getTrap (by assumption) ?_ | refine CKeeps.getCut (by assumption) ?_)

theorem execVst_keeps {s0 : State} (x : Issue) (w : Word) (s : State) (hS : Keeps s0 s) : OutKeeps s0 (execVst x w s) := by
  unfold execVst
  with_reducible repeat' (first
    | assumption | intro _ | exact Keeps.refl _ | apply lIssue_keeps | apply bodyVst_keeps | dsimp -zeta only)

theorem bodyLds_keeps {s0 : State} (x : Issue) (w : Word) (t : State) (k : Nat) (b : Bank) (hS : Keeps s0 t) : CKeeps s0 (bodyLds x w t k b) := by
  unfold bodyLds
  with_reducible repeat' (first
    | assumption | intro _ | exact Keeps.refl _ | apply storeAccess_keeps | apply CKeeps.ok
    | (extract_lets +onlyGivenNames x; clear_value (hx : x = _); refine Keeps.via (s := s0) hx ?_ fun hk => ?_)
    | (extract_lets +onlyGivenNames x; clear_value (hx : x = _); refine Keeps.viaP (s := s0) hx ?_ fun hk => ?_)
    | (extract_lets +onlyGivenNames x; clear_value (hx : x = _); refine CKeeps.via (s := s0) hx ?_ fun hk => ?_)
    | (extract_lets +onlyGivenNames x; clear_value (hx : x = _); refine OptKeeps.via (s := s0) hx ?_ fun hk => ?_)
    | (extract_lets +onlyGivenNames x; clear_value (hx : x = _); clear hx) | dsimp -zeta only | refine CKeeps.getOk (by assumption) ?_
    | refine CKeeps.getTrap (by assumption) ?_ | refine CKeeps.getCut (by assumption) ?_)

theorem execLds_keeps {s0 : State} (x : Issue) (w : Word) (s : State) (hS : Keeps s0 s) : OutKeeps s0 (execLds x w s) := by
  unfold execLds
  with_reducible repeat' (first
    | assumption | intro _ | exact Keeps.refl _ | apply lIssue_keeps | apply bodyLds_keeps | dsimp -zeta only)

theorem bodySts_keeps {s0 : State} (x : Issue) (w : Word) (t : State) (k : Nat) (b : Bank) (hS : Keeps s0 t) : CKeeps s0 (bodySts x w t k b) := by
  unfold bodySts
  with_reducible repeat' (first
    | assumption | intro _ | exact Keeps.refl _ | apply State.csWrite_keeps | apply storeAccess_keeps | apply CKeeps.ok
    | (extract_lets +onlyGivenNames x; clear_value (hx : x = _); refine Keeps.via (s := s0) hx ?_ fun hk => ?_)
    | (extract_lets +onlyGivenNames x; clear_value (hx : x = _); refine Keeps.viaP (s := s0) hx ?_ fun hk => ?_)
    | (extract_lets +onlyGivenNames x; clear_value (hx : x = _); refine CKeeps.via (s := s0) hx ?_ fun hk => ?_)
    | (extract_lets +onlyGivenNames x; clear_value (hx : x = _); refine OptKeeps.via (s := s0) hx ?_ fun hk => ?_)
    | (extract_lets +onlyGivenNames x; clear_value (hx : x = _); clear hx) | dsimp -zeta only | refine CKeeps.getOk (by assumption) ?_
    | refine CKeeps.getTrap (by assumption) ?_ | refine CKeeps.getCut (by assumption) ?_)

theorem execSts_keeps {s0 : State} (x : Issue) (w : Word) (s : State) (hS : Keeps s0 s) : OutKeeps s0 (execSts x w s) := by
  unfold execSts
  with_reducible repeat' (first
    | assumption | intro _ | exact Keeps.refl _ | apply lIssue_keeps | apply bodySts_keeps | dsimp -zeta only)

theorem bodyDma_keeps {s0 : State} (x : Issue) (w : Word) (t : State) (k : Nat) (b : Bank) (hS : Keeps s0 t) : CKeeps s0 (bodyDma x w t k b) := by
  unfold bodyDma
  with_reducible repeat' (first
    | assumption | intro _ | exact Keeps.refl _ | apply State.fault_keeps | apply State.semPost_keeps | apply State.modBank_keeps
    | apply OptKeeps.some | exact OptKeeps.none | apply CKeeps.ok | exact CKeeps.fault | exact CKeeps.wait | apply hF | apply hG
    | apply hH | (extract_lets +onlyGivenNames x; clear_value (hx : x = _); refine Keeps.via (s := s0) hx ?_ fun hk => ?_)
    | (extract_lets +onlyGivenNames x; clear_value (hx : x = _); refine Keeps.viaP (s := s0) hx ?_ fun hk => ?_)
    | (extract_lets +onlyGivenNames x; clear_value (hx : x = _); ((have hy : @Eq SemSt x _ := hx); clear hx; subst hy))
    | (extract_lets +onlyGivenNames x; clear_value (hx : x = _); refine CKeeps.via (s := s0) hx ?_ fun hk => ?_)
    | (extract_lets +onlyGivenNames x; clear_value (hx : x = _); refine OptKeeps.via (s := s0) hx ?_ fun hk => ?_)
    | (extract_lets +onlyGivenNames x; clear_value (hx : x = _); clear hx) | apply Keeps.ite | apply OptKeeps.ite | apply CKeeps.ite
    | split | dsimp -zeta only | exact OptKeeps.get rfl (by assumption) | refine OptKeeps.get (by assumption) ?_
    | refine CKeeps.getOk (by assumption) ?_ | refine CKeeps.getTrap (by assumption) ?_ | refine CKeeps.getCut (by assumption) ?_
    | refine Keeps.ofMk (by assumption) ?_ | (refine Keeps.same ?_ rfl rfl rfl rfl rfl rfl rfl rfl))

theorem execDma_keeps {s0 : State} (x : Issue) (w : Word) (s : State) (hS : Keeps s0 s) : OutKeeps s0 (execDma x w s) := by
  unfold execDma
  with_reducible repeat' (first
    | assumption | intro _ | exact Keeps.refl _ | apply coreIssue_keeps | apply bodyDma_keeps | apply OptKeeps.map | apply hF | apply hG
    | apply hH | dsimp -zeta only)

theorem State.dmaFinish_keeps {s0 : State} (s : State) (k : Nat) (hS : Keeps s0 s) : Keeps s0 (State.dmaFinish s k) := by
  unfold State.dmaFinish
  with_reducible repeat' (first
    | assumption | intro _ | exact Keeps.refl _ | apply State.fault_keeps | apply State.tsAccess_keeps | apply State.meshRecords_keeps
    | apply State.semPost_keeps | apply State.overwrite_keeps | apply State.modBank_keeps | apply State.dmaLine_keeps | apply Keeps.upto
    | apply Keeps.uptoP | apply OptKeeps.some | apply OptKeeps.map | exact OptKeeps.none | exact CKeeps.fault
    | (extract_lets +onlyGivenNames x; clear_value (hx : x = _); refine Keeps.via (s := s0) hx ?_ fun hk => ?_)
    | (extract_lets +onlyGivenNames x; clear_value (hx : x = _); refine Keeps.viaP (s := s0) hx ?_ fun hk => ?_)
    | (extract_lets +onlyGivenNames x; clear_value (hx : x = _); ((have hy : @Eq SemSt x _ := hx); clear hx; subst hy))
    | (extract_lets +onlyGivenNames x; clear_value (hx : x = _); refine OptKeeps.via (s := s0) hx ?_ fun hk => ?_)
    | (extract_lets +onlyGivenNames x; clear_value (hx : x = _); clear hx) | apply Keeps.ite | apply OptKeeps.ite | apply CKeeps.ite
    | split | dsimp -zeta only | exact OptKeeps.get rfl (by assumption) | refine OptKeeps.get (by assumption) ?_
    | refine Keeps.ofMk (by assumption) ?_ | (refine Keeps.same ?_ rfl rfl rfl rfl rfl rfl rfl rfl))

theorem bodyDmaw_keeps {s0 : State} (z0 : Issue) (w : Word) (t : State) (z3 : Nat) (b : Bank) (hS : Keeps s0 t) : CKeeps s0 (bodyDmaw z0 w t z3 b) := by
  unfold bodyDmaw
  with_reducible repeat' (first
    | assumption | intro _ | exact Keeps.refl _ | apply CKeeps.ok | exact CKeeps.wait | apply Keeps.ite | apply CKeeps.ite | split
    | dsimp -zeta only | refine CKeeps.getOk (by assumption) ?_ | refine CKeeps.getTrap (by assumption) ?_
    | refine CKeeps.getCut (by assumption) ?_)

theorem execDmaw_keeps {s0 : State} (x : Issue) (w : Word) (s : State) (hS : Keeps s0 s) : OutKeeps s0 (execDmaw x w s) := by
  unfold execDmaw
  with_reducible repeat' (first
    | assumption | intro _ | exact Keeps.refl _ | apply coreIssue_keeps | apply bodyDmaw_keeps | dsimp -zeta only)

theorem bodyFence_keeps {s0 : State} (z0 : Issue) (z1 : Word) (t : State) (k : Nat) (b : Bank) (hS : Keeps s0 t) : CKeeps s0 (bodyFence z0 z1 t k b) := by
  unfold bodyFence
  with_reducible repeat' (first
    | assumption | intro _ | exact Keeps.refl _ | apply OptKeeps.some | apply CKeeps.ok | exact CKeeps.wait | apply Keeps.ite
    | apply OptKeeps.ite | apply CKeeps.ite | split | dsimp -zeta only | exact OptKeeps.get rfl (by assumption)
    | refine OptKeeps.get (by assumption) ?_ | refine CKeeps.getOk (by assumption) ?_ | refine CKeeps.getTrap (by assumption) ?_
    | refine CKeeps.getCut (by assumption) ?_)

theorem execFence_keeps {s0 : State} (x : Issue) (w : Word) (s : State) (hS : Keeps s0 s) : OutKeeps s0 (execFence x w s) := by
  unfold execFence
  with_reducible repeat' (first
    | assumption | intro _ | exact Keeps.refl _ | apply coreIssue_keeps | apply bodyFence_keeps | dsimp -zeta only)

end Sys2Proof.Machine
end

