-- ==== Sys2Proof/Laws/KeepsRemote.lean ====
section
/-! SUPPORT. Every operation of Machine/Remote.lean keeps what Keeps (Safety.lean) says. -/

namespace Sys2Proof.Machine

theorem bodyRld_keeps {s0 : State} (z0 : Issue) (w : Word) (t : State) (k : Nat) (b : Bank) (hS : Keeps s0 t) : CKeeps s0 (bodyRld z0 w t k b) := by
  unfold bodyRld
  with_reducible repeat' (first
    | assumption | intro _ | exact Keeps.refl _ | apply State.fault_keeps | apply State.launchOp_keeps | apply State.newGroup_keeps
    | apply Keeps.upto | apply Keeps.uptoP | apply OptKeeps.some | apply CKeeps.ok | exact CKeeps.fault
    | (extract_lets +onlyGivenNames x; clear_value (hx : x = _); refine Keeps.via (s := s0) hx ?_ fun hk => ?_)
    | (extract_lets +onlyGivenNames x; clear_value (hx : x = _); refine Keeps.viaP (s := s0) hx ?_ fun hk => ?_)
    | (extract_lets +onlyGivenNames x; clear_value (hx : x = _); refine CKeeps.via (s := s0) hx ?_ fun hk => ?_)
    | (extract_lets +onlyGivenNames x; clear_value (hx : x = _); refine OptKeeps.via (s := s0) hx ?_ fun hk => ?_)
    | (extract_lets +onlyGivenNames x; clear_value (hx : x = _); clear hx) | apply Keeps.ite | apply OptKeeps.ite | apply CKeeps.ite
    | split | dsimp -zeta only | exact OptKeeps.get rfl (by assumption) | refine OptKeeps.get (by assumption) ?_
    | refine CKeeps.getOk (by assumption) ?_ | refine CKeeps.getTrap (by assumption) ?_ | refine CKeeps.getCut (by assumption) ?_
    | (refine Keeps.same ?_ rfl rfl rfl rfl rfl rfl rfl rfl))

theorem execRld_keeps {s0 : State} (x : Issue) (w : Word) (s : State) (hS : Keeps s0 s) : OutKeeps s0 (execRld x w s) := by
  unfold execRld
  with_reducible repeat' (first
    | assumption | intro _ | exact Keeps.refl _ | apply coreIssue_keeps | apply bodyRld_keeps | dsimp -zeta only)

theorem sendLines_keeps {s0 : State} (type : Nat) (w : Word) (t : State) (k : Nat) (b : Bank) (hS : Keeps s0 t) : CKeeps s0 (sendLines type w t k b) := by
  unfold sendLines
  with_reducible repeat' (first
    | assumption | intro _ | exact Keeps.refl _ | apply State.fault_keeps | apply State.launchOp_keeps | apply State.newGroup_keeps
    | apply OptKeeps.some | exact OptKeeps.none | apply CKeeps.ok | exact CKeeps.fault
    | (extract_lets +onlyGivenNames x; clear_value (hx : x = _); refine Keeps.via (s := s0) hx ?_ fun hk => ?_)
    | (extract_lets +onlyGivenNames x; clear_value (hx : x = _); refine Keeps.viaP (s := s0) hx ?_ fun hk => ?_)
    | (extract_lets +onlyGivenNames x; clear_value (hx : x = _); refine CKeeps.via (s := s0) hx ?_ fun hk => ?_)
    | (extract_lets +onlyGivenNames x; clear_value (hx : x = _); refine OptKeeps.via (s := s0) hx ?_ fun hk => ?_)
    | (extract_lets +onlyGivenNames x; clear_value (hx : x = _); clear hx) | apply Keeps.ite | apply OptKeeps.ite | apply CKeeps.ite
    | split | dsimp -zeta only | exact OptKeeps.get rfl (by assumption) | refine OptKeeps.get (by assumption) ?_
    | refine CKeeps.getOk (by assumption) ?_ | refine CKeeps.getTrap (by assumption) ?_ | refine CKeeps.getCut (by assumption) ?_
    | (refine Keeps.same ?_ rfl rfl rfl rfl rfl rfl rfl rfl))

theorem bodyRst_keeps {s0 : State} (z0 : Issue) (w : Word) (t : State) (k : Nat) (b : Bank) (hS : Keeps s0 t) : CKeeps s0 (bodyRst z0 w t k b) := by
  unfold bodyRst
  with_reducible repeat' (first
    | assumption | intro _ | exact Keeps.refl _ | apply sendLines_keeps | dsimp -zeta only)

theorem bodyRmst_keeps {s0 : State} (z0 : Issue) (w : Word) (t : State) (k : Nat) (b : Bank) (hS : Keeps s0 t) : CKeeps s0 (bodyRmst z0 w t k b) := by
  unfold bodyRmst
  with_reducible repeat' (first
    | assumption | intro _ | exact Keeps.refl _ | apply sendLines_keeps | dsimp -zeta only)

theorem bodyRred_keeps {s0 : State} (z0 : Issue) (w : Word) (t : State) (k : Nat) (b : Bank) (hS : Keeps s0 t) : CKeeps s0 (bodyRred z0 w t k b) := by
  unfold bodyRred
  with_reducible repeat' (first
    | assumption | intro _ | exact Keeps.refl _ | apply State.fault_keeps | apply sendLines_keeps | exact CKeeps.fault
    | (extract_lets +onlyGivenNames x; clear_value (hx : x = _); refine Keeps.via (s := s0) hx ?_ fun hk => ?_)
    | (extract_lets +onlyGivenNames x; clear_value (hx : x = _); refine Keeps.viaP (s := s0) hx ?_ fun hk => ?_)
    | (extract_lets +onlyGivenNames x; clear_value (hx : x = _); refine OptKeeps.via (s := s0) hx ?_ fun hk => ?_)
    | (extract_lets +onlyGivenNames x; clear_value (hx : x = _); clear hx) | apply Keeps.ite | apply CKeeps.ite | split | dsimp -zeta only)

theorem execRst_keeps {s0 : State} (x : Issue) (w : Word) (s : State) (hS : Keeps s0 s) : OutKeeps s0 (execRst x w s) := by
  unfold execRst
  with_reducible repeat' (first
    | assumption | intro _ | exact Keeps.refl _ | apply coreIssue_keeps | apply bodyRst_keeps | dsimp -zeta only)

theorem execRmst_keeps {s0 : State} (x : Issue) (w : Word) (s : State) (hS : Keeps s0 s) : OutKeeps s0 (execRmst x w s) := by
  unfold execRmst
  with_reducible repeat' (first
    | assumption | intro _ | exact Keeps.refl _ | apply coreIssue_keeps | apply bodyRmst_keeps | dsimp -zeta only)

theorem execRred_keeps {s0 : State} (x : Issue) (w : Word) (s : State) (hS : Keeps s0 s) : OutKeeps s0 (execRred x w s) := by
  unfold execRred
  with_reducible repeat' (first
    | assumption | intro _ | exact Keeps.refl _ | apply coreIssue_keeps | apply bodyRred_keeps
    | (extract_lets +onlyGivenNames x; clear_value (hx : x = _); refine Keeps.via (s := s0) hx ?_ fun hk => ?_)
    | (extract_lets +onlyGivenNames x; clear_value (hx : x = _); refine Keeps.viaP (s := s0) hx ?_ fun hk => ?_)
    | (extract_lets +onlyGivenNames x; clear_value (hx : x = _); refine OptKeeps.via (s := s0) hx ?_ fun hk => ?_)
    | (extract_lets +onlyGivenNames x; clear_value (hx : x = _); clear hx) | dsimp -zeta only)

theorem bodyRatom_keeps {s0 : State} (z0 : Issue) (w : Word) (t : State) (k : Nat) (b : Bank) (hS : Keeps s0 t) : CKeeps s0 (bodyRatom z0 w t k b) := by
  unfold bodyRatom
  with_reducible repeat' (first
    | assumption | intro _ | exact Keeps.refl _ | apply State.fault_keeps | apply State.launchOp_keeps | apply State.newGroup_keeps
    | apply State.pruneHorizon_keeps | apply OptKeeps.some | apply CKeeps.ok | exact CKeeps.fault | exact CKeeps.wait
    | (extract_lets +onlyGivenNames x; clear_value (hx : x = _); refine Keeps.via (s := s0) hx ?_ fun hk => ?_)
    | (extract_lets +onlyGivenNames x; clear_value (hx : x = _); refine Keeps.viaP (s := s0) hx ?_ fun hk => ?_)
    | (extract_lets +onlyGivenNames x; clear_value (hx : x = _); refine CKeeps.via (s := s0) hx ?_ fun hk => ?_)
    | (extract_lets +onlyGivenNames x; clear_value (hx : x = _); refine OptKeeps.via (s := s0) hx ?_ fun hk => ?_)
    | (extract_lets +onlyGivenNames x; clear_value (hx : x = _); clear hx) | apply Keeps.ite | apply OptKeeps.ite | apply CKeeps.ite
    | split | dsimp -zeta only | exact OptKeeps.get rfl (by assumption) | refine OptKeeps.get (by assumption) ?_
    | refine CKeeps.getOk (by assumption) ?_ | refine CKeeps.getTrap (by assumption) ?_ | refine CKeeps.getCut (by assumption) ?_
    | (refine Keeps.same ?_ rfl rfl rfl rfl rfl rfl rfl rfl))

theorem execRatom_keeps {s0 : State} (x : Issue) (w : Word) (s : State) (hS : Keeps s0 s) : OutKeeps s0 (execRatom x w s) := by
  unfold execRatom
  with_reducible repeat' (first
    | assumption | intro _ | exact Keeps.refl _ | apply coreIssue_keeps | apply bodyRatom_keeps
    | (extract_lets +onlyGivenNames x; clear_value (hx : x = _); refine Keeps.via (s := s0) hx ?_ fun hk => ?_)
    | (extract_lets +onlyGivenNames x; clear_value (hx : x = _); refine Keeps.viaP (s := s0) hx ?_ fun hk => ?_)
    | (extract_lets +onlyGivenNames x; clear_value (hx : x = _); refine OptKeeps.via (s := s0) hx ?_ fun hk => ?_)
    | (extract_lets +onlyGivenNames x; clear_value (hx : x = _); clear hx) | apply Keeps.ite | split | dsimp -zeta only)

theorem bodyRsemp_keeps {s0 : State} (z0 : Issue) (w : Word) (t : State) (k : Nat) (b : Bank) (hS : Keeps s0 t) : CKeeps s0 (bodyRsemp z0 w t k b) := by
  unfold bodyRsemp
  with_reducible repeat' (first
    | assumption | intro _ | exact Keeps.refl _ | apply State.fault_keeps | apply State.sendPost_keeps | apply OptKeeps.some
    | apply CKeeps.ok | exact CKeeps.fault | exact CKeeps.wait | apply Keeps.ite | apply OptKeeps.ite | apply CKeeps.ite | split
    | dsimp -zeta only | exact OptKeeps.get rfl (by assumption) | refine OptKeeps.get (by assumption) ?_
    | refine CKeeps.getOk (by assumption) ?_ | refine CKeeps.getTrap (by assumption) ?_ | refine CKeeps.getCut (by assumption) ?_)

theorem execRsemp_keeps {s0 : State} (x : Issue) (w : Word) (s : State) (hS : Keeps s0 s) : OutKeeps s0 (execRsemp x w s) := by
  unfold execRsemp
  with_reducible repeat' (first
    | assumption | intro _ | exact Keeps.refl _ | apply coreIssue_keeps | apply bodyRsemp_keeps | dsimp -zeta only)

end Sys2Proof.Machine
end

