-- ==== Sys2Proof/Laws/KeepsSemOps.lean ====
section
/-! SUPPORT. Every operation of Machine/SemOps.lean keeps what Keeps (Safety.lean) says. -/

namespace Sys2Proof.Machine

theorem semIssue_keeps {s0 : State} (op : Nat) (x : Issue) (w : Word) (legal : Bool) (uses : List CReg) (s : State) (body : State → Nat → Bank → Nat → CRes) (hbody : ∀ a0 a1 a2 a3, Keeps s0 a0 → CKeeps s0 (body a0 a1 a2 a3)) (hS : Keeps s0 s) : OutKeeps s0 (semIssue op x w legal uses s body) := by
  unfold semIssue
  with_reducible repeat' (first
    | assumption | intro _ | apply hbody | apply coreIssue_keeps | exact CKeeps.fault | apply CKeeps.ite)

theorem execSemw_keeps {s0 : State} (x : Issue) (w : Word) (s : State) (hS : Keeps s0 s) : OutKeeps s0 (execSemw x w s) := by
  unfold execSemw
  with_reducible repeat' (first
    | assumption | intro _ | apply State.semwTry_keeps | apply semIssue_keeps | apply CKeeps.ok)

theorem execSemp_keeps {s0 : State} (x : Issue) (w : Word) (s : State) (hS : Keeps s0 s) : OutKeeps s0 (execSemp x w s) := by
  unfold execSemp
  with_reducible repeat' (first
    | assumption | intro _ | apply State.setBank_keeps | apply semIssue_keeps | apply CKeeps.ok | apply Keeps.ite)

theorem execSemt_keeps {s0 : State} (x : Issue) (w : Word) (s : State) (hS : Keeps s0 s) : OutKeeps s0 (execSemt x w s) := by
  unfold execSemt
  with_reducible repeat' (first
    | assumption | intro _ | apply State.semDec_keeps | apply semIssue_keeps | apply CKeeps.ok | apply CKeeps.ite)

theorem execSemr_keeps {s0 : State} (x : Issue) (w : Word) (s : State) (hS : Keeps s0 s) : OutKeeps s0 (execSemr x w s) := by
  unfold execSemr
  with_reducible repeat' (first
    | assumption | intro _ | apply semIssue_keeps | apply CKeeps.ok)

end Sys2Proof.Machine
end

