-- ==== Sys2Proof/Laws/KeepsQuill.lean ====
section
/-! SUPPORT. Every operation of Machine/Quill.lean keeps what Keeps (Safety.lean) says. -/

namespace Sys2Proof.Machine

theorem State.initCtx_keeps {s0 : State} (s : State) (p c profile draftMax seed remaining : Nat) (hS : Keeps s0 s) : Keeps s0 (State.initCtx s p c profile draftMax seed remaining) := by
  unfold State.initCtx
  with_reducible repeat' (first
    | assumption | apply State.stN_keeps)

theorem State.setQuillQueue_keeps {s0 : State} (s : State) (j : Nat) (l : List EngCmd) (hS : Keeps s0 s) : Keeps s0 (State.setQuillQueue s j l) := by
  unfold State.setQuillQueue
  with_reducible repeat' (first
    | assumption | (extract_lets +onlyGivenNames x; clear_value (hx : x = _); ((have hy : @Eq SrvSt x _ := hx); clear hx; subst hy))
    | (refine Keeps.same ?_ rfl rfl rfl rfl rfl rfl rfl rfl))

theorem State.engResult_keeps {s0 : State} (s : State) (c : EngCmd) (rec_ : Nat) (hS : Keeps s0 s) : Keeps s0 (State.engResult s c rec_) := by
  unfold State.engResult
  with_reducible repeat' (first
    | assumption | apply State.semPost_keeps | apply State.csWrite_keeps
    | (extract_lets +onlyGivenNames x; clear_value (hx : x = _); refine Keeps.via (s := s0) hx ?_ fun hk => ?_) | split)

theorem State.quillFault_keeps {s0 : State} (s : State) (j code : Nat) (c : EngCmd) (hS : Keeps s0 s) : Keeps s0 (State.quillFault s j code c) := by
  unfold State.quillFault
  with_reducible repeat' (first
    | assumption | apply State.fault_keeps)

theorem State.quillBadLine_keeps {s0 : State} (s : State) (c : EngCmd) (hS : Keeps s0 s) : Keeps s0 (State.quillBadLine s c) := by
  unfold State.quillBadLine
  with_reducible repeat' (first
    | assumption | intro _ | exact Keeps.refl _ | apply State.countPoison_keeps
    | (extract_lets +onlyGivenNames x; clear_value (hx : x = _); refine Keeps.via (s := s0) hx ?_ fun hk => ?_)
    | (extract_lets +onlyGivenNames x; clear_value (hx : x = _); refine Keeps.viaP (s := s0) hx ?_ fun hk => ?_)
    | (extract_lets +onlyGivenNames x; clear_value (hx : x = _); refine OptKeeps.via (s := s0) hx ?_ fun hk => ?_)
    | (extract_lets +onlyGivenNames x; clear_value (hx : x = _); clear hx) | apply Keeps.ite | split | dsimp -zeta only)

theorem State.setBusy_keeps {s0 : State} (s : State) (p c : Nat) (b : Bool) (hS : Keeps s0 s) : Keeps s0 (State.setBusy s p c b) := by
  unfold State.setBusy
  with_reducible repeat' (first
    | assumption | apply State.stN_keeps)

theorem State.putQuill_keeps {s0 : State} (s : State) (j i : Nat) (c : EngCmd) (hS : Keeps s0 s) : Keeps s0 (State.putQuill s j i c) := by
  unfold State.putQuill
  with_reducible repeat' (first
    | assumption | intro _ | exact Keeps.refl _ | apply State.setQuillQueue_keeps | dsimp -zeta only)

theorem State.quillRead_keeps {s0 : State} (s : State) (j : Nat) (c : EngCmd) (l : List (Nat × Nat)) (hS : Keeps s0 s) : Keeps s0 (State.quillRead s j c l).1 := by
  unfold State.quillRead
  with_reducible repeat' (first
    | assumption | intro _ | exact Keeps.refl _ | apply State.countPoison_keeps | apply State.quillFault_keeps | apply Keeps.each
    | apply Keeps.eachP | (extract_lets +onlyGivenNames x; clear_value (hx : x = _); refine Keeps.via (s := s0) hx ?_ fun hk => ?_)
    | (extract_lets +onlyGivenNames x; clear_value (hx : x = _); refine Keeps.viaP (s := s0) hx ?_ fun hk => ?_)
    | (extract_lets +onlyGivenNames x; clear_value (hx : x = _); refine OptKeeps.via (s := s0) hx ?_ fun hk => ?_)
    | (extract_lets +onlyGivenNames x; clear_value (hx : x = _); clear hx) | apply Keeps.ite | split | dsimp -zeta only)

theorem State.rowBegin_keeps {s0 : State} (s : State) (j i k u : Nat) (hS : Keeps s0 s) : Keeps s0 (State.rowBegin s j i k u) := by
  unfold State.rowBegin
  with_reducible repeat' (first
    | assumption | intro _ | exact Keeps.refl _ | apply State.putQuill_keeps | apply State.quillRead_keeps | apply OptKeeps.some
    | exact OptKeeps.none | (extract_lets +onlyGivenNames x; clear_value (hx : x = _); refine Keeps.via (s := s0) hx ?_ fun hk => ?_)
    | (extract_lets +onlyGivenNames x; clear_value (hx : x = _); refine Keeps.viaP (s := s0) hx ?_ fun hk => ?_)
    | (extract_lets +onlyGivenNames x; clear_value (hx : x = _); refine OptKeeps.via (s := s0) hx ?_ fun hk => ?_)
    | (extract_lets +onlyGivenNames x; clear_value (hx : x = _); clear hx) | split | dsimp -zeta only
    | exact OptKeeps.get rfl (by assumption) | refine OptKeeps.get (by assumption) ?_ | refine Keeps.ofMk (by assumption) ?_
    | (refine Keeps.same ?_ rfl rfl rfl rfl rfl rfl rfl rfl))

theorem State.rowAssign_keeps {s0 : State} (s : State) (j : Nat) (y0 : Nat) (hS : Keeps s0 s) : Keeps s0 (State.rowAssign s j y0) := by
  induction y0 generalizing s with
  | zero =>
    unfold State.rowAssign
    with_reducible repeat' (first
      | assumption | intro _ | exact Keeps.refl _ | apply State.rowBegin_keeps | apply OptKeeps.some
      | (extract_lets +onlyGivenNames x; clear_value (hx : x = _); refine Keeps.via (s := s0) hx ?_ fun hk => ?_)
      | (extract_lets +onlyGivenNames x; clear_value (hx : x = _); refine Keeps.viaP (s := s0) hx ?_ fun hk => ?_)
      | (extract_lets +onlyGivenNames x; clear_value (hx : x = _); refine OptKeeps.via (s := s0) hx ?_ fun hk => ?_)
      | (extract_lets +onlyGivenNames x; clear_value (hx : x = _); clear hx) | split | dsimp -zeta only
      | exact OptKeeps.get rfl (by assumption) | refine OptKeeps.get (by assumption) ?_ | refine Keeps.ofMk (by assumption) ?_
      | (refine Keeps.same ?_ rfl rfl rfl rfl rfl rfl rfl rfl))
  | succ z ih =>
    unfold State.rowAssign
    with_reducible repeat' (first
      | assumption | intro _ | exact Keeps.refl _ | apply ih | apply State.rowBegin_keeps | apply OptKeeps.some
      | (extract_lets +onlyGivenNames x; clear_value (hx : x = _); refine Keeps.via (s := s0) hx ?_ fun hk => ?_)
      | (extract_lets +onlyGivenNames x; clear_value (hx : x = _); refine Keeps.viaP (s := s0) hx ?_ fun hk => ?_)
      | (extract_lets +onlyGivenNames x; clear_value (hx : x = _); refine OptKeeps.via (s := s0) hx ?_ fun hk => ?_)
      | (extract_lets +onlyGivenNames x; clear_value (hx : x = _); clear hx) | split | dsimp -zeta only
      | exact OptKeeps.get rfl (by assumption) | refine OptKeeps.get (by assumption) ?_ | refine Keeps.ofMk (by assumption) ?_
      | (refine Keeps.same ?_ rfl rfl rfl rfl rfl rfl rfl rfl))

theorem State.rowEnd_keeps {s0 : State} (s : State) (j i k : Nat) (upset : Bool) (hS : Keeps s0 s) : Keeps s0 (State.rowEnd s j i k upset) := by
  unfold State.rowEnd
  with_reducible repeat' (first
    | assumption | intro _ | exact Keeps.refl _ | apply State.inc_keeps | apply State.countedFault_keeps | apply State.upset_keeps
    | apply State.quillFault_keeps | apply State.putQuill_keeps | apply State.quillRead_keeps | apply OptKeeps.some | exact OptKeeps.none
    | (extract_lets +onlyGivenNames x; clear_value (hx : x = _); refine Keeps.via (s := s0) hx ?_ fun hk => ?_)
    | (extract_lets +onlyGivenNames x; clear_value (hx : x = _); refine Keeps.viaP (s := s0) hx ?_ fun hk => ?_)
    | (extract_lets +onlyGivenNames x; clear_value (hx : x = _); refine OptKeeps.via (s := s0) hx ?_ fun hk => ?_)
    | (extract_lets +onlyGivenNames x; clear_value (hx : x = _); clear hx) | apply Keeps.ite | apply OptKeeps.ite | split
    | dsimp -zeta only | exact OptKeeps.get rfl (by assumption) | refine OptKeeps.get (by assumption) ?_
    | refine Keeps.ofMk (by assumption) ?_ | (refine Keeps.same ?_ rfl rfl rfl rfl rfl rfl rfl rfl))

theorem State.sampleBegin_keeps {s0 : State} (s : State) (j i : Nat) (c : EngCmd) (pr : Nat) (who : Option Nat) (hS : Keeps s0 s) : Keeps s0 (State.sampleBegin s j i c pr who) := by
  unfold State.sampleBegin
  with_reducible repeat' (first
    | assumption | intro _ | exact Keeps.refl _ | apply State.setBusy_keeps | apply State.putQuill_keeps | apply State.quillRead_keeps
    | apply OptKeeps.map | (extract_lets +onlyGivenNames x; clear_value (hx : x = _); refine Keeps.via (s := s0) hx ?_ fun hk => ?_)
    | (extract_lets +onlyGivenNames x; clear_value (hx : x = _); refine Keeps.viaP (s := s0) hx ?_ fun hk => ?_)
    | (extract_lets +onlyGivenNames x; clear_value (hx : x = _); refine OptKeeps.via (s := s0) hx ?_ fun hk => ?_)
    | (extract_lets +onlyGivenNames x; clear_value (hx : x = _); clear hx) | apply Keeps.ite | split | dsimp -zeta only
    | (refine Keeps.same ?_ rfl rfl rfl rfl rfl rfl rfl rfl))

theorem State.sampleRun_keeps {s0 : State} (s : State) (c : EngCmd) (hS : Keeps s0 s) : Keeps s0 (State.sampleRun s c).s := by
  unfold State.sampleRun
  with_reducible repeat' (first
    | assumption | intro _ | exact Keeps.refl _ | apply State.inc_keeps | apply State.stBytes_keeps | apply State.stN_keeps
    | apply Keeps.foldl | apply Keeps.foldlP
    | (extract_lets +onlyGivenNames x; clear_value (hx : x = _); refine Keeps.via (s := s0) hx ?_ fun hk => ?_)
    | (extract_lets +onlyGivenNames x; clear_value (hx : x = _); refine Keeps.viaP (s := s0) hx ?_ fun hk => ?_)
    | (extract_lets +onlyGivenNames x; clear_value (hx : x = _); refine OptKeeps.via (s := s0) hx ?_ fun hk => ?_)
    | (extract_lets +onlyGivenNames x; clear_value (hx : x = _); clear hx) | apply Keeps.ite | split | dsimp -zeta only)

theorem State.quillFence_keeps {s0 : State} (s : State) (j : Nat) (hS : Keeps s0 s) : Keeps s0 (State.quillFence s j) := by
  unfold State.quillFence
  with_reducible repeat' (first
    | assumption | intro _ | apply State.setQuillQueue_keeps | apply State.engResult_keeps | apply State.setBusy_keeps | apply Keeps.each
    | apply Keeps.ite)

end Sys2Proof.Machine
end

