-- ==== Sys2Proof/Laws/KeepsEthernet.lean ====
section
/-! SUPPORT. Every operation of Machine/Ethernet.lean keeps what Keeps (Safety.lean) says. -/

namespace Sys2Proof.Machine

theorem State.ethFault_keeps {s0 : State} (s : State) (code t unit arg0 part : Nat) (hS : Keeps s0 s) : Keeps s0 (State.ethFault s code t unit arg0 part) := by
  unfold State.ethFault
  with_reducible repeat' (first
    | assumption | apply State.fault_keeps)

theorem State.setRxq_keeps {s0 : State} (s : State) (q : Nat) (l : List RxPkt) (hS : Keeps s0 s) : Keeps s0 (State.setRxq s q l) := by
  unfold State.setRxq
  with_reducible repeat' (first
    | assumption | (extract_lets +onlyGivenNames x; clear_value (hx : x = _); ((have hy : @Eq EthSt x _ := hx); clear hx; subst hy))
    | (refine Keeps.same ?_ rfl rfl rfl rfl rfl rfl rfl rfl))

theorem State.setEgq_keeps {s0 : State} (s : State) (q : Nat) (l : List TxMsg) (hS : Keeps s0 s) : Keeps s0 (State.setEgq s q l) := by
  unfold State.setEgq
  with_reducible repeat' (first
    | assumption | (extract_lets +onlyGivenNames x; clear_value (hx : x = _); ((have hy : @Eq EthSt x _ := hx); clear hx; subst hy))
    | (refine Keeps.same ?_ rfl rfl rfl rfl rfl rfl rfl rfl))

theorem State.sendPfc_keeps {s0 : State} (s : State) (m quanta : Nat) (hS : Keeps s0 s) : Keeps s0 (State.sendPfc s m quanta) := by
  unfold State.sendPfc
  with_reducible repeat' (first
    | assumption | (extract_lets +onlyGivenNames x; clear_value (hx : x = _); ((have hy : @Eq EthSt x _ := hx); clear hx; subst hy))
    | (extract_lets +onlyGivenNames x; clear_value (hx : x = _); clear hx) | apply Keeps.ite
    | (refine Keeps.same ?_ rfl rfl rfl rfl rfl rfl rfl rfl))

theorem State.xoffPin_keeps {s0 : State} (s : State) (p : Nat) (hS : Keeps s0 s) : Keeps s0 (State.xoffPin s p) := by
  unfold State.xoffPin
  with_reducible repeat' (first
    | assumption | intro _ | exact Keeps.refl _ | apply State.wr_keeps | apply State.sendPfc_keeps | apply Keeps.upto | apply Keeps.uptoP
    | (extract_lets +onlyGivenNames x; clear_value (hx : x = _); refine Keeps.via (s := s0) hx ?_ fun hk => ?_)
    | (extract_lets +onlyGivenNames x; clear_value (hx : x = _); refine Keeps.viaP (s := s0) hx ?_ fun hk => ?_)
    | (extract_lets +onlyGivenNames x; clear_value (hx : x = _); ((have hy : @Eq EthSt x _ := hx); clear hx; subst hy))
    | (extract_lets +onlyGivenNames x; clear_value (hx : x = _); refine OptKeeps.via (s := s0) hx ?_ fun hk => ?_)
    | (extract_lets +onlyGivenNames x; clear_value (hx : x = _); clear hx) | apply Keeps.ite | split | dsimp -zeta only
    | (refine Keeps.same ?_ rfl rfl rfl rfl rfl rfl rfl rfl))

theorem State.xoffEval_keeps {s0 : State} (s : State) (p : Nat) (hS : Keeps s0 s) : Keeps s0 (State.xoffEval s p) := by
  unfold State.xoffEval
  with_reducible repeat' (first
    | assumption | intro _ | exact Keeps.refl _ | apply State.xoffPin_keeps
    | (extract_lets +onlyGivenNames x; clear_value (hx : x = _); refine Keeps.via (s := s0) hx ?_ fun hk => ?_)
    | (extract_lets +onlyGivenNames x; clear_value (hx : x = _); refine Keeps.viaP (s := s0) hx ?_ fun hk => ?_)
    | (extract_lets +onlyGivenNames x; clear_value (hx : x = _); ((have hy : @Eq EthSt x _ := hx); clear hx; subst hy))
    | (extract_lets +onlyGivenNames x; clear_value (hx : x = _); refine OptKeeps.via (s := s0) hx ?_ fun hk => ?_)
    | (extract_lets +onlyGivenNames x; clear_value (hx : x = _); clear hx) | dsimp -zeta only
    | (refine Keeps.same ?_ rfl rfl rfl rfl rfl rfl rfl rfl))

theorem State.setFill_keeps {s0 : State} (s : State) (p v : Nat) (hS : Keeps s0 s) : Keeps s0 (State.setFill s p v) := by
  unfold State.setFill
  with_reducible repeat' (first
    | assumption | apply State.wr_keeps | apply State.xoffEval_keeps
    | (extract_lets +onlyGivenNames x; clear_value (hx : x = _); ((have hy : @Eq EthSt x _ := hx); clear hx; subst hy))
    | (refine Keeps.same ?_ rfl rfl rfl rfl rfl rfl rfl rfl))

theorem State.addFill_keeps {s0 : State} (s : State) (p n : Nat) (hS : Keeps s0 s) : Keeps s0 (State.addFill s p n) := by
  unfold State.addFill
  with_reducible repeat' (first
    | assumption | apply State.setFill_keeps)

theorem State.subFill_keeps {s0 : State} (s : State) (p n : Nat) (hS : Keeps s0 s) : Keeps s0 (State.subFill s p n) := by
  unfold State.subFill
  with_reducible repeat' (first
    | assumption | apply State.setFill_keeps)

theorem State.pfcReceived_keeps {s0 : State} (s : State) (m vec : Nat) (quanta : List Nat) (hS : Keeps s0 s) : Keeps s0 (State.pfcReceived s m vec quanta) := by
  unfold State.pfcReceived
  with_reducible repeat' (first
    | assumption | intro _ | apply State.inc_keeps | apply Keeps.upto
    | (extract_lets +onlyGivenNames x; clear_value (hx : x = _); ((have hy : @Eq EthSt x _ := hx); clear hx; subst hy))
    | (extract_lets +onlyGivenNames x; clear_value (hx : x = _); clear hx) | apply Keeps.ite | split
    | (refine Keeps.same ?_ rfl rfl rfl rfl rfl rfl rfl rfl))

theorem State.svcSegment_keeps {s0 : State} (s : State) (q : Nat) (p : RxPkt) (hS : Keeps s0 s) : Keeps s0 (State.svcSegment s q p) := by
  unfold State.svcSegment
  with_reducible repeat' (first
    | assumption | intro _ | exact Keeps.refl _ | apply State.inc_keeps | apply OptKeeps.some | exact OptKeeps.none | apply hF | apply hG
    | apply hH | (extract_lets +onlyGivenNames x; clear_value (hx : x = _); refine Keeps.via (s := s0) hx ?_ fun hk => ?_)
    | (extract_lets +onlyGivenNames x; clear_value (hx : x = _); refine Keeps.viaP (s := s0) hx ?_ fun hk => ?_)
    | (extract_lets +onlyGivenNames x; clear_value (hx : x = _); ((have hy : @Eq EthSt x _ := hx); clear hx; subst hy))
    | (extract_lets +onlyGivenNames x; clear_value (hx : x = _); refine OptKeeps.via (s := s0) hx ?_ fun hk => ?_)
    | (extract_lets +onlyGivenNames x; clear_value (hx : x = _); (fail_if_success have := hF); refine Keeps.viaFun (s := s0) hx ?_ fun hF => ?_)
    | (extract_lets +onlyGivenNames x; clear_value (hx : x = _); (fail_if_success have := hG); refine Keeps.viaFun (s := s0) hx ?_ fun hG => ?_)
    | (extract_lets +onlyGivenNames x; clear_value (hx : x = _); (fail_if_success have := hF); refine Keeps.viaFunB (s := s0) hx ?_ fun hF => ?_)
    | (extract_lets +onlyGivenNames x; clear_value (hx : x = _); (fail_if_success have := hG); refine Keeps.viaFunB (s := s0) hx ?_ fun hG => ?_)
    | (extract_lets +onlyGivenNames x; clear_value (hx : x = _); clear hx) | apply Keeps.ite | apply OptKeeps.ite | split
    | dsimp -zeta only | exact OptKeeps.get rfl (by assumption) | refine OptKeeps.get (by assumption) ?_
    | refine Keeps.ofMk (by assumption) ?_ | (refine Keeps.same ?_ rfl rfl rfl rfl rfl rfl rfl rfl))

theorem State.hostDeliver_keeps {s0 : State} (s : State) (h : Nat) (y0 : Nat) (hS : Keeps s0 s) : Keeps s0 (State.hostDeliver s h y0) := by
  induction y0 generalizing s with
  | zero =>
    unfold State.hostDeliver
    with_reducible repeat' (first
      | assumption)
  | succ z ih =>
    unfold State.hostDeliver
    with_reducible repeat' (first
      | assumption | apply ih | apply State.inc_keeps | apply State.hostWr_keeps | apply State.hqAccessFault_keeps
      | apply State.hComplete_keeps | apply State.setRxq_keeps | apply State.subFill_keeps
      | (extract_lets +onlyGivenNames x; clear_value (hx : x = _); refine Keeps.via (s := s0) hx ?_ fun hk => ?_)
      | (extract_lets +onlyGivenNames x; clear_value (hx : x = _); clear hx) | apply Keeps.ite | split)

theorem State.rxOverflow_keeps {s0 : State} (s : State) (m : Nat) (hS : Keeps s0 s) : Keeps s0 (State.rxOverflow s m) := by
  unfold State.rxOverflow
  with_reducible repeat' (first
    | assumption | apply State.inc_keeps | apply State.faultGather_keeps)

theorem State.rxCommit_keeps {s0 : State} (s : State) (q : Nat) (p : RxPkt) (hS : Keeps s0 s) : Keeps s0 (State.rxCommit s q p) := by
  unfold State.rxCommit
  with_reducible repeat' (first
    | assumption | intro _ | exact Keeps.refl _ | apply State.inc_keeps | apply State.meter_keeps | apply State.setRxq_keeps
    | apply State.addFill_keeps | apply State.svcSegment_keeps | apply State.hostDeliver_keeps
    | (extract_lets +onlyGivenNames x; clear_value (hx : x = _); refine Keeps.via (s := s0) hx ?_ fun hk => ?_)
    | (extract_lets +onlyGivenNames x; clear_value (hx : x = _); refine Keeps.viaP (s := s0) hx ?_ fun hk => ?_)
    | (extract_lets +onlyGivenNames x; clear_value (hx : x = _); refine OptKeeps.via (s := s0) hx ?_ fun hk => ?_)
    | (extract_lets +onlyGivenNames x; clear_value (hx : x = _); clear hx) | apply Keeps.ite | split | dsimp -zeta only
    | (refine Keeps.same ?_ rfl rfl rfl rfl rfl rfl rfl rfl))

theorem State.rxHold_keeps {s0 : State} (s : State) (m n : Nat) (hS : Keeps s0 s) : Keeps s0 (State.rxHold s m n) := by
  unfold State.rxHold
  with_reducible repeat' (first
    | assumption | intro _ | exact Keeps.refl _ | apply State.setFill_keeps
    | (extract_lets +onlyGivenNames x; clear_value (hx : x = _); refine Keeps.via (s := s0) hx ?_ fun hk => ?_)
    | (extract_lets +onlyGivenNames x; clear_value (hx : x = _); refine Keeps.viaP (s := s0) hx ?_ fun hk => ?_)
    | (extract_lets +onlyGivenNames x; clear_value (hx : x = _); ((have hy : @Eq EthSt x _ := hx); clear hx; subst hy))
    | (extract_lets +onlyGivenNames x; clear_value (hx : x = _); refine OptKeeps.via (s := s0) hx ?_ fun hk => ?_)
    | (extract_lets +onlyGivenNames x; clear_value (hx : x = _); clear hx) | apply Keeps.ite | split | dsimp -zeta only
    | (refine Keeps.same ?_ rfl rfl rfl rfl rfl rfl rfl rfl))

theorem State.rxCut_keeps {s0 : State} (s : State) (m code : Nat) (hS : Keeps s0 s) : Keeps s0 (State.rxCut s m code) := by
  unfold State.rxCut
  with_reducible repeat' (first
    | assumption | intro _ | exact Keeps.refl _ | apply CKeeps.cut
    | (extract_lets +onlyGivenNames x; clear_value (hx : x = _); refine Keeps.via (s := s0) hx ?_ fun hk => ?_)
    | (extract_lets +onlyGivenNames x; clear_value (hx : x = _); refine Keeps.viaP (s := s0) hx ?_ fun hk => ?_)
    | (extract_lets +onlyGivenNames x; clear_value (hx : x = _); ((have hy : @Eq EthSt x _ := hx); clear hx; subst hy))
    | (extract_lets +onlyGivenNames x; clear_value (hx : x = _); refine OptKeeps.via (s := s0) hx ?_ fun hk => ?_)
    | (extract_lets +onlyGivenNames x; clear_value (hx : x = _); clear hx) | dsimp -zeta only | refine CKeeps.getOk (by assumption) ?_
    | refine CKeeps.getTrap (by assumption) ?_ | refine CKeeps.getCut (by assumption) ?_
    | (refine Keeps.same ?_ rfl rfl rfl rfl rfl rfl rfl rfl))

theorem execFrameReceived_keeps {s0 : State} (m : Nat) (done fcsOk parity : Bool) (lag : Nat) (bytes : List Nat) (s : State) (hS : Keeps s0 s) : OutKeeps s0 (execFrameReceived m done fcsOk parity lag bytes s) := by
  unfold execFrameReceived
  with_reducible repeat' (first
    | assumption | intro _ | exact Keeps.refl _ | apply State.inc_keeps | apply CRes.done_keeps | apply State.pfcReceived_keeps
    | apply State.rxOverflow_keeps | apply State.rxCommit_keeps | apply State.rxHold_keeps | apply State.rxCut_keeps | apply OptKeeps.some
    | apply OptKeeps.map | exact OptKeeps.none | apply CKeeps.cut | apply OutKeeps.next | apply hF | apply hG | apply hH
    | (extract_lets +onlyGivenNames x; clear_value (hx : x = _); refine Keeps.via (s := s0) hx ?_ fun hk => ?_)
    | (extract_lets +onlyGivenNames x; clear_value (hx : x = _); refine Keeps.viaP (s := s0) hx ?_ fun hk => ?_)
    | (extract_lets +onlyGivenNames x; clear_value (hx : x = _); ((have hy : @Eq EthSt x _ := hx); clear hx; subst hy))
    | (extract_lets +onlyGivenNames x; clear_value (hx : x = _); refine OptKeeps.via (s := s0) hx ?_ fun hk => ?_)
    | (extract_lets +onlyGivenNames x; clear_value (hx : x = _); (fail_if_success have := hF); refine Keeps.viaFun (s := s0) hx ?_ fun hF => ?_)
    | (extract_lets +onlyGivenNames x; clear_value (hx : x = _); clear hx) | apply Keeps.ite | apply OptKeeps.ite | apply OutKeeps.ite
    | split | dsimp -zeta only | exact OptKeeps.get rfl (by assumption) | refine OptKeeps.get (by assumption) ?_
    | refine CKeeps.getOk (by assumption) ?_ | refine CKeeps.getTrap (by assumption) ?_ | refine CKeeps.getCut (by assumption) ?_
    | refine Keeps.ofMk (by assumption) ?_ | (refine Keeps.same ?_ rfl rfl rfl rfl rfl rfl rfl rfl))

theorem State.egRewind_keeps {s0 : State} (s : State) (q : Nat) (hS : Keeps s0 s) : Keeps s0 (State.egRewind s q) := by
  unfold State.egRewind
  with_reducible repeat' (first
    | assumption | apply State.inc_keeps | apply State.ethFault_keeps)

theorem State.egCommit_keeps {s0 : State} (s : State) (q : Nat) (x : TxMsg) (hS : Keeps s0 s) : Keeps s0 (State.egCommit s q x) := by
  unfold State.egCommit
  with_reducible repeat' (first
    | assumption | apply State.setEgq_keeps)

theorem State.egPop_keeps {s0 : State} (s : State) (q : Nat) (hS : Keeps s0 s) : Keeps s0 (State.egPop s q) := by
  unfold State.egPop
  with_reducible repeat' (first
    | assumption | apply State.setEgq_keeps | split)

theorem State.svcDrain_keeps {s0 : State} (s : State) (t : Nat) (hS : Keeps s0 s) : Keeps s0 (State.svcDrain s t) := by
  unfold State.svcDrain
  with_reducible repeat' (first
    | assumption | intro _ | exact Keeps.refl _ | apply State.egCommit_keeps | apply Keeps.each | apply Keeps.eachP | apply Keeps.foldl
    | apply Keeps.foldlP | (extract_lets +onlyGivenNames x; clear_value (hx : x = _); refine Keeps.via (s := s0) hx ?_ fun hk => ?_)
    | (extract_lets +onlyGivenNames x; clear_value (hx : x = _); refine Keeps.viaP (s := s0) hx ?_ fun hk => ?_)
    | (extract_lets +onlyGivenNames x; clear_value (hx : x = _); ((have hy : @Eq EthSt x _ := hx); clear hx; subst hy))
    | (extract_lets +onlyGivenNames x; clear_value (hx : x = _); refine OptKeeps.via (s := s0) hx ?_ fun hk => ?_)
    | (extract_lets +onlyGivenNames x; clear_value (hx : x = _); clear hx) | apply Keeps.ite | split | dsimp -zeta only
    | refine Keeps.ofMk (by assumption) ?_ | (refine Keeps.same ?_ rfl rfl rfl rfl rfl rfl rfl rfl))

theorem State.transmit_keeps {s0 : State} (s : State) (m : Nat) (bytes : List Nat) (upset : Bool) (hS : Keeps s0 s) : Keeps s0 (State.transmit s m bytes upset) := by
  unfold State.transmit
  with_reducible repeat' (first
    | assumption | apply State.inc_keeps
    | (extract_lets +onlyGivenNames x; clear_value (hx : x = _); refine Keeps.via (s := s0) hx ?_ fun hk => ?_)
    | (extract_lets +onlyGivenNames x; clear_value (hx : x = _); ((have hy : @Eq EthSt x _ := hx); clear hx; subst hy)) | apply Keeps.ite
    | (refine Keeps.same ?_ rfl rfl rfl rfl rfl rfl rfl rfl))

theorem State.kw5Charge_keeps {s0 : State} (s : State) (m tc q l : Nat) (hS : Keeps s0 s) : Keeps s0 (State.kw5Charge s m tc q l) := by
  unfold State.kw5Charge
  with_reducible repeat' (first
    | assumption | intro _ | exact Keeps.refl _
    | (extract_lets +onlyGivenNames x; clear_value (hx : x = _); refine Keeps.via (s := s0) hx ?_ fun hk => ?_)
    | (extract_lets +onlyGivenNames x; clear_value (hx : x = _); refine Keeps.viaP (s := s0) hx ?_ fun hk => ?_)
    | (extract_lets +onlyGivenNames x; clear_value (hx : x = _); refine OptKeeps.via (s := s0) hx ?_ fun hk => ?_)
    | (extract_lets +onlyGivenNames x; clear_value (hx : x = _); clear hx) | dsimp -zeta only
    | (refine Keeps.same ?_ rfl rfl rfl rfl rfl rfl rfl rfl))

theorem State.egSend_keeps {s0 : State} (s : State) (m tc q : Nat) (upset : Bool) (hS : Keeps s0 s) : Keeps s0 (State.egSend s m tc q upset) := by
  unfold State.egSend
  with_reducible repeat' (first
    | assumption | intro _ | exact Keeps.refl _ | apply State.meter_keeps | apply State.hComplete_keeps | apply State.upset_keeps
    | apply State.egPop_keeps | apply State.svcDrain_keeps | apply State.transmit_keeps | apply State.kw5Charge_keeps
    | apply OptKeeps.some | exact OptKeeps.none
    | (extract_lets +onlyGivenNames x; clear_value (hx : x = _); refine Keeps.via (s := s0) hx ?_ fun hk => ?_)
    | (extract_lets +onlyGivenNames x; clear_value (hx : x = _); refine Keeps.viaP (s := s0) hx ?_ fun hk => ?_)
    | (extract_lets +onlyGivenNames x; clear_value (hx : x = _); ((have hy : @Eq EthSt x _ := hx); clear hx; subst hy))
    | (extract_lets +onlyGivenNames x; clear_value (hx : x = _); refine OptKeeps.via (s := s0) hx ?_ fun hk => ?_)
    | (extract_lets +onlyGivenNames x; clear_value (hx : x = _); clear hx) | apply Keeps.ite | apply OptKeeps.ite | split
    | dsimp -zeta only | exact OptKeeps.get rfl (by assumption) | refine OptKeeps.get (by assumption) ?_
    | refine Keeps.ofMk (by assumption) ?_ | (refine Keeps.same ?_ rfl rfl rfl rfl rfl rfl rfl rfl))

theorem State.egTc_keeps {s0 : State} (s : State) (m tc : Nat) (upset : Bool) (hS : Keeps s0 s) : OptKeeps s0 (State.egTc s m tc upset) := by
  unfold State.egTc
  with_reducible repeat' (first
    | assumption | apply State.transmit_keeps | apply State.egSend_keeps | apply OptKeeps.some | exact OptKeeps.none
    | (extract_lets +onlyGivenNames x; clear_value (hx : x = _); ((have hy : @Eq EthSt x _ := hx); clear hx; subst hy))
    | (extract_lets +onlyGivenNames x; clear_value (hx : x = _); clear hx) | apply OptKeeps.ite | split
    | (refine Keeps.same ?_ rfl rfl rfl rfl rfl rfl rfl rfl))

theorem execEgressSelection_keeps {s0 : State} (m : Nat) (upset : Bool) (s : State) (hS : Keeps s0 s) : OutKeeps s0 (execEgressSelection m upset s) := by
  unfold execEgressSelection
  with_reducible repeat' (first
    | assumption | intro _ | apply State.advance_keeps | apply State.egTc_keeps | apply OptKeeps.findSome | apply OutKeeps.next
    | (extract_lets +onlyGivenNames x; clear_value (hx : x = _); refine Keeps.via (s := s0) hx ?_ fun hk => ?_) | apply OutKeeps.ite
    | split | refine OptKeeps.get (by assumption) ?_)

theorem execTxLate_keeps {s0 : State} (q i : Nat) (s : State) (hS : Keeps s0 s) : OutKeeps s0 (execTxLate q i s) := by
  unfold execTxLate
  with_reducible repeat' (first
    | assumption | intro _ | exact Keeps.refl _ | apply State.inc_keeps | apply State.advance_keeps | apply State.faultGather_keeps
    | apply State.setEgq_keeps | apply State.egPop_keeps | apply State.svcDrain_keeps | apply OptKeeps.some | exact OptKeeps.none
    | apply OutKeeps.next | (extract_lets +onlyGivenNames x; clear_value (hx : x = _); refine Keeps.via (s := s0) hx ?_ fun hk => ?_)
    | (extract_lets +onlyGivenNames x; clear_value (hx : x = _); refine Keeps.viaP (s := s0) hx ?_ fun hk => ?_)
    | (extract_lets +onlyGivenNames x; clear_value (hx : x = _); refine OptKeeps.via (s := s0) hx ?_ fun hk => ?_)
    | (extract_lets +onlyGivenNames x; clear_value (hx : x = _); clear hx) | apply Keeps.ite | apply OptKeeps.ite | apply OutKeeps.ite
    | split | dsimp -zeta only | exact OptKeeps.get rfl (by assumption) | refine OptKeeps.get (by assumption) ?_
    | refine Keeps.ofMk (by assumption) ?_ | (refine Keeps.same ?_ rfl rfl rfl rfl rfl rfl rfl rfl))

theorem execGateChange_keeps {s0 : State} (m : Nat) (s : State) (hS : Keeps s0 s) : OutKeeps s0 (execGateChange m s) := by
  unfold execGateChange
  with_reducible repeat' (first
    | assumption | apply State.advanceNs_keeps | apply OutKeeps.next | apply OutKeeps.ite | split)

theorem execPacketStall_keeps {s0 : State} (egress : Bool) (x : Nat) (s : State) (hS : Keeps s0 s) : OutKeeps s0 (execPacketStall egress x s) := by
  unfold execPacketStall
  with_reducible repeat' (first
    | assumption | intro _ | exact Keeps.refl _ | apply State.inc_keeps | apply State.advance_keeps | apply State.rxHold_keeps
    | apply State.rxCut_keeps | apply OptKeeps.some | exact OptKeeps.none | apply OutKeeps.next
    | (extract_lets +onlyGivenNames x; clear_value (hx : x = _); refine Keeps.via (s := s0) hx ?_ fun hk => ?_)
    | (extract_lets +onlyGivenNames x; clear_value (hx : x = _); refine Keeps.viaP (s := s0) hx ?_ fun hk => ?_)
    | (extract_lets +onlyGivenNames x; clear_value (hx : x = _); ((have hy : @Eq RadSt x _ := hx); clear hx; subst hy))
    | (extract_lets +onlyGivenNames x; clear_value (hx : x = _); refine OptKeeps.via (s := s0) hx ?_ fun hk => ?_)
    | (extract_lets +onlyGivenNames x; clear_value (hx : x = _); clear hx) | apply Keeps.ite | apply OptKeeps.ite | apply OutKeeps.ite
    | split | dsimp -zeta only | exact OptKeeps.get rfl (by assumption) | refine OptKeeps.get (by assumption) ?_
    | refine Keeps.ofMk (by assumption) ?_ | (refine Keeps.same ?_ rfl rfl rfl rfl rfl rfl rfl rfl))

theorem execXoffHoldEnd_keeps {s0 : State} (p : Nat) (s : State) (hS : Keeps s0 s) : OutKeeps s0 (execXoffHoldEnd p s) := by
  unfold execXoffHoldEnd
  with_reducible repeat' (first
    | assumption | intro _ | exact Keeps.refl _ | apply State.advance_keeps | apply State.xoffPin_keeps | apply OutKeeps.next
    | (extract_lets +onlyGivenNames x; clear_value (hx : x = _); refine Keeps.via (s := s0) hx ?_ fun hk => ?_)
    | (extract_lets +onlyGivenNames x; clear_value (hx : x = _); refine Keeps.viaP (s := s0) hx ?_ fun hk => ?_)
    | (extract_lets +onlyGivenNames x; clear_value (hx : x = _); refine OptKeeps.via (s := s0) hx ?_ fun hk => ?_)
    | (extract_lets +onlyGivenNames x; clear_value (hx : x = _); clear hx) | apply Keeps.ite | apply OutKeeps.ite | split
    | dsimp -zeta only)

theorem execPfcFrame_keeps {s0 : State} (m vec : Nat) (quanta : List Nat) (s : State) (hS : Keeps s0 s) : OutKeeps s0 (execPfcFrame m vec quanta s) := by
  unfold execPfcFrame
  with_reducible repeat' (first
    | assumption | apply State.pfcReceived_keeps | apply OutKeeps.next | apply OutKeeps.ite)

theorem execPfcPauseExpiry_keeps {s0 : State} (m k : Nat) (s : State) (hS : Keeps s0 s) : OutKeeps s0 (execPfcPauseExpiry m k s) := by
  unfold execPfcPauseExpiry
  with_reducible repeat' (first
    | assumption | apply State.advance_keeps | apply OutKeeps.next
    | (extract_lets +onlyGivenNames x; clear_value (hx : x = _); refine Keeps.via (s := s0) hx ?_ fun hk => ?_)
    | (extract_lets +onlyGivenNames x; clear_value (hx : x = _); ((have hy : @Eq EthSt x _ := hx); clear hx; subst hy))
    | apply OutKeeps.ite | split | (refine Keeps.same ?_ rfl rfl rfl rfl rfl rfl rfl rfl))

theorem execPfcRefresh_keeps {s0 : State} (m : Nat) (s : State) (hS : Keeps s0 s) : OutKeeps s0 (execPfcRefresh m s) := by
  unfold execPfcRefresh
  with_reducible repeat' (first
    | assumption | apply State.advance_keeps | apply State.sendPfc_keeps | apply OutKeeps.next | apply OutKeeps.ite)

theorem State.macDown_keeps {s0 : State} (s : State) (m : Nat) (hS : Keeps s0 s) : Keeps s0 (State.macDown s m) := by
  unfold State.macDown
  with_reducible repeat' (first
    | assumption | intro _ | exact Keeps.refl _ | apply State.wr_keeps | apply State.inc_keeps | apply State.ethFault_keeps
    | apply State.rxHold_keeps | apply CKeeps.cut
    | (extract_lets +onlyGivenNames x; clear_value (hx : x = _); refine Keeps.via (s := s0) hx ?_ fun hk => ?_)
    | (extract_lets +onlyGivenNames x; clear_value (hx : x = _); refine Keeps.viaP (s := s0) hx ?_ fun hk => ?_)
    | (extract_lets +onlyGivenNames x; clear_value (hx : x = _); ((have hy : @Eq EthSt x _ := hx); clear hx; subst hy))
    | (extract_lets +onlyGivenNames x; clear_value (hx : x = _); refine OptKeeps.via (s := s0) hx ?_ fun hk => ?_)
    | (extract_lets +onlyGivenNames x; clear_value (hx : x = _); clear hx) | apply Keeps.ite | split | dsimp -zeta only
    | refine CKeeps.getOk (by assumption) ?_ | refine CKeeps.getTrap (by assumption) ?_ | refine CKeeps.getCut (by assumption) ?_
    | (refine Keeps.same ?_ rfl rfl rfl rfl rfl rfl rfl rfl))

theorem execEthLinkDown_keeps {s0 : State} (m : Nat) (s : State) (hS : Keeps s0 s) : OutKeeps s0 (execEthLinkDown m s) := by
  unfold execEthLinkDown
  with_reducible repeat' (first
    | assumption | apply State.macDown_keeps | apply OutKeeps.next | apply OutKeeps.ite)

theorem execEthLinkUp_keeps {s0 : State} (m : Nat) (s : State) (hS : Keeps s0 s) : OutKeeps s0 (execEthLinkUp m s) := by
  unfold execEthLinkUp
  with_reducible repeat' (first
    | assumption | apply State.wr_keeps | apply OutKeeps.next | (extract_lets +onlyGivenNames x; clear_value (hx : x = _); clear hx)
    | apply OutKeeps.ite)

end Sys2Proof.Machine
end

