-- ==== Sys2Proof/Laws/KeepsScribeBase.lean ====
section
/-! SUPPORT. Every operation of Machine/ScribeBase.lean keeps what Keeps (Safety.lean) says. -/

namespace Sys2Proof.Machine

/-- A Scribe instruction's result keeps what Keeps says, where it has a state. -/
def RKeeps (s : State) (r : ScRes) : Prop := (∀ t c, r = .ok t c → Keeps s t) ∧ ∀ t c p, r = .jump t c p → Keeps s t

theorem RKeeps.ok {s t : State} {c : Scribe} (h : Keeps s t) : RKeeps s (.ok t c) :=
  ⟨fun u _ e => by cases e; exact h, fun u _ _ e => (by cases e)⟩

theorem RKeeps.jump {s t : State} {c : Scribe} {p : Nat} (h : Keeps s t) : RKeeps s (.jump t c p) :=
  ⟨fun u _ e => (by cases e), fun u _ _ e => by cases e; exact h⟩

theorem RKeeps.fault {s : State} {c : Nat} : RKeeps s (.fault c) := ⟨fun u _ e => (by cases e), fun u _ _ e => (by cases e)⟩

theorem RKeeps.wait {s : State} : RKeeps s .wait := ⟨fun u _ e => (by cases e), fun u _ _ e => (by cases e)⟩

theorem RKeeps.exit {s : State} {c : Scribe} : RKeeps s (.exit c) := ⟨fun u _ e => (by cases e), fun u _ _ e => (by cases e)⟩

theorem RKeeps.ite {s : State} {t u : ScRes} {c : Prop} [Decidable c] (h : RKeeps s t) (k : RKeeps s u) :
    RKeeps s (if c then t else u) := by
  split
  · exact h
  · exact k

theorem RKeeps.via {s : State} {x v : ScRes} {P : Prop} (h : x = v) (k : RKeeps s v) (g : RKeeps s x → P) : P := g (h ▸ k)

theorem RKeeps.getOk {s t : State} {r : ScRes} {c : Scribe} (e : r = .ok t c) (h : RKeeps s r) : Keeps s t := h.1 t c e

theorem RKeeps.getJump {s t : State} {r : ScRes} {c : Scribe} {p : Nat} (e : r = .jump t c p) (h : RKeeps s r) : Keeps s t := h.2 t c p e

theorem State.xyWrite_keeps {s0 : State} (s : State) (k y a : Nat) (l : List Nat) (h : Keeps s0 s) : Keeps s0 (State.xyWrite s k y a l) :=
  Keeps.upd h (Nat.le_refl _) id id id (RadSt.memOk_of (Mem.wf_wrBytes _ _) id) id

theorem State.xyPoison_keeps {s0 : State} (s : State) (k y a n : Nat) (hS : Keeps s0 s) : Keeps s0 (State.xyPoison s k y a n) := by
  unfold State.xyPoison
  with_reducible repeat' (first
    | assumption | (extract_lets +onlyGivenNames x; clear_value (hx : x = _); ((have hy : @Eq RadSt x _ := hx); clear hx; subst hy))
    | (refine Keeps.same ?_ rfl rfl rfl rfl rfl rfl rfl rfl))

theorem State.setScribe_keeps {s0 : State} (s : State) (k : Nat) (c : Scribe) (hS : Keeps s0 s) : Keeps s0 (State.setScribe s k c) := by
  unfold State.setScribe
  with_reducible repeat' (first
    | assumption | (extract_lets +onlyGivenNames x; clear_value (hx : x = _); ((have hy : @Eq RadSt x _ := hx); clear hx; subst hy))
    | (refine Keeps.same ?_ rfl rfl rfl rfl rfl rfl rfl rfl))

theorem State.delScribe_keeps {s0 : State} (s : State) (k : Nat) (hS : Keeps s0 s) : Keeps s0 (State.delScribe s k) := by
  unfold State.delScribe
  with_reducible repeat' (first
    | assumption | (extract_lets +onlyGivenNames x; clear_value (hx : x = _); ((have hy : @Eq RadSt x _ := hx); clear hx; subst hy))
    | (refine Keeps.same ?_ rfl rfl rfl rfl rfl rfl rfl rfl))

theorem State.mvStore_keeps {s0 : State} (s : State) (k y : Nat) (c0 : Scribe) (f : Nat) (hS : Keeps s0 s) : Keeps s0 (State.mvStore s k y c0 f) := by
  unfold State.mvStore
  with_reducible repeat' (first
    | assumption | intro _ | apply State.xyWrite_keeps | apply Keeps.each
    | (extract_lets +onlyGivenNames x; clear_value (hx : x = _); clear hx) | apply Keeps.ite)

theorem State.xferDrop_keeps {s0 : State} (s : State) (k : Nat) (x : Xfer) (hS : Keeps s0 s) : Keeps s0 (State.xferDrop s k x) := by
  unfold State.xferDrop
  with_reducible repeat' (first
    | assumption | apply State.inc_keeps | apply State.subFill_keeps
    | (extract_lets +onlyGivenNames x; clear_value (hx : x = _); refine Keeps.via (s := s0) hx ?_ fun hk => ?_) | apply Keeps.ite | split)

/-- Each piece of a transfer keeps. -/
theorem xferPieces_keeps {s0 : State} (k : Nat) (x : Xfer) : ∀ g ∈ xferPieces k x, ∀ t, Keeps s0 t → Keeps s0 (g t) := by
  intro g hg t ht
  unfold xferPieces at hg
  extract_lets r y loc len rem node cut peer pa core at hg
  clear_value node cut
  split at hg
  · split at hg
    · cases hg
    · extract_lets d at hg
      obtain ⟨e, -, rfl⟩ := List.mem_map.mp hg
      exact State.xyWrite_keeps _ _ _ _ _ ht
  · obtain ⟨e, -, rfl⟩ := List.mem_map.mp hg
    show Keeps s0 (ite _ _ _)
    split
    · exact ht
    · extract_lets lost t1
      have h1 : Keeps s0 t1 := State.countPoison_keeps _ _ _ (State.xyWrite_keeps _ _ _ _ _ ht)
      clear_value t1
      split
      · exact State.xyPoison_keeps _ _ _ _ _ h1
      · exact h1
  · obtain ⟨e, -, rfl⟩ := List.mem_map.mp hg
    show Keeps s0 (ite _ _ _)
    split
    · exact ht
    · extract_lets t1
      have h1 : Keeps s0 t1 := State.stBytes_keeps _ _ _ ht
      clear_value t1
      split
      · exact State.setLineBad_keeps _ _ _ h1
      · exact h1
  · obtain ⟨e, -, rfl⟩ := List.mem_map.mp hg

    dsimp -zeta only
    extract_lets t1
    have h1 : Keeps s0 t1 := State.xyWrite_keeps _ _ _ _ _ ht
    clear_value t1
    split
    · exact State.xyPoison_keeps _ _ _ _ _ h1
    · exact h1
  · obtain ⟨row, -, hg⟩ := List.mem_flatMap.mp hg
    obtain ⟨e, -, rfl⟩ := List.mem_map.mp hg
    show Keeps s0 (ite _ _ _)
    split
    · exact ht
    · extract_lets a d t1
      have h1 : Keeps s0 t1 := State.csWrite_keeps _ _ _ _ ht
      clear_value t1
      split
      · exact State.csPoison_keeps _ _ _ _ h1
      · exact h1
  · cases hg

theorem State.xferAbandon_keeps {s0 : State} (s : State) (k : Nat) (x : Xfer) (h : Keeps s0 s) : Keeps s0 (State.xferAbandon s k x) := by
  refine State.xferDrop_keeps _ _ _ (Keeps.eachMem (fun e he t ht => ?_) (State.took_keeps _ h))
  split
  · exact xferPieces_keeps k x e.2 (List.of_mem_zip he).2 t ht
  · exact ht

theorem State.clearScribe_keeps {s0 : State} (s : State) (k : Nat) (hS : Keeps s0 s) : Keeps s0 (State.clearScribe s k) := by
  unfold State.clearScribe
  with_reducible repeat' (first
    | assumption | intro _ | apply State.semWithdraw_keeps | apply State.delScribe_keeps | apply State.xferAbandon_keeps
    | apply Keeps.each | split)

theorem State.scribeFault_keeps {s0 : State} (s : State) (k code : Nat) (hS : Keeps s0 s) : Keeps s0 (State.scribeFault s k code) := by
  unfold State.scribeFault
  with_reducible repeat' (first
    | assumption | apply State.fault_keeps | apply State.countedFault_keeps | apply State.setPhase_keeps | apply State.markLost_keeps
    | apply State.meterRun_keeps | apply State.clearScribe_keeps
    | (extract_lets +onlyGivenNames x; clear_value (hx : x = _); refine Keeps.via (s := s0) hx ?_ fun hk => ?_)
    | (extract_lets +onlyGivenNames x; clear_value (hx : x = _); clear hx) | apply Keeps.ite | split)

theorem State.exitScribe_keeps {s0 : State} (s : State) (k : Nat) (hS : Keeps s0 s) : Keeps s0 (State.exitScribe s k) := by
  unfold State.exitScribe
  with_reducible repeat' (first
    | assumption | apply State.setPhase_keeps | apply State.rec__keeps | apply State.meterRun_keeps | apply State.postOf_keeps
    | apply State.delScribe_keeps | (extract_lets +onlyGivenNames x; clear_value (hx : x = _); clear hx) | split)

theorem State.settleScribe_keeps {s0 : State} (s : State) (k : Nat) (hS : Keeps s0 s) : Keeps s0 (State.settleScribe s k) := by
  unfold State.settleScribe
  with_reducible repeat' (first
    | assumption | apply State.setScribe_keeps | apply State.exitScribe_keeps | apply Keeps.ite | split)

theorem scribeIssue_keeps {s0 : State} (k op : Nat) (upset : Bool) (s : State) (body : Scribe → Nat → ScRes) (hbody : ∀ a0 a1, RKeeps s0 (body a0 a1)) (hS : Keeps s0 s) : OutKeeps s0 (scribeIssue k op upset s body) := by
  unfold scribeIssue
  with_reducible repeat' (first
    | assumption | intro _ | exact Keeps.refl _ | apply hbody | apply State.fault_keeps | apply State.upset_keeps
    | apply State.setScribe_keeps | apply State.scribeFault_keeps | apply State.settleScribe_keeps | apply OptKeeps.some
    | exact OptKeeps.none | apply CKeeps.ok | exact CKeeps.fault | exact CKeeps.wait | apply RKeeps.ok | apply RKeeps.jump
    | exact RKeeps.fault | exact RKeeps.wait | exact RKeeps.exit | apply OutKeeps.next
    | (extract_lets +onlyGivenNames x; clear_value (hx : x = _); refine Keeps.via (s := s0) hx ?_ fun hk => ?_)
    | (extract_lets +onlyGivenNames x; clear_value (hx : x = _); refine Keeps.viaP (s := s0) hx ?_ fun hk => ?_)
    | (extract_lets +onlyGivenNames x; clear_value (hx : x = _); refine CKeeps.via (s := s0) hx ?_ fun hk => ?_)
    | (extract_lets +onlyGivenNames x; clear_value (hx : x = _); refine RKeeps.via (s := s0) hx ?_ fun hk => ?_)
    | (extract_lets +onlyGivenNames x; clear_value (hx : x = _); refine OptKeeps.via (s := s0) hx ?_ fun hk => ?_)
    | (extract_lets +onlyGivenNames x; clear_value (hx : x = _); clear hx) | apply Keeps.ite | apply OptKeeps.ite | apply OutKeeps.ite
    | apply CKeeps.ite | apply RKeeps.ite | split | dsimp -zeta only | exact OptKeeps.get rfl (by assumption)
    | refine OptKeeps.get (by assumption) ?_ | refine CKeeps.getOk (by assumption) ?_ | refine CKeeps.getTrap (by assumption) ?_
    | refine CKeeps.getCut (by assumption) ?_ | refine RKeeps.getOk (by assumption) ?_ | refine RKeeps.getJump (by assumption) ?_
    | refine Keeps.ofMk (by assumption) ?_ | (refine Keeps.same ?_ rfl rfl rfl rfl rfl rfl rfl rfl))

end Sys2Proof.Machine
end

