-- ==== Sys2Proof/Laws/KeepsScribeAlu.lean ====
section
/-! SUPPORT. Every operation of Machine/ScribeAlu.lean keeps what Keeps (Safety.lean) says. -/

namespace Sys2Proof.Machine

theorem aluIssue_keeps {s0 : State} (k op : Nat) (upset : Bool) (noX noY : Bool) (s : State) (bad : Scribe → Nat → Bool) (alu : Scribe → Nat → Scribe → Scribe) (hS : Keeps s0 s) : OutKeeps s0 (aluIssue k op upset noX noY s bad alu) := by
  unfold aluIssue
  with_reducible repeat' (first
    | assumption | intro _ | apply State.mvStore_keeps | apply scribeIssue_keeps | apply RKeeps.ok | exact RKeeps.fault
    | (extract_lets +onlyGivenNames x; clear_value (hx : x = _); refine Keeps.via (s := s0) hx ?_ fun hk => ?_)
    | (extract_lets +onlyGivenNames x; clear_value (hx : x = _); clear hx) | apply RKeeps.ite)

theorem aluAcc_keeps {s0 : State} (k op : Nat) (upset : Bool) (s : State) (f : Scribe → Nat → List Int) (hS : Keeps s0 s) : OutKeeps s0 (aluAcc k op upset s f) := by
  unfold aluAcc
  with_reducible repeat' (first
    | assumption | apply aluIssue_keeps)

theorem execScribeNop_keeps {s0 : State} (k : Nat) (upset : Bool) (s : State) (hS : Keeps s0 s) : OutKeeps s0 (execScribeNop k upset s) := by
  unfold execScribeNop
  with_reducible repeat' (first
    | assumption | apply aluIssue_keeps)

theorem execClr_keeps {s0 : State} (k : Nat) (upset : Bool) (s : State) (hS : Keeps s0 s) : OutKeeps s0 (execClr k upset s) := by
  unfold execClr
  with_reducible repeat' (first
    | assumption | apply aluAcc_keeps)

theorem execMov_keeps {s0 : State} (k : Nat) (upset : Bool) (s : State) (hS : Keeps s0 s) : OutKeeps s0 (execMov k upset s) := by
  unfold execMov
  with_reducible repeat' (first
    | assumption | apply aluAcc_keeps)

theorem execMpy_keeps {s0 : State} (k : Nat) (upset : Bool) (s : State) (hS : Keeps s0 s) : OutKeeps s0 (execMpy k upset s) := by
  unfold execMpy
  with_reducible repeat' (first
    | assumption | apply aluAcc_keeps)

theorem execMac_keeps {s0 : State} (k : Nat) (upset : Bool) (s : State) (hS : Keeps s0 s) : OutKeeps s0 (execMac k upset s) := by
  unfold execMac
  with_reducible repeat' (first
    | assumption | apply aluAcc_keeps)

theorem execMsu_keeps {s0 : State} (k : Nat) (upset : Bool) (s : State) (hS : Keeps s0 s) : OutKeeps s0 (execMsu k upset s) := by
  unfold execMsu
  with_reducible repeat' (first
    | assumption | apply aluAcc_keeps)

theorem execMacl_keeps {s0 : State} (k : Nat) (upset : Bool) (s : State) (hS : Keeps s0 s) : OutKeeps s0 (execMacl k upset s) := by
  unfold execMacl
  with_reducible repeat' (first
    | assumption | apply aluAcc_keeps)

theorem execMag_keeps {s0 : State} (k : Nat) (upset : Bool) (s : State) (hS : Keeps s0 s) : OutKeeps s0 (execMag k upset s) := by
  unfold execMag
  with_reducible repeat' (first
    | assumption | apply aluAcc_keeps)

theorem execMaga_keeps {s0 : State} (k : Nat) (upset : Bool) (s : State) (hS : Keeps s0 s) : OutKeeps s0 (execMaga k upset s) := by
  unfold execMaga
  with_reducible repeat' (first
    | assumption | apply aluAcc_keeps)

theorem execAddr_keeps {s0 : State} (k : Nat) (upset : Bool) (s : State) (hS : Keeps s0 s) : OutKeeps s0 (execAddr k upset s) := by
  unfold execAddr
  with_reducible repeat' (first
    | assumption | apply aluAcc_keeps)

theorem execSubr_keeps {s0 : State} (k : Nat) (upset : Bool) (s : State) (hS : Keeps s0 s) : OutKeeps s0 (execSubr k upset s) := by
  unfold execSubr
  with_reducible repeat' (first
    | assumption | apply aluAcc_keeps)

theorem execAcca_keeps {s0 : State} (k : Nat) (upset : Bool) (s : State) (hS : Keeps s0 s) : OutKeeps s0 (execAcca k upset s) := by
  unfold execAcca
  with_reducible repeat' (first
    | assumption | apply aluAcc_keeps)

theorem execAsh_keeps {s0 : State} (k : Nat) (upset : Bool) (s : State) (hS : Keeps s0 s) : OutKeeps s0 (execAsh k upset s) := by
  unfold execAsh
  with_reducible repeat' (first
    | assumption | apply aluAcc_keeps)

theorem execNeg_keeps {s0 : State} (k : Nat) (upset : Bool) (s : State) (hS : Keeps s0 s) : OutKeeps s0 (execNeg k upset s) := by
  unfold execNeg
  with_reducible repeat' (first
    | assumption | apply aluAcc_keeps)

theorem execRmpy_keeps {s0 : State} (k : Nat) (upset : Bool) (s : State) (hS : Keeps s0 s) : OutKeeps s0 (execRmpy k upset s) := by
  unfold execRmpy
  with_reducible repeat' (first
    | assumption | apply aluAcc_keeps)

theorem execRmac_keeps {s0 : State} (k : Nat) (upset : Bool) (s : State) (hS : Keeps s0 s) : OutKeeps s0 (execRmac k upset s) := by
  unfold execRmac
  with_reducible repeat' (first
    | assumption | apply aluAcc_keeps)

theorem execMaxa_keeps {s0 : State} (k : Nat) (upset : Bool) (s : State) (hS : Keeps s0 s) : OutKeeps s0 (execMaxa k upset s) := by
  unfold execMaxa
  with_reducible repeat' (first
    | assumption | apply aluAcc_keeps)

theorem execMina_keeps {s0 : State} (k : Nat) (upset : Bool) (s : State) (hS : Keeps s0 s) : OutKeeps s0 (execMina k upset s) := by
  unfold execMina
  with_reducible repeat' (first
    | assumption | apply aluAcc_keeps)

theorem execBexp_keeps {s0 : State} (k : Nat) (upset : Bool) (s : State) (hS : Keeps s0 s) : OutKeeps s0 (execBexp k upset s) := by
  unfold execBexp
  with_reducible repeat' (first
    | assumption | apply aluIssue_keeps)

theorem execNorm_keeps {s0 : State} (k : Nat) (upset : Bool) (s : State) (hS : Keeps s0 s) : OutKeeps s0 (execNorm k upset s) := by
  unfold execNorm
  with_reducible repeat' (first
    | assumption | apply aluAcc_keeps)

theorem execExpx_keeps {s0 : State} (k : Nat) (upset : Bool) (s : State) (hS : Keeps s0 s) : OutKeeps s0 (execExpx k upset s) := by
  unfold execExpx
  with_reducible repeat' (first
    | assumption | apply aluAcc_keeps)

theorem execNormp_keeps {s0 : State} (k : Nat) (upset : Bool) (s : State) (hS : Keeps s0 s) : OutKeeps s0 (execNormp k upset s) := by
  unfold execNormp
  with_reducible repeat' (first
    | assumption | apply aluAcc_keeps)

theorem execBf2_keeps {s0 : State} (k : Nat) (upset : Bool) (s : State) (hS : Keeps s0 s) : OutKeeps s0 (execBf2 k upset s) := by
  unfold execBf2
  with_reducible repeat' (first
    | assumption | apply aluIssue_keeps)

theorem execBf3_keeps {s0 : State} (k : Nat) (upset : Bool) (s : State) (hS : Keeps s0 s) : OutKeeps s0 (execBf3 k upset s) := by
  unfold execBf3
  with_reducible repeat' (first
    | assumption | apply aluIssue_keeps)

theorem execBf4_keeps {s0 : State} (k : Nat) (upset : Bool) (s : State) (hS : Keeps s0 s) : OutKeeps s0 (execBf4 k upset s) := by
  unfold execBf4
  with_reducible repeat' (first
    | assumption | apply aluIssue_keeps)

theorem execShuf_keeps {s0 : State} (k : Nat) (upset : Bool) (s : State) (hS : Keeps s0 s) : OutKeeps s0 (execShuf k upset s) := by
  unfold execShuf
  with_reducible repeat' (first
    | assumption | apply aluIssue_keeps)

theorem execGold_keeps {s0 : State} (k : Nat) (upset : Bool) (s : State) (hS : Keeps s0 s) : OutKeeps s0 (execGold k upset s) := by
  unfold execGold
  with_reducible repeat' (first
    | assumption | apply aluIssue_keeps)

theorem execModm_keeps {s0 : State} (k : Nat) (upset : Bool) (s : State) (hS : Keeps s0 s) : OutKeeps s0 (execModm k upset s) := by
  unfold execModm
  with_reducible repeat' (first
    | assumption | apply aluIssue_keeps)

theorem execDemap_keeps {s0 : State} (k : Nat) (upset : Bool) (s : State) (hS : Keeps s0 s) : OutKeeps s0 (execDemap k upset s) := by
  unfold execDemap
  with_reducible repeat' (first
    | assumption | intro _ | apply State.xyWrite_keeps | apply State.mvStore_keeps | apply scribeIssue_keeps | apply Keeps.each
    | apply RKeeps.ok | exact RKeeps.fault
    | (extract_lets +onlyGivenNames x; clear_value (hx : x = _); refine Keeps.via (s := s0) hx ?_ fun hk => ?_)
    | (extract_lets +onlyGivenNames x; clear_value (hx : x = _); clear hx) | apply RKeeps.ite)

theorem execBfpx_keeps {s0 : State} (k : Nat) (upset : Bool) (s : State) (hS : Keeps s0 s) : OutKeeps s0 (execBfpx k upset s) := by
  unfold execBfpx
  with_reducible repeat' (first
    | assumption | intro _ | apply State.mvStore_keeps | apply scribeIssue_keeps | apply RKeeps.ok | exact RKeeps.fault
    | (extract_lets +onlyGivenNames x; clear_value (hx : x = _); clear hx) | apply RKeeps.ite)

theorem execBfpc_keeps {s0 : State} (k : Nat) (upset : Bool) (s : State) (hS : Keeps s0 s) : OutKeeps s0 (execBfpc k upset s) := by
  unfold execBfpc
  with_reducible repeat' (first
    | assumption | intro _ | apply State.xyWrite_keeps | apply State.mvStore_keeps | apply scribeIssue_keeps | apply Keeps.each
    | apply RKeeps.ok | exact RKeeps.fault
    | (extract_lets +onlyGivenNames x; clear_value (hx : x = _); refine Keeps.via (s := s0) hx ?_ fun hk => ?_)
    | (extract_lets +onlyGivenNames x; clear_value (hx : x = _); clear hx) | apply RKeeps.ite)

end Sys2Proof.Machine
end

