-- ==== Sys2Proof/Laws/KeepsScribeCtl.lean ====
section
/-! SUPPORT. Every operation of Machine/ScribeCtl.lean keeps what Keeps (Safety.lean) says. -/

namespace Sys2Proof.Machine

/-- All pieces of a transfer together. -/
theorem xferRun_keeps {s0 s : State} (k : Nat) (x : Xfer) (h : Keeps s0 s) : Keeps s0 (each (xferPieces k x) s (fun f t => f t)) :=
  Keeps.eachMem (fun g hg t ht => xferPieces_keeps k x g hg t ht) h

theorem execLoop_keeps {s0 : State} (k : Nat) (upset : Bool) (s : State) (hS : Keeps s0 s) : OutKeeps s0 (execLoop k upset s) := by
  unfold execLoop
  with_reducible repeat' (first
    | assumption | intro _ | exact Keeps.refl _ | apply State.fault_keeps | apply State.upset_keeps | apply scribeIssue_keeps
    | exact CKeeps.fault | apply RKeeps.jump | exact RKeeps.fault
    | (extract_lets +onlyGivenNames x; clear_value (hx : x = _); refine Keeps.via (s := s0) hx ?_ fun hk => ?_)
    | (extract_lets +onlyGivenNames x; clear_value (hx : x = _); refine Keeps.viaP (s := s0) hx ?_ fun hk => ?_)
    | (extract_lets +onlyGivenNames x; clear_value (hx : x = _); refine OptKeeps.via (s := s0) hx ?_ fun hk => ?_)
    | (extract_lets +onlyGivenNames x; clear_value (hx : x = _); clear hx) | apply Keeps.ite | apply CKeeps.ite | apply RKeeps.ite | split
    | dsimp -zeta only | refine RKeeps.getOk (by assumption) ?_ | refine RKeeps.getJump (by assumption) ?_
    | (refine Keeps.same ?_ rfl rfl rfl rfl rfl rfl rfl rfl))

theorem execScribeJmp_keeps {s0 : State} (k : Nat) (upset : Bool) (s : State) (hS : Keeps s0 s) : OutKeeps s0 (execScribeJmp k upset s) := by
  unfold execScribeJmp
  with_reducible repeat' (first
    | assumption | intro _ | exact Keeps.refl _ | apply State.fault_keeps | apply State.upset_keeps | apply scribeIssue_keeps
    | apply CKeeps.ok | exact CKeeps.fault | apply RKeeps.ok | apply RKeeps.jump | exact RKeeps.fault
    | (extract_lets +onlyGivenNames x; clear_value (hx : x = _); refine Keeps.via (s := s0) hx ?_ fun hk => ?_)
    | (extract_lets +onlyGivenNames x; clear_value (hx : x = _); refine Keeps.viaP (s := s0) hx ?_ fun hk => ?_)
    | (extract_lets +onlyGivenNames x; clear_value (hx : x = _); refine CKeeps.via (s := s0) hx ?_ fun hk => ?_)
    | (extract_lets +onlyGivenNames x; clear_value (hx : x = _); refine RKeeps.via (s := s0) hx ?_ fun hk => ?_)
    | (extract_lets +onlyGivenNames x; clear_value (hx : x = _); refine OptKeeps.via (s := s0) hx ?_ fun hk => ?_)
    | (extract_lets +onlyGivenNames x; clear_value (hx : x = _); clear hx) | apply Keeps.ite | apply CKeeps.ite | apply RKeeps.ite | split
    | dsimp -zeta only | refine CKeeps.getOk (by assumption) ?_ | refine CKeeps.getTrap (by assumption) ?_
    | refine CKeeps.getCut (by assumption) ?_ | refine RKeeps.getOk (by assumption) ?_ | refine RKeeps.getJump (by assumption) ?_
    | refine Keeps.ofMk (by assumption) ?_ | (refine Keeps.same ?_ rfl rfl rfl rfl rfl rfl rfl rfl))

theorem execAga_keeps {s0 : State} (k : Nat) (upset : Bool) (s : State) (hS : Keeps s0 s) : OutKeeps s0 (execAga k upset s) := by
  unfold execAga
  with_reducible repeat' (first
    | assumption | intro _ | apply scribeIssue_keeps | apply RKeeps.ok | exact RKeeps.fault
    | (extract_lets +onlyGivenNames x; clear_value (hx : x = _); clear hx) | apply RKeeps.ite)

theorem execMovi_keeps {s0 : State} (k : Nat) (upset : Bool) (s : State) (hS : Keeps s0 s) : OutKeeps s0 (execMovi k upset s) := by
  unfold execMovi
  with_reducible repeat' (first
    | assumption | intro _ | apply scribeIssue_keeps | apply RKeeps.ok | exact RKeeps.fault | apply RKeeps.ite)

theorem execMovr_keeps {s0 : State} (k : Nat) (upset : Bool) (s : State) (hS : Keeps s0 s) : OutKeeps s0 (execMovr k upset s) := by
  unfold execMovr
  with_reducible repeat' (first
    | assumption | intro _ | apply scribeIssue_keeps | apply RKeeps.ok | exact RKeeps.fault | apply RKeeps.ite)

theorem execMovl_keeps {s0 : State} (k : Nat) (upset : Bool) (s : State) (hS : Keeps s0 s) : OutKeeps s0 (execMovl k upset s) := by
  unfold execMovl
  with_reducible repeat' (first
    | assumption | intro _ | apply scribeIssue_keeps | apply RKeeps.ok | exact RKeeps.fault
    | (extract_lets +onlyGivenNames x; clear_value (hx : x = _); clear hx) | apply RKeeps.ite)

theorem execSeqi_keeps {s0 : State} (k : Nat) (upset : Bool) (s : State) (hS : Keeps s0 s) : OutKeeps s0 (execSeqi k upset s) := by
  unfold execSeqi
  with_reducible repeat' (first
    | assumption | intro _ | apply scribeIssue_keeps | apply RKeeps.ok | exact RKeeps.fault
    | (extract_lets +onlyGivenNames x; clear_value (hx : x = _); clear hx) | apply RKeeps.ite)

theorem execSeqs_keeps {s0 : State} (k : Nat) (upset : Bool) (s : State) (hS : Keeps s0 s) : OutKeeps s0 (execSeqs k upset s) := by
  unfold execSeqs
  with_reducible repeat' (first
    | assumption | intro _ | apply scribeIssue_keeps | apply RKeeps.ok | exact RKeeps.fault
    | (extract_lets +onlyGivenNames x; clear_value (hx : x = _); clear hx) | apply RKeeps.ite)

theorem State.takePacket_keeps {s0 : State} (s : State) (q len : Nat) (y0 : Nat) (hS : Keeps s0 s) : Keeps s0 (State.takePacket s q len y0).1 := by
  induction y0 generalizing s with
  | zero =>
    unfold State.takePacket
    with_reducible repeat' (first
      | assumption)
  | succ z ih =>
    unfold State.takePacket
    with_reducible repeat' (first
      | assumption | apply ih | apply State.inc_keeps | apply State.setRxq_keeps | apply State.subFill_keeps
      | (extract_lets +onlyGivenNames x; clear_value (hx : x = _); refine Keeps.via (s := s0) hx ?_ fun hk => ?_) | split)

theorem State.setPkt_keeps {s0 : State} (s : State) (e : Nat × Nat) (p : Option RxPkt) (hS : Keeps s0 s) : Keeps s0 (State.setPkt s e p) := by
  unfold State.setPkt
  with_reducible repeat' (first
    | assumption | intro _ | exact Keeps.refl _ | apply State.setScribe_keeps | apply OptKeeps.some | exact OptKeeps.none
    | (extract_lets +onlyGivenNames x; clear_value (hx : x = _); refine Keeps.via (s := s0) hx ?_ fun hk => ?_)
    | (extract_lets +onlyGivenNames x; clear_value (hx : x = _); refine Keeps.viaP (s := s0) hx ?_ fun hk => ?_)
    | (extract_lets +onlyGivenNames x; clear_value (hx : x = _); refine OptKeeps.via (s := s0) hx ?_ fun hk => ?_)
    | (extract_lets +onlyGivenNames x; clear_value (hx : x = _); clear hx) | split | dsimp -zeta only
    | exact OptKeeps.get rfl (by assumption) | refine OptKeeps.get (by assumption) ?_ | refine Keeps.ofMk (by assumption) ?_
    | (refine Keeps.same ?_ rfl rfl rfl rfl rfl rfl rfl rfl))

theorem State.xferTake_keeps {s0 : State} (s : State) (k q len : Nat) (hS : Keeps s0 s) : Keeps s0 (State.xferTake s k q len).1 := by
  unfold State.xferTake
  with_reducible repeat' (first
    | assumption | intro _ | exact Keeps.refl _ | apply State.setRxq_keeps | apply State.takePacket_keeps | apply State.setPkt_keeps
    | apply Keeps.each | apply Keeps.eachP | apply OptKeeps.some | exact OptKeeps.none
    | (extract_lets +onlyGivenNames x; clear_value (hx : x = _); refine Keeps.via (s := s0) hx ?_ fun hk => ?_)
    | (extract_lets +onlyGivenNames x; clear_value (hx : x = _); refine Keeps.viaP (s := s0) hx ?_ fun hk => ?_)
    | (extract_lets +onlyGivenNames x; clear_value (hx : x = _); refine OptKeeps.via (s := s0) hx ?_ fun hk => ?_)
    | (extract_lets +onlyGivenNames x; clear_value (hx : x = _); clear hx) | apply Keeps.ite | apply OptKeeps.ite | split
    | dsimp -zeta only | exact OptKeeps.get rfl (by assumption) | refine OptKeeps.get (by assumption) ?_
    | refine Keeps.ofMk (by assumption) ?_ | (refine Keeps.same ?_ rfl rfl rfl rfl rfl rfl rfl rfl))

theorem State.xferStart_keeps {s0 : State} (s : State) (k : Nat) (c : Scribe) (r a : Nat) (zero : Bool) (hS : Keeps s0 s) : RKeeps s0 (State.xferStart s k c r a zero) := by
  unfold State.xferStart
  with_reducible repeat' (first
    | assumption | intro _ | exact Keeps.refl _ | apply State.inc_keeps | apply State.fault_keeps | apply State.xferTake_keeps
    | exact OptKeeps.none | apply CKeeps.ok | exact CKeeps.fault | apply RKeeps.ok | exact RKeeps.fault
    | (extract_lets +onlyGivenNames x; clear_value (hx : x = _); refine Keeps.via (s := s0) hx ?_ fun hk => ?_)
    | (extract_lets +onlyGivenNames x; clear_value (hx : x = _); refine Keeps.viaP (s := s0) hx ?_ fun hk => ?_)
    | (extract_lets +onlyGivenNames x; clear_value (hx : x = _); refine CKeeps.via (s := s0) hx ?_ fun hk => ?_)
    | (extract_lets +onlyGivenNames x; clear_value (hx : x = _); refine RKeeps.via (s := s0) hx ?_ fun hk => ?_)
    | (extract_lets +onlyGivenNames x; clear_value (hx : x = _); refine OptKeeps.via (s := s0) hx ?_ fun hk => ?_)
    | (extract_lets +onlyGivenNames x; clear_value (hx : x = _); clear hx) | apply Keeps.ite | apply OptKeeps.ite | apply CKeeps.ite
    | apply RKeeps.ite | split | dsimp -zeta only | refine CKeeps.getOk (by assumption) ?_ | refine CKeeps.getTrap (by assumption) ?_
    | refine CKeeps.getCut (by assumption) ?_ | refine RKeeps.getOk (by assumption) ?_ | refine RKeeps.getJump (by assumption) ?_
    | (refine Keeps.same ?_ rfl rfl rfl rfl rfl rfl rfl rfl))

theorem execXfer_keeps {s0 : State} (k : Nat) (upset : Bool) (s : State) (hS : Keeps s0 s) : OutKeeps s0 (execXfer k upset s) := by
  unfold execXfer
  with_reducible repeat' (first
    | assumption | intro _ | apply scribeIssue_keeps | apply State.xferStart_keeps | exact RKeeps.fault | exact RKeeps.wait
    | (extract_lets +onlyGivenNames x; clear_value (hx : x = _); clear hx) | apply RKeeps.ite)

theorem State.exportLine_keeps {s0 : State} (s : State) (node p a : Nat) (l : List Nat) (bad : Bool) (hS : Keeps s0 s) : Keeps s0 (State.exportLine s node p a l bad) := by
  unfold State.exportLine
  with_reducible repeat' (first
    | assumption | intro _ | exact Keeps.refl _ | apply State.setLineBad_keeps | apply State.stBytes_keeps | apply State.tsAccess_keeps
    | apply State.meshRecords_keeps
    | (extract_lets +onlyGivenNames x; clear_value (hx : x = _); refine Keeps.via (s := s0) hx ?_ fun hk => ?_)
    | (extract_lets +onlyGivenNames x; clear_value (hx : x = _); refine Keeps.viaP (s := s0) hx ?_ fun hk => ?_)
    | (extract_lets +onlyGivenNames x; clear_value (hx : x = _); refine OptKeeps.via (s := s0) hx ?_ fun hk => ?_)
    | (extract_lets +onlyGivenNames x; clear_value (hx : x = _); clear hx) | apply Keeps.ite | split | dsimp -zeta only)

theorem State.exportDone_keeps {s0 : State} (s : State) (k : Nat) (x : Xfer) (hS : Keeps s0 s) : Keeps s0 (State.exportDone s k x) := by
  unfold State.exportDone
  with_reducible repeat' (first
    | assumption | intro _ | exact Keeps.refl _ | apply State.wr_keeps | apply State.exportLine_keeps | apply OptKeeps.some
    | apply OptKeeps.map | (extract_lets +onlyGivenNames x; clear_value (hx : x = _); refine Keeps.via (s := s0) hx ?_ fun hk => ?_)
    | (extract_lets +onlyGivenNames x; clear_value (hx : x = _); refine Keeps.viaP (s := s0) hx ?_ fun hk => ?_)
    | (extract_lets +onlyGivenNames x; clear_value (hx : x = _); ((have hy : @Eq RadSt x _ := hx); clear hx; subst hy))
    | (extract_lets +onlyGivenNames x; clear_value (hx : x = _); refine OptKeeps.via (s := s0) hx ?_ fun hk => ?_)
    | (extract_lets +onlyGivenNames x; clear_value (hx : x = _); clear hx) | apply Keeps.ite | apply OptKeeps.ite | split
    | dsimp -zeta only | exact OptKeeps.get rfl (by assumption) | refine OptKeeps.get (by assumption) ?_
    | (refine Keeps.same ?_ rfl rfl rfl rfl rfl rfl rfl rfl))

theorem State.blockToHost_keeps {s0 : State} (s : State) (k : Nat) (x : Xfer) (hS : Keeps s0 s) : Keeps s0 (State.blockToHost s k x) := by
  unfold State.blockToHost
  with_reducible repeat' (first
    | assumption | intro _ | exact Keeps.refl _ | apply State.inc_keeps | apply State.hostWr_keeps | apply State.hostMark_keeps
    | apply State.hqAccessFault_keeps | apply State.hComplete_keeps | apply OptKeeps.some | exact OptKeeps.none
    | (extract_lets +onlyGivenNames x; clear_value (hx : x = _); refine Keeps.via (s := s0) hx ?_ fun hk => ?_)
    | (extract_lets +onlyGivenNames x; clear_value (hx : x = _); refine Keeps.viaP (s := s0) hx ?_ fun hk => ?_)
    | (extract_lets +onlyGivenNames x; clear_value (hx : x = _); refine OptKeeps.via (s := s0) hx ?_ fun hk => ?_)
    | (extract_lets +onlyGivenNames x; clear_value (hx : x = _); clear hx) | apply Keeps.ite | apply OptKeeps.ite | split
    | dsimp -zeta only | exact OptKeeps.get rfl (by assumption) | refine OptKeeps.get (by assumption) ?_
    | refine Keeps.ofMk (by assumption) ?_ | (refine Keeps.same ?_ rfl rfl rfl rfl rfl rfl rfl rfl))

theorem State.messageOut_keeps {s0 : State} (s : State) (k : Nat) (x : Xfer) (hS : Keeps s0 s) : Keeps s0 (State.messageOut s k x) := by
  unfold State.messageOut
  with_reducible repeat' (first
    | assumption | apply State.inc_keeps | apply State.egRewind_keeps | apply State.egCommit_keeps
    | (extract_lets +onlyGivenNames x; clear_value (hx : x = _); clear hx) | apply Keeps.ite)

theorem execXferComplete_keeps {s0 : State} (k : Nat) (s : State) (hS : Keeps s0 s) : OutKeeps s0 (execXferComplete k s) := by
  unfold execXferComplete
  with_reducible repeat' (first
    | assumption | intro _ | exact Keeps.refl _ | apply xferRun_keeps | apply State.tsAccess_keeps | apply State.meshRecord_keeps
    | apply State.meshRecords_keeps | apply State.subFill_keeps | apply State.xyWrite_keeps | apply State.setScribe_keeps
    | apply State.settleScribe_keeps | apply State.exportDone_keeps | apply State.blockToHost_keeps | apply State.messageOut_keeps
    | apply Keeps.each | apply Keeps.eachP | apply OptKeeps.some | apply OptKeeps.map | exact OptKeeps.none | apply OutKeeps.next
    | (extract_lets +onlyGivenNames x; clear_value (hx : x = _); refine Keeps.via (s := s0) hx ?_ fun hk => ?_)
    | (extract_lets +onlyGivenNames x; clear_value (hx : x = _); refine Keeps.viaP (s := s0) hx ?_ fun hk => ?_)
    | (extract_lets +onlyGivenNames x; clear_value (hx : x = _); refine OptKeeps.via (s := s0) hx ?_ fun hk => ?_)
    | (extract_lets +onlyGivenNames x; clear_value (hx : x = _); clear hx) | apply Keeps.ite | apply OptKeeps.ite | apply OutKeeps.ite
    | split | dsimp -zeta only | exact OptKeeps.get rfl (by assumption) | refine OptKeeps.get (by assumption) ?_
    | refine Keeps.ofMk (by assumption) ?_ | (refine Keeps.same ?_ rfl rfl rfl rfl rfl rfl rfl rfl))

theorem execXwait_keeps {s0 : State} (k : Nat) (upset : Bool) (s : State) (hS : Keeps s0 s) : OutKeeps s0 (execXwait k upset s) := by
  unfold execXwait
  with_reducible repeat' (first
    | assumption | intro _ | apply scribeIssue_keeps | apply RKeeps.ok | exact RKeeps.fault
    | (extract_lets +onlyGivenNames x; clear_value (hx : x = _); clear hx) | apply RKeeps.ite)

theorem execScribeSemp_keeps {s0 : State} (k : Nat) (upset : Bool) (s : State) (hS : Keeps s0 s) : OutKeeps s0 (execScribeSemp k upset s) := by
  unfold execScribeSemp
  with_reducible repeat' (first
    | assumption | intro _ | apply State.semPost_keeps | apply scribeIssue_keeps | apply RKeeps.ok | exact RKeeps.fault
    | (extract_lets +onlyGivenNames x; clear_value (hx : x = _); clear hx) | apply RKeeps.ite)

theorem execScribeSemw_keeps {s0 : State} (k : Nat) (upset : Bool) (s : State) (hS : Keeps s0 s) : OutKeeps s0 (execScribeSemw k upset s) := by
  unfold execScribeSemw
  with_reducible repeat' (first
    | assumption | intro _ | apply State.semDec_keeps | apply State.semRegister_keeps | apply scribeIssue_keeps | apply RKeeps.ok
    | exact RKeeps.fault | (extract_lets +onlyGivenNames x; clear_value (hx : x = _); clear hx) | apply RKeeps.ite)

theorem execScribeExit_keeps {s0 : State} (k : Nat) (upset : Bool) (s : State) (hS : Keeps s0 s) : OutKeeps s0 (execScribeExit k upset s) := by
  unfold execScribeExit
  with_reducible repeat' (first
    | assumption | intro _ | apply scribeIssue_keeps | exact RKeeps.fault | exact RKeeps.exit | apply RKeeps.ite)

end Sys2Proof.Machine
end

