-- ==== Sys2Proof/Laws/KeepsFec.lean ====
section
/-! SUPPORT. Every operation of Machine/Fec.lean keeps what Keeps (Safety.lean) says. -/

namespace Sys2Proof.Machine

theorem State.setFec_keeps {s0 : State} (s : State) (e : Nat) (f : Fec) (hS : Keeps s0 s) : Keeps s0 (State.setFec s e f) := by
  unfold State.setFec
  with_reducible repeat' (first
    | assumption | (extract_lets +onlyGivenNames x; clear_value (hx : x = _); ((have hy : @Eq RadSt x _ := hx); clear hx; subst hy))
    | (refine Keeps.same ?_ rfl rfl rfl rfl rfl rfl rfl rfl))

theorem State.delFec_keeps {s0 : State} (s : State) (e : Nat) (hS : Keeps s0 s) : Keeps s0 (State.delFec s e) := by
  unfold State.delFec
  with_reducible repeat' (first
    | assumption | (extract_lets +onlyGivenNames x; clear_value (hx : x = _); ((have hy : @Eq RadSt x _ := hx); clear hx; subst hy))
    | (refine Keeps.same ?_ rfl rfl rfl rfl rfl rfl rfl rfl))

theorem State.exitFec_keeps {s0 : State} (s : State) (e : Nat) (hS : Keeps s0 s) : Keeps s0 (State.exitFec s e) := by
  unfold State.exitFec
  with_reducible repeat' (first
    | assumption | apply State.setPhase_keeps | apply State.rec__keeps | apply State.meterRun_keeps | apply State.postOf_keeps
    | apply State.delFec_keeps | (extract_lets +onlyGivenNames x; clear_value (hx : x = _); clear hx) | split)

theorem State.fecBusy_keeps {s0 : State} (s : State) (e n : Nat) (hS : Keeps s0 s) : Keeps s0 (State.fecBusy s e n) := by
  unfold State.fecBusy
  with_reducible repeat' (first
    | assumption | apply State.inc_keeps
    | (extract_lets +onlyGivenNames x; clear_value (hx : x = _); ((have hy : @Eq RadSt x _ := hx); clear hx; subst hy))
    | (refine Keeps.same ?_ rfl rfl rfl rfl rfl rfl rfl rfl))

theorem State.fecFault_keeps {s0 : State} (s : State) (e code : Nat) (d : Desc) (a : Nat) (hS : Keeps s0 s) : Keeps s0 (State.fecFault s e code d a) := by
  unfold State.fecFault
  with_reducible repeat' (first
    | assumption | apply State.fault_keeps)

theorem State.fecRun_keeps {s0 : State} (s : State) (e op : Nat) (f : Fec) (upset : Bool) (hS : Keeps s0 s) : Keeps s0 (State.fecRun s e op f upset) := by
  unfold State.fecRun
  with_reducible repeat' (first
    | assumption | intro _ | exact Keeps.refl _ | apply State.inc_keeps | apply State.countedFault_keeps | apply State.countPoison_keeps
    | apply State.tsAccess_keeps | apply State.meshRecords_keeps | apply State.stVia_keeps | apply State.upset_keeps
    | apply State.xyWrite_keeps | apply State.setFec_keeps | apply State.exitFec_keeps | apply State.fecBusy_keeps
    | apply State.fecFault_keeps | apply OptKeeps.map | apply OutKeeps.next | apply hF | apply hG | apply hH
    | (extract_lets +onlyGivenNames x; clear_value (hx : x = _); refine Keeps.via (s := s0) hx ?_ fun hk => ?_)
    | (extract_lets +onlyGivenNames x; clear_value (hx : x = _); refine Keeps.viaP (s := s0) hx ?_ fun hk => ?_)
    | (extract_lets +onlyGivenNames x; clear_value (hx : x = _); refine OptKeeps.via (s := s0) hx ?_ fun hk => ?_)
    | (extract_lets +onlyGivenNames x; clear_value (hx : x = _); (fail_if_success have := hF); refine Keeps.viaFunD (s := s0) hx ?_ fun hF => ?_)
    | (extract_lets +onlyGivenNames x; clear_value (hx : x = _); (fail_if_success have := hG); refine Keeps.viaFunD (s := s0) hx ?_ fun hG => ?_)
    | (extract_lets +onlyGivenNames x; clear_value (hx : x = _); clear hx) | apply Keeps.ite | apply OutKeeps.ite | split
    | dsimp -zeta only | (refine Keeps.same ?_ rfl rfl rfl rfl rfl rfl rfl rfl))

theorem fecRow_keeps {s0 : State} (t en op : Nat) (ops : List Nat) (upset : Bool) (s : State) (hS : Keeps s0 s) : OutKeeps s0 (fecRow t en op ops upset s) := by
  unfold fecRow
  with_reducible repeat' (first
    | assumption | intro _ | exact Keeps.refl _ | apply State.upset_keeps | apply State.fecRun_keeps | apply OptKeeps.some
    | exact OptKeeps.none | apply OutKeeps.next
    | (extract_lets +onlyGivenNames x; clear_value (hx : x = _); refine Keeps.via (s := s0) hx ?_ fun hk => ?_)
    | (extract_lets +onlyGivenNames x; clear_value (hx : x = _); refine Keeps.viaP (s := s0) hx ?_ fun hk => ?_)
    | (extract_lets +onlyGivenNames x; clear_value (hx : x = _); refine OptKeeps.via (s := s0) hx ?_ fun hk => ?_)
    | (extract_lets +onlyGivenNames x; clear_value (hx : x = _); clear hx) | apply Keeps.ite | apply OptKeeps.ite | apply OutKeeps.ite
    | split | dsimp -zeta only | exact OptKeeps.get rfl (by assumption) | refine OptKeeps.get (by assumption) ?_
    | refine Keeps.ofMk (by assumption) ?_ | (refine Keeps.same ?_ rfl rfl rfl rfl rfl rfl rfl rfl))

theorem execLdpcDec_keeps {s0 : State} (t : Nat) (upset : Bool) (s : State) (hS : Keeps s0 s) : OutKeeps s0 (execLdpcDec t upset s) := by
  unfold execLdpcDec
  with_reducible repeat' (first
    | assumption | apply fecRow_keeps)

theorem execTurboDec_keeps {s0 : State} (t : Nat) (upset : Bool) (s : State) (hS : Keeps s0 s) : OutKeeps s0 (execTurboDec t upset s) := by
  unfold execTurboDec
  with_reducible repeat' (first
    | assumption | apply fecRow_keeps)

theorem execLdpcEnc_keeps {s0 : State} (t : Nat) (upset : Bool) (s : State) (hS : Keeps s0 s) : OutKeeps s0 (execLdpcEnc t upset s) := by
  unfold execLdpcEnc
  with_reducible repeat' (first
    | assumption | apply fecRow_keeps)

theorem execPolarDec_keeps {s0 : State} (t : Nat) (upset : Bool) (s : State) (hS : Keeps s0 s) : OutKeeps s0 (execPolarDec t upset s) := by
  unfold execPolarDec
  with_reducible repeat' (first
    | assumption | apply fecRow_keeps)

theorem execConvDec_keeps {s0 : State} (t : Nat) (upset : Bool) (s : State) (hS : Keeps s0 s) : OutKeeps s0 (execConvDec t upset s) := by
  unfold execConvDec
  with_reducible repeat' (first
    | assumption | apply fecRow_keeps)

theorem State.radioStartFault_keeps {s0 : State} (s : State) (n i code : Nat) (d : Desc) (hS : Keeps s0 s) : Keeps s0 (State.radioStartFault s n i code d) := by
  unfold State.radioStartFault
  with_reducible repeat' (first
    | assumption | apply State.fault_keeps | apply State.setPhase_keeps | apply State.markLost_keeps)

theorem State.startRadio_keeps {s0 : State} (s : State) (n i : Nat) (hS : Keeps s0 s) : Keeps s0 (State.startRadio s n i) := by
  unfold State.startRadio
  with_reducible repeat' (first
    | assumption | apply State.modSlot_keeps | apply State.rec__keeps | apply State.setScribe_keeps | apply State.scribeFault_keeps
    | apply State.setFec_keeps | apply State.exitFec_keeps | apply State.radioStartFault_keeps
    | (extract_lets +onlyGivenNames x; clear_value (hx : x = _); refine Keeps.via (s := s0) hx ?_ fun hk => ?_)
    | (extract_lets +onlyGivenNames x; clear_value (hx : x = _); clear hx) | apply Keeps.ite | split)

theorem State.tryStartRadio_keeps {s0 : State} (s : State) (n i : Nat) (hS : Keeps s0 s) : Keeps s0 (State.tryStartRadio s n i) := by
  unfold State.tryStartRadio
  with_reducible repeat' (first
    | assumption | apply State.semDec_keeps | apply State.semRegister_keeps | apply State.setPhase_keeps | apply State.startRadio_keeps
    | apply Keeps.ite | split)

theorem State.haltRadio_keeps {s0 : State} (s : State) (n i : Nat) (hS : Keeps s0 s) : Keeps s0 (State.haltRadio s n i) := by
  unfold State.haltRadio
  with_reducible repeat' (first
    | assumption | intro _ | exact Keeps.refl _ | apply State.inc_keeps | apply State.fault_keeps | apply State.semWithdraw_keeps
    | apply State.setPhase_keeps | apply State.markLost_keeps | apply State.rec__keeps | apply State.meterRun_keeps
    | apply State.postClose_keeps | apply State.clearScribe_keeps | apply State.delFec_keeps | apply OptKeeps.some | exact OptKeeps.none
    | exact CKeeps.fault | exact RKeeps.fault
    | (extract_lets +onlyGivenNames x; clear_value (hx : x = _); refine Keeps.via (s := s0) hx ?_ fun hk => ?_)
    | (extract_lets +onlyGivenNames x; clear_value (hx : x = _); refine Keeps.viaP (s := s0) hx ?_ fun hk => ?_)
    | (extract_lets +onlyGivenNames x; clear_value (hx : x = _); refine OptKeeps.via (s := s0) hx ?_ fun hk => ?_)
    | (extract_lets +onlyGivenNames x; clear_value (hx : x = _); clear hx) | apply Keeps.ite | apply OptKeeps.ite | apply CKeeps.ite
    | apply RKeeps.ite | split | dsimp -zeta only | exact OptKeeps.get rfl (by assumption) | refine OptKeeps.get (by assumption) ?_
    | refine Keeps.ofMk (by assumption) ?_ | (refine Keeps.same ?_ rfl rfl rfl rfl rfl rfl rfl rfl))

theorem State.grantRadio_keeps {s0 : State} (s : State) (n target : Nat) (d : Desc) (at_ : Nat) (hS : Keeps s0 s) : Keeps s0 (State.grantRadio s n target d at_) := by
  unfold State.grantRadio
  with_reducible repeat' (first
    | assumption | intro _ | exact Keeps.refl _ | apply State.startRadio_keeps | apply OptKeeps.some | exact OptKeeps.none
    | (extract_lets +onlyGivenNames x; clear_value (hx : x = _); refine Keeps.via (s := s0) hx ?_ fun hk => ?_)
    | (extract_lets +onlyGivenNames x; clear_value (hx : x = _); refine Keeps.viaP (s := s0) hx ?_ fun hk => ?_)
    | (extract_lets +onlyGivenNames x; clear_value (hx : x = _); refine OptKeeps.via (s := s0) hx ?_ fun hk => ?_)
    | (extract_lets +onlyGivenNames x; clear_value (hx : x = _); clear hx) | split | dsimp -zeta only
    | exact OptKeeps.get rfl (by assumption) | refine OptKeeps.get (by assumption) ?_ | refine Keeps.ofMk (by assumption) ?_
    | (refine Keeps.same ?_ rfl rfl rfl rfl rfl rfl rfl rfl))

theorem State.grantScribe_keeps {s0 : State} (s : State) (q k : Nat) (hS : Keeps s0 s) : Keeps s0 (State.grantScribe s q k) := by
  unfold State.grantScribe
  with_reducible repeat' (first
    | assumption | apply State.setScribe_keeps | apply Keeps.ite | split)

end Sys2Proof.Machine
end

