-- ==== Sys2Proof/Laws/KeepsInkwell.lean ====
section
/-! SUPPORT. Every operation of Machine/Inkwell.lean keeps what Keeps (Safety.lean) says. -/

namespace Sys2Proof.Machine

theorem State.stFor_keeps {s0 : State} (s : State) (p a : Nat) (l : List Nat) (hS : Keeps s0 s) : Keeps s0 (State.stFor s p a l) := by
  unfold State.stFor
  with_reducible repeat' (first
    | assumption | intro _ | exact Keeps.refl _ | apply State.stBytes_keeps | apply Keeps.ite | split | dsimp -zeta only)

theorem State.setTrState_keeps {s0 : State} (s : State) (p id v : Nat) (hS : Keeps s0 s) : Keeps s0 (State.setTrState s p id v) := by
  unfold State.setTrState
  with_reducible repeat' (first
    | assumption | intro _ | exact Keeps.refl _ | apply State.stFor_keeps | dsimp -zeta only)

theorem State.setTrRefs_keeps {s0 : State} (s : State) (p id v : Nat) (hS : Keeps s0 s) : Keeps s0 (State.setTrRefs s p id v) := by
  unfold State.setTrRefs
  with_reducible repeat' (first
    | assumption | intro _ | exact Keeps.refl _ | apply State.stFor_keeps | dsimp -zeta only)

theorem State.setTrChildren_keeps {s0 : State} (s : State) (p id v : Nat) (hS : Keeps s0 s) : Keeps s0 (State.setTrChildren s p id v) := by
  unfold State.setTrChildren
  with_reducible repeat' (first
    | assumption | intro _ | exact Keeps.refl _ | apply State.stFor_keeps | dsimp -zeta only)

theorem State.setTrNext_keeps {s0 : State} (s : State) (p id v : Nat) (hS : Keeps s0 s) : Keeps s0 (State.setTrNext s p id v) := by
  unfold State.setTrNext
  with_reducible repeat' (first
    | assumption | intro _ | exact Keeps.refl _ | apply State.stFor_keeps | dsimp -zeta only)

theorem State.setTrLastUse_keeps {s0 : State} (s : State) (p id v : Nat) (hS : Keeps s0 s) : Keeps s0 (State.setTrLastUse s p id v) := by
  unfold State.setTrLastUse
  with_reducible repeat' (first
    | assumption | intro _ | exact Keeps.refl _ | apply State.stFor_keeps | dsimp -zeta only)

theorem State.btPut_keeps {s0 : State} (s : State) (p h i id : Nat) (hS : Keeps s0 s) : Keeps s0 (State.btPut s p h i id) := by
  unfold State.btPut
  with_reducible repeat' (first
    | assumption | intro _ | exact Keeps.refl _ | apply State.stFor_keeps | dsimp -zeta only)

theorem State.btRelease_keeps {s0 : State} (s : State) (p h i : Nat) (hS : Keeps s0 s) : Keeps s0 (State.btRelease s p h i) := by
  unfold State.btRelease
  with_reducible repeat' (first
    | assumption | intro _ | exact Keeps.refl _ | apply State.stFor_keeps | dsimp -zeta only)

theorem State.btClear_keeps {s0 : State} (s : State) (p h n : Nat) (hS : Keeps s0 s) : Keeps s0 (State.btClear s p h n) := by
  unfold State.btClear
  with_reducible repeat' (first
    | assumption | intro _ | exact Keeps.refl _ | apply State.stFor_keeps | apply Keeps.upto | apply Keeps.uptoP | dsimp -zeta only)

theorem State.nodeCorrupt_keeps {s0 : State} (s : State) (p req : Nat) (hS : Keeps s0 s) : Keeps s0 (State.nodeCorrupt s p req) := by
  unfold State.nodeCorrupt
  with_reducible repeat' (first
    | assumption | apply State.fault_keeps)

theorem State.lookGo_keeps {s0 : State} (look : State → Nat → List Nat → Walk) (s : State) (p h req : Nat) (tok : List Nat) (y0 : Nat) (y1 : Nat) (y2 : Nat) (hS : Keeps s0 s) : Keeps s0 (State.lookGo look s p h req tok y0 y1 y2).1 := by
  induction y0 generalizing s y1 y2 with
  | zero =>
    unfold State.lookGo
    with_reducible repeat' (first
      | assumption | intro _ | exact Keeps.refl _ | apply State.setTrState_keeps | apply State.setTrRefs_keeps
      | apply State.setTrLastUse_keeps | apply State.btPut_keeps | apply State.nodeCorrupt_keeps | exact OptKeeps.none
      | (extract_lets +onlyGivenNames x; clear_value (hx : x = _); refine Keeps.via (s := s0) hx ?_ fun hk => ?_)
      | (extract_lets +onlyGivenNames x; clear_value (hx : x = _); refine Keeps.viaP (s := s0) hx ?_ fun hk => ?_)
      | (extract_lets +onlyGivenNames x; clear_value (hx : x = _); refine OptKeeps.via (s := s0) hx ?_ fun hk => ?_)
      | (extract_lets +onlyGivenNames x; clear_value (hx : x = _); clear hx) | split | dsimp -zeta only
      | refine Keeps.ofMk (by assumption) ?_ | (refine Keeps.same ?_ rfl rfl rfl rfl rfl rfl rfl rfl))
  | succ z ih =>
    unfold State.lookGo
    with_reducible repeat' (first
      | assumption | intro _ | exact Keeps.refl _ | apply ih | apply State.setTrState_keeps | apply State.setTrRefs_keeps
      | apply State.setTrLastUse_keeps | apply State.btPut_keeps | apply State.nodeCorrupt_keeps | exact OptKeeps.none
      | (extract_lets +onlyGivenNames x; clear_value (hx : x = _); refine Keeps.via (s := s0) hx ?_ fun hk => ?_)
      | (extract_lets +onlyGivenNames x; clear_value (hx : x = _); refine Keeps.viaP (s := s0) hx ?_ fun hk => ?_)
      | (extract_lets +onlyGivenNames x; clear_value (hx : x = _); refine OptKeeps.via (s := s0) hx ?_ fun hk => ?_)
      | (extract_lets +onlyGivenNames x; clear_value (hx : x = _); clear hx) | split | dsimp -zeta only
      | refine Keeps.ofMk (by assumption) ?_ | (refine Keeps.same ?_ rfl rfl rfl rfl rfl rfl rfl rfl))

theorem State.lookup_keeps {s0 : State} (s : State) (p h ns req : Nat) (tok : List Nat) (n b parent : Nat) (hS : Keeps s0 s) : Keeps s0 (State.lookup s p h ns req tok n b parent).1 := by
  unfold State.lookup
  with_reducible repeat' (first
    | assumption | intro _ | exact Keeps.refl _ | apply State.lookGo_keeps | dsimp -zeta only)

theorem State.newNode_keeps {s0 : State} (s : State) (p ns id par : Nat) (t : List Nat) (hS : Keeps s0 s) : Keeps s0 (State.newNode s p ns id par t) := by
  unfold State.newNode
  with_reducible repeat' (first
    | assumption | intro _ | exact Keeps.refl _ | apply State.stFor_keeps | apply State.setTrChildren_keeps
    | (extract_lets +onlyGivenNames x; clear_value (hx : x = _); refine Keeps.via (s := s0) hx ?_ fun hk => ?_)
    | (extract_lets +onlyGivenNames x; clear_value (hx : x = _); refine Keeps.viaP (s := s0) hx ?_ fun hk => ?_)
    | (extract_lets +onlyGivenNames x; clear_value (hx : x = _); refine OptKeeps.via (s := s0) hx ?_ fun hk => ?_)
    | (extract_lets +onlyGivenNames x; clear_value (hx : x = _); clear hx) | apply Keeps.ite | split | dsimp -zeta only)

theorem State.insertGo_keeps {s0 : State} (look : State → Nat → List Nat → Walk) (node : State → Nat → Nat → List Nat → Bool) (s : State) (p h ns : Nat) (tok : List Nat) (y0 : Nat) (y1 : Nat) (y2 : Option Nat) (y3 : Nat) (hS : Keeps s0 s) : Keeps s0 (State.insertGo look node s p h ns tok y0 y1 y2 y3).1 := by
  induction y0 generalizing s y1 y2 y3 with
  | zero =>
    unfold State.insertGo
    with_reducible repeat' (first
      | assumption | intro _ | exact Keeps.refl _ | apply State.inc_keeps | apply State.nodeCorrupt_keeps | apply State.newNode_keeps
      | apply OptKeeps.some | exact OptKeeps.none
      | (extract_lets +onlyGivenNames x; clear_value (hx : x = _); refine Keeps.via (s := s0) hx ?_ fun hk => ?_)
      | (extract_lets +onlyGivenNames x; clear_value (hx : x = _); refine Keeps.viaP (s := s0) hx ?_ fun hk => ?_)
      | (extract_lets +onlyGivenNames x; clear_value (hx : x = _); refine OptKeeps.via (s := s0) hx ?_ fun hk => ?_)
      | (extract_lets +onlyGivenNames x; clear_value (hx : x = _); clear hx) | apply Keeps.ite | apply OptKeeps.ite | split
      | dsimp -zeta only | exact OptKeeps.get rfl (by assumption) | refine OptKeeps.get (by assumption) ?_
      | refine Keeps.ofMk (by assumption) ?_ | (refine Keeps.same ?_ rfl rfl rfl rfl rfl rfl rfl rfl))
  | succ z ih =>
    unfold State.insertGo
    with_reducible repeat' (first
      | assumption | intro _ | exact Keeps.refl _ | apply ih | apply State.inc_keeps | apply State.nodeCorrupt_keeps
      | apply State.newNode_keeps | apply OptKeeps.some | exact OptKeeps.none
      | (extract_lets +onlyGivenNames x; clear_value (hx : x = _); refine Keeps.via (s := s0) hx ?_ fun hk => ?_)
      | (extract_lets +onlyGivenNames x; clear_value (hx : x = _); refine Keeps.viaP (s := s0) hx ?_ fun hk => ?_)
      | (extract_lets +onlyGivenNames x; clear_value (hx : x = _); refine OptKeeps.via (s := s0) hx ?_ fun hk => ?_)
      | (extract_lets +onlyGivenNames x; clear_value (hx : x = _); clear hx) | apply Keeps.ite | apply OptKeeps.ite | split
      | dsimp -zeta only | exact OptKeeps.get rfl (by assumption) | refine OptKeeps.get (by assumption) ?_
      | refine Keeps.ofMk (by assumption) ?_ | (refine Keeps.same ?_ rfl rfl rfl rfl rfl rfl rfl rfl))

theorem State.insertBlocks_keeps {s0 : State} (s : State) (p h ns : Nat) (tok : List Nat) (n b : Nat) (parent : Option Nat) (k : Nat) (hS : Keeps s0 s) : Keeps s0 (State.insertBlocks s p h ns tok n b parent k).1 := by
  unfold State.insertBlocks
  with_reducible repeat' (first
    | assumption | intro _ | exact Keeps.refl _ | apply State.insertGo_keeps | dsimp -zeta only)

theorem State.unchain_keeps {s0 : State} (s : State) (p id : Nat) (y0 : Nat) (y1 : Nat) (hS : Keeps s0 s) : Keeps s0 (State.unchain s p id y0 y1) := by
  induction y0 generalizing s y1 with
  | zero =>
    unfold State.unchain
    with_reducible repeat' (first
      | assumption)
  | succ z ih =>
    unfold State.unchain
    with_reducible repeat' (first
      | assumption | apply ih | apply State.setTrNext_keeps | (extract_lets +onlyGivenNames x; clear_value (hx : x = _); clear hx)
      | apply Keeps.ite)

theorem State.unindex_keeps {s0 : State} (s : State) (p id : Nat) (hS : Keeps s0 s) : Keeps s0 (State.unindex s p id) := by
  unfold State.unindex
  with_reducible repeat' (first
    | assumption | intro _ | exact Keeps.refl _ | apply State.stFor_keeps | apply State.setTrChildren_keeps | apply State.unchain_keeps
    | (extract_lets +onlyGivenNames x; clear_value (hx : x = _); refine Keeps.via (s := s0) hx ?_ fun hk => ?_)
    | (extract_lets +onlyGivenNames x; clear_value (hx : x = _); refine Keeps.viaP (s := s0) hx ?_ fun hk => ?_)
    | (extract_lets +onlyGivenNames x; clear_value (hx : x = _); refine OptKeeps.via (s := s0) hx ?_ fun hk => ?_)
    | (extract_lets +onlyGivenNames x; clear_value (hx : x = _); clear hx) | apply Keeps.ite | split | dsimp -zeta only)

theorem State.takeFrame_keeps {s0 : State} (s : State) (p id st : Nat) (hS : Keeps s0 s) : Keeps s0 (State.takeFrame s p id st) := by
  unfold State.takeFrame
  with_reducible repeat' (first
    | assumption | apply State.setTrState_keeps | apply State.setTrRefs_keeps | apply State.setTrChildren_keeps)

theorem State.allocOn_keeps {s0 : State} (s : State) (p n st : Nat) (hS : Keeps s0 s) : Keeps s0 (State.allocOn s p n st).1 := by
  unfold State.allocOn
  with_reducible repeat' (first
    | assumption | apply State.inc_keeps | apply State.took_keeps | apply State.unindex_keeps | apply State.takeFrame_keeps
    | (extract_lets +onlyGivenNames x; clear_value (hx : x = _); clear hx) | split)

theorem State.allocTiles_keeps {s0 : State} (s : State) (p st : Nat) (y0 : List Nat) (hS : Keeps s0 s) : Keeps s0 (State.allocTiles s p st y0).1 := by
  induction y0 generalizing s with
  | nil =>
    unfold State.allocTiles
    with_reducible repeat' (first
      | assumption)
  | cons z zs ih =>
    unfold State.allocTiles
    with_reducible repeat' (first
      | assumption | apply ih | apply State.allocOn_keeps | split | dsimp -zeta only | refine Keeps.ofMk (by assumption) ?_)

theorem State.freeFrame_keeps {s0 : State} (s : State) (p id : Nat) (hS : Keeps s0 s) : Keeps s0 (State.freeFrame s p id) := by
  unfold State.freeFrame
  with_reducible repeat' (first
    | assumption | intro _ | exact Keeps.refl _ | apply State.took_keeps | apply State.setTrState_keeps | apply State.setTrRefs_keeps
    | apply State.setTrNext_keeps
    | (extract_lets +onlyGivenNames x; clear_value (hx : x = _); refine Keeps.via (s := s0) hx ?_ fun hk => ?_)
    | (extract_lets +onlyGivenNames x; clear_value (hx : x = _); refine Keeps.viaP (s := s0) hx ?_ fun hk => ?_)
    | (extract_lets +onlyGivenNames x; clear_value (hx : x = _); refine OptKeeps.via (s := s0) hx ?_ fun hk => ?_)
    | (extract_lets +onlyGivenNames x; clear_value (hx : x = _); clear hx) | apply Keeps.ite | split | dsimp -zeta only)

theorem State.unref_keeps {s0 : State} (s : State) (p id : Nat) (b : Option Nat) (hS : Keeps s0 s) : Keeps s0 (State.unref s p id b) := by
  unfold State.unref
  with_reducible repeat' (first
    | assumption | intro _ | exact Keeps.refl _ | apply State.setTrState_keeps | apply State.setTrRefs_keeps
    | apply State.setTrLastUse_keeps
    | (extract_lets +onlyGivenNames x; clear_value (hx : x = _); refine Keeps.via (s := s0) hx ?_ fun hk => ?_)
    | (extract_lets +onlyGivenNames x; clear_value (hx : x = _); refine Keeps.viaP (s := s0) hx ?_ fun hk => ?_)
    | (extract_lets +onlyGivenNames x; clear_value (hx : x = _); ((have hy : @Eq SrvSt x _ := hx); clear hx; subst hy))
    | (extract_lets +onlyGivenNames x; clear_value (hx : x = _); refine OptKeeps.via (s := s0) hx ?_ fun hk => ?_)
    | (extract_lets +onlyGivenNames x; clear_value (hx : x = _); clear hx) | apply Keeps.ite | split | dsimp -zeta only
    | (refine Keeps.same ?_ rfl rfl rfl rfl rfl rfl rfl rfl))

theorem State.flushFree_keeps {s0 : State} (s : State) (b : Option Nat) (hS : Keeps s0 s) : Keeps s0 (State.flushFree s b) := by
  unfold State.flushFree
  with_reducible repeat' (first
    | assumption | intro _ | apply State.freeFrame_keeps | apply Keeps.each
    | (extract_lets +onlyGivenNames x; clear_value (hx : x = _); refine Keeps.via (s := s0) hx ?_ fun hk => ?_)
    | (extract_lets +onlyGivenNames x; clear_value (hx : x = _); ((have hy : @Eq SrvSt x _ := hx); clear hx; subst hy))
    | (extract_lets +onlyGivenNames x; clear_value (hx : x = _); clear hx) | (refine Keeps.same ?_ rfl rfl rfl rfl rfl rfl rfl rfl))

theorem State.adEmpty_keeps {s0 : State} (s : State) (k : Nat) (hS : Keeps s0 s) : Keeps s0 (State.adEmpty s k) := by
  unfold State.adEmpty
  with_reducible repeat' (first
    | assumption | apply State.wr_keeps)

theorem State.adRetire_keeps {s0 : State} (s : State) (k : Nat) (hS : Keeps s0 s) : Keeps s0 (State.adRetire s k) := by
  unfold State.adRetire
  with_reducible repeat' (first
    | assumption | apply State.wr_keeps | apply State.adEmpty_keeps | apply Keeps.ite)

theorem State.adPin_keeps {s0 : State} (s : State) (k : Nat) (hS : Keeps s0 s) : Keeps s0 (State.adPin s k) := by
  unfold State.adPin
  with_reducible repeat' (first
    | assumption | apply State.inc_keeps)

theorem State.adUnpin_keeps {s0 : State} (s : State) (k : Nat) (hS : Keeps s0 s) : Keeps s0 (State.adUnpin s k) := by
  unfold State.adUnpin
  with_reducible repeat' (first
    | assumption | apply State.wr_keeps | apply State.adEmpty_keeps
    | (extract_lets +onlyGivenNames x; clear_value (hx : x = _); refine Keeps.via (s := s0) hx ?_ fun hk => ?_) | apply Keeps.ite)

end Sys2Proof.Machine
end

