-- ==== Sys2Proof/Laws/KeepsServing.lean ====
section
/-! SUPPORT. Every operation of Machine/Serving.lean keeps what Keeps (Safety.lean) says. -/

namespace Sys2Proof.Machine

theorem State.setReq_keeps {s0 : State} (s : State) (k : Nat) (r : Req) (hS : Keeps s0 s) : Keeps s0 (State.setReq s k r) := by
  unfold State.setReq
  with_reducible repeat' (first
    | assumption | (extract_lets +onlyGivenNames x; clear_value (hx : x = _); ((have hy : @Eq SrvSt x _ := hx); clear hx; subst hy))
    | (refine Keeps.same ?_ rfl rfl rfl rfl rfl rfl rfl rfl))

theorem State.delReq_keeps {s0 : State} (s : State) (k : Nat) (hS : Keeps s0 s) : Keeps s0 (State.delReq s k) := by
  unfold State.delReq
  with_reducible repeat' (first
    | assumption | (extract_lets +onlyGivenNames x; clear_value (hx : x = _); ((have hy : @Eq SrvSt x _ := hx); clear hx; subst hy))
    | (refine Keeps.same ?_ rfl rfl rfl rfl rfl rfl rfl rfl))

theorem State.modReq_keeps {s0 : State} (s : State) (k : Nat) (f : Req → Req) (hS : Keeps s0 s) : Keeps s0 (State.modReq s k f) := by
  unfold State.modReq
  with_reducible repeat' (first
    | assumption | apply State.setReq_keeps | split)

theorem State.svcSend_keeps {s0 : State} (s : State) (q addr svcId kind : Nat) (b : List Nat) (hS : Keeps s0 s) : Keeps s0 (State.svcSend s q addr svcId kind b) := by
  unfold State.svcSend
  with_reducible repeat' (first
    | assumption | intro _ | exact Keeps.refl _ | apply State.took_keeps | apply State.svcDrain_keeps | apply Keeps.upto
    | apply Keeps.uptoP | apply OptKeeps.some | exact OptKeeps.none
    | (extract_lets +onlyGivenNames x; clear_value (hx : x = _); refine Keeps.via (s := s0) hx ?_ fun hk => ?_)
    | (extract_lets +onlyGivenNames x; clear_value (hx : x = _); refine Keeps.viaP (s := s0) hx ?_ fun hk => ?_)
    | (extract_lets +onlyGivenNames x; clear_value (hx : x = _); ((have hy : @Eq EthSt x _ := hx); clear hx; subst hy))
    | (extract_lets +onlyGivenNames x; clear_value (hx : x = _); refine OptKeeps.via (s := s0) hx ?_ fun hk => ?_)
    | (extract_lets +onlyGivenNames x; clear_value (hx : x = _); clear hx) | apply Keeps.ite | apply OptKeeps.ite | split
    | dsimp -zeta only | exact OptKeeps.get rfl (by assumption) | refine OptKeeps.get (by assumption) ?_
    | (refine Keeps.same ?_ rfl rfl rfl rfl rfl rfl rfl rfl))

theorem State.reqRecord_keeps {s0 : State} (s : State) (r : Req) (status : Nat) (interim : Bool) (hS : Keeps s0 s) : Keeps s0 (State.reqRecord s r status interim) := by
  unfold State.reqRecord
  with_reducible repeat' (first
    | assumption | apply State.hComplete_keeps | apply State.hInterim_keeps | apply State.svcSend_keeps
    | (extract_lets +onlyGivenNames x; clear_value (hx : x = _); clear hx) | apply Keeps.ite | split)

theorem State.freePrompt_keeps {s0 : State} (s : State) (k : Nat) (hS : Keeps s0 s) : Keeps s0 (State.freePrompt s k) := by
  unfold State.freePrompt
  with_reducible repeat' (first
    | assumption | apply State.modReq_keeps)

theorem State.deliver_keeps {s0 : State} (s : State) (k : Nat) (toks : List Nat) (hS : Keeps s0 s) : Keeps s0 (State.deliver s k toks) := by
  unfold State.deliver
  with_reducible repeat' (first
    | assumption | apply State.hostWr_keeps | apply State.setReq_keeps | apply State.svcSend_keeps | apply State.reqRecord_keeps
    | apply State.freePrompt_keeps
    | (extract_lets +onlyGivenNames x; clear_value (hx : x = _); refine Keeps.via (s := s0) hx ?_ fun hk => ?_)
    | (extract_lets +onlyGivenNames x; clear_value (hx : x = _); clear hx) | apply Keeps.ite | split)

theorem State.wrrPick_keeps {s0 : State} (s : State) (p pool : Nat) (role : Nat → Bool) (skip : List Nat) (hS : Keeps s0 s) : Keeps s0 (State.wrrPick s p pool role skip).1 := by
  unfold State.wrrPick
  with_reducible repeat' (first
    | assumption | (extract_lets +onlyGivenNames x; clear_value (hx : x = _); ((have hy : @Eq PartSt x _ := hx); clear hx; subst hy))
    | (extract_lets +onlyGivenNames x; clear_value (hx : x = _); clear hx) | split | dsimp -zeta only
    | (refine Keeps.same ?_ rfl rfl rfl rfl rfl rfl rfl rfl))

theorem State.pickPrompt_keeps {s0 : State} (s : State) (p : Nat) (skip : List Nat) (hS : Keeps s0 s) : Keeps s0 (State.pickPrompt s p skip).1 := by
  unfold State.pickPrompt
  with_reducible repeat' (first
    | assumption | intro _ | exact Keeps.refl _ | apply State.wrrPick_keeps | apply OptKeeps.some | exact OptKeeps.none | apply Keeps.ite
    | apply OptKeeps.ite | split | dsimp -zeta only | exact OptKeeps.get rfl (by assumption) | refine OptKeeps.get (by assumption) ?_)

theorem State.pickGen_keeps {s0 : State} (s : State) (p pm : Nat) (skip : List Nat) (hS : Keeps s0 s) : Keeps s0 (State.pickGen s p pm skip).1 := by
  unfold State.pickGen
  with_reducible repeat' (first
    | assumption | apply State.wrrPick_keeps | split)

theorem State.sendServe_keeps {s0 : State} (s : State) (r : Req) (dev kind status epoch rest : Nat) (extra : List Nat) (hS : Keeps s0 s) : Keeps s0 (State.sendServe s r dev kind status epoch rest extra) := by
  unfold State.sendServe
  with_reducible repeat' (first
    | assumption | apply State.launchOp_keeps | apply State.newGroup_keeps)

theorem State.sendToken_keeps {s0 : State} (s : State) (r : Req) (toks : List Nat) (fin : Bool) (status : Nat) (hS : Keeps s0 s) : Keeps s0 (State.sendToken s r toks fin status) := by
  unfold State.sendToken
  with_reducible repeat' (first
    | assumption | apply State.sendServe_keeps)

theorem State.dropBlocks_keeps {s0 : State} (s : State) (k : Nat) (b : Option Nat) (hS : Keeps s0 s) : Keeps s0 (State.dropBlocks s k b) := by
  unfold State.dropBlocks
  with_reducible repeat' (first
    | assumption | intro _ | apply State.btClear_keeps | apply State.unref_keeps | apply State.modReq_keeps | apply Keeps.upto
    | (extract_lets +onlyGivenNames x; clear_value (hx : x = _); clear hx) | apply Keeps.ite | split)

theorem State.leave_keeps {s0 : State} (s : State) (k status : Nat) (b : Option Nat) (hS : Keeps s0 s) : Keeps s0 (State.leave s k status b) := by
  unfold State.leave
  with_reducible repeat' (first
    | assumption | intro _ | exact Keeps.refl _ | apply CRes.done_keeps | apply State.insertBlocks_keeps | apply State.adUnpin_keeps
    | apply State.delReq_keeps | apply State.dropBlocks_keeps | apply OptKeeps.some | apply OptKeeps.map | exact OptKeeps.none
    | (extract_lets +onlyGivenNames x; clear_value (hx : x = _); refine Keeps.via (s := s0) hx ?_ fun hk => ?_)
    | (extract_lets +onlyGivenNames x; clear_value (hx : x = _); refine Keeps.viaP (s := s0) hx ?_ fun hk => ?_)
    | (extract_lets +onlyGivenNames x; clear_value (hx : x = _); ((have hy : @Eq SrvSt x _ := hx); clear hx; subst hy))
    | (extract_lets +onlyGivenNames x; clear_value (hx : x = _); refine OptKeeps.via (s := s0) hx ?_ fun hk => ?_)
    | (extract_lets +onlyGivenNames x; clear_value (hx : x = _); clear hx) | apply Keeps.ite | apply OptKeeps.ite | split
    | dsimp -zeta only | exact OptKeeps.get rfl (by assumption) | refine OptKeeps.get (by assumption) ?_
    | refine Keeps.ofMk (by assumption) ?_ | (refine Keeps.same ?_ rfl rfl rfl rfl rfl rfl rfl rfl))

theorem State.cancelAway_keeps {s0 : State} (s : State) (r : Req) (hS : Keeps s0 s) : Keeps s0 (State.cancelAway s r) := by
  unfold State.cancelAway
  with_reducible repeat' (first
    | assumption | intro _ | exact Keeps.refl _ | apply State.sendServe_keeps | apply Keeps.each | apply Keeps.eachP
    | (extract_lets +onlyGivenNames x; clear_value (hx : x = _); refine Keeps.via (s := s0) hx ?_ fun hk => ?_)
    | (extract_lets +onlyGivenNames x; clear_value (hx : x = _); refine Keeps.viaP (s := s0) hx ?_ fun hk => ?_)
    | (extract_lets +onlyGivenNames x; clear_value (hx : x = _); refine OptKeeps.via (s := s0) hx ?_ fun hk => ?_)
    | (extract_lets +onlyGivenNames x; clear_value (hx : x = _); clear hx) | apply Keeps.ite | split | dsimp -zeta only)

theorem State.reqEnd_keeps {s0 : State} (s : State) (k status : Nat) (b : Option Nat) (hS : Keeps s0 s) : Keeps s0 (State.reqEnd s k status b) := by
  unfold State.reqEnd
  with_reducible repeat' (first
    | assumption | intro _ | exact Keeps.refl _ | apply State.reqRecord_keeps | apply State.sendToken_keeps | apply State.leave_keeps
    | apply State.cancelAway_keeps | apply OptKeeps.some | exact OptKeeps.none
    | (extract_lets +onlyGivenNames x; clear_value (hx : x = _); refine Keeps.via (s := s0) hx ?_ fun hk => ?_)
    | (extract_lets +onlyGivenNames x; clear_value (hx : x = _); refine Keeps.viaP (s := s0) hx ?_ fun hk => ?_)
    | (extract_lets +onlyGivenNames x; clear_value (hx : x = _); refine OptKeeps.via (s := s0) hx ?_ fun hk => ?_)
    | (extract_lets +onlyGivenNames x; clear_value (hx : x = _); clear hx) | apply Keeps.ite | apply OptKeeps.ite | split
    | dsimp -zeta only | exact OptKeeps.get rfl (by assumption) | refine OptKeeps.get (by assumption) ?_
    | refine Keeps.ofMk (by assumption) ?_ | (refine Keeps.same ?_ rfl rfl rfl rfl rfl rfl rfl rfl))

theorem State.pinReq_keeps {s0 : State} (s : State) (k : Nat) (hS : Keeps s0 s) : Keeps s0 (State.pinReq s k) := by
  unfold State.pinReq
  with_reducible repeat' (first
    | assumption | apply State.adPin_keeps | apply State.setReq_keeps | apply Keeps.ite | split)

theorem State.accept_keeps {s0 : State} (s : State) (p raw : Nat) (src : ReqSrc) (prompt : List Nat) (hS : Keeps s0 s) : Keeps s0 (State.accept s p raw src prompt) := by
  unfold State.accept
  with_reducible repeat' (first
    | assumption | intro _ | exact Keeps.refl _ | apply State.stFor_keeps | apply State.setReq_keeps | apply State.pinReq_keeps
    | apply OptKeeps.some | (extract_lets +onlyGivenNames x; clear_value (hx : x = _); refine Keeps.via (s := s0) hx ?_ fun hk => ?_)
    | (extract_lets +onlyGivenNames x; clear_value (hx : x = _); refine Keeps.viaP (s := s0) hx ?_ fun hk => ?_)
    | (extract_lets +onlyGivenNames x; clear_value (hx : x = _); refine OptKeeps.via (s := s0) hx ?_ fun hk => ?_)
    | (extract_lets +onlyGivenNames x; clear_value (hx : x = _); clear hx) | split | dsimp -zeta only
    | exact OptKeeps.get rfl (by assumption) | refine OptKeeps.get (by assumption) ?_ | refine Keeps.ofMk (by assumption) ?_
    | (refine Keeps.same ?_ rfl rfl rfl rfl rfl rfl rfl rfl))

theorem execSubmit_keeps {s0 : State} (q i : Nat) (s : State) (hS : Keeps s0 s) : OutKeeps s0 (execSubmit q i s) := by
  unfold execSubmit
  with_reducible repeat' (first
    | assumption | intro _ | apply State.hqAccessFault_keeps | apply State.hMark_keeps | apply State.hComplete_keeps
    | apply withHostCmd_keeps | apply State.accept_keeps | apply OutKeeps.next | apply hF
    | (extract_lets +onlyGivenNames x; clear_value (hx : x = _); (fail_if_success have := hF); refine Keeps.viaFunB (s := s0) hx ?_ fun hF => ?_)
    | (extract_lets +onlyGivenNames x; clear_value (hx : x = _); clear hx) | apply Keeps.ite | split)

theorem State.markEnd_keeps {s0 : State} (s : State) (k status : Nat) (hS : Keeps s0 s) : Keeps s0 (State.markEnd s k status) := by
  unfold State.markEnd
  with_reducible repeat' (first
    | assumption | apply State.modReq_keeps)

theorem execCancel_keeps {s0 : State} (q i : Nat) (s : State) (hS : Keeps s0 s) : OutKeeps s0 (execCancel q i s) := by
  unfold execCancel
  with_reducible repeat' (first
    | assumption | intro _ | apply State.took_keeps | apply State.hComplete_keeps | apply withHostCmd_keeps | apply State.markEnd_keeps
    | apply OutKeeps.next | apply Keeps.ite | split)

theorem State.svcTake_keeps {s0 s t : State} {m : SvcMsg} (q kind : Nat) (e : s.svcTake q kind = some (m, t)) (h : Keeps s0 s) :
    Keeps s0 t := by
  unfold State.svcTake at e
  split at e
  · split at e
    · cases e
      exact Keeps.same h rfl rfl rfl rfl rfl rfl rfl rfl
    · cases e
  · cases e

theorem execSvcSubmit_keeps {s0 : State} (q : Nat) (s : State) (hS : Keeps s0 s) : OutKeeps s0 (execSvcSubmit q s) := by
  unfold execSvcSubmit
  with_reducible repeat' (first
    | assumption | apply State.inc_keeps | apply State.reqRecord_keeps | apply State.accept_keeps | apply OutKeeps.next
    | (extract_lets +onlyGivenNames x; clear_value (hx : x = _); ((have hy : @Eq EthSt x _ := hx); clear hx; subst hy))
    | (extract_lets +onlyGivenNames x; clear_value (hx : x = _); clear hx) | apply Keeps.ite | apply OutKeeps.ite | split
    | refine State.svcTake_keeps _ _ (by assumption) ?_ | (refine Keeps.same ?_ rfl rfl rfl rfl rfl rfl rfl rfl))

theorem execSvcCancel_keeps {s0 : State} (q : Nat) (s : State) (hS : Keeps s0 s) : OutKeeps s0 (execSvcCancel q s) := by
  unfold execSvcCancel
  with_reducible repeat' (first
    | assumption | apply State.markEnd_keeps | apply OutKeeps.next | split | refine State.svcTake_keeps _ _ (by assumption) ?_)

theorem execDeadlineMissed_keeps {s0 : State} (p h : Nat) (s : State) (hS : Keeps s0 s) : OutKeeps s0 (execDeadlineMissed p h s) := by
  unfold execDeadlineMissed
  with_reducible repeat' (first
    | assumption | apply State.setReq_keeps | apply State.reqEnd_keeps | apply OutKeeps.next | apply OutKeeps.ite | split)

theorem State.adStart_keeps {s0 : State} (s : State) (l : AdLoad) (hS : Keeps s0 s) : OptKeeps s0 (State.adStart s l) := by
  unfold State.adStart
  with_reducible repeat' (first
    | assumption | intro _ | apply State.wr_keeps | apply State.stN_keeps | apply State.hqAccessFault_keeps | apply State.hComplete_keeps
    | apply State.adEmpty_keeps | apply OptKeeps.some | exact OptKeeps.none | apply hF
    | (extract_lets +onlyGivenNames x; clear_value (hx : x = _); refine Keeps.via (s := s0) hx ?_ fun hk => ?_)
    | (extract_lets +onlyGivenNames x; clear_value (hx : x = _); ((have hy : @Eq SrvSt x _ := hx); clear hx; subst hy))
    | (extract_lets +onlyGivenNames x; clear_value (hx : x = _); (fail_if_success have := hF); refine Keeps.viaFun (s := s0) hx ?_ fun hF => ?_)
    | (extract_lets +onlyGivenNames x; clear_value (hx : x = _); clear hx) | apply OptKeeps.ite | split
    | (refine Keeps.same ?_ rfl rfl rfl rfl rfl rfl rfl rfl))

theorem State.adRetry_keeps {s0 : State} (s : State) (l : AdLoad) (hS : Keeps s0 s) : Keeps s0 (State.adRetry s l) := by
  unfold State.adRetry
  with_reducible repeat' (first
    | assumption | apply State.adStart_keeps | apply Keeps.ite | split | refine OptKeeps.get (by assumption) ?_)

theorem execAdapterLoad_keeps {s0 : State} (q i : Nat) (s : State) (hS : Keeps s0 s) : OutKeeps s0 (execAdapterLoad q i s) := by
  unfold execAdapterLoad
  with_reducible repeat' (first
    | assumption | intro _ | apply State.hMark_keeps | apply State.hComplete_keeps | apply State.hInterim_keeps | apply withHostCmd_keeps
    | apply State.adStart_keeps | apply OutKeeps.next
    | (extract_lets +onlyGivenNames x; clear_value (hx : x = _); refine Keeps.via (s := s0) hx ?_ fun hk => ?_)
    | (extract_lets +onlyGivenNames x; clear_value (hx : x = _); ((have hy : @Eq SrvSt x _ := hx); clear hx; subst hy))
    | (extract_lets +onlyGivenNames x; clear_value (hx : x = _); clear hx) | apply Keeps.ite | split
    | refine OptKeeps.get (by assumption) ?_ | (refine Keeps.same ?_ rfl rfl rfl rfl rfl rfl rfl rfl))

theorem execAdapterLive_keeps {s0 : State} (k : Nat) (s : State) (hS : Keeps s0 s) : OutKeeps s0 (execAdapterLive k s) := by
  unfold execAdapterLive
  with_reducible repeat' (first
    | assumption | intro _ | apply State.wr_keeps | apply State.hComplete_keeps | apply State.adRetire_keeps | apply State.pinReq_keeps
    | apply Keeps.each | apply OutKeeps.next
    | (extract_lets +onlyGivenNames x; clear_value (hx : x = _); refine Keeps.via (s := s0) hx ?_ fun hk => ?_)
    | (extract_lets +onlyGivenNames x; clear_value (hx : x = _); ((have hy : @Eq SrvSt x _ := hx); clear hx; subst hy))
    | (extract_lets +onlyGivenNames x; clear_value (hx : x = _); clear hx) | apply Keeps.ite | split
    | (refine Keeps.same ?_ rfl rfl rfl rfl rfl rfl rfl rfl))

theorem execAdapterDrop_keeps {s0 : State} (q i : Nat) (s : State) (hS : Keeps s0 s) : OutKeeps s0 (execAdapterDrop q i s) := by
  unfold execAdapterDrop
  with_reducible repeat' (first
    | assumption | intro _ | apply State.hComplete_keeps | apply withHostCmd_keeps | apply State.adRetire_keeps | apply Keeps.each
    | apply OutKeeps.next | (extract_lets +onlyGivenNames x; clear_value (hx : x = _); refine Keeps.via (s := s0) hx ?_ fun hk => ?_)
    | (extract_lets +onlyGivenNames x; clear_value (hx : x = _); ((have hy : @Eq SrvSt x _ := hx); clear hx; subst hy))
    | (extract_lets +onlyGivenNames x; clear_value (hx : x = _); clear hx) | apply Keeps.ite | split
    | (refine Keeps.same ?_ rfl rfl rfl rfl rfl rfl rfl rfl))

theorem State.allocBlocks_keeps {s0 : State} (s : State) (p h mask : Nat) (pref : Option Nat) (y0 : Nat) (y1 : Nat) (hS : Keeps s0 s) : OptKeeps s0 (State.allocBlocks s p h mask pref y0 y1) := by
  induction y0 generalizing s y1 with
  | zero =>
    unfold State.allocBlocks
    with_reducible repeat' (first
      | assumption | intro _ | exact Keeps.refl _ | apply State.took_keeps | apply State.btPut_keeps | apply State.allocTiles_keeps
      | apply OptKeeps.some | exact OptKeeps.none
      | (extract_lets +onlyGivenNames x; clear_value (hx : x = _); refine Keeps.via (s := s0) hx ?_ fun hk => ?_)
      | (extract_lets +onlyGivenNames x; clear_value (hx : x = _); refine Keeps.viaP (s := s0) hx ?_ fun hk => ?_)
      | (extract_lets +onlyGivenNames x; clear_value (hx : x = _); refine OptKeeps.via (s := s0) hx ?_ fun hk => ?_)
      | (extract_lets +onlyGivenNames x; clear_value (hx : x = _); clear hx) | split | dsimp -zeta only
      | exact OptKeeps.get rfl (by assumption) | refine OptKeeps.get (by assumption) ?_ | refine Keeps.ofMk (by assumption) ?_
      | (refine Keeps.same ?_ rfl rfl rfl rfl rfl rfl rfl rfl))
  | succ z ih =>
    unfold State.allocBlocks
    with_reducible repeat' (first
      | assumption | intro _ | exact Keeps.refl _ | apply ih | apply State.took_keeps | apply State.btPut_keeps
      | apply State.allocTiles_keeps | apply OptKeeps.some | exact OptKeeps.none
      | (extract_lets +onlyGivenNames x; clear_value (hx : x = _); refine Keeps.via (s := s0) hx ?_ fun hk => ?_)
      | (extract_lets +onlyGivenNames x; clear_value (hx : x = _); refine Keeps.viaP (s := s0) hx ?_ fun hk => ?_)
      | (extract_lets +onlyGivenNames x; clear_value (hx : x = _); refine OptKeeps.via (s := s0) hx ?_ fun hk => ?_)
      | (extract_lets +onlyGivenNames x; clear_value (hx : x = _); clear hx) | split | dsimp -zeta only
      | exact OptKeeps.get rfl (by assumption) | refine OptKeeps.get (by assumption) ?_ | refine Keeps.ofMk (by assumption) ?_
      | (refine Keeps.same ?_ rfl rfl rfl rfl rfl rfl rfl rfl))

theorem State.sendOpen_keeps {s0 : State} (s : State) (r : Req) (dev : Nat) (second : Bool) (hS : Keeps s0 s) : Keeps s0 (State.sendOpen s r dev second) := by
  unfold State.sendOpen
  with_reducible repeat' (first
    | assumption | apply State.sendServe_keeps)

theorem State.startPrompt_keeps {s0 : State} (s : State) (k : Nat) (fb : Bool) (hS : Keeps s0 s) : OptKeeps s0 (State.startPrompt s k fb) := by
  unfold State.startPrompt
  with_reducible repeat' (first
    | assumption | intro _ | exact Keeps.refl _ | apply State.inc_keeps | apply State.took_keeps | apply State.lookup_keeps
    | apply State.setReq_keeps | apply State.allocBlocks_keeps | apply State.sendOpen_keeps | apply OptKeeps.some | exact OptKeeps.none
    | (extract_lets +onlyGivenNames x; clear_value (hx : x = _); refine Keeps.via (s := s0) hx ?_ fun hk => ?_)
    | (extract_lets +onlyGivenNames x; clear_value (hx : x = _); refine Keeps.viaP (s := s0) hx ?_ fun hk => ?_)
    | (extract_lets +onlyGivenNames x; clear_value (hx : x = _); refine OptKeeps.via (s := s0) hx ?_ fun hk => ?_)
    | (extract_lets +onlyGivenNames x; clear_value (hx : x = _); clear hx) | apply Keeps.ite | apply OptKeeps.ite | split
    | dsimp -zeta only | exact OptKeeps.get rfl (by assumption) | refine OptKeeps.get (by assumption) ?_
    | refine Keeps.ofMk (by assumption) ?_ | (refine Keeps.same ?_ rfl rfl rfl rfl rfl rfl rfl rfl))

theorem State.setBatch_keeps {s0 : State} (s : State) (b : Nat) (x : Batch) (hS : Keeps s0 s) : Keeps s0 (State.setBatch s b x) := by
  unfold State.setBatch
  with_reducible repeat' (first
    | assumption | apply State.wr_keeps
    | (extract_lets +onlyGivenNames x; clear_value (hx : x = _); ((have hy : @Eq SrvSt x _ := hx); clear hx; subst hy))
    | (refine Keeps.same ?_ rfl rfl rfl rfl rfl rfl rfl rfl))

theorem State.routeReq_keeps {s0 : State} (s : State) (k : Nat) (hS : Keeps s0 s) : OptKeeps s0 (State.routeReq s k) := by
  unfold State.routeReq
  with_reducible repeat' (first
    | assumption | intro _ | exact Keeps.refl _ | apply State.setReq_keeps | apply State.pickPrompt_keeps | apply State.pickGen_keeps
    | apply State.sendServe_keeps | apply State.reqEnd_keeps | apply State.startPrompt_keeps | apply OptKeeps.some | exact OptKeeps.none
    | (extract_lets +onlyGivenNames x; clear_value (hx : x = _); refine Keeps.via (s := s0) hx ?_ fun hk => ?_)
    | (extract_lets +onlyGivenNames x; clear_value (hx : x = _); refine Keeps.viaP (s := s0) hx ?_ fun hk => ?_)
    | (extract_lets +onlyGivenNames x; clear_value (hx : x = _); refine OptKeeps.via (s := s0) hx ?_ fun hk => ?_)
    | (extract_lets +onlyGivenNames x; clear_value (hx : x = _); clear hx) | apply Keeps.ite | apply OptKeeps.ite | split
    | dsimp -zeta only | exact OptKeeps.get rfl (by assumption) | refine OptKeeps.get (by assumption) ?_
    | refine Keeps.ofMk (by assumption) ?_ | (refine Keeps.same ?_ rfl rfl rfl rfl rfl rfl rfl rfl))

theorem State.startRecompute_keeps {s0 : State} (s : State) (k : Nat) (hS : Keeps s0 s) : OptKeeps s0 (State.startRecompute s k) := by
  unfold State.startRecompute
  with_reducible repeat' (first
    | assumption | intro _ | exact Keeps.refl _ | apply State.setReq_keeps | apply State.allocBlocks_keeps | apply Keeps.foldl
    | apply Keeps.foldlP | apply OptKeeps.some | apply OptKeeps.map | apply OptKeeps.foldl | exact OptKeeps.none
    | (extract_lets +onlyGivenNames x; clear_value (hx : x = _); refine Keeps.via (s := s0) hx ?_ fun hk => ?_)
    | (extract_lets +onlyGivenNames x; clear_value (hx : x = _); refine Keeps.viaP (s := s0) hx ?_ fun hk => ?_)
    | (extract_lets +onlyGivenNames x; clear_value (hx : x = _); refine OptKeeps.via (s := s0) hx ?_ fun hk => ?_)
    | (extract_lets +onlyGivenNames x; clear_value (hx : x = _); clear hx) | split | dsimp -zeta only
    | exact OptKeeps.get rfl (by assumption) | refine OptKeeps.get (by assumption) ?_ | refine Keeps.ofMk (by assumption) ?_
    | (refine Keeps.same ?_ rfl rfl rfl rfl rfl rfl rfl rfl))

theorem execPromptPhaseStart_keeps {s0 : State} (p : Nat) (s : State) (hS : Keeps s0 s) : OutKeeps s0 (execPromptPhaseStart p s) := by
  unfold execPromptPhaseStart
  with_reducible repeat' (first
    | assumption | intro _ | exact Keeps.refl _ | apply State.routeReq_keeps | apply OptKeeps.some | apply OptKeeps.findSome
    | exact OptKeeps.none | apply OutKeeps.next
    | (extract_lets +onlyGivenNames x; clear_value (hx : x = _); refine Keeps.via (s := s0) hx ?_ fun hk => ?_)
    | (extract_lets +onlyGivenNames x; clear_value (hx : x = _); refine Keeps.viaP (s := s0) hx ?_ fun hk => ?_)
    | (extract_lets +onlyGivenNames x; clear_value (hx : x = _); refine OptKeeps.via (s := s0) hx ?_ fun hk => ?_)
    | (extract_lets +onlyGivenNames x; clear_value (hx : x = _); clear hx) | split | dsimp -zeta only
    | exact OptKeeps.get rfl (by assumption) | refine OptKeeps.get (by assumption) ?_ | refine Keeps.ofMk (by assumption) ?_
    | (refine Keeps.same ?_ rfl rfl rfl rfl rfl rfl rfl rfl))

theorem State.pauseSeq_keeps {s0 : State} (s : State) (b k : Nat) (hS : Keeps s0 s) : Keeps s0 (State.pauseSeq s b k) := by
  unfold State.pauseSeq
  with_reducible repeat' (first
    | assumption | apply State.modReq_keeps | apply State.setBatch_keeps)

theorem State.releaseBlocks_keeps {s0 : State} (s : State) (k : Nat) (stop : State → Bool) (y0 : Nat) (hS : Keeps s0 s) : Keeps s0 (State.releaseBlocks s k stop y0) := by
  induction y0 generalizing s with
  | zero =>
    unfold State.releaseBlocks
    with_reducible repeat' (first
      | assumption | intro _ | exact Keeps.refl _ | apply State.setTrLastUse_keeps | apply State.btRelease_keeps | apply State.unindex_keeps
      | apply State.freeFrame_keeps | apply OptKeeps.some | exact OptKeeps.none
      | (extract_lets +onlyGivenNames x; clear_value (hx : x = _); refine Keeps.via (s := s0) hx ?_ fun hk => ?_)
      | (extract_lets +onlyGivenNames x; clear_value (hx : x = _); refine Keeps.viaP (s := s0) hx ?_ fun hk => ?_)
      | (extract_lets +onlyGivenNames x; clear_value (hx : x = _); refine OptKeeps.via (s := s0) hx ?_ fun hk => ?_)
      | (extract_lets +onlyGivenNames x; clear_value (hx : x = _); clear hx) | apply Keeps.ite | apply OptKeeps.ite | split
      | dsimp -zeta only | exact OptKeeps.get rfl (by assumption) | refine OptKeeps.get (by assumption) ?_
      | refine Keeps.ofMk (by assumption) ?_ | (refine Keeps.same ?_ rfl rfl rfl rfl rfl rfl rfl rfl))
  | succ z ih =>
    unfold State.releaseBlocks
    with_reducible repeat' (first
      | assumption | intro _ | exact Keeps.refl _ | apply ih | apply State.setTrLastUse_keeps | apply State.btRelease_keeps
      | apply State.unindex_keeps | apply State.freeFrame_keeps | apply OptKeeps.some | exact OptKeeps.none
      | (extract_lets +onlyGivenNames x; clear_value (hx : x = _); refine Keeps.via (s := s0) hx ?_ fun hk => ?_)
      | (extract_lets +onlyGivenNames x; clear_value (hx : x = _); refine Keeps.viaP (s := s0) hx ?_ fun hk => ?_)
      | (extract_lets +onlyGivenNames x; clear_value (hx : x = _); refine OptKeeps.via (s := s0) hx ?_ fun hk => ?_)
      | (extract_lets +onlyGivenNames x; clear_value (hx : x = _); clear hx) | apply Keeps.ite | apply OptKeeps.ite | split
      | dsimp -zeta only | exact OptKeeps.get rfl (by assumption) | refine OptKeeps.get (by assumption) ?_
      | refine Keeps.ofMk (by assumption) ?_ | (refine Keeps.same ?_ rfl rfl rfl rfl rfl rfl rfl rfl))

theorem State.extendOne_keeps {s0 : State} (s : State) (b k : Nat) (hS : Keeps s0 s) : OptKeeps s0 (State.extendOne s b k) := by
  unfold State.extendOne
  with_reducible repeat' (first
    | assumption | intro _ | exact Keeps.refl _ | apply State.modReq_keeps | apply State.allocBlocks_keeps | apply OptKeeps.some
    | apply OptKeeps.map | exact OptKeeps.none
    | (extract_lets +onlyGivenNames x; clear_value (hx : x = _); refine Keeps.via (s := s0) hx ?_ fun hk => ?_)
    | (extract_lets +onlyGivenNames x; clear_value (hx : x = _); refine Keeps.viaP (s := s0) hx ?_ fun hk => ?_)
    | (extract_lets +onlyGivenNames x; clear_value (hx : x = _); refine OptKeeps.via (s := s0) hx ?_ fun hk => ?_)
    | (extract_lets +onlyGivenNames x; clear_value (hx : x = _); clear hx) | split | dsimp -zeta only
    | exact OptKeeps.get rfl (by assumption) | refine OptKeeps.get (by assumption) ?_ | refine Keeps.ofMk (by assumption) ?_
    | (refine Keeps.same ?_ rfl rfl rfl rfl rfl rfl rfl rfl))

theorem State.extendOrPause_keeps {s0 : State} (s : State) (b k : Nat) (y0 : Nat) (hS : Keeps s0 s) : Keeps s0 (State.extendOrPause s b k y0) := by
  induction y0 generalizing s with
  | zero =>
    unfold State.extendOrPause
    with_reducible repeat' (first
      | assumption | intro _ | exact Keeps.refl _ | apply State.inc_keeps | apply State.pauseSeq_keeps | apply State.releaseBlocks_keeps
      | apply State.extendOne_keeps | apply OptKeeps.some | exact OptKeeps.none
      | (extract_lets +onlyGivenNames x; clear_value (hx : x = _); refine Keeps.via (s := s0) hx ?_ fun hk => ?_)
      | (extract_lets +onlyGivenNames x; clear_value (hx : x = _); refine Keeps.viaP (s := s0) hx ?_ fun hk => ?_)
      | (extract_lets +onlyGivenNames x; clear_value (hx : x = _); refine OptKeeps.via (s := s0) hx ?_ fun hk => ?_)
      | (extract_lets +onlyGivenNames x; clear_value (hx : x = _); clear hx) | apply Keeps.ite | apply OptKeeps.ite | split
      | dsimp -zeta only | exact OptKeeps.get rfl (by assumption) | refine OptKeeps.get (by assumption) ?_
      | refine Keeps.ofMk (by assumption) ?_ | (refine Keeps.same ?_ rfl rfl rfl rfl rfl rfl rfl rfl))
  | succ z ih =>
    unfold State.extendOrPause
    with_reducible repeat' (first
      | assumption | intro _ | exact Keeps.refl _ | apply ih | apply State.inc_keeps | apply State.pauseSeq_keeps
      | apply State.releaseBlocks_keeps | apply State.extendOne_keeps | apply OptKeeps.some | exact OptKeeps.none
      | (extract_lets +onlyGivenNames x; clear_value (hx : x = _); refine Keeps.via (s := s0) hx ?_ fun hk => ?_)
      | (extract_lets +onlyGivenNames x; clear_value (hx : x = _); refine Keeps.viaP (s := s0) hx ?_ fun hk => ?_)
      | (extract_lets +onlyGivenNames x; clear_value (hx : x = _); refine OptKeeps.via (s := s0) hx ?_ fun hk => ?_)
      | (extract_lets +onlyGivenNames x; clear_value (hx : x = _); clear hx) | apply Keeps.ite | apply OptKeeps.ite | split
      | dsimp -zeta only | exact OptKeeps.get rfl (by assumption) | refine OptKeeps.get (by assumption) ?_
      | refine Keeps.ofMk (by assumption) ?_ | (refine Keeps.same ?_ rfl rfl rfl rfl rfl rfl rfl rfl))

theorem State.seat_keeps {s0 : State} (s : State) (b : Nat) (e : Nat × Req) (hS : Keeps s0 s) : Keeps s0 (State.seat s b e) := by
  unfold State.seat
  with_reducible repeat' (first
    | assumption | intro _ | exact Keeps.refl _ | apply State.inc_keeps | apply State.initCtx_keeps | apply State.setReq_keeps
    | apply State.markEnd_keeps | apply State.allocBlocks_keeps | apply State.setBatch_keeps | apply State.startRecompute_keeps
    | apply OptKeeps.some | exact OptKeeps.none
    | (extract_lets +onlyGivenNames x; clear_value (hx : x = _); refine Keeps.via (s := s0) hx ?_ fun hk => ?_)
    | (extract_lets +onlyGivenNames x; clear_value (hx : x = _); refine Keeps.viaP (s := s0) hx ?_ fun hk => ?_)
    | (extract_lets +onlyGivenNames x; clear_value (hx : x = _); refine OptKeeps.via (s := s0) hx ?_ fun hk => ?_)
    | (extract_lets +onlyGivenNames x; clear_value (hx : x = _); clear hx) | apply Keeps.ite | apply OptKeeps.ite | split
    | dsimp -zeta only | exact OptKeeps.get rfl (by assumption) | refine OptKeeps.get (by assumption) ?_
    | refine Keeps.ofMk (by assumption) ?_ | (refine Keeps.same ?_ rfl rfl rfl rfl rfl rfl rfl rfl))

theorem State.riskSeat_keeps {s0 : State} (s : State) (b k cls : Nat) (y0 : Nat) (hS : Keeps s0 s) : Keeps s0 (State.riskSeat s b k cls y0) := by
  induction y0 generalizing s with
  | zero =>
    unfold State.riskSeat
    with_reducible repeat' (first
      | assumption | intro _ | exact Keeps.refl _ | apply State.inc_keeps | apply State.pauseSeq_keeps | apply OptKeeps.some
      | exact OptKeeps.none | (extract_lets +onlyGivenNames x; clear_value (hx : x = _); refine Keeps.via (s := s0) hx ?_ fun hk => ?_)
      | (extract_lets +onlyGivenNames x; clear_value (hx : x = _); refine Keeps.viaP (s := s0) hx ?_ fun hk => ?_)
      | (extract_lets +onlyGivenNames x; clear_value (hx : x = _); refine OptKeeps.via (s := s0) hx ?_ fun hk => ?_)
      | (extract_lets +onlyGivenNames x; clear_value (hx : x = _); clear hx) | apply Keeps.ite | apply OptKeeps.ite | split
      | dsimp -zeta only | exact OptKeeps.get rfl (by assumption) | refine OptKeeps.get (by assumption) ?_
      | refine Keeps.ofMk (by assumption) ?_ | (refine Keeps.same ?_ rfl rfl rfl rfl rfl rfl rfl rfl))
  | succ z ih =>
    unfold State.riskSeat
    with_reducible repeat' (first
      | assumption | intro _ | exact Keeps.refl _ | apply ih | apply State.inc_keeps | apply State.pauseSeq_keeps | apply OptKeeps.some
      | exact OptKeeps.none | (extract_lets +onlyGivenNames x; clear_value (hx : x = _); refine Keeps.via (s := s0) hx ?_ fun hk => ?_)
      | (extract_lets +onlyGivenNames x; clear_value (hx : x = _); refine Keeps.viaP (s := s0) hx ?_ fun hk => ?_)
      | (extract_lets +onlyGivenNames x; clear_value (hx : x = _); refine OptKeeps.via (s := s0) hx ?_ fun hk => ?_)
      | (extract_lets +onlyGivenNames x; clear_value (hx : x = _); clear hx) | apply Keeps.ite | apply OptKeeps.ite | split
      | dsimp -zeta only | exact OptKeeps.get rfl (by assumption) | refine OptKeeps.get (by assumption) ?_
      | refine Keeps.ofMk (by assumption) ?_ | (refine Keeps.same ?_ rfl rfl rfl rfl rfl rfl rfl rfl))

theorem State.riskPauses_keeps {s0 : State} (s : State) (b : Nat) (seated : List Nat) (hS : Keeps s0 s) : Keeps s0 (State.riskPauses s b seated) := by
  unfold State.riskPauses
  with_reducible repeat' (first
    | assumption | intro _ | exact Keeps.refl _ | apply State.releaseBlocks_keeps | apply State.riskSeat_keeps | apply Keeps.each
    | apply Keeps.eachP | apply OptKeeps.some | exact OptKeeps.none | apply hF | apply hG | apply hH
    | (extract_lets +onlyGivenNames x; clear_value (hx : x = _); refine Keeps.via (s := s0) hx ?_ fun hk => ?_)
    | (extract_lets +onlyGivenNames x; clear_value (hx : x = _); refine Keeps.viaP (s := s0) hx ?_ fun hk => ?_)
    | (extract_lets +onlyGivenNames x; clear_value (hx : x = _); refine OptKeeps.via (s := s0) hx ?_ fun hk => ?_)
    | (extract_lets +onlyGivenNames x; clear_value (hx : x = _); (fail_if_success have := hF); refine Keeps.viaFunC (s := s0) hx ?_ fun hF => ?_)
    | (extract_lets +onlyGivenNames x; clear_value (hx : x = _); clear hx) | apply Keeps.ite | apply OptKeeps.ite | split
    | dsimp -zeta only | exact OptKeeps.get rfl (by assumption) | refine OptKeeps.get (by assumption) ?_
    | refine Keeps.ofMk (by assumption) ?_ | (refine Keeps.same ?_ rfl rfl rfl rfl rfl rfl rfl rfl))

theorem State.writeStepTable_keeps {s0 : State} (s : State) (b : Nat) (hS : Keeps s0 s) : Keeps s0 (State.writeStepTable s b) := by
  unfold State.writeStepTable
  with_reducible repeat' (first
    | assumption | intro _ | exact Keeps.refl _ | apply State.stFor_keeps | apply State.setReq_keeps | apply Keeps.each
    | apply Keeps.eachP | apply OptKeeps.some | exact OptKeeps.none
    | (extract_lets +onlyGivenNames x; clear_value (hx : x = _); refine Keeps.via (s := s0) hx ?_ fun hk => ?_)
    | (extract_lets +onlyGivenNames x; clear_value (hx : x = _); refine Keeps.viaP (s := s0) hx ?_ fun hk => ?_)
    | (extract_lets +onlyGivenNames x; clear_value (hx : x = _); refine OptKeeps.via (s := s0) hx ?_ fun hk => ?_)
    | (extract_lets +onlyGivenNames x; clear_value (hx : x = _); clear hx) | split | dsimp -zeta only
    | exact OptKeeps.get rfl (by assumption) | refine OptKeeps.get (by assumption) ?_ | refine Keeps.ofMk (by assumption) ?_
    | (refine Keeps.same ?_ rfl rfl rfl rfl rfl rfl rfl rfl))

theorem execBatchBoundary_keeps {s0 : State} (b : Nat) (s : State) (hS : Keeps s0 s) : OutKeeps s0 (execBatchBoundary b s) := by
  unfold execBatchBoundary
  with_reducible repeat' (first
    | assumption | intro _ | exact Keeps.refl _ | apply State.wr_keeps | apply State.inc_keeps | apply State.semPost_keeps
    | apply State.flushFree_keeps | apply State.reqEnd_keeps | apply State.setBatch_keeps | apply State.extendOrPause_keeps
    | apply State.seat_keeps | apply State.riskPauses_keeps | apply State.writeStepTable_keeps | apply Keeps.each | apply Keeps.eachP
    | apply OptKeeps.some | exact OptKeeps.none | apply OutKeeps.next
    | (extract_lets +onlyGivenNames x; clear_value (hx : x = _); refine Keeps.via (s := s0) hx ?_ fun hk => ?_)
    | (extract_lets +onlyGivenNames x; clear_value (hx : x = _); refine Keeps.viaP (s := s0) hx ?_ fun hk => ?_)
    | (extract_lets +onlyGivenNames x; clear_value (hx : x = _); refine OptKeeps.via (s := s0) hx ?_ fun hk => ?_)
    | (extract_lets +onlyGivenNames x; clear_value (hx : x = _); clear hx) | apply Keeps.ite | apply OptKeeps.ite | apply OutKeeps.ite
    | split | dsimp -zeta only | exact OptKeeps.get rfl (by assumption) | refine OptKeeps.get (by assumption) ?_
    | refine Keeps.ofMk (by assumption) ?_ | (refine Keeps.same ?_ rfl rfl rfl rfl rfl rfl rfl rfl))

theorem State.serveTokens_keeps {s0 : State} (s : State) (who : Option Nat) (toks : List Nat) (fin : Bool) (status : Nat) (hS : Keeps s0 s) : Keeps s0 (State.serveTokens s who toks fin status) := by
  unfold State.serveTokens
  with_reducible repeat' (first
    | assumption | intro _ | exact Keeps.refl _ | apply State.setReq_keeps | apply State.deliver_keeps | apply State.sendToken_keeps
    | apply State.markEnd_keeps | apply OptKeeps.some | apply OptKeeps.map | exact OptKeeps.none
    | (extract_lets +onlyGivenNames x; clear_value (hx : x = _); refine Keeps.via (s := s0) hx ?_ fun hk => ?_)
    | (extract_lets +onlyGivenNames x; clear_value (hx : x = _); refine Keeps.viaP (s := s0) hx ?_ fun hk => ?_)
    | (extract_lets +onlyGivenNames x; clear_value (hx : x = _); refine OptKeeps.via (s := s0) hx ?_ fun hk => ?_)
    | (extract_lets +onlyGivenNames x; clear_value (hx : x = _); clear hx) | apply Keeps.ite | apply OptKeeps.ite | split
    | dsimp -zeta only | exact OptKeeps.get rfl (by assumption) | refine OptKeeps.get (by assumption) ?_
    | refine Keeps.ofMk (by assumption) ?_ | (refine Keeps.same ?_ rfl rfl rfl rfl rfl rfl rfl rfl))

end Sys2Proof.Machine
end

