-- ==== Sys2Proof/Laws/KeepsServeMsg.lean ====
section
/-! SUPPORT. Every operation of Machine/ServeMsg.lean keeps what Keeps (Safety.lean) says. -/

namespace Sys2Proof.Machine

theorem State.svRefuse_keeps {s0 : State} (s : State) (q : Nat) (p : Packet) (status : Nat) (hS : Keeps s0 s) : Keeps s0 (State.svRefuse s q p status) := by
  unfold State.svRefuse
  with_reducible repeat' (first
    | assumption | apply State.sendServe_keeps)

theorem serveIn_keeps {s0 : State} (kind : Nat) (bound : State → Nat → Bool) (p : Packet) (s : State) (body : State → Nat → State) (hbody : ∀ a0 a1, Keeps s0 a0 → Keeps s0 (body a0 a1)) (hS : Keeps s0 s) : Keeps s0 (serveIn kind bound p s body) := by
  unfold serveIn
  with_reducible repeat' (first
    | assumption | intro _ | exact Keeps.refl _ | apply hbody | apply State.inc_keeps | apply State.ack_keeps | apply State.refuse_keeps
    | apply State.svRefuse_keeps | apply OptKeeps.some | exact OptKeeps.none
    | (extract_lets +onlyGivenNames x; clear_value (hx : x = _); refine Keeps.via (s := s0) hx ?_ fun hk => ?_)
    | (extract_lets +onlyGivenNames x; clear_value (hx : x = _); refine Keeps.viaP (s := s0) hx ?_ fun hk => ?_)
    | (extract_lets +onlyGivenNames x; clear_value (hx : x = _); refine OptKeeps.via (s := s0) hx ?_ fun hk => ?_)
    | (extract_lets +onlyGivenNames x; clear_value (hx : x = _); clear hx) | apply Keeps.ite | apply OptKeeps.ite | split
    | dsimp -zeta only | exact OptKeeps.get rfl (by assumption) | refine OptKeeps.get (by assumption) ?_
    | refine Keeps.ofMk (by assumption) ?_ | (refine Keeps.same ?_ rfl rfl rfl rfl rfl rfl rfl rfl))

theorem State.pushBlock_keeps {s0 : State} (s : State) (k b which ga : Nat) (hS : Keeps s0 s) : Keeps s0 (State.pushBlock s k b which ga) := by
  unfold State.pushBlock
  with_reducible repeat' (first
    | assumption | intro _ | exact Keeps.refl _ | apply State.launchOp_keeps | apply State.newGroup_keeps | apply State.setReq_keeps
    | apply Keeps.upto | apply Keeps.uptoP | apply OptKeeps.some | exact OptKeeps.none
    | (extract_lets +onlyGivenNames x; clear_value (hx : x = _); refine Keeps.via (s := s0) hx ?_ fun hk => ?_)
    | (extract_lets +onlyGivenNames x; clear_value (hx : x = _); refine Keeps.viaP (s := s0) hx ?_ fun hk => ?_)
    | (extract_lets +onlyGivenNames x; clear_value (hx : x = _); refine OptKeeps.via (s := s0) hx ?_ fun hk => ?_)
    | (extract_lets +onlyGivenNames x; clear_value (hx : x = _); clear hx) | apply Keeps.ite | apply OptKeeps.ite | split
    | dsimp -zeta only | exact OptKeeps.get rfl (by assumption) | refine OptKeeps.get (by assumption) ?_
    | refine Keeps.ofMk (by assumption) ?_ | (refine Keeps.same ?_ rfl rfl rfl rfl rfl rfl rfl rfl))

theorem State.kvDone_keeps {s0 : State} (s : State) (k : Nat) (hS : Keeps s0 s) : Keeps s0 (State.kvDone s k) := by
  unfold State.kvDone
  with_reducible repeat' (first
    | assumption | apply State.modReq_keeps | apply State.sendServe_keeps
    | (extract_lets +onlyGivenNames x; clear_value (hx : x = _); clear hx) | apply Keeps.ite | split)

theorem State.pushTo_keeps {s0 : State} (s : State) (k n w : Nat) (frames : NMap Nat) (hS : Keeps s0 s) : Keeps s0 (State.pushTo s k n w frames) := by
  unfold State.pushTo
  with_reducible repeat' (first
    | assumption | intro _ | apply State.pushBlock_keeps | apply Keeps.upto | apply Keeps.ite | split)

theorem State.pushKv_keeps {s0 : State} (s : State) (k : Nat) (hS : Keeps s0 s) : Keeps s0 (State.pushKv s k) := by
  unfold State.pushKv
  with_reducible repeat' (first
    | assumption | apply State.kvDone_keeps | apply State.pushTo_keeps
    | (extract_lets +onlyGivenNames x; clear_value (hx : x = _); refine Keeps.via (s := s0) hx ?_ fun hk => ?_) | apply Keeps.ite | split)

theorem State.kvAcked_keeps {s0 : State} (s : State) (g : Nat) (hS : Keeps s0 s) : Keeps s0 (State.kvAcked s g) := by
  unfold State.kvAcked
  with_reducible repeat' (first
    | assumption | apply State.setReq_keeps | apply State.kvDone_keeps | apply Keeps.ite | split)

theorem State.noteLost_keeps {s0 : State} (s : State) (dev : Nat) (who : Option Nat) (hS : Keeps s0 s) : Keeps s0 (State.noteLost s dev who) := by
  unfold State.noteLost
  with_reducible repeat' (first
    | assumption | intro _ | exact Keeps.refl _
    | (extract_lets +onlyGivenNames x; clear_value (hx : x = _); refine Keeps.via (s := s0) hx ?_ fun hk => ?_)
    | (extract_lets +onlyGivenNames x; clear_value (hx : x = _); refine Keeps.viaP (s := s0) hx ?_ fun hk => ?_)
    | (extract_lets +onlyGivenNames x; clear_value (hx : x = _); ((have hy : @Eq SrvSt x _ := hx); clear hx; subst hy))
    | (extract_lets +onlyGivenNames x; clear_value (hx : x = _); refine OptKeeps.via (s := s0) hx ?_ fun hk => ?_)
    | (extract_lets +onlyGivenNames x; clear_value (hx : x = _); clear hx) | apply Keeps.ite | split | dsimp -zeta only
    | (refine Keeps.same ?_ rfl rfl rfl rfl rfl rfl rfl rfl))

theorem State.dropSecond_keeps {s0 : State} (s : State) (r : Req) (hS : Keeps s0 s) : Keeps s0 (State.dropSecond s r) := by
  unfold State.dropSecond
  with_reducible repeat' (first
    | assumption | intro _ | exact Keeps.refl _ | apply State.sendServe_keeps | apply OptKeeps.some | exact OptKeeps.none
    | (extract_lets +onlyGivenNames x; clear_value (hx : x = _); refine Keeps.via (s := s0) hx ?_ fun hk => ?_)
    | (extract_lets +onlyGivenNames x; clear_value (hx : x = _); refine Keeps.viaP (s := s0) hx ?_ fun hk => ?_)
    | (extract_lets +onlyGivenNames x; clear_value (hx : x = _); refine OptKeeps.via (s := s0) hx ?_ fun hk => ?_)
    | (extract_lets +onlyGivenNames x; clear_value (hx : x = _); clear hx) | apply Keeps.ite | apply OptKeeps.ite | split
    | dsimp -zeta only | exact OptKeeps.get rfl (by assumption) | refine OptKeeps.get (by assumption) ?_
    | refine Keeps.ofMk (by assumption) ?_ | (refine Keeps.same ?_ rfl rfl rfl rfl rfl rfl rfl rfl))

theorem State.lostFault_keeps {s0 : State} (s : State) (code : Nat) (r : Req) (dev : Nat) (hS : Keeps s0 s) : Keeps s0 (State.lostFault s code r dev) := by
  unfold State.lostFault
  with_reducible repeat' (first
    | assumption | apply State.fault_keeps)

theorem State.reprefill_keeps {s0 : State} (s : State) (k : Nat) (tried : List Nat) (hS : Keeps s0 s) : Keeps s0 (State.reprefill s k tried) := by
  unfold State.reprefill
  with_reducible repeat' (first
    | assumption | apply State.inc_keeps | apply State.setReq_keeps | apply State.dropBlocks_keeps
    | (extract_lets +onlyGivenNames x; clear_value (hx : x = _); refine Keeps.via (s := s0) hx ?_ fun hk => ?_) | split)

theorem State.newGen_keeps {s0 : State} (s : State) (k : Nat) (tried : List Nat) (status : Nat) (keep : Bool) (after : Option Nat) (hS : Keeps s0 s) : Keeps s0 (State.newGen s k tried status keep after) := by
  unfold State.newGen
  with_reducible repeat' (first
    | assumption | intro _ | exact Keeps.refl _ | apply State.inc_keeps | apply State.setReq_keeps | apply State.wrrPick_keeps
    | apply State.markEnd_keeps | apply State.sendOpen_keeps | apply OptKeeps.some | exact OptKeeps.none
    | (extract_lets +onlyGivenNames x; clear_value (hx : x = _); refine Keeps.via (s := s0) hx ?_ fun hk => ?_)
    | (extract_lets +onlyGivenNames x; clear_value (hx : x = _); refine Keeps.viaP (s := s0) hx ?_ fun hk => ?_)
    | (extract_lets +onlyGivenNames x; clear_value (hx : x = _); refine OptKeeps.via (s := s0) hx ?_ fun hk => ?_)
    | (extract_lets +onlyGivenNames x; clear_value (hx : x = _); clear hx) | apply Keeps.ite | apply OptKeeps.ite | split
    | dsimp -zeta only | exact OptKeeps.get rfl (by assumption) | refine OptKeeps.get (by assumption) ?_
    | refine Keeps.ofMk (by assumption) ?_ | (refine Keeps.same ?_ rfl rfl rfl rfl rfl rfl rfl rfl))

theorem State.newSecond_keeps {s0 : State} (s : State) (k : Nat) (next : Bool) (hS : Keeps s0 s) : Keeps s0 (State.newSecond s k next) := by
  unfold State.newSecond
  with_reducible repeat' (first
    | assumption | intro _ | exact Keeps.refl _ | apply State.inc_keeps | apply State.setReq_keeps | apply State.sendOpen_keeps
    | apply State.kvDone_keeps | apply OptKeeps.some | exact OptKeeps.none
    | (extract_lets +onlyGivenNames x; clear_value (hx : x = _); refine Keeps.via (s := s0) hx ?_ fun hk => ?_)
    | (extract_lets +onlyGivenNames x; clear_value (hx : x = _); refine Keeps.viaP (s := s0) hx ?_ fun hk => ?_)
    | (extract_lets +onlyGivenNames x; clear_value (hx : x = _); refine OptKeeps.via (s := s0) hx ?_ fun hk => ?_)
    | (extract_lets +onlyGivenNames x; clear_value (hx : x = _); clear hx) | apply Keeps.ite | apply OptKeeps.ite | split
    | dsimp -zeta only | exact OptKeeps.get rfl (by assumption) | refine OptKeeps.get (by assumption) ?_
    | refine Keeps.ofMk (by assumption) ?_ | (refine Keeps.same ?_ rfl rfl rfl rfl rfl rfl rfl rfl))

theorem State.memberLost_keeps {s0 : State} (s : State) (dev : Nat) (gone : Bool) (k : Nat) (hS : Keeps s0 s) : Keeps s0 (State.memberLost s dev gone k) := by
  unfold State.memberLost
  with_reducible repeat' (first
    | assumption | intro _ | exact Keeps.refl _ | apply State.rec__keeps | apply State.setReq_keeps | apply State.leave_keeps
    | apply State.reqEnd_keeps | apply State.lostFault_keeps | apply State.reprefill_keeps | apply State.newGen_keeps
    | apply State.newSecond_keeps | apply OptKeeps.some | exact OptKeeps.none | apply hF | apply hG | apply hH
    | (extract_lets +onlyGivenNames x; clear_value (hx : x = _); refine Keeps.via (s := s0) hx ?_ fun hk => ?_)
    | (extract_lets +onlyGivenNames x; clear_value (hx : x = _); refine Keeps.viaP (s := s0) hx ?_ fun hk => ?_)
    | (extract_lets +onlyGivenNames x; clear_value (hx : x = _); refine OptKeeps.via (s := s0) hx ?_ fun hk => ?_)
    | (extract_lets +onlyGivenNames x; clear_value (hx : x = _); (fail_if_success have := hF); refine Keeps.viaFun (s := s0) hx ?_ fun hF => ?_)
    | (extract_lets +onlyGivenNames x; clear_value (hx : x = _); clear hx) | apply Keeps.ite | apply OptKeeps.ite | split
    | dsimp -zeta only | exact OptKeeps.get rfl (by assumption) | refine OptKeeps.get (by assumption) ?_
    | refine Keeps.ofMk (by assumption) ?_ | (refine Keeps.same ?_ rfl rfl rfl rfl rfl rfl rfl rfl))

theorem execMemberLost_keeps {s0 : State} (dev : Nat) (s : State) (hS : Keeps s0 s) : OutKeeps s0 (execMemberLost dev s) := by
  unfold execMemberLost
  with_reducible repeat' (first
    | assumption | intro _ | exact Keeps.refl _ | apply State.memberLost_keeps | apply Keeps.each | apply Keeps.eachP
    | apply OptKeeps.some | apply OptKeeps.map | exact OptKeeps.none | apply OutKeeps.next | apply hF | apply hG | apply hH
    | (extract_lets +onlyGivenNames x; clear_value (hx : x = _); refine Keeps.via (s := s0) hx ?_ fun hk => ?_)
    | (extract_lets +onlyGivenNames x; clear_value (hx : x = _); refine Keeps.viaP (s := s0) hx ?_ fun hk => ?_)
    | (extract_lets +onlyGivenNames x; clear_value (hx : x = _); ((have hy : @Eq SrvSt x _ := hx); clear hx; subst hy))
    | (extract_lets +onlyGivenNames x; clear_value (hx : x = _); refine OptKeeps.via (s := s0) hx ?_ fun hk => ?_)
    | (extract_lets +onlyGivenNames x; clear_value (hx : x = _); (fail_if_success have := hF); refine Keeps.viaFunC (s := s0) hx ?_ fun hF => ?_)
    | (extract_lets +onlyGivenNames x; clear_value (hx : x = _); clear hx) | apply Keeps.ite | apply OptKeeps.ite | apply OutKeeps.ite
    | split | dsimp -zeta only | exact OptKeeps.get rfl (by assumption) | refine OptKeeps.get (by assumption) ?_
    | (refine Keeps.same ?_ rfl rfl rfl rfl rfl rfl rfl rfl))

theorem execPromptReq_keeps {s0 : State} (p : Packet) (prompt : Kept) (s : State) (hS : Keeps s0 s) : OutKeeps s0 (execPromptReq p prompt s) := by
  unfold execPromptReq
  with_reducible repeat' (first
    | assumption | intro _ | exact Keeps.refl _ | apply State.adPin_keeps | apply State.setReq_keeps | apply State.accept_keeps
    | apply State.svRefuse_keeps | apply serveIn_keeps | apply OptKeeps.some | apply OptKeeps.map | exact OptKeeps.none
    | apply OutKeeps.next | (extract_lets +onlyGivenNames x; clear_value (hx : x = _); refine Keeps.via (s := s0) hx ?_ fun hk => ?_)
    | (extract_lets +onlyGivenNames x; clear_value (hx : x = _); refine Keeps.viaP (s := s0) hx ?_ fun hk => ?_)
    | (extract_lets +onlyGivenNames x; clear_value (hx : x = _); refine OptKeeps.via (s := s0) hx ?_ fun hk => ?_)
    | (extract_lets +onlyGivenNames x; clear_value (hx : x = _); clear hx) | apply Keeps.ite | apply OptKeeps.ite | apply OutKeeps.ite
    | split | dsimp -zeta only | exact OptKeeps.get rfl (by assumption) | refine OptKeeps.get (by assumption) ?_
    | refine Keeps.ofMk (by assumption) ?_ | (refine Keeps.same ?_ rfl rfl rfl rfl rfl rfl rfl rfl))

theorem State.reserveFrames_keeps {s0 : State} (s : State) (q h mask : Nat) (y0 : Nat) (y1 : Nat) (hS : Keeps s0 s) : OptKeeps s0 (State.reserveFrames s q h mask y0 y1) := by
  induction y0 generalizing s y1 with
  | zero =>
    unfold State.reserveFrames
    with_reducible repeat' (first
      | assumption | apply OptKeeps.some)
  | succ z ih =>
    unfold State.reserveFrames
    with_reducible repeat' (first
      | assumption | apply ih | apply State.took_keeps | apply State.btPut_keeps | apply State.allocTiles_keeps | exact OptKeeps.none
      | split | refine Keeps.ofMk (by assumption) ?_)

theorem State.sendFrames_keeps {s0 : State} (s : State) (k dev epoch : Nat) (hS : Keeps s0 s) : Keeps s0 (State.sendFrames s k dev epoch) := by
  unfold State.sendFrames
  with_reducible repeat' (first
    | assumption | intro _ | apply State.sendServe_keeps | apply Keeps.upto | split)

theorem execHandoffOpen_keeps {s0 : State} (p : Packet) (body : Nat) (prompt : Kept) (s : State) (hS : Keeps s0 s) : OutKeeps s0 (execHandoffOpen p body prompt s) := by
  unfold execHandoffOpen
  with_reducible repeat' (first
    | assumption | intro _ | exact Keeps.refl _ | apply State.adPin_keeps | apply State.setReq_keeps | apply State.accept_keeps
    | apply State.svRefuse_keeps | apply serveIn_keeps | apply State.reserveFrames_keeps | apply State.sendFrames_keeps
    | apply OptKeeps.some | exact OptKeeps.none | apply OutKeeps.next
    | (extract_lets +onlyGivenNames x; clear_value (hx : x = _); refine Keeps.via (s := s0) hx ?_ fun hk => ?_)
    | (extract_lets +onlyGivenNames x; clear_value (hx : x = _); refine Keeps.viaP (s := s0) hx ?_ fun hk => ?_)
    | (extract_lets +onlyGivenNames x; clear_value (hx : x = _); refine OptKeeps.via (s := s0) hx ?_ fun hk => ?_)
    | (extract_lets +onlyGivenNames x; clear_value (hx : x = _); clear hx) | apply Keeps.ite | apply OptKeeps.ite | apply OutKeeps.ite
    | split | dsimp -zeta only | exact OptKeeps.get rfl (by assumption) | refine OptKeeps.get (by assumption) ?_
    | refine Keeps.ofMk (by assumption) ?_ | (refine Keeps.same ?_ rfl rfl rfl rfl rfl rfl rfl rfl))

theorem execHandoffReply_keeps {s0 : State} (p : Packet) (s : State) (hS : Keeps s0 s) : OutKeeps s0 (execHandoffReply p s) := by
  unfold execHandoffReply
  with_reducible repeat' (first
    | assumption | intro _ | exact Keeps.refl _ | apply State.inc_keeps | apply State.setReq_keeps | apply State.markEnd_keeps
    | apply serveIn_keeps | apply State.pushKv_keeps | apply State.noteLost_keeps | apply State.newGen_keeps | apply State.newSecond_keeps
    | apply Keeps.upto | apply Keeps.uptoP | apply OptKeeps.some | exact OptKeeps.none | apply OutKeeps.next | apply hF | apply hG
    | apply hH | (extract_lets +onlyGivenNames x; clear_value (hx : x = _); refine Keeps.via (s := s0) hx ?_ fun hk => ?_)
    | (extract_lets +onlyGivenNames x; clear_value (hx : x = _); refine Keeps.viaP (s := s0) hx ?_ fun hk => ?_)
    | (extract_lets +onlyGivenNames x; clear_value (hx : x = _); refine OptKeeps.via (s := s0) hx ?_ fun hk => ?_)
    | (extract_lets +onlyGivenNames x; clear_value (hx : x = _); (fail_if_success have := hF); refine Keeps.viaFunC (s := s0) hx ?_ fun hF => ?_)
    | (extract_lets +onlyGivenNames x; clear_value (hx : x = _); clear hx) | apply Keeps.ite | apply OptKeeps.ite | apply OutKeeps.ite
    | split | dsimp -zeta only | exact OptKeeps.get rfl (by assumption) | refine OptKeeps.get (by assumption) ?_
    | refine Keeps.ofMk (by assumption) ?_ | (refine Keeps.same ?_ rfl rfl rfl rfl rfl rfl rfl rfl))

theorem State.svKvDone_keeps {s0 : State} (s : State) (q : Nat) (p : Packet) (hS : Keeps s0 s) : Keeps s0 (State.svKvDone s q p) := by
  unfold State.svKvDone
  with_reducible repeat' (first
    | assumption | intro _ | apply State.setTrState_keeps | apply State.setTrRefs_keeps | apply State.insertBlocks_keeps
    | apply State.setReq_keeps | apply State.sendServe_keeps | apply Keeps.upto
    | (extract_lets +onlyGivenNames x; clear_value (hx : x = _); refine Keeps.via (s := s0) hx ?_ fun hk => ?_)
    | (extract_lets +onlyGivenNames x; clear_value (hx : x = _); clear hx) | apply Keeps.ite | split)

theorem State.svHold_keeps {s0 : State} (s : State) (p : Packet) (hS : Keeps s0 s) : Keeps s0 (State.svHold s p) := by
  unfold State.svHold
  with_reducible repeat' (first
    | assumption | (extract_lets +onlyGivenNames x; clear_value (hx : x = _); ((have hy : @Eq SrvSt x _ := hx); clear hx; subst hy))
    | (refine Keeps.same ?_ rfl rfl rfl rfl rfl rfl rfl rfl))

theorem execKvDone_keeps {s0 : State} (p : Packet) (s : State) (hS : Keeps s0 s) : OutKeeps s0 (execKvDone p s) := by
  unfold execKvDone
  with_reducible repeat' (first
    | assumption | intro _ | exact Keeps.refl _ | apply serveIn_keeps | apply State.svKvDone_keeps | apply OutKeeps.next
    | dsimp -zeta only)

theorem execKvAck_keeps {s0 : State} (p : Packet) (s : State) (hS : Keeps s0 s) : OutKeeps s0 (execKvAck p s) := by
  unfold execKvAck
  with_reducible repeat' (first
    | assumption | intro _ | exact Keeps.refl _ | apply State.setReq_keeps | apply State.modReq_keeps | apply State.dropBlocks_keeps
    | apply State.leave_keeps | apply serveIn_keeps | apply State.dropSecond_keeps | apply OptKeeps.some | exact OptKeeps.none
    | apply OutKeeps.next | (extract_lets +onlyGivenNames x; clear_value (hx : x = _); refine Keeps.via (s := s0) hx ?_ fun hk => ?_)
    | (extract_lets +onlyGivenNames x; clear_value (hx : x = _); refine Keeps.viaP (s := s0) hx ?_ fun hk => ?_)
    | (extract_lets +onlyGivenNames x; clear_value (hx : x = _); refine OptKeeps.via (s := s0) hx ?_ fun hk => ?_)
    | (extract_lets +onlyGivenNames x; clear_value (hx : x = _); clear hx) | apply Keeps.ite | apply OptKeeps.ite | apply OutKeeps.ite
    | split | dsimp -zeta only | exact OptKeeps.get rfl (by assumption) | refine OptKeeps.get (by assumption) ?_
    | refine Keeps.ofMk (by assumption) ?_ | (refine Keeps.same ?_ rfl rfl rfl rfl rfl rfl rfl rfl))

theorem State.svToken_keeps {s0 : State} (s : State) (q : Nat) (p : Packet) (hS : Keeps s0 s) : Keeps s0 (State.svToken s q p) := by
  unfold State.svToken
  with_reducible repeat' (first
    | assumption | apply State.modReq_keeps | apply State.deliver_keeps | apply State.reqEnd_keeps
    | (extract_lets +onlyGivenNames x; clear_value (hx : x = _); refine Keeps.via (s := s0) hx ?_ fun hk => ?_)
    | (extract_lets +onlyGivenNames x; clear_value (hx : x = _); clear hx) | apply Keeps.ite | split)

theorem execToken_keeps {s0 : State} (p : Packet) (s : State) (hS : Keeps s0 s) : OutKeeps s0 (execToken p s) := by
  unfold execToken
  with_reducible repeat' (first
    | assumption | intro _ | exact Keeps.refl _ | apply serveIn_keeps | apply State.svHold_keeps | apply State.svToken_keeps
    | apply OutKeeps.next | apply Keeps.ite | apply OutKeeps.ite | split | dsimp -zeta only)

theorem State.svCancel_keeps {s0 : State} (s : State) (q : Nat) (p : Packet) (hS : Keeps s0 s) : Keeps s0 (State.svCancel s q p) := by
  unfold State.svCancel
  with_reducible repeat' (first
    | assumption | apply State.modReq_keeps | apply State.markEnd_keeps | split)

theorem execCancelMsg_keeps {s0 : State} (p : Packet) (s : State) (hS : Keeps s0 s) : OutKeeps s0 (execCancelMsg p s) := by
  unfold execCancelMsg
  with_reducible repeat' (first
    | assumption | intro _ | exact Keeps.refl _ | apply serveIn_keeps | apply State.svHold_keeps | apply State.svCancel_keeps
    | apply OutKeeps.next | apply Keeps.ite | apply OutKeeps.ite | split | dsimp -zeta only)

theorem State.svRelease_keeps {s0 : State} (s : State) (q : Nat) (hS : Keeps s0 s) : Keeps s0 (State.svRelease s q) := by
  unfold State.svRelease
  with_reducible repeat' (first
    | assumption | intro _ | apply State.svToken_keeps | apply State.svCancel_keeps | apply Keeps.each
    | (extract_lets +onlyGivenNames x; clear_value (hx : x = _); ((have hy : @Eq SrvSt x _ := hx); clear hx; subst hy)) | apply Keeps.ite
    | dsimp -zeta only | (refine Keeps.same ?_ rfl rfl rfl rfl rfl rfl rfl rfl))

theorem inkTake_keeps {s0 : State} (n : Nat) (f : Nat → Bool) (s : State) (body : State → EngCmd → State × Nat × Nat) (hbody : ∀ a0 a1, Keeps s0 a0 → Keeps s0 (body a0 a1).1) (hS : Keeps s0 s) : Keeps s0 (inkTake n f s body) := by
  unfold inkTake
  with_reducible repeat' (first
    | assumption | apply hbody | apply State.engResult_keeps
    | (extract_lets +onlyGivenNames x; clear_value (hx : x = _); refine Keeps.via (s := s0) hx ?_ fun hk => ?_)
    | (extract_lets +onlyGivenNames x; clear_value (hx : x = _); refine Keeps.viaP (s := s0) hx ?_ fun hk => ?_)
    | (extract_lets +onlyGivenNames x; clear_value (hx : x = _); ((have hy : @Eq SrvSt x _ := hx); clear hx; subst hy)) | apply Keeps.ite
    | split | (refine Keeps.same ?_ rfl rfl rfl rfl rfl rfl rfl rfl))

theorem execKvReady_keeps {s0 : State} (n : Nat) (s : State) (hS : Keeps s0 s) : OutKeeps s0 (execKvReady n s) := by
  unfold execKvReady
  with_reducible repeat' (first
    | assumption | intro _ | exact Keeps.refl _ | apply State.insertBlocks_keeps | apply State.setReq_keeps | apply State.pushKv_keeps
    | apply inkTake_keeps | apply OptKeeps.some | exact OptKeeps.none | apply OutKeeps.next
    | (extract_lets +onlyGivenNames x; clear_value (hx : x = _); refine Keeps.via (s := s0) hx ?_ fun hk => ?_)
    | (extract_lets +onlyGivenNames x; clear_value (hx : x = _); refine Keeps.viaP (s := s0) hx ?_ fun hk => ?_)
    | (extract_lets +onlyGivenNames x; clear_value (hx : x = _); refine OptKeeps.via (s := s0) hx ?_ fun hk => ?_)
    | (extract_lets +onlyGivenNames x; clear_value (hx : x = _); clear hx) | apply Keeps.ite | apply OptKeeps.ite | apply OutKeeps.ite
    | split | dsimp -zeta only | exact OptKeeps.get rfl (by assumption) | refine OptKeeps.get (by assumption) ?_
    | refine Keeps.ofMk (by assumption) ?_ | (refine Keeps.same ?_ rfl rfl rfl rfl rfl rfl rfl rfl))

theorem execStepDone_keeps {s0 : State} (n : Nat) (s : State) (hS : Keeps s0 s) : OutKeeps s0 (execStepDone n s) := by
  unfold execStepDone
  with_reducible repeat' (first
    | assumption | intro _ | apply State.setBatch_keeps | apply inkTake_keeps | apply OutKeeps.next
    | (extract_lets +onlyGivenNames x; clear_value (hx : x = _); clear hx) | split)

end Sys2Proof.Machine
end

