-- ==== Sys2Proof/Laws/KeepsCollective.lean ====
section
/-! SUPPORT. Every operation of Machine/Collective.lean keeps what Keeps (Safety.lean) says. -/

namespace Sys2Proof.Machine

theorem State.setColl_keeps {s0 : State} (s : State) (c : Coll) (hS : Keeps s0 s) : Keeps s0 (State.setColl s c) := by
  unfold State.setColl
  with_reducible repeat' (first
    | assumption | (extract_lets +onlyGivenNames x; clear_value (hx : x = _); ((have hy : @Eq ColSt x _ := hx); clear hx; subst hy))
    | (refine Keeps.same ?_ rfl rfl rfl rfl rfl rfl rfl rfl))

theorem State.delColl_keeps {s0 : State} (s : State) (c : Coll) (hS : Keeps s0 s) : Keeps s0 (State.delColl s c) := by
  unfold State.delColl
  with_reducible repeat' (first
    | assumption | (extract_lets +onlyGivenNames x; clear_value (hx : x = _); ((have hy : @Eq ColSt x _ := hx); clear hx; subst hy))
    | (refine Keeps.same ?_ rfl rfl rfl rfl rfl rfl rfl rfl))

theorem State.colFault_keeps {s0 : State} (s : State) (c : Coll) (code : Nat) (hS : Keeps s0 s) : Keeps s0 (State.colFault s c code) := by
  unfold State.colFault
  with_reducible repeat' (first
    | assumption | apply State.fault_keeps)

theorem State.breakComm_keeps {s0 : State} (s : State) (area : Nat) (hS : Keeps s0 s) : Keeps s0 (State.breakComm s area) := by
  unfold State.breakComm
  with_reducible repeat' (first
    | assumption | apply State.stN_keeps | apply Keeps.ite)

theorem State.colFinish_keeps {s0 : State} (s : State) (c : Coll) (status : Nat) (hS : Keeps s0 s) : Keeps s0 (State.colFinish s c status) := by
  unfold State.colFinish
  with_reducible repeat' (first
    | assumption | apply State.inc_keeps | apply State.engResult_keeps | apply Keeps.ite)

theorem State.sendCol_keeps {s0 : State} (s : State) (c : Coll) (r kind addr : Nat) (payload : List Nat) (poison : Bool) (hS : Keeps s0 s) : Keeps s0 (State.sendCol s c r kind addr payload poison) := by
  unfold State.sendCol
  with_reducible repeat' (first
    | assumption | intro _ | exact Keeps.refl _ | apply State.send_keeps | apply OptKeeps.some | exact OptKeeps.none
    | (extract_lets +onlyGivenNames x; clear_value (hx : x = _); refine Keeps.via (s := s0) hx ?_ fun hk => ?_)
    | (extract_lets +onlyGivenNames x; clear_value (hx : x = _); refine Keeps.viaP (s := s0) hx ?_ fun hk => ?_)
    | (extract_lets +onlyGivenNames x; clear_value (hx : x = _); ((have hy : @Eq FabSt x _ := hx); clear hx; subst hy))
    | (extract_lets +onlyGivenNames x; clear_value (hx : x = _); refine OptKeeps.via (s := s0) hx ?_ fun hk => ?_)
    | (extract_lets +onlyGivenNames x; clear_value (hx : x = _); clear hx) | dsimp -zeta only | exact OptKeeps.get rfl (by assumption)
    | refine OptKeeps.get (by assumption) ?_ | (refine Keeps.same ?_ rfl rfl rfl rfl rfl rfl rfl rfl))

theorem State.colRelease_keeps {s0 : State} (s : State) (c : Coll) (hS : Keeps s0 s) : Keeps s0 (State.colRelease s c) := by
  unfold State.colRelease
  with_reducible repeat' (first
    | assumption | apply State.send_keeps | (extract_lets +onlyGivenNames x; clear_value (hx : x = _); clear hx) | apply Keeps.ite)

theorem State.colFail_keeps {s0 : State} (s : State) (c : Coll) (status : Nat) (tell : Bool) (hS : Keeps s0 s) : Keeps s0 (State.colFail s c status tell) := by
  unfold State.colFail
  with_reducible repeat' (first
    | assumption | intro _ | apply State.took_keeps | apply State.stN_keeps | apply State.delColl_keeps | apply State.breakComm_keeps
    | apply State.colFinish_keeps | apply State.sendCol_keeps | apply State.colRelease_keeps | apply Keeps.each
    | (extract_lets +onlyGivenNames x; clear_value (hx : x = _); ((have hy : @Eq FabSt x _ := hx); clear hx; subst hy)) | apply Keeps.ite
    | split | dsimp -zeta only | (refine Keeps.same ?_ rfl rfl rfl rfl rfl rfl rfl rfl))

theorem State.straggle_keeps {s0 : State} (s : State) (c : Coll) (hS : Keeps s0 s) : Keeps s0 (State.straggle s c) := by
  unfold State.straggle
  with_reducible repeat' (first
    | assumption | apply State.wr_keeps | apply State.inc_keeps | apply State.incw_keeps | apply State.fault_keeps
    | (extract_lets +onlyGivenNames x; clear_value (hx : x = _); refine Keeps.via (s := s0) hx ?_ fun hk => ?_)
    | (extract_lets +onlyGivenNames x; clear_value (hx : x = _); clear hx) | apply Keeps.ite)

theorem State.colEnd_keeps {s0 : State} (s : State) (q key : Nat) (hS : Keeps s0 s) : Keeps s0 (State.colEnd s q key) := by
  unfold State.colEnd
  with_reducible repeat' (first
    | assumption | intro _ | exact Keeps.refl _ | apply CRes.done_keeps | apply State.delColl_keeps | apply State.colFinish_keeps
    | apply State.colRelease_keeps | apply State.straggle_keeps | apply OptKeeps.some | exact OptKeeps.none
    | (extract_lets +onlyGivenNames x; clear_value (hx : x = _); refine Keeps.via (s := s0) hx ?_ fun hk => ?_)
    | (extract_lets +onlyGivenNames x; clear_value (hx : x = _); refine Keeps.viaP (s := s0) hx ?_ fun hk => ?_)
    | (extract_lets +onlyGivenNames x; clear_value (hx : x = _); refine OptKeeps.via (s := s0) hx ?_ fun hk => ?_)
    | (extract_lets +onlyGivenNames x; clear_value (hx : x = _); clear hx) | apply Keeps.ite | apply OptKeeps.ite | split
    | dsimp -zeta only | exact OptKeeps.get rfl (by assumption) | refine OptKeeps.get (by assumption) ?_
    | refine Keeps.ofMk (by assumption) ?_ | (refine Keeps.same ?_ rfl rfl rfl rfl rfl rfl rfl rfl))

theorem State.srcRead_keeps {s0 : State} (s : State) (c : Coll) (r k : Nat) (hS : Keeps s0 s) : Keeps s0 (State.srcRead s c r k) := by
  unfold State.srcRead
  with_reducible repeat' (first
    | assumption | intro _ | exact Keeps.refl _ | apply State.countPoison_keeps | dsimp -zeta only)

theorem State.colLand_keeps {s0 : State} (s : State) (c : Coll) (r k : Nat) (b : List Nat) (bad : Bool) (hS : Keeps s0 s) : Keeps s0 (State.colLand s c r k b bad).1 := by
  unfold State.colLand
  with_reducible repeat' (first
    | assumption | intro _ | exact Keeps.refl _ | apply State.poisonRange_keeps | apply State.stBytes_keeps
    | (extract_lets +onlyGivenNames x; clear_value (hx : x = _); refine Keeps.via (s := s0) hx ?_ fun hk => ?_)
    | (extract_lets +onlyGivenNames x; clear_value (hx : x = _); refine Keeps.viaP (s := s0) hx ?_ fun hk => ?_)
    | (extract_lets +onlyGivenNames x; clear_value (hx : x = _); refine OptKeeps.via (s := s0) hx ?_ fun hk => ?_)
    | (extract_lets +onlyGivenNames x; clear_value (hx : x = _); clear hx) | dsimp -zeta only
    | (refine Keeps.same ?_ rfl rfl rfl rfl rfl rfl rfl rfl))

theorem State.colFinal_keeps {s0 : State} (s : State) (c : Coll) (k : Nat) (hS : Keeps s0 s) : Keeps s0 (State.colFinal s c k).1 := by
  unfold State.colFinal
  with_reducible repeat' (first
    | assumption | intro _ | exact Keeps.refl _ | apply State.inc_keeps | apply State.ack_keeps | apply CRes.done_keeps
    | apply State.sendCol_keeps | apply State.colLand_keeps | apply Keeps.each | apply Keeps.eachP | apply OptKeeps.map | apply hF
    | apply hG | apply hH | (extract_lets +onlyGivenNames x; clear_value (hx : x = _); refine Keeps.via (s := s0) hx ?_ fun hk => ?_)
    | (extract_lets +onlyGivenNames x; clear_value (hx : x = _); refine Keeps.viaP (s := s0) hx ?_ fun hk => ?_)
    | (extract_lets +onlyGivenNames x; clear_value (hx : x = _); refine OptKeeps.via (s := s0) hx ?_ fun hk => ?_)
    | (extract_lets +onlyGivenNames x; clear_value (hx : x = _); (fail_if_success have := hF); refine Keeps.viaFunC (s := s0) hx ?_ fun hF => ?_)
    | (extract_lets +onlyGivenNames x; clear_value (hx : x = _); clear hx) | apply Keeps.ite | split | dsimp -zeta only
    | (refine Keeps.same ?_ rfl rfl rfl rfl rfl rfl rfl rfl))

theorem State.colEnter_keeps {s0 : State} (s : State) (c : Coll) (k r h : Nat) (b : List Nat) (poison : Bool) (hS : Keeps s0 s) : Keeps s0 (State.colEnter s c k r h b poison).1 := by
  unfold State.colEnter
  with_reducible repeat' (first
    | assumption | intro _ | exact Keeps.refl _ | apply State.poisonRange_keeps | apply State.stBytes_keeps | apply OptKeeps.map
    | (extract_lets +onlyGivenNames x; clear_value (hx : x = _); refine Keeps.via (s := s0) hx ?_ fun hk => ?_)
    | (extract_lets +onlyGivenNames x; clear_value (hx : x = _); refine Keeps.viaP (s := s0) hx ?_ fun hk => ?_)
    | (extract_lets +onlyGivenNames x; clear_value (hx : x = _); refine OptKeeps.via (s := s0) hx ?_ fun hk => ?_)
    | (extract_lets +onlyGivenNames x; clear_value (hx : x = _); clear hx) | apply Keeps.ite | split | dsimp -zeta only
    | (refine Keeps.same ?_ rfl rfl rfl rfl rfl rfl rfl rfl))

theorem State.colOwn_keeps {s0 : State} (s : State) (c : Coll) (k : Nat) (hS : Keeps s0 s) : Keeps s0 (State.colOwn s c k).1 := by
  unfold State.colOwn
  with_reducible repeat' (first
    | assumption | intro _ | exact Keeps.refl _ | apply State.srcRead_keeps | apply State.colEnter_keeps
    | (extract_lets +onlyGivenNames x; clear_value (hx : x = _); refine Keeps.via (s := s0) hx ?_ fun hk => ?_)
    | (extract_lets +onlyGivenNames x; clear_value (hx : x = _); refine Keeps.viaP (s := s0) hx ?_ fun hk => ?_)
    | (extract_lets +onlyGivenNames x; clear_value (hx : x = _); refine OptKeeps.via (s := s0) hx ?_ fun hk => ?_)
    | (extract_lets +onlyGivenNames x; clear_value (hx : x = _); clear hx) | apply Keeps.ite | split | dsimp -zeta only
    | (refine Keeps.same ?_ rfl rfl rfl rfl rfl rfl rfl rfl))

theorem State.colOwner_keeps {s0 : State} (s : State) (c : Coll) (hS : Keeps s0 s) : Keeps s0 (State.colOwner s c).1 := by
  unfold State.colOwner
  with_reducible repeat' (first
    | assumption | intro _ | exact Keeps.refl _ | apply CRes.done_keeps | apply State.sendCol_keeps | apply State.colFinal_keeps
    | apply State.colOwn_keeps | apply Keeps.each | apply Keeps.eachP | apply Keeps.upto | apply Keeps.uptoP | apply Keeps.foldl
    | apply Keeps.foldlP | apply OptKeeps.map
    | (extract_lets +onlyGivenNames x; clear_value (hx : x = _); refine Keeps.via (s := s0) hx ?_ fun hk => ?_)
    | (extract_lets +onlyGivenNames x; clear_value (hx : x = _); refine Keeps.viaP (s := s0) hx ?_ fun hk => ?_)
    | (extract_lets +onlyGivenNames x; clear_value (hx : x = _); refine OptKeeps.via (s := s0) hx ?_ fun hk => ?_)
    | (extract_lets +onlyGivenNames x; clear_value (hx : x = _); clear hx) | apply Keeps.ite | split | dsimp -zeta only
    | (refine Keeps.same ?_ rfl rfl rfl rfl rfl rfl rfl rfl))

theorem State.colSendTo_keeps {s0 : State} (s : State) (c : Coll) (r : Nat) (hS : Keeps s0 s) : Keeps s0 (State.colSendTo s c r).1 := by
  unfold State.colSendTo
  with_reducible repeat' (first
    | assumption | intro _ | exact Keeps.refl _ | apply State.countPoison_keeps | apply State.sendCol_keeps | apply State.srcRead_keeps
    | apply Keeps.upto | apply Keeps.uptoP | apply OptKeeps.some | apply OptKeeps.map | exact OptKeeps.none
    | (extract_lets +onlyGivenNames x; clear_value (hx : x = _); refine Keeps.via (s := s0) hx ?_ fun hk => ?_)
    | (extract_lets +onlyGivenNames x; clear_value (hx : x = _); refine Keeps.viaP (s := s0) hx ?_ fun hk => ?_)
    | (extract_lets +onlyGivenNames x; clear_value (hx : x = _); refine OptKeeps.via (s := s0) hx ?_ fun hk => ?_)
    | (extract_lets +onlyGivenNames x; clear_value (hx : x = _); clear hx) | apply Keeps.ite | apply OptKeeps.ite | split
    | dsimp -zeta only | exact OptKeeps.get rfl (by assumption) | refine OptKeeps.get (by assumption) ?_
    | refine Keeps.ofMk (by assumption) ?_ | (refine Keeps.same ?_ rfl rfl rfl rfl rfl rfl rfl rfl))

theorem State.colLocal_keeps {s0 : State} (s : State) (c : Coll) (hS : Keeps s0 s) : Keeps s0 (State.colLocal s c).1 := by
  unfold State.colLocal
  with_reducible repeat' (first
    | assumption | intro _ | exact Keeps.refl _ | apply State.countPoison_keeps | apply State.colLand_keeps | apply Keeps.upto
    | apply Keeps.uptoP | (extract_lets +onlyGivenNames x; clear_value (hx : x = _); refine Keeps.via (s := s0) hx ?_ fun hk => ?_)
    | (extract_lets +onlyGivenNames x; clear_value (hx : x = _); refine Keeps.viaP (s := s0) hx ?_ fun hk => ?_)
    | (extract_lets +onlyGivenNames x; clear_value (hx : x = _); refine OptKeeps.via (s := s0) hx ?_ fun hk => ?_)
    | (extract_lets +onlyGivenNames x; clear_value (hx : x = _); clear hx) | apply Keeps.ite | split | dsimp -zeta only
    | (refine Keeps.same ?_ rfl rfl rfl rfl rfl rfl rfl rfl))

theorem State.colAlone_keeps {s0 : State} (s : State) (c : Coll) (hS : Keeps s0 s) : Keeps s0 (State.colAlone s c).1 := by
  unfold State.colAlone
  with_reducible repeat' (first
    | assumption | intro _ | exact Keeps.refl _ | apply CRes.done_keeps | apply State.srcRead_keeps | apply State.colLand_keeps
    | apply Keeps.upto | apply Keeps.uptoP | apply OptKeeps.map
    | (extract_lets +onlyGivenNames x; clear_value (hx : x = _); refine Keeps.via (s := s0) hx ?_ fun hk => ?_)
    | (extract_lets +onlyGivenNames x; clear_value (hx : x = _); refine Keeps.viaP (s := s0) hx ?_ fun hk => ?_)
    | (extract_lets +onlyGivenNames x; clear_value (hx : x = _); refine OptKeeps.via (s := s0) hx ?_ fun hk => ?_)
    | (extract_lets +onlyGivenNames x; clear_value (hx : x = _); clear hx) | apply Keeps.ite | split | dsimp -zeta only
    | (refine Keeps.same ?_ rfl rfl rfl rfl rfl rfl rfl rfl))

theorem State.colKick_keeps {s0 : State} (s : State) (q key : Nat) (hS : Keeps s0 s) : Keeps s0 (State.colKick s q key) := by
  unfold State.colKick
  with_reducible repeat' (first
    | assumption | intro _ | apply State.setColl_keeps | apply State.colEnd_keeps | apply State.colOwner_keeps
    | apply State.colSendTo_keeps | apply Keeps.uptoP
    | (extract_lets +onlyGivenNames x; clear_value (hx : x = _); refine Keeps.viaP (s := s0) hx ?_ fun hk => ?_) | apply Keeps.ite | split)

theorem State.colRefuse_keeps {s0 : State} (s : State) (c : Coll) (status : Nat) (hS : Keeps s0 s) : Keeps s0 (State.colRefuse s c status) := by
  unfold State.colRefuse
  with_reducible repeat' (first
    | assumption | apply State.colFault_keeps | apply State.colFinish_keeps | apply Keeps.ite)

theorem State.colReady_keeps {s0 : State} (s : State) (c : Coll) (hS : Keeps s0 s) : Keeps s0 (State.colReady s c) := by
  unfold State.colReady
  with_reducible repeat' (first
    | assumption | intro _ | apply State.sendCol_keeps | apply State.colKick_keeps | apply Keeps.upto | apply Keeps.ite)

theorem State.colTakeReady_keeps {s0 : State} (s : State) (c : Coll) (r line : Nat) (hS : Keeps s0 s) : Keeps s0 (State.colTakeReady s c r line) := by
  unfold State.colTakeReady
  with_reducible repeat' (first
    | assumption | apply State.setColl_keeps | apply State.colFault_keeps | apply State.colFail_keeps | apply State.colKick_keeps
    | (extract_lets +onlyGivenNames x; clear_value (hx : x = _); clear hx) | apply Keeps.ite)

theorem State.colEarly_keeps {s0 : State} (s : State) (c : Coll) (hS : Keeps s0 s) : Keeps s0 (State.colEarly s c) := by
  unfold State.colEarly
  with_reducible repeat' (first
    | assumption | intro _ | apply State.colTakeReady_keeps | apply Keeps.each
    | (extract_lets +onlyGivenNames x; clear_value (hx : x = _); ((have hy : @Eq ColSt x _ := hx); clear hx; subst hy)) | split
    | dsimp -zeta only | (refine Keeps.same ?_ rfl rfl rfl rfl rfl rfl rfl rfl))

theorem State.colGo_keeps {s0 : State} (s : State) (c : Coll) (hS : Keeps s0 s) : Keeps s0 (State.colGo s c) := by
  unfold State.colGo
  with_reducible repeat' (first
    | assumption | apply State.inc_keeps | apply State.stN_keeps | apply State.send_keeps | apply State.colEnd_keeps
    | apply State.colLocal_keeps | apply State.colAlone_keeps | apply State.colReady_keeps | apply State.colEarly_keeps
    | (extract_lets +onlyGivenNames x; clear_value (hx : x = _); refine Keeps.via (s := s0) hx ?_ fun hk => ?_)
    | (extract_lets +onlyGivenNames x; clear_value (hx : x = _); refine Keeps.viaP (s := s0) hx ?_ fun hk => ?_)
    | (extract_lets +onlyGivenNames x; clear_value (hx : x = _); ((have hy : @Eq ColSt x _ := hx); clear hx; subst hy))
    | (extract_lets +onlyGivenNames x; clear_value (hx : x = _); clear hx) | apply Keeps.ite | split
    | (refine Keeps.same ?_ rfl rfl rfl rfl rfl rfl rfl rfl))

theorem State.colCheck_keeps {s0 : State} (s : State) (c : Coll) (hS : Keeps s0 s) : Keeps s0 (State.colCheck s c) := by
  unfold State.colCheck
  with_reducible repeat' (first
    | assumption | apply State.colFinish_keeps | apply State.colRefuse_keeps | apply State.colGo_keeps
    | (extract_lets +onlyGivenNames x; clear_value (hx : x = _); clear hx) | apply Keeps.ite)

theorem State.orderMismatch_keeps {s0 : State} (s : State) (c : Coll) (hS : Keeps s0 s) : Keeps s0 (State.orderMismatch s c) := by
  unfold State.orderMismatch
  with_reducible repeat' (first
    | assumption | apply State.colFault_keeps | apply State.breakComm_keeps | apply State.colFinish_keeps)

theorem State.orderSweep_keeps {s0 : State} (s : State) (p : Nat) (hS : Keeps s0 s) : Keeps s0 (State.orderSweep s p) := by
  unfold State.orderSweep
  with_reducible repeat' (first
    | assumption | intro _ | exact Keeps.refl _ | apply State.delColl_keeps | apply State.orderMismatch_keeps | apply Keeps.each | apply OutKeeps.next
    | (extract_lets +onlyGivenNames x; clear_value (hx : x = _); refine Keeps.via (s := s0) hx ?_ fun hk => ?_)
    | (extract_lets +onlyGivenNames x; clear_value (hx : x = _); refine Keeps.viaP (s := s0) hx ?_ fun hk => ?_)
    | (extract_lets +onlyGivenNames x; clear_value (hx : x = _); refine OptKeeps.via (s := s0) hx ?_ fun hk => ?_)
    | (extract_lets +onlyGivenNames x; clear_value (hx : x = _); clear hx) | apply Keeps.ite | apply OutKeeps.ite | split
    | dsimp -zeta only | (refine Keeps.same ?_ rfl rfl rfl rfl rfl rfl rfl rfl))

theorem State.colAccept_keeps {s0 : State} (s : State) (die : Nat) (cmd : EngCmd) (hS : Keeps s0 s) : Keeps s0 (State.colAccept s die cmd) := by
  unfold State.colAccept
  with_reducible repeat' (first
    | assumption | apply State.orderSweep_keeps | apply State.wr_keeps | apply State.colCheck_keeps | apply State.orderMismatch_keeps
    | (extract_lets +onlyGivenNames x; clear_value (hx : x = _); ((have hy : @Eq ColSt x _ := hx); clear hx; subst hy))
    | (extract_lets +onlyGivenNames x; clear_value (hx : x = _); clear hx) | apply Keeps.ite
    | (refine Keeps.same ?_ rfl rfl rfl rfl rfl rfl rfl rfl))

theorem execOrderGateStart_keeps {s0 : State} (p : Nat) (s : State) (hS : Keeps s0 s) : OutKeeps s0 (execOrderGateStart p s) := by
  unfold execOrderGateStart
  with_reducible repeat' (first
    | assumption | apply State.orderSweep_keeps | apply State.wr_keeps | apply State.delColl_keeps | apply State.colCheck_keeps | apply OutKeeps.next
    | (extract_lets +onlyGivenNames x; clear_value (hx : x = _); clear hx) | split)

theorem execOrderMismatch_keeps {s0 : State} (p : Nat) (s : State) (hS : Keeps s0 s) : OutKeeps s0 (execOrderMismatch p s) := by
  unfold execOrderMismatch
  with_reducible repeat' (first
    | assumption | apply State.orderSweep_keeps | apply State.wr_keeps | apply State.advance_keeps | apply State.delColl_keeps | apply State.orderMismatch_keeps
    | apply OutKeeps.next | split)

theorem colIn_keeps {s0 : State} (kind : Nat) (p : Packet) (s : State) (body : State → Nat → Coll → Nat → State) (hbody : ∀ a0 a1 a2 a3, Keeps s0 a0 → Keeps s0 (body a0 a1 a2 a3)) (hS : Keeps s0 s) : Keeps s0 (colIn kind p s body) := by
  unfold colIn
  with_reducible repeat' (first
    | assumption | apply hbody | apply State.inc_keeps | apply State.ack_keeps | apply State.refuse_keeps
    | (extract_lets +onlyGivenNames x; clear_value (hx : x = _); clear hx) | apply Keeps.ite | split)

theorem State.colChecked_keeps {s0 : State} (s : State) (p : Packet) (c : Coll) (r : Nat) (ok : State → State) (hok : ∀ a0, Keeps s0 a0 → Keeps s0 (ok a0)) (hS : Keeps s0 s) : Keeps s0 (State.colChecked s p c r ok) := by
  unfold State.colChecked
  with_reducible repeat' (first
    | assumption | apply hok | apply State.inc_keeps | apply State.setColl_keeps | apply State.colFault_keeps | apply State.sendCol_keeps
    | apply State.colFail_keeps | (extract_lets +onlyGivenNames x; clear_value (hx : x = _); clear hx) | apply Keeps.ite)

theorem execReady_keeps {s0 : State} (p : Packet) (s : State) (hS : Keeps s0 s) : OutKeeps s0 (execReady p s) := by
  unfold execReady
  with_reducible repeat' (first
    | assumption | intro _ | apply State.ack_keeps | apply State.colTakeReady_keeps | apply colIn_keeps | apply OutKeeps.next
    | (extract_lets +onlyGivenNames x; clear_value (hx : x = _); ((have hy : @Eq ColSt x _ := hx); clear hx; subst hy))
    | (extract_lets +onlyGivenNames x; clear_value (hx : x = _); clear hx) | apply Keeps.ite | apply OutKeeps.ite
    | (refine Keeps.same ?_ rfl rfl rfl rfl rfl rfl rfl rfl))

theorem State.dataChunk_keeps {s0 : State} (s : State) (q : Nat) (c : Coll) (p : Packet) (r k h upset : Nat) (hS : Keeps s0 s) : Keeps s0 (State.dataChunk s q c p r k h upset) := by
  unfold State.dataChunk
  with_reducible repeat' (first
    | assumption | intro _ | exact Keeps.refl _ | apply State.inc_keeps | apply State.countedFault_keeps | apply State.ack_keeps
    | apply State.upset_keeps | apply State.setColl_keeps | apply State.colFault_keeps | apply State.colFail_keeps
    | apply State.colEnter_keeps | apply State.colKick_keeps
    | (extract_lets +onlyGivenNames x; clear_value (hx : x = _); refine Keeps.via (s := s0) hx ?_ fun hk => ?_)
    | (extract_lets +onlyGivenNames x; clear_value (hx : x = _); refine Keeps.viaP (s := s0) hx ?_ fun hk => ?_)
    | (extract_lets +onlyGivenNames x; clear_value (hx : x = _); refine OptKeeps.via (s := s0) hx ?_ fun hk => ?_)
    | (extract_lets +onlyGivenNames x; clear_value (hx : x = _); clear hx) | apply Keeps.ite | split | dsimp -zeta only
    | (refine Keeps.same ?_ rfl rfl rfl rfl rfl rfl rfl rfl))

theorem execData_keeps {s0 : State} (p : Packet) (upset : Nat) (s : State) (hS : Keeps s0 s) : OutKeeps s0 (execData p upset s) := by
  unfold execData
  with_reducible repeat' (first
    | assumption | intro _ | apply State.ack_keeps | apply State.refuse_keeps | apply colIn_keeps | apply State.colChecked_keeps
    | apply State.dataChunk_keeps | apply OutKeeps.next | (extract_lets +onlyGivenNames x; clear_value (hx : x = _); clear hx)
    | apply Keeps.ite | split)

theorem State.colInto_keeps {s0 : State} (s : State) (q : Nat) (c : Coll) (p : Packet) (ok : Nat → Bool) (hS : Keeps s0 s) : Keeps s0 (State.colInto s q c p ok) := by
  unfold State.colInto
  with_reducible repeat' (first
    | assumption | intro _ | exact Keeps.refl _ | apply State.ack_keeps | apply State.refuse_keeps | apply State.setColl_keeps
    | apply State.colLand_keeps | apply State.colKick_keeps | apply OptKeeps.some | exact OptKeeps.none
    | (extract_lets +onlyGivenNames x; clear_value (hx : x = _); refine Keeps.via (s := s0) hx ?_ fun hk => ?_)
    | (extract_lets +onlyGivenNames x; clear_value (hx : x = _); refine Keeps.viaP (s := s0) hx ?_ fun hk => ?_)
    | (extract_lets +onlyGivenNames x; clear_value (hx : x = _); refine OptKeeps.via (s := s0) hx ?_ fun hk => ?_)
    | (extract_lets +onlyGivenNames x; clear_value (hx : x = _); clear hx) | apply Keeps.ite | apply OptKeeps.ite | split
    | dsimp -zeta only | exact OptKeeps.get rfl (by assumption) | refine OptKeeps.get (by assumption) ?_
    | refine Keeps.ofMk (by assumption) ?_ | (refine Keeps.same ?_ rfl rfl rfl rfl rfl rfl rfl rfl))

theorem execPut_keeps {s0 : State} (p : Packet) (s : State) (hS : Keeps s0 s) : OutKeeps s0 (execPut p s) := by
  unfold execPut
  with_reducible repeat' (first
    | assumption | intro _ | apply State.refuse_keeps | apply colIn_keeps | apply State.colChecked_keeps | apply State.colInto_keeps
    | apply OutKeeps.next | apply Keeps.ite)

theorem execExp1_keeps {s0 : State} (p : Packet) (s : State) (hS : Keeps s0 s) : OutKeeps s0 (execExp1 p s) := by
  unfold execExp1
  with_reducible repeat' (first
    | assumption | intro _ | apply State.ack_keeps | apply State.setColl_keeps | apply State.colKick_keeps | apply colIn_keeps
    | apply State.colChecked_keeps | apply OutKeeps.next)

theorem execExpr_keeps {s0 : State} (p : Packet) (s : State) (hS : Keeps s0 s) : OutKeeps s0 (execExpr p s) := by
  unfold execExpr
  with_reducible repeat' (first
    | assumption | intro _ | apply State.ack_keeps | apply State.setColl_keeps | apply State.colKick_keeps | apply colIn_keeps
    | apply State.colChecked_keeps | apply OutKeeps.next)

theorem execFinal_keeps {s0 : State} (p : Packet) (s : State) (hS : Keeps s0 s) : OutKeeps s0 (execFinal p s) := by
  unfold execFinal
  with_reducible repeat' (first
    | assumption | intro _ | apply State.refuse_keeps | apply colIn_keeps | apply State.colChecked_keeps | apply State.colInto_keeps
    | apply OutKeeps.next | apply Keeps.ite)

theorem execResend_keeps {s0 : State} (p : Packet) (s : State) (hS : Keeps s0 s) : OutKeeps s0 (execResend p s) := by
  unfold execResend
  with_reducible repeat' (first
    | assumption | intro _ | apply State.inc_keeps | apply State.send_keeps | apply State.ack_keeps | apply State.setColl_keeps
    | apply colIn_keeps | apply OutKeeps.next
    | (extract_lets +onlyGivenNames x; clear_value (hx : x = _); refine Keeps.via (s := s0) hx ?_ fun hk => ?_)
    | (extract_lets +onlyGivenNames x; clear_value (hx : x = _); clear hx) | split)

theorem execAbort_keeps {s0 : State} (p : Packet) (s : State) (hS : Keeps s0 s) : OutKeeps s0 (execAbort p s) := by
  unfold execAbort
  with_reducible repeat' (first
    | assumption | intro _ | apply State.ack_keeps | apply State.colFail_keeps | apply colIn_keeps | apply OutKeeps.next)

theorem execPeerTimeout_keeps {s0 : State} (q key r : Nat) (s : State) (hS : Keeps s0 s) : OutKeeps s0 (execPeerTimeout q key r s) := by
  unfold execPeerTimeout
  with_reducible repeat' (first
    | assumption | apply State.advance_keeps | apply State.colFault_keeps | apply State.colFail_keeps | apply OutKeeps.next
    | (extract_lets +onlyGivenNames x; clear_value (hx : x = _); refine Keeps.via (s := s0) hx ?_ fun hk => ?_) | apply OutKeeps.ite
    | split)

theorem execLeaseRenewal_keeps {s0 : State} (q key : Nat) (s : State) (hS : Keeps s0 s) : OutKeeps s0 (execLeaseRenewal q key s) := by
  unfold execLeaseRenewal
  with_reducible repeat' (first
    | assumption | apply State.advance_keeps | apply State.send_keeps | apply State.setColl_keeps | apply OutKeeps.next
    | (extract_lets +onlyGivenNames x; clear_value (hx : x = _); refine Keeps.via (s := s0) hx ?_ fun hk => ?_)
    | (extract_lets +onlyGivenNames x; clear_value (hx : x = _); clear hx) | apply OutKeeps.ite | split)

theorem State.colReserved_keeps {s0 : State} (s : State) (q key : Nat) (mask : Nat) (hS : Keeps s0 s) : Keeps s0 (State.colReserved s q key mask) := by
  unfold State.colReserved
  with_reducible repeat' (first
    | assumption | apply State.inc_keeps | apply State.setColl_keeps | apply State.colReady_keeps
    | (extract_lets +onlyGivenNames x; clear_value (hx : x = _); clear hx) | apply Keeps.ite | split)

theorem State.colAcked_keeps {s0 : State} (s : State) (q : Nat) (a : Packet) (hS : Keeps s0 s) : Keeps s0 (State.colAcked s q a) := by
  unfold State.colAcked
  with_reducible repeat' (first
    | assumption | apply State.inc_keeps | apply State.setColl_keeps | apply State.colFail_keeps | apply State.colKick_keeps
    | (extract_lets +onlyGivenNames x; clear_value (hx : x = _); refine Keeps.via (s := s0) hx ?_ fun hk => ?_)
    | (extract_lets +onlyGivenNames x; clear_value (hx : x = _); ((have hy : @Eq FabSt x _ := hx); clear hx; subst hy))
    | (extract_lets +onlyGivenNames x; clear_value (hx : x = _); clear hx) | apply Keeps.ite | split
    | (refine Keeps.same ?_ rfl rfl rfl rfl rfl rfl rfl rfl))

theorem engineRun_keeps {s0 : State} (here room : State → Nat → Bool) (node : Nat → Nat) (mark : State → Bank → Nat → Bool) (give : State → Nat → EngCmd → State) (x : Issue) (w : Word) (t : State) (k : Nat) (b : Bank) (hgive : ∀ a0 a1 a2, Keeps s0 a0 → Keeps s0 (give a0 a1 a2)) (hS : Keeps s0 t) : CKeeps s0 (engineRun here room node mark give x w t k b) := by
  unfold engineRun
  with_reducible repeat' (first
    | assumption | intro _ | exact Keeps.refl _ | apply hgive | apply State.fault_keeps | apply State.meshRecord_keeps
    | apply OptKeeps.some | exact OptKeeps.none | apply CKeeps.ok | exact CKeeps.fault | exact CKeeps.wait | apply RKeeps.ok
    | exact RKeeps.fault | exact RKeeps.wait
    | (extract_lets +onlyGivenNames x; clear_value (hx : x = _); refine Keeps.via (s := s0) hx ?_ fun hk => ?_)
    | (extract_lets +onlyGivenNames x; clear_value (hx : x = _); refine Keeps.viaP (s := s0) hx ?_ fun hk => ?_)
    | (extract_lets +onlyGivenNames x; clear_value (hx : x = _); ((have hy : @Eq SemSt x _ := hx); clear hx; subst hy))
    | (extract_lets +onlyGivenNames x; clear_value (hx : x = _); refine CKeeps.via (s := s0) hx ?_ fun hk => ?_)
    | (extract_lets +onlyGivenNames x; clear_value (hx : x = _); refine RKeeps.via (s := s0) hx ?_ fun hk => ?_)
    | (extract_lets +onlyGivenNames x; clear_value (hx : x = _); refine OptKeeps.via (s := s0) hx ?_ fun hk => ?_)
    | (extract_lets +onlyGivenNames x; clear_value (hx : x = _); clear hx) | apply Keeps.ite | apply OptKeeps.ite | apply CKeeps.ite
    | apply RKeeps.ite | split | dsimp -zeta only | exact OptKeeps.get rfl (by assumption) | refine OptKeeps.get (by assumption) ?_
    | refine CKeeps.getOk (by assumption) ?_ | refine CKeeps.getTrap (by assumption) ?_ | refine CKeeps.getCut (by assumption) ?_
    | refine RKeeps.getOk (by assumption) ?_ | refine RKeeps.getJump (by assumption) ?_ | refine Keeps.ofMk (by assumption) ?_
    | (refine Keeps.same ?_ rfl rfl rfl rfl rfl rfl rfl rfl))

theorem engineIssue_keeps {s0 : State} (op limit : Nat) (body : Issue → Word → State → Nat → Bank → CRes) (x : Issue) (w : Word) (s : State) (hbody : ∀ a0 a1 a2 a3 a4, Keeps s0 a2 → CKeeps s0 (body a0 a1 a2 a3 a4)) (hS : Keeps s0 s) : OutKeeps s0 (engineIssue op limit body x w s) := by
  unfold engineIssue
  with_reducible repeat' (first
    | assumption | intro _ | exact Keeps.refl _ | apply hbody | apply coreIssue_keeps | apply hF | apply hG | apply hH | dsimp -zeta only)

theorem bodyColl_keeps {s0 : State} (x : Issue) (w : Word) (t : State) (k : Nat) (b : Bank) (hS : Keeps s0 t) : CKeeps s0 (bodyColl x w t k b) := by
  unfold bodyColl
  with_reducible repeat' (first
    | assumption | intro _ | exact Keeps.refl _ | apply State.colAccept_keeps | apply engineRun_keeps | dsimp -zeta only)

theorem bodyIkc_keeps {s0 : State} (x : Issue) (w : Word) (t : State) (k : Nat) (b : Bank) (hS : Keeps s0 t) : CKeeps s0 (bodyIkc x w t k b) := by
  unfold bodyIkc
  with_reducible repeat' (first
    | assumption | intro _ | exact Keeps.refl _ | apply engineRun_keeps
    | (extract_lets +onlyGivenNames x; clear_value (hx : x = _); refine Keeps.via (s := s0) hx ?_ fun hk => ?_)
    | (extract_lets +onlyGivenNames x; clear_value (hx : x = _); refine Keeps.viaP (s := s0) hx ?_ fun hk => ?_)
    | (extract_lets +onlyGivenNames x; clear_value (hx : x = _); ((have hy : @Eq SrvSt x _ := hx); clear hx; subst hy))
    | (extract_lets +onlyGivenNames x; clear_value (hx : x = _); refine OptKeeps.via (s := s0) hx ?_ fun hk => ?_)
    | (extract_lets +onlyGivenNames x; clear_value (hx : x = _); clear hx) | dsimp -zeta only
    | (refine Keeps.same ?_ rfl rfl rfl rfl rfl rfl rfl rfl))

theorem bodyQlc_keeps {s0 : State} (x : Issue) (w : Word) (t : State) (k : Nat) (b : Bank) (hS : Keeps s0 t) : CKeeps s0 (bodyQlc x w t k b) := by
  unfold bodyQlc
  with_reducible repeat' (first
    | assumption | intro _ | exact Keeps.refl _ | apply State.setQuillQueue_keeps | apply engineRun_keeps | dsimp -zeta only)

theorem execColl_keeps {s0 : State} (x : Issue) (w : Word) (s : State) (hS : Keeps s0 s) : OutKeeps s0 (execColl x w s) := by
  unfold execColl
  with_reducible repeat' (first
    | assumption | intro _ | exact Keeps.refl _ | apply engineIssue_keeps | apply bodyColl_keeps | dsimp -zeta only)

theorem execIkc_keeps {s0 : State} (x : Issue) (w : Word) (s : State) (hS : Keeps s0 s) : OutKeeps s0 (execIkc x w s) := by
  unfold execIkc
  with_reducible repeat' (first
    | assumption | intro _ | exact Keeps.refl _ | apply engineIssue_keeps | apply bodyIkc_keeps | dsimp -zeta only)

theorem execQlc_keeps {s0 : State} (x : Issue) (w : Word) (s : State) (hS : Keeps s0 s) : OutKeeps s0 (execQlc x w s) := by
  unfold execQlc
  with_reducible repeat' (first
    | assumption | intro _ | exact Keeps.refl _ | apply engineIssue_keeps | apply bodyQlc_keeps | dsimp -zeta only)

end Sys2Proof.Machine
end

