-- ==== Sys2Proof/Laws/KeepsQueue.lean ====
section
/-! SUPPORT. Every operation of Machine/Queue.lean keeps what Keeps (Safety.lean) says. -/

namespace Sys2Proof.Machine

theorem opBody_keeps {s0 : State} (x : Issue) (w : Word) (start : Nat) (sums : List Nat) (t : State) (k : Nat) (b : Bank) (hS : Keeps s0 t) : CKeeps s0 (opBody x w start sums t k b) := by
  unfold opBody
  with_reducible repeat' (first
    | assumption | intro _ | exact Keeps.refl _ | apply bodyNlw_keeps | apply bodyNmm_keeps | apply bodyNdrn_keeps | apply bodyNclr_keeps
    | apply bodyHlv_keeps | apply bodyHmv_keeps | apply bodyVld_keeps | apply bodyVst_keeps | apply bodyLds_keeps | apply bodySts_keeps
    | apply bodyDma_keeps | apply bodyDmaw_keeps | apply bodyFence_keeps | apply bodyRld_keeps | apply bodyRst_keeps
    | apply bodyRmst_keeps | apply bodyRred_keeps | apply bodyRatom_keeps | apply bodyRsemp_keeps | apply bodyColl_keeps
    | apply bodyIkc_keeps | apply bodyQlc_keeps | exact CKeeps.wait | exact RKeeps.wait
    | (extract_lets +onlyGivenNames x; clear_value (hx : x = _); refine Keeps.via (s := s0) hx ?_ fun hk => ?_)
    | (extract_lets +onlyGivenNames x; clear_value (hx : x = _); refine Keeps.viaP (s := s0) hx ?_ fun hk => ?_)
    | (extract_lets +onlyGivenNames x; clear_value (hx : x = _); refine OptKeeps.via (s := s0) hx ?_ fun hk => ?_)
    | (extract_lets +onlyGivenNames x; clear_value (hx : x = _); clear hx) | split | dsimp -zeta only
    | refine Keeps.ofMk (by assumption) ?_ | (refine Keeps.same ?_ rfl rfl rfl rfl rfl rfl rfl rfl))

theorem State.tryOp_keeps {s0 : State} (s : State) (k i : Nat) (hS : Keeps s0 s) : OptKeeps s0 (State.tryOp s k i) := by
  unfold State.tryOp
  with_reducible repeat' (first
    | assumption | intro _ | exact Keeps.refl _ | apply State.setReg_keeps | apply State.wr_keeps | apply State.fault_keeps
    | apply State.modBank_keeps | apply State.coreFaultAt_keeps | apply opBody_keeps | apply Keeps.each | apply Keeps.eachP
    | apply OptKeeps.some | exact OptKeeps.none | apply CKeeps.ok | apply CKeeps.trap | apply CKeeps.cut | exact CKeeps.fault
    | exact CKeeps.wait | apply RKeeps.ok | exact RKeeps.fault | exact RKeeps.wait
    | (extract_lets +onlyGivenNames x; clear_value (hx : x = _); refine Keeps.via (s := s0) hx ?_ fun hk => ?_)
    | (extract_lets +onlyGivenNames x; clear_value (hx : x = _); refine Keeps.viaP (s := s0) hx ?_ fun hk => ?_)
    | (extract_lets +onlyGivenNames x; clear_value (hx : x = _); refine CKeeps.via (s := s0) hx ?_ fun hk => ?_)
    | (extract_lets +onlyGivenNames x; clear_value (hx : x = _); refine RKeeps.via (s := s0) hx ?_ fun hk => ?_)
    | (extract_lets +onlyGivenNames x; clear_value (hx : x = _); refine OptKeeps.via (s := s0) hx ?_ fun hk => ?_)
    | (extract_lets +onlyGivenNames x; clear_value (hx : x = _); clear hx) | apply Keeps.ite | apply OptKeeps.ite | apply CKeeps.ite
    | apply RKeeps.ite | split | dsimp -zeta only | exact OptKeeps.get rfl (by assumption) | refine OptKeeps.get (by assumption) ?_
    | refine CKeeps.getOk (by assumption) ?_ | refine CKeeps.getTrap (by assumption) ?_ | refine CKeeps.getCut (by assumption) ?_
    | refine RKeeps.getOk (by assumption) ?_ | refine RKeeps.getJump (by assumption) ?_ | refine Keeps.ofMk (by assumption) ?_
    | (refine Keeps.same ?_ rfl rfl rfl rfl rfl rfl rfl rfl))

theorem State.runQueue_keeps {s0 : State} (s : State) (k : Nat) (y0 : Nat) (hS : Keeps s0 s) : Keeps s0 (State.runQueue s k y0) := by
  induction y0 generalizing s with
  | zero =>
    unfold State.runQueue
    with_reducible repeat' (first
      | assumption | intro _ | exact Keeps.refl _ | apply State.settle_keeps | apply State.tryOp_keeps | apply OptKeeps.some
      | apply OptKeeps.findSome | exact OptKeeps.none
      | (extract_lets +onlyGivenNames x; clear_value (hx : x = _); refine Keeps.via (s := s0) hx ?_ fun hk => ?_)
      | (extract_lets +onlyGivenNames x; clear_value (hx : x = _); refine Keeps.viaP (s := s0) hx ?_ fun hk => ?_)
      | (extract_lets +onlyGivenNames x; clear_value (hx : x = _); refine OptKeeps.via (s := s0) hx ?_ fun hk => ?_)
      | (extract_lets +onlyGivenNames x; clear_value (hx : x = _); clear hx) | split | dsimp -zeta only
      | exact OptKeeps.get rfl (by assumption) | refine OptKeeps.get (by assumption) ?_ | refine Keeps.ofMk (by assumption) ?_
      | (refine Keeps.same ?_ rfl rfl rfl rfl rfl rfl rfl rfl))
  | succ z ih =>
    unfold State.runQueue
    with_reducible repeat' (first
      | assumption | intro _ | exact Keeps.refl _ | apply ih | apply State.settle_keeps | apply State.tryOp_keeps | apply OptKeeps.some
      | apply OptKeeps.findSome | exact OptKeeps.none
      | (extract_lets +onlyGivenNames x; clear_value (hx : x = _); refine Keeps.via (s := s0) hx ?_ fun hk => ?_)
      | (extract_lets +onlyGivenNames x; clear_value (hx : x = _); refine Keeps.viaP (s := s0) hx ?_ fun hk => ?_)
      | (extract_lets +onlyGivenNames x; clear_value (hx : x = _); refine OptKeeps.via (s := s0) hx ?_ fun hk => ?_)
      | (extract_lets +onlyGivenNames x; clear_value (hx : x = _); clear hx) | split | dsimp -zeta only
      | exact OptKeeps.get rfl (by assumption) | refine OptKeeps.get (by assumption) ?_ | refine Keeps.ofMk (by assumption) ?_
      | (refine Keeps.same ?_ rfl rfl rfl rfl rfl rfl rfl rfl))

theorem State.pump_keeps {s0 : State} (s : State) (hS : Keeps s0 s) : Keeps s0 (State.pump s) := by
  unfold State.pump
  with_reducible repeat' (first
    | assumption | intro _ | exact Keeps.refl _ | apply State.runQueue_keeps | apply Keeps.each | apply Keeps.eachP | dsimp -zeta only)

theorem execDmaComplete_keeps {s0 : State} (tile core bank : Nat) (s : State) (hS : Keeps s0 s) : OutKeeps s0 (execDmaComplete tile core bank s) := by
  unfold execDmaComplete
  with_reducible repeat' (first
    | assumption | intro _ | exact Keeps.refl _ | apply State.dmaFinish_keeps | apply State.runQueue_keeps | apply OutKeeps.next
    | (extract_lets +onlyGivenNames x; clear_value (hx : x = _); refine Keeps.via (s := s0) hx ?_ fun hk => ?_)
    | (extract_lets +onlyGivenNames x; clear_value (hx : x = _); refine Keeps.viaP (s := s0) hx ?_ fun hk => ?_)
    | (extract_lets +onlyGivenNames x; clear_value (hx : x = _); refine OptKeeps.via (s := s0) hx ?_ fun hk => ?_)
    | (extract_lets +onlyGivenNames x; clear_value (hx : x = _); clear hx) | dsimp -zeta only)

theorem State.fenceHeld_keeps {s0 : State} (s : State) (j : Nat) (hS : Keeps s0 s) : Keeps s0 (State.fenceHeld s j) := by
  unfold State.fenceHeld
  with_reducible repeat' (first
    | assumption | intro _ | exact Keeps.refl _ | apply State.setQuillQueue_keeps | apply State.tryOp_keeps | apply Keeps.each
    | apply Keeps.eachP | apply OptKeeps.some | apply OptKeeps.map | exact OptKeeps.none
    | (extract_lets +onlyGivenNames x; clear_value (hx : x = _); refine Keeps.via (s := s0) hx ?_ fun hk => ?_)
    | (extract_lets +onlyGivenNames x; clear_value (hx : x = _); refine Keeps.viaP (s := s0) hx ?_ fun hk => ?_)
    | (extract_lets +onlyGivenNames x; clear_value (hx : x = _); refine OptKeeps.via (s := s0) hx ?_ fun hk => ?_)
    | (extract_lets +onlyGivenNames x; clear_value (hx : x = _); clear hx) | apply Keeps.ite | apply OptKeeps.ite | split
    | dsimp -zeta only | exact OptKeeps.get rfl (by assumption) | refine OptKeeps.get (by assumption) ?_
    | refine Keeps.ofMk (by assumption) ?_ | (refine Keeps.same ?_ rfl rfl rfl rfl rfl rfl rfl rfl))

end Sys2Proof.Machine
end

