-- ==== Sys2Proof/Laws/KeepsQuillOps.lean ====
section
/-! SUPPORT. Every operation of Machine/QuillOps.lean keeps what Keeps (Safety.lean) says. -/

namespace Sys2Proof.Machine

theorem Keeps.viaSample {s : State} {x v : SampleRes} {P : Prop} (h : x = v) (k : Keeps s v.s) (g : Keeps s x.s → P) : P := g (h ▸ k)

theorem State.quillDone_keeps {s0 : State} (s : State) (j i : Nat) (c : EngCmd) (status rec_ : Nat) (hS : Keeps s0 s) : Keeps s0 (State.quillDone s j i c status rec_) := by
  unfold State.quillDone
  with_reducible repeat' (first
    | assumption | apply State.inc_keeps | apply State.setQuillQueue_keeps | apply State.engResult_keeps | apply Keeps.ite)

theorem State.quillTurnOf_keeps {s0 : State} (s : State) (j i : Nat) (c : EngCmd) (run : State → Nat → State) (hrun : ∀ a0 a1, Keeps s0 a0 → Keeps s0 (run a0 a1)) (hS : Keeps s0 s) : Keeps s0 (State.quillTurnOf s j i c run) := by
  unfold State.quillTurnOf
  with_reducible repeat' (first
    | assumption | intro _ | exact Keeps.refl _ | apply hrun | apply CRes.done_keeps | apply State.quillFault_keeps
    | apply State.quillBadLine_keeps | apply State.serveTokens_keeps | apply State.quillDone_keeps | apply OptKeeps.some
    | exact OptKeeps.none
    | (extract_lets +onlyGivenNames x; clear_value (hx : x = _); refine Keeps.viaSample (s := s0) hx ?_ fun hk => ?_)
    | (extract_lets +onlyGivenNames x; clear_value (hx : x = _); refine Keeps.via (s := s0) hx ?_ fun hk => ?_)
    | (extract_lets +onlyGivenNames x; clear_value (hx : x = _); refine Keeps.viaP (s := s0) hx ?_ fun hk => ?_)
    | (extract_lets +onlyGivenNames x; clear_value (hx : x = _); refine OptKeeps.via (s := s0) hx ?_ fun hk => ?_)
    | (extract_lets +onlyGivenNames x; clear_value (hx : x = _); clear hx) | apply Keeps.ite | apply OptKeeps.ite | split
    | dsimp -zeta only | exact OptKeeps.get rfl (by assumption) | refine OptKeeps.get (by assumption) ?_
    | refine Keeps.ofMk (by assumption) ?_ | (refine Keeps.same ?_ rfl rfl rfl rfl rfl rfl rfl rfl))

theorem State.sampleStart_keeps {s0 : State} (s : State) (j i : Nat) (c : EngCmd) (pr : Nat) (hS : Keeps s0 s) : Keeps s0 (State.sampleStart s j i c pr) := by
  unfold State.sampleStart
  with_reducible repeat' (first
    | assumption | intro _ | exact Keeps.refl _ | apply State.rowAssign_keeps | apply State.sampleBegin_keeps | exact OptKeeps.none
    | apply Keeps.ite | apply OptKeeps.ite | split | dsimp -zeta only)

theorem State.sampleOver_keeps {s0 : State} (s : State) (j i : Nat) (hS : Keeps s0 s) : Keeps s0 (State.sampleOver s j i) := by
  unfold State.sampleOver
  with_reducible repeat' (first
    | assumption | intro _ | exact Keeps.refl _ | apply State.rec__keeps | apply State.sampleRun_keeps | apply State.serveTokens_keeps
    | apply State.pump_keeps | apply State.quillDone_keeps | apply OptKeeps.some | exact OptKeeps.none
    | (extract_lets +onlyGivenNames x; clear_value (hx : x = _); refine Keeps.viaSample (s := s0) hx ?_ fun hk => ?_)
    | (extract_lets +onlyGivenNames x; clear_value (hx : x = _); refine Keeps.via (s := s0) hx ?_ fun hk => ?_)
    | (extract_lets +onlyGivenNames x; clear_value (hx : x = _); refine Keeps.viaP (s := s0) hx ?_ fun hk => ?_)
    | (extract_lets +onlyGivenNames x; clear_value (hx : x = _); refine OptKeeps.via (s := s0) hx ?_ fun hk => ?_)
    | (extract_lets +onlyGivenNames x; clear_value (hx : x = _); clear hx) | apply Keeps.ite | apply OptKeeps.ite | split
    | dsimp -zeta only | exact OptKeeps.get rfl (by assumption) | refine OptKeeps.get (by assumption) ?_
    | refine Keeps.ofMk (by assumption) ?_ | (refine Keeps.same ?_ rfl rfl rfl rfl rfl rfl rfl rfl))

theorem execSample_keeps {s0 : State} (j i : Nat) (upset : Bool) (s : State) (hS : Keeps s0 s) : OutKeeps s0 (execSample j i upset s) := by
  unfold execSample
  with_reducible repeat' (first
    | assumption | intro _ | exact Keeps.refl _ | apply State.fault_keeps | apply State.countedFault_keeps | apply State.upset_keeps
    | apply State.rowAssign_keeps | apply State.rowEnd_keeps | apply State.pump_keeps | apply State.quillTurnOf_keeps
    | apply State.sampleStart_keeps | apply State.sampleOver_keeps | apply OptKeeps.some | exact OptKeeps.none | exact CKeeps.fault
    | exact RKeeps.fault | apply OutKeeps.next
    | (extract_lets +onlyGivenNames x; clear_value (hx : x = _); refine Keeps.viaSample (s := s0) hx ?_ fun hk => ?_)
    | (extract_lets +onlyGivenNames x; clear_value (hx : x = _); refine Keeps.via (s := s0) hx ?_ fun hk => ?_)
    | (extract_lets +onlyGivenNames x; clear_value (hx : x = _); refine Keeps.viaP (s := s0) hx ?_ fun hk => ?_)
    | (extract_lets +onlyGivenNames x; clear_value (hx : x = _); refine OptKeeps.via (s := s0) hx ?_ fun hk => ?_)
    | (extract_lets +onlyGivenNames x; clear_value (hx : x = _); clear hx) | apply Keeps.ite | apply OptKeeps.ite | apply OutKeeps.ite
    | apply CKeeps.ite | apply RKeeps.ite | split | dsimp -zeta only | exact OptKeeps.get rfl (by assumption)
    | refine OptKeeps.get (by assumption) ?_ | refine Keeps.ofMk (by assumption) ?_
    | (refine Keeps.same ?_ rfl rfl rfl rfl rfl rfl rfl rfl))

theorem State.sampleThrough_keeps {s0 : State} (s : State) (j i : Nat) (y0 : Nat) (hS : Keeps s0 s) : Keeps s0 (State.sampleThrough s j i y0) := by
  induction y0 generalizing s with
  | zero =>
    unfold State.sampleThrough
    with_reducible repeat' (first
      | assumption | intro _ | exact Keeps.refl _ | apply State.rowBegin_keeps | apply State.rowEnd_keeps | apply State.sampleOver_keeps
      | apply OptKeeps.some | exact OptKeeps.none
      | (extract_lets +onlyGivenNames x; clear_value (hx : x = _); refine Keeps.viaSample (s := s0) hx ?_ fun hk => ?_)
      | (extract_lets +onlyGivenNames x; clear_value (hx : x = _); refine Keeps.via (s := s0) hx ?_ fun hk => ?_)
      | (extract_lets +onlyGivenNames x; clear_value (hx : x = _); refine Keeps.viaP (s := s0) hx ?_ fun hk => ?_)
      | (extract_lets +onlyGivenNames x; clear_value (hx : x = _); refine OptKeeps.via (s := s0) hx ?_ fun hk => ?_)
      | (extract_lets +onlyGivenNames x; clear_value (hx : x = _); clear hx) | apply Keeps.ite | apply OptKeeps.ite | split
      | dsimp -zeta only | exact OptKeeps.get rfl (by assumption) | refine OptKeeps.get (by assumption) ?_
      | refine Keeps.ofMk (by assumption) ?_ | (refine Keeps.same ?_ rfl rfl rfl rfl rfl rfl rfl rfl))
  | succ z ih =>
    unfold State.sampleThrough
    with_reducible repeat' (first
      | assumption | intro _ | exact Keeps.refl _ | apply ih | apply State.rowBegin_keeps | apply State.rowEnd_keeps
      | apply State.sampleOver_keeps | apply OptKeeps.some | exact OptKeeps.none
      | (extract_lets +onlyGivenNames x; clear_value (hx : x = _); refine Keeps.viaSample (s := s0) hx ?_ fun hk => ?_)
      | (extract_lets +onlyGivenNames x; clear_value (hx : x = _); refine Keeps.via (s := s0) hx ?_ fun hk => ?_)
      | (extract_lets +onlyGivenNames x; clear_value (hx : x = _); refine Keeps.viaP (s := s0) hx ?_ fun hk => ?_)
      | (extract_lets +onlyGivenNames x; clear_value (hx : x = _); refine OptKeeps.via (s := s0) hx ?_ fun hk => ?_)
      | (extract_lets +onlyGivenNames x; clear_value (hx : x = _); clear hx) | apply Keeps.ite | apply OptKeeps.ite | split
      | dsimp -zeta only | exact OptKeeps.get rfl (by assumption) | refine OptKeeps.get (by assumption) ?_
      | refine Keeps.ofMk (by assumption) ?_ | (refine Keeps.same ?_ rfl rfl rfl rfl rfl rfl rfl rfl))

theorem State.sampleForce_keeps {s0 : State} (s : State) (j : Nat) (c : EngCmd) (hS : Keeps s0 s) : Keeps s0 (State.sampleForce s j c) := by
  unfold State.sampleForce
  with_reducible repeat' (first
    | assumption | intro _ | exact Keeps.refl _ | apply State.sampleBegin_keeps | apply State.quillTurnOf_keeps
    | apply State.sampleThrough_keeps | exact OptKeeps.none
    | (extract_lets +onlyGivenNames x; clear_value (hx : x = _); refine Keeps.viaSample (s := s0) hx ?_ fun hk => ?_)
    | (extract_lets +onlyGivenNames x; clear_value (hx : x = _); refine Keeps.via (s := s0) hx ?_ fun hk => ?_)
    | (extract_lets +onlyGivenNames x; clear_value (hx : x = _); refine Keeps.viaP (s := s0) hx ?_ fun hk => ?_)
    | (extract_lets +onlyGivenNames x; clear_value (hx : x = _); refine OptKeeps.via (s := s0) hx ?_ fun hk => ?_)
    | (extract_lets +onlyGivenNames x; clear_value (hx : x = _); clear hx) | apply Keeps.ite | apply OptKeeps.ite | split
    | dsimp -zeta only)

theorem execInit_keeps {s0 : State} (j i : Nat) (s : State) (hS : Keeps s0 s) : OutKeeps s0 (execInit j i s) := by
  unfold execInit
  with_reducible repeat' (first
    | assumption | intro _ | exact Keeps.refl _ | apply State.initCtx_keeps | apply State.pump_keeps | apply State.quillDone_keeps
    | apply State.quillTurnOf_keeps | apply OptKeeps.some | exact OptKeeps.none | apply OutKeeps.next
    | (extract_lets +onlyGivenNames x; clear_value (hx : x = _); refine Keeps.viaSample (s := s0) hx ?_ fun hk => ?_)
    | (extract_lets +onlyGivenNames x; clear_value (hx : x = _); refine Keeps.via (s := s0) hx ?_ fun hk => ?_)
    | (extract_lets +onlyGivenNames x; clear_value (hx : x = _); refine Keeps.viaP (s := s0) hx ?_ fun hk => ?_)
    | (extract_lets +onlyGivenNames x; clear_value (hx : x = _); refine OptKeeps.via (s := s0) hx ?_ fun hk => ?_)
    | (extract_lets +onlyGivenNames x; clear_value (hx : x = _); clear hx) | apply Keeps.ite | apply OptKeeps.ite | apply OutKeeps.ite
    | split | dsimp -zeta only | exact OptKeeps.get rfl (by assumption) | refine OptKeeps.get (by assumption) ?_
    | refine Keeps.ofMk (by assumption) ?_ | (refine Keeps.same ?_ rfl rfl rfl rfl rfl rfl rfl rfl))

end Sys2Proof.Machine
end

