-- ==== Sys2Proof/Laws/KeepsFabric.lean ====
section
/-! SUPPORT. Every operation of Machine/Fabric.lean keeps what Keeps (Safety.lean) says. -/

namespace Sys2Proof.Machine

theorem State.arrive_keeps {s0 : State} (s : State) (port : Option Nat) (node : Nat) (go : State → State) (hgo : ∀ a0, Keeps s0 a0 → Keeps s0 (go a0)) (hS : Keeps s0 s) : Keeps s0 (State.arrive s port node go) := by
  unfold State.arrive
  with_reducible repeat' (first
    | assumption | intro _ | exact Keeps.refl _ | apply hgo | apply State.took_keeps | apply State.meshPass_keeps | apply OptKeeps.some
    | exact OptKeeps.none | (extract_lets +onlyGivenNames x; clear_value (hx : x = _); refine Keeps.via (s := s0) hx ?_ fun hk => ?_)
    | (extract_lets +onlyGivenNames x; clear_value (hx : x = _); refine Keeps.viaP (s := s0) hx ?_ fun hk => ?_)
    | (extract_lets +onlyGivenNames x; clear_value (hx : x = _); refine OptKeeps.via (s := s0) hx ?_ fun hk => ?_)
    | (extract_lets +onlyGivenNames x; clear_value (hx : x = _); clear hx) | apply Keeps.ite | apply OptKeeps.ite | split
    | dsimp -zeta only | exact OptKeeps.get rfl (by assumption) | refine OptKeeps.get (by assumption) ?_
    | refine Keeps.ofMk (by assumption) ?_ | (refine Keeps.same ?_ rfl rfl rfl rfl rfl rfl rfl rfl))

theorem fabIn_keeps {s0 : State} (type : Nat) (p : Packet) (s : State) (body : State → Nat → State) (hbody : ∀ a0 a1, Keeps s0 a0 → Keeps s0 (body a0 a1)) (hS : Keeps s0 s) : Keeps s0 (fabIn type p s body) := by
  unfold fabIn
  with_reducible repeat' (first
    | assumption | intro _ | exact Keeps.refl _ | apply hbody | apply State.inc_keeps | apply State.refuse_keeps
    | apply State.arrive_keeps | apply OptKeeps.some | exact OptKeeps.none
    | (extract_lets +onlyGivenNames x; clear_value (hx : x = _); refine Keeps.via (s := s0) hx ?_ fun hk => ?_)
    | (extract_lets +onlyGivenNames x; clear_value (hx : x = _); refine Keeps.viaP (s := s0) hx ?_ fun hk => ?_)
    | (extract_lets +onlyGivenNames x; clear_value (hx : x = _); refine OptKeeps.via (s := s0) hx ?_ fun hk => ?_)
    | (extract_lets +onlyGivenNames x; clear_value (hx : x = _); clear hx) | apply Keeps.ite | apply OptKeeps.ite | split
    | dsimp -zeta only | exact OptKeeps.get rfl (by assumption) | refine OptKeeps.get (by assumption) ?_
    | refine Keeps.ofMk (by assumption) ?_ | (refine Keeps.same ?_ rfl rfl rfl rfl rfl rfl rfl rfl))

theorem State.hotLine_keeps {s0 : State} (s : State) (a : Nat) (combined : Bool) (hS : Keeps s0 s) : Keeps s0 (State.hotLine s a combined) := by
  unfold State.hotLine
  with_reducible repeat' (first
    | assumption | intro _ | apply State.inc_keeps | apply State.advance_keeps | apply hF
    | (extract_lets +onlyGivenNames x; clear_value (hx : x = _); ((have hy : @Eq FabSt x _ := hx); clear hx; subst hy))
    | (extract_lets +onlyGivenNames x; clear_value (hx : x = _); (fail_if_success have := hF); refine Keeps.viaFunB (s := s0) hx ?_ fun hF => ?_)
    | (extract_lets +onlyGivenNames x; clear_value (hx : x = _); clear hx) | apply Keeps.ite
    | (refine Keeps.same ?_ rfl rfl rfl rfl rfl rfl rfl rfl))

theorem State.holdPkt_keeps {s0 : State} (s : State) (p : Packet) (combined : Bool) (hS : Keeps s0 s) : Keeps s0 (State.holdPkt s p combined) := by
  unfold State.holdPkt
  with_reducible repeat' (first
    | assumption | intro _ | exact Keeps.refl _  | apply OutKeeps.next
    | (extract_lets +onlyGivenNames x; clear_value (hx : x = _); refine Keeps.via (s := s0) hx ?_ fun hk => ?_)
    | (extract_lets +onlyGivenNames x; clear_value (hx : x = _); refine Keeps.viaP (s := s0) hx ?_ fun hk => ?_)
    | (extract_lets +onlyGivenNames x; clear_value (hx : x = _); ((have hy : @Eq FabSt x _ := hx); clear hx; subst hy))
    | (extract_lets +onlyGivenNames x; clear_value (hx : x = _); refine OptKeeps.via (s := s0) hx ?_ fun hk => ?_)
    | (extract_lets +onlyGivenNames x; clear_value (hx : x = _); clear hx) | apply Keeps.ite | apply OutKeeps.ite | split
    | dsimp -zeta only | (refine Keeps.same ?_ rfl rfl rfl rfl rfl rfl rfl rfl))

theorem State.serveLoad_keeps {s0 : State} (p : Packet) (combined : Bool) (s : State) (q : Nat) (hS : Keeps s0 s) : Keeps s0 (State.serveLoad p combined s q) := by
  unfold State.serveLoad
  with_reducible repeat' (first
    | assumption | intro _ | exact Keeps.refl _ | apply State.countPoison_keeps | apply State.tsAccess_keeps | apply State.send_keeps | apply State.refuse_keeps | apply State.hotLine_keeps | apply State.holdPkt_keeps | apply OutKeeps.next
    | (extract_lets +onlyGivenNames x; clear_value (hx : x = _); refine Keeps.via (s := s0) hx ?_ fun hk => ?_)
    | (extract_lets +onlyGivenNames x; clear_value (hx : x = _); refine Keeps.viaP (s := s0) hx ?_ fun hk => ?_)
    | (extract_lets +onlyGivenNames x; clear_value (hx : x = _); refine OptKeeps.via (s := s0) hx ?_ fun hk => ?_)
    | (extract_lets +onlyGivenNames x; clear_value (hx : x = _); clear hx) | apply Keeps.ite | apply OutKeeps.ite | split
    | dsimp -zeta only | (refine Keeps.same ?_ rfl rfl rfl rfl rfl rfl rfl rfl))

theorem execLoad_keeps {s0 : State} (p : Packet) (combined : Bool) (s : State) (hS : Keeps s0 s) : OutKeeps s0 (execLoad p combined s) :=
  OutKeeps.next (fabIn_keeps _ _ _ _ (fun a q h => State.serveLoad_keeps p combined a q h) hS)

theorem State.storeLines_keeps {s0 : State} (s : State) (p : Packet) (a : Nat) (hS : Keeps s0 s) : Keeps s0 (State.storeLines s p a) := by
  unfold State.storeLines
  with_reducible repeat' (first
    | assumption | intro _ | exact Keeps.refl _ | apply State.setLineBad_keeps | apply State.stBytes_keeps | apply State.overwrite_keeps
    | apply Keeps.upto | apply Keeps.uptoP
    | (extract_lets +onlyGivenNames x; clear_value (hx : x = _); refine Keeps.via (s := s0) hx ?_ fun hk => ?_)
    | (extract_lets +onlyGivenNames x; clear_value (hx : x = _); refine Keeps.viaP (s := s0) hx ?_ fun hk => ?_)
    | (extract_lets +onlyGivenNames x; clear_value (hx : x = _); refine OptKeeps.via (s := s0) hx ?_ fun hk => ?_)
    | (extract_lets +onlyGivenNames x; clear_value (hx : x = _); clear hx) | apply Keeps.ite | split | dsimp -zeta only)

theorem State.serveStore_keeps {s0 : State} (p : Packet) (s : State) (q : Nat) (hS : Keeps s0 s) : Keeps s0 (State.serveStore p s q) := by
  unfold State.serveStore
  with_reducible repeat' (first
    | assumption | intro _ | exact Keeps.refl _ | apply State.tsAccess_keeps | apply State.ack_keeps | apply State.refuse_keeps | apply State.hotLine_keeps | apply State.storeLines_keeps | apply State.holdPkt_keeps | apply OutKeeps.next
    | (extract_lets +onlyGivenNames x; clear_value (hx : x = _); refine Keeps.via (s := s0) hx ?_ fun hk => ?_)
    | (extract_lets +onlyGivenNames x; clear_value (hx : x = _); refine Keeps.viaP (s := s0) hx ?_ fun hk => ?_)
    | (extract_lets +onlyGivenNames x; clear_value (hx : x = _); refine OptKeeps.via (s := s0) hx ?_ fun hk => ?_)
    | (extract_lets +onlyGivenNames x; clear_value (hx : x = _); clear hx) | apply Keeps.ite | apply OutKeeps.ite | split
    | dsimp -zeta only | (refine Keeps.same ?_ rfl rfl rfl rfl rfl rfl rfl rfl))

theorem execStore_keeps {s0 : State} (p : Packet) (s : State) (hS : Keeps s0 s) : OutKeeps s0 (execStore p s) :=
  OutKeeps.next (fabIn_keeps _ _ _ _ (fun a q h => State.serveStore_keeps p a q h) hS)

theorem State.serveReduce_keeps {s0 : State} (p : Packet) (s : State) (q : Nat) (hS : Keeps s0 s) : Keeps s0 (State.serveReduce p s q) := by
  unfold State.serveReduce
  with_reducible repeat' (first
    | assumption | intro _ | exact Keeps.refl _ | apply State.countPoison_keeps | apply State.setLineBad_keeps | apply State.stBytes_keeps
    | apply State.tsAccess_keeps | apply State.send_keeps | apply State.refuse_keeps | apply State.touch_keeps
    | apply State.contribute_keeps | apply State.holdPkt_keeps | apply State.hotLine_keeps | apply Keeps.upto | apply Keeps.uptoP
    | apply OptKeeps.map | exact OptKeeps.none
    | (extract_lets +onlyGivenNames x; clear_value (hx : x = _); refine Keeps.via (s := s0) hx ?_ fun hk => ?_)
    | (extract_lets +onlyGivenNames x; clear_value (hx : x = _); refine Keeps.viaP (s := s0) hx ?_ fun hk => ?_)
    | (extract_lets +onlyGivenNames x; clear_value (hx : x = _); refine OptKeeps.via (s := s0) hx ?_ fun hk => ?_)
    | (extract_lets +onlyGivenNames x; clear_value (hx : x = _); clear hx) | apply Keeps.ite | split
    | dsimp -zeta only | (refine Keeps.same ?_ rfl rfl rfl rfl rfl rfl rfl rfl))

theorem execReduce_keeps {s0 : State} (p : Packet) (s : State) (hS : Keeps s0 s) : OutKeeps s0 (execReduce p s) :=
  OutKeeps.next (fabIn_keeps _ _ _ _ (fun a q h => State.serveReduce_keeps p a q h) hS)

theorem State.dedupSlot_keeps {s0 : State} (s : State) (src : Nat) (hS : Keeps s0 s) : OptKeeps s0 (State.dedupSlot s src) := by
  unfold State.dedupSlot
  with_reducible repeat' (first
    | assumption | intro _ | apply State.wr_keeps | apply OptKeeps.some | exact OptKeeps.none | apply hF | apply hG
    | (extract_lets +onlyGivenNames x; clear_value (hx : x = _); ((have hy : @Eq FabSt x _ := hx); clear hx; subst hy))
    | (extract_lets +onlyGivenNames x; clear_value (hx : x = _); (fail_if_success have := hF); refine Keeps.viaFun (s := s0) hx ?_ fun hF => ?_)
    | (extract_lets +onlyGivenNames x; clear_value (hx : x = _); (fail_if_success have := hG); refine Keeps.viaFun (s := s0) hx ?_ fun hG => ?_)
    | apply OptKeeps.ite | split | (refine Keeps.same ?_ rfl rfl rfl rfl rfl rfl rfl rfl))

theorem State.atomicFirst_keeps {s0 : State} (p : Packet) (combined : Bool) (s : State) (q n : Nat) (fl : Bool) (hS : Keeps s0 s) : Keeps s0 (State.atomicFirst p combined s q n fl) := by
  unfold State.atomicFirst
  split
  · exact State.refuse_keeps _ _ _ hS
  · split
    · exact State.holdPkt_keeps _ _ _ hS
    · split
      · exact State.send_keeps _ _ _ (State.inc_keeps _ _ _ hS)
      · rename_i u hu
        have hk := OptKeeps.get hu (State.dedupSlot_keeps _ _ hS)
        extract_lets +onlyGivenNames x
        have hx : Keeps s0 x := State.hotLine_keeps _ _ _ hk
        clear_value x
        split
        · exact State.send_keeps _ _ _ (State.countPoison_keeps _ _ _ hx)
        · extract_lets old y cmp l combines met kept new t t2 z w var l2 fb v
          have h1 : Keeps s0 t := State.stN_keeps _ _ _ _ (State.tsAccess_keeps _ _ _ _ _ hx)
          clear_value t
          have h2 : Keeps s0 t2 := by
            show Keeps s0 (ite _ _ _)
            split
            · exact h1
            · exact State.touch_keeps _ _ _ _ h1
          clear_value t2
          have h3 : Keeps s0 z.1 := by
            show Keeps s0 (ite (α := State × Nat) _ _ _).1
            split
            · exact State.contribute_keeps _ _ _ h2
            · exact h2
          have h4 : Keeps s0 v := Keeps.same h3 rfl rfl rfl rfl rfl rfl rfl rfl
          clear_value v
          exact State.send_keeps _ _ _ h4

theorem State.serveAtomic_keeps {s0 : State} (p : Packet) (combined : Bool) (s : State) (q : Nat) (hS : Keeps s0 s) : Keeps s0 (State.serveAtomic p combined s q) := by
  unfold State.serveAtomic
  with_reducible repeat' (first
    | assumption | intro _ | exact Keeps.refl _ | apply State.inc_keeps | apply State.send_keeps | apply State.atomicFirst_keeps | apply OutKeeps.next
    | (extract_lets +onlyGivenNames x; clear_value (hx : x = _); refine Keeps.via (s := s0) hx ?_ fun hk => ?_)
    | (extract_lets +onlyGivenNames x; clear_value (hx : x = _); refine Keeps.viaP (s := s0) hx ?_ fun hk => ?_)
    | (extract_lets +onlyGivenNames x; clear_value (hx : x = _); ((have hy : @Eq FabSt x _ := hx); clear hx; subst hy))
    | (extract_lets +onlyGivenNames x; clear_value (hx : x = _); refine OptKeeps.via (s := s0) hx ?_ fun hk => ?_)
    | (extract_lets +onlyGivenNames x; clear_value (hx : x = _); clear hx) | apply Keeps.ite | apply OutKeeps.ite | split
    | dsimp -zeta only | (refine Keeps.same ?_ rfl rfl rfl rfl rfl rfl rfl rfl))

theorem execAtomic_keeps {s0 : State} (p : Packet) (combined : Bool) (s : State) (hS : Keeps s0 s) : OutKeeps s0 (execAtomic p combined s) :=
  OutKeeps.next (Keeps.ite hS (fabIn_keeps _ _ _ _ (fun a q h => State.serveAtomic_keeps p combined a q h) hS))

theorem State.serveHeld_keeps {s0 : State} (s : State) (hS : Keeps s0 s) : Keeps s0 (State.serveHeld s) := by
  unfold State.serveHeld
  with_reducible repeat' (first
    | assumption | intro _ | exact Keeps.refl _ | apply State.refuse_keeps | apply State.serveLoad_keeps | apply State.serveStore_keeps | apply State.serveReduce_keeps | apply State.serveAtomic_keeps | apply Keeps.each | apply OutKeeps.next
    | (extract_lets +onlyGivenNames x; clear_value (hx : x = _); refine Keeps.via (s := s0) hx ?_ fun hk => ?_)
    | (extract_lets +onlyGivenNames x; clear_value (hx : x = _); refine Keeps.viaP (s := s0) hx ?_ fun hk => ?_)
    | (extract_lets +onlyGivenNames x; clear_value (hx : x = _); ((have hy : @Eq FabSt x _ := hx); clear hx; subst hy))
    | (extract_lets +onlyGivenNames x; clear_value (hx : x = _); refine OptKeeps.via (s := s0) hx ?_ fun hk => ?_)
    | (extract_lets +onlyGivenNames x; clear_value (hx : x = _); clear hx) | apply Keeps.ite | apply OutKeeps.ite | split
    | dsimp -zeta only | (refine Keeps.same ?_ rfl rfl rfl rfl rfl rfl rfl rfl))

theorem execSempost_keeps {s0 : State} (p : Packet) (s : State) (hS : Keeps s0 s) : OutKeeps s0 (execSempost p s) := by
  unfold execSempost
  with_reducible repeat' (first
    | assumption | intro _ | apply State.semPost_keeps | apply State.ack_keeps | apply State.refuse_keeps | apply fabIn_keeps
    | apply OutKeeps.next | (extract_lets +onlyGivenNames x; clear_value (hx : x = _); clear hx) | apply Keeps.ite)

theorem execRsvReq_keeps {s0 : State} (p : Packet) (s : State) (hS : Keeps s0 s) : OutKeeps s0 (execRsvReq p s) := by
  unfold execRsvReq
  with_reducible repeat' (first
    | assumption | intro _ | apply State.inc_keeps | apply State.send_keeps | apply State.refuse_keeps | apply State.reserve_keeps
    | apply fabIn_keeps | apply OutKeeps.next
    | (extract_lets +onlyGivenNames x; clear_value (hx : x = _); refine Keeps.viaP (s := s0) hx ?_ fun hk => ?_)
    | (extract_lets +onlyGivenNames x; clear_value (hx : x = _); clear hx) | apply Keeps.ite | split)

theorem execRsvRel_keeps {s0 : State} (p : Packet) (s : State) (hS : Keeps s0 s) : OutKeeps s0 (execRsvRel p s) := by
  unfold execRsvRel
  with_reducible repeat' (first
    | assumption | intro _ | apply State.send_keeps | apply State.dropLease_keeps | apply fabIn_keeps | apply OutKeeps.next | split)

theorem execLeaseExpiry_keeps {s0 : State} (i : Nat) (s : State) (hS : Keeps s0 s) : OutKeeps s0 (execLeaseExpiry i s) := by
  unfold execLeaseExpiry
  with_reducible repeat' (first
    | assumption | intro _ | apply State.inc_keeps | apply State.advance_keeps | apply State.zeroRsv_keeps | apply State.dropLease_keeps
    | apply Keeps.each | apply OutKeeps.next | split)

theorem State.mcastAtSource_keeps {s0 : State} (s : State) (group seq count : Nat) (finish : State → RemOp → Bool → State) (hfinish : ∀ a0 a1 a2, Keeps s0 a0 → Keeps s0 (finish a0 a1 a2)) (hS : Keeps s0 s) : Keeps s0 (State.mcastAtSource s group seq count finish) := by
  unfold State.mcastAtSource
  with_reducible repeat' (first
    | assumption | apply hfinish | split)

theorem State.mcastAck_keeps {s0 : State} (s : State) (w : McastWait) (p : Packet) (status : Nat) (finish : State → RemOp → Bool → State) (hfinish : ∀ a0 a1 a2, Keeps s0 a0 → Keeps s0 (finish a0 a1 a2)) (hS : Keeps s0 s) : Keeps s0 (State.mcastAck s w p status finish) := by
  unfold State.mcastAck
  with_reducible repeat' (first
    | assumption | apply State.emit_keeps | apply State.mcastAtSource_keeps
    | (extract_lets +onlyGivenNames x; clear_value (hx : x = _); clear hx) | apply Keeps.ite)

theorem State.endOp_keeps {s0 : State} (s : State) (o : RemOp) (value : Option Nat) (hS : Keeps s0 s) : Keeps s0 (State.endOp s o value) := by
  unfold State.endOp
  with_reducible repeat' (first
    | assumption | intro _ | exact Keeps.refl _ | apply State.setReg_keeps | apply State.modBank_keeps | apply State.runQueue_keeps
    | apply OptKeeps.some | apply OptKeeps.map | exact OptKeeps.none
    | (extract_lets +onlyGivenNames x; clear_value (hx : x = _); refine Keeps.via (s := s0) hx ?_ fun hk => ?_)
    | (extract_lets +onlyGivenNames x; clear_value (hx : x = _); refine Keeps.viaP (s := s0) hx ?_ fun hk => ?_)
    | (extract_lets +onlyGivenNames x; clear_value (hx : x = _); ((have hy : @Eq FabSt x _ := hx); clear hx; subst hy))
    | (extract_lets +onlyGivenNames x; clear_value (hx : x = _); refine OptKeeps.via (s := s0) hx ?_ fun hk => ?_)
    | (extract_lets +onlyGivenNames x; clear_value (hx : x = _); clear hx) | apply Keeps.ite | apply OptKeeps.ite | split
    | dsimp -zeta only | exact OptKeeps.get rfl (by assumption) | refine OptKeeps.get (by assumption) ?_
    | refine Keeps.ofMk (by assumption) ?_ | (refine Keeps.same ?_ rfl rfl rfl rfl rfl rfl rfl rfl))

theorem State.failOp_keeps {s0 : State} (s : State) (o : RemOp) (code : Nat) (count : Nat) (hS : Keeps s0 s) : Keeps s0 (State.failOp s o code count) := by
  unfold State.failOp
  with_reducible repeat' (first
    | assumption | intro _ | exact Keeps.refl _ | apply State.fault_keeps | apply State.noteLost_keeps | apply State.endOp_keeps
    | exact OptKeeps.none | exact CKeeps.fault | exact RKeeps.fault
    | (extract_lets +onlyGivenNames x; clear_value (hx : x = _); refine Keeps.via (s := s0) hx ?_ fun hk => ?_)
    | (extract_lets +onlyGivenNames x; clear_value (hx : x = _); refine Keeps.viaP (s := s0) hx ?_ fun hk => ?_)
    | (extract_lets +onlyGivenNames x; clear_value (hx : x = _); refine OptKeeps.via (s := s0) hx ?_ fun hk => ?_)
    | (extract_lets +onlyGivenNames x; clear_value (hx : x = _); clear hx) | apply Keeps.ite | apply OptKeeps.ite | apply CKeeps.ite
    | apply RKeeps.ite | split | dsimp -zeta only)

theorem State.doneOp_keeps {s0 : State} (s : State) (o : RemOp) (v : Nat) (hS : Keeps s0 s) : Keeps s0 (State.doneOp s o v) := by
  unfold State.doneOp
  with_reducible repeat' (first
    | assumption | apply State.kvAcked_keeps | apply State.endOp_keeps
    | (extract_lets +onlyGivenNames x; clear_value (hx : x = _); refine Keeps.via (s := s0) hx ?_ fun hk => ?_) | apply Keeps.ite)

theorem State.endMcast_keeps {s0 : State} (count : Nat) (s : State) (o : RemOp) (ok : Bool) (hS : Keeps s0 s) : Keeps s0 (State.endMcast count s o ok) := by
  unfold State.endMcast
  with_reducible repeat' (first
    | assumption | apply State.failOp_keeps | apply State.doneOp_keeps | apply Keeps.ite)

theorem fabReply_keeps {s0 : State} (type : Nat) (p : Packet) (f : Nat → Bool) (s : State) (ok : State → RemOp → State) (hok : ∀ a0 a1, Keeps s0 a0 → Keeps s0 (ok a0 a1)) (hS : Keeps s0 s) : Keeps s0 (fabReply type p f s ok) := by
  unfold fabReply
  with_reducible repeat' (first
    | assumption | apply hok | apply State.failOp_keeps | apply Keeps.ite | split)

theorem execLoadRsp_keeps {s0 : State} (p : Packet) (s : State) (hS : Keeps s0 s) : OutKeeps s0 (execLoadRsp p s) := by
  unfold execLoadRsp
  with_reducible repeat' (first
    | assumption | intro _ | apply State.doneOp_keeps | apply fabReply_keeps | apply OutKeeps.next)

theorem execAtomicRsp_keeps {s0 : State} (p : Packet) (s : State) (hS : Keeps s0 s) : OutKeeps s0 (execAtomicRsp p s) := by
  unfold execAtomicRsp
  with_reducible repeat' (first
    | assumption | intro _ | exact Keeps.refl _ | apply State.inc_keeps | apply State.doneOp_keeps | apply fabReply_keeps
    | apply OutKeeps.next | (extract_lets +onlyGivenNames x; clear_value (hx : x = _); refine Keeps.via (s := s0) hx ?_ fun hk => ?_)
    | (extract_lets +onlyGivenNames x; clear_value (hx : x = _); refine Keeps.viaP (s := s0) hx ?_ fun hk => ?_)
    | (extract_lets +onlyGivenNames x; clear_value (hx : x = _); refine OptKeeps.via (s := s0) hx ?_ fun hk => ?_)
    | (extract_lets +onlyGivenNames x; clear_value (hx : x = _); clear hx) | apply Keeps.ite | apply OutKeeps.ite | split
    | dsimp -zeta only)

theorem execAck_keeps {s0 : State} (p : Packet) (port : Nat) (s : State) (hS : Keeps s0 s) : OutKeeps s0 (execAck p port s) := by
  unfold execAck
  with_reducible repeat' (first
    | assumption | intro _ | exact Keeps.refl _ | apply State.inc_keeps | apply State.noteLost_keeps | apply State.colAcked_keeps
    | apply State.mcastAck_keeps | apply State.endOp_keeps | apply State.failOp_keeps | apply State.doneOp_keeps
    | apply State.endMcast_keeps | apply OptKeeps.some | exact OptKeeps.none | apply OutKeeps.next
    | (extract_lets +onlyGivenNames x; clear_value (hx : x = _); refine Keeps.via (s := s0) hx ?_ fun hk => ?_)
    | (extract_lets +onlyGivenNames x; clear_value (hx : x = _); refine Keeps.viaP (s := s0) hx ?_ fun hk => ?_)
    | (extract_lets +onlyGivenNames x; clear_value (hx : x = _); ((have hy : @Eq FabSt x _ := hx); clear hx; subst hy))
    | (extract_lets +onlyGivenNames x; clear_value (hx : x = _); refine OptKeeps.via (s := s0) hx ?_ fun hk => ?_)
    | (extract_lets +onlyGivenNames x; clear_value (hx : x = _); clear hx) | apply Keeps.ite | apply OptKeeps.ite | apply OutKeeps.ite
    | split | dsimp -zeta only | exact OptKeeps.get rfl (by assumption) | refine OptKeeps.get (by assumption) ?_
    | refine Keeps.ofMk (by assumption) ?_ | (refine Keeps.same ?_ rfl rfl rfl rfl rfl rfl rfl rfl))

theorem execRsvRsp_keeps {s0 : State} (p : Packet) (s : State) (hS : Keeps s0 s) : OutKeeps s0 (execRsvRsp p s) := by
  unfold execRsvRsp
  with_reducible repeat' (first
    | assumption | apply State.colReserved_keeps | apply OutKeeps.next
    | (extract_lets +onlyGivenNames x; clear_value (hx : x = _); clear hx) | apply OutKeeps.ite | split)

theorem State.colUnheard_keeps {s0 : State} (s : State) (o : RemOp) (hS : Keeps s0 s) : Keeps s0 (State.colUnheard s o) := by
  unfold State.colUnheard
  with_reducible repeat' (first
    | assumption | intro _ | exact Keeps.refl _ | apply State.colFault_keeps | apply State.colFail_keeps | apply OutKeeps.next
    | (extract_lets +onlyGivenNames x; clear_value (hx : x = _); refine Keeps.via (s := s0) hx ?_ fun hk => ?_)
    | (extract_lets +onlyGivenNames x; clear_value (hx : x = _); refine Keeps.viaP (s := s0) hx ?_ fun hk => ?_)
    | (extract_lets +onlyGivenNames x; clear_value (hx : x = _); ((have hy : @Eq FabSt x _ := hx); clear hx; subst hy))
    | (extract_lets +onlyGivenNames x; clear_value (hx : x = _); refine OptKeeps.via (s := s0) hx ?_ fun hk => ?_)
    | (extract_lets +onlyGivenNames x; clear_value (hx : x = _); clear hx) | apply Keeps.ite | apply OutKeeps.ite | split
    | dsimp -zeta only | (refine Keeps.same ?_ rfl rfl rfl rfl rfl rfl rfl rfl))

theorem execRemoteTimeout_keeps {s0 : State} (dev seq : Nat) (s : State) (hS : Keeps s0 s) : OutKeeps s0 (execRemoteTimeout dev seq s) := by
  unfold execRemoteTimeout
  with_reducible repeat' (first
    | assumption | apply State.advance_keeps | apply State.failOp_keeps | apply State.colUnheard_keeps | apply OutKeeps.next | split)

theorem execRetry_keeps {s0 : State} (dev seq : Nat) (s : State) (hS : Keeps s0 s) : OutKeeps s0 (execRetry dev seq s) := by
  unfold execRetry
  with_reducible repeat' (first
    | assumption | apply State.advance_keeps | apply State.send_keeps | apply OutKeeps.next
    | (extract_lets +onlyGivenNames x; clear_value (hx : x = _); refine Keeps.via (s := s0) hx ?_ fun hk => ?_)
    | (extract_lets +onlyGivenNames x; clear_value (hx : x = _); ((have hy : @Eq FabSt x _ := hx); clear hx; subst hy))
    | (extract_lets +onlyGivenNames x; clear_value (hx : x = _); clear hx) | apply OutKeeps.ite | split
    | (refine Keeps.same ?_ rfl rfl rfl rfl rfl rfl rfl rfl))

theorem execMstore_keeps {s0 : State} (p : Packet) (x : Arrival) (s : State) (hS : Keeps s0 s) : OutKeeps s0 (execMstore p x s) := by
  unfold execMstore
  with_reducible repeat' (first
    | assumption | intro _ | exact Keeps.refl _ | apply State.inc_keeps | apply State.tsAccess_keeps | apply State.mcastCopies_keeps
    | apply State.arrive_keeps | apply State.storeLines_keeps | apply State.mcastAck_keeps | apply State.endMcast_keeps | apply Keeps.each
    | apply Keeps.eachP | apply OptKeeps.some | exact OptKeeps.none | apply OutKeeps.next
    | (extract_lets +onlyGivenNames x; clear_value (hx : x = _); refine Keeps.via (s := s0) hx ?_ fun hk => ?_)
    | (extract_lets +onlyGivenNames x; clear_value (hx : x = _); refine Keeps.viaP (s := s0) hx ?_ fun hk => ?_)
    | (extract_lets +onlyGivenNames x; clear_value (hx : x = _); ((have hy : @Eq FabSt x _ := hx); clear hx; subst hy))
    | (extract_lets +onlyGivenNames x; clear_value (hx : x = _); refine OptKeeps.via (s := s0) hx ?_ fun hk => ?_)
    | (extract_lets +onlyGivenNames x; clear_value (hx : x = _); clear hx) | apply Keeps.ite | apply OptKeeps.ite | apply OutKeeps.ite
    | split | dsimp -zeta only | exact OptKeeps.get rfl (by assumption) | refine OptKeeps.get (by assumption) ?_
    | refine Keeps.ofMk (by assumption) ?_ | (refine Keeps.same ?_ rfl rfl rfl rfl rfl rfl rfl rfl))

theorem execMcastAckTimeout_keeps {s0 : State} (src seq : Nat) (s : State) (hS : Keeps s0 s) : OutKeeps s0 (execMcastAckTimeout src seq s) := by
  unfold execMcastAckTimeout
  with_reducible repeat' (first
    | assumption | intro _ | apply State.advance_keeps | apply State.mcastAck_keeps | apply State.endMcast_keeps | apply OutKeeps.next
    | (extract_lets +onlyGivenNames x; clear_value (hx : x = _); ((have hy : @Eq FabSt x _ := hx); clear hx; subst hy)) | split
    | (refine Keeps.same ?_ rfl rfl rfl rfl rfl rfl rfl rfl))

theorem execForward_keeps {s0 : State} (p : Packet) (lvc stay : Nat) (s : State) (hS : Keeps s0 s) : OutKeeps s0 (execForward p lvc stay s) := by
  unfold execForward
  with_reducible repeat' (first
    | assumption | apply State.inc_keeps | apply State.routeFrom_keeps | apply OutKeeps.next
    | (extract_lets +onlyGivenNames x; clear_value (hx : x = _); clear hx) | apply OutKeeps.ite)

theorem execMalformedPacket_keeps {s0 : State} (p : Packet) (s : State) (hS : Keeps s0 s) : OutKeeps s0 (execMalformedPacket p s) := by
  unfold execMalformedPacket
  with_reducible repeat' (first
    | assumption | apply State.inc_keeps | apply OutKeeps.next | apply OutKeeps.ite)

theorem State.fabDown_keeps {s0 : State} (s : State) (k : Nat) (hS : Keeps s0 s) : Keeps s0 (State.fabDown s k) := by
  unfold State.fabDown
  with_reducible repeat' (first
    | assumption | apply State.wr_keeps | apply State.inc_keeps | apply State.fault_keeps | apply Keeps.ite)

theorem execLinkTrain_keeps {s0 : State} (k peer rev : Nat) (ok : Bool) (s : State) (hS : Keeps s0 s) : OutKeeps s0 (execLinkTrain k peer rev ok s) := by
  unfold execLinkTrain
  with_reducible repeat' (first
    | assumption | intro _ | exact Keeps.refl _ | apply State.wr_keeps | apply State.fault_keeps | exact CKeeps.fault | exact RKeeps.fault
    | apply OutKeeps.next | apply hF | apply hG | apply hH
    | (extract_lets +onlyGivenNames x; clear_value (hx : x = _); refine Keeps.via (s := s0) hx ?_ fun hk => ?_)
    | (extract_lets +onlyGivenNames x; clear_value (hx : x = _); refine Keeps.viaP (s := s0) hx ?_ fun hk => ?_)
    | (extract_lets +onlyGivenNames x; clear_value (hx : x = _); refine OptKeeps.via (s := s0) hx ?_ fun hk => ?_)
    | (extract_lets +onlyGivenNames x; clear_value (hx : x = _); (fail_if_success have := hF); refine Keeps.viaFunB (s := s0) hx ?_ fun hF => ?_)
    | (extract_lets +onlyGivenNames x; clear_value (hx : x = _); clear hx) | apply Keeps.ite | apply OutKeeps.ite | apply CKeeps.ite
    | apply RKeeps.ite | split | dsimp -zeta only
    | (refine Keeps.same ?_ rfl rfl rfl rfl rfl rfl rfl rfl))

theorem execFlitReplay_keeps {s0 : State} (k times : Nat) (s : State) (hS : Keeps s0 s) : OutKeeps s0 (execFlitReplay k times s) := by
  unfold execFlitReplay
  with_reducible repeat' (first
    | assumption | apply State.inc_keeps | apply State.fabDown_keeps | apply OutKeeps.next
    | (extract_lets +onlyGivenNames x; clear_value (hx : x = _); refine Keeps.via (s := s0) hx ?_ fun hk => ?_) | apply Keeps.ite
    | apply OutKeeps.ite)

theorem execFabLinkDown_keeps {s0 : State} (k : Nat) (s : State) (hS : Keeps s0 s) : OutKeeps s0 (execFabLinkDown k s) := by
  unfold execFabLinkDown
  with_reducible repeat' (first
    | assumption | apply State.fabDown_keeps | apply OutKeeps.next | apply OutKeeps.ite)

end Sys2Proof.Machine
end

