-- ==== Sys2Proof/Laws/KeepsHost.lean ====
section
/-! SUPPORT. Every operation of Machine/Host.lean keeps what Keeps (Safety.lean) says. -/

namespace Sys2Proof.Machine

theorem State.ringBell_keeps {s0 : State} (s : State) (q : Nat) (hS : Keeps s0 s) : Keeps s0 (State.ringBell s q) := by
  unfold State.ringBell
  with_reducible repeat' (first
    | assumption | apply State.setHq_keeps | (extract_lets +onlyGivenNames x; clear_value (hx : x = _); clear hx) | apply Keeps.ite)

theorem execDoorbell_keeps {s0 : State} (q : Nat) (stores : List (Nat × Nat)) (s : State) (hS : Keeps s0 s) : OutKeeps s0 (execDoorbell q stores s) := by
  unfold execDoorbell
  with_reducible repeat' (first
    | assumption | apply State.hostStores_keeps | apply State.ringBell_keeps | apply OutKeeps.next)

theorem execTailPoll_keeps {s0 : State} (q : Nat) (stores : List (Nat × Nat)) (s : State) (hS : Keeps s0 s) : OutKeeps s0 (execTailPoll q stores s) := by
  unfold execTailPoll
  with_reducible repeat' (first
    | assumption | apply State.advance_keeps | apply State.hostStores_keeps | apply State.setHq_keeps | apply OutKeeps.next
    | (extract_lets +onlyGivenNames x; clear_value (hx : x = _); refine Keeps.via (s := s0) hx ?_ fun hk => ?_)
    | (extract_lets +onlyGivenNames x; clear_value (hx : x = _); clear hx) | apply OutKeeps.ite)

theorem State.cqRefetch_keeps {s0 : State} (s : State) (q pasid : Nat) (hS : Keeps s0 s) : Keeps s0 (State.cqRefetch s q pasid) := by
  unfold State.cqRefetch
  with_reducible repeat' (first
    | assumption | apply State.setHq_keeps | apply State.hqRingFail_keeps
    | (extract_lets +onlyGivenNames x; clear_value (hx : x = _); clear hx) | apply Keeps.ite | split)

theorem execCommandFetch_keeps {s0 : State} (q : Nat) (ok : Bool) (stores : List (Nat × Nat)) (s : State) (hS : Keeps s0 s) : OutKeeps s0 (execCommandFetch q ok stores s) := by
  unfold execCommandFetch
  with_reducible repeat' (first
    | assumption | apply State.wr_keeps | apply State.hostWr_keeps | apply State.hostStores_keeps | apply State.fault_keeps
    | apply State.setHq_keeps | apply State.hqStop_keeps | apply State.hqRingFail_keeps | apply State.hqAdvance_keeps
    | apply State.cqRefetch_keeps | apply OutKeeps.next
    | (extract_lets +onlyGivenNames x; clear_value (hx : x = _); refine Keeps.via (s := s0) hx ?_ fun hk => ?_)
    | (extract_lets +onlyGivenNames x; clear_value (hx : x = _); clear hx) | apply Keeps.ite | apply OutKeeps.ite | split)

theorem execHqNop_keeps {s0 : State} (q i : Nat) (s : State) (hS : Keeps s0 s) : OutKeeps s0 (execHqNop q i s) := by
  unfold execHqNop
  with_reducible repeat' (first
    | assumption | intro _ | apply State.hComplete_keeps | apply withHostCmd_keeps | apply OutKeeps.next)

theorem State.copyCmd_keeps {s0 : State} (s : State) (q : Nat) (c : HCmd) (ok : Bool) (go : State → Nat → Nat → State) (hgo : ∀ a0 a1 a2, Keeps s0 a0 → Keeps s0 (go a0 a1 a2)) (hS : Keeps s0 s) : Keeps s0 (State.copyCmd s q c ok go) := by
  unfold State.copyCmd
  with_reducible repeat' (first
    | assumption | intro _ | exact Keeps.refl _ | apply hgo | apply State.took_keeps | apply State.semPost_keeps
    | apply State.hqAccessFault_keeps | apply State.hComplete_keeps | apply CRes.done_keeps | apply OptKeeps.some | exact OptKeeps.none
    | (extract_lets +onlyGivenNames x; clear_value (hx : x = _); refine Keeps.via (s := s0) hx ?_ fun hk => ?_)
    | (extract_lets +onlyGivenNames x; clear_value (hx : x = _); refine Keeps.viaP (s := s0) hx ?_ fun hk => ?_)
    | (extract_lets +onlyGivenNames x; clear_value (hx : x = _); refine OptKeeps.via (s := s0) hx ?_ fun hk => ?_)
    | (extract_lets +onlyGivenNames x; clear_value (hx : x = _); clear hx) | apply Keeps.ite | apply OptKeeps.ite | split
    | dsimp -zeta only | exact OptKeeps.get rfl (by assumption) | refine OptKeeps.get (by assumption) ?_
    | refine Keeps.ofMk (by assumption) ?_ | (refine Keeps.same ?_ rfl rfl rfl rfl rfl rfl rfl rfl))

theorem execCopyIn_keeps {s0 : State} (q i : Nat) (ok : Bool) (s : State) (hS : Keeps s0 s) : OutKeeps s0 (execCopyIn q i ok s) := by
  unfold execCopyIn
  with_reducible repeat' (first
    | assumption | intro _ | exact Keeps.refl _ | apply State.tsAccess_keeps | apply State.stRange_keeps | apply State.rangeRecords_keeps
    | apply State.overwrite_keeps | apply withHostCmd_keeps | apply State.copyCmd_keeps | apply OutKeeps.next | dsimp -zeta only)

theorem State.copyMarks_keeps {s0 : State} (s : State) (a pasid iova n : Nat) (hS : Keeps s0 s) : Keeps s0 (State.copyMarks s a pasid iova n) := by
  unfold State.copyMarks
  with_reducible repeat' (first
    | assumption | intro _ | exact Keeps.refl _ | apply State.hostMark_keeps | apply Keeps.upto | apply Keeps.uptoP | apply Keeps.ite
    | split | dsimp -zeta only)

theorem execCopyOut_keeps {s0 : State} (q i : Nat) (ok : Bool) (s : State) (hS : Keeps s0 s) : OutKeeps s0 (execCopyOut q i ok s) := by
  unfold execCopyOut
  with_reducible repeat' (first
    | assumption | intro _ | exact Keeps.refl _ | apply State.hostWr_keeps | apply State.countPoison_keeps | apply State.tsAccess_keeps
    | apply State.rangeRecords_keeps | apply withHostCmd_keeps | apply State.copyCmd_keeps | apply State.copyMarks_keeps
    | apply OutKeeps.next | dsimp -zeta only)

theorem execSemPost_keeps {s0 : State} (q i : Nat) (s : State) (hS : Keeps s0 s) : OutKeeps s0 (execSemPost q i s) := by
  unfold execSemPost
  with_reducible repeat' (first
    | assumption | intro _ | apply State.semPost_keeps | apply State.hComplete_keeps | apply withHostCmd_keeps | apply OutKeeps.next
    | (extract_lets +onlyGivenNames x; clear_value (hx : x = _); clear hx) | apply Keeps.ite)

theorem execNetTx_keeps {s0 : State} (q i : Nat) (ok : Bool) (s : State) (hS : Keeps s0 s) : OutKeeps s0 (execNetTx q i ok s) := by
  unfold execNetTx
  with_reducible repeat' (first
    | assumption | intro _ | exact Keeps.refl _ | apply State.took_keeps | apply State.hqAccessFault_keeps | apply State.hMark_keeps
    | apply State.hComplete_keeps | apply withHostCmd_keeps | apply State.egRewind_keeps | apply State.egCommit_keeps
    | apply OptKeeps.some | exact OptKeeps.none | apply OutKeeps.next
    | (extract_lets +onlyGivenNames x; clear_value (hx : x = _); refine Keeps.via (s := s0) hx ?_ fun hk => ?_)
    | (extract_lets +onlyGivenNames x; clear_value (hx : x = _); refine Keeps.viaP (s := s0) hx ?_ fun hk => ?_)
    | (extract_lets +onlyGivenNames x; clear_value (hx : x = _); refine OptKeeps.via (s := s0) hx ?_ fun hk => ?_)
    | (extract_lets +onlyGivenNames x; clear_value (hx : x = _); clear hx) | apply Keeps.ite | apply OptKeeps.ite | apply OutKeeps.ite
    | split | dsimp -zeta only | exact OptKeeps.get rfl (by assumption) | refine OptKeeps.get (by assumption) ?_
    | refine Keeps.ofMk (by assumption) ?_ | (refine Keeps.same ?_ rfl rfl rfl rfl rfl rfl rfl rfl))

theorem execRxBuf_keeps {s0 : State} (q i : Nat) (s : State) (hS : Keeps s0 s) : OutKeeps s0 (execRxBuf q i s) := by
  unfold execRxBuf
  with_reducible repeat' (first
    | assumption | intro _ | exact Keeps.refl _ | apply State.hMark_keeps | apply State.hComplete_keeps | apply withHostCmd_keeps
    | apply State.hostDeliver_keeps | apply OutKeeps.next | apply Keeps.ite | apply OutKeeps.ite | split | dsimp -zeta only)

theorem execHostAccessTimeout_keeps {s0 : State} (q : Nat) (i : Option Nat) (s : State) (hS : Keeps s0 s) : OutKeeps s0 (execHostAccessTimeout q i s) := by
  unfold execHostAccessTimeout
  with_reducible repeat' (first
    | assumption | apply State.setHq_keeps | apply State.hqAccessFault_keeps | apply State.hqRingFail_keeps | apply State.hComplete_keeps
    | apply OutKeeps.next | (extract_lets +onlyGivenNames x; clear_value (hx : x = _); clear hx) | apply Keeps.ite | split)

theorem execAtsInvalidation_keeps {s0 : State} (s : State) (hS : Keeps s0 s) : OutKeeps s0 (execAtsInvalidation s) := by
  unfold execAtsInvalidation
  with_reducible repeat' (first
    | assumption | apply OutKeeps.next
    | (extract_lets +onlyGivenNames x; clear_value (hx : x = _); ((have hy : @Eq HqSt x _ := hx); clear hx; subst hy))
    | (refine Keeps.same ?_ rfl rfl rfl rfl rfl rfl rfl rfl))

theorem execPcieLinkDown_keeps {s0 : State} (s : State) (hS : Keeps s0 s) : OutKeeps s0 (execPcieLinkDown s) := by
  unfold execPcieLinkDown
  with_reducible repeat' (first
    | assumption | apply State.wr_keeps | apply OutKeeps.next)

theorem execPcieLinkUp_keeps {s0 : State} (speed width : Nat) (s : State) (hS : Keeps s0 s) : OutKeeps s0 (execPcieLinkUp speed width s) := by
  unfold execPcieLinkUp
  with_reducible repeat' (first
    | assumption | intro _ | exact Keeps.refl _ | apply State.wr_keeps | apply OutKeeps.next | apply Keeps.ite | apply OutKeeps.ite
    | split | dsimp -zeta only)

theorem execPciePowerState_keeps {s0 : State} (d3 : Bool) (s : State) (hS : Keeps s0 s) : OutKeeps s0 (execPciePowerState d3 s) := by
  unfold execPciePowerState
  with_reducible repeat' (first
    | assumption | apply OutKeeps.next
    | (extract_lets +onlyGivenNames x; clear_value (hx : x = _); ((have hy : @Eq HqSt x _ := hx); clear hx; subst hy))
    | (refine Keeps.same ?_ rfl rfl rfl rfl rfl rfl rfl rfl))

end Sys2Proof.Machine
end

