-- ==== Sys2Proof/Laws/KeepsTime.lean ====
section
/-! SUPPORT. Every operation of Machine/Time.lean keeps what Keeps (Safety.lean) says. -/

namespace Sys2Proof.Machine

theorem State.timeFault_keeps {s0 : State} (s : State) (code part unit : Nat) (hS : Keeps s0 s) : Keeps s0 (State.timeFault s code part unit) := by
  unfold State.timeFault
  with_reducible repeat' (first
    | assumption | apply State.fault_keeps)

theorem State.setPulse_keeps {s0 : State} (s : State) (k : Nat) (p : Pulse) (hS : Keeps s0 s) : Keeps s0 (State.setPulse s k p) := by
  unfold State.setPulse
  with_reducible repeat' (first
    | assumption | (refine Keeps.same ?_ rfl rfl rfl rfl rfl rfl rfl rfl))

theorem State.pulseReload_keeps {s0 : State} (s : State) (k : Nat) (hS : Keeps s0 s) : Keeps s0 (State.pulseReload s k) := by
  unfold State.pulseReload
  with_reducible repeat' (first
    | assumption | apply State.wr_keeps | apply State.setPulse_keeps
    | (extract_lets +onlyGivenNames x; clear_value (hx : x = _); clear hx) | apply Keeps.ite | split)

theorem State.pulseStep_keeps {s0 : State} (s : State) (k : Nat) (hS : Keeps s0 s) : Keeps s0 (State.pulseStep s k) := by
  unfold State.pulseStep
  with_reducible repeat' (first
    | assumption | apply State.wr_keeps | apply State.setPulse_keeps
    | (extract_lets +onlyGivenNames x; clear_value (hx : x = _); clear hx) | apply Keeps.ite | split)

theorem State.pulseDrive_keeps {s0 : State} (s : State) (k : Nat) (at32 : Int) (next : Option Nat) (once : Bool) (hS : Keeps s0 s) : Keeps s0 (State.pulseDrive s k at32 next once) := by
  unfold State.pulseDrive
  with_reducible repeat' (first
    | assumption | apply State.inc_keeps | apply State.setPulse_keeps)

theorem execTimePulse_keeps {s0 : State} (k : Nat) (s : State) (hS : Keeps s0 s) : OutKeeps s0 (execTimePulse k s) := by
  unfold execTimePulse
  with_reducible repeat' (first
    | assumption | intro _ | exact Keeps.refl _ | apply State.wr_keeps | apply State.advance_keeps | apply CRes.done_keeps
    | apply State.pulseDrive_keeps | apply OptKeeps.some | exact OptKeeps.none | apply OutKeeps.next
    | (extract_lets +onlyGivenNames x; clear_value (hx : x = _); refine Keeps.via (s := s0) hx ?_ fun hk => ?_)
    | (extract_lets +onlyGivenNames x; clear_value (hx : x = _); refine Keeps.viaP (s := s0) hx ?_ fun hk => ?_)
    | (extract_lets +onlyGivenNames x; clear_value (hx : x = _); refine OptKeeps.via (s := s0) hx ?_ fun hk => ?_)
    | (extract_lets +onlyGivenNames x; clear_value (hx : x = _); clear hx) | apply Keeps.ite | apply OptKeeps.ite | apply OutKeeps.ite
    | split | dsimp -zeta only | exact OptKeeps.get rfl (by assumption) | refine OptKeeps.get (by assumption) ?_
    | refine Keeps.ofMk (by assumption) ?_ | (refine Keeps.same ?_ rfl rfl rfl rfl rfl rfl rfl rfl))

theorem execPulseEnd_keeps {s0 : State} (k : Nat) (s : State) (hS : Keeps s0 s) : OutKeeps s0 (execPulseEnd k s) := by
  unfold execPulseEnd
  with_reducible repeat' (first
    | assumption | apply State.advance_keeps | apply State.setPulse_keeps | apply State.wr_keeps | apply OutKeeps.next
    | (extract_lets +onlyGivenNames x; clear_value (hx : x = _); refine Keeps.via (s := s0) hx ?_ fun hk => ?_)
    | (extract_lets +onlyGivenNames x; clear_value (hx : x = _); clear hx) | apply Keeps.ite | apply OutKeeps.ite)

theorem State.setBar_keeps {s0 : State} (s : State) (b : Nat) (x : Bar) (hS : Keeps s0 s) : Keeps s0 (State.setBar s b x) := by
  unfold State.setBar
  with_reducible repeat' (first
    | assumption | (refine Keeps.same ?_ rfl rfl rfl rfl rfl rfl rfl rfl))

theorem State.barWatch_keeps {s0 : State} (s : State) (b : Nat) (hS : Keeps s0 s) : Keeps s0 (State.barWatch s b) := by
  unfold State.barWatch
  with_reducible repeat' (first
    | assumption | apply State.semServe_keeps | apply State.semRegister_keeps | apply State.setBar_keeps
    | (extract_lets +onlyGivenNames x; clear_value (hx : x = _); clear hx) | apply Keeps.ite)

theorem State.barUnwatch_keeps {s0 : State} (s : State) (b k : Nat) (hS : Keeps s0 s) : Keeps s0 (State.barUnwatch s b k) := by
  unfold State.barUnwatch
  with_reducible repeat' (first
    | assumption | apply State.semPost_keeps | apply State.semWithdraw_keeps | apply State.setBar_keeps
    | (extract_lets +onlyGivenNames x; clear_value (hx : x = _); refine Keeps.via (s := s0) hx ?_ fun hk => ?_)
    | (extract_lets +onlyGivenNames x; clear_value (hx : x = _); ((have hy : @Eq SemSt x _ := hx); clear hx; subst hy))
    | (extract_lets +onlyGivenNames x; clear_value (hx : x = _); clear hx) | split
    | (refine Keeps.same ?_ rfl rfl rfl rfl rfl rfl rfl rfl))

theorem State.sendArrive_keeps {s0 : State} (s : State) (b : Nat) (hS : Keeps s0 s) : Keeps s0 (State.sendArrive s b) := by
  unfold State.sendArrive
  with_reducible repeat' (first
    | assumption | apply State.launchOp_keeps | apply State.newGroup_keeps)

theorem State.barArrive_keeps {s0 : State} (s : State) (b : Nat) (hS : Keeps s0 s) : Keeps s0 (State.barArrive s b) := by
  unfold State.barArrive
  with_reducible repeat' (first
    | assumption | apply State.setBar_keeps | apply State.barUnwatch_keeps | apply State.sendArrive_keeps
    | (extract_lets +onlyGivenNames x; clear_value (hx : x = _); refine Keeps.via (s := s0) hx ?_ fun hk => ?_)
    | (extract_lets +onlyGivenNames x; clear_value (hx : x = _); clear hx) | apply Keeps.ite)

theorem execBarrierArrive_keeps {s0 : State} (b : Nat) (s : State) (hS : Keeps s0 s) : OutKeeps s0 (execBarrierArrive b s) := by
  unfold execBarrierArrive
  with_reducible repeat' (first
    | assumption | apply State.barArrive_keeps | apply OutKeeps.next)

theorem State.grantBar_keeps {s0 : State} (s : State) (q b : Nat) (hS : Keeps s0 s) : Keeps s0 (State.grantBar s q b) := by
  unfold State.grantBar
  with_reducible repeat' (first
    | assumption | apply State.semPost_keeps | apply State.setBar_keeps | apply State.barArrive_keeps
    | (extract_lets +onlyGivenNames x; clear_value (hx : x = _); refine Keeps.via (s := s0) hx ?_ fun hk => ?_)
    | (extract_lets +onlyGivenNames x; clear_value (hx : x = _); clear hx) | apply Keeps.ite)

theorem execArrSemArrive_keeps {s0 : State} (b : Nat) (s : State) (hS : Keeps s0 s) : OutKeeps s0 (execArrSemArrive b s) := by
  unfold execArrSemArrive
  with_reducible repeat' (first
    | assumption | apply State.barWatch_keeps | apply State.grantBar_keeps | apply OutKeeps.next
    | (extract_lets +onlyGivenNames x; clear_value (hx : x = _); refine Keeps.via (s := s0) hx ?_ fun hk => ?_)
    | (extract_lets +onlyGivenNames x; clear_value (hx : x = _); ((have hy : @Eq SemSt x _ := hx); clear hx; subst hy)) | split
    | (refine Keeps.same ?_ rfl rfl rfl rfl rfl rfl rfl rfl))

theorem State.barNext_keeps {s0 : State} (s : State) (b : Nat) (hS : Keeps s0 s) : Keeps s0 (State.barNext s b) := by
  unfold State.barNext
  with_reducible repeat' (first
    | assumption | apply State.wr_keeps | apply State.incw_keeps | apply State.setBar_keeps | apply State.barWatch_keeps)

theorem State.barFire_keeps {s0 : State} (s : State) (b t : Nat) (hS : Keeps s0 s) : Keeps s0 (State.barFire s b t) := by
  unfold State.barFire
  with_reducible repeat' (first
    | assumption | intro _ | apply State.wr_keeps | apply State.semPost_keeps | apply State.pulseDrive_keeps | apply State.barNext_keeps
    | apply Keeps.each | apply Keeps.ite)

theorem State.barAbort_keeps {s0 : State} (s : State) (b : Nat) (hS : Keeps s0 s) : Keeps s0 (State.barAbort s b) := by
  unfold State.barAbort
  with_reducible repeat' (first
    | assumption | apply State.wr_keeps | apply State.timeFault_keeps | apply State.barNext_keeps)

theorem State.barCount_keeps {s0 : State} (s : State) (b gen : Nat) (hS : Keeps s0 s) : Keeps s0 (State.barCount s b gen) := by
  unfold State.barCount
  with_reducible repeat' (first
    | assumption | apply State.wr_keeps | apply State.inc_keeps | apply State.send_keeps | apply State.setBar_keeps
    | (extract_lets +onlyGivenNames x; clear_value (hx : x = _); refine Keeps.via (s := s0) hx ?_ fun hk => ?_)
    | (extract_lets +onlyGivenNames x; clear_value (hx : x = _); clear hx) | apply Keeps.ite)

theorem execArrive_keeps {s0 : State} (p : Packet) (s : State) (hS : Keeps s0 s) : OutKeeps s0 (execArrive p s) := by
  unfold execArrive
  with_reducible repeat' (first
    | assumption | intro _ | apply State.inc_keeps | apply State.send_keeps | apply State.refuse_keeps | apply fabIn_keeps
    | apply State.dedupSlot_keeps | apply State.barCount_keeps | apply OutKeeps.next
    | (extract_lets +onlyGivenNames x; clear_value (hx : x = _); ((have hy : @Eq FabSt x _ := hx); clear hx; subst hy)) | apply Keeps.ite
    | split | refine OptKeeps.get (by assumption) ?_ | (refine Keeps.same ?_ rfl rfl rfl rfl rfl rfl rfl rfl))

theorem execRelease_keeps {s0 : State} (p : Packet) (x : Arrival) (s : State) (hS : Keeps s0 s) : OutKeeps s0 (execRelease p x s) := by
  unfold execRelease
  with_reducible repeat' (first
    | assumption | intro _ | apply State.wr_keeps | apply State.inc_keeps | apply State.mcastCopies_keeps | apply State.timeFault_keeps
    | apply State.setBar_keeps | apply State.barFire_keeps | apply OutKeeps.next
    | (extract_lets +onlyGivenNames x; clear_value (hx : x = _); refine Keeps.via (s := s0) hx ?_ fun hk => ?_)
    | (extract_lets +onlyGivenNames x; clear_value (hx : x = _); clear hx) | apply OutKeeps.ite)

theorem execBarrierFire_keeps {s0 : State} (b : Nat) (s : State) (hS : Keeps s0 s) : OutKeeps s0 (execBarrierFire b s) := by
  unfold execBarrierFire
  with_reducible repeat' (first
    | assumption | apply State.advanceNs_keeps | apply State.barFire_keeps | apply OutKeeps.next | split)

theorem execBarrierTimeout_keeps {s0 : State} (b : Nat) (s : State) (hS : Keeps s0 s) : OutKeeps s0 (execBarrierTimeout b s) := by
  unfold execBarrierTimeout
  with_reducible repeat' (first
    | assumption | apply State.advance_keeps | apply State.barAbort_keeps | apply OutKeeps.next
    | (extract_lets +onlyGivenNames x; clear_value (hx : x = _); clear hx) | apply OutKeeps.ite)

theorem State.stepTime_keeps {s0 : State} (s : State) (d : Int) (hS : Keeps s0 s) : Keeps s0 (State.stepTime s d) := by
  unfold State.stepTime
  with_reducible repeat' (first
    | assumption | intro _ | exact Keeps.refl _ | apply State.wr_keeps | apply State.meterTicks_keeps | apply State.tickMark_keeps
    | apply State.pulseStep_keeps | apply State.barAbort_keeps | apply Keeps.each | apply Keeps.eachP
    | (extract_lets +onlyGivenNames x; clear_value (hx : x = _); refine Keeps.via (s := s0) hx ?_ fun hk => ?_)
    | (extract_lets +onlyGivenNames x; clear_value (hx : x = _); refine Keeps.viaP (s := s0) hx ?_ fun hk => ?_)
    | (extract_lets +onlyGivenNames x; clear_value (hx : x = _); ((have hy : @Eq TimeSt x _ := hx); clear hx; subst hy))
    | (extract_lets +onlyGivenNames x; clear_value (hx : x = _); refine OptKeeps.via (s := s0) hx ?_ fun hk => ?_)
    | (extract_lets +onlyGivenNames x; clear_value (hx : x = _); clear hx) | apply Keeps.ite | split | dsimp -zeta only
    | (refine Keeps.same ?_ rfl rfl rfl rfl rfl rfl rfl rfl))

theorem State.timeStep_keeps {s0 : State} (s : State) (v : Nat) (hS : Keeps s0 s) : Keeps s0 (State.timeStep s v) := by
  unfold State.timeStep
  with_reducible repeat' (first
    | assumption | apply State.timeFault_keeps | apply State.stepTime_keeps | apply Keeps.ite)

theorem execTimeStep_keeps {s0 : State} (v : Nat) (s : State) (hS : Keeps s0 s) : OutKeeps s0 (execTimeStep v s) := by
  unfold execTimeStep
  with_reducible repeat' (first
    | assumption | apply State.timeStep_keeps | apply OutKeeps.next)

theorem State.applyRate_keeps {s0 : State} (s : State) (r : Int) (hS : Keeps s0 s) : Keeps s0 (State.applyRate s r) := by
  unfold State.applyRate
  with_reducible repeat' (first
    | assumption | apply State.wr_keeps
    | (extract_lets +onlyGivenNames x; clear_value (hx : x = _); ((have hy : @Eq TimeSt x _ := hx); clear hx; subst hy)) | split
    | (refine Keeps.same ?_ rfl rfl rfl rfl rfl rfl rfl rfl))

theorem State.leaveHold_keeps {s0 : State} (s : State) (hS : Keeps s0 s) : Keeps s0 (State.leaveHold s) := by
  unfold State.leaveHold
  with_reducible repeat' (first
    | assumption | apply State.wr_keeps)

theorem State.enterHold_keeps {s0 : State} (s : State) (cause : Nat) (hS : Keeps s0 s) : Keeps s0 (State.enterHold s cause) := by
  unfold State.enterHold
  with_reducible repeat' (first
    | assumption | apply State.wr_keeps | apply State.timeFault_keeps
    | (extract_lets +onlyGivenNames x; clear_value (hx : x = _); refine Keeps.via (s := s0) hx ?_ fun hk => ?_)
    | (extract_lets +onlyGivenNames x; clear_value (hx : x = _); ((have hy : @Eq TimeSt x _ := hx); clear hx; subst hy)) | apply Keeps.ite
    | (refine Keeps.same ?_ rfl rfl rfl rfl rfl rfl rfl rfl))

theorem State.timeRate_keeps {s0 : State} (s : State) (v : Nat) (hS : Keeps s0 s) : Keeps s0 (State.timeRate s v) := by
  unfold State.timeRate
  with_reducible repeat' (first
    | assumption | apply State.inc_keeps | apply State.applyRate_keeps | apply State.leaveHold_keeps
    | (extract_lets +onlyGivenNames x; clear_value (hx : x = _); refine Keeps.via (s := s0) hx ?_ fun hk => ?_)
    | (extract_lets +onlyGivenNames x; clear_value (hx : x = _); ((have hy : @Eq TimeSt x _ := hx); clear hx; subst hy))
    | (extract_lets +onlyGivenNames x; clear_value (hx : x = _); clear hx) | apply Keeps.ite
    | (refine Keeps.same ?_ rfl rfl rfl rfl rfl rfl rfl rfl))

theorem execTimeRate_keeps {s0 : State} (v : Nat) (s : State) (hS : Keeps s0 s) : OutKeeps s0 (execTimeRate v s) := by
  unfold execTimeRate
  with_reducible repeat' (first
    | assumption | apply State.timeRate_keeps | apply OutKeeps.next)

theorem State.timeCtrl_keeps {s0 : State} (s : State) (v : Nat) (hS : Keeps s0 s) : Keeps s0 (State.timeCtrl s v) := by
  unfold State.timeCtrl
  with_reducible repeat' (first
    | assumption | intro _ | exact Keeps.refl _ | apply State.setReg_keeps | apply State.wr_keeps | apply State.badAccess_keeps
    | apply State.leaveHold_keeps | apply State.enterHold_keeps | exact OptKeeps.none
    | (extract_lets +onlyGivenNames x; clear_value (hx : x = _); refine Keeps.via (s := s0) hx ?_ fun hk => ?_)
    | (extract_lets +onlyGivenNames x; clear_value (hx : x = _); refine Keeps.viaP (s := s0) hx ?_ fun hk => ?_)
    | (extract_lets +onlyGivenNames x; clear_value (hx : x = _); ((have hy : @Eq TimeSt x _ := hx); clear hx; subst hy))
    | (extract_lets +onlyGivenNames x; clear_value (hx : x = _); refine OptKeeps.via (s := s0) hx ?_ fun hk => ?_)
    | (extract_lets +onlyGivenNames x; clear_value (hx : x = _); clear hx) | apply Keeps.ite | apply OptKeeps.ite | split
    | dsimp -zeta only | (refine Keeps.same ?_ rfl rfl rfl rfl rfl rfl rfl rfl))

theorem execTimeSource_keeps {s0 : State} (source servoMgr fabPort : Nat) (s : State) (hS : Keeps s0 s) : OutKeeps s0 (execTimeSource source servoMgr fabPort s) := by
  unfold execTimeSource
  with_reducible repeat' (first
    | assumption | apply State.timeCtrl_keeps | apply OutKeeps.next)

theorem execHoldReq_keeps {s0 : State} (v : Bool) (s : State) (hS : Keeps s0 s) : OutKeeps s0 (execHoldReq v s) := by
  unfold execHoldReq
  with_reducible repeat' (first
    | assumption | apply State.timeCtrl_keeps | apply OutKeeps.next)

theorem execServoWatchdog_keeps {s0 : State} (s : State) (hS : Keeps s0 s) : OutKeeps s0 (execServoWatchdog s) := by
  unfold execServoWatchdog
  with_reducible repeat' (first
    | assumption | apply State.advance_keeps | apply State.enterHold_keeps | apply OutKeeps.next
    | (extract_lets +onlyGivenNames x; clear_value (hx : x = _); clear hx) | apply OutKeeps.ite)

theorem State.phaseAlarm_keeps {s0 : State} (s : State) (err : Nat) (hS : Keeps s0 s) : Keeps s0 (State.phaseAlarm s err) := by
  unfold State.phaseAlarm
  with_reducible repeat' (first
    | assumption | intro _ | exact Keeps.refl _ | apply State.wr_keeps | apply State.timeFault_keeps
    | (extract_lets +onlyGivenNames x; clear_value (hx : x = _); refine Keeps.via (s := s0) hx ?_ fun hk => ?_)
    | (extract_lets +onlyGivenNames x; clear_value (hx : x = _); refine Keeps.viaP (s := s0) hx ?_ fun hk => ?_)
    | (extract_lets +onlyGivenNames x; clear_value (hx : x = _); refine OptKeeps.via (s := s0) hx ?_ fun hk => ?_)
    | (extract_lets +onlyGivenNames x; clear_value (hx : x = _); clear hx) | apply Keeps.ite | split | dsimp -zeta only)

theorem execPpsEdge_keeps {s0 : State} (s : State) (hS : Keeps s0 s) : OutKeeps s0 (execPpsEdge s) := by
  unfold execPpsEdge
  with_reducible repeat' (first
    | assumption | apply State.wr_keeps | apply State.incw_keeps | apply OutKeeps.next
    | (extract_lets +onlyGivenNames x; clear_value (hx : x = _); ((have hy : @Eq TimeSt x _ := hx); clear hx; subst hy))
    | (refine Keeps.same ?_ rfl rfl rfl rfl rfl rfl rfl rfl))

theorem execRef10Count_keeps {s0 : State} (cycles : Nat) (s : State) (hS : Keeps s0 s) : OutKeeps s0 (execRef10Count cycles s) := by
  unfold execRef10Count
  with_reducible repeat' (first
    | assumption | apply State.wr_keeps | apply State.advance_keeps | apply State.timeFault_keeps | apply OutKeeps.next
    | (extract_lets +onlyGivenNames x; clear_value (hx : x = _); refine Keeps.via (s := s0) hx ?_ fun hk => ?_)
    | (extract_lets +onlyGivenNames x; clear_value (hx : x = _); ((have hy : @Eq TimeSt x _ := hx); clear hx; subst hy))
    | apply OutKeeps.ite | (refine Keeps.same ?_ rfl rfl rfl rfl rfl rfl rfl rfl))

theorem execPpsLost_keeps {s0 : State} (s : State) (hS : Keeps s0 s) : OutKeeps s0 (execPpsLost s) := by
  unfold execPpsLost
  with_reducible repeat' (first
    | assumption | apply State.wr_keeps | apply State.advance_keeps | apply State.timeFault_keeps | apply OutKeeps.next
    | apply OutKeeps.ite)

theorem execRef10Lost_keeps {s0 : State} (s : State) (hS : Keeps s0 s) : OutKeeps s0 (execRef10Lost s) := by
  unfold execRef10Lost
  with_reducible repeat' (first
    | assumption | apply State.wr_keeps | apply State.advance_keeps | apply State.timeFault_keeps | apply OutKeeps.next
    | apply OutKeeps.ite)

theorem State.fabFollow_keeps {s0 : State} (s : State) (o : Int) (hS : Keeps s0 s) : Keeps s0 (State.fabFollow s o) := by
  unfold State.fabFollow
  with_reducible repeat' (first
    | assumption | apply State.wr_keeps | apply State.took_keeps | apply State.applyRate_keeps | apply State.phaseAlarm_keeps
    | (extract_lets +onlyGivenNames x; clear_value (hx : x = _); ((have hy : @Eq TimeSt x _ := hx); clear hx; subst hy)) | apply Keeps.ite
    | split | (refine Keeps.same ?_ rfl rfl rfl rfl rfl rfl rfl rfl))

theorem State.exchange_keeps {s0 : State} (s : State) (port : Nat) (heard : Int) (hS : Keeps s0 s) : Keeps s0 (State.exchange s port heard) := by
  unfold State.exchange
  with_reducible repeat' (first
    | assumption | (refine Keeps.same ?_ rfl rfl rfl rfl rfl rfl rfl rfl))

theorem execTimeExchange_keeps {s0 : State} (port : Nat) (t1 t2 t3 : Int) (hops : Nat) (hold : Bool) (s : State) (hS : Keeps s0 s) : OutKeeps s0 (execTimeExchange port t1 t2 t3 hops hold s) := by
  unfold execTimeExchange
  with_reducible repeat' (first
    | assumption | apply State.wr_keeps | apply State.exchange_keeps | apply State.stepTime_keeps | apply State.leaveHold_keeps | apply State.fabFollow_keeps
    | apply OutKeeps.next | (extract_lets +onlyGivenNames x; clear_value (hx : x = _); refine Keeps.via (s := s0) hx ?_ fun hk => ?_)
    | (extract_lets +onlyGivenNames x; clear_value (hx : x = _); ((have hy : @Eq TimeSt x _ := hx); clear hx; subst hy))
    | (extract_lets +onlyGivenNames x; clear_value (hx : x = _); clear hx) | apply Keeps.ite | apply OutKeeps.ite | split
    | (refine Keeps.same ?_ rfl rfl rfl rfl rfl rfl rfl rfl))

theorem execFabricHoldover_keeps {s0 : State} (failed : Bool) (s : State) (hS : Keeps s0 s) : OutKeeps s0 (execFabricHoldover failed s) := by
  unfold execFabricHoldover
  with_reducible repeat' (first
    | assumption | apply State.advance_keeps | apply State.enterHold_keeps | apply OutKeeps.next | apply Keeps.ite | apply OutKeeps.ite)

theorem execUnitTakeover_keeps {s0 : State} (parity : Bool) (s : State) (hS : Keeps s0 s) : OutKeeps s0 (execUnitTakeover parity s) := by
  unfold execUnitTakeover
  with_reducible repeat' (first
    | assumption | intro _ | exact Keeps.refl _ | apply State.wr_keeps | apply State.advance_keeps | apply State.timeFault_keeps
    | apply OutKeeps.next | (extract_lets +onlyGivenNames x; clear_value (hx : x = _); refine Keeps.via (s := s0) hx ?_ fun hk => ?_)
    | (extract_lets +onlyGivenNames x; clear_value (hx : x = _); refine Keeps.viaP (s := s0) hx ?_ fun hk => ?_)
    | (extract_lets +onlyGivenNames x; clear_value (hx : x = _); refine OptKeeps.via (s := s0) hx ?_ fun hk => ?_)
    | (extract_lets +onlyGivenNames x; clear_value (hx : x = _); clear hx) | apply Keeps.ite | apply OutKeeps.ite | split
    | dsimp -zeta only)

theorem execUnitMismatch_keeps {s0 : State} (s : State) (hS : Keeps s0 s) : OutKeeps s0 (execUnitMismatch s) := by
  unfold execUnitMismatch
  with_reducible repeat' (first
    | assumption | intro _ | exact Keeps.refl _ | apply State.wr_keeps | apply State.timeFault_keeps | apply OutKeeps.next
    | apply Keeps.ite | apply OutKeeps.ite | split | dsimp -zeta only)

end Sys2Proof.Machine
end

