-- ==== Sys2Proof/Laws/KeepsManagement.lean ====
section
/-! SUPPORT. Every operation of Machine/Management.lean keeps what Keeps (Safety.lean) says. -/

namespace Sys2Proof.Machine

theorem State.modFlash_keeps {s0 : State} (s : State) (f : MgtSt → MgtSt) (hf : (f s.mgt).staging = s.mgt.staging) (h : Keeps s0 s) :
    Keeps s0 (s.modFlash f) := Keeps.same h rfl rfl rfl rfl rfl rfl rfl hf

/-- A write of the flash that keeps the canonical form of the staging slot. -/
theorem State.modFlash_staging {s0 : State} (s : State) (f : MgtSt → MgtSt) (hf : Mem.wf s.mgt.staging = true → Mem.wf (f s.mgt).staging = true)
    (h : Keeps s0 s) : Keeps s0 (s.modFlash f) := Keeps.upd h (Nat.le_refl _) id id id id hf

theorem State.logEvent_keeps {s0 : State} (s : State) (event args : Nat) (hS : Keeps s0 s) : Keeps s0 (State.logEvent s event args) := by
  unfold State.logEvent
  with_reducible repeat' (first
    | assumption | intro _ | exact Keeps.refl _ | refine State.modFlash_keeps _ _ rfl ?_
    | (extract_lets +onlyGivenNames x; clear_value (hx : x = _); refine Keeps.via (s := s0) hx ?_ fun hk => ?_)
    | (extract_lets +onlyGivenNames x; clear_value (hx : x = _); refine Keeps.viaP (s := s0) hx ?_ fun hk => ?_)
    | (extract_lets +onlyGivenNames x; clear_value (hx : x = _); refine OptKeeps.via (s := s0) hx ?_ fun hk => ?_)
    | (extract_lets +onlyGivenNames x; clear_value (hx : x = _); clear hx) | apply Keeps.ite | split | dsimp -zeta only
    | (refine Keeps.same ?_ rfl rfl rfl rfl rfl rfl rfl rfl))

theorem State.mgtFault_keeps {s0 : State} (s : State) (code arg0 arg1 : Nat) (event : Option Nat) (hS : Keeps s0 s) : Keeps s0 (State.mgtFault s code arg0 arg1 event) := by
  unfold State.mgtFault
  with_reducible repeat' (first
    | assumption | apply State.fault_keeps | apply State.logEvent_keeps | split)

theorem State.respond_keeps {s0 : State} (s : State) (status body : Nat) (hS : Keeps s0 s) : Keeps s0 (State.respond s status body) := by
  unfold State.respond
  with_reducible repeat' (first
    | assumption | intro _ | apply State.wr_keeps | refine State.modMgt_keeps _ _ rfl ?_ | apply Keeps.each | split)

theorem mboxRow_keeps {s0 : State} (op : Nat) (s : State) (body : State → Nat → State) (hbody : ∀ a0 a1, Keeps s0 a0 → Keeps s0 (body a0 a1)) (hS : Keeps s0 s) : OutKeeps s0 (mboxRow op s body) := by
  unfold mboxRow
  with_reducible repeat' (first
    | assumption | apply hbody | apply OutKeeps.next | split)

theorem State.mboxSubmit_keeps {s0 : State} (s : State) (seq : Nat) (hS : Keeps s0 s) : Keeps s0 (State.mboxSubmit s seq) := by
  unfold State.mboxSubmit
  with_reducible repeat' (first
    | assumption | refine State.modMgt_keeps _ _ rfl ?_ | apply State.badAccess_keeps | apply Keeps.ite)

theorem State.mboxTake_keeps {s0 : State} (s : State) (hS : Keeps s0 s) : Keeps s0 (State.mboxTake s) := by
  unfold State.mboxTake
  with_reducible repeat' (first
    | assumption | apply State.wr_keeps | refine State.modMgt_keeps _ _ rfl ?_ | apply State.respond_keeps
    | (extract_lets +onlyGivenNames x; clear_value (hx : x = _); refine Keeps.via (s := s0) hx ?_ fun hk => ?_)
    | (extract_lets +onlyGivenNames x; clear_value (hx : x = _); clear hx) | apply Keeps.ite | split)

theorem State.setLive_keeps {s0 : State} (s : State) (id v : Nat) (hS : Keeps s0 s) : Keeps s0 (State.setLive s id v) := by
  unfold State.setLive
  with_reducible repeat' (first
    | assumption | apply State.wr_keeps | refine State.modMgt_keeps _ _ rfl ?_ | split)

theorem State.readSettings_keeps {s0 : State} (s : State) (trial : Bool) (hS : Keeps s0 s) : Keeps s0 (State.readSettings s trial) := by
  unfold State.readSettings
  with_reducible repeat' (first
    | assumption | intro _ | exact Keeps.refl _ | refine State.modMgt_keeps _ _ rfl ?_ | refine State.modFlash_keeps _ _ rfl ?_
    | apply State.logEvent_keeps | apply State.mgtFault_keeps | apply State.setLive_keeps | apply Keeps.each | apply Keeps.eachP
    | exact OptKeeps.none | (extract_lets +onlyGivenNames x; clear_value (hx : x = _); refine Keeps.via (s := s0) hx ?_ fun hk => ?_)
    | (extract_lets +onlyGivenNames x; clear_value (hx : x = _); refine Keeps.viaP (s := s0) hx ?_ fun hk => ?_)
    | (extract_lets +onlyGivenNames x; clear_value (hx : x = _); refine OptKeeps.via (s := s0) hx ?_ fun hk => ?_)
    | (extract_lets +onlyGivenNames x; clear_value (hx : x = _); clear hx) | apply Keeps.ite | apply OptKeeps.ite | split
    | dsimp -zeta only | (refine Keeps.same ?_ rfl rfl rfl rfl rfl rfl rfl rfl))

theorem State.fwState_keeps {s0 : State} (s : State) (v : Nat) (hS : Keeps s0 s) : Keeps s0 (State.fwState s v) := by
  unfold State.fwState
  with_reducible repeat' (first
    | assumption | apply State.wr_keeps | apply State.logEvent_keeps | apply Keeps.ite)

theorem State.runImage_keeps {s0 : State} (s : State) (i : Img) (hS : Keeps s0 s) : Keeps s0 (State.runImage s i) := by
  unfold State.runImage
  with_reducible repeat' (first
    | assumption | apply State.wr_keeps | refine State.modMgt_keeps _ _ rfl ?_)

theorem State.startTrial_keeps {s0 : State} (s : State) (i : Img) (hS : Keeps s0 s) : Keeps s0 (State.startTrial s i) := by
  unfold State.startTrial
  with_reducible repeat' (first
    | assumption | intro _ | exact Keeps.refl _ | apply State.wr_keeps | refine State.modMgt_keeps _ _ rfl ?_ | apply State.fwState_keeps
    | apply State.runImage_keeps
    | (extract_lets +onlyGivenNames x; clear_value (hx : x = _); refine Keeps.via (s := s0) hx ?_ fun hk => ?_)
    | (extract_lets +onlyGivenNames x; clear_value (hx : x = _); refine Keeps.viaP (s := s0) hx ?_ fun hk => ?_)
    | (extract_lets +onlyGivenNames x; clear_value (hx : x = _); refine OptKeeps.via (s := s0) hx ?_ fun hk => ?_)
    | (extract_lets +onlyGivenNames x; clear_value (hx : x = _); clear hx) | dsimp -zeta only
    | (refine Keeps.same ?_ rfl rfl rfl rfl rfl rfl rfl rfl))

theorem State.handover_keeps {s0 : State} (s : State) (hS : Keeps s0 s) : Keeps s0 (State.handover s) := by
  unfold State.handover
  with_reducible repeat' (first
    | assumption | apply State.wr_keeps | apply State.respond_keeps | apply State.readSettings_keeps | apply State.startTrial_keeps
    | (extract_lets +onlyGivenNames x; clear_value (hx : x = _); refine Keeps.via (s := s0) hx ?_ fun hk => ?_) | split)

theorem State.fallBack_keeps {s0 : State} (s : State) (cause : Nat) (failed : Bool) (hS : Keeps s0 s) : Keeps s0 (State.fallBack s cause failed) := by
  unfold State.fallBack
  with_reducible repeat' (first
    | assumption | intro _ | exact Keeps.refl _ | apply State.wr_keeps | refine State.modMgt_keeps _ _ rfl ?_ | apply State.advance_keeps
    | apply State.mgtFault_keeps | apply State.setLive_keeps | apply State.fwState_keeps | apply State.runImage_keeps | apply Keeps.each
    | apply Keeps.eachP | apply OptKeeps.some | apply OutKeeps.next
    | (extract_lets +onlyGivenNames x; clear_value (hx : x = _); refine Keeps.via (s := s0) hx ?_ fun hk => ?_)
    | (extract_lets +onlyGivenNames x; clear_value (hx : x = _); refine Keeps.viaP (s := s0) hx ?_ fun hk => ?_)
    | (extract_lets +onlyGivenNames x; clear_value (hx : x = _); refine OptKeeps.via (s := s0) hx ?_ fun hk => ?_)
    | (extract_lets +onlyGivenNames x; clear_value (hx : x = _); clear hx) | apply Keeps.ite | apply OptKeeps.ite | apply OutKeeps.ite
    | split | dsimp -zeta only | exact OptKeeps.get rfl (by assumption) | refine OptKeeps.get (by assumption) ?_
    | (refine Keeps.same ?_ rfl rfl rfl rfl rfl rfl rfl rfl))

theorem State.powerStep_keeps {s0 : State} (s : State) (hS : Keeps s0 s) : Keeps s0 (State.powerStep s) := by
  unfold State.powerStep
  with_reducible repeat' (first
    | assumption | intro _ | apply State.wr_keeps | refine State.modMgt_keeps _ _ rfl ?_ | apply State.logEvent_keeps
    | apply State.mgtFault_keeps | apply Keeps.each
    | (extract_lets +onlyGivenNames x; clear_value (hx : x = _); refine Keeps.via (s := s0) hx ?_ fun hk => ?_)
    | (extract_lets +onlyGivenNames x; clear_value (hx : x = _); clear hx) | apply Keeps.ite)

theorem State.snapshot_keeps {s0 : State} (s : State) (hS : Keeps s0 s) : Keeps s0 (State.snapshot s) := by
  unfold State.snapshot
  with_reducible repeat' (first
    | assumption | refine State.modMgt_keeps _ _ rfl ?_)

theorem State.ptpSend_keeps {s0 : State} (s : State) (m : Nat) (link : Bool) (b : List Nat) (hS : Keeps s0 s) : Keeps s0 (State.ptpSend s m link b) := by
  unfold State.ptpSend
  extract_lets put mark
  have hp : ∀ t b, Keeps s0 t → Keeps s0 (put t b) := fun t b h => Keeps.same h rfl rfl rfl rfl rfl rfl rfl rfl
  have hm : ∀ k v, Keeps s0 (mark k v) := fun k v => State.modMgt_keeps _ _ rfl hS
  clear_value put mark
  split
  · exact hS
  · split
    · exact hp _ _ (hm _ _)
    · exact hp _ _ (hm _ _)
    · split
      · exact hp _ _ hS
      · exact hS
    · exact hp _ _ hS

theorem State.ptpAgent_keeps {s0 : State} (s : State) (x : Loop) (hS : Keeps s0 s) : Keeps s0 (State.ptpAgent s x) := by
  unfold State.ptpAgent
  with_reducible repeat' (first
    | assumption | intro _ | exact Keeps.refl _ | apply State.wr_keeps | refine State.modMgt_keeps _ _ rfl ?_ | apply State.send_keeps
    | apply State.timeRate_keeps | apply State.phaseAlarm_keeps | apply State.ptpSend_keeps | apply Keeps.each | apply Keeps.eachP
    | apply OptKeeps.some | exact OptKeeps.none
    | (extract_lets +onlyGivenNames x; clear_value (hx : x = _); refine Keeps.via (s := s0) hx ?_ fun hk => ?_)
    | (extract_lets +onlyGivenNames x; clear_value (hx : x = _); refine Keeps.viaP (s := s0) hx ?_ fun hk => ?_)
    | (extract_lets +onlyGivenNames x; clear_value (hx : x = _); ((have hy : @Eq EthSt x _ := hx); clear hx; subst hy))
    | (extract_lets +onlyGivenNames x; clear_value (hx : x = _); refine OptKeeps.via (s := s0) hx ?_ fun hk => ?_)
    | (extract_lets +onlyGivenNames x; clear_value (hx : x = _); clear hx) | apply Keeps.ite | apply OptKeeps.ite | split
    | dsimp -zeta only | exact OptKeeps.get rfl (by assumption) | refine OptKeeps.get (by assumption) ?_
    | refine Keeps.ofMk (by assumption) ?_ | (refine Keeps.same ?_ rfl rfl rfl rfl rfl rfl rfl rfl))

theorem State.loopBoundary_keeps {s0 : State} (s : State) (overrun : Bool) (hS : Keeps s0 s) : Keeps s0 (State.loopBoundary s overrun) := by
  unfold State.loopBoundary
  with_reducible repeat' (first
    | assumption | apply State.inc_keeps | apply State.incw_keeps | refine State.modMgt_keeps _ _ rfl ?_ | apply State.advance_keeps
    | apply Keeps.ite)

theorem State.loopTakes_keeps {s0 : State} (s : State) (ready shadow : Bool) (hS : Keeps s0 s) : Keeps s0 (State.loopTakes s ready shadow) := by
  unfold State.loopTakes
  with_reducible repeat' (first
    | assumption | intro _ | apply State.wr_keeps | refine State.modMgt_keeps _ _ rfl ?_ | apply State.setLive_keeps
    | apply State.handover_keeps | apply Keeps.each | apply Keeps.ite)

theorem State.loopSensors_keeps {s0 : State} (s : State) (x : Loop) (hS : Keeps s0 s) : Keeps s0 (State.loopSensors s x) := by
  unfold State.loopSensors
  with_reducible repeat' (first
    | assumption | intro _ | apply State.wr_keeps | apply State.incw_keeps | refine State.modMgt_keeps _ _ rfl ?_ | apply Keeps.each)

theorem execManagementLoop_keeps {s0 : State} (x : Loop) (s : State) (hS : Keeps s0 s) : OutKeeps s0 (execManagementLoop x s) := by
  unfold execManagementLoop
  with_reducible repeat' (first
    | assumption | intro _ | exact Keeps.refl _ | apply State.flushGather_keeps | apply State.mboxTake_keeps | apply State.powerStep_keeps
    | apply State.snapshot_keeps | apply State.ptpAgent_keeps | apply State.loopBoundary_keeps | apply State.loopTakes_keeps
    | apply State.loopSensors_keeps | apply OutKeeps.next | apply Keeps.ite | apply OutKeeps.ite | split | dsimp -zeta only)

theorem execWiolizTakeover_keeps {s0 : State} (s : State) (hS : Keeps s0 s) : OutKeeps s0 (execWiolizTakeover s) := by
  unfold execWiolizTakeover
  with_reducible repeat' (first
    | assumption | intro _ | exact Keeps.refl _ | apply State.wr_keeps | refine State.modMgt_keeps _ _ rfl ?_ | apply State.advance_keeps
    | apply State.logEvent_keeps | apply State.fallBack_keeps | apply OutKeeps.next
    | (extract_lets +onlyGivenNames x; clear_value (hx : x = _); refine Keeps.via (s := s0) hx ?_ fun hk => ?_)
    | (extract_lets +onlyGivenNames x; clear_value (hx : x = _); refine Keeps.viaP (s := s0) hx ?_ fun hk => ?_)
    | (extract_lets +onlyGivenNames x; clear_value (hx : x = _); refine OptKeeps.via (s := s0) hx ?_ fun hk => ?_)
    | (extract_lets +onlyGivenNames x; clear_value (hx : x = _); clear hx) | apply Keeps.ite | apply OutKeeps.ite | split
    | dsimp -zeta only | (refine Keeps.same ?_ rfl rfl rfl rfl rfl rfl rfl rfl))

theorem execMboxNop_keeps {s0 : State} (s : State) (hS : Keeps s0 s) : OutKeeps s0 (execMboxNop s) := by
  unfold execMboxNop
  with_reducible repeat' (first
    | assumption | intro _ | apply State.respond_keeps | apply mboxRow_keeps)

theorem State.stageClear_keeps {s0 : State} (s : State) (h : Keeps s0 s) : Keeps s0 s.stageClear :=
  State.modFlash_staging _ _ (fun _ => rfl) h

theorem State.stageWrite_keeps {s0 : State} (s : State) (off src n : Nat) (h : Keeps s0 s) : Keeps s0 (State.stageWrite s off src n) :=
  State.modFlash_staging _ _ (Mem.wf_wrBytes _ _) h

theorem execStage_keeps {s0 : State} (flashOk : Bool) (s : State) (hS : Keeps s0 s) : OutKeeps s0 (execStage flashOk s) := by
  unfold execStage
  with_reducible repeat' (first
    | assumption | intro _ | exact Keeps.refl _ | apply State.wr_keeps | apply State.countPoison_keeps | apply State.respond_keeps
    | apply mboxRow_keeps | apply State.fwState_keeps | apply State.stageClear_keeps | apply State.stageWrite_keeps | apply OptKeeps.some
    | exact OptKeeps.none | (extract_lets +onlyGivenNames x; clear_value (hx : x = _); refine Keeps.via (s := s0) hx ?_ fun hk => ?_)
    | (extract_lets +onlyGivenNames x; clear_value (hx : x = _); refine Keeps.viaP (s := s0) hx ?_ fun hk => ?_)
    | (extract_lets +onlyGivenNames x; clear_value (hx : x = _); refine OptKeeps.via (s := s0) hx ?_ fun hk => ?_)
    | (extract_lets +onlyGivenNames x; clear_value (hx : x = _); clear hx) | apply Keeps.ite | apply OptKeeps.ite | split
    | dsimp -zeta only | exact OptKeeps.get rfl (by assumption) | refine OptKeeps.get (by assumption) ?_
    | refine Keeps.ofMk (by assumption) ?_ | (refine Keeps.same ?_ rfl rfl rfl rfl rfl rfl rfl rfl))

theorem execVerify_keeps {s0 : State} (s : State) (hS : Keeps s0 s) : OutKeeps s0 (execVerify s) := by
  unfold execVerify
  with_reducible repeat' (first
    | assumption | intro _ | refine State.modMgt_keeps _ _ rfl ?_ | apply State.respond_keeps | apply mboxRow_keeps
    | apply State.fwState_keeps | (extract_lets +onlyGivenNames x; clear_value (hx : x = _); clear hx) | apply Keeps.ite | split)

theorem execActivate_keeps {s0 : State} (s : State) (hS : Keeps s0 s) : OutKeeps s0 (execActivate s) := by
  unfold execActivate
  with_reducible repeat' (first
    | assumption | intro _ | apply State.wr_keeps | apply State.respond_keeps | apply mboxRow_keeps | apply State.fwState_keeps
    | (extract_lets +onlyGivenNames x; clear_value (hx : x = _); clear hx) | apply Keeps.ite)

theorem execReject_keeps {s0 : State} (s : State) (hS : Keeps s0 s) : OutKeeps s0 (execReject s) := by
  unfold execReject
  with_reducible repeat' (first
    | assumption | intro _ | apply State.respond_keeps | apply mboxRow_keeps | apply State.fallBack_keeps | apply Keeps.ite)

theorem execConfirm_keeps {s0 : State} (healthy : Bool) (s : State) (hS : Keeps s0 s) : OutKeeps s0 (execConfirm healthy s) := by
  unfold execConfirm
  with_reducible repeat' (first
    | assumption | intro _ | exact Keeps.refl _ | apply State.wr_keeps | refine State.modFlash_keeps _ _ rfl ?_
    | apply State.fwState_keeps | apply Keeps.each | apply Keeps.eachP | apply OutKeeps.next
    | (extract_lets +onlyGivenNames x; clear_value (hx : x = _); refine Keeps.via (s := s0) hx ?_ fun hk => ?_)
    | (extract_lets +onlyGivenNames x; clear_value (hx : x = _); refine Keeps.viaP (s := s0) hx ?_ fun hk => ?_)
    | (extract_lets +onlyGivenNames x; clear_value (hx : x = _); refine OptKeeps.via (s := s0) hx ?_ fun hk => ?_)
    | (extract_lets +onlyGivenNames x; clear_value (hx : x = _); clear hx) | apply Keeps.ite | apply OutKeeps.ite | split
    | dsimp -zeta only | (refine Keeps.same ?_ rfl rfl rfl rfl rfl rfl rfl rfl))

theorem execTrialTimeout_keeps {s0 : State} (s : State) (hS : Keeps s0 s) : OutKeeps s0 (execTrialTimeout s) := by
  unfold execTrialTimeout
  with_reducible repeat' (first
    | assumption | apply State.advance_keeps | apply State.fallBack_keeps | apply OutKeeps.next | apply OutKeeps.ite)

theorem State.cfgShow_keeps {s0 : State} (s : State) (hS : Keeps s0 s) : Keeps s0 (State.cfgShow s) := by
  unfold State.cfgShow
  with_reducible repeat' (first
    | assumption | apply State.wr_keeps)

theorem State.cfgPend_keeps {s0 : State} (s : State) (c : Cfg) (revert flashOk : Bool) (hS : Keeps s0 s) : Keeps s0 (State.cfgPend s c revert flashOk) := by
  unfold State.cfgPend
  with_reducible repeat' (first
    | assumption | intro _ | exact Keeps.refl _ | refine State.modFlash_keeps _ _ rfl ?_ | apply State.respond_keeps
    | apply State.cfgShow_keeps | apply OptKeeps.some
    | (extract_lets +onlyGivenNames x; clear_value (hx : x = _); refine Keeps.via (s := s0) hx ?_ fun hk => ?_)
    | (extract_lets +onlyGivenNames x; clear_value (hx : x = _); refine Keeps.viaP (s := s0) hx ?_ fun hk => ?_)
    | (extract_lets +onlyGivenNames x; clear_value (hx : x = _); refine OptKeeps.via (s := s0) hx ?_ fun hk => ?_)
    | (extract_lets +onlyGivenNames x; clear_value (hx : x = _); clear hx) | apply Keeps.ite | apply OptKeeps.ite | split
    | dsimp -zeta only | exact OptKeeps.get rfl (by assumption) | refine OptKeeps.get (by assumption) ?_
    | (refine Keeps.same ?_ rfl rfl rfl rfl rfl rfl rfl rfl))

theorem execCfgInstall_keeps {s0 : State} (flashOk : Bool) (s : State) (hS : Keeps s0 s) : OutKeeps s0 (execCfgInstall flashOk s) := by
  unfold execCfgInstall
  with_reducible repeat' (first
    | assumption | intro _ | exact Keeps.refl _ | apply State.countPoison_keeps | apply State.mgtFault_keeps | apply State.respond_keeps
    | apply mboxRow_keeps | apply State.cfgPend_keeps | apply OptKeeps.some | exact OptKeeps.none
    | (extract_lets +onlyGivenNames x; clear_value (hx : x = _); refine Keeps.via (s := s0) hx ?_ fun hk => ?_)
    | (extract_lets +onlyGivenNames x; clear_value (hx : x = _); refine Keeps.viaP (s := s0) hx ?_ fun hk => ?_)
    | (extract_lets +onlyGivenNames x; clear_value (hx : x = _); refine OptKeeps.via (s := s0) hx ?_ fun hk => ?_)
    | (extract_lets +onlyGivenNames x; clear_value (hx : x = _); clear hx) | apply Keeps.ite | apply OptKeeps.ite | split
    | dsimp -zeta only | exact OptKeeps.get rfl (by assumption) | refine OptKeeps.get (by assumption) ?_
    | refine Keeps.ofMk (by assumption) ?_ | (refine Keeps.same ?_ rfl rfl rfl rfl rfl rfl rfl rfl))

theorem execCfgRetire_keeps {s0 : State} (flashOk : Bool) (s : State) (hS : Keeps s0 s) : OutKeeps s0 (execCfgRetire flashOk s) := by
  unfold execCfgRetire
  with_reducible repeat' (first
    | assumption | intro _ | apply State.respond_keeps | apply mboxRow_keeps | apply State.cfgPend_keeps
    | (extract_lets +onlyGivenNames x; clear_value (hx : x = _); clear hx) | apply Keeps.ite)

theorem execCfgRevert_keeps {s0 : State} (flashOk : Bool) (s : State) (hS : Keeps s0 s) : OutKeeps s0 (execCfgRevert flashOk s) := by
  unfold execCfgRevert
  with_reducible repeat' (first
    | assumption | intro _ | apply State.respond_keeps | apply mboxRow_keeps | apply State.cfgPend_keeps | apply Keeps.ite | split)

theorem execCfgCancel_keeps {s0 : State} (flashOk : Bool) (s : State) (hS : Keeps s0 s) : OutKeeps s0 (execCfgCancel flashOk s) := by
  unfold execCfgCancel
  with_reducible repeat' (first
    | assumption | intro _ | exact Keeps.refl _ | refine State.modFlash_keeps _ _ rfl ?_ | apply State.respond_keeps | apply mboxRow_keeps
    | apply State.cfgShow_keeps | exact OptKeeps.none
    | (extract_lets +onlyGivenNames x; clear_value (hx : x = _); refine Keeps.via (s := s0) hx ?_ fun hk => ?_)
    | (extract_lets +onlyGivenNames x; clear_value (hx : x = _); refine Keeps.viaP (s := s0) hx ?_ fun hk => ?_)
    | (extract_lets +onlyGivenNames x; clear_value (hx : x = _); refine OptKeeps.via (s := s0) hx ?_ fun hk => ?_)
    | (extract_lets +onlyGivenNames x; clear_value (hx : x = _); clear hx) | apply Keeps.ite | apply OptKeeps.ite | split
    | dsimp -zeta only | (refine Keeps.same ?_ rfl rfl rfl rfl rfl rfl rfl rfl))

theorem execAttest_keeps {s0 : State} (s : State) (hS : Keeps s0 s) : OutKeeps s0 (execAttest s) := by
  unfold execAttest
  with_reducible repeat' (first
    | assumption | intro _ | exact Keeps.refl _ | apply State.took_keeps | apply State.countPoison_keeps | apply State.stBytes_keeps
    | apply State.logEvent_keeps | apply State.respond_keeps | apply mboxRow_keeps | apply OptKeeps.some | apply OptKeeps.map
    | exact OptKeeps.none | (extract_lets +onlyGivenNames x; clear_value (hx : x = _); refine Keeps.via (s := s0) hx ?_ fun hk => ?_)
    | (extract_lets +onlyGivenNames x; clear_value (hx : x = _); refine Keeps.viaP (s := s0) hx ?_ fun hk => ?_)
    | (extract_lets +onlyGivenNames x; clear_value (hx : x = _); refine OptKeeps.via (s := s0) hx ?_ fun hk => ?_)
    | (extract_lets +onlyGivenNames x; clear_value (hx : x = _); clear hx) | apply Keeps.ite | apply OptKeeps.ite | split
    | dsimp -zeta only | exact OptKeeps.get rfl (by assumption) | refine OptKeeps.get (by assumption) ?_
    | refine Keeps.ofMk (by assumption) ?_ | (refine Keeps.same ?_ rfl rfl rfl rfl rfl rfl rfl rfl))

theorem execCertRead_keeps {s0 : State} (s : State) (hS : Keeps s0 s) : OutKeeps s0 (execCertRead s) := by
  unfold execCertRead
  with_reducible repeat' (first
    | assumption | intro _ | apply State.stBytes_keeps | apply State.respond_keeps | apply mboxRow_keeps
    | (extract_lets +onlyGivenNames x; clear_value (hx : x = _); clear hx) | split)

theorem execLogRead_keeps {s0 : State} (s : State) (hS : Keeps s0 s) : OutKeeps s0 (execLogRead s) := by
  unfold execLogRead
  with_reducible repeat' (first
    | assumption | intro _ | apply State.stBytes_keeps | apply State.respond_keeps | apply mboxRow_keeps
    | (extract_lets +onlyGivenNames x; clear_value (hx : x = _); clear hx) | apply Keeps.ite | split)

theorem State.dormant_keeps {s0 : State} (s : State) (hS : Keeps s0 s) : Keeps s0 (State.dormant s) := by
  unfold State.dormant
  with_reducible repeat' (first
    | assumption | intro _ | apply State.wr_keeps | refine State.modMgt_keeps _ _ rfl ?_ | apply State.macDown_keeps
    | apply State.fabDown_keeps | apply State.logEvent_keeps | apply State.respond_keeps | apply Keeps.each
    | (extract_lets +onlyGivenNames x; clear_value (hx : x = _); ((have hy : @Eq TickSt x _ := hx); clear hx; subst hy))
    | (refine Keeps.same ?_ rfl rfl rfl rfl rfl rfl rfl rfl))

theorem execPower_keeps {s0 : State} (s : State) (hS : Keeps s0 s) : OutKeeps s0 (execPower s) := by
  unfold execPower
  with_reducible repeat' (first
    | assumption | intro _ | refine State.modMgt_keeps _ _ rfl ?_ | apply State.respond_keeps | apply mboxRow_keeps
    | apply State.dormant_keeps | (extract_lets +onlyGivenNames x; clear_value (hx : x = _); clear hx) | apply Keeps.ite | split)

theorem State.powerEdge_keeps {s0 : State} (s : State) (hS : Keeps s0 s) : Keeps s0 (State.powerEdge s) := by
  unfold State.powerEdge
  with_reducible repeat' (first
    | assumption | apply State.wr_keeps | refine State.modMgt_keeps _ _ rfl ?_ | apply State.logEvent_keeps
    | (extract_lets +onlyGivenNames x; clear_value (hx : x = _); refine Keeps.via (s := s0) hx ?_ fun hk => ?_) | apply Keeps.ite | split)

theorem execSettingSet_keeps {s0 : State} (flashOk : Bool) (s : State) (hS : Keeps s0 s) : OutKeeps s0 (execSettingSet flashOk s) := by
  unfold execSettingSet
  with_reducible repeat' (first
    | assumption | intro _ | exact Keeps.refl _ | refine State.modFlash_keeps _ _ rfl ?_ | apply State.respond_keeps | apply mboxRow_keeps
    | (extract_lets +onlyGivenNames x; clear_value (hx : x = _); refine Keeps.via (s := s0) hx ?_ fun hk => ?_)
    | (extract_lets +onlyGivenNames x; clear_value (hx : x = _); refine Keeps.viaP (s := s0) hx ?_ fun hk => ?_)
    | (extract_lets +onlyGivenNames x; clear_value (hx : x = _); refine OptKeeps.via (s := s0) hx ?_ fun hk => ?_)
    | (extract_lets +onlyGivenNames x; clear_value (hx : x = _); clear hx) | apply Keeps.ite | split | dsimp -zeta only
    | (refine Keeps.same ?_ rfl rfl rfl rfl rfl rfl rfl rfl))

theorem execSettingGet_keeps {s0 : State} (s : State) (hS : Keeps s0 s) : OutKeeps s0 (execSettingGet s) := by
  unfold execSettingGet
  with_reducible repeat' (first
    | assumption | intro _ | apply State.respond_keeps | apply mboxRow_keeps
    | (extract_lets +onlyGivenNames x; clear_value (hx : x = _); clear hx) | apply Keeps.ite)

theorem execSmbusWrite_keeps {s0 : State} (code v : Nat) (pecOk : Bool) (s : State) (hS : Keeps s0 s) : OutKeeps s0 (execSmbusWrite code v pecOk s) := by
  unfold execSmbusWrite
  with_reducible repeat' (first
    | assumption | intro _ | exact Keeps.refl _ | refine State.modMgt_keeps _ _ rfl ?_ | apply OptKeeps.some | apply OutKeeps.next
    | (extract_lets +onlyGivenNames x; clear_value (hx : x = _); refine Keeps.via (s := s0) hx ?_ fun hk => ?_)
    | (extract_lets +onlyGivenNames x; clear_value (hx : x = _); refine Keeps.viaP (s := s0) hx ?_ fun hk => ?_)
    | (extract_lets +onlyGivenNames x; clear_value (hx : x = _); refine OptKeeps.via (s := s0) hx ?_ fun hk => ?_)
    | (extract_lets +onlyGivenNames x; clear_value (hx : x = _); clear hx) | apply Keeps.ite | apply OptKeeps.ite | apply OutKeeps.ite
    | split | dsimp -zeta only | exact OptKeeps.get rfl (by assumption) | refine OptKeeps.get (by assumption) ?_
    | (refine Keeps.same ?_ rfl rfl rfl rfl rfl rfl rfl rfl))

theorem execFaultCountRead_keeps {s0 : State} (s : State) (hS : Keeps s0 s) : OutKeeps s0 (execFaultCountRead s) := by
  unfold execFaultCountRead
  with_reducible repeat' (first
    | assumption | refine State.modMgt_keeps _ _ rfl ?_ | apply OutKeeps.next)

theorem execHbmSelfRefresh_keeps {s0 : State} (ch : Nat) (enter : Bool) (s : State) (hS : Keeps s0 s) : OutKeeps s0 (execHbmSelfRefresh ch enter s) := by
  unfold execHbmSelfRefresh
  with_reducible repeat' (first
    | assumption | refine State.modMgt_keeps _ _ rfl ?_ | apply OutKeeps.next | apply OutKeeps.ite)

end Sys2Proof.Machine
end

