-- ==== Sys2Proof/Laws/KeepsPins.lean ====
section
/-! SUPPORT. Every operation of Machine/Pins.lean keeps what Keeps (Safety.lean) says. -/

namespace Sys2Proof.Machine

theorem State.cleared_keeps {s0 : State} (s : State) (h : Keeps s0 s) : Keeps s0 s.cleared := by
  refine Keeps.trans h ⟨fun c => ⟨rfl, ?_⟩, rfl, Nat.le_refl _⟩
  have c2 := c.2
  simp only [State.memOk, Bool.and_eq_true] at c2 ⊢
  exact ⟨⟨⟨⟨c2.1.1.1.1, rfl⟩, rfl⟩, rfl⟩, c2.2⟩

theorem State.stopAll_keeps {s0 : State} (s : State) (hS : Keeps s0 s) : Keeps s0 (State.stopAll s) := by
  unfold State.stopAll
  with_reducible repeat' (first
    | assumption | apply State.wr_keeps | apply State.cleared_keeps
    | (extract_lets +onlyGivenNames x; clear_value (hx : x = _); refine Keeps.via (s := s0) hx ?_ fun hk => ?_)
    | (extract_lets +onlyGivenNames x; clear_value (hx : x = _); ((have hy : @Eq PinSt x _ := hx); clear hx; subst hy))
    | (refine Keeps.same ?_ rfl rfl rfl rfl rfl rfl rfl rfl))

theorem State.latchWake_keeps {s0 : State} (s : State) (cause : Nat) (hS : Keeps s0 s) : Keeps s0 (State.latchWake s cause) := by
  unfold State.latchWake
  with_reducible repeat' (first
    | assumption | (extract_lets +onlyGivenNames x; clear_value (hx : x = _); ((have hy : @Eq PinSt x _ := hx); clear hx; subst hy))
    | (refine Keeps.same ?_ rfl rfl rfl rfl rfl rfl rfl rfl))

theorem execPwrGoodRise_keeps {s0 : State} (s : State) (hS : Keeps s0 s) : OutKeeps s0 (execPwrGoodRise s) := by
  unfold execPwrGoodRise
  with_reducible repeat' (first
    | assumption | apply State.latchWake_keeps | apply OutKeeps.next
    | (extract_lets +onlyGivenNames x; clear_value (hx : x = _); ((have hy : @Eq PinSt x _ := hx); clear hx; subst hy))
    | apply OutKeeps.ite | (refine Keeps.same ?_ rfl rfl rfl rfl rfl rfl rfl rfl))

theorem execPwrGoodFall_keeps {s0 : State} (s : State) (hS : Keeps s0 s) : OutKeeps s0 (execPwrGoodFall s) := by
  unfold execPwrGoodFall
  with_reducible repeat' (first
    | assumption | apply State.stopAll_keeps | apply OutKeeps.next
    | (extract_lets +onlyGivenNames x; clear_value (hx : x = _); refine Keeps.via (s := s0) hx ?_ fun hk => ?_)
    | (extract_lets +onlyGivenNames x; clear_value (hx : x = _); ((have hy : @Eq PinSt x _ := hx); clear hx; subst hy))
    | apply OutKeeps.ite | (refine Keeps.same ?_ rfl rfl rfl rfl rfl rfl rfl rfl))

theorem execResetNAssert_keeps {s0 : State} (ns : Nat) (s : State) (hS : Keeps s0 s) : OutKeeps s0 (execResetNAssert ns s) := by
  unfold execResetNAssert
  with_reducible repeat' (first
    | assumption | apply State.stopAll_keeps | apply State.latchWake_keeps | apply OutKeeps.next | apply OutKeeps.ite)

theorem execWakeN_keeps {s0 : State} (ns : Nat) (s : State) (hS : Keeps s0 s) : OutKeeps s0 (execWakeN ns s) := by
  unfold execWakeN
  with_reducible repeat' (first
    | assumption | apply State.latchWake_keeps | apply OutKeeps.next | apply OutKeeps.ite)

theorem execStandbyRailLoss_keeps {s0 : State} (s : State) (hS : Keeps s0 s) : OutKeeps s0 (execStandbyRailLoss s) := by
  unfold execStandbyRailLoss
  with_reducible repeat' (first
    | assumption | apply OutKeeps.next
    | (extract_lets +onlyGivenNames x; clear_value (hx : x = _); ((have hy : @Eq PinSt x _ := hx); clear hx; subst hy))
    | (refine Keeps.same ?_ rfl rfl rfl rfl rfl rfl rfl rfl))

theorem execThermtrip_keeps {s0 : State} (s : State) (hS : Keeps s0 s) : OutKeeps s0 (execThermtrip s) := by
  unfold execThermtrip
  with_reducible repeat' (first
    | assumption | apply State.stopAll_keeps | apply State.latchWake_keeps | apply OutKeeps.next
    | (extract_lets +onlyGivenNames x; clear_value (hx : x = _); refine Keeps.via (s := s0) hx ?_ fun hk => ?_)
    | (extract_lets +onlyGivenNames x; clear_value (hx : x = _); ((have hy : @Eq PinSt x _ := hx); clear hx; subst hy))
    | apply OutKeeps.ite | (refine Keeps.same ?_ rfl rfl rfl rfl rfl rfl rfl rfl))

theorem execPciePerstN_keeps {s0 : State} (high : Bool) (s : State) (hS : Keeps s0 s) : OutKeeps s0 (execPciePerstN high s) := by
  unfold execPciePerstN
  with_reducible repeat' (first
    | assumption | apply execPcieLinkDown_keeps | apply OutKeeps.next
    | (extract_lets +onlyGivenNames x; clear_value (hx : x = _); ((have hy : @Eq PinSt x _ := hx); clear hx; subst hy))
    | apply OutKeeps.ite | (refine Keeps.same ?_ rfl rfl rfl rfl rfl rfl rfl rfl))

theorem State.loadCaps_keeps {s0 : State} (s : State) (absent : List (Nat × Nat)) (hS : Keeps s0 s) : Keeps s0 (State.loadCaps s absent) := by
  unfold State.loadCaps
  with_reducible repeat' (first
    | assumption | intro _ | exact Keeps.refl _ | apply State.wr_keeps | apply Keeps.each | apply Keeps.eachP | apply hF | apply hG
    | apply hH | (extract_lets +onlyGivenNames x; clear_value (hx : x = _); refine Keeps.via (s := s0) hx ?_ fun hk => ?_)
    | (extract_lets +onlyGivenNames x; clear_value (hx : x = _); refine Keeps.viaP (s := s0) hx ?_ fun hk => ?_)
    | (extract_lets +onlyGivenNames x; clear_value (hx : x = _); refine OptKeeps.via (s := s0) hx ?_ fun hk => ?_)
    | (extract_lets +onlyGivenNames x; clear_value (hx : x = _); (fail_if_success have := hF); refine Keeps.viaFunE (s := s0) hx ?_ fun hF => ?_)
    | (extract_lets +onlyGivenNames x; clear_value (hx : x = _); clear hx) | apply Keeps.ite | split | dsimp -zeta only)

theorem State.coldCfg_keeps {s0 : State} (s : State) (bad : List Nat) (hS : Keeps s0 s) : Keeps s0 (State.coldCfg s bad) := by
  unfold State.coldCfg
  with_reducible repeat' (first
    | assumption | intro _ | exact Keeps.refl _ | refine State.modFlash_keeps _ _ rfl ?_ | apply State.logEvent_keeps
    | apply State.mgtFault_keeps | apply Keeps.each | apply Keeps.eachP | apply OptKeeps.some | exact OptKeeps.none
    | (extract_lets +onlyGivenNames x; clear_value (hx : x = _); refine Keeps.via (s := s0) hx ?_ fun hk => ?_)
    | (extract_lets +onlyGivenNames x; clear_value (hx : x = _); refine Keeps.viaP (s := s0) hx ?_ fun hk => ?_)
    | (extract_lets +onlyGivenNames x; clear_value (hx : x = _); refine OptKeeps.via (s := s0) hx ?_ fun hk => ?_)
    | (extract_lets +onlyGivenNames x; clear_value (hx : x = _); clear hx) | apply Keeps.ite | apply OptKeeps.ite | split
    | dsimp -zeta only | exact OptKeeps.get rfl (by assumption) | refine OptKeeps.get (by assumption) ?_
    | refine Keeps.ofMk (by assumption) ?_ | (refine Keeps.same ?_ rfl rfl rfl rfl rfl rfl rfl rfl))

theorem State.coldReport_keeps {s0 : State} (s : State) (dead : Bool) (boot : Nat) (hS : Keeps s0 s) : Keeps s0 (State.coldReport s dead boot) := by
  unfold State.coldReport
  with_reducible repeat' (first
    | assumption | intro _ | exact Keeps.refl _ | apply State.wr_keeps | refine State.modMgt_keeps _ _ rfl ?_
    | (extract_lets +onlyGivenNames x; clear_value (hx : x = _); refine Keeps.via (s := s0) hx ?_ fun hk => ?_)
    | (extract_lets +onlyGivenNames x; clear_value (hx : x = _); refine Keeps.viaP (s := s0) hx ?_ fun hk => ?_)
    | (extract_lets +onlyGivenNames x; clear_value (hx : x = _); refine OptKeeps.via (s := s0) hx ?_ fun hk => ?_)
    | (extract_lets +onlyGivenNames x; clear_value (hx : x = _); clear hx) | apply Keeps.ite | split | dsimp -zeta only
    | (refine Keeps.same ?_ rfl rfl rfl rfl rfl rfl rfl rfl))

theorem State.coldRetire_keeps {s0 : State} (s : State) (x : Boot) (hS : Keeps s0 s) : Keeps s0 (State.coldRetire s x) := by
  unfold State.coldRetire
  with_reducible repeat' (first
    | assumption | intro _ | exact Keeps.refl _ | refine State.modFlash_keeps _ _ rfl ?_ | apply State.logEvent_keeps
    | apply State.mgtFault_keeps | apply Keeps.each | apply Keeps.eachP | apply OptKeeps.some | apply OptKeeps.map
    | (extract_lets +onlyGivenNames x; clear_value (hx : x = _); refine Keeps.via (s := s0) hx ?_ fun hk => ?_)
    | (extract_lets +onlyGivenNames x; clear_value (hx : x = _); refine Keeps.viaP (s := s0) hx ?_ fun hk => ?_)
    | (extract_lets +onlyGivenNames x; clear_value (hx : x = _); refine OptKeeps.via (s := s0) hx ?_ fun hk => ?_)
    | (extract_lets +onlyGivenNames x; clear_value (hx : x = _); clear hx) | apply Keeps.ite | apply OptKeeps.ite | split
    | dsimp -zeta only | exact OptKeeps.get rfl (by assumption) | refine OptKeeps.get (by assumption) ?_
    | (refine Keeps.same ?_ rfl rfl rfl rfl rfl rfl rfl rfl))

theorem State.coldImage_keeps {s0 : State} (s : State) (fw : Nat) (i : Img) (st : Nat) (trial : Bool) (fb : Option Nat) (pr pv : Img) (hS : Keeps s0 s) : Keeps s0 (State.coldImage s fw i st trial fb pr pv) := by
  unfold State.coldImage
  with_reducible repeat' (first
    | assumption | intro _ | exact Keeps.refl _ | apply State.wr_keeps | refine State.modMgt_keeps _ _ rfl ?_
    | refine State.modFlash_keeps _ _ rfl ?_ | apply State.logEvent_keeps | apply State.mgtFault_keeps | apply State.readSettings_keeps
    | apply State.runImage_keeps | apply State.stageClear_keeps | apply OptKeeps.some | exact OptKeeps.none
    | (extract_lets +onlyGivenNames x; clear_value (hx : x = _); refine Keeps.via (s := s0) hx ?_ fun hk => ?_)
    | (extract_lets +onlyGivenNames x; clear_value (hx : x = _); refine Keeps.viaP (s := s0) hx ?_ fun hk => ?_)
    | (extract_lets +onlyGivenNames x; clear_value (hx : x = _); refine OptKeeps.via (s := s0) hx ?_ fun hk => ?_)
    | (extract_lets +onlyGivenNames x; clear_value (hx : x = _); clear hx) | apply Keeps.ite | apply OptKeeps.ite | split
    | dsimp -zeta only | exact OptKeeps.get rfl (by assumption) | refine OptKeeps.get (by assumption) ?_
    | refine Keeps.ofMk (by assumption) ?_ | (refine Keeps.same ?_ rfl rfl rfl rfl rfl rfl rfl rfl))

theorem execColdStart_keeps {s0 : State} (x : Boot) (s : State) (hS : Keeps s0 s) : OutKeeps s0 (execColdStart x s) := by
  unfold execColdStart
  with_reducible repeat' (first
    | assumption | intro _ | exact Keeps.refl _ | apply State.wr_keeps | apply State.logEvent_keeps | apply State.cfgShow_keeps
    | apply State.cleared_keeps | apply State.loadCaps_keeps | apply State.coldCfg_keeps | apply State.coldReport_keeps
    | apply State.coldRetire_keeps | apply State.coldImage_keeps | apply OptKeeps.some | exact OptKeeps.none | apply OutKeeps.next
    | (extract_lets +onlyGivenNames x; clear_value (hx : x = _); refine Keeps.via (s := s0) hx ?_ fun hk => ?_)
    | (extract_lets +onlyGivenNames x; clear_value (hx : x = _); refine Keeps.viaP (s := s0) hx ?_ fun hk => ?_)
    | (extract_lets +onlyGivenNames x; clear_value (hx : x = _); ((have hy : @Eq PinSt x _ := hx); clear hx; subst hy))
    | (extract_lets +onlyGivenNames x; clear_value (hx : x = _); refine OptKeeps.via (s := s0) hx ?_ fun hk => ?_)
    | (extract_lets +onlyGivenNames x; clear_value (hx : x = _); clear hx) | apply Keeps.ite | apply OptKeeps.ite | apply OutKeeps.ite
    | split | dsimp -zeta only | exact OptKeeps.get rfl (by assumption) | refine OptKeeps.get (by assumption) ?_
    | refine Keeps.ofMk (by assumption) ?_ | (refine Keeps.same ?_ rfl rfl rfl rfl rfl rfl rfl rfl))

theorem execBypass_keeps {s0 : State} (s : State) (hS : Keeps s0 s) : OutKeeps s0 (execBypass s) := by
  unfold execBypass
  with_reducible repeat' (first
    | assumption | apply OutKeeps.next
    | (extract_lets +onlyGivenNames x; clear_value (hx : x = _); ((have hy : @Eq PinSt x _ := hx); clear hx; subst hy))
    | (refine Keeps.same ?_ rfl rfl rfl rfl rfl rfl rfl rfl))

theorem execIdcode_keeps {s0 : State} (s : State) (hS : Keeps s0 s) : OutKeeps s0 (execIdcode s) := by
  unfold execIdcode
  with_reducible repeat' (first
    | assumption | apply OutKeeps.next
    | (extract_lets +onlyGivenNames x; clear_value (hx : x = _); ((have hy : @Eq PinSt x _ := hx); clear hx; subst hy))
    | (refine Keeps.same ?_ rfl rfl rfl rfl rfl rfl rfl rfl))

theorem execSamplePreload_keeps {s0 : State} (sample preload : Nat) (s : State) (hS : Keeps s0 s) : OutKeeps s0 (execSamplePreload sample preload s) := by
  unfold execSamplePreload
  with_reducible repeat' (first
    | assumption | apply OutKeeps.next
    | (extract_lets +onlyGivenNames x; clear_value (hx : x = _); ((have hy : @Eq PinSt x _ := hx); clear hx; subst hy))
    | (refine Keeps.same ?_ rfl rfl rfl rfl rfl rfl rfl rfl))

theorem execExtest_keeps {s0 : State} (sample drive : Nat) (s : State) (hS : Keeps s0 s) : OutKeeps s0 (execExtest sample drive s) := by
  unfold execExtest
  with_reducible repeat' (first
    | assumption | apply OutKeeps.next
    | (extract_lets +onlyGivenNames x; clear_value (hx : x = _); ((have hy : @Eq PinSt x _ := hx); clear hx; subst hy))
    | (refine Keeps.same ?_ rfl rfl rfl rfl rfl rfl rfl rfl))

theorem execClamp_keeps {s0 : State} (s : State) (hS : Keeps s0 s) : OutKeeps s0 (execClamp s) := by
  unfold execClamp
  with_reducible repeat' (first
    | assumption | apply OutKeeps.next
    | (extract_lets +onlyGivenNames x; clear_value (hx : x = _); ((have hy : @Eq PinSt x _ := hx); clear hx; subst hy))
    | (refine Keeps.same ?_ rfl rfl rfl rfl rfl rfl rfl rfl))

theorem execHighz_keeps {s0 : State} (s : State) (hS : Keeps s0 s) : OutKeeps s0 (execHighz s) := by
  unfold execHighz
  with_reducible repeat' (first
    | assumption | apply OutKeeps.next
    | (extract_lets +onlyGivenNames x; clear_value (hx : x = _); ((have hy : @Eq PinSt x _ := hx); clear hx; subst hy))
    | (refine Keeps.same ?_ rfl rfl rfl rfl rfl rfl rfl rfl))

end Sys2Proof.Machine
end

