-- ==== Sys2Proof/Laws/KeepsMemEvents.lean ====
section
/-! SUPPORT. Every operation of Machine/MemEvents.lean keeps what Keeps (Safety.lean) says. -/

namespace Sys2Proof.Machine

theorem execHbmChanFail_keeps {s0 : State} (ch : Nat) (s : State) (hS : Keeps s0 s) : OutKeeps s0 (execHbmChanFail ch s) := by
  unfold execHbmChanFail
  with_reducible repeat' (first
    | assumption | apply State.failChannel_keeps | apply OutKeeps.next | apply Keeps.ite)

theorem State.hbmErrors_keeps {s0 : State} (s : State) (ch corrected odecc : Nat) (ue : List Nat) (hS : Keeps s0 s) : Keeps s0 (State.hbmErrors s ch corrected odecc ue) := by
  unfold State.hbmErrors
  with_reducible repeat' (first
    | assumption | intro _ | apply State.inc_keeps | apply State.fault_keeps | apply State.faultGather_keeps | apply Keeps.each
    | (extract_lets +onlyGivenNames x; clear_value (hx : x = _); ((have hy : @Eq MemSt x _ := hx); clear hx; subst hy)) | apply Keeps.ite
    | (refine Keeps.same ?_ rfl rfl rfl rfl rfl rfl rfl rfl))

theorem State.patrolMark_keeps {s0 : State} (s : State) (ch : Nat) (hS : Keeps s0 s) : Keeps s0 (State.patrolMark s ch) := by
  unfold State.patrolMark
  with_reducible repeat' (first
    | assumption | intro _ | exact Keeps.refl _ | apply OptKeeps.some | exact OptKeeps.none
    | (extract_lets +onlyGivenNames x; clear_value (hx : x = _); refine Keeps.via (s := s0) hx ?_ fun hk => ?_)
    | (extract_lets +onlyGivenNames x; clear_value (hx : x = _); refine Keeps.viaP (s := s0) hx ?_ fun hk => ?_)
    | (extract_lets +onlyGivenNames x; clear_value (hx : x = _); ((have hy : @Eq MemSt x _ := hx); clear hx; subst hy))
    | (extract_lets +onlyGivenNames x; clear_value (hx : x = _); refine OptKeeps.via (s := s0) hx ?_ fun hk => ?_)
    | (extract_lets +onlyGivenNames x; clear_value (hx : x = _); clear hx) | split | dsimp -zeta only
    | exact OptKeeps.get rfl (by assumption) | refine OptKeeps.get (by assumption) ?_ | refine Keeps.ofMk (by assumption) ?_
    | (refine Keeps.same ?_ rfl rfl rfl rfl rfl rfl rfl rfl))

theorem State.tsClean_keeps {s0 : State} (s : State) (a : Nat) (hS : Keeps s0 s) : Keeps s0 (State.tsClean s a) := by
  unfold State.tsClean
  with_reducible repeat' (first
    | assumption | intro _ | exact Keeps.refl _
    | (extract_lets +onlyGivenNames x; clear_value (hx : x = _); refine Keeps.via (s := s0) hx ?_ fun hk => ?_)
    | (extract_lets +onlyGivenNames x; clear_value (hx : x = _); refine Keeps.viaP (s := s0) hx ?_ fun hk => ?_)
    | (extract_lets +onlyGivenNames x; clear_value (hx : x = _); ((have hy : @Eq MemSt x _ := hx); clear hx; subst hy))
    | (extract_lets +onlyGivenNames x; clear_value (hx : x = _); refine OptKeeps.via (s := s0) hx ?_ fun hk => ?_)
    | (extract_lets +onlyGivenNames x; clear_value (hx : x = _); clear hx) | apply Keeps.ite | split | dsimp -zeta only
    | (refine Keeps.same ?_ rfl rfl rfl rfl rfl rfl rfl rfl))

theorem execPatrolScrub_keeps {s0 : State} (ch corrected odecc : Nat) (ue : List Nat) (clean : Nat) (dirty : List Nat) (s : State) (hS : Keeps s0 s) : OutKeeps s0 (execPatrolScrub ch corrected odecc ue clean dirty s) := by
  unfold execPatrolScrub
  with_reducible repeat' (first
    | assumption | intro _ | exact Keeps.refl _ | apply State.inc_keeps | apply State.fault_keeps | apply State.faultGather_keeps
    | apply State.setLineBad_keeps | apply State.hbmErrors_keeps | apply State.patrolMark_keeps | apply State.tsClean_keeps
    | apply Keeps.each | apply Keeps.eachP | exact CKeeps.fault | exact RKeeps.fault | apply OutKeeps.next
    | (extract_lets +onlyGivenNames x; clear_value (hx : x = _); refine Keeps.via (s := s0) hx ?_ fun hk => ?_)
    | (extract_lets +onlyGivenNames x; clear_value (hx : x = _); refine Keeps.viaP (s := s0) hx ?_ fun hk => ?_)
    | (extract_lets +onlyGivenNames x; clear_value (hx : x = _); refine OptKeeps.via (s := s0) hx ?_ fun hk => ?_)
    | (extract_lets +onlyGivenNames x; clear_value (hx : x = _); clear hx) | apply Keeps.ite | apply OutKeeps.ite | apply CKeeps.ite
    | apply RKeeps.ite | split | dsimp -zeta only)

theorem execMeshReplay_keeps {s0 : State} (link times : Nat) (s : State) (hS : Keeps s0 s) : OutKeeps s0 (execMeshReplay link times s) := by
  unfold execMeshReplay
  with_reducible repeat' (first
    | assumption | intro _ | apply State.fault_keeps | apply Keeps.upto | apply OutKeeps.next
    | (extract_lets +onlyGivenNames x; clear_value (hx : x = _); refine Keeps.via (s := s0) hx ?_ fun hk => ?_)
    | (extract_lets +onlyGivenNames x; clear_value (hx : x = _); ((have hy : @Eq MeshSt x _ := hx); clear hx; subst hy))
    | apply OutKeeps.ite | (refine Keeps.same ?_ rfl rfl rfl rfl rfl rfl rfl rfl))

theorem execZeroingComplete_keeps {s0 : State} (kind index : Nat) (s : State) (hS : Keeps s0 s) : OutKeeps s0 (execZeroingComplete kind index s) := by
  unfold execZeroingComplete
  with_reducible repeat' (first
    | assumption | intro _ | exact Keeps.refl _ | apply State.zeroSettle_keeps | apply State.pump_keeps | apply State.serveHeld_keeps | apply OutKeeps.next
    | (extract_lets +onlyGivenNames x; clear_value (hx : x = _); refine Keeps.via (s := s0) hx ?_ fun hk => ?_)
    | (extract_lets +onlyGivenNames x; clear_value (hx : x = _); refine Keeps.viaP (s := s0) hx ?_ fun hk => ?_)
    | (extract_lets +onlyGivenNames x; clear_value (hx : x = _); ((have hy : @Eq CoreSt x _ := hx); clear hx; subst hy))
    | (extract_lets +onlyGivenNames x; clear_value (hx : x = _); refine OptKeeps.via (s := s0) hx ?_ fun hk => ?_)
    | (extract_lets +onlyGivenNames x; clear_value (hx : x = _); clear hx) | dsimp -zeta only
    | (refine Keeps.same ?_ rfl rfl rfl rfl rfl rfl rfl rfl))

theorem execChannelScrubComplete_keeps {s0 : State} (ch : Nat) (s : State) (hS : Keeps s0 s) : OutKeeps s0 (execChannelScrubComplete ch s) := by
  unfold execChannelScrubComplete
  with_reducible repeat' (first
    | assumption | apply State.wr_keeps | apply State.advance_keeps | apply State.zeroSettle_keeps | apply OutKeeps.next
    | (extract_lets +onlyGivenNames x; clear_value (hx : x = _); refine Keeps.via (s := s0) hx ?_ fun hk => ?_)
    | (extract_lets +onlyGivenNames x; clear_value (hx : x = _); ((have hy : @Eq MemSt x _ := hx); clear hx; subst hy))
    | (extract_lets +onlyGivenNames x; clear_value (hx : x = _); clear hx) | apply OutKeeps.ite
    | (refine Keeps.same ?_ rfl rfl rfl rfl rfl rfl rfl rfl))

theorem execWayWriteBackComplete_keeps {s0 : State} (n : Nat) (s : State) (hS : Keeps s0 s) : OutKeeps s0 (execWayWriteBackComplete n s) := by
  unfold execWayWriteBackComplete
  with_reducible repeat' (first
    | assumption | intro _ | exact Keeps.refl _ | apply State.wayFlushed_keeps | apply OutKeeps.next | apply Keeps.ite
    | apply OutKeeps.ite | split | dsimp -zeta only)

theorem execSemaphoreGrant_keeps {s0 : State} (i : Nat) (s : State) (hS : Keeps s0 s) : OutKeeps s0 (execSemaphoreGrant i s) := by
  unfold execSemaphoreGrant
  with_reducible repeat' (first
    | assumption | intro _ | exact Keeps.refl _ | apply State.grantBank_keeps | apply State.grantCore_keeps | apply State.grantRadio_keeps
    | apply State.grantScribe_keeps | apply State.pump_keeps | apply State.grantBar_keeps | apply OptKeeps.some | exact OptKeeps.none
    | apply OutKeeps.next | (extract_lets +onlyGivenNames x; clear_value (hx : x = _); refine Keeps.via (s := s0) hx ?_ fun hk => ?_)
    | (extract_lets +onlyGivenNames x; clear_value (hx : x = _); refine Keeps.viaP (s := s0) hx ?_ fun hk => ?_)
    | (extract_lets +onlyGivenNames x; clear_value (hx : x = _); ((have hy : @Eq SemSt x _ := hx); clear hx; subst hy))
    | (extract_lets +onlyGivenNames x; clear_value (hx : x = _); refine OptKeeps.via (s := s0) hx ?_ fun hk => ?_)
    | (extract_lets +onlyGivenNames x; clear_value (hx : x = _); clear hx) | apply Keeps.ite | apply OptKeeps.ite | apply OutKeeps.ite
    | split | dsimp -zeta only | exact OptKeeps.get rfl (by assumption) | refine OptKeeps.get (by assumption) ?_
    | refine Keeps.ofMk (by assumption) ?_ | (refine Keeps.same ?_ rfl rfl rfl rfl rfl rfl rfl rfl))

end Sys2Proof.Machine
end

