-- ==== Sys2Proof/Laws/KeepsCommit.lean ====
section
/-! SUPPORT. Every operation of Machine/Commit.lean keeps what Keeps (Safety.lean) says. -/

namespace Sys2Proof.Machine

theorem State.blkCommit_keeps {s0 : State} (s : State) (b v : Nat) (hS : Keeps s0 s) : Keeps s0 (State.blkCommit s b v) := by
  unfold State.blkCommit
  with_reducible repeat' (first
    | assumption | apply State.wr_keeps | apply State.fault_keeps
    | (extract_lets +onlyGivenNames x; clear_value (hx : x = _); refine Keeps.via (s := s0) hx ?_ fun hk => ?_)
    | (extract_lets +onlyGivenNames x; clear_value (hx : x = _); ((have hy : @Eq TickSt x _ := hx); clear hx; subst hy))
    | (extract_lets +onlyGivenNames x; clear_value (hx : x = _); clear hx) | apply Keeps.ite
    | (refine Keeps.same ?_ rfl rfl rfl rfl rfl rfl rfl rfl))

theorem execCommit_keeps {s0 : State} (b gen : Nat) (s : State) (hS : Keeps s0 s) : OutKeeps s0 (execCommit b gen s) := by
  unfold execCommit
  with_reducible repeat' (first
    | assumption | apply State.blkCommit_keeps | apply OutKeeps.next)

theorem execRevert_keeps {s0 : State} (b gen : Nat) (s : State) (hS : Keeps s0 s) : OutKeeps s0 (execRevert b gen s) := by
  unfold execRevert
  with_reducible repeat' (first
    | assumption | apply State.blkCommit_keeps | apply OutKeeps.next)

theorem State.setPrev_keeps {s0 : State} (s : State) (off : Nat) (v : Word) (h : Keeps s0 s) : Keeps s0 (s.setPrev off v) :=
  Keeps.trans h ⟨fun c => ⟨by
    have := c.1
    simp only [State.regsOk, State.setPrev, Bool.and_eq_true] at this ⊢
    exact ⟨this.1, NMap.wf_put _ _ this.2⟩, c.2⟩, rfl, Nat.le_refl _⟩

theorem State.opMove_keeps {s0 : State} (s : State) (o : Nat × Bool) (hS : Keeps s0 s) : Keeps s0 (State.opMove s o) := by
  unfold State.opMove
  with_reducible repeat' (first
    | assumption | intro _ | apply State.setReg_keeps | apply State.setShadow_keeps | apply State.wr_keeps | apply State.rec__keeps
    | apply State.setPrev_keeps | apply Keeps.each | apply Keeps.ite | split)

theorem State.startZero_keeps {s0 : State} (s : State) (kind i : Nat) (hS : Keeps s0 s) : Keeps s0 (State.startZero s kind i) := by
  unfold State.startZero
  with_reducible repeat' (first
    | assumption | (extract_lets +onlyGivenNames x; clear_value (hx : x = _); ((have hy : @Eq CoreSt x _ := hx); clear hx; subst hy))
    | apply Keeps.ite | (refine Keeps.same ?_ rfl rfl rfl rfl rfl rfl rfl rfl))

theorem State.zeroAcc_keeps {s0 : State} (s : State) (core t : Nat) (hS : Keeps s0 s) : Keeps s0 (State.zeroAcc s core t) := by
  unfold State.zeroAcc
  with_reducible repeat' (first
    | assumption | intro _ | apply State.startZero_keeps | apply Keeps.upto
    | (extract_lets +onlyGivenNames x; clear_value (hx : x = _); ((have hy : @Eq CoreSt x _ := hx); clear hx; subst hy))
    | (extract_lets +onlyGivenNames x; clear_value (hx : x = _); clear hx)
    | (refine Keeps.coreUpd ?_ ?_; rotate_left; focus (apply CoreSt.memOk_of <;> (try exact id) <;> (intro _; repeat' (first | assumption | apply Mem.wf_zero | apply Mem.wf_wrBytes | apply Mem.wf_wrN | apply Mem.wf_wr | split)))))

theorem State.zeroGran_keeps {s0 : State} (s : State) (core g : Nat) (hS : Keeps s0 s) : Keeps s0 (State.zeroGran s core g) := by
  unfold State.zeroGran
  with_reducible repeat' (first
    | assumption | apply State.startZero_keeps
    | (extract_lets +onlyGivenNames x; clear_value (hx : x = _); ((have hy : @Eq CoreSt x _ := hx); clear hx; subst hy))
    | (refine Keeps.coreUpd ?_ ?_; rotate_left; focus (apply CoreSt.memOk_of <;> (try exact id) <;> (intro _; repeat' (first | assumption | apply Mem.wf_zero | apply Mem.wf_wrBytes | apply Mem.wf_wrN | apply Mem.wf_wr | split)))))

theorem State.zeroPoolGran_keeps {s0 : State} (s : State) (d g : Nat) (hS : Keeps s0 s) : Keeps s0 (State.zeroPoolGran s d g) := by
  unfold State.zeroPoolGran
  with_reducible repeat' (first
    | assumption | apply State.zeroRsv_keeps | apply State.startZero_keeps)

theorem State.zeroScribe_keeps {s0 : State} (s : State) (k : Nat) (h : Keeps s0 s) : Keeps s0 (State.zeroScribe s k) :=
  State.startZero_keeps _ _ _ (Keeps.upd h (Nat.le_refl _) id id id (RadSt.memOk_of (Mem.wf_zero _ _) id) id)

theorem State.loadScribe_keeps {s0 : State} (s : State) (k : Nat) (h : Keeps s0 s) : Keeps s0 (State.loadScribe s k) := by
  unfold State.loadScribe
  extract_lets a n node u prog src clean s1
  split
  · have hu : Keeps s0 u := State.tsAccess_keeps _ _ _ _ _ (State.countPoison_keeps _ _ _ h)
    have hc : Keeps s0 clean :=
      Keeps.upd hu (Nat.le_refl _) id id id (RadSt.memOk_of id (fun w => Mem.wf_wrBytes _ _ (Mem.wf_zero _ _ w))) id
    have h1 : Keeps s0 s1 := by
      refine Keeps.upto (fun i t ht => ?_) hc
      split
      · exact State.xyPoison_keeps _ _ _ _ _ ht
      · exact ht
    clear_value s1
    exact State.startZero_keeps _ _ _ (State.meshRecords_keeps _ _ _ h1)
  · exact h

theorem State.hqFlush_keeps {s0 : State} (s : State) (q : Nat) (hS : Keeps s0 s) : Keeps s0 (State.hqFlush s q) := by
  unfold State.hqFlush
  with_reducible repeat' (first
    | assumption | intro _ | apply State.hFinal_keeps | apply State.reqEnd_keeps | apply Keeps.each | apply Keeps.ite)

theorem State.egqFlush_keeps {s0 : State} (s : State) (q : Nat) (hS : Keeps s0 s) : Keeps s0 (State.egqFlush s q) := by
  unfold State.egqFlush
  with_reducible repeat' (first
    | assumption | intro _ | exact Keeps.refl _ | apply State.inc_keeps | apply State.hComplete_keeps | apply State.setEgq_keeps
    | apply Keeps.each | apply Keeps.eachP | apply OptKeeps.some | exact OptKeeps.none
    | (extract_lets +onlyGivenNames x; clear_value (hx : x = _); refine Keeps.via (s := s0) hx ?_ fun hk => ?_)
    | (extract_lets +onlyGivenNames x; clear_value (hx : x = _); refine Keeps.viaP (s := s0) hx ?_ fun hk => ?_)
    | (extract_lets +onlyGivenNames x; clear_value (hx : x = _); ((have hy : @Eq EthSt x _ := hx); clear hx; subst hy))
    | (extract_lets +onlyGivenNames x; clear_value (hx : x = _); refine OptKeeps.via (s := s0) hx ?_ fun hk => ?_)
    | (extract_lets +onlyGivenNames x; clear_value (hx : x = _); clear hx) | split | dsimp -zeta only
    | exact OptKeeps.get rfl (by assumption) | refine OptKeeps.get (by assumption) ?_ | refine Keeps.ofMk (by assumption) ?_
    | (refine Keeps.same ?_ rfl rfl rfl rfl rfl rfl rfl rfl))

theorem State.rxqFlush_keeps {s0 : State} (s : State) (q : Nat) (hS : Keeps s0 s) : Keeps s0 (State.rxqFlush s q) := by
  unfold State.rxqFlush
  with_reducible repeat' (first
    | assumption | intro _ | exact Keeps.refl _ | apply State.inc_keeps | apply State.setRxq_keeps | apply State.subFill_keeps
    | apply Keeps.each | apply Keeps.eachP | apply Keeps.foldl | apply Keeps.foldlP
    | (extract_lets +onlyGivenNames x; clear_value (hx : x = _); refine Keeps.via (s := s0) hx ?_ fun hk => ?_)
    | (extract_lets +onlyGivenNames x; clear_value (hx : x = _); refine Keeps.viaP (s := s0) hx ?_ fun hk => ?_)
    | (extract_lets +onlyGivenNames x; clear_value (hx : x = _); ((have hy : @Eq EthSt x _ := hx); clear hx; subst hy))
    | (extract_lets +onlyGivenNames x; clear_value (hx : x = _); refine OptKeeps.via (s := s0) hx ?_ fun hk => ?_)
    | (extract_lets +onlyGivenNames x; clear_value (hx : x = _); clear hx) | dsimp -zeta only
    | (refine Keeps.same ?_ rfl rfl rfl rfl rfl rfl rfl rfl))

theorem State.beforeApply_keeps {s0 : State} (s : State) (d : List (Nat × Nat × Nat)) (hS : Keeps s0 s) : Keeps s0 (State.beforeApply s d) := by
  unfold State.beforeApply
  with_reducible repeat' (first
    | assumption | intro _ | apply State.wr_keeps | apply State.reqEnd_keeps | apply State.hqFlush_keeps | apply Keeps.each)

theorem State.keepOld_keeps {s0 : State} (s : State) (d : List (Nat × Nat × Nat)) (off : Nat) (hS : Keeps s0 s) : Keeps s0 (State.keepOld s d off) := by
  unfold State.keepOld
  with_reducible repeat' (first
    | assumption | apply State.setReg_keeps | split)

theorem State.keepField_keeps {s0 : State} (s : State) (d : List (Nat × Nat × Nat)) (f : Fld) (hS : Keeps s0 s) : Keeps s0 (State.keepField s d f) := by
  unfold State.keepField
  with_reducible repeat' (first
    | assumption | apply State.wr_keeps | split)

theorem State.applyTile_keeps {s0 : State} (s : State) (d : List (Nat × Nat × Nat)) (n : Nat) (hS : Keeps s0 s) : Keeps s0 (State.applyTile s d n) := by
  unfold State.applyTile
  with_reducible repeat' (first
    | assumption | intro _ | exact Keeps.refl _ | apply State.wr_keeps | apply State.startScrub_keeps | apply State.zeroAcc_keeps
    | apply State.zeroGran_keeps | apply Keeps.each | apply Keeps.eachP | apply OptKeeps.map
    | (extract_lets +onlyGivenNames x; clear_value (hx : x = _); refine Keeps.via (s := s0) hx ?_ fun hk => ?_)
    | (extract_lets +onlyGivenNames x; clear_value (hx : x = _); refine Keeps.viaP (s := s0) hx ?_ fun hk => ?_)
    | (extract_lets +onlyGivenNames x; clear_value (hx : x = _); ((have hy : @Eq MemSt x _ := hx); clear hx; subst hy))
    | (extract_lets +onlyGivenNames x; clear_value (hx : x = _); refine OptKeeps.via (s := s0) hx ?_ fun hk => ?_)
    | (extract_lets +onlyGivenNames x; clear_value (hx : x = _); clear hx) | apply Keeps.ite | split | dsimp -zeta only
    | (refine Keeps.same ?_ rfl rfl rfl rfl rfl rfl rfl rfl))

theorem State.applyTime_keeps {s0 : State} (s : State) (d : List (Nat × Nat × Nat)) (hS : Keeps s0 s) : Keeps s0 (State.applyTime s d) := by
  unfold State.applyTime
  with_reducible repeat' (first
    | assumption | intro _ | apply State.wr_keeps | apply State.timeFault_keeps | apply State.pulseReload_keeps
    | apply State.barWatch_keeps | apply State.barUnwatch_keeps | apply State.keepOld_keeps | apply Keeps.each | apply Keeps.ite)

theorem State.applyHq_keeps {s0 : State} (s : State) (d : List (Nat × Nat × Nat)) (hS : Keeps s0 s) : Keeps s0 (State.applyHq s d) := by
  unfold State.applyHq
  with_reducible repeat' (first
    | assumption | intro _ | apply State.wr_keeps | apply State.hostWr_keeps | apply State.fault_keeps | apply State.setHq_keeps
    | apply Keeps.each | (extract_lets +onlyGivenNames x; clear_value (hx : x = _); refine Keeps.via (s := s0) hx ?_ fun hk => ?_)
    | (extract_lets +onlyGivenNames x; clear_value (hx : x = _); clear hx) | apply Keeps.ite | split)

theorem State.meterRecord_keeps {s0 : State} (s : State) (p reason time epoch : Nat) (hS : Keeps s0 s) : Keeps s0 (State.meterRecord s p reason time epoch) := by
  unfold State.meterRecord
  with_reducible repeat' (first
    | assumption | apply State.incw_keeps | apply State.hostWr_keeps
    | (extract_lets +onlyGivenNames x; clear_value (hx : x = _); clear hx) | split)

theorem State.applyPart_keeps {s0 : State} (s was : State) (d : List (Nat × Nat × Nat)) (hS : Keeps s0 s) : Keeps s0 (State.applyPart s was d) := by
  unfold State.applyPart
  with_reducible repeat' (first
    | assumption | intro _ | apply State.fault_keeps | apply State.semZeroGroup_keeps | apply State.meterRecord_keeps | apply Keeps.each
    | apply Keeps.ite)

theorem State.applyFlt_keeps {s0 : State} (s : State) (d : List (Nat × Nat × Nat)) (hS : Keeps s0 s) : Keeps s0 (State.applyFlt s d) := by
  unfold State.applyFlt
  with_reducible repeat' (first
    | assumption | intro _ | apply State.hostWr_keeps | apply State.setRing_keeps | apply State.flushHeld_keeps | apply Keeps.each
    | (extract_lets +onlyGivenNames x; clear_value (hx : x = _); refine Keeps.via (s := s0) hx ?_ fun hk => ?_)
    | (extract_lets +onlyGivenNames x; clear_value (hx : x = _); clear hx) | apply Keeps.ite | split)

theorem State.applyEth_keeps {s0 : State} (s was : State) (d : List (Nat × Nat × Nat)) (hS : Keeps s0 s) : Keeps s0 (State.applyEth s was d) := by
  unfold State.applyEth
  with_reducible repeat' (first
    | assumption | intro _ | exact Keeps.refl _ | apply State.wr_keeps | apply State.ethFault_keeps | apply State.xoffEval_keeps
    | apply State.svcDrain_keeps | apply State.macDown_keeps | apply State.egqFlush_keeps | apply State.rxqFlush_keeps
    | apply State.keepOld_keeps | apply State.keepField_keeps | apply Keeps.each | apply Keeps.eachP | apply Keeps.upto
    | apply Keeps.uptoP | (extract_lets +onlyGivenNames x; clear_value (hx : x = _); refine Keeps.via (s := s0) hx ?_ fun hk => ?_)
    | (extract_lets +onlyGivenNames x; clear_value (hx : x = _); refine Keeps.viaP (s := s0) hx ?_ fun hk => ?_)
    | (extract_lets +onlyGivenNames x; clear_value (hx : x = _); ((have hy : @Eq EthSt x _ := hx); clear hx; subst hy))
    | (extract_lets +onlyGivenNames x; clear_value (hx : x = _); refine OptKeeps.via (s := s0) hx ?_ fun hk => ?_)
    | (extract_lets +onlyGivenNames x; clear_value (hx : x = _); clear hx) | apply Keeps.ite | split | dsimp -zeta only
    | (refine Keeps.same ?_ rfl rfl rfl rfl rfl rfl rfl rfl))

theorem State.applyFab_keeps {s0 : State} (s : State) (d : List (Nat × Nat × Nat)) (hS : Keeps s0 s) : Keeps s0 (State.applyFab s d) := by
  unfold State.applyFab
  with_reducible repeat' (first
    | assumption | intro _ | apply State.wr_keeps | apply State.fault_keeps | apply State.showPool_keeps | apply State.fabDown_keeps
    | apply State.zeroPoolGran_keeps | apply State.keepField_keeps | apply Keeps.each | apply Keeps.upto
    | (extract_lets +onlyGivenNames x; clear_value (hx : x = _); refine Keeps.via (s := s0) hx ?_ fun hk => ?_)
    | (extract_lets +onlyGivenNames x; clear_value (hx : x = _); clear hx) | apply Keeps.ite)

theorem State.applyCol_keeps {s0 : State} (s : State) (d : List (Nat × Nat × Nat)) (hS : Keeps s0 s) : Keeps s0 (State.applyCol s d) := by
  unfold State.applyCol
  with_reducible repeat' (first
    | assumption | apply State.fault_keeps | apply State.keepField_keeps
    | (extract_lets +onlyGivenNames x; clear_value (hx : x = _); clear hx) | apply Keeps.ite)

theorem State.applyInk_keeps {s0 : State} (s : State) (d : List (Nat × Nat × Nat)) (hS : Keeps s0 s) : Keeps s0 (State.applyInk s d) := by
  unfold State.applyInk
  with_reducible repeat' (first
    | assumption | intro _ | exact Keeps.refl _ | apply State.setReg_keeps | apply State.wr_keeps | apply State.fault_keeps
    | apply State.stFor_keeps | apply State.freeFrame_keeps | apply Keeps.each | apply Keeps.eachP | apply Keeps.upto | apply Keeps.uptoP
    | exact CKeeps.fault | exact RKeeps.fault | apply hF | apply hG | apply hH
    | (extract_lets +onlyGivenNames x; clear_value (hx : x = _); refine Keeps.via (s := s0) hx ?_ fun hk => ?_)
    | (extract_lets +onlyGivenNames x; clear_value (hx : x = _); refine Keeps.viaP (s := s0) hx ?_ fun hk => ?_)
    | (extract_lets +onlyGivenNames x; clear_value (hx : x = _); ((have hy : @Eq SrvSt x _ := hx); clear hx; subst hy))
    | (extract_lets +onlyGivenNames x; clear_value (hx : x = _); refine OptKeeps.via (s := s0) hx ?_ fun hk => ?_)
    | (extract_lets +onlyGivenNames x; clear_value (hx : x = _); (fail_if_success have := hF); refine Keeps.viaFunB (s := s0) hx ?_ fun hF => ?_)
    | (extract_lets +onlyGivenNames x; clear_value (hx : x = _); clear hx) | apply Keeps.ite | apply CKeeps.ite | apply RKeeps.ite | split
    | dsimp -zeta only | (refine Keeps.same ?_ rfl rfl rfl rfl rfl rfl rfl rfl))

theorem State.applyRad_keeps {s0 : State} (s was : State) (d : List (Nat × Nat × Nat)) (hS : Keeps s0 s) : Keeps s0 (State.applyRad s was d) := by
  unfold State.applyRad
  with_reducible repeat' (first
    | assumption | intro _ | exact Keeps.refl _ | apply State.setReg_keeps | apply State.wr_keeps | apply State.fault_keeps
    | apply State.stBytes_keeps | apply State.zeroScribe_keeps | apply State.loadScribe_keeps | apply Keeps.each | apply Keeps.eachP
    | apply Keeps.foldl | apply Keeps.foldlP | apply OptKeeps.map | exact CKeeps.fault | exact RKeeps.fault | apply hF | apply hG
    | apply hH | (extract_lets +onlyGivenNames x; clear_value (hx : x = _); refine Keeps.via (s := s0) hx ?_ fun hk => ?_)
    | (extract_lets +onlyGivenNames x; clear_value (hx : x = _); refine Keeps.viaP (s := s0) hx ?_ fun hk => ?_)
    | (extract_lets +onlyGivenNames x; clear_value (hx : x = _); ((have hy : @Eq RadSt x _ := hx); clear hx; subst hy))
    | (extract_lets +onlyGivenNames x; clear_value (hx : x = _); refine OptKeeps.via (s := s0) hx ?_ fun hk => ?_)
    | (extract_lets +onlyGivenNames x; clear_value (hx : x = _); (fail_if_success have := hF); refine Keeps.viaFunC (s := s0) hx ?_ fun hF => ?_)
    | (extract_lets +onlyGivenNames x; clear_value (hx : x = _); clear hx) | apply Keeps.ite | apply CKeeps.ite | apply RKeeps.ite | split
    | dsimp -zeta only | (refine Keeps.same ?_ rfl rfl rfl rfl rfl rfl rfl rfl))

theorem State.applyCommits_keeps {s0 : State} (s : State) (hS : Keeps s0 s) : Keeps s0 (State.applyCommits s) := by
  unfold State.applyCommits
  with_reducible repeat' (first
    | assumption | intro _ | apply State.setShadow_keeps | apply State.opMove_keeps | apply State.beforeApply_keeps
    | apply State.applyTile_keeps | apply State.applyTime_keeps | apply State.applyHq_keeps | apply State.applyPart_keeps
    | apply State.applyFlt_keeps | apply State.applyEth_keeps | apply State.applyFab_keeps | apply State.applyCol_keeps
    | apply State.applyInk_keeps | apply State.applyRad_keeps | apply Keeps.each | apply Keeps.upto
    | (extract_lets +onlyGivenNames x; clear_value (hx : x = _); refine Keeps.via (s := s0) hx ?_ fun hk => ?_)
    | (extract_lets +onlyGivenNames x; clear_value (hx : x = _); ((have hy : @Eq TickSt x _ := hx); clear hx; subst hy))
    | (extract_lets +onlyGivenNames x; clear_value (hx : x = _); ((have hy : @Eq Bus x _ := hx); clear hx; subst hy))
    | (extract_lets +onlyGivenNames x; clear_value (hx : x = _); clear hx) | apply Keeps.ite
    | (refine Keeps.same ?_ rfl rfl rfl rfl rfl rfl rfl rfl))

end Sys2Proof.Machine
end

