-- ==== Sys2Proof/Laws/KeepsPart.lean ====
section
/-! SUPPORT. Every operation of Machine/Part.lean keeps what Keeps (Safety.lean) says. -/

namespace Sys2Proof.Machine

theorem State.opRefuse_keeps {s0 : State} (s : State) (p reason : Nat) (hS : Keeps s0 s) : Keeps s0 (State.opRefuse s p reason) := by
  unfold State.opRefuse
  with_reducible repeat' (first
    | assumption | apply State.wr_keeps | apply State.fault_keeps)

theorem State.partCtrl_keeps {s0 : State} (s : State) (p op : Nat) (force : Bool) (hS : Keeps s0 s) : Keeps s0 (State.partCtrl s p op force) := by
  unfold State.partCtrl
  with_reducible repeat' (first
    | assumption | apply State.wr_keeps | apply State.opRefuse_keeps
    | (extract_lets +onlyGivenNames x; clear_value (hx : x = _); refine Keeps.via (s := s0) hx ?_ fun hk => ?_)
    | (extract_lets +onlyGivenNames x; clear_value (hx : x = _); ((have hy : @Eq PartSt x _ := hx); clear hx; subst hy)) | apply Keeps.ite
    | (refine Keeps.same ?_ rfl rfl rfl rfl rfl rfl rfl rfl))

theorem execCreate_keeps {s0 : State} (p : Nat) (s : State) (hS : Keeps s0 s) : OutKeeps s0 (execCreate p s) := by
  unfold execCreate
  with_reducible repeat' (first
    | assumption | apply State.partCtrl_keeps | apply OutKeeps.next)

theorem execQuiesce_keeps {s0 : State} (p : Nat) (s : State) (hS : Keeps s0 s) : OutKeeps s0 (execQuiesce p s) := by
  unfold execQuiesce
  with_reducible repeat' (first
    | assumption | apply State.partCtrl_keeps | apply OutKeeps.next)

theorem execResume_keeps {s0 : State} (p : Nat) (s : State) (hS : Keeps s0 s) : OutKeeps s0 (execResume p s) := by
  unfold execResume
  with_reducible repeat' (first
    | assumption | apply State.partCtrl_keeps | apply OutKeeps.next)

theorem execReset_keeps {s0 : State} (p : Nat) (force : Bool) (s : State) (hS : Keeps s0 s) : OutKeeps s0 (execReset p force s) := by
  unfold execReset
  with_reducible repeat' (first
    | assumption | apply State.partCtrl_keeps | apply OutKeeps.next)

theorem execRemove_keeps {s0 : State} (p : Nat) (s : State) (hS : Keeps s0 s) : OutKeeps s0 (execRemove p s) := by
  unfold execRemove
  with_reducible repeat' (first
    | assumption | apply State.partCtrl_keeps | apply OutKeeps.next)

theorem State.partCreate_keeps {s0 : State} (s : State) (p : Nat) (hS : Keeps s0 s) : Keeps s0 (State.partCreate s p) := by
  unfold State.partCreate
  with_reducible repeat' (first
    | assumption | intro _ | apply State.wr_keeps | apply State.meterRecord_keeps | apply State.opRefuse_keeps | apply Keeps.upto
    | (extract_lets +onlyGivenNames x; clear_value (hx : x = _); refine Keeps.via (s := s0) hx ?_ fun hk => ?_)
    | (extract_lets +onlyGivenNames x; clear_value (hx : x = _); ((have hy : @Eq PartSt x _ := hx); clear hx; subst hy)) | apply Keeps.ite
    | (refine Keeps.same ?_ rfl rfl rfl rfl rfl rfl rfl rfl))

theorem State.partQuiesce_keeps {s0 : State} (s : State) (p : Nat) (hS : Keeps s0 s) : Keeps s0 (State.partQuiesce s p) := by
  unfold State.partQuiesce
  with_reducible repeat' (first
    | assumption | intro _ | apply State.wr_keeps | apply State.markLost_keeps | apply State.opRefuse_keeps | apply Keeps.each
    | (extract_lets +onlyGivenNames x; clear_value (hx : x = _); refine Keeps.via (s := s0) hx ?_ fun hk => ?_)
    | (extract_lets +onlyGivenNames x; clear_value (hx : x = _); ((have hy : @Eq PartSt x _ := hx); clear hx; subst hy)) | apply Keeps.ite
    | (refine Keeps.same ?_ rfl rfl rfl rfl rfl rfl rfl rfl))

theorem State.partResume_keeps {s0 : State} (s : State) (p : Nat) (hS : Keeps s0 s) : Keeps s0 (State.partResume s p) := by
  unfold State.partResume
  with_reducible repeat' (first
    | assumption | intro _ | apply State.wr_keeps | apply State.setHq_keeps | apply State.svRelease_keeps | apply State.opRefuse_keeps
    | apply Keeps.each | (extract_lets +onlyGivenNames x; clear_value (hx : x = _); refine Keeps.via (s := s0) hx ?_ fun hk => ?_)
    | (extract_lets +onlyGivenNames x; clear_value (hx : x = _); ((have hy : @Eq PartSt x _ := hx); clear hx; subst hy))
    | (extract_lets +onlyGivenNames x; clear_value (hx : x = _); clear hx) | apply Keeps.ite
    | (refine Keeps.same ?_ rfl rfl rfl rfl rfl rfl rfl rfl))

theorem State.nextOf_keeps {s0 s : State} {o : Host.Outcome State Fault Refusal} (ho : OutKeeps s0 o) (h : Keeps s0 s) :
    Keeps s0 (s.nextOf o) := by
  cases o with
  | next t => exact ho t rfl
  | fault r => exact h
  | refused r => exact h

theorem State.quillForce_keeps {s0 : State} (s : State) (p j : Nat) (y0 : Nat) (hS : Keeps s0 s) : Keeps s0 (State.quillForce s p j y0) := by
  induction y0 generalizing s with
  | zero =>
    unfold State.quillForce
    with_reducible repeat' (first
      | assumption | intro _ | exact Keeps.refl _ | apply State.setQuillQueue_keeps | apply State.sampleForce_keeps | apply execInit_keeps
      | apply State.nextOf_keeps | apply OptKeeps.some | exact OptKeeps.none | apply OutKeeps.next
      | (extract_lets +onlyGivenNames x; clear_value (hx : x = _); refine Keeps.via (s := s0) hx ?_ fun hk => ?_)
      | (extract_lets +onlyGivenNames x; clear_value (hx : x = _); refine Keeps.viaP (s := s0) hx ?_ fun hk => ?_)
      | (extract_lets +onlyGivenNames x; clear_value (hx : x = _); refine OptKeeps.via (s := s0) hx ?_ fun hk => ?_)
      | (extract_lets +onlyGivenNames x; clear_value (hx : x = _); clear hx) | apply Keeps.ite | apply OptKeeps.ite | apply OutKeeps.ite
      | split | dsimp -zeta only | exact OptKeeps.get rfl (by assumption) | refine OptKeeps.get (by assumption) ?_
      | refine Keeps.ofMk (by assumption) ?_ | (refine Keeps.same ?_ rfl rfl rfl rfl rfl rfl rfl rfl))
  | succ z ih =>
    unfold State.quillForce
    with_reducible repeat' (first
      | assumption | intro _ | exact Keeps.refl _ | apply ih | apply State.setQuillQueue_keeps | apply State.sampleForce_keeps
      | apply execInit_keeps | apply State.nextOf_keeps | apply OptKeeps.some | exact OptKeeps.none | apply OutKeeps.next
      | (extract_lets +onlyGivenNames x; clear_value (hx : x = _); refine Keeps.via (s := s0) hx ?_ fun hk => ?_)
      | (extract_lets +onlyGivenNames x; clear_value (hx : x = _); refine Keeps.viaP (s := s0) hx ?_ fun hk => ?_)
      | (extract_lets +onlyGivenNames x; clear_value (hx : x = _); refine OptKeeps.via (s := s0) hx ?_ fun hk => ?_)
      | (extract_lets +onlyGivenNames x; clear_value (hx : x = _); clear hx) | apply Keeps.ite | apply OptKeeps.ite | apply OutKeeps.ite
      | split | dsimp -zeta only | exact OptKeeps.get rfl (by assumption) | refine OptKeeps.get (by assumption) ?_
      | refine Keeps.ofMk (by assumption) ?_ | (refine Keeps.same ?_ rfl rfl rfl rfl rfl rfl rfl rfl))

theorem State.reqCancel_keeps {s0 : State} (s : State) (k : Nat) (hS : Keeps s0 s) : Keeps s0 (State.reqCancel s k) := by
  unfold State.reqCancel
  with_reducible repeat' (first
    | assumption | apply State.reqRecord_keeps | apply State.leave_keeps | apply Keeps.ite | split)

theorem State.clearEngines_keeps {s0 : State} (s : State) (p : Nat) (force : Bool) (hS : Keeps s0 s) : Keeps s0 (State.clearEngines s p force) := by
  unfold State.clearEngines
  with_reducible repeat' (first
    | assumption | intro _ | apply State.freeBank_keeps | apply State.delColl_keeps | apply State.colFinish_keeps
    | apply State.colFail_keeps | apply State.quillForce_keeps | apply Keeps.each | apply Keeps.upto
    | (extract_lets +onlyGivenNames x; clear_value (hx : x = _); refine Keeps.via (s := s0) hx ?_ fun hk => ?_)
    | (extract_lets +onlyGivenNames x; clear_value (hx : x = _); ((have hy : @Eq TickSt x _ := hx); clear hx; subst hy)) | apply Keeps.ite
    | (refine Keeps.same ?_ rfl rfl rfl rfl rfl rfl rfl rfl))

theorem State.clearRequests_keeps {s0 : State} (s : State) (p : Nat) (hS : Keeps s0 s) : Keeps s0 (State.clearRequests s p) := by
  unfold State.clearRequests
  with_reducible repeat' (first
    | assumption | intro _ | apply State.reqCancel_keeps | apply Keeps.each
    | (extract_lets +onlyGivenNames x; clear_value (hx : x = _); refine Keeps.via (s := s0) hx ?_ fun hk => ?_)
    | (extract_lets +onlyGivenNames x; clear_value (hx : x = _); ((have hy : @Eq SrvSt x _ := hx); clear hx; subst hy))
    | (refine Keeps.same ?_ rfl rfl rfl rfl rfl rfl rfl rfl))

theorem State.clearHostQueue_keeps {s0 : State} (s : State) (q : Nat) (hS : Keeps s0 s) : Keeps s0 (State.clearHostQueue s q) := by
  unfold State.clearHostQueue
  with_reducible repeat' (first
    | assumption | apply State.setHq_keeps | apply State.hqRingFail_keeps | apply State.hqFlush_keeps
    | (extract_lets +onlyGivenNames x; clear_value (hx : x = _); refine Keeps.via (s := s0) hx ?_ fun hk => ?_)
    | (extract_lets +onlyGivenNames x; clear_value (hx : x = _); clear hx) | split)

theorem State.clearQueues_keeps {s0 : State} (s : State) (p : Nat) (hS : Keeps s0 s) : Keeps s0 (State.clearQueues s p) := by
  unfold State.clearQueues
  with_reducible repeat' (first
    | assumption | intro _ | apply State.semZeroGroup_keeps | apply State.egqFlush_keeps | apply State.rxqFlush_keeps
    | apply State.clearHostQueue_keeps | apply Keeps.each | apply Keeps.upto | apply Keeps.ite)

theorem State.partClear_keeps {s0 : State} (s : State) (p : Nat) (force : Bool) (hS : Keeps s0 s) : Keeps s0 (State.partClear s p force) := by
  unfold State.partClear
  with_reducible repeat' (first
    | assumption | apply State.clearEngines_keeps | apply State.clearRequests_keeps | apply State.clearQueues_keeps)

theorem State.partZero_keeps {s0 : State} (s : State) (p : Nat) (hS : Keeps s0 s) : Keeps s0 (State.partZero s p) := by
  unfold State.partZero
  with_reducible repeat' (first
    | assumption | intro _ | apply State.setReg_keeps | apply State.wr_keeps | apply State.startScrub_keeps | apply State.zeroAcc_keeps
    | apply State.zeroGran_keeps | apply State.zeroPoolGran_keeps | apply State.zeroScribe_keeps | apply State.loadScribe_keeps
    | apply Keeps.each | (extract_lets +onlyGivenNames x; clear_value (hx : x = _); clear hx) | apply Keeps.ite | split)

theorem State.awaitZero_keeps {s0 : State} (s : State) (p : Nat) (l : List (Nat × Nat)) (during after : Nat) (hS : Keeps s0 s) : Keeps s0 (State.awaitZero s p l during after) := by
  unfold State.awaitZero
  with_reducible repeat' (first
    | assumption | apply State.wr_keeps
    | (extract_lets +onlyGivenNames x; clear_value (hx : x = _); refine Keeps.via (s := s0) hx ?_ fun hk => ?_)
    | (extract_lets +onlyGivenNames x; clear_value (hx : x = _); ((have hy : @Eq PartSt x _ := hx); clear hx; subst hy)) | apply Keeps.ite
    | (refine Keeps.same ?_ rfl rfl rfl rfl rfl rfl rfl rfl))

theorem State.partReset_keeps {s0 : State} (s : State) (p : Nat) (force : Bool) (hS : Keeps s0 s) : Keeps s0 (State.partReset s p force) := by
  unfold State.partReset
  with_reducible repeat' (first
    | assumption | apply State.wr_keeps | apply State.meterRecord_keeps | apply State.opRefuse_keeps | apply State.partClear_keeps
    | apply State.partZero_keeps | apply State.awaitZero_keeps
    | (extract_lets +onlyGivenNames x; clear_value (hx : x = _); refine Keeps.via (s := s0) hx ?_ fun hk => ?_)
    | (extract_lets +onlyGivenNames x; clear_value (hx : x = _); clear hx) | apply Keeps.ite)

theorem State.partRemove_keeps {s0 : State} (s : State) (p : Nat) (new : List (Nat × Nat)) (hS : Keeps s0 s) : Keeps s0 (State.partRemove s p new) := by
  unfold State.partRemove
  with_reducible repeat' (first
    | assumption | apply State.wr_keeps | apply State.meterRecord_keeps | apply State.opRefuse_keeps | apply State.partClear_keeps
    | apply State.awaitZero_keeps
    | (extract_lets +onlyGivenNames x; clear_value (hx : x = _); refine Keeps.via (s := s0) hx ?_ fun hk => ?_)
    | (extract_lets +onlyGivenNames x; clear_value (hx : x = _); clear hx) | apply Keeps.ite)

theorem State.partOp_keeps {s0 : State} (s : State) (new : List (Nat × Nat)) (o : Nat × Nat × Bool) (hS : Keeps s0 s) : Keeps s0 (State.partOp s new o) := by
  unfold State.partOp
  with_reducible repeat' (first
    | assumption | apply State.wr_keeps | apply State.partCreate_keeps | apply State.partQuiesce_keeps | apply State.partResume_keeps
    | apply State.partReset_keeps | apply State.partRemove_keeps
    | (extract_lets +onlyGivenNames x; clear_value (hx : x = _); refine Keeps.via (s := s0) hx ?_ fun hk => ?_) | split)

theorem State.fenceUnit_keeps {s0 : State} (s : State) (kind index : Nat) (hS : Keeps s0 s) : Keeps s0 (State.fenceUnit s kind index) := by
  unfold State.fenceUnit
  with_reducible repeat' (first
    | assumption | (extract_lets +onlyGivenNames x; clear_value (hx : x = _); ((have hy : @Eq FltSt x _ := hx); clear hx; subst hy))
    | apply Keeps.ite | (refine Keeps.same ?_ rfl rfl rfl rfl rfl rfl rfl rfl))

theorem State.fltFence_keeps {s0 : State} (s : State) (v : Nat) (hS : Keeps s0 s) : Keeps s0 (State.fltFence s v) := by
  unfold State.fltFence
  with_reducible repeat' (first
    | assumption | apply State.badAccess_keeps | apply State.fenceUnit_keeps | apply Keeps.ite)

theorem execFltFence_keeps {s0 : State} (v : Nat) (s : State) (hS : Keeps s0 s) : OutKeeps s0 (execFltFence v s) := by
  unfold execFltFence
  with_reducible repeat' (first
    | assumption | apply State.fltFence_keeps | apply OutKeeps.next)

theorem execUnitFence_keeps {s0 : State} (kind index : Nat) (s : State) (hS : Keeps s0 s) : OutKeeps s0 (execUnitFence kind index s) := by
  unfold execUnitFence
  with_reducible repeat' (first
    | assumption | apply State.fenceUnit_keeps | apply OutKeeps.next | apply Keeps.ite)

theorem State.fenceSlots_keeps {s0 : State} (s : State) (n t : Nat) (hS : Keeps s0 s) : Keeps s0 (State.fenceSlots s n t) := by
  unfold State.fenceSlots
  with_reducible repeat' (first
    | assumption | apply State.setTileProg_keeps)

theorem State.fenceApply_keeps {s0 : State} (s : State) (f : Nat × Nat) (hS : Keeps s0 s) : Keeps s0 (State.fenceApply s f) := by
  unfold State.fenceApply
  with_reducible repeat' (first
    | assumption | intro _ | exact Keeps.refl _ | apply State.wr_keeps | apply State.fault_keeps | apply State.freeBank_keeps
    | apply State.quillFence_keeps | apply State.clearScribe_keeps | apply State.delFec_keeps | apply State.fenceHeld_keeps
    | apply State.fenceSlots_keeps | apply Keeps.each | apply Keeps.eachP | exact CKeeps.fault | exact RKeeps.fault
    | (extract_lets +onlyGivenNames x; clear_value (hx : x = _); refine Keeps.via (s := s0) hx ?_ fun hk => ?_)
    | (extract_lets +onlyGivenNames x; clear_value (hx : x = _); refine Keeps.viaP (s := s0) hx ?_ fun hk => ?_)
    | (extract_lets +onlyGivenNames x; clear_value (hx : x = _); refine OptKeeps.via (s := s0) hx ?_ fun hk => ?_)
    | (extract_lets +onlyGivenNames x; clear_value (hx : x = _); clear hx) | apply Keeps.ite | apply CKeeps.ite | apply RKeeps.ite | split
    | dsimp -zeta only | refine Keeps.ofMk (by assumption) ?_ | (refine Keeps.same ?_ rfl rfl rfl rfl rfl rfl rfl rfl))

theorem State.applyCycle_keeps {s0 : State} (s : State) (hS : Keeps s0 s) : Keeps s0 (State.applyCycle s) := by
  unfold State.applyCycle
  with_reducible repeat' (first
    | assumption | intro _ | apply State.wr_keeps | apply State.meterTicks_keeps | apply State.applyCommits_keeps
    | apply State.partOp_keeps | apply State.fenceApply_keeps | apply Keeps.each | apply Keeps.upto
    | (extract_lets +onlyGivenNames x; clear_value (hx : x = _); ((have hy : @Eq FltSt x _ := hx); clear hx; subst hy))
    | (extract_lets +onlyGivenNames x; clear_value (hx : x = _); ((have hy : @Eq PartSt x _ := hx); clear hx; subst hy)) | apply Keeps.ite
    | (refine Keeps.same ?_ rfl rfl rfl rfl rfl rfl rfl rfl))

theorem execStoppedApply_keeps {s0 : State} (s : State) (hS : Keeps s0 s) : OutKeeps s0 (execStoppedApply s) := by
  unfold execStoppedApply
  with_reducible repeat' (first
    | assumption | apply State.applyCycle_keeps | apply OutKeeps.next | apply Keeps.ite)

theorem execQuiesceComplete_keeps {s0 : State} (p : Nat) (s : State) (hS : Keeps s0 s) : OutKeeps s0 (execQuiesceComplete p s) := by
  unfold execQuiesceComplete
  with_reducible repeat' (first
    | assumption | apply State.wr_keeps | apply OutKeeps.next | apply Keeps.ite)

theorem execQuiesceSlow_keeps {s0 : State} (p : Nat) (s : State) (hS : Keeps s0 s) : OutKeeps s0 (execQuiesceSlow p s) := by
  unfold execQuiesceSlow
  with_reducible repeat' (first
    | assumption | apply State.wr_keeps | apply State.advance_keeps | apply State.fault_keeps | apply OutKeeps.next
    | (extract_lets +onlyGivenNames x; clear_value (hx : x = _); refine Keeps.via (s := s0) hx ?_ fun hk => ?_) | apply OutKeeps.ite)

theorem State.quietSlots_keeps {s0 : State} (s : State) (num : Nat) (hS : Keeps s0 s) : Keeps s0 (State.quietSlots s num) := by
  unfold State.quietSlots
  with_reducible repeat' (first
    | assumption | intro _ | apply State.wr_keeps | apply State.inc_keeps | apply Keeps.each
    | (extract_lets +onlyGivenNames x; clear_value (hx : x = _); clear hx) | apply Keeps.ite)

theorem State.compRefuse_keeps {s0 : State} (s : State) (p reason : Nat) (hS : Keeps s0 s) : Keeps s0 (State.compRefuse s p reason) := by
  unfold State.compRefuse
  with_reducible repeat' (first
    | assumption | apply State.wr_keeps | apply State.fault_keeps)

theorem State.compArm_keeps {s0 : State} (s : State) (p : Nat) (a : CompArm) (hS : Keeps s0 s) : Keeps s0 (State.compArm s p a) := by
  unfold State.compArm
  with_reducible repeat' (first
    | assumption | apply State.wr_keeps
    | (extract_lets +onlyGivenNames x; clear_value (hx : x = _); refine Keeps.via (s := s0) hx ?_ fun hk => ?_)
    | (extract_lets +onlyGivenNames x; clear_value (hx : x = _); ((have hy : @Eq PartSt x _ := hx); clear hx; subst hy))
    | (refine Keeps.same ?_ rfl rfl rfl rfl rfl rfl rfl rfl))

theorem State.compSwitch_keeps {s0 : State} (s : State) (p v : Nat) (hS : Keeps s0 s) : Keeps s0 (State.compSwitch s p v) := by
  unfold State.compSwitch
  with_reducible repeat' (first
    | assumption | apply State.setReg_keeps | apply State.compRefuse_keeps | apply State.compArm_keeps
    | (extract_lets +onlyGivenNames x; clear_value (hx : x = _); refine Keeps.via (s := s0) hx ?_ fun hk => ?_)
    | (extract_lets +onlyGivenNames x; clear_value (hx : x = _); clear hx) | apply Keeps.ite | split)

theorem execCompSwitch_keeps {s0 : State} (p v : Nat) (s : State) (hS : Keeps s0 s) : OutKeeps s0 (execCompSwitch p v s) := by
  unfold execCompSwitch
  with_reducible repeat' (first
    | assumption | apply State.compSwitch_keeps | apply OutKeeps.next)

theorem State.compEdge_keeps {s0 : State} (s : State) (hS : Keeps s0 s) : Keeps s0 (State.compEdge s) := by
  unfold State.compEdge
  with_reducible repeat' (first
    | assumption | intro _ | exact Keeps.refl _ | apply State.wr_keeps | apply CRes.done_keeps | apply State.meterRecord_keeps
    | apply Keeps.each | apply Keeps.eachP
    | (extract_lets +onlyGivenNames x; clear_value (hx : x = _); refine Keeps.via (s := s0) hx ?_ fun hk => ?_)
    | (extract_lets +onlyGivenNames x; clear_value (hx : x = _); refine Keeps.viaP (s := s0) hx ?_ fun hk => ?_)
    | (extract_lets +onlyGivenNames x; clear_value (hx : x = _); ((have hy : @Eq PartSt x _ := hx); clear hx; subst hy))
    | (extract_lets +onlyGivenNames x; clear_value (hx : x = _); refine OptKeeps.via (s := s0) hx ?_ fun hk => ?_)
    | (extract_lets +onlyGivenNames x; clear_value (hx : x = _); clear hx) | apply Keeps.ite | split | dsimp -zeta only
    | (refine Keeps.same ?_ rfl rfl rfl rfl rfl rfl rfl rfl))

theorem execDrainWindowClose_keeps {s0 : State} (p : Nat) (s : State) (hS : Keeps s0 s) : OutKeeps s0 (execDrainWindowClose p s) := by
  unfold execDrainWindowClose
  with_reducible repeat' (first
    | assumption | apply State.wr_keeps | apply State.advance_keeps | apply OutKeeps.next
    | (extract_lets +onlyGivenNames x; clear_value (hx : x = _); refine Keeps.via (s := s0) hx ?_ fun hk => ?_)
    | (extract_lets +onlyGivenNames x; clear_value (hx : x = _); ((have hy : @Eq PartSt x _ := hx); clear hx; subst hy))
    | apply OutKeeps.ite | (refine Keeps.same ?_ rfl rfl rfl rfl rfl rfl rfl rfl))

theorem execMeterRecord_keeps {s0 : State} (s : State) (hS : Keeps s0 s) : OutKeeps s0 (execMeterRecord s) := by
  unfold execMeterRecord
  with_reducible repeat' (first
    | assumption | intro _ | apply State.advance_keeps | apply State.meterTicks_keeps | apply State.meterRecord_keeps | apply Keeps.upto
    | apply OutKeeps.next | (extract_lets +onlyGivenNames x; clear_value (hx : x = _); refine Keeps.via (s := s0) hx ?_ fun hk => ?_)
    | (extract_lets +onlyGivenNames x; clear_value (hx : x = _); ((have hy : @Eq PartSt x _ := hx); clear hx; subst hy))
    | (extract_lets +onlyGivenNames x; clear_value (hx : x = _); clear hx) | apply Keeps.ite | apply OutKeeps.ite
    | (refine Keeps.same ?_ rfl rfl rfl rfl rfl rfl rfl rfl))

end Sys2Proof.Machine
end

