-- ==== Sys2Proof/Laws/KeepsTick.lean ====
section
/-! SUPPORT. Every operation of Machine/Tick.lean keeps what Keeps (Safety.lean) says. -/

namespace Sys2Proof.Machine

theorem State.switchRefuse_keeps {s0 : State} (s : State) (reason : Nat) (hS : Keeps s0 s) : Keeps s0 (State.switchRefuse s reason) := by
  unfold State.switchRefuse
  with_reducible repeat' (first
    | assumption | apply State.wr_keeps | apply State.fault_keeps)

theorem State.tickSwitch_keeps {s0 : State} (s : State) (v : Nat) (hS : Keeps s0 s) : Keeps s0 (State.tickSwitch s v) := by
  unfold State.tickSwitch
  with_reducible repeat' (first
    | assumption | apply State.setReg_keeps | apply State.wr_keeps | apply State.switchRefuse_keeps
    | (extract_lets +onlyGivenNames x; clear_value (hx : x = _); refine Keeps.via (s := s0) hx ?_ fun hk => ?_)
    | (extract_lets +onlyGivenNames x; clear_value (hx : x = _); ((have hy : @Eq TickSt x _ := hx); clear hx; subst hy))
    | (extract_lets +onlyGivenNames x; clear_value (hx : x = _); clear hx) | apply Keeps.ite | split
    | (refine Keeps.same ?_ rfl rfl rfl rfl rfl rfl rfl rfl))

theorem execTickSwitch_keeps {s0 : State} (v : Nat) (s : State) (hS : Keeps s0 s) : OutKeeps s0 (execTickSwitch v s) := by
  unfold execTickSwitch
  with_reducible repeat' (first
    | assumption | apply State.tickSwitch_keeps | apply OutKeeps.next)

theorem State.tickCtrl_keeps {s0 : State} (s : State) (run : Bool) (hS : Keeps s0 s) : Keeps s0 (State.tickCtrl s run) := by
  unfold State.tickCtrl
  with_reducible repeat' (first
    | assumption | intro _ | apply State.wr_keeps | apply State.badAccess_keeps | apply hF
    | (extract_lets +onlyGivenNames x; clear_value (hx : x = _); refine Keeps.via (s := s0) hx ?_ fun hk => ?_)
    | (extract_lets +onlyGivenNames x; clear_value (hx : x = _); ((have hy : @Eq TickSt x _ := hx); clear hx; subst hy))
    | (extract_lets +onlyGivenNames x; clear_value (hx : x = _); (fail_if_success have := hF); refine Keeps.viaFunE (s := s0) hx ?_ fun hF => ?_)
    | apply Keeps.ite | split | (refine Keeps.same ?_ rfl rfl rfl rfl rfl rfl rfl rfl))

theorem execTickRun_keeps {s0 : State} (s : State) (hS : Keeps s0 s) : OutKeeps s0 (execTickRun s) := by
  unfold execTickRun
  with_reducible repeat' (first
    | assumption | apply State.tickCtrl_keeps | apply OutKeeps.next)

theorem execTickStop_keeps {s0 : State} (s : State) (hS : Keeps s0 s) : OutKeeps s0 (execTickStop s) := by
  unfold execTickStop
  with_reducible repeat' (first
    | assumption | apply State.tickCtrl_keeps | apply OutKeeps.next)

theorem execSwitchTargetPassed_keeps {s0 : State} (s : State) (hS : Keeps s0 s) : OutKeeps s0 (execSwitchTargetPassed s) := by
  unfold execSwitchTargetPassed
  with_reducible repeat' (first
    | assumption | apply State.wr_keeps | apply State.advanceNs_keeps | apply State.switchRefuse_keeps | apply OutKeeps.next
    | (extract_lets +onlyGivenNames x; clear_value (hx : x = _); refine Keeps.via (s := s0) hx ?_ fun hk => ?_)
    | (extract_lets +onlyGivenNames x; clear_value (hx : x = _); ((have hy : @Eq TickSt x _ := hx); clear hx; subst hy))
    | apply OutKeeps.ite | split | (refine Keeps.same ?_ rfl rfl rfl rfl rfl rfl rfl rfl))

theorem State.strokeInvalid_keeps {s0 : State} (s : State) (n : Nat) (d : Desc) (hS : Keeps s0 s) : Keeps s0 (State.strokeInvalid s n d) := by
  unfold State.strokeInvalid
  with_reducible repeat' (first
    | assumption | apply State.fault_keeps | apply State.markLost_keeps | apply State.rec__keeps
    | (extract_lets +onlyGivenNames x; clear_value (hx : x = _); refine Keeps.via (s := s0) hx ?_ fun hk => ?_) | apply Keeps.ite)

theorem State.sortDescs_keeps {s0 : State} (s : State) (n code : Nat) (l : List Desc) (hS : Keeps s0 s) : Keeps s0 (State.sortDescs s n code l).1 := by
  unfold State.sortDescs
  with_reducible repeat' (first
    | assumption | intro _ | apply State.strokeInvalid_keeps | apply Keeps.eachP | split)

theorem State.offer_keeps {s0 : State} (s : State) (n : Nat) (carried : Bool) (d : Desc) (q : List Desc) (hS : Keeps s0 s) : Keeps s0 (State.offer s n carried d q).1 := by
  unfold State.offer
  with_reducible repeat' (first
    | assumption | apply State.inc_keeps | apply State.fault_keeps | apply State.setTileProg_keeps | apply State.rec__keeps
    | (extract_lets +onlyGivenNames x; clear_value (hx : x = _); refine Keeps.via (s := s0) hx ?_ fun hk => ?_) | split)

theorem State.dispatch_keeps {s0 : State} (s : State) (n code : Nat) (l : List Desc) (hS : Keeps s0 s) : Keeps s0 (State.dispatch s n code l) := by
  unfold State.dispatch
  with_reducible repeat' (first
    | assumption | intro _ | apply State.strokeInvalid_keeps | apply State.offer_keeps | apply Keeps.eachP
    | (extract_lets +onlyGivenNames x; clear_value (hx : x = _); refine Keeps.via (s := s0) hx ?_ fun hk => ?_)
    | (extract_lets +onlyGivenNames x; clear_value (hx : x = _); refine Keeps.viaP (s := s0) hx ?_ fun hk => ?_)
    | (extract_lets +onlyGivenNames x; clear_value (hx : x = _); ((have hy : @Eq TickSt x _ := hx); clear hx; subst hy))
    | (extract_lets +onlyGivenNames x; clear_value (hx : x = _); clear hx) | split
    | (refine Keeps.same ?_ rfl rfl rfl rfl rfl rfl rfl rfl))

theorem State.loadTile_keeps {s0 : State} (s : State) (i : Image) (idx n : Nat) (late : Bool) (hS : Keeps s0 s) : Keeps s0 (State.loadTile s i idx n late) := by
  unfold State.loadTile
  with_reducible repeat' (first
    | assumption | intro _ | apply State.fault_keeps | apply State.setTileProg_keeps | apply State.markLost_keeps | apply State.rec__keeps
    | apply State.sortDescs_keeps | apply State.dispatch_keeps | apply Keeps.each | apply hF
    | (extract_lets +onlyGivenNames x; clear_value (hx : x = _); refine Keeps.via (s := s0) hx ?_ fun hk => ?_)
    | (extract_lets +onlyGivenNames x; clear_value (hx : x = _); refine Keeps.viaP (s := s0) hx ?_ fun hk => ?_)
    | (extract_lets +onlyGivenNames x; clear_value (hx : x = _); (fail_if_success have := hF); refine Keeps.viaFunB (s := s0) hx ?_ fun hF => ?_)
    | (extract_lets +onlyGivenNames x; clear_value (hx : x = _); clear hx) | apply Keeps.ite | split)

theorem State.loadTileAt_keeps {s0 : State} (s : State) (i : Image) (idx n : Nat) (late : Bool) (hS : Keeps s0 s) : Keeps s0 (State.loadTileAt s i idx n late) := by
  unfold State.loadTileAt
  with_reducible repeat' (first
    | assumption | intro _ | exact Keeps.refl _ | apply State.dispatch_keeps | apply State.loadTile_keeps | apply Keeps.ite | split
    | dsimp -zeta only)

theorem State.loadTiles_keeps {s0 : State} (s : State) (i : Image) (idx : Nat) (late : List Nat) (hS : Keeps s0 s) : Keeps s0 (State.loadTiles s i idx late) := by
  unfold State.loadTiles
  with_reducible repeat' (first
    | assumption | intro _ | apply State.loadTileAt_keeps | apply Keeps.each | apply Keeps.eachP)

theorem State.forceIdle_keeps {s0 : State} (s : State) (hS : Keeps s0 s) : Keeps s0 (State.forceIdle s) := by
  unfold State.forceIdle
  with_reducible repeat' (first
    | assumption | intro _ | apply State.budgetCore_keeps | apply State.haltRadio_keeps | apply Keeps.each | apply Keeps.ite | split)

theorem State.starvedTick_keeps {s0 : State} (s : State) (hS : Keeps s0 s) : Keeps s0 (State.starvedTick s) := by
  unfold State.starvedTick
  with_reducible repeat' (first
    | assumption | intro _ | apply State.wr_keeps | apply State.inc_keeps | apply Keeps.each
    | (extract_lets +onlyGivenNames x; clear_value (hx : x = _); ((have hy : @Eq TickSt x _ := hx); clear hx; subst hy))
    | (extract_lets +onlyGivenNames x; clear_value (hx : x = _); ((have hy : @Eq TickRec x _ := hx); clear hx; subst hy)) | split
    | (refine Keeps.same ?_ rfl rfl rfl rfl rfl rfl rfl rfl))

theorem State.tickRecord_keeps {s0 : State} (s : State) (hS : Keeps s0 s) : Keeps s0 (State.tickRecord s) := by
  unfold State.tickRecord
  with_reducible repeat' (first
    | assumption | apply State.incw_keeps | apply State.hostWr_keeps
    | (extract_lets +onlyGivenNames x; clear_value (hx : x = _); clear hx) | split)

theorem State.gateTiles_keeps {s0 : State} (s : State) (hS : Keeps s0 s) : Keeps s0 (State.gateTiles s) := by
  unfold State.gateTiles
  with_reducible repeat' (first
    | assumption | intro _ | exact Keeps.refl _
    | (extract_lets +onlyGivenNames x; clear_value (hx : x = _); refine Keeps.via (s := s0) hx ?_ fun hk => ?_)
    | (extract_lets +onlyGivenNames x; clear_value (hx : x = _); refine Keeps.viaP (s := s0) hx ?_ fun hk => ?_)
    | (extract_lets +onlyGivenNames x; clear_value (hx : x = _); ((have hy : @Eq TickSt x _ := hx); clear hx; subst hy))
    | (extract_lets +onlyGivenNames x; clear_value (hx : x = _); refine OptKeeps.via (s := s0) hx ?_ fun hk => ?_)
    | (extract_lets +onlyGivenNames x; clear_value (hx : x = _); clear hx) | dsimp -zeta only
    | (refine Keeps.same ?_ rfl rfl rfl rfl rfl rfl rfl rfl))

theorem State.endTick_keeps {s0 : State} (s : State) (hS : Keeps s0 s) : Keeps s0 (State.endTick s) := by
  unfold State.endTick
  with_reducible repeat' (first
    | assumption | apply State.forceIdle_keeps | apply State.starvedTick_keeps | apply State.tickRecord_keeps
    | (extract_lets +onlyGivenNames x; clear_value (hx : x = _); refine Keeps.via (s := s0) hx ?_ fun hk => ?_)
    | (extract_lets +onlyGivenNames x; clear_value (hx : x = _); ((have hy : @Eq TickSt x _ := hx); clear hx; subst hy))
    | (extract_lets +onlyGivenNames x; clear_value (hx : x = _); ((have hy : @Eq FabSt x _ := hx); clear hx; subst hy))
    | (refine Keeps.same ?_ rfl rfl rfl rfl rfl rfl rfl rfl))

theorem State.switchEdge_keeps {s0 : State} (s : State) (hS : Keeps s0 s) : Keeps s0 (State.switchEdge s) := by
  unfold State.switchEdge
  with_reducible repeat' (first
    | assumption | intro _ | exact Keeps.refl _ | apply State.wr_keeps | apply State.rec__keeps | apply CRes.done_keeps
    | apply OptKeeps.some | exact OptKeeps.none
    | (extract_lets +onlyGivenNames x; clear_value (hx : x = _); refine Keeps.via (s := s0) hx ?_ fun hk => ?_)
    | (extract_lets +onlyGivenNames x; clear_value (hx : x = _); refine Keeps.viaP (s := s0) hx ?_ fun hk => ?_)
    | (extract_lets +onlyGivenNames x; clear_value (hx : x = _); ((have hy : @Eq TickSt x _ := hx); clear hx; subst hy))
    | (extract_lets +onlyGivenNames x; clear_value (hx : x = _); refine OptKeeps.via (s := s0) hx ?_ fun hk => ?_)
    | (extract_lets +onlyGivenNames x; clear_value (hx : x = _); clear hx) | apply Keeps.ite | apply OptKeeps.ite | split
    | dsimp -zeta only | exact OptKeeps.get rfl (by assumption) | refine OptKeeps.get (by assumption) ?_
    | refine Keeps.ofMk (by assumption) ?_ | (refine Keeps.same ?_ rfl rfl rfl rfl rfl rfl rfl rfl))

theorem State.reqEdge_keeps {s0 : State} (s : State) (k : Nat) (hS : Keeps s0 s) : Keeps s0 (State.reqEdge s k) := by
  unfold State.reqEdge
  with_reducible repeat' (first
    | assumption | intro _ | exact Keeps.refl _ | apply State.setReq_keeps | apply State.sendServe_keeps | apply State.reqEnd_keeps
    | apply State.dropSecond_keeps | apply State.newGen_keeps | apply OptKeeps.some | exact OptKeeps.none
    | (extract_lets +onlyGivenNames x; clear_value (hx : x = _); refine Keeps.via (s := s0) hx ?_ fun hk => ?_)
    | (extract_lets +onlyGivenNames x; clear_value (hx : x = _); refine Keeps.viaP (s := s0) hx ?_ fun hk => ?_)
    | (extract_lets +onlyGivenNames x; clear_value (hx : x = _); refine OptKeeps.via (s := s0) hx ?_ fun hk => ?_)
    | (extract_lets +onlyGivenNames x; clear_value (hx : x = _); clear hx) | apply Keeps.ite | apply OptKeeps.ite | split
    | dsimp -zeta only | exact OptKeeps.get rfl (by assumption) | refine OptKeeps.get (by assumption) ?_
    | refine Keeps.ofMk (by assumption) ?_ | (refine Keeps.same ?_ rfl rfl rfl rfl rfl rfl rfl rfl))

theorem State.srvEdge_keeps {s0 : State} (s : State) (hS : Keeps s0 s) : Keeps s0 (State.srvEdge s) := by
  unfold State.srvEdge
  with_reducible repeat' (first
    | assumption | intro _ | apply State.flushFree_keeps | apply State.adRetry_keeps | apply State.reqEdge_keeps | apply Keeps.each)

theorem State.edgeMark_keeps {s0 : State} (s : State) (num : Nat) (hS : Keeps s0 s) : Keeps s0 (State.edgeMark s num) := by
  unfold State.edgeMark
  with_reducible repeat' (first
    | assumption | apply State.wr_keeps
    | (extract_lets +onlyGivenNames x; clear_value (hx : x = _); refine Keeps.via (s := s0) hx ?_ fun hk => ?_)
    | (extract_lets +onlyGivenNames x; clear_value (hx : x = _); ((have hy : @Eq TickSt x _ := hx); clear hx; subst hy))
    | (extract_lets +onlyGivenNames x; clear_value (hx : x = _); ((have hy : @Eq TickRec x _ := hx); clear hx; subst hy))
    | (refine Keeps.same ?_ rfl rfl rfl rfl rfl rfl rfl rfl))

theorem State.edgeLoad_keeps {s0 : State} (s : State) (num : Nat) (late : List Nat) (hS : Keeps s0 s) : Keeps s0 (State.edgeLoad s num late) := by
  unfold State.edgeLoad
  with_reducible repeat' (first
    | assumption | apply State.wr_keeps | apply State.loadTiles_keeps | split)

theorem State.edge_keeps {s0 : State} (s : State) (num : Nat) (late : List Nat) (hS : Keeps s0 s) : Keeps s0 (State.edge s num late) := by
  unfold State.edge
  with_reducible repeat' (first
    | assumption | intro _ | exact Keeps.refl _ | apply State.flushGather_keeps | apply State.flushDue_keeps | apply State.pump_keeps
    | apply State.powerEdge_keeps | apply State.applyCycle_keeps | apply State.quietSlots_keeps | apply State.compEdge_keeps
    | apply State.gateTiles_keeps | apply State.endTick_keeps | apply State.switchEdge_keeps | apply State.srvEdge_keeps
    | apply State.edgeMark_keeps | apply State.edgeLoad_keeps
    | (extract_lets +onlyGivenNames x; clear_value (hx : x = _); refine Keeps.via (s := s0) hx ?_ fun hk => ?_)
    | (extract_lets +onlyGivenNames x; clear_value (hx : x = _); refine Keeps.viaP (s := s0) hx ?_ fun hk => ?_)
    | (extract_lets +onlyGivenNames x; clear_value (hx : x = _); refine OptKeeps.via (s := s0) hx ?_ fun hk => ?_)
    | (extract_lets +onlyGivenNames x; clear_value (hx : x = _); clear hx) | apply Keeps.ite | split | dsimp -zeta only)

theorem execTickEdge_keeps {s0 : State} (late : List Nat) (s : State) (hS : Keeps s0 s) : OutKeeps s0 (execTickEdge late s) := by
  unfold execTickEdge
  with_reducible repeat' (first
    | assumption | apply State.advanceNs_keeps | apply State.edge_keeps | apply OutKeeps.next
    | (extract_lets +onlyGivenNames x; clear_value (hx : x = _); clear hx) | apply OutKeeps.ite | split)

theorem execTickUnitStopped_keeps {s0 : State} (s : State) (hS : Keeps s0 s) : OutKeeps s0 (execTickUnitStopped s) := by
  unfold execTickUnitStopped
  with_reducible repeat' (first
    | assumption | apply State.wr_keeps | apply State.advanceNs_keeps | apply State.endTick_keeps | apply OutKeeps.next
    | (extract_lets +onlyGivenNames x; clear_value (hx : x = _); refine Keeps.via (s := s0) hx ?_ fun hk => ?_)
    | (extract_lets +onlyGivenNames x; clear_value (hx : x = _); ((have hy : @Eq TickSt x _ := hx); clear hx; subst hy))
    | apply OutKeeps.ite | (refine Keeps.same ?_ rfl rfl rfl rfl rfl rfl rfl rfl))

theorem State.skipRadio_keeps {s0 : State} (s : State) (n i : Nat) (d : Desc) (hS : Keeps s0 s) : Keeps s0 (State.skipRadio s n i d) := by
  unfold State.skipRadio
  with_reducible repeat' (first
    | assumption | apply State.inc_keeps | apply State.setPhase_keeps | apply State.rec__keeps | apply State.postOf_keeps)

theorem State.closeDue_keeps {s0 : State} (s : State) (n t : Nat) (hS : Keeps s0 s) : Keeps s0 (State.closeDue s n t) := by
  unfold State.closeDue
  with_reducible repeat' (first
    | assumption | intro _ | exact Keeps.refl _ | apply State.budgetCore_keeps | apply State.haltRadio_keeps | apply Keeps.each
    | apply Keeps.eachP | apply OptKeeps.some | exact OptKeeps.none
    | (extract_lets +onlyGivenNames x; clear_value (hx : x = _); refine Keeps.via (s := s0) hx ?_ fun hk => ?_)
    | (extract_lets +onlyGivenNames x; clear_value (hx : x = _); refine Keeps.viaP (s := s0) hx ?_ fun hk => ?_)
    | (extract_lets +onlyGivenNames x; clear_value (hx : x = _); refine OptKeeps.via (s := s0) hx ?_ fun hk => ?_)
    | (extract_lets +onlyGivenNames x; clear_value (hx : x = _); clear hx) | apply Keeps.ite | apply OptKeeps.ite | split
    | dsimp -zeta only | exact OptKeeps.get rfl (by assumption) | refine OptKeeps.get (by assumption) ?_
    | refine Keeps.ofMk (by assumption) ?_ | (refine Keeps.same ?_ rfl rfl rfl rfl rfl rfl rfl rfl))

theorem State.deferStroke_keeps {s0 : State} (s : State) (n i : Nat) (hS : Keeps s0 s) : Keeps s0 (State.deferStroke s n i) := by
  unfold State.deferStroke
  with_reducible repeat' (first
    | assumption | intro _ | exact Keeps.refl _ | apply State.inc_keeps | apply State.setPhase_keeps | apply State.rec__keeps
    | (extract_lets +onlyGivenNames x; clear_value (hx : x = _); refine Keeps.via (s := s0) hx ?_ fun hk => ?_)
    | (extract_lets +onlyGivenNames x; clear_value (hx : x = _); refine Keeps.viaP (s := s0) hx ?_ fun hk => ?_)
    | (extract_lets +onlyGivenNames x; clear_value (hx : x = _); refine OptKeeps.via (s := s0) hx ?_ fun hk => ?_)
    | (extract_lets +onlyGivenNames x; clear_value (hx : x = _); clear hx) | dsimp -zeta only
    | (refine Keeps.same ?_ rfl rfl rfl rfl rfl rfl rfl rfl))

theorem State.tryStart_keeps {s0 : State} (s : State) (n i : Nat) (x : Slot) (hS : Keeps s0 s) : Keeps s0 (State.tryStart s n i x) := by
  unfold State.tryStart
  with_reducible repeat' (first
    | assumption | intro _ | exact Keeps.refl _ | apply State.tryStartCore_keeps | apply State.tryStartRadio_keeps
    | apply State.runQueue_keeps | apply OptKeeps.some | exact OptKeeps.none
    | (extract_lets +onlyGivenNames x; clear_value (hx : x = _); refine Keeps.via (s := s0) hx ?_ fun hk => ?_)
    | (extract_lets +onlyGivenNames x; clear_value (hx : x = _); refine Keeps.viaP (s := s0) hx ?_ fun hk => ?_)
    | (extract_lets +onlyGivenNames x; clear_value (hx : x = _); refine OptKeeps.via (s := s0) hx ?_ fun hk => ?_)
    | (extract_lets +onlyGivenNames x; clear_value (hx : x = _); clear hx) | apply Keeps.ite | apply OptKeeps.ite | split
    | dsimp -zeta only | exact OptKeeps.get rfl (by assumption) | refine OptKeeps.get (by assumption) ?_
    | refine Keeps.ofMk (by assumption) ?_ | (refine Keeps.same ?_ rfl rfl rfl rfl rfl rfl rfl rfl))

theorem execStrokeWindowOpen_keeps {s0 : State} (n i : Nat) (s : State) (hS : Keeps s0 s) : OutKeeps s0 (execStrokeWindowOpen n i s) := by
  unfold execStrokeWindowOpen
  with_reducible repeat' (first
    | assumption | intro _ | exact Keeps.refl _ | apply State.wr_keeps | apply State.advance_keeps | apply State.modSlot_keeps
    | apply State.setPhase_keeps | apply State.markLost_keeps | apply State.skipRadio_keeps | apply State.closeDue_keeps
    | apply State.deferStroke_keeps | apply State.tryStart_keeps | apply OptKeeps.some | exact OptKeeps.none | apply OutKeeps.next
    | (extract_lets +onlyGivenNames x; clear_value (hx : x = _); refine Keeps.via (s := s0) hx ?_ fun hk => ?_)
    | (extract_lets +onlyGivenNames x; clear_value (hx : x = _); refine Keeps.viaP (s := s0) hx ?_ fun hk => ?_)
    | (extract_lets +onlyGivenNames x; clear_value (hx : x = _); ((have hy : @Eq PartSt x _ := hx); clear hx; subst hy))
    | (extract_lets +onlyGivenNames x; clear_value (hx : x = _); refine OptKeeps.via (s := s0) hx ?_ fun hk => ?_)
    | (extract_lets +onlyGivenNames x; clear_value (hx : x = _); clear hx) | apply Keeps.ite | apply OptKeeps.ite | apply OutKeeps.ite
    | split | dsimp -zeta only | exact OptKeeps.get rfl (by assumption) | refine OptKeeps.get (by assumption) ?_
    | refine Keeps.ofMk (by assumption) ?_ | (refine Keeps.same ?_ rfl rfl rfl rfl rfl rfl rfl rfl))

theorem execIssueStop_keeps {s0 : State} (n i : Nat) (s : State) (hS : Keeps s0 s) : OutKeeps s0 (execIssueStop n i s) := by
  unfold execIssueStop
  with_reducible repeat' (first
    | assumption | intro _ | exact Keeps.refl _ | apply State.advance_keeps | apply State.budgetCore_keeps | apply State.haltRadio_keeps
    | apply OptKeeps.some | exact OptKeeps.none | apply OutKeeps.next
    | (extract_lets +onlyGivenNames x; clear_value (hx : x = _); refine Keeps.via (s := s0) hx ?_ fun hk => ?_)
    | (extract_lets +onlyGivenNames x; clear_value (hx : x = _); refine Keeps.viaP (s := s0) hx ?_ fun hk => ?_)
    | (extract_lets +onlyGivenNames x; clear_value (hx : x = _); refine OptKeeps.via (s := s0) hx ?_ fun hk => ?_)
    | (extract_lets +onlyGivenNames x; clear_value (hx : x = _); clear hx) | apply Keeps.ite | apply OptKeeps.ite | apply OutKeeps.ite
    | split | dsimp -zeta only | exact OptKeeps.get rfl (by assumption) | refine OptKeeps.get (by assumption) ?_
    | refine Keeps.ofMk (by assumption) ?_ | (refine Keeps.same ?_ rfl rfl rfl rfl rfl rfl rfl rfl))

end Sys2Proof.Machine
end

