-- ==== Sys2Proof/Laws/KeepsRegAccess.lean ====
section
/-! SUPPORT. Every operation of Machine/RegAccess.lean keeps what Keeps (Safety.lean) says. -/

namespace Sys2Proof.Machine

theorem State.shWrite_keeps {s0 : State} (s : State) (off : Nat) (v : Word) (hS : Keeps s0 s) : Keeps s0 (State.shWrite s off v) := by
  unfold State.shWrite
  with_reducible repeat' (first
    | assumption | apply State.setShadow_keeps | apply State.inc_keeps
    | (extract_lets +onlyGivenNames x; clear_value (hx : x = _); ((have hy : @Eq Bus x _ := hx); clear hx; subst hy)) | apply Keeps.ite
    | split | (refine Keeps.same ?_ rfl rfl rfl rfl rfl rfl rfl rfl))

theorem State.plainWrite_keeps {s0 : State} (s : State) (off : Nat) (r : RegRow) (v : Word) (hS : Keeps s0 s) : Keeps s0 (State.plainWrite s off r v) := by
  unfold State.plainWrite
  with_reducible repeat' (first
    | assumption | apply State.setReg_keeps | apply State.shWrite_keeps
    | (extract_lets +onlyGivenNames x; clear_value (hx : x = _); refine Keeps.via (s := s0) hx ?_ fun hk => ?_)
    | (extract_lets +onlyGivenNames x; clear_value (hx : x = _); clear hx) | apply Keeps.ite)

theorem State.regWrite_keeps {s0 : State} (s : State) (off : Nat) (r : RegRow) (v : Nat) (hS : Keeps s0 s) : Keeps s0 (State.regWrite s off r v) := by
  unfold State.regWrite
  with_reducible repeat' (first
    | assumption | apply State.wr_keeps | apply State.flushHeld_keeps | apply State.badAccess_keeps | apply State.meterTicks_keeps
    | apply State.tickMark_keeps | apply State.ringBell_keeps | apply State.barArrive_keeps | apply State.timeStep_keeps
    | apply State.timeRate_keeps | apply State.timeCtrl_keeps | apply State.mboxSubmit_keeps | apply State.blkCommit_keeps
    | apply State.partCtrl_keeps | apply State.fltFence_keeps | apply State.compSwitch_keeps | apply State.tickSwitch_keeps
    | apply State.tickCtrl_keeps | apply State.plainWrite_keeps
    | (extract_lets +onlyGivenNames x; clear_value (hx : x = _); refine Keeps.via (s := s0) hx ?_ fun hk => ?_)
    | (extract_lets +onlyGivenNames x; clear_value (hx : x = _); clear hx) | apply Keeps.ite | split)

theorem State.wordWrite_keeps {s0 : State} (s : State) (req off v : Nat) (hS : Keeps s0 s) : Keeps s0 (State.wordWrite s req off v) := by
  unfold State.wordWrite
  with_reducible repeat' (first
    | assumption | apply State.badAccess_keeps | apply State.regWrite_keeps
    | (extract_lets +onlyGivenNames x; clear_value (hx : x = _); ((have hy : @Eq Bus x _ := hx); clear hx; subst hy)) | apply Keeps.ite
    | split | (refine Keeps.same ?_ rfl rfl rfl rfl rfl rfl rfl rfl))

theorem execRegisterWrite_keeps {s0 : State} (req off : Nat) (be : BitVec 8) (v : Word) (s : State) (hS : Keeps s0 s) : OutKeeps s0 (execRegisterWrite req off be v s) := by
  unfold execRegisterWrite
  with_reducible repeat' (first
    | assumption | intro _ | exact Keeps.refl _ | apply State.badAccess_keeps | apply State.regWrite_keeps | apply State.wordWrite_keeps
    | apply OptKeeps.some | exact OptKeeps.none | apply OutKeeps.next
    | (extract_lets +onlyGivenNames x; clear_value (hx : x = _); refine Keeps.via (s := s0) hx ?_ fun hk => ?_)
    | (extract_lets +onlyGivenNames x; clear_value (hx : x = _); refine Keeps.viaP (s := s0) hx ?_ fun hk => ?_)
    | (extract_lets +onlyGivenNames x; clear_value (hx : x = _); refine OptKeeps.via (s := s0) hx ?_ fun hk => ?_)
    | (extract_lets +onlyGivenNames x; clear_value (hx : x = _); clear hx) | apply Keeps.ite | apply OptKeeps.ite | apply OutKeeps.ite
    | split | dsimp -zeta only | exact OptKeeps.get rfl (by assumption) | refine OptKeeps.get (by assumption) ?_
    | refine Keeps.ofMk (by assumption) ?_ | (refine Keeps.same ?_ rfl rfl rfl rfl rfl rfl rfl rfl))

theorem State.readEffect_keeps {s0 : State} (s : State) (off : Nat) (r : RegRow) (m : Word) (hS : Keeps s0 s) : Keeps s0 (State.readEffect s off r m) := by
  unfold State.readEffect
  with_reducible repeat' (first
    | assumption | apply State.setReg_keeps | apply Keeps.ite)

theorem State.setLatch_keeps {s0 : State} (s : State) (req off : Nat) (v : Word) (hS : Keeps s0 s) : Keeps s0 (State.setLatch s req off v) := by
  unfold State.setLatch
  with_reducible repeat' (first
    | assumption | (extract_lets +onlyGivenNames x; clear_value (hx : x = _); ((have hy : @Eq Bus x _ := hx); clear hx; subst hy))
    | (refine Keeps.same ?_ rfl rfl rfl rfl rfl rfl rfl rfl))

theorem State.dropLatch_keeps {s0 : State} (s : State) (l : Latch) (hS : Keeps s0 s) : Keeps s0 (State.dropLatch s l) := by
  unfold State.dropLatch
  with_reducible repeat' (first
    | assumption | (extract_lets +onlyGivenNames x; clear_value (hx : x = _); ((have hy : @Eq Bus x _ := hx); clear hx; subst hy))
    | (refine Keeps.same ?_ rfl rfl rfl rfl rfl rfl rfl rfl))

theorem State.answer_keeps {s0 : State} (s : State) (v : Word) (hS : Keeps s0 s) : Keeps s0 (State.answer s v) := by
  unfold State.answer
  with_reducible repeat' (first
    | assumption | (extract_lets +onlyGivenNames x; clear_value (hx : x = _); ((have hy : @Eq Bus x _ := hx); clear hx; subst hy))
    | (refine Keeps.same ?_ rfl rfl rfl rfl rfl rfl rfl rfl))

theorem State.latchFrac_keeps {s0 : State} (s : State) (req off : Nat) (hS : Keeps s0 s) : Keeps s0 (State.latchFrac s req off) := by
  unfold State.latchFrac
  with_reducible repeat' (first
    | assumption | apply State.setLatch_keeps | apply Keeps.ite)

theorem State.wholeRead_keeps {s0 : State} (s : State) (req off : Nat) (r : RegRow) (hS : Keeps s0 s) : Keeps s0 (State.wholeRead s req off r) := by
  unfold State.wholeRead
  with_reducible repeat' (first
    | assumption | apply State.readEffect_keeps | apply State.setLatch_keeps | apply State.dropLatch_keeps | apply State.answer_keeps
    | apply State.latchFrac_keeps
    | (extract_lets +onlyGivenNames x; clear_value (hx : x = _); refine Keeps.via (s := s0) hx ?_ fun hk => ?_)
    | (extract_lets +onlyGivenNames x; clear_value (hx : x = _); clear hx) | apply Keeps.ite | split)

theorem State.conflicts_keeps {s0 : State} (s : State) (off : Nat) (hS : Keeps s0 s) : Keeps s0 (State.conflicts s off) := by
  unfold State.conflicts
  with_reducible repeat' (first
    | assumption | intro _ | exact Keeps.refl _ | apply State.inc_keeps | apply State.took_keeps
    | (extract_lets +onlyGivenNames x; clear_value (hx : x = _); refine Keeps.via (s := s0) hx ?_ fun hk => ?_)
    | (extract_lets +onlyGivenNames x; clear_value (hx : x = _); refine Keeps.viaP (s := s0) hx ?_ fun hk => ?_)
    | (extract_lets +onlyGivenNames x; clear_value (hx : x = _); refine OptKeeps.via (s := s0) hx ?_ fun hk => ?_)
    | (extract_lets +onlyGivenNames x; clear_value (hx : x = _); clear hx) | apply Keeps.ite | split | dsimp -zeta only)

theorem execRcRead_keeps {s0 : State} (req off : Nat) (s : State) (hS : Keeps s0 s) : OutKeeps s0 (execRcRead req off s) := by
  unfold execRcRead
  with_reducible repeat' (first
    | assumption | intro _ | exact Keeps.refl _ | apply State.answer_keeps | apply State.wholeRead_keeps | apply State.conflicts_keeps
    | apply OptKeeps.some | exact OptKeeps.none | apply OutKeeps.next
    | (extract_lets +onlyGivenNames x; clear_value (hx : x = _); refine Keeps.via (s := s0) hx ?_ fun hk => ?_)
    | (extract_lets +onlyGivenNames x; clear_value (hx : x = _); refine Keeps.viaP (s := s0) hx ?_ fun hk => ?_)
    | (extract_lets +onlyGivenNames x; clear_value (hx : x = _); refine OptKeeps.via (s := s0) hx ?_ fun hk => ?_)
    | (extract_lets +onlyGivenNames x; clear_value (hx : x = _); clear hx) | apply Keeps.ite | apply OptKeeps.ite | apply OutKeeps.ite
    | split | dsimp -zeta only | exact OptKeeps.get rfl (by assumption) | refine OptKeeps.get (by assumption) ?_
    | refine Keeps.ofMk (by assumption) ?_ | (refine Keeps.same ?_ rfl rfl rfl rfl rfl rfl rfl rfl))

theorem execLowWordRead_keeps {s0 : State} (req off : Nat) (s : State) (hS : Keeps s0 s) : OutKeeps s0 (execLowWordRead req off s) := by
  unfold execLowWordRead
  with_reducible repeat' (first
    | assumption | intro _ | exact Keeps.refl _ | apply State.readEffect_keeps | apply State.setLatch_keeps | apply State.answer_keeps
    | apply State.latchFrac_keeps | apply State.wholeRead_keeps | apply State.conflicts_keeps | apply OptKeeps.some | exact OptKeeps.none
    | apply OutKeeps.next | (extract_lets +onlyGivenNames x; clear_value (hx : x = _); refine Keeps.via (s := s0) hx ?_ fun hk => ?_)
    | (extract_lets +onlyGivenNames x; clear_value (hx : x = _); refine Keeps.viaP (s := s0) hx ?_ fun hk => ?_)
    | (extract_lets +onlyGivenNames x; clear_value (hx : x = _); refine OptKeeps.via (s := s0) hx ?_ fun hk => ?_)
    | (extract_lets +onlyGivenNames x; clear_value (hx : x = _); clear hx) | apply Keeps.ite | apply OptKeeps.ite | apply OutKeeps.ite
    | split | dsimp -zeta only | exact OptKeeps.get rfl (by assumption) | refine OptKeeps.get (by assumption) ?_
    | refine Keeps.ofMk (by assumption) ?_ | (refine Keeps.same ?_ rfl rfl rfl rfl rfl rfl rfl rfl))

theorem execHighWordRead_keeps {s0 : State} (req off : Nat) (s : State) (hS : Keeps s0 s) : OutKeeps s0 (execHighWordRead req off s) := by
  unfold execHighWordRead
  with_reducible repeat' (first
    | assumption | intro _ | exact Keeps.refl _ | apply State.readEffect_keeps | apply State.dropLatch_keeps | apply State.answer_keeps
    | apply State.wholeRead_keeps | apply State.conflicts_keeps | apply OptKeeps.some | exact OptKeeps.none | apply OutKeeps.next
    | (extract_lets +onlyGivenNames x; clear_value (hx : x = _); refine Keeps.via (s := s0) hx ?_ fun hk => ?_)
    | (extract_lets +onlyGivenNames x; clear_value (hx : x = _); refine Keeps.viaP (s := s0) hx ?_ fun hk => ?_)
    | (extract_lets +onlyGivenNames x; clear_value (hx : x = _); refine OptKeeps.via (s := s0) hx ?_ fun hk => ?_)
    | (extract_lets +onlyGivenNames x; clear_value (hx : x = _); clear hx) | apply Keeps.ite | apply OptKeeps.ite | apply OutKeeps.ite
    | split | dsimp -zeta only | exact OptKeeps.get rfl (by assumption) | refine OptKeeps.get (by assumption) ?_
    | refine Keeps.ofMk (by assumption) ?_ | (refine Keeps.same ?_ rfl rfl rfl rfl rfl rfl rfl rfl))

theorem execNarrowRead_keeps {s0 : State} (off : Nat) (s : State) (hS : Keeps s0 s) : OutKeeps s0 (execNarrowRead off s) := by
  unfold execNarrowRead
  with_reducible repeat' (first
    | assumption | apply State.badAccess_keeps | apply State.answer_keeps | apply OutKeeps.next | apply OutKeeps.ite)

end Sys2Proof.Machine
end

