-- ==== Sys2Proof/Laws/Lanes.lean ====
section
/-! SUPPORT. Lanes of a register: what is read back of a register made of lanes, and of a write under a predicate. -/

namespace Sys2Proof.Machine

theorem lane_lt (v w i : Nat) : lane v w i < 2 ^ w := bits_lt _ _ _

theorem lane_fromLanes (w : Nat) (l : List Nat) (i : Nat) (hi : i < l.length) : lane (fromLanes w l) w i = l[i] % 2 ^ w := by
  induction l generalizing i with
  | nil => simp at hi
  | cons x r ih =>
    cases i with
    | zero => simp [lane, bits, fromLanes]
    | succ i =>
      have h := ih i (by simpa using hi)
      have hx : x % 2 ^ w < 2 ^ w := Nat.mod_lt _ (Nat.two_pow_pos w)
      have e : lane (fromLanes w (x :: r)) w (i + 1) = lane (fromLanes w r) w i := by
        unfold lane bits
        rw [fromLanes, Nat.mul_succ, Nat.add_comm (w * i) w, Nat.pow_add, ← Nat.div_div_eq_div_mul,
          Nat.add_mul_div_left _ _ (Nat.two_pow_pos w), Nat.div_eq_of_lt hx, Nat.zero_add]
      rw [e, h]
      simp

theorem testBit_lane (v w i j : Nat) : (lane v w i).testBit j = (decide (j < w) && v.testBit (w * i + j)) := testBit_bits _ _ _ _

theorem lane_or (x y w i : Nat) : lane (x ||| y) w i = lane x w i ||| lane y w i := by
  apply Nat.eq_of_testBit_eq; intro j
  simp [testBit_lane]
  cases decide (j < w) <;> simp

theorem lane_and (x y w i : Nat) : lane (x &&& y) w i = lane x w i &&& lane y w i := by
  apply Nat.eq_of_testBit_eq; intro j
  simp [testBit_lane]
  cases decide (j < w) <;> simp

theorem lane_xor (x y w i : Nat) : lane (x ^^^ y) w i = lane x w i ^^^ lane y w i := by
  apply Nat.eq_of_testBit_eq; intro j
  simp [testBit_lane]
  cases decide (j < w) <;> simp

/-- A lane that lies within the low n bits. -/
theorem lane_mod (v n w i : Nat) (h : w * i + w ≤ n) : lane (v % 2 ^ n) w i = lane v w i := by
  apply Nat.eq_of_testBit_eq; intro j
  simp only [testBit_lane, Nat.testBit_mod_two_pow]
  by_cases hj : j < w
  · have : w * i + j < n := by omega
    simp [this]
  · simp [hj]

theorem lane_granMask (p j : Nat) (h : j < 512) : lane (granMask p) 16 j = if bit p j then 65535 else 0 := by
  unfold granMask
  rw [lane_fromLanes _ _ _ (by simpa using h)]
  simp only [List.getElem_map, List.getElem_range]
  split <;> rfl

/-- A write under a predicate. -/
theorem blend_blended (p old new : Nat) : Blended p old new (blend p old new % 2 ^ 8192) := by
  intro j hj
  rw [lane_mod _ _ _ _ (by omega)]
  show lane ((new &&& granMask p) ||| (old ^^^ (old &&& granMask p))) 16 j = _
  rw [lane_or, lane_xor, lane_and, lane_and, lane_granMask p j hj]
  have h1 := lane_lt new 16 j
  have h2 := lane_lt old 16 j
  split
  · rw [show (65535 : Nat) = 2 ^ 16 - 1 from rfl, Nat.and_two_pow_sub_one_eq_mod, Nat.and_two_pow_sub_one_eq_mod, Nat.mod_eq_of_lt h1,
      Nat.mod_eq_of_lt h2, Nat.xor_self, Nat.or_zero]
  · simp

theorem lanes_mapLanes (w n : Nat) (f : Nat → Nat × Nat) (g : Nat → Nat) (hn : 8192 / w ≤ n) (h : ∀ i, i < n → (f i).1 % 2 ^ w = g i) :
    Lanes w g (mapLanes w n f).1 := by
  intro i hi
  unfold mapLanes
  rw [lane_fromLanes _ _ _ (by simp; omega)]
  simp only [List.getElem_map, List.getElem_range]
  exact h i (by omega)

/-- A vector instruction that is ready completes. -/
theorem writesVector_of (i : Issue → Word → Instr) {s : State} {x : Issue} {w : Word} {b : Bank} {op mask : Nat} {okFmt okSub : Bool}
    {uses : List CReg} {f : State → Bank → Nat × Nat} {n : Nat} {P : Nat → Prop} (h : Issues s x w b)
    (he : exec (i x w) s = vecIssue op x w mask okFmt okSub uses s f n) (hop : wOp w = op)
    (hl : (!wVar w && onlyBits w (mPg + mask) && okSub) = true) (hf : okFmt = true) (hP : P (f s b).1) : WritesVector i s x w b n P := by
  obtain ⟨b', h1, h2, h3, h4, h5, h6, h7⟩ := State.joinBundle_alone (s := s.took n) (k := issueKey x) (b := b) (x := x)
    (some (.v (vVd w), blend (b.pR (wPg w)) (b.vR (vVd w)) (f s b).1)) (f s b).2 h.bank h.alone.1 h.alone.2.1 h.alone.2.2.1
    h.alone.2.2.2.2.1 h.alone.2.2.2.2.2 h.runs.2.2.1
  refine ⟨_, (f s b).1, blend (b.pR (wPg w)) (b.vR (vVd w)) (f s b).1 % 2 ^ 8192, (f s b).2, ?_, ⟨⟨b', h1, h2, h3, ?_, ?_⟩, h6, h7⟩, ?_, hP⟩
  · rw [he]
    unfold vecIssue
    rw [coreIssue_ready h hop hl (by intro hp; exact absurd hp (by decide)), if_pos hf]
    rfl
  · rw [h4, h.alone.2.2.2.1]
  · rw [h5]; simp [h.alone.2.2.2.1]
  · exact blend_blended _ _ _

theorem writesVector_vec2 (i : Issue → Word → Instr) {s : State} {x : Issue} {w : Word} {b : Bank} {op : Nat} {ok : Bool}
    {fl : Val → Val → Val} {int : Int → Int → Int} {cx : Int × Int → Int × Int → Int × Int} {P : Nat → Prop} (h : Issues s x w b)
    (he : exec (i x w) s = vec2 op ok fl int cx x w s) (hop : wOp w = op) (hv : wVar w = false)
    (hl : onlyBits w (mPg + (mVd + mVa + mVb + mFmt)) = true) (hf : ok = true)
    (hP : P (laneOp (vFmt w) fl int cx (b.pR (wPg w)) (b.vR (vVa w)) (b.vR (vVb w))).1) : WritesVector i s x w b 0 P := by
  unfold vec2 at he
  exact writesVector_of i h he hop (by simp [hv, hl]) hf hP

theorem writesVector_vec1 (i : Issue → Word → Instr) {s : State} {x : Issue} {w : Word} {b : Bank} {op mask : Nat} {okSub : Bool}
    {f : Nat → Nat × Nat} {P : Nat → Prop} (h : Issues s x w b)
    (he : exec (i x w) s = vec1 op mask okSub f x w s) (hop : wOp w = op) (hv : wVar w = false)
    (hl : onlyBits w (mPg + (mVd + mVa + mFmt + mask)) = true) (hs : okSub = true) (hf : (vFmt w == 0xA) = true)
    (hP : ∀ new, (∀ k, k < 256 → lane new 32 k = (f (lane (b.vR (vVa w)) 32 k)).1 % 2 ^ 32) → P new) : WritesVector i s x w b 0 P := by
  unfold vec1 at he
  refine writesVector_of i h he hop (by simp [hv, hl, hs]) hf (hP _ ?_)
  refine lanes_mapLanes 32 256 _ (fun k => (f (lane (b.vR (vVa w)) 32 k)).1 % 2 ^ 32) (by omega) (fun k _ => ?_)
  split <;> rfl

end Sys2Proof.Machine
end

