-- ==== Sys2Proof/Tests/Slice0.lean ====
section
/-! SUPPORT. The model's own tests: the checks of well-formedness, and for each statement that has hypotheses a concrete state and
operands that meet them. -/

open Sys2Proof.Machine

namespace Sys2Proof.Tests

set_option maxRecDepth 100000
set_option Elab.async false

/-! ### Well-formedness and worked examples -/

/-! ### Well-formedness: for each check, a term it refuses -/

/-- Operands that every check takes. -/
def anIssue : Issue := { tile := 0, core := 0, bank := 0, slot := 0, last := true, upsets := [] }
def aPacket : Packet :=
  { type := 0, poison := false, cp := false, retry := false, lines := 0, dst := 0, src := 0, domain := 0, addr := 0, age := 0, tag := 0,
    seq := 0, rop := 0, fmt := 0, w64 := false, status := 0, var := 0, count := 0, kind := 0, check := 0, payload := [] }
def aLoop : Loop :=
  { temps := [], hbm := [], rails := [], power := 0, overrun := false, rate := none, rx := none, phase := 0, send := [], ready := false,
    shadow := false }
def aBoot : Boot := { puf := true, badRecords := [], badImages := [], failed := [] }

def aKept : Kept := ⟨[], 0, 0⟩
def anArrival : Arrival := ⟨0, 2⟩

/-- And one of each kind that a check refuses. -/
def badIssue : Issue := { anIssue with tile := 8 }
def badPacket : Packet := { aPacket with type := 256 }
def badLoop : Loop := { aLoop with power := 4294967296 }
def badBoot : Boot := { aBoot with badRecords := [3] }
def badKept : Kept := ⟨[], 0, 65536⟩
def badArrival : Arrival := { anArrival with port := 37 }

/-- The check of Issue takes anIssue and refuses it with any one field out of its range. -/
theorem test_refuses_Issue :
    anIssue.ok = true ∧ ([{ anIssue with tile := 8 }, { anIssue with core := 16 }, { anIssue with bank := 4 }, { anIssue with slot := 4 }] : List Issue).all (fun x => !x.ok) = true := by decide +kernel

/-- The check of Packet takes aPacket and refuses it with any one field out of its range. -/
theorem test_refuses_Packet :
    aPacket.ok = true ∧ ([{ aPacket with type := 256 }, { aPacket with lines := 16 }, { aPacket with dst := 65536 }, { aPacket with src := 65536 }, { aPacket with domain := 65536 }, { aPacket with addr := (2 ^ 48) }, { aPacket with age := 65536 }, { aPacket with tag := 65536 }, { aPacket with seq := 4294967296 }, { aPacket with rop := 16 }, { aPacket with fmt := 16 }, { aPacket with status := 256 }, { aPacket with var := 256 }, { aPacket with count := 65536 }, { aPacket with kind := 16 }, { aPacket with check := 4294967296 }, { aPacket with payload := [256] }, { aPacket with payload := List.replicate 1025 0 }] : List Packet).all (fun x => !x.ok) = true := by decide +kernel

/-- The check of Loop takes aLoop and refuses it with any one field out of its range. -/
theorem test_refuses_Loop :
    aLoop.ok = true ∧ ([{ aLoop with temps := [65536] }, { aLoop with hbm := [65536] }, { aLoop with rails := [(4294967296, 0)] }, { aLoop with rails := [(0, 65536)] }, { aLoop with power := 4294967296 }, { aLoop with send := [(32, true, [])] }, { aLoop with send := [(0, true, [256])] }] : List Loop).all (fun x => !x.ok) = true := by decide +kernel

/-- The check of Boot takes aBoot and refuses it with any one field out of its range. -/
theorem test_refuses_Boot :
    aBoot.ok = true ∧ ([{ aBoot with badRecords := [3] }, { aBoot with badImages := [3] }, { aBoot with failed := [(16, 0)] }, { aBoot with failed := [(0, 1024)] }, { aBoot with cores := [128] }, { aBoot with tiles := [8] }, { aBoot with stackIds := [32] }] : List Boot).all (fun x => !x.ok) = true := by decide +kernel

/-- The check of Kept takes aKept and refuses it with any one field out of its range. -/
theorem test_refuses_Kept :
    aKept.ok = true ∧ ([{ aKept with toks := [4294967296] }, { aKept with accept := 18446744073709551616 }, { aKept with version := 65536 }] : List Kept).all (fun x => !x.ok) = true := by decide +kernel

/-- The check of Arrival takes anArrival and refuses it with any one field out of its range. -/
theorem test_refuses_Arrival :
    anArrival.ok = true ∧ ([{ anArrival with port := 37 }, { anArrival with lvc := 4 }, { anArrival with lvc := 1 }] : List Arrival).all (fun x => !x.ok) = true := by decide +kernel

/-- Commands with one operand out of its range (registerWrite … maxOp). -/
theorem test_refuses_commands_1 :
    ([.registerWrite 65536 0 0 0, .registerWrite 0 268435456 0 0, .lowWordRead 65536 0, .lowWordRead 0 268435456, .rcRead 65536 0,
      .rcRead 0 268435456, .tickEdge [10], .strokeWindowOpen 10 0, .strokeWindowOpen 0 8192, .issueStop 10 0, .issueStop 0 8192,
      .commit 268435456 0, .commit 0 1073741824, .revert 268435456 0, .revert 0 1073741824, .tickSwitch 18446744073709551616,
      .meshReplay 14 0, .meshReplay 0 4, .zeroingComplete 4 0, .zeroingComplete 0 65536, .channelScrubComplete 512,
      .wayWriteBackComplete 8, .nlw badIssue 0, .nmm badIssue 0, .ndrn badIssue 0, .nclr badIssue 0, .hlv badIssue 0,
      .hmv badIssue 0, .nop badIssue 0, .add badIssue 0, .sub badIssue 0, .andOp badIssue 0, .orOp badIssue 0, .xorOp badIssue 0,
      .shl badIssue 0, .shr badIssue 0, .sra badIssue 0, .mul badIssue 0, .minOp badIssue 0, .maxOp badIssue 0]
      : List Instr).all (fun i => !i.wellFormed) = true := by decide +kernel

/-- Commands with one operand out of its range (cmp … rld). -/
theorem test_refuses_commands_2 :
    ([.cmp badIssue 0, .li badIssue 0, .lui badIssue 0, .mova badIssue 0, .movs badIssue 0, .adda badIssue 0, .jmp badIssue 0,
      .jmpr badIssue 0, .exit badIssue 0, .csrr badIssue 0, .csrw badIssue 0, .vadd badIssue 0, .vsub badIssue 0, .vmul badIssue 0,
      .vfma badIssue 0, .vmin badIssue 0, .vmax badIssue 0, .vdiv badIssue 0, .vsqrt badIssue 0, .vfn badIssue 0, .vcvt badIssue 0,
      .vcmp badIssue 0, .vsel badIssue 0, .vred badIssue 0, .vbc badIssue 0, .vlogic badIssue 0, .vrng badIssue 0, .vacr badIssue 0,
      .vacw badIssue 0, .vld badIssue 0, .vst badIssue 0, .lds badIssue 0, .sts badIssue 0, .dma badIssue 0, .dmaComplete 8 0 0,
      .dmaComplete 0 16 0, .dmaComplete 0 0 4, .dmaw badIssue 0, .fence badIssue 0, .rld badIssue 0]
      : List Instr).all (fun i => !i.wellFormed) = true := by decide +kernel

/-- Commands with one operand out of its range (rst … handoffOpen). -/
theorem test_refuses_commands_3 :
    ([.rst badIssue 0, .rmst badIssue 0, .rred badIssue 0, .ratom badIssue 0, .rsemp badIssue 0, .semw badIssue 0, .semp badIssue 0,
      .semt badIssue 0, .semr badIssue 0, .semaphoreGrant 4294967296, .coll badIssue 0, .ikc badIssue 0, .qlc badIssue 0,
      .hbmChanFail 512, .patrolScrub 512 0 0 [] 0 [], .patrolScrub 0 4294967296 0 [] 0 [], .patrolScrub 0 0 4294967296 [] 0 [],
      .patrolScrub 0 0 0 [] 4294967296 [], .patrolScrub 0 0 0 [0xC0000000] 0 [], .patrolScrub 0 0 0 [] 0 [0x18000000000],
      .submit 4096 0, .submit 0 18446744073709551616, .cancel 4096 0, .cancel 0 18446744073709551616, .adapterLoad 4096 0,
      .adapterLoad 0 18446744073709551616, .adapterLive 1024, .adapterDrop 4096 0, .adapterDrop 0 18446744073709551616,
      .batchBoundary 64, .promptPhaseStart 64, .deadlineMissed 64 0, .deadlineMissed 0 65536, .kvReady 8, .stepDone 8,
      .promptReq badPacket aKept, .promptReq aPacket badKept, .handoffOpen aPacket (2 ^ 512) aKept, .handoffOpen badPacket 0 aKept,
      .handoffOpen aPacket 0 badKept]
      : List Instr).all (fun i => !i.wellFormed) = true := by decide +kernel

/-- Commands with one operand out of its range (handoffReply … maxa). -/
theorem test_refuses_commands_4 :
    ([.handoffReply badPacket, .kvDone badPacket, .kvAck badPacket, .token badPacket, .cancelMsg badPacket, .memberLost 61440,
      .sample 4 0 true, .sample 0 65536 true, .initCtx 4 0, .initCtx 0 65536, .scribeNop 128 true, .clr 128 true, .mov 128 true,
      .mpy 128 true, .mac 128 true, .msu 128 true, .macl 128 true, .mag 128 true, .maga 128 true, .addr 128 true, .subr 128 true,
      .acca 128 true, .ash 128 true, .neg 128 true, .rmpy 128 true, .rmac 128 true, .bexp 128 true, .norm 128 true, .expx 128 true,
      .normp 128 true, .bf2 128 true, .bf3 128 true, .bf4 128 true, .shuf 128 true, .gold 128 true, .modm 128 true, .demap 128 true,
      .bfpx 128 true, .bfpc 128 true, .maxa 128 true]
      : List Instr).all (fun i => !i.wellFormed) = true := by decide +kernel

/-- Commands with one operand out of its range (mina … timeStep). -/
theorem test_refuses_commands_5 :
    ([.mina 128 true, .loop 128 true, .scribeJmp 128 true, .aga 128 true, .movi 128 true, .movr 128 true, .movl 128 true,
      .seqi 128 true, .seqs 128 true, .xfer 128 true, .xwait 128 true, .scribeSemp 128 true, .scribeSemw 128 true,
      .scribeExit 128 true, .ldpcDec 2 true, .turboDec 2 true, .ldpcEnc 2 true, .polarDec 2 true, .convDec 2 true,
      .frameReceived 32 true true true 0 [], .frameReceived 0 true true true 4294967296 [], .frameReceived 0 true true true 0 [256],
      .packetStall true 8192, .xoffHoldEnd 8, .pfcFrame 32 0 (List.replicate 8 0), .pfcFrame 0 256 (List.replicate 8 0),
      .pfcFrame 0 0 (List.replicate 8 65536), .pfcFrame 0 0 [], .pfcPauseExpiry 32 0, .pfcPauseExpiry 0 8, .pfcRefresh 32,
      .ethLinkDown 32, .ethLinkUp 32, .egressSelection 32 true, .txLate 8192 0, .txLate 0 65536, .gateChange 32, .svcSubmit 8192,
      .svcCancel 8192, .timeStep 18446744073709551616]
      : List Instr).all (fun i => !i.wellFormed) = true := by decide +kernel

/-- Commands with one operand out of its range (timeRate … remoteTimeout). -/
theorem test_refuses_commands_6 :
    ([.timeRate 18446744073709551616, .timeSource 3 0 0, .timeSource 0 2 0, .timeSource 0 0 64, .ref10Count 4294967296,
      .timeExchange 36 0 0 0 0 true, .timeExchange 0 0 0 0 256 true, .timePulse 4, .pulseEnd 4, .barrierArrive 8, .arrSemArrive 8,
      .arrive badPacket, .release badPacket anArrival, .release aPacket badArrival, .barrierFire 8, .barrierTimeout 8,
      .linkTrain 36 0 0 true, .linkTrain 0 65536 0 true, .linkTrain 0 0 65536 true, .flitReplay 36 0, .flitReplay 0 4,
      .fabLinkDown 36, .forward aPacket 4 0, .forward aPacket 0 68719476736, .forward badPacket 0 0, .load badPacket true,
      .store badPacket, .mstore badPacket anArrival, .mstore aPacket badArrival, .reduce badPacket, .atomic badPacket true,
      .sempost badPacket, .rsvReq badPacket, .rsvRel badPacket, .loadRsp badPacket, .ack aPacket 37, .ack badPacket 0,
      .atomicRsp badPacket, .rsvRsp badPacket, .remoteTimeout 65536 0]
      : List Instr).all (fun i => !i.wellFormed) = true := by decide +kernel

/-- Commands with one operand out of its range (remoteTimeout … tailPoll). -/
theorem test_refuses_commands_7 :
    ([.remoteTimeout 0 4294967296, .retry 65536 0, .retry 0 4294967296, .mcastAckTimeout 65536 0, .mcastAckTimeout 0 4294967296,
      .leaseExpiry 65536, .leaseRenewal 64 0, .leaseRenewal 0 4294967296, .orderGateStart 64, .orderMismatch 64, .ready badPacket,
      .data aPacket 65536, .data badPacket 0, .putPkt badPacket, .exp1 badPacket, .expr badPacket, .finalPkt badPacket,
      .resend badPacket, .abort badPacket, .peerTimeout 64 0 0, .peerTimeout 0 4294967296 0, .peerTimeout 0 0 4096, .create 64,
      .quiesce 64, .quiesceComplete 64, .quiesceSlow 64, .resume 64, .resetPart 64 true, .remove 64, .compSwitch 64 0,
      .compSwitch 0 18446744073709551616, .drainWindowClose 64, .fltFence 4294967296, .unitFence 8 0, .unitFence 0 128,
      .doorbell 4096 [], .doorbell 0 [(0, 256)], .doorbell 0 [(2 ^ 84, 0)], .tailPoll 4096 [], .tailPoll 0 [(0, 256)]]
      : List Instr).all (fun i => !i.wellFormed) = true := by decide +kernel

/-- Commands with one operand out of its range (tailPoll … pcieLinkUp). -/
theorem test_refuses_commands_8 :
    ([.tailPoll 0 [(2 ^ 84, 0)], .commandFetch 4096 true [], .commandFetch 0 true [(0, 256)], .commandFetch 0 true [(2 ^ 84, 0)],
      .hqNop 4096 0, .hqNop 0 18446744073709551616, .copyIn 4096 0 true, .copyIn 0 18446744073709551616 true, .copyOut 4096 0 true,
      .copyOut 0 18446744073709551616 true, .semPost 4096 0, .semPost 0 18446744073709551616, .netTx 4096 0 true,
      .netTx 0 18446744073709551616 true, .rxBuf 4096 0, .rxBuf 0 18446744073709551616, .hostAccessTimeout 4096 none,
      .hostAccessTimeout 0 (some 18446744073709551616), .managementLoop badLoop, .smbusWrite 256 0 true, .smbusWrite 0 65536 true,
      .resetNAssert 4294967296, .coldStart badBoot, .wakeN 4294967296, .samplePreload (2 ^ 1024) 0, .samplePreload 0 (2 ^ 1024),
      .extest (2 ^ 1024) 0, .extest 0 (2 ^ 1024), .highWordRead 65536 0, .highWordRead 0 268435456, .narrowRead 268435456,
      .xferComplete 128, .malformedPacket badPacket, .hbmSelfRefresh 512 true, .pcieLinkUp 8 0, .pcieLinkUp 0 32]
      : List Instr).all (fun i => !i.wellFormed) = true := by decide +kernel

/-- The same commands with every operand in its range are well formed. -/
theorem test_takes_commands :
    ([.registerWrite 0 0 0 0, .tickUnitStopped, .nop anIssue 0, .cmp anIssue 0, .vsub anIssue 0, .vbc anIssue 0, .fence anIssue 0,
      .coll anIssue 0, .deadlineMissed 0 0, .initCtx 0 0, .acca 0 true, .shuf 0 true, .movr 0 true, .polarDec 0 true, .gateChange 0,
      .timeExchange 0 0 0 0 0 true, .linkTrain 0 0 0 true, .loadRsp aPacket, .data aPacket 0, .resume 0, .copyIn 0 0 true, .verify,
      .power, .bypass, .pcieLinkUp 0 0]
      : List Instr).all (fun i => i.wellFormed) = true := by decide +kernel

/-! ### Worked examples of the spec, on one operation each -/

/-- 04, the example of R143: FP32 0x3F805A00 to BF16 with r = 8 has D = 90, so a draw of 89 rounds up and one of 90 does not. -/
theorem test_stochastic_example :
    (bf16.encode (.sr 8 89) .sat (fp32.decode 0x3F805A00)).1 = 0x3F81 ∧ (bf16.encode (.sr 8 90) .sat (fp32.decode 0x3F805A00)).1 = 0x3F80 := by
  decide +kernel

/-- 04, the example of R142: 2^24, 1 and −2^24 summed in FP32 give 0 in that order and 1 with the 1 last. -/
theorem test_cursive_example :
    f32add (f32add 0x4B800000 0x3F800000) 0xCB800000 = 0 ∧ f32add (f32add 0x4B800000 0xCB800000) 0x3F800000 = 0x3F800000 := by decide +kernel

/-- R120, R128: 1000 saturates to E4M3's largest finite, S.1111.110, which is 448; E2M3's smallest subnormal is 2^−3. -/
theorem test_formats :
    (fmtOf 0).map (fun f => f.encode .rne .sat (.fin false 1000 0)) = some (0x7E, flagSat) ∧
      (fmtOf 0).map (fun f => f.decode 0x7E) = some (.fin false 14 5) ∧ (fmtOf 4).map (fun f => f.decode 1) = some (.fin false 1 (-3)) := by decide +kernel

/-- 06, the example of R207: channel[128] with ilv_code 6 and channel[40] with ilv_code 3. -/
theorem test_address_example :
    let s := (State.reset.wr (Reg.TILE_CHAN_CFG.ilv_code 4 0) 6).wr (Reg.TILE_CHAN_CFG.ilv_code 1 8) 3
    s.decodeHbm 0x00600001A5C0 = (137, 0x5C0) ∧ s.decodeHbm 0x001E00025000 = (44, 0x4800) := by decide +kernel

/-! ### The reset state -/

/-- An instruction can issue where no request of its context is outstanding. -/
theorem issues_of {s : State} {x : Issue} {w : Word} {b : Bank}
    (h : s.bank (issueKey x) = some b ∧ (x.tile < 8 ∧ x.core < 16 ∧ x.bank < 4) ∧ (slotFits (wOp w) x.slot = true ∧ x.slot < 4) ∧
      (b.live = true ∧ b.slot.isSome = true ∧ b.hold = .free ∧ b.queue = [] ∧ s.issueOpen x.tile b.slot = true) ∧
      (b.issued = 0 ∧ b.writes = [] ∧ b.dests = [] ∧ b.branch = none ∧ b.badJump = false ∧ x.last = true) ∧
      (b.pc + 32 ≤ s.progSize b.part ∧ b.pc % 32 = 0 ∧
        (NMap.get [] s.core.icache (issueKey x)).head? = some (b.part, (s.progBase b.part + b.pc) / 1024)) ∧
      s.fab.out.all (fun o => decide (o.bank ≠ some (issueKey x))) = true ∧ x.upsets = [] ∧ x.cut = none) :
    Issues s x w b := by
  obtain ⟨h1, h2, h3, h4, h5, h6, h7, h8⟩ := h
  refine ⟨h1, h2, h3, h4, h5, h6, fun r => ?_, h8⟩
  have e1 : ∀ f : RemOp → Bool, (s.fab.out.any fun o => decide (o.bank = some (issueKey x)) && f o) = false := by
    intro f
    rw [List.any_eq_false]
    intro o ho
    have := (List.all_eq_true.mp h7) o ho
    simp_all
  unfold State.regPending
  rw [e1 (fun o => _), h1]
  simp [h4.2.2.2.1]

/-- Nothing is queued where every bank held says so. -/
theorem unqueued_of {s : State}
    (h : s.core.banks.all (fun e => e.2.queue.isEmpty && (match e.2.hold with | .free => true | .semw _ => true | _ => false)) = true) : Unqueued s := by
  have key : ∀ (l : NMap Bank) (j : Nat) (c : Bank), NMap.find l j = some c → (j, c) ∈ l := by
    intro l j c
    induction l with
    | nil => intro hl; cases hl
    | cons e r ih =>
      intro hl
      unfold NMap.find at hl
      split at hl
      · rename_i he; cases hl; exact List.mem_cons.mpr (.inl (by rw [← he]))
      · exact List.mem_cons_of_mem _ (ih hl)
  intro j c hc
  have hq := List.all_eq_true.mp h _ (key _ j c hc)
  rw [Bool.and_eq_true] at hq
  obtain ⟨h1, h2⟩ := hq
  refine ⟨List.isEmpty_iff.mp h1, ?_⟩
  cases hh : c.hold with
  | free => exact .inl rfl
  | semw r => exact .inr ⟨r, rfl⟩
  | _ => simp [hh] at h2

/-- No channel of a range has failed where none has. -/
theorem decodeHbm_lt (s : State) {a : Nat} (h : isHbm a = true) : (s.decodeHbm a).1 < 640 := by
  have hc : a / chanBytes < 512 := by simp [isHbm, chanBytes] at h ⊢; omega
  unfold State.decodeHbm ilvSet
  simp only
  generalize a / chanBytes = c at *
  have hj : s.rd (Reg.TILE_CHAN_CFG.ilv_code (chanTile c) (c - firstChan (chanTile c))) < 2 ^ 3 := Nat.mod_lt _ (Nat.two_pow_pos 3)
  generalize s.rd (Reg.TILE_CHAN_CFG.ilv_code (chanTile c) (c - firstChan (chanTile c))) = j at *
  have hf : firstChan (chanTile c) ≤ c := by unfold chanTile firstChan; split <;> split <;> omega
  have hn : firstChan (chanTile c) + chanCount (chanTile c) ≤ 512 := by unfold chanTile firstChan chanCount; split <;> split <;> omega
  have h0 : 0 < chanCount (chanTile c) := by unfold chanCount; split <;> omega
  generalize firstChan (chanTile c) = f at *
  generalize chanCount (chanTile c) = m at *
  split
  · have := Nat.mod_lt ((a - (f + 0) * chanBytes) / 1024) h0
    simp only at *
    omega
  · have h2 : 2 ^ j ≤ 2 ^ 7 := Nat.pow_le_pow_right (by omega) (by omega)
    have h3 := Nat.div_mul_le_self (c - f) (2 ^ j)
    have h4 := Nat.mod_lt ((a - (f + (c - f) / 2 ^ j * 2 ^ j) * chanBytes) / 1024) (Nat.two_pow_pos j)
    simp only at *
    omega

theorem live_of {s : State} {a n : Nat}
    (h : ∀ c, c < 640 → s.on (Reg.TILE_CHAN_STAT.failed (chanTile c) (c - firstChan (chanTile c))) = false) : Live s a n := by
  intro i _
  unfold State.chanFailed
  by_cases hh : isHbm (a + i) = true
  · simp only [h _ (decodeHbm_lt s hh), Bool.and_false]
  · simp [hh]

/-- A frame is allocated where one tile has a pool of one frame, and that frame is free: whatever the free choices are. -/
theorem alloc_single {s : State} {p st mask n : Nat} {pref : Option Nat}
    (h : (List.range 8).filter (fun n => bit mask n && decide (0 < s.frameCount p n)) = [n] ∧ s.frameCount p n = 1 ∧ s.trState p (n * 33554432) = 0) :
    ∃ t id, (s.took 1).allocTiles p st (s.poolTiles p mask pref) = (t, some id) := by
  obtain ⟨hl, hc, hf⟩ := h
  have hp : s.poolTiles p mask pref = [n] := by
    unfold State.poolTiles
    rw [hl]
    have h0 : Config.freeNat s.free % 2 = 0 ∨ Config.freeNat s.free % 2 = 1 := by omega
    cases pref with
    | none => rcases h0 with h | h <;> simp [h]
    | some q => by_cases hq : q = n <;> rcases h0 with h | h <;> simp [h, hq]
  have hc' : (s.took 1).frameCount p n = 1 := hc
  have hf' : ∀ q, (s.took 1).trState p q = s.trState p q := fun _ => rfl
  simp [hp, State.allocTiles, State.allocOn, hc', State.freeFrom, Nat.mod_one, hf', hf]

/-- So one block is allocated, and one frame reserved. -/
theorem allocBlocks_single {s : State} {p h mask n b : Nat} {pref : Option Nat}
    (hs : (List.range 8).filter (fun n => bit mask n && decide (0 < s.frameCount p n)) = [n] ∧ s.frameCount p n = 1 ∧ s.trState p (n * 33554432) = 0) :
    (s.allocBlocks p h mask pref 1 b).isSome = true := by
  obtain ⟨t, id, e⟩ := alloc_single (st := 1) (pref := pref) hs
  simp [State.allocBlocks, e]

theorem reserveFrames_single {s : State} {p h mask n b : Nat}
    (hs : (List.range 8).filter (fun n => bit mask n && decide (0 < s.frameCount p n)) = [n] ∧ s.frameCount p n = 1 ∧ s.trState p (n * 33554432) = 0) :
    (s.reserveFrames p h mask 1 b).isSome = true := by
  obtain ⟨t, id, e⟩ := alloc_single (st := 4) (pref := none) hs
  simp [State.reserveFrames, e]

/-- No word spells a command: the table gives its rows no bits. -/
theorem test_decode_none : decodeTableWord 64 0x5A = none := by decide

/-- The queue's first command runs: a command in front of an empty queue, and one in front of another. -/
theorem witness_StepRunsFront :
    ({ State.reset with pending := [.bypass] } : State).pending = .bypass :: [] ∧
    ({ State.reset with pending := [.bypass, .idcode] } : State).pending = .bypass :: [.idcode] := ⟨rfl, rfl⟩

/-- A state in canonical form: the reset state. -/
theorem witness_StepKeepsForm : State.reset.canonical := by unfold State.canonical; decide

/-! ### Helpers -/

/-- An instruction word from its fields: (lowest bit, value). -/
def word (l : List (Nat × Nat)) : Word := BitVec.ofNat 64 (l.foldl (fun a e => a + e.2 * 2 ^ e.1) 0)

/-- A state with fields of registers set; the other fields of a register that was not listed are 0. -/
def withRegs (s : State) (l : List (Fld × Nat)) : State :=
  { s with regs := l.foldl (fun m e => NMap.ins m e.1.off (BitVec.ofNat 64 (setBits (NMap.get 0 m e.1.off).toNat e.1.lo e.1.w e.2))) s.regs }

/-- A state with banks, each with the line of its next bundle in the instruction cache. -/
def withBanks (s : State) (l : List (Nat × Bank)) : State :=
  { s with core := { s.core with banks := l, icache := l.map (fun e => (e.1, [(e.2.part, (s.progBase e.2.part + e.2.pc) / 1024)])) } }

/-! ### Core instructions: a bank of core 3 of compute tile 2 runs a Stroke of partition 1 -/

def bankA : Bank :=
  { freshBank ⟨0, 0⟩ (some 0) true 0 with
    part := 1, ctx := 5, pc := 64,
    s := [(1, 0x8000000000000005), (2, 7), (3, 64), (4, 0x41), (5, 0xFFFFFFFFFFFFFFFF), (6, 96)],
    a := [(1, 0x10000), (2, 0x20000)], p := [(1, 1), (2, 2)] }
def bankFlags : Bank := { bankA with flags := 0x155 }

def keyA : Nat := bankKey 2 3 1
def at0 : Issue := ⟨2, 3, 1, 0, true, [], none⟩
def coreA : State := withBanks State.reset [(keyA, bankA)]
def coreFlags : State := withBanks State.reset [(keyA, bankFlags)]

/-- A two-operand scalar word: opcode, guard, rd, rs1, rs2. -/
def wordS (op pg rd rs1 rs2 : Nat) : Word := word [(56, op), (53, pg), (48, rd), (43, rs1), (38, rs2)]
/-- The same with an immediate. -/
def wordI (op pg rd rs1 imm : Nat) : Word := word [(56, op), (53, pg), (48, rd), (43, rs1), (37, 1), (0, imm)]
/-- An instruction whose immediate is its only operand. -/
def wordJ (op pg rd rs1 imm : Nat) : Word := word [(56, op), (53, pg), (48, rd), (43, rs1), (0, imm)]
/-- A comparison. -/
def wordC (cond pd rs1 rs2 : Nat) : Word := word [(56, 0x0C), (48, pd), (43, rs1), (38, rs2), (34, cond)]
def at0s3 : Issue := { at0 with slot := 3 }

/-- A state and operands that meet the hypotheses of each clause of ScalarArithmetic. -/
theorem witness_ScalarArithmetic :
    (∀ e ∈ [1, 2, 3, 4, 5, 6, 7, 8, 9, 10, 11], Issues coreA at0 (wordS e 0 8 1 2) bankA ∧ Guarded bankA (wordS e 0 8 1 2) ∧ legalS (wordS e 0 8 1 2)
    true true true false = true ∧ wOp (wordS e 0 8 1 2) = e) :=
  (by simp only [List.forall_mem_cons]; and_intros <;> first | decide +kernel | exact issues_of (by decide +kernel) | (constructor <;> first | decide +kernel | (unfold Routable; decide +kernel)) | exact List.forall_mem_nil _ | (unfold Guarded; decide +kernel) | (unfold Routable; decide +kernel))

/-- A state and operands that meet the hypotheses of each clause of ScalarComparesAndMoves. -/
theorem witness_ScalarComparesAndMoves :
    (∀ e ∈ [0, 1, 2, 3, 4, 5], Issues coreA at0 (wordC e 3 1 2) bankA ∧ Guarded bankA (wordC e 3 1 2) ∧ wOp (wordC e 3 1 2) = 12 ∧ wVar (wordC e 3 1
    2) = false ∧ wCond (wordC e 3 1 2) < 6 ∧ (onlyBits (wordC e 3 1 2) (msk 53 3 + msk 48 3 + msk 43 5 + msk 37 1 + msk 34 3 + if wImmSel (wordC e 3
    1 2) = true then msk 0 32 else msk 38 5) = true)) ∧
    (∀ e ∈ [(13, 8), (14, 5)], Issues coreA at0 (wordJ e.1 0 e.2 0 2147483648) bankA ∧ Guarded bankA (wordJ e.1 0 e.2 0 2147483648) ∧ wOp (wordJ e.1
    0 e.2 0 2147483648) = e.1 ∧ legalS (wordJ e.1 0 e.2 0 2147483648) true false false true = true) ∧
    (Issues coreA at0 (wordS 15 0 15 5 0) bankA ∧ Guarded bankA (wordS 15 0 15 5 0) ∧ wOp (wordS 15 0 15 5 0) = 15 ∧ legalS (wordS 15 0 15 5 0) true
    true false false = true ∧ wRd (wordS 15 0 15 5 0) < 16) ∧
    (Issues coreA at0 (wordS 16 0 31 2 0) bankA ∧ Guarded bankA (wordS 16 0 31 2 0) ∧ wOp (wordS 16 0 31 2 0) = 16 ∧ legalS (wordS 16 0 31 2 0) true
    true false false = true ∧ wRs1 (wordS 16 0 31 2 0) < 16) ∧
    (Issues coreA at0 (wordI 17 0 2 1 4294967295) bankA ∧ Guarded bankA (wordI 17 0 2 1 4294967295) ∧ wOp (wordI 17 0 2 1 4294967295) = 17 ∧ legalS
    (wordI 17 0 2 1 4294967295) true true true false = true ∧ wRd (wordI 17 0 2 1 4294967295) < 16 ∧ wRs1 (wordI 17 0 2 1 4294967295) < 16) :=
  ⟨(by simp only [List.forall_mem_cons]; and_intros <;> first | decide +kernel | exact issues_of (by decide +kernel) | (constructor <;> first | decide +kernel | (unfold Routable; decide +kernel)) | exact List.forall_mem_nil _ | (unfold Guarded; decide +kernel) | (unfold Routable; decide +kernel)),
    (by simp only [List.forall_mem_cons]; and_intros <;> first | decide +kernel | exact issues_of (by decide +kernel) | (constructor <;> first | decide +kernel | (unfold Routable; decide +kernel)) | exact List.forall_mem_nil _ | (unfold Guarded; decide +kernel) | (unfold Routable; decide +kernel)),
    ⟨issues_of (by decide +kernel), (by unfold Guarded; decide +kernel), (by decide +kernel)⟩,
    ⟨issues_of (by decide +kernel), (by unfold Guarded; decide +kernel), (by decide +kernel)⟩,
    ⟨issues_of (by decide +kernel), (by unfold Guarded; decide +kernel), (by decide +kernel)⟩⟩

/-- A state and operands that meet the hypotheses of each clause of ScalarNoEffect. -/
theorem witness_ScalarNoEffect :
    (Issues coreA at0s3 (word []) bankA ∧ wOp (word []) = 0 ∧ wVar (word []) = false ∧ onlyBits (word []) 0 = true) ∧
    (∀ e ∈ [1, 2, 3, 4, 5, 6, 7, 8, 9, 10, 11], Issues coreA at0 (wordS e 2 8 1 2) bankA ∧ (¬Guarded bankA (wordS e 2 8 1 2)) ∧ legalS (wordS e 2 8 1
    2) true true true false = true ∧ wOp (wordS e 2 8 1 2) = e) ∧
    (∀ e ∈ [13, 14], Issues coreA at0 (wordJ e 2 8 0 3) bankA ∧ (¬Guarded bankA (wordJ e 2 8 0 3)) ∧ legalS (wordJ e 2 8 0 3) true false false true =
    true ∧ wOp (wordJ e 2 8 0 3) = e) ∧
    (Issues coreA at0 (wordJ 24 2 0 0 3) bankA ∧ (¬Guarded bankA (wordJ 24 2 0 0 3)) ∧ legalS (wordJ 24 2 0 0 3) false false false true = true ∧ wOp
    (wordJ 24 2 0 0 3) = 24) ∧
    (Issues coreA at0 (wordS 25 2 0 3 0) bankA ∧ (¬Guarded bankA (wordS 25 2 0 3 0)) ∧ legalS (wordS 25 2 0 3 0) false true false false = true ∧ wOp
    (wordS 25 2 0 3 0) = 25) ∧
    (Issues coreA at0 (wordS 26 2 0 0 0) bankA ∧ (¬Guarded bankA (wordS 26 2 0 0 0)) ∧ legalS (wordS 26 2 0 0 0) false false false false = true ∧ wOp
    (wordS 26 2 0 0 0) = 26) :=
  ⟨⟨issues_of (by decide +kernel), (by decide +kernel)⟩,
    (by simp only [List.forall_mem_cons]; and_intros <;> first | decide +kernel | exact issues_of (by decide +kernel) | (constructor <;> first | decide +kernel | (unfold Routable; decide +kernel)) | exact List.forall_mem_nil _ | (unfold Guarded; decide +kernel) | (unfold Routable; decide +kernel)),
    (by simp only [List.forall_mem_cons]; and_intros <;> first | decide +kernel | exact issues_of (by decide +kernel) | (constructor <;> first | decide +kernel | (unfold Routable; decide +kernel)) | exact List.forall_mem_nil _ | (unfold Guarded; decide +kernel) | (unfold Routable; decide +kernel)),
    ⟨issues_of (by decide +kernel), (by unfold Guarded; decide +kernel), (by decide +kernel)⟩,
    ⟨issues_of (by decide +kernel), (by unfold Guarded; decide +kernel), (by decide +kernel)⟩,
    ⟨issues_of (by decide +kernel), (by unfold Guarded; decide +kernel), (by decide +kernel)⟩⟩

/-- A state and operands that meet the hypotheses of each clause of ScalarControl. -/
theorem witness_ScalarControl :
    (Issues coreA at0 (wordJ 24 0 0 0 4294967295) bankA ∧ Guarded bankA (wordJ 24 0 0 0 4294967295) ∧ wOp (wordJ 24 0 0 0 4294967295) = 24 ∧ legalS
    (wordJ 24 0 0 0 4294967295) false false false true = true) ∧
    (Issues coreA at0 (wordS 25 0 0 6 0) bankA ∧ Guarded bankA (wordS 25 0 0 6 0) ∧ wOp (wordS 25 0 0 6 0) = 25 ∧ legalS (wordS 25 0 0 6 0) false
    true false false = true ∧ bankA.sR (wRs1 (wordS 25 0 0 6 0)) % 32 = 0 ∧ bankA.sR (wRs1 (wordS 25 0 0 6 0)) < coreA.progSize bankA.part) ∧
    (Issues coreFlags at0 (wordJ 27 0 8 0 0) bankFlags ∧ Guarded bankFlags (wordJ 27 0 8 0 0) ∧ wOp (wordJ 27 0 8 0 0) = 27 ∧ legalS (wordJ 27 0 8 0
    0) true false false true = true ∧ wf (wordJ 27 0 8 0 0) 12 20 = 0 ∧ wf (wordJ 27 0 8 0 0) 0 12 = 0) ∧
    (∀ e ∈ [2, 4, 9], Issues coreA at0 (wordJ 27 0 8 0 e) bankA ∧ Guarded bankA (wordJ 27 0 8 0 e) ∧ wOp (wordJ 27 0 8 0 e) = 27 ∧ legalS (wordJ 27 0
    8 0 e) true false false true = true ∧ wf (wordJ 27 0 8 0 e) 12 20 = 0 ∧ wf (wordJ 27 0 8 0 e) 0 12 = e) ∧
    (Issues coreFlags at0 (wordJ 28 0 0 4 0) bankFlags ∧ Guarded bankFlags (wordJ 28 0 0 4 0) ∧ wOp (wordJ 28 0 0 4 0) = 28 ∧ legalS (wordJ 28 0 0 4
    0) false true false true = true ∧ wf (wordJ 28 0 0 4 0) 12 20 = 0 ∧ wf (wordJ 28 0 0 4 0) 0 12 = 0) :=
  ⟨⟨issues_of (by decide +kernel), (by unfold Guarded; decide +kernel), (by decide +kernel)⟩,
    ⟨issues_of (by decide +kernel), (by unfold Guarded; decide +kernel), (by decide +kernel)⟩,
    ⟨issues_of (by decide +kernel), (by unfold Guarded; decide +kernel), (by decide +kernel)⟩,
    (by simp only [List.forall_mem_cons]; and_intros <;> first | decide +kernel | exact issues_of (by decide +kernel) | (constructor <;> first | decide +kernel | (unfold Routable; decide +kernel)) | exact List.forall_mem_nil _ | (unfold Guarded; decide +kernel) | (unfold Routable; decide +kernel)),
    ⟨issues_of (by decide +kernel), (by unfold Guarded; decide +kernel), (by decide +kernel)⟩⟩

/-- A state and operands that meet the hypotheses of each clause of BundleReadsOldValues. -/
theorem witness_BundleReadsOldValues :
    (Issues coreA at0 (wordS 1 0 1 1 1) bankA ∧ Guarded bankA (wordS 1 0 1 1 1) ∧ legalS (wordS 1 0 1 1 1) true true true false = true ∧ at0.slot = 0
    ∧ 0 < 3 ∧ 3 < 4 ∧ wOp (wordS 1 0 1 1 1) = 1 ∧ wOp (word []) = 0 ∧ wVar (word []) = false ∧ onlyBits (word []) 0 = true) :=
  ⟨issues_of (by decide +kernel), (by unfold Guarded; decide +kernel), (by decide +kernel)⟩

/-- A descriptor of partition 1, context 5 that posts semaphore 12. -/
def descPost : Desc := ⟨0x10000 + 5 * 2 ^ 22 + 12 * 2 ^ 101 + 2 ^ 115, 0⟩
def bankExit : Bank := { bankA with d := descPost }
def slotExit : Slot := ⟨descPost, 3, 0, 5000, .running, 300, false⟩
/-- Partition 1 is ACTIVE, the Stroke is the first of the tile's program, semaphore 12 stands at 4. -/
def coreExit : State :=
  let s := withRegs (withBanks State.reset [(keyA, bankExit)]) [(Reg.PART_STAT.state 1, 1)]
  { s with tick := { s.tick with prog := [(2, [slotExit])] }, time := { s.time with cnt := 1000 }, sem := { s.sem with val := [(12, 4)] } }

/-- A state and operands that meet the hypotheses of each clause of ExitEndsStroke. -/
theorem witness_ExitEndsStroke :
    (Issues coreExit at0 (wordS 26 0 0 0 0) bankExit ∧ Guarded bankExit (wordS 26 0 0 0 0) ∧ wOp (wordS 26 0 0 0 0) = 26 ∧ legalS (wordS 26 0 0 0 0)
    false false false false = true ∧ bankExit.slot = some 0 ∧ coreExit.slotAt at0.tile 0 = some slotExit ∧ bankExit.dmas = [] ∧
    ((coreExit.fab.out.all fun (o : RemOp) => decide (o.bank ≠ some (issueKey at0))) = true) ∧ bankExit.grants = [] ∧ (∀ (g : Grant), g ∈
    coreExit.sem.grants → bankExit.awaits (issueKey at0) g = false) ∧ (bankExit.d.postEn = true → coreExit.semWaiters bankExit.d.postSem = [])) :=
  ⟨issues_of (by decide +kernel), (by unfold Guarded; decide +kernel), (by decide +kernel)⟩

/-- Vector registers with lanes of many kinds. -/
def vecX : Nat := fromLanes 32 ((List.range 256).map (fun i => (i * i * 0x01234567 + i * 0x9E3779B9 + 0x3F800000) % 2 ^ 32))
def vecY : Nat := fromLanes 32 ([0x7F800000, 0xFF800000, 0x7FC00001, 0x80000000, 0, 1, 0x7F7FFFFF, 0x3F800000, 31, 5] ++ (List.range 246).map (fun i => (i * 0x00F1E2D3 + 3) % 2 ^ 32))
def vecZ : Nat := fromLanes 32 ((List.range 256).map (fun i => if i % 3 = 0 then i % 32 else 0x40490FDB + i * 77777))
def bankV : Bank := { bankA with v := [(1, vecX), (2, vecY), (3, vecZ), (4, vecX)], p := [(1, 1), (2, 2), (3, fromLanes 32 (List.replicate 16 0x0F0F33CF))] }
def coreV : State := withBanks State.reset [(keyA, bankV)]
def at2 : Issue := { at0 with slot := 2 }
/-- A vector word: opcode, guard, vd, va, vb, vc, fmt, and further fields. -/
def wordV (op pg vd va vb vc fmt : Nat) (l : List (Nat × Nat)) : Word :=
  word ([(56, op), (53, pg), (47, vd), (41, va), (35, vb), (29, vc), (25, fmt)] ++ l)
/-- The bank with even key registers for random numbers. -/
def bankR : Bank := { bankV with s := [(2, 0x1234567890ABCDEF), (3, 0xFEDCBA0987654321), (4, 9), (5, 1000), (6, 2)] }
def coreR : State := withBanks State.reset [(keyA, bankR)]
def fp (code : Nat) : Fmt := (fmtOf code).getD ⟨8, 23, 127, 0⟩

/-- A state and operands that meet the hypotheses of each clause of VectorIntegerLanes. -/
theorem witness_VectorIntegerLanes :
    (∀ e ∈ [80, 81, 82, 84, 85], Issues coreV at2 (wordV e 0 5 1 2 0 12 []) bankV ∧ wVar (wordV e 0 5 1 2 0 12 []) = false ∧ onlyBits (wordV e 0 5 1
    2 0 12 []) (mPg + (mVd + mVa + mVb + mFmt)) = true ∧ vFmt (wordV e 0 5 1 2 0 12 []) = 12 ∧ wOp (wordV e 0 5 1 2 0 12 []) = e) ∧
    (Issues coreV at2 (wordV 91 0 5 1 2 3 10 []) bankV ∧ wVar (wordV 91 0 5 1 2 3 10 []) = false ∧ wOp (wordV 91 0 5 1 2 3 10 []) = 91 ∧ onlyBits
    (wordV 91 0 5 1 2 3 10 []) (mPg + (mVd + mVa + mVb + msk 29 3 + mFmt)) = true ∧ vFmt (wordV 91 0 5 1 2 3 10 []) ≠ 15) ∧
    (Issues coreV at2 (wordV 93 0 5 4 0 0 10 []) bankV ∧ wVar (wordV 93 0 5 4 0 0 10 []) = false ∧ wOp (wordV 93 0 5 4 0 0 10 []) = 93 ∧ onlyBits
    (wordV 93 0 5 4 0 0 10 []) (mPg + (mVd + msk 41 5 + mFmt)) = true ∧ vFmt (wordV 93 0 5 4 0 0 10 []) = 10) ∧
    (∀ e ∈ [0, 1, 2, 3, 4], Issues coreV at2 (wordV 94 0 5 1 3 0 12 [(0, e)]) bankV ∧ wVar (wordV 94 0 5 1 3 0 12 [(0, e)]) = false ∧ wOp (wordV 94 0
    5 1 3 0 12 [(0, e)]) = 94 ∧ onlyBits (wordV 94 0 5 1 3 0 12 [(0, e)]) (mPg + (mVd + mVa + mVb + mFmt + mSub)) = true ∧ vFmt (wordV 94 0 5 1 3 0
    12 [(0, e)]) = 12 ∧ vSub (wordV 94 0 5 1 3 0 12 [(0, e)]) = e) :=
  ⟨(by simp only [List.forall_mem_cons]; and_intros <;> first | decide +kernel | exact issues_of (by decide +kernel) | (constructor <;> first | decide +kernel | (unfold Routable; decide +kernel)) | exact List.forall_mem_nil _ | (unfold Guarded; decide +kernel) | (unfold Routable; decide +kernel)),
    ⟨issues_of (by decide +kernel), (by decide +kernel)⟩,
    ⟨issues_of (by decide +kernel), (by decide +kernel)⟩,
    (by simp only [List.forall_mem_cons]; and_intros <;> first | decide +kernel | exact issues_of (by decide +kernel) | (constructor <;> first | decide +kernel | (unfold Routable; decide +kernel)) | exact List.forall_mem_nil _ | (unfold Guarded; decide +kernel) | (unfold Routable; decide +kernel))⟩

/-- A state and operands that meet the hypotheses of each clause of VectorFloatLanes. -/
theorem witness_VectorFloatLanes :
    (∀ e ∈ [80, 81, 82, 84, 85], Issues coreV at2 (wordV e 0 5 1 2 0 10 []) bankV ∧ wVar (wordV e 0 5 1 2 0 10 []) = false ∧ fmtOf (vFmt (wordV e 0 5
    1 2 0 10 [])) = some (fp 10) ∧ (vFmt (wordV e 0 5 1 2 0 10 []) = 8 ∨ vFmt (wordV e 0 5 1 2 0 10 []) = 9 ∨ vFmt (wordV e 0 5 1 2 0 10 []) = 10) ∧
    onlyBits (wordV e 0 5 1 2 0 10 []) (mPg + (mVd + mVa + mVb + mFmt)) = true ∧ wOp (wordV e 0 5 1 2 0 10 []) = e) ∧
    (Issues coreV at2 (wordV 83 0 5 1 2 3 10 []) bankV ∧ wVar (wordV 83 0 5 1 2 3 10 []) = false ∧ fmtOf (vFmt (wordV 83 0 5 1 2 3 10 [])) = some (fp
    10) ∧ (vFmt (wordV 83 0 5 1 2 3 10 []) = 8 ∨ vFmt (wordV 83 0 5 1 2 3 10 []) = 9 ∨ vFmt (wordV 83 0 5 1 2 3 10 []) = 10) ∧ onlyBits (wordV 83 0 5
    1 2 3 10 []) (mPg + (mVd + mVa + mVb + mVc + mFmt)) = true ∧ wOp (wordV 83 0 5 1 2 3 10 []) = 83) ∧
    (Issues coreV at2 (wordV 86 0 5 1 2 0 10 []) bankV ∧ wVar (wordV 86 0 5 1 2 0 10 []) = false ∧ fmtOf (vFmt (wordV 86 0 5 1 2 0 10 [])) = some (fp
    10) ∧ (vFmt (wordV 86 0 5 1 2 0 10 []) = 8 ∨ vFmt (wordV 86 0 5 1 2 0 10 []) = 9 ∨ vFmt (wordV 86 0 5 1 2 0 10 []) = 10) ∧ onlyBits (wordV 86 0 5
    1 2 0 10 []) (mPg + (mVd + mVa + mVb + mFmt)) = true ∧ wOp (wordV 86 0 5 1 2 0 10 []) = 86 ∧ vFmt (wordV 86 0 5 1 2 0 10 []) = 10) ∧
    (Issues coreV at2 (wordV 87 0 5 2 0 0 10 []) bankV ∧ wVar (wordV 87 0 5 2 0 0 10 []) = false ∧ fmtOf (vFmt (wordV 87 0 5 2 0 0 10 [])) = some (fp
    10) ∧ (vFmt (wordV 87 0 5 2 0 0 10 []) = 8 ∨ vFmt (wordV 87 0 5 2 0 0 10 []) = 9 ∨ vFmt (wordV 87 0 5 2 0 0 10 []) = 10) ∧ onlyBits (wordV 87 0 5
    2 0 0 10 []) (mPg + (mVd + mVa + mFmt + 0)) = true ∧ wOp (wordV 87 0 5 2 0 0 10 []) = 87 ∧ vFmt (wordV 87 0 5 2 0 0 10 []) = 10) ∧
    (Issues coreV at2 (wordV 88 0 5 2 0 0 10 [(0, 7)]) bankV ∧ wVar (wordV 88 0 5 2 0 0 10 [(0, 7)]) = false ∧ fmtOf (vFmt (wordV 88 0 5 2 0 0 10
    [(0, 7)])) = some (fp 10) ∧ (vFmt (wordV 88 0 5 2 0 0 10 [(0, 7)]) = 8 ∨ vFmt (wordV 88 0 5 2 0 0 10 [(0, 7)]) = 9 ∨ vFmt (wordV 88 0 5 2 0 0 10
    [(0, 7)]) = 10) ∧ onlyBits (wordV 88 0 5 2 0 0 10 [(0, 7)]) (mPg + (mVd + mVa + mFmt + mSub)) = true ∧ wOp (wordV 88 0 5 2 0 0 10 [(0, 7)]) = 88
    ∧ vFmt (wordV 88 0 5 2 0 0 10 [(0, 7)]) = 10 ∧ vSub (wordV 88 0 5 2 0 0 10 [(0, 7)]) < 8) :=
  ⟨(by simp only [List.forall_mem_cons]; and_intros <;> first | decide +kernel | exact issues_of (by decide +kernel) | (constructor <;> first | decide +kernel | (unfold Routable; decide +kernel)) | exact List.forall_mem_nil _ | (unfold Guarded; decide +kernel) | (unfold Routable; decide +kernel)),
    ⟨issues_of (by decide +kernel), (by decide +kernel)⟩,
    ⟨issues_of (by decide +kernel), (by decide +kernel)⟩,
    ⟨issues_of (by decide +kernel), (by decide +kernel)⟩,
    ⟨issues_of (by decide +kernel), (by decide +kernel)⟩⟩

/-- A state and operands that meet the hypotheses of each clause of VectorTf32AndComplexLanes. -/
theorem witness_VectorTf32AndComplexLanes :
    (∀ e ∈ [(80, 11), (80, 13), (81, 11), (81, 13), (82, 11), (82, 13)], Issues coreV at2 (wordV e.1 0 5 1 2 0 e.2 []) bankV ∧ wVar (wordV e.1 0 5 1
    2 0 e.2 []) = false ∧ onlyBits (wordV e.1 0 5 1 2 0 e.2 []) (mPg + (mVd + mVa + mVb + mFmt)) = true ∧ vFmt (wordV e.1 0 5 1 2 0 e.2 []) = e.2 ∧
    wOp (wordV e.1 0 5 1 2 0 e.2 []) = e.1) :=
  (by simp only [List.forall_mem_cons]; and_intros <;> first | decide +kernel | exact issues_of (by decide +kernel) | (constructor <;> first | decide +kernel | (unfold Routable; decide +kernel)) | exact List.forall_mem_nil _ | (unfold Guarded; decide +kernel) | (unfold Routable; decide +kernel))

/-- A state and operands that meet the hypotheses of each clause of VectorConvert. -/
theorem witness_VectorConvert :
    (Issues coreV at2 (wordV 89 0 5 2 0 0 8 [(23, 0), (0, 10)]) bankV ∧ wVar (wordV 89 0 5 2 0 0 8 [(23, 0), (0, 10)]) = false ∧ wOp (wordV 89 0 5 2
    0 0 8 [(23, 0), (0, 10)]) = 89 ∧ (onlyBits (wordV 89 0 5 2 0 0 8 [(23, 0), (0, 10)]) (mPg + mVd + mVa + mFmt + msk 23 2 + msk 0 4 + if (vRmode
    (wordV 89 0 5 2 0 0 8 [(23, 0), (0, 10)]) == 2) = true then msk 21 2 + mKey + mSidx + mPos else 0) = true) ∧ vRmode (wordV 89 0 5 2 0 0 8 [(23,
    0), (0, 10)]) < 3 ∧ (vRmode (wordV 89 0 5 2 0 0 8 [(23, 0), (0, 10)]) = 2 → vKey (wordV 89 0 5 2 0 0 8 [(23, 0), (0, 10)]) % 2 = 0) ∧ wf (wordV
    89 0 5 2 0 0 8 [(23, 0), (0, 10)]) 0 4 ∈ [0, 1, 8, 9, 10] ∧ fmtOf (wf (wordV 89 0 5 2 0 0 8 [(23, 0), (0, 10)]) 0 4) = some (fp 10) ∧ vFmt (wordV
    89 0 5 2 0 0 8 [(23, 0), (0, 10)]) ∈ [8, 9, 10] ∧ fmtOf (vFmt (wordV 89 0 5 2 0 0 8 [(23, 0), (0, 10)])) = some (fp 8)) ∧
    (Issues coreV at2 (wordV 89 0 5 2 0 0 0 [(23, 0), (0, 10)]) bankV ∧ wVar (wordV 89 0 5 2 0 0 0 [(23, 0), (0, 10)]) = false ∧ wOp (wordV 89 0 5 2
    0 0 0 [(23, 0), (0, 10)]) = 89 ∧ (onlyBits (wordV 89 0 5 2 0 0 0 [(23, 0), (0, 10)]) (mPg + mVd + mVa + mFmt + msk 23 2 + msk 0 4 + if (vRmode
    (wordV 89 0 5 2 0 0 0 [(23, 0), (0, 10)]) == 2) = true then msk 21 2 + mKey + mSidx + mPos else 0) = true) ∧ vRmode (wordV 89 0 5 2 0 0 0 [(23,
    0), (0, 10)]) < 3 ∧ (vRmode (wordV 89 0 5 2 0 0 0 [(23, 0), (0, 10)]) = 2 → vKey (wordV 89 0 5 2 0 0 0 [(23, 0), (0, 10)]) % 2 = 0) ∧ wf (wordV
    89 0 5 2 0 0 0 [(23, 0), (0, 10)]) 0 4 ∈ [0, 1, 8, 9, 10] ∧ fmtOf (wf (wordV 89 0 5 2 0 0 0 [(23, 0), (0, 10)]) 0 4) = some (fp 10) ∧ vFmt (wordV
    89 0 5 2 0 0 0 [(23, 0), (0, 10)]) ∈ [0, 1] ∧ fmtOf (vFmt (wordV 89 0 5 2 0 0 0 [(23, 0), (0, 10)])) = some (fp 0)) ∧
    (∀ e ∈ [12, 7], Issues coreV at2 (wordV 89 0 5 2 0 0 e [(23, 0), (0, 10)]) bankV ∧ wVar (wordV 89 0 5 2 0 0 e [(23, 0), (0, 10)]) = false ∧ wOp
    (wordV 89 0 5 2 0 0 e [(23, 0), (0, 10)]) = 89 ∧ (onlyBits (wordV 89 0 5 2 0 0 e [(23, 0), (0, 10)]) (mPg + mVd + mVa + mFmt + msk 23 2 + msk 0 4
    + if (vRmode (wordV 89 0 5 2 0 0 e [(23, 0), (0, 10)]) == 2) = true then msk 21 2 + mKey + mSidx + mPos else 0) = true) ∧ vRmode (wordV 89 0 5 2
    0 0 e [(23, 0), (0, 10)]) < 3 ∧ (vRmode (wordV 89 0 5 2 0 0 e [(23, 0), (0, 10)]) = 2 → vKey (wordV 89 0 5 2 0 0 e [(23, 0), (0, 10)]) % 2 = 0) ∧
    wf (wordV 89 0 5 2 0 0 e [(23, 0), (0, 10)]) 0 4 ∈ [0, 1, 8, 9, 10] ∧ fmtOf (wf (wordV 89 0 5 2 0 0 e [(23, 0), (0, 10)]) 0 4) = some (fp 10) ∧
    vFmt (wordV 89 0 5 2 0 0 e [(23, 0), (0, 10)]) = e) ∧
    (Issues coreR at2 (wordV 89 0 5 2 0 0 8 [(23, 2), (21, 3), (16, 2), (11, 4), (6, 5), (0, 10)]) bankR ∧ wVar (wordV 89 0 5 2 0 0 8 [(23, 2), (21,
    3), (16, 2), (11, 4), (6, 5), (0, 10)]) = false ∧ wOp (wordV 89 0 5 2 0 0 8 [(23, 2), (21, 3), (16, 2), (11, 4), (6, 5), (0, 10)]) = 89 ∧
    (onlyBits (wordV 89 0 5 2 0 0 8 [(23, 2), (21, 3), (16, 2), (11, 4), (6, 5), (0, 10)]) (mPg + mVd + mVa + mFmt + msk 23 2 + msk 0 4 + if (vRmode
    (wordV 89 0 5 2 0 0 8 [(23, 2), (21, 3), (16, 2), (11, 4), (6, 5), (0, 10)]) == 2) = true then msk 21 2 + mKey + mSidx + mPos else 0) = true) ∧
    vRmode (wordV 89 0 5 2 0 0 8 [(23, 2), (21, 3), (16, 2), (11, 4), (6, 5), (0, 10)]) < 3 ∧ (vRmode (wordV 89 0 5 2 0 0 8 [(23, 2), (21, 3), (16,
    2), (11, 4), (6, 5), (0, 10)]) = 2 → vKey (wordV 89 0 5 2 0 0 8 [(23, 2), (21, 3), (16, 2), (11, 4), (6, 5), (0, 10)]) % 2 = 0) ∧ wf (wordV 89 0
    5 2 0 0 8 [(23, 2), (21, 3), (16, 2), (11, 4), (6, 5), (0, 10)]) 0 4 ∈ [0, 1, 8, 9, 10] ∧ fmtOf (wf (wordV 89 0 5 2 0 0 8 [(23, 2), (21, 3), (16,
    2), (11, 4), (6, 5), (0, 10)]) 0 4) = some (fp 10) ∧ vFmt (wordV 89 0 5 2 0 0 8 [(23, 2), (21, 3), (16, 2), (11, 4), (6, 5), (0, 10)]) ∈ [8, 9,
    10] ∧ fmtOf (vFmt (wordV 89 0 5 2 0 0 8 [(23, 2), (21, 3), (16, 2), (11, 4), (6, 5), (0, 10)])) = some (fp 8)) :=
  ⟨⟨issues_of (by decide +kernel), (by decide +kernel)⟩,
    ⟨issues_of (by decide +kernel), (by decide +kernel)⟩,
    (by simp only [List.forall_mem_cons]; and_intros <;> first | decide +kernel | exact issues_of (by decide +kernel) | (constructor <;> first | decide +kernel | (unfold Routable; decide +kernel)) | exact List.forall_mem_nil _ | (unfold Guarded; decide +kernel) | (unfold Routable; decide +kernel)),
    ⟨issues_of (by decide +kernel), (by decide +kernel)⟩⟩

/-- A state and operands that meet the hypotheses of each clause of VectorCompare. -/
theorem witness_VectorCompare :
    (∀ e ∈ [0, 1, 2, 3, 4, 5, 6], Issues coreV at2 (wordV 90 3 1 2 1 0 12 [(0, e)]) bankV ∧ wVar (wordV 90 3 1 2 1 0 12 [(0, e)]) = false ∧ wOp
    (wordV 90 3 1 2 1 0 12 [(0, e)]) = 90 ∧ onlyBits (wordV 90 3 1 2 1 0 12 [(0, e)]) (mPg + msk 47 3 + mVa + mVb + mFmt + mSub) = true ∧ vSub (wordV
    90 3 1 2 1 0 12 [(0, e)]) < 7 ∧ vFmt (wordV 90 3 1 2 1 0 12 [(0, e)]) = 12 ∧ vSub (wordV 90 3 1 2 1 0 12 [(0, e)]) = e) ∧
    (Issues coreV at2 (wordV 90 0 1 2 1 0 10 [(0, 6)]) bankV ∧ wVar (wordV 90 0 1 2 1 0 10 [(0, 6)]) = false ∧ wOp (wordV 90 0 1 2 1 0 10 [(0, 6)]) =
    90 ∧ onlyBits (wordV 90 0 1 2 1 0 10 [(0, 6)]) (mPg + msk 47 3 + mVa + mVb + mFmt + mSub) = true ∧ vSub (wordV 90 0 1 2 1 0 10 [(0, 6)]) < 7 ∧
    vFmt (wordV 90 0 1 2 1 0 10 [(0, 6)]) ∈ [8, 9, 10] ∧ fmtOf (vFmt (wordV 90 0 1 2 1 0 10 [(0, 6)])) = some (fp 10)) :=
  ⟨(by simp only [List.forall_mem_cons]; and_intros <;> first | decide +kernel | exact issues_of (by decide +kernel) | (constructor <;> first | decide +kernel | (unfold Routable; decide +kernel)) | exact List.forall_mem_nil _ | (unfold Guarded; decide +kernel) | (unfold Routable; decide +kernel)),
    ⟨issues_of (by decide +kernel), (by decide +kernel)⟩⟩

/-- A state and operands that meet the hypotheses of each clause of VectorReduceAndRandom. -/
theorem witness_VectorReduceAndRandom :
    (Issues coreV at2 (wordV 92 3 5 1 0 0 12 []) bankV ∧ wVar (wordV 92 3 5 1 0 0 12 []) = false ∧ wOp (wordV 92 3 5 1 0 0 12 []) = 92 ∧ onlyBits
    (wordV 92 3 5 1 0 0 12 []) (mPg + mVd + mVa + mFmt + mSub) = true ∧ vFmt (wordV 92 3 5 1 0 0 12 []) = 12 ∧ vSub (wordV 92 3 5 1 0 0 12 []) = 0) ∧
    (∀ e ∈ [1, 2], Issues coreV at2 (wordV 92 3 5 2 0 0 12 [(0, e)]) bankV ∧ wVar (wordV 92 3 5 2 0 0 12 [(0, e)]) = false ∧ wOp (wordV 92 3 5 2 0 0
    12 [(0, e)]) = 92 ∧ onlyBits (wordV 92 3 5 2 0 0 12 [(0, e)]) (mPg + mVd + mVa + mFmt + mSub) = true ∧ vFmt (wordV 92 3 5 2 0 0 12 [(0, e)]) = 12
    ∧ vSub (wordV 92 3 5 2 0 0 12 [(0, e)]) = e ∧ (List.filter (fun (k : Nat) => bit (bankV.pR (wPg (wordV 92 3 5 2 0 0 12 [(0, e)]))) (2 * k))
    (List.range 256) ≠ [])) ∧
    (Issues coreV at2 (wordV 92 3 5 3 0 0 10 []) bankV ∧ wVar (wordV 92 3 5 3 0 0 10 []) = false ∧ wOp (wordV 92 3 5 3 0 0 10 []) = 92 ∧ onlyBits
    (wordV 92 3 5 3 0 0 10 []) (mPg + mVd + mVa + mFmt + mSub) = true ∧ vFmt (wordV 92 3 5 3 0 0 10 []) = 10 ∧ vSub (wordV 92 3 5 3 0 0 10 []) = 0) ∧
    (Issues coreR at2 (wordV 96 0 5 0 0 0 0 [(16, 2), (11, 4), (6, 5)]) bankR ∧ wVar (wordV 96 0 5 0 0 0 0 [(16, 2), (11, 4), (6, 5)]) = false ∧ wOp
    (wordV 96 0 5 0 0 0 0 [(16, 2), (11, 4), (6, 5)]) = 96 ∧ onlyBits (wordV 96 0 5 0 0 0 0 [(16, 2), (11, 4), (6, 5)]) (mPg + (mVd + mKey + mSidx +
    mPos + mSub)) = true ∧ vKey (wordV 96 0 5 0 0 0 0 [(16, 2), (11, 4), (6, 5)]) % 2 = 0 ∧ vSub (wordV 96 0 5 0 0 0 0 [(16, 2), (11, 4), (6, 5)]) =
    0) ∧
    (Issues coreR at2 (wordV 96 0 5 0 0 0 0 [(16, 2), (11, 4), (6, 5), (0, 1)]) bankR ∧ wVar (wordV 96 0 5 0 0 0 0 [(16, 2), (11, 4), (6, 5), (0,
    1)]) = false ∧ wOp (wordV 96 0 5 0 0 0 0 [(16, 2), (11, 4), (6, 5), (0, 1)]) = 96 ∧ onlyBits (wordV 96 0 5 0 0 0 0 [(16, 2), (11, 4), (6, 5), (0,
    1)]) (mPg + (mVd + mKey + mSidx + mPos + mSub)) = true ∧ vKey (wordV 96 0 5 0 0 0 0 [(16, 2), (11, 4), (6, 5), (0, 1)]) % 2 = 0 ∧ vSub (wordV 96
    0 5 0 0 0 0 [(16, 2), (11, 4), (6, 5), (0, 1)]) = 1) :=
  ⟨⟨issues_of (by decide +kernel), (by decide +kernel)⟩,
    (by simp only [List.forall_mem_cons]; and_intros <;> first | decide +kernel | exact issues_of (by decide +kernel) | (constructor <;> first | decide +kernel | (unfold Routable; decide +kernel)) | exact List.forall_mem_nil _ | (unfold Guarded; decide +kernel) | (unfold Routable; decide +kernel)),
    ⟨issues_of (by decide +kernel), (by decide +kernel)⟩,
    ⟨issues_of (by decide +kernel), (by decide +kernel)⟩,
    ⟨issues_of (by decide +kernel), (by decide +kernel)⟩⟩

/-! ### The matrix unit of a P-core (tile 2) and the Hairlines of a G-core (tile 5) -/

/-- Partition 1 owns the accumulators and the first 4 granules of the core store of core 3 of a tile. -/
def owns (n : Nat) (s : State) : State :=
  withRegs s ((List.range 8).flatMap (fun i => [(Reg.TILE_ACC_OWN.valid n 3 i, 1), (Reg.TILE_ACC_OWN.partition n 3 i, 1)]) ++
    (List.range 4).flatMap (fun i => [(Reg.TILE_STORE_OWN.valid n 3 0 i, 1), (Reg.TILE_STORE_OWN.partition n 3 0 i, 1)]))

def bankM : Bank :=
  { bankA with s := [(1, 128), (2, 1), (3, 512), (4, 63)], a := [(1, 0x4000), (2, 0x10000)], v := [(1, vecX)],
               nlw := [(0, ⟨7, false, false, 0, 128, 0⟩), (3, ⟨7, false, false, 0, 128, 0⟩)] }
/-- Some bytes of the core store, of weight buffer 0 of Nib 0 and of accumulator 1 of Nibs 0 and 1. -/
def coreM : State :=
  let s := owns 2 (withBanks State.reset [(keyA, bankM)])
  let c := 35
  { s with core := { s.core with
      store := [(storeKey c 0x4000, 200), (storeKey c 0x4001, 3), (storeKey c 0x4081, 0x7F), (storeKey c (0x4000 + 127 * 128 + 127), 0x80)],
      wbuf := [(wbufKey c 0 0 0, 5), (wbufKey c 0 0 129, 0x80), (wbufKey c 0 0 16383, 0x80)],
      acc := [(accKey c 0 1 0, 7), (accKey c 0 1 (127 * 512 + 127 * 4 + 3), 0x80), (accKey c 0 1 (128 * 512 - 600), 9), (accKey c 1 1 5, 8)],
      accRows := [(accTile c 0 2 * 128 + 3, true)],
      wtag := [(wbufTag c 0 0, 1 + 4096 + 5), (wbufTag c 1 1, 1 + 4096 + 5)],
      accKind := [(accTile c 0 1, 2)] } }
def at1 : Issue := { at0 with slot := 1 }
/-- A matrix word: opcode and fields. -/
def wordM (op : Nat) (l : List (Nat × Nat)) : Word := word ((56, op) :: l)

def keyG : Nat := bankKey 5 3 1
def at5 (slot : Nat) : Issue := ⟨5, 3, 1, slot, true, [], none⟩
def bankG : Bank :=
  { bankA with s := [(1, 128), (2, 512), (3, 0), (4, 3), (5, 600), (6, 64), (8, 64), (10, 0), (11, 0)], a := [(1, 0x4000), (2, 0x10000), (3, 0x100), (4, 0x8000), (5, 0)],
               hlv := some (0, 0, 2048) }
/-- Partition 1 owns channel 0 of compute tile 0; element 0 of the vector buffer is 1.0. -/
def coreG : State :=
  let s := withRegs (owns 5 (withBanks State.reset [(keyG, bankG)])) [(Reg.TILE_CHAN_CFG.owner 0 0, 1), (Reg.TILE_CHAN_CFG.ilv_code 0 0, 0)]
  { s with core := { s.core with store := [(storeKey 83 0x4000, 1), (storeKey 83 0x403F, 2)], vbuf := [(83 * 1048576 + 1, 0x3F), (83 * 1048576, 0x80)],
                                 vtag := [(83, 1 + 4096 + 5)] },
           mem := { s.mem with bytes := [(0x10000, 0x38), (0x10200, 0x40), (0x10401, 3)] } }

/-- A state and operands that meet the hypotheses of each clause of AccumulatorRows. -/
theorem witness_AccumulatorRows :
    (Issues coreM at2 (wordV 97 0 5 8 0 0 0 [(6, 4)]) bankM ∧ wVar (wordV 97 0 5 8 0 0 0 [(6, 4)]) = false ∧ onlyBits (wordV 97 0 5 8 0 0 0 [(6, 4)])
    (mPg + mVd + msk 42 5 + mPos) = true ∧ bankM.sR (vPos (wordV 97 0 5 8 0 0 0 [(6, 4)])) ≤ 63 ∧ vacNib (wordV 97 0 5 8 0 0 0 [(6, 4)]) < nibsOf
    at2.tile ∧ coreM.accOwned at2.tile at2.core (vacAcc (wordV 97 0 5 8 0 0 0 [(6, 4)])) bankM.part = true ∧ coreM.accZeroing (16 * at2.tile +
    at2.core) (vacAcc (wordV 97 0 5 8 0 0 0 [(6, 4)])) = false ∧ wOp (wordV 97 0 5 8 0 0 0 [(6, 4)]) = 97 ∧ coreM.rowBad (accTile (16 * at2.tile +
    at2.core) (vacNib (wordV 97 0 5 8 0 0 0 [(6, 4)])) (vacAcc (wordV 97 0 5 8 0 0 0 [(6, 4)]))) (2 * bankM.sR (vPos (wordV 97 0 5 8 0 0 0 [(6,
    4)]))) = false ∧ coreM.rowBad (accTile (16 * at2.tile + at2.core) (vacNib (wordV 97 0 5 8 0 0 0 [(6, 4)])) (vacAcc (wordV 97 0 5 8 0 0 0 [(6,
    4)]))) (2 * bankM.sR (vPos (wordV 97 0 5 8 0 0 0 [(6, 4)])) + 1) = false) ∧
    (Issues coreM at2 (wordV 98 1 1 8 0 0 0 [(6, 0)]) bankM ∧ wVar (wordV 98 1 1 8 0 0 0 [(6, 0)]) = false ∧ onlyBits (wordV 98 1 1 8 0 0 0 [(6, 0)])
    (mPg + mVd + msk 42 5 + mPos) = true ∧ bankM.sR (vPos (wordV 98 1 1 8 0 0 0 [(6, 0)])) ≤ 63 ∧ vacNib (wordV 98 1 1 8 0 0 0 [(6, 0)]) < nibsOf
    at2.tile ∧ coreM.accOwned at2.tile at2.core (vacAcc (wordV 98 1 1 8 0 0 0 [(6, 0)])) bankM.part = true ∧ coreM.accZeroing (16 * at2.tile +
    at2.core) (vacAcc (wordV 98 1 1 8 0 0 0 [(6, 0)])) = false ∧ wOp (wordV 98 1 1 8 0 0 0 [(6, 0)]) = 98) :=
  ⟨⟨issues_of (by decide +kernel), (by decide +kernel)⟩,
    ⟨issues_of (by decide +kernel), (by decide +kernel)⟩⟩

/-- A state and operands that meet the hypotheses of each clause of NibClear. -/
theorem witness_NibClear :
    (Issues coreM at1 (wordM 67 [(52, 3), (48, 0), (46, 2)]) bankM ∧ (∀ (i : Nat), mAcc (wordM 67 [(52, 3), (48, 0), (46, 2)]) ≤ i → i < mAcc (wordM
    67 [(52, 3), (48, 0), (46, 2)]) + 2 ^ wf (wordM 67 [(52, 3), (48, 0), (46, 2)]) 46 2 → AccOpen coreM at1 bankM i) ∧ wOp (wordM 67 [(52, 3), (48,
    0), (46, 2)]) = 67 ∧ wVar (wordM 67 [(52, 3), (48, 0), (46, 2)]) = false ∧ onlyBits (wordM 67 [(52, 3), (48, 0), (46, 2)]) (msk 52 4 + msk 48 3 +
    msk 46 2) = true ∧ maskBad at1.tile (mMask (wordM 67 [(52, 3), (48, 0), (46, 2)])) = false ∧ wf (wordM 67 [(52, 3), (48, 0), (46, 2)]) 46 2 < 3 ∧
    mAcc (wordM 67 [(52, 3), (48, 0), (46, 2)]) % 2 ^ wf (wordM 67 [(52, 3), (48, 0), (46, 2)]) 46 2 = 0) :=
  ⟨issues_of (by decide +kernel), (by unfold AccOpen; exact fun i _ h => (show ∀ i, i < 8 → _ from (by decide +kernel : ∀ i, i < 8 → coreM.accOwned at1.tile at1.core i bankM.part = true ∧ coreM.accZeroing (issueCore at1) i = false)) i (Nat.lt_of_lt_of_le h (by decide +kernel))), (by decide +kernel)⟩

/-- A state and operands that meet the hypotheses of each clause of NibLoad. -/
theorem witness_NibLoad :
    (Issues coreM at1 (wordM 64 [(54, 1), (51, 1), (50, 1), (43, 7), (39, 1), (34, 1)]) bankM ∧ StoreOpen coreM at1 bankM true (nlwRanges (NlwRec.mk
    (mFmtIn (wordM 64 [(54, 1), (51, 1), (50, 1), (43, 7), (39, 1), (34, 1)])) (bit (BitVec.toNat (wordM 64 [(54, 1), (51, 1), (50, 1), (43, 7), (39,
    1), (34, 1)])) 50) (bit (BitVec.toNat (wordM 64 [(54, 1), (51, 1), (50, 1), (43, 7), (39, 1), (34, 1)])) 49) (bankM.aR (mSrc (wordM 64 [(54, 1),
    (51, 1), (50, 1), (43, 7), (39, 1), (34, 1)]))) (bankM.sR (mStride (wordM 64 [(54, 1), (51, 1), (50, 1), (43, 7), (39, 1), (34, 1)]))) (bankM.aR
    (mScale (wordM 64 [(54, 1), (51, 1), (50, 1), (43, 7), (39, 1), (34, 1)]))))) ∧ wOp (wordM 64 [(54, 1), (51, 1), (50, 1), (43, 7), (39, 1), (34,
    1)]) = 64 ∧ wVar (wordM 64 [(54, 1), (51, 1), (50, 1), (43, 7), (39, 1), (34, 1)]) = false ∧ onlyBits (wordM 64 [(54, 1), (51, 1), (50, 1), (43,
    7), (39, 1), (34, 1)]) (msk 54 2 + msk 49 3 + msk 30 17) = true ∧ mNib (wordM 64 [(54, 1), (51, 1), (50, 1), (43, 7), (39, 1), (34, 1)]) < nibsOf
    at1.tile ∧ mFmtIn (wordM 64 [(54, 1), (51, 1), (50, 1), (43, 7), (39, 1), (34, 1)]) ∈ [0, 1, 7] ∧ (NlwRec.mk (mFmtIn (wordM 64 [(54, 1), (51, 1),
    (50, 1), (43, 7), (39, 1), (34, 1)])) (bit (BitVec.toNat (wordM 64 [(54, 1), (51, 1), (50, 1), (43, 7), (39, 1), (34, 1)])) 50) (bit
    (BitVec.toNat (wordM 64 [(54, 1), (51, 1), (50, 1), (43, 7), (39, 1), (34, 1)])) 49) (bankM.aR (mSrc (wordM 64 [(54, 1), (51, 1), (50, 1), (43,
    7), (39, 1), (34, 1)]))) (bankM.sR (mStride (wordM 64 [(54, 1), (51, 1), (50, 1), (43, 7), (39, 1), (34, 1)]))) (bankM.aR (mScale (wordM 64 [(54,
    1), (51, 1), (50, 1), (43, 7), (39, 1), (34, 1)])))).stride % 64 = 0) :=
  ⟨issues_of (by decide +kernel), (by unfold StoreOpen; decide +kernel), (by decide +kernel)⟩

/-- A state and operands that meet the hypotheses of each clause of NibMultiplyInt8. -/
theorem witness_NibMultiplyInt8 :
    (Issues coreM at1 (wordM 65 [(52, 1), (51, 0), (48, 1), (43, 7), (39, 1), (34, 1)]) bankM ∧ AccOpen coreM at1 bankM (mAcc (wordM 65 [(52, 1),
    (51, 0), (48, 1), (43, 7), (39, 1), (34, 1)])) ∧ (StoreOpen coreM at1 bankM true (List.map (fun (i : Nat) => (bankM.aR (mSrc (wordM 65 [(52, 1),
    (51, 0), (48, 1), (43, 7), (39, 1), (34, 1)])) + i * bankM.sR (mStride (wordM 65 [(52, 1), (51, 0), (48, 1), (43, 7), (39, 1), (34, 1)])), 128))
    (List.range 128))) ∧ wOp (wordM 65 [(52, 1), (51, 0), (48, 1), (43, 7), (39, 1), (34, 1)]) = 65 ∧ wVar (wordM 65 [(52, 1), (51, 0), (48, 1), (43,
    7), (39, 1), (34, 1)]) = false ∧ onlyBits (wordM 65 [(52, 1), (51, 0), (48, 1), (43, 7), (39, 1), (34, 1)]) (msk 20 36) = true ∧ maskBad at1.tile
    (mMask (wordM 65 [(52, 1), (51, 0), (48, 1), (43, 7), (39, 1), (34, 1)])) = false ∧ mFmtIn (wordM 65 [(52, 1), (51, 0), (48, 1), (43, 7), (39,
    1), (34, 1)]) = 7 ∧ coreM.copper bankM.part = false ∧ bankM.sR (mStride (wordM 65 [(52, 1), (51, 0), (48, 1), (43, 7), (39, 1), (34, 1)])) % 64 =
    0 ∧ (∀ (nib : Nat), nib ∈ maskNibs (mMask (wordM 65 [(52, 1), (51, 0), (48, 1), (43, 7), (39, 1), (34, 1)])) → (∃ (r : NlwRec), NMap.find
    bankM.nlw (2 * nib + mBuf (wordM 65 [(52, 1), (51, 0), (48, 1), (43, 7), (39, 1), (34, 1)])) = some r ∧ r.wtFmt = 7) ∧ NMap.get 0 coreM.core.wtag
    (wbufTag (issueCore at1) nib (mBuf (wordM 65 [(52, 1), (51, 0), (48, 1), (43, 7), (39, 1), (34, 1)]))) = ctxTag bankM ∧ NMap.get false
    coreM.core.wbufBad (wbufTag (issueCore at1) nib (mBuf (wordM 65 [(52, 1), (51, 0), (48, 1), (43, 7), (39, 1), (34, 1)]))) = false ∧ (mZero (wordM
    65 [(52, 1), (51, 0), (48, 1), (43, 7), (39, 1), (34, 1)]) = true ∨ coreM.tileBad (accTile (issueCore at1) nib (mAcc (wordM 65 [(52, 1), (51, 0),
    (48, 1), (43, 7), (39, 1), (34, 1)]))) = false))) :=
  ⟨issues_of (by decide +kernel), (by unfold AccOpen; decide +kernel), (by unfold StoreOpen; decide +kernel), (by decide +kernel)⟩

/-- A state and operands that meet the hypotheses of each clause of NibDrainInt32. -/
theorem witness_NibDrainInt32 :
    (Issues coreM at1 (wordM 66 [(52, 1), (51, 1), (48, 1), (40, 12), (36, 2), (31, 3)]) bankM ∧ AccOpen coreM at1 bankM (mAcc (wordM 66 [(52, 1),
    (51, 1), (48, 1), (40, 12), (36, 2), (31, 3)])) ∧ (StoreOpen coreM at1 bankM false (List.map (fun (r : Nat) => (bankM.aR (wf (wordM 66 [(52, 1),
    (51, 1), (48, 1), (40, 12), (36, 2), (31, 3)]) 36 4) + r * bankM.sR (wf (wordM 66 [(52, 1), (51, 1), (48, 1), (40, 12), (36, 2), (31, 3)]) 31 5),
    512)) (List.range 128))) ∧ wOp (wordM 66 [(52, 1), (51, 1), (48, 1), (40, 12), (36, 2), (31, 3)]) = 66 ∧ wVar (wordM 66 [(52, 1), (51, 1), (48,
    1), (40, 12), (36, 2), (31, 3)]) = false ∧ onlyBits (wordM 66 [(52, 1), (51, 1), (48, 1), (40, 12), (36, 2), (31, 3)]) (msk 51 5 + msk 48 3 + msk
    46 2 + msk 31 13) = true ∧ mMask (wordM 66 [(52, 1), (51, 1), (48, 1), (40, 12), (36, 2), (31, 3)]) = 2 ^ 0 ∧ 0 < nibsOf at1.tile ∧ wf (wordM 66
    [(52, 1), (51, 1), (48, 1), (40, 12), (36, 2), (31, 3)]) 46 2 = 0 ∧ wf (wordM 66 [(52, 1), (51, 1), (48, 1), (40, 12), (36, 2), (31, 3)]) 40 4 =
    12 ∧ coreM.accKindOf (accTile (issueCore at1) 0 (mAcc (wordM 66 [(52, 1), (51, 1), (48, 1), (40, 12), (36, 2), (31, 3)]))) = 2 ∧ coreM.tileBad
    (accTile (issueCore at1) 0 (mAcc (wordM 66 [(52, 1), (51, 1), (48, 1), (40, 12), (36, 2), (31, 3)]))) = false ∧ bankM.sR (wf (wordM 66 [(52, 1),
    (51, 1), (48, 1), (40, 12), (36, 2), (31, 3)]) 31 5) % 64 = 0 ∧ 512 ≤ bankM.sR (wf (wordM 66 [(52, 1), (51, 1), (48, 1), (40, 12), (36, 2), (31,
    3)]) 31 5) ∧ bankM.aR (wf (wordM 66 [(52, 1), (51, 1), (48, 1), (40, 12), (36, 2), (31, 3)]) 36 4) + 128 * bankM.sR (wf (wordM 66 [(52, 1), (51,
    1), (48, 1), (40, 12), (36, 2), (31, 3)]) 31 5) ≤ storeSize at1.tile) :=
  ⟨issues_of (by decide +kernel), (by unfold AccOpen; decide +kernel), (by unfold StoreOpen; decide +kernel), (by decide +kernel)⟩

/-- A state and operands that meet the hypotheses of each clause of Hairline. -/
theorem witness_Hairline :
    (Issues coreG (at5 1) (wordM 68 [(44, 1), (40, 4), (36, 6)]) bankG ∧ StoreOpen coreG (at5 1) bankG true [(bankG.aR (wf (wordM 68 [(44, 1), (40,
    4), (36, 6)]) 44 4), bankG.sR (wf (wordM 68 [(44, 1), (40, 4), (36, 6)]) 36 4))] ∧ wVar (wordM 68 [(44, 1), (40, 4), (36, 6)]) = false ∧ 4 ≤ (at5
    1).tile ∧ wOp (wordM 68 [(44, 1), (40, 4), (36, 6)]) = 68 ∧ onlyBits (wordM 68 [(44, 1), (40, 4), (36, 6)]) (msk 36 12) = true ∧ 0 < bankG.sR (wf
    (wordM 68 [(44, 1), (40, 4), (36, 6)]) 36 4) ∧ bankG.sR (wf (wordM 68 [(44, 1), (40, 4), (36, 6)]) 36 4) % 64 = 0 ∧ bankG.aR (wf (wordM 68 [(44,
    1), (40, 4), (36, 6)]) 40 4) % 64 = 0 ∧ bankG.aR (wf (wordM 68 [(44, 1), (40, 4), (36, 6)]) 40 4) + bankG.sR (wf (wordM 68 [(44, 1), (40, 4),
    (36, 6)]) 36 4) ≤ 262144) ∧
    (Issues coreG (at5 1) (wordM 69 [(52, 0), (48, 7), (44, 2), (40, 5), (36, 4), (31, 9)]) bankG ∧ wVar (wordM 69 [(52, 0), (48, 7), (44, 2), (40,
    5), (36, 4), (31, 9)]) = false ∧ 4 ≤ (at5 1).tile ∧ wOp (wordM 69 [(52, 0), (48, 7), (44, 2), (40, 5), (36, 4), (31, 9)]) = 69 ∧ onlyBits (wordM
    69 [(52, 0), (48, 7), (44, 2), (40, 5), (36, 4), (31, 9)]) (msk 31 25) = true ∧ wf (wordM 69 [(52, 0), (48, 7), (44, 2), (40, 5), (36, 4), (31,
    9)]) 31 5 ≤ 27 ∧ (bankG.sR (wf (wordM 69 [(52, 0), (48, 7), (44, 2), (40, 5), (36, 4), (31, 9)]) 31 5 + 2) = 0 ∨ bankG.sR (wf (wordM 69 [(52, 0),
    (48, 7), (44, 2), (40, 5), (36, 4), (31, 9)]) 31 5 + 3) = 0)) ∧
    (Issues coreG (at5 1) (wordM 69 [(53, 1), (52, 1), (48, 7), (44, 2), (40, 5), (36, 4), (31, 2)]) bankG ∧ (StoreOpen coreG (at5 1) bankG (bit
    (BitVec.toNat (wordM 69 [(53, 1), (52, 1), (48, 7), (44, 2), (40, 5), (36, 4), (31, 2)])) 52) (List.map (fun (n : Nat) => (bankG.aR (wf (wordM 69
    [(53, 1), (52, 1), (48, 7), (44, 2), (40, 5), (36, 4), (31, 2)]) 36 4) + 32 * n, 4 * (wf (wordM 69 [(53, 1), (52, 1), (48, 7), (44, 2), (40, 5),
    (36, 4), (31, 2)]) 53 3 + 1))) (List.range (bankG.sR (wf (wordM 69 [(53, 1), (52, 1), (48, 7), (44, 2), (40, 5), (36, 4), (31, 2)]) 31 5 + 2)))))
    ∧ wVar (wordM 69 [(53, 1), (52, 1), (48, 7), (44, 2), (40, 5), (36, 4), (31, 2)]) = false ∧ 4 ≤ (at5 1).tile ∧ wOp (wordM 69 [(53, 1), (52, 1),
    (48, 7), (44, 2), (40, 5), (36, 4), (31, 2)]) = 69 ∧ onlyBits (wordM 69 [(53, 1), (52, 1), (48, 7), (44, 2), (40, 5), (36, 4), (31, 2)]) (msk 31
    25) = true ∧ wf (wordM 69 [(53, 1), (52, 1), (48, 7), (44, 2), (40, 5), (36, 4), (31, 2)]) 31 5 ≤ 27 ∧ 0 < bankG.sR (wf (wordM 69 [(53, 1), (52,
    1), (48, 7), (44, 2), (40, 5), (36, 4), (31, 2)]) 31 5 + 2) ∧ 0 < bankG.sR (wf (wordM 69 [(53, 1), (52, 1), (48, 7), (44, 2), (40, 5), (36, 4),
    (31, 2)]) 31 5 + 3) ∧ hlShape (wf (wordM 69 [(53, 1), (52, 1), (48, 7), (44, 2), (40, 5), (36, 4), (31, 2)]) 48 4) = some (256, 0) ∧ bankG.aR (wf
    (wordM 69 [(53, 1), (52, 1), (48, 7), (44, 2), (40, 5), (36, 4), (31, 2)]) 44 4) % 256 = 0 ∧ bankG.sR (wf (wordM 69 [(53, 1), (52, 1), (48, 7),
    (44, 2), (40, 5), (36, 4), (31, 2)]) 31 5) % 256 = 0 ∧ bankG.aR (wf (wordM 69 [(53, 1), (52, 1), (48, 7), (44, 2), (40, 5), (36, 4), (31, 2)]) 40
    4) % 64 = 0 ∧ bankG.sR (wf (wordM 69 [(53, 1), (52, 1), (48, 7), (44, 2), (40, 5), (36, 4), (31, 2)]) 31 5 + 1) % 64 = 0 ∧ bankG.sR (wf (wordM 69
    [(53, 1), (52, 1), (48, 7), (44, 2), (40, 5), (36, 4), (31, 2)]) 31 5 + 4) + (wf (wordM 69 [(53, 1), (52, 1), (48, 7), (44, 2), (40, 5), (36, 4),
    (31, 2)]) 53 3 + 1) * (cdiv (2 * bankG.sR (wf (wordM 69 [(53, 1), (52, 1), (48, 7), (44, 2), (40, 5), (36, 4), (31, 2)]) 31 5 + 3)) 1024 * 1024)
    ≤ 262144 ∧ bankG.sR (wf (wordM 69 [(53, 1), (52, 1), (48, 7), (44, 2), (40, 5), (36, 4), (31, 2)]) 31 5 + 4) % 64 = 0 ∧ bankG.hlv.isSome = true ∧
    NMap.get 0 coreG.core.vtag (issueCore (at5 1)) = ctxTag bankG ∧ NMap.get false coreG.core.vbufBad (issueCore (at5 1)) = false ∧ coreG.mesh.failed
    = [] ∧ (∀ (n : Nat), n < bankG.sR (wf (wordM 69 [(53, 1), (52, 1), (48, 7), (44, 2), (40, 5), (36, 4), (31, 2)]) 31 5 + 2) → coreG.permit
    bankG.part (bankG.aR (wf (wordM 69 [(53, 1), (52, 1), (48, 7), (44, 2), (40, 5), (36, 4), (31, 2)]) 44 4) + n * bankG.sR (wf (wordM 69 [(53, 1),
    (52, 1), (48, 7), (44, 2), (40, 5), (36, 4), (31, 2)]) 31 5)) (256 * cdiv (bankG.sR (wf (wordM 69 [(53, 1), (52, 1), (48, 7), (44, 2), (40, 5),
    (36, 4), (31, 2)]) 31 5 + 3)) 256) = true ∧ coreG.rangeBad (bankG.aR (wf (wordM 69 [(53, 1), (52, 1), (48, 7), (44, 2), (40, 5), (36, 4), (31,
    2)]) 44 4) + n * bankG.sR (wf (wordM 69 [(53, 1), (52, 1), (48, 7), (44, 2), (40, 5), (36, 4), (31, 2)]) 31 5)) (256 * cdiv (bankG.sR (wf (wordM
    69 [(53, 1), (52, 1), (48, 7), (44, 2), (40, 5), (36, 4), (31, 2)]) 31 5 + 3)) 256) = false ∧ (0 ≠ 0 → coreG.permit bankG.part (bankG.aR (wf
    (wordM 69 [(53, 1), (52, 1), (48, 7), (44, 2), (40, 5), (36, 4), (31, 2)]) 40 4) + n * bankG.sR (wf (wordM 69 [(53, 1), (52, 1), (48, 7), (44,
    2), (40, 5), (36, 4), (31, 2)]) 31 5 + 1)) (0 * cdiv (bankG.sR (wf (wordM 69 [(53, 1), (52, 1), (48, 7), (44, 2), (40, 5), (36, 4), (31, 2)]) 31
    5 + 3)) 256) = true ∧ coreG.rangeBad (bankG.aR (wf (wordM 69 [(53, 1), (52, 1), (48, 7), (44, 2), (40, 5), (36, 4), (31, 2)]) 40 4) + n *
    bankG.sR (wf (wordM 69 [(53, 1), (52, 1), (48, 7), (44, 2), (40, 5), (36, 4), (31, 2)]) 31 5 + 1)) (0 * cdiv (bankG.sR (wf (wordM 69 [(53, 1),
    (52, 1), (48, 7), (44, 2), (40, 5), (36, 4), (31, 2)]) 31 5 + 3)) 256) = false))) :=
  ⟨⟨issues_of (by decide +kernel), (by unfold StoreOpen; decide +kernel), (by decide +kernel)⟩,
    ⟨issues_of (by decide +kernel), (by decide +kernel)⟩,
    ⟨issues_of (by decide +kernel), (by unfold StoreOpen; decide +kernel), (by decide +kernel)⟩⟩

/-! ### The core store, DMA, remote operations, semaphores and engine commands -/

def bankS : Bank :=
  { bankA with s := [(1, 0x40), (2, 64), (3, 3), (4, 128), (5, 256), (6, 192), (7, 5), (8, 0x7FFF)], a := [(1, 0x4000), (2, 0x8000), (3, 0x10000), (4, 0x100000), (5, 0x4004)],
               v := [(1, vecX), (5, vecY)], p := [(1, 1), (2, 2), (3, 0xFF00FF0F)] }
/-- Partition 1 owns granules 0 to 3 of the core store, channel 0 and semaphores 64 to 127. -/
def coreS : State :=
  let s := withRegs (owns 2 (withBanks State.reset [(keyA, bankS)]))
    [(Reg.TILE_CHAN_CFG.owner 0 0, 1), (Reg.TILE_CHAN_CFG.ilv_code 0 0, 0), (Reg.PART_SEM_OWN.valid 0 1, 1), (Reg.PART_SEM_OWN.partition 0 1, 1),
     (Reg.GLB_DEVICE_ID.device_id, 0x0102), (Reg.FAB_ROUTE_POD.valid 3, 1), (Reg.FAB_ROUTE_POD.port0 3, 7), (Reg.FAB_PORT_STAT.state 7, 4)]
  { s with core := { s.core with store := [(storeKey 35 0x4000, 0x11), (storeKey 35 0x4007, 0x88), (storeKey 35 0x43FF, 0x99)] },
           mem := { s.mem with bytes := [(0x8000, 0x21), (0x8040, 0x42), (0x10000, 3), (0x100C1, 0x77)] },
           sem := { s.sem with val := [(64, 3)] }, time := { s.time with cnt := 5000 } }
def at3 : Issue := { at0 with slot := 3 }
/-- A format L word: opcode, guard, register, base, offset register, immediate, post_inc. -/
def wordL (op pg reg base off imm post : Nat) : Word :=
  word [(56, op), (53, pg), (if op < 0x6A then 47 else 48, reg), (43, base), (38, off), (37, post), (0, imm)]
def dmaS : Dma := ⟨0, 0x4000, 0x8000, 2, 64, 128, 64, some 64, false, []⟩
def bankD : Bank := { bankS with dmas := [dmaS, { dmaS with sem := none }] }
def coreD : State := { coreS with core := { coreS.core with banks := [(keyA, bankD)] } }
def dmaDone : Dma := { dmaS with sem := none }
/-- A DMAW of one transfer waits in the memory queue. -/
def queuedW : QOp := { slot := 3, word := wordM 0x6D [(52, 1)], pc := 32, s := [], a := [], v := [], p := [], dests := [], lines := [], units := 0, sums := [] }
def bankDQ : Bank := { bankD with dmas := [dmaDone, dmaS], queue := [queuedW] }
def coreDQ : State := withBanks coreD [(keyA, bankDQ)]
/-- The bank's quarter of the instruction cache is full of other lines; the bundle's is in none of them. -/
def coreCold : State :=
  { coreS with core := { coreS.core with icache := [(keyA - 1, [(1, 0)]), (keyA, (List.range 16).map (fun i => (1, 7 + i)))] } }

/-- A state and operands that meet the hypotheses of each clause of CoreStoreAccess. -/
theorem witness_CoreStoreAccess :
    (Issues coreS at3 (wordL 104 3 5 1 0 0 0) bankS ∧ StoreOpen coreS at3 bankS true [(bankS.lAddr (wordL 104 3 5 1 0 0 0), 1024)] ∧ legalL (wordL
    104 3 5 1 0 0 0) = true ∧ wOp (wordL 104 3 5 1 0 0 0) = 104 ∧ bankS.lAddr (wordL 104 3 5 1 0 0 0) % 64 = 0) ∧
    (Issues coreS at3 (wordL 105 3 5 1 0 4294967232 0) bankS ∧ StoreOpen coreS at3 bankS false [(bankS.lAddr (wordL 105 3 5 1 0 4294967232 0), 1024)]
    ∧ legalL (wordL 105 3 5 1 0 4294967232 0) = true ∧ wOp (wordL 105 3 5 1 0 4294967232 0) = 105 ∧ bankS.lAddr (wordL 105 3 5 1 0 4294967232 0) % 64
    = 0) ∧
    (Issues coreS at3 (wordL 106 0 9 1 0 0 1) bankS ∧ Guarded bankS (wordL 106 0 9 1 0 0 1) ∧ StoreOpen coreS at3 bankS true [(bankS.lAddr (wordL 106
    0 9 1 0 0 1), 8)] ∧ legalL (wordL 106 0 9 1 0 0 1) = true ∧ wOp (wordL 106 0 9 1 0 0 1) = 106 ∧ bit (BitVec.toNat (wordL 106 0 9 1 0 0 1)) 47 =
    false ∧ bankS.lAddr (wordL 106 0 9 1 0 0 1) % 8 = 0) ∧
    (Issues coreS at3 (wordL 107 0 8 1 1 4294967288 0) bankS ∧ Guarded bankS (wordL 107 0 8 1 1 4294967288 0) ∧ StoreOpen coreS at3 bankS false
    [(bankS.lAddr (wordL 107 0 8 1 1 4294967288 0), 8)] ∧ legalL (wordL 107 0 8 1 1 4294967288 0) = true ∧ wOp (wordL 107 0 8 1 1 4294967288 0) = 107
    ∧ bit (BitVec.toNat (wordL 107 0 8 1 1 4294967288 0)) 47 = false ∧ bankS.lAddr (wordL 107 0 8 1 1 4294967288 0) % 8 = 0) ∧
    (∀ e ∈ [106, 107], Issues coreS at3 (wordL e 2 9 1 0 0 1) bankS ∧ legalL (wordL e 2 9 1 0 0 1) = true ∧ (¬Guarded bankS (wordL e 2 9 1 0 0 1)) ∧
    wOp (wordL e 2 9 1 0 0 1) = e ∧ bit (BitVec.toNat (wordL e 2 9 1 0 0 1)) 47 = false) ∧
    (∀ e ∈ [(106, 5, 0), (107, 4, 3145728)], Issues coreS at3 (wordL e.1 0 9 e.2.1 0 e.2.2 0) bankS ∧ legalL (wordL e.1 0 9 e.2.1 0 e.2.2 0) = true ∧
    Guarded bankS (wordL e.1 0 9 e.2.1 0 e.2.2 0) ∧ bit (BitVec.toNat (wordL e.1 0 9 e.2.1 0 e.2.2 0)) 47 = false ∧ bankS.dmas = [] ∧ (bankS.lAddr
    (wordL e.1 0 9 e.2.1 0 e.2.2 0) % 8 ≠ 0 ∨ storeSize at3.tile < bankS.lAddr (wordL e.1 0 9 e.2.1 0 e.2.2 0) + 8 ∨ coreS.granOwned at3.tile
    at3.core bankS.part (bankS.lAddr (wordL e.1 0 9 e.2.1 0 e.2.2 0)) 8 = false) ∧ wOp (wordL e.1 0 9 e.2.1 0 e.2.2 0) = e.1) :=
  ⟨⟨issues_of (by decide +kernel), (by unfold StoreOpen; decide +kernel), (by decide +kernel)⟩,
    ⟨issues_of (by decide +kernel), (by unfold StoreOpen; decide +kernel), (by decide +kernel)⟩,
    ⟨issues_of (by decide +kernel), (by unfold Guarded; decide +kernel), (by unfold StoreOpen; decide +kernel), (by decide +kernel)⟩,
    ⟨issues_of (by decide +kernel), (by unfold Guarded; decide +kernel), (by unfold StoreOpen; decide +kernel), (by decide +kernel)⟩,
    (by simp only [List.forall_mem_cons]; and_intros <;> first | decide +kernel | exact issues_of (by decide +kernel) | (constructor <;> first | decide +kernel | (unfold Routable; decide +kernel)) | exact List.forall_mem_nil _ | (unfold Guarded; decide +kernel) | (unfold Routable; decide +kernel)),
    (by simp only [List.forall_mem_cons]; and_intros <;> first | decide +kernel | exact issues_of (by decide +kernel) | (constructor <;> first | decide +kernel | (unfold Routable; decide +kernel)) | exact List.forall_mem_nil _ | (unfold Guarded; decide +kernel) | (unfold Routable; decide +kernel))⟩

/-- A state and operands that meet the hypotheses of each clause of DmaMovesBytes. -/
theorem witness_DmaMovesBytes :
    (Issues coreS at3 (word [(56, 108), (52, 0), (48, 1), (44, 2), (39, 3), (24, 1), (25, 64)]) bankS ∧ (wf (word [(56, 108), (52, 0), (48, 1), (44,
    2), (39, 3), (24, 1), (25, 64)]) 52 4 = 0 → StoreOpen coreS at3 bankS false ((fun (a st : Nat) => List.map (fun (i : Nat) => (a + i * st,
    bankS.sR (wf (word [(56, 108), (52, 0), (48, 1), (44, 2), (39, 3), (24, 1), (25, 64)]) 39 5 + 1))) (List.range (bankS.sR (wf (word [(56, 108),
    (52, 0), (48, 1), (44, 2), (39, 3), (24, 1), (25, 64)]) 39 5)))) (bankS.aR (wf (word [(56, 108), (52, 0), (48, 1), (44, 2), (39, 3), (24, 1),
    (25, 64)]) 48 4)) (bankS.sR (wf (word [(56, 108), (52, 0), (48, 1), (44, 2), (39, 3), (24, 1), (25, 64)]) 39 5 + 2))) ∧ ∀ (i : Nat), i < bankS.sR
    (wf (word [(56, 108), (52, 0), (48, 1), (44, 2), (39, 3), (24, 1), (25, 64)]) 39 5) → coreS.permit bankS.part (bankS.aR (wf (word [(56, 108),
    (52, 0), (48, 1), (44, 2), (39, 3), (24, 1), (25, 64)]) 44 4) + i * bankS.sR (wf (word [(56, 108), (52, 0), (48, 1), (44, 2), (39, 3), (24, 1),
    (25, 64)]) 39 5 + 3)) (bankS.sR (wf (word [(56, 108), (52, 0), (48, 1), (44, 2), (39, 3), (24, 1), (25, 64)]) 39 5 + 1)) = true) ∧ (wf (word
    [(56, 108), (52, 0), (48, 1), (44, 2), (39, 3), (24, 1), (25, 64)]) 52 4 = 1 → StoreOpen coreS at3 bankS true ((fun (a st : Nat) => List.map (fun
    (i : Nat) => (a + i * st, bankS.sR (wf (word [(56, 108), (52, 0), (48, 1), (44, 2), (39, 3), (24, 1), (25, 64)]) 39 5 + 1))) (List.range
    (bankS.sR (wf (word [(56, 108), (52, 0), (48, 1), (44, 2), (39, 3), (24, 1), (25, 64)]) 39 5)))) (bankS.aR (wf (word [(56, 108), (52, 0), (48,
    1), (44, 2), (39, 3), (24, 1), (25, 64)]) 44 4)) (bankS.sR (wf (word [(56, 108), (52, 0), (48, 1), (44, 2), (39, 3), (24, 1), (25, 64)]) 39 5 +
    3))) ∧ ∀ (i : Nat), i < bankS.sR (wf (word [(56, 108), (52, 0), (48, 1), (44, 2), (39, 3), (24, 1), (25, 64)]) 39 5) → coreS.permit bankS.part
    (bankS.aR (wf (word [(56, 108), (52, 0), (48, 1), (44, 2), (39, 3), (24, 1), (25, 64)]) 48 4) + i * bankS.sR (wf (word [(56, 108), (52, 0), (48,
    1), (44, 2), (39, 3), (24, 1), (25, 64)]) 39 5 + 2)) (bankS.sR (wf (word [(56, 108), (52, 0), (48, 1), (44, 2), (39, 3), (24, 1), (25, 64)]) 39 5
    + 1)) = true) ∧ wVar (word [(56, 108), (52, 0), (48, 1), (44, 2), (39, 3), (24, 1), (25, 64)]) = false ∧ wOp (word [(56, 108), (52, 0), (48, 1),
    (44, 2), (39, 3), (24, 1), (25, 64)]) = 108 ∧ wf (word [(56, 108), (52, 0), (48, 1), (44, 2), (39, 3), (24, 1), (25, 64)]) 0 23 = 0 ∧ wf (word
    [(56, 108), (52, 0), (48, 1), (44, 2), (39, 3), (24, 1), (25, 64)]) 52 4 < 3 ∧ wf (word [(56, 108), (52, 0), (48, 1), (44, 2), (39, 3), (24, 1),
    (25, 64)]) 39 5 ≤ 28 ∧ 0 < bankS.sR (wf (word [(56, 108), (52, 0), (48, 1), (44, 2), (39, 3), (24, 1), (25, 64)]) 39 5) ∧ 0 < bankS.sR (wf (word
    [(56, 108), (52, 0), (48, 1), (44, 2), (39, 3), (24, 1), (25, 64)]) 39 5 + 1) ∧ bankS.aR (wf (word [(56, 108), (52, 0), (48, 1), (44, 2), (39,
    3), (24, 1), (25, 64)]) 48 4) % 64 = 0 ∧ bankS.aR (wf (word [(56, 108), (52, 0), (48, 1), (44, 2), (39, 3), (24, 1), (25, 64)]) 44 4) % 64 = 0 ∧
    bankS.sR (wf (word [(56, 108), (52, 0), (48, 1), (44, 2), (39, 3), (24, 1), (25, 64)]) 39 5 + 1) % 64 = 0 ∧ bankS.sR (wf (word [(56, 108), (52,
    0), (48, 1), (44, 2), (39, 3), (24, 1), (25, 64)]) 39 5 + 2) % 64 = 0 ∧ bankS.sR (wf (word [(56, 108), (52, 0), (48, 1), (44, 2), (39, 3), (24,
    1), (25, 64)]) 39 5 + 3) % 64 = 0 ∧ (bit (BitVec.toNat (word [(56, 108), (52, 0), (48, 1), (44, 2), (39, 3), (24, 1), (25, 64)])) 24 = true →
    coreS.semOwned (wf (word [(56, 108), (52, 0), (48, 1), (44, 2), (39, 3), (24, 1), (25, 64)]) 25 14) bankS.part = true) ∧ bankS.dmas.length < 16 ∧
    (wf (word [(56, 108), (52, 0), (48, 1), (44, 2), (39, 3), (24, 1), (25, 64)]) 52 4 = 2 → ∀ (i : Nat), i < bankS.sR (wf (word [(56, 108), (52, 0),
    (48, 1), (44, 2), (39, 3), (24, 1), (25, 64)]) 39 5) → coreS.permit bankS.part (bankS.aR (wf (word [(56, 108), (52, 0), (48, 1), (44, 2), (39,
    3), (24, 1), (25, 64)]) 44 4) + i * bankS.sR (wf (word [(56, 108), (52, 0), (48, 1), (44, 2), (39, 3), (24, 1), (25, 64)]) 39 5 + 3)) (bankS.sR
    (wf (word [(56, 108), (52, 0), (48, 1), (44, 2), (39, 3), (24, 1), (25, 64)]) 39 5 + 1)) = true ∧ coreS.permit bankS.part (bankS.aR (wf (word
    [(56, 108), (52, 0), (48, 1), (44, 2), (39, 3), (24, 1), (25, 64)]) 48 4) + i * bankS.sR (wf (word [(56, 108), (52, 0), (48, 1), (44, 2), (39,
    3), (24, 1), (25, 64)]) 39 5 + 2)) (bankS.sR (wf (word [(56, 108), (52, 0), (48, 1), (44, 2), (39, 3), (24, 1), (25, 64)]) 39 5 + 1)) = true)) ∧
    (Issues coreD at3 (word [(56, 109), (52, 1)]) bankD ∧ wVar (word [(56, 109), (52, 1)]) = false ∧ wOp (word [(56, 109), (52, 1)]) = 109 ∧ wf (word
    [(56, 109), (52, 1)]) 0 52 = 0) ∧
    (Issues coreD at3 (word [(56, 110)]) bankD ∧ wVar (word [(56, 110)]) = false ∧ wOp (word [(56, 110)]) = 110 ∧ wf (word [(56, 110)]) 0 56 = 0) ∧
    (2 < 8 ∧ 3 < 16 ∧ 1 < 4 ∧ coreD.bank (bankKey 2 3 1) = some bankD ∧ bankD.dmas = [dmaS, dmaDone] ∧ bankD.hold = Hold.free ∧ bankD.queue = [] ∧
    dmaS.kind = 0 ∧ 0 < dmaS.rowBytes ∧ dmaS.rowBytes % 64 = 0 ∧ dmaS.rowBytes ≤ dmaS.dstStride ∧ (∀ (j : Nat), j < dmaS.lines → coreD.lineBad
    (dmaS.line j).snd = false ∧ coreD.permit bankD.part (dmaS.line j).snd 64 = true) ∧ coreD.mesh.failed = [] ∧ (∀ (q : Nat), dmaS.sem = some q →
    coreD.semWaiters q = [])) ∧
    (2 < 8 ∧ 3 < 16 ∧ 1 < 4 ∧ coreDQ.bank (bankKey 2 3 1) = some bankDQ ∧ bankDQ.dmas = [dmaDone, dmaS] ∧ bankDQ.hold = Hold.free ∧ bankDQ.live =
    true ∧ bankDQ.slot.isSome = true ∧ coreDQ.issueOpen 2 bankDQ.slot = true ∧ bankDQ.issued = 0 ∧ bankDQ.queue = [queuedW] ∧ queuedW.slot = 3 ∧ wOp
    queuedW.word = 109 ∧ dmaDone.sem = none ∧ coreDQ.mesh.failed = [] ∧ (∀ (j : Nat), j < dmaDone.lines → coreDQ.dmaMay bankDQ.part dmaDone j =
    true)) :=
  ⟨⟨issues_of (by decide +kernel), (fun _ => by unfold StoreOpen; decide +kernel), (fun h => absurd h (by decide +kernel)), (by decide +kernel)⟩,
    ⟨issues_of (by decide +kernel), (by decide +kernel)⟩,
    ⟨issues_of (by decide +kernel), (by decide +kernel)⟩,
    (by and_intros <;> decide +kernel)⟩

/-- A state and operands that meet the hypotheses of each clause of FetchFillsCache. -/
theorem witness_FetchFillsCache :
    (Issues (State.mk coreCold.pending coreCold.regs coreCold.shadow coreCold.prev coreCold.bus coreCold.host coreCold.hostEp coreCold.free
    coreCold.flt coreCold.tick coreCold.time coreCold.pulses coreCold.bars (have __src := coreCold.core; CoreSt.mk __src.banks __src.store __src.wbuf
    __src.acc __src.vbuf __src.storeBad __src.wbufBad __src.vbufBad __src.accRows __src.wtag __src.vtag __src.anchor __src.accKind __src.hlRest
    __src.zeroing (NMap.put [] coreCold.core.icache (issueKey at3) [(bankS.part, (coreCold.progBase bankS.part + bankS.pc) / 1024)])) coreCold.mem
    coreCold.sem coreCold.mesh coreCold.part coreCold.hq coreCold.fab coreCold.srv coreCold.eth coreCold.rad coreCold.col coreCold.mgt coreCold.pins)
    at3 (word []) bankS ∧ wOp (word []) = 0 ∧ wVar (word []) = false ∧ onlyBits (word []) 0 = true ∧ (NMap.get [] coreCold.core.icache (issueKey
    at3)).contains (bankS.part, (coreCold.progBase bankS.part + bankS.pc) / 1024) = false) :=
  ⟨issues_of (by decide +kernel), (by decide +kernel)⟩

/-- Address registers that name this package (device 0x0102), its neighbour 0x0103 over port 7, and multicast group 5. -/
def bankQ : Bank := { bankS with a := [(1, 0x0102 * 2 ^ 48 + 0x8000), (2, 0x0103 * 2 ^ 48 + 0x10000), (3, 0xF005 * 2 ^ 48 + 0x40), (4, 0x0103 * 2 ^ 48 + 8)] }
def coreQ : State := withRegs (withBanks coreS [(keyA, bankQ)]) [(Reg.FAB_DOMAIN.valid 1, 1), (Reg.FAB_DOMAIN.domain 1, 0x77), (Reg.PART_STAT.state 1, 1)]
def bankQD : Bank := { bankQ with dmas := [dmaS] }
def coreQD : State := withBanks coreQ [(keyA, bankQD)]

/-- A semaphore word: opcode, rd, index register, count register, base index, count. -/
def wordP (op rd rs1 rs2 base cnt : Nat) : Word := word [(56, op), (48, rd), (43, rs1), (38, rs2), (0, base), (14, cnt)]
def bankGr : Bank := { bankS with grants := [65, 66] }
def coreGr : State := withBanks coreS [(keyA, bankGr)]
def coreW : State := { coreS with sem := ⟨[(64, 3)], [], [⟨70, .bank keyA⟩]⟩, core := { coreS.core with banks := [(keyA, { bankS with hold := .semw 70 })] } }
def bankW : Bank := { bankS with hold := .semw 70 }
def coreG2 : State := { coreS with sem := ⟨[(64, 3)], [], [⟨71, .bank keyA⟩]⟩ }

/-- A command and its result record in core store; Copperplate partition 1. -/
def bankE : Bank := { bankS with a := [(1, 0x4000), (2, 0x8020)] }
def coreE : State :=
  let s := withBanks coreS [(keyA, bankE)]
  { s with part := { s.part with copper := [(1, true)] }, core := { s.core with store := [(storeKey 35 0x4000, 1), (storeKey 35 0x4024, 9)] } }

/-- The deduplication tables stand at the start of channel 1, which is the manager's. -/
def dedupOn (s : State) : State :=
  withRegs s [(Reg.TILE_CHAN_CFG.owner 0 1, 0x40), (Reg.TILE_CHAN_CFG.ilv_code 0 1, 0), (Reg.FAB_DEDUP_BASE.base, 384)]
/-- Address registers that name device 0xFFFF, which is reserved, and a multicast group. -/
def bankQR : Bank := { bankS with a := [(1, 0xFFFF * 2 ^ 48 + 0x8000), (2, 0xF005 * 2 ^ 48 + 8)] }
def coreQR : State := withBanks coreQ [(keyA, bankQR)]

/-- A state and operands that meet the hypotheses of each clause of RemoteRequests. -/
theorem witness_RemoteRequests :
    (Issues coreQ at3 (word [(56, 112), (48, 2), (42, 5), (38, 2), (35, 3)]) bankQ ∧ wOp (word [(56, 112), (48, 2), (42, 5), (38, 2), (35, 3)]) = 112
    ∧ wVar (word [(56, 112), (48, 2), (42, 5), (38, 2), (35, 3)]) = false ∧ onlyBits (word [(56, 112), (48, 2), (42, 5), (38, 2), (35, 3)]) (msk 35
    17) = true ∧ bankQ.aR (rAg (word [(56, 112), (48, 2), (42, 5), (38, 2), (35, 3)])) % 64 = 0 ∧ bankQ.aR (rAg (word [(56, 112), (48, 2), (42, 5),
    (38, 2), (35, 3)])) / 2 ^ 48 < 61440 ∧ coreQ.mesh.failed = []) ∧
    (Issues coreQ at3 (word [(56, 113), (48, 2), (42, 5), (38, 2), (35, 3)]) bankQ ∧ Routable coreQ (bankQ.aR (rAg (word [(56, 113), (48, 2), (42,
    5), (38, 2), (35, 3)])) / 2 ^ 48 % 2 ^ 16) ∧ wVar (word [(56, 113), (48, 2), (42, 5), (38, 2), (35, 3)]) = false ∧ onlyBits (word [(56, 113),
    (48, 2), (42, 5), (38, 2), (35, 3)]) (msk 35 17) = true ∧ bankQ.aR (rAg (word [(56, 113), (48, 2), (42, 5), (38, 2), (35, 3)])) % 64 = 0 ∧ wOp
    (word [(56, 113), (48, 2), (42, 5), (38, 2), (35, 3)]) = 113 ∧ bankQ.aR (rAg (word [(56, 113), (48, 2), (42, 5), (38, 2), (35, 3)])) / 2 ^ 48 <
    61440) ∧
    (Issues coreQ at3 (word [(56, 114), (48, 3), (42, 5), (38, 2), (35, 3)]) bankQ ∧ Routable coreQ (bankQ.aR (rAg (word [(56, 114), (48, 3), (42,
    5), (38, 2), (35, 3)])) / 2 ^ 48 % 2 ^ 16) ∧ wVar (word [(56, 114), (48, 3), (42, 5), (38, 2), (35, 3)]) = false ∧ onlyBits (word [(56, 114),
    (48, 3), (42, 5), (38, 2), (35, 3)]) (msk 35 17) = true ∧ bankQ.aR (rAg (word [(56, 114), (48, 3), (42, 5), (38, 2), (35, 3)])) % 64 = 0 ∧ wOp
    (word [(56, 114), (48, 3), (42, 5), (38, 2), (35, 3)]) = 114 ∧ bankQ.aR (rAg (word [(56, 114), (48, 3), (42, 5), (38, 2), (35, 3)])) / 2 ^ 48 ≠
    65535) ∧
    (Issues coreQ at3 (word [(56, 115), (52, 5), (48, 2), (42, 5), (38, 2), (35, 3), (31, 12)]) bankQ ∧ Routable coreQ (bankQ.aR (rAg (word [(56,
    115), (52, 5), (48, 2), (42, 5), (38, 2), (35, 3), (31, 12)])) / 2 ^ 48 % 2 ^ 16) ∧ wVar (word [(56, 115), (52, 5), (48, 2), (42, 5), (38, 2),
    (35, 3), (31, 12)]) = false ∧ wOp (word [(56, 115), (52, 5), (48, 2), (42, 5), (38, 2), (35, 3), (31, 12)]) = 115 ∧ onlyBits (word [(56, 115),
    (52, 5), (48, 2), (42, 5), (38, 2), (35, 3), (31, 12)]) (msk 31 25) = true ∧ bankQ.aR (rAg (word [(56, 115), (52, 5), (48, 2), (42, 5), (38, 2),
    (35, 3), (31, 12)])) % 64 = 0 ∧ bankQ.aR (rAg (word [(56, 115), (52, 5), (48, 2), (42, 5), (38, 2), (35, 3), (31, 12)])) / 2 ^ 48 < 61440 ∧ (rFmt
    (word [(56, 115), (52, 5), (48, 2), (42, 5), (38, 2), (35, 3), (31, 12)]) = 12 ∧ rRop (word [(56, 115), (52, 5), (48, 2), (42, 5), (38, 2), (35,
    3), (31, 12)]) < 6 ∨ remFloat (rFmt (word [(56, 115), (52, 5), (48, 2), (42, 5), (38, 2), (35, 3), (31, 12)])) = true ∧ rRop (word [(56, 115),
    (52, 5), (48, 2), (42, 5), (38, 2), (35, 3), (31, 12)]) < 3 ∧ coreQ.copper bankQ.part = false)) ∧
    (Issues coreQ at3 (word [(56, 116), (52, 2), (48, 4), (35, 3), (31, 12), (26, 1), (21, 7), (16, 9), (15, 1)]) bankQ ∧ Routable coreQ (bankQ.aR
    (rAg (word [(56, 116), (52, 2), (48, 4), (35, 3), (31, 12), (26, 1), (21, 7), (16, 9), (15, 1)])) / 2 ^ 48 % 2 ^ 16) ∧ wVar (word [(56, 116),
    (52, 2), (48, 4), (35, 3), (31, 12), (26, 1), (21, 7), (16, 9), (15, 1)]) = false ∧ wOp (word [(56, 116), (52, 2), (48, 4), (35, 3), (31, 12),
    (26, 1), (21, 7), (16, 9), (15, 1)]) = 116 ∧ (onlyBits (word [(56, 116), (52, 2), (48, 4), (35, 3), (31, 12), (26, 1), (21, 7), (16, 9), (15,
    1)]) ((msk 48 8 + msk 35 3 + msk 31 4 + msk 26 5 + if rRop (word [(56, 116), (52, 2), (48, 4), (35, 3), (31, 12), (26, 1), (21, 7), (16, 9), (15,
    1)]) = 2 then msk 21 5 else 0) + msk 15 6) = true) ∧ rRop (word [(56, 116), (52, 2), (48, 4), (35, 3), (31, 12), (26, 1), (21, 7), (16, 9), (15,
    1)]) < 8 ∧ bankQ.aR (rAg (word [(56, 116), (52, 2), (48, 4), (35, 3), (31, 12), (26, 1), (21, 7), (16, 9), (15, 1)])) / 2 ^ 48 < 61440 ∧ (rW64
    (word [(56, 116), (52, 2), (48, 4), (35, 3), (31, 12), (26, 1), (21, 7), (16, 9), (15, 1)]) = true ∨ rFmt (word [(56, 116), (52, 2), (48, 4),
    (35, 3), (31, 12), (26, 1), (21, 7), (16, 9), (15, 1)]) = 12 ∨ remFloat (rFmt (word [(56, 116), (52, 2), (48, 4), (35, 3), (31, 12), (26, 1),
    (21, 7), (16, 9), (15, 1)])) = true ∧ (rRop (word [(56, 116), (52, 2), (48, 4), (35, 3), (31, 12), (26, 1), (21, 7), (16, 9), (15, 1)]) < 3 ∨ 5 <
    rRop (word [(56, 116), (52, 2), (48, 4), (35, 3), (31, 12), (26, 1), (21, 7), (16, 9), (15, 1)])) ∧ coreQ.copper bankQ.part = false) ∧ ((bankQ.aR
    (rAg (word [(56, 116), (52, 2), (48, 4), (35, 3), (31, 12), (26, 1), (21, 7), (16, 9), (15, 1)])) % if rW64 (word [(56, 116), (52, 2), (48, 4),
    (35, 3), (31, 12), (26, 1), (21, 7), (16, 9), (15, 1)]) = true then 8 else if rFmt (word [(56, 116), (52, 2), (48, 4), (35, 3), (31, 12), (26,
    1), (21, 7), (16, 9), (15, 1)]) = 8 then 2 else 4) = 0) ∧ (NMap.get [] (coreQ.pruneHorizon (bankQ.aR (rAg (word [(56, 116), (52, 2), (48, 4),
    (35, 3), (31, 12), (26, 1), (21, 7), (16, 9), (15, 1)])) / 2 ^ 48)).fab.horizon (bankQ.aR (rAg (word [(56, 116), (52, 2), (48, 4), (35, 3), (31,
    12), (26, 1), (21, 7), (16, 9), (15, 1)])) / 2 ^ 48)).length < 256) ∧
    (Issues coreQ at3 (word [(56, 117), (48, 2), (26, 8), (35, 3)]) bankQ ∧ Routable coreQ (bankQ.aR (rAg (word [(56, 117), (48, 2), (26, 8), (35,
    3)])) / 2 ^ 48 % 2 ^ 16) ∧ wOp (word [(56, 117), (48, 2), (26, 8), (35, 3)]) = 117 ∧ wVar (word [(56, 117), (48, 2), (26, 8), (35, 3)]) = false ∧
    onlyBits (word [(56, 117), (48, 2), (26, 8), (35, 3)]) (msk 48 4 + msk 35 3 + msk 26 5) = true ∧ bankQ.aR (rAg (word [(56, 117), (48, 2), (26,
    8), (35, 3)])) / 2 ^ 48 < 61440 ∧ coreQ.releaseOk (issueKey at3) = true) ∧
    (Issues coreQD at3 (word [(56, 117), (48, 2), (26, 8), (35, 3)]) bankQD ∧ wOp (word [(56, 117), (48, 2), (26, 8), (35, 3)]) = 117 ∧ wVar (word
    [(56, 117), (48, 2), (26, 8), (35, 3)]) = false ∧ onlyBits (word [(56, 117), (48, 2), (26, 8), (35, 3)]) (msk 48 4 + msk 35 3 + msk 26 5) = true
    ∧ bankQD.aR (rAg (word [(56, 117), (48, 2), (26, 8), (35, 3)])) / 2 ^ 48 < 61440 ∧ coreQD.releaseOk (issueKey at3) = false) ∧
    (∀ e ∈ [112, 113], Issues coreQR at3 (word [(56, e), (48, 2), (42, 5), (38, 2), (35, 3)]) bankQR ∧ wVar (word [(56, e), (48, 2), (42, 5), (38,
    2), (35, 3)]) = false ∧ bankQR.dmas = [] ∧ onlyBits (word [(56, e), (48, 2), (42, 5), (38, 2), (35, 3)]) (msk 35 17) = true ∧ wOp (word [(56, e),
    (48, 2), (42, 5), (38, 2), (35, 3)]) = e ∧ 61440 ≤ bankQR.aR (rAg (word [(56, e), (48, 2), (42, 5), (38, 2), (35, 3)])) / 2 ^ 48) ∧
    (Issues coreQR at3 (word [(56, 114), (48, 1), (42, 5), (38, 2), (35, 3)]) bankQR ∧ wVar (word [(56, 114), (48, 1), (42, 5), (38, 2), (35, 3)]) =
    false ∧ bankQR.dmas = [] ∧ onlyBits (word [(56, 114), (48, 1), (42, 5), (38, 2), (35, 3)]) (msk 35 17) = true ∧ wOp (word [(56, 114), (48, 1),
    (42, 5), (38, 2), (35, 3)]) = 114 ∧ bankQR.aR (rAg (word [(56, 114), (48, 1), (42, 5), (38, 2), (35, 3)])) / 2 ^ 48 = 65535) ∧
    (Issues coreQR at3 (word [(56, 115), (52, 5), (48, 2), (42, 5), (38, 2), (35, 3), (31, 12)]) bankQR ∧ wVar (word [(56, 115), (52, 5), (48, 2),
    (42, 5), (38, 2), (35, 3), (31, 12)]) = false ∧ bankQR.dmas = [] ∧ wOp (word [(56, 115), (52, 5), (48, 2), (42, 5), (38, 2), (35, 3), (31, 12)])
    = 115 ∧ onlyBits (word [(56, 115), (52, 5), (48, 2), (42, 5), (38, 2), (35, 3), (31, 12)]) (msk 31 25) = true ∧ rFmt (word [(56, 115), (52, 5),
    (48, 2), (42, 5), (38, 2), (35, 3), (31, 12)]) = 12 ∧ rRop (word [(56, 115), (52, 5), (48, 2), (42, 5), (38, 2), (35, 3), (31, 12)]) < 6 ∧ 61440
    ≤ bankQR.aR (rAg (word [(56, 115), (52, 5), (48, 2), (42, 5), (38, 2), (35, 3), (31, 12)])) / 2 ^ 48) ∧
    (Issues coreQR at3 (word [(56, 116), (52, 3), (48, 1), (35, 3), (31, 12), (26, 1), (16, 9)]) bankQR ∧ wVar (word [(56, 116), (52, 3), (48, 1),
    (35, 3), (31, 12), (26, 1), (16, 9)]) = false ∧ bankQR.dmas = [] ∧ wOp (word [(56, 116), (52, 3), (48, 1), (35, 3), (31, 12), (26, 1), (16, 9)])
    = 116 ∧ onlyBits (word [(56, 116), (52, 3), (48, 1), (35, 3), (31, 12), (26, 1), (16, 9)]) (msk 48 8 + msk 35 3 + msk 31 4 + msk 26 5 + msk 15 6)
    = true ∧ rRop (word [(56, 116), (52, 3), (48, 1), (35, 3), (31, 12), (26, 1), (16, 9)]) < 8 ∧ rRop (word [(56, 116), (52, 3), (48, 1), (35, 3),
    (31, 12), (26, 1), (16, 9)]) ≠ 2 ∧ rFmt (word [(56, 116), (52, 3), (48, 1), (35, 3), (31, 12), (26, 1), (16, 9)]) = 12 ∧ 61440 ≤ bankQR.aR (rAg
    (word [(56, 116), (52, 3), (48, 1), (35, 3), (31, 12), (26, 1), (16, 9)])) / 2 ^ 48) ∧
    (Issues coreQR at3 (word [(56, 117), (48, 2), (26, 8), (35, 3)]) bankQR ∧ wVar (word [(56, 117), (48, 2), (26, 8), (35, 3)]) = false ∧
    bankQR.dmas = [] ∧ wOp (word [(56, 117), (48, 2), (26, 8), (35, 3)]) = 117 ∧ onlyBits (word [(56, 117), (48, 2), (26, 8), (35, 3)]) (msk 48 4 +
    msk 35 3 + msk 26 5) = true ∧ 61440 ≤ bankQR.aR (rAg (word [(56, 117), (48, 2), (26, 8), (35, 3)])) / 2 ^ 48) :=
  ⟨⟨issues_of (by decide +kernel), (by decide +kernel)⟩,
    ⟨issues_of (by decide +kernel), (by unfold Routable; decide +kernel), (by decide +kernel)⟩,
    ⟨issues_of (by decide +kernel), (by unfold Routable; decide +kernel), (by decide +kernel)⟩,
    ⟨issues_of (by decide +kernel), (by unfold Routable; decide +kernel), (by decide +kernel)⟩,
    ⟨issues_of (by decide +kernel), (by unfold Routable; decide +kernel), (by decide +kernel)⟩,
    ⟨issues_of (by decide +kernel), (by unfold Routable; decide +kernel), (by decide +kernel)⟩,
    ⟨issues_of (by decide +kernel), (by decide +kernel)⟩,
    (by simp only [List.forall_mem_cons]; and_intros <;> first | decide +kernel | exact issues_of (by decide +kernel) | (constructor <;> first | decide +kernel | (unfold Routable; decide +kernel)) | exact List.forall_mem_nil _ | (unfold Guarded; decide +kernel) | (unfold Routable; decide +kernel)),
    ⟨issues_of (by decide +kernel), (by decide +kernel)⟩,
    ⟨issues_of (by decide +kernel), (by decide +kernel)⟩,
    ⟨issues_of (by decide +kernel), (by decide +kernel)⟩,
    ⟨issues_of (by decide +kernel), (by decide +kernel)⟩⟩

/-- A state and operands that meet the hypotheses of each clause of CoreSemaphores. -/
theorem witness_CoreSemaphores :
    (Issues coreS at0 (wordP 32 0 0 0 64 0) bankS ∧ Guarded bankS (wordP 32 0 0 0 64 0) ∧ coreS.semOwned (bankS.semIndex (wordP 32 0 0 0 64 0))
    bankS.part = true ∧ wOp (wordP 32 0 0 0 64 0) = 32 ∧ legalSem (wordP 32 0 0 0 64 0) false false false = true) ∧
    (Issues coreS at0 (wordP 33 0 1 0 0 262143) bankS ∧ Guarded bankS (wordP 33 0 1 0 0 262143) ∧ coreS.semOwned (bankS.semIndex (wordP 33 0 1 0 0
    262143)) bankS.part = true ∧ wOp (wordP 33 0 1 0 0 262143) = 33 ∧ legalSem (wordP 33 0 1 0 0 262143) false true (decide (wRs2 (wordP 33 0 1 0 0
    262143) = 0)) = true ∧ coreS.releaseOk (issueKey at0) = true ∧ coreS.semWaiters (bankS.semIndex (wordP 33 0 1 0 0 262143)) = []) ∧
    (Issues coreD at0 (wordP 33 0 1 0 0 2) bankD ∧ Guarded bankD (wordP 33 0 1 0 0 2) ∧ coreD.semOwned (bankD.semIndex (wordP 33 0 1 0 0 2))
    bankD.part = true ∧ wOp (wordP 33 0 1 0 0 2) = 33 ∧ legalSem (wordP 33 0 1 0 0 2) false true (decide (wRs2 (wordP 33 0 1 0 0 2) = 0)) = true ∧
    coreD.releaseOk (issueKey at0) = false ∧ (0 < if wRs2 (wordP 33 0 1 0 0 2) = 0 then wf (wordP 33 0 1 0 0 2) 14 18 else bankD.sR (wRs2 (wordP 33 0
    1 0 0 2)))) ∧
    (Issues coreS at0 (wordP 34 4 1 0 0 0) bankS ∧ Guarded bankS (wordP 34 4 1 0 0 0) ∧ coreS.semOwned (bankS.semIndex (wordP 34 4 1 0 0 0))
    bankS.part = true ∧ wOp (wordP 34 4 1 0 0 0) = 34 ∧ legalSem (wordP 34 4 1 0 0 0) true false false = true ∧ wf (wordP 34 4 1 0 0 0) 51 2 = 0) ∧
    (Issues coreS at0 (wordP 35 9 1 0 0 0) bankS ∧ Guarded bankS (wordP 35 9 1 0 0 0) ∧ coreS.semOwned (bankS.semIndex (wordP 35 9 1 0 0 0))
    bankS.part = true ∧ wOp (wordP 35 9 1 0 0 0) = 35 ∧ legalSem (wordP 35 9 1 0 0 0) true false false = true) ∧
    (Issues coreS at0 (wordP 34 4 1 0 64 0) bankS ∧ Guarded bankS (wordP 34 4 1 0 64 0) ∧ coreS.semOwned (bankS.semIndex (wordP 34 4 1 0 64 0))
    bankS.part = false ∧ bankS.dmas = [] ∧ legalSem (wordP 34 4 1 0 64 0) true false false = true ∧ wOp (wordP 34 4 1 0 64 0) = 34 ∧ wf (wordP 34 4 1
    0 64 0) 51 2 = 0) ∧
    (Issues coreS at0 (wordP 35 9 1 0 16383 0) bankS ∧ Guarded bankS (wordP 35 9 1 0 16383 0) ∧ coreS.semOwned (bankS.semIndex (wordP 35 9 1 0 16383
    0)) bankS.part = false ∧ bankS.dmas = [] ∧ legalSem (wordP 35 9 1 0 16383 0) true false false = true ∧ wOp (wordP 35 9 1 0 16383 0) = 35) :=
  ⟨⟨issues_of (by decide +kernel), (by unfold Guarded; decide +kernel), (by decide +kernel)⟩,
    ⟨issues_of (by decide +kernel), (by unfold Guarded; decide +kernel), (by decide +kernel)⟩,
    ⟨issues_of (by decide +kernel), (by unfold Guarded; decide +kernel), (by decide +kernel)⟩,
    ⟨issues_of (by decide +kernel), (by unfold Guarded; decide +kernel), (by decide +kernel)⟩,
    ⟨issues_of (by decide +kernel), (by unfold Guarded; decide +kernel), (by decide +kernel)⟩,
    ⟨issues_of (by decide +kernel), (by unfold Guarded; decide +kernel), (by decide +kernel)⟩,
    ⟨issues_of (by decide +kernel), (by unfold Guarded; decide +kernel), (by decide +kernel)⟩⟩

/-- A state and operands that meet the hypotheses of each clause of EngineCommandsAndGrants. -/
theorem witness_EngineCommandsAndGrants :
    (Unqueued coreW ∧ coreW.sem.grants[0]? = some (Grant.mk 70 (Waiter.bank keyA)) ∧ coreW.bank keyA = some bankW ∧ (bankW.hold = Hold.semw 70 ∧
    bankW.slot.isSome = true ∨ coreW.waitingSlot keyA 70 bankW = none)) ∧
    (Unqueued coreG2 ∧ coreG2.sem.grants[0]? = some (Grant.mk 71 (Waiter.bank keyA)) ∧ coreG2.bank keyA = some bankS ∧ (bankS.hold = Hold.semw 71 ∧
    bankS.slot.isSome = true ∨ coreG2.waitingSlot keyA 71 bankS = none)) ∧
    (Issues coreE at3 (word [(56, 121), (52, 7), (48, 1), (44, 2), (29, 1), (30, 127)]) bankE ∧ StoreOpen coreE at3 bankE true [(bankE.aR (wf (word
    [(56, 121), (52, 7), (48, 1), (44, 2), (29, 1), (30, 127)]) 48 4), 64)] ∧ StoreOpen coreE at3 bankE false [(bankE.aR (wf (word [(56, 121), (52,
    7), (48, 1), (44, 2), (29, 1), (30, 127)]) 44 4), 32)] ∧ wVar (word [(56, 121), (52, 7), (48, 1), (44, 2), (29, 1), (30, 127)]) = false ∧ wf
    (word [(56, 121), (52, 7), (48, 1), (44, 2), (29, 1), (30, 127)]) 0 29 = 0 ∧ bankE.aR (wf (word [(56, 121), (52, 7), (48, 1), (44, 2), (29, 1),
    (30, 127)]) 48 4) % 64 = 0 ∧ bankE.aR (wf (word [(56, 121), (52, 7), (48, 1), (44, 2), (29, 1), (30, 127)]) 44 4) % 32 = 0 ∧ (∀ (q : Nat), eSem
    (word [(56, 121), (52, 7), (48, 1), (44, 2), (29, 1), (30, 127)]) = some q → coreE.semOwned q bankE.part = true) ∧ coreE.mesh.failed = [] ∧ wOp
    (word [(56, 121), (52, 7), (48, 1), (44, 2), (29, 1), (30, 127)]) = 121 ∧ eTarget (word [(56, 121), (52, 7), (48, 1), (44, 2), (29, 1), (30,
    127)]) < 8 ∧ coreE.tilePresent (eTarget (word [(56, 121), (52, 7), (48, 1), (44, 2), (29, 1), (30, 127)])) = true) ∧
    (Issues coreE at3 (word [(56, 122), (52, 3), (48, 1), (44, 2)]) bankE ∧ StoreOpen coreE at3 bankE true [(bankE.aR (wf (word [(56, 122), (52, 3),
    (48, 1), (44, 2)]) 48 4), 64)] ∧ StoreOpen coreE at3 bankE false [(bankE.aR (wf (word [(56, 122), (52, 3), (48, 1), (44, 2)]) 44 4), 32)] ∧ wVar
    (word [(56, 122), (52, 3), (48, 1), (44, 2)]) = false ∧ wf (word [(56, 122), (52, 3), (48, 1), (44, 2)]) 0 29 = 0 ∧ bankE.aR (wf (word [(56,
    122), (52, 3), (48, 1), (44, 2)]) 48 4) % 64 = 0 ∧ bankE.aR (wf (word [(56, 122), (52, 3), (48, 1), (44, 2)]) 44 4) % 32 = 0 ∧ (∀ (q : Nat), eSem
    (word [(56, 122), (52, 3), (48, 1), (44, 2)]) = some q → coreE.semOwned q bankE.part = true) ∧ coreE.mesh.failed = [] ∧ wOp (word [(56, 122),
    (52, 3), (48, 1), (44, 2)]) = 122 ∧ eTarget (word [(56, 122), (52, 3), (48, 1), (44, 2)]) < 4 ∧ coreE.quillPresent (eTarget (word [(56, 122),
    (52, 3), (48, 1), (44, 2)])) = true ∧ coreE.quillFenced (eTarget (word [(56, 122), (52, 3), (48, 1), (44, 2)])) = false ∧ (coreE.quillQueue
    (eTarget (word [(56, 122), (52, 3), (48, 1), (44, 2)]))).length < 64) ∧
    (Issues coreE at3 (word [(56, 120), (52, 9), (48, 1), (44, 2)]) bankE ∧ StoreOpen coreE at3 bankE true [(bankE.aR (wf (word [(56, 120), (52, 9),
    (48, 1), (44, 2)]) 48 4), 64)] ∧ StoreOpen coreE at3 bankE false [(bankE.aR (wf (word [(56, 120), (52, 9), (48, 1), (44, 2)]) 44 4), 32)] ∧ wVar
    (word [(56, 120), (52, 9), (48, 1), (44, 2)]) = false ∧ wf (word [(56, 120), (52, 9), (48, 1), (44, 2)]) 0 29 = 0 ∧ bankE.aR (wf (word [(56,
    120), (52, 9), (48, 1), (44, 2)]) 48 4) % 64 = 0 ∧ bankE.aR (wf (word [(56, 120), (52, 9), (48, 1), (44, 2)]) 44 4) % 32 = 0 ∧ (∀ (q : Nat), eSem
    (word [(56, 120), (52, 9), (48, 1), (44, 2)]) = some q → coreE.semOwned q bankE.part = true) ∧ coreE.mesh.failed = [] ∧ wOp (word [(56, 120),
    (52, 9), (48, 1), (44, 2)]) = 120 ∧ eTarget (word [(56, 120), (52, 9), (48, 1), (44, 2)]) < 10 ∧ coreE.tilePresent (eTarget (word [(56, 120),
    (52, 9), (48, 1), (44, 2)])) = true ∧ coreE.colFenced (eTarget (word [(56, 120), (52, 9), (48, 1), (44, 2)])) = false ∧ coreE.copper bankE.part =
    true ∧ coreE.rd (Reg.COL_ORDER.next_order bankE.part) < clOrder (EngCmd.mk (Mem.rdN coreE.core.store (storeKey (issueCore at3) (bankE.aR (wf
    (word [(56, 120), (52, 9), (48, 1), (44, 2)]) 48 4))) 64) bankE.part bankE.ctx bankE.d.tag (issueCore at3) (bankE.aR (wf (word [(56, 120), (52,
    9), (48, 1), (44, 2)]) 44 4)) (eSem (word [(56, 120), (52, 9), (48, 1), (44, 2)])) false 0 0 [] [] false [] none).raw) :=
  ⟨⟨(unqueued_of (by decide +kernel)), (by decide +kernel)⟩,
    ⟨(unqueued_of (by decide +kernel)), (by decide +kernel)⟩,
    ⟨issues_of (by decide +kernel), (by unfold StoreOpen; decide +kernel), (by unfold StoreOpen; decide +kernel), (by decide +kernel)⟩,
    ⟨issues_of (by decide +kernel), (by unfold StoreOpen; decide +kernel), (by unfold StoreOpen; decide +kernel), (by decide +kernel)⟩,
    ⟨issues_of (by decide +kernel), (by unfold StoreOpen; decide +kernel), (by unfold StoreOpen; decide +kernel), (by decide +kernel)⟩⟩

/-! ### Registers -/

def rowOf (off : Nat) : RegRow := (regRow off).getD ⟨0, 0, 0, 0, 0, 0, 0, 0, 0, 0, 0, 0, 0⟩
/-- A register with all bits of its value set, and another pattern in its shadow copy. -/
def regFull (off : Nat) : State := { State.reset with regs := [(off, 0xFFFFFFFFFFFFFFFF)], shadow := [(off, 0x0F0F0F0F0F0F0F0F)] }
/-- The manager's ring of 4,096 records is enabled at 0x10000 in the address space of PASID 9, and the host is up. -/
def ringUp : State :=
  let s := withRegs State.reset [(Reg.FLT_RING_BASE.iova, 0x10000), (Reg.FLT_RING_CFG.log2_entries, 12), (Reg.FLT_RING_CFG.enable, 1), (Reg.HQ_LINK.up, 1),
    (Reg.PART_MGR_PASID.valid, 1), (Reg.PART_MGR_PASID.pasid, 9)]
  { s with flt := { s.flt with everEnabled := true } }

/-- A state and operands that meet the hypotheses of each clause of RegisterWrite. -/
theorem witness_RegisterWrite :
    (PlainRegister (regFull 13643776) 13643776 (rowOf 13643776) ∧ (rowOf 13643776).width = 64 ∧ (∀ (b : Nat × Nat), blockOf 13643776 = some b →
    (regFull 13643776).on (blkPending b.fst) = false) ∧ (BitVec.toNat (17361641481138401280 : BitVec 64)).land (rowOf 13643776).zero = 0) ∧
    (PlainRegister (regFull 13643776) 13643776 (rowOf 13643776) ∧ (rowOf 13643776).width = 64 ∧ (∀ (b : Nat × Nat), blockOf 13643776 = some b →
    (regFull 13643776).on (blkPending b.fst) = false)) ∧
    (PlainRegister (regFull 14684168) 14684168 (rowOf 14684168) ∧ (rowOf 14684168).width = 64 ∧ (∀ (b : Nat × Nat), blockOf 14684168 = some b →
    (regFull 14684168).on (blkPending b.fst) = false) ∧ (BitVec.toNat (17361641481138401281 : BitVec 64)).land (rowOf 14684168).zero ≠ 0) :=
  ⟨⟨(by constructor <;> decide +kernel), (by decide +kernel)⟩,
    ⟨(by constructor <;> decide +kernel), (by decide +kernel)⟩,
    ⟨(by constructor <;> decide +kernel), (by decide +kernel)⟩⟩

/-- A state and operands that meet the hypotheses of each clause of RegisterRead. -/
theorem witness_RegisterRead :
    (PlainRegister (regFull 33560576) 33560576 (rowOf 33560576) ∧ (regFull 33560576).formed 33560576 = none) ∧
    (ringUp.pins.stopped = false) ∧
    (ringUp.pins.stopped = false ∧ ringUp.flt.everEnabled = true ∧ ringUp.ringOn 64 = some 9 ∧ ringUp.hostUp = true ∧ 2097153 < 33554432 ∧
    (ringUp.ring 64).lost = 0 ∧ (ringUp.ring 64).written < 2 ^ 64 - 1 ∧ (ringUp.ring 64).read ≤ (ringUp.ring 64).written ∧ (ringUp.ring 64).written -
    (ringUp.ring 64).read < 2 ^ (ringUp.ringInfo 64).snd.snd.fst ∧ (ringUp.ringInfo 64).fst + 64 + 32 * 2 ^ 16 < 2 ^ 64) :=
  ⟨⟨(by constructor <;> decide +kernel), (by decide +kernel)⟩,
    (by and_intros <;> decide +kernel)⟩

/-! ### The tick unit -/

/-- Bytes at an address of channel 0, whose bytes are stored under their own addresses. -/
def withBytes (s : State) (a : Nat) (l : List Nat) : State := { s with mem := { s.mem with bytes := Mem.wrBytes s.mem.bytes a l } }
def imageHead (code progs : Nat) : List Nat :=
  leBytes (0x44554354 + 2 ^ 32 + code * 2 ^ 40 + (progs - 1) * 2 ^ 48 + 1024 * 2 ^ 64 + 128 * 2 ^ 96) 16
/-- The manager owns channel 0; slot 0 holds an image of period code 0 at 0x8000, slot 1 one of code 4 at 0x9000. -/
def imgS : State :=
  withBytes (withBytes (withRegs State.reset [(Reg.TILE_CHAN_CFG.owner 0 0, 0x40), (Reg.TILE_CHAN_CFG.ilv_code 0 0, 0),
    (Reg.TICK_DUCTUS_BASE.base 0, 0x8000), (Reg.TICK_DUCTUS_BASE.base 1, 0x9000), (Reg.TICK_SWITCH_STAT.reason, 3)]) 0x8000 (imageHead 0 1)) 0x9000 (imageHead 4 1)
def imgA : Image := ⟨0, 4096, 0x8000, 0, 1, 1024, 128⟩
def imgRun : State := withRegs { imgS with tick := { imgS.tick with image := some imgA } } [(Reg.TICK_STAT.running, 1), (Reg.TICK_NUM.tick_num, 5000)]
/-- A cell with 8-tick slots. -/
def imgCell : State := withRegs imgS [(Reg.RAD_CELL_CFG.valid 7, 1), (Reg.RAD_CELL_CFG.scs 7, 1)]
def imgArmed : State := { imgS with tick := { imgS.tick with armed := some imgA } }
def recOn (s : State) : State :=
  withRegs s [(Reg.TICK_REC_CFG.enable, 1), (Reg.TICK_REC_CFG.log2_entries, 4), (Reg.TICK_REC_BASE.iova, 0x20000), (Reg.HQ_LINK.up, 1),
    (Reg.PART_MGR_PASID.valid, 1), (Reg.PART_MGR_PASID.pasid, 9), (Reg.TICK_REC_HEAD.written, 15)]
def stopping : State := { imgRun with tick := { imgRun.tick with stopping := true, record := { imgRun.tick.record with started := 70000, halted := 2, paused := 3 } } }
def recBefore : State := withRegs State.reset [(Reg.TICK_REC_BASE.iova, 0x1000), (Reg.TICK_REC_CFG.enable, 1)]
/-- New values of TICK's SH registers in the shadow copy, and a previous generation. -/
def shTick : State :=
  let s := withRegs recBefore [(blkGen 0x100000, 6), (blkPrev 0x100000, 1)]
  { s with shadow := [(Reg.TICK_REC_BASE.all.off, 0x2000), (Reg.TICK_REC_CFG.all.off, 0x51)], prev := [(Reg.TICK_REC_BASE.all.off, 0x3000)] }
def shPend (back : Bool) : State := { shTick with tick := { shTick.tick with ops := [(0x100000, back)] } }

/-- A static Stroke of partition 1, context 5, on core 3: offset 100, budget 2,000, entry 64, argument 0x1234. -/
def descC : Desc := ⟨1 + 3 * 2 ^ 6 + 2 ^ 16 + 5 * 2 ^ 22 + 100 * 2 ^ 34 + 1999 * 2 ^ 55 + 64 * 2 ^ 128 + 0x1234 * 2 ^ 160, 0x8180⟩
/-- A RADIO Stroke of partition 1 for cell 9 on core 3. -/
def descR : Desc := ⟨3 * 2 ^ 6 + 2 ^ 16 + 5 * 2 ^ 22 + 100 * 2 ^ 34 + 1999 * 2 ^ 55 + 9 * 2 ^ 76 + 64 * 2 ^ 128, 0x8180⟩
def progL (n : Nat) : List Desc := if n = 2 then [descC] else []
/-- The image of slot 0 gives tile 2 a program of one Stroke; partition 1 is ACTIVE. -/
def edgeS : State :=
  withRegs (withBytes (withBytes imgRun (0x8080 + 16) (leBytes (1 + 0x180 * 2 ^ 32) 8)) 0x8180 (leBytes descC.raw 32)) [(Reg.PART_STAT.state 1, 1)]
def slotOf (d : Desc) (ph : Phase) : Slot := ⟨d, 3, 100100, 102100, ph, 0, false⟩
/-- One Stroke in tile 2's program. -/
def winS (x : Slot) : State :=
  let s := withRegs State.reset [(Reg.PART_STAT.state 1, 1)]
  { s with tick := { s.tick with prog := [(2, [x])] }, time := { s.time with cnt := 100000 } }
def winRun (x : Slot) : State := withBanks (winS x) [(keyA, { bankA with d := x.d })]
def lostS : State := withRegs (winS (slotOf descR .closed)) [(Reg.RAD_CELL_STAT.lost 9, 1)]
def bankRad : Bank := { bankA with d := descR }
def bankSt : Bank := { bankA with d := descC }

/-- A state and operands that meet the hypotheses of each clause of ImageSwitch. -/
theorem witness_ImageSwitch :
    (4096 < 2 ^ 64 ∧ imgS.permit 64 (imgS.rd (Reg.TICK_DUCTUS_BASE.base (bits 4096 63 1))) 64 = true ∧ bits (imgS.ldN (imgS.rd
    (Reg.TICK_DUCTUS_BASE.base (bits 4096 63 1))) 64) 0 32 = 1146438484 ∧ bits (imgS.ldN (imgS.rd (Reg.TICK_DUCTUS_BASE.base (bits 4096 63 1))) 64)
    32 8 = 1 ∧ bits (imgS.ldN (imgS.rd (Reg.TICK_DUCTUS_BASE.base (bits 4096 63 1))) 64) 40 3 ≤ 4 ∧ 163840 % ((bits (imgS.ldN (imgS.rd
    (Reg.TICK_DUCTUS_BASE.base (bits 4096 63 1))) 64) 48 11 + 1) * 2 ^ bits (imgS.ldN (imgS.rd (Reg.TICK_DUCTUS_BASE.base (bits 4096 63 1))) 64) 40
    3) = 0 ∧ bits (imgS.ldN (imgS.rd (Reg.TICK_DUCTUS_BASE.base (bits 4096 63 1))) 64) 96 32 % 128 = 0 ∧ bits (imgS.ldN (imgS.rd
    (Reg.TICK_DUCTUS_BASE.base (bits 4096 63 1))) 64) 96 32 + 128 * (bits (imgS.ldN (imgS.rd (Reg.TICK_DUCTUS_BASE.base (bits 4096 63 1))) 64) 48 11
    + 1) ≤ bits (imgS.ldN (imgS.rd (Reg.TICK_DUCTUS_BASE.base (bits 4096 63 1))) 64) 64 32 ∧ bits 4096 0 63 % 2 ^ max (imgS.rd
    Reg.TICK_STAT.period_code) (bits (imgS.ldN (imgS.rd (Reg.TICK_DUCTUS_BASE.base (bits 4096 63 1))) 64) 40 3) = 0 ∧ ((if imgS.on
    Reg.TICK_STAT.running = true then imgS.tickNum + 2 * 2 ^ imgS.rd Reg.TICK_STAT.period_code else imgS.tickNum + 32) ≤ bits 4096 0 63) ∧ (∀ (a :
    Image), imgS.tick.image = some a → a.slot ≠ bits 4096 63 1) ∧ (∀ (c : Nat), c ∈ imgS.validCells → imgS.cellTicks c % 2 ^ bits (imgS.ldN (imgS.rd
    (Reg.TICK_DUCTUS_BASE.base (bits 4096 63 1))) 64) 40 3 = 0) ∧ imgS.tick.armed = none) ∧
    (2 ^ 63 + 4097 < 2 ^ 64 ∧ (¬(bits (2 ^ 63 + 4097) 0 63 % 2 ^ match imgS.header (bits (2 ^ 63 + 4097) 63 1) (bits (2 ^ 63 + 4097) 0 63) (imgS.rd (Reg.TICK_DUCTUS_BASE.base (bits (2 ^ 63 + 4097) 63 1))) with | some i => max (imgS.rd Reg.TICK_STAT.period_code) i.code | none => imgS.rd Reg.TICK_STAT.period_code) = 0)) ∧
    (31 < 2 ^ 64 ∧ ((bits 31 0 63 % 2 ^ match imgS.header (bits 31 63 1) (bits 31 0 63) (imgS.rd (Reg.TICK_DUCTUS_BASE.base (bits 31 63 1))) with | some i => max (imgS.rd Reg.TICK_STAT.period_code) i.code | none => imgS.rd Reg.TICK_STAT.period_code) = 0) ∧ (bits 31 0 63 < if imgS.on Reg.TICK_STAT.running = true then imgS.tickNum + 2 * 2 ^ imgS.rd Reg.TICK_STAT.period_code else imgS.tickNum + 32)) ∧
    (5002 < 2 ^ 64 ∧ ((bits 5002 0 63 % 2 ^ match imgRun.header (bits 5002 63 1) (bits 5002 0 63) (imgRun.rd (Reg.TICK_DUCTUS_BASE.base (bits 5002 63 1))) with | some i => max (imgRun.rd Reg.TICK_STAT.period_code) i.code | none => imgRun.rd Reg.TICK_STAT.period_code) = 0) ∧ ((if imgRun.on Reg.TICK_STAT.running = true then imgRun.tickNum + 2 * 2 ^ imgRun.rd Reg.TICK_STAT.period_code else imgRun.tickNum + 32) ≤ bits 5002 0 63) ∧ (∃ (a : Image), imgRun.tick.image = some a ∧ a.slot = bits 5002 63 1)) ∧
    (4096 < 2 ^ 64 ∧ ((bits 4096 0 63 % 2 ^ match State.reset.header (bits 4096 63 1) (bits 4096 0 63) (State.reset.rd (Reg.TICK_DUCTUS_BASE.base (bits 4096 63 1))) with | some i => max (State.reset.rd Reg.TICK_STAT.period_code) i.code | none => State.reset.rd Reg.TICK_STAT.period_code) = 0) ∧ ((if State.reset.on Reg.TICK_STAT.running = true then State.reset.tickNum + 2 * 2 ^ State.reset.rd Reg.TICK_STAT.period_code else State.reset.tickNum + 32) ≤ bits 4096 0 63) ∧ (∀ (a : Image), State.reset.tick.image = some a → a.slot ≠ bits 4096 63 1) ∧ State.reset.header (bits 4096 63 1) (bits 4096 0 63) (State.reset.rd (Reg.TICK_DUCTUS_BASE.base (bits 4096 63 1))) = none) ∧
    (2 ^ 63 + 4096 < 2 ^ 64 ∧ ((bits (2 ^ 63 + 4096) 0 63 % 2 ^ match imgCell.header (bits (2 ^ 63 + 4096) 63 1) (bits (2 ^ 63 + 4096) 0 63) (imgCell.rd (Reg.TICK_DUCTUS_BASE.base (bits (2 ^ 63 + 4096) 63 1))) with | some i => max (imgCell.rd Reg.TICK_STAT.period_code) i.code | none => imgCell.rd Reg.TICK_STAT.period_code) = 0) ∧ ((if imgCell.on Reg.TICK_STAT.running = true then imgCell.tickNum + 2 * 2 ^ imgCell.rd Reg.TICK_STAT.period_code else imgCell.tickNum + 32) ≤ bits (2 ^ 63 + 4096) 0 63) ∧ (∀ (a : Image), imgCell.tick.image = some a → a.slot ≠ bits (2 ^ 63 + 4096) 63 1) ∧ imgCell.header (bits (2 ^ 63 + 4096) 63 1) (bits (2 ^ 63 + 4096) 0 63) (imgCell.rd (Reg.TICK_DUCTUS_BASE.base (bits (2 ^ 63 + 4096) 63 1))) = some (Image.mk 1 4096 36864 4 1 1024 128) ∧ 7 ∈ imgCell.validCells ∧ imgCell.cellTicks 7 % 2 ^ (Image.mk 1 4096 36864 4 1 1024 128).code ≠ 0) ∧
    (64 < 2 ^ 64 ∧ ((bits 64 0 63 % 2 ^ match imgArmed.header (bits 64 63 1) (bits 64 0 63) (imgArmed.rd (Reg.TICK_DUCTUS_BASE.base (bits 64 63 1))) with | some i => max (imgArmed.rd Reg.TICK_STAT.period_code) i.code | none => imgArmed.rd Reg.TICK_STAT.period_code) = 0) ∧ ((if imgArmed.on Reg.TICK_STAT.running = true then imgArmed.tickNum + 2 * 2 ^ imgArmed.rd Reg.TICK_STAT.period_code else imgArmed.tickNum + 32) ≤ bits 64 0 63) ∧ (∀ (a : Image), imgArmed.tick.image = some a → a.slot ≠ bits 64 63 1) ∧ imgArmed.header (bits 64 63 1) (bits 64 0 63) (imgArmed.rd (Reg.TICK_DUCTUS_BASE.base (bits 64 63 1))) = some (Image.mk 0 64 32768 0 1 1024 128) ∧ (∀ (c : Nat), c ∈ imgArmed.validCells → imgArmed.cellTicks c % 2 ^ (Image.mk 0 64 32768 0 1 1024 128).code = 0) ∧ imgArmed.tick.armed ≠ none) :=
  by and_intros <;> decide +kernel

/-- A state and operands that meet the hypotheses of each clause of TickUnitRunsAndStops. -/
theorem witness_TickUnitRunsAndStops :
    (imgArmed.on Reg.TICK_STAT.running = false ∧ imgArmed.tick.armed = some imgA ∧ imgArmed.tickNum < imgA.target) ∧
    (imgS.on Reg.TICK_STAT.running = false ∧ imgS.tick.armed = none) ∧
    (imgRun.on Reg.TICK_STAT.running = true) ∧
    (stopping.on Reg.TICK_STAT.running = true ∧ stopping.tick.stopping = true ∧ stopping.tick.prog = [] ∧ stopping.on Reg.TICK_REC_CFG.enable =
    false) ∧
    ((recOn stopping).on Reg.TICK_STAT.running = true ∧ (recOn stopping).tick.stopping = true ∧ (recOn stopping).tick.prog = [] ∧ (recOn stopping).on
    Reg.TICK_REC_CFG.enable = true ∧ 4 ≤ (recOn stopping).rd Reg.TICK_REC_CFG.log2_entries ∧ (recOn stopping).rd Reg.TICK_REC_CFG.log2_entries ≤ 16 ∧
    (recOn stopping).mgrPasid = some 9 ∧ (recOn stopping).hostUp = true ∧ (recOn stopping).rd Reg.TICK_REC_BASE.iova + 32 * 2 ^ 16 < 2 ^ 64) ∧
    (imgArmed.tick.armed = some imgA ∧ imgArmed.on Reg.TICK_STAT.running = false ∧ imgArmed.tick.starting = false) :=
  by and_intros <;> decide +kernel

/-- A state and operands that meet the hypotheses of each clause of CommitAndRevert. -/
theorem witness_CommitAndRevert :
    (1048576 ∈ List.map Prod.fst blocks ∧ 7 < 2 ^ 30 ∧ shTick.on (blkPending 1048576) = false ∧ 7 = (shTick.rd (blkGen 1048576) + 1) % 2 ^ 30) ∧
    (1048576 ∈ List.map Prod.fst blocks ∧ 6 < 2 ^ 30 ∧ shTick.on (blkPending 1048576) = false ∧ 6 = shTick.rd (blkGen 1048576) ∧ shTick.on (blkPrev
    1048576) = true) ∧
    (1048576 ∈ List.map Prod.fst blocks ∧ 0 < 2 ^ 30 ∧ (shPend false).on (blkPending 1048576) = false ∧ (shPend false).on Reg.TICK_STAT.running =
    false ∧ (shPend false).tick.ops = [(1048576, false)] ∧ (shPend false).part.ops = [] ∧ (shPend false).flt.pendFence = [] ∧ (shPend
    false).bus.shHeld = [] ∧ (∀ (e : Nat × Word), e ∈ (shPend false).regs → e.fst < 2097152)) ∧
    (1048576 ∈ List.map Prod.fst blocks ∧ 0 < 2 ^ 30 ∧ (shPend true).on (blkPending 1048576) = false ∧ (shPend true).on Reg.TICK_STAT.running = false
    ∧ (shPend true).tick.ops = [(1048576, true)] ∧ (shPend true).part.ops = [] ∧ (shPend true).flt.pendFence = [] ∧ (shPend true).bus.shHeld = [] ∧
    (∀ (e : Nat × Word), e ∈ (shPend true).regs → e.fst < 2097152)) :=
  by and_intros <;> decide +kernel

/-- A state and operands that meet the hypotheses of each clause of CommitRefused. -/
theorem witness_CommitRefused :
    (1048576 ∈ List.map Prod.fst blocks ∧ 8 < 2 ^ 30 ∧ (8 ≠ (shTick.rd (blkGen 1048576) + 1) % 2 ^ 30 ∨ shTick.on (blkPending 1048576) = true)) ∧
    (1048576 ∈ List.map Prod.fst blocks ∧ 7 < 2 ^ 30 ∧ (7 ≠ ((withRegs shTick [(blkPending 1048576, 1)]).rd (blkGen 1048576) + 1) % 2 ^ 30 ∨
    (withRegs shTick [(blkPending 1048576, 1)]).on (blkPending 1048576) = true)) ∧
    (1048576 ∈ List.map Prod.fst blocks ∧ 7 < 2 ^ 30 ∧ (7 ≠ shTick.rd (blkGen 1048576) ∨ shTick.on (blkPending 1048576) = true ∨ shTick.on (blkPrev
    1048576) = false)) ∧
    (1048576 ∈ List.map Prod.fst blocks ∧ 6 < 2 ^ 30 ∧ (6 ≠ (withRegs shTick [(blkPrev 1048576, 0)]).rd (blkGen 1048576) ∨ (withRegs shTick [(blkPrev
    1048576, 0)]).on (blkPending 1048576) = true ∨ (withRegs shTick [(blkPrev 1048576, 0)]).on (blkPrev 1048576) = false)) ∧
    (1048576 ∈ List.map Prod.fst blocks ∧ 6 < 2 ^ 30 ∧ (6 ≠ (withRegs shTick [(blkPending 1048576, 1)]).rd (blkGen 1048576) ∨ (withRegs shTick
    [(blkPending 1048576, 1)]).on (blkPending 1048576) = true ∨ (withRegs shTick [(blkPending 1048576, 1)]).on (blkPrev 1048576) = false)) ∧
    (1048576 ∈ List.map Prod.fst blocks ∧ (bits (BitVec.toNat (4294967295 : BitVec 64)) 30 2 = 0 ∨ bits (BitVec.toNat (4294967295 : BitVec 64)) 30 2
    = 3) ∧ (withRegs shTick [(blkPending 1048576, 1)]).pins.stopped = false ∧ (withRegs shTick [(blkPending 1048576, 1)]).deadTile (1048576 +
    1048320) = false) :=
  by and_intros <;> decide +kernel

/-- A state and operands that meet the hypotheses of each clause of TickEdgeLoadsPrograms. -/
theorem witness_TickEdgeLoadsPrograms :
    (Unqueued edgeS ∧ (∀ (n : Nat) (d : Desc), d ∈ progL n → d.dynamic = false ∧ d.radio = false ∧ edgeS.descBad n imgA.code [] d = false) ∧ edgeS.on
    Reg.TICK_STAT.running = true ∧ edgeS.tick.stopping = false ∧ edgeS.tick.image = some imgA ∧ edgeS.tick.armed = none ∧ edgeS.tick.ops = [] ∧
    edgeS.tick.prog = [] ∧ edgeS.tick.carry = [] ∧ edgeS.part.ops = [] ∧ edgeS.part.armed = [] ∧ edgeS.flt.pendFence = [] ∧ edgeS.flt.gather = [] ∧
    edgeS.mgt.pendPower = none ∧ edgeS.srv.reqs = [] ∧ edgeS.srv.loads = [] ∧ edgeS.srv.pendFree = [] ∧ edgeS.validCells = [] ∧ edgeS.on
    Reg.TICK_REC_CFG.enable = false ∧ (∀ (p : Nat), p < 64 → edgeS.rd (Reg.PART_STAT.held p) = 0) ∧ edgeS.mem.flushAt = [] ∧ edgeS.rd
    Reg.TICK_NUM.tick_num + 2 ^ edgeS.rd Reg.TICK_STAT.period_code < 2 ^ 64 ∧ imgA.progs ≤ 2048 ∧ imgA.code ≤ 4 ∧ (∀ (n : Nat), n < 10 →
    edgeS.readProg imgA ((edgeS.rd Reg.TICK_NUM.tick_num + 2 ^ edgeS.rd Reg.TICK_STAT.period_code) / 2 ^ imgA.code % imgA.progs) n = ProgRead.ok
    (progL n))) :=
  ⟨(unqueued_of (by decide +kernel)), (by intro n d h; unfold progL at h; split at h <;> simp only [List.mem_singleton, List.not_mem_nil] at h; subst_vars; decide +kernel), (by decide +kernel)⟩

/-- A state and operands that meet the hypotheses of each clause of StrokeWindows. -/
theorem witness_StrokeWindows :
    ((∀ (q : Nat), bankRad.hold ≠ Hold.semw q) ∧ 2 < 8 ∧ (winRun (slotOf descR Phase.running)).slotAt 2 0 = some (slotOf descR Phase.running) ∧
    (slotOf descR Phase.running).target < 16 ∧ (slotOf descR Phase.running).phase = Phase.running ∧ (slotOf descR Phase.running).d.radio = true ∧
    (slotOf descR Phase.running).d.waitEn = false ∧ (slotOf descR Phase.running).d.postEn = false ∧ (winRun (slotOf descR Phase.running)).semWaiters
    (slotOf descR Phase.running).d.waitSem = [] ∧ (winRun (slotOf descR Phase.running)).ctxBank 2 (slotOf descR Phase.running).target (slotOf descR
    Phase.running).d.part (slotOf descR Phase.running).d.ctx = some keyA ∧ (winRun (slotOf descR Phase.running)).bank keyA = some bankRad ∧
    bankRad.dmas = []) ∧
    ((∀ (q : Nat), bankSt.hold ≠ Hold.semw q) ∧ 2 < 8 ∧ (winRun (slotOf descC Phase.running)).slotAt 2 0 = some (slotOf descC Phase.running) ∧
    (slotOf descC Phase.running).target < 16 ∧ (slotOf descC Phase.running).phase = Phase.running ∧ (slotOf descC Phase.running).d.radio = false ∧
    (winRun (slotOf descC Phase.running)).ctxBank 2 (slotOf descC Phase.running).target (slotOf descC Phase.running).d.part (slotOf descC
    Phase.running).d.ctx = some keyA ∧ (winRun (slotOf descC Phase.running)).bank keyA = some bankSt) ∧
    (2 < 8 ∧ (winS (slotOf descC Phase.closed)).slotAt 2 0 = some (slotOf descC Phase.closed) ∧ (slotOf descC Phase.closed).target < 16 ∧ (slotOf
    descC Phase.closed).phase = Phase.closed ∧ (slotOf descC Phase.closed).d.radio = false ∧ (winS (slotOf descC Phase.closed)).targetUsable 2
    (slotOf descC Phase.closed).target = true ∧ (winS (slotOf descC Phase.closed)).homeCore 2 (slotOf descC Phase.closed).d.part (slotOf descC
    Phase.closed).d.ctx = none ∧ (winS (slotOf descC Phase.closed)).ctxBank 2 (slotOf descC Phase.closed).target (slotOf descC Phase.closed).d.part
    (slotOf descC Phase.closed).d.ctx = none ∧ (winS (slotOf descC Phase.closed)).freeBankOf 2 (slotOf descC Phase.closed).target (slotOf descC
    Phase.closed).d (NMap.get false (winS (slotOf descC Phase.closed)).tick.radioCores (16 * 2 + (slotOf descC Phase.closed).target)) = some (bankKey
    2 3 0) ∧ (slotOf descC Phase.closed).d.waitEn = false ∧ (winS (slotOf descC Phase.closed)).radioHolds 2 (slotOf descC Phase.closed).target (max
    (winS (slotOf descC Phase.closed)).time.cnt (slotOf descC Phase.closed).opens) = false ∧ (slotOf descC Phase.closed).d.entry % 32 = 0 ∧ (slotOf
    descC Phase.closed).d.entry < (winS (slotOf descC Phase.closed)).progSize (slotOf descC Phase.closed).d.part ∧ (∀ (y : Slot), y ∈ (winS (slotOf
    descC Phase.closed)).tileProg 2 → y.target = (slotOf descC Phase.closed).target → y = slotOf descC Phase.closed ∨ y.phase = Phase.spent)) ∧
    (2 < 8 ∧ lostS.slotAt 2 0 = some (slotOf descR Phase.closed) ∧ (slotOf descR Phase.closed).target < 16 ∧ (slotOf descR Phase.closed).phase =
    Phase.closed ∧ (slotOf descR Phase.closed).d.radio = true ∧ (slotOf descR Phase.closed).d.slotFirst = false ∧ lostS.targetUsable 2 (slotOf descR
    Phase.closed).target = true ∧ lostS.cellLost (slotOf descR Phase.closed).d.cell = true ∧ (slotOf descR Phase.closed).d.postEn = false ∧ (∀ (y :
    Slot), y ∈ lostS.tileProg 2 → y.target = (slotOf descR Phase.closed).target → y.phase = Phase.closed ∨ y.phase = Phase.spent)) :=
  ⟨⟨(fun _ h => by cases (show Hold.free = _ from h)), (by decide +kernel)⟩,
    ⟨(fun _ h => by cases (show Hold.free = _ from h)), (by decide +kernel)⟩,
    (by and_intros <;> decide +kernel)⟩

/-! ### Memories and the mesh -/

def zeroOne : State := let s := { State.reset with core := { State.reset.core with zeroing := [(0, 3), (1, 7)] } }; s
def zeroWaits : State :=
  let s := withRegs zeroOne [(Reg.PART_STAT.state 1, 4)]
  { s with part := { s.part with zeroWait := [(1, [(1, 7)])] } }
def scrubS : State :=
  let s := withRegs State.reset [(Reg.TILE_CHAN_STAT.scrubbing 7 95, 1)]
  { s with mem := { s.mem with scrubAt := [(511, 9)] } }
def meshS : State := { State.reset with mesh := ⟨[2]⟩ }
/-- Tile 2 writes back way 3 of partition 1: of its two lines there, one is dirty; a line of another way stays. -/
def flushS : State :=
  let s := withRegs State.reset [(Reg.TILE_CHAN_CFG.owner 2 0, 1), (Reg.TILE_CHAN_CFG.owner 2 1, 4), (Reg.TILE_TS_STAT.flushing 2, 1)]
  let k := firstChan 2 * 0xC0000000 / 64
  let w (set way key : Nat) (dirty : Bool) : Nat × TsLine := ((2 * 98304 + set) * 16 + way, ⟨key, dirty⟩)
  { s with mem := { s.mem with ts := [w 5 3 (k + 5) true, w 5 4 (k + 9) true, w 6 3 (k + 6) false, w 7 3 (k + 0xC0000000 / 64) true],
                               flush := [(2, 1, 3), (5, 1, 3)], flushAt := [(2, 100), (5, 100)] } }
/-- The patrol of tile n runs once an hour (period code 1); and with channel 511's pass of this period done. -/
def patrolOn (n : Nat) : State := withRegs State.reset ((List.range 8).map (fun n => (Reg.TILE_SCRUB_CFG.period n, 1)) ++ [(Reg.TILE_CHAN_ERR.ue 7 n, 65533)])
def patrolS : State := { patrolOn 63 with mem := { State.reset.mem with patrolAt := [(511, 1)] } }
/-- Link 6, between tiles 0 and 2, has failed; core 3 of tile 2 reads a line of tile 0. -/
def dmaMesh : Dma := ⟨0, 0x4000, 0x8000, 1, 64, 128, 64, none, false, []⟩
def bankMesh : Bank := { bankS with dmas := [dmaMesh] }
def meshD : State := let s := withBanks coreS [(keyA, bankMesh)]; { s with mesh := ⟨[6]⟩ }
/-- A packet with no flags: type, destination, source, address, payload. -/
def packet (type dst src addr : Nat) (payload : List Nat) : Packet :=
  ⟨type, false, false, false, 0, dst, src, 0x77, addr, 0, 5, 9, 0, 0, false, 0, 0, 0, 0, 0, payload⟩
/-- Partition 1 holds domain 0x77, channel 0, and semaphore 3328 (number 0 over Flonil); line 0x10000 is poisoned. -/
def reqS : State :=
  let s := withRegs (dedupOn coreQ) [(Reg.PART_SEM_OWN.valid 6 4, 1), (Reg.PART_SEM_OWN.partition 6 4, 1)]
  { s with mem := { s.mem with bad := [(0x400, true)] }, sem := { s.sem with val := [(64, 3), (3328, 4294967290)] } }
def storeP (type : Nat) : Packet := packet type 0x0102 0x0103 0x8010 ((List.range 128).map (fun i => 2 * i))
/-- Granule 5 of the Reservoir of base die 3 is partition 1's and is being zeroed; a store to its last lines. -/
def zeroRsvS : State :=
  let s := withRegs reqS [(Reg.FAB_RSV_OWN.valid 3 0 5, 1), (Reg.FAB_RSV_OWN.partition 3 0 5, 1)]
  { s with core := { s.core with zeroing := [(2, 389)] } }
def storeR : Packet := { storeP 2 with addr := 0x2000305FF80 }
def heldPkt : State := { zeroRsvS with fab := { zeroRsvS.fab with held := [(storeR, false)] } }

/-- A state and operands that meet the hypotheses of each clause of MemoryEvents. -/
theorem witness_MemoryEvents :
    (Unqueued zeroOne ∧ zeroOne.part.zeroWait = [] ∧ zeroOne.fab.held = []) ∧
    (Unqueued zeroWaits ∧ 1 < 64 ∧ zeroWaits.part.zeroWait = [(1, [(1, 7)])] ∧ zeroWaits.fab.held = []) ∧
    (Unqueued heldPkt ∧ Routable heldPkt storeR.src ∧ Live heldPkt (storeR.addr / 64 * 64) storeR.payload.length ∧ heldPkt.part.zeroWait = [] ∧
    heldPkt.fab.held = [(storeR, false)] ∧ storeR.type = 2 ∧ heldPkt.fabPart storeR = some 1 ∧ (ZeroDone heldPkt 2 389).pktHeld storeR = false ∧
    (ZeroDone heldPkt 2 389).permit 1 (storeR.addr / 64 * 64) storeR.payload.length = true) ∧
    (13 < 14 ∧ (¬13 ∈ meshS.mesh.failed) ∧ 0 < 3 ∧ 3 ≤ 3) ∧
    (511 < 512 ∧ scrubS.part.zeroWait = [] ∧ scrubS.on (Reg.TILE_CHAN_STAT.scrubbing (chanTile 511) (511 - firstChan (chanTile 511))) = true) ∧
    (7 < 8 ∧ NMap.find State.reset.mem.flushAt 7 = none) ∧
    (2 < 8 ∧ (NMap.find flushS.mem.flushAt 2).isSome = true) ∧
    (511 < 512 ∧ State.reset.chanPresent 511 = true ∧ State.reset.on (Reg.TILE_CHAN_STAT.failed (chanTile 511) (511 - firstChan (chanTile 511))) =
    false) ∧
    (511 < 512 ∧ patrolS.chanPresent 511 = true ∧ patrolS.patrolDue 511 = false) ∧
    (511 < 512 ∧ (patrolOn 63).chanPresent 511 = true ∧ (patrolOn 63).patrolDue 511 = true) ∧
    (511 < 512 ∧ 3221225471 < 3221225472 ∧ (patrolOn 63).chanPresent 511 = true ∧ (patrolOn 63).patrolDue 511 = true) ∧
    ((withRegs State.reset [(Reg.MGT_STAT.state, 1)]).rd Reg.MGT_STAT.state = 1 ∧ (withRegs State.reset [(Reg.MGT_STAT.state, 1)]).chanPresent 511 =
    true) ∧
    (2 < 8 ∧ 3 < 16 ∧ 1 < 4 ∧ meshD.bank (bankKey 2 3 1) = some bankMesh ∧ bankMesh.dmas = [dmaMesh] ∧ bankMesh.hold = Hold.free ∧ bankMesh.queue =
    [] ∧ dmaMesh.kind = 0 ∧ dmaMesh.rows = 1 ∧ dmaMesh.rowBytes = 64 ∧ dmaMesh.src % 64 = 0 ∧ dmaMesh.sem = none ∧ meshD.permit bankMesh.part
    dmaMesh.src 64 = true ∧ addrNode dmaMesh.src < 10 ∧ meshD.meshLost 2 dmaMesh.src = true) :=
  ⟨⟨(unqueued_of (by decide +kernel)), (by decide +kernel)⟩,
    ⟨(unqueued_of (by decide +kernel)), (by decide +kernel)⟩,
    ⟨(unqueued_of (by decide +kernel)), (by unfold Routable; decide +kernel), (live_of (by decide +kernel)), (by decide +kernel)⟩,
    (by and_intros <;> decide +kernel)⟩

/-! ### Time -/

/-- A state of the time unit at cycle 1,000,000, free running; pulse 0 is to come at 700,000 ns, pulse 1 is periodic; partition 1 is ACTIVE. -/
def timeS : State :=
  let s := withRegs State.reset [(Reg.TIME_PULSE_CFG.mode 0, 1), (Reg.TIME_PULSE_CFG.mode 1, 2), (Reg.TIME_PULSE_CFG.width_ns_m1 1, 99),
    (Reg.TIME_PULSE_CFG.lead_cycles 1, 3), (Reg.TIME_PULSE_PERIOD.period_ns_m1 1, 999), (Reg.TIME_PULSE_START.start_ns 1, 5), (Reg.TIME_HOLD.wd_ms, 2),
    (Reg.TIME_STAT.active_unit, 0), (Reg.PART_STAT.state 1, 1)]
  { s with time := { s.time with cnt := 1000000, rate := 77, lastRate := 5000 }, pulses := [(0, ⟨false, 0, some 700000, false⟩), (1, ⟨true, 2 ^ 52, some 626005, false⟩)] }
/-- A once pulse is in progress at output 2. -/
def timeOnce : State := { timeS with pulses := [(2, ⟨true, 2 ^ 52, none, true⟩)] }
def timeRun : State := withRegs timeS [(Reg.TICK_STAT.running, 1)]
def timeServo : State := withRegs timeS [(Reg.TIME_CTRL.source, 1)]
def timeHeld : State := withRegs timeS [(Reg.TIME_STAT.holdover, 1), (Reg.TIME_STAT.hold_cause, 1), (Reg.TIME_CTRL.hold_req, 1), (Reg.TICK_STAT.holdover, 1)]
def timeExit : State := let s := withRegs timeHeld [(Reg.TIME_CTRL.source, 1)]; { s with time := { s.time with exitReady := true } }
def timeFab : State := withRegs { timeS with pulses := [] } [(Reg.TIME_CTRL.source, 2), (Reg.TIME_CTRL.fab_port, 5), (Reg.TIME_FAB.link_delay, 9), (Reg.TIME_HOLD.phase_alarm_ns, 0)]
def timeOk : State := withRegs timeS [(Reg.TIME_STAT.pps_ok, 1), (Reg.TIME_STAT.ref10_ok, 1), (Reg.TIME_REF_STAT.pps_edges, 65535)]
def fabSt (n : Nat) (d : Option Int) (st : Bool) (g : Nat) : State :=
  { timeFab with time := { timeFab.time with fabN := n, fabD := d, fabStepped := st, fabGood := g, fabSum := 1280 * (n : Int) } }

/-- Barrier 2 of partition 1, root this package, group 5, arr_sem 64, rel_sem 65; pulse 3 starts at its release. -/
def barS : State :=
  let s := withRegs (dedupOn coreQ) [(Reg.TIME_BAR_CFG.enable 2, 1), (Reg.TIME_BAR_CFG.root 2, 0x0102), (Reg.TIME_BAR_CFG.group 2, 0xF005), (Reg.TIME_BAR_CFG.members_m1 2, 1),
    (Reg.TIME_BAR_CFG.lead_ns 2, 500), (Reg.TIME_BAR_SEM.partition 2, 1), (Reg.TIME_BAR_SEM.rel_sem 2, 65), (Reg.TIME_BAR_SEM.arr_sem 2, 64),
    (Reg.TIME_BAR_SEM.rel_en 2, 1), (Reg.TIME_BAR_STAT.gen 2, 65535), (Reg.TIME_BAR_SEM.pulse_mask 2, 8), (Reg.TIME_PULSE_CFG.mode 3, 3),
    (Reg.FAB_MCAST.valid 5, 1), (Reg.FAB_MCAST.local 5, 1), (Reg.FAB_MCAST.port_mask 5, 128)]
  { s with time := { s.time with cnt := 1000000 } }
def barArr : State := withRegs barS [(Reg.TIME_BAR_SEM.arr_en 2, 1)]
def barLast : State := withRegs barS [(Reg.TIME_BAR_STAT.arrived 2, 1)]
def barRel : State := { barS with bars := [(2, ⟨true, 900000, some 700000, 0, false⟩)] }
def barWait : State := { barS with bars := [(2, ⟨true, 900000, none, 0, false⟩)] }
def arriveP (gen : Nat) : Packet := { packet 5 0x0102 0x0103 2 (leBytes gen 2) with kind := 1 }
def releaseP : Packet := { packet 3 0xF005 0x0103 2 (leBytes 65535 2 ++ leBytes 700000 8) with kind := 2 }

/-- A state and operands that meet the hypotheses of each clause of TimeSteers. -/
theorem witness_TimeSteers :
    (200000 < 2 ^ 64 ∧ (timeS.on Reg.TICK_STAT.running = false ∧ timeS.tick.starting = false ∧ timeS.on Reg.TICK_SWITCH_STAT.armed = false) ∧ (∀ (b :
    Nat), b < 8 → timeS.barOutstanding b = false)) ∧
    ((¬(timeRun.on Reg.TICK_STAT.running = false ∧ timeRun.tick.starting = false ∧ timeRun.on Reg.TICK_SWITCH_STAT.armed = false))) ∧
    (2 ^ 35 < 2 ^ 36 ∧ timeExit.rd Reg.TIME_CTRL.source = 1 ∧ timeExit.on Reg.TIME_STAT.holdover = true ∧ timeExit.time.exitReady = true) ∧
    ((timeHeld.rd Reg.TIME_CTRL.source = 2 ∨ timeHeld.on Reg.TIME_STAT.holdover = true ∧ ¬(timeHeld.rd Reg.TIME_CTRL.source = 1 ∧
    timeHeld.time.exitReady = true))) ∧
    (2 < 3 ∧ 1 < 2 ∧ 63 < 64 ∧ timeS.rd Reg.TIME_CTRL.hold_req = 0 ∧ timeS.on Reg.TIME_STAT.holdover = false) ∧
    (timeS.rd Reg.TIME_CTRL.source < 2 ∧ timeS.on Reg.TIME_STAT.holdover = false) ∧
    (timeHeld.rd Reg.TIME_CTRL.source = 0 ∧ timeHeld.on Reg.TIME_STAT.holdover = true) ∧
    (timeServo.rd Reg.TIME_CTRL.source = 1 ∧ timeServo.on Reg.TIME_STAT.holdover = false ∧ timeServo.rd Reg.TIME_HOLD.wd_ms ≠ 0) :=
  by and_intros <;> decide +kernel

/-- A state and operands that meet the hypotheses of each clause of TimeRateLimited. -/
theorem witness_TimeRateLimited :
    (2 ^ 35 - 1 < 2 ^ 36 ∧ timeS.rd Reg.TIME_CTRL.source ≠ 2 ∧ timeS.on Reg.TIME_STAT.holdover = false) ∧
    (5 < 2 ^ 36 ∧ timeS.rd Reg.TIME_CTRL.source ≠ 2 ∧ timeS.on Reg.TIME_STAT.holdover = false) :=
  (by and_intros <;> decide +kernel)

/-- A state and operands that meet the hypotheses of each clause of TimeInputsAndFabricTime. -/
theorem witness_TimeInputsAndFabricTime :
    (1599679999 < 2 ^ 32 ∧ (1599679999 < 1599680000 ∨ 1600320000 < 1599679999) ∧ timeOk.on Reg.TIME_STAT.ref10_ok = true) ∧
    (1599680000 < 2 ^ 32 ∧ 1599680000 ≤ 1599680000 ∧ 1599680000 ≤ 1600320000) ∧
    (timeOk.on Reg.TIME_STAT.pps_ok = true) ∧
    (timeOk.on Reg.TIME_STAT.ref10_ok = true) ∧
    (timeFab.rd Reg.TIME_CTRL.source = 2 ∧ timeFab.on Reg.TIME_STAT.holdover = false) ∧
    (timeS.on Reg.TIME_STAT.active_unit = false ∧ timeS.on Reg.GLB_CAP_TILES.standby_ok = true) ∧
    (timeS.on Reg.GLB_CAP_TILES.standby_ok = true) ∧
    ((timeFab.rd Reg.TIME_CTRL.source ≠ 2 ∨ 6 ≠ timeFab.rd Reg.TIME_CTRL.fab_port)) ∧
    ((fabSt 62 none false 0).rd Reg.TIME_CTRL.source = 2 ∧ (fabSt 62 none false 0).on Reg.TIME_STAT.holdover = false ∧ (fabSt 62 none false
    0).time.fabN < 63 ∧ (fabSt 62 none false 0).time.fabD = none) ∧
    ((fabSt 63 none false 0).rd Reg.TIME_CTRL.source = 2 ∧ (fabSt 63 none false 0).on Reg.TIME_STAT.holdover = false ∧ (fabSt 63 none false
    0).time.fabN = 63 ∧ (fabSt 63 none false 0).time.fabStepped = false ∧ (fabSt 63 none false 0).on Reg.TICK_STAT.running = false ∧ (∀ (b : Nat), b
    < 8 → (fabSt 63 none false 0).barOutstanding b = false) ∧ (∀ (k : Nat), k < 4 → ((fabSt 63 none false 0).pulse k).next = none)) ∧
    ((fabSt 5 (some 400) true 999).rd Reg.TIME_CTRL.source = 2 ∧ (fabSt 5 (some 400) true 999).on Reg.TIME_STAT.holdover = false ∧ (fabSt 5 (some
    400) true 999).time.fabN < 63 ∧ (fabSt 5 (some 400) true 999).time.fabD = some 400 ∧ (fabSt 5 (some 400) true 999).time.fabStepped = true ∧
    (fabSt 5 (some 400) true 999).rd Reg.TIME_HOLD.phase_alarm_ns = 0) :=
  by and_intros <;> decide +kernel

/-- A state and operands that meet the hypotheses of each clause of PulsesAndBarriers. -/
theorem witness_PulsesAndBarriers :
    (Routable barS (barS.rd (Reg.TIME_BAR_CFG.root 2)) ∧ 2 < 8 ∧ barS.on (Reg.TIME_BAR_CFG.enable 2) = true ∧ (barS.bar 2).arrived = false ∧
    barS.sem.grants = [] ∧ barS.semRegistered (barS.rd (Reg.TIME_BAR_SEM.arr_sem 2)) (Waiter.barrier 2) = false) ∧
    (Routable barArr (barArr.rd (Reg.TIME_BAR_CFG.root 2)) ∧ 2 < 8 ∧ barArr.on (Reg.TIME_BAR_CFG.enable 2) = true ∧ (barArr.bar 2).arrived = false ∧
    barArr.sem.grants = [] ∧ barArr.semRegistered (barArr.rd (Reg.TIME_BAR_SEM.arr_sem 2)) (Waiter.barrier 2) = false ∧ (barArr.bar 2).watching =
    false ∧ barArr.on (Reg.TIME_BAR_SEM.arr_en 2) = true ∧ barArr.rd (Reg.TIME_BAR_SEM.arr_sem 2) = 64 ∧ barArr.semWaiters 64 = [] ∧ 0 <
    barArr.semVal 64) ∧
    (Routable barS (arriveP 65535).src ∧ (arriveP 65535).type = 5 ∧ (arriveP 65535).kind = 1 ∧ (arriveP 65535).addr < 8 ∧ (arriveP 65535).dst =
    barS.devId ∧ tooOld (arriveP 65535) = false ∧ barS.fabPart (arriveP 65535) = some 1 ∧ (∀ (e : Nat × Nat), e ∈ NMap.get [] barS.fab.dedup (arriveP
    65535).src → e.fst ≠ (arriveP 65535).seq) ∧ barS.on (Reg.TIME_BAR_CFG.enable (arriveP 65535).addr) = true ∧ barS.rd (Reg.TIME_BAR_CFG.root
    (arriveP 65535).addr) = barS.devId ∧ barS.rd (Reg.TIME_BAR_SEM.partition (arriveP 65535).addr) = 1 ∧ (barS.dedupSlot (arriveP 65535).src).isSome
    = true ∧ leNat (List.take 2 (arriveP 65535).payload) = barS.rd (Reg.TIME_BAR_STAT.gen (arriveP 65535).addr) ∧ barS.rd (Reg.TIME_BAR_STAT.arrived
    (arriveP 65535).addr) < barS.rd (Reg.TIME_BAR_CFG.members_m1 (arriveP 65535).addr)) ∧
    (Routable barLast (arriveP 65535).src ∧ (arriveP 65535).type = 5 ∧ (arriveP 65535).kind = 1 ∧ (arriveP 65535).addr < 8 ∧ (arriveP 65535).dst =
    barLast.devId ∧ tooOld (arriveP 65535) = false ∧ barLast.fabPart (arriveP 65535) = some 1 ∧ (∀ (e : Nat × Nat), e ∈ NMap.get [] barLast.fab.dedup
    (arriveP 65535).src → e.fst ≠ (arriveP 65535).seq) ∧ barLast.on (Reg.TIME_BAR_CFG.enable (arriveP 65535).addr) = true ∧ barLast.rd
    (Reg.TIME_BAR_CFG.root (arriveP 65535).addr) = barLast.devId ∧ barLast.rd (Reg.TIME_BAR_SEM.partition (arriveP 65535).addr) = 1 ∧
    (barLast.dedupSlot (arriveP 65535).src).isSome = true ∧ leNat (List.take 2 (arriveP 65535).payload) = barLast.rd (Reg.TIME_BAR_STAT.gen (arriveP
    65535).addr) ∧ barLast.rd (Reg.TIME_BAR_STAT.arrived (arriveP 65535).addr) = barLast.rd (Reg.TIME_BAR_CFG.members_m1 (arriveP 65535).addr)) ∧
    (Routable barS (arriveP 0).src ∧ (arriveP 0).type = 5 ∧ (arriveP 0).kind = 1 ∧ (arriveP 0).addr < 8 ∧ (arriveP 0).dst = barS.devId ∧ tooOld
    (arriveP 0) = false ∧ barS.fabPart (arriveP 0) = some 1 ∧ (∀ (e : Nat × Nat), e ∈ NMap.get [] barS.fab.dedup (arriveP 0).src → e.fst ≠ (arriveP
    0).seq) ∧ barS.on (Reg.TIME_BAR_CFG.enable (arriveP 0).addr) = true ∧ barS.rd (Reg.TIME_BAR_CFG.root (arriveP 0).addr) = barS.devId ∧ barS.rd
    (Reg.TIME_BAR_SEM.partition (arriveP 0).addr) = 1 ∧ (barS.dedupSlot (arriveP 0).src).isSome = true ∧ leNat (List.take 2 (arriveP 0).payload) ≠
    barS.rd (Reg.TIME_BAR_STAT.gen (arriveP 0).addr)) ∧
    (0 < 4 ∧ (timeS.pulse 0).next = some 700000) ∧
    ((timeS.pulse 1).active = true) ∧
    (releaseP.type = 3 ∧ releaseP.kind = 2 ∧ releaseP.dst = 61440 + 5 ∧ 5 < 4095 ∧ releaseP.addr < 8 ∧ tooOld releaseP = false ∧ barS.on
    (Reg.FAB_MCAST.valid 5) = true ∧ barS.on (Reg.FAB_MCAST.local 5) = true ∧ (∀ (k : Nat), k < 36 → bit (barS.rd (Reg.FAB_MCAST.port_mask 5)) k =
    true → k = (Arrival.mk 7 2).port) ∧ barS.fabPart releaseP = some 1 ∧ barS.rd (Reg.TIME_BAR_SEM.partition releaseP.addr) = 1 ∧ barS.on
    (Reg.TIME_BAR_CFG.enable releaseP.addr) = true ∧ barS.rd (Reg.TIME_BAR_CFG.group releaseP.addr) % 4096 = 5 ∧ leNat (List.take 2 releaseP.payload)
    = barS.rd (Reg.TIME_BAR_STAT.gen releaseP.addr) ∧ barS.t32 < ↑(leNat (List.take 8 (List.drop 2 releaseP.payload))) * 2 ^ 32) ∧
    (2 < 8 ∧ (barRel.bar 2).release = some 700000 ∧ barRel.on (Reg.TIME_BAR_SEM.arr_en 2) = false ∧ barRel.on (Reg.TIME_BAR_SEM.rel_en 2) = true ∧
    barRel.semWaiters (barRel.rd (Reg.TIME_BAR_SEM.rel_sem 2)) = []) ∧
    (2 < 8 ∧ (barWait.bar 2).arrived = true ∧ (barWait.bar 2).release = none ∧ barWait.rd (Reg.TIME_BAR_STAT.arrived 2) = 0 ∧ barWait.on
    (Reg.TIME_BAR_SEM.arr_en 2) = false) :=
  ⟨⟨(by unfold Routable; decide +kernel), (by decide +kernel)⟩,
    ⟨(by unfold Routable; decide +kernel), (by decide +kernel)⟩,
    ⟨(by unfold Routable; decide +kernel), (by decide +kernel)⟩,
    ⟨(by unfold Routable; decide +kernel), (by decide +kernel)⟩,
    ⟨(by unfold Routable; decide +kernel), (by decide +kernel)⟩,
    (by and_intros <;> decide +kernel)⟩

/-! ### Flonil -/

def loadP (a : Nat) : Packet := packet 1 0x0102 0x0103 a []
def redP (rop fmt : Nat) : Packet := { storeP 4 with rop := rop, fmt := fmt }
def atomP (rop fmt : Nat) (w64 : Bool) : Packet := { packet 5 0x0102 0x0103 0x8040 (leBytes 5 8 ++ leBytes 0x42 8) with rop := rop, fmt := fmt, w64 := w64 }
def postP (k : Nat) : Packet := packet 6 0x0102 0x0103 k (leBytes 9 4)
def reqOld : State := { reqS with fab := { reqS.fab with dedup := [(0x0103, [(8, 1), (9, 0x1234)])], dedupAt := [(0x0103, 5000)] } }

/-- An operation outstanding to device 0x0103 with sequence number 9. -/
def remOp (type : Nat) (reg : Option CReg) (bytes : Nat) : RemOp :=
  ⟨9, type, 0x0103, 1, 0x0103 * 2 ^ 48 + 0x8000, some keyA, reg, false, 15, bytes, 3, 4, 0, 9000000, 4000000, 3999000, packet type 0x0103 0x0102 0x8000 []⟩
def otherOp : RemOp := { remOp 2 none 64 with seq := 10, group := 3 }
def outS (o : RemOp) : State := { reqS with fab := { reqS.fab with out := [otherOp, o] } }
def replyP (type status : Nat) : Packet := { packet type 0x0102 0x0103 0x8000 ((List.range 64).map (fun i => 3 * i)) with status := status, var := 0 }
def waitM : McastWait := ⟨{ packet 3 0xF005 0x0104 0x8000 [] with seq := 5 }, 0x0104, 5, 5, 7, [36], 3, 4000, 0⟩
def mcastS : State :=
  withRegs { outS (remOp 2 none 64) with fab := { (outS (remOp 2 none 64)).fab with mcast := [waitM] } } [(Reg.FAB_ROUTE_POD.valid 4, 1), (Reg.FAB_ROUTE_POD.port0 4, 7)]

/-- A port in a training state; the peer is 0x0103. -/
def portS (st : Nat) : State := withRegs { reqS with fab := { reqS.fab with peers := [(35, 0x0103)] } } [(Reg.FAB_PORT_CFG.en 35, 1), (Reg.FAB_PORT_STAT.state 35, st), (Reg.FAB_PORT_STAT.replays 35, 65534), (Reg.FAB_PORT_CFG.dateline 7, 1)]
def mcS : State := withRegs reqS [(Reg.FAB_MCAST.valid 5, 1), (Reg.FAB_MCAST.local 5, 1), (Reg.FAB_MCAST.port_mask 5, 128)]
/-- Group 5 is not local; it goes to ports 7 and 9, of which 9 is UP and a dateline. -/
def mcCopy : State := withRegs reqS [(Reg.FAB_MCAST.valid 5, 1), (Reg.FAB_MCAST.port_mask 5, 640), (Reg.FAB_PORT_STAT.state 9, 4), (Reg.FAB_PORT_CFG.dateline 9, 1)]
/-- The same with port 9 DOWN. -/
def mcDown : State := withRegs mcCopy [(Reg.FAB_PORT_STAT.state 9, 0)]
/-- Granules 4 to 11 of base die 8 are its reservation pool; one is leased. -/
def poolS : State :=
  let s := withRegs reqS ((List.range 4).flatMap (fun i => [(Reg.FAB_RSV_OWN.pool 8 0 (4 + i), 1), (Reg.FAB_RSV_OWN.pool 8 1 i, 1)]))
  { s with fab := { s.fab with leases := [⟨8, 3, 0x77, [4], 6000⟩] },
           mem := { s.mem with bytes := s.mem.bytes ++ [(0x20008040000, 7), (0x2000804FFFF, 8), (0x20008050000, 9)] } }
def rsvP (type key n ms : Nat) : Packet := packet type 0x0102 0x0103 0x20008000000 (leBytes (key + n * 2 ^ 32 + ms * 2 ^ 40) 64)
def strangeP : Packet := { storeP 2 with domain := 0x78 }
def ackP : Packet := { replyP 0x82 0 with payload := [] }
def refusedP : Packet := { replyP 0x82 1 with payload := [], var := 2 }
def groupP : Packet := { storeP 3 with dst := 0xF005 }

/-- A state and operands that meet the hypotheses of each clause of RequestsServed. -/
theorem witness_RequestsServed :
    (Served reqS 1 (loadP 32784) 1 ∧ reqS.permit 1 ((loadP 32784).addr / 64 * 64) 64 = true ∧ reqS.pktHeld (loadP 32784) = false ∧ reqS.lineBad
    ((loadP 32784).addr / 64 * 64) = false) ∧
    (Served reqS 1 (loadP 65536) 1 ∧ reqS.permit 1 ((loadP 65536).addr / 64 * 64) 64 = true ∧ reqS.pktHeld (loadP 65536) = false ∧ reqS.lineBad
    ((loadP 65536).addr / 64 * 64) = true) ∧
    (Served reqS 2 (storeP 2) 1 ∧ Live reqS ((storeP 2).addr / 64 * 64) (storeP 2).payload.length ∧ reqS.permit 1 ((storeP 2).addr / 64 * 64) (storeP
    2).payload.length = true ∧ reqS.pktHeld (storeP 2) = false) ∧
    (Served zeroRsvS 2 storeR 1 ∧ zeroRsvS.permit 1 (storeR.addr / 64 * 64) storeR.payload.length = true ∧ zeroRsvS.pktHeld storeR = true) ∧
    (Served reqS 4 (redP 0 12) 1 ∧ Live reqS ((redP 0 12).addr / 64 * 64) (redP 0 12).payload.length ∧ reqS.permit 1 ((redP 0 12).addr / 64 * 64)
    (redP 0 12).payload.length = true ∧ reqS.pktHeld (redP 0 12) = false ∧ ((redP 0 12).payload.length = (if (redP 0 12).fmt = 8 then 2 else 4) * 32)
    ∧ ((redP 0 12).fmt = 12 ∧ (redP 0 12).rop < 6 ∨ ((redP 0 12).fmt = 8 ∨ (redP 0 12).fmt = 10) ∧ (redP 0 12).rop < 3)) ∧
    (Served reqS 5 (atomP 2 12 true) 1 ∧ (atomP 2 12 true).kind = 0 ∧ (∀ (e : Nat × Nat), e ∈ NMap.get [] reqS.fab.dedup (atomP 2 12 true).src →
    e.fst ≠ (atomP 2 12 true).seq) ∧ (((atomP 2 12 true).addr % if (atomP 2 12 true).w64 = true then 8 else if (atomP 2 12 true).fmt = 8 then 2 else
    4) = 0) ∧ (reqS.permit 1 (atomP 2 12 true).addr (if (atomP 2 12 true).w64 = true then 8 else if (atomP 2 12 true).fmt = 8 then 2 else 4) = true)
    ∧ (atomP 2 12 true).rop < 8 ∧ ((atomP 2 12 true).w64 = true ∨ (atomP 2 12 true).fmt = 12 ∨ ((atomP 2 12 true).fmt = 8 ∨ (atomP 2 12 true).fmt =
    10) ∧ ((atomP 2 12 true).rop < 3 ∨ 5 < (atomP 2 12 true).rop)) ∧ reqS.pktHeld (atomP 2 12 true) = false ∧ (reqS.dedupSlot (atomP 2 12
    true).src).isSome = true ∧ reqS.lineBad (atomP 2 12 true).addr = false) ∧
    (Served reqOld 5 (atomP 0 12 false) 1 ∧ (atomP 0 12 false).kind = 0 ∧ NMap.find reqOld.fab.dedup (atomP 0 12 false).src = some [(8, 1), (9,
    4660)] ∧ (List.find? (fun (e : Nat × Nat) => decide (e.fst = (atomP 0 12 false).seq)) [(8, 1), (9, 4660)] = some (9, 4660))) ∧
    (Served reqS 6 (postP 0) 1 ∧ reqS.semOwned (fabSem ((postP 0).addr % 4096)) 1 = true ∧ reqS.semWaiters (fabSem ((postP 0).addr % 4096)) = []) ∧
    (Served reqS 6 (postP 4095) 1 ∧ reqS.semOwned (fabSem ((postP 4095).addr % 4096)) 1 = false) ∧
    (Routable reqS strangeP.src ∧ strangeP.type = 2 ∧ strangeP.dst = reqS.devId ∧ tooOld strangeP = false ∧ (reqS.fabPart strangeP = none ∨ ∃ (r :
    Nat), reqS.fabPart strangeP = some r ∧ reqS.permit r (strangeP.addr / 64 * 64) strangeP.payload.length = false)) :=
  ⟨⟨(by constructor <;> first | decide +kernel | (unfold Sys2Proof.Machine.Routable; decide +kernel)), (by decide +kernel)⟩,
    ⟨(by constructor <;> first | decide +kernel | (unfold Sys2Proof.Machine.Routable; decide +kernel)), (by decide +kernel)⟩,
    ⟨(by constructor <;> first | decide +kernel | (unfold Sys2Proof.Machine.Routable; decide +kernel)), (live_of (by decide +kernel)), (by decide +kernel)⟩,
    ⟨(by constructor <;> first | decide +kernel | (unfold Sys2Proof.Machine.Routable; decide +kernel)), (by decide +kernel)⟩,
    ⟨(by constructor <;> first | decide +kernel | (unfold Sys2Proof.Machine.Routable; decide +kernel)), (live_of (by decide +kernel)), (by decide +kernel)⟩,
    ⟨(by constructor <;> first | decide +kernel | (unfold Sys2Proof.Machine.Routable; decide +kernel)), (by decide +kernel)⟩,
    ⟨(by constructor <;> first | decide +kernel | (unfold Sys2Proof.Machine.Routable; decide +kernel)), (by decide +kernel)⟩,
    ⟨(by constructor <;> first | decide +kernel | (unfold Sys2Proof.Machine.Routable; decide +kernel)), (by decide +kernel)⟩,
    ⟨(by constructor <;> first | decide +kernel | (unfold Sys2Proof.Machine.Routable; decide +kernel)), (by decide +kernel)⟩,
    ⟨(by unfold Routable; decide +kernel), (by decide +kernel)⟩⟩

/-- A state and operands that meet the hypotheses of each clause of RepliesAndBounds. -/
theorem witness_RepliesAndBounds :
    (Outstanding (outS (remOp 1 (some (CReg.v 5)) 64)) (remOp 1 (some (CReg.v 5)) 64) keyA bankQ ∧ (replyP 129 0).type = 129 ∧ (replyP 129 0).dst =
    (outS (remOp 1 (some (CReg.v 5)) 64)).devId ∧ (((outS (remOp 1 (some (CReg.v 5)) 64)).answered (replyP 129 0) fun (t : Nat) => t == 1) = some
    (remOp 1 (some (CReg.v 5)) 64)) ∧ (remOp 1 (some (CReg.v 5)) 64).reg = some (CReg.v 5) ∧ (remOp 1 (some (CReg.v 5)) 64).line < 16 ∧ (remOp 1
    (some (CReg.v 5)) 64).bytes = 64 ∧ (replyP 129 0).status = 0 ∧ (replyP 129 0).poison = false) ∧
    (Outstanding (outS (remOp 1 (some (CReg.v 5)) 64)) (remOp 1 (some (CReg.v 5)) 64) keyA bankQ ∧ (replyP 129 2).type = 129 ∧ (replyP 129 2).dst =
    (outS (remOp 1 (some (CReg.v 5)) 64)).devId ∧ (((outS (remOp 1 (some (CReg.v 5)) 64)).answered (replyP 129 2) fun (t : Nat) => t == 1) = some
    (remOp 1 (some (CReg.v 5)) 64)) ∧ (remOp 1 (some (CReg.v 5)) 64).reg = some (CReg.v 5) ∧ (remOp 1 (some (CReg.v 5)) 64).line < 16 ∧ (remOp 1
    (some (CReg.v 5)) 64).bytes = 64 ∧ (replyP 129 2).status = 2) ∧
    (Outstanding (outS (remOp 5 (some (CReg.s 9)) 8)) (remOp 5 (some (CReg.s 9)) 8) keyA bankQ ∧ 9 ≠ 0 ∧ (replyP 131 0).type = 131 ∧ (replyP 131
    0).dst = (outS (remOp 5 (some (CReg.s 9)) 8)).devId ∧ (((outS (remOp 5 (some (CReg.s 9)) 8)).answered (replyP 131 0) fun (t : Nat) => t == 5) =
    some (remOp 5 (some (CReg.s 9)) 8)) ∧ (remOp 5 (some (CReg.s 9)) 8).reg = some (CReg.s 9) ∧ (replyP 131 0).status = 0 ∧ (replyP 131 0).poison =
    false ∧ (remOp 5 (some (CReg.s 9)) 8).bytes ≤ 8) ∧
    (Outstanding (outS (remOp 2 none 64)) (remOp 2 none 64) keyA bankQ ∧ ackP.type = 130 ∧ ackP.dst = (outS (remOp 2 none 64)).devId ∧ (∀ (w :
    McastWait), w ∈ (outS (remOp 2 none 64)).fab.mcast → w.src ≠ ackP.dst ∨ w.seq ≠ ackP.seq) ∧ (((outS (remOp 2 none 64)).answered ackP fun (t :
    Nat) => t == 10) = none) ∧ (((outS (remOp 2 none 64)).answered ackP fun (t : Nat) => t == 2 || t == 4 || t == 6 || t == 9) = some (remOp 2 none
    64)) ∧ (remOp 2 none 64).type ≠ 9 ∧ (remOp 2 none 64).reg = none ∧ ackP.status = 0 ∧ ackP.var = 0) ∧
    (Outstanding (outS (remOp 2 none 64)) (remOp 2 none 64) keyA bankQ ∧ refusedP.type = 130 ∧ refusedP.dst = (outS (remOp 2 none 64)).devId ∧ (∀ (w
    : McastWait), w ∈ (outS (remOp 2 none 64)).fab.mcast → w.src ≠ refusedP.dst ∨ w.seq ≠ refusedP.seq) ∧ (((outS (remOp 2 none 64)).answered
    refusedP fun (t : Nat) => t == 10) = none) ∧ (((outS (remOp 2 none 64)).answered refusedP fun (t : Nat) => t == 2 || t == 4 || t == 6 || t == 9)
    = some (remOp 2 none 64)) ∧ (remOp 2 none 64).type ≠ 9 ∧ (remOp 2 none 64).reg = none ∧ refusedP.status = 1) ∧
    (Outstanding (outS (remOp 5 (some (CReg.s 9)) 8)) (remOp 5 (some (CReg.s 9)) 8) keyA bankQ ∧ (List.find? (fun (x : RemOp) => decide (x.dev =
    (remOp 5 (some (CReg.s 9)) 8).dev) && decide (x.seq = (remOp 5 (some (CReg.s 9)) 8).seq) && decide (x.type ≠ 10)) (outS (remOp 5 (some (CReg.s
    9)) 8)).fab.out = some (remOp 5 (some (CReg.s 9)) 8)) ∧ (remOp 5 (some (CReg.s 9)) 8).type = 5 ∧ (remOp 5 (some (CReg.s 9)) 8).reg = some (CReg.s
    9) ∧ 9 ≠ 0 ∧ (remOp 5 (some (CReg.s 9)) 8).bytes = 8) ∧
    (Outstanding (outS (remOp 5 (some (CReg.s 9)) 8)) (remOp 5 (some (CReg.s 9)) 8) keyA bankQ ∧ Routable (outS (remOp 5 (some (CReg.s 9)) 8)) (remOp
    5 (some (CReg.s 9)) 8).packet.dst ∧ (List.find? (fun (x : RemOp) => decide (x.dev = (remOp 5 (some (CReg.s 9)) 8).dev) && decide (x.seq = (remOp
    5 (some (CReg.s 9)) 8).seq) && (x.type == 1 || x.type == 5)) (outS (remOp 5 (some (CReg.s 9)) 8)).fab.out = some (remOp 5 (some (CReg.s 9)) 8)) ∧
    (remOp 5 (some (CReg.s 9)) 8).retryAt < (remOp 5 (some (CReg.s 9)) 8).deadline ∧ (remOp 5 (some (CReg.s 9)) 8).retryAt ≤ (remOp 5 (some (CReg.s
    9)) 8).sentAt + 2400000 ∧ (remOp 5 (some (CReg.s 9)) 8).packet.src = (outS (remOp 5 (some (CReg.s 9)) 8)).devId) ∧
    (Outstanding mcastS (remOp 2 none 64) keyA bankQ ∧ (List.find? (fun (x : McastWait) => decide (x.src = waitM.src) && decide (x.seq = waitM.seq))
    mcastS.fab.mcast = some waitM) ∧ waitM.arrival < 36) :=
  ⟨⟨(by constructor <;> decide +kernel), (by decide +kernel)⟩,
    ⟨(by constructor <;> decide +kernel), (by decide +kernel)⟩,
    ⟨(by constructor <;> decide +kernel), (by decide +kernel)⟩,
    ⟨(by constructor <;> decide +kernel), (by decide +kernel)⟩,
    ⟨(by constructor <;> decide +kernel), (by decide +kernel)⟩,
    ⟨(by constructor <;> decide +kernel), (by decide +kernel)⟩,
    ⟨(by constructor <;> decide +kernel), (by unfold Routable; decide +kernel), (by decide +kernel)⟩,
    ⟨(by constructor <;> decide +kernel), (by decide +kernel)⟩⟩

/-- A state and operands that meet the hypotheses of each clause of LinksTransitAndReservations. -/
theorem witness_LinksTransitAndReservations :
    (∀ e ∈ [0, 1], 35 < 36 ∧ (portS e).on (Reg.FAB_PORT_CFG.en 35) = true ∧ (portS e).tilePresent (portTile 35) = true ∧ (portS e).rd
    (Reg.FAB_PORT_STAT.state 35) = e) ∧
    (Live mcS (groupP.addr / 64 * 64) groupP.payload.length ∧ groupP.type = 3 ∧ groupP.kind = 0 ∧ groupP.dst = 61440 + 5 ∧ 5 < 4095 ∧ (Arrival.mk 7
    2).port < 36 ∧ tooOld groupP = false ∧ mcS.on (Reg.FAB_MCAST.valid 5) = true ∧ mcS.on (Reg.FAB_MCAST.local 5) = true ∧ (∀ (k : Nat), k < 36 → bit
    (mcS.rd (Reg.FAB_MCAST.port_mask 5)) k = true → k = (Arrival.mk 7 2).port) ∧ mcS.fabPart groupP = some 1 ∧ mcS.permit 1 (groupP.addr / 64 * 64)
    groupP.payload.length = true ∧ mcS.mesh.failed = []) ∧
    (Served poolS 7 (rsvP 7 9 7 255) 1 ∧ 9 < 2 ^ 32 ∧ 0 < 7 ∧ 7 ≤ 64 ∧ 255 < 256 ∧ leNat (List.take 64 (rsvP 7 9 7 255).payload) = 9 + 7 * 2 ^ 32 +
    255 * 2 ^ 40 ∧ rsvDie (rsvP 7 9 7 255) < 10 ∧ poolS.tilePresent (rsvDie (rsvP 7 9 7 255)) = true ∧ poolS.colFenced (rsvDie (rsvP 7 9 7 255)) =
    false ∧ (∀ (l : Lease), l ∈ poolS.fab.leases → l.die ≠ rsvDie (rsvP 7 9 7 255) ∨ l.key ≠ 9 ∨ l.domain ≠ (rsvP 7 9 7 255).domain) ∧ (7 ≤
    (List.filter (fun (g : Nat) => !(poolS.leased (rsvDie (rsvP 7 9 7 255))).contains g) (poolS.poolGranules (rsvDie (rsvP 7 9 7 255)))).length)) ∧
    (Served poolS 8 (rsvP 8 3 0 0) 1 ∧ poolS.fab.leases = [Lease.mk 8 3 119 [4] 6000] ∧ (Lease.mk 8 3 119 [4] 6000).die = rsvDie (rsvP 8 3 0 0) ∧
    (Lease.mk 8 3 119 [4] 6000).key = leNat (List.take 4 (rsvP 8 3 0 0).payload) ∧ (Lease.mk 8 3 119 [4] 6000).domain = (rsvP 8 3 0 0).domain) ∧
    (35 < 36 ∧ (portS 2).on (Reg.FAB_PORT_CFG.en 35) = true ∧ (portS 2).tilePresent (portTile 35) = true ∧ (portS 2).rd (Reg.FAB_PORT_STAT.state 35)
    = 2 ∧ ((portS 2).devId ≠ 65535 ∧ 259 ≠ 65535 ∧ 259 ≠ (portS 2).devId ∧ 0 = (portS 2).rd Reg.GLB_ID.config_rev)) ∧
    (35 < 36 ∧ (portS 3).on (Reg.FAB_PORT_CFG.en 35) = true ∧ (portS 3).tilePresent (portTile 35) = true ∧ (portS 3).rd (Reg.FAB_PORT_STAT.state 35)
    = 3) ∧
    (35 < 36 ∧ (portS 1).on (Reg.FAB_PORT_CFG.en 35) = true ∧ (portS 1).tilePresent (portTile 35) = true ∧ 0 < (portS 1).rd (Reg.FAB_PORT_STAT.state
    35) ∧ (portS 1).rd (Reg.FAB_PORT_STAT.state 35) < 4) ∧
    (35 < 36 ∧ (portS 3).on (Reg.FAB_PORT_CFG.en 35) = true ∧ (portS 3).tilePresent (portTile 35) = true ∧ (portS 3).rd (Reg.FAB_PORT_STAT.state 35)
    = 3 ∧ NMap.find (portS 3).fab.peers 35 = some 259 ∧ 259 < 65536) ∧
    (35 < 36 ∧ (portS 2).on (Reg.FAB_PORT_CFG.en 35) = true ∧ (portS 2).tilePresent (portTile 35) = true ∧ (portS 2).rd (Reg.FAB_PORT_STAT.state 35)
    = 2 ∧ (¬((portS 2).devId ≠ 65535 ∧ 258 ≠ 65535 ∧ 258 ≠ (portS 2).devId ∧ 0 = (portS 2).rd Reg.GLB_ID.config_rev))) ∧
    (35 < 36 ∧ 0 < 2 ∧ 2 < 3) ∧
    (35 < 36 ∧ (portS 4).portUp 35 = true ∧ 3 ≤ 3) ∧
    (35 < 36 ∧ (portS 4).portUp 35 = true) ∧
    ((packet 2 259 260 0 []).dst ≠ (portS 0).devId ∧ (packet 2 259 260 0 []).dst < 61440 ∧ 2 < 4 ∧ (min 65535 ((packet 2 259 260 0 []).age + 3906) ≤
    3906 ∨ isReply (packet 2 259 260 0 []).type = true) ∧ (portS 0).mesh.failed = [] ∧ (portS 0).routeOf (packet 2 259 260 0 []).src (packet 2 259
    260 0 []).dst = some 7) ∧
    ((packet 2 259 260 0 []).dst ≠ (portS 0).devId ∧ (packet 2 259 260 0 []).dst < 61440 ∧ 2 < 4 ∧ 3906 < min 65535 ((packet 2 259 260 0 []).age +
    3907) ∧ isReply (packet 2 259 260 0 []).type = false) ∧
    ((¬(1 ≤ (packet 11 258 259 0 []).type ∧ (packet 11 258 259 0 []).type ≤ 10)) ∧ (¬(129 ≤ (packet 11 258 259 0 []).type ∧ (packet 11 258 259 0
    []).type ≤ 132))) ∧
    (groupP.type = 3 ∧ groupP.kind = 0 ∧ groupP.dst = 61440 + 5 ∧ 5 < 4095 ∧ 9 < 36 ∧ 9 ≠ (Arrival.mk 7 2).port ∧ tooOld groupP = false ∧ mcCopy.on
    (Reg.FAB_MCAST.valid 5) = true ∧ mcCopy.on (Reg.FAB_MCAST.local 5) = false ∧ bit (mcCopy.rd (Reg.FAB_MCAST.port_mask 5)) 9 = true ∧ (∀ (j : Nat),
    j < 36 → bit (mcCopy.rd (Reg.FAB_MCAST.port_mask 5)) j = true → j = 9 ∨ j = (Arrival.mk 7 2).port)) ∧
    (poolS.fab.leases = [Lease.mk 8 3 119 [4] 6000]) :=
  ⟨(by simp only [List.forall_mem_cons]; and_intros <;> first | decide +kernel | exact issues_of (by decide +kernel) | (constructor <;> first | decide +kernel | (unfold Routable; decide +kernel)) | exact List.forall_mem_nil _ | (unfold Guarded; decide +kernel) | (unfold Routable; decide +kernel)),
    ⟨(live_of (by decide +kernel)), (by decide +kernel)⟩,
    ⟨(by constructor <;> first | decide +kernel | (unfold Sys2Proof.Machine.Routable; decide +kernel)), (by decide +kernel)⟩,
    ⟨(by constructor <;> first | decide +kernel | (unfold Sys2Proof.Machine.Routable; decide +kernel)), (by decide +kernel)⟩,
    (by and_intros <;> decide +kernel)⟩

/-! ### Ethernet -/

/-- Ports 0 and 1 run at 4 × 100 Gb/s with every link up and an mtu of 9,000; receive queue 5 belongs to host queue 2, PFC names and honours
priority 3. -/
def ethS : State :=
  let s := withRegs State.reset [(Reg.ETH_PORT_CFG.mode 0, 3), (Reg.ETH_PORT_STAT.link_up 0, 15), (Reg.ETH_PORT_CFG.mode 1, 3), (Reg.ETH_PORT_STAT.link_up 1, 15),
    (Reg.BLT_PORT_CFG.xoff_en 0, 0), (Reg.BLT_PORT_CFG.xoff_en 1, 0), (Reg.ETH_MAC_CFG.mtu 1, 9000), (Reg.ETH_MAC_CFG.mtu 5, 9000),
    (Reg.ETH_MAC_CFG.pfc_tx_mask 1, 8), (Reg.ETH_MAC_CFG.pfc_rx_honour 1, 0x18), (Reg.ETH_MAC_ADDR.addr 1, 0x020000000001), (Reg.ETH_CLS_KEY.valid 3, 1),
    (Reg.ETH_CLS_KEY.plane 3, 0), (Reg.ETH_CLS_KEY.mac 3, 1), (Reg.ETH_CLS_KEY.vid 3, 7), (Reg.ETH_CLS_KEY.id 3, 0x1234), (Reg.ETH_CLS_ACT.queue 3, 5),
    (Reg.BLT_RXQ_CFG.kind 5, 3), (Reg.BLT_RXQ_CFG.owner 5, 2), (Reg.BLT_RXQ_STAT.packets 5, 0xFFFFFFFE)]
  { s with eth := { s.eth with fill := [(0, 1000)] } }
/-- A tagged eCPRI U-plane frame for eAxC 0x1234, VID 7. -/
def frameU : List Nat :=
  [2, 0, 0, 0, 0, 1, 6, 5, 4, 3, 2, 1, 0x81, 0, 0x60, 7, 0xAE, 0xFE, 0x10, 0, 0, 40, 0x12, 0x34] ++ (List.range 40)
def frameX : List Nat := frameU.set 0 4
def partS : State := { ethS with eth := { ethS.eth with partials := [(1, (600, 5000))] } }
def pausedS : State := { ethS with eth := { ethS.eth with pause := [(11, 9000), (12, 777)] } }
/-- XOFF of the receive Blotter of port 0 changed 400 cycles ago, and a crossing the other way is pending. -/
def fullS (xoff kib : Nat) : State :=
  let s := withRegs ethS [(Reg.BLT_PORT_CFG.xoff_en 0, 1), (Reg.BLT_FILL.fill_kib 0, kib), (Reg.BLT_FILL.xoff 0, xoff)]
  { s with time := { s.time with cnt := 10000 }, eth := { s.eth with xoffAt := [(0, 9601)], pfcAt := [(1, 9600)], xoffIn := if xoff = 0 then [(0, true)] else [] } }
def txB (n v : Nat) : TxMsg := ⟨[1, 0, 2, 3] ++ List.replicate n v, some 0x020000000009, some 0x9999, none, 70000⟩
/-- Egress queue 6 of MAC 1 carries service replies, queue 7 a cell's messages. -/
def egS : State :=
  let s := withRegs ethS [(Reg.EQS_Q_CFG.kind 6, 2), (Reg.EQS_Q_CFG.owner 6, 4), (Reg.EQS_Q_CFG.mac 6, 1), (Reg.EQS_Q_CFG.tc 6, 2), (Reg.EQS_Q_HDR.tagged 6, 1),
    (Reg.EQS_Q_HDR.vid 6, 9), (Reg.EQS_Q_HDR.pcp 6, 3), (Reg.EQS_Q_CFG.kind 7, 1), (Reg.EQS_Q_CFG.owner 7, 12), (Reg.EQS_Q_CFG.mac 7, 1), (Reg.EQS_Q_CFG.tc 7, 3),
    (Reg.RAD_CELL_CFG.valid 12, 1), (Reg.RAD_CELL_CFG.tile 12, 0), (Reg.RAD_CELL_CFG.partition 12, 2), (Reg.RAD_CELL_CFG.scs 12, 1)]
  { s with time := { s.time with cnt := 20000 } }
def egQ : State := { egS with eth := { egS.eth with egq := [(6, [txB 20 1, txB 700 2])], seq := [(6, 255)], v := [(10, 5)], busy := [(1, 70000000000000)] } }
def egLateS : State := { egS with eth := { egS.eth with egq := [(7, [txB 20 1, txB 30 2, txB 40 3])] } }
def gateS : State := withRegs egS [(Reg.EQS_MAC_CFG.gate_en 1, 1), (Reg.EQS_MAC_CFG.gcl_len_m1 1, 1), (Reg.EQS_GCL.dur_ns_m1 1 0, 999), (Reg.EQS_GCL.gates 1 0, 255)]

/-- A state and operands that meet the hypotheses of each clause of EthernetReceive. -/
theorem witness_EthernetReceive :
    ((∀ (o n : Nat), frameTags frameX = some (o, n) → beNat (List.take 2 (List.drop o frameX)) ≠ 34824) ∧ ethS.macUp 1 = true ∧ 1 < 32 ∧ (ethS.on
    (Reg.BLT_PORT_CFG.xoff_en (1 / 4)) = false ∧ ethS.on (Reg.BLT_FILL.xoff (1 / 4)) = false ∧ NMap.get false ethS.eth.xoffIn (1 / 4) = false) ∧
    NMap.get 0 ethS.eth.cut 1 = 0 ∧ NMap.find ethS.eth.partials 1 = none ∧ 60 ≤ frameX.length ∧ frameX.length + 4 ≤ ethS.rd (Reg.ETH_MAC_CFG.mtu 1) ∧
    NMap.get 0 ethS.eth.fill (1 / 4) + frameX.length + 4 ≤ 4194304 ∧ frameTags frameX ≠ none ∧ ethS.rxClass 1 frameX = RxClass.drop) ∧
    (∀ e ∈ [7, 5], ethS.macUp 1 = true ∧ 1 < 32 ∧ e < 32 ∧ ethS.macRate e ≠ 0) ∧
    (ethS.macUp 1 = true ∧ 1 < 32 ∧ (ethS.on (Reg.BLT_PORT_CFG.xoff_en (1 / 4)) = false ∧ ethS.on (Reg.BLT_FILL.xoff (1 / 4)) = false ∧ NMap.get
    false ethS.eth.xoffIn (1 / 4) = false) ∧ NMap.get 0 ethS.eth.cut 1 = 0 ∧ NMap.find ethS.eth.partials 1 = none ∧ 60 ≤ frameU.length ∧
    frameU.length + 4 ≤ ethS.rd (Reg.ETH_MAC_CFG.mtu 1) ∧ NMap.get 0 ethS.eth.fill (1 / 4) + frameU.length + 4 ≤ 4194304 ∧ frameTags frameU = some
    (16, 7) ∧ beNat (List.take 2 (List.drop 16 frameU)) ≠ 34824 ∧ ethS.rxClass 1 frameU = RxClass.queue 5 4660 ∧ ethS.rd (Reg.BLT_RXQ_CFG.kind 5) = 3
    ∧ (List.foldl (fun (a : Nat) (x : RxPkt) => a + x.space) 0 (ethS.rxq 5) + frameU.length + 4 ≤ (ethS.rd (Reg.BLT_RXQ_CFG.limit_64k_m1 5) + 1) *
    65536) ∧ ethS.rxBuf (ethS.rd (Reg.BLT_RXQ_CFG.owner 5)) = none ∧ (∀ (x : RxPkt), x ∈ ethS.rxq 5 → x.cnt = ethS.time.cnt → x.port ≤ 1 / 4)) ∧
    (ethS.macUp 1 = true ∧ 1 < 32 ∧ (ethS.on (Reg.BLT_PORT_CFG.xoff_en (1 / 4)) = false ∧ ethS.on (Reg.BLT_FILL.xoff (1 / 4)) = false ∧ NMap.get
    false ethS.eth.xoffIn (1 / 4) = false) ∧ NMap.get 0 ethS.eth.cut 1 = 0 ∧ NMap.find ethS.eth.partials 1 = none ∧ ethS.rxFull 1 0 frameU
    (frameU.length + 4) = false) ∧
    (partS.macUp 1 = true ∧ 1 < 32 ∧ (partS.on (Reg.BLT_PORT_CFG.xoff_en (1 / 4)) = false ∧ partS.on (Reg.BLT_FILL.xoff (1 / 4)) = false ∧ NMap.get
    false partS.eth.xoffIn (1 / 4) = false) ∧ NMap.find partS.eth.partials 1 = some (600, 5000)) ∧
    (pausedS.macUp 1 = true ∧ 1 < 32) ∧
    (pausedS.macUp 1 = true ∧ 1 < 32 ∧ 4 < 8 ∧ NMap.find pausedS.eth.pause (8 * 1 + 4) = some 777) ∧
    ((fullS 0 3072).macUp 1 = true ∧ 1 < 32 ∧ 0 < NMap.get 0 (fullS 0 3072).eth.xoffAt (1 / 4) ∧ NMap.get false (fullS 0 3072).eth.xoffIn (1 / 4) ≠
    (fullS 0 3072).on (Reg.BLT_FILL.xoff (1 / 4))) ∧
    ((fullS 1 2049).macUp 1 = true ∧ 1 < 32 ∧ (fullS 1 2049).on (Reg.BLT_FILL.xoff (1 / 4)) = true ∧ (fullS 1 2049).rd (Reg.ETH_MAC_CFG.pfc_tx_mask
    1) ≠ 0) ∧
    (ethS.macUp 1 = true ∧ 1 < 32 ∧ NMap.find ethS.eth.partials 1 = none) :=
  ⟨⟨(fun o n h => by rw [show frameTags frameX = some (16, 7) from by decide +kernel] at h; cases h; decide +kernel), (by decide +kernel)⟩,
    (by simp only [List.forall_mem_cons]; and_intros <;> first | decide +kernel | exact issues_of (by decide +kernel) | (constructor <;> first | decide +kernel | (unfold Routable; decide +kernel)) | exact List.forall_mem_nil _ | (unfold Guarded; decide +kernel) | (unfold Routable; decide +kernel)),
    (by and_intros <;> decide +kernel)⟩

/-- A state and operands that meet the hypotheses of each clause of EthernetEgress. -/
theorem witness_EthernetEgress :
    (egQ.macUp 1 = true ∧ egQ.eth.egq = [(6, [txB 20 1, txB 700 2])] ∧ egQ.eth.ptp = [] ∧ egQ.eth.svcWait = [] ∧ egQ.on (Reg.EQS_MAC_CFG.gate_en 1) =
    false ∧ egQ.on (Reg.EQS_MAC_CFG.kw5 1) = false ∧ egQ.egqOn 6 = true ∧ egQ.egqMac 6 = 1 ∧ egQ.rd (Reg.EQS_Q_CFG.kind 6) ≠ 1 ∧ (txB 20 1).host =
    none ∧ NMap.get 0 egQ.eth.pause (8 * 1 + egQ.rd (Reg.EQS_Q_HDR.pcp 6)) ≤ egQ.time.cnt ∧ egQ.rd (Reg.EQS_Q_CFG.tc 6) < 8) ∧
    (egS.macUp 1 = true ∧ egS.eth.egq = [] ∧ egS.eth.ptp = []) ∧
    ((egLateS.egq 7)[1]? = some (txB 30 2) ∧ egLateS.eth.svcWait = [] ∧ egLateS.rd (Reg.EQS_Q_CFG.kind 7) = 1 ∧ egLateS.rd (Reg.EQS_Q_CFG.owner 7) <
    1024) ∧
    (1 < 32 ∧ gateS.on (Reg.EQS_MAC_CFG.gate_en 1) = true) :=
  by and_intros <;> decide +kernel

/-! ### The host interface -/

/-- A command's 512 bits: opcode, tag, and further fields as (lowest bit, value). -/
def raw (op : Nat) (l : List (Nat × Nat)) : Nat := ((32, 0xCAFEF00D) :: l).foldl (fun a e => a + e.2 * 2 ^ e.1) op
def cmd (i op : Nat) (l : List (Nat × Nat)) : HCmd := ⟨i, raw op l, false, false⟩
/-- Queue 300 belongs to partition 1, PASID 0x22: a ring of 8 entries at 0x1000 and a completion ring of 4 records at 0x2000. -/
def hostS : State :=
  let s := withRegs coreS [(Reg.PART_STAT.state 1, 1), (Reg.PART_PASID.valid 1 3, 1), (Reg.PART_PASID.pasid 1 3, 0x22), (Reg.HQ_LINK.up, 1), (Reg.HQ_LINK.dropped_writes, 6),
    (Reg.HQ_Q_SQ.iova 300, 0x1000), (Reg.HQ_Q_CQ.iova 300, 0x2000), (Reg.HQ_Q_CFG.enable 300, 1), (Reg.HQ_Q_CFG.owner 300, 1), (Reg.HQ_Q_CFG.pasid_idx 300, 3),
    (Reg.HQ_Q_CFG.sq_log2 300, 3), (Reg.HQ_Q_CFG.cq_log2 300, 2), (Reg.HQ_Q_CFG.poll_code 300, 2), (Reg.HQ_Q_FLAGS.active 300, 1),
    (Reg.EQS_Q_CFG.kind 9, 3), (Reg.EQS_Q_CFG.owner 9, 300), (Reg.ETH_MAC_CFG.mtu 0, 9000)]
  { s with hq := { s.hq with q := [(300, { head := 7, written := 5, read := 4, lastRead := 900 })] },
           host := [(hostKey 0x22 0x1000, 9), (hostKey 0x22 (0x1040 + 64 * 7), 1), (hostKey 0x22 (0x1040 + 64 * 7 + 4), 0x55), (hostKey 0x22 0x1040, 2),
                    (hostKey 0x22 0x3001, 0xAB), (hostKey 0x22 0x307F, 0xCD)] }
def hostQ (f : HQueue → HQueue) : State := { hostS with hq := { hostS.hq with q := [(300, f ((hostS.hq_ 300)))] } }
def hostC (c : HCmd) : State := hostQ (fun h => { h with cmds := [c] })
def cNop : HCmd := cmd 6 1 []
def cIn : HCmd := cmd 6 2 [(64, 0x3000), (128, 0x8000), (192, 128)]
def cOut : HCmd := cmd 6 3 [(64, 0x3000), (128, 0x8000), (192, 128)]
def cSem (n : Nat) : HCmd := cmd 6 4 [(64, 64), (80, n)]
def cTx : HCmd := cmd 6 0x10 [(64, 0x3000), (128, 9), (144, 0x020000000007), (192, 0x0800), (208, 100)]
def cRx : HCmd := cmd 6 0x11 [(64, 0x3000), (128, 2048)]
/-- The same with no bytes. -/
def cTx0 : HCmd := cmd 6 0x10 [(64, 0x3000), (128, 9), (144, 0x020000000007), (192, 0x0800)]
def cRx0 : HCmd := cmd 6 0x11 [(64, 0x3000)]
def readyS : State := { hostS with pins := { hostS.pins with coreReady := true, perst := true } }

/-- A state and operands that meet the hypotheses of each clause of HostInterface. -/
theorem witness_HostInterface :
    (OnlyCommand (hostC cNop) 300 cNop 1 ∧ 300 < 4096 ∧ hReservedOk cNop (msk 64 448) = true) ∧
    (OnlyCommand (hostC (cmd 6 1 [(10, 1)])) 300 (cmd 6 1 [(10, 1)]) 1 ∧ 300 < 4096 ∧ hReservedOk (cmd 6 1 [(10, 1)]) (msk 64 448) = false) ∧
    (OnlyCommand (hostC cIn) 300 cIn 2 ∧ Live (hostC cIn) (cpAddr cIn) (cpBytes cIn) ∧ 300 < 4096 ∧ (hostC cIn).hqPasid 300 = some 34 ∧ hReservedOk
    cIn (msk 176 16 + msk 239 273) = true ∧ cpIova cIn % 64 = 0 ∧ cpAddr cIn % 64 = 0 ∧ cpBytes cIn % 64 = 0 ∧ 0 < cpBytes cIn ∧ cpSem cIn = none ∧
    cpIova cIn + cpBytes cIn < 2 ^ 64 ∧ (hostC cIn).permit ((hostC cIn).hqOwner 300) (cpAddr cIn) (cpBytes cIn) = true ∧ (hostC cIn).mesh.failed =
    []) ∧
    (OnlyCommand (hostC cOut) 300 cOut 3 ∧ 300 < 4096 ∧ (hostC cOut).hqPasid 300 = some 34 ∧ hReservedOk cOut (msk 176 16 + msk 239 273) = true ∧
    cpIova cOut % 64 = 0 ∧ cpAddr cOut % 64 = 0 ∧ cpBytes cOut % 64 = 0 ∧ 0 < cpBytes cOut ∧ cpSem cOut = none ∧ cpIova cOut + cpBytes cOut < 2 ^ 64
    ∧ (hostC cOut).permit ((hostC cOut).hqOwner 300) (cpAddr cOut) (cpBytes cOut) = true ∧ (hostC cOut).mesh.failed = [] ∧ (cpIova cOut + cpBytes
    cOut ≤ (hostC cOut).cqBase 300 ∨ (hostC cOut).cqBase 300 + 64 + 32 * (hostC cOut).cqSize 300 ≤ cpIova cOut)) ∧
    (OnlyCommand (hostC (cSem 9)) 300 (cSem 9) 4 ∧ 300 < 4096 ∧ hReservedOk (cSem 9) (msk 78 2 + msk 96 416) = true ∧ 64 = bits (cSem 9).raw 64 14 ∧
    (hostC (cSem 9)).semOwned 64 ((hostC (cSem 9)).hqOwner 300) = true ∧ (hostC (cSem 9)).semWaiters 64 = []) ∧
    (OnlyCommand (hostC cTx) 300 cTx 16 ∧ 300 < 4096 ∧ (hostC cTx).hqPasid 300 = some 34 ∧ hReservedOk cTx (msk 142 2 + msk 224 288) = true ∧ 0 <
    bits cTx.raw 208 16 ∧ (hostC cTx).rd (Reg.EQS_Q_CFG.kind (bits cTx.raw 128 13)) = 3 ∧ (hostC cTx).rd (Reg.EQS_Q_CFG.owner (bits cTx.raw 128 13))
    = 300 ∧ (hostC cTx).egOversize (bits cTx.raw 128 13) (bits cTx.raw 208 16) = false ∧ (hostC cTx).egRoom (bits cTx.raw 128 13) (bits cTx.raw 208
    16) = true) ∧
    (OnlyCommand (hostC cRx) 300 cRx 17 ∧ 300 < 4096 ∧ hReservedOk cRx (msk 160 352) = true ∧ bits cRx.raw 64 64 % 64 = 0 ∧ bits cRx.raw 128 32 ≠ 0 ∧
    (hostC cRx).hostPacket 300 = none) ∧
    (OnlyCommand (hostC cIn) 300 cIn 2 ∧ 300 < 4096) ∧
    (OnlyCommand (hostC cRx0) 300 cRx0 17 ∧ 300 < 4096 ∧ hReservedOk cRx0 (msk 160 352) = true ∧ bits cRx0.raw 64 64 % 64 = 0 ∧ bits cRx0.raw 128 32
    = 0) ∧
    (OnlyCommand (hostC cTx0) 300 cTx0 16 ∧ 300 < 4096 ∧ hReservedOk cTx0 (msk 142 2 + msk 224 288) = true ∧ bits cTx0.raw 208 16 = 0 ∧ (hostC
    cTx0).rd (Reg.EQS_Q_CFG.kind (bits cTx0.raw 128 13)) = 3 ∧ (hostC cTx0).rd (Reg.EQS_Q_CFG.owner (bits cTx0.raw 128 13)) = 300) ∧
    (300 < 4096 ∧ hostS.hqMayFetch 300 = true ∧ (hostS.hq_ 300).reading = false) ∧
    (300 < 4096 ∧ ((hostQ fun (h : HQueue) => HQueue.mk h.head h.written h.read h.readAt h.cmds true h.again h.lastRead).hqLive 300 = true) ∧ ((hostQ
    fun (h : HQueue) => HQueue.mk h.head h.written h.read h.readAt h.cmds true h.again h.lastRead).hqMayFetch 300 = false ∨ ((hostQ fun (h : HQueue)
    => HQueue.mk h.head h.written h.read h.readAt h.cmds true h.again h.lastRead).hq_ 300).reading = true)) ∧
    (300 < 4096 ∧ hostS.hqMayFetch 300 = true ∧ (hostS.hq_ 300).reading = false ∧ 0 < hostS.rd (Reg.HQ_Q_CFG.poll_code 300) ∧ hostS.rd
    (Reg.HQ_Q_CFG.poll_code 300) ≤ 8) ∧
    (300 < 4096 ∧ ((hostQ fun (h : HQueue) => HQueue.mk h.head h.written h.read h.readAt h.cmds true h.again h.lastRead).hqMayFetch 300 = true) ∧
    (((hostQ fun (h : HQueue) => HQueue.mk h.head h.written h.read h.readAt h.cmds true h.again h.lastRead).hq_ 300).reading = true) ∧ (((hostQ fun
    (h : HQueue) => HQueue.mk h.head h.written h.read h.readAt h.cmds true h.again h.lastRead).hq_ 300).again = false) ∧ (((hostQ fun (h : HQueue) =>
    HQueue.mk h.head h.written h.read h.readAt h.cmds true h.again h.lastRead).hq_ 300).cmds = []) ∧ ((hostQ fun (h : HQueue) => HQueue.mk h.head
    h.written h.read h.readAt h.cmds true h.again h.lastRead).hqPasid 300 = some 34) ∧ (Mem.rdN (hostQ fun (h : HQueue) => HQueue.mk h.head h.written
    h.read h.readAt h.cmds true h.again h.lastRead).host (hostKey 34 ((hostQ fun (h : HQueue) => HQueue.mk h.head h.written h.read h.readAt h.cmds
    true h.again h.lastRead).sqBase 300)) 8 = ((hostQ fun (h : HQueue) => HQueue.mk h.head h.written h.read h.readAt h.cmds true h.again
    h.lastRead).hq_ 300).head + 2) ∧ (((hostQ fun (h : HQueue) => HQueue.mk h.head h.written h.read h.readAt h.cmds true h.again h.lastRead).hq_
    300).head + 2 < 2 ^ 64) ∧ 0 < 2 ∧ (2 ≤ (hostQ fun (h : HQueue) => HQueue.mk h.head h.written h.read h.readAt h.cmds true h.again
    h.lastRead).sqSize 300) ∧ 2 ≤ 256 ∧ (2 ≤ (hostQ fun (h : HQueue) => HQueue.mk h.head h.written h.read h.readAt h.cmds true h.again
    h.lastRead).cqFree 300) ∧ (∀ (i : Nat), i < 2 → hKnown (bits ((hostQ fun (h : HQueue) => HQueue.mk h.head h.written h.read h.readAt h.cmds true
    h.again h.lastRead).sqEntry 300 34 (((hostQ fun (h : HQueue) => HQueue.mk h.head h.written h.read h.readAt h.cmds true h.again h.lastRead).hq_
    300).head + i)) 0 8) = true)) ∧
    (300 < 4096 ∧ ((hostQ fun (h : HQueue) => HQueue.mk h.head h.written h.read h.readAt h.cmds true h.again h.lastRead).hqLive 300 = true) ∧
    (((hostQ fun (h : HQueue) => HQueue.mk h.head h.written h.read h.readAt h.cmds true h.again h.lastRead).hq_ 300).reading = true)) ∧
    (300 < 4096) ∧
    (300 < 4096 ∧ readyS.pins.coreReady = true ∧ readyS.pins.perst = true ∧ 3 ≤ 5 ∧ 5 ≤ 5 ∧ 16 ∈ [1, 2, 4, 8, 16]) :=
  ⟨⟨(by constructor <;> decide +kernel), (by decide +kernel)⟩,
    ⟨(by constructor <;> decide +kernel), (by decide +kernel)⟩,
    ⟨(by constructor <;> decide +kernel), (live_of (by decide +kernel)), (by decide +kernel)⟩,
    ⟨(by constructor <;> decide +kernel), (by decide +kernel)⟩,
    ⟨(by constructor <;> decide +kernel), (by decide +kernel)⟩,
    ⟨(by constructor <;> decide +kernel), (by decide +kernel)⟩,
    ⟨(by constructor <;> decide +kernel), (by decide +kernel)⟩,
    ⟨(by constructor <;> decide +kernel), (by decide +kernel)⟩,
    ⟨(by constructor <;> decide +kernel), (by decide +kernel)⟩,
    ⟨(by constructor <;> decide +kernel), (by decide +kernel)⟩,
    (by and_intros <;> decide +kernel)⟩

/-! ### Serving -/

/-- TICK_NUM is 8. Partition 1 serves: 4 handles, block tables of 16 blocks at 0x100000, prompts of 4 bytes a token at 0x300000, one pool of a
frame of 8 KiB at 0x200000, adapters 5 and 6 slots of 64 KiB at 0x400000; batch 9 has step semaphore 70 and its table at 0x600000. -/
def srvS : State :=
  withRegs hostS [(Reg.TICK_STAT.running, 1), (Reg.TICK_NUM.tick_num, 8), (Reg.TICK_STAT.period_code, 0),
    (Reg.SRV_PART_CFG.enable 1, 1), (Reg.SRV_PART_CFG.queue_m1 1, 7), (Reg.SRV_PART_CFG.risk_interactive 1, 3), (Reg.SRV_PART_SEQ.seq_max_m1 1, 3),
    (Reg.SRV_PART_BT.base 1, 0x4000), (Reg.SRV_PART_BT.bt_lines_m1 1, 0), (Reg.SRV_PART_PSTORE.base 1, 0x300), (Reg.INK_POOL_BASE.base 1 0, 0x200),
    (Reg.INK_POOL_GEOM.frame_4k_m1 1 0, 1), (Reg.INK_POOL_GEOM.frames 1 0, 1), (Reg.INK_KV_LAYOUT.valid 1 2, 1),
    (Reg.INK_ADAPTER_CFG.slot_64k 1, 1), (Reg.INK_ADAPTER_CFG.slot_count 1, 2), (Reg.INK_ADAPTER_CFG.slot_first 1, 5), (Reg.INK_ADAPTER_BASE.base 1, 0x40),
    (Reg.SRV_BATCH_CFG.enable 9, 1), (Reg.SRV_BATCH_CFG.partition 9, 1), (Reg.SRV_BATCH_CFG.model 9, 2), (Reg.SRV_BATCH_CFG.step_sem 9, 70),
    (Reg.SRV_BATCH_CFG.step_ticks_m1 9, 3), (Reg.SRV_BATCH_CFG.max_seqs_m1 9, 3), (Reg.SRV_BATCH_CFG.tiles 9, 1), (Reg.SRV_BATCH_TAB.base 9, 0x600000),
    (Reg.SRV_BATCH_STAT.step 9, 0xFFFFFFFF)]
def withCmd (s : State) (c : HCmd) : State := { s with hq := { s.hq with q := [(300, { (s.hq_ 300) with cmds := [c] })] } }
/-- A SUBMIT: model 2, class 1, request 0x99, 5 tokens at 0x3000, at most 20 new, goal in 9 ticks, output at 0x5000. -/
def subFields : List (Nat × Nat) := [(64, 2), (68, 1), (72, 2), (96, 0x99), (128, 5), (152, 20), (176, 8), (192, 0x3000), (256, 0x5000), (384, 0x1234)]
def cSub : HCmd := cmd 6 0x40 subFields
def subRaw : Nat := raw 0x40 subFields / 2 ^ 64 * 2 ^ 64
def cCancel : HCmd := cmd 6 0x41 [(96, 0x99)]
def cLoad : HCmd := cmd 6 0x42 [(80, 0x21), (96, 4), (128, 0x3000), (192, 1)]
def cDrop : HCmd := cmd 6 0x43 [(80, 0x21)]
def begun (c : HCmd) : HCmd := { c with started := true }
def srvReq : Req := { newReq 1 0 subRaw (.host 300 6) 0x0102 7 [1, 2, 3, 4, 5] none with }
def withReq (s : State) (r : Req) : State := { s with srv := { s.srv with reqs := [(rqKey r.part r.handle, r)] } }
def loadingS : State :=
  let s := withRegs (withCmd srvS (begun cLoad)) [(Reg.INK_ADAPTER_STAT.state 6, 1), (Reg.INK_ADAPTER_STAT.adapter_id 6, 0x21), (Reg.INK_ADAPTER_STAT.version 6, 4),
    (Reg.INK_ADAPTER_STAT.state 5, 2), (Reg.INK_ADAPTER_STAT.adapter_id 5, 0x21), (Reg.INK_ADAPTER_STAT.version 5, 3), (Reg.INK_ADAPTER_STAT.refs 5, 2)]
  { s with srv := { s.srv with loads := [⟨1, 300, 6, some 6, true, false⟩] } }
def heldS (refs : Nat) : State :=
  withRegs (withCmd srvS cDrop) [(Reg.INK_ADAPTER_STAT.state 5, 2), (Reg.INK_ADAPTER_STAT.adapter_id 5, 0x21), (Reg.INK_ADAPTER_STAT.version 5, 3), (Reg.INK_ADAPTER_STAT.refs 5, refs)]
/-- Receive queue 12 is a service queue of partition 1 with a message complete. -/
def svcS (kind : Nat) (b : List Nat) (s : State) : State :=
  let s := withRegs s [(Reg.BLT_RXQ_CFG.kind 12, 2), (Reg.BLT_RXQ_CFG.owner 12, 1)]
  { s with eth := { s.eth with svcDone := [(12, [⟨kind, 3, 77, b, 0x060504030201, 1⟩])] } }
def msgSub : SvcMsg := ⟨1, 3, 77, leBytes (subRaw / 2 ^ 64) 56 ++ [1, 0, 0, 0, 2, 0, 0, 0, 3, 0, 0, 0, 4, 0, 0, 0, 5, 1, 0, 0], 0x060504030201, 1⟩
def msgCancel : SvcMsg := ⟨2, 3, 77, leBytes 0x99 4, 0x060504030201, 1⟩
/-- A request that asked for drop_late, and whose goal was tick 2. -/
def lateReq : Req := { srvReq with raw := setBits (setBits subRaw 71 1 1) 176 16 1, accept := 0 }
def pausedReq : Req := { srvReq with st := .paused, batch := some 9, qctx := some 0, held := 1, ready := 1 }
def batchS (done : Bool) : State := { srvS with srv := { srvS.srv with batches := [(9, ⟨[], done, 3⟩)] } }
def pausedBatchS : State :=
  let s := withReq (batchS true) pausedReq
  { s with mem := { s.mem with bytes := s.mem.bytes ++ [(0x100003, 0x80)] } }
/-- A command of a core to Inkwell of tile 0, whose result goes to 0x40 of the store of core 35, with semaphore 64. -/
def inkC (l : List (Nat × Nat)) : EngCmd := { raw := raw 0 l, part := 1, ctx := 5, tag := 9, core := 35, res := 0x40, sem := some 64 }
def withInk (s : State) (c : EngCmd) : State := { s with srv := { s.srv with ink := [(0, [c, { c with res := 0x80 }])] } }
def ikStep : EngCmd := { inkC [] with raw := 2 + 9 * 2 ^ 32 + 0xFFFFFFFF * 2 ^ 64 }
def ikReady : EngCmd := { inkC [] with raw := 1 + 0 * 2 ^ 32 + 1 * 2 ^ 64 }
def prefillReq : Req := { srvReq with st := .prefill, genDev := 0x0102, held := 1 }

/-- A serving message of a kind from package 0x0103 about request 0x99, whose origin is `origin` and handle there 0. -/
def svP (kind status origin : Nat) (l : List (Nat × Nat)) (more : List Nat) : Packet :=
  packet 9 0x0102 0x0103 0 (leBytes (((32, 0) :: l).foldl (fun a e => a + e.2 * 2 ^ e.1) (kind + status * 2 ^ 8 + 0x99 * 2 ^ 64 + origin * 2 ^ 96)) 64 ++ more)
def msgS : State := withRegs srvS [(Reg.FAB_DOMAIN.valid 1, 1), (Reg.FAB_DOMAIN.domain 1, 0x77)]
/-- The same request at its prompt member, at its generation member, and at its origin. -/
def remReq : Req := { srvReq with src := .remote, origin := 0x0103 }
def promptR : Req := { remReq with st := .prefill, roles := 2, genDev := 0x0103, promptDev := 0x0102 }
def genR : Req := { remReq with st := .handoff, roles := 1, held := 1, promptDev := 0x0103, genDev := 0x0102 }
def originR : Req := { srvReq with st := .prefill, promptDev := 0x0103 }
def tokenR : Req := { srvReq with st := .decode, first := true, delivered := 2, bound := true, genDev := 0x0103, promptDev := 0x0104 }
def boundR : Req := { srvReq with st := .joinWait, bound := true, genDev := 0x0103, promptDev := 0x0104 }
def lostMemberS : State := { withReq msgS boundR with srv := { (withReq msgS boundR).srv with lost := [(0x0103, none)] } }

/-- Contexts of partition 1 at 0x700000, of which context 1 is set up with profile 0, at 0x780000: 4 tokens in FP32, greedy. -/
def quillS (busy rem : Nat) (q : List EngCmd) : State :=
  let s := withRegs srvS [(Reg.QUILL_CTX_BASE.base 1, 0x380), (Reg.QUILL_CTX_CFG.ctx_count 1, 4), (Reg.QUILL_PROF_BASE.base 1, 0x1E000), (Reg.QUILL_PROF_BASE.prof_count 1, 1)]
  let s := s.stN 0x702000 64 (setBits (setBits (initHead 0 0 0x1234 rem) 17 1 busy) 160 32 0xFFFFFFFF)
  let s := s.stN 0x780000 64 (3 * 2 ^ 32 + 0xA * 2 ^ 52 + 0xFFFF * 2 ^ 96 + 0x3F800000 * 2 ^ 128)
  let s := s.stN 0x790000 16 (0x3F800000 + 0x40000000 * 2 ^ 32 + 0x40400000 * 2 ^ 64 + 0xC0800000 * 2 ^ 96)
  { s with srv := { s.srv with quill := [(1, q)] } }
def qC (l : List (Nat × Nat)) : EngCmd := { inkC [] with raw := l.foldl (fun a e => a + e.2 * 2 ^ e.1) 0 }
def qInit (ctx : Nat) : EngCmd := qC [(0, 2), (16, ctx), (64, 0x77), (128, 9)]
def qSample (ctx : Nat) : EngCmd := qC [(0, 1), (16, ctx), (64, 0x790000), (128, 64), (224, 12)]
def pfG : Nat := 3 * 2 ^ 32 + 0xA * 2 ^ 52 + 0xFFFF * 2 ^ 96 + 0x3F800000 * 2 ^ 128
/-- The SAMPLE when its first pass is over: what it read, and the candidates of its row; and with none. -/
def qBegun : EngCmd :=
  { qSample 1 with
    started := true, profile := pfG, head := setBits (setBits (initHead 0 0 0x1234 10) 17 1 0) 160 32 0xFFFFFFFF,
    rows := [.runs 0 [(2, 0x40400000), (1, 0x40000000), (0, 0x3F800000), (3, 0xC0800000)] false] }
def qEmpty : EngCmd := { qBegun with rows := [.runs 0 [] false] }
def ikStepT : List EngCmd := [{ ikStep with res := 0x80 }]
def ikReadyT : List EngCmd := [{ ikReady with res := 0x80 }]
/-- Two live versions of adapter 0x21. -/
def adaptS : State :=
  withRegs msgS [(Reg.INK_ADAPTER_STAT.state 5, 2), (Reg.INK_ADAPTER_STAT.adapter_id 5, 0x21), (Reg.INK_ADAPTER_STAT.version 5, 3), (Reg.INK_ADAPTER_STAT.refs 5, 65535),
    (Reg.INK_ADAPTER_STAT.state 6, 2), (Reg.INK_ADAPTER_STAT.adapter_id 6, 0x21), (Reg.INK_ADAPTER_STAT.version 6, 4)]

/-- What an origin keeps of a request: five tokens, accepted in tick 6, an adapter version. -/
def keptOf (v : Nat) : Kept := ⟨[7, 8, 9, 10, 11], 6, v⟩

/-- A state and operands that meet the hypotheses of each clause of ServingCommands. -/
theorem witness_ServingCommands :
    (OnlyCommand (withCmd srvS cSub) 300 cSub 64 ∧ Live (withCmd srvS cSub) 3145728 (4 * rqLen (cSub.raw / 2 ^ 64 * 2 ^ 64)) ∧ 300 < 4096 ∧ (withCmd
    srvS cSub).srvPart 300 = some 1 ∧ bits cSub.raw 10 22 = 0 ∧ (withCmd srvS cSub).submitCheck 1 (cSub.raw / 2 ^ 64 * 2 ^ 64) = 65535 ∧ rqAdEn
    (cSub.raw / 2 ^ 64 * 2 ^ 64) = false ∧ (withCmd srvS cSub).freeHandle 1 = some 0 ∧ (withCmd srvS cSub).promptRoom 1 (64 * cdiv (rqLen (cSub.raw /
    2 ^ 64 * 2 ^ 64)) 16) = some 3145728 ∧ (withCmd srvS cSub).hqPasid 300 = some 34) ∧
    (OnlyCommand (withCmd srvS (cmd 6 64 [(68, 3), (128, 5), (152, 20)])) 300 (cmd 6 64 [(68, 3), (128, 5), (152, 20)]) 64 ∧ 300 < 4096 ∧ (withCmd
    srvS (cmd 6 64 [(68, 3), (128, 5), (152, 20)])).srvPart 300 = some 1 ∧ bits (cmd 6 64 [(68, 3), (128, 5), (152, 20)]).raw 10 22 = 0 ∧ (withCmd
    srvS (cmd 6 64 [(68, 3), (128, 5), (152, 20)])).submitCheck 1 ((cmd 6 64 [(68, 3), (128, 5), (152, 20)]).raw / 2 ^ 64 * 2 ^ 64) ≠ 65535) ∧
    (OnlyCommand (withReq (withCmd srvS cCancel) srvReq) 300 cCancel 65 ∧ 300 < 4096 ∧ (withReq (withCmd srvS cCancel) srvReq).srvPart 300 = some 1 ∧
    hReservedOk cCancel (msk 64 32 + msk 128 384) = true ∧ (withReq (withCmd srvS cCancel) srvReq).byId 1 (bits cCancel.raw 96 32) = some 65536 ∧
    (withReq (withCmd srvS cCancel) srvReq).req 65536 = some srvReq ∧ srvReq.leaving = none) ∧
    (OnlyCommand (withCmd srvS cLoad) 300 cLoad 66 ∧ Live (withCmd srvS cLoad) ((withCmd srvS cLoad).adAddr 1 5) (bits cLoad.raw 192 32 * 65536) ∧
    300 < 4096 ∧ (withCmd srvS cLoad).srvPart 300 = some 1 ∧ hReservedOk cLoad (msk 64 16 + msk 112 16 + msk 224 288) = true ∧ (withCmd srvS
    cLoad).srv.loads = [] ∧ (withCmd srvS cLoad).hqPasid 300 = some 34 ∧ 0 < bits cLoad.raw 192 32 ∧ bits cLoad.raw 192 32 ≤ (withCmd srvS cLoad).rd
    (Reg.INK_ADAPTER_CFG.slot_64k 1) ∧ (∀ (j : Nat), (withCmd srvS cLoad).adLive 1 (bits cLoad.raw 80 16) = some j → (withCmd srvS cLoad).rd
    (Reg.INK_ADAPTER_STAT.version j) < bits cLoad.raw 96 16) ∧ (List.find? (fun (k : Nat) => decide ((withCmd srvS cLoad).rd
    (Reg.INK_ADAPTER_STAT.state k) = 0)) ((withCmd srvS cLoad).adSlots 1) = some 5) ∧ (withCmd srvS cLoad).permit 1 ((withCmd srvS cLoad).adAddr 1 5)
    (bits cLoad.raw 192 32 * 65536) = true) ∧
    (AwaitsRecord loadingS 300 (begun cLoad) ∧ 300 < 4096 ∧ loadingS.srvPart 300 = some 1 ∧ loadingS.srv.loads = [AdLoad.mk 1 300 (begun cLoad).index
    (some 6) true false] ∧ 6 < 1024 ∧ loadingS.srv.dropped = [] ∧ loadingS.srv.reqs = [] ∧ (∀ (j : Nat), (j ∈ loadingS.adHeld 1 (loadingS.rd
    (Reg.INK_ADAPTER_STAT.adapter_id 6)) fun (x : Nat) => x == 2) → loadingS.rd (Reg.INK_ADAPTER_STAT.refs j) ≠ 0)) ∧
    (OnlyCommand (heldS 3) 300 cDrop 67 ∧ 300 < 4096 ∧ (heldS 3).srvPart 300 = some 1 ∧ hReservedOk cDrop (msk 64 16 + msk 96 416) = true ∧ (((heldS
    3).adHeld 1 (bits cDrop.raw 80 16) fun (x : Nat) => x != 0) ≠ []) ∧ (((heldS 3).adHeld 1 (bits cDrop.raw 80 16) fun (x : Nat) => x == 1) = [])) ∧
    (Live (svcS 1 msgSub.bytes srvS) 3145728 (4 * rqLen (leNat (List.take 56 msgSub.bytes) * 2 ^ 64)) ∧ 12 < 4096 ∧ NMap.get [] (svcS 1 msgSub.bytes
    srvS).eth.svcDone 12 = [msgSub] ∧ (svcS 1 msgSub.bytes srvS).rd (Reg.BLT_RXQ_CFG.owner 12) = 1 ∧ 1 < 64 ∧ (svcS 1 msgSub.bytes srvS).rd
    (Reg.BLT_RXQ_CFG.kind 12) = 2 ∧ (svcS 1 msgSub.bytes srvS).on (Reg.SRV_PART_CFG.enable 1) = true ∧ msgSub.kind = 1 ∧ (svcS 1 msgSub.bytes
    srvS).submitCheck 1 (leNat (List.take 56 msgSub.bytes) * 2 ^ 64) = 65535 ∧ rqAdEn (leNat (List.take 56 msgSub.bytes) * 2 ^ 64) = false ∧ 56 + 4 *
    rqLen (leNat (List.take 56 msgSub.bytes) * 2 ^ 64) ≤ msgSub.bytes.length ∧ (svcS 1 msgSub.bytes srvS).freeHandle 1 = some 0 ∧ (svcS 1
    msgSub.bytes srvS).promptRoom 1 (64 * cdiv (rqLen (leNat (List.take 56 msgSub.bytes) * 2 ^ 64)) 16) = some 3145728) ∧
    (AwaitsRecord (withReq (withCmd srvS (begun cSub)) lateReq) 300 (begun cSub) ∧ 300 < 4096 ∧ (withReq (withCmd srvS (begun cSub)) lateReq).req
    (rqKey 1 0) = some lateReq ∧ 0 < 65536 ∧ (lateReq.st = ReqSt.queued ∨ lateReq.st = ReqSt.joinWait) ∧ rqDropLate lateReq.raw = true ∧ rqClass
    lateReq.raw < 2 ∧ lateReq.goal < (withReq (withCmd srvS (begun cSub)) lateReq).tickNum ∧ lateReq.first = false ∧ lateReq.src = ReqSrc.host 300
    (begun cSub).index ∧ lateReq.promptDev = 65535 ∧ lateReq.genDev = 65535 ∧ lateReq.second = none ∧ lateReq.held = 0 ∧ lateReq.slot = none) ∧
    (12 < 4096 ∧ NMap.get [] (svcS 2 msgCancel.bytes (withReq srvS srvReq)).eth.svcDone 12 = [msgCancel] ∧ (svcS 2 msgCancel.bytes (withReq srvS
    srvReq)).rd (Reg.BLT_RXQ_CFG.owner 12) = 1 ∧ 1 < 64 ∧ (svcS 2 msgCancel.bytes (withReq srvS srvReq)).rd (Reg.BLT_RXQ_CFG.kind 12) = 2 ∧ (svcS 2
    msgCancel.bytes (withReq srvS srvReq)).on (Reg.SRV_PART_CFG.enable 1) = true ∧ msgCancel.kind = 2 ∧ (svcS 2 msgCancel.bytes (withReq srvS
    srvReq)).byId 1 (leNat (List.take 4 msgCancel.bytes)) = some 65536 ∧ (svcS 2 msgCancel.bytes (withReq srvS srvReq)).req 65536 = some srvReq ∧
    srvReq.leaving = none) ∧
    (300 < 4096) :=
  ⟨⟨(by constructor <;> decide +kernel), (live_of (by decide +kernel)), (by decide +kernel)⟩,
    ⟨(by constructor <;> decide +kernel), (by decide +kernel)⟩,
    ⟨(by constructor <;> decide +kernel), (by decide +kernel)⟩,
    ⟨(by constructor <;> decide +kernel), (live_of (by decide +kernel)), (by decide +kernel)⟩,
    ⟨(by constructor <;> decide +kernel), (by decide +kernel)⟩,
    ⟨(by constructor <;> decide +kernel), (by decide +kernel)⟩,
    ⟨(live_of (by decide +kernel)), (by decide +kernel)⟩,
    ⟨(by constructor <;> decide +kernel), (by decide +kernel)⟩,
    (by and_intros <;> decide +kernel)⟩

/-- A state and operands that meet the hypotheses of each clause of BatchesAndSteps. -/
theorem witness_BatchesAndSteps :
    (Live (batchS true) ((batchS true).rd (Reg.SRV_BATCH_TAB.base 9)) 64 ∧ 9 < 64 ∧ (batchS true).on (Reg.SRV_BATCH_CFG.enable 9) = true ∧ (batchS
    true).tickNum / 2 ^ (batchS true).rd Reg.TICK_STAT.period_code % ((batchS true).rd (Reg.SRV_BATCH_CFG.step_ticks_m1 9) + 1) = 0 ∧ ((batchS
    true).batch 9).taken ≠ (batchS true).tickNum + 1 ∧ ((batchS true).batch 9).stepDone = true ∧ (batchS true).partState ((batchS true).rd
    (Reg.SRV_BATCH_CFG.partition 9)) = 1 ∧ ((batchS true).batch 9).seats = [] ∧ (batchS true).srv.reqs = [] ∧ (batchS true).srv.pendFree = [] ∧
    (batchS true).semOwned ((batchS true).rd (Reg.SRV_BATCH_CFG.step_sem 9)) ((batchS true).rd (Reg.SRV_BATCH_CFG.partition 9)) = true ∧ (batchS
    true).semWaiters ((batchS true).rd (Reg.SRV_BATCH_CFG.step_sem 9)) = []) ∧
    (Live pausedBatchS (pausedBatchS.rd (Reg.SRV_BATCH_TAB.base 9)) 128 ∧ 9 < 64 ∧ pausedBatchS.on (Reg.SRV_BATCH_CFG.enable 9) = true ∧
    pausedBatchS.tickNum / 2 ^ pausedBatchS.rd Reg.TICK_STAT.period_code % (pausedBatchS.rd (Reg.SRV_BATCH_CFG.step_ticks_m1 9) + 1) = 0 ∧
    (pausedBatchS.batch 9).taken ≠ pausedBatchS.tickNum + 1 ∧ (pausedBatchS.batch 9).stepDone = true ∧ pausedBatchS.partState (pausedBatchS.rd
    (Reg.SRV_BATCH_CFG.partition 9)) = 1 ∧ (pausedBatchS.batch 9).seats = [] ∧ pausedBatchS.srv.reqs = [(65536, pausedReq)] ∧
    pausedBatchS.srv.pendFree = [] ∧ pausedReq.part = pausedBatchS.rd (Reg.SRV_BATCH_CFG.partition 9) ∧ 65536 = rqKey (pausedBatchS.rd
    (Reg.SRV_BATCH_CFG.partition 9)) pausedReq.handle ∧ pausedReq.handle < 65536 ∧ pausedReq.st = ReqSt.paused ∧ pausedReq.batch = some 9 ∧
    pausedReq.leaving = none ∧ pausedReq.qctx = some 0 ∧ pausedBatchS.blocksShort pausedReq = 0 ∧ (∀ (i : Nat), i < pausedReq.held → btReleased
    (pausedBatchS.btGet (pausedBatchS.rd (Reg.SRV_BATCH_CFG.partition 9)) pausedReq.handle i) = false) ∧ pausedBatchS.on (Reg.SRV_BATCH_CFG.fallback
    9) = false) ∧
    (9 < 64 ∧ (batchS false).on (Reg.SRV_BATCH_CFG.enable 9) = true ∧ (batchS false).tickNum / 2 ^ (batchS false).rd Reg.TICK_STAT.period_code %
    ((batchS false).rd (Reg.SRV_BATCH_CFG.step_ticks_m1 9) + 1) = 0 ∧ ((batchS false).batch 9).taken ≠ (batchS false).tickNum + 1 ∧ ((batchS
    false).batch 9).stepDone = false) ∧
    (9 < 64 ∧ (withInk (batchS false) ikStep).on (Reg.SRV_BATCH_CFG.enable 9) = true ∧ (withInk (batchS false) ikStep).inkQueue 0 = ikStep :: ikStepT
    ∧ (withInk (batchS false) ikStep).inkHome 0 ikStep = true ∧ bits ikStep.raw 0 8 = 2 ∧ bits ikStep.raw 32 32 = 9 ∧ (withInk (batchS false)
    ikStep).rd (Reg.SRV_BATCH_CFG.partition 9) = ikStep.part ∧ (withInk (batchS false) ikStep).rd (Reg.SRV_BATCH_STAT.step 9) = bits ikStep.raw 64
    32) ∧
    (9 < 64 ∧ (withInk (withReq srvS prefillReq) ikReady).on (Reg.SRV_BATCH_CFG.enable 9) = true ∧ (withInk (withReq srvS prefillReq)
    ikReady).inkQueue 0 = ikReady :: ikReadyT ∧ (withInk (withReq srvS prefillReq) ikReady).inkHome 0 ikReady = true ∧ bits ikReady.raw 0 8 = 1 ∧
    bits ikReady.raw 32 32 < 65536 ∧ 0 < bits ikReady.raw 64 32 ∧ (withInk (withReq srvS prefillReq) ikReady).req (rqKey ikReady.part (bits
    ikReady.raw 32 32)) = some prefillReq ∧ (prefillReq.st = ReqSt.prefill ∨ prefillReq.st = ReqSt.recompute) ∧ bits ikReady.raw 64 32 ≤
    prefillReq.held ∧ (withInk (withReq srvS prefillReq) ikReady).indexOn ikReady.part = false ∧ prefillReq.genDev = (withInk (withReq srvS
    prefillReq) ikReady).devId) :=
  ⟨⟨(live_of (by decide +kernel)), (by decide +kernel)⟩,
    ⟨(live_of (by decide +kernel)), (by decide +kernel)⟩,
    (by and_intros <;> decide +kernel)⟩

/-- A state and operands that meet the hypotheses of each clause of ServingMessages. -/
theorem witness_ServingMessages :
    (Arrives msgS 1 (svP 1 0 259 [(128, 2), (192, 5)] []) 1 ∧ remReq.part = 1 ∧ msgS.freeHandle 1 = some 0 ∧ ((msgS.svFind 1 (svP 1 0 259 [(128, 2),
    (192, 5)] []) fun (r : Req) => r.isPrompt) = none) ∧ rqAdEn (setBits (setBits (bits (svLine (svP 1 0 259 [(128, 2), (192, 5)] [])) 128 384 * 2 ^
    64) 96 32 (svId (svP 1 0 259 [(128, 2), (192, 5)] []))) 448 64 0) = false) ∧
    (Arrives adaptS 1 (svP 1 0 259 [(128, 2), (192, 5), (140, 1), (144, 33)] []) 1 ∧ remReq.part = 1 ∧ adaptS.freeHandle 1 = some 0 ∧ ((adaptS.svFind
    1 (svP 1 0 259 [(128, 2), (192, 5), (140, 1), (144, 33)] []) fun (r : Req) => r.isPrompt) = none) ∧ rqAdEn (setBits (setBits (bits (svLine (svP 1
    0 259 [(128, 2), (192, 5), (140, 1), (144, 33)] [])) 128 384 * 2 ^ 64) 96 32 (svId (svP 1 0 259 [(128, 2), (192, 5), (140, 1), (144, 33)] [])))
    448 64 0) = true ∧ adaptS.adVersion 1 (rqAdapter (setBits (setBits (bits (svLine (svP 1 0 259 [(128, 2), (192, 5), (140, 1), (144, 33)] [])) 128
    384 * 2 ^ 64) 96 32 (svId (svP 1 0 259 [(128, 2), (192, 5), (140, 1), (144, 33)] []))) 448 64 0)) (keptOf 3).version = some 5) ∧
    (Arrives msgS 2 (svP 2 0 259 [(128, 1)] []) 1 ∧ ((msgS.ack (svP 2 0 259 [(128, 1)] []) 0).reserveFrames 1 0 (msgS.genMask 1 (bits (svLine (svP 2
    0 259 [(128, 1)] [])) 212 4) false) (bits (svLine (svP 2 0 259 [(128, 1)] [])) 128 24) 0).isSome = true ∧ remReq.part = 1 ∧ msgS.freeHandle 1 =
    some 0 ∧ bit (svLine (svP 2 0 259 [(128, 1)] [])) 152 = false ∧ bit (svLine (svP 2 0 259 [(128, 1)] [])) 216 = false ∧ 0 < bits (svLine (svP 2 0
    259 [(128, 1)] [])) 128 24 ∧ bits (svLine (svP 2 0 259 [(128, 1)] [])) 128 24 ≤ 120 ∧ bits (svLine (svP 2 0 259 [(128, 1)] [])) 128 24 ≤
    msgS.btBlocks 1) ∧
    (Arrives (withReq msgS promptR) 3 (svP 3 0 259 [(128, 2)] (leBytes 17798344605696 8 ++ leBytes 17798344671232 8)) 1 ∧ promptR.part = 1 ∧ svStatus
    (svP 3 0 259 [(128, 2)] (leBytes 17798344605696 8 ++ leBytes 17798344671232 8)) = stSuccess ∧ (((withReq msgS promptR).svFind 1 (svP 3 0 259
    [(128, 2)] (leBytes 17798344605696 8 ++ leBytes 17798344671232 8)) fun (r : Req) => r.isPrompt && !r.bound && (decide (r.genDev = (svP 3 0 259
    [(128, 2)] (leBytes 17798344605696 8 ++ leBytes 17798344671232 8)).src) || r.second == some (svP 3 0 259 [(128, 2)] (leBytes 17798344605696 8 ++
    leBytes 17798344671232 8)).src)) = some 65536) ∧ (withReq msgS promptR).req 65536 = some promptR ∧ promptR.isPrompt = true ∧ promptR.bound =
    false ∧ promptR.genDev = (svP 3 0 259 [(128, 2)] (leBytes 17798344605696 8 ++ leBytes 17798344671232 8)).src ∧ (svP 3 0 259 [(128, 2)] (leBytes
    17798344605696 8 ++ leBytes 17798344671232 8)).src ≠ (withReq msgS promptR).devId ∧ promptR.second = none ∧ promptR.ready = 0 ∧ 0 <
    promptR.blocks) ∧
    (Arrives (withReq msgS genR) 4 (svP 4 0 259 [] []) 1 ∧ genR.part = 1 ∧ (((withReq msgS genR).svFind 1 (svP 4 0 259 [] []) fun (r : Req) =>
    !r.isPrompt && bit r.roles 0 && r.st == ReqSt.handoff) = some 65536) ∧ (withReq msgS genR).req 65536 = some genR ∧ genR.origin = (svP 4 0 259 []
    []).src ∧ (withReq msgS genR).indexOn 1 = false) ∧
    (Arrives (withReq msgS originR) 5 (svP 5 0 258 [(152, 49)] []) 1 ∧ originR.part = 1 ∧ (((withReq msgS originR).svFind 1 (svP 5 0 258 [(152, 49)]
    []) fun (r : Req) => (r.isOrigin || r.isPrompt) && !r.bound && (decide (r.genDev = (svP 5 0 258 [(152, 49)] []).src) || r.isOrigin &&
    !r.isPrompt)) = some 65536) ∧ (withReq msgS originR).req 65536 = some originR ∧ originR.isOrigin = true ∧ originR.isPrompt = false ∧
    originR.second = none) ∧
    (Arrives (withReq msgS tokenR) 6 (svP 6 0 258 [(128, 3)] (leBytes 11 4 ++ leBytes 12 4 ++ leBytes 13 4)) 1 ∧ tokenR.part = 1 ∧ (((withReq msgS
    tokenR).svFind 1 (svP 6 0 258 [(128, 3)] (leBytes 11 4 ++ leBytes 12 4 ++ leBytes 13 4)) fun (r : Req) => r.isOrigin) = some 65536) ∧ (withReq
    msgS tokenR).req 65536 = some tokenR ∧ tokenR.src = ReqSrc.host 300 6 ∧ tokenR.first = true ∧ tokenR.st = ReqSt.decode ∧ (withReq msgS
    tokenR).hqPasid 300 = some 34 ∧ (withReq msgS tokenR).hostUp = true ∧ bit (svLine (svP 6 0 258 [(128, 3)] (leBytes 11 4 ++ leBytes 12 4 ++
    leBytes 13 4))) 133 = false ∧ bit (svLine (svP 6 0 258 [(128, 3)] (leBytes 11 4 ++ leBytes 12 4 ++ leBytes 13 4))) 150 = false ∧ 0 < min 17 (bits
    (svLine (svP 6 0 258 [(128, 3)] (leBytes 11 4 ++ leBytes 12 4 ++ leBytes 13 4))) 128 5) ∧ rqOut tokenR.raw + 8 + 4 * (tokenR.delivered + min 17
    (bits (svLine (svP 6 0 258 [(128, 3)] (leBytes 11 4 ++ leBytes 12 4 ++ leBytes 13 4))) 128 5)) < 2 ^ 64) ∧
    (Arrives (withReq msgS promptR) 7 (svP 7 0 259 [] []) 1 ∧ promptR.part = 1 ∧ (((withReq msgS promptR).svFind 1 (svP 7 0 259 [] []) fun (r : Req)
    => !r.isOrigin) = some 65536) ∧ (withReq msgS promptR).req 65536 = some promptR ∧ promptR.leaving = none) ∧
    (boundR.part = 1 ∧ lostMemberS.srv.lost = [(259, none)] ∧ lostMemberS.srv.reqs = [(65536, boundR)] ∧ boundR.isOrigin = true ∧ boundR.isPrompt =
    false ∧ boundR.bound = true ∧ boundR.genDev = 259 ∧ boundR.promptDev ≠ 259 ∧ 259 ≠ lostMemberS.devId ∧ boundR.first = false ∧ boundR.held = 0) :=
  ⟨⟨(by constructor <;> first | decide +kernel | (unfold Sys2Proof.Machine.Routable; decide +kernel)), (by decide +kernel)⟩,
    ⟨(by constructor <;> first | decide +kernel | (unfold Sys2Proof.Machine.Routable; decide +kernel)), (by decide +kernel)⟩,
    ⟨(by constructor <;> first | decide +kernel | (unfold Sys2Proof.Machine.Routable; decide +kernel)), (reserveFrames_single (n := 0) (by decide +kernel)), (by decide +kernel)⟩,
    ⟨(by constructor <;> first | decide +kernel | (unfold Sys2Proof.Machine.Routable; decide +kernel)), (by decide +kernel)⟩,
    ⟨(by constructor <;> first | decide +kernel | (unfold Sys2Proof.Machine.Routable; decide +kernel)), (by decide +kernel)⟩,
    ⟨(by constructor <;> first | decide +kernel | (unfold Sys2Proof.Machine.Routable; decide +kernel)), (by decide +kernel)⟩,
    ⟨(by constructor <;> first | decide +kernel | (unfold Sys2Proof.Machine.Routable; decide +kernel)), (by decide +kernel)⟩,
    ⟨(by constructor <;> first | decide +kernel | (unfold Sys2Proof.Machine.Routable; decide +kernel)), (by decide +kernel)⟩,
    (by decide +kernel)⟩

/-- A state and operands that meet the hypotheses of each clause of QuillCommands. -/
theorem witness_QuillCommands :
    (Unqueued (quillS 0 10 [qInit 2]) ∧ Live (quillS 0 10 [qInit 2]) ((quillS 0 10 [qInit 2]).ctxAddr (qInit 2).part (qcCtx (qInit 2).raw)) 8192 ∧
    ((quillS 0 10 [qInit 2]).quillQueue 1)[0]? = some (qInit 2) ∧ qcOp (qInit 2).raw = 2 ∧ quillTurn ((quillS 0 10 [qInit 2]).quillQueue 1) 0 = true
    ∧ (quillS 0 10 [qInit 2]).quillCheck (qInit 2) = QChk.go pfG) ∧
    (Unqueued (quillS 0 10 [qSample 1]) ∧ ((quillS 0 10 [qSample 1]).quillQueue 1)[0]? = some (qSample 1) ∧ qcOp (qSample 1).raw = 1 ∧ (qSample
    1).started = false ∧ quillTurn ((quillS 0 10 [qSample 1]).quillQueue 1) 0 = true ∧ (quillS 0 10 [qSample 1]).quillCheck (qSample 1) = QChk.go pfG
    ∧ rowNext ((quillS 0 10 [qSample 1]).quillQueue 1) = none ∧ unitFree ((quillS 0 10 [qSample 1]).quillQueue 1) = some 0) ∧
    (Unqueued (quillS 1 10 [qSample 1]) ∧ ((quillS 1 10 [qSample 1]).quillQueue 1)[0]? = some (qSample 1) ∧ qcOp (qSample 1).raw = 1 ∧ (qSample
    1).started = false ∧ quillTurn ((quillS 1 10 [qSample 1]).quillQueue 1) 0 = true ∧ qcServe (qSample 1).raw = false ∧ (quillS 1 10 [qSample
    1]).quillCheck (qSample 1) = QChk.done 32 none false ∧ 32 < 65536) ∧
    (Unqueued (quillS 1 10 [qBegun]) ∧ Live (quillS 1 10 [qBegun]) ((quillS 1 10 [qBegun]).ctxAddr qBegun.part (qcCtx qBegun.raw)) 8192 ∧ ((quillS 1
    10 [qBegun]).quillQueue 1)[0]? = some qBegun ∧ qcOp qBegun.raw = 1 ∧ qBegun.started = true ∧ qcServe qBegun.raw = false ∧ qBegun.who = none ∧
    qcDraft qBegun.raw = 0 ∧ qcOutEn qBegun.raw = false ∧ qBegun.spoilt = false ∧ qBegun.rows = [QRow.runs 0 [(2, 1077936128), (1, 1073741824), (0,
    1065353216), (3, 3229614080)] false] ∧ rowNext ((quillS 1 10 [qBegun]).quillQueue 1) = none ∧ (∀ (e : Nat × Nat), e ∈ rowRanges qBegun 0 →
    (quillS 1 10 [qBegun]).rangeBad e.fst e.snd = false) ∧ 0 < cxRemaining qBegun.head ∧ qBegun.pens.length ≤ 2032 ∧ ((rowChoice qBegun.profile [(2,
    1077936128), (1, 1073741824), (0, 1065353216), (3, 3229614080)] (if pfTemp qBegun.profile = 0 then 0 else rowAll qBegun.profile [(2, 1077936128),
    (1, 1073741824), (0, 1065353216), (3, 3229614080)] ((quillS 1 10 [qBegun]).rowRead qBegun 0).fst) (quillDraw (cxSeed qBegun.head) (qcPos
    qBegun.raw))).fst = some 2)) ∧
    (Unqueued (quillS 1 10 [qEmpty]) ∧ Live (quillS 1 10 [qEmpty]) ((quillS 1 10 [qEmpty]).ctxAddr qEmpty.part (qcCtx qEmpty.raw)) 8192 ∧ ((quillS 1
    10 [qEmpty]).quillQueue 1)[0]? = some qEmpty ∧ qcOp qEmpty.raw = 1 ∧ qEmpty.started = true ∧ qcServe qEmpty.raw = false ∧ qEmpty.who = none ∧
    qcDraft qEmpty.raw = 0 ∧ qcOutEn qEmpty.raw = false ∧ qEmpty.spoilt = false ∧ qEmpty.rows = [QRow.runs 0 [] false] ∧ rowNext ((quillS 1 10
    [qEmpty]).quillQueue 1) = none ∧ (∀ (e : Nat × Nat), e ∈ rowRanges qEmpty 0 → (quillS 1 10 [qEmpty]).rangeBad e.fst e.snd = false) ∧ 0 <
    cxRemaining qEmpty.head ∧ qEmpty.pens.length ≤ 2032 ∧ ((rowChoice qEmpty.profile [] (if pfTemp qEmpty.profile = 0 then 0 else rowAll
    qEmpty.profile [] ((quillS 1 10 [qEmpty]).rowRead qEmpty 0).fst) (quillDraw (cxSeed qEmpty.head) (qcPos qEmpty.raw))).fst = none)) :=
  ⟨⟨(unqueued_of (by decide +kernel)), (live_of (by decide +kernel)), (by decide +kernel)⟩,
    ⟨(unqueued_of (by decide +kernel)), (by decide +kernel)⟩,
    ⟨(unqueued_of (by decide +kernel)), (by decide +kernel)⟩,
    ⟨(unqueued_of (by decide +kernel)), (live_of (by decide +kernel)), (by decide +kernel)⟩,
    ⟨(unqueued_of (by decide +kernel)), (live_of (by decide +kernel)), (by decide +kernel)⟩⟩

/-! ### Partitions and fences -/

/-- Partition 5 is in a state, with an operation pending (0: none); its program region lies in channel 0, which it owns. -/
def ptS (st op : Nat) : State :=
  let s := withRegs State.reset [(Reg.PART_STAT.state 5, st), (Reg.PART_STAT.pending_op 5, op), (Reg.PART_STAT.state 6, 1), (Reg.TILE_CHAN_CFG.owner 0 0, 5), (Reg.TILE_CHAN_CFG.ilv_code 0 0, 0),
    (Reg.PART_PASID.valid 5 2, 1), (Reg.PART_PASID.pasid 5 2, 0x31), (Reg.PART_CORE_MASK.cores 5 0 2, 0x0F), (Reg.PART_METER.count 5 3, 77), (Reg.COL_ORDER.next_order 5, 9),
    (Reg.PART_CFG.copperplate 5, 1), (Reg.MGT_STAT.state, 2)]
  { s with part := { s.part with ops := if op = 0 then [] else [(5, op, false)], quiescedAt := [(5, 3001)] }, time := { s.time with cnt := 4000 } }
def ptBusy : State := withBanks (ptS 2 0) [(keyA, { bankA with part := 5, dmas := [dmaS] })]
/-- The manager owns channel 0; slot 1 of partition 5 holds a map of epoch 8 with three entries, one of them repeated. -/
def compS (live : Nat) : State :=
  withBytes (withRegs State.reset [(Reg.TILE_CHAN_CFG.owner 0 0, 0x40), (Reg.TILE_CHAN_CFG.ilv_code 0 0, 0), (Reg.PART_COMP_BASE.base 5 1, 0xA000),
    (Reg.PART_COMP.live_epoch 5, live), (Reg.PART_COMP_STAT.live_slot 5, 0)]) 0xA000
    (leBytes (0x434F4D50 + 8 * 2 ^ 32 + 2 * 2 ^ 64) 64 ++ leBytes (0x0103 + 7 * 2 ^ 16) 16 ++ leBytes (0x0104 + 2 * 2 ^ 16) 16 ++ leBytes 0x0103 16)
def compL : List Nat := [0x0103 + 7 * 2 ^ 16, 0x0104 + 2 * 2 ^ 16, 0x0103]
def drainS : State :=
  let s := withRegs State.reset [(Reg.PART_COMP_STAT.draining 5, 1)]
  { s with part := { s.part with drainEnd := [(5, 70000)] } }
/-- Meter records every 10 ms into a ring of 16 at 0x8000 of the manager's PASID 9. -/
def meterS : State :=
  let s := withRegs State.reset [(Reg.PART_METER_CFG.enable, 1), (Reg.PART_METER_CFG.period_ms, 10), (Reg.PART_METER_CFG.log2_entries, 4), (Reg.PART_METER_RING.iova, 0x8000),
    (Reg.PART_METER_HEAD.written, 31), (Reg.PART_MGR_PASID.valid, 1), (Reg.PART_MGR_PASID.pasid, 9), (Reg.HQ_LINK.up, 1), (Reg.PART_STAT.state 5, 1),
    (Reg.PART_METER.count 5 0, 0x123456789A), (Reg.PART_METER.count 5 6, 5)]
  { s with part := { s.part with meterAt := 4000 } }
def fenceS (l : List (Nat × Nat)) : State := { State.reset with flt := { State.reset.flt with pendFence := l, counted := [(3 * 256 + 127, [5, 6, 7])] } }

/-- A state and operands that meet the hypotheses of each clause of PartitionsAndFences. -/
theorem witness_PartitionsAndFences :
    (5 < 64 ∧ (ptS 1 0).rd (Reg.PART_STAT.pending_op 5) = 0) ∧
    (5 < 64 ∧ (ptS 1 4).rd (Reg.PART_STAT.pending_op 5) ≠ 0) ∧
    (5 < 64 ∧ ((ptS 1 2).on Reg.TICK_STAT.running = false ∧ (ptS 1 2).tick.ops = [] ∧ (ptS 1 2).validCells = [] ∧ ∀ (j : Nat), j < 64 → (ptS 1 2).rd
    (Reg.PART_STAT.held j) = 0) ∧ (ptS 1 2).part.ops = [(5, 2, false)] ∧ (ptS 1 2).flt.pendFence = [] ∧ (ptS 1 2).partState 5 = 1) ∧
    (5 < 64 ∧ ((ptS 3 3).on Reg.TICK_STAT.running = false ∧ (ptS 3 3).tick.ops = [] ∧ (ptS 3 3).validCells = [] ∧ ∀ (j : Nat), j < 64 → (ptS 3 3).rd
    (Reg.PART_STAT.held j) = 0) ∧ ((ptS 3 3).hq.q = [] ∧ (ptS 3 3).srv.held = [] ∧ (ptS 3 3).on Reg.PART_METER_CFG.enable = false) ∧ (ptS 3
    3).part.ops = [(5, 3, false)] ∧ (ptS 3 3).flt.pendFence = [] ∧ (ptS 3 3).partState 5 = 3 ∧ (ptS 3 3).rd Reg.MGT_STAT.state ≠ 1) ∧
    (5 < 64 ∧ ((ptS 0 1).on Reg.TICK_STAT.running = false ∧ (ptS 0 1).tick.ops = [] ∧ (ptS 0 1).validCells = [] ∧ ∀ (j : Nat), j < 64 → (ptS 0 1).rd
    (Reg.PART_STAT.held j) = 0) ∧ ((ptS 0 1).hq.q = [] ∧ (ptS 0 1).srv.held = [] ∧ (ptS 0 1).on Reg.PART_METER_CFG.enable = false) ∧ (ptS 0
    1).part.ops = [(5, 1, false)] ∧ (ptS 0 1).flt.pendFence = [] ∧ (ptS 0 1).partState 5 = 0 ∧ (∃ (i : Nat), i < 16 ∧ ((ptS 0 1).partPasid 5
    i).isSome = true) ∧ (ptS 0 1).progOk 5 = true ∧ (ptS 0 1).maskOk 5 = true) ∧
    (5 < 64 ∧ (ptS 2 0).partState 5 = 2 ∧ (ptS 2 0).busyBits 5 % 32 = 0) ∧
    (5 < 64 ∧ ptBusy.partState 5 = 2 ∧ ptBusy.busyBits 5 % 32 ≠ 0) ∧
    (5 < 64 ∧ (ptS 2 0).partState 5 = 2) ∧
    (5 < 64 ∧ 2 ^ 63 + 2 ^ 62 + 0 < 2 ^ 64 ∧ (compS 7).on (Reg.PART_COMP_STAT.armed 5) = false ∧ ((compS 7).liveEpoch 5 = 0 ∨ (compS 7).rd
    (Reg.PART_COMP_STAT.live_slot 5) ≠ bits (2 ^ 63 + 2 ^ 62 + 0) 63 1) ∧ ((compS 7).tickNum + 32 ≤ if bits (2 ^ 63 + 2 ^ 62 + 0) 0 48 = 0 then
    (compS 7).tickNum + 32 else bits (2 ^ 63 + 2 ^ 62 + 0) 0 48) ∧ (compS 7).compImage ((compS 7).rd (Reg.PART_COMP_BASE.base 5 (bits (2 ^ 63 + 2 ^
    62 + 0) 63 1))) = some (8, compL) ∧ (compS 7).liveEpoch 5 < 8 ∧ ((compS 7).on (Reg.PART_COMP_STAT.draining 5) = false ∨ bit (2 ^ 63 + 2 ^ 62 + 0)
    62 = true)) ∧
    (5 < 64 ∧ (withRegs (compS 7) [(Reg.PART_COMP_STAT.armed 5, 1)]).on (Reg.PART_COMP_STAT.armed 5) = true) ∧
    (5 < 64 ∧ drainS.on (Reg.PART_COMP_STAT.draining 5) = true) ∧
    (5 < 64 ∧ meterS.on Reg.PART_METER_CFG.enable = true ∧ 0 < meterS.rd Reg.PART_METER_CFG.period_ms ∧ 4 ≤ meterS.rd Reg.PART_METER_CFG.log2_entries
    ∧ meterS.rd Reg.PART_METER_CFG.log2_entries ≤ 16 ∧ meterS.mgrPasid = some 9 ∧ meterS.hostUp = true ∧ meterS.partState 5 ≠ 0 ∧ (∀ (j : Nat), j <
    64 → j ≠ 5 → meterS.partState j = 0) ∧ meterS.on (Reg.PART_CFG.meter_time 5) = false ∧ meterS.rd Reg.PART_METER_RING.iova + 128 * 2 ^ 16 < 2 ^
    64) ∧
    (5 < 64 ∧ bits (3 * 256 + 127) 0 7 < unitsOf (bits (3 * 256 + 127) 8 3) ∧ (¬(bits (3 * 256 + 127) 8 3, bits (3 * 256 + 127) 0 7) ∈ (fenceS [(1,
    3)]).flt.pendFence)) ∧
    (5 < 64 ∧ 127 < unitsOf 3 ∧ (¬(3, 127) ∈ (fenceS [(1, 3)]).flt.pendFence) ∧ 3 ≤ (NMap.get [] (fenceS [(1, 3)]).flt.counted (3 * 256 +
    127)).length) ∧
    (5 < 64 ∧ (NMap.get [] (fenceS []).flt.counted (4 * 256 + 7)).length < 3) ∧
    (5 < 64 ∧ ((fenceS [(6, 9)]).on Reg.TICK_STAT.running = false ∧ (fenceS [(6, 9)]).tick.ops = [] ∧ (fenceS [(6, 9)]).validCells = [] ∧ ∀ (j :
    Nat), j < 64 → (fenceS [(6, 9)]).rd (Reg.PART_STAT.held j) = 0) ∧ (fenceS [(6, 9)]).part.ops = [] ∧ 9 < 10 ∧ (fenceS [(6, 9)]).flt.pendFence =
    [(6, 9)] ∧ (fenceS [(6, 9)]).colFenced 9 = false) :=
  by and_intros <;> decide +kernel

/-! ### Scribes and FEC engines -/

def nat (l : List (Nat × Nat)) : Nat := l.foldl (fun a e => a + e.2 * 2 ^ e.1) 0
/-- A data instruction: opcode, destination, sources, conjugate, imm8, the X and Y fields. -/
def scW (op d s1 s2 cj imm x y : Nat) : Nat := nat [(58, op), (56, d), (53, s1), (50, s2), (49, cj), (40, imm), (20, x), (0, y)]
/-- A move field: kind, pointer, update, register, raw. -/
def mvF (kind k upd reg raw : Nat) : Nat := nat [(18, kind), (15, k), (12, upd), (9, reg), (8, raw)]
def parts16 (f : Nat → Int) : Nat := packParts 16 ((List.range 64).map f)
def scribeA : Scribe :=
  { slot := 0, d := descR, pc := 100, r := [(0, parts16 (fun j => 500 * (j : Int) - 16000)), (1, parts16 (fun j => 32767 - 1000 * (j : Int))), (2, parts16 (fun _ => -32768)),
      (3, parts16 (fun j => (j : Int))), (4, parts16 (fun j => 7 * (j : Int))), (5, parts16 (fun _ => 12345)), (6, parts16 (fun j => 3 - (j : Int))), (7, parts16 (fun _ => 1))],
    acc := [(0, packParts 40 ((List.range 64).map (fun (j : Nat) => 549755813887 - 8000000000 * (j : Int)))), (1, packParts 40 ((List.range 64).map (fun (j : Nat) => 98304 * (j : Int) + 16384)))],
    a := [(0, 0x1000), (1, 0x2000), (2, 0x3FFE0), (4, 0x2000)], m := [(2, 0x10000 + 3)], n := [(0, 0x3FFFF), (1, 5), (3, 128)], sr := 15, loops := [], org := [(2, 0x3FFE0)], cnt := [],
    seq1 := 1, seq2 := 0x1234567, xfers := [], hold := .free }
/-- n bytes from address a on. -/
def bytesAt (a n : Nat) (f : Nat → Nat) : Mem := ((List.range n).map (fun i => (a + i, BitVec.ofNat 8 (f i)))).filter (fun e => decide (e.2 ≠ 0))
/-- Scribe 70, of partition 1 with cell 9, runs instruction w; its memories hold some bytes. -/
def scAt (c : Scribe) (w : Nat) : State :=
  let s := withRegs srvS [(Reg.RAD_SCRIBE_OWN.valid 70, 1), (Reg.RAD_SCRIBE_OWN.partition 70, 1), (Reg.RAD_CELL_CFG.valid 9, 1), (Reg.RAD_CELL_CFG.tile 9, 1),
    (Reg.RAD_CELL_CFG.partition 9, 1), (Reg.BLT_RXQ_CFG.kind 4101, 1), (Reg.BLT_RXQ_CFG.owner 4101, 9), (Reg.PART_SEM_OWN.valid 0 2, 1), (Reg.PART_SEM_OWN.partition 0 2, 1)]
  { s with rad := { s.rad with scribes := [(3, scribeA), (70, c)], prog := Mem.wrBytes [] (70 * 131072 + 8 * c.pc) (leBytes w 8),
                               xy := bytesAt (xyKey 70 0 0) 64 (fun i => 5 * i) ++ bytesAt (xyKey 70 0 0x1000) 130 (fun i => 3 * i % 256) ++
                                 bytesAt (xyKey 70 0 0x3FFE0) 32 (fun i => 200 + i) ++ bytesAt (xyKey 70 1 0x2000) 130 (fun i => 255 - i) } }
def scS (w : Nat) : State := scAt scribeA w
def xfD (kind y loc len : Nat) (l : List (Nat × Nat)) : Nat := nat ([(0, kind), (4, y), (16, loc), (64, len)] ++ l)
def xfS (r : Nat) : State :=
  let s := scS (nat [(58, 0x38), (55, 0)])
  { s with rad := { s.rad with xy := Mem.wrBytes [] (xyKey 70 0 0x1000) (leBytes r 32) } }
def rxP : RxPkt := ⟨4, 1, 0x123456789AB, 7, 0x1234, [1, 2, 3, 4, 5, 6, 7, 8, 9, 10, 11, 12, 0xAE, 0xFE], (List.range 60).map (fun i => 2 * i), 78, 4⟩
def xfRx : State := { xfS (xfD 0 1 0x400 100 [(96, 5)]) with eth := { State.reset.eth with rxq := [(4101, [rxP, { rxP with id := 9 }])] } }
def laterX (x : Xfer) : Xfer := { x with at_ := 32 }
def withX (c : Scribe) (x : Xfer) : Scribe := { c with xfers := [x, laterX x] }
def xfA (r : Nat) (p : Option RxPkt) : Xfer := ⟨r, 0x1000, 1, 8, p, false, 0⟩
def scExit (c : Scribe) : State := { scAt c (nat [(58, 0x3F)]) with tick := { State.reset.tick with prog := [(9, [slotOf descR .running])] } }

/-- A FEC command of Scribe 70's list at Y address 0x8000: operation, and further fields; source and destination on Scribe 70, result on it. -/
def fecC (op : Nat) (l : List (Nat × Nat)) : Nat :=
  nat ([(0, op), (8, 0x5A), (16, 6), (22, 0), (24, 0x1000), (42, 6), (48, 0), (50, 0x6000), (68, 6), (74, 1), (76, 0x9000)] ++ l)
def fecL : List (Nat × List (Nat × Nat)) :=
  [(1, [(257, 4), (266, 5), (274, 2), (308, 64), (332, 7), (336, 1), (278, 40)]), (2, [(256, 40), (274, 2), (308, 64), (332, 7), (336, 1), (278, 40)]),
   (3, [(257, 4), (266, 5), (274, 2), (308, 64)]), (4, [(256, 6), (260, 20), (270, 2), (308, 64), (336, 1)]), (5, [(256, 40), (308, 64), (336, 1)])]
def fecF (n : Nat) : Fec := ⟨0, { descR with raw := descR.raw + nat [(160, 0x8000), (178, 6), (184, n)] }, 0⟩
def fecAt (en n c : Nat) : State :=
  let s := scS 0
  { s with rad := { s.rad with fec := [(4 + en, fecF n)], xy := Mem.wrBytes [] (xyKey 70 1 0x8000) (leBytes c 64) } }
def rxRest : List RxPkt := [{ rxP with id := 9 }]
def scribeL : Scribe := { scribeA with loops := [(3, 90, 100), (4, 80, 110)] }
def scribeM : Scribe := { scribeA with loops := [(3, 90, 130), (4, 80, 140)] }

/-- A state and operands that meet the hypotheses of each clause of ScribeArithmetic. -/
theorem witness_ScribeArithmetic :
    (∀ e ∈ [(0, 0, 0, 0), (1, 1, 2, 0), (2, 1, 2, 0), (3, 1, 2, 0), (4, 1, 2, 0), (5, 1, 2, 0), (6, 1, 2, 7), (7, 1, 2, 0), (8, 1, 2, 0), (9, 1, 2,
    0), (10, 1, 2, 0), (11, 1, 2, 1), (12, 1, 2, 59), (13, 1, 2, 0), (14, 1, 2, 0), (15, 1, 2, 0), (29, 1, 2, 0), (30, 1, 2, 0), (16, 1, 2, 2), (17,
    1, 2, 1), (18, 1, 2, 1), (19, 1, 2, 1)], ScribeAt (scS (scW e.1 e.2.1 e.2.1 e.2.2.1 e.2.1 e.2.2.2 0 0)) 70 scribeA e.1 (scW e.1 e.2.1 e.2.1
    e.2.2.1 e.2.1 e.2.2.2 0 0) ∧ NoMoves (scW e.1 e.2.1 e.2.1 e.2.2.1 e.2.1 e.2.2.2 0 0)) ∧
    (ScribeAt (scS (scW 23 1 1 2 1 69 0 0)) 70 scribeA 23 (scW 23 1 1 2 1 69 0 0) ∧ NoMoves (scW 23 1 1 2 1 69 0 0) ∧ uImm (scW 23 1 1 2 1 69 0 0) %
    8 < 6) ∧
    (ScribeAt (scS (scW 25 1 1 2 1 6 0 0)) 70 scribeA 25 (scW 25 1 1 2 1 6 0 0) ∧ NoMoves (scW 25 1 1 2 1 6 0 0) ∧ uImm (scW 25 1 1 2 1 6 0 0) % 16 ∈
    [1, 2, 4, 6, 8, 10]) :=
  ⟨(by simp only [List.forall_mem_cons]; and_intros <;> first | decide +kernel | exact issues_of (by decide +kernel) | (constructor <;> first | decide +kernel | (unfold Routable; decide +kernel)) | exact List.forall_mem_nil _ | (unfold Guarded; decide +kernel) | (unfold Routable; decide +kernel)),
    ⟨(by constructor <;> decide +kernel), (by unfold NoMoves; decide +kernel), (by decide +kernel)⟩,
    ⟨(by constructor <;> decide +kernel), (by unfold NoMoves; decide +kernel), (by decide +kernel)⟩⟩

/-- A state and operands that meet the hypotheses of each clause of ScribeTransforms. -/
theorem witness_ScribeTransforms :
    (ScribeAt (scS (scW 0 0 0 0 0 0 (mvF 1 0 1 2 0) 0)) 70 scribeA 0 (scW 0 0 0 0 0 0 (mvF 1 0 1 2 0) 0) ∧ bit (scW 0 0 0 0 0 0 (mvF 1 0 1 2 0) 0) 48
    = false ∧ (mvKind (uX (scW 0 0 0 0 0 0 (mvF 1 0 1 2 0) 0)) = 1 ∨ mvKind (uX (scW 0 0 0 0 0 0 (mvF 1 0 1 2 0) 0)) = 3) ∧ (scS (scW 0 0 0 0 0 0
    (mvF 1 0 1 2 0) 0)).mvFault 70 0 scribeA (uX (scW 0 0 0 0 0 0 (mvF 1 0 1 2 0) 0)) = 0 ∧ mvKind (uY (scW 0 0 0 0 0 0 (mvF 1 0 1 2 0) 0)) = 0 ∧
    bits (uY (scW 0 0 0 0 0 0 (mvF 1 0 1 2 0) 0)) 0 8 = 0) ∧
    (ScribeAt (scS (scW 0 0 0 0 0 0 0 (mvF 2 1 1 1 0))) 70 scribeA 0 (scW 0 0 0 0 0 0 0 (mvF 2 1 1 1 0)) ∧ bit (scW 0 0 0 0 0 0 0 (mvF 2 1 1 1 0)) 48
    = false ∧ mvKind (uY (scW 0 0 0 0 0 0 0 (mvF 2 1 1 1 0))) = 2 ∧ (scS (scW 0 0 0 0 0 0 0 (mvF 2 1 1 1 0))).mvFault 70 1 scribeA (uY (scW 0 0 0 0 0
    0 0 (mvF 2 1 1 1 0))) = 0 ∧ mvKind (uX (scW 0 0 0 0 0 0 0 (mvF 2 1 1 1 0))) = 0 ∧ bits (uX (scW 0 0 0 0 0 0 0 (mvF 2 1 1 1 0))) 0 8 = 0) ∧
    (ScribeAt (scS (scW 20 1 2 0 0 0 0 0)) 70 scribeA 20 (scW 20 1 2 0 0 0 0 0) ∧ NoMoves (scW 20 1 2 0 0 0 0 0)) ∧
    (ScribeAt (scS (scW 21 1 5 0 0 0 0 0)) 70 scribeA 21 (scW 21 1 5 0 0 0 0 0) ∧ NoMoves (scW 21 1 5 0 0 0 0 0) ∧ uS1 (scW 21 1 5 0 0 0 0 0) ∈ [0,
    1, 4, 5]) ∧
    (ScribeAt (scS (scW 22 1 4 0 0 0 0 0)) 70 scribeA 22 (scW 22 1 4 0 0 0 0 0) ∧ NoMoves (scW 22 1 4 0 0 0 0 0) ∧ uS1 (scW 22 1 4 0 0 0 0 0) ∈ [0,
    4]) ∧
    (ScribeAt (scS (scW 24 2 0 0 0 0 0 0)) 70 scribeA 24 (scW 24 2 0 0 0 0 0 0) ∧ NoMoves (scW 24 2 0 0 0 0 0 0)) ∧
    (ScribeAt (scS (scW 26 0 0 5 0 20 0 0)) 70 scribeA 26 (scW 26 0 0 5 0 20 0 0) ∧ NoMoves (scW 26 0 0 5 0 20 0 0) ∧ uImm (scW 26 0 0 5 0 20 0 0) %
    16 ∈ [1, 2, 4, 6, 8] ∧ 1 = uImm (scW 26 0 0 5 0 20 0 0) / 16 % 8 ∧ patBad (scribeA.pm 1) = false ∧ scribeA.past 1 (scribeA.place 1 ↑(scribeA.ak
    1)) (32 * (uImm (scW 26 0 0 5 0 20 0 0) % 16)) = false ∧ (patKind (scribeA.pm 1) = 1 → 32 * (uImm (scW 26 0 0 5 0 20 0 0) % 16) ≤ ringLen
    (scribeA.pm 1))) ∧
    (ScribeAt (scS (scW 27 2 0 0 0 8 0 0)) 70 scribeA 27 (scW 27 2 0 0 0 8 0 0) ∧ NoMoves (scW 27 2 0 0 0 8 0 0) ∧ 0 = uImm (scW 27 2 0 0 0 8 0 0) /
    32 ∧ patBad (scribeA.pm 0) = false ∧ scribeA.past 0 (scribeA.place 0 ↑(scribeA.ak 0)) (2 * bfpBytes (uImm (scW 27 2 0 0 0 8 0 0))) = false ∧ (∀
    (i : Nat), i ∈ scribeA.span 0 (↑(scribeA.place 0 ↑(scribeA.ak 0))) (2 * bfpBytes (uImm (scW 27 2 0 0 0 8 0 0))) → (scS (scW 27 2 0 0 0 8 0
    0)).xyBad 70 0 i 1 = false)) ∧
    (ScribeAt (scS (scW 28 0 1 0 0 40 0 0)) 70 scribeA 28 (scW 28 0 1 0 0 40 0 0) ∧ NoMoves (scW 28 0 1 0 0 40 0 0) ∧ 1 = uImm (scW 28 0 1 0 0 40 0
    0) / 32 ∧ patBad (scribeA.pm 1) = false ∧ scribeA.past 1 (scribeA.place 1 ↑(scribeA.ak 1)) (2 * bfpBytes (uImm (scW 28 0 1 0 0 40 0 0))) = false) :=
  ⟨⟨(by constructor <;> decide +kernel), (by decide +kernel)⟩,
    ⟨(by constructor <;> decide +kernel), (by decide +kernel)⟩,
    ⟨(by constructor <;> decide +kernel), (by unfold NoMoves; decide +kernel)⟩,
    ⟨(by constructor <;> decide +kernel), (by unfold NoMoves; decide +kernel), (by decide +kernel)⟩,
    ⟨(by constructor <;> decide +kernel), (by unfold NoMoves; decide +kernel), (by decide +kernel)⟩,
    ⟨(by constructor <;> decide +kernel), (by unfold NoMoves; decide +kernel)⟩,
    ⟨(by constructor <;> decide +kernel), (by unfold NoMoves; decide +kernel), (by decide +kernel)⟩,
    ⟨(by constructor <;> decide +kernel), (by unfold NoMoves; decide +kernel), (by decide +kernel)⟩,
    ⟨(by constructor <;> decide +kernel), (by unfold NoMoves; decide +kernel), (by decide +kernel)⟩⟩

/-- A state and operands that meet the hypotheses of each clause of ScribeControl. -/
theorem witness_ScribeControl_1 :
    (ScribeAt (scAt scribeA (nat [(58, 48), (0, 200)])) 70 scribeA 48 (nat [(58, 48), (0, 200)]) ∧ ctlOk (nat [(58, 48), (0, 200)]) (msk 57 1 + msk
    53 3 + msk 37 16 + msk 0 14) = true ∧ ((if bit (nat [(58, 48), (0, 200)]) 57 = true then scribeA.nk (bits (nat [(58, 48), (0, 200)]) 53 3) else
    bits (nat [(58, 48), (0, 200)]) 37 16) = 0) ∧ (∀ (l : Nat × Nat × Nat), l ∈ scribeA.loops → l.snd.snd ≠ bits (nat [(58, 48), (0, 200)]) 0 14)) ∧
    (ScribeAt (scAt scribeA (nat [(58, 48), (57, 1), (53, 1), (0, 200)])) 70 scribeA 48 (nat [(58, 48), (57, 1), (53, 1), (0, 200)]) ∧ ctlOk (nat
    [(58, 48), (57, 1), (53, 1), (0, 200)]) (msk 57 1 + msk 53 3 + msk 37 16 + msk 0 14) = true ∧ ((if bit (nat [(58, 48), (57, 1), (53, 1), (0,
    200)]) 57 = true then scribeA.nk (bits (nat [(58, 48), (57, 1), (53, 1), (0, 200)]) 53 3) else bits (nat [(58, 48), (57, 1), (53, 1), (0, 200)])
    37 16) ≠ 0) ∧ scribeA.loops.length < 4) ∧
    (ScribeAt (scAt scribeM (nat [(58, 48), (0, 130)])) 70 scribeM 48 (nat [(58, 48), (0, 130)]) ∧ ctlOk (nat [(58, 48), (0, 130)]) (msk 57 1 + msk
    53 3 + msk 37 16 + msk 0 14) = true ∧ ((if bit (nat [(58, 48), (0, 130)]) 57 = true then scribeM.nk (bits (nat [(58, 48), (0, 130)]) 53 3) else
    bits (nat [(58, 48), (0, 130)]) 37 16) = 0) ∧ scribeM.loops = [(3, 90, bits (nat [(58, 48), (0, 130)]) 0 14), (4, 80, 140)] ∧ 1 < 3) ∧
    (ScribeAt (scAt scribeA (nat [(58, 49), (55, 3), (52, 0), (0, 300)])) 70 scribeA 49 (nat [(58, 49), (55, 3), (52, 0), (0, 300)]) ∧ ctlOk (nat [(58, 49), (55, 3), (52, 0), (0, 300)]) (msk 55 3 + msk 52 3 + msk 0 14) = true ∧ bits (nat [(58, 49), (55, 3), (52, 0), (0, 300)]) 55 3 < 6 ∧ ((match bits (nat [(58, 49), (55, 3), (52, 0), (0, 300)]) 55 3 with | 0 => true | 1 => decide (scribeA.ni (bits (nat [(58, 49), (55, 3), (52, 0), (0, 300)]) 52 3) = 0) | 2 => decide (scribeA.ni (bits (nat [(58, 49), (55, 3), (52, 0), (0, 300)]) 52 3) ≠ 0) | 3 => decide (scribeA.ni (bits (nat [(58, 49), (55, 3), (52, 0), (0, 300)]) 52 3) < 0) | 4 => decide (0 ≤ scribeA.ni (bits (nat [(58, 49), (55, 3), (52, 0), (0, 300)]) 52 3)) | x => scribeA.ovf) = true)) ∧
    (ScribeAt (scAt scribeA (nat [(58, 49), (55, 1), (52, 0), (0, 300)])) 70 scribeA 49 (nat [(58, 49), (55, 1), (52, 0), (0, 300)]) ∧ ctlOk (nat [(58, 49), (55, 1), (52, 0), (0, 300)]) (msk 55 3 + msk 52 3 + msk 0 14) = true ∧ bits (nat [(58, 49), (55, 1), (52, 0), (0, 300)]) 55 3 < 6 ∧ ((match bits (nat [(58, 49), (55, 1), (52, 0), (0, 300)]) 55 3 with | 0 => true | 1 => decide (scribeA.ni (bits (nat [(58, 49), (55, 1), (52, 0), (0, 300)]) 52 3) = 0) | 2 => decide (scribeA.ni (bits (nat [(58, 49), (55, 1), (52, 0), (0, 300)]) 52 3) ≠ 0) | 3 => decide (scribeA.ni (bits (nat [(58, 49), (55, 1), (52, 0), (0, 300)]) 52 3) < 0) | 4 => decide (0 ≤ scribeA.ni (bits (nat [(58, 49), (55, 1), (52, 0), (0, 300)]) 52 3)) | x => scribeA.ovf) = false)) ∧
    (ScribeAt (scAt scribeA (nat [(58, 50), (55, 1), (50, 1), (0, 262128)])) 70 scribeA 50 (nat [(58, 50), (55, 1), (50, 1), (0, 262128)]) ∧ ctlOk
    (nat [(58, 50), (55, 1), (50, 1), (0, 262128)]) (msk 55 3 + msk 52 3 + msk 51 1 + msk 50 1 + msk 0 18) = true ∧ bit (nat [(58, 50), (55, 1), (50,
    1), (0, 262128)]) 50 = true) ∧
    (ScribeAt (scAt scribeA (nat [(58, 50), (55, 2), (51, 1), (0, 100)])) 70 scribeA 50 (nat [(58, 50), (55, 2), (51, 1), (0, 100)]) ∧ ctlOk (nat
    [(58, 50), (55, 2), (51, 1), (0, 100)]) (msk 55 3 + msk 52 3 + msk 51 1 + msk 50 1 + msk 0 18) = true ∧ bit (nat [(58, 50), (55, 2), (51, 1), (0,
    100)]) 50 = false ∧ patBad (scribeA.pm (bits (nat [(58, 50), (55, 2), (51, 1), (0, 100)]) 55 3)) = false) ∧
    (ScribeAt (scAt scribeA (nat [(58, 51), (56, 0), (53, 6), (0, 175053)])) 70 scribeA 51 (nat [(58, 51), (56, 0), (53, 6), (0, 175053)]) ∧ ctlOk
    (nat [(58, 51), (56, 0), (53, 6), (0, 175053)]) (msk 56 2 + msk 53 3 + msk 0 18) = true) ∧
    (ScribeAt (scAt scribeA (nat [(58, 52), (56, 1), (53, 6), (51, 2), (48, 3)])) 70 scribeA 52 (nat [(58, 52), (56, 1), (53, 6), (51, 2), (48, 3)])
    ∧ ctlOk (nat [(58, 52), (56, 1), (53, 6), (51, 2), (48, 3)]) (msk 48 10) = true) ∧
    (ScribeAt (scAt scribeA (nat [(58, 53), (56, 2), (53, 6), (50, 0)])) 70 scribeA 53 (nat [(58, 53), (56, 2), (53, 6), (50, 0)]) ∧ ctlOk (nat [(58,
    53), (56, 2), (53, 6), (50, 0)]) (msk 50 8) = true ∧ (scAt scribeA (nat [(58, 53), (56, 2), (53, 6), (50, 0)])).xElem 70 scribeA (bits (nat [(58,
    53), (56, 2), (53, 6), (50, 0)]) 50 3) = (151388928, 0)) ∧
    (ScribeAt (scAt scribeA (nat [(58, 54), (55, 0)])) 70 scribeA 54 (nat [(58, 54), (55, 0)]) ∧ ctlOk (nat [(58, 54), (55, 0)]) (msk 55 3) = true ∧
    (scAt scribeA (nat [(58, 54), (55, 0)])).xElem 70 scribeA (bits (nat [(58, 54), (55, 0)]) 55 3) = (151388928, 0)) ∧
    (ScribeAt (scAt scribeA (nat [(58, 55), (55, 1)])) 70 scribeA 55 (nat [(58, 55), (55, 1)]) ∧ ctlOk (nat [(58, 55), (55, 1)]) (msk 55 3) = true) :=
  ⟨⟨(by constructor <;> decide +kernel), (by decide +kernel)⟩,
    ⟨(by constructor <;> decide +kernel), (by decide +kernel)⟩,
    ⟨(by constructor <;> decide +kernel), (by decide +kernel)⟩,
    ⟨(by constructor <;> decide +kernel), (by decide +kernel)⟩,
    ⟨(by constructor <;> decide +kernel), (by decide +kernel)⟩,
    ⟨(by constructor <;> decide +kernel), (by decide +kernel)⟩,
    ⟨(by constructor <;> decide +kernel), (by decide +kernel)⟩,
    ⟨(by constructor <;> decide +kernel), (by decide +kernel)⟩,
    ⟨(by constructor <;> decide +kernel), (by decide +kernel)⟩,
    ⟨(by constructor <;> decide +kernel), (by decide +kernel)⟩,
    ⟨(by constructor <;> decide +kernel), (by decide +kernel)⟩,
    ⟨(by constructor <;> decide +kernel), (by decide +kernel)⟩⟩

/-- A state and operands that meet the hypotheses of each clause of ScribeControl. -/
theorem witness_ScribeControl_2 :
    (ScribeAt (xfS (xfD 2 0 1024 100 [(96, 32768)])) 70 scribeA 56 (nat [(58, 56), (55, 0)]) ∧ ctlOk (nat [(58, 56), (55, 0)]) (msk 55 3) = true ∧ 0
    = bits (nat [(58, 56), (55, 0)]) 55 3 ∧ 4096 = scribeA.place 0 ↑(scribeA.ak 0) ∧ xfD 2 0 1024 100 [(96, 32768)] = Mem.rdN (xfS (xfD 2 0 1024 100
    [(96, 32768)])).rad.xy (xyKey 70 0 4096) 32 ∧ patBad (scribeA.pm 0) = false ∧ 4096 % 32 = 0 ∧ (xfS (xfD 2 0 1024 100 [(96, 32768)])).xyBad 70 0
    4096 32 = false ∧ scribeA.xfers.length < 16 ∧ (xfS (xfD 2 0 1024 100 [(96, 32768)])).xferBad 70 scribeA.d.part (xfD 2 0 1024 100 [(96, 32768)]) =
    false ∧ (bits (xfD 2 0 1024 100 [(96, 32768)]) 0 4 = 1 ∨ bits (xfD 2 0 1024 100 [(96, 32768)]) 0 4 = 2 ∨ bits (xfD 2 0 1024 100 [(96, 32768)]) 0
    4 = 3 ∨ bits (xfD 2 0 1024 100 [(96, 32768)]) 0 4 = 7) ∧ bits (xfD 2 0 1024 100 [(96, 32768)]) 64 32 ≠ 0) ∧
    (ScribeAt xfRx 70 scribeA 56 (nat [(58, 56), (55, 0)]) ∧ ctlOk (nat [(58, 56), (55, 0)]) (msk 55 3) = true ∧ 0 = bits (nat [(58, 56), (55, 0)])
    55 3 ∧ 4096 = scribeA.place 0 ↑(scribeA.ak 0) ∧ xfD 0 1 1024 100 [(96, 5)] = Mem.rdN xfRx.rad.xy (xyKey 70 0 4096) 32 ∧ patBad (scribeA.pm 0) =
    false ∧ 4096 % 32 = 0 ∧ xfRx.xyBad 70 0 4096 32 = false ∧ scribeA.xfers.length < 16 ∧ xfRx.xferBad 70 scribeA.d.part (xfD 0 1 1024 100 [(96, 5)])
    = false ∧ bits (xfD 0 1 1024 100 [(96, 5)]) 0 4 = 0 ∧ xfRx.rxq (4096 * (70 / 64) + bits (xfD 0 1 1024 100 [(96, 5)]) 96 16) = rxP :: rxRest ∧ 16
    + rxP.body.length ≤ bits (xfD 0 1 1024 100 [(96, 5)]) 64 32 ∧ xfRx.laterXfers 70 (4096 * (70 / 64) + bits (xfD 0 1 1024 100 [(96, 5)]) 96 16) =
    []) ∧
    (ScribeAt (scAt scribeA (nat [(58, 57), (53, 0)])) 70 scribeA 57 (nat [(58, 57), (53, 0)]) ∧ ctlOk (nat [(58, 57), (53, 0)]) (msk 53 5) = true) ∧
    (ScribeAt (scAt scribeA (nat [(58, 58), (44, 64), (28, 3)])) 70 scribeA 58 (nat [(58, 58), (44, 64), (28, 3)]) ∧ ctlOk (nat [(58, 58), (44, 64),
    (28, 3)]) (msk 28 30) = true ∧ 64 = bits (nat [(58, 58), (44, 64), (28, 3)]) 44 14 ∧ (scAt scribeA (nat [(58, 58), (44, 64), (28, 3)])).semOwned
    64 scribeA.d.part = true ∧ (scAt scribeA (nat [(58, 58), (44, 64), (28, 3)])).semWaiters 64 = []) ∧
    (ScribeAt (scAt scribeA (nat [(58, 59), (44, 64)])) 70 scribeA 59 (nat [(58, 59), (44, 64)]) ∧ ctlOk (nat [(58, 59), (44, 64)]) (msk 44 14) =
    true ∧ 64 = bits (nat [(58, 59), (44, 64)]) 44 14 ∧ (scAt scribeA (nat [(58, 59), (44, 64)])).semOwned 64 scribeA.d.part = true) ∧
    (ScribeAt (scAt (withX scribeA (xfA (xfD 2 0 1024 100 [(96, 32768)]) none)) (nat [(58, 63)])) 70 (withX scribeA (xfA (xfD 2 0 1024 100 [(96,
    32768)]) none)) 63 (nat [(58, 63)]) ∧ ctlOk (nat [(58, 63)]) 0 = true ∧ (withX scribeA (xfA (xfD 2 0 1024 100 [(96, 32768)]) none)).xfers ≠ []) ∧
    (ScribeAt (scExit scribeA) 70 scribeA 63 (nat [(58, 63)]) ∧ ctlOk (nat [(58, 63)]) 0 = true ∧ scribeA.xfers = [] ∧ scribeA.d.postEn = false ∧
    (scExit scribeA).slotAt (8 + 70 / 64) scribeA.slot = some (slotOf descR Phase.running)) ∧
    (ScribeAt (scAt (withX scribeA (xfA (xfD 2 1 1024 100 [(96, 32768)]) none)) (nat [(58, 0)])) 70 (withX scribeA (xfA (xfD 2 1 1024 100 [(96,
    32768)]) none)) 0 (nat [(58, 0)]) ∧ (withX scribeA (xfA (xfD 2 1 1024 100 [(96, 32768)]) none)).xfers = [xfA (xfD 2 1 1024 100 [(96, 32768)])
    none, laterX (xfA (xfD 2 1 1024 100 [(96, 32768)]) none)] ∧ (xfA (xfD 2 1 1024 100 [(96, 32768)]) none).rewound = false ∧ (scAt (withX scribeA
    (xfA (xfD 2 1 1024 100 [(96, 32768)]) none)) (nat [(58, 0)])).mesh.failed = [] ∧ bits (xfA (xfD 2 1 1024 100 [(96, 32768)]) none).raw 0 4 = 2 ∧
    (scAt (withX scribeA (xfA (xfD 2 1 1024 100 [(96, 32768)]) none)) (nat [(58, 0)])).permit (xfA (xfD 2 1 1024 100 [(96, 32768)]) none).part (bits
    (xfA (xfD 2 1 1024 100 [(96, 32768)]) none).raw 96 48) (bits (xfA (xfD 2 1 1024 100 [(96, 32768)]) none).raw 64 32) = true ∧ bits (xfA (xfD 2 1
    1024 100 [(96, 32768)]) none).raw 16 18 + bits (xfA (xfD 2 1 1024 100 [(96, 32768)]) none).raw 64 32 ≤ 262144 ∧ (∀ (i : Nat), i < cdiv (bits (xfA
    (xfD 2 1 1024 100 [(96, 32768)]) none).raw 64 32) 64 → (scAt (withX scribeA (xfA (xfD 2 1 1024 100 [(96, 32768)]) none)) (nat [(58,
    0)])).rangeBad (bits (xfA (xfD 2 1 1024 100 [(96, 32768)]) none).raw 96 48 + 64 * i) (min 64 (bits (xfA (xfD 2 1 1024 100 [(96, 32768)])
    none).raw 64 32 - 64 * i)) = false)) ∧
    (ScribeAt (scAt (withX scribeA (xfA (xfD 3 1 8192 100 [(96, 32768)]) none)) (nat [(58, 0)])) 70 (withX scribeA (xfA (xfD 3 1 8192 100 [(96,
    32768)]) none)) 0 (nat [(58, 0)]) ∧ Live (scAt (withX scribeA (xfA (xfD 3 1 8192 100 [(96, 32768)]) none)) (nat [(58, 0)])) (bits (xfA (xfD 3 1
    8192 100 [(96, 32768)]) none).raw 96 48) (bits (xfA (xfD 3 1 8192 100 [(96, 32768)]) none).raw 64 32) ∧ (withX scribeA (xfA (xfD 3 1 8192 100
    [(96, 32768)]) none)).xfers = [xfA (xfD 3 1 8192 100 [(96, 32768)]) none, laterX (xfA (xfD 3 1 8192 100 [(96, 32768)]) none)] ∧ (xfA (xfD 3 1
    8192 100 [(96, 32768)]) none).rewound = false ∧ (scAt (withX scribeA (xfA (xfD 3 1 8192 100 [(96, 32768)]) none)) (nat [(58, 0)])).mesh.failed =
    [] ∧ bits (xfA (xfD 3 1 8192 100 [(96, 32768)]) none).raw 0 4 = 3 ∧ (scAt (withX scribeA (xfA (xfD 3 1 8192 100 [(96, 32768)]) none)) (nat [(58,
    0)])).permit (xfA (xfD 3 1 8192 100 [(96, 32768)]) none).part (bits (xfA (xfD 3 1 8192 100 [(96, 32768)]) none).raw 96 48) (bits (xfA (xfD 3 1
    8192 100 [(96, 32768)]) none).raw 64 32) = true ∧ bits (xfA (xfD 3 1 8192 100 [(96, 32768)]) none).raw 96 48 % 64 = 0) ∧
    (ScribeAt (scAt (withX scribeA (xfA (xfD 0 1 1024 100 [(96, 5)]) (some rxP))) (nat [(58, 0)])) 70 (withX scribeA (xfA (xfD 0 1 1024 100 [(96,
    5)]) (some rxP))) 0 (nat [(58, 0)]) ∧ (withX scribeA (xfA (xfD 0 1 1024 100 [(96, 5)]) (some rxP))).xfers = [xfA (xfD 0 1 1024 100 [(96, 5)])
    (some rxP), laterX (xfA (xfD 0 1 1024 100 [(96, 5)]) (some rxP))] ∧ (xfA (xfD 0 1 1024 100 [(96, 5)]) (some rxP)).rewound = false ∧ (scAt (withX
    scribeA (xfA (xfD 0 1 1024 100 [(96, 5)]) (some rxP))) (nat [(58, 0)])).mesh.failed = [] ∧ bits (xfA (xfD 0 1 1024 100 [(96, 5)]) (some rxP)).raw
    0 4 = 0 ∧ (xfA (xfD 0 1 1024 100 [(96, 5)]) (some rxP)).pkt = some rxP ∧ bits (xfA (xfD 0 1 1024 100 [(96, 5)]) (some rxP)).raw 4 1 = 1 ∧ (xfA
    (xfD 0 1 1024 100 [(96, 5)]) (some rxP)).at_ + 12 ≤ 262144 ∧ bits (xfA (xfD 0 1 1024 100 [(96, 5)]) (some rxP)).raw 16 18 + 16 + rxP.body.length
    ≤ 262144) ∧
    (NoMoves 0 ∧ 70 < 128 ∧ (scAt scribeL 0).scribe 70 = some scribeL ∧ scribeL.hold = Hold.free ∧ scribeL.pc < 16384 ∧ (scAt scribeL 0).issueOpen (8
    + 70 / 64) (some scribeL.slot) = true ∧ (scAt scribeL 0).xyBad 70 2 (8 * scribeL.pc) 8 = false ∧ (scAt scribeL 0).scWord 70 scribeL.pc = 0 ∧ bits
    0 58 6 = 0 ∧ scribeL.loops = [(3, 90, scribeL.pc), (4, 80, 110)] ∧ (∀ (l : Nat × Nat × Nat), l ∈ [(4, 80, 110)] → l.snd.snd ≠ scribeL.pc)) :=
  ⟨⟨(by constructor <;> decide +kernel), (by decide +kernel)⟩,
    ⟨(by constructor <;> decide +kernel), (by decide +kernel)⟩,
    ⟨(by constructor <;> decide +kernel), (by decide +kernel)⟩,
    ⟨(by constructor <;> decide +kernel), (by decide +kernel)⟩,
    ⟨(by constructor <;> decide +kernel), (by decide +kernel)⟩,
    ⟨(by constructor <;> decide +kernel), (by decide +kernel)⟩,
    ⟨(by constructor <;> decide +kernel), (by decide +kernel)⟩,
    ⟨(by constructor <;> decide +kernel), (by decide +kernel)⟩,
    ⟨(by constructor <;> decide +kernel), (live_of (by decide +kernel)), (by decide +kernel)⟩,
    ⟨(by constructor <;> decide +kernel), (by decide +kernel)⟩,
    ⟨(by unfold NoMoves; decide +kernel), (by decide +kernel)⟩⟩

/-- No more bits are written than the block has. -/
theorem fecBits_fit (op c : Nat) (h : op ≠ 3 ∧ bits c 50 18 + cdiv (fecBlock op c) 8 ≤ 262144) : bits c 50 18 + cdiv (fecBits op c) 8 ≤ 262144 := by
  unfold cdiv fecBits at *
  rw [if_neg h.1]
  omega

/-- A state and operands that meet the hypotheses of each clause of FecCommands. -/
theorem witness_FecCommands :
    (let s := fecAt 0 2 (fecC 1 (fecL.getD 0 (0, [])).2); let f := fecF 2; let la := fecAddr f.d + 64 * f.next; let lk := 64 * 1 + fecScribe f.d
      let c := Mem.rdN s.rad.xy (xyKey lk 1 la) 64; let op := bits c 0 4; let src := 64 * 1 + bits c 16 6; let dst := 64 * 1 + bits c 42 6
      (s.fec (4 * 1 + 0) = some f ∧ 0 = (if op < 3 then 0 else op - 2) ∧ s.xyBad lk 1 la 64 = false ∧
        (s.scribeOwned (64 * 1 + bits c 68 6) f.d.part = true ∧ bits c 76 18 + 8 ≤ 262144) ∧ f.d.postEn = false ∧ op = 1 ∧ fecValid op c = true ∧
        (s.scribeOwned src f.d.part = true ∧ bits c 24 18 + fecSrcLen op c ≤ 262144) ∧ s.permit f.d.part (bits c 96 48) (fecHarqLen op c) = true ∧
        s.xyBad src (bits c 22 1) (bits c 24 18) (fecSrcLen op c) = false ∧ (bit c 144 = true → s.rangeBad (bits c 96 48) (fecHarqLen op c) = false) ∧
        bits c 308 24 ≠ 0 ∧ s.scribeOwned dst f.d.part = true) ∧ (bits c 50 18 + cdiv (fecBits op c) 8 ≤ 262144)) ∧
    (let s := fecAt 1 1 (fecC 3 [(4, 1)]); let f := fecF 1; let la := fecAddr f.d + 64 * f.next; let lk := 64 * 1 + fecScribe f.d
      let c := Mem.rdN s.rad.xy (xyKey lk 1 la) 64; let op := bits c 0 4; let src := 64 * 1 + bits c 16 6; let dst := 64 * 1 + bits c 42 6
      (s.fec (4 * 1 + 1) = some f ∧ 1 = (if op < 3 then 0 else op - 2) ∧ s.xyBad lk 1 la 64 = false ∧
        (s.scribeOwned (64 * 1 + bits c 68 6) f.d.part = true ∧ bits c 76 18 + 8 ≤ 262144) ∧ f.d.postEn = false ∧ op = 3 ∧ fecValid op c = false)) :=
  ⟨⟨by decide +kernel, fecBits_fit _ _ (by decide +kernel)⟩, by decide +kernel⟩

/-! ### Collectives -/

def colRaw (op rop fmt n : Nat) : Nat :=
  nat [(0, op), (8, rop), (12, fmt), (32, 2), (48, 1), (64, 0x910000), (128, 0x920000), (192, 0x900000), (256, n), (288, 40)]
/-- Rank 0 of packages 0x0102 and 0x0103 in communicator 7, sequence number 3, on base die 4; rank 1 is the root. -/
def collA (op rop fmt n mode : Nat) : Coll :=
  { State.newColl State.reset 4 { inkC [] with raw := colRaw op rop fmt n } with
    started := true, since := 4000, commId := 7, size := 2, rank := 0, seq := 3, members := [0x40102, 0x0103], area := 0x930000, mode := mode, sentTo := [(0, 1)] }
def colKeyA : Nat := 7 * 4096 + 3
def colS (c : Coll) : State :=
  let s := withRegs { msgS with col := { msgS.col with colls := [c] } } [(Reg.COL_ORDER.next_order 1, 40), (Reg.COL_CFG.bound_ms_m1, 9), (Reg.COL_CFG.lease_ms_m1, 99), (Reg.COL_PART_STAT.completed 1, 65535)]
  { s with mem := { s.mem with bytes := Mem.wrBytes s.mem.bytes 0x900000 [1, 2, 3, 4, 255, 255, 255, 255] } }
def colP (kind addr : Nat) (payload : List Nat) : Packet :=
  { packet 0x0A 0x0102 0x0103 addr payload with kind := kind, seq := colKeyA, check := crc32c payload }
def readyLine (c : Coll) : List Nat := leBytes (c.line 0 + 2 ^ 17 - 2 ^ 17 * (c.line 0 / 2 ^ 17 % 2)) 64
def redC : Coll := collA 1 0 0xC 260 2
def exactC : Coll := { collA 1 0 0xA 260 2 with copper := true }
def bcastC : Coll := collA 5 0 0xA 300 3
def waitC : Coll := { collA 1 0 0xC 260 0 with sentTo := [] }
def heldC (n : Nat) : Coll := { collA 1 0 0xA n 3 with copper := true, started := false }
def leasedC : Coll := { collA 1 0 0xC 260 1 with granules := [4, 5], renewAt := 100000, sentTo := [] }
def pay (n : Nat) : List Nat := (List.range n).map (fun i => (7 * i + 1) % 256)
/-- A FINAL to rank 1 that is not acknowledged. -/
def sentP : Packet := { packet 0x0A 0x0103 0x0102 0x920000 (pay 16) with kind := 5, seq := colKeyA }
def resendS : State :=
  let s := colS redC
  { s with fab := { s.fab with out := [⟨colKeyA, 0x0A, 0x0103, 1, 0x0103 * 2 ^ 48 + 0x920000, none, none, false, 5, 0, 0, 0, 9, 0, 0, 4000, sentP⟩] } }
def rsvP4 (status mask : Nat) : Packet :=
  { packet 0x84 0x0102 0x0102 0 (leBytes (nat [(0, colKeyA), (128, mask)]) 64) with status := status }
def bcastR : Coll := { bcastC with recv := [(pieceKey 1 0, true)] }
/-- A READY of the collective of redC to rank 1 is unacknowledged. -/
def readyO : RemOp := ⟨redC.key, 0x0A, 0x0103, 1, 0x0103 * 2 ^ 48, none, none, false, 0, 0, 0, 0, 0, 9000000, 0, 3999000, packet 0x0A 0x0103 0x0102 0 []⟩
def readyL : State := { colS redC with fab := { (colS redC).fab with out := [readyO] } }

/-- A state and operands that meet the hypotheses of each clause of CollectivePackets. -/
theorem witness_CollectivePackets :
    (Routable msgS (colP 0 0 (readyLine redC)).src ∧ (colP 0 0 (readyLine redC)).type = 10 ∧ (colP 0 0 (readyLine redC)).kind = 0 ∧ (colP 0 0
    (readyLine redC)).dst = msgS.devId ∧ tooOld (colP 0 0 (readyLine redC)) = false ∧ msgS.domainPart (colP 0 0 (readyLine redC)).domain = some 1 ∧
    msgS.partState 1 = 1 ∧ msgS.coll 1 (colP 0 0 (readyLine redC)).seq = none ∧ ((List.filter (fun (e : Packet) => decide (e.src = (colP 0 0
    (readyLine redC)).src) && decide (e.domain = (colP 0 0 (readyLine redC)).domain) && decide (e.seq / 4096 = (colP 0 0 (readyLine redC)).seq /
    4096)) msgS.col.early).length < 4)) ∧
    (InColl (colS waitC) 0 (colP 0 0 (readyLine waitC)) 1 waitC 1 ∧ waitC.mode = 0 ∧ (leNat (List.take 64 (colP 0 0 (readyLine waitC)).payload)).land
    sigMask = waitC.sig.land sigMask) ∧
    (InColl (colS waitC) 0 (colP 0 0 ((readyLine redC).set 0 2)) 1 waitC 1 ∧ (leNat (List.take 64 (colP 0 0 ((readyLine redC).set 0
    2)).payload)).land sigMask ≠ waitC.sig.land sigMask) ∧
    (InColl (colS redC) 1 (colP 1 9437184 (pay 1024)) 1 redC 1 ∧ Collecting redC ∧ Live (colS redC) (colP 1 9437184 (pay 1024)).addr (colP 1 9437184
    (pay 1024)).payload.length ∧ redC.mode = 2 ∧ redC.copper = false ∧ clOp redC.raw = 1 ∧ crc32c (colP 1 9437184 (pay 1024)).payload = (colP 1
    9437184 (pay 1024)).check ∧ 0 < 256 ∧ 0 < chunksOf (redC.shard redC.rank).snd ∧ (colP 1 9437184 (pay 1024)).addr = clScratch redC.raw + 1024 * 0
    ∧ redC.chunkLen redC.rank 0 * 4 ≤ (colP 1 9437184 (pay 1024)).payload.length ∧ NMap.get false redC.got (0 * 8192 + 2 * 1) = false ∧ (colS
    redC).permit 1 (colP 1 9437184 (pay 1024)).addr (colP 1 9437184 (pay 1024)).payload.length = true) ∧
    (InColl (colS bcastC) 2 (colP 2 9569280 (pay 176)) 1 bcastC 1 ∧ Live (colS bcastC) (colP 2 9569280 (pay 176)).addr (colP 2 9569280 (pay
    176)).payload.length ∧ clOp bcastC.raw = 5 ∧ bcastC.root = false ∧ 1 = clRoot bcastC.raw ∧ crc32c (colP 2 9569280 (pay 176)).payload = (colP 2
    9569280 (pay 176)).check ∧ 1 < chunksOf (clCount bcastC.raw) ∧ bcastC.ready = [] ∧ bcastC.mode = 3 ∧ NMap.get false bcastC.recv (pieceKey 1 1) =
    false ∧ (colP 2 9569280 (pay 176)).addr = (bcastC.pieceAt 1 1).fst ∧ (colP 2 9569280 (pay 176)).payload.length = (bcastC.pieceAt 1 1).snd ∧ 0 <
    clCount bcastC.raw ∧ (colS bcastC).permit 1 (colP 2 9569280 (pay 176)).addr (colP 2 9569280 (pay 176)).payload.length = true ∧ (∃ (j : Nat), j <
    chunksOf (clCount bcastC.raw) ∧ j ≠ 1 ∧ NMap.get false bcastC.recv (pieceKey 1 j) = false)) ∧
    (InColl (colS bcastR) 2 (colP 2 9569280 (pay 176)) 1 bcastR 1 ∧ Live (colS bcastR) (colP 2 9569280 (pay 176)).addr (colP 2 9569280 (pay
    176)).payload.length ∧ clOp bcastR.raw = 5 ∧ bcastR.root = false ∧ 1 = clRoot bcastR.raw ∧ crc32c (colP 2 9569280 (pay 176)).payload = (colP 2
    9569280 (pay 176)).check ∧ 1 < chunksOf (clCount bcastR.raw) ∧ bcastR.ready = [] ∧ bcastR.mode = 3 ∧ NMap.get false bcastR.recv (pieceKey 1 1) =
    false ∧ (colP 2 9569280 (pay 176)).addr = (bcastR.pieceAt 1 1).fst ∧ (colP 2 9569280 (pay 176)).payload.length = (bcastR.pieceAt 1 1).snd ∧ 0 <
    clCount bcastR.raw ∧ (colS bcastR).permit 1 (colP 2 9569280 (pay 176)).addr (colP 2 9569280 (pay 176)).payload.length = true ∧ (∀ (j : Nat), j <
    chunksOf (clCount bcastR.raw) → j ≠ 1 → NMap.get false bcastR.recv (pieceKey 1 j) = true) ∧ 1 < bcastR.size ∧ (colS bcastR).colBusy bcastR =
    false ∧ (colS bcastR).on (Reg.FLT_STRAG_CFG.enable bcastR.part) = false) ∧
    (InColl (colS redC) 5 (colP 5 9569280 (pay 16)) 1 redC 1 ∧ Collecting redC ∧ Live (colS redC) (colP 5 9569280 (pay 16)).addr (colP 5 9569280 (pay
    16)).payload.length ∧ redC.mode = 2 ∧ clOp redC.raw = 1 ∧ crc32c (colP 5 9569280 (pay 16)).payload = (colP 5 9569280 (pay 16)).check ∧ 0 <
    chunksOf (redC.shard 1).snd ∧ (colP 5 9569280 (pay 16)).addr = (redC.pieceAt 1 0).fst ∧ (colP 5 9569280 (pay 16)).payload.length = (redC.pieceAt
    1 0).snd ∧ (colS redC).permit 1 (colP 5 9569280 (pay 16)).addr (colP 5 9569280 (pay 16)).payload.length = true ∧ redC.rank < redC.size ∧ 0 <
    (redC.shard redC.rank).snd) ∧
    (∀ e ∈ [(3, 8), (4, 4)], InColl (colS exactC) e.1 (colP e.1 0 (pay e.2)) 1 exactC 1 ∧ Collecting exactC ∧ exactC.mode = 2 ∧ clOp exactC.raw = 1 ∧
    exactC.exact = true ∧ crc32c (colP e.1 0 (pay e.2)).payload = (colP e.1 0 (pay e.2)).check ∧ 0 < (exactC.shard exactC.rank).snd ∧ (colP e.1 0
    (pay e.2)).addr % 4 = 0) ∧
    (InColl resendS 6 (colP 6 0 (leBytes (nat [(0, 5), (64, 9568256)]) 64)) 1 redC 1 ∧ Routable resendS (RemOp.mk colKeyA 10 259 1 (259 * 2 ^ 48 +
    9568256) none none false 5 0 0 0 9 0 0 4000 sentP).packet.dst ∧ (List.find? (fun (o : RemOp) => decide (o.type = 10) && decide (o.seq = (colP 6 0
    (leBytes (nat [(0, 5), (64, 9568256)]) 64)).seq) && decide (o.dev = redC.members.getD 1 0 % 65536) && decide (o.line = bits (leNat (List.take 64
    (colP 6 0 (leBytes (nat [(0, 5), (64, 9568256)]) 64)).payload)) 0 8) && decide (o.ga % 2 ^ 48 = bits (leNat (List.take 64 (colP 6 0 (leBytes (nat
    [(0, 5), (64, 9568256)]) 64)).payload)) 64 48)) resendS.fab.out = some (RemOp.mk colKeyA 10 259 1 (259 * 2 ^ 48 + 9568256) none none false 5 0 0
    0 9 0 0 4000 sentP)) ∧ (RemOp.mk colKeyA 10 259 1 (259 * 2 ^ 48 + 9568256) none none false 5 0 0 0 9 0 0 4000 sentP).packet.src = resendS.devId) ∧
    (InColl (colS redC) 7 (colP 7 0 (leBytes (redC.line 52) 64)) 1 redC 1 ∧ lnStatus (leNat (List.take 64 (colP 7 0 (leBytes (redC.line 52)
    64)).payload)) ≠ 0) :=
  ⟨⟨(by unfold Routable; decide +kernel), (by decide +kernel)⟩,
    ⟨(by constructor <;> first | decide +kernel | (unfold Sys2Proof.Machine.Routable; decide +kernel)), (by decide +kernel)⟩,
    ⟨(by constructor <;> first | decide +kernel | (unfold Sys2Proof.Machine.Routable; decide +kernel)), (by decide +kernel)⟩,
    ⟨(by constructor <;> first | decide +kernel | (unfold Sys2Proof.Machine.Routable; decide +kernel)), (by constructor <;> decide +kernel), (live_of (by decide +kernel)), (by decide +kernel)⟩,
    ⟨(by constructor <;> first | decide +kernel | (unfold Sys2Proof.Machine.Routable; decide +kernel)), (live_of (by decide +kernel)), (by decide +kernel)⟩,
    ⟨(by constructor <;> first | decide +kernel | (unfold Sys2Proof.Machine.Routable; decide +kernel)), (live_of (by decide +kernel)), (by decide +kernel)⟩,
    ⟨(by constructor <;> first | decide +kernel | (unfold Sys2Proof.Machine.Routable; decide +kernel)), (by constructor <;> decide +kernel), (live_of (by decide +kernel)), (by decide +kernel)⟩,
    (by simp only [List.forall_mem_cons]; and_intros <;> first | decide +kernel | exact issues_of (by decide +kernel) | (constructor <;> first | decide +kernel | (unfold Routable; decide +kernel)) | exact List.forall_mem_nil _ | (unfold Guarded; decide +kernel) | (unfold Routable; decide +kernel)),
    ⟨(by constructor <;> first | decide +kernel | (unfold Sys2Proof.Machine.Routable; decide +kernel)), (by unfold Routable; decide +kernel), (by decide +kernel)⟩,
    ⟨(by constructor <;> first | decide +kernel | (unfold Sys2Proof.Machine.Routable; decide +kernel)), (by decide +kernel)⟩⟩

/-- A state and operands that meet the hypotheses of each clause of CollectiveLife. -/
theorem witness_CollectiveLife :
    ((∀ (r : Nat), r < waitC.size → Routable (colS waitC) (waitC.members.getD r 0 % 65536)) ∧ (colS waitC).col.colls = [waitC] ∧ waitC.part = 1 ∧ 1 <
    64 ∧ (rsvP4 0 48).type = 132 ∧ (rsvP4 0 48).dst = (colS waitC).devId ∧ (colS waitC).domainPart (rsvP4 0 48).domain = some 1 ∧ waitC.started =
    true ∧ waitC.key = bits (leNat (List.take 64 (rsvP4 0 48).payload)) 0 32 ∧ waitC.mode = 0 ∧ 1 < waitC.size ∧ waitC.rank < waitC.size ∧
    waitC.ready = [] ∧ waitC.recv = [] ∧ clOp waitC.raw = 1 ∧ 0 < (waitC.shard waitC.rank).snd ∧ (rsvP4 0 48).status = 0 ∧ bits (leNat (List.take 64
    (rsvP4 0 48).payload)) 128 128 ≠ 0) ∧
    ((∀ (r : Nat), r < waitC.size → Routable (colS waitC) (waitC.members.getD r 0 % 65536)) ∧ (colS waitC).col.colls = [waitC] ∧ waitC.part = 1 ∧ 1 <
    64 ∧ (rsvP4 2 0).type = 132 ∧ (rsvP4 2 0).dst = (colS waitC).devId ∧ (colS waitC).domainPart (rsvP4 2 0).domain = some 1 ∧ waitC.started = true ∧
    waitC.key = bits (leNat (List.take 64 (rsvP4 2 0).payload)) 0 32 ∧ waitC.mode = 0 ∧ 1 < waitC.size ∧ waitC.rank < waitC.size ∧ waitC.ready = [] ∧
    waitC.recv = [] ∧ clOp waitC.raw = 1 ∧ 0 < (waitC.shard waitC.rank).snd ∧ (rsvP4 2 0).status ≠ 0) ∧
    ((colS (heldC 0)).col.colls = [heldC 0] ∧ (heldC 0).part = 1 ∧ 1 < 64 ∧ (heldC 0).started = false ∧ clOrder (heldC 0).raw = (colS (heldC 0)).rd
    (Reg.COL_ORDER.next_order 1) ∧ clCount (heldC 0).raw = 0) ∧
    ((colS (heldC 260)).col.colls = [heldC 260] ∧ (heldC 260).part = 1 ∧ 1 < 64 ∧ (heldC 260).started = false) ∧
    ((colS redC).col.colls = [redC] ∧ redC.part = 1 ∧ 1 < 64 ∧ redC.started = true ∧ 1 ≠ redC.rank ∧ 1 < redC.size) ∧
    (readyL.col.colls = [redC] ∧ redC.part = 1 ∧ 1 < 64 ∧ redC.started = true ∧ readyL.fab.out = [readyO] ∧ readyO.type = 10 ∧ readyO.line ≠ 1 ∧
    readyO.part = 1 ∧ readyO.seq = redC.key) ∧
    ((colS leasedC).col.colls = [leasedC] ∧ leasedC.part = 1 ∧ 1 < 64 ∧ leasedC.started = true ∧ leasedC.mode = 1 ∧ leasedC.die < 10) :=
  ⟨⟨(by unfold Routable; decide +kernel), (by decide +kernel)⟩,
    ⟨(by unfold Routable; decide +kernel), (by decide +kernel)⟩,
    (by and_intros <;> decide +kernel)⟩

/-! ### Wioliz -/

/-- The 64 bytes of a mailbox command from its opcode and fields. -/
def mboxRaw (op : Nat) (l : List (Nat × Nat)) : Nat := l.foldl (fun a e => a + e.2 * 2 ^ e.1) op
/-- A mailbox command with sequence number 7 is held; the firmware state is `st`; the manager owns channel 0, with some bytes at 0x4000. -/
def mboxS (st op : Nat) (l : List (Nat × Nat)) : State :=
  let s := withBytes (withRegs State.reset [(Reg.TILE_CHAN_CFG.owner 0 0, 0x40), (Reg.TILE_CHAN_CFG.ilv_code 0 0, 0), (Reg.MGT_FW_STAT.state, st),
    (Reg.MGT_MBOX_STAT.busy, 1), (Reg.MGT_MBOX_STAT.done_seq, 6), (Reg.MGT_MBOX_RESP.data 1, 0x1234)]) 0x4000 [1, 2, 3, 4, 5]
  { s with mgt := { s.mgt with cmd := some (7, mboxRaw op l), staging := [(3, 9), (5000, 8)] } }
def stageL : List (Nat × Nat) := [(64, 0x1000), (96, 5), (128, 0x4000)]
def withStandby (s : State) : State := withRegs s [(Reg.MGT_STAT.standby_ok, 1), (Reg.MGT_STAT.puf_ok, 1)]
def cfgL (e : Nat) : List Nat := List.replicate 40 0 ++ leBytes 1 2 ++ List.replicate 22 0 ++ leBytes e 8
def cfgPrev (s : State) : State := { s with mgt := { s.mgt with prev := some ⟨cfgL 0x0301, 4, [0x3000204]⟩, live := ⟨cfgL 0x0301, 5, [0x2000502]⟩ } }
def cfgPending (s : State) : State := { s with mgt := { s.mgt with pendCfg := some ⟨cfgL 0x0301, 4, []⟩ } }
def logS (s : State) : State := { s with mgt := { s.mgt with log := [11, 22, 33], logNext := 2 } }
def partsQuiet (s : State) : State := withRegs s [(Reg.PART_STAT.state 4, 3)]
def loopS : State :=
  let s := withRegs State.reset [(Reg.MGT_PWR_CFG.limit_w, 500), (Reg.MGT_LOOP.loops, 4), (Reg.MGT_DUTY.duty_m 1, 1)]
  { s with time := { s.time with cnt := 1600001 } }
def loopA : Loop := ⟨[80, 0, 90], [3, 4], [(1, 2)], 600000, false, none, none, 0, [], false, false⟩
def trialS : State :=
  let s := withRegs State.reset [(Reg.MGT_FW_STAT.state, 4), (Reg.TIME_CTRL.servo_mgr, 1), (Reg.MGT_HEALTH.trial_s, 20)]
  { s with mgt := { s.mgt with clean := 1000, trialEnd := 4800000, old := ⟨7, 8⟩, running := ⟨9, 10⟩ } }
def smbS : State := { State.reset with mgt := { State.reset.mgt with snap := [(6, 3 + 65536 * 2)], cnt8 := 5, cnt9 := 2 } }

/-- A state and operands that meet the hypotheses of each clause of MailboxCommands. -/
theorem witness_MailboxCommands :
    (Holds (mboxS 0 1 []) 1 7 (mboxRaw 1 [])) ∧
    (Holds (mboxS 0 16 stageL) 16 7 (mboxRaw 16 stageL) ∧ ((mboxS 0 16 stageL).rd Reg.MGT_FW_STAT.state = 0 ∨ (mboxS 0 16 stageL).rd
    Reg.MGT_FW_STAT.state = 1 ∨ (mboxS 0 16 stageL).rd Reg.MGT_FW_STAT.state = 2 ∨ (mboxS 0 16 stageL).rd Reg.MGT_FW_STAT.state = 6) ∧ bits (mboxRaw
    16 stageL) 64 32 % 4096 = 0 ∧ 0 < bits (mboxRaw 16 stageL) 96 32 ∧ bits (mboxRaw 16 stageL) 96 32 ≤ 65536 ∧ bits (mboxRaw 16 stageL) 64 32 + bits
    (mboxRaw 16 stageL) 96 32 ≤ 2 ^ 24 ∧ bits (mboxRaw 16 stageL) 128 48 % 64 = 0 ∧ (mboxS 0 16 stageL).permit 64 (bits (mboxRaw 16 stageL) 128 48)
    (bits (mboxRaw 16 stageL) 96 32) = true ∧ (mboxS 0 16 stageL).mboxLost (bits (mboxRaw 16 stageL) 128 48) (bits (mboxRaw 16 stageL) 96 32) =
    false) ∧
    (Holds (mboxS 3 16 stageL) 16 7 (mboxRaw 16 stageL) ∧ ((mboxS 3 16 stageL).rd Reg.MGT_FW_STAT.state = 3 ∨ (mboxS 3 16 stageL).rd
    Reg.MGT_FW_STAT.state = 4 ∨ (mboxS 3 16 stageL).rd Reg.MGT_FW_STAT.state = 5 ∨ (mboxS 3 16 stageL).rd Reg.MGT_FW_STAT.state = 7)) ∧
    (Holds (mboxS 1 17 []) 17 7 (mboxRaw 17 []) ∧ ((mboxS 1 17 []).rd Reg.MGT_FW_STAT.state = 1 ∨ (mboxS 1 17 []).rd Reg.MGT_FW_STAT.state = 2 ∨
    (mboxS 1 17 []).rd Reg.MGT_FW_STAT.state = 6)) ∧
    (Holds (withStandby (mboxS 2 18 [])) 18 7 (mboxRaw 18 []) ∧ (withStandby (mboxS 2 18 [])).rd Reg.MGT_FW_STAT.state = 2 ∧ (withStandby (mboxS 2 18
    [])).on Reg.MGT_STAT.standby_ok = true) ∧
    (Holds (mboxS 2 18 []) 18 7 (mboxRaw 18 []) ∧ (mboxS 2 18 []).rd Reg.MGT_FW_STAT.state = 2 ∧ (mboxS 2 18 []).on Reg.MGT_STAT.standby_ok = false) ∧
    (Holds (mboxS 4 19 []) 19 7 (mboxRaw 19 []) ∧ (mboxS 4 19 []).rd Reg.MGT_FW_STAT.state = 4 ∧ (mboxS 4 19 []).mgt.trialResets = []) ∧
    (Holds (mboxS 0 32 [(128, 16384), (192, 100)]) 32 7 (mboxRaw 32 [(128, 16384), (192, 100)]) ∧ (mboxS 0 32 [(128, 16384), (192, 100)]).mgt.pendCfg
    = none ∧ 0 < bits (mboxRaw 32 [(128, 16384), (192, 100)]) 192 32 ∧ bits (mboxRaw 32 [(128, 16384), (192, 100)]) 128 48 % 64 = 0 ∧ (mboxS 0 32
    [(128, 16384), (192, 100)]).permit 64 (bits (mboxRaw 32 [(128, 16384), (192, 100)]) 128 48) (bits (mboxRaw 32 [(128, 16384), (192, 100)]) 192 32)
    = true ∧ (mboxS 0 32 [(128, 16384), (192, 100)]).mboxLost (bits (mboxRaw 32 [(128, 16384), (192, 100)]) 128 48) (bits (mboxRaw 32 [(128, 16384),
    (192, 100)]) 192 32) = false) ∧
    (Holds (withStandby (mboxS 0 33 [(64, 3), (72, 100)])) 33 7 (mboxRaw 33 [(64, 3), (72, 100)]) ∧ (withStandby (mboxS 0 33 [(64, 3), (72,
    100)])).mgt.pendCfg = none ∧ (withStandby (mboxS 0 33 [(64, 3), (72, 100)])).on Reg.MGT_STAT.puf_ok = true ∧ unitKnown (bits (mboxRaw 33 [(64,
    3), (72, 100)]) 64 8) (bits (mboxRaw 33 [(64, 3), (72, 100)]) 72 16) = true) ∧
    (Holds (cfgPrev (mboxS 0 34 [])) 34 7 (mboxRaw 34 []) ∧ (cfgPrev (mboxS 0 34 [])).mgt.pendCfg = none ∧ (cfgPrev (mboxS 0 34 [])).mgt.prev = some
    (Cfg.mk (cfgL 769) 4 [50332164])) ∧
    (Holds (cfgPending (mboxS 0 35 [])) 35 7 (mboxRaw 35 []) ∧ (cfgPending (mboxS 0 35 [])).mgt.pendCfg ≠ none) ∧
    (Holds (withStandby (mboxS 0 48 [(64, 16384), (128, 32768)])) 48 7 (mboxRaw 48 [(64, 16384), (128, 32768)]) ∧ Live (withStandby (mboxS 0 48 [(64,
    16384), (128, 32768)])) (bits (mboxRaw 48 [(64, 16384), (128, 32768)]) 128 48) 2932 ∧ (withStandby (mboxS 0 48 [(64, 16384), (128, 32768)])).on
    Reg.MGT_STAT.puf_ok = true ∧ bits (mboxRaw 48 [(64, 16384), (128, 32768)]) 64 48 % 64 = 0 ∧ (withStandby (mboxS 0 48 [(64, 16384), (128,
    32768)])).permit 64 (bits (mboxRaw 48 [(64, 16384), (128, 32768)]) 64 48) 32 = true ∧ bits (mboxRaw 48 [(64, 16384), (128, 32768)]) 128 48 % 64 =
    0 ∧ (withStandby (mboxS 0 48 [(64, 16384), (128, 32768)])).permit 64 (bits (mboxRaw 48 [(64, 16384), (128, 32768)]) 128 48) 2932 = true ∧
    (withStandby (mboxS 0 48 [(64, 16384), (128, 32768)])).mboxLost (bits (mboxRaw 48 [(64, 16384), (128, 32768)]) 64 48) 32 = false) ∧
    (Holds (mboxS 0 49 [(128, 32768)]) 49 7 (mboxRaw 49 [(128, 32768)]) ∧ Live (mboxS 0 49 [(128, 32768)]) (bits (mboxRaw 49 [(128, 32768)]) 128 48)
    Config.cert.length ∧ bits (mboxRaw 49 [(128, 32768)]) 128 48 % 64 = 0) ∧
    (Holds (logS (mboxS 0 50 [(64, 0), (96, 1), (128, 32768)])) 50 7 (mboxRaw 50 [(64, 0), (96, 1), (128, 32768)]) ∧ Live (logS (mboxS 0 50 [(64, 0),
    (96, 1), (128, 32768)])) (bits (mboxRaw 50 [(64, 0), (96, 1), (128, 32768)]) 128 48) (64 * bits (mboxRaw 50 [(64, 0), (96, 1), (128, 32768)]) 96
    16) ∧ 0 < bits (mboxRaw 50 [(64, 0), (96, 1), (128, 32768)]) 96 16 ∧ bits (mboxRaw 50 [(64, 0), (96, 1), (128, 32768)]) 96 16 ≤ 4096 ∧ bits
    (mboxRaw 50 [(64, 0), (96, 1), (128, 32768)]) 128 48 % 64 = 0 ∧ (logS (mboxS 0 50 [(64, 0), (96, 1), (128, 32768)])).permit 64 (bits (mboxRaw 50
    [(64, 0), (96, 1), (128, 32768)]) 128 48) (64 * bits (mboxRaw 50 [(64, 0), (96, 1), (128, 32768)]) 96 16) = true ∧ 0 < 2 ∧ 2 ≤ (logS (mboxS 0 50
    [(64, 0), (96, 1), (128, 32768)])).mgt.log.length ∧ 2 < 2 ^ 31 ∧ (logS (mboxS 0 50 [(64, 0), (96, 1), (128, 32768)])).mgt.logNext < 2 ^ 32 ∧ bits
    (mboxRaw 50 [(64, 0), (96, 1), (128, 32768)]) 64 32 = ((logS (mboxS 0 50 [(64, 0), (96, 1), (128, 32768)])).mgt.logNext + 2 ^ 32 - 2) % 2 ^ 32) ∧
    (Holds (partsQuiet (mboxS 0 64 [(64, 1)])) 64 7 (mboxRaw 64 [(64, 1)]) ∧ (bits (mboxRaw 64 [(64, 1)]) 64 2 = 0 ∨ bits (mboxRaw 64 [(64, 1)]) 64 2
    = 1 ∧ ∀ (p : Nat), p < 64 → (partsQuiet (mboxS 0 64 [(64, 1)])).partState p = 0 ∨ (partsQuiet (mboxS 0 64 [(64, 1)])).partState p = 3)) ∧
    (Holds (mboxS 0 64 [(64, 2)]) 64 7 (mboxRaw 64 [(64, 2)]) ∧ bits (mboxRaw 64 [(64, 2)]) 64 2 = 2 ∧ (bit (mboxRaw 64 [(64, 2)]) 66 = true ∨ ∀ (p :
    Nat), p < 64 → (mboxS 0 64 [(64, 2)]).partState p = 0)) ∧
    (Holds (withRegs (mboxS 0 64 [(64, 1)]) [(Reg.PART_STAT.state 4, 1)]) 64 7 (mboxRaw 64 [(64, 1)]) ∧ 4 < 64 ∧ (withRegs (mboxS 0 64 [(64, 1)])
    [(Reg.PART_STAT.state 4, 1)]).partState 4 = 1 ∧ (bits (mboxRaw 64 [(64, 1)]) 64 2 = 1 ∨ bits (mboxRaw 64 [(64, 1)]) 64 2 = 2 ∧ bit (mboxRaw 64
    [(64, 1)]) 66 = false)) ∧
    (Holds (mboxS 0 65 [(64, 1), (96, 900)]) 65 7 (mboxRaw 65 [(64, 1), (96, 900)]) ∧ settingRange (bits (mboxRaw 65 [(64, 1), (96, 900)]) 64 16)
    (bits (mboxRaw 65 [(64, 1), (96, 900)]) 96 32) = true) ∧
    (Holds (mboxS 0 65 [(64, 3), (96, 96)]) 65 7 (mboxRaw 65 [(64, 3), (96, 96)]) ∧ settingRange (bits (mboxRaw 65 [(64, 3), (96, 96)]) 64 16) (bits
    (mboxRaw 65 [(64, 3), (96, 96)]) 96 32) = false) ∧
    (Holds (mboxS 0 66 [(64, 3)]) 66 7 (mboxRaw 66 [(64, 3)]) ∧ 0 < bits (mboxRaw 66 [(64, 3)]) 64 16 ∧ bits (mboxRaw 66 [(64, 3)]) 64 16 ≤ 4 ∧
    (¬bits (mboxRaw 66 [(64, 3)]) 64 16 ∈ (mboxS 0 66 [(64, 3)]).mgt.trialResets)) :=
  ⟨(by unfold Holds; decide +kernel),
    ⟨(by unfold Holds; decide +kernel), (by decide +kernel)⟩,
    ⟨(by unfold Holds; decide +kernel), (by decide +kernel)⟩,
    ⟨(by unfold Holds; decide +kernel), (by decide +kernel)⟩,
    ⟨(by unfold Holds; decide +kernel), (by decide +kernel)⟩,
    ⟨(by unfold Holds; decide +kernel), (by decide +kernel)⟩,
    ⟨(by unfold Holds; decide +kernel), (by decide +kernel)⟩,
    ⟨(by unfold Holds; decide +kernel), (by decide +kernel)⟩,
    ⟨(by unfold Holds; decide +kernel), (by decide +kernel)⟩,
    ⟨(by unfold Holds; decide +kernel), (by decide +kernel)⟩,
    ⟨(by unfold Holds; decide +kernel), (by decide +kernel)⟩,
    ⟨(by unfold Holds; decide +kernel), (live_of (by decide +kernel)), (by decide +kernel)⟩,
    ⟨(by unfold Holds; decide +kernel), (live_of (by decide +kernel)), (by decide +kernel)⟩,
    ⟨(by unfold Holds; decide +kernel), (live_of (by decide +kernel)), (by decide +kernel)⟩,
    ⟨(by unfold Holds; decide +kernel), (by decide +kernel)⟩,
    ⟨(by unfold Holds; decide +kernel), (by decide +kernel)⟩,
    ⟨(by unfold Holds; decide +kernel), (by decide +kernel)⟩,
    ⟨(by unfold Holds; decide +kernel), (by decide +kernel)⟩,
    ⟨(by unfold Holds; decide +kernel), (by decide +kernel)⟩,
    ⟨(by unfold Holds; decide +kernel), (by decide +kernel)⟩⟩

/-- A state and operands that meet the hypotheses of each clause of ManagementLoop. -/
theorem witness_ManagementLoop :
    (loopS.pins.stopped = false ∧ loopA.overrun = false ∧ loopA.rate = none ∧ loopA.send = [] ∧ loopS.rd Reg.MGT_FW_STAT.state ≠ 3 ∧ loopS.mgt.boot %
    4 = 3 ∧ loopS.rd Reg.MGT_FW_STAT.state ≠ 4 ∧ loopS.mgt.pendSet = [] ∧ loopS.mgt.boardNext = none ∧ loopS.mgt.submit = none) ∧
    ((withStandby loopS).rd Reg.MGT_FW_STAT.state ≠ 4 ∧ (withStandby loopS).on Reg.MGT_STAT.standby_ok = true) ∧
    (trialS.rd Reg.MGT_FW_STAT.state = 4 ∧ 1000 ≤ trialS.mgt.clean ∧ trialS.on Reg.TIME_CTRL.servo_mgr = true) ∧
    (trialS.rd Reg.MGT_FW_STAT.state = 4 ∧ trialS.mgt.trialResets = []) ∧
    (trialS.mgt.boot % 4 = 3) ∧
    ((true = false ∨ 4 ≠ 5 ∨ trialS.mgt.boot % 4 ≠ 3)) :=
  by and_intros <;> decide +kernel

/-! ### Pins, reset and the test access port -/

/-- Powered or not, stopped or not, link training begun or not, with a wake cause latched and some state to lose. -/
def pinS (good stopped perst : Bool) (latch : Nat) : State :=
  let s := withRegs (withBanks State.reset [(keyA, bankA)]) [(Reg.HQ_LINK.up, 1), (Reg.PART_STAT.state 4, 1), (Reg.MGT_STAT.state, 2)]
  { s with
    pins := { s.pins with pwrGood := good, stopped := stopped, coreReady := !stopped, perst := perst, latch := latch }
    host := [(5, 6)], mem := { s.mem with bytes := [(7, 8)] }, mgt := { s.mgt with log := [9], primary := ⟨3, 4⟩ } }
def pinLate : State := let s := pinS true true false 4; { s with pins := { s.pins with unlisted := [(2, 63)] } }

/-- A state and operands that meet the hypotheses of each clause of PinsAndReset. -/
theorem witness_PinsAndReset :
    ((pinS false false false 3).pins.pwrGood = false) ∧
    ((pinS true false true 3).pins.pwrGood = true) ∧
    ((pinS true false true 3).pins.pwrGood = true ∧ 1000 < 1001) ∧
    (1000 ≤ 1000) ∧
    ((pinS true false true 3).pins.stopped = false) ∧
    (10000 ≤ 10000 ∧ ((pinS true false true 1).pins.pwrGood = false ∨ (pinS true false true 1).rd Reg.MGT_STAT.state = 2)) ∧
    ((pinS true true false 4).pins.stopped = true ∧ (pinS true true false 4).pins.pwrGood = true ∧ (pinS true true false 4).rd Reg.MGT_FW_STAT.state
    = 0 ∧ (pinS true true false 4).mgt.pendCfg = none ∧ (pinS true true false 4).mgt.live.units = [] ∧ (pinS true true false 4).mgt.stored = [] ∧
    (pinS true true false 4).pins.unlisted = []) ∧
    ((pinS true true false 4).pins.stopped = true ∧ (pinS true true false 4).pins.pwrGood = true ∧ (pinS true true false 4).rd Reg.MGT_FW_STAT.state
    = 0 ∧ (pinS true true false 4).mgt.pendCfg = none ∧ (pinS true true false 4).mgt.live.units = [] ∧ (pinS true true false 4).mgt.stored = [] ∧
    unitKnown (2, 63).fst (2, 63).snd = true ∧ (pinS true true false 4).pins.unlisted = []) ∧
    (pinLate.pins.stopped = true ∧ pinLate.pins.pwrGood = true ∧ pinLate.rd Reg.MGT_FW_STAT.state = 0 ∧ pinLate.mgt.pendCfg = none ∧
    pinLate.mgt.live.units = [] ∧ pinLate.mgt.stored = [] ∧ unitKnown (2, 63).fst (2, 63).snd = true ∧ pinLate.pins.unlisted = [(2, 63)]) ∧
    ((pinS true false false 4).pins.coreReady = true) ∧
    ((pinS true false true 4).pins.perst = true) :=
  by and_intros <;> decide +kernel

end Sys2Proof.Tests
end

section
/-! PROOFS. A COMMIT or REVERT that is refused (R81): the cases of a refused write of BLK_COMMIT, what such a write leaves, and the
three commands that reach it. -/

namespace Sys2Proof.Machine

/-! ### The blocks' commit registers (R78) -/

theorem blocks_aligned : ∀ b, b ∈ blocks.map Prod.fst → b % 0x100000 = 0 := by decide

/-- In every block BLK_COMMIT is a 32-bit register, none of whose bits must be zero (R552). -/
theorem regRow_blkCommit : ∀ b, b ∈ blocks.map Prod.fst →
    (regRow (b + 0xFFF00)).map (fun r => (r.width, r.zero)) = some (32, 0) := by decide

theorem emptyOwn_blkCommit : ∀ b, b ∈ blocks.map Prod.fst → emptyOwn (b + 0xFFF00) = false := by decide

theorem blocks_any_base {b : Nat} (hb : b ∈ blocks.map Prod.fst) (p : Nat × Nat → Bool) (hp : ∀ e, e.1 = b → p e = true) :
    blocks.any p = true := by
  obtain ⟨e, he, rfl⟩ := List.mem_map.mp hb
  exact List.any_eq_true.mpr ⟨e, he, hp e rfl⟩

/-! ### What a refused write of BLK_COMMIT leaves -/

/-- R81: the cases in which a write of BLK_COMMIT with fields op and gen is refused. -/
inductive State.CommitBad (s : State) (b op gen : Nat) : Prop
  | noOp (h : op = 0)
  | reserved (h : op = 3)
  | pending (h : s.on (blkPending b) = true)
  | wrongGen (h : gen ≠ if op = 1 then (s.rd (blkGen b) + 1) % 2 ^ 30 else s.rd (blkGen b))
  | noPrev (hop : op = 2) (h : s.on (blkPrev b) = false)

/-- The record TICK.COMMIT_REFUSED (R81). -/
def State.commitRec (s : State) : FRec := ⟨0x2003, 0x40, 8 + s.rd Reg.TICK_STAT.active_unit, 0, 0, 1, 0, 0, 0⟩

/-- The write of BLK_COMMIT of block b that leads from s to t was refused: the operations of every block stand as they did, `refused` is
set, and the record is written. -/
def CommitRefusal (s t : State) (b : Nat) : Prop :=
  ∃ u : State, t.on (blkRefused b) = true ∧ t.rd (blkPending b) = s.rd (blkPending b) ∧ t.rd (blkRevert b) = s.rd (blkRevert b) ∧
    t.rd (blkGen b) = s.rd (blkGen b) ∧ t.tick = s.tick ∧ t.shadow = s.shadow ∧ t.prev = s.prev ∧
    u = { s with regs := u.regs } ∧ OnlyRegs s u [b + 0xFFF08] ∧ Raised u t s.commitRec

theorem State.blkCommit_bad (s : State) {b v : Nat} (hb : b ∈ blocks.map Prod.fst) (h : s.CommitBad b (bits v 30 2) (bits v 0 30)) :
    s.blkCommit b v = (s.wr (blkRefused b) 1).fault s.commitRec := by
  have hany : ¬ blocks.any (fun e => e.1 == b) = false := by
    simp [blocks_any_base hb (fun e => e.1 == b) (fun e he => beq_iff_eq.mpr he)]
  unfold State.blkCommit
  simp only [if_neg hany]
  rw [if_pos]
  · rfl
  · obtain h | h | h | h | ⟨hop, h⟩ := h
    case wrongGen => simpa using .inl (.inr h)
    all_goals simp [*]

theorem State.rd_of_reg {s t : State} {f : Fld} (h : t.reg f.off = s.reg f.off) : t.rd f = s.rd f := by
  unfold State.rd; rw [h]

/-- No fault record changes a BLK_COMMIT_STAT. -/
theorem Raised.rd_blkStat {s t : State} {r : FRec} (h : Raised s t r) {b : Nat} (hb : b ∈ blocks.map Prod.fst) (f : Fld)
    (hf : f.off = b + 0xFFF08) : t.rd f = s.rd f := by
  have ha := blocks_aligned b hb
  refine State.rd_of_reg (h.regs _ ?_ ?_)
  · omega
  · simp only [Reg.HQ_LINK.up]
    omega

/-- A fault record leaves the pending operations, the shadow copy and the previous generation. -/
theorem Raised.commit_frame {s t : State} {r : FRec} (h : Raised s t r) : t.tick = s.tick ∧ t.shadow = s.shadow ∧ t.prev = s.prev := by
  rw [h.rest]
  exact ⟨rfl, rfl, rfl⟩

theorem State.commitRefusal_of_bad (s : State) {b v : Nat} (hb : b ∈ blocks.map Prod.fst)
    (h : s.CommitBad b (bits v 30 2) (bits v 0 30)) : CommitRefusal s (s.blkCommit b v) b := by
  rw [State.blkCommit_bad s hb h]
  have hr := State.fault_raised (s.wr (blkRefused b) 1) s.commitRec (by simp [State.commitRec])
  have hstat : ∀ f : Fld, f.off = b + 0xFFF08 → f.lo + f.w ≤ 35 →
      ((s.wr (blkRefused b) 1).fault s.commitRec).rd f = s.rd f := fun f hf hw =>
    (hr.rd_blkStat hb f hf).trans (State.rd_wr_apart s _ f 1 (by simp [blkRefused]) hf (.inl hw))
  obtain ⟨htick, hshadow, hprev⟩ := hr.commit_frame
  refine ⟨s.wr (blkRefused b) 1, ?_, hstat _ rfl (by simp [blkPending]), hstat _ rfl (by simp [blkRevert]),
    hstat _ rfl (by simp [blkGen]), htick.trans (State.setReg_tick s _ _), hshadow.trans (State.setReg_shadow s _ _),
    hprev.trans (State.setReg_prev s _ _), State.wr_rest s _ 1, fun o ho => State.reg_wr_ne s _ 1 (List.ne_of_not_mem_cons ho), hr⟩
  unfold State.on
  rw [hr.rd_blkStat hb _ rfl]
  exact State.on_wr_one s _ (by simp [blkRefused]) rfl

/-! ### The commands that write BLK_COMMIT -/

/-- COMMIT writes BLK_COMMIT with op 0b01 (R79). -/
theorem exec_commit (b gen : Nat) (s : State) : exec (.commit b gen) s = .next (s.blkCommit b (1 * 2 ^ 30 + gen % 2 ^ 30)) := rfl

/-- REVERT writes it with op 0b10 (R80). -/
theorem exec_revert (b gen : Nat) (s : State) : exec (.revert b gen) s = .next (s.blkCommit b (2 * 2 ^ 30 + gen % 2 ^ 30)) := rfl

theorem State.commitRefusal_of_op (s : State) {b op gen : Nat} (hb : b ∈ blocks.map Prod.fst) (ho : op < 4) (hg : gen < 2 ^ 30)
    (h : s.CommitBad b op gen) : CommitRefusal s (s.blkCommit b (op * 2 ^ 30 + gen % 2 ^ 30)) b := by
  have hop : bits (op * 2 ^ 30 + gen % 2 ^ 30) 30 2 = op := by unfold bits; omega
  have hgen : bits (op * 2 ^ 30 + gen % 2 ^ 30) 0 30 = gen := by unfold bits; omega
  exact s.commitRefusal_of_bad hb (by rwa [hop, hgen])

/-- A write of BLK_COMMIT as a whole register has the meaning of R79 to R81 alone. -/
theorem State.regWrite_blkCommit (s : State) {b off : Nat} (hb : b ∈ blocks.map Prod.fst) (ho : off = b + 0xFFF00) (r : RegRow)
    (hz : r.zero = 0) (v : Nat) : s.regWrite off r v = s.blkCommit b v := by
  have ha := blocks_aligned b hb
  have hoff : off % 0x100000 = 0xFFF00 := by omega
  have hsub : off - 0xFFF00 = b := by omega
  have hne : ∀ o, o % 0x100000 ≠ 0xFFF00 → off ≠ o := fun o h e => h (e ▸ hoff)
  have hany := blocks_any_base hb (fun e => decide (e.1 + 0xFFF00 = off)) (fun e he => by simp [he, ho])
  have hzero : Nat.land v r.zero = 0 := by rw [hz]; exact Nat.and_zero v
  have hown : ¬ emptyOwn off = true := by rw [ho, emptyOwn_blkCommit b hb]; decide
  unfold State.regWrite
  extract_lets w plain bad
  rw [if_neg (not_not_intro hzero), if_neg hown]
  repeat rw [if_neg (hne _ (by decide))]
  rw [if_pos ⟨hoff, hany⟩, hsub]

/-- A host write of the low word at BLK_COMMIT of a present block reaches it. -/
theorem exec_registerWrite_blkCommit (req : Nat) {b : Nat} (hb : b ∈ blocks.map Prod.fst) (v : Word) (s : State)
    (hp : s.pins.stopped = false) (hd : s.deadTile (b + 0xFFF00) = false) :
    exec (.registerWrite req (b + 0xFFF00) 0x0F v) s = .next (s.blkCommit b (v.toNat % 2 ^ 32)) := by
  have ha := blocks_aligned b hb
  have hal : (b + 0xFFF00) / 8 * 8 = b + 0xFFF00 := by omega
  obtain ⟨r, hr, hrow⟩ := Option.map_eq_some_iff.mp (regRow_blkCommit b hb)
  obtain ⟨hw, hz⟩ : r.width = 32 ∧ r.zero = 0 := by simpa using hrow
  have hword : s.wordWrite req (b + 0xFFF00) (v.toNat % 2 ^ 32) = s.blkCommit b (v.toNat % 2 ^ 32) := by
    unfold State.wordWrite
    simp only [hd, hr, hw, Bool.false_eq_true, if_false, if_true]
    exact State.regWrite_blkCommit s hb rfl r hz _
  show execRegisterWrite req (b + 0xFFF00) 0x0F v s = _
  unfold execRegisterWrite
  simp only [hp, hal, Bool.false_eq_true, if_false, if_true]
  exact congrArg _ hword

/-- Settles O30: each case of R81 is one of a refused write of BLK_COMMIT, and COMMIT, REVERT and the register write all make one. -/
theorem commitRefused : Obligations.CommitRefused := by
  unfold Obligations.CommitRefused
  intro s b hb
  refine ⟨fun gen hg h => ?_, fun gen hg h => ?_, fun req v h hp hd => ?_⟩
  · have hbad : s.CommitBad b 1 gen := by
      obtain hn | hpend := h
      · exact .wrongGen hn
      · exact .pending hpend
    obtain ⟨u, hu⟩ := s.commitRefusal_of_op hb (by decide) hg hbad
    exact ⟨_, u, exec_commit b gen s, hu⟩
  · have hbad : s.CommitBad b 2 gen := by
      obtain hn | hpend | hprev := h
      · exact .wrongGen hn
      · exact .pending hpend
      · exact .noPrev rfl hprev
    obtain ⟨u, hu⟩ := s.commitRefusal_of_op hb (by decide) hg hbad
    exact ⟨_, u, exec_revert b gen s, hu⟩
  · have hop : bits (v.toNat % 2 ^ 32) 30 2 = bits v.toNat 30 2 := by unfold bits; omega
    have hbad : s.CommitBad b (bits (v.toNat % 2 ^ 32) 30 2) (bits (v.toNat % 2 ^ 32) 0 30) := by
      obtain h0 | h3 := h
      · exact .noOp (hop.trans h0)
      · exact .reserved (hop.trans h3)
    obtain ⟨u, hu⟩ := s.commitRefusal_of_bad hb hbad
    exact ⟨_, u, exec_registerWrite_blkCommit req hb v s hp hd, hu⟩

end Sys2Proof.Machine
end

section
/-! PROOFS. A write of TIME_RATE (R367, R368): the clamp and its mark, time rebased on itself, and what else the write leaves. -/

namespace Sys2Proof.Machine

/-! ### The limit and its mark (R368) -/

/-- The rate in force after r is written. -/
def clampRate (r : Int) : Int := max (-rateLimit) (min rateLimit r)

/-- A write of the rate r marks rate_clamped when the limit changes it. -/
def State.markClamped (s : State) (r : Int) : State :=
  if clampRate r = r then s else s.wr Reg.TIME_STAT.rate_clamped 1

theorem State.markClamped_within (s : State) {r : Int} (h : clampRate r = r) : s.markClamped r = s := if_pos h

theorem State.markClamped_beyond (s : State) {r : Int} (h : clampRate r ≠ r) :
    s.markClamped r = s.wr Reg.TIME_STAT.rate_clamped 1 := if_neg h

theorem State.markClamped_rest (s : State) (r : Int) : s.markClamped r = { s with regs := (s.markClamped r).regs } := by
  by_cases h : clampRate r = r
  · rw [s.markClamped_within h]
  · rw [s.markClamped_beyond h]; exact State.wr_rest s _ 1

@[simp] theorem State.markClamped_time (s : State) (r : Int) : (s.markClamped r).time = s.time := by rw [s.markClamped_rest r]

theorem State.reg_markClamped_ne (s : State) (r : Int) {o : Nat} (h : o ≠ 0x200008) : (s.markClamped r).reg o = s.reg o := by
  by_cases hc : clampRate r = r
  · rw [s.markClamped_within hc]
  · rw [s.markClamped_beyond hc]; exact s.reg_wr_ne _ 1 h

/-- The mark leaves the other fields of every register. -/
theorem State.rd_markClamped_other (s : State) (r : Int) (f : Fld) (h : f.off ≠ 0x200008 ∨ f.lo + f.w ≤ 10 ∨ 11 ≤ f.lo) :
    (s.markClamped r).rd f = s.rd f := by
  by_cases hc : clampRate r = r
  · rw [s.markClamped_within hc]
  · rw [s.markClamped_beyond hc]; exact s.rd_wr_other _ f 1 (by decide) h

/-! ### A rate takes effect (R367) -/

/-- Corrected time at the cycle count of its base is the base. -/
@[simp] theorem TimeSt.at_baseCnt (t : TimeSt) : t.at t.baseCnt = t.baseT := by simp [TimeSt.at]

/-- Time rebased on its present value, with the clamped rate. -/
def State.rebased (s : State) (r : Int) : TimeSt := { s.time with baseT := s.t32, baseCnt := s.time.cnt, rate := clampRate r }

theorem State.applyRate_eq (s : State) (r : Int) :
    s.applyRate r = ({ s.markClamped r with time := s.rebased r }).wr Reg.TIME_RATE.rate (ofInt (clampRate r) 36) := by
  have ht : (s.markClamped r).t32 = s.t32 := by simp [State.t32]
  calc s.applyRate r = ({ s.markClamped r with time := (s.markClamped r).rebased r }).wr Reg.TIME_RATE.rate (ofInt (clampRate r) 36) := rfl
    _ = _ := by simp only [State.rebased, State.markClamped_time, ht]

@[simp] theorem State.applyRate_time (s : State) (r : Int) : (s.applyRate r).time = s.rebased r := by rw [State.applyRate_eq]; rfl

theorem State.applyRate_rate (s : State) (r : Int) : (s.applyRate r).time.rate = clampRate r := by rw [State.applyRate_time]; rfl

theorem State.applyRate_cnt (s : State) (r : Int) : (s.applyRate r).time.cnt = s.time.cnt := by rw [State.applyRate_time]; rfl

/-- T does not jump when a rate takes effect. -/
theorem State.applyRate_t32 (s : State) (r : Int) : (s.applyRate r).t32 = s.t32 := by
  unfold State.t32
  rw [State.applyRate_time]
  exact TimeSt.at_baseCnt (s.rebased r)

theorem State.applyRate_rest (s : State) (r : Int) :
    s.applyRate r = { s with regs := (s.applyRate r).regs, time := (s.applyRate r).time } := by
  rw [State.applyRate_eq, State.markClamped_rest]; rfl

theorem ofInt_lt (i : Int) (w : Nat) : ofInt i w < 2 ^ w := by
  have hw : (0 : Int) < ((2 ^ w : Nat) : Int) := by exact_mod_cast Nat.two_pow_pos w
  have hlt := Int.emod_lt_of_pos i hw
  unfold ofInt
  omega

theorem State.rd_applyRate_rate (s : State) (r : Int) : (s.applyRate r).rd Reg.TIME_RATE.rate = ofInt (clampRate r) 36 := by
  rw [State.applyRate_eq, State.rd_wr _ _ _ (by decide)]
  exact Nat.mod_eq_of_lt (ofInt_lt _ 36)

/-- Registers other than TIME_RATE are those of the mark. -/
theorem State.reg_applyRate_ne (s : State) (r : Int) {o : Nat} (h : o ≠ 0x200030) : (s.applyRate r).reg o = (s.markClamped r).reg o := by
  rw [State.applyRate_eq]; exact State.reg_wr_ne _ _ _ h

theorem State.rd_applyRate_ne (s : State) (r : Int) (f : Fld) (h : f.off ≠ 0x200030) : (s.applyRate r).rd f = (s.markClamped r).rd f :=
  State.rd_of_reg (s.reg_applyRate_ne r h)

/-- A rate that takes effect sets rate_clamped when it is beyond the limit. -/
theorem State.applyRate_clamped (s : State) {r : Int} (h : clampRate r ≠ r) : (s.applyRate r).on Reg.TIME_STAT.rate_clamped = true := by
  unfold State.on
  rw [s.rd_applyRate_ne r _ (by decide), s.markClamped_beyond h]
  exact s.on_wr_one _ (by decide) rfl

/-- One within the limit leaves rate_clamped. -/
theorem State.rd_applyRate_clamped (s : State) {r : Int} (h : clampRate r = r) :
    (s.applyRate r).rd Reg.TIME_STAT.rate_clamped = s.rd Reg.TIME_STAT.rate_clamped := by
  rw [s.rd_applyRate_ne r _ (by decide), s.markClamped_within h]

theorem State.on_applyRate_holdover (s : State) (r : Int) : (s.applyRate r).on Reg.TIME_STAT.holdover = s.on Reg.TIME_STAT.holdover := by
  unfold State.on
  rw [s.rd_applyRate_ne r _ (by decide), s.rd_markClamped_other r _ (by decide)]

theorem State.applyRate_onlyRegs (s : State) (r : Int) : OnlyRegs s (s.applyRate r) [0x200008, 0x200030] := by
  intro o ho
  obtain ⟨hstat, hrate⟩ : o ≠ 0x200008 ∧ o ≠ 0x200030 := by simpa using ho
  rw [s.reg_applyRate_ne r hrate, s.reg_markClamped_ne r hstat]

/-! ### The write of TIME_RATE -/

/-- The cycle of the last write of TIME_RATE is now, which the watchdog of R373 goes by. -/
def State.rateWritten (s : State) : State := { s with time := { s.time with lastRate := s.time.cnt } }

/-- Outside fabric time and holdover a written rate takes effect. -/
theorem State.timeRate_live (s : State) (v : Nat) (hs : s.rd Reg.TIME_CTRL.source ≠ 2) (hh : s.on Reg.TIME_STAT.holdover = false) :
    s.timeRate v = s.rateWritten.applyRate (sInt v 36) := by
  simp [State.timeRate, State.rateWritten, hs, hh]

/-- Settles O35: the write notes its cycle and then a rate takes effect, clamped. -/
theorem timeRateLimited : Obligations.TimeRateLimited := by
  unfold Obligations.TimeRateLimited
  intro s v _ hsource hhold r
  have hstep : exec (.timeRate v) s = .next (s.rateWritten.applyRate (sInt v 36)) :=
    congrArg Host.Outcome.next (s.timeRate_live v hsource hhold)
  have hr : r = clampRate (sInt v 36) := rfl
  refine ⟨_, hstep, s.rateWritten.applyRate_t32 _, s.rateWritten.applyRate_rate _, s.rateWritten.applyRate_cnt _,
    s.rateWritten.rd_applyRate_rate _, ?_, ?_, ?_, ?_, s.rateWritten.applyRate_rest _⟩
  · exact (s.rateWritten.on_applyRate_holdover _).trans hhold
  · exact fun hbeyond => s.rateWritten.applyRate_clamped (hr ▸ hbeyond)
  · exact fun hwithin => s.rateWritten.rd_applyRate_clamped (hr ▸ hwithin)
  · exact fun o ho => s.rateWritten.applyRate_onlyRegs _ o (fun hmem => ho (List.mem_append_left [_] hmem))

end Sys2Proof.Machine
end
